-- ==== Sys2Proof/Word.lean ====
section
/-!
DEFINITION. The word types of the SH5120 (R3, R5): a byte, a 32-bit doubleword, and the byte string of a frame or of a
buffer.  Byte order and bit-field helpers are in Sys2Proof/Machine/Operands.lean.
-/

namespace Sys2Proof

/-- A byte of a frame, a buffer or a message. -/
abbrev Byte := BitVec 8

/-- A doubleword: a BAR0 register, a descriptor word, a message word (R3, R5). -/
abbrev Word := BitVec 32

/-- A string of bytes, first byte first. -/
abbrev Bytes := List Byte

end Sys2Proof
end

