-- ==== Sys2Proof/Syntax.lean ====
section
/-!
DEFINITION. The commands of the block: one constructor of `Instr` for each row of spec/opcode_table.json, in the
table's order, and the types of their operands.  A command is something that reaches the block from outside (a register
access, a command of a COMMAND ring, a frame, an edge on a pin, a measurement of the analogue world) or an event of
the block's own clock whose instant the sender names by sending it.  Frame bytes exclude the FCS, as in R191.
-/

namespace Sys2Proof

/-- The path by which a register access reaches the block (R8, R48, R554): the PF's BAR0, the window of VF `k`, or the
I²C management port. -/
inductive Path where
  | pf
  | vf (k : Nat)
  | mgmt
  deriving DecidableEq, Repr

/-- A command descriptor (R82) as the engine executes it, with the bytes its indirect buffer held (`data`, of which
DATA_LEN is `dataLen`) beside its inline arguments. -/
structure Cmd where
  ring : Nat
  cookie : Word := 0
  target : Nat := 0
  lateOk : Bool := false
  indirect : Bool := false
  a0 : Word := 0
  a1 : Word := 0
  a2 : Word := 0
  a3 : Word := 0
  a4 : Word := 0
  a5 : Word := 0
  dataLen : Nat := 0
  data : Bytes := []
  deriving DecidableEq, Repr

/-- Who made an access that stalled (R416). -/
inductive StallKind where
  | bar0Read | bar0Write | firmware
  deriving DecidableEq, Repr

/-- Which DMA read failed (R77). -/
inductive DmaKind where
  | scan (fn : Nat) | descriptor (ring : Nat) | data (ring : Nat)
  deriving DecidableEq, Repr

/-- How a DMA read failed (R77). -/
inductive DmaFail where
  | unsupportedRequest | completerAbort | poisoned | timeout
  deriving DecidableEq, Repr

/-- A firmware image in a flash slot (R557): the facts of its header that the boot ROM checks, the outcome of its
signature and hash checks among them (R558). -/
structure Image where
  magicLenOk : Bool := true
  silicon : Nat := 1
  keyIndex : Nat := 0
  keyOk : Bool := true
  sigOk : Bool := true
  hashOk : Bool := true
  svn : Nat := 0
  svnCommit : Bool := false
  major : Nat := 3
  minor : Nat := 0
  patch : Nat := 0
  deriving DecidableEq, Repr

/-- What firmware loads during FW_RUN (R545 steps 3 and 4): band-table entries (PLL, entry, F_LO, F_HI, BAND),
characterised correction pairs (port, MODE, TX_CORR, RX_CORR), the tiles whose microcode verified, BR_EN of its
configuration, and the items of the timing-plane FIXED run that went unconfirmed. -/
structure FwLoad where
  bands : List (Nat × Nat × Nat × Nat × Nat) := []
  corrections : List (Nat × Nat × Int × Int) := []
  ucodeOk : Nat := 0xFF
  brEn : Bool := false
  deriving DecidableEq, Repr

/-- A received frame at the end of its FCS (R138): bytes without the FCS, the outcome of the FCS and block checks, the
phase bin of its stamp point within the TCLK cycle (R313) and the dynamic term D_rx in ps (R316); `badWord` where a codeword
that the FEC could not correct carried part of it (R124), `training` for a frame of the link training exchange (R128). -/
structure RxFrame where
  port : Nat
  bytes : Bytes
  fcsOk : Bool := true
  codeErr : Bool := false
  phase : Nat := 0
  dRx : Int := 0
  badWord : Bool := false
  training : Bool := false
  deriving DecidableEq, Repr

/-- A received flow-control frame (R142): PAUSE with its quanta, or PFC with the class-enable bits and the eight
quanta. -/
inductive FcFrame where
  | pause (quanta : Nat)
  | pfc (enable : Nat) (quanta : List Nat)
  deriving DecidableEq, Repr

/-- A fault occurrence as its source presents it to Quench (R442, R448). `momentary` says that its condition is
present only at the occurrence. -/
structure FaultOcc where
  id : Nat
  masterKind : Nat := 0
  masterId : Nat := 0
  access : Nat := 0
  addr : Nat := 0
  detail : Nat := 0
  momentary : Bool := false
  deriving DecidableEq, Repr

/-- Who asks for or releases a fence (R421, R426). -/
inductive Requester where
  | pf | firmware | quench | fwActivate
  deriving DecidableEq, Repr

/-- A phase result as the TLV of R343 carries it, in the units of R344 (ps): PHASE and EDGE in 1/16 ps, and the window's end
time in ns; `synt` is what its sender reports in L1Sync. -/
structure PartnerTlv where
  phase : Nat
  edge : Nat
  valid : Bool
  synt : Bool
  txd : Int
  rxd : Int
  winSeq : Nat := 0
  endNs : Int := 0
  deriving DecidableEq, Repr

/-- What firmware holds when a window ends (R151, R343–R345): the partner's latest phase result, if the partner sends any,
the coarse round trip and offset of the window's stamps, in 1/16 ps, whether it has completed a delay measurement begun
since the port's last entry to HOLDOFF, and whether the port is in the slave state. -/
structure WindowIn where
  partner : Option PartnerTlv := none
  fresh : Bool := true
  slave : Bool := true
  muC : Int := 0
  thetaC : Int := 0
  deriving DecidableEq, Repr

/-- A heartbeat frame (R473); times in units of 62.5 ps of the serving time. -/
structure Heartbeat where
  seq : Nat
  state : Nat
  proven : Bool
  primary : Bool
  activeOk : Bool
  t1 : Nat
  t2 : Nat
  t2Seq : Nat
  fc0 : Nat
  deriving DecidableEq, Repr

/-- A cut group's part of a snapshot (R475): number, state code, on-air candidate, target, arming frame count. -/
structure SnapCut where
  group : Nat
  state : Nat
  onAir : Nat
  target : Nat
  armFc : Nat
  deriving DecidableEq, Repr

/-- A generator's part of a snapshot (R475). -/
structure SnapGen where
  fc : Nat
  en : Bool
  num : Nat
  den : Nat
  offset : Int
  deriving DecidableEq, Repr

/-- The Rivet state snapshot (R475): increments in units of 2^-32 ns, the measured offset in ps. -/
structure Snapshot where
  gens : List SnapGen
  epoch : Nat
  oldest : Nat
  cuts : List SnapCut
  dpll0 : Nat
  inc : Nat
  offset : Int
  notCurrent : Bool
  timeValid : Bool
  discCnt : Nat
  pendId : Nat
  safety : Nat
  deriving DecidableEq, Repr

/-- A frame that the control complex hands over from logical port 257 (R36, R183, R321, R326): in lookup mode the tile
it enters, in direct mode its port, class, optional launch time (units of 62.5 ps), stamp request, one-step mark and
firmware's tag; or a frame of the link training exchange of a port (R128). -/
inductive CtrlFrame where
  | lookup (tile : Nat) (bytes : Bytes)
  | direct (port : Nat) (cls : Nat) (launch : Option (Nat × Nat)) (stampReq oneStep : Bool) (tag : Nat) (bytes : Bytes)
  | training (port : Nat) (bytes : Bytes)
  deriving DecidableEq, Repr

/-- One rail's answer to a poll (R507): `none` where the regulator did not answer. -/
structure RailReading where
  vout : Option Nat
  statusFault : Bool := false
  deriving DecidableEq, Repr

/-- A queue whose head the periodic check looks at (R182): egress port 0–257 and queue slot (0–7 the classes, with 7
the control part of class 7, 10 the host part; 8 and 9 the launch-time queues). -/
structure QueueRef where
  port : Nat
  slot : Nat
  deriving DecidableEq, Repr

/-- An event that a performance counter may count (R528), with the filter fields it carries; `cls` is a mask of classes. -/
structure PerfEvt where
  code : Nat
  fn : Option Nat := none
  srcKind : Nat := 0
  srcId : Nat := 0
  cls : Option Nat := none
  addr : Option Nat := none
  deriving DecidableEq, Repr

/-! ### Operands with parts that a row usually leaves at their default -/

/-- The data of a register write: one doubleword, or with `high` an aligned 64-bit write (R5). -/
structure WriteData where
  low : Word
  high : Option Word := none
  deriving DecidableEq, Repr

/-- What a register read asks for: one doubleword at `addr`, or with `wide` the aligned 64-bit value there (R5). -/
structure ReadAddr where
  addr : Nat
  wide : Bool := false
  deriving DecidableEq, Repr

/-- A DMA read that failed, and how (R77). -/
structure DmaError where
  kind : DmaKind
  why : DmaFail := .timeout
  deriving DecidableEq, Repr

/-- The lanes of a port that lost block lock, and the sync headers that lanes have received since the last command that told
of them (R123), by lane position. -/
structure LockLoss where
  mask : Nat
  headers : List (Nat × List Bool) := []
  deriving DecidableEq, Repr

/-- A lane of a port that its CDR has locked to, and the sync headers that it has received since (R123). -/
structure LaneLock where
  lane : Nat
  headers : List Bool := []
  deriving DecidableEq, Repr

/-- What the FEC decoder counted in a window (R124, R127). -/
structure FecCounts where
  symbols : Nat
  corrected : Nat := 0
  uncorrectable : Nat := 0
  deriving DecidableEq, Repr

/-- The banks, as masks, with an uncorrectable error in the first and in the second cell that they send in a slot, and those
that have corrected one (R198). -/
structure SlotEcc where
  first : Nat := 0
  second : Nat := 0
  corrected : Nat := 0
  deriving DecidableEq, Repr

/-- A sampled stream of the phase detector (R333): the offset-clock count from which it keeps its new value, and the earlier
stretches (count, samples) in which it held it. -/
structure Sampled where
  count : Nat
  runs : List (Nat × Nat) := []
  deriving DecidableEq, Repr

/-- Where an input edge falls: its bin of 62.5 ps in the TCLK cycle, and in units of 2^-10 ns its place in the bin. -/
structure BinEdge where
  bin : Nat
  sub : Nat := 0
  deriving DecidableEq, Repr

/-- What a DPLL's loop update is told: the phase error, and whether a PPS pulse has given a new one since the last (R378). -/
structure LoopIn where
  perr : Int
  pulse : Bool := true
  deriving DecidableEq, Repr

/-- How the TCLK side of Quench compares with the always-on side (R441). -/
inductive SideAnswer where
  | agrees | differs | silent
  deriving DecidableEq, Repr

/-- A heartbeat as it comes in, and whether its CRC is right (R471, R473). -/
structure HeartbeatIn where
  hb : Heartbeat
  crcOk : Bool := true
  deriving DecidableEq, Repr

/-- A snapshot as it comes in, and whether its CRC is right (R471, R475). -/
structure SnapshotIn where
  snap : Snapshot
  crcOk : Bool := true
  deriving DecidableEq, Repr

/-- The frame count that a pair control message names, with the reason where it tells a switch point (R484), and whether its
CRC is right. -/
structure PairMark where
  frameCount : Nat
  switch : Option Nat := none
  crcOk : Bool := true
  deriving DecidableEq, Repr

/-- The commands of the block, one for each row of the opcode table, in its order. -/
inductive Instr where
  | registerWrite (path : Path) (addr : Nat) (value : WriteData)
  | registerLowerHalfRead (path : Path) (at_ : ReadAddr)
  | unsupportedRequest (path : Path) (addr bytes : Nat) (write : Bool)
  | tplPhStatRead (path : Path) (port : Nat)
  | accessStallTimeout (kind : StallKind) (path : Path) (addr : Nat)
  | powerOn (straps : Nat)
  | vdd1v8SafeHold
  | railInWindow (rail : Nat)
  | railSeqFail (rail : Nat)
  | railSeqRetry
  | selftestComplete (tileFail blockFail fatal : Nat)
  | hifReady
  | boot
  | fwRun (load : FwLoad)
  | bootDoneTimeout
  | deviceReset (lowNs : Nat)
  | aonRailFail
  | peRstNAssert
  | peRstNDeassert
  | pcieLinkLoss
  | vfFunctionLevelReset (vf : Nat)
  | pfFunctionLevelReset
  | ringEnable (path : Path) (ring : Nat)
  | ringDisable (path : Path) (ring : Nat)
  | ringStopped (ring : Nat)
  | doorbellScan (fn : Nat)
  | doorbellReadComplete (fn : Nat) (entries : List (Nat × Bytes))
  | descriptorFetch (ring : Nat) (descs : List Bytes)
  | dmaReadError (e : DmaError)
  | txFrameDataRead (ring : Nat) (data : Bytes)
  | interruptTimer (ring : Nat)
  | entryHoldDrain (ring : Nat)
  | rxFrameWrite
  | rxHoldExpiry (ring : Nat)
  | nop (c : Cmd)
  | tblWrite (c : Cmd)
  | tblDelete (c : Cmd)
  | tblBulk (c : Cmd)
  | tblSync (c : Cmd)
  | tblCommit (c : Cmd)
  | tblCancel (c : Cmd)
  | tblRead (c : Cmd)
  | flowAdd (c : Cmd)
  | flowModify (c : Cmd)
  | flowDelete (c : Cmd)
  | mergeSet (c : Cmd)
  | cutGroupSet (c : Cmd)
  | cutSelect (c : Cmd)
  | ringPause (c : Cmd)
  | ringResume (c : Cmd)
  | cntRead (c : Cmd)
  | cntClear (c : Cmd)
  | pgSet (c : Cmd)
  | pgForce (c : Cmd)
  | vfGrant (c : Cmd)
  | faultAck (c : Cmd)
  | ptpPortCfg (c : Cmd)
  | timeCfg (c : Cmd)
  | timeAuth (c : Cmd)
  | dpllCfg (c : Cmd)
  | refCfg (c : Cmd)
  | temperRun (c : Cmd)
  | pairCfg (c : Cmd)
  | pairSwitch (c : Cmd)
  | fwStage (c : Cmd) (img : Image)
  | fwActivate (c : Cmd)
  | fwActivateFence
  | fwActivateTimeout
  | allowSet (c : Cmd) (sigOk : Bool)
  | portEnable (path : Path) (port : Nat)
  | portDisable (path : Path) (port : Nat)
  | linkLoss (port cause noSignal noCdr : Nat) (noLock : LockLoss) (rxBusy txBusy : Bool)
  | signalDetect (port : Nat)
  | cdrLock (port : Nat) (lock : LaneLock)
  | trainingStart (port : Nat)
  | trainingComplete (port : Nat)
  | holdoffEntry (port : Nat) (coeffs : List (Nat × Nat × Int))
  | holdoffExpiry (port : Nat)
  | fecDegradeWindow (port : Nat) (counts : FecCounts)
  | adaptGuardHit (port lane coeff : Nat) (want : Int)
  | adaptResume (port lane : Nat)
  | recapture (path : Path) (port : Nat) (coeffs : List (Nat × Nat × Int))
  | txLpiEnter (port : Nat)
  | rxLpiEnter (port : Nat)
  | frameReceive (f : RxFrame)
  | flowControlFrameReceive (port : Nat) (f : FcFrame)
  | pauseTimeExpiry (port cls : Nat)
  | pfcRefresh (port : Nat)
  | pauseWatchdog (port cls : Nat)
  | pauseRecoverEnd (port cls : Nat)
  | lookup (tile : Nat)
  | cellClose (tile stream : Nat)
  | fabricSlot (ecc : SlotEcc)
  | cellLand (bank : Nat) (crcOk : Bool)
  | visitReceive (tile : Nat) (crcOk : List Bool)
  | reseqTimeout (src dst : Nat) (hp : Bool)
  | schedulerPick (port phase : Nat) (dTx : Int)
  | launchDue (port q phase : Nat) (dTx : Int)
  | ageCheck (q : QueueRef)
  | epochDrained
  | pgWtrExpiry (group : Nat)
  | cutSweep
  | mergeIdleExpiry (group : Nat)
  | tickEdge (gen : Nat)
  | commitCycle
  | budgetEnd
  | merDone (mark : Nat)
  | rateGo (path : Path) (gen : Nat)
  | generatorEnable (path : Path) (gen : Nat)
  | servoUpdate (badCopies : Nat)
  | offsetMeasurement (delta : Int)
  | incNsWrite (path : Path) (value : Word)
  | tplTbAdjWrite (path : Path) (value : Word)
  | stepGo (path : Path)
  | capture (path : Path)
  | phaseBeat (port : Nat) (rx tx : Sampled) (edge : Nat)
  | phaseWindowEnd (port : Nat) (w : WindowIn)
  | alignmentLoss (port : Nat)
  | phEnSet (path : Path) (port : Nat)
  | phEnClear (path : Path) (port : Nat)
  | go (path : Path) (ch : Nat)
  | abort (path : Path) (ch : Nat)
  | tiuEdge (ch : Nat) (stop : Bool) (tclk : Nat) (e : BinEdge)
  | tiuTimeout (ch : Nat)
  | dpllLoopUpdate (k : Nat) (x : LoopIn)
  | dpllLockTime (k : Nat)
  | dpllWtrExpiry (k : Nat)
  | holdoverLimitExpiry (k : Nat)
  | refActivityLoss (i : Nat)
  | refFastFrequencyFail (i : Nat)
  | refGateEnd (i : Nat) (foff : Int)
  | qualMsExpiry (i : Nat)
  | ref25AgeOut
  | pllLock (j : Nat)
  | pllLossOfLock (j : Nat)
  | divGo (path : Path)
  | syncArm (path : Path)
  | syncinEdge (sincePrevNs : Nat)
  | fenceRequest (by_ : Requester) (domain : Nat)
  | fenceComplete (domain : Nat)
  | domainReset (path : Path) (domain : Nat)
  | domainResetEnd (domain : Nat)
  | fenceRelease (by_ : Requester) (domain : Nat)
  | unfenceComplete (domain : Nat)
  | ucodeLoadComplete (tile : Nat) (ok : Bool)
  | faultPresent (occs : List FaultOcc)
  | faultClear (id : Nat)
  | quenchSideCompare (a : SideAnswer)
  | qchAssure (eNs : Nat)
  | timeBound (aonCycles : Nat)
  | lock (path : Path)
  | clkoutMonitor (n : Nat) (devPpm : Int) (active : Bool)
  | guardScrub (bad : List Nat)
  | heartbeatSend (sub : Nat)
  | heartbeatReceive (lane : Nat) (m : HeartbeatIn) (t4 : Nat)
  | heartbeatLoss (lanes : Nat) (peerAct : Bool)
  | peerActLow
  | snapshotReceive (m : SnapshotIn)
  | pairControlMessage (group cand : Nat) (m : PairMark)
  | pairReturn
  | joinTimeout
  | temperRetry (unit : Nat)
  | pathStep (tile : Nat) (m : Int)
  | traceRunEnd (ok : Bool)
  | temperOverdue (unit : Nat)
  | railPoll (readings : List RailReading)
  | avsPeriod (margins : List Nat)
  | marginEmergency (margin : Nat)
  | tileGateSet (path : Path) (tile : Nat)
  | tileGateClear (path : Path) (tile : Nat)
  | laneGate (tile lane : Nat)
  | sensorRead (temps : List Int)
  | agingMeasure (ageMv meanMv : Nat)
  | hourTick
  | perfCounterWrap (n pc : Nat)
  | hmkPcCfgWrite (path : Path) (n : Nat) (value : Word)
  | hmkFrameSend
  | idcode
  | sample (cells : List Bool)
  | bypass
  | extest
  | preload (cells : List Bool)
  | clamp
  | highz
  | extestPulse
  | extestTrain
  | pcieLinkUp
  | controlFrameSend (f : CtrlFrame)
  | controlComplexDelivery
  | rxLpiExit (port : Nat)
  | txLpiWake (port : Nat)
  | adaptFreeze (port lane : Nat)
  | dumpWrite
  | traceRingWrite
  | slewEnd
  deriving DecidableEq, Repr

end Sys2Proof
end

