-- ==== Sys2Proof/Machine/Regs.lean ====
section
/-!
DEFINITION. The register fields of BAR0, transcribed from the register tables of the spec's chapters 02 to 17 and the
summary of 18_register_map.md (R580, R584): for every field its identity, width and reset value, and for every register
its addresses and the place and access code (R10) of each field.  A register is held FIELD BY FIELD: reserved bits read
as 0 and ignore writes (R9), so the fields are the whole register.
-/

namespace Sys2Proof.Machine

/-- A field of a BAR0 register: its identity (thousands digit: the block of R580, in the order GLB, HIF, TIL, TPL, MER,
QCH, TMP, PWR, HMK), its width in bits, its reset value (R584), and index ranges whose reset value differs. -/
structure Fld where
  id : Nat
  width : Nat
  reset : Nat
  alt : List (Nat × Nat × Nat) := []
  deriving DecidableEq, Repr

/-- The reset value of the field's copy with index `i` (R582, R584). -/
def Fld.resetAt (f : Fld) (i : Nat) : Nat :=
  match f.alt.find? (fun a => decide (a.1 ≤ i ∧ i ≤ a.2.1)) with
  | some a => a.2.2
  | none => f.reset

/-- The access codes of R10. -/
inductive Acc where
  | rw | ro | w1c | w1s | wo
  deriving DecidableEq, Repr

/-- A field's place in its register: lowest bit, access code, and whether a write to it is a command of its own
(a row of the opcode table), which a REGISTER_WRITE leaves to that row. -/
structure Slot where
  fld : Fld
  lo : Nat
  acc : Acc
  own : Bool
  deriving DecidableEq, Repr

/-- A register, repeated `n1 × n2` times: copy `(i1, i2)` lies at `base + i1 * s1 + i2 * s2` and has index
`i1 * n2 + i2` (R584). -/
structure RegDesc where
  base : Nat
  n1 : Nat
  s1 : Nat
  n2 : Nat
  s2 : Nat
  slots : List Slot
  deriving DecidableEq, Repr

/-! ### Fields of the global block -/

def GLB_LKP_CFG.RESIDENCY_MS : Fld := { id := 0, width := 10, reset := 50 }
def GLB_LKP_CFG.HASH_SEED : Fld := { id := 1, width := 16, reset := 0 }
def GLB_LKP_MISS.L2_MISS : Fld := { id := 2, width := 2, reset := 0 }
def GLB_LKP_MISS.SA_MISS : Fld := { id := 3, width := 2, reset := 0 }
def GLB_LKP_MISS.L3_MISS : Fld := { id := 4, width := 2, reset := 0 }
def GLB_LKP_MISS.MC_MISS : Fld := { id := 5, width := 2, reset := 0 }
def GLB_LKP_MISS.MISS_RING : Fld := { id := 6, width := 8, reset := 0 }
def GLB_LKP_MISS.MISS_RING_EN : Fld := { id := 7, width := 1, reset := 0 }
def GLB_LKP_FLOOD.FLOOD_REP : Fld := { id := 8, width := 16, reset := 0 }
def GLB_LKP_RMAC_LO.RMAC : Fld := { id := 9, width := 32, reset := 0 }
def GLB_LKP_RMAC_HI.RMAC : Fld := { id := 10, width := 16, reset := 0 }
def GLB_EPOCH.CURRENT : Fld := { id := 11, width := 16, reset := 0 }
def GLB_EPOCH.OLDEST : Fld := { id := 12, width := 16, reset := 0 }
def GLB_EPOCH_LIVE.LIVE : Fld := { id := 13, width := 6, reset := 1 }
def GLB_EPOCH_LIVE.PENDING : Fld := { id := 14, width := 6, reset := 0 }
def GLB_LPM_UNITS.SHADOW_USED : Fld := { id := 15, width := 20, reset := 0 }
def GLB_PCP_MAP.CLASS_P : Fld := { id := 16, width := 32, reset := 1431581200 }
def GLB_DSCP_MAP.CLASS_D : Fld := { id := 17, width := 32, reset := 0 }
def GLB_FAB_CFG.RESEQ_TIMEOUT : Fld := { id := 18, width := 12, reset := 250 }
def GLB_FAB_CFG.CLOSE_LO : Fld := { id := 19, width := 8, reset := 32 }
def GLB_FAB_STAT.FENCED_TILES : Fld := { id := 20, width := 8, reset := 0 }
def GLB_FAB_STAT.CELL_ERR : Fld := { id := 21, width := 8, reset := 0 }
def GLB_FAB_STAT.SPILL_FULL : Fld := { id := 22, width := 8, reset := 0 }
def GLB_FAB_STAT.ECC_ERR : Fld := { id := 23, width := 8, reset := 0 }
def GLB_BUF_HP.HP_POOL : Fld := { id := 24, width := 20, reset := 32768 }
def GLB_BUF_ALPHA.ALPHA_C : Fld := { id := 25, width := 24, reset := 4473924 }
def GLB_BUF_SHARED.SHARED_SIZE : Fld := { id := 26, width := 20, reset := 654592 }
def GLB_BUF_SHUSED.SHARED_USED : Fld := { id := 27, width := 20, reset := 0 }
def GLB_BUF_LOGICAL.GUAR_256 : Fld := { id := 28, width := 8, reset := 4 }
def GLB_BUF_LOGICAL.GUAR_257 : Fld := { id := 29, width := 8, reset := 4 }
def GLB_PG_CFG.REVERT : Fld := { id := 30, width := 1, reset := 1 }
def GLB_PG_CFG.WTR_S : Fld := { id := 31, width := 8, reset := 5 }
def GLB_LT_CFG.HORIZON_S : Fld := { id := 32, width := 4, reset := 4 }
def GLB_PG_STAT.ON_BACKUP : Fld := { id := 33, width := 32, reset := 0 }
def GLB_MED_CFG.CUT_WIN_US : Fld := { id := 34, width := 12, reset := 500 }
def GLB_MED_CFG.RESYNC_N : Fld := { id := 35, width := 4, reset := 2 }
def GLB_MED_CFG.MERGE_IDLE_MS : Fld := { id := 36, width := 8, reset := 100 }
def GLB_MED_STAT.FLOWS : Fld := { id := 37, width := 17, reset := 0 }
def GLB_MED_GROUPS.MERGE_USED : Fld := { id := 38, width := 14, reset := 0 }
def GLB_MED_GROUPS.CUT_USED : Fld := { id := 39, width := 13, reset := 0 }
def GLB_MED_HIST.OVERBOOKED_SEEN : Fld := { id := 40, width := 1, reset := 0 }
def GLB_MED_HIST.CUT_FAIL_SEEN : Fld := { id := 41, width := 1, reset := 0 }
def GLB_MED_HIST.RESYNC_SEEN : Fld := { id := 42, width := 1, reset := 0 }
def GLB_FENCE_REQ.REQ : Fld := { id := 43, width := 12, reset := 0 }
def GLB_FENCE_REL.REL : Fld := { id := 44, width := 12, reset := 0 }
def GLB_FENCE_STAT.STATE_D : Fld := { id := 45, width := 24, reset := 0 }
def GLB_RST_CTRL.RST : Fld := { id := 46, width := 12, reset := 0 }
def GLB_FENCE_HIST.REQ_REFUSED : Fld := { id := 47, width := 1, reset := 0 }
def GLB_FENCE_HIST.REL_REFUSED : Fld := { id := 48, width := 1, reset := 0 }
def GLB_FENCE_HIST.RST_REFUSED : Fld := { id := 49, width := 1, reset := 0 }
def GLB_FENCE_HIST.STALL_TO : Fld := { id := 50, width := 1, reset := 0 }
def GLB_FENCE_HIST.XING_OVR : Fld := { id := 51, width := 1, reset := 0 }
def GLB_FENCE_DROPS.COUNT : Fld := { id := 52, width := 32, reset := 0 }
def GLB_XING_OVR.XING_OVR : Fld := { id := 53, width := 6, reset := 0 }
def GLB_STALL_ADDR.ADDR : Fld := { id := 54, width := 26, reset := 0 }
def GLB_UCODE_STAT.READY : Fld := { id := 55, width := 8, reset := 0 }
def GLB_UCODE_STAT.UCODE_ERR : Fld := { id := 56, width := 8, reset := 0 }
def GLB_PAIR_CFG.PAIR_EN : Fld := { id := 57, width := 1, reset := 0 }
def GLB_PAIR_CFG.PRIMARY : Fld := { id := 58, width := 1, reset := 0 }
def GLB_PAIR_CFG.ACT_GPIO : Fld := { id := 59, width := 4, reset := 13 }
def GLB_PAIR_CFG.PEER_GPIO : Fld := { id := 60, width := 4, reset := 14 }
def GLB_PAIR_CFG.SHADOW_EN : Fld := { id := 61, width := 1, reset := 1 }
def GLB_PAIR_CFG.TAKE_UNPROVEN : Fld := { id := 62, width := 1, reset := 0 }
def GLB_PAIR_CFG.SHADOW_LAG_NS : Fld := { id := 63, width := 4, reset := 4 }
def GLB_PAIR_CFG.RETURN_S : Fld := { id := 64, width := 16, reset := 30 }
def GLB_PAIR_PROOF.PROOF_PS : Fld := { id := 65, width := 12, reset := 1000 }
def GLB_PAIR_PROOF.PROOF_PPB : Fld := { id := 66, width := 8, reset := 20 }
def GLB_PAIR_PROOF.PROOF_N : Fld := { id := 67, width := 4, reset := 3 }
def GLB_PAIR_LINK.RIV_ASYM_PS : Fld := { id := 68, width := 16, reset := 0 }
def GLB_PAIR_STAT.STATE : Fld := { id := 69, width := 3, reset := 0 }
def GLB_PAIR_STAT.PROVEN : Fld := { id := 70, width := 1, reset := 0 }
def GLB_PAIR_STAT.PEER_ACT : Fld := { id := 71, width := 1, reset := 0 }
def GLB_PAIR_STAT.LANES_UP : Fld := { id := 72, width := 2, reset := 0 }
def GLB_PAIR_STAT.SHADOWING : Fld := { id := 73, width := 1, reset := 0 }
def GLB_PAIR_STAT.RETURN_REM_S : Fld := { id := 74, width := 16, reset := 0 }
def GLB_PAIR_OFFSET.OFFSET : Fld := { id := 75, width := 32, reset := 0 }
def GLB_PAIR_HIST.TAKEOVER : Fld := { id := 76, width := 1, reset := 0 }
def GLB_PAIR_HIST.HANDOVER : Fld := { id := 77, width := 1, reset := 0 }
def GLB_PAIR_HIST.PROOF_FAIL : Fld := { id := 78, width := 1, reset := 0 }
def GLB_PAIR_HIST.DIVERGE : Fld := { id := 79, width := 1, reset := 0 }
def GLB_PAIR_HIST.LANE_LOSS : Fld := { id := 80, width := 1, reset := 0 }
def GLB_PAIR_HIST.SPLIT : Fld := { id := 81, width := 1, reset := 0 }
def GLB_PAIR_HIST.JOIN_REFUSED : Fld := { id := 82, width := 1, reset := 0 }
def GLB_ID.PART : Fld := { id := 83, width := 16, reset := 20768 }
def GLB_ID.REV : Fld := { id := 84, width := 4, reset := 0 }
def GLB_STRAP.STRAPS : Fld := { id := 85, width := 13, reset := 0 }
def GLB_BOOT_STAT.STAGE : Fld := { id := 86, width := 3, reset := 1 }
def GLB_BOOT_STAT.HIF_READY : Fld := { id := 87, width := 1, reset := 0 }
def GLB_BOOT_STAT.FAIL_REASON : Fld := { id := 88, width := 3, reset := 0 }
def GLB_BOOT_STAT.TEST_MODE : Fld := { id := 89, width := 1, reset := 0 }
def GLB_BOOT_STAT.SLOT : Fld := { id := 90, width := 1, reset := 0 }
def GLB_BOOT_STAT.FALLBACK : Fld := { id := 91, width := 1, reset := 0 }
def GLB_BOOT_STAT.BCR_MISSING : Fld := { id := 92, width := 1, reset := 0 }
def GLB_BOOT_STAT.BIST_FAIL : Fld := { id := 93, width := 8, reset := 0 }
def GLB_BOOT_STAT.BLOCK_FAIL : Fld := { id := 94, width := 3, reset := 0 }
def GLB_BOOT_FAIL.FATAL_BLOCK : Fld := { id := 95, width := 7, reset := 0 }
def GLB_FW_VER.PATCH : Fld := { id := 96, width := 8, reset := 0 }
def GLB_FW_VER.MINOR : Fld := { id := 97, width := 8, reset := 0 }
def GLB_FW_VER.MAJOR : Fld := { id := 98, width := 8, reset := 0 }
def GLB_FW_VER.SVN : Fld := { id := 99, width := 6, reset := 0 }
def GLB_BOOT_TIME.READY_MS : Fld := { id := 100, width := 16, reset := 0 }
def GLB_FUSE_SEC.SVN_MIN : Fld := { id := 101, width := 6, reset := 0 }
def GLB_FUSE_SEC.KEY_REVOKED : Fld := { id := 102, width := 4, reset := 0 }
def GLB_FUSE_SEC.OWNER_SLOT : Fld := { id := 103, width := 2, reset := 0 }
def GLB_GPIO_IN.IN : Fld := { id := 104, width := 16, reset := 0 }
def GLB_GPIO_OUT.OUT : Fld := { id := 105, width := 16, reset := 0 }
def GLB_GPIO_OE.OE : Fld := { id := 106, width := 16, reset := 0 }

/-! ### Fields of the host interface -/

def HIF_RING_CFG.ENABLE : Fld := { id := 1000, width := 1, reset := 0 }
def HIF_RING_CFG.TYPE : Fld := { id := 1001, width := 3, reset := 0 }
def HIF_RING_CFG.SIZE_LOG2 : Fld := { id := 1002, width := 5, reset := 6 }
def HIF_RING_CFG.FUNC : Fld := { id := 1003, width := 5, reset := 0 }
def HIF_RING_CFG.VECTOR : Fld := { id := 1004, width := 8, reset := 0 }
def HIF_RING_CFG.AUX : Fld := { id := 1005, width := 8, reset := 0 }
def HIF_RING_GEN.GEN : Fld := { id := 1006, width := 32, reset := 0 }
def HIF_RING_MOD.MOD_COUNT : Fld := { id := 1007, width := 8, reset := 1 }
def HIF_RING_MOD.MOD_TIME : Fld := { id := 1008, width := 16, reset := 0 }
def HIF_RING_STAT.STATE : Fld := { id := 1009, width := 2, reset := 0 }
def HIF_RING_STAT.PAUSED : Fld := { id := 1010, width := 1, reset := 0 }
def HIF_RING_STAT.REASON : Fld := { id := 1011, width := 4, reset := 0 }
def HIF_SCAN_CFG.PERIOD : Fld := { id := 1012, width := 6, reset := 3 }
def HIF_RX_HOLD.HOLD : Fld := { id := 1013, width := 8, reset := 20 }
def HIF_SCAN_SKIP.COUNT : Fld := { id := 1014, width := 32, reset := 0 }
def HIF_RX_DEFAULT0.RING_C : Fld := { id := 1015, width := 32, reset := 0 }
def HIF_RX_DEFAULT1.RING_C : Fld := { id := 1016, width := 32, reset := 0 }
def HIF_FN_DB_LO.ADDR : Fld := { id := 1017, width := 21, reset := 0 }
def HIF_FN_DB_HI.ADDR : Fld := { id := 1018, width := 32, reset := 0 }
def HIF_FN_SB_LO.ADDR : Fld := { id := 1019, width := 21, reset := 0 }
def HIF_FN_SB_HI.ADDR : Fld := { id := 1020, width := 32, reset := 0 }
def HIF_RING_BASE_LO.ADDR : Fld := { id := 1021, width := 26, reset := 0 }
def HIF_RING_BASE_HI.ADDR : Fld := { id := 1022, width := 32, reset := 0 }
def HIF_RING_CQ_LO.ADDR : Fld := { id := 1023, width := 26, reset := 0 }
def HIF_RING_CQ_HI.ADDR : Fld := { id := 1024, width := 32, reset := 0 }
def HIF_MSIX_ADDR_LO.ADDR : Fld := { id := 1025, width := 32, reset := 0 }
def HIF_MSIX_ADDR_HI.ADDR : Fld := { id := 1026, width := 32, reset := 0 }
def HIF_MSIX_DATA.DATA : Fld := { id := 1027, width := 32, reset := 0 }
def HIF_MSIX_CTRL.MASK : Fld := { id := 1028, width := 1, reset := 1 }

/-! ### Fields of the tiles -/

def TIL_PORT_CFG.ENABLE : Fld := { id := 2000, width := 1, reset := 0 }
def TIL_PORT_CFG.MODE : Fld := { id := 2001, width := 5, reset := 0 }
def TIL_PORT_CFG.FEC : Fld := { id := 2002, width := 2, reset := 0 }
def TIL_PORT_CFG.FC : Fld := { id := 2003, width := 2, reset := 0 }
def TIL_PORT_CFG.ERR_DELIVER : Fld := { id := 2004, width := 1, reset := 0 }
def TIL_PORT_CFG.TRAIN : Fld := { id := 2005, width := 1, reset := 0 }
def TIL_PORT_CFG.TX_LPI_EN : Fld := { id := 2006, width := 1, reset := 0 }
def TIL_PORT_CFG.RX_LPI_EN : Fld := { id := 2007, width := 1, reset := 0 }
def TIL_PORT_CFG.LOOP : Fld := { id := 2008, width := 2, reset := 0 }
def TIL_PORT_MAXLEN.MAXLEN : Fld := { id := 2009, width := 15, reset := 1518 }
def TIL_PORT_HOLDOFF.HOLDOFF_MS : Fld := { id := 2010, width := 10, reset := 50 }
def TIL_PORT_PAUSE.PFC_CLASSES : Fld := { id := 2011, width := 7, reset := 0 }
def TIL_PORT_PAUSE.WDOG_MS : Fld := { id := 2012, width := 8, reset := 10 }
def TIL_PORT_PAUSE.RECOVER_MS : Fld := { id := 2013, width := 8, reset := 10 }
def TIL_PORT_LPI.TX_IDLE : Fld := { id := 2014, width := 12, reset := 100 }
def TIL_PORT_ADAPT.GUARD : Fld := { id := 2015, width := 4, reset := 4 }
def TIL_PORT_ADAPT.FREEZE_FORCE : Fld := { id := 2016, width := 1, reset := 0 }
def TIL_PORT_ADAPT.RECAPTURE : Fld := { id := 2017, width := 1, reset := 0 }
def TIL_PORT_FEC.UNCORR_RUN : Fld := { id := 2018, width := 4, reset := 4 }
def TIL_PORT_FEC.DEG_WIN : Fld := { id := 2019, width := 4, reset := 12 }
def TIL_PORT_FEC.DEG_THRESH : Fld := { id := 2020, width := 20, reset := 4000 }
def TIL_PORT_ERR_RING.RING : Fld := { id := 2021, width := 8, reset := 0 }
def TIL_PORT_STAT.STATE : Fld := { id := 2022, width := 3, reset := 0 }
def TIL_PORT_STAT.CAUSE : Fld := { id := 2023, width := 4, reset := 0 }
def TIL_PORT_STAT.FAILED_LANES : Fld := { id := 2024, width := 8, reset := 0 }
def TIL_PORT_STAT.TX_LPI : Fld := { id := 2025, width := 1, reset := 0 }
def TIL_PORT_STAT.RX_LPI : Fld := { id := 2026, width := 1, reset := 0 }
def TIL_PORT_HIST.DOWN_SEEN : Fld := { id := 2027, width := 1, reset := 0 }
def TIL_PORT_HIST.FLAP_IN_HOLDOFF : Fld := { id := 2028, width := 1, reset := 0 }
def TIL_PORT_HIST.PAUSE_WDOG : Fld := { id := 2029, width := 1, reset := 0 }
def TIL_PORT_HIST.ADAPT_GUARD : Fld := { id := 2030, width := 1, reset := 0 }
def TIL_PORT_HIST.FEC_DEGRADE : Fld := { id := 2031, width := 1, reset := 0 }
def TIL_LANE_CFG.TX_INV : Fld := { id := 2032, width := 1, reset := 0 }
def TIL_LANE_CFG.RX_INV : Fld := { id := 2033, width := 1, reset := 0 }
def TIL_LANE_STAT.SIGNAL : Fld := { id := 2034, width := 1, reset := 0 }
def TIL_LANE_STAT.CDR_LOCK : Fld := { id := 2035, width := 1, reset := 0 }
def TIL_LANE_STAT.LOCK : Fld := { id := 2036, width := 1, reset := 0 }
def TIL_LANE_STAT.FROZEN : Fld := { id := 2037, width := 1, reset := 0 }
def TIL_LANE_STAT.GUARD_HIT : Fld := { id := 2038, width := 1, reset := 0 }
def TIL_PORT_LKP.PVID : Fld := { id := 2039, width := 12, reset := 1 }
def TIL_PORT_LKP.TRUST : Fld := { id := 2040, width := 2, reset := 0 }
def TIL_PORT_LKP.DEF_CLASS : Fld := { id := 2041, width := 3, reset := 0 }
def TIL_BUF_GUAR0.GUAR_C : Fld := { id := 2042, width := 32, reset := 67372036 }
def TIL_BUF_GUAR1.GUAR_C : Fld := { id := 2043, width := 16, reset := 1028 }
def TIL_BUF_HDRM0.HDRM_C : Fld := { id := 2044, width := 32, reset := 0 }
def TIL_BUF_HDRM1.HDRM_C : Fld := { id := 2045, width := 16, reset := 0 }
def TIL_BUF_XON.XON_GAP : Fld := { id := 2046, width := 8, reset := 2 }
def TIL_BUF_STAT.XOFF : Fld := { id := 2047, width := 6, reset := 0 }
def TIL_EGR_SPILL.SPILL_ON : Fld := { id := 2900, width := 8, reset := 32 }
def TIL_EGR_SPILL.EQ_MAX : Fld := { id := 2901, width := 20, reset := 1024 }
def TIL_EGR_STAT.SPILLED : Fld := { id := 2902, width := 12, reset := 0 }
def TIL_SCH_QUANTUM0.QUANTUM_C : Fld := { id := 2048, width := 32, reset := 404232216 }
def TIL_SCH_QUANTUM1.QUANTUM_C : Fld := { id := 2049, width := 16, reset := 6168 }
def TIL_SCH_CL6.MARGIN : Fld := { id := 2050, width := 8, reset := 8 }
def TIL_SCH_CL6.BURST : Fld := { id := 2051, width := 12, reset := 256 }
def TIL_SCH_CL6_RATE.RATE : Fld := { id := 2052, width := 20, reset := 0 }
def TIL_SCH_LT.LATE_POL0 : Fld := { id := 2053, width := 1, reset := 0 }
def TIL_SCH_LT.LATE_POL1 : Fld := { id := 2054, width := 1, reset := 0 }
def TIL_SCH_LT.LATE_TOL : Fld := { id := 2055, width := 8, reset := 25 }
def TIL_SCH_LT.LT_QMAX : Fld := { id := 2056, width := 8, reset := 64 }
def TIL_SCH_HOST7.HOST7_PCT : Fld := { id := 2057, width := 7, reset := 1 }
def TIL_SCH_HPQ.HP_QMAX_C6 : Fld := { id := 2058, width := 8, reset := 64 }
def TIL_SCH_HPQ.HP_QMAX_C7 : Fld := { id := 2059, width := 8, reset := 64 }
def TIL_MED_BUDGET.CL6_PCT : Fld := { id := 2060, width := 7, reset := 90 }
def TIL_MED_RSV.RES_SUM_KBPS : Fld := { id := 2061, width := 30, reset := 0 }
def TIL_MED_RSV_PG.PG_SUM_KBPS : Fld := { id := 2062, width := 30, reset := 0 }
def TIL_MED_STAT.OVERBOOKED : Fld := { id := 2063, width := 1, reset := 0 }
def TIL_PORT_TS.FIFO_LEVEL : Fld := { id := 2064, width := 7, reset := 0 }

/-! ### Fields of the timing plane -/

def TPL_TB_CFG.SERVO_MODE : Fld := { id := 3000, width := 1, reset := 0 }
def TPL_TB_POL.STEP_THRESH_NS : Fld := { id := 3001, width := 10, reset := 100 }
def TPL_TB_POL.BACK_POL : Fld := { id := 3002, width := 2, reset := 0 }
def TPL_TB_POL.FWD_POL : Fld := { id := 3003, width := 1, reset := 0 }
def TPL_TB_SLEW.SLEW_PPB : Fld := { id := 3004, width := 14, reset := 100 }
def TPL_TB_INC_FRAC.INC_FRAC : Fld := { id := 3005, width := 32, reset := 0 }
def TPL_TB_INC_NS.INC_NS : Fld := { id := 3006, width := 8, reset := 4 }
def TPL_TB_ADJ.ADJ_PS : Fld := { id := 3007, width := 32, reset := 0 }
def TPL_TB_ADJ_REM.ADJ_REM : Fld := { id := 3008, width := 32, reset := 0 }
def TPL_TB_STEP_SEC.STEP_SEC : Fld := { id := 3009, width := 32, reset := 0 }
def TPL_TB_STEP_NS.STEP_NS : Fld := { id := 3010, width := 30, reset := 0 }
def TPL_TB_CTRL.STEP_GO : Fld := { id := 3011, width := 1, reset := 0 }
def TPL_TB_CTRL.CAPTURE : Fld := { id := 3012, width := 1, reset := 0 }
def TPL_TB_STAT.SERVING : Fld := { id := 3013, width := 1, reset := 0 }
def TPL_TB_STAT.TIME_VALID : Fld := { id := 3014, width := 1, reset := 0 }
def TPL_TB_STAT.ADJ_BUSY : Fld := { id := 3015, width := 1, reset := 0 }
def TPL_TB_STAT.DISC_PENDING : Fld := { id := 3016, width := 1, reset := 0 }
def TPL_TB_STAT.STEP_PENDING : Fld := { id := 3017, width := 1, reset := 0 }
def TPL_TB_STAT.DISC_CNT : Fld := { id := 3018, width := 8, reset := 0 }
def TPL_TB_STAT.PEND_ID : Fld := { id := 3019, width := 16, reset := 0 }
def TPL_TB_HIST.STEPPED : Fld := { id := 3020, width := 1, reset := 0 }
def TPL_TB_HIST.STEP_REFUSED : Fld := { id := 3021, width := 1, reset := 0 }
def TPL_TB_HIST.INC_CLAMPED : Fld := { id := 3022, width := 1, reset := 0 }
def TPL_TB_HIST.STAMP_LOST_SEEN : Fld := { id := 3023, width := 1, reset := 0 }
def TPL_TB_REFUSED.REFUSED_CNT : Fld := { id := 3024, width := 16, reset := 0 }
def TPL_TB_CAP_FRAC.FRAC : Fld := { id := 3025, width := 32, reset := 0 }
def TPL_TB_CAP_NS.NS : Fld := { id := 3026, width := 30, reset := 0 }
def TPL_TB_CAP_SEC_LO.SEC : Fld := { id := 3027, width := 32, reset := 0 }
def TPL_TB_CAP_SEC_HI.SEC : Fld := { id := 3028, width := 16, reset := 0 }
def TPL_STC_TX.TX_CORR : Fld := { id := 3029, width := 20, reset := 0 }
def TPL_STC_RX.RX_CORR : Fld := { id := 3030, width := 20, reset := 0 }
def TPL_PH_CFG.AVG_UPD : Fld := { id := 3031, width := 6, reset := 13 }
def TPL_PH_CFG.DEGLITCH : Fld := { id := 3032, width := 6, reset := 32 }
def TPL_PH_CFG.SLIP : Fld := { id := 3033, width := 10, reset := 25 }
def TPL_PH_CFG.SYNT_PPB : Fld := { id := 3034, width := 6, reset := 10 }
def TPL_PH_PORT.PH_EN : Fld := { id := 3035, width := 1, reset := 0 }
def TPL_PH_STAT.VALID : Fld := { id := 3036, width := 1, reset := 0 }
def TPL_PH_STAT.STALE : Fld := { id := 3037, width := 1, reset := 0 }
def TPL_PH_STAT.NOT_SYNT : Fld := { id := 3038, width := 1, reset := 0 }
def TPL_PH_STAT.SLIP : Fld := { id := 3039, width := 1, reset := 0 }
def TPL_PH_STAT.ALIGN_LOSS : Fld := { id := 3040, width := 1, reset := 0 }
def TPL_PH_STAT.DISC : Fld := { id := 3041, width := 1, reset := 0 }
def TPL_PH_STAT.SERVICE : Fld := { id := 3042, width := 3, reset := 0 }
def TPL_PH_STAT.WIN_SEQ : Fld := { id := 3043, width := 8, reset := 0 }
def TPL_PH_PHASE.PHASE : Fld := { id := 3044, width := 17, reset := 0 }
def TPL_PH_EDGE.EDGE : Fld := { id := 3045, width := 17, reset := 0 }
def TPL_PH_DRIFT.RATE : Fld := { id := 3046, width := 16, reset := 0 }
def TPL_LNK_TXD.TXD : Fld := { id := 3047, width := 20, reset := 0 }
def TPL_LNK_RXD.RXD : Fld := { id := 3048, width := 20, reset := 0 }
def TPL_LNK_ALPHA.ALPHA : Fld := { id := 3049, width := 32, reset := 0 }
def TPL_TIU_CFG.MODE : Fld := { id := 3050, width := 2, reset := 0 }
def TPL_TIU_CFG.START_SRC : Fld := { id := 3051, width := 6, reset := 0 }
def TPL_TIU_CFG.START_EDGE : Fld := { id := 3052, width := 1, reset := 0 }
def TPL_TIU_CFG.STOP_SRC : Fld := { id := 3053, width := 6, reset := 0 }
def TPL_TIU_CFG.STOP_EDGE : Fld := { id := 3054, width := 1, reset := 0 }
def TPL_TIU_CFG.NLOG2 : Fld := { id := 3055, width := 5, reset := 0 }
def TPL_TIU_CFG.PRE_START : Fld := { id := 3056, width := 2, reset := 0 }
def TPL_TIU_CFG.PRE_STOP : Fld := { id := 3057, width := 2, reset := 0 }
def TPL_TIU_CFG.DITHER : Fld := { id := 3058, width := 1, reset := 0 }
def TPL_TIU_WMIN.WIN_MIN : Fld := { id := 3059, width := 32, reset := 0 }
def TPL_TIU_WMAX.WIN_MAX : Fld := { id := 3060, width := 32, reset := 0 }
def TPL_TIU_CTRL.GO : Fld := { id := 3061, width := 1, reset := 0 }
def TPL_TIU_CTRL.ABORT : Fld := { id := 3062, width := 1, reset := 0 }
def TPL_TIU_STAT.STATE : Fld := { id := 3063, width := 2, reset := 0 }
def TPL_TIU_STAT.STEP_ABORT : Fld := { id := 3064, width := 1, reset := 0 }
def TPL_TIU_STAT.CFG_ERR : Fld := { id := 3065, width := 1, reset := 0 }
def TPL_TIU_STAT.COUNT : Fld := { id := 3066, width := 21, reset := 0 }
def TPL_TIU_ERR.TIMEOUTS : Fld := { id := 3067, width := 16, reset := 0 }
def TPL_TIU_ERR.DEAD_MISS : Fld := { id := 3068, width := 16, reset := 0 }
def TPL_TIU_MEAN_LO.MEAN : Fld := { id := 3069, width := 32, reset := 0 }
def TPL_TIU_MEAN_HI.MEAN : Fld := { id := 3070, width := 32, reset := 0 }
def TPL_TIU_DEV_LO.DEV : Fld := { id := 3071, width := 32, reset := 0 }
def TPL_TIU_DEV_HI.DEV : Fld := { id := 3072, width := 32, reset := 0 }
def TPL_TIU_MIN_LO.MIN : Fld := { id := 3073, width := 32, reset := 0 }
def TPL_TIU_MIN_HI.MIN : Fld := { id := 3074, width := 16, reset := 0 }
def TPL_TIU_MAX_LO.MAX : Fld := { id := 3075, width := 32, reset := 0 }
def TPL_TIU_MAX_HI.MAX : Fld := { id := 3076, width := 16, reset := 0 }
def TPL_TIU_LAST_LO.LAST : Fld := { id := 3077, width := 32, reset := 0 }
def TPL_TIU_LAST_HI.LAST : Fld := { id := 3078, width := 16, reset := 0 }
def TPL_REF_CFG.MON_EN : Fld := { id := 3079, width := 1, reset := 0 }
def TPL_REF_CFG.TYPE : Fld := { id := 3080, width := 1, reset := 0 }
def TPL_REF_CFG.PRE : Fld := { id := 3081, width := 2, reset := 0 }
def TPL_REF_CFG.MON_CLK : Fld := { id := 3082, width := 1, reset := 0 }
def TPL_REF_CFG.DNU : Fld := { id := 3083, width := 1, reset := 0 }
def TPL_REF_FNOM.F_NOM : Fld := { id := 3084, width := 30, reset := 10000000, alt := [(8, 23, 156250000)] }
def TPL_REF_SLOT.PORT : Fld := { id := 3085, width := 8, reset := 0 }
def TPL_REF_SLOT.LANE : Fld := { id := 3086, width := 3, reset := 0 }
def TPL_REF_MON1.SOFT : Fld := { id := 3087, width := 12, reset := 900 }
def TPL_REF_MON1.HARD : Fld := { id := 3088, width := 12, reset := 1200 }
def TPL_REF_MON1.GATE : Fld := { id := 3089, width := 2, reset := 1 }
def TPL_REF_MON2.DRIFT_SOFT : Fld := { id := 3090, width := 8, reset := 10 }
def TPL_REF_MON2.DRIFT_HARD : Fld := { id := 3091, width := 8, reset := 50 }
def TPL_REF_MON2.QUAL_MS : Fld := { id := 3092, width := 16, reset := 1000 }
def TPL_REF_STAT.STATE : Fld := { id := 3093, width := 3, reset := 0 }
def TPL_REF_FOFF.FOFF : Fld := { id := 3094, width := 32, reset := 0 }
def TPL_REF_HIST.ACT_LOSS : Fld := { id := 3095, width := 1, reset := 0 }
def TPL_REF_HIST.FAST_FAIL : Fld := { id := 3096, width := 1, reset := 0 }
def TPL_REF_HIST.HARD_FAIL : Fld := { id := 3097, width := 1, reset := 0 }
def TPL_REF_HIST.DRIFT_FAIL : Fld := { id := 3098, width := 1, reset := 0 }
def TPL_REF_HIST.SOFT_SEEN : Fld := { id := 3099, width := 1, reset := 0 }
def TPL_REF_HIST.DNU_SEEN : Fld := { id := 3100, width := 1, reset := 0 }
def TPL_REF_HIST.QUALIFIED_SEEN : Fld := { id := 3101, width := 1, reset := 0 }
def TPL_DPLL_CFG.MODE : Fld := { id := 3102, width := 2, reset := 0 }
def TPL_DPLL_CFG.FORCE_ENTRY : Fld := { id := 3103, width := 3, reset := 0 }
def TPL_DPLL_CFG.HO_EN : Fld := { id := 3104, width := 1, reset := 1 }
def TPL_DPLL_CFG.ALIGN : Fld := { id := 3105, width := 1, reset := 1, alt := [(1, 1, 0)] }
def TPL_DPLL_CFG.WTR_S : Fld := { id := 3106, width := 16, reset := 300 }
def TPL_DPLL_BW0.BW_LINE : Fld := { id := 3107, width := 10, reset := 387 }
def TPL_DPLL_BW0.BW_EXT : Fld := { id := 3108, width := 10, reset := 261 }
def TPL_DPLL_BW1.BW_PPS : Fld := { id := 3109, width := 10, reset := 129 }
def TPL_DPLL_BW1.BW_PHASE : Fld := { id := 3110, width := 10, reset := 257 }
def TPL_DPLL_LOCK.LOCK_WIN : Fld := { id := 3111, width := 16, reset := 5000 }
def TPL_DPLL_LOCK.LOCK_T : Fld := { id := 3112, width := 12, reset := 100 }
def TPL_DPLL_HOLD.HIST_S : Fld := { id := 3113, width := 12, reset := 60 }
def TPL_DPLL_HOLD.HIST_SKIP_S : Fld := { id := 3114, width := 4, reset := 2 }
def TPL_DPLL_HOLD.HO_LIMIT_S : Fld := { id := 3115, width := 16, reset := 0 }
def TPL_DPLL_PSL.PSL_PPB : Fld := { id := 3116, width := 16, reset := 100, alt := [(1, 3, 1000)] }
def TPL_DPLL_MAN.MAN_FOFF : Fld := { id := 3117, width := 32, reset := 0 }
def TPL_DPLL_PRIO.REF : Fld := { id := 3118, width := 5, reset := 0 }
def TPL_DPLL_PRIO.PRIO : Fld := { id := 3119, width := 4, reset := 0 }
def TPL_DPLL_PRIO.REVERT : Fld := { id := 3120, width := 1, reset := 0 }
def TPL_DPLL_STAT.STATE : Fld := { id := 3121, width := 3, reset := 0 }
def TPL_DPLL_STAT.SEL : Fld := { id := 3122, width := 3, reset := 0 }
def TPL_DPLL_STAT.HIST_VALID : Fld := { id := 3123, width := 1, reset := 0 }
def TPL_DPLL_STAT.WTR_RUN : Fld := { id := 3124, width := 1, reset := 0 }
def TPL_DPLL_STAT.WTR_REM_S : Fld := { id := 3125, width := 16, reset := 0 }
def TPL_DPLL_FOFF.FOFF : Fld := { id := 3126, width := 32, reset := 0 }
def TPL_DPLL_PERR.PERR : Fld := { id := 3127, width := 32, reset := 0 }
def TPL_DPLL_HIST.STATE_SEEN : Fld := { id := 3128, width := 5, reset := 1 }
def TPL_DPLL_HIST.SWITCH : Fld := { id := 3129, width := 1, reset := 0 }
def TPL_DPLL_HIST.PSL_HIT : Fld := { id := 3130, width := 1, reset := 0 }
def TPL_DPLL_HIST.UNLOCK : Fld := { id := 3131, width := 1, reset := 0 }
def TPL_PLL_LOCK.LOCK_N : Fld := { id := 3132, width := 11, reset := 1024 }
def TPL_PLL_LOCK.WIN : Fld := { id := 3133, width := 8, reset := 16 }
def TPL_PLL_SSC.SSC_MODE : Fld := { id := 3134, width := 2, reset := 0 }
def TPL_PLL_SSC.DEPTH : Fld := { id := 3135, width := 4, reset := 0 }
def TPL_PLL_VCO.F_VCO : Fld := { id := 3136, width := 24, reset := 12500000, alt := [(0, 4, 0)] }
def TPL_PLL_STAT.LOCK : Fld := { id := 3137, width := 1, reset := 0 }
def TPL_PLL_STAT.NO_BAND : Fld := { id := 3138, width := 1, reset := 0 }
def TPL_PLL_STAT.BAND : Fld := { id := 3139, width := 6, reset := 0 }
def TPL_PLL_STAT.PENDING : Fld := { id := 3140, width := 1, reset := 0 }
def TPL_PLL_HIST.LOCK_LOST : Fld := { id := 3141, width := 1, reset := 0 }
def TPL_BAND_RANGE.F_LO : Fld := { id := 3142, width := 16, reset := 0 }
def TPL_BAND_RANGE.F_HI : Fld := { id := 3143, width := 16, reset := 0 }
def TPL_BAND_SEL.BAND : Fld := { id := 3144, width := 6, reset := 0 }
def TPL_BAND_SEL.VALID : Fld := { id := 3145, width := 1, reset := 0 }
def TPL_OUT_CFG.EN : Fld := { id := 3146, width := 1, reset := 0 }
def TPL_OUT_CFG.FMT : Fld := { id := 3147, width := 1, reset := 0 }
def TPL_OUT_CFG.SRC : Fld := { id := 3148, width := 1, reset := 0 }
def TPL_OUT_CFG.SYNC_EN : Fld := { id := 3149, width := 1, reset := 0 }
def TPL_OUT_CFG.HS : Fld := { id := 3150, width := 4, reset := 4 }
def TPL_OUT_DIV.D : Fld := { id := 3151, width := 30, reset := 20 }
def TPL_OUT_PW.HIGH : Fld := { id := 3152, width := 30, reset := 0 }
def TPL_OUT_STAT.ACTIVE : Fld := { id := 3153, width := 1, reset := 0 }
def TPL_OUT_STAT.GATED : Fld := { id := 3154, width := 1, reset := 0 }
def TPL_OUT_STAT.QUENCHED : Fld := { id := 3155, width := 1, reset := 1 }
def TPL_OUT_STAT.PENDING : Fld := { id := 3156, width := 1, reset := 0 }
def TPL_CS_CTRL.DIV_GO : Fld := { id := 3157, width := 1, reset := 0 }
def TPL_CS_CTRL.SYNC_MODE : Fld := { id := 3158, width := 2, reset := 0 }
def TPL_CS_CTRL.SYNC_ARM : Fld := { id := 3159, width := 1, reset := 0 }
def TPL_CS_CTRL.LOAD_ON_SYNC : Fld := { id := 3160, width := 1, reset := 0 }
def TPL_CS_STAT.SYNC_SEEN : Fld := { id := 3161, width := 1, reset := 0 }
def TPL_CS_STAT.SYNC_EARLY : Fld := { id := 3162, width := 1, reset := 0 }
def TPL_CS_IRQ.DPLL_MASK : Fld := { id := 3163, width := 5, reset := 31 }
def TPL_CS_IRQ.REF_MASK : Fld := { id := 3164, width := 5, reset := 30 }
def TPL_TB_CMP.A_FAILED : Fld := { id := 3165, width := 1, reset := 0 }
def TPL_TB_CMP.B_FAILED : Fld := { id := 3166, width := 1, reset := 0 }
def TPL_TB_CMP.MISMATCH_CNT : Fld := { id := 3167, width := 8, reset := 0 }

/-! ### Fields of the Meridian -/

def MER_GEN_CFG.EN : Fld := { id := 4000, width := 1, reset := 0, alt := [(0, 0, 1)] }
def MER_GEN_CFG.RATE_GO : Fld := { id := 4001, width := 1, reset := 0 }
def MER_GEN_RATE.NUM : Fld := { id := 4002, width := 24, reset := 60000 }
def MER_GEN_DEN.DEN : Fld := { id := 4003, width := 16, reset := 1001 }
def MER_GEN_OFFSET.OFFSET : Fld := { id := 4004, width := 32, reset := 0 }
def MER_GEN_FC_LO.FC : Fld := { id := 4005, width := 32, reset := 0 }
def MER_GEN_FC_HI.FC : Fld := { id := 4006, width := 16, reset := 0 }
def MER_GEN_STAT.RATE_PENDING : Fld := { id := 4007, width := 1, reset := 0 }
def MER_GEN_STAT.SUPPRESSING : Fld := { id := 4008, width := 1, reset := 0 }
def MER_GEN_STAT.SKIP_CNT : Fld := { id := 4009, width := 16, reset := 0 }
def MER_GEN_HIST.STEP_FWD : Fld := { id := 4010, width := 1, reset := 0 }
def MER_GEN_HIST.STEP_BACK : Fld := { id := 4011, width := 1, reset := 0 }
def MER_GEN_HIST.RATE_ERR : Fld := { id := 4012, width := 1, reset := 0 }
def MER_PIN_CFG.EN : Fld := { id := 4013, width := 1, reset := 0 }
def MER_PIN_CFG.GEN : Fld := { id := 4014, width := 4, reset := 0 }
def MER_PIN_CFG.MSG_EN : Fld := { id := 4015, width := 1, reset := 0 }
def MER_PIN_CFG.EDGE_W : Fld := { id := 4016, width := 4, reset := 5 }
def MER_PIN_CFG.Q : Fld := { id := 4017, width := 7, reset := 20 }
def MER_PIN_STAT.ACTIVE : Fld := { id := 4018, width := 1, reset := 0 }
def MER_PIN_STAT.QUENCHED : Fld := { id := 4019, width := 1, reset := 1 }
def MER_PIN_STAT.MSG_SUPPRESSED : Fld := { id := 4020, width := 1, reset := 0 }
def MER_ARM.ARM_LEAD : Fld := { id := 4021, width := 10, reset := 50 }
def MER_BUDGET.BUDGET_PCT : Fld := { id := 4022, width := 7, reset := 80 }
def MER_DONE.FC_MARK : Fld := { id := 4023, width := 16, reset := 0 }
def MER_BUDGET_STAT.OVERRUN : Fld := { id := 4024, width := 1, reset := 0 }
def MER_BUDGET_STAT.MISS_RUN : Fld := { id := 4025, width := 2, reset := 0 }
def MER_BUDGET_STAT.HB_ARMED : Fld := { id := 4026, width := 1, reset := 0 }
def MER_BUDGET_STAT.DONE_BAD : Fld := { id := 4027, width := 8, reset := 0 }
def MER_BUDGET_STAT.OVERRUN_CNT : Fld := { id := 4028, width := 8, reset := 0 }

/-! ### Fields of the Quench -/

def QCH_CFG.TIME_BOUND_NS : Fld := { id := 5000, width := 16, reset := 1000 }
def QCH_CFG.HO_RATE_PPB : Fld := { id := 5001, width := 16, reset := 10 }
def QCH_LOCK.LOCK : Fld := { id := 5002, width := 1, reset := 0 }
def QCH_STATE.TICK_IDLE : Fld := { id := 5003, width := 1, reset := 1 }
def QCH_STATE.CLKOUT_IDLE : Fld := { id := 5004, width := 1, reset := 1 }
def QCH_STATE.PTP_SUPP : Fld := { id := 5005, width := 1, reset := 1 }
def QCH_STATE.GUARD_BLOCK : Fld := { id := 5006, width := 1, reset := 0 }
def QCH_STATE.SAFE : Fld := { id := 5007, width := 1, reset := 1 }
def QCH_STATE.ALARM : Fld := { id := 5008, width := 1, reset := 1 }
def QCH_STATE.TG_ARMED : Fld := { id := 5009, width := 1, reset := 0 }
def QCH_FIRST.FIRST_ID : Fld := { id := 5010, width := 9, reset := 0 }
def QCH_FIRST.FIRST_REC : Fld := { id := 5011, width := 5, reset := 0 }
def QCH_FIRST.VALID : Fld := { id := 5012, width := 1, reset := 1 }
def QCH_SAME_MASK.MASK : Fld := { id := 5013, width := 32, reset := 0 }
def QCH_HIST.REC_OVF : Fld := { id := 5014, width := 1, reset := 0 }
def QCH_HIST.ESCALATED_SEEN : Fld := { id := 5015, width := 1, reset := 0 }
def QCH_HIST.AON_ONLY : Fld := { id := 5016, width := 1, reset := 0 }
def QCH_TG_STAT.BOUND_NS : Fld := { id := 5017, width := 24, reset := 0 }
def QCH_ASSURE.E_NS : Fld := { id := 5018, width := 24, reset := 0 }
def QCH_ACTIVE.ACTIVE : Fld := { id := 5019, width := 32, reset := 0 }
def QCH_LATCHED.LATCHED : Fld := { id := 5020, width := 32, reset := 0 }
def QCH_GUARD_PORTS.GUARDED : Fld := { id := 5021, width := 32, reset := 0 }
def QCH_SEV.SEV : Fld := { id := 5022, width := 2, reset := 0, alt := [(0, 3, 3), (16, 19, 1), (20, 21, 2), (22, 22,
  1), (32, 35, 1), (36, 37, 2), (38, 38, 1), (48, 51, 1), (52, 53, 2), (54, 54, 1), (64, 67, 1), (68, 69, 2), (70, 70,
  1), (80, 83, 1), (84, 85, 2), (86, 86, 1), (96, 99, 1), (100, 101, 2), (102, 102, 1), (112, 115, 1), (116, 117, 2),
  (118, 118, 1), (128, 131, 1), (132, 133, 2), (134, 134, 1), (144, 151, 1), (160, 160, 1), (192, 193, 1), (198, 198,
  3), (200, 201, 1), (202, 203, 3), (204, 206, 1), (208, 215, 2), (256, 271, 2), (288, 288, 3), (320, 320, 2), (321,
  322, 1), (384, 384, 1), (386, 386, 3), (388, 388, 1), (456, 456, 1)] }
def QCH_SEV.FLOOR : Fld := { id := 5023, width := 2, reset := 0, alt := [(0, 3, 3), (16, 19, 1), (20, 21, 2), (22,
  22, 1), (32, 35, 1), (36, 37, 2), (38, 38, 1), (48, 51, 1), (52, 53, 2), (54, 54, 1), (64, 67, 1), (68, 69, 2), (70,
  70, 1), (80, 83, 1), (84, 85, 2), (86, 86, 1), (96, 99, 1), (100, 101, 2), (102, 102, 1), (112, 115, 1), (116, 117,
  2), (118, 118, 1), (128, 131, 1), (132, 133, 2), (134, 134, 1), (144, 151, 1), (160, 160, 1), (192, 193, 1), (198,
  198, 3), (200, 201, 1), (202, 203, 3), (204, 206, 1), (208, 215, 2), (256, 271, 2), (288, 288, 3), (320, 320, 2),
  (321, 322, 1), (384, 384, 1), (386, 386, 3), (388, 388, 1), (456, 456, 1)] }

/-! ### Fields of the Temper -/

def TMP_CFG.DT : Fld := { id := 6000, width := 6, reset := 8 }
def TMP_CFG.AUTO_EN : Fld := { id := 6001, width := 1, reset := 1 }
def TMP_CFG.PATH_EN : Fld := { id := 6002, width := 1, reset := 1 }
def TMP_CFG.REPEAT_PS : Fld := { id := 6003, width := 8, reset := 10 }
def TMP_CFG.RETRY : Fld := { id := 6004, width := 2, reset := 3 }
def TMP_CFG.REF10_ID : Fld := { id := 6005, width := 3, reset := 0 }
def TMP_CFG.PPS_ID : Fld := { id := 6006, width := 3, reset := 1 }
def TMP_STAT.STATE : Fld := { id := 6007, width := 2, reset := 3 }
def TMP_STAT.TRACE_VALID : Fld := { id := 6008, width := 1, reset := 0 }
def TMP_STAT.FACTORY_TRACE : Fld := { id := 6009, width := 1, reset := 1 }
def TMP_STAT.ENTERING : Fld := { id := 6010, width := 1, reset := 0 }
def TMP_STAT.DT_OK : Fld := { id := 6011, width := 9, reset := 0 }
def TMP_RUN.RUN_ID : Fld := { id := 6012, width := 16, reset := 0 }
def TMP_RUN.UNCONFIRMED : Fld := { id := 6013, width := 8, reset := 0 }
def TMP_RUN.UNIT : Fld := { id := 6014, width := 4, reset := 15 }
def TMP_HIST.REPEAT_FAIL : Fld := { id := 6015, width := 1, reset := 0 }
def TMP_HIST.TRACE_FAIL : Fld := { id := 6016, width := 1, reset := 0 }
def TMP_HIST.OVERDUE : Fld := { id := 6017, width := 1, reset := 0 }
def TMP_HIST.SUSPENDED_SEEN : Fld := { id := 6018, width := 1, reset := 0 }
def TMP_UNIT_T.T_LAST : Fld := { id := 6019, width := 10, reset := 0 }
def TMP_UNIT_T.AGE_S : Fld := { id := 6020, width := 16, reset := 65535 }
def TMP_UNIT_V.V_LAST : Fld := { id := 6021, width := 10, reset := 0 }
def TMP_TICK_DLY.DLY : Fld := { id := 6022, width := 16, reset := 0 }
def TMP_CLKOUT_DLY.DLY : Fld := { id := 6023, width := 16, reset := 0 }

/-! ### Fields of the power manager -/

def PWR_SEQ_STAT.ATTEMPT : Fld := { id := 7000, width := 2, reset := 0 }
def PWR_SEQ_STAT.RAILS_UP : Fld := { id := 7001, width := 6, reset := 0 }
def PWR_SEQ_STAT.SEQ_DONE : Fld := { id := 7002, width := 1, reset := 0 }
def PWR_SEQ_STAT.SEQ_FAIL : Fld := { id := 7003, width := 1, reset := 0 }
def PWR_SEQ_STAT.FAIL_RAIL : Fld := { id := 7004, width := 3, reset := 0 }
def PWR_AVS_CFG.AVS_EN : Fld := { id := 7005, width := 1, reset := 1 }
def PWR_AVS_CFG.AVS_PERIOD : Fld := { id := 7006, width := 4, reset := 10 }
def PWR_AVS_CFG.LOW_PS : Fld := { id := 7007, width := 8, reset := 40 }
def PWR_AVS_CFG.HIGH_PS : Fld := { id := 7008, width := 8, reset := 60 }
def PWR_AVS_STAT.VCORE_MV : Fld := { id := 7009, width := 10, reset := 800 }
def PWR_AVS_STAT.MARGIN_PS : Fld := { id := 7010, width := 8, reset := 0 }
def PWR_AVS_STAT.AGE_MV : Fld := { id := 7011, width := 8, reset := 0 }
def PWR_HOURS.HOURS : Fld := { id := 7012, width := 32, reset := 0 }
def PWR_LIFE.LIFE_PPM : Fld := { id := 7013, width := 32, reset := 0 }
def PWR_THERM_CFG.ALARM_C : Fld := { id := 7014, width := 8, reset := 100 }
def PWR_THERM_CFG.LIMIT_C : Fld := { id := 7015, width := 8, reset := 110 }
def PWR_THERM_CFG.HYST_C : Fld := { id := 7016, width := 4, reset := 3 }
def PWR_THERM_STAT.TMAX : Fld := { id := 7017, width := 10, reset := 0 }
def PWR_THERM_STAT.TMAX_SENSOR : Fld := { id := 7018, width := 6, reset := 0 }
def PWR_THERM_STAT.ALARM : Fld := { id := 7019, width := 1, reset := 0 }
def PWR_THERM_STAT.LIMIT : Fld := { id := 7020, width := 1, reset := 0 }
def PWR_GATE.TILE_GATE : Fld := { id := 7021, width := 8, reset := 0 }
def PWR_GATE.LANE_GATE_EN : Fld := { id := 7022, width := 1, reset := 1 }
def PWR_GATE_STAT.TILE_GATED : Fld := { id := 7023, width := 8, reset := 0 }
def PWR_HIST.RAIL_FAULT_SEEN : Fld := { id := 7024, width := 1, reset := 0 }
def PWR_HIST.ALARM_SEEN : Fld := { id := 7025, width := 1, reset := 0 }
def PWR_HIST.LIMIT_SEEN : Fld := { id := 7026, width := 1, reset := 0 }
def PWR_HIST.AVS_LIMIT_SEEN : Fld := { id := 7027, width := 1, reset := 0 }
def PWR_HIST.AGING_SEEN : Fld := { id := 7028, width := 1, reset := 0 }
def PWR_HIST.SENSOR_FAIL_SEEN : Fld := { id := 7029, width := 1, reset := 0 }
def PWR_HIST.GATE_REFUSED : Fld := { id := 7030, width := 1, reset := 0 }
def PWR_SENSOR.TEMP : Fld := { id := 7031, width := 10, reset := 0 }
def PWR_SENSOR.VALID : Fld := { id := 7032, width := 1, reset := 0 }
def PWR_RAIL.VOUT_MV : Fld := { id := 7033, width := 12, reset := 0 }
def PWR_RAIL.IN_WINDOW : Fld := { id := 7034, width := 1, reset := 0 }

/-! ### Fields of the Hallmark -/

def HMK_TRACE_CFG.TRACE_EN : Fld := { id := 8000, width := 1, reset := 0 }
def HMK_TRACE_CFG.OUT : Fld := { id := 8001, width := 2, reset := 0 }
def HMK_TRACE_CFG.HDR_EN : Fld := { id := 8002, width := 1, reset := 0 }
def HMK_TRACE_CFG.EVT_EN : Fld := { id := 8003, width := 1, reset := 0 }
def HMK_TRACE_CFG.BR_EN : Fld := { id := 8004, width := 1, reset := 0 }
def HMK_TRACE_CFG.SAMPLE_LOG2 : Fld := { id := 8005, width := 5, reset := 10 }
def HMK_TRACE_CFG.HDR_POINT : Fld := { id := 8006, width := 1, reset := 0 }
def HMK_HDR_FILT.PORT : Fld := { id := 8007, width := 9, reset := 511 }
def HMK_HDR_FILT.CLASS : Fld := { id := 8008, width := 8, reset := 255 }
def HMK_TRACE_STAT.FIFO_LEVEL : Fld := { id := 8009, width := 14, reset := 0 }
def HMK_TRACE_STAT.LANES_UP : Fld := { id := 8010, width := 2, reset := 0 }
def HMK_LOSS.LOST : Fld := { id := 8011, width := 32, reset := 0 }
def HMK_HIST.LOSS_SEEN : Fld := { id := 8012, width := 1, reset := 0 }
def HMK_HIST.PERF_WRAP_SEEN : Fld := { id := 8013, width := 1, reset := 0 }
def HMK_HIST.STAT_SAT : Fld := { id := 8014, width := 1, reset := 0 }
def HMK_HIST.FILT_ERR : Fld := { id := 8015, width := 1, reset := 0 }
def HMK_HIST.DUMP_TRUNC : Fld := { id := 8016, width := 1, reset := 0 }
def HMK_DUMP_CFG.KIND_MASK : Fld := { id := 8017, width := 8, reset := 79 }
def HMK_ERR_THRESH.THRESH : Fld := { id := 8018, width := 32, reset := 0 }
def HMK_PAGE_EN.PAGE_EN : Fld := { id := 8019, width := 32, reset := 0 }
def HMK_PC_CFG.EN : Fld := { id := 8020, width := 1, reset := 0 }
def HMK_PC_CFG.SAMPLE : Fld := { id := 8021, width := 1, reset := 0 }
def HMK_PC_CFG.ADDR_EN : Fld := { id := 8022, width := 1, reset := 0 }
def HMK_PC_CFG.EVT : Fld := { id := 8023, width := 8, reset := 0 }
def HMK_PC_CFG.CLASS : Fld := { id := 8024, width := 8, reset := 255 }
def HMK_PC_CFG.FUNC : Fld := { id := 8025, width := 6, reset := 63 }
def HMK_PC_CFG.SRC_KIND : Fld := { id := 8026, width := 2, reset := 0 }
def HMK_PC_CFG.OWNER : Fld := { id := 8027, width := 5, reset := 0 }
def HMK_PC_SRC.SRC_ID : Fld := { id := 8028, width := 9, reset := 0 }
def HMK_PC_ADDR_LO.PAGE_LO : Fld := { id := 8029, width := 32, reset := 0 }
def HMK_PC_ADDR_HI.PAGE_HI : Fld := { id := 8030, width := 32, reset := 0 }
def HMK_PC_VAL_LO.VALUE : Fld := { id := 8031, width := 32, reset := 0 }
def HMK_PC_VAL_HI.VALUE : Fld := { id := 8032, width := 16, reset := 0 }
def HMK_PC_VAL_HI.WRAP : Fld := { id := 8033, width := 1, reset := 0 }
def HMK_PC_PERIOD.PERIOD : Fld := { id := 8034, width := 32, reset := 0 }

def regsGlb0 : List RegDesc := [
  -- GLB_LKP_CFG
  ⟨0x2000, 1, 0x4000000, 1, 0x4000000,
    [⟨GLB_LKP_CFG.RESIDENCY_MS, 0, .rw, false⟩,
     ⟨GLB_LKP_CFG.HASH_SEED, 16, .rw, false⟩]⟩,
  -- GLB_LKP_MISS
  ⟨0x2004, 1, 0x4000000, 1, 0x4000000,
    [⟨GLB_LKP_MISS.L2_MISS, 0, .rw, false⟩,
     ⟨GLB_LKP_MISS.SA_MISS, 2, .rw, false⟩,
     ⟨GLB_LKP_MISS.L3_MISS, 4, .rw, false⟩,
     ⟨GLB_LKP_MISS.MC_MISS, 6, .rw, false⟩,
     ⟨GLB_LKP_MISS.MISS_RING, 8, .rw, false⟩,
     ⟨GLB_LKP_MISS.MISS_RING_EN, 16, .rw, false⟩]⟩,
  -- GLB_LKP_FLOOD
  ⟨0x2008, 1, 0x4000000, 1, 0x4000000,
    [⟨GLB_LKP_FLOOD.FLOOD_REP, 0, .rw, false⟩]⟩,
  -- GLB_LKP_RMAC_LO
  ⟨0x200C, 1, 0x4000000, 1, 0x4000000,
    [⟨GLB_LKP_RMAC_LO.RMAC, 0, .rw, false⟩]⟩,
  -- GLB_LKP_RMAC_HI
  ⟨0x2010, 1, 0x4000000, 1, 0x4000000,
    [⟨GLB_LKP_RMAC_HI.RMAC, 0, .rw, false⟩]⟩,
  -- GLB_EPOCH
  ⟨0x2014, 1, 0x4000000, 1, 0x4000000,
    [⟨GLB_EPOCH.CURRENT, 0, .ro, false⟩,
     ⟨GLB_EPOCH.OLDEST, 16, .ro, false⟩]⟩,
  -- GLB_EPOCH_LIVE
  ⟨0x2018, 1, 0x4000000, 1, 0x4000000,
    [⟨GLB_EPOCH_LIVE.LIVE, 0, .ro, false⟩,
     ⟨GLB_EPOCH_LIVE.PENDING, 8, .ro, false⟩]⟩,
  -- GLB_LPM_UNITS
  ⟨0x201C, 1, 0x4000000, 1, 0x4000000,
    [⟨GLB_LPM_UNITS.SHADOW_USED, 0, .ro, false⟩]⟩,
  -- GLB_PCP_MAP
  ⟨0x2020, 1, 0x4000000, 1, 0x4000000,
    [⟨GLB_PCP_MAP.CLASS_P, 0, .rw, false⟩]⟩,
  -- GLB_DSCP_MAP
  ⟨0x2040, 1, 0x4000000, 8, 0x4,
    [⟨GLB_DSCP_MAP.CLASS_D, 0, .rw, false⟩]⟩,
  -- GLB_FAB_CFG
  ⟨0x3000, 1, 0x4000000, 1, 0x4000000,
    [⟨GLB_FAB_CFG.RESEQ_TIMEOUT, 0, .rw, false⟩,
     ⟨GLB_FAB_CFG.CLOSE_LO, 12, .rw, false⟩]⟩,
  -- GLB_FAB_STAT
  ⟨0x3004, 1, 0x4000000, 1, 0x4000000,
    [⟨GLB_FAB_STAT.FENCED_TILES, 0, .ro, false⟩,
     ⟨GLB_FAB_STAT.CELL_ERR, 8, .w1c, false⟩,
     ⟨GLB_FAB_STAT.SPILL_FULL, 16, .w1c, false⟩,
     ⟨GLB_FAB_STAT.ECC_ERR, 24, .w1c, false⟩]⟩]

def regsGlb1 : List RegDesc := [
  -- GLB_BUF_HP
  ⟨0x3010, 1, 0x4000000, 1, 0x4000000,
    [⟨GLB_BUF_HP.HP_POOL, 0, .rw, false⟩]⟩,
  -- GLB_BUF_ALPHA
  ⟨0x3014, 1, 0x4000000, 1, 0x4000000,
    [⟨GLB_BUF_ALPHA.ALPHA_C, 0, .rw, false⟩]⟩,
  -- GLB_BUF_SHARED
  ⟨0x3018, 1, 0x4000000, 1, 0x4000000,
    [⟨GLB_BUF_SHARED.SHARED_SIZE, 0, .ro, false⟩]⟩,
  -- GLB_BUF_SHUSED
  ⟨0x301C, 1, 0x4000000, 1, 0x4000000,
    [⟨GLB_BUF_SHUSED.SHARED_USED, 0, .ro, false⟩]⟩,
  -- GLB_BUF_LOGICAL
  ⟨0x3020, 1, 0x4000000, 1, 0x4000000,
    [⟨GLB_BUF_LOGICAL.GUAR_256, 0, .rw, false⟩,
     ⟨GLB_BUF_LOGICAL.GUAR_257, 8, .rw, false⟩]⟩,
  -- GLB_PG_CFG
  ⟨0x3100, 1, 0x4000000, 1, 0x4000000,
    [⟨GLB_PG_CFG.REVERT, 0, .rw, false⟩,
     ⟨GLB_PG_CFG.WTR_S, 8, .rw, false⟩]⟩,
  -- GLB_LT_CFG
  ⟨0x3104, 1, 0x4000000, 1, 0x4000000,
    [⟨GLB_LT_CFG.HORIZON_S, 0, .rw, false⟩]⟩,
  -- GLB_PG_STAT
  ⟨0x3110, 1, 0x4000000, 4, 0x4,
    [⟨GLB_PG_STAT.ON_BACKUP, 0, .ro, false⟩]⟩,
  -- GLB_MED_CFG
  ⟨0x4000, 1, 0x4000000, 1, 0x4000000,
    [⟨GLB_MED_CFG.CUT_WIN_US, 0, .rw, false⟩,
     ⟨GLB_MED_CFG.RESYNC_N, 12, .rw, false⟩,
     ⟨GLB_MED_CFG.MERGE_IDLE_MS, 16, .rw, false⟩]⟩,
  -- GLB_MED_STAT
  ⟨0x4004, 1, 0x4000000, 1, 0x4000000,
    [⟨GLB_MED_STAT.FLOWS, 0, .ro, false⟩]⟩,
  -- GLB_MED_GROUPS
  ⟨0x4008, 1, 0x4000000, 1, 0x4000000,
    [⟨GLB_MED_GROUPS.MERGE_USED, 0, .ro, false⟩,
     ⟨GLB_MED_GROUPS.CUT_USED, 16, .ro, false⟩]⟩,
  -- GLB_MED_HIST
  ⟨0x400C, 1, 0x4000000, 1, 0x4000000,
    [⟨GLB_MED_HIST.OVERBOOKED_SEEN, 0, .w1c, false⟩,
     ⟨GLB_MED_HIST.CUT_FAIL_SEEN, 1, .w1c, false⟩,
     ⟨GLB_MED_HIST.RESYNC_SEEN, 2, .w1c, false⟩]⟩]

def regsGlb2 : List RegDesc := [
  -- GLB_FENCE_REQ
  ⟨0x5000, 1, 0x4000000, 1, 0x4000000,
    [⟨GLB_FENCE_REQ.REQ, 0, .w1s, true⟩]⟩,
  -- GLB_FENCE_REL
  ⟨0x5004, 1, 0x4000000, 1, 0x4000000,
    [⟨GLB_FENCE_REL.REL, 0, .w1s, true⟩]⟩,
  -- GLB_FENCE_STAT
  ⟨0x5008, 1, 0x4000000, 1, 0x4000000,
    [⟨GLB_FENCE_STAT.STATE_D, 0, .ro, false⟩]⟩,
  -- GLB_RST_CTRL
  ⟨0x500C, 1, 0x4000000, 1, 0x4000000,
    [⟨GLB_RST_CTRL.RST, 0, .w1s, true⟩]⟩,
  -- GLB_FENCE_HIST
  ⟨0x5010, 1, 0x4000000, 1, 0x4000000,
    [⟨GLB_FENCE_HIST.REQ_REFUSED, 0, .w1c, false⟩,
     ⟨GLB_FENCE_HIST.REL_REFUSED, 1, .w1c, false⟩,
     ⟨GLB_FENCE_HIST.RST_REFUSED, 2, .w1c, false⟩,
     ⟨GLB_FENCE_HIST.STALL_TO, 3, .w1c, false⟩,
     ⟨GLB_FENCE_HIST.XING_OVR, 4, .w1c, false⟩]⟩,
  -- GLB_FENCE_DROPS
  ⟨0x5014, 1, 0x4000000, 1, 0x4000000,
    [⟨GLB_FENCE_DROPS.COUNT, 0, .ro, false⟩]⟩,
  -- GLB_XING_OVR
  ⟨0x5018, 1, 0x4000000, 1, 0x4000000,
    [⟨GLB_XING_OVR.XING_OVR, 0, .w1c, false⟩]⟩,
  -- GLB_STALL_ADDR
  ⟨0x501C, 1, 0x4000000, 1, 0x4000000,
    [⟨GLB_STALL_ADDR.ADDR, 0, .ro, false⟩]⟩,
  -- GLB_UCODE_STAT
  ⟨0x5020, 1, 0x4000000, 1, 0x4000000,
    [⟨GLB_UCODE_STAT.READY, 0, .ro, false⟩,
     ⟨GLB_UCODE_STAT.UCODE_ERR, 8, .w1c, false⟩]⟩,
  -- GLB_PAIR_CFG
  ⟨0x6000, 1, 0x4000000, 1, 0x4000000,
    [⟨GLB_PAIR_CFG.PAIR_EN, 0, .ro, false⟩,
     ⟨GLB_PAIR_CFG.PRIMARY, 1, .ro, false⟩,
     ⟨GLB_PAIR_CFG.ACT_GPIO, 2, .ro, false⟩,
     ⟨GLB_PAIR_CFG.PEER_GPIO, 6, .ro, false⟩,
     ⟨GLB_PAIR_CFG.SHADOW_EN, 10, .ro, false⟩,
     ⟨GLB_PAIR_CFG.TAKE_UNPROVEN, 11, .ro, false⟩,
     ⟨GLB_PAIR_CFG.SHADOW_LAG_NS, 12, .ro, false⟩,
     ⟨GLB_PAIR_CFG.RETURN_S, 16, .ro, false⟩]⟩,
  -- GLB_PAIR_PROOF
  ⟨0x6004, 1, 0x4000000, 1, 0x4000000,
    [⟨GLB_PAIR_PROOF.PROOF_PS, 0, .ro, false⟩,
     ⟨GLB_PAIR_PROOF.PROOF_PPB, 12, .ro, false⟩,
     ⟨GLB_PAIR_PROOF.PROOF_N, 20, .ro, false⟩]⟩,
  -- GLB_PAIR_LINK
  ⟨0x6008, 1, 0x4000000, 1, 0x4000000,
    [⟨GLB_PAIR_LINK.RIV_ASYM_PS, 0, .ro, false⟩]⟩]

def regsGlb3 : List RegDesc := [
  -- GLB_PAIR_STAT
  ⟨0x600C, 1, 0x4000000, 1, 0x4000000,
    [⟨GLB_PAIR_STAT.STATE, 0, .ro, false⟩,
     ⟨GLB_PAIR_STAT.PROVEN, 3, .ro, false⟩,
     ⟨GLB_PAIR_STAT.PEER_ACT, 4, .ro, false⟩,
     ⟨GLB_PAIR_STAT.LANES_UP, 5, .ro, false⟩,
     ⟨GLB_PAIR_STAT.SHADOWING, 7, .ro, false⟩,
     ⟨GLB_PAIR_STAT.RETURN_REM_S, 16, .ro, false⟩]⟩,
  -- GLB_PAIR_OFFSET
  ⟨0x6010, 1, 0x4000000, 1, 0x4000000,
    [⟨GLB_PAIR_OFFSET.OFFSET, 0, .ro, false⟩]⟩,
  -- GLB_PAIR_HIST
  ⟨0x6014, 1, 0x4000000, 1, 0x4000000,
    [⟨GLB_PAIR_HIST.TAKEOVER, 0, .w1c, false⟩,
     ⟨GLB_PAIR_HIST.HANDOVER, 1, .w1c, false⟩,
     ⟨GLB_PAIR_HIST.PROOF_FAIL, 2, .w1c, false⟩,
     ⟨GLB_PAIR_HIST.DIVERGE, 3, .w1c, false⟩,
     ⟨GLB_PAIR_HIST.LANE_LOSS, 4, .w1c, false⟩,
     ⟨GLB_PAIR_HIST.SPLIT, 5, .w1c, false⟩,
     ⟨GLB_PAIR_HIST.JOIN_REFUSED, 6, .w1c, false⟩]⟩,
  -- GLB_ID
  ⟨0x0, 1, 0x4000000, 1, 0x4000000,
    [⟨GLB_ID.PART, 0, .ro, false⟩,
     ⟨GLB_ID.REV, 16, .ro, false⟩]⟩,
  -- GLB_STRAP
  ⟨0x4, 1, 0x4000000, 1, 0x4000000,
    [⟨GLB_STRAP.STRAPS, 0, .ro, false⟩]⟩,
  -- GLB_BOOT_STAT
  ⟨0x8, 1, 0x4000000, 1, 0x4000000,
    [⟨GLB_BOOT_STAT.STAGE, 0, .ro, false⟩,
     ⟨GLB_BOOT_STAT.HIF_READY, 3, .ro, false⟩,
     ⟨GLB_BOOT_STAT.FAIL_REASON, 4, .ro, false⟩,
     ⟨GLB_BOOT_STAT.TEST_MODE, 7, .ro, false⟩,
     ⟨GLB_BOOT_STAT.SLOT, 8, .ro, false⟩,
     ⟨GLB_BOOT_STAT.FALLBACK, 9, .ro, false⟩,
     ⟨GLB_BOOT_STAT.BCR_MISSING, 10, .ro, false⟩,
     ⟨GLB_BOOT_STAT.BIST_FAIL, 16, .ro, false⟩,
     ⟨GLB_BOOT_STAT.BLOCK_FAIL, 24, .ro, false⟩]⟩,
  -- GLB_BOOT_FAIL
  ⟨0xC, 1, 0x4000000, 1, 0x4000000,
    [⟨GLB_BOOT_FAIL.FATAL_BLOCK, 0, .ro, false⟩]⟩,
  -- GLB_FW_VER
  ⟨0x10, 1, 0x4000000, 1, 0x4000000,
    [⟨GLB_FW_VER.PATCH, 0, .ro, false⟩,
     ⟨GLB_FW_VER.MINOR, 8, .ro, false⟩,
     ⟨GLB_FW_VER.MAJOR, 16, .ro, false⟩,
     ⟨GLB_FW_VER.SVN, 24, .ro, false⟩]⟩,
  -- GLB_BOOT_TIME
  ⟨0x14, 1, 0x4000000, 1, 0x4000000,
    [⟨GLB_BOOT_TIME.READY_MS, 0, .ro, false⟩]⟩,
  -- GLB_FUSE_SEC
  ⟨0x18, 1, 0x4000000, 1, 0x4000000,
    [⟨GLB_FUSE_SEC.SVN_MIN, 0, .ro, false⟩,
     ⟨GLB_FUSE_SEC.KEY_REVOKED, 8, .ro, false⟩,
     ⟨GLB_FUSE_SEC.OWNER_SLOT, 12, .ro, false⟩]⟩,
  -- GLB_GPIO_IN
  ⟨0x100, 1, 0x4000000, 1, 0x4000000,
    [⟨GLB_GPIO_IN.IN, 0, .ro, false⟩]⟩,
  -- GLB_GPIO_OUT
  ⟨0x104, 1, 0x4000000, 1, 0x4000000,
    [⟨GLB_GPIO_OUT.OUT, 0, .rw, false⟩]⟩]

def regsGlb4 : List RegDesc := [
  -- GLB_GPIO_OE
  ⟨0x108, 1, 0x4000000, 1, 0x4000000,
    [⟨GLB_GPIO_OE.OE, 0, .rw, false⟩]⟩]

/-- The registers of the global block (R584). -/
def regsGlb : List RegDesc :=
  regsGlb0 ++ regsGlb1 ++ regsGlb2 ++ regsGlb3 ++ regsGlb4

def regsHif0 : List RegDesc := [
  -- HIF_RING_CFG
  ⟨0x101010, 1, 0x4000000, 256, 0x20,
    [⟨HIF_RING_CFG.ENABLE, 0, .rw, true⟩,
     ⟨HIF_RING_CFG.TYPE, 1, .rw, false⟩,
     ⟨HIF_RING_CFG.SIZE_LOG2, 4, .rw, false⟩,
     ⟨HIF_RING_CFG.FUNC, 9, .rw, false⟩,
     ⟨HIF_RING_CFG.VECTOR, 14, .rw, false⟩,
     ⟨HIF_RING_CFG.AUX, 22, .rw, false⟩]⟩,
  -- HIF_RING_GEN
  ⟨0x101014, 1, 0x4000000, 256, 0x20,
    [⟨HIF_RING_GEN.GEN, 0, .rw, false⟩]⟩,
  -- HIF_RING_MOD
  ⟨0x101018, 1, 0x4000000, 256, 0x20,
    [⟨HIF_RING_MOD.MOD_COUNT, 0, .rw, false⟩,
     ⟨HIF_RING_MOD.MOD_TIME, 8, .rw, false⟩]⟩,
  -- HIF_RING_STAT
  ⟨0x10101C, 1, 0x4000000, 256, 0x20,
    [⟨HIF_RING_STAT.STATE, 0, .ro, false⟩,
     ⟨HIF_RING_STAT.PAUSED, 2, .ro, false⟩,
     ⟨HIF_RING_STAT.REASON, 4, .ro, false⟩]⟩,
  -- HIF_SCAN_CFG
  ⟨0x100000, 1, 0x4000000, 1, 0x4000000,
    [⟨HIF_SCAN_CFG.PERIOD, 0, .rw, false⟩]⟩,
  -- HIF_RX_HOLD
  ⟨0x100004, 1, 0x4000000, 1, 0x4000000,
    [⟨HIF_RX_HOLD.HOLD, 0, .rw, false⟩]⟩,
  -- HIF_SCAN_SKIP
  ⟨0x100008, 1, 0x4000000, 1, 0x4000000,
    [⟨HIF_SCAN_SKIP.COUNT, 0, .ro, false⟩]⟩,
  -- HIF_RX_DEFAULT0
  ⟨0x100010, 1, 0x4000000, 1, 0x4000000,
    [⟨HIF_RX_DEFAULT0.RING_C, 0, .rw, false⟩]⟩,
  -- HIF_RX_DEFAULT1
  ⟨0x100014, 1, 0x4000000, 1, 0x4000000,
    [⟨HIF_RX_DEFAULT1.RING_C, 0, .rw, false⟩]⟩,
  -- HIF_FN_DB_LO
  ⟨0x100400, 1, 0x4000000, 1, 0x4000000,
    [⟨HIF_FN_DB_LO.ADDR, 11, .rw, false⟩]⟩,
  -- HIF_FN_DB_HI
  ⟨0x100404, 1, 0x4000000, 1, 0x4000000,
    [⟨HIF_FN_DB_HI.ADDR, 0, .rw, false⟩]⟩,
  -- HIF_FN_SB_LO
  ⟨0x100408, 1, 0x4000000, 1, 0x4000000,
    [⟨HIF_FN_SB_LO.ADDR, 11, .rw, false⟩]⟩]

def regsHif1 : List RegDesc := [
  -- HIF_FN_SB_HI
  ⟨0x10040C, 1, 0x4000000, 1, 0x4000000,
    [⟨HIF_FN_SB_HI.ADDR, 0, .rw, false⟩]⟩,
  -- HIF_RING_BASE_LO
  ⟨0x101000, 1, 0x4000000, 256, 0x20,
    [⟨HIF_RING_BASE_LO.ADDR, 6, .rw, false⟩]⟩,
  -- HIF_RING_BASE_HI
  ⟨0x101004, 1, 0x4000000, 256, 0x20,
    [⟨HIF_RING_BASE_HI.ADDR, 0, .rw, false⟩]⟩,
  -- HIF_RING_CQ_LO
  ⟨0x101008, 1, 0x4000000, 256, 0x20,
    [⟨HIF_RING_CQ_LO.ADDR, 6, .rw, false⟩]⟩,
  -- HIF_RING_CQ_HI
  ⟨0x10100C, 1, 0x4000000, 256, 0x20,
    [⟨HIF_RING_CQ_HI.ADDR, 0, .rw, false⟩]⟩,
  -- HIF_MSIX_ADDR_LO
  ⟨0x108000, 1, 0x4000000, 256, 0x10,
    [⟨HIF_MSIX_ADDR_LO.ADDR, 0, .rw, false⟩]⟩,
  -- HIF_MSIX_ADDR_HI
  ⟨0x108004, 1, 0x4000000, 256, 0x10,
    [⟨HIF_MSIX_ADDR_HI.ADDR, 0, .rw, false⟩]⟩,
  -- HIF_MSIX_DATA
  ⟨0x108008, 1, 0x4000000, 256, 0x10,
    [⟨HIF_MSIX_DATA.DATA, 0, .rw, false⟩]⟩,
  -- HIF_MSIX_CTRL
  ⟨0x10800C, 1, 0x4000000, 256, 0x10,
    [⟨HIF_MSIX_CTRL.MASK, 0, .rw, false⟩]⟩]

/-- The registers of the host interface (R584). -/
def regsHif : List RegDesc :=
  regsHif0 ++ regsHif1

def regsTil0 : List RegDesc := [
  -- TIL_PORT_CFG
  ⟨0x1010000, 8, 0x200000, 32, 0x40,
    [⟨TIL_PORT_CFG.ENABLE, 0, .rw, true⟩,
     ⟨TIL_PORT_CFG.MODE, 1, .rw, false⟩,
     ⟨TIL_PORT_CFG.FEC, 6, .rw, false⟩,
     ⟨TIL_PORT_CFG.FC, 8, .rw, false⟩,
     ⟨TIL_PORT_CFG.ERR_DELIVER, 10, .rw, false⟩,
     ⟨TIL_PORT_CFG.TRAIN, 11, .rw, false⟩,
     ⟨TIL_PORT_CFG.TX_LPI_EN, 12, .rw, false⟩,
     ⟨TIL_PORT_CFG.RX_LPI_EN, 13, .rw, false⟩,
     ⟨TIL_PORT_CFG.LOOP, 14, .rw, false⟩]⟩,
  -- TIL_PORT_MAXLEN
  ⟨0x1010004, 8, 0x200000, 32, 0x40,
    [⟨TIL_PORT_MAXLEN.MAXLEN, 0, .rw, false⟩]⟩,
  -- TIL_PORT_HOLDOFF
  ⟨0x1010008, 8, 0x200000, 32, 0x40,
    [⟨TIL_PORT_HOLDOFF.HOLDOFF_MS, 0, .rw, false⟩]⟩,
  -- TIL_PORT_PAUSE
  ⟨0x101000C, 8, 0x200000, 32, 0x40,
    [⟨TIL_PORT_PAUSE.PFC_CLASSES, 0, .rw, false⟩,
     ⟨TIL_PORT_PAUSE.WDOG_MS, 8, .rw, false⟩,
     ⟨TIL_PORT_PAUSE.RECOVER_MS, 16, .rw, false⟩]⟩,
  -- TIL_PORT_LPI
  ⟨0x1010010, 8, 0x200000, 32, 0x40,
    [⟨TIL_PORT_LPI.TX_IDLE, 0, .rw, false⟩]⟩,
  -- TIL_PORT_ADAPT
  ⟨0x1010014, 8, 0x200000, 32, 0x40,
    [⟨TIL_PORT_ADAPT.GUARD, 0, .rw, false⟩,
     ⟨TIL_PORT_ADAPT.FREEZE_FORCE, 4, .rw, false⟩,
     ⟨TIL_PORT_ADAPT.RECAPTURE, 5, .wo, true⟩]⟩,
  -- TIL_PORT_FEC
  ⟨0x1010018, 8, 0x200000, 32, 0x40,
    [⟨TIL_PORT_FEC.UNCORR_RUN, 0, .rw, false⟩,
     ⟨TIL_PORT_FEC.DEG_WIN, 8, .rw, false⟩,
     ⟨TIL_PORT_FEC.DEG_THRESH, 12, .rw, false⟩]⟩,
  -- TIL_PORT_ERR_RING
  ⟨0x101001C, 8, 0x200000, 32, 0x40,
    [⟨TIL_PORT_ERR_RING.RING, 0, .rw, false⟩]⟩,
  -- TIL_PORT_STAT
  ⟨0x1010020, 8, 0x200000, 32, 0x40,
    [⟨TIL_PORT_STAT.STATE, 0, .ro, false⟩,
     ⟨TIL_PORT_STAT.CAUSE, 4, .ro, false⟩,
     ⟨TIL_PORT_STAT.FAILED_LANES, 8, .ro, false⟩,
     ⟨TIL_PORT_STAT.TX_LPI, 16, .ro, false⟩,
     ⟨TIL_PORT_STAT.RX_LPI, 17, .ro, false⟩]⟩,
  -- TIL_PORT_HIST
  ⟨0x1010024, 8, 0x200000, 32, 0x40,
    [⟨TIL_PORT_HIST.DOWN_SEEN, 0, .w1c, false⟩,
     ⟨TIL_PORT_HIST.FLAP_IN_HOLDOFF, 1, .w1c, false⟩,
     ⟨TIL_PORT_HIST.PAUSE_WDOG, 2, .w1c, false⟩,
     ⟨TIL_PORT_HIST.ADAPT_GUARD, 3, .w1c, false⟩,
     ⟨TIL_PORT_HIST.FEC_DEGRADE, 4, .w1c, false⟩]⟩,
  -- TIL_LANE_CFG
  ⟨0x1018000, 8, 0x200000, 32, 0x20,
    [⟨TIL_LANE_CFG.TX_INV, 0, .rw, false⟩,
     ⟨TIL_LANE_CFG.RX_INV, 1, .rw, false⟩]⟩,
  -- TIL_LANE_STAT
  ⟨0x1018004, 8, 0x200000, 32, 0x20,
    [⟨TIL_LANE_STAT.SIGNAL, 0, .ro, false⟩,
     ⟨TIL_LANE_STAT.CDR_LOCK, 1, .ro, false⟩,
     ⟨TIL_LANE_STAT.LOCK, 2, .ro, false⟩,
     ⟨TIL_LANE_STAT.FROZEN, 3, .ro, false⟩,
     ⟨TIL_LANE_STAT.GUARD_HIT, 4, .ro, false⟩]⟩]

def regsTil1 : List RegDesc := [
  -- TIL_PORT_LKP
  ⟨0x1010028, 8, 0x200000, 32, 0x40,
    [⟨TIL_PORT_LKP.PVID, 0, .rw, false⟩,
     ⟨TIL_PORT_LKP.TRUST, 12, .rw, false⟩,
     ⟨TIL_PORT_LKP.DEF_CLASS, 14, .rw, false⟩]⟩,
  -- TIL_BUF_GUAR0
  ⟨0x1020000, 8, 0x200000, 32, 0x20,
    [⟨TIL_BUF_GUAR0.GUAR_C, 0, .rw, false⟩]⟩,
  -- TIL_BUF_GUAR1
  ⟨0x1020004, 8, 0x200000, 32, 0x20,
    [⟨TIL_BUF_GUAR1.GUAR_C, 0, .rw, false⟩]⟩,
  -- TIL_BUF_HDRM0
  ⟨0x1020008, 8, 0x200000, 32, 0x20,
    [⟨TIL_BUF_HDRM0.HDRM_C, 0, .rw, false⟩]⟩,
  -- TIL_BUF_HDRM1
  ⟨0x102000C, 8, 0x200000, 32, 0x20,
    [⟨TIL_BUF_HDRM1.HDRM_C, 0, .rw, false⟩]⟩,
  -- TIL_BUF_XON
  ⟨0x1020010, 8, 0x200000, 32, 0x20,
    [⟨TIL_BUF_XON.XON_GAP, 0, .rw, false⟩]⟩,
  -- TIL_BUF_STAT
  ⟨0x1020014, 8, 0x200000, 32, 0x20,
    [⟨TIL_BUF_STAT.XOFF, 0, .ro, false⟩]⟩,
  -- TIL_EGR_SPILL
  ⟨0x1030000, 8, 0x200000, 1, 0x4000000,
    [⟨TIL_EGR_SPILL.SPILL_ON, 0, .rw, false⟩,
     ⟨TIL_EGR_SPILL.EQ_MAX, 8, .rw, false⟩]⟩,
  -- TIL_EGR_STAT
  ⟨0x1030004, 8, 0x200000, 1, 0x4000000,
    [⟨TIL_EGR_STAT.SPILLED, 0, .ro, false⟩]⟩,
  -- TIL_SCH_QUANTUM0
  ⟨0x1031000, 8, 0x200000, 32, 0x20,
    [⟨TIL_SCH_QUANTUM0.QUANTUM_C, 0, .rw, false⟩]⟩,
  -- TIL_SCH_QUANTUM1
  ⟨0x1031004, 8, 0x200000, 32, 0x20,
    [⟨TIL_SCH_QUANTUM1.QUANTUM_C, 0, .rw, false⟩]⟩,
  -- TIL_SCH_CL6
  ⟨0x1031008, 8, 0x200000, 32, 0x20,
    [⟨TIL_SCH_CL6.MARGIN, 0, .rw, false⟩,
     ⟨TIL_SCH_CL6.BURST, 8, .rw, false⟩]⟩]

def regsTil2 : List RegDesc := [
  -- TIL_SCH_CL6_RATE
  ⟨0x103100C, 8, 0x200000, 32, 0x20,
    [⟨TIL_SCH_CL6_RATE.RATE, 0, .ro, false⟩]⟩,
  -- TIL_SCH_LT
  ⟨0x1031010, 8, 0x200000, 32, 0x20,
    [⟨TIL_SCH_LT.LATE_POL0, 0, .rw, false⟩,
     ⟨TIL_SCH_LT.LATE_POL1, 1, .rw, false⟩,
     ⟨TIL_SCH_LT.LATE_TOL, 8, .rw, false⟩,
     ⟨TIL_SCH_LT.LT_QMAX, 16, .rw, false⟩]⟩,
  -- TIL_SCH_HOST7
  ⟨0x1031014, 8, 0x200000, 32, 0x20,
    [⟨TIL_SCH_HOST7.HOST7_PCT, 0, .rw, false⟩]⟩,
  -- TIL_SCH_HPQ
  ⟨0x1031018, 8, 0x200000, 32, 0x20,
    [⟨TIL_SCH_HPQ.HP_QMAX_C6, 0, .rw, false⟩,
     ⟨TIL_SCH_HPQ.HP_QMAX_C7, 8, .rw, false⟩]⟩,
  -- TIL_MED_BUDGET
  ⟨0x1034000, 8, 0x200000, 32, 0x10,
    [⟨TIL_MED_BUDGET.CL6_PCT, 0, .rw, false⟩]⟩,
  -- TIL_MED_RSV
  ⟨0x1034004, 8, 0x200000, 32, 0x10,
    [⟨TIL_MED_RSV.RES_SUM_KBPS, 0, .ro, false⟩]⟩,
  -- TIL_MED_RSV_PG
  ⟨0x1034008, 8, 0x200000, 32, 0x10,
    [⟨TIL_MED_RSV_PG.PG_SUM_KBPS, 0, .ro, false⟩]⟩,
  -- TIL_MED_STAT
  ⟨0x103400C, 8, 0x200000, 32, 0x10,
    [⟨TIL_MED_STAT.OVERBOOKED, 0, .ro, false⟩]⟩,
  -- TIL_PORT_TS
  ⟨0x101002C, 8, 0x200000, 32, 0x40,
    [⟨TIL_PORT_TS.FIFO_LEVEL, 0, .ro, false⟩]⟩]

/-- The registers of the tiles (R584). -/
def regsTil : List RegDesc :=
  regsTil0 ++ regsTil1 ++ regsTil2

def regsTpl0 : List RegDesc := [
  -- TPL_TB_CFG
  ⟨0x3000000, 1, 0x4000000, 1, 0x4000000,
    [⟨TPL_TB_CFG.SERVO_MODE, 0, .rw, false⟩]⟩,
  -- TPL_TB_POL
  ⟨0x3000004, 1, 0x4000000, 1, 0x4000000,
    [⟨TPL_TB_POL.STEP_THRESH_NS, 0, .rw, false⟩,
     ⟨TPL_TB_POL.BACK_POL, 10, .rw, false⟩,
     ⟨TPL_TB_POL.FWD_POL, 12, .rw, false⟩]⟩,
  -- TPL_TB_SLEW
  ⟨0x3000008, 1, 0x4000000, 1, 0x4000000,
    [⟨TPL_TB_SLEW.SLEW_PPB, 0, .rw, false⟩]⟩,
  -- TPL_TB_INC_FRAC
  ⟨0x3000010, 1, 0x4000000, 1, 0x4000000,
    [⟨TPL_TB_INC_FRAC.INC_FRAC, 0, .rw, false⟩]⟩,
  -- TPL_TB_INC_NS
  ⟨0x3000014, 1, 0x4000000, 1, 0x4000000,
    [⟨TPL_TB_INC_NS.INC_NS, 0, .rw, true⟩]⟩,
  -- TPL_TB_ADJ
  ⟨0x3000018, 1, 0x4000000, 1, 0x4000000,
    [⟨TPL_TB_ADJ.ADJ_PS, 0, .wo, true⟩]⟩,
  -- TPL_TB_ADJ_REM
  ⟨0x300001C, 1, 0x4000000, 1, 0x4000000,
    [⟨TPL_TB_ADJ_REM.ADJ_REM, 0, .ro, false⟩]⟩,
  -- TPL_TB_STEP_SEC
  ⟨0x3000020, 1, 0x4000000, 1, 0x4000000,
    [⟨TPL_TB_STEP_SEC.STEP_SEC, 0, .rw, false⟩]⟩,
  -- TPL_TB_STEP_NS
  ⟨0x3000024, 1, 0x4000000, 1, 0x4000000,
    [⟨TPL_TB_STEP_NS.STEP_NS, 0, .rw, false⟩]⟩,
  -- TPL_TB_CTRL
  ⟨0x3000028, 1, 0x4000000, 1, 0x4000000,
    [⟨TPL_TB_CTRL.STEP_GO, 0, .wo, true⟩,
     ⟨TPL_TB_CTRL.CAPTURE, 1, .wo, true⟩]⟩,
  -- TPL_TB_STAT
  ⟨0x3000030, 1, 0x4000000, 1, 0x4000000,
    [⟨TPL_TB_STAT.SERVING, 0, .ro, false⟩,
     ⟨TPL_TB_STAT.TIME_VALID, 1, .ro, false⟩,
     ⟨TPL_TB_STAT.ADJ_BUSY, 2, .ro, false⟩,
     ⟨TPL_TB_STAT.DISC_PENDING, 3, .ro, false⟩,
     ⟨TPL_TB_STAT.STEP_PENDING, 4, .ro, false⟩,
     ⟨TPL_TB_STAT.DISC_CNT, 8, .ro, false⟩,
     ⟨TPL_TB_STAT.PEND_ID, 16, .ro, false⟩]⟩,
  -- TPL_TB_HIST
  ⟨0x3000034, 1, 0x4000000, 1, 0x4000000,
    [⟨TPL_TB_HIST.STEPPED, 0, .w1c, false⟩,
     ⟨TPL_TB_HIST.STEP_REFUSED, 1, .w1c, false⟩,
     ⟨TPL_TB_HIST.INC_CLAMPED, 2, .w1c, false⟩,
     ⟨TPL_TB_HIST.STAMP_LOST_SEEN, 3, .w1c, false⟩]⟩]

def regsTpl1 : List RegDesc := [
  -- TPL_TB_REFUSED
  ⟨0x3000038, 1, 0x4000000, 1, 0x4000000,
    [⟨TPL_TB_REFUSED.REFUSED_CNT, 0, .ro, false⟩]⟩,
  -- TPL_TB_CAP_FRAC
  ⟨0x3000040, 1, 0x4000000, 1, 0x4000000,
    [⟨TPL_TB_CAP_FRAC.FRAC, 0, .ro, false⟩]⟩,
  -- TPL_TB_CAP_NS
  ⟨0x3000044, 1, 0x4000000, 1, 0x4000000,
    [⟨TPL_TB_CAP_NS.NS, 0, .ro, false⟩]⟩,
  -- TPL_TB_CAP_SEC_LO
  ⟨0x3000048, 1, 0x4000000, 1, 0x4000000,
    [⟨TPL_TB_CAP_SEC_LO.SEC, 0, .ro, false⟩]⟩,
  -- TPL_TB_CAP_SEC_HI
  ⟨0x300004C, 1, 0x4000000, 1, 0x4000000,
    [⟨TPL_TB_CAP_SEC_HI.SEC, 0, .ro, false⟩]⟩,
  -- TPL_STC_TX
  ⟨0x3010000, 256, 0x80, 16, 0x8,
    [⟨TPL_STC_TX.TX_CORR, 0, .rw, false⟩]⟩,
  -- TPL_STC_RX
  ⟨0x3010004, 256, 0x80, 16, 0x8,
    [⟨TPL_STC_RX.RX_CORR, 0, .rw, false⟩]⟩,
  -- TPL_PH_CFG
  ⟨0x3000100, 1, 0x4000000, 1, 0x4000000,
    [⟨TPL_PH_CFG.AVG_UPD, 0, .rw, false⟩,
     ⟨TPL_PH_CFG.DEGLITCH, 8, .rw, false⟩,
     ⟨TPL_PH_CFG.SLIP, 16, .rw, false⟩,
     ⟨TPL_PH_CFG.SYNT_PPB, 26, .rw, false⟩]⟩,
  -- TPL_PH_PORT
  ⟨0x3020000, 1, 0x4000000, 256, 0x20,
    [⟨TPL_PH_PORT.PH_EN, 0, .rw, true⟩]⟩,
  -- TPL_PH_STAT
  ⟨0x3020004, 1, 0x4000000, 256, 0x20,
    [⟨TPL_PH_STAT.VALID, 0, .ro, false⟩,
     ⟨TPL_PH_STAT.STALE, 1, .ro, false⟩,
     ⟨TPL_PH_STAT.NOT_SYNT, 2, .ro, false⟩,
     ⟨TPL_PH_STAT.SLIP, 3, .ro, false⟩,
     ⟨TPL_PH_STAT.ALIGN_LOSS, 4, .ro, false⟩,
     ⟨TPL_PH_STAT.DISC, 5, .ro, false⟩,
     ⟨TPL_PH_STAT.SERVICE, 8, .ro, false⟩,
     ⟨TPL_PH_STAT.WIN_SEQ, 16, .ro, false⟩]⟩,
  -- TPL_PH_PHASE
  ⟨0x3020008, 1, 0x4000000, 256, 0x20,
    [⟨TPL_PH_PHASE.PHASE, 0, .ro, false⟩]⟩,
  -- TPL_PH_EDGE
  ⟨0x302000C, 1, 0x4000000, 256, 0x20,
    [⟨TPL_PH_EDGE.EDGE, 0, .ro, false⟩]⟩]

def regsTpl2 : List RegDesc := [
  -- TPL_PH_DRIFT
  ⟨0x3020010, 1, 0x4000000, 256, 0x20,
    [⟨TPL_PH_DRIFT.RATE, 0, .ro, false⟩]⟩,
  -- TPL_LNK_TXD
  ⟨0x3020014, 1, 0x4000000, 256, 0x20,
    [⟨TPL_LNK_TXD.TXD, 0, .rw, false⟩]⟩,
  -- TPL_LNK_RXD
  ⟨0x3020018, 1, 0x4000000, 256, 0x20,
    [⟨TPL_LNK_RXD.RXD, 0, .rw, false⟩]⟩,
  -- TPL_LNK_ALPHA
  ⟨0x302001C, 1, 0x4000000, 256, 0x20,
    [⟨TPL_LNK_ALPHA.ALPHA, 0, .rw, false⟩]⟩,
  -- TPL_TIU_CFG
  ⟨0x3030000, 1, 0x4000000, 16, 0x40,
    [⟨TPL_TIU_CFG.MODE, 0, .rw, false⟩,
     ⟨TPL_TIU_CFG.START_SRC, 2, .rw, false⟩,
     ⟨TPL_TIU_CFG.START_EDGE, 8, .rw, false⟩,
     ⟨TPL_TIU_CFG.STOP_SRC, 9, .rw, false⟩,
     ⟨TPL_TIU_CFG.STOP_EDGE, 15, .rw, false⟩,
     ⟨TPL_TIU_CFG.NLOG2, 16, .rw, false⟩,
     ⟨TPL_TIU_CFG.PRE_START, 21, .rw, false⟩,
     ⟨TPL_TIU_CFG.PRE_STOP, 23, .rw, false⟩,
     ⟨TPL_TIU_CFG.DITHER, 25, .rw, false⟩]⟩,
  -- TPL_TIU_WMIN
  ⟨0x3030004, 1, 0x4000000, 16, 0x40,
    [⟨TPL_TIU_WMIN.WIN_MIN, 0, .rw, false⟩]⟩,
  -- TPL_TIU_WMAX
  ⟨0x3030008, 1, 0x4000000, 16, 0x40,
    [⟨TPL_TIU_WMAX.WIN_MAX, 0, .rw, false⟩]⟩,
  -- TPL_TIU_CTRL
  ⟨0x303000C, 1, 0x4000000, 16, 0x40,
    [⟨TPL_TIU_CTRL.GO, 0, .wo, true⟩,
     ⟨TPL_TIU_CTRL.ABORT, 1, .wo, true⟩]⟩,
  -- TPL_TIU_STAT
  ⟨0x3030010, 1, 0x4000000, 16, 0x40,
    [⟨TPL_TIU_STAT.STATE, 0, .ro, false⟩,
     ⟨TPL_TIU_STAT.STEP_ABORT, 2, .ro, false⟩,
     ⟨TPL_TIU_STAT.CFG_ERR, 3, .ro, false⟩,
     ⟨TPL_TIU_STAT.COUNT, 4, .ro, false⟩]⟩,
  -- TPL_TIU_ERR
  ⟨0x3030014, 1, 0x4000000, 16, 0x40,
    [⟨TPL_TIU_ERR.TIMEOUTS, 0, .ro, false⟩,
     ⟨TPL_TIU_ERR.DEAD_MISS, 16, .ro, false⟩]⟩,
  -- TPL_TIU_MEAN_LO
  ⟨0x3030018, 1, 0x4000000, 16, 0x40,
    [⟨TPL_TIU_MEAN_LO.MEAN, 0, .ro, false⟩]⟩,
  -- TPL_TIU_MEAN_HI
  ⟨0x303001C, 1, 0x4000000, 16, 0x40,
    [⟨TPL_TIU_MEAN_HI.MEAN, 0, .ro, false⟩]⟩]

def regsTpl3 : List RegDesc := [
  -- TPL_TIU_DEV_LO
  ⟨0x3030020, 1, 0x4000000, 16, 0x40,
    [⟨TPL_TIU_DEV_LO.DEV, 0, .ro, false⟩]⟩,
  -- TPL_TIU_DEV_HI
  ⟨0x3030024, 1, 0x4000000, 16, 0x40,
    [⟨TPL_TIU_DEV_HI.DEV, 0, .ro, false⟩]⟩,
  -- TPL_TIU_MIN_LO
  ⟨0x3030028, 1, 0x4000000, 16, 0x40,
    [⟨TPL_TIU_MIN_LO.MIN, 0, .ro, false⟩]⟩,
  -- TPL_TIU_MIN_HI
  ⟨0x303002C, 1, 0x4000000, 16, 0x40,
    [⟨TPL_TIU_MIN_HI.MIN, 0, .ro, false⟩]⟩,
  -- TPL_TIU_MAX_LO
  ⟨0x3030030, 1, 0x4000000, 16, 0x40,
    [⟨TPL_TIU_MAX_LO.MAX, 0, .ro, false⟩]⟩,
  -- TPL_TIU_MAX_HI
  ⟨0x3030034, 1, 0x4000000, 16, 0x40,
    [⟨TPL_TIU_MAX_HI.MAX, 0, .ro, false⟩]⟩,
  -- TPL_TIU_LAST_LO
  ⟨0x3030038, 1, 0x4000000, 16, 0x40,
    [⟨TPL_TIU_LAST_LO.LAST, 0, .ro, false⟩]⟩,
  -- TPL_TIU_LAST_HI
  ⟨0x303003C, 1, 0x4000000, 16, 0x40,
    [⟨TPL_TIU_LAST_HI.LAST, 0, .ro, false⟩]⟩,
  -- TPL_REF_CFG
  ⟨0x3040000, 1, 0x4000000, 26, 0x20,
    [⟨TPL_REF_CFG.MON_EN, 0, .ro, false⟩,
     ⟨TPL_REF_CFG.TYPE, 1, .ro, false⟩,
     ⟨TPL_REF_CFG.PRE, 2, .ro, false⟩,
     ⟨TPL_REF_CFG.MON_CLK, 4, .ro, false⟩,
     ⟨TPL_REF_CFG.DNU, 5, .ro, false⟩]⟩,
  -- TPL_REF_FNOM
  ⟨0x3040004, 1, 0x4000000, 26, 0x20,
    [⟨TPL_REF_FNOM.F_NOM, 0, .ro, false⟩]⟩,
  -- TPL_REF_SLOT
  ⟨0x3040008, 1, 0x4000000, 26, 0x20,
    [⟨TPL_REF_SLOT.PORT, 0, .ro, false⟩,
     ⟨TPL_REF_SLOT.LANE, 8, .ro, false⟩]⟩,
  -- TPL_REF_MON1
  ⟨0x304000C, 1, 0x4000000, 26, 0x20,
    [⟨TPL_REF_MON1.SOFT, 0, .ro, false⟩,
     ⟨TPL_REF_MON1.HARD, 12, .ro, false⟩,
     ⟨TPL_REF_MON1.GATE, 24, .ro, false⟩]⟩]

def regsTpl4 : List RegDesc := [
  -- TPL_REF_MON2
  ⟨0x3040010, 1, 0x4000000, 26, 0x20,
    [⟨TPL_REF_MON2.DRIFT_SOFT, 0, .ro, false⟩,
     ⟨TPL_REF_MON2.DRIFT_HARD, 8, .ro, false⟩,
     ⟨TPL_REF_MON2.QUAL_MS, 16, .ro, false⟩]⟩,
  -- TPL_REF_STAT
  ⟨0x3040014, 1, 0x4000000, 26, 0x20,
    [⟨TPL_REF_STAT.STATE, 0, .ro, false⟩]⟩,
  -- TPL_REF_FOFF
  ⟨0x3040018, 1, 0x4000000, 26, 0x20,
    [⟨TPL_REF_FOFF.FOFF, 0, .ro, false⟩]⟩,
  -- TPL_REF_HIST
  ⟨0x304001C, 1, 0x4000000, 26, 0x20,
    [⟨TPL_REF_HIST.ACT_LOSS, 0, .w1c, false⟩,
     ⟨TPL_REF_HIST.FAST_FAIL, 1, .w1c, false⟩,
     ⟨TPL_REF_HIST.HARD_FAIL, 2, .w1c, false⟩,
     ⟨TPL_REF_HIST.DRIFT_FAIL, 3, .w1c, false⟩,
     ⟨TPL_REF_HIST.SOFT_SEEN, 4, .w1c, false⟩,
     ⟨TPL_REF_HIST.DNU_SEEN, 5, .w1c, false⟩,
     ⟨TPL_REF_HIST.QUALIFIED_SEEN, 6, .w1c, false⟩]⟩,
  -- TPL_DPLL_CFG
  ⟨0x3050000, 1, 0x4000000, 4, 0x100,
    [⟨TPL_DPLL_CFG.MODE, 0, .ro, false⟩,
     ⟨TPL_DPLL_CFG.FORCE_ENTRY, 2, .ro, false⟩,
     ⟨TPL_DPLL_CFG.HO_EN, 5, .ro, false⟩,
     ⟨TPL_DPLL_CFG.ALIGN, 6, .ro, false⟩,
     ⟨TPL_DPLL_CFG.WTR_S, 16, .ro, false⟩]⟩,
  -- TPL_DPLL_BW0
  ⟨0x3050004, 1, 0x4000000, 4, 0x100,
    [⟨TPL_DPLL_BW0.BW_LINE, 0, .ro, false⟩,
     ⟨TPL_DPLL_BW0.BW_EXT, 16, .ro, false⟩]⟩,
  -- TPL_DPLL_BW1
  ⟨0x3050008, 1, 0x4000000, 4, 0x100,
    [⟨TPL_DPLL_BW1.BW_PPS, 0, .ro, false⟩,
     ⟨TPL_DPLL_BW1.BW_PHASE, 16, .ro, false⟩]⟩,
  -- TPL_DPLL_LOCK
  ⟨0x305000C, 1, 0x4000000, 4, 0x100,
    [⟨TPL_DPLL_LOCK.LOCK_WIN, 0, .ro, false⟩,
     ⟨TPL_DPLL_LOCK.LOCK_T, 16, .ro, false⟩]⟩,
  -- TPL_DPLL_HOLD
  ⟨0x3050010, 1, 0x4000000, 4, 0x100,
    [⟨TPL_DPLL_HOLD.HIST_S, 0, .ro, false⟩,
     ⟨TPL_DPLL_HOLD.HIST_SKIP_S, 12, .ro, false⟩,
     ⟨TPL_DPLL_HOLD.HO_LIMIT_S, 16, .ro, false⟩]⟩,
  -- TPL_DPLL_PSL
  ⟨0x3050014, 1, 0x4000000, 4, 0x100,
    [⟨TPL_DPLL_PSL.PSL_PPB, 0, .ro, false⟩]⟩,
  -- TPL_DPLL_MAN
  ⟨0x3050018, 1, 0x4000000, 4, 0x100,
    [⟨TPL_DPLL_MAN.MAN_FOFF, 0, .ro, false⟩]⟩,
  -- TPL_DPLL_PRIO
  ⟨0x3050020, 4, 0x100, 8, 0x4,
    [⟨TPL_DPLL_PRIO.REF, 0, .ro, false⟩,
     ⟨TPL_DPLL_PRIO.PRIO, 5, .ro, false⟩,
     ⟨TPL_DPLL_PRIO.REVERT, 9, .ro, false⟩]⟩]

def regsTpl5 : List RegDesc := [
  -- TPL_DPLL_STAT
  ⟨0x3050040, 1, 0x4000000, 4, 0x100,
    [⟨TPL_DPLL_STAT.STATE, 0, .ro, false⟩,
     ⟨TPL_DPLL_STAT.SEL, 3, .ro, false⟩,
     ⟨TPL_DPLL_STAT.HIST_VALID, 6, .ro, false⟩,
     ⟨TPL_DPLL_STAT.WTR_RUN, 7, .ro, false⟩,
     ⟨TPL_DPLL_STAT.WTR_REM_S, 16, .ro, false⟩]⟩,
  -- TPL_DPLL_FOFF
  ⟨0x3050044, 1, 0x4000000, 4, 0x100,
    [⟨TPL_DPLL_FOFF.FOFF, 0, .ro, false⟩]⟩,
  -- TPL_DPLL_PERR
  ⟨0x3050048, 1, 0x4000000, 4, 0x100,
    [⟨TPL_DPLL_PERR.PERR, 0, .ro, false⟩]⟩,
  -- TPL_DPLL_HIST
  ⟨0x305004C, 1, 0x4000000, 4, 0x100,
    [⟨TPL_DPLL_HIST.STATE_SEEN, 0, .w1c, false⟩,
     ⟨TPL_DPLL_HIST.SWITCH, 5, .w1c, false⟩,
     ⟨TPL_DPLL_HIST.PSL_HIT, 6, .w1c, false⟩,
     ⟨TPL_DPLL_HIST.UNLOCK, 7, .w1c, false⟩]⟩,
  -- TPL_PLL_LOCK
  ⟨0x3060000, 1, 0x4000000, 7, 0x20,
    [⟨TPL_PLL_LOCK.LOCK_N, 0, .rw, false⟩,
     ⟨TPL_PLL_LOCK.WIN, 12, .rw, false⟩]⟩,
  -- TPL_PLL_SSC
  ⟨0x3060004, 1, 0x4000000, 7, 0x20,
    [⟨TPL_PLL_SSC.SSC_MODE, 0, .rw, false⟩,
     ⟨TPL_PLL_SSC.DEPTH, 2, .rw, false⟩]⟩,
  -- TPL_PLL_VCO
  ⟨0x3060008, 1, 0x4000000, 7, 0x20,
    [⟨TPL_PLL_VCO.F_VCO, 0, .rw, false⟩]⟩,
  -- TPL_PLL_STAT
  ⟨0x306000C, 1, 0x4000000, 7, 0x20,
    [⟨TPL_PLL_STAT.LOCK, 0, .ro, false⟩,
     ⟨TPL_PLL_STAT.NO_BAND, 1, .ro, false⟩,
     ⟨TPL_PLL_STAT.BAND, 2, .ro, false⟩,
     ⟨TPL_PLL_STAT.PENDING, 8, .ro, false⟩]⟩,
  -- TPL_PLL_HIST
  ⟨0x3060010, 1, 0x4000000, 7, 0x20,
    [⟨TPL_PLL_HIST.LOCK_LOST, 0, .w1c, false⟩]⟩,
  -- TPL_BAND_RANGE
  ⟨0x3080000, 7, 0x80, 16, 0x8,
    [⟨TPL_BAND_RANGE.F_LO, 0, .rw, false⟩,
     ⟨TPL_BAND_RANGE.F_HI, 16, .rw, false⟩]⟩,
  -- TPL_BAND_SEL
  ⟨0x3080004, 7, 0x80, 16, 0x8,
    [⟨TPL_BAND_SEL.BAND, 0, .rw, false⟩,
     ⟨TPL_BAND_SEL.VALID, 31, .rw, false⟩]⟩,
  -- TPL_OUT_CFG
  ⟨0x3070000, 1, 0x4000000, 8, 0x20,
    [⟨TPL_OUT_CFG.EN, 0, .rw, false⟩,
     ⟨TPL_OUT_CFG.FMT, 1, .rw, false⟩,
     ⟨TPL_OUT_CFG.SRC, 2, .rw, false⟩,
     ⟨TPL_OUT_CFG.SYNC_EN, 3, .rw, false⟩,
     ⟨TPL_OUT_CFG.HS, 4, .rw, false⟩]⟩]

def regsTpl6 : List RegDesc := [
  -- TPL_OUT_DIV
  ⟨0x3070004, 1, 0x4000000, 8, 0x20,
    [⟨TPL_OUT_DIV.D, 0, .rw, false⟩]⟩,
  -- TPL_OUT_PW
  ⟨0x3070008, 1, 0x4000000, 8, 0x20,
    [⟨TPL_OUT_PW.HIGH, 0, .rw, false⟩]⟩,
  -- TPL_OUT_STAT
  ⟨0x307000C, 1, 0x4000000, 8, 0x20,
    [⟨TPL_OUT_STAT.ACTIVE, 0, .ro, false⟩,
     ⟨TPL_OUT_STAT.GATED, 1, .ro, false⟩,
     ⟨TPL_OUT_STAT.QUENCHED, 2, .ro, false⟩,
     ⟨TPL_OUT_STAT.PENDING, 3, .ro, false⟩]⟩,
  -- TPL_CS_CTRL
  ⟨0x3060100, 1, 0x4000000, 1, 0x4000000,
    [⟨TPL_CS_CTRL.DIV_GO, 0, .wo, true⟩,
     ⟨TPL_CS_CTRL.SYNC_MODE, 1, .rw, false⟩,
     ⟨TPL_CS_CTRL.SYNC_ARM, 3, .w1s, true⟩,
     ⟨TPL_CS_CTRL.LOAD_ON_SYNC, 4, .rw, false⟩]⟩,
  -- TPL_CS_STAT
  ⟨0x3060104, 1, 0x4000000, 1, 0x4000000,
    [⟨TPL_CS_STAT.SYNC_SEEN, 0, .w1c, false⟩,
     ⟨TPL_CS_STAT.SYNC_EARLY, 1, .w1c, false⟩]⟩,
  -- TPL_CS_IRQ
  ⟨0x3060108, 1, 0x4000000, 1, 0x4000000,
    [⟨TPL_CS_IRQ.DPLL_MASK, 0, .rw, false⟩,
     ⟨TPL_CS_IRQ.REF_MASK, 8, .rw, false⟩]⟩,
  -- TPL_TB_CMP
  ⟨0x3000060, 1, 0x4000000, 1, 0x4000000,
    [⟨TPL_TB_CMP.A_FAILED, 0, .ro, false⟩,
     ⟨TPL_TB_CMP.B_FAILED, 1, .ro, false⟩,
     ⟨TPL_TB_CMP.MISMATCH_CNT, 8, .ro, false⟩]⟩]

/-- The registers of the timing plane (R584). -/
def regsTpl : List RegDesc :=
  regsTpl0 ++ regsTpl1 ++ regsTpl2 ++ regsTpl3 ++ regsTpl4 ++ regsTpl5 ++ regsTpl6

def regsMer0 : List RegDesc := [
  -- MER_GEN_CFG
  ⟨0x3400000, 1, 0x4000000, 16, 0x20,
    [⟨MER_GEN_CFG.EN, 0, .rw, true⟩,
     ⟨MER_GEN_CFG.RATE_GO, 1, .wo, true⟩]⟩,
  -- MER_GEN_RATE
  ⟨0x3400004, 1, 0x4000000, 16, 0x20,
    [⟨MER_GEN_RATE.NUM, 0, .rw, false⟩]⟩,
  -- MER_GEN_DEN
  ⟨0x3400008, 1, 0x4000000, 16, 0x20,
    [⟨MER_GEN_DEN.DEN, 0, .rw, false⟩]⟩,
  -- MER_GEN_OFFSET
  ⟨0x340000C, 1, 0x4000000, 16, 0x20,
    [⟨MER_GEN_OFFSET.OFFSET, 0, .rw, false⟩]⟩,
  -- MER_GEN_FC_LO
  ⟨0x3400010, 1, 0x4000000, 16, 0x20,
    [⟨MER_GEN_FC_LO.FC, 0, .ro, false⟩]⟩,
  -- MER_GEN_FC_HI
  ⟨0x3400014, 1, 0x4000000, 16, 0x20,
    [⟨MER_GEN_FC_HI.FC, 0, .ro, false⟩]⟩,
  -- MER_GEN_STAT
  ⟨0x3400018, 1, 0x4000000, 16, 0x20,
    [⟨MER_GEN_STAT.RATE_PENDING, 0, .ro, false⟩,
     ⟨MER_GEN_STAT.SUPPRESSING, 1, .ro, false⟩,
     ⟨MER_GEN_STAT.SKIP_CNT, 16, .ro, false⟩]⟩,
  -- MER_GEN_HIST
  ⟨0x340001C, 1, 0x4000000, 16, 0x20,
    [⟨MER_GEN_HIST.STEP_FWD, 0, .w1c, false⟩,
     ⟨MER_GEN_HIST.STEP_BACK, 1, .w1c, false⟩,
     ⟨MER_GEN_HIST.RATE_ERR, 2, .w1c, false⟩]⟩,
  -- MER_PIN_CFG
  ⟨0x3400200, 1, 0x4000000, 8, 0x10,
    [⟨MER_PIN_CFG.EN, 0, .rw, false⟩,
     ⟨MER_PIN_CFG.GEN, 1, .rw, false⟩,
     ⟨MER_PIN_CFG.MSG_EN, 5, .rw, false⟩,
     ⟨MER_PIN_CFG.EDGE_W, 6, .rw, false⟩,
     ⟨MER_PIN_CFG.Q, 10, .rw, false⟩]⟩,
  -- MER_PIN_STAT
  ⟨0x3400204, 1, 0x4000000, 8, 0x10,
    [⟨MER_PIN_STAT.ACTIVE, 0, .ro, false⟩,
     ⟨MER_PIN_STAT.QUENCHED, 1, .ro, false⟩,
     ⟨MER_PIN_STAT.MSG_SUPPRESSED, 2, .ro, false⟩]⟩,
  -- MER_ARM
  ⟨0x3400300, 1, 0x4000000, 1, 0x4000000,
    [⟨MER_ARM.ARM_LEAD, 0, .rw, false⟩]⟩,
  -- MER_BUDGET
  ⟨0x3400304, 1, 0x4000000, 1, 0x4000000,
    [⟨MER_BUDGET.BUDGET_PCT, 0, .rw, false⟩]⟩]

def regsMer1 : List RegDesc := [
  -- MER_DONE
  ⟨0x3400308, 1, 0x4000000, 1, 0x4000000,
    [⟨MER_DONE.FC_MARK, 0, .wo, true⟩]⟩,
  -- MER_BUDGET_STAT
  ⟨0x340030C, 1, 0x4000000, 1, 0x4000000,
    [⟨MER_BUDGET_STAT.OVERRUN, 0, .w1c, false⟩,
     ⟨MER_BUDGET_STAT.MISS_RUN, 1, .ro, false⟩,
     ⟨MER_BUDGET_STAT.HB_ARMED, 3, .ro, false⟩,
     ⟨MER_BUDGET_STAT.DONE_BAD, 16, .ro, false⟩,
     ⟨MER_BUDGET_STAT.OVERRUN_CNT, 24, .ro, false⟩]⟩]

/-- The registers of the Meridian (R584). -/
def regsMer : List RegDesc :=
  regsMer0 ++ regsMer1

def regsQch0 : List RegDesc := [
  -- QCH_CFG
  ⟨0x3800000, 1, 0x4000000, 1, 0x4000000,
    [⟨QCH_CFG.TIME_BOUND_NS, 0, .rw, false⟩,
     ⟨QCH_CFG.HO_RATE_PPB, 16, .rw, false⟩]⟩,
  -- QCH_LOCK
  ⟨0x3800004, 1, 0x4000000, 1, 0x4000000,
    [⟨QCH_LOCK.LOCK, 0, .w1s, true⟩]⟩,
  -- QCH_STATE
  ⟨0x3800008, 1, 0x4000000, 1, 0x4000000,
    [⟨QCH_STATE.TICK_IDLE, 0, .ro, false⟩,
     ⟨QCH_STATE.CLKOUT_IDLE, 1, .ro, false⟩,
     ⟨QCH_STATE.PTP_SUPP, 2, .ro, false⟩,
     ⟨QCH_STATE.GUARD_BLOCK, 3, .ro, false⟩,
     ⟨QCH_STATE.SAFE, 4, .ro, false⟩,
     ⟨QCH_STATE.ALARM, 5, .ro, false⟩,
     ⟨QCH_STATE.TG_ARMED, 6, .ro, false⟩]⟩,
  -- QCH_FIRST
  ⟨0x380000C, 1, 0x4000000, 1, 0x4000000,
    [⟨QCH_FIRST.FIRST_ID, 0, .ro, false⟩,
     ⟨QCH_FIRST.FIRST_REC, 16, .ro, false⟩,
     ⟨QCH_FIRST.VALID, 31, .ro, false⟩]⟩,
  -- QCH_SAME_MASK
  ⟨0x3800010, 1, 0x4000000, 1, 0x4000000,
    [⟨QCH_SAME_MASK.MASK, 0, .ro, false⟩]⟩,
  -- QCH_HIST
  ⟨0x3800014, 1, 0x4000000, 1, 0x4000000,
    [⟨QCH_HIST.REC_OVF, 0, .w1c, false⟩,
     ⟨QCH_HIST.ESCALATED_SEEN, 1, .w1c, false⟩,
     ⟨QCH_HIST.AON_ONLY, 2, .w1c, false⟩]⟩,
  -- QCH_TG_STAT
  ⟨0x3800018, 1, 0x4000000, 1, 0x4000000,
    [⟨QCH_TG_STAT.BOUND_NS, 0, .ro, false⟩]⟩,
  -- QCH_ASSURE
  ⟨0x380001C, 1, 0x4000000, 1, 0x4000000,
    [⟨QCH_ASSURE.E_NS, 0, .wo, true⟩]⟩,
  -- QCH_ACTIVE
  ⟨0x3800020, 1, 0x4000000, 16, 0x4,
    [⟨QCH_ACTIVE.ACTIVE, 0, .ro, false⟩]⟩,
  -- QCH_LATCHED
  ⟨0x3800060, 1, 0x4000000, 16, 0x4,
    [⟨QCH_LATCHED.LATCHED, 0, .ro, false⟩]⟩,
  -- QCH_GUARD_PORTS
  ⟨0x3800100, 1, 0x4000000, 8, 0x4,
    [⟨QCH_GUARD_PORTS.GUARDED, 0, .ro, false⟩]⟩,
  -- QCH_SEV
  ⟨0x3801000, 1, 0x4000000, 512, 0x4,
    [⟨QCH_SEV.SEV, 0, .rw, false⟩,
     ⟨QCH_SEV.FLOOR, 2, .ro, false⟩]⟩]

/-- The registers of the Quench (R584). -/
def regsQch : List RegDesc :=
  regsQch0

def regsTmp0 : List RegDesc := [
  -- TMP_CFG
  ⟨0x3A00000, 1, 0x4000000, 1, 0x4000000,
    [⟨TMP_CFG.DT, 0, .rw, false⟩,
     ⟨TMP_CFG.AUTO_EN, 6, .rw, false⟩,
     ⟨TMP_CFG.PATH_EN, 7, .rw, false⟩,
     ⟨TMP_CFG.REPEAT_PS, 8, .rw, false⟩,
     ⟨TMP_CFG.RETRY, 16, .rw, false⟩,
     ⟨TMP_CFG.REF10_ID, 18, .rw, false⟩,
     ⟨TMP_CFG.PPS_ID, 21, .rw, false⟩]⟩,
  -- TMP_STAT
  ⟨0x3A00004, 1, 0x4000000, 1, 0x4000000,
    [⟨TMP_STAT.STATE, 0, .ro, false⟩,
     ⟨TMP_STAT.TRACE_VALID, 2, .ro, false⟩,
     ⟨TMP_STAT.FACTORY_TRACE, 3, .ro, false⟩,
     ⟨TMP_STAT.ENTERING, 4, .ro, false⟩,
     ⟨TMP_STAT.DT_OK, 8, .ro, false⟩]⟩,
  -- TMP_RUN
  ⟨0x3A00008, 1, 0x4000000, 1, 0x4000000,
    [⟨TMP_RUN.RUN_ID, 0, .ro, false⟩,
     ⟨TMP_RUN.UNCONFIRMED, 16, .ro, false⟩,
     ⟨TMP_RUN.UNIT, 24, .ro, false⟩]⟩,
  -- TMP_HIST
  ⟨0x3A0000C, 1, 0x4000000, 1, 0x4000000,
    [⟨TMP_HIST.REPEAT_FAIL, 0, .w1c, false⟩,
     ⟨TMP_HIST.TRACE_FAIL, 1, .w1c, false⟩,
     ⟨TMP_HIST.OVERDUE, 2, .w1c, false⟩,
     ⟨TMP_HIST.SUSPENDED_SEEN, 3, .w1c, false⟩]⟩,
  -- TMP_UNIT_T
  ⟨0x3A00100, 1, 0x4000000, 9, 0x8,
    [⟨TMP_UNIT_T.T_LAST, 0, .ro, false⟩,
     ⟨TMP_UNIT_T.AGE_S, 16, .ro, false⟩]⟩,
  -- TMP_UNIT_V
  ⟨0x3A00104, 1, 0x4000000, 9, 0x8,
    [⟨TMP_UNIT_V.V_LAST, 0, .ro, false⟩]⟩,
  -- TMP_TICK_DLY
  ⟨0x3A00200, 1, 0x4000000, 8, 0x4,
    [⟨TMP_TICK_DLY.DLY, 0, .ro, false⟩]⟩,
  -- TMP_CLKOUT_DLY
  ⟨0x3A00220, 1, 0x4000000, 8, 0x4,
    [⟨TMP_CLKOUT_DLY.DLY, 0, .ro, false⟩]⟩]

/-- The registers of the Temper (R584). -/
def regsTmp : List RegDesc :=
  regsTmp0

def regsPwr0 : List RegDesc := [
  -- PWR_SEQ_STAT
  ⟨0x3C00000, 1, 0x4000000, 1, 0x4000000,
    [⟨PWR_SEQ_STAT.ATTEMPT, 0, .ro, false⟩,
     ⟨PWR_SEQ_STAT.RAILS_UP, 2, .ro, false⟩,
     ⟨PWR_SEQ_STAT.SEQ_DONE, 8, .ro, false⟩,
     ⟨PWR_SEQ_STAT.SEQ_FAIL, 9, .ro, false⟩,
     ⟨PWR_SEQ_STAT.FAIL_RAIL, 10, .ro, false⟩]⟩,
  -- PWR_AVS_CFG
  ⟨0x3C00004, 1, 0x4000000, 1, 0x4000000,
    [⟨PWR_AVS_CFG.AVS_EN, 0, .rw, false⟩,
     ⟨PWR_AVS_CFG.AVS_PERIOD, 4, .rw, false⟩,
     ⟨PWR_AVS_CFG.LOW_PS, 8, .rw, false⟩,
     ⟨PWR_AVS_CFG.HIGH_PS, 16, .rw, false⟩]⟩,
  -- PWR_AVS_STAT
  ⟨0x3C00008, 1, 0x4000000, 1, 0x4000000,
    [⟨PWR_AVS_STAT.VCORE_MV, 0, .ro, false⟩,
     ⟨PWR_AVS_STAT.MARGIN_PS, 10, .ro, false⟩,
     ⟨PWR_AVS_STAT.AGE_MV, 18, .ro, false⟩]⟩,
  -- PWR_HOURS
  ⟨0x3C00010, 1, 0x4000000, 1, 0x4000000,
    [⟨PWR_HOURS.HOURS, 0, .ro, false⟩]⟩,
  -- PWR_LIFE
  ⟨0x3C00014, 1, 0x4000000, 1, 0x4000000,
    [⟨PWR_LIFE.LIFE_PPM, 0, .ro, false⟩]⟩,
  -- PWR_THERM_CFG
  ⟨0x3C00020, 1, 0x4000000, 1, 0x4000000,
    [⟨PWR_THERM_CFG.ALARM_C, 0, .rw, false⟩,
     ⟨PWR_THERM_CFG.LIMIT_C, 8, .rw, false⟩,
     ⟨PWR_THERM_CFG.HYST_C, 16, .rw, false⟩]⟩,
  -- PWR_THERM_STAT
  ⟨0x3C00024, 1, 0x4000000, 1, 0x4000000,
    [⟨PWR_THERM_STAT.TMAX, 0, .ro, false⟩,
     ⟨PWR_THERM_STAT.TMAX_SENSOR, 10, .ro, false⟩,
     ⟨PWR_THERM_STAT.ALARM, 16, .ro, false⟩,
     ⟨PWR_THERM_STAT.LIMIT, 17, .ro, false⟩]⟩,
  -- PWR_GATE
  ⟨0x3C00028, 1, 0x4000000, 1, 0x4000000,
    [⟨PWR_GATE.TILE_GATE, 0, .rw, true⟩,
     ⟨PWR_GATE.LANE_GATE_EN, 8, .rw, false⟩]⟩,
  -- PWR_GATE_STAT
  ⟨0x3C0002C, 1, 0x4000000, 1, 0x4000000,
    [⟨PWR_GATE_STAT.TILE_GATED, 0, .ro, false⟩]⟩,
  -- PWR_HIST
  ⟨0x3C00030, 1, 0x4000000, 1, 0x4000000,
    [⟨PWR_HIST.RAIL_FAULT_SEEN, 0, .w1c, false⟩,
     ⟨PWR_HIST.ALARM_SEEN, 1, .w1c, false⟩,
     ⟨PWR_HIST.LIMIT_SEEN, 2, .w1c, false⟩,
     ⟨PWR_HIST.AVS_LIMIT_SEEN, 3, .w1c, false⟩,
     ⟨PWR_HIST.AGING_SEEN, 4, .w1c, false⟩,
     ⟨PWR_HIST.SENSOR_FAIL_SEEN, 5, .w1c, false⟩,
     ⟨PWR_HIST.GATE_REFUSED, 6, .w1c, false⟩]⟩,
  -- PWR_SENSOR
  ⟨0x3C00100, 1, 0x4000000, 64, 0x4,
    [⟨PWR_SENSOR.TEMP, 0, .ro, false⟩,
     ⟨PWR_SENSOR.VALID, 15, .ro, false⟩]⟩,
  -- PWR_RAIL
  ⟨0x3C00200, 1, 0x4000000, 6, 0x4,
    [⟨PWR_RAIL.VOUT_MV, 0, .ro, false⟩,
     ⟨PWR_RAIL.IN_WINDOW, 12, .ro, false⟩]⟩]

/-- The registers of the power manager (R584). -/
def regsPwr : List RegDesc :=
  regsPwr0

def regsHmk0 : List RegDesc := [
  -- HMK_TRACE_CFG
  ⟨0x3E00000, 1, 0x4000000, 1, 0x4000000,
    [⟨HMK_TRACE_CFG.TRACE_EN, 0, .rw, false⟩,
     ⟨HMK_TRACE_CFG.OUT, 1, .rw, false⟩,
     ⟨HMK_TRACE_CFG.HDR_EN, 3, .rw, false⟩,
     ⟨HMK_TRACE_CFG.EVT_EN, 4, .rw, false⟩,
     ⟨HMK_TRACE_CFG.BR_EN, 5, .ro, false⟩,
     ⟨HMK_TRACE_CFG.SAMPLE_LOG2, 6, .rw, false⟩,
     ⟨HMK_TRACE_CFG.HDR_POINT, 11, .rw, false⟩]⟩,
  -- HMK_HDR_FILT
  ⟨0x3E00004, 1, 0x4000000, 1, 0x4000000,
    [⟨HMK_HDR_FILT.PORT, 0, .rw, false⟩,
     ⟨HMK_HDR_FILT.CLASS, 9, .rw, false⟩]⟩,
  -- HMK_TRACE_STAT
  ⟨0x3E00008, 1, 0x4000000, 1, 0x4000000,
    [⟨HMK_TRACE_STAT.FIFO_LEVEL, 0, .ro, false⟩,
     ⟨HMK_TRACE_STAT.LANES_UP, 14, .ro, false⟩]⟩,
  -- HMK_LOSS
  ⟨0x3E0000C, 1, 0x4000000, 1, 0x4000000,
    [⟨HMK_LOSS.LOST, 0, .ro, false⟩]⟩,
  -- HMK_HIST
  ⟨0x3E00010, 1, 0x4000000, 1, 0x4000000,
    [⟨HMK_HIST.LOSS_SEEN, 0, .w1c, false⟩,
     ⟨HMK_HIST.PERF_WRAP_SEEN, 1, .w1c, false⟩,
     ⟨HMK_HIST.STAT_SAT, 2, .w1c, false⟩,
     ⟨HMK_HIST.FILT_ERR, 3, .w1c, false⟩,
     ⟨HMK_HIST.DUMP_TRUNC, 4, .w1c, false⟩]⟩,
  -- HMK_DUMP_CFG
  ⟨0x3E00020, 1, 0x4000000, 1, 0x4000000,
    [⟨HMK_DUMP_CFG.KIND_MASK, 0, .rw, false⟩]⟩,
  -- HMK_ERR_THRESH
  ⟨0x3E00024, 1, 0x4000000, 1, 0x4000000,
    [⟨HMK_ERR_THRESH.THRESH, 0, .rw, false⟩]⟩,
  -- HMK_PAGE_EN
  ⟨0x3E00028, 1, 0x4000000, 1, 0x4000000,
    [⟨HMK_PAGE_EN.PAGE_EN, 0, .rw, false⟩]⟩,
  -- HMK_PC_CFG
  ⟨0x3E01000, 1, 0x4000000, 312, 0x20,
    [⟨HMK_PC_CFG.EN, 0, .rw, true⟩,
     ⟨HMK_PC_CFG.SAMPLE, 1, .rw, true⟩,
     ⟨HMK_PC_CFG.ADDR_EN, 2, .rw, true⟩,
     ⟨HMK_PC_CFG.EVT, 3, .rw, true⟩,
     ⟨HMK_PC_CFG.CLASS, 11, .rw, true⟩,
     ⟨HMK_PC_CFG.FUNC, 19, .rw, true⟩,
     ⟨HMK_PC_CFG.SRC_KIND, 25, .rw, true⟩,
     ⟨HMK_PC_CFG.OWNER, 27, .rw, true⟩]⟩,
  -- HMK_PC_SRC
  ⟨0x3E01004, 1, 0x4000000, 312, 0x20,
    [⟨HMK_PC_SRC.SRC_ID, 0, .rw, false⟩]⟩,
  -- HMK_PC_ADDR_LO
  ⟨0x3E01008, 1, 0x4000000, 312, 0x20,
    [⟨HMK_PC_ADDR_LO.PAGE_LO, 0, .rw, false⟩]⟩,
  -- HMK_PC_ADDR_HI
  ⟨0x3E0100C, 1, 0x4000000, 312, 0x20,
    [⟨HMK_PC_ADDR_HI.PAGE_HI, 0, .rw, false⟩]⟩]

def regsHmk1 : List RegDesc := [
  -- HMK_PC_VAL_LO
  ⟨0x3E01010, 1, 0x4000000, 312, 0x20,
    [⟨HMK_PC_VAL_LO.VALUE, 0, .rw, false⟩]⟩,
  -- HMK_PC_VAL_HI
  ⟨0x3E01014, 1, 0x4000000, 312, 0x20,
    [⟨HMK_PC_VAL_HI.VALUE, 0, .rw, false⟩,
     ⟨HMK_PC_VAL_HI.WRAP, 31, .w1c, false⟩]⟩,
  -- HMK_PC_PERIOD
  ⟨0x3E01018, 1, 0x4000000, 312, 0x20,
    [⟨HMK_PC_PERIOD.PERIOD, 0, .rw, false⟩]⟩]

/-- The registers of the Hallmark (R584). -/
def regsHmk : List RegDesc :=
  regsHmk0 ++ regsHmk1

end Sys2Proof.Machine
end

