-- ==== Sys2Proof/Machine/State.lean ====
section
/-!
DEFINITION. The state of the block, as plain data: the register fields (Machine/Regs.lean), what its engines hold
beside them, the trace of what it has sent out, and the queue of waiting commands.  Every field's value after reset is
its default here; the registers are at the reset values of R584 when nothing is listed.
Times are signed counts of 2^-32 × 10^-9 ns of the serving time unless a field says otherwise: in that unit an
increment (R295), a slew step (R303) and a picosecond are all whole numbers.
-/

namespace Sys2Proof.Machine

/-- A sparse table: values by key, keys strictly rising, an absent key standing for a default of the reader's. -/
abbrev Tab (α : Type) := List (Nat × α)

/-- No command of the block ends in a fault: the faults the spec describes are taken by Quench, as states (safe). -/
inductive Fault where
  deriving DecidableEq, Repr

/-- Why a command has no meaning. -/
inductive Refusal where
  /-- Raised by an arm of `exec` for a command without a meaning in this model; unsafe for no claim (the model stops). -/
  | notModelled (mnemonic : String)
  deriving DecidableEq, Repr

/-- One step's answer. -/
abbrev Answer (σ : Type) := Host.Outcome σ Fault Refusal

/-! ### Frames inside the device -/

/-- The lookup result carried with a frame (R176).  `epoch` is the device epoch's serial number, of which the 16-bit
EPOCH is the remainder modulo 65,536; `lkpTime` is the serving time of the lookup in units of 16 µs, modulo 65,536. -/
structure LkpResult where
  destKind : Nat := 4
  dest : Nat := 0
  cls : Nat := 0
  flow : Nat := 0xFFFF
  epoch : Nat := 0
  lkpTime : Nat := 0
  routed : Bool := false
  routedUni : Bool := false
  nhMac : Nat := 0
  nhVlan : Nat := 0
  hostCopy : Bool := false
  hostRing : Nat := 0
  ringEn : Bool := false
  hostReason : Nat := 0
  dropReason : Nat := 0
  hash : Nat := 0
  deriving DecidableEq, Repr

/-- What a direct-mode frame carries (R78, R83, R235, R321): its TX ring, that ring's enabling and its function (`none`:
from port 257), the
descriptor indices and cookies to complete, and the launch and stamp requests of its SOP descriptor. -/
structure Direct where
  ring : Option Nat := none
  era : Nat := 0
  fn : Nat := 0
  cookies : List (Nat × Word) := []
  stampReq : Bool := false
  tag : Nat := 0
  oneStep : Bool := false
  launch : Option Int := none
  launchQ : Nat := 0
  deriving DecidableEq, Repr

/-- A frame inside the device after its lookup or direct admission: bytes without FCS, ingress port, lookup result,
accounting region (0 GUAR, 1 SHARED, 2 HDRM, 3 HP, 4 not charged) and cells charged (R191, R210), receive stamp in
units of 62.5 ps (R191), the cut group whose rewrite applies (R287), and the instant it entered its present queue. -/
structure Frame where
  bytes : Bytes := []
  inPort : Nat := 0
  res : LkpResult := {}
  region : Nat := 4
  cells : Nat := 0
  stamp : Nat := 0
  uid : Nat := 0
  counted : Bool := false
  direct : Option Direct := none
  enq : Int := 0
  errf : Nat := 0
  deriving DecidableEq, Repr

/-- A part of a frame (with its 32-byte header) inside a cell's payload (R190, R191): `len` bytes from byte `start`. -/
structure Frag where
  frame : Frame
  start : Nat
  len : Nat
  deriving DecidableEq, Repr

/-- A cell (R190).  `kind`: 0 UNICAST, 1 MULTICAST, 2 VOID, 3 SPILL; the payload is held as the frame parts in it, from
which CONT, FIRST and the CRC follow; a VOID cell keeps the parts that it stands for.  `spill`: sent as a recalled cell. -/
structure Cell where
  kind : Nat := 0
  hp : Bool := false
  src : Nat := 0
  dst : Nat := 0
  seq : Nat := 0
  tileMap : Nat := 0
  eqId : Nat := 0
  sendTime : Nat := 0
  frags : List Frag := []
  fill : Nat := 0
  multicast : Bool := false
  spill : Bool := false
  deriving DecidableEq, Repr

/-- A stream of an input tile (R192): its open cell, its closed cells in staging, and its next SEQ. -/
structure Stream where
  frags : List Frag := []
  fill : Nat := 0
  tileMap : Nat := 0
  closed : List Cell := []
  seq : Nat := 0
  deriving DecidableEq, Repr

/-- A frame waiting in the pre-lookup buffer (R155). -/
structure PreFrame where
  bytes : Bytes
  inPort : Nat
  stamp : Nat
  ptp : Bool
  tx : Option Direct := none
  deriving DecidableEq, Repr

/-- A tile's ingress side: pre-lookup buffer (PTP frames first), its 18 streams (0–7 UNICAST LO by output tile, 8–15
UNICAST HP, 16 MULTICAST LO, 17 MULTICAST HP), the round-robin pointers of stage one. -/
structure Tile where
  pre : List PreFrame := []
  streams : Tab Stream := []
  rrHp : Nat := 0
  rrLo : Nat := 0
  deriving DecidableEq, Repr

/-- A middle bank (R197): queues by key (0–7 UNICAST LO by output tile, 8–15 UNICAST HP, 16 MULTICAST LO, 17 MULTICAST
HP), spill cells stored (egress queue, spill sequence), the credit flags each tile sent in its previous visit (R200),
the alternation states of R199 per tile, and recall requests to answer. -/
structure Bank where
  queues : Tab (List Cell) := []
  spill : List (Nat × Nat) := []
  hpFlag : Tab Bool := []
  loFlag : Tab Bool := []
  hpMcFirst : Tab Bool := []
  loTurn : Tab Nat := []
  recalls : Tab (List (Nat × Nat)) := []
  deriving DecidableEq, Repr

/-- A visit under way at stage two (R199, R201): the visiting bank, its cells and its visit word (16 entries, input
tile × priority; `none` is EMPTY), and the slot in which the bank sent them. -/
structure Visit where
  bank : Nat
  slot : Nat
  cells : List Cell
  word : List (Option Nat)
  deriving DecidableEq, Repr

/-- A cell in a resequencer: the banks whose visit words have cleared it (R204), and the slot in which it arrived. -/
structure Held where
  cell : Cell
  seen : Nat := 0
  arrived : Nat := 0
  deriving DecidableEq, Repr

/-- A resequencer (R202, R204): expected SEQ, held cells, and the frame under rebuild with the bytes it has (R205). -/
structure Reseq where
  expect : Nat := 0
  held : List Held := []
  part : Option (Frame × Nat) := none
  deriving DecidableEq, Repr

/-- A frame in an egress queue's spill tail (R217): its cells' banks (the spill map), and cells recalled so far. -/
structure SpillFrame where
  frame : Frame
  cells : Nat
  first : Nat
  banks : List Nat := []
  asked : Nat := 0
  back : Nat := 0
  deriving DecidableEq, Repr

/-- An egress queue (R225–R228, R217): its on-tile part, its spill tail, and whether it is spilled. -/
structure EQueue where
  onTile : List Frame := []
  tail : List SpillFrame := []
  spilled : Bool := false
  spillSeq : Nat := 0
  deriving DecidableEq, Repr

/-! ### What the block sends out -/

/-- A trace record (R534): TYPE, SRC, SEQ, capture time (TS_NS, SEC[1:0]) and the doublewords after DW1. -/
structure TraceRec where
  typ : Nat
  src : Nat
  seq : Nat
  ns : Nat
  sec : Nat
  dws : List Word
  deriving DecidableEq, Repr

/-- What Advanced Error Reporting logs (R46): a DMA read that failed (R77), an access of the host's that BAR0 does not
accept (R5), and one that ends with Completer Abort (R416). -/
inductive AerErr where
  | dmaRead (why : DmaFail) | unsupportedRequest | completerAbort
  deriving DecidableEq, Repr

/-- What the block sends: writes to host memory, frames, messages and answers, in the order in which it sends them. -/
inductive Out where
  /-- a completion (R83) in slot `idx` of ring `ring`, as its 16 bytes stand in host memory (R4) -/
  | completion (ring idx : Nat) (data : Bytes)
  /-- an event or stamp entry (R84, R85), as its 16 bytes stand in host memory (R4) -/
  | entry (ring idx : Nat) (data : Bytes)
  /-- a status-block entry (R70), as its 8 bytes stand in host memory (R4) -/
  | statusBlock (fn ring : Nat) (data : Bytes)
  /-- an MSI-X message (R72) -/
  | msix (fn vector : Nat)
  /-- the reads of a doorbell scan (R66): the 64-byte lines of the function's doorbell block -/
  | scanRead (fn : Nat) (lines : List Nat)
  /-- frame, dump or trace data written to the buffer of descriptor `idx` -/
  | bufferWrite (ring idx : Nat) (data : Bytes)
  /-- the result written over a command's indirect buffer -/
  | resultWrite (ring : Nat) (cookie : Word) (data : Bytes)
  /-- the answer to a register read -/
  | readData (path : Path) (addr : Nat) (value : Word)
  /-- an access that completes with Unsupported Request (R5) -/
  | unsupported (path : Path) (addr : Nat)
  /-- an access that completes with an error (R416): Completer Abort, a discarded write, a bus error or 0xFFFF_FFFF -/
  | accessError (kind : StallKind) (path : Path) (addr : Nat)
  /-- a frame sent by a MAC, from the preamble to the FCS (R139), and the bytes of the gap after it; `aborted` when it ended
  with an error control character (R141) -/
  | txFrame (port : Nat) (bytes : Bytes) (aborted : Bool) (gap : Nat)
  /-- a training frame sent on a port (R128) -/
  | txTraining (port : Nat) (bytes : Bytes)
  /-- a generated flow-control frame (R144) -/
  | txFlowControl (port : Nat) (frame : FcFrame)
  /-- what a port's transmitter sends on link loss (R147): 0 squelched, 1 remote fault, 2 idle -/
  | lineSignal (port kind : Nat)
  /-- a frame delivered to the control complex (R242) -/
  | toControl (bytes : Bytes) (inPort stamp : Nat)
  /-- the phase TLV of a port's window, for its Delay_Req or Delay_Resp messages (R343) -/
  | phaseTlv (port : Nat) (tlv : PartnerTlv)
  /-- a stamp delivered to the control complex (R322) -/
  | ctrlStamp (port tag stamp : Nat)
  /-- a tick's waveform on a pin (R404): the rising edge on the 62.5 ps grid, how long it stays high in ns, and the 96-bit
  message when one is sent, with the levels of its half cells of 40 ns (R406); `shadow` on a standby (R471) -/
  | tick (pin gen : Nat) (shadow : Bool) (at_ : Nat) (msg : Option (BitVec 96)) (width : Nat) (cells : List Bool)
  /-- the message in progress on a pin that Quench idles is cut short after `halves` half cells (R440) -/
  | tickCut (pin halves : Nat)
  /-- a Rivet heartbeat on a lane (R473) -/
  | heartbeat (lane : Nat) (hb : Heartbeat)
  /-- a Rivet snapshot (R475) -/
  | snapshot (snap : Snapshot)
  /-- a forwarded CUT_SELECT (R476) -/
  | pairControl (group cand frameCount : Nat)
  /-- a scheduled switch told to the partner, with its switch point and reason (R484) -/
  | pairSwitch (frameCount reason : Nat)
  /-- a trace frame on an HMK lane (R537) -/
  | hmkFrame (lane seq : Nat) (recs : List TraceRec)
  /-- an error logged through the Advanced Error Reporting of function `fn` (R46, R77) -/
  | aer (fn : Nat) (err : AerErr)
  /-- bits shifted out of the TAP -/
  | tdo (bits : List Bool)
  deriving DecidableEq, Repr

/-! ### Start-up, flash, fuses -/

/-- A copy of the boot record (R556): validity of MAGIC and CRC, SEQ, SLOT. -/
structure BootRec where
  valid : Bool := false
  seq : Nat := 0
  slot : Nat := 0
  deriving DecidableEq, Repr

/-- The board configuration record (R561): an image of QCH_CFG and pairs of fault ID and SEV. -/
structure Bcr where
  cfg : Word
  sev : List (Nat × Nat)
  deriving DecidableEq, Repr

/-- What a confirmed TRACE run measured (R489, R491): the delay of the calibration edge generator and the TCLK scale. -/
structure TraceCal where
  edge : Int
  scale : Int
  deriving DecidableEq, Repr

/-- The SPI NOR flash (R555–R563): boot records, slots, board configuration record, TRACE record, life counters, and
which owner keys are present. -/
structure Flash where
  rec0 : BootRec := {}
  rec1 : BootRec := {}
  slotA : Option Image := none
  slotB : Option Image := none
  bcr : Option Bcr := none
  trace : Bool := false
  cal : Option TraceCal := none
  hours : Nat := 0
  lifePpm : Nat := 0
  key0 : Bool := false
  key1 : Bool := false
  deriving DecidableEq, Repr

/-- Fuses (R560, R562): SVN_MIN, KEY_REVOKED, programmed owner-key hashes. -/
structure Fuses where
  svnMin : Nat := 0
  keyRevoked : Nat := 0
  owner0 : Bool := false
  owner1 : Bool := false
  deriving DecidableEq, Repr

/-- Start-up (R542–R559): whether the always-on domain has left power-on reset, whether the outputs are held (R543),
the controlled rails enabled, the failures of RAIL_SEQ so far with the rail that failed last, the wait after one, the
stop of R506, core reset released, PCIe link and PE_RST_N, link training, the slot that the boot ROM boots after R559
and whether it has done so in this start-up, whether the SPI pins are released (R558) and READY_MS written. -/
structure Boot where
  aonUp : Bool := false
  safeHeld : Bool := true
  railsOn : Nat := 0
  failures : Nat := 0
  failRail : Nat := 0
  waiting : Bool := false
  stopped : Bool := false
  coreUp : Bool := false
  linkUp : Bool := false
  peRst : Bool := true
  training : Bool := false
  retry : Option Nat := none
  retried : Bool := false
  spiReleased : Bool := false
  ready : Bool := false
  deriving DecidableEq, Repr

/-! ### Host interface -/

/-- A receive frame being written to a ring (R94, R96): the frame, bytes written, descriptor index and buffer fill of
its last completion, whether it waits under the hold time. -/
structure RxProg where
  frame : Frame
  done : Nat
  lastIdx : Nat
  lastCookie : Word
  lastLen : Nat
  used : Nat
  deriving DecidableEq, Repr

/-- An entry waiting in a ring's hold (R86), without PHASE and OVF. -/
structure Entry where
  dw0 : Word
  dw1 : Word
  dw2 : Word
  dw3 : Word
  deriving DecidableEq, Repr

/-- A fetched descriptor: its index, its eight doublewords, and for an SOP descriptor the launch time resolved when it was
processed (R80) and whether that lay beyond the horizon then (R235). -/
structure Desc where
  idx : Nat
  words : List Word
  launch : Option Int := none
  far : Bool := false
  deriving DecidableEq, Repr

/-- A ring (R55–R61, R70–R72, R86, R96): producer and consumer indices, the next index to fetch, fetched descriptors
with their indices, entries since the last interrupt, interrupt timer running, hold, a lost entry to report in OVF, the
receive frame in progress, how often the ring has been enabled or its contents discarded: a completion belongs to one such
era; and the status block (R70): the TCLK count of its last write, one due once 250 ns have passed, and an interrupt that
waits for it. -/
structure Ring where
  prod : Nat := 0
  cons : Nat := 0
  fetch : Nat := 0
  fetched : List Desc := []
  sinceInt : Nat := 0
  timer : Bool := false
  hold : List Entry := []
  ovf : Bool := false
  rx : Option RxProg := none
  era : Nat := 0
  sbAt : Option Nat := none
  sbDue : Bool := false
  intDue : Bool := false
  deriving DecidableEq, Repr

/-- A VF's grant (R103). -/
structure Grant where
  ports : Nat := 0
  flows : Nat := 0
  merges : Nat := 0
  cuts : Nat := 0
  kinds : Nat := 0
  deriving DecidableEq, Repr

/-- A function: grant, doorbell scan outstanding (R67), pending MSI-X vectors (R72), a reset in progress (R53). -/
structure Fn where
  grant : Grant := {}
  scanning : Bool := false
  pba : Nat := 0
  resetting : Bool := false
  deriving DecidableEq, Repr

/-! ### Ports -/

/-- A port's PTP record (R105). -/
structure PtpRec where
  flags : Nat := 0
  logAnnounce : Int := 0
  logSync : Int := 0
  logDelayReq : Int := 0
  announceTo : Nat := 3
  dscp : Nat := 0
  vlan : Nat := 0
  deriving DecidableEq, Repr

/-- A transmit stamp waiting in a port's FIFO (R322), in units of 62.5 ps; `ring` the STAMP ring, none for port 257. -/
structure StampEnt where
  stamp : Nat
  tag : Nat
  ring : Option Nat
  deriving DecidableEq, Repr

/-- The scheduler registers of a port that act from a frame start on (R251): the words of TIL_SCH_QUANTUM0 and 1, BURST,
MARGIN, LATE_TOL, LT_QMAX, HOST7_PCT and the two limits of TIL_SCH_HPQ. -/
structure SchRegs where
  q0 : Nat := 0x18181818
  q1 : Nat := 0x1818
  burst : Nat := 0x100
  margin : Nat := 8
  lateTol : Nat := 0x19
  ltQmax : Nat := 0x40
  host7 : Nat := 1
  hp6 : Nat := 0x40
  hp7 : Nat := 0x40
  deriving DecidableEq, Repr

/-- A front-panel port's engines: classes stopped by received flow control and classes whose flow control is ignored
(R143, R145), generated flow-control frames to send (R144), deficits and turn of the round robin with whether the turn's
quantum has been added (R232), the class 6 and host class 7 buckets with the instants they were last filled to and the
rates in force (R231, R233; tokens in bits × 2^32 × 10^18), stamp FIFO (R322), PTP record in force and next (R105),
training done (R149), what the transmitter sends while the port is down (R147: 0 nothing, 1 remote fault, 2 idles; 3 once it
is up or in hold-off), the deficit idle count (R139) and the scheduler registers as they stood at the last frame start
(R251; none: as at reset). -/
structure Port where
  stopped : Nat := 0
  ignore : Nat := 0
  fcOut : List FcFrame := []
  deficit : List Nat := [0, 0, 0, 0, 0, 0]
  turn : Nat := 5
  tok6 : Int := 0
  tok6At : Int := 0
  tok7 : Int := 0
  tok7At : Int := 0
  bucketsSet : Bool := false
  rate6 : Nat := 0
  rate7 : Nat := 0
  drrOpen : Bool := false
  fifo : List StampEnt := []
  ptp : PtpRec := {}
  ptpNext : Option PtpRec := none
  trained : Bool := false
  line : Nat := 0
  dic : Nat := 0
  sch : Option SchRegs := none
  deriving DecidableEq, Repr

/-- A lane: gated, as at reset (R511, R545); data monitor found non-random data (R131), current and reference coefficients (R129), the coefficients in an excursion
past their guard (R130), and the block-lock counts of R123: valid headers in a row, and the last 64 headers since lock. -/
structure Lane where
  gated : Bool := true
  nonRandom : Bool := false
  coeffs : Tab Int := []
  refs : Tab Int := []
  beyond : List Nat := []
  run : Nat := 0
  win : List Bool := []
  deriving DecidableEq, Repr

/-! ### Tables, flows, epochs -/

/-- A table record: its doublewords as written, and its entry index. -/
structure Rec where
  words : List Word
  idx : Nat
  deriving DecidableEq, Repr

/-- A media flow record of table 13 (R255, R256): handle, the 16 doublewords, egress port mask, owning function. -/
structure Flow where
  handle : Nat
  words : List Word
  mask : Nat
  owner : Nat
  deriving DecidableEq, Repr

/-- The double-banked tables (R162): tables 0–12 by ID, table 13, each active and shadow; and the banks retired by a
commit whose epoch has not drained (R184, R257), each with the serial of the last epoch that uses it. -/
structure Tables where
  act : Tab (List Rec) := []
  shd : Tab (List Rec) := []
  flowsAct : List Flow := []
  flowsShd : List Flow := []
  repRetired : List (Nat × List Rec) := []
  flowsRetired : List (Nat × List Flow) := []
  deriving DecidableEq, Repr

/-- The epoch lifecycle (R178–R181): serial of the device epoch, serial of the oldest live epoch, frames counted to
each, the table mask of the commit that retired each, and the commits scheduled (frame count, table mask). -/
structure Epochs where
  serial : Nat := 0
  oldest : Nat := 0
  count : Tab Nat := []
  retiredBy : Tab Nat := []
  commits : List (Nat × Nat) := []
  deriving DecidableEq, Repr

/-- A protection group (R243): its ports, whether it is on its backup, forced (R247), and the TCLK count at which its last
change of position reaches its last step (R245). -/
structure Pg where
  primary : Nat
  backup : Nat
  onBackup : Bool := false
  forced : Option Nat := none
  busyTo : Nat := 0
  deriving DecidableEq, Repr

/-! ### Media engine -/

/-- The RTP source state of R269 and R270, kept for a flow and for a merge group's output: highest sequence; sequence, RTP
timestamp, SSRC and stamp (62.5 ps) of the previous valid packet; the stamp of the last packet, valid or not; a marker seen since the last begin, the last marker's stamp while the
packet after it is awaited, and the last inter-frame gap. -/
structure Src where
  valid : Bool := false
  high : Nat := 0
  seq : Nat := 0
  rtpTs : Nat := 0
  ssrc : Nat := 0
  prevStamp : Int := 0
  last : Option Int := none
  marked : Bool := false
  afterMarker : Option Int := none
  gap : Int := 0
  deriving DecidableEq, Repr

/-- A flow's run-time state (R266, R269): whether its bucket has started, tokens in bits × 256 × 16 × 10^9, last stamp in
units of 62.5 ps, RTP source state. -/
structure FlowRt where
  set : Bool := false
  tokens : Int := 0
  lastTs : Int := 0
  src : Src := {}
  deriving DecidableEq, Repr

/-- A merge group (R271–R275): members, owner, window, and a member list scheduled by MERGE_SET. -/
structure Merge where
  members : List Nat := []
  owner : Nat := 0
  empty : Bool := true
  high : Nat := 0
  map : Nat := 0
  oow : Nat := 0
  oowLast : Nat := 0
  src : Src := {}
  next : Option (List Nat × Nat) := none
  deriving DecidableEq, Repr

/-- A clean-cut group (R278–R288): record, owner, state code, on-air candidate and target (4: none), arming instant, E,
CLOSE (none: unbounded), whether the cut has failed under FORCE, whether the target was heard since E, the scheduled
selection and the frame count it names, a scheduled record, offsets, last output sequence number, W as latched at the
last arming, whether the next frame forwarded enters ON_AIR (R288), and OLD_SILENT.  Instants are in units of 62.5 ps. -/
structure Cut where
  words : List Word := []
  owner : Nat := 0
  state : Nat := 0
  c : Nat := 4
  n : Nat := 4
  armedAt : Int := 0
  e : Int := 0
  close : Option Int := none
  failed : Bool := false
  heard : Bool := false
  sel : Option (Nat × Nat) := none
  armFc : Nat := 0
  next : Option (List Word × Nat) := none
  offs : List Nat := [0, 0, 0, 0]
  last : Option Nat := none
  win : Nat := 0
  enter : Bool := false
  oldSilent : Nat := 0
  deriving DecidableEq, Repr

/-! ### Timing plane -/

/-- A pending discontinuity record (R306, R307): ID, offset in ps, confirmations counted, authorised, its step
scheduled for the next servo update. -/
structure Disc where
  id : Nat
  off : Int
  confs : Nat := 0
  auth : Bool := false
  ready : Bool := false
  deriving DecidableEq, Repr

/-- The timebases and their engines (R291–R312): running since the timing plane left reset, TCLK edges counted, servo updates made, the
two time values, the increment in force and the one committed for the next servo update (2^-32 ns per TCLK), servo mode
in force (1 SOFTWARE), remaining slew, last ID given, the pending record, a hardware step of the first setting, the
offset in ps that firmware measured last and whether it waits for a DPLL0 loop update, TIME_CFG record in force and next
(words of R104), and the accepted SYNCIN edges (R388), and the corrections in force whose table entry has been written since the last servo update (R328; by
direction × 65,536 + entry), and by how much each tile's copy of the serving time differs from it (R312). -/
structure Time where
  running : Bool := false
  tclk : Nat := 0
  servos : Nat := 0
  a : Int := 0
  b : Int := 0
  inc : Nat := 17179869184
  incNext : Option Nat := none
  software : Bool := false
  adj : Int := 0
  lastId : Nat := 0
  disc : Option Disc := none
  firstStep : Option Int := none
  offset : Int := 0
  measured : Bool := false
  cfg : List Word := []
  cfgNext : Option (List Word) := none
  syncs : Nat := 0
  stcHold : Tab Nat := []
  copies : Tab Int := []
  deriving DecidableEq, Repr

/-- A port's phase detector (R332–R345): window running or waiting for the next servo update; the window's beats (φ and
edge, oldest first, in eighths of a femtosecond), its servo updates and flags; window length, slip threshold and
syntonisation limit in force and the deglitch samples (R360).  Firmware's resolution: a delay measurement begun since HOLDOFF
has completed (R151), the partner's latest results (newest first), the round trips of the consecutive windows that count
toward ACTIVE (newest first, 1/16 ps), the period chosen last, consecutive AMBIG results, and the SERVICE, RESOLVE or ACTIVE,
that the next valid window takes up after one that was not. -/
structure Phase where
  running : Bool := false
  start : Bool := false
  phi : List Int := []
  edge : List Int := []
  updates : Nat := 0
  slip : Bool := false
  align : Bool := false
  disc : Bool := false
  stale : Bool := false
  avg : Nat := 13
  slipPs : Nat := 100
  syntPpb : Nat := 10
  deglitch : Nat := 32
  fresh : Bool := false
  tlvs : List PartnerTlv := []
  mus : List Int := []
  period : Option Int := none
  ambig : Nat := 0
  back : Nat := 0
  deriving DecidableEq, Repr

/-- A TIU channel's run (R350–R358): the start edge that waits for its stop, in units of 2^-10 ns of TCLK time without the
dither; the last accepted edge of each input, in bins of 62.5 ps; the input edges that each prescaler still passes over (R353);
the place in the order of the dither values; results, exact sums, extremes. -/
structure Tiu where
  start : Option Int := none
  lastStart : Option Int := none
  lastStop : Option Int := none
  preStart : Nat := 0
  preStop : Nat := 0
  dith : Nat := 0
  n : Nat := 0
  sum : Int := 0
  sumSq : Int := 0
  min : Int := 0
  max : Int := 0
  deriving DecidableEq, Repr

/-- A reference (R364–R367): gate offsets (newest first, at most 16), a whole gate and QUAL_MS passed since QUALIFYING
began, the TCLK count at the entry to QUALIFIED, whether it was disqualified from UNUSED and has not qualified since, and a
configuration waiting for a loop update. -/
structure Ref where
  gates : List Int := []
  gateOk : Bool := false
  qualOk : Bool := false
  qualAt : Nat := 0
  fresh : Bool := false
  cfg : Option (List Word) := none
  deriving DecidableEq, Repr

/-- A DPLL (R368–R381): selected reference, output offsets of the LOCKED loop updates since its history was cleared
(newest first), the offset it moves to in FREERUN, HOLDOVER and LOST, its output offset exactly (2^-40 × 10^-18; the slope
limit moves it by less than 2^-40 in one update), the phase that counts as zero (ps, R377), whether it has switched since
its last loop update, and a configuration waiting for the next one. -/
structure Dpll where
  sel : Option Nat := none
  log : List Int := []
  held : Int := 0
  fine : Int := 0
  zero : Int := 0
  switched : Bool := false
  cfg : Option (List Word) := none
  deriving DecidableEq, Repr

/-- A PLL or output's loaded copy of its staged values (R385), and whether its outputs are gated (R383); of a PLL the
modulation in force (R386: 0 off, 1 down, 2 centre; the excursion in units of 0.05%); of an output whether its divider
restarts with the next sync and the number of the accepted SYNCIN edge that restarted it last (R388). -/
structure Pll where
  gated : Bool := false
  vco : Nat := 12500000
  d : Nat := 20
  high : Nat := 0
  relock : Bool := false
  ssc : Nat := 0
  depth : Nat := 0
  synced : Nat := 0
  deriving DecidableEq, Repr

/-! ### Meridian -/

/-- A generator (R390–R396): rate and offset in force, the change that the next tick edge takes over, the index of the
next instant to examine, the instant of the last tick emitted (in the unit of `Time`, rounded up: two instants that
differ lie more than one unit apart), the frame count, and whether a first tick has been emitted. -/
structure Gen where
  num : Nat := 60000
  den : Nat := 1001
  off : Int := 0
  pend : Option (Nat × Nat × Int) := none
  k : Int := 0
  last : Option Int := none
  fc : Nat := 0
  started : Bool := false
  deriving DecidableEq, Repr

/-- A TICK pin's configuration in force (R403, R411): the fields of MER_PIN_CFG as they stood at the last tick edge that
took them over. -/
structure PinCfg where
  en : Bool := false
  gen : Nat := 0
  msg : Bool := false
  edgeW : Nat := 5
  q : Nat := 20
  deriving DecidableEq, Repr

/-- The tick window (R33–R35, R397): open, start instant, marked done, budget ended, budget fraction in force, the
commit cycle of its tick done, whether an FW_ACTIVATE fence excuses it (R430). -/
structure Window where
  opened : Bool := false
  start : Int := 0
  done : Bool := false
  budgetDone : Bool := false
  pct : Nat := 80
  commitDone : Bool := true
  excused : Bool := false
  lastCurrent : Bool := false
  measured : Bool := false
  assured : Bool := false
  deriving DecidableEq, Repr

/-! ### Fences, firmware, Quench -/

/-- A fence domain (R421–R427): state 0 OPEN, 1 FENCING, 2 FENCED, 3 UNFENCING; who asked; in reset; the fault that
set it, until acknowledged; failed self-test (R549). -/
structure Fence where
  st : Nat := 0
  by_ : Requester := .pf
  rst : Bool := false
  fault : Option Nat := none
  bist : Bool := false
  deriving DecidableEq, Repr

/-- An FW_ACTIVATE under way (R430, R431): its command, the new slot, the previous slot, the fence taken, and the new
image started. -/
structure Activate where
  cmd : Cmd
  slot : Nat
  prev : Nat
  fenced : Bool := false
  booted : Bool := false
  deriving DecidableEq, Repr

/-- Firmware: running (started and not stopped by a fence or reset), how far its image has come since control-complex
reset was released (0 none, 1 verified and started, 2 start-up work done, 3 first done mark written: R398, R545), whether a
tick window has begun since that mark (R128), commands
that it holds until they end (R99, R307, R497, R483), FW_ACTIVATE. -/
structure Fw where
  running : Bool := false
  phase : Nat := 0
  windowed : Bool := false
  timeAuth : List Cmd := []
  temper : Option Cmd := none
  pairSwitch : Option Cmd := none
  activate : Option Activate := none
  deriving DecidableEq, Repr

/-- A fault ID's latch (R443–R447): condition present, latched, applied severity, and its isolation target kind and
number while ISOLATE is applied (0 none, 1 fence domain, 2 TICK pin, 3 CLKOUT, 4 guarded port, 5 CLKOUTs of an APLL). -/
structure FaultSt where
  present : Bool := false
  latched : Bool := false
  applied : Nat := 0
  port : Nat := 0
  record : Option Nat := none
  deriving DecidableEq, Repr

/-- A capture record (R448). -/
structure CapRec where
  id : Nat
  sevApplied : Nat
  sevConf : Nat
  state : Nat
  clearedBefore : Bool := false
  escalated : Bool := false
  sameCycle : Bool := false
  timeInvalid : Bool := false
  occ : Nat := 1
  masterKind : Nat := 0
  masterId : Nat := 0
  access : Nat := 0
  addr : Nat := 0
  tsNs : Nat := 0
  tsSec : Nat := 0
  frameLo : Nat := 0
  detail : Nat := 0
  deriving DecidableEq, Repr

/-- An allow-list entry (R460): DST and SRC as 128-bit numbers, DPORT, AF, SRC_ANY. -/
structure AllowEnt where
  dst : Nat
  src : Nat
  dport : Nat
  af : Nat
  srcAny : Bool
  deriving DecidableEq, Repr

/-- A guarded port's store (R457–R460): entries, an accepted list that replaces them at the port's next frame start,
firmware's copy of the list that it reinstalls (R459), the last SEQ accepted, and whether the scrubber finds the store bad. -/
structure Allow where
  entries : List AllowEnt := []
  next : Option (List AllowEnt) := none
  kept : List AllowEnt := []
  seq : Option Nat := none
  bad : Bool := false
  deriving DecidableEq, Repr

/-- Quench (R437–R460): fault latches, capture records, the time guard's bound in 10^-10 ns, allow-lists. -/
structure Quench where
  faults : Tab FaultSt := [(0, { present := true, latched := true, applied := 3, record := some 0 })]
  recs : Tab CapRec := [(0, { id := 0, sevApplied := 3, sevConf := 3, state := 1 })]
  bound : Nat := 0
  allow : Tab Allow := []
  sideDead : Bool := false
  deriving DecidableEq, Repr

/-! ### Pair, Temper, power, observation -/

/-- The device pair (R467–R488): failing and passing runs, heartbeat count, last heartbeat received with its arrival,
the times of the heartbeats sent, offset samples of the window (their sum in quarter picoseconds), scheduled switch (frame count, reason), the snapshot
received for the next comparison and this device's own latched at its last tick, the instant at which PROVEN was set, and
the ticks that each generator has emitted since the snapshot came; whether 10 ms of a join have passed without a heartbeat
(R488). -/
structure Pair where
  failRun : Nat := 0
  passRun : Nat := 0
  hbSeq : Nat := 0
  rx : Option (Heartbeat × Nat) := none
  tx : Tab Nat := []
  sum : Int := 0
  samples : Nat := 0
  switch : Option (Nat × Nat) := none
  snap : Option Snapshot := none
  own : Option Snapshot := none
  provenAt : Int := 0
  ticksSince : List Nat := []
  crcErrs : Nat := 0
  waited : Bool := false
  deriving DecidableEq, Repr

/-- A calibration item (R489, R490): applied value, target (none before its first confirmed measurement) and the
measurements of the run in progress (newest first), in femtoseconds. -/
structure Item where
  applied : Int := 0
  target : Option Int := none
  meas : List Int := []
  deriving DecidableEq, Repr

/-- Temper (R489–R503).  The unit running, its lanes still to do, the lane part in progress with the items that it has
not settled and the ports it holds; units with a run pending and their lanes (mask); the lanes measured at their unit's
last run, with MODE + 1 (unit × 32 + lane); items unconfirmed by the run and by the TEMPER_RUN; the command's units,
PATH tiles and TRACE still to end, and its run ID; TRACE running and its last outcome; repeats made of units that wait to
repeat; TCLK counts of the units' last confirmed runs; the items; correction pairs held during a part; DT, REPEAT_PS and
RETRY as the lane part took them (R517); the units that run first after a resumption (mask); the units that had moved away
from their last run at the last look (mask, R494); the TRACE level in force, none with the factory trace (R492). -/
structure Temper where
  unit : Option Nat := none
  lanes : List Nat := []
  part : Option Nat := none
  open_ : List Nat := []
  hold : List Nat := []
  pending : Tab Nat := []
  seen : Tab Nat := []
  unconf : Nat := 0
  cmdUnconf : Nat := 0
  fixedLeft : Nat := 0
  pathLeft : Nat := 0
  traceDue : Bool := false
  cmdRun : Nat := 0
  trace : Bool := false
  traceFailed : Bool := false
  repeats : Tab Nat := []
  confirmedAt : Tab Nat := []
  items : Tab Item := []
  pairs : Tab Nat := []
  dt : Nat := 8
  rep : Nat := 10
  retry : Nat := 3
  first : Nat := 0
  moved : Nat := 0
  cal : Option TraceCal := none
  deriving DecidableEq, Repr

/-- The power manager (R504–R515): consecutive out-of-window and unanswered polls per rail, the core target in half
millivolts, the highest TMAX of the hour in 0.25 °C, and the part of LIFE_PPM below 1 ppm, in 10^-6 ppm. -/
structure Pwr where
  outRun : Tab Nat := []
  silentRun : Tab Nat := []
  core : Nat := 1600
  hourMax : Option Int := none
  lifeFrac : Nat := 0
  deriving DecidableEq, Repr

/-- Counters (R518–R526): values by group × 512 + index, the groups' written COUNTER_EVENTs, the latched snapshot being
written (frame count and remaining bytes). -/
structure Counters where
  val : Tab Nat := []
  told : Tab Nat := []
  dump : Option (Nat × Bytes) := none
  deriving DecidableEq, Repr

/-- Hallmark trace (R533–R537): FIFO, the records at its front that a TRACE ring or the HMK lanes have taken already,
next SEQ, records lost since the last SYNC, a LOSS record due, header sampling
count, HMK frame count. -/
structure Hmk where
  fifo : List TraceRec := []
  toRing : Nat := 0
  toLanes : Nat := 0
  seq : Nat := 0
  lost : Nat := 0
  lossDue : Bool := false
  hdrCount : Nat := 0
  lastSync : Nat := 0
  frameSeq : Nat := 0
  deriving DecidableEq, Repr

/-- The TAP (R539, R552): instruction register (reset selects IDCODE), captured and preloaded boundary cells, and
whether the pins are driven from the cells (1), clamped (2), high-impedance (3) or tested by pulses or trains (4, 5). -/
structure Jtag where
  ir : Nat := 1
  captured : List Bool := []
  cells : List Bool := []
  drive : Nat := 0
  deriving DecidableEq, Repr

/-- A multicast frame's original charge (R210, R214): output tiles still to replicate it, and whether a copy has taken
the charge over. -/
structure McTok where
  left : Nat
  taken : Bool
  frame : Frame
  deriving DecidableEq, Repr

/-- The fabric (R187–R222): slot number, cells in flight to banks and visits in flight to tiles, credit in use by input
tile, bank and queue, credits returning, resequencers, multicast tokens, next frame number, the unicast cells lost on
a link whose gap no resequencer has skipped yet (R203, R220), the frames discarded already of which a late cell may still
bring the end (R203, R205), and the slots of the last sixteen events of R220 by link or bank (R221: stage-one link of tile t at
t, stage-two link at 8 + t, bank m at 16 + m). -/
structure Fabric where
  slot : Nat := 0
  flight1 : List (Nat × Cell) := []
  flight2 : List (Nat × Visit) := []
  used : Tab Nat := []
  returns : List (Nat × Nat × Nat) := []
  banks : Tab Bank := []
  uni : Tab Reseq := []
  mc : Tab Reseq := []
  tokens : Tab McTok := []
  uid : Nat := 0
  lost : List Cell := []
  gone : List Nat := []
  events : Tab (List Nat) := []
  deriving DecidableEq, Repr

/-- What a waiting register access is to do (R416): a read, a write, the read of TPL_PH_STAT of a port. -/
inductive StalledOp where
  | read (wide : Bool)
  | write (value : Word) (high : Option Word)
  | phStat (port : Nat)
  deriving DecidableEq, Repr

/-- A register access that waits (R416). -/
structure Stalled where
  path : Path
  addr : Nat
  op : StalledOp
  deriving DecidableEq, Repr

/-- The state of the block. -/
structure State where
  /-- register fields that differ from their reset value, by field ID × 65,536 + index -/
  regs : Tab Nat := []
  /-- upper halves latched for a requester path (R6, R341), by path code × 2^28 + BAR0 address -/
  latch : Tab Nat := []
  boot : Boot := {}
  flash : Flash := {}
  fuses : Fuses := {}
  rings : Tab Ring := []
  fns : Tab Fn := []
  ports : Tab Port := []
  lanes : Tab Lane := []
  tables : Tables := {}
  epochs : Epochs := {}
  tiles : Tab Tile := []
  fabric : Fabric := {}
  /-- cells charged: by region × 65,536 + port × 8 + class (R210) -/
  acct : Tab Nat := []
  /-- TICK pin configurations in force (R403) -/
  pinCfg : Tab PinCfg := []
  /-- instant at which Quench last released TICKn (R403) -/
  pinRel : Tab Int := []
  /-- TCLK count of the tick edge of the message last sent on TICKn (R404, R440) -/
  pinMsg : Tab Nat := []
  /-- egress queues, by port × 16 + slot (`QueueRef`) -/
  queues : Tab EQueue := []
  pgs : Tab Pg := []
  flowRt : Tab FlowRt := []
  merges : Tab Merge := []
  cuts : Tab Cut := []
  time : Time := {}
  phases : Tab Phase := []
  tius : Tab Tiu := []
  refs : Tab Ref := []
  dplls : Tab Dpll := []
  plls : Tab Pll := []
  outs : Tab Pll := []
  gens : Tab Gen := []
  window : Window := {}
  fences : Tab Fence := []
  fw : Fw := {}
  quench : Quench := {}
  pair : Pair := {}
  temper : Temper := {}
  pwr : Pwr := {}
  counters : Counters := {}
  hmk : Hmk := {}
  jtag : Jtag := {}
  /-- register accesses that wait for the clock of their domain, or for an earlier one of their requester (R416, R583) -/
  stalled : List Stalled := []
  /-- the model's own counter of free values drawn (log entry 5) -/
  free : Nat := 0
  /-- everything the block has sent, oldest first -/
  out : List Out := []
  /-- commands that wait, first in first out -/
  pending : List Instr := []
  deriving DecidableEq, Repr

/-- The state right after reset: every register at its reset value of R584, BOOT_HOLD latched (R437), every table
empty (R186), both timebases at 0 (R293), no command waiting. -/
def State.reset : State := {}

end Sys2Proof.Machine
end

