-- ==== Sys2Proof/Machine/Operands.lean ====
section
/-!
DEFINITION. Reading operands: bit fields (R3), byte order (R4), signed fields, and the sparse tables of State.
-/

namespace Sys2Proof.Machine

/-! ### Sparse tables -/

/-- The value at key `k`, if the table lists one. -/
def Tab.get? {α : Type} : Tab α → Nat → Option α
  | [], _ => none
  | (k, v) :: t, q => if q = k then some v else Tab.get? t q

/-- The value at key `k`, or the default. -/
def Tab.getD {α : Type} (t : Tab α) (k : Nat) (d : α) : α :=
  match Tab.get? t k with
  | some v => v
  | none => d

/-- The table with `v` at key `k`, keys rising. -/
def Tab.set {α : Type} : Tab α → Nat → α → Tab α
  | [], k, v => [(k, v)]
  | (k', v') :: t, k, v =>
    if k = k' then (k, v) :: t
    else if k < k' then (k, v) :: (k', v') :: t
    else (k', v') :: Tab.set t k v

/-- The table without key `k`. -/
def Tab.erase {α : Type} : Tab α → Nat → Tab α
  | [], _ => []
  | (k', v') :: t, k => if k = k' then Tab.erase t k else (k', v') :: Tab.erase t k

/-- The table with `v` at key `k`, nothing listed where `v` is what an unlisted key reads as. -/
def Tab.setD {α : Type} [DecidableEq α] (t : Tab α) (k : Nat) (v d : α) : Tab α :=
  if v = d then Tab.erase t k else Tab.set t k v

/-- The table with `f` applied to the value at key `k` (`d` where none is listed). -/
def Tab.update {α : Type} (t : Tab α) (k : Nat) (d : α) (f : α → α) : Tab α :=
  Tab.set t k (f (Tab.getD t k d))

/-- The keys listed. -/
def Tab.keys {α : Type} (t : Tab α) : List Nat := t.map (fun e => e.1)

/-! ### Bit fields -/

/-- Bits [lo + w - 1 : lo] of `v` (R3). -/
def bits (v lo w : Nat) : Nat := (v >>> lo) % 2 ^ w

/-- Bit `i` of `v` (R3). -/
def bit (v i : Nat) : Bool := (v >>> i) % 2 == 1

/-- `v` with the field [lo + w - 1 : lo] set to `x`. -/
def putBits (v lo w x : Nat) : Nat := v - (bits v lo w) <<< lo + (x % 2 ^ w) <<< lo

/-- `v` with bit `i` set or cleared. -/
def putBit (v i : Nat) (b : Bool) : Nat := putBits v i 1 (if b then 1 else 0)

/-- A Bool as a one-bit field. -/
def flag (b : Bool) : Nat := if b then 1 else 0

/-- The bits below `n` that are set in `v`. -/
def bitsSet (n v : Nat) : List Nat := (List.range n).filter (fun i => bit v i)

/-- The number with the bits of `l` set. -/
def maskOf (l : List Nat) : Nat := l.foldl (fun v i => v ||| (1 <<< i)) 0

/-- A field of width `w` read as a two's-complement number. -/
def signed (w v : Nat) : Int :=
  if v % 2 ^ w < 2 ^ (w - 1) then (v % 2 ^ w : Nat) else (v % 2 ^ w : Nat) - (2 ^ w : Nat)

/-- A signed number as a field of width `w` (modulo 2^w). -/
def unsign (w : Nat) (x : Int) : Nat := (x % (2 ^ w : Nat)).toNat

/-- `x` held to at most `n`. -/
def sat (n x : Nat) : Nat := if x ≤ n then x else n

/-- `x` held within `lo` and `hi`. -/
def clampI (lo hi x : Int) : Int := if x < lo then lo else if hi < x then hi else x

/-- `x` held within `lo` and `hi`. -/
def clampN (lo hi x : Nat) : Nat := if x < lo then lo else if hi < x then hi else x

/-- The number of bits set in the low `n` bits of `v`. -/
def popCount (n v : Nat) : Nat := (bitsSet n v).length

/-- The first element of `l` that satisfies `p`, else `d`. -/
def firstD {α : Type} (l : List α) (p : α → Bool) (d : α) : α :=
  match l.find? p with
  | some x => x
  | none => d

/-- Integer square root, rounded down, by bisection on `fuel` bits. -/
def sqrtFloor : Nat → Nat → Nat → Nat
  | 0, _, r => r
  | k + 1, v, r => if (r + 2 ^ k) * (r + 2 ^ k) ≤ v then sqrtFloor k v (r + 2 ^ k) else sqrtFloor k v r

/-- The quotient rounded toward minus infinity (positive divisor). -/
def floorDiv (a b : Int) : Int := a / b

/-- The quotient rounded to the nearest integer, halves upward (positive divisor). -/
def roundDiv (a b : Int) : Int := (2 * a + b) / (2 * b)

/-- The quotient rounded up (positive divisor). -/
def ceilDiv (a b : Nat) : Nat := (a + b - 1) / b

/-! ### Byte strings -/

/-- `len` bytes from offset `off`; bytes beyond the end are absent. -/
def slice (b : Bytes) (off len : Nat) : Bytes := (b.drop off).take len

/-- The byte at offset `i`, 0 beyond the end. -/
def byteAt (b : Bytes) (i : Nat) : Nat := (b.getD i 0).toNat

/-- The value of a byte string, first byte least significant (R4). -/
def leNat : Bytes → Nat
  | [] => 0
  | x :: t => x.toNat + 256 * leNat t

/-- The value of a byte string, first byte most significant (network order). -/
def beNat (b : Bytes) : Nat := b.foldl (fun v x => v * 256 + x.toNat) 0

/-- The little-endian number in `len` bytes at offset `off` (R4). -/
def leAt (b : Bytes) (off len : Nat) : Nat := leNat (slice b off len)

/-- The big-endian number in `len` bytes at offset `off`. -/
def beAt (b : Bytes) (off len : Nat) : Nat := beNat (slice b off len)

/-- `v` as `len` bytes, least significant first (R4). -/
def toLE : Nat → Nat → Bytes
  | 0, _ => []
  | n + 1, v => BitVec.ofNat 8 v :: toLE n (v / 256)

/-- `v` as `len` bytes, most significant first. -/
def toBE (len v : Nat) : Bytes := (toLE len v).reverse

/-- `b` with the bytes of `x` written at offset `off`. -/
def overlay (b : Bytes) (off : Nat) (x : Bytes) : Bytes := b.take off ++ x ++ b.drop (off + x.length)

/-- Whether every byte of the range is 0. -/
def allZero (b : Bytes) (off len : Nat) : Bool := (slice b off len).all (fun x => x == 0)

/-- A byte string as doublewords, little-endian (R4); a part of a doubleword at the end is filled with zeros. -/
def toWords : Nat → Bytes → List Word
  | 0, _ => []
  | n + 1, b => BitVec.ofNat 32 (leNat (b.take 4)) :: toWords n (b.drop 4)

/-- Doublewords as bytes, little-endian (R4). -/
def wordsLE (l : List Word) : Bytes := l.flatMap (fun w => toLE 4 w.toNat)

/-- Doubleword `i` of a list, 0 beyond its end. -/
def dw (l : List Word) (i : Nat) : Nat := (l.getD i 0).toNat

/-- One bit of a CRC-16 of polynomial `poly`, most significant bit first. -/
def crcBit (poly c : Nat) (b : Bool) : Nat :=
  let top := bit c 15 != b
  (c * 2 % 65536) ^^^ (if top then poly else 0)

/-- The CRC-16 of a byte string for polynomial `poly` from initial value `c`, most significant bit first. -/
def crc16 (poly c : Nat) (b : Bytes) : Nat :=
  b.foldl (fun c x => [7, 6, 5, 4, 3, 2, 1, 0].foldl (fun c i => crcBit poly c (bit x.toNat i)) c) c

/-- One byte of the CRC-32 of IEEE 802.3, in its reflected form. -/
def crcByte : Nat → Nat → Nat
  | 0, v => v
  | k + 1, v => crcByte k (if v % 2 = 1 then v / 2 ^^^ 0xEDB88320 else v / 2)

/-- The CRC-32 of IEEE 802.3 (the FCS of R79 and R139) of a byte string. -/
def crc32 (b : Bytes) : Nat := b.foldl (fun v x => crcByte 8 (v ^^^ x.toNat)) 0xFFFFFFFF ^^^ 0xFFFFFFFF

/-- The 16-byte value of a byte string's first bytes, shorter strings filled with zero bytes. -/
def padTo (n : Nat) (b : Bytes) : Bytes := b ++ List.replicate (n - b.length) 0

end Sys2Proof.Machine
end

