-- ==== Sys2Proof/Machine/Headers.lean ====
section
/-!
DEFINITION. The headers of a frame: what the parser reads (R156–R159), and the rewrites of outgoing frames: the routed
rewrite of R165 and R168, and the checksum updates of R165 and R289.
-/

namespace Sys2Proof.Machine

/-! ### Parsing -/

/-- What the parser knows about a frame (R156).  `ver` is 4 or 6 for a parsed IP frame, else 0; addresses are numbers in
network order; `l3` and `l4` are byte offsets; L4 fields are 0 where the parser reads none. -/
structure Hdr where
  dmac : Nat := 0
  smac : Nat := 0
  tags : Nat := 0
  tpid : Nat := 0
  pcp : Nat := 0
  dei : Nat := 0
  vid : Nat := 0
  etype : Nat := 0
  l3 : Nat := 14
  ver : Nat := 0
  bad : Bool := false
  trunc : Bool := false
  src : Nat := 0
  dst : Nat := 0
  proto : Nat := 0
  dscp : Nat := 0
  ttl : Nat := 0
  frag : Bool := false
  l4 : Nat := 0
  sport : Nat := 0
  dport : Nat := 0
  tcpFlags : Nat := 0
  deriving DecidableEq, Repr

/-- Whether a value of the type field is a VLAN tag's (R156). -/
def isTpid (t : Nat) : Bool := t == 0x8100 || t == 0x88A8

/-- The ones' complement sum of a byte string as 16-bit words, first byte the upper, modulo 65,535. -/
def onesSum : Bytes → Nat
  | [] => 0
  | [x] => x.toNat * 256
  | x :: y :: t => (x.toNat * 256 + y.toNat + onesSum t) % 65535

/-- The last extension header and what follows it (R156): from next-header value `nh` at offset `o`, at most `fuel`
headers are skipped; answers the value after them, its offset, and whether the frame is a non-first fragment. -/
def skipExt (b : Bytes) : Nat → Nat → Nat → Bool → Nat × Nat × Bool
  | 0, nh, o, f => (nh, o, f)
  | n + 1, nh, o, f =>
    if nh = 44 then skipExt b n (byteAt b o) (o + 8) (f || beAt b (o + 2) 2 / 8 != 0)
    else if nh = 0 ∨ nh = 43 ∨ nh = 60 then skipExt b n (byteAt b o) (o + 8 * (byteAt b (o + 1) + 1)) f
    else (nh, o, f)

/-- What is left of a frame whose recognised headers continue beyond byte 256 (R156). -/
def Hdr.truncated (h : Hdr) : Hdr :=
  { h with trunc := true, src := 0, dst := 0, proto := 0, dscp := 0, ttl := 0, frag := false, l4 := 0, sport := 0,
           dport := 0, tcpFlags := 0 }

/-- The L4 part: ports of UDP and TCP, TCP flags, and whether the headers pass byte 256. -/
def parseL4 (b : Bytes) (h : Hdr) : Hdr :=
  let len := if h.proto = 17 then 8 else if h.proto = 6 then 20 else 0
  if decide (256 < h.l4 + (if h.frag then 0 else len)) then h.truncated
  else if h.frag || len == 0 then h
  else { h with
    sport := beAt b h.l4 2, dport := beAt b (h.l4 + 2) 2, tcpFlags := if h.proto = 6 then byteAt b (h.l4 + 13) else 0 }

/-- The IPv4 header at `h.l3` (R156, R159). -/
def parse4 (b : Bytes) (h : Hdr) : Hdr :=
  let ihl := byteAt b h.l3 % 16
  let total := beAt b (h.l3 + 2) 2
  let bad := byteAt b h.l3 / 16 != 4 || decide (ihl < 5) || decide (b.length < h.l3 + total) ||
    decide (b.length < h.l3 + 4 * ihl) || onesSum (slice b h.l3 (4 * ihl)) % 65535 != 0
  parseL4 b { h with
    ver := 4, bad := bad, src := beAt b (h.l3 + 12) 4, dst := beAt b (h.l3 + 16) 4, proto := byteAt b (h.l3 + 9),
    dscp := byteAt b (h.l3 + 1) / 4, ttl := byteAt b (h.l3 + 8),
    frag := beAt b (h.l3 + 6) 2 % 8192 != 0, l4 := h.l3 + 4 * ihl }

/-- The IPv6 header at `h.l3` (R156, R159). -/
def parse6 (b : Bytes) (h : Hdr) : Hdr :=
  let x := skipExt b 2 (byteAt b (h.l3 + 6)) (h.l3 + 40) false
  parseL4 b { h with
    ver := 6, bad := decide (b.length < h.l3 + 40 + beAt b (h.l3 + 4) 2), src := beAt b (h.l3 + 8) 16,
    dst := beAt b (h.l3 + 24) 16, proto := x.1, dscp := beAt b h.l3 2 / 64 % 64, ttl := byteAt b (h.l3 + 7),
    frag := x.2.2, l4 := x.2.1 }

/-- The parser (R156): addresses, up to two VLAN tags, and the IP and L4 headers behind them. -/
def parse (b : Bytes) : Hdr :=
  let t1 := beAt b 12 2
  let two := isTpid t1 && isTpid (beAt b 16 2)
  let tags := if two then 2 else if isTpid t1 then 1 else 0
  let tci := if tags = 0 then 0 else beAt b 14 2
  let h : Hdr := {
    dmac := beAt b 0 6, smac := beAt b 6 6, tags := tags, tpid := if tags = 0 then 0 else t1,
    pcp := bits tci 13 3, dei := bits tci 12 1, vid := bits tci 0 12,
    etype := beAt b (12 + 4 * tags) 2, l3 := 14 + 4 * tags }
  if h.etype = 0x0800 then parse4 b h else if h.etype = 0x86DD then parse6 b h else h

/-- Whether a frame is an IP frame that the later stages may read (R156). -/
def Hdr.isIp (h : Hdr) : Bool := h.ver != 0 && !h.trunc

/-- Whether a frame is UDP with its ports read. -/
def Hdr.isUdp (h : Hdr) : Bool := h.isIp && h.proto == 17 && !h.frag

/-- Whether a frame is a PTP frame (R158). -/
def Hdr.isPtp (h : Hdr) : Bool :=
  h.etype == 0x88F7 || (h.isUdp && !h.bad && (h.dport == 319 || h.dport == 320))

/-- The offset of a PTP message within a frame that the transmit MAC recognises as a PTP event carrier (R435). -/
def Hdr.ptpAt (h : Hdr) : Option Nat :=
  if h.etype = 0x88F7 then some h.l3
  else if h.isUdp && h.dport == 319 then some (h.l4 + 8)
  else none

/-- Whether the frame is a time-carrying event message (R435): Sync or Pdelay_Resp. -/
def timeCarrying (b : Bytes) : Bool :=
  match (parse b).ptpAt with
  | some o => byteAt b o % 16 == 0 || byteAt b o % 16 == 3
  | none => false

/-! ### Rewriting -/

/-- A UDP checksum after the bytes from the UDP header on have changed from `old` to `new` (R289, R326): incremental, and,
where `keep0`, left at 0 where it is 0. -/
def udpSum (ck : Nat) (old new : Bytes) (keep0 : Bool := true) : Nat :=
  if keep0 && ck == 0 then 0
  else 65535 - (65535 - ck + onesSum new + 65535 - onesSum old) % 65535

/-- A frame's UDP checksum updated for a change of its payload from `b` to `b'` (same length, R289, R326). -/
def fixUdp (h : Hdr) (b b' : Bytes) : Bytes :=
  if h.isUdp then
    overlay b' (h.l4 + 6) (toBE 2 (udpSum (beAt b (h.l4 + 6) 2) (b.drop (h.l4 + 8)) (b'.drop (h.l4 + 8))))
  else b'

/-- TTL or hop limit decremented, and the IPv4 header checksum with it (R165, R168). -/
def decTtl (h : Hdr) (b : Bytes) : Bytes :=
  if h.ver = 4 then
    let b := overlay b (h.l3 + 8) (toBE 1 (byteAt b (h.l3 + 8) - 1))
    let b := overlay b (h.l3 + 10) (toBE 2 0)
    overlay b (h.l3 + 10) (toBE 2 (65535 - onesSum (slice b h.l3 (h.l4 - h.l3)) % 65535))
  else if h.ver = 6 then overlay b (h.l3 + 7) (toBE 1 (byteAt b (h.l3 + 7) - 1))
  else b

/-- The routed rewrite of a multicast copy (R168): source MAC and TTL. -/
def routeMulticast (rmac : Nat) (b : Bytes) : Bytes :=
  overlay (decTtl (parse b) b) 6 (toBE 6 rmac)

/-- The routed rewrite of a unicast frame (R165): both MACs, TTL, and the outer tag. -/
def routeUnicast (rmac nhMac nhVlan : Nat) (b : Bytes) : Bytes :=
  let h := parse b
  let b := decTtl h b
  let macs := toBE 6 nhMac ++ toBE 6 rmac
  let rest := b.drop 12
  if nhVlan = 0 then macs ++ (if h.tags = 0 then rest else rest.drop 4)
  else if h.tags = 0 then macs ++ toBE 2 0x8100 ++ toBE 2 nhVlan ++ rest
  else macs ++ rest.take 2 ++ toBE 2 (h.pcp * 8192 + h.dei * 4096 + nhVlan) ++ rest.drop 4

/-- The one-step rewrite of R326 for transmit stamp `g` (62.5 ps units): originTimestamp, correctionField, checksum. -/
def oneStepStamp (g : Nat) (b : Bytes) : Bytes :=
  let h := parse b
  let o : Option Nat := if h.etype = 0x88F7 then some h.l3 else if h.isUdp then some (h.l4 + 8) else none
  match o with
  | none => b
  | some o =>
    let corr := (beAt b (o + 8) 8 + (g % 16) * 4096) % 2 ^ 64
    let b' := overlay b (o + 8) (toBE 8 corr)
    let b' := overlay b' (o + 34) (toBE 6 (g / 16000000000 % 2 ^ 48) ++ toBE 4 (g / 16 % 1000000000))
    fixUdp h b b'

end Sys2Proof.Machine
end

