-- ==== Sys2Proof/Config.lean ====
section
/-!
DEFINITION. What the spec leaves open or fixes per implementation: free values, constants without a body, so that
nothing can be proved about the number they stand for.  A fresh value is `freeNat n` or `freeInt n` at a counter `n`
that the step advances (the field `free` of State).
-/

namespace Sys2Proof.Config

/-- A value the spec does not state, one for each use (log entry 5). -/
opaque freeNat : Nat → Nat

/-- A signed value the spec does not state, one for each use (log entry 5). -/
opaque freeInt : Nat → Int

/-- Whether the hashed ways and the overflow CAM still have room for a key (R163): the hash functions are not given.
Arguments: table ID, entries present, key (log entry 14). -/
opaque hashRoom : Nat → Nat → List Nat → Bool

/-- The index a hashed table gives a new entry (R163): table ID, entries present, key (log entry 14). -/
opaque entryIndex : Nat → Nat → List Nat → Nat

/-- The handle the flow table's hash proposes for a key (R257): entries present, key (log entry 14). -/
opaque flowSlot : Nat → List Nat → Nat

/-- Whether a comparison of two quantities that race in the same cycle goes to the first (R547: a RESET_N pulse of
1 to 10 µs may or may not reset the device). -/
opaque freeBool : Nat → Bool

/-- The PVID, TRUST and DEF_CLASS of logical ports 256 and 257, which have no TIL_PORT_LKP (log entry 24). -/
opaque logicalPvid : Nat → Nat
opaque logicalTrust : Nat → Nat
opaque logicalClass : Nat → Nat

/-- The frequency offset (2^-40) that a DPLL's loop steers to (R375): bandwidth in mHz, phase error in ps, output offset,
and a fresh value for what else the loop filter holds (log entry 15). -/
opaque loopGoal : Nat → Int → Int → Int → Int

/-- What gives the fixed pseudo-random order of the 64 dither values (R355): the choice made at each of its 64 places, and
the place at which a channel's first measurement stands (log entry 38). -/
opaque ditherPick : Nat → Nat
opaque ditherFirst : Nat → Nat

/-- The VCO frequency in kHz of PLLs 0 to 4, which the spec does not give (log entry 42). -/
opaque pllVco : Nat → Nat

end Sys2Proof.Config
end

