-- ==== Sys2Proof/Machine/Ops.lean ====
section
/-!
DEFINITION. The named operations that the meanings share: register fields, the indexed parts of State, time, counters,
Hallmark trace and performance counters, rings (entries, completions, interrupts) and events.
-/

namespace Sys2Proof.Machine

/-! ### Register fields -/

/-- The value of a register field, copy `i` (no field has as many as 65,536). -/
def State.getF (s : State) (f : Fld) (i : Nat := 0) : Nat :=
  Tab.getD s.regs (f.id * 65536 + i % 65536) (f.resetAt (i % 65536))

/-- Whether a register field is not 0. -/
def State.isF (s : State) (f : Fld) (i : Nat := 0) : Bool := s.getF f i != 0

/-- The field, copy `i`, set to `v` (modulo its width). -/
def State.setF (s : State) (f : Fld) (v : Nat) (i : Nat := 0) : State :=
  { s with regs := Tab.setD s.regs (f.id * 65536 + i % 65536) (v % 2 ^ f.width) (f.resetAt (i % 65536)) }

/-- The bits of `v` set in the field. -/
def State.orF (s : State) (f : Fld) (v : Nat) (i : Nat := 0) : State := s.setF f (s.getF f i ||| v) i

/-- The bits of `v` cleared in the field. -/
def State.clrF (s : State) (f : Fld) (v : Nat) (i : Nat := 0) : State :=
  s.setF f (s.getF f i - (s.getF f i &&& v)) i

/-- The field raised by `n`, held at its largest value. -/
def State.addF (s : State) (f : Fld) (n : Nat) (i : Nat := 0) : State :=
  s.setF f (sat (2 ^ f.width - 1) (s.getF f i + n)) i

/-- Every copy of the field back at its reset value. -/
def State.resetF (s : State) (f : Fld) : State :=
  { s with regs := s.regs.filter (fun e => e.1 / 65536 != f.id) }

/-- The copies of a field with reset value 0 that are not 0. -/
def State.copiesSet (s : State) (f : Fld) : List Nat :=
  (s.regs.filter (fun e => e.1 / 65536 == f.id && e.2 != 0)).map (fun e => e.1 % 65536)

/-! ### Free values -/

/-- A fresh value that the spec does not state, and the state after drawing it. -/
def State.draw (s : State) : Nat × State := (Config.freeNat s.free, { s with free := s.free + 1 })

/-- A fresh signed value that the spec does not state. -/
def State.drawInt (s : State) : Int × State := (Config.freeInt s.free, { s with free := s.free + 1 })

/-! ### Indexed parts -/

def State.ring (s : State) (n : Nat) : Ring := Tab.getD s.rings n {}
def State.upRing (s : State) (n : Nat) (f : Ring → Ring) : State := { s with rings := Tab.update s.rings n {} f }
def State.fn (s : State) (n : Nat) : Fn := Tab.getD s.fns n {}
def State.upFn (s : State) (n : Nat) (f : Fn → Fn) : State := { s with fns := Tab.update s.fns n {} f }
def State.port (s : State) (n : Nat) : Port := Tab.getD s.ports n {}
def State.upPort (s : State) (n : Nat) (f : Port → Port) : State := { s with ports := Tab.update s.ports n {} f }
def State.lane (s : State) (n : Nat) : Lane := Tab.getD s.lanes n {}
def State.upLane (s : State) (n : Nat) (f : Lane → Lane) : State := { s with lanes := Tab.update s.lanes n {} f }
def State.tile (s : State) (n : Nat) : Tile := Tab.getD s.tiles n {}
def State.upTile (s : State) (n : Nat) (f : Tile → Tile) : State := { s with tiles := Tab.update s.tiles n {} f }
def State.queue (s : State) (n : Nat) : EQueue := Tab.getD s.queues n {}
def State.upQueue (s : State) (n : Nat) (f : EQueue → EQueue) : State :=
  { s with queues := Tab.update s.queues n {} f }
def State.flow (s : State) (n : Nat) : FlowRt := Tab.getD s.flowRt n {}
def State.upFlow (s : State) (n : Nat) (f : FlowRt → FlowRt) : State :=
  { s with flowRt := Tab.update s.flowRt n {} f }
def State.merge (s : State) (n : Nat) : Merge := Tab.getD s.merges n {}
def State.upMerge (s : State) (n : Nat) (f : Merge → Merge) : State :=
  { s with merges := Tab.update s.merges n {} f }
def State.cut (s : State) (n : Nat) : Cut := Tab.getD s.cuts n {}
def State.upCut (s : State) (n : Nat) (f : Cut → Cut) : State := { s with cuts := Tab.update s.cuts n {} f }
def State.phase (s : State) (n : Nat) : Phase := Tab.getD s.phases n {}
def State.upPhase (s : State) (n : Nat) (f : Phase → Phase) : State :=
  { s with phases := Tab.update s.phases n {} f }
def State.tiu (s : State) (n : Nat) : Tiu := Tab.getD s.tius n {}
def State.upTiu (s : State) (n : Nat) (f : Tiu → Tiu) : State := { s with tius := Tab.update s.tius n {} f }
def State.refr (s : State) (n : Nat) : Ref := Tab.getD s.refs n {}
def State.upRef (s : State) (n : Nat) (f : Ref → Ref) : State := { s with refs := Tab.update s.refs n {} f }
def State.dpll (s : State) (n : Nat) : Dpll := Tab.getD s.dplls n {}
def State.upDpll (s : State) (n : Nat) (f : Dpll → Dpll) : State := { s with dplls := Tab.update s.dplls n {} f }
def State.pll (s : State) (n : Nat) : Pll := Tab.getD s.plls n {}
def State.upPll (s : State) (n : Nat) (f : Pll → Pll) : State := { s with plls := Tab.update s.plls n {} f }
def State.outp (s : State) (n : Nat) : Pll := Tab.getD s.outs n {}
def State.upOut (s : State) (n : Nat) (f : Pll → Pll) : State := { s with outs := Tab.update s.outs n {} f }
def State.gen (s : State) (n : Nat) : Gen := Tab.getD s.gens n {}
def State.upGen (s : State) (n : Nat) (f : Gen → Gen) : State := { s with gens := Tab.update s.gens n {} f }
def State.fence (s : State) (n : Nat) : Fence := Tab.getD s.fences n {}
def State.upFence (s : State) (n : Nat) (f : Fence → Fence) : State :=
  { s with fences := Tab.update s.fences n {} f }

/-! ### Clocks (R26, R383) -/

/-- Whether every tile is gated (R510). -/
def State.allGated (s : State) : Bool := s.getF PWR_GATE_STAT.TILE_GATED == 255

/-- Whether CCLK runs: PLL 0 does not gate it and not all tiles are gated. -/
def State.cclk (s : State) : Bool := !(s.pll 0).gated && !s.allGated

/-- Whether KCLK, LCLK and HCLK run (PLLs 1, 3 and 4), as far as their PLLs go: what else stops them is the reset of the
control complex, of the timing plane and the loss of the PCI Express link. -/
def State.kclk (s : State) : Bool := !(s.pll 1).gated
def State.lclk (s : State) : Bool := !(s.pll 3).gated
def State.hclk (s : State) : Bool := !(s.pll 4).gated

/-- Whether firmware executes (R24, R26): it has been started, its domain is in service, and KCLK runs. -/
def State.fwRuns (s : State) : Bool := s.fw.running && s.kclk

/-- `s` with `o` sent. -/
def State.emit (s : State) (o : Out) : State := { s with out := s.out ++ [o] }

/-! ### Port modes (R117) -/

/-- Lanes of a port mode. -/
def modeLanes (m : Nat) : Nat := [1, 1, 4, 2, 1, 4, 2, 1, 4, 2, 1, 8, 4, 2, 8, 4].getD m 1

/-- Port rate of a mode in Mb/s. -/
def modeRate (m : Nat) : Nat :=
  [10000, 25000, 40000, 50000, 50000, 100000, 100000, 100000, 200000, 200000, 200000, 400000, 400000, 400000,
   800000, 800000].getD m 10000

/-- Lane rate of a mode in kb/s. -/
def modeLaneRate (m : Nat) : Nat :=
  [10312500, 25781250, 10312500, 25781250, 53125000, 25781250, 53125000, 106250000, 53125000, 106250000, 212500000,
   53125000, 106250000, 212500000, 106250000, 212500000].getD m 10312500

/-- Whether a mode belongs to the NRZ family (R116). -/
def modeNrz (m : Nat) : Bool := m ∈ [0, 1, 2, 3, 5]

/-- Whether FEC code `fec` is one that the mode allows (R117). -/
def modeFecOk (m fec : Nat) : Bool :=
  if modeNrz m then fec == 0 || (fec == 1 && m ∈ [1, 3, 5]) else fec == 2

def State.portMode (s : State) (p : Nat) : Nat := s.getF TIL_PORT_CFG.MODE p
def State.portState (s : State) (p : Nat) : Nat := s.getF TIL_PORT_STAT.STATE p

/-- The lanes (tile × 32 + lane) of port `p` in its mode. -/
def State.portLanes (s : State) (p : Nat) : List Nat := (List.range (modeLanes (s.portMode p))).map (p + ·)

/-- The port rate in bit/s. -/
def State.portRate (s : State) (p : Nat) : Nat := modeRate (s.portMode p) * 1000000

/-- An enabled port in the sense of R118: ENABLE set and not in CFG_ERR. -/
def State.portEnabled (s : State) (p : Nat) : Bool :=
  s.isF TIL_PORT_CFG.ENABLE p && s.portState p != 6

/-- The port that a lane belongs to (R118: a port in CFG_ERR holds no lane), if one. -/
def State.laneOwner (s : State) (lane : Nat) : Option Nat :=
  ((List.range 8).map (lane - ·)).find?
    (fun p => p / 32 == lane / 32 && s.portEnabled p && decide (lane < p + modeLanes (s.portMode p)))

/-! ### Time (R291, R295, R303) -/

/-- One nanosecond in the unit of `Time`: 2^32 × 10^9. -/
def nsU : Int := 4294967296000000000

/-- One picosecond. -/
def psU : Int := 4294967296000000

/-- The serving time (R38, R294). -/
def State.now (s : State) : Int := if s.isF TPL_TB_STAT.SERVING then s.time.b else s.time.a

/-- Whole nanoseconds of the serving time, modulo 2^48 seconds. -/
def State.nowNs (s : State) : Nat := ((s.now / nsU) % 281474976710656000000000).toNat

/-- SEC of the serving time. -/
def State.nowSec (s : State) : Nat := s.nowNs / 1000000000

/-- NS of the serving time. -/
def State.nowNsec (s : State) : Nat := s.nowNs % 1000000000

/-- FRAC of the serving time, in 2^-32 ns. -/
def State.nowFrac (s : State) : Nat := ((s.now % nsU) / 1000000000).toNat

/-- SLEW_PPB as it acts (0 as 1, above 10,000 as 10,000). -/
def State.slewPpb (s : State) : Nat := clampN 1 10000 (s.getF TPL_TB_SLEW.SLEW_PPB)

/-- What the slew engine adds over `n` TCLK edges (R303): 4 ns × SLEW_PPB × 10^-9 on each, the last exactly what
remains. -/
def State.slewOver (s : State) (n : Nat) : Int :=
  let most : Int := 4 * 4294967296 * (s.slewPpb : Int) * (n : Int)
  clampI (-most) most s.time.adj

/-- The timebases after `n` TCLK edges (R295, R303); they stand still until the timing plane runs (R293). -/
def State.edges (s : State) (n : Nat) : State :=
  if s.time.running then
    let d := (s.time.inc : Int) * 1000000000 * n + s.slewOver n
    { s with time := { s.time with tclk := s.time.tclk + n, a := s.time.a + d, b := s.time.b + d,
                                   adj := s.time.adj - s.slewOver n } }
  else s

/-- TCLK edges pass until the serving time has reached `t` (R29: the first edge at or after it); `fuel` bounds the
rounds of the search, each of which never passes `t` by more than one edge. -/
def State.advanceTo (s : State) (t : Int) : Nat → State
  | 0 => s
  | k + 1 =>
    if !s.time.running || decide (t ≤ s.now) then s
    else
      let most : Int := (s.time.inc : Int) * 1000000000 + (if 0 < s.time.adj then 4 * 4294967296 * (s.slewPpb : Int) else 0)
      (s.edges (max 1 ((t - s.now) / most).toNat)).advanceTo t k

/-- What the timebase gains on its next TCLK edge, steps apart (R313). -/
def State.nextAdvance (s : State) : Int := (s.time.inc : Int) * 1000000000 + s.slewOver 1

/-- A raw stamp (R313): the local time at the last TCLK edge plus `k` sixty-fourths of the next advance. -/
def State.rawStamp (s : State) (k : Nat) : Int := s.now + s.nextAdvance * ((k % 64 : Nat) : Int) / 64

/-- A raw stamp of tile `t`, by its local copy of the serving time (R312, R313). -/
def State.tileStamp (s : State) (t k : Nat) : Int := s.rawStamp k + Tab.getD s.time.copies t 0

/-- A time truncated to the 62.5 ps grid (R317), counted from the epoch. -/
def gridOf (t : Int) : Nat := (t / (nsU / 16)).toNat

/-- Seconds, nanoseconds and TS_SUB of a stamp on the 62.5 ps grid. -/
def stampSec (g : Nat) : Nat := g / 16000000000
def stampNs (g : Nat) : Nat := g / 16 % 1000000000
def stampSub (g : Nat) : Nat := g % 16

/-- The frame count (R28): generator 0's. -/
def State.frameCount (s : State) : Nat := (s.gen 0).fc

/-! ### Statistics counters (R518, R520) -/

/-- The group of `kind` and `inst` (R520). -/
def group (kind inst : Nat) : Nat := kind * 8192 + inst

/-- Counter `k` of group `g`. -/
def State.counter (s : State) (g k : Nat) : Nat := Tab.getD s.counters.val (g * 512 + k) 0

/-- Counter `k` of group `g` set to `v`. -/
def State.setCounter (s : State) (g k v : Nat) : State :=
  { s with counters := { s.counters with val := Tab.setD s.counters.val (g * 512 + k) v 0 } }

/-- A statistics counter raised by `n` (R518, kind S). -/
def State.countS (s : State) (g k : Nat) (n : Nat := 1) : State :=
  let v := sat 0xFFFFFFFFFFFFFFFF (s.counter g k + n)
  let s := s.setCounter g k v
  if v == 0xFFFFFFFFFFFFFFFF then s.orF HMK_HIST.STAT_SAT 1 else s

/-! ### Hallmark trace (R533–R535, R538) -/

/-- The FIFO level in 32-byte records (R533): a HDR record takes three. -/
def recUnits (r : TraceRec) : Nat := if r.typ == 1 then 3 else 1
def fifoLevel (l : List TraceRec) : Nat := l.foldl (fun n r => n + recUnits r) 0

/-- Whether Hallmark is out of service (R538). -/
def State.hmkFenced (s : State) : Bool := (s.fence 10).st != 0

/-- A record put at the end of the FIFO, with the next SEQ and the serving time (R534). -/
def State.pushRec (s : State) (typ src : Nat) (dws : List Word) : State :=
  let r : TraceRec := { typ := typ, src := src, seq := s.hmk.seq, ns := s.nowNsec, sec := s.nowSec % 4, dws := dws }
  { s with hmk := { s.hmk with fifo := s.hmk.fifo ++ [r], seq := (s.hmk.seq + 1) % 256 } }

/-- The doublewords of a SYNC record (R534). -/
def State.syncDws (s : State) : List Word :=
  [BitVec.ofNat 32 s.nowSec, BitVec.ofNat 32 (bits s.nowSec 32 16), BitVec.ofNat 32 s.frameCount,
   BitVec.ofNat 32 (bits s.frameCount 32 16), BitVec.ofNat 32 s.hmk.lost,
   BitVec.ofNat 32 (s.getF TPL_TB_STAT.DISC_CNT)]

/-- A SYNC record, after which no record counts as lost since the last one. -/
def State.pushSync (s : State) : State :=
  let s := s.pushRec 0 0 s.syncDws
  { s with hmk := { s.hmk with lost := 0, lastSync := s.frameCount } }

/-- A record of the trace (R533, R535): nothing while TRACE_EN is clear; lost while Hallmark is fenced or the FIFO is
full, the last 64 records being kept for EVENT records; after a loss a LOSS and a SYNC record come first. -/
def State.trace (s : State) (typ src : Nat) (dws : List Word) : State :=
  if s.getF HMK_TRACE_CFG.TRACE_EN == 0 then s
  else
    let units := if typ == 1 then 3 else 1
    let room := if typ == 2 then 8192 else 8192 - 64
    let need := units + (if s.hmk.lossDue then 2 else 0)
    if s.hmkFenced || decide (room < fifoLevel s.hmk.fifo + need) then
      let s := (s.addF HMK_LOSS.LOST 1).orF HMK_HIST.LOSS_SEEN 1
      { s with hmk := { s.hmk with lost := s.hmk.lost + 1, lossDue := true } }
    else
      let s := if s.hmk.lossDue then
          let s := s.pushRec 5 0 [BitVec.ofNat 32 s.hmk.lost]
          let s := s.pushSync
          { s with hmk := { s.hmk with lossDue := false } }
        else s
      if typ == 0 then s.pushSync else s.pushRec typ src dws

/-! ### Performance counters (R527–R530) -/

/-- Whether event code `e` is available to counter `n` (R528). -/
def perfAvailable (n e : Nat) : Bool :=
  if n < 256 then decide (1 ≤ e ∧ e ≤ 10)
  else if n < 272 then decide (0x20 ≤ e ∧ e ≤ 0x27)
  else decide (0x40 ≤ e ∧ e ≤ 0x44)

/-- The filter fields that event `e` carries (R528): function, source kind (0 none, 1 port, 2 pipeline, 3 core), class,
address. -/
def perfCarries (e : Nat) : Bool × Nat × Bool × Bool :=
  if e == 0x01 || e == 0x09 then (false, 1, true, false)
  else if e == 0x04 || e == 0x05 then (false, 0, true, false)
  else if e == 0x0A then (false, 1, false, false)
  else if e == 0x20 || e == 0x21 || e == 0x22 || e == 0x27 then (true, 0, false, true)
  else if decide (0x23 ≤ e ∧ e ≤ 0x26) then (true, 0, false, false)
  else if e == 0x43 then (false, 3, false, true)
  else if decide (0x40 ≤ e ∧ e ≤ 0x44) then (false, 3, false, false)
  else (false, 0, false, false)

/-- The function that counter `n` is held to (R529): its OWNER if not 0 and the counter is not one of 272–311, else
FUNC; 0x3F any. -/
def State.perfFn (s : State) (n : Nat) : Nat :=
  let o := s.getF HMK_PC_CFG.OWNER n
  if o != 0 && decide (n < 272) then o else s.getF HMK_PC_CFG.FUNC n

/-- Whether counter `n`'s event and filter are accepted (R528); where they are not, the counter counts nothing. -/
def State.perfCfgOk (s : State) (n : Nat) : Bool :=
  let e := s.getF HMK_PC_CFG.EVT n
  let c := perfCarries e
  perfAvailable n e &&
  (c.1 || s.perfFn n == 0x3F) &&
  (s.getF HMK_PC_CFG.SRC_KIND n == 0 || s.getF HMK_PC_CFG.SRC_KIND n == c.2.1) &&
  (c.2.2.1 || s.getF HMK_PC_CFG.CLASS n == 0xFF) &&
  (c.2.2.2 || s.getF HMK_PC_CFG.ADDR_EN n == 0)

/-- Whether event `e` matches counter `n`'s filter (R528). -/
def State.perfMatch (s : State) (n : Nat) (e : PerfEvt) : Bool :=
  s.getF HMK_PC_CFG.EVT n == e.code && s.perfCfgOk n &&
  (s.perfFn n == 0x3F || e.fn == some (s.perfFn n)) &&
  (s.getF HMK_PC_CFG.SRC_KIND n == 0 ||
    (s.getF HMK_PC_CFG.SRC_KIND n == e.srcKind && s.getF HMK_PC_SRC.SRC_ID n == e.srcId)) &&
  (match e.cls with | some c => s.getF HMK_PC_CFG.CLASS n &&& c != 0 | none => true) &&
  (match s.getF HMK_PC_CFG.ADDR_EN n, e.addr with
   | 0, _ => true
   | _, some a => decide (a < 17592186044416) && decide (s.getF HMK_PC_ADDR_LO.PAGE_LO n ≤ a / 4096) &&
       decide (a / 4096 ≤ s.getF HMK_PC_ADDR_HI.PAGE_HI n)
   | _, none => false)

/-- The value of counter `n`. -/
def State.perfValue (s : State) (n : Nat) : Nat :=
  s.getF HMK_PC_VAL_HI.VALUE n * 4294967296 + s.getF HMK_PC_VAL_LO.VALUE n

/-- The value of counter `n` set to `v`. -/
def State.setPerf (s : State) (n v : Nat) : State :=
  (s.setF HMK_PC_VAL_LO.VALUE v n).setF HMK_PC_VAL_HI.VALUE (v / 4294967296) n

/-- Counter `n` passes 2^48 − 1 (R530): it wraps to 0, or with SAMPLE reloads to 2^48 − PERIOD (0 acts as 1) and emits a
SAMPLE record with `pc`. -/
def State.perfWrap (s : State) (n pc : Nat) : State :=
  let sample := s.isF HMK_PC_CFG.SAMPLE n
  let period := if s.getF HMK_PC_PERIOD.PERIOD n == 0 then 1 else s.getF HMK_PC_PERIOD.PERIOD n
  let v := if sample then 281474976710656 - period else 0
  let s := ((s.setPerf n v).setF HMK_PC_VAL_HI.WRAP 1 n).orF HMK_HIST.PERF_WRAP_SEEN 1
  if sample then
    s.trace 4 n [BitVec.ofNat 32 pc, BitVec.ofNat 32 (pc / 4294967296), BitVec.ofNat 32 v,
      BitVec.ofNat 32 (v / 4294967296)]
  else s

/-- An event reaches the performance counters (R528); they hold their values while Hallmark is fenced (R538).
`tile` names the tile whose 32 counters see a tile event; the core counters' events are not seen here. -/
def State.perf (s : State) (tile : Nat) (e : PerfEvt) : State :=
  if s.hmkFenced then s
  else
    (s.copiesSet HMK_PC_CFG.EN).foldl (fun s n =>
      if (decide (n < 256 ∧ n / 32 = tile) || decide (256 ≤ n ∧ n < 272)) && s.perfMatch n e then
        if s.perfValue n == 281474976710655 then s.perfWrap n 0 else s.setPerf n (s.perfValue n + 1)
      else s) s

/-! ### Rings (R55–R62, R70–R73, R83–R86) -/

/-- The addresses in host memory of ring `n`'s area and completion area, and of a function's doorbell and status blocks
(R61, R63, R70). -/
def State.ringBase (s : State) (n : Nat) : Nat :=
  s.getF HIF_RING_BASE_HI.ADDR n * 4294967296 + s.getF HIF_RING_BASE_LO.ADDR n * 64
def State.cqBase (s : State) (n : Nat) : Nat :=
  s.getF HIF_RING_CQ_HI.ADDR n * 4294967296 + s.getF HIF_RING_CQ_LO.ADDR n * 64
def State.dbBase (s : State) (f : Nat) : Nat :=
  s.getF HIF_FN_DB_HI.ADDR f * 4294967296 + s.getF HIF_FN_DB_LO.ADDR f * 2048
def State.sbBase (s : State) (f : Nat) : Nat :=
  s.getF HIF_FN_SB_HI.ADDR f * 4294967296 + s.getF HIF_FN_SB_LO.ADDR f * 2048

/-- A DMA read or write of function `f` at `addr`, as the performance counters see it (R528). -/
def State.dmaRead (s : State) (f addr : Nat) : State := s.perf 8 { code := 0x20, fn := some f, addr := some addr }
def State.dmaWrite (s : State) (f addr : Nat) : State := s.perf 8 { code := 0x22, fn := some f, addr := some addr }

def State.ringState (s : State) (n : Nat) : Nat := s.getF HIF_RING_STAT.STATE n
def State.ringType (s : State) (n : Nat) : Nat := s.getF HIF_RING_CFG.TYPE n
def State.ringFn (s : State) (n : Nat) : Nat := s.getF HIF_RING_CFG.FUNC n
def State.ringSize (s : State) (n : Nat) : Nat := 2 ^ s.getF HIF_RING_CFG.SIZE_LOG2 n

/-- Whether ring `n` is enabled, running and of type `t`. -/
def State.ringIs (s : State) (n t : Nat) : Bool := s.ringState n == 1 && s.ringType n == t

/-- PHASE of the entry with index `idx` (R71). -/
def State.phaseBit (s : State) (n idx : Nat) : Nat := (1 + idx / s.ringSize n) % 2

/-- The bytes of doublewords as they stand in host memory (R4): a completion, an entry, a status-block entry. -/
def hostBytes (l : List Nat) : Bytes := wordsLE (l.map (BitVec.ofNat 32))

/-- An MSI-X message of function `f` (R72): held pending while its vector is masked. -/
def State.msix (s : State) (f v : Nat) : State :=
  if s.isF HIF_MSIX_CTRL.MASK (f * 256 + v) then s.upFn f (fun x => { x with pba := x.pba ||| (1 <<< v) })
  else (s.emit (.msix f v)).perf 8 { code := 0x26, fn := some f }

/-- A ring's interrupt fires (R72). -/
def State.ringInterrupt (s : State) (n : Nat) : State :=
  let s := s.upRing n (fun r => { r with sinceInt := 0, timer := false, intDue := false })
  s.msix (s.ringFn n) (s.getF HIF_RING_CFG.VECTOR n)

/-- The status-block entry of ring `n` (R70): the consumer index of a descriptor ring, the producer index of an entry
ring. -/
def State.statusBlock (s : State) (n : Nat) : State :=
  let r := s.ring n
  let idx := if s.ringType n == 3 || s.ringType n == 6 then r.prod else r.cons
  let s := s.upRing n (fun r => { r with sbAt := some s.time.tclk, sbDue := false })
  let s := s.dmaWrite (s.ringFn n) (s.sbBase (s.ringFn n) + 8 * n)
  s.emit (.statusBlock (s.ringFn n) n (hostBytes [idx, s.getF HIF_RING_GEN.GEN n]))

/-- Whether 250 ns have passed since the last status-block write of ring `n` (R70), 62.5 cycles of TCLK; without TCLK there
is no time to count. -/
def State.sbOpen (s : State) (n : Nat) : Bool :=
  !s.time.running ||
  (match (s.ring n).sbAt with
   | none => true
   | some t => decide (t + 63 ≤ s.time.tclk) || decide (s.time.tclk < t))

/-- Ring `n`'s interrupt, after the status-block write of what it signals (R72). -/
def State.ringSignal (s : State) (n : Nat) : State :=
  if (s.ring n).sbDue then s.upRing n (fun r => { r with intDue := true }) else s.ringInterrupt n

/-- Status-block writes that were due are made once 250 ns have passed, and the interrupts that waited for them follow
(R70, R72). -/
def State.flushStatus (s : State) : State :=
  (Tab.keys s.rings).foldl (fun s n =>
    if (s.ring n).sbDue && s.sbOpen n then
      let s := s.statusBlock n
      if (s.ring n).intDue then s.ringInterrupt n else s
    else s) s

/-- A step on an empty queue (log entry 2): one TCLK edge passes, and status-block writes that it makes due are made. -/
def State.idle (s : State) : State := (s.edges 1).flushStatus

/-- One entry or completion has been written to ring `n` (R70, R72, R520): it is counted, the status block follows, at
most once per 250 ns, and the interrupt fires at MOD_COUNT or its timer starts. -/
def State.ringWrote (s : State) (n : Nat) : State :=
  let s := s.countS (group 6 n) 3
  let s := if s.sbOpen n then s.statusBlock n else s.upRing n (fun r => { r with sbDue := true })
  let s := s.upRing n (fun r => { r with sinceInt := r.sinceInt + 1 })
  let m := s.getF HIF_RING_MOD.MOD_COUNT n
  if m != 0 && decide (m ≤ (s.ring n).sinceInt) then s.ringSignal n
  else if s.isF HIF_RING_MOD.MOD_TIME n then s.upRing n (fun r => { r with timer := true })
  else s

/-- A completion (R83) in the next slot of descriptor ring `n`: PHASE is added to DW3. -/
def State.complete (s : State) (n : Nat) (d0 d1 d2 d3 : Nat) : State :=
  let idx := (s.ring n).cons
  let s := s.dmaWrite (s.ringFn n) (s.cqBase n + 16 * (idx % s.ringSize n))
  let s := s.emit (.completion n idx (hostBytes [d0, d1, d2, d3 + s.phaseBit n idx * 2147483648]))
  let s := s.upRing n (fun r => { r with cons := (r.cons + 1) % 4294967296 })
  s.ringWrote n

/-- Whether a command descriptor's OPCODE is in the table of R101. -/
def opcodeKnown (op : Nat) : Bool :=
  op == 0x01 || decide (0x10 ≤ op ∧ op ≤ 0x16) || decide (0x20 ≤ op ∧ op ≤ 0x25) || op == 0x30 || op == 0x31 ||
  op == 0x40 || op == 0x41 || op == 0x50 || op == 0x51 || op == 0x60 || op == 0x70 ||
  decide (0x80 ≤ op ∧ op ≤ 0x84) || op == 0x90 || op == 0xA0 || op == 0xA1 || op == 0xB0 || op == 0xB1 || op == 0xC0

/-- Command descriptors at the front of COMMAND ring `n` with an unknown opcode complete with BADARG (R87, R99). -/
def State.settleCmds (s : State) (n : Nat) : Nat → State
  | 0 => s
  | k + 1 =>
    match (s.ring n).fetched with
    | [] => s
    | d :: rest =>
      if opcodeKnown (dw d.words 0 % 256) then s
      else ((s.upRing n (fun r => { r with fetched := rest })).complete n (dw d.words 1) 0 0 (6 * 16777216)).settleCmds n k

/-- The ring number that a command of firmware's carries once its ring has been stopped under it (R54, R420). -/
def noRing : Nat := 256

/-- A command's completion (R83, R87): STATUS, RESULT0, RESULT1 and REASON; its descriptor leaves the ring's front.  A
command whose ring has been stopped under it completes nowhere (R54, R99). -/
def State.done (s : State) (c : Cmd) (status : Nat) (r0 : Nat := 0) (r1 : Nat := 0) (reason : Nat := 0) : State :=
  if noRing ≤ c.ring then s
  else
  let s := s.upRing c.ring (fun r => { r with fetched := r.fetched.drop 1 })
  let s := s.complete c.ring c.cookie.toNat r0 r1 (status * 16777216 + reason % 65536)
  s.settleCmds c.ring ((s.ring c.ring).fetched.length + 1)

/-- An entry written at the producer index of entry ring `n` (R57, R71, R84–R86), with OVF when one was lost. -/
def State.writeEntry (s : State) (n : Nat) (e : Entry) : State :=
  let r := s.ring n
  let d3 := e.dw3.toNat + s.phaseBit n r.prod * 2147483648 + flag r.ovf * 1073741824
  let s := s.dmaWrite (s.ringFn n) (s.ringBase n + 16 * (r.prod % s.ringSize n))
  let s := s.emit (.entry n r.prod (hostBytes [e.dw0.toNat, e.dw1.toNat, e.dw2.toNat, d3]))
  let s := s.upRing n (fun r => { r with prod := (r.prod + 1) % 4294967296, ovf := false })
  s.ringWrote n

/-- Entries a ring holds (R57). -/
def ringUsed (r : Ring) : Nat := (r.prod + 4294967296 - r.cons) % 4294967296

/-- An entry for entry ring `n` (R86): written, held behind others when the ring is full, or, past 64 held, discarded,
counted and reported by OVF. -/
def State.pushEntry (s : State) (n : Nat) (e : Entry) : State :=
  let r := s.ring n
  if r.hold.isEmpty && decide (ringUsed r < s.ringSize n) then s.writeEntry n e
  else if r.hold.length < 64 then s.upRing n (fun r => { r with hold := r.hold ++ [e] })
  else (s.countS (group 6 n) 4).upRing n (fun r => { r with ovf := true })

/-! ### Events (R84, R113) -/

/-- Whether port `p` is in VF `f`'s grant (R52, R103). -/
def State.granted (s : State) (f p : Nat) : Bool := bit (s.fn f).grant.ports p

/-- An event of class `cls` (R113): to every enabled EVENT ring whose AUX mask holds the class, of the PF or of a VF
that it concerns, and to the trace (R533). -/
def State.event (s : State) (cls code source d0 d1 : Nat) (concerns : Nat → Bool := fun _ => false) : State :=
  let e : Entry := { dw0 := BitVec.ofNat 32 (code + (source % 65536) * 65536), dw1 := BitVec.ofNat 32 d0,
                     dw2 := BitVec.ofNat 32 d1, dw3 := BitVec.ofNat 32 (s.frameCount % 16777216) }
  let s := (Tab.keys s.rings).foldl (fun s n =>
    if s.ringIs n 3 && bit (s.getF HIF_RING_CFG.AUX n) cls &&
        (s.ringFn n == 0 || concerns (s.ringFn n)) then s.pushEntry n e else s) s
  if s.isF HMK_TRACE_CFG.EVT_EN then s.trace 2 cls [e.dw0, e.dw1, e.dw2, e.dw3] else s

/-! ### Error counters (R518, R519, R523) -/

/-- Whether VF `f` owns flow `h` (R260). -/
def State.ownsFlowIn (s : State) (f h : Nat) : Bool :=
  (s.tables.flowsAct ++ s.tables.flowsShd).any (fun x => x.handle == h && x.owner == f)

/-- Whether VF `f` reaches group `g` (R523): its kind is in CNT_KINDS and its instance is the VF's. -/
def State.vfReaches (s : State) (f g : Nat) : Bool :=
  let kind := g / 8192
  let inst := g % 8192
  bit (s.fn f).grant.kinds kind &&
  match kind with
  | 0 => decide (inst < 256) && s.granted f inst
  | 1 => (match s.laneOwner inst with | some p => s.granted f p | none => false)
  | 2 => decide (inst < 256) && s.granted f inst
  | 3 => decide (inst < 256) && s.granted f inst
  | 4 => (s.tables.flowsAct ++ s.tables.flowsShd).any (fun x => x.handle / 8 == inst && x.owner == f)
  | 6 => decide (inst < 256) && s.ringFn inst == f
  | _ => false

/-- An error counter raised by `n` (R518, R519, kind E): COUNTER_EVENT once per clear, at THRESH or at saturation. -/
def State.countE (s : State) (g k : Nat) (n : Nat := 1) : State :=
  let v := sat 0xFFFFFFFF (s.counter g k + n)
  let s := s.setCounter g k v
  let th := s.getF HMK_ERR_THRESH.THRESH
  let full := v == 0xFFFFFFFF
  let s := if full then s.orF HMK_HIST.STAT_SAT 1 else s
  if (full || (th != 0 && decide (th ≤ v))) && Tab.getD s.counters.told (g * 512 + k) 0 == 0 then
    let s := { s with counters := { s.counters with told := Tab.set s.counters.told (g * 512 + k) 1 } }
    s.event 6 0x0060 g k 0 (fun f => s.vfReaches f g)
  else s

/-! ### Ring errors (R58, R77) -/

/-- Ring `n` stops in ERROR with `reason` (R56, R58, R62, R77), without an event. -/
def State.ringFail (s : State) (n reason : Nat) : State :=
  (s.setF HIF_RING_STAT.STATE 3 n).setF HIF_RING_STAT.REASON reason n

/-- RING_ERR (R58, R77, R113): ring `n` stops and the event names the reason and a descriptor index. -/
def State.ringErr (s : State) (n reason idx : Nat) : State :=
  let s := s.ringFail n reason
  s.event 1 0x0010 n reason idx (fun f => s.ringFn n == f)

end Sys2Proof.Machine
end

