-- ==== Sys2Proof/Machine/Flags.lean ====
section
/-!
DEFINITION. How flags are computed: what a write does to a register field by its access code (R10–R12), the status codes
of completions and their order of precedence (R87, R88), and the flags of a transmit completion (R83).
-/

namespace Sys2Proof.Machine

/-- What writing `v` to a field of width `w` that holds `old` leaves in it (R10): RW stores, RO keeps, W1C clears and W1S
sets the bits written as 1; a WO field stores nothing. -/
def accWrite (a : Acc) (old v : Nat) : Nat :=
  match a with
  | .rw => v
  | .ro => old
  | .w1c => old - (old &&& v)
  | .w1s => old ||| v
  | .wo => old

/-- What reading a field that holds `v` returns (R10): 0 for a WO field. -/
def accRead (a : Acc) (v : Nat) : Nat :=
  match a with
  | .wo => 0
  | _ => v

/-! ### Status codes (R87) -/

def stOk : Nat := 0
def stBusy : Nat := 1
def stPast : Nat := 2
def stNoSpace : Nat := 3
def stAdmitDeny : Nat := 4
def stFenced : Nat := 5
def stBadArg : Nat := 6
def stAuth : Nat := 7
def stTrunc : Nat := 8
def stStampMissing : Nat := 9
def stLate : Nat := 10

/-- The order in which a transmit completion's STATUS is chosen when several codes apply (R88). -/
def txStatusOrder : List Nat := [stBadArg, stAuth, stFenced, stNoSpace, stPast, stLate, stStampMissing]

/-- The STATUS of a transmit completion to which the codes `l` apply (R88). -/
def txStatus (l : List Nat) : Nat := firstD txStatusOrder (fun c => l.contains c) stOk

/-- DW1 of a transmit completion (R83): LATE_F, STAMP_MISS_F and DROP_REASON. -/
def txDw1 (late miss : Bool) (drop : Nat) : Nat := flag late + 2 * flag miss + 256 * (drop % 256)

end Sys2Proof.Machine
end

