-- ==== Sys2Proof/Machine/Frames.lean ====
section
/-!
DEFINITION. What holds for a frame wherever it is inside the device: its charge (R210–R214), its epoch (R178–R180), the
completion of a direct-mode frame (R88, R89, R241), and what a drop counts and releases (R249).
-/

namespace Sys2Proof.Machine

/-! ### Sizes -/

/-- Cells charged for a frame of `len` bytes without FCS (R210). -/
def frameCells (len : Nat) : Nat := ceilDiv (len + 32) 240

/-- 256-byte pages that a frame of `len` bytes takes in an egress buffer (R216; log entry 10). -/
def framePages (len : Nat) : Nat := ceilDiv len 256

/-- Octets of a frame on the counters of R520: `len` bytes without FCS, and the 4 of the FCS. -/
def frameOctets (len : Nat) : Nat := len + 4

/-! ### Accounting (R210–R213) -/

/-- Cells charged in region `r` (0 GUAR, 1 SHARED, 2 HDRM, 3 HP) to port `p` and class `c`. -/
def acctKey (r p c : Nat) : Nat := r * 65536 + p * 8 + c
def State.acctOf (s : State) (r p c : Nat) : Nat := Tab.getD s.acct (acctKey r p c) 0
def State.setAcct (s : State) (r p c n : Nat) : State := { s with acct := Tab.setD s.acct (acctKey r p c) n 0 }

/-- Cells charged in a whole region. -/
def State.acctSum (s : State) (r : Nat) : Nat :=
  s.acct.foldl (fun n e => if e.1 / 65536 = r then n + e.2 else n) 0

/-- The guarantee of port `p` for class `c` in cells (R212). -/
def State.guarOf (s : State) (p c : Nat) : Nat :=
  16 * (if p = 256 then s.getF GLB_BUF_LOGICAL.GUAR_256
        else if p = 257 then s.getF GLB_BUF_LOGICAL.GUAR_257
        else if c < 4 then bits (s.getF TIL_BUF_GUAR0.GUAR_C p) (8 * c) 8
        else bits (s.getF TIL_BUF_GUAR1.GUAR_C p) (8 * (c - 4)) 8)

/-- The headroom of port `p` for class `c` in cells (R212); ports 256 and 257 have none. -/
def State.hdrmOf (s : State) (p c : Nat) : Nat :=
  if decide (256 ≤ p) then 0
  else 16 * (if c < 4 then bits (s.getF TIL_BUF_HDRM0.HDRM_C p) (8 * c) 8
             else bits (s.getF TIL_BUF_HDRM1.HDRM_C p) (8 * (c - 4)) 8)

/-- The sum of a field's bytes over its 256 copies: `dflt` per copy at reset, changed by the copies listed. -/
def State.byteSum (s : State) (f : Fld) : Int :=
  let byteTotal : Nat → Nat := fun v => bits v 0 8 + bits v 8 8 + bits v 16 8 + bits v 24 8
  s.regs.foldl (fun n e => if e.1 / 65536 = f.id then n + byteTotal e.2 - byteTotal f.reset else n)
    (256 * byteTotal f.reset : Nat)

/-- The shared pool in cells (R212): what HP_POOL, every guarantee and every headroom leave of 786,432. -/
def State.sharedSize (s : State) : Int :=
  786432 - s.getF GLB_BUF_HP.HP_POOL
  - 16 * (s.byteSum TIL_BUF_GUAR0.GUAR_C + s.byteSum TIL_BUF_GUAR1.GUAR_C
          + 6 * s.getF GLB_BUF_LOGICAL.GUAR_256 + 6 * s.getF GLB_BUF_LOGICAL.GUAR_257)
  - 16 * (s.byteSum TIL_BUF_HDRM0.HDRM_C + s.byteSum TIL_BUF_HDRM1.HDRM_C)

/-- The free shared pool (R212). -/
def State.sharedFree (s : State) : Int := s.sharedSize - s.acctSum 1

/-- The dynamic threshold of class `c` (R212): α × free, α = 2^(ALPHA − 4), ALPHA above 7 acting as 7. -/
def State.sharedLimit (s : State) (c : Nat) : Int :=
  let a := sat 7 (bits (s.getF GLB_BUF_ALPHA.ALPHA_C) (4 * c) 4)
  s.sharedFree * 2 ^ a / 16

/-- Whether port `p` has flow control for class `c` (R213): the class in PFC_CLASSES, or PAUSE mode. -/
def State.pfcEnabled (s : State) (p c : Nat) : Bool :=
  decide (p < 256) && (bit (s.getF TIL_PORT_PAUSE.PFC_CLASSES p) c || s.getF TIL_PORT_CFG.FC p == 1)

/-- The flow-control frame that asserts or releases class `c` of port `p` (R144), if its mode sends one. -/
def State.fcFrame (s : State) (p c quanta : Nat) : Option FcFrame :=
  if s.getF TIL_PORT_CFG.FC p == 2 then
    some (.pfc (1 <<< c) ((List.range 8).map (fun i => if i = c then quanta else 0)))
  else if s.getF TIL_PORT_CFG.FC p == 1 then some (.pause quanta)
  else none

/-- A flow-control frame put in line at port `p`'s transmitter, which it wakes (R135, R144). -/
def State.queueFc (s : State) (p : Nat) : Option FcFrame → State
  | some f => (s.setF TIL_PORT_STAT.TX_LPI 0 p).upPort p (fun x => { x with fcOut := x.fcOut ++ [f] })
  | none => s

/-- XOFF for port `p` and class `c` (R213, R144): in PAUSE mode a frame goes out only with the first class. -/
def State.xoff (s : State) (p c : Nat) : State :=
  let old := s.getF TIL_BUF_STAT.XOFF p
  if bit old c then s
  else
    let s := s.orF TIL_BUF_STAT.XOFF (1 <<< c) p
    if s.getF TIL_PORT_CFG.FC p == 1 && old != 0 then s else s.queueFc p (s.fcFrame p c 0xFFFF)

/-- XON for port `p` and class `c` where R213 allows it: headroom empty and the shared part below the hysteresis. -/
def State.xonTry (s : State) (p c : Nat) : State :=
  let gap : Int := 16 * s.getF TIL_BUF_XON.XON_GAP p
  if bit (s.getF TIL_BUF_STAT.XOFF p) c && s.acctOf 2 p c == 0 &&
      decide ((s.acctOf 1 p c : Int) ≤ s.sharedLimit c - gap) then
    let s := s.clrF TIL_BUF_STAT.XOFF (1 <<< c) p
    if s.getF TIL_PORT_CFG.FC p == 1 && s.getF TIL_BUF_STAT.XOFF p != 0 then s
    else s.queueFc p (s.fcFrame p c 0)
  else s

/-- Every XON that a release of cells has made due (R213). -/
def State.xonAll (s : State) : State :=
  (s.copiesSet TIL_BUF_STAT.XOFF).foldl (fun s p => (List.range 6).foldl (fun s c => s.xonTry p c) s) s

/-- Outcome of buffer admission (R211, R212): the region charged, or the drop reason. -/
inductive Admit where
  | charged (region : Nat)
  | refused (reason : Nat)
  deriving DecidableEq, Repr

/-- The test of R211 and R212 for `n` cells of port `p` and class `c`, and whether the shared test refused. -/
def State.admitTest (s : State) (p c n : Nat) : Admit × Bool :=
  if decide (6 ≤ c) then
    (if s.acctSum 3 + n ≤ s.getF GLB_BUF_HP.HP_POOL then .charged 3 else .refused 0x23, false)
  else if s.acctOf 0 p c + n ≤ s.guarOf p c then (.charged 0, false)
  else if (n : Int) ≤ s.sharedFree ∧ ((s.acctOf 1 p c + n : Nat) : Int) ≤ s.sharedLimit c then (.charged 1, false)
  else if s.pfcEnabled p c then
    (if s.acctOf 2 p c + n ≤ s.hdrmOf p c then .charged 2 else .refused 0x22, true)
  else (.refused 0x21, true)

/-- Buffer admission (R210–R213): the charge, and XOFF where the shared test refuses a class with flow control, which XON
follows at once where its condition holds already. -/
def State.admitCells (s : State) (p c n : Nat) : Admit × State :=
  let r := s.admitTest p c n
  let fc := r.2 && s.pfcEnabled p c
  let s := if fc then s.xoff p c else s
  let s := match r.1 with
    | .charged g => s.setAcct g p c (s.acctOf g p c + n)
    | .refused _ => s
  (r.1, if fc then s.xonTry p c else s)

/-- A charge returned to the region named in REGION (R210, R212), and the XON that may follow. -/
def State.release (s : State) (r p c n : Nat) : State :=
  if r < 4 then (s.setAcct r p c (s.acctOf r p c - n)).xonAll else s

/-! ### Epochs (R178–R180) -/

/-- One more frame counts to the epoch with serial `e`. -/
def State.epochIn (s : State) (e : Nat) : State :=
  { s with epochs := { s.epochs with count := Tab.setD s.epochs.count e (Tab.getD s.epochs.count e 0 + 1) 0 } }

/-- One frame less counts to the epoch with serial `e`. -/
def State.epochOut (s : State) (e : Nat) : State :=
  { s with epochs := { s.epochs with count := Tab.setD s.epochs.count e (Tab.getD s.epochs.count e 0 - 1) 0 } }

/-- A frame is gone (R180, R210): its cells return and it no longer counts toward its epoch. -/
def State.finish (s : State) (f : Frame) : State :=
  let s := s.release f.region f.inPort f.res.cls f.cells
  if f.counted then s.epochOut f.res.epoch else s

/-- Output tile `t` has done with multicast frame `uid` (R180, R209, R214): with the last tile the frame's own charge,
unless a copy took it over, and its own count end. -/
def State.mcDone (s : State) (uid t : Nat) : State :=
  match Tab.get? s.fabric.tokens uid with
  | none => s
  | some k =>
    let left := putBit k.left t false
    if left = 0 then
      let s := { s with fabric := { s.fabric with tokens := Tab.erase s.fabric.tokens uid } }
      let s := if k.taken then s else s.release k.frame.region k.frame.inPort k.frame.res.cls k.frame.cells
      if k.frame.counted then s.epochOut k.frame.res.epoch else s
    else { s with fabric := { s.fabric with tokens := Tab.set s.fabric.tokens uid { k with left := left } } }

/-! ### Completions of transmit frames (R83, R88) -/

/-- All descriptors of a direct-mode or lookup-mode frame complete alike (R88), unless their ring has stopped. -/
def State.txComplete (s : State) (d : Direct) (codes : List Nat) (late miss : Bool) (drop : Nat) : State :=
  match d.ring with
  | none => s
  | some r =>
    if s.ringState r != 0 && (s.ring r).era == d.era then
      d.cookies.foldl (fun s c => s.complete r c.2.toNat (txDw1 late miss drop) 0 (txStatus codes * 16777216)) s
    else s

/-! ### Drops (R249) -/

/-- A drop counted per ingress port and class (R249, R520). -/
def State.countIngress (s : State) (p c code : Nat) : State := s.countS (group 2 p) (c * 64 + code)

/-- The queue number of R520 of an egress queue slot: the classes, and 8 and 9 for the launch-time queues. -/
def slotNumber (slot : Nat) : Nat := if slot = 10 then 7 else slot

/-- A drop counted per egress queue (R249, R520). -/
def State.countQueue (s : State) (p slot code : Nat) : State :=
  s.countS (group 3 p) (slotNumber slot * 32 + (if decide (0x40 ≤ code) then code - 0x40 + 10 else code - 0x30 + 2))

/-- A frame dropped at ingress or in the fabric, a direct-mode frame of the host in a spilled queue among them, which
completes with its DROP_REASON (R89, R241). -/
def State.dropIngress (s : State) (f : Frame) (code : Nat) : State :=
  let s := (s.countIngress f.inPort f.res.cls code).finish f
  match f.direct with
  | some d => s.txComplete d [] false false code
  | none => s

/-- A frame dropped at an egress queue: a direct-mode frame completes with its DROP_REASON (R241), with PAST for
LAUNCH_PAST. -/
def State.dropEgress (s : State) (p slot : Nat) (f : Frame) (code : Nat) : State :=
  let s := (s.countQueue p slot code).finish f
  match f.direct with
  | some d => s.txComplete d (if code = 0x35 then [stPast] else []) false false code
  | none => s

/-! ### Egress queues -/

/-- The key of a queue slot of a port. -/
def queueKey (p slot : Nat) : Nat := p * 16 + slot

/-- The frames of a queue in order: on the tile, then spilled. -/
def EQueue.frames (q : EQueue) : List Frame := q.onTile ++ q.tail.map (fun x => x.frame)

/-- Pages of the on-tile part. -/
def EQueue.pages (q : EQueue) : Nat := q.onTile.foldl (fun n f => n + framePages f.bytes.length) 0

/-- Cells of a queue, on-tile and spilled together (R219). -/
def EQueue.cells (q : EQueue) : Nat := q.frames.foldl (fun n f => n + frameCells f.bytes.length) 0

/-- The spill cells of queue `k` removed from every bank (R222, R424). -/
def State.dropSpill (s : State) (k : Nat) : State :=
  { s with fabric := { s.fabric with
      banks := s.fabric.banks.map (fun b => (b.1, { b.2 with spill := b.2.spill.filter (fun x => x.1 != k) })) } }

/-- A queue emptied under `code` (R147, R424), each frame counted as flushed when `flushed`. -/
def State.flushQueue (s : State) (p slot code : Nat) (flushed : Bool) : State :=
  let k := queueKey p slot
  let fs := (s.queue k).frames
  let s := ({ s with queues := Tab.erase s.queues k }).dropSpill k
  fs.foldl (fun s f =>
    let s := s.dropEgress p slot f code
    if flushed then s.countS (group 0 p) 29 else s) s

/-- Every queue of a front-panel port flushed under PORT_DOWN (R147 step 3). -/
def State.flushPort (s : State) (p : Nat) : State :=
  [0, 1, 2, 3, 4, 5, 6, 7, 10, 8, 9].foldl (fun s slot => s.flushQueue p slot 0x33 true) s

end Sys2Proof.Machine
end

