-- ==== Sys2Proof/Machine/Links.lean ====
section
/-!
DEFINITION. A port going down or changing state: LINK_CHANGE (R146), the link-down sequence (R147, R152), protection
groups (R243–R247), the suspension of phase service (R339), and adaptation freezing (R131).
-/

namespace Sys2Proof.Machine

/-- A port's state is set, without an event. -/
def State.setPortState (s : State) (p st : Nat) : State := s.setF TIL_PORT_STAT.STATE st p

/-- LINK_CHANGE for port `p` (R146). -/
def State.linkChange (s : State) (p : Nat) : State :=
  s.event 2 0x0020 p (s.portState p + s.getF TIL_PORT_STAT.CAUSE p * 256) (s.getF TIL_PORT_STAT.FAILED_LANES p)
    (fun f => s.granted f p)

/-! ### Adaptation (R131) -/

/-- Whether lane `l` of port `p` must hold its adaptation frozen (R131). -/
def State.mustFreeze (s : State) (p l : Nat) : Bool :=
  s.isF TIL_PORT_STAT.RX_LPI p || (s.lane l).nonRandom || s.isF TIL_PORT_ADAPT.FREEZE_FORCE p ||
  !(s.portState p == 5 || s.portState p == 4)

/-- The lanes of port `p` that lie on its tile and belong to no other port (R118). -/
def State.ownLanes (s : State) (p : Nat) : List Nat :=
  (s.portLanes p).filter (fun l => l / 32 == p / 32 && (s.laneOwner l).getD p == p)

/-- FROZEN of every lane of port `p` where R131 demands it; a resumption waits for 2^20 unit intervals of random data. -/
def State.freezeLanes (s : State) (p : Nat) : State :=
  (s.ownLanes p).foldl (fun s l => if s.mustFreeze p l then s.setF TIL_LANE_STAT.FROZEN 1 l else s) s

/-! ### Phase service (R330, R339) -/

/-- Whether a mode with an FEC has an anchor (R330). -/
def hasAnchor (mode fec : Nat) : Bool :=
  if mode == 0 || mode == 2 then fec == 0
  else if mode == 1 || mode == 3 || mode == 5 then fec == 1
  else decide (mode < 16) && fec == 2

/-- Whether phase service is enabled on a port that can have it. -/
def State.phaseOn (s : State) (p : Nat) : Bool :=
  s.isF TPL_PH_PORT.PH_EN p && hasAnchor (s.portMode p) (s.getF TIL_PORT_CFG.FEC p)

/-! ### References that a port feeds (R363, R366, R367) -/

def State.refState (s : State) (i : Nat) : Nat := s.getF TPL_REF_STAT.STATE i

/-- TPL_REF_HIST as a doubleword. -/
def State.refHist (s : State) (i : Nat) : Nat :=
  s.getF TPL_REF_HIST.ACT_LOSS i + 2 * s.getF TPL_REF_HIST.FAST_FAIL i + 4 * s.getF TPL_REF_HIST.HARD_FAIL i +
  8 * s.getF TPL_REF_HIST.DRIFT_FAIL i + 16 * s.getF TPL_REF_HIST.SOFT_SEEN i + 32 * s.getF TPL_REF_HIST.DNU_SEEN i +
  64 * s.getF TPL_REF_HIST.QUALIFIED_SEEN i

/-- Reference `i` enters state `st` (R367). -/
def State.setRef (s : State) (i st : Nat) : State :=
  if s.refState i = st then s
  else
    let was := s.refState i
    let s := s.setF TPL_REF_STAT.STATE st i
    let s := if st = 3 then s.setF TPL_REF_HIST.QUALIFIED_SEEN 1 i else s
    let s := if st = 4 then s.setF TPL_REF_HIST.SOFT_SEEN 1 i else s
    let s := if st = 1 then s.upRef i (fun x => { x with fresh := was == 0 }) else s
    let s := if st = 2 then s.upRef i (fun x => { x with gateOk := false, qualOk := false }) else s
    let s := if st = 3 ∧ was ≠ 4 then s.upRef i (fun x => { x with qualAt := s.time.tclk }) else s
    if bit (s.getF TPL_CS_IRQ.REF_MASK) st then s.event 5 0x0051 (0x100 + i) st (s.refHist i) else s

/-- A check of reference `i` has failed: it is disqualified, unless it is UNUSED. -/
def State.failRef (s : State) (i : Nat) : State := if s.refState i = 0 then s else s.setRef i 1

/-- Whether the slot of reference `i` has activity (R363). -/
def State.slotActive (s : State) (i : Nat) : Bool :=
  let p := s.getF TPL_REF_SLOT.PORT i
  let l := s.getF TPL_REF_SLOT.LANE i
  decide (l < modeLanes (s.portMode p)) && s.portState p == 5 && s.isF TIL_LANE_STAT.CDR_LOCK (p + l)

/-- The monitored references whose slots port `p` feeds (R363). -/
def State.slotsOf (s : State) (p : Nat) : List Nat :=
  ((List.range 16).map (8 + ·)).filter (fun i => s.isF TPL_REF_CFG.MON_EN i && s.getF TPL_REF_SLOT.PORT i == p &&
    decide (s.getF TPL_REF_SLOT.LANE i < modeLanes (s.portMode p)))

/-- The recovered-clock slots that port `p` feeds lose their activity (R363): they are disqualified. -/
def State.slotsLost (s : State) (p : Nat) : State :=
  (s.slotsOf p).foldl (fun s i => (s.setF TPL_REF_HIST.ACT_LOSS 1 i).failRef i) s

/-- GATE in tenths of a second; a PPS reference measures whole pulse periods, so at least 1 s (R366). -/
def State.gateTenths (s : State) (i : Nat) : Nat :=
  let g := [1, 10, 100, 100].getD (s.getF TPL_REF_MON1.GATE i) 10
  if i < 8 ∧ s.isF TPL_REF_CFG.TYPE i then max 10 g else g

/-- Whether |offset| exceeds `num / den` of `v` × 10 ppb (R366). -/
def offExceeds (f : Int) (v num den : Nat) : Bool := decide (v * 10 * num * 2 ^ 40 < f.natAbs * 1000000000 * den)

/-- Σ (2 j − 15) y over the last 16 gates: 680 × the gate × their least-squares slope (R366); none before 16 gates. -/
def slope16 (g : List Int) : Option Int :=
  if g.length < 16 then none
  else some ((List.range 16).foldl (fun a (j : Nat) => a + (15 - 2 * (j : Int)) * g.getD j 0) 0)

/-- Whether the drift of reference `i` exceeds `num / den` of `v` × 0.1 ppb/s (R366); 0 turns the check off. -/
def State.driftExceeds (s : State) (i v num den : Nat) : Bool :=
  v != 0 &&
  match slope16 (s.refr i).gates with
  | some n => decide (v * 680 * s.gateTenths i * num * 2 ^ 40 < n.natAbs * 100000000000 * den)
  | none => false

/-- Whether the offset of the last gate and the drift of reference `i` lie within 3/4 of HARD and DRIFT_HARD (R367). -/
def State.withinHard (s : State) (i : Nat) : Bool :=
  !offExceeds (signed 32 (s.getF TPL_REF_FOFF.FOFF i)) (s.getF TPL_REF_MON1.HARD i) 3 4 &&
  !s.driftExceeds i (s.getF TPL_REF_MON2.DRIFT_HARD i) 3 4

/-- A disqualified slot that has activity, DNU 0 and a last gate within the limits is QUALIFYING (R367). -/
def State.requalifySlot (s : State) (i : Nat) : State :=
  if s.refState i == 1 && s.slotActive i && !s.isF TPL_REF_CFG.DNU i && !(s.refr i).gates.isEmpty && s.withinHard i then
    s.setRef i 2 else s

/-- The slots that port `p` feeds have activity once it is UP (R363). -/
def State.slotsBack (s : State) (p : Nat) : State := (s.slotsOf p).foldl (fun s i => s.requalifySlot i) s

/-- Phase service of port `p` is suspended (R339): the window stops, VALID clears, and firmware shows WAIT. -/
def State.suspendPhase (s : State) (p : Nat) : State :=
  let s := s.upPhase p (fun _ => {})
  let s := s.setF TPL_PH_STAT.VALID 0 p
  if s.phaseOn p && s.fw.running then s.setF TPL_PH_STAT.SERVICE 1 p else s

/-- Whether a wider port leaves port number `p` unused (R118, R348). -/
def State.portUnused (s : State) (p : Nat) : Bool := match s.laneOwner p with | some q => q != p | none => false

/-! ### Protection groups (R243–R247) -/

/-- The group that port `p` belongs to, as primary or backup. -/
def State.pgOf (s : State) (p : Nat) : Option Nat :=
  (s.pgs.find? (fun e => e.2.primary == p || e.2.backup == p)).map (fun e => e.1)

/-- Group `g` changes position (R245): every later lookup result and arrival follows it, and GLB_PG_STAT shows it.  How much
of the 1 µs its last step takes is not stated; it is a free value (log entry 56). -/
def State.pgMove (s : State) (g : Nat) (toBackup : Bool) : State :=
  match Tab.get? s.pgs g with
  | none => s
  | some x =>
    let d := s.draw
    let s := { d.2 with pgs := Tab.set s.pgs g { x with onBackup := toBackup, busyTo := s.time.tclk + d.1 % 251 } }
    if toBackup then s.orF GLB_PG_STAT.ON_BACKUP (1 <<< (g % 32)) (g / 32)
    else s.clrF GLB_PG_STAT.ON_BACKUP (1 <<< (g % 32)) (g / 32)

/-- The position that group `g` takes at once from its ports' states in automatic mode (R245, R247). -/
def State.pgEval (s : State) (g : Nat) : State :=
  match Tab.get? s.pgs g with
  | none => s
  | some x =>
    let pUp := s.portState x.primary == 5
    let bUp := s.portState x.backup == 5
    if x.forced.isSome then s
    else if !x.onBackup && !pUp && bUp then s.pgMove g true
    else if x.onBackup && !bUp && pUp then s.pgMove g false
    else s

/-- The protection logic sees a change of port `p` (R245, R247). -/
def State.pgPort (s : State) (p : Nat) : State :=
  match s.pgOf p with
  | some g => s.pgEval g
  | none => s

/-! ### Link down (R147, R152) -/

/-- The mask of the lanes of port `p` without signal, CDR lock or block lock (R126). -/
def State.failedLanes (s : State) (p : Nat) : Nat :=
  maskOf ((List.range (modeLanes (s.portMode p))).filter (fun k =>
    !s.isF TIL_LANE_STAT.SIGNAL (p + k) || !s.isF TIL_LANE_STAT.CDR_LOCK (p + k) || !s.isF TIL_LANE_STAT.LOCK (p + k)))

/-- The queue slot whose head counts as the frame in transmission when a port is taken out of service: the spec does not
say which frame it is (log entry 64). -/
def State.sendingSlot (s : State) (p : Nat) : Option Nat :=
  [8, 9, 7, 10, 6, 5, 4, 3, 2, 1, 0].find? (fun k => !(s.queue (queueKey p k)).onTile.isEmpty)

/-- Frames that are under way when a port is disabled or fenced (R141, R147 step 2): whether one was being received, and
whether one was being sent, the command does not tell; each is a free value.  A frame in transmission ends with an error
control character and counts as flushed. -/
def State.cutShort (s : State) (p : Nat) : State :=
  let d := s.draw
  let s := if d.1 % 2 = 1 then d.2.countE (group 0 p) 7 else d.2
  let e := s.draw
  match (if e.1 % 2 = 1 then e.2.sendingSlot p else none) with
  | none => e.2
  | some slot =>
    match (e.2.queue (queueKey p slot)).onTile with
    | [] => e.2
    | f :: rest =>
      let s := (e.2.upQueue (queueKey p slot) (fun q => { q with onTile := rest })).emit (.txFrame p f.bytes true 0)
      (s.dropEgress p slot f 0x33).countS (group 0 p) 29

/-- What the transmitter of a downed port sends (R147 step 2): remote fault for causes 1–6, idles for 7, nothing for 8
and 9. -/
def downSignal (cause : Nat) : Nat := if cause ≤ 6 then 1 else if cause = 7 then 2 else 0

/-- Whether link loss with `cause` does anything to a port (R125, R152): not on a disabled one, and on one in CFG_ERR only
the clearing of ENABLE. -/
def State.canGoDown (s : State) (p cause : Nat) : Bool :=
  s.portState p != 0 && (s.portState p != 6 || cause == 8)

/-- Step 1 of R147: the port's state and cause change.  A port whose ENABLE is cleared shows DISABLED at once, without DOWN
before it (log entry 64). -/
def State.enterDown (s : State) (p cause : Nat) : State :=
  let st := s.portState p
  let s := s.setPortState p (if cause = 8 then 0 else 1)
  let s := s.setF TIL_PORT_STAT.CAUSE cause p
  let s := s.setF TIL_PORT_HIST.DOWN_SEEN 1 p
  let s := if st == 4 then s.setF TIL_PORT_HIST.FLAP_IN_HOLDOFF 1 p else s
  s.countS (group 0 p) 30

/-- The rest of R147 on a port that was in state `st`; FAILED_LANES becomes `failed` (R126).  A port in CFG_ERR held no
lane, so nothing changes on a line. -/
def State.leaveLine (s : State) (p st cause failed : Nat) : State :=
    let s := s.pgPort p
    let s := if (cause == 8 || cause == 9) && (st == 5 || st == 4) then s.cutShort p else s
    let s := if st == 6 then s
      else (s.emit (.lineSignal p (downSignal cause))).upPort p (fun x => { x with line := downSignal cause })
    let s := (s.setF TIL_PORT_STAT.TX_LPI 0 p).setF TIL_PORT_STAT.RX_LPI 0 p
    let s := s.upPort p (fun x => { x with stopped := 0, ignore := 0, fcOut := [], trained := false })
    let s := s.flushPort p
    let s := if st == 5 then s.slotsLost p else s
    let s := s.suspendPhase p
    let s := s.freezeLanes p
    let s := s.setF TIL_PORT_STAT.FAILED_LANES failed p
    s.linkChange p

/-- Link loss on port `p` with `cause` and failed-lane mask `failed` (R125, R126, R145, R147, R152). -/
def State.portDown (s : State) (p cause failed : Nat) : State :=
  if s.canGoDown p cause then (s.enterDown p cause).leaveLine p (s.portState p) cause failed else s

/-- Link loss with cause 9 on every port of tile `t` (R125, R424): all of them are DOWN before any of the rest follows, so
that a protection group with both ports there stays where it is (R247). -/
def State.tileDown (s : State) (t : Nat) : State :=
  let ps := ((List.range 32).map (t * 32 + ·)).filter (fun p => s.canGoDown p 9)
  let was := ps.map (fun p => (p, s.portState p, s.failedLanes p))
  let s := ps.foldl (fun s p => s.enterDown p 9) s
  was.foldl (fun s e => s.leaveLine e.1 e.2.1 9 e.2.2) s

/-- Every port in TRAINING returns to TRAIN_WAIT (R128). -/
def State.abortTraining (s : State) : State :=
  (s.copiesSet TIL_PORT_STAT.STATE).foldl (fun s p =>
    if s.portState p == 2 then (s.setPortState p 3).linkChange p else s) s

end Sys2Proof.Machine
end

