-- ==== Sys2Proof/Machine/Reactions.lean ====
section
/-!
DEFINITION. Fences (R421–R428) and faults (R437–R451): what a fence does when it is accepted, what firmware's stop
leaves, and how Quench latches, ranks, escalates, records and reacts.
-/

namespace Sys2Proof.Machine

/-! ### Frames in a tile that stops (R222, R424) -/

/-- Whether a fragment holds the last byte of its frame; a frame lost in the fabric is counted with it (log entry 8). -/
def Frag.last (f : Frag) : Bool := f.start + f.len == f.frame.bytes.length + 32

/-- Output tile `t` does without a fragment of a unicast frame, or of a multicast frame when `mc`: with the frame's last
byte the frame is dropped under `code`, unless it was discarded before. -/
def State.loseFrag (s : State) (t : Nat) (mc : Bool) (code : Nat) (f : Frag) : State :=
  if !f.last then s
  else if s.fabric.gone.contains f.frame.uid then
    { s with fabric := { s.fabric with gone := s.fabric.gone.filter (· != f.frame.uid) } }
  else if mc then
    match Tab.get? s.fabric.tokens f.frame.uid with
    | some k => if bit k.left t then (s.countIngress f.frame.inPort f.frame.res.cls code).mcDone f.frame.uid t else s
    | none => s
  else s.dropIngress f.frame code

/-- Every fragment of a cell lost for output tile `t`. -/
def State.loseCell (s : State) (t code : Nat) (c : Cell) : State :=
  c.frags.foldl (fun s f => s.loseFrag t c.multicast code f) s

/-- A multicast frame dropped before the fabric: its token ends with one count (R222). -/
def State.dropMulticast (s : State) (f : Frame) (code : Nat) : State :=
  match Tab.get? s.fabric.tokens f.uid with
  | some k =>
    let s := s.countIngress f.inPort f.res.cls code
    (bitsSet 8 k.left).foldl (fun s t => s.mcDone f.uid t) s
  | none => s

/-- The credit key of input tile `i` at bank `m` for queue `q` (R195). -/
def creditKey (i m q : Nat) : Nat := (i * 8 + m) * 32 + q

/-- The queue of a bank that a cell joins (R197): 0–7 UNICAST LO by output tile, 8–15 UNICAST HP, 16 and 17 MULTICAST. -/
def Cell.queue (c : Cell) : Nat :=
  if c.multicast then (if c.hp then 17 else 16) else c.dst + (if c.hp then 8 else 0)

/-- A cell has left bank `m`'s queue: its credit will return to its input tile (R195). -/
def State.creditBack (s : State) (m : Nat) (c : Cell) : State :=
  { s with fabric := { s.fabric with returns := s.fabric.returns ++ [(c.src, m, c.queue)] } }

/-- Bank `m`, with `b` what it holds. -/
def State.bank (s : State) (m : Nat) : Bank := Tab.getD s.fabric.banks m {}
def State.upBank (s : State) (m : Nat) (f : Bank → Bank) : State :=
  { s with fabric := { s.fabric with banks := Tab.update s.fabric.banks m {} f } }

/-- Bank `m` discards what it holds for tile `j` (R222): unicast queues, and its bit in every multicast cell. -/
def State.bankDiscard (s : State) (j m : Nat) : State :=
  let uni := Tab.getD (s.bank m).queues j [] ++ Tab.getD (s.bank m).queues (8 + j) []
  let s := uni.foldl (fun s c => (s.loseCell j 0x26 c).creditBack m c) s
  let s := s.upBank m (fun b => { b with
    queues := Tab.erase (Tab.erase b.queues j) (8 + j), recalls := Tab.erase b.recalls j })
  [16, 17].foldl (fun s q =>
    let cells := Tab.getD (s.bank m).queues q []
    let s := cells.foldl (fun s c => if bit c.tileMap j then s.loseCell j 0x26 c else s) s
    let cells := cells.map (fun c => { c with tileMap := putBit c.tileMap j false })
    let s := (cells.filter (fun c => c.tileMap == 0)).foldl (fun s c => s.creditBack m c) s
    s.upBank m (fun b => { b with queues := Tab.set b.queues q (cells.filter (fun c => c.tileMap != 0)) })) s

/-- The resequencer key of the unicast stream from tile `i` to tile `j`, HP or LO (R202). -/
def uniKey (i j : Nat) (hp : Bool) : Nat := (i * 8 + j) * 2 + flag hp

/-- The resequencer key of the multicast stream from tile `i` at tile `j` (R204). -/
def mcKey (i j : Nat) (hp : Bool) : Nat := (i * 8 + j) * 2 + flag hp

/-- Everything inside tile `j` or bound for it is discarded (R222, R424): visits in flight, resequencers, its pre-lookup
buffer and staging, the spilled part of its egress queues, and with T0 the queues of ports 256 and 257. -/
def State.tileDiscard (s : State) (j : Nat) : State :=
  let s := (List.range 8).foldl (fun s m => s.bankDiscard j m) s
  let gone := s.fabric.flight2.filter (fun v => v.1 == j)
  let s := { s with fabric := { s.fabric with flight2 := s.fabric.flight2.filter (fun v => v.1 != j) } }
  let s := gone.foldl (fun s v => v.2.cells.foldl (fun s c => s.loseCell j 0x26 c) s) s
  let s := s.fabric.uni.foldl (fun s e =>
    if e.1 / 2 % 8 = j then e.2.held.foldl (fun s h => s.loseCell j 0x26 h.cell) s else s) s
  let s := s.fabric.mc.foldl (fun s e =>
    if e.1 / 2 % 8 = j then e.2.held.foldl (fun s h => s.loseCell j 0x26 h.cell) s else s) s
  let lost := s.fabric.lost.filter (fun c => c.dst == j)
  let s := lost.foldl (fun s c => s.loseCell j 0x26 c) s
  let s := { s with fabric := { s.fabric with
      lost := s.fabric.lost.filter (fun c => c.dst != j),
      uni := s.fabric.uni.filter (fun e => e.1 / 2 % 8 != j),
      mc := s.fabric.mc.filter (fun e => e.1 / 2 % 8 != j) } }
  let staged := (s.tile j).streams.flatMap (fun e =>
    (e.2.closed.flatMap (fun c => c.frags) ++ e.2.frags).map (fun f => (decide (16 ≤ e.1), f)))
  let s := staged.foldl (fun s x =>
    if x.2.last then (if x.1 then s.dropMulticast x.2.frame 0x26 else s.dropIngress x.2.frame 0x26) else s) s
  let s := (s.tile j).pre.foldl (fun s f =>
    match f.tx with | some d => s.txComplete d [stFenced] false false 0 | none => s) s
  let s := s.upTile j (fun t => { t with pre := [], streams := t.streams.map (fun e =>
    (e.1, { e.2 with frags := [], fill := 0, tileMap := 0, closed := [] })) })
  let spilled := s.queues.flatMap (fun e =>
    if e.1 / 16 < 256 ∧ e.1 / 16 / 32 = j then e.2.tail.map (fun x => x.frame) else [])
  let s := spilled.foldl (fun s f => s.dropIngress f 0x26) s
  let keys := (Tab.keys s.queues).filter (fun k => decide (k / 16 < 256) && k / 16 / 32 == j)
  let s := keys.foldl (fun s k => (s.upQueue k (fun q => { q with tail := [], spilled := false })).dropSpill k) s
  if j = 0 then
    let ks := (Tab.keys s.queues).filter (fun k => decide (256 ≤ k / 16))
    let fs := ks.flatMap (fun k => (s.queue k).frames)
    let s := fs.foldl (fun s f => s.dropIngress f 0x26) s
    { s with queues := s.queues.filter (fun e => decide (e.1 / 16 < 256)) }
  else s

/-! ### Conditions of faults (R447) -/

def State.faultSt (s : State) (id : Nat) : FaultSt := Tab.getD s.quench.faults id {}

/-- The condition of an ID ends (R447): the record shows CLEARED; the fault stays latched. -/
def State.endCondition (s : State) (id : Nat) : State :=
  let f := s.faultSt id
  if !f.present then s
  else
    { s with quench := { s.quench with
        faults := Tab.set s.quench.faults id { f with present := false },
        recs := match f.record with
          | some k => (match Tab.get? s.quench.recs k with
            | some r => Tab.set s.quench.recs k { r with state := 2, clearedBefore := true }
            | none => s.quench.recs)
          | none => s.quench.recs } }

/-! ### Firmware and Temper stopping (R24, R25, R128, R307, R398, R502) -/

/-- The TIME_AUTHs that firmware holds complete (R307). -/
def State.endTimeAuth (s : State) (status : Nat) : State :=
  let l := s.fw.timeAuth
  l.foldl (fun s c => s.done c status) { s with fw := { s.fw with timeAuth := [] } }

/-- The TEMPER_RUN that firmware holds completes (R497). -/
def State.endTemperRun (s : State) (status r0 r1 : Nat) : State :=
  match s.fw.temper with
  | some c => ({ s with fw := { s.fw with temper := none } }).done c status r0 r1
  | none => s

/-- Temper is suspended (R25, R502): no run proceeds, a lane part in progress ends without result, applied values hold and
every item is STALE, so the windows that run now are STALE too (R338). -/
def State.temperSuspend (s : State) : State :=
  let s := (s.setF TMP_STAT.STATE 3).setF TMP_HIST.SUSPENDED_SEEN 1
  let s := s.setF TMP_RUN.UNIT 15
  let s := { s with temper := { s.temper with
    unit := none, lanes := [], part := none, open_ := [], hold := [], pairs := [], fixedLeft := 0,
    pathLeft := 0, traceDue := false, trace := false,
    items := s.temper.items.map (fun (e : Nat × Item) => (e.1, { e.2 with meas := [] })) } }
  let s := { s with phases := s.phases.map (fun (e : Nat × Phase) => (e.1, { e.2 with stale := true })) }
  s.endTemperRun stFenced 0 0

/-- The control complex enters a fence or reset: firmware stops (R24, R128, R307, R398, R423, R502). -/
def State.fwStops (s : State) : State :=
  let s := { s with fw := { s.fw with running := false } }
  let s := ((s.setF MER_BUDGET_STAT.HB_ARMED 0).setF MER_BUDGET_STAT.MISS_RUN 0).endCondition 0x141
  let s := s.abortTraining
  let s := match s.time.disc with
    | some d => { s with time := { s.time with disc := some { d with confs := 0, auth := false, ready := false } } }
    | none => s
  let s := s.endTimeAuth stFenced
  let s := match s.fw.pairSwitch with
    | some c => ({ s with fw := { s.fw with pairSwitch := none } }).done c stFenced
    | none => s
  let s := match s.fw.activate with
    | some a => if a.fenced then s else ({ s with fw := { s.fw with activate := none } }).done a.cmd stFenced
    | none => s
  let s := s.temperSuspend
  (List.range 8).foldl (fun s c => s.flushQueue 257 c 0x37 false) s

/-! ### Fence requests (R422, R423) -/

/-- Whether the device is configured into a pair (R422, R487). -/
def State.paired (s : State) : Bool := s.isF GLB_PAIR_CFG.PAIR_EN

/-- Hallmark's FIFO is discarded and counted as lost (R538). -/
def State.hmkDiscard (s : State) : State :=
  let n := s.hmk.fifo.length
  if n = 0 then s
  else
    let s := (s.addF HMK_LOSS.LOST n).orF HMK_HIST.LOSS_SEEN 1
    { s with hmk := { s.hmk with fifo := [], toRing := 0, toLanes := 0, lost := s.hmk.lost + n, lossDue := true } }

/-- Items that a flush discards, of which the spec states no number, are counted (R418). -/
def State.countDrops (s : State) : State :=
  let d := s.draw
  d.2.addF GLB_FENCE_DROPS.COUNT d.1

/-- A fence request is accepted: the domain enters FENCING and steps 1 to 3 of R423 take place (log entry 11). -/
def State.fenceAccept (s : State) (who : Requester) (d : Nat) (fault : Option Nat) : State :=
  let s := (s.upFence d (fun x => { x with st := 1, by_ := who, fault := fault })).countDrops
  if d < 8 then
    let s := s.orF GLB_FAB_STAT.FENCED_TILES (1 <<< d)
    let s := s.tileDiscard d
    s.tileDown d
  else if d = 8 then s.fwStops
  else if d = 9 then s.temperSuspend
  else if d = 10 then s.hmkDiscard
  else s

/-- A fence request (R422, R423, R428): refused for the Rivet link of a paired device; without effect on a domain that
is not OPEN, except that Quench's takes effect during UNFENCING. -/
def State.fenceAsk (s : State) (who : Requester) (d : Nat) (fault : Option Nat) : State :=
  let st := (s.fence d).st
  if decide (12 ≤ d) then s
  else if d = 11 ∧ s.paired then s.setF GLB_FENCE_HIST.REQ_REFUSED 1
  else if st = 0 ∨ (st = 3 ∧ who = .quench) then s.fenceAccept who d fault
  else s

/-! ### Fault IDs (R442) -/

/-- The class of a fault (R442): groups of 16 IDs, of 8 within 0x1C0–0x1DF. -/
def faultClass (id : Nat) : Nat := if 0x1C0 ≤ id ∧ id < 0x1E0 then 0x1000 + id / 8 else id / 16

/-- Whether an ID is one of the named faults (R442); others are never raised. -/
def faultNamed (id : Nat) : Bool :=
  decide (id ≤ 4) || decide (0x10 ≤ id ∧ id < 0x90 ∧ id % 16 < 8) || decide (0x90 ≤ id ∧ id ≤ 0x98) ||
  decide (0xA0 ≤ id ∧ id ≤ 0xA3) || decide (0xC0 ≤ id ∧ id ≤ 0xC6) || decide (0xC8 ≤ id ∧ id ≤ 0xCE) ||
  decide (0xD0 ≤ id ∧ id ≤ 0xD8) || decide (0x100 ≤ id ∧ id ≤ 0x110) || id == 0x120 ||
  decide (0x140 ≤ id ∧ id ≤ 0x143) || decide (0x180 ≤ id ∧ id ≤ 0x185) || decide (0x1C0 ≤ id ∧ id ≤ 0x1C2) ||
  decide (0x1C8 ≤ id ∧ id ≤ 0x1CB) || id == 0x1D0

/-- The fence domain whose fence masks an ID (R442, R449); the guard checks are never masked (R450). -/
def maskDomain (id : Nat) : Option Nat :=
  if 0x10 ≤ id ∧ id < 0x90 then (if id % 16 = 4 ∨ id % 16 = 5 then none else some (id / 16 - 1))
  else if 0x140 ≤ id ∧ id < 0x150 then some 8
  else if 0x1C0 ≤ id ∧ id < 0x1C8 then some 9
  else if 0x1C8 ≤ id ∧ id < 0x1D0 then some 11
  else if 0x1D0 ≤ id ∧ id < 0x1D8 then some 10
  else none

/-- Whether an occurrence of `id` is masked now (R449): by a fence of the PF or of FW_ACTIVATE only. -/
def State.masked (s : State) (id : Nat) : Bool :=
  match maskDomain id with
  | some d => (s.fence d).st != 0 && ((s.fence d).by_ == .pf || (s.fence d).by_ == .fwActivate)
  | none => false

/-- What an ISOLATE reaction acts on (R438, R442). -/
inductive Target where
  | none
  | domain (d : Nat)
  | tick (n : Nat)
  | clkout (n : Nat)
  | guarded
  | apll (k : Nat)
  deriving DecidableEq, Repr

/-- The isolation target of an ID (R442). -/
def faultTarget (id : Nat) : Target :=
  if 0x10 ≤ id ∧ id < 0x90 then (if id % 16 = 4 ∨ id % 16 = 5 then .guarded else .domain (id / 16 - 1))
  else if id = 0xCD then .apll 0
  else if id = 0xCE then .apll 1
  else if 0xD0 ≤ id ∧ id < 0xD8 then .clkout (id - 0xD0)
  else if 0x100 ≤ id ∧ id < 0x110 then .tick (id % 8)
  else if 0x140 ≤ id ∧ id < 0x144 then .domain 8
  else if 0x1C0 ≤ id ∧ id < 0x1C8 then .domain 9
  else if 0x1C8 ≤ id ∧ id < 0x1D0 then .domain 11
  else if 0x1D0 ≤ id ∧ id < 0x1D8 then .domain 10
  else .none

/-- The configured severity of an ID (R439): never below its FLOOR. -/
def State.confSev (s : State) (id : Nat) : Nat := max (s.getF QCH_SEV.SEV id) (s.getF QCH_SEV.FLOOR id)

/-- The faults latched, with their state. -/
def State.latched (s : State) : List (Nat × FaultSt) := s.quench.faults.filter (fun e => e.2.latched)

/-- Whether the reaction to a latched fault is that of QUENCH (R438): its applied severity is QUENCH, or ISOLATE with no
isolation target. -/
def reactsQuench (id : Nat) (f : FaultSt) : Bool :=
  f.latched && (f.applied == 3 || (f.applied == 2 && faultTarget id == .none))

/-! ### Reactions in force (R434, R438, R454) -/

/-- Whether any latched fault demands the QUENCH reaction. -/
def State.quenchOn (s : State) : Bool := s.quench.faults.any (fun e => reactsQuench e.1 e.2)

/-- Whether a latched fault of applied severity ISOLATE or above has target `t`. -/
def State.isolated (s : State) (t : Target) : Bool :=
  s.quench.faults.any (fun e => e.2.latched && decide (2 ≤ e.2.applied) && faultTarget e.1 == t)

/-- Whether the time guard is armed (R454). -/
def State.armed (s : State) : Bool := s.isF QCH_STATE.TG_ARMED

/-- Whether Quench idles TICKn (MER_PIN_STAT.QUENCHED): a QUENCH reaction, an ISOLATE of the pin, or UNARMED. -/
def State.tickQuenched (s : State) (n : Nat) : Bool := s.quenchOn || s.isolated (.tick n) || !s.armed

/-- Whether Quench idles CLKOUTn: also an ISOLATE of the APLL that feeds it. -/
def State.clkQuenched (s : State) (n : Nat) : Bool :=
  s.quenchOn || s.isolated (.clkout n) || s.isolated (.apll (s.getF TPL_OUT_CFG.SRC n)) || !s.armed

/-- Whether front-panel port `p` is guarded (R457). -/
def State.guarded (s : State) (p : Nat) : Bool := bit (s.getF QCH_GUARD_PORTS.GUARDED (p / 32)) (p % 32)

/-- Whether guarded port `p` is blocked (R436, R438, R458). -/
def State.blocked (s : State) (p : Nat) : Bool :=
  s.guarded p && (s.quenchOn ||
    s.quench.faults.any (fun e => e.2.latched && decide (2 ≤ e.2.applied) && faultTarget e.1 == .guarded && e.2.port == p))

/-- Whether any guarded port is blocked (QCH_STATE.GUARD_BLOCK). -/
def State.anyBlocked (s : State) : Bool := (List.range 256).any (fun p => s.blocked p)

/-- Whether ALARM_N is asserted (R434): a fault of DEGRADE or above is latched. -/
def State.alarm (s : State) : Bool := s.quench.faults.any (fun e => e.2.latched && decide (1 ≤ e.2.applied))

/-- Whether Quench suppresses time-carrying event messages on port `p` (R435, R442, R454): a QUENCH reaction, the time
guard UNARMED, or STAMP_COPY latched for the port's tile. -/
def State.ptpSuppressed (s : State) (p : Nat) : Bool :=
  s.quenchOn || !s.armed || (s.faultSt (0x10 + p / 32 * 16)).latched

/-- The pins that Quench has released between `old` and `s` note the instant (R403). -/
def State.notePins (s old : State) : State :=
  (List.range 8).foldl (fun s n =>
    if old.tickQuenched n && !s.tickQuenched n then { s with pinRel := Tab.set s.pinRel n s.now } else s) s

/-- The messages in progress on the pins that Quench has idled between `old` and `s` are cut short (R440): the 96 cells of
80 ns begin 1,000 ns after the tick edge (R404). -/
def State.cutPins (s old : State) : State :=
  (List.range 8).foldl (fun s n =>
    match Tab.get? s.pinMsg n with
    | none => s
    | some t =>
      if old.tickQuenched n || !s.tickQuenched n then s
      else
        let ns := 4 * (s.time.tclk - t)
        let s := { s with pinMsg := Tab.erase s.pinMsg n }
        if ns < 8680 then s.emit (.tickCut n (if ns < 1000 then 0 else (ns - 1000) / 40)) else s) s

/-! ### Latching (R443–R448) -/

/-- The severity by which a fault of a cycle is ranked (R443): as it stood before the cycle. -/
def State.rankSev (s : State) (id : Nat) : Nat :=
  let c := s.confSev id
  if (c == 1 || c == 2) && s.latched.any (fun e => e.1 == id || faultClass e.1 == faultClass id) then c + 1 else c

/-- Insertion of an occurrence by rank (R443): higher severity first, then the lower ID. -/
def State.rankInsert (s : State) (o : FaultOcc) : List FaultOcc → List FaultOcc
  | [] => [o]
  | x :: t =>
    if s.rankSev x.id < s.rankSev o.id ∨ (s.rankSev x.id = s.rankSev o.id ∧ o.id < x.id) then o :: x :: t
    else x :: s.rankInsert o t

/-- The occurrences of a cycle in rank order (R443). -/
def State.ranked (s : State) (l : List FaultOcc) : List FaultOcc := l.foldr (fun o t => s.rankInsert o t) []

/-- The lowest free capture record (R448). -/
def State.freeRecord (s : State) : Option Nat := (List.range 32).find? (fun k => (Tab.get? s.quench.recs k).isNone)

/-- A FAULT event (R113, R438): the applied severity and the record, 0xFFFF_FFFF where none was free.  It goes to the PF; whether
a fault of a granted port reaches its VF too the spec does not say (log entry 44). -/
def State.faultEvent (s : State) (id : Nat) : State :=
  let f := s.faultSt id
  s.event 4 0x0040 id f.applied (match f.record with | some k => k | none => 0xFFFFFFFF)

/-- TCLK is stopped for Quench (R448): the timing plane has not started, or the TCLK PLL is out of lock. -/
def State.tclkStopped (s : State) : Bool := !s.time.running || !s.isF TPL_PLL_STAT.LOCK 2

/-- The ISOLATE reaction's fence (R438, R440), where the fault's target is a fence domain. -/
def State.isolateFence (s : State) (id : Nat) : State :=
  match faultTarget id with
  | .domain d => if decide (2 ≤ (s.faultSt id).applied) then s.fenceAsk .quench d (some id) else s
  | _ => s

/-- An ID becomes latched (R438, R444, R445, R448): `same` says that it ranked behind another fault of its cycle. -/
def State.latchNew (s : State) (o : FaultOcc) (same : Bool) : State :=
  let conf := s.confSev o.id
  let esc := (conf == 1 || conf == 2) && s.latched.any (fun e => faultClass e.1 == faultClass o.id)
  let applied := if esc then conf + 1 else conf
  let first := s.latched.isEmpty
  let k := s.freeRecord
  let r : CapRec := {
    id := o.id, sevApplied := applied, sevConf := conf, state := if o.momentary then 2 else 1,
    clearedBefore := o.momentary, escalated := esc, sameCycle := same, timeInvalid := s.tclkStopped,
    masterKind := o.masterKind, masterId := o.masterId, access := o.access, addr := o.addr, tsNs := s.nowNsec,
    tsSec := s.nowSec, frameLo := s.frameCount % 65536, detail := o.detail % 4294967296 }
  let f : FaultSt := { present := !o.momentary, latched := true, applied := applied, port := o.masterId, record := k }
  let s := { s with quench := { s.quench with
      faults := Tab.set s.quench.faults o.id f,
      recs := match k with | some k => Tab.set s.quench.recs k r | none => s.quench.recs } }
  let s := if k.isNone then s.setF QCH_HIST.REC_OVF 1 else s
  let s := if esc then s.setF QCH_HIST.ESCALATED_SEEN 1 else s
  let s := if (s.tclkStopped || s.quench.sideDead) && decide (1 ≤ applied) then s.setF QCH_HIST.AON_ONLY 1 else s
  let s := if first then
      ((s.setF QCH_FIRST.FIRST_ID o.id).setF QCH_FIRST.FIRST_REC (k.getD 0)).setF QCH_FIRST.VALID 1
    else s
  (s.faultEvent o.id).isolateFence o.id

/-- A further occurrence of a latched ID (R445, R446, R448): OCC, and the escalation of its own ID. -/
def State.latchAgain (s : State) (o : FaultOcc) : State :=
  let old := s.faultSt o.id
  let conf := s.confSev o.id
  let rise := (conf == 1 || conf == 2) && decide (old.applied < conf + 1)
  let f : FaultSt := { old with
    present := old.present || !o.momentary, applied := if rise then conf + 1 else old.applied }
  let upd : CapRec → CapRec := fun r => { r with
    occ := sat 255 (r.occ + 1), sevApplied := f.applied, escalated := r.escalated || rise,
    state := if f.present then 1 else 2 }
  let s := { s with quench := { s.quench with
      faults := Tab.set s.quench.faults o.id f,
      recs := match f.record with
        | some k => (match Tab.get? s.quench.recs k with
          | some r => Tab.set s.quench.recs k (upd r)
          | none => s.quench.recs)
        | none => s.quench.recs } }
  if rise then ((s.setF QCH_HIST.ESCALATED_SEEN 1).faultEvent o.id).isolateFence o.id else s

/-- One occurrence, in its turn within a ranked cycle. -/
def State.occur (s : State) (o : FaultOcc) (same : Bool) : State :=
  if (s.faultSt o.id).latched then s.latchAgain o else s.latchNew o same

/-- The occurrences that reach Quench in one cycle (R443): unnamed and masked IDs, and conditions already present, are
no occurrences, except that every one of a guarded port counts (R458). -/
def State.raiseCycle (s : State) (l : List FaultOcc) : State :=
  let l := s.ranked (l.filter (fun o => faultNamed o.id && !s.masked o.id &&
    (!(s.faultSt o.id).present || faultTarget o.id == .guarded)))
  let wasEmpty := s.latched.isEmpty
  let s' := ((l.foldl (fun (a : State × Bool) o => (a.1.occur o a.2, true)) (s, false)).1).cutPins s
  if wasEmpty then
    let same := (l.drop 1).filter (fun o => l.head?.map (·.id) != some o.id)
    s'.setF QCH_SAME_MASK.MASK (maskOf (same.filterMap (fun o => (s'.faultSt o.id).record)))
  else s'

/-- One fault whose condition stays present until it is cleared. -/
def State.raise (s : State) (id : Nat) (detail : Nat := 0) (kind : Nat := 0) (mid : Nat := 0) : State :=
  s.raiseCycle [{ id := id, detail := detail, masterKind := kind, masterId := mid }]

/-- One fault whose condition is present only at the occurrence. -/
def State.raiseOnce (s : State) (id : Nat) (detail : Nat := 0) (kind : Nat := 0) (mid : Nat := 0) : State :=
  s.raiseCycle [{ id := id, detail := detail, masterKind := kind, masterId := mid, momentary := true }]

/-- A port's NOTICE (R442): the fault of its tile, the port being the record's master. -/
def State.portNotice (s : State) (p : Nat) : State := s.raiseOnce (0x17 + p / 32 * 16) 0 1 p

/-! ### Clearing and acknowledgement (R437, R447, R451) -/

/-- An ID is unlatched and its record freed (R451); with none left, QCH_FIRST and QCH_SAME_MASK clear (R444); a failed
timebase may serve again (R466). -/
def State.unlatch (s : State) (id : Nat) : State :=
  let f := s.faultSt id
  let s' := { s with quench := { s.quench with
      faults := Tab.erase s.quench.faults id,
      recs := match f.record with | some k => Tab.erase s.quench.recs k | none => s.quench.recs } }
  let s' := if s'.latched.isEmpty then
      (((s'.setF QCH_FIRST.FIRST_ID 0).setF QCH_FIRST.FIRST_REC 0).setF QCH_FIRST.VALID 0).setF QCH_SAME_MASK.MASK 0
    else s'
  let s' := if id = 0xC0 then (s'.setF TPL_TB_CMP.A_FAILED 0).setF TPL_TB_CMP.B_FAILED 0 else s'
  s'.notePins s

/-- The condition of an ID ends (R447): the record shows CLEARED; only BOOT_HOLD is released without acknowledgement
(R437). -/
def State.clearFault (s : State) (id : Nat) : State :=
  if !(s.faultSt id).present then s
  else if id = 0 then (s.endCondition 0).unlatch 0
  else s.endCondition id

end Sys2Proof.Machine
end

