-- ==== Sys2Proof/Machine/Flows.lean ====
section
/-!
DEFINITION. Media flow records as every part of the block sees them: fields (R255, R278), charges (R261), sums and
budgets (R233, R263, R264), the merge and cut group of a flow, and the header rewrite of R287.
-/

namespace Sys2Proof.Machine

/-! ### Flow records (R255) -/

def Flow.dport (f : Flow) : Nat := bits (dw f.words 8) 0 16
def Flow.sport (f : Flow) : Nat := bits (dw f.words 8) 16 16
def Flow.inPort (f : Flow) : Nat := bits (dw f.words 9) 0 9
def Flow.af (f : Flow) : Nat := bits (dw f.words 9) 9 1
def Flow.sportEn (f : Flow) : Bool := bit (dw f.words 9) 10
def Flow.rtp (f : Flow) : Bool := bit (dw f.words 9) 11
def Flow.excess (f : Flow) : Bool := bit (dw f.words 9) 12
def Flow.ssrcEn (f : Flow) : Bool := bit (dw f.words 9) 13
def Flow.link (f : Flow) : Nat := bits (dw f.words 9) 16 16
def Flow.rate (f : Flow) : Nat := dw f.words 10
def Flow.tol (f : Flow) : Nat := bits (dw f.words 11) 0 8
def Flow.depth (f : Flow) : Nat := if bits (dw f.words 11) 8 8 = 0 then 1 else bits (dw f.words 11) 8 8
def Flow.ssrc (f : Flow) : Nat := dw f.words 12

/-- A record's address from its doublewords `i` to `i + 3`, in network order: an IPv4 address stands in the first
(R255). -/
def recAddr (w : List Word) (i af : Nat) : Nat :=
  if af = 0 then dw w i
  else dw w i + dw w (i + 1) * 2 ^ 32 + dw w (i + 2) * 2 ^ 64 + dw w (i + 3) * 2 ^ 96

def Flow.src (f : Flow) : Nat := recAddr f.words 0 f.af
def Flow.dst (f : Flow) : Nat := recAddr f.words 4 f.af

/-- The key of R252. -/
def Flow.key (f : Flow) : List Nat := [f.af, f.src, f.dst, f.dport, f.inPort]

/-- Every bank of table 13 that still counts (R257, R261): shadow, active, and retired ones not yet drained. -/
def State.flowBanks (s : State) : List (List Flow) :=
  s.tables.flowsShd :: s.tables.flowsAct :: s.tables.flowsRetired.map (fun r => r.2)

/-- Every record of every such bank. -/
def State.allFlows (s : State) : List Flow := s.flowBanks.flatten

/-- The handles in use (R257). -/
def State.flowHandles (s : State) : List Nat := (s.allFlows.map (fun f => f.handle)).eraseDups

/-- A flow's charge on port `p` in kb/s (R261). -/
def State.charge (s : State) (h p : Nat) : Nat :=
  s.allFlows.foldl (fun n f => if f.handle = h ∧ f.link = 0xFFFF ∧ bit f.mask p then max n f.rate else n) 0

/-- RES_SUM of port `p` in kb/s (R261). -/
def State.resSum (s : State) (p : Nat) : Nat := s.flowHandles.foldl (fun n h => n + s.charge h p) 0

/-- PG_SUM of port `p` (R263): RES_SUM of the primary whose backup it is. -/
def State.pgSum (s : State) (p : Nat) : Nat :=
  match s.pgs.find? (fun e => e.2.backup == p) with
  | some e => s.resSum e.2.primary
  | none => 0

/-- BUDGET of port `p` in kb/s (R263). -/
def State.budget (s : State) (p : Nat) : Nat :=
  modeRate (s.portMode p) * 1000 * sat 100 (s.getF TIL_MED_BUDGET.CL6_PCT p) / 100

/-- Whether port `p` is overbooked (R264): only an enabled port can be. -/
def State.overbooked (s : State) (p : Nat) : Bool :=
  s.portEnabled p && decide (s.budget p < s.resSum p + s.pgSum p)

/-- A port that a change from `old` to `s` leaves overbooked is reported (R264). -/
def State.judgeOverbooked (s old : State) (p : Nat) : State :=
  if s.overbooked p && !old.overbooked p then (s.setF GLB_MED_HIST.OVERBOOKED_SEEN 1).raiseOnce 0xA3 0 1 p
  else s

/-- The rate of the class 6 shaper in bit/s (R233). -/
def State.cl6Rate (s : State) (p : Nat) : Nat :=
  min (s.portRate p) ((s.resSum p + s.pgSum p) * 1000 * (256 + s.getF TIL_SCH_CL6.MARGIN p) / 256)

/-- Whether class 6 of flow `h` has a charge on port `p`, its own or its LINK target's (R265). -/
def State.reserved (s : State) (h p : Nat) : Bool :=
  s.allFlows.any (fun f => f.handle == h &&
    (s.charge h p != 0 || (f.link != 0xFFFF && s.charge f.link p != 0)))

/-- A flow's counter `j` raised (R520, group 4): only while a flow holds the handle in the active bank. -/
def State.countFlow (s : State) (h j : Nat) (n : Nat := 1) : State :=
  if s.tables.flowsAct.any (fun f => f.handle == h) then s.countS (group 4 (h / 8)) (h % 8 * 16 + j) n else s

/-- The same for its error counters (8 and 12). -/
def State.countFlowE (s : State) (h j : Nat) : State :=
  if s.tables.flowsAct.any (fun f => f.handle == h) then s.countE (group 4 (h / 8)) (h % 8 * 16 + j) else s

/-- The merge group that flow `h` is a member of (R271). -/
def State.mergeOf (s : State) (h : Nat) : Option Nat :=
  (s.merges.find? (fun e => e.2.members.contains h)).map (fun e => e.1)

/-- Candidate `k`'s doubleword of a cut group record (R278). -/
def candWord (w : List Word) (k : Nat) : Nat := dw w (10 + k)
def candValid (w : List Word) (k : Nat) : Bool := decide (k < 4) && bit (candWord w k) 17
def candMerge (w : List Word) (k : Nat) : Bool := bit (candWord w k) 16
def candId (w : List Word) (k : Nat) : Nat := bits (candWord w k) 0 16

/-- Whether a cut group record has candidates (R278: without them it deletes the group). -/
def cutHasCands (w : List Word) : Bool := !((List.range 4).all (fun k => candWord w k == 0))

/-- The cut group and candidate of a flow, directly or through its merge group (R253 step 4). -/
def State.cutOf (s : State) (h : Nat) : Option (Nat × Nat) :=
  let mg := s.mergeOf h
  s.cuts.findSome? (fun e =>
    (((List.range 4).find? (fun k => candValid e.2.words k &&
      (if candMerge e.2.words k then mg == some (candId e.2.words k) else candId e.2.words k == h))).map
        (fun k => (e.1, k))))

/-! ### The rewrite of cut groups (R287, R289) -/

/-- The destination MAC of a multicast output address (R287), if it is multicast. -/
def multicastMac (af dst : Nat) : Option Nat :=
  if af = 0 then (if dst / 2 ^ 28 = 14 then some (0x01005E000000 + dst % 2 ^ 23) else none)
  else (if dst / 2 ^ 120 = 255 then some (0x333300000000 + dst % 2 ^ 32) else none)

/-- A frame rewritten by cut group record `w` (R287), with its checksums (R289). -/
def cutRewrite (w : List Word) (b : Bytes) : Bytes :=
  let h := parse b
  if !h.isUdp then b
  else
    let af := bits (dw w 8) 16 1
    let alen := if h.ver = 4 then 4 else 16
    let srcAt := if h.ver = 4 then h.l3 + 12 else h.l3 + 8
    let outDst := recAddr w 0 af
    let b' := overlay b (srcAt + alen) (toBE alen outDst)
    let b' := if bit (dw w 8) 17 then overlay b' srcAt (toBE alen (recAddr w 4 af)) else b'
    let b' := overlay b' (h.l4 + 2) (toBE 2 (bits (dw w 8) 0 16))
    let b' := overlay b' (h.l4 + 16) (toBE 4 (dw w 9))
    let ck := udpSum (beAt b (h.l4 + 6) 2)
      (slice b srcAt (2 * alen) ++ slice b (h.l4 + 2) 2 ++ b.drop (h.l4 + 8))
      (slice b' srcAt (2 * alen) ++ slice b' (h.l4 + 2) 2 ++ b'.drop (h.l4 + 8)) (keep0 := h.ver == 4)
    let b' := overlay b' (h.l4 + 6) (toBE 2 ck)
    let b' := if h.ver = 4 then
        let b' := overlay b' (h.l3 + 10) (toBE 2 0)
        overlay b' (h.l3 + 10) (toBE 2 (65535 - onesSum (slice b' h.l3 (h.l4 - h.l3)) % 65535))
      else b'
    match multicastMac af outDst with
    | some m => overlay b' 0 (toBE 6 m)
    | none => b'

/-- The outgoing bytes of a frame at its port (R165, R168, R287). -/
def State.outgoing (s : State) (f : Frame) : Bytes :=
  let rmac := s.getF GLB_LKP_RMAC_LO.RMAC + s.getF GLB_LKP_RMAC_HI.RMAC * 4294967296
  let b := if f.res.routed then
      (if f.res.routedUni then routeUnicast rmac f.res.nhMac f.res.nhVlan f.bytes else routeMulticast rmac f.bytes)
    else f.bytes
  if f.res.flow = 0xFFFF then b
  else match s.cutOf f.res.flow with
    | some (g, _) => cutRewrite (s.cut g).words b
    | none => b

end Sys2Proof.Machine
end

