-- ==== Sys2Proof/Machine/Queues.lean ====
section
/-!
DEFINITION. Egress queues (R216–R219, R225–R242): how a frame arrives at one, how the scheduler picks a head, how the MAC
sends and stamps it, and how queues of ports 256 and 257 are emptied.
-/

namespace Sys2Proof.Machine

/-! ### Header sampler (R533, R534) -/

/-- The queue ID of R225 of a port's queue slot. -/
def queueId (p slot : Nat) : Nat :=
  if slot = 8 ∨ slot = 9 then 2048 + p * 2 + (slot - 8) else p * 8 + slotNumber slot

/-- The header sampler sees a frame of port `p` at `point` (0 ingress, 1 egress), 1 in 2^SAMPLE_LOG2 of the frames that
match (log entry 19). -/
def State.sampleHdr (s : State) (point p qid : Nat) (f : Frame) : State :=
  let port := s.getF HMK_HDR_FILT.PORT
  if s.isF HMK_TRACE_CFG.TRACE_EN && s.isF HMK_TRACE_CFG.HDR_EN && s.getF HMK_TRACE_CFG.HDR_POINT == point &&
      (port == 0x1FF || port == p) && bit (s.getF HMK_HDR_FILT.CLASS) f.res.cls then
    let n := s.hmk.hdrCount + 1
    if n < 2 ^ sat 20 (s.getF HMK_TRACE_CFG.SAMPLE_LOG2) then { s with hmk := { s.hmk with hdrCount := n } }
    else
      let s := { s with hmk := { s.hmk with hdrCount := 0 } }
      s.trace 1 p ([BitVec.ofNat 32 (point + 2 * f.res.cls + 16 * f.res.destKind + 65536 * (f.res.epoch % 65536)),
        BitVec.ofNat 32 (f.res.flow + 65536 * (qid % 4096)), BitVec.ofNat 32 (f.bytes.length % 16384), 0, 0, 0] ++
        toWords 16 f.bytes)
  else s

/-! ### Pages (R216) -/

/-- Pages of a region that the queues of tile `t` hold: HP (classes 6 and 7) or LO. -/
def State.regionPages (s : State) (t : Nat) (hp : Bool) : Nat :=
  s.queues.foldl (fun n e =>
    let p := e.1 / 16
    let slot := e.1 % 16
    let isHp := slot == 6 || slot == 7 || slot == 10
    if (if p < 256 then p / 32 else 0) = t ∧ isHp = hp then n + e.2.pages else n) 0

/-- Spill cells of tile `t` that still stand in its spill staging (R217). -/
def State.spillStaged (s : State) (t : Nat) : Nat :=
  s.queues.foldl (fun n e => if e.1 / 16 / 32 = t ∧ e.1 / 16 < 256 then
    e.2.tail.foldl (fun n x => n + (x.cells - x.banks.length)) n else n) 0

/-- Whether every bank's spill store is full (R197, R219). -/
def State.spillFull (s : State) : Bool := (List.range 8).all (fun m => decide (76480 ≤ (s.bank m).spill.length))

/-- Whether one more frame of `b` bytes in slots `slots` of port `p` passes the HP limits of R228. -/
def State.hpRoom (s : State) (p b : Nat) (slots : List Nat) (limit : Nat) : Bool :=
  let held := slots.foldl (fun n k => n + (s.queue (queueKey p k)).pages) 0
  decide (held < (if limit = 0 then 1 else limit)) &&
  decide (s.regionPages (if p < 256 then p / 32 else 0) true + framePages b ≤ 2048)

/-! ### Scheduler registers (R251) -/

/-- The scheduler registers of port `p` as they stand. -/
def State.schNow (s : State) (p : Nat) : SchRegs :=
  { q0 := s.getF TIL_SCH_QUANTUM0.QUANTUM_C p, q1 := s.getF TIL_SCH_QUANTUM1.QUANTUM_C p, burst := s.getF TIL_SCH_CL6.BURST p,
    margin := s.getF TIL_SCH_CL6.MARGIN p, lateTol := s.getF TIL_SCH_LT.LATE_TOL p, ltQmax := s.getF TIL_SCH_LT.LT_QMAX p,
    host7 := s.getF TIL_SCH_HOST7.HOST7_PCT p, hp6 := s.getF TIL_SCH_HPQ.HP_QMAX_C6 p,
    hp7 := s.getF TIL_SCH_HPQ.HP_QMAX_C7 p }

/-- The scheduler registers of port `p` in force: as they stood when it last could start a frame, at first as at reset. -/
def State.sch (s : State) (p : Nat) : SchRegs := (s.port p).sch.getD {}

/-! ### Arrival at a queue -/

/-- A frame appended to a queue (R226), entering it now; a frame of a class queue wakes a sleeping transmitter (R135). -/
def State.append (s : State) (p slot : Nat) (f : Frame) : State :=
  let s := if p < 256 ∧ slot ≠ 8 ∧ slot ≠ 9 then s.setF TIL_PORT_STAT.TX_LPI 0 p else s
  s.upQueue (queueKey p slot) (fun q => { q with onTile := q.onTile ++ [{ f with enq := s.now }] })

/-- Whether the LO region of tile `t` has pages for frame `f` (R216): 4,864 but for 64 of spill staging. -/
def State.loRoom (s : State) (t : Nat) (f : Frame) : Bool :=
  decide (s.regionPages t false + framePages f.bytes.length ≤ 4800)

/-- A frame of classes 0–5 at front-panel port `p`'s queue (R217, R219); a frame that finds the LO region full is spilled
(log entry 20). -/
def State.enqueueLo (s : State) (p c : Nat) (f : Frame) : State :=
  let k := queueKey p c
  let t := p / 32
  let q := s.queue k
  if s.getF TIL_EGR_SPILL.EQ_MAX t * 64 ≤ q.cells then s.dropEgress p c f 0x30
  else if q.spilled || !s.loRoom t f then
    if s.spillFull then (s.setF GLB_FAB_STAT.SPILL_FULL 0xFF).dropEgress p c f 0x31
    else s.upQueue k (fun q => { q with
      spilled := true, spillSeq := q.spillSeq + frameCells f.bytes.length,
      tail := q.tail ++ [{ frame := { f with enq := s.now }, cells := frameCells f.bytes.length, first := q.spillSeq }] })
  else
    let s := s.append p c f
    if max 2 (s.getF TIL_EGR_SPILL.SPILL_ON t) < (s.queue k).pages then s.upQueue k (fun q => { q with spilled := true })
    else s

/-- A frame at front-panel port `p`'s queue of class `c`, whatever brought it there (R148, R150, R217–R219, R228). -/
def State.enqueue (s : State) (p c : Nat) (f : Frame) : State :=
  let st := s.portState p
  let slot := if c = 7 ∧ f.inPort ≠ 257 then 10 else c
  if !(st == 5 || (st == 4 && f.inPort == 257)) then s.dropEgress p slot f 0x33
  else if c < 6 then s.enqueueLo p c f
  else if c = 6 then
    (if s.hpRoom p f.bytes.length [6] (s.sch p).hp6 then s.append p 6 f
     else s.dropEgress p 6 f 0x32)
  else if s.hpRoom p f.bytes.length [7, 10] (s.sch p).hp7 then s.append p slot f
  else s.dropEgress p slot f 0x32

/-- The port that a frame arriving for `p` at its output tile goes to (R244): none where it is discarded. -/
def State.protect (s : State) (p : Nat) : Option Nat :=
  match s.pgs.find? (fun e => e.2.primary == p && e.2.onBackup) with
  | some e => if e.2.backup / 32 = p / 32 then some e.2.backup else none
  | none => some p

/-- A frame at the queue of port 256 or 257, in tile T0 (R242): EQ_MAX and the fixed regions hold there too (R216, R219,
R228).  Spill reaches only the queues of front-panel ports (EQ_ID of R190), so a frame that the LO region cannot hold is
dropped under EGR_QLIMIT (log entry 66). -/
def State.enqueueLogical (s : State) (p c : Nat) (f : Frame) : State :=
  if c < 6 then
    (if s.getF TIL_EGR_SPILL.EQ_MAX 0 * 64 ≤ (s.queue (queueKey p c)).cells || !s.loRoom 0 f then s.dropEgress p c f 0x30
     else s.append p c f)
  else if s.regionPages 0 true + framePages f.bytes.length ≤ 2048 then s.append p c f
  else s.dropEgress p c f 0x32

/-- Whether the egress buffer region of port `p` for queue slot `slot` has room for a direct-mode frame (R91, R216, R228):
the HP limits of classes 6 and 7 are judged at the queue, under HP_QLIMIT. -/
def State.directRoom (s : State) (p slot len : Nat) (launch : Bool) : Bool :=
  (!launch && decide (6 ≤ slot)) ||
  (decide (s.regionPages (p / 32) false + framePages len ≤ 4800) &&
   (!launch || decide ((s.queue (queueKey p slot)).pages + framePages len ≤ max 1 (s.sch p).ltQmax)))

/-- A launch-time frame enters its queue (R148, R235). -/
def State.enqueueLaunch (s : State) (p q : Nat) (f : Frame) : State :=
  let st := s.portState p
  if st == 5 || (st == 4 && f.inPort == 257) then s.append p (8 + q) f else s.dropEgress p (8 + q) f 0x33

/-- A frame out of the fabric, or a copy of one, reaches the egress queue of port `p` (R36, R242, R244, R265). -/
def State.arrive (s : State) (p : Nat) (f : Frame) : State :=
  if p = 257 then
    (if s.fw.running then s.enqueueLogical 257 f.res.cls f else s.dropEgress 257 f.res.cls f 0x37)
  else if p = 256 then s.enqueueLogical 256 f.res.cls f
  else
    match s.protect p with
    | none => s.dropEgress p f.res.cls f 0x33
    | some q =>
      let moved := q != p
      let p := q
      if moved = false ∧ f.res.cls = 6 ∧ !s.reserved f.res.flow p then (s.countFlow f.res.flow 7).enqueue p 0 f
      else s.enqueue p f.res.cls f

/-! ### Leaving a queue -/

/-- The frame at the head of a queue's on-tile part. -/
def State.head (s : State) (p slot : Nat) : Option Frame := (s.queue (queueKey p slot)).onTile.head?

/-- Whether a frame's residency, by its LKP_TIME modulo 2^16, has reached RESIDENCY_MS (R176, R182), or, for a direct-mode frame of port 257 in a queue of
port 256, its wait in that queue (R183). -/
def State.aged (s : State) (f : Frame) (p : Nat) : Bool :=
  let limit : Int := clampN 1 1000 (s.getF GLB_LKP_CFG.RESIDENCY_MS) * (1000000 * nsU)
  if f.counted then decide (limit ≤ (s.now - f.res.lkpTime * (16000 * nsU)) % (65536 * (16000 * nsU)))
  else p == 256 && f.inPort == 257 && decide (limit ≤ s.now - f.enq)

/-- Frames at the front of a queue's tail whose cells have all come back join the on-tile part, aged ones being dropped and
others waiting for pages (R216); the queue stops being spilled when its tail is empty (R217, R218). -/
def State.recallIn (s : State) (p slot : Nat) : Nat → State
  | 0 => s
  | n + 1 =>
    let k := queueKey p slot
    match (s.queue k).tail with
    | [] => s.upQueue k (fun q => { q with spilled := false })
    | x :: t =>
      if x.back < x.cells then s
      else
        let old := s.aged x.frame p
        if !old && !s.loRoom (p / 32) x.frame then s
        else
          let s := s.upQueue k (fun q => { q with tail := t })
          let s := if old then s.dropEgress p slot x.frame 0x34
            else s.upQueue k (fun q => { q with onTile := q.onTile ++ [x.frame] })
          s.recallIn p slot n

/-- The head of a queue leaves it. -/
def State.popHead (s : State) (p slot : Nat) : State :=
  let k := queueKey p slot
  let s := s.upQueue k (fun q => { q with onTile := q.onTile.drop 1 })
  if (s.queue k).spilled then s.recallIn p slot ((s.queue k).tail.length + 1)
  else if s.queue k = {} then { s with queues := Tab.erase s.queues k } else s

/-! ### Transmit stamps (R321–R326) -/

/-- The lowest-numbered enabled STAMP ring of a function (R324). -/
def State.stampRing (s : State) (f : Nat) : Option Nat :=
  (Tab.keys s.rings).find? (fun n => s.ringIs n 6 && s.ringFn n == f)

/-- A stamp entry (R85) of port `p`. -/
def stampEntry (p : Nat) (e : StampEnt) : Entry :=
  { dw0 := BitVec.ofNat 32 (stampNs e.stamp), dw1 := BitVec.ofNat 32 (stampSec e.stamp),
    dw2 := BitVec.ofNat 32 (bits (stampSec e.stamp) 32 16 + stampSub e.stamp * 65536 + p * 1048576),
    dw3 := BitVec.ofNat 32 (e.tag % 65536) }

/-- The FIFO of port `p` empties as far as its stamps' rings take them (R86, R322, R325); stamps for the control complex
reach it at once, or wait while it is fenced or in reset (R419, R423). -/
def State.drainStamps (s : State) (p : Nat) : State :=
  let es := (s.port p).fifo
  let s := s.upPort p (fun x => { x with fifo := [] })
  es.foldl (fun s e =>
    match e.ring with
    | none =>
      if (s.fence 8).st == 0 && !(s.fence 8).rst then s.emit (.ctrlStamp p e.tag e.stamp)
      else s.upPort p (fun x => { x with fifo := x.fifo ++ [e] })
    | some n =>
      let r := s.ring n
      if s.ringIs n 6 && (decide (r.hold.length < 64) || (r.hold.isEmpty && decide (ringUsed r < s.ringSize n))) &&
          !(s.port p).fifo.any (fun x => x.ring == some n) then
        s.pushEntry n (stampEntry p e)
      else s.upPort p (fun x => { x with fifo := x.fifo ++ [e] })) s

/-- A stamp is taken into port `p`'s FIFO, or lost (R322–R324): answers whether it was lost. -/
def State.takeStamp (s : State) (p : Nat) (d : Direct) (g : Nat) : State × Bool :=
  let es := (s.port p).fifo
  let put : Option Nat → State := fun r =>
    (s.upPort p (fun x => { x with fifo := x.fifo ++ [{ stamp := g, tag := d.tag, ring := r }] })).drainStamps p
  match d.ring with
  | none =>
    if es.length < 64 then (put none, false)
    else ((s.countE (group 0 p) 32).setF TPL_TB_HIST.STAMP_LOST_SEEN 1, true)
  | some _ =>
    match s.stampRing d.fn with
    | none => (s.countE (group 0 p) 31, true)
    | some n =>
      if es.length < 64 ∧ (es.filter (fun e => e.ring.isSome)).length < 48 then (put (some n), false)
      else
        let s := (s.countE (group 0 p) 31).setF TPL_TB_HIST.STAMP_LOST_SEEN 1
        (s.upRing n (fun r => { r with ovf := true }), true)

/-! ### Sending (R139, R229–R239) -/

/-- A frame as the MAC sends it (R139): a 7-byte preamble, the SFD, the frame and its FCS. -/
def wireFrame (b : Bytes) : Bytes := List.replicate 7 0x55 ++ [0xD5] ++ b ++ toLE 4 (crc32 b)

/-- The gap after `n` bytes on the wire, and the deficit idle count it leaves (R139): a frame starts on a boundary of 4 bytes
at 10 and 25 Gb/s and of 8 bytes above, and the gap is 12 bytes on average (IEEE 802.3; log entry 59). -/
def State.interFrame (s : State) (p n : Nat) : Nat × Nat :=
  let unit := if s.portMode p < 2 then 4 else 8
  let excess := (n + 12) % unit
  let dic := (s.port p).dic
  if excess = 0 then (12, dic)
  else if dic + excess < unit then (12 - excess, dic + excess)
  else (12 + (unit - excess), dic - (unit - excess))

/-- Units of time in a second. -/
def secU : Nat := 4294967296000000000 * 1000000000

/-- The time that `n` bytes take at port `p`. -/
def State.byteTime (s : State) (p n : Nat) : Int := ((n * 8 * secU / s.portRate p : Nat) : Int)

/-- occ of R229 in bytes: the frame as it goes out on the wire, FCS, preamble, SFD and gap. -/
def State.occBytes (s : State) (f : Frame) : Nat := (s.outgoing f).length + 24

/-- Whether port `p`'s outputs of time-carrying event messages stand suppressed for a frame from port 257 (R435, R471). -/
def State.suppressed (s : State) (p : Nat) : Bool :=
  s.ptpSuppressed p || (s.getF GLB_PAIR_STAT.STATE == 3 && bit (s.port p).ptp.flags 2)

/-- Whether a guarded port lets these outgoing bytes pass (R458). -/
def State.guardPass (s : State) (p : Nat) (f : Frame) (b : Bytes) : Bool :=
  let h := parse b
  (f.inPort == 257 && (h.etype == 0x88F7 || h.etype == 0x8809 || (h.isUdp && (h.dport == 319 || h.dport == 320)))) ||
  (h.isUdp && (Tab.getD s.quench.allow p {}).entries.any (fun e =>
    e.af == (if h.ver = 6 then 1 else 0) && e.dst == h.dst && e.dport == h.dport && (e.srcAny || e.src == h.src)))

/-- A frame starts on port `p`: an accepted allow-list replaces the old one (R460). -/
def State.installAllow (s : State) (p : Nat) : State :=
  match (Tab.getD s.quench.allow p {}).next with
  | none => s
  | some l => { s with quench := { s.quench with
      allow := Tab.update s.quench.allow p {} (fun x => { x with entries := l, next := none, bad := false }) } }

/-- The transmit correction in force for port `p`'s MODE, in ps (R315, R328). -/
def State.txCorr (s : State) (p : Nat) : Int :=
  let i := p * 16 + s.portMode p
  signed 20 (Tab.getD s.time.stcHold i (s.getF TPL_STC_TX.TX_CORR i))

/-- The receive correction in force for port `p`'s MODE, in ps (R315, R328). -/
def State.rxCorr (s : State) (p : Nat) : Int :=
  let i := p * 16 + s.portMode p
  signed 20 (Tab.getD s.time.stcHold (65536 + i) (s.getF TPL_STC_RX.RX_CORR i))

/-- Frame `f` starts on port `p` from queue `slot` (R229): the MAC sends it and stamps it in bin `phase` with dynamic
term `dTx` in ps; `late` says that it is a late launch frame under SEND. -/
def State.transmit (s : State) (p slot : Nat) (f : Frame) (late : Bool) (phase : Nat) (dTx : Int) : State :=
  let b := s.outgoing f
  let corr := s.txCorr p
  let g := gridOf (s.tileStamp (p / 32) phase + (corr + dTx) * psU)
  let b := match f.direct with
    | some d => if d.oneStep then oneStepStamp g b else b
    | none => b
  let s := s.sampleHdr 1 p (queueId p slot) f
  let s := s.perf (p / 32) { code := 0x09, srcKind := 1, srcId := p, cls := some (1 <<< f.res.cls) }
  let s := s.setF TIL_PORT_STAT.TX_LPI 0 p
  let idle := s.interFrame p (b.length + 12)
  let s := (s.emit (.txFrame p (wireFrame b) false idle.1)).upPort p (fun x => { x with dic := idle.2 })
  let s := (s.countS (group 0 p) 2).countS (group 0 p) 3 (frameOctets b.length)
  let s := (s.countS (group 3 p) (slotNumber slot * 32)).countS (group 3 p) (slotNumber slot * 32 + 1)
    (frameOctets b.length)
  let s := s.finish f
  match f.direct with
  | none => s
  | some d =>
    let r := if d.stampReq then s.takeStamp p d g else (s, false)
    r.1.txComplete d ((if late then [stLate] else []) ++ (if r.2 && d.ring.isSome then [stStampMissing] else []))
      late (r.2 && d.ring.isSome) 0

/-- A head that may start on port `p` starts, unless the guard discards it (R458) or it is a suppressed time-carrying
message of port 257 (R435): answers whether the line is now busy. -/
def State.startFrame (s : State) (p slot : Nat) (f : Frame) (late : Bool) (phase : Nat) (dTx : Int) : State × Bool :=
  let s := s.installAllow p
  let b := s.outgoing f
  if s.guarded p && !s.guardPass p f b then (s.dropEgress p slot f 0x40, false)
  else if f.inPort == 257 && s.suppressed p && timeCarrying b then
    ((s.countS (group 0 p) 33).finish f, false)
  else (s.transmit p slot f late phase dTx, true)

/-! ### The scheduler (R229–R239) -/

/-- The launch time at the head of launch-time queue `q`. -/
def State.launchHead (s : State) (p q : Nat) : Option Int :=
  match s.head p (8 + q) with
  | some f => (match f.direct with | some d => d.launch | none => none)
  | none => none

/-- Whether received flow control stops class `c` of port `p` (R143). -/
def State.stoppedCls (s : State) (p c : Nat) : Bool := bit (s.port p).stopped c

/-- Whether the head of launch-time queue `q` is due and its class not stopped (R237, R143). -/
def State.launchReady (s : State) (p q : Nat) : Bool :=
  match s.head p (8 + q), s.launchHead p q with
  | some f, some l => decide (l - s.byteTime p 8 ≤ s.now) && !s.stoppedCls p f.res.cls
  | _, _ => false

/-- The due launch-time queue to serve (R237): the earlier launch time, queue 0 on a tie. -/
def State.dueLaunch (s : State) (p : Nat) : Option Nat :=
  match s.launchReady p 0, s.launchReady p 1 with
  | true, true =>
    (match s.launchHead p 0, s.launchHead p 1 with
     | some a, some b => if b < a then some 1 else some 0
     | _, _ => some 0)
  | true, false => some 0
  | false, true => some 1
  | false, false => none

/-- The launch guard (R238): whether `f` would end by the next launch time minus pre. -/
def State.fits (s : State) (p : Nat) (f : Frame) : Bool :=
  let ok : Option Int → Bool := fun l =>
    match l with
    | some g => decide (s.now + s.byteTime p (s.occBytes f) ≤ g - s.byteTime p 8)
    | none => true
  ok (s.launchHead p 0) && ok (s.launchHead p 1)

/-- The buckets of port `p` filled up to now at the rates in force (R231, R233); they start full (log entry 21). -/
def State.fillBuckets (s : State) (p : Nat) : State :=
  let burst := (s.sch p).burst
  let cap6 : Int := (((if burst = 0 then 1 else burst) * 64 * 8 * secU : Nat) : Int)
  let cap7 : Int := ((2 * s.getF TIL_PORT_MAXLEN.MAXLEN p * 8 * secU : Nat) : Int)
  s.upPort p (fun x =>
    if x.bucketsSet then { x with
      tok6 := min cap6 (x.tok6 + x.rate6 * (s.now - x.tok6At)), tok6At := s.now,
      tok7 := min cap7 (x.tok7 + x.rate7 * (s.now - x.tok7At)), tok7At := s.now }
    else { x with bucketsSet := true, tok6 := cap6, tok7 := cap7, tok6At := s.now, tok7At := s.now })

/-- What acts from a frame start on is renewed when the port can start a frame (R231, R233, R234, R251): the scheduler
registers and the two rates. -/
def State.renewRates (s : State) (p : Nat) : State :=
  s.upPort p (fun x => { x with
    sch := some (s.schNow p), rate6 := s.cl6Rate p,
    rate7 := s.portRate p * sat 100 (s.getF TIL_SCH_HOST7.HOST7_PCT p) / 100 })

/-- QUANTUM of class `c` in bytes (R232). -/
def State.quantum (s : State) (p c : Nat) : Nat :=
  let q := if c < 4 then bits (s.sch p).q0 (8 * c) 8 else bits (s.sch p).q1 (8 * (c - 4)) 8
  (if q = 0 then 1 else q) * 64

/-- The deficit round robin (R232): deficits, the class whose turn it is, whether its quantum has been added; `idle`
counts classes in a row that could not start. Answers the class picked. A class whose head fails the guard, whose class is
stopped, or whose frames all stand in the spill tail keeps its deficit. -/
def State.drr (s : State) (p : Nat) : Nat → Nat → List Nat → Nat → Bool → Option Nat × List Nat × Nat × Bool
  | 0, _, d, t, o => (none, d, t, o)
  | n + 1, idle, d, t, o =>
    let nextT := if t = 0 then 5 else t - 1
    if idle ≥ 6 then (none, d, t, o)
    else
      match s.head p t with
      | none =>
        let d := if (s.queue (queueKey p t)).tail.isEmpty then d.set t 0
          else d.set t (d.getD t 0 + (if o then 0 else s.quantum p t))
        s.drr p n (idle + 1) d nextT false
      | some f =>
        let have_ := d.getD t 0 + (if o then 0 else s.quantum p t)
        if s.stoppedCls p t || !s.fits p f then s.drr p n (idle + 1) (d.set t have_) nextT false
        else
          if s.occBytes f ≤ have_ then (some t, d.set t have_, t, true)
          else s.drr p n 0 (d.set t have_) nextT false

/-- What the scheduler picks on port `p` (R229): nothing, or a queue slot. -/
def State.pick (s : State) (p : Nat) : State × Option Nat :=
  match s.dueLaunch p with
  | some q => (s, some (8 + q))
  | none =>
    let fit : Nat → Bool := fun slot => match s.head p slot with | some f => s.fits p f | none => false
    if fit 7 then (s, some 7)
    else if fit 10 && decide ((s.sch p).host7 ≠ 0) && decide (0 ≤ (s.port p).tok7) then (s, some 10)
    else if fit 6 && decide (0 ≤ (s.port p).tok6) && !s.stoppedCls p 6 then (s, some 6)
    else
      let x := s.port p
      let r := s.drr p 1800 0 x.deficit x.turn x.drrOpen
      (s.upPort p (fun x => { x with deficit := r.2.1, turn := r.2.2.1, drrOpen := r.2.2.2 }), r.1)

/-- The charges of a frame start (R231–R233). -/
def State.chargeStart (s : State) (p slot : Nat) (f : Frame) : State :=
  let occ := s.occBytes f
  let c : Int := ((occ * 8 * secU : Nat) : Int)
  let s := if slot = 6 then s.upPort p (fun x => { x with tok6 := x.tok6 - c })
    else if slot = 10 then s.upPort p (fun x => { x with tok7 := x.tok7 - c })
    else if slot < 6 then s.upPort p (fun x => { x with
      deficit := x.deficit.set slot (x.deficit.getD slot 0 - occ) })
    else s
  s

/-- After a class 0–5 queue has emptied its deficit is 0 and the turn passes (R232). -/
def State.drrEmptied (s : State) (p slot : Nat) : State :=
  if slot < 6 ∧ (s.queue (queueKey p slot)).frames.isEmpty then
    s.upPort p (fun x => { x with
      deficit := x.deficit.set slot 0, turn := if slot = 0 then 5 else slot - 1, drrOpen := false })
  else s

/-- The head of slot `slot` leaves its queue and starts, ages out, or is judged late (R182, R239): answers whether the
line is now busy. -/
def State.serve (s : State) (p slot phase : Nat) (dTx : Int) : State × Bool :=
  match s.head p slot with
  | none => (s, false)
  | some f =>
    let s := s.popHead p slot
    if slot = 8 ∨ slot = 9 then
      match f.direct with
      | some d =>
        let tol : Int := (s.sch p).lateTol * (4 * nsU)
        let late := match d.launch with
          | some l => decide (l + tol < s.now + s.byteTime p 8)
          | none => false
        let pol := if slot = 8 then s.getF TIL_SCH_LT.LATE_POL0 p else s.getF TIL_SCH_LT.LATE_POL1 p
        if late && pol == 1 then (s.dropEgress p slot f 0x35, false)
        else s.startFrame p slot f late phase dTx
      | none => (s, false)
    else if s.aged f p then ((s.dropEgress p slot f 0x34).drrEmptied p slot, false)
    else
      let r := s.startFrame p slot f false phase dTx
      ((if r.2 then r.1.chargeStart p slot f else r.1).drrEmptied p slot, r.2)

/-- Picks until a frame starts or none is offered; `fuel` bounds the frames that may be discarded on the way. -/
def State.schedule (s : State) (p phase : Nat) (dTx : Int) : Nat → State
  | 0 => s
  | n + 1 =>
    match s.pick p with
    | (s, none) => s
    | (s, some slot) =>
      let r := s.serve p slot phase dTx
      if r.2 then r.1 else r.1.schedule p phase dTx n

/-- A generated flow-control frame is sent (R144, R520). -/
def State.sendFc (s : State) (p : Nat) (f : FcFrame) : State :=
  let s := ((s.installAllow p).setF TIL_PORT_STAT.TX_LPI 0 p).emit (.txFlowControl p f)
  match f with
  | .pause _ => s.countS (group 0 p) 9
  | .pfc en _ => (bitsSet 7 en).foldl (fun s c => s.countS (group 0 p) (18 + c)) s

/-- Frames that all queues of port `p` hold. -/
def State.portFrames (s : State) (p : Nat) : Nat :=
  s.queues.foldl (fun n e => if e.1 / 16 = p then n + e.2.frames.length else n) 0

/-- A blocked guarded port's queues are emptied under QUENCH_BLOCK (R436). -/
def State.blockFlush (s : State) (p : Nat) : State :=
  [0, 1, 2, 3, 4, 5, 6, 7, 10, 8, 9].foldl (fun s slot => s.flushQueue p slot 0x41 false) s

end Sys2Proof.Machine
end

