-- ==== Sys2Proof/Machine/Fabric.lean ====
section
/-!
DEFINITION. The fabric (R187–R222): packing frames into cells, the two slot patterns, credits, the middle banks,
resequencing, rebuild, egress replication and spill.
-/

namespace Sys2Proof.Machine

/-! ### Packing (R190–R193, R196) -/

/-- The streams of a tile: 0–7 UNICAST LO by output tile, 8–15 UNICAST HP, 16 MULTICAST LO, 17 MULTICAST HP (R192). -/
def State.stream (s : State) (i x : Nat) : Stream := Tab.getD (s.tile i).streams x {}
def State.upStream (s : State) (i x : Nat) (f : Stream → Stream) : State :=
  s.upTile i (fun t => { t with streams := Tab.update t.streams x {} f })

/-- Whether stream `x` is HP. -/
def streamHp (x : Nat) : Bool := decide (8 ≤ x ∧ x < 16) || x == 17

/-- The stream of a frame: by destination tile `j`, or MULTICAST, and by class (R192). -/
def streamOf (mc : Bool) (j cls : Nat) : Nat :=
  if mc then (if 6 ≤ cls then 17 else 16) else (if 6 ≤ cls then 8 + j else j)

/-! ### The bits of a cell (R190, R191) -/

/-- A lookup result in the 22 bytes of a frame header: the fields of R176 in their order, from bit 0. -/
def LkpResult.packed (r : LkpResult) : Nat :=
  r.destKind % 8 + r.dest % 65536 * 2 ^ 3 + r.cls % 8 * 2 ^ 19 + r.flow % 65536 * 2 ^ 22 + r.epoch % 65536 * 2 ^ 38 +
  r.lkpTime % 65536 * 2 ^ 54 + flag r.routed * 2 ^ 70 + r.nhMac % 2 ^ 48 * 2 ^ 71 + r.nhVlan % 4096 * 2 ^ 119 +
  flag r.hostCopy * 2 ^ 131 + r.hostRing % 256 * 2 ^ 132 + flag r.ringEn * 2 ^ 140 + r.hostReason % 256 * 2 ^ 141 +
  r.dropReason % 256 * 2 ^ 149 + r.hash % 65536 * 2 ^ 157

/-- The 32-byte header that precedes a frame in the payload (R191). -/
def Frame.header (f : Frame) : Bytes :=
  toLE 2 (f.bytes.length % 16384 + f.region % 4 * 16384) ++ toLE 2 (f.inPort % 512) ++ toLE 22 f.res.packed ++
  toLE 4 (stampNs f.stamp + stampSec f.stamp % 4 * 2 ^ 30) ++ toLE 2 (stampSub f.stamp)

/-- CONT (R190): the payload begins with the continuation of a frame started in an earlier cell. -/
def Cell.cont (c : Cell) : Bool := match c.frags with | f :: _ => f.start != 0 | [] => false

/-- FIRST (R190): the offset of the first frame header that starts in the cell, 0xFF when none does. -/
def firstStart : List Frag → Nat → Nat
  | [], _ => 0xFF
  | f :: t, o => if f.start = 0 then o else firstStart t (o + f.len)

/-- The payload of a cell; what follows its FILL bytes the spec does not state, zeros here (log entry 66). -/
def Cell.payload (c : Cell) : Bytes :=
  if c.kind = 2 then padTo 240 []
  else padTo 240 (c.frags.flatMap (fun f => slice (f.frame.header ++ f.frame.bytes) f.start f.len))

/-- The header of a cell below its CRC: bits [111:0] (R190). -/
def Cell.headBits (c : Cell) : Nat :=
  c.kind % 4 + flag c.hp * 2 ^ 2 + c.src % 8 * 2 ^ 3 + c.dst % 8 * 2 ^ 6 + flag c.cont * 2 ^ 9 +
  firstStart c.frags 0 * 2 ^ 10 + c.fill % 256 * 2 ^ 18 + c.seq % 65536 * 2 ^ 32 + c.tileMap % 256 * 2 ^ 48 +
  c.eqId % 2048 * 2 ^ 56 + c.sendTime % 65536 * 2 ^ 80

/-- The CRC of a cell (R190). -/
def Cell.crc (c : Cell) : Nat := crc16 0x1021 0xFFFF (toLE 14 c.headBits ++ c.payload)

/-- The 256 bytes of a cell (R190). -/
def Cell.image (c : Cell) : Bytes := toLE 14 c.headBits ++ toLE 2 c.crc ++ c.payload

/-! ### Closing and staging (R192, R193, R196) -/

/-- Stream `x` closes its current cell (R190, R193). -/
def State.closeCell (s : State) (i x : Nat) : State :=
  s.upStream i x (fun t =>
    let c : Cell := {
      kind := if 16 ≤ x then 1 else 0, hp := streamHp x, src := i, dst := if 16 ≤ x then 0 else x % 8, seq := t.seq,
      tileMap := t.tileMap, frags := t.frags, fill := t.fill, multicast := decide (16 ≤ x) }
    { t with frags := [], fill := 0, tileMap := 0, closed := t.closed ++ [c], seq := (t.seq + 1) % 65536 })

/-- Bytes `start` to `total` of a frame with its header packed into stream `x`, cells closing as they fill (R192). -/
def State.packFrom (s : State) (i x tiles : Nat) (f : Frame) (total : Nat) : Nat → Nat → State
  | 0, _ => s
  | n + 1, start =>
    if total ≤ start then s
    else
      let len := min (240 - (s.stream i x).fill) (total - start)
      let s := s.upStream i x (fun t => { t with
        frags := t.frags ++ [{ frame := f, start := start, len := len }], fill := t.fill + len,
        tileMap := t.tileMap ||| tiles })
      let s := if 240 ≤ (s.stream i x).fill then s.closeCell i x else s
      s.packFrom i x tiles f total n (start + len)

/-- A frame enters stream `x` of tile `i` (R191, R192). -/
def State.pack (s : State) (i x tiles : Nat) (f : Frame) : State :=
  s.packFrom i x tiles f (f.bytes.length + 32) (f.bytes.length / 240 + 3) 0

/-- Cells of stream `x` in staging. -/
def Stream.cells (t : Stream) : Nat := t.closed.length + (if t.fill = 0 then 0 else 1)

/-- Whether `n` more cells of stream `x` pass the staging limits of tile `i` (R196; log entry 23): an HP frame unless the HP
reserve is full already. -/
def State.stagingRoom (s : State) (i x n : Nat) : Bool :=
  let sum := (s.tile i).streams.foldl (fun k e => if streamHp e.1 = streamHp x then k + e.2.cells else k) 0
  if streamHp x then decide (sum < 128)
  else decide ((s.stream i x).cells + n ≤ 256) && decide (sum + n ≤ 896)

/-- CELL_CLOSE (R193): the stream's partly filled cell closes. -/
def execCellClose (tile stream : Nat) (s : State) : Answer State :=
  .next (if (s.stream tile stream).fill = 0 || !s.cclk then s else s.closeCell tile stream)

/-! ### Stage one (R188, R194, R195) -/

/-- The share of credit at a bank for queue `q` (R195). -/
def creditShare (q : Nat) : Nat := if q < 8 then 64 else if q < 16 then 12 else if q = 16 then 64 else 8

/-- Whether tile `i` holds credit at bank `m` for queue `q`. -/
def State.hasCredit (s : State) (i m q : Nat) : Bool :=
  decide (Tab.getD s.fabric.used (creditKey i m q) 0 < creditShare q)

/-- The credits of tile `i` that return from bank `m` in their slot (R195). -/
def State.creditReturn (s : State) (i m : Nat) : State :=
  let mine := s.fabric.returns.filter (fun r => r.1 == i && r.2.1 == m)
  let s := { s with fabric := { s.fabric with returns := s.fabric.returns.filter (fun r => !(r.1 == i && r.2.1 == m)) } }
  mine.foldl (fun s r => { s with fabric := { s.fabric with
    used := Tab.setD s.fabric.used (creditKey i m r.2.2) (Tab.getD s.fabric.used (creditKey i m r.2.2) 0 - 1) 0 } }) s

/-- The next stream of a priority that tile `i` serves for bank `m` (R194): round robin from pointer `r` over `l`. -/
def State.nextStream (s : State) (i m r : Nat) (l : List Nat) : Option Nat :=
  ((List.range l.length).map (fun k => l.getD ((r + k) % l.length) 0)).find? (fun x =>
    !(s.stream i x).closed.isEmpty && s.hasCredit i m x)

/-- One cell sent by tile `i` to bank `m`, if a stream has one and holds credit (R194). -/
def State.sendCell (s : State) (i m : Nat) : State :=
  let t := s.tile i
  let hpL := [8, 9, 10, 11, 12, 13, 14, 15, 17]
  let loL := [0, 1, 2, 3, 4, 5, 6, 7, 16]
  let pos : List Nat → Nat → Nat := fun l x => (l.findIdx? (fun y => y == x)).getD 0
  let go : Nat → State := fun x =>
    match (s.stream i x).closed with
    | [] => s
    | c :: rest =>
      let s := s.upStream i x (fun t => { t with closed := rest })
      let s := if streamHp x then s.upTile i (fun t => { t with rrHp := (pos hpL x + 1) % 9 })
        else s.upTile i (fun t => { t with rrLo := (pos loL x + 1) % 9 })
      let s := s.perf i { code := 0x04, cls := some (if streamHp x then 0xC0 else 0x3F) }
      { s with fabric := { s.fabric with
          flight1 := s.fabric.flight1 ++ [(m, { c with sendTime := s.fabric.slot / 8 % 65536 })],
          used := Tab.update s.fabric.used (creditKey i m x) 0 (· + 1) } }
  match s.nextStream i m t.rrHp hpL with
  | some x => go x
  | none =>
    match s.nextStream i m t.rrLo loL with
    | some x => go x
    | none => s

/-- Stage one of a slot for tile `i` (R188, R194, R195, R222): credits return, and up to two cells go out. -/
def State.stageOne (s : State) (t i : Nat) : State :=
  let m := (i + t) % 8
  let s := s.creditReturn i m
  if (s.fence i).st != 0 then s else (s.sendCell i m).sendCell i m

/-! ### Stage two (R199–R201, R208, R220) -/

/-- An event of R220 on link or in bank `k`: the sixteenth within 1 ms, 1,800,000 CCLK, raises fault `id` (R221). -/
def State.sixteenth (s : State) (k id detail : Nat) : State :=
  let l := (s.fabric.slot :: Tab.getD s.fabric.events k []).take 16
  let s := { s with fabric := { s.fabric with events := Tab.set s.fabric.events k l } }
  if l.length = 16 ∧ s.fabric.slot - l.getD 15 0 ≤ 1800000 then s.raiseOnce id detail else s

/-- An event of R220 on a link of a tile: counted on the link, in GLB_FAB_STAT, and reported as a NOTICE. -/
def State.cellEvent (s : State) (counter tile : Nat) : State :=
  ((((s.countE (group 7 0) counter).orF GLB_FAB_STAT.CELL_ERR (1 <<< tile))).raiseOnce 0x98 tile).sixteenth counter
    (0x11 + 16 * tile) counter

/-- An uncorrectable error in bank `m` (R220). -/
def State.eccEvent (s : State) (m : Nat) : State :=
  (((s.countE (group 7 0) (24 + m)).orF GLB_FAB_STAT.ECC_ERR (1 <<< m)).raiseOnce 0x98 m).sixteenth (16 + m) (0x90 + m) m

/-- The cell at the head of a UNICAST queue leaves bank `m` for its tile. -/
def State.takeUnicast (s : State) (m q : Nat) : State × Option Cell :=
  match Tab.getD (s.bank m).queues q [] with
  | [] => (s, none)
  | c :: rest => ((s.upBank m (fun b => { b with queues := Tab.set b.queues q rest })).creditBack m c, some c)

/-- A copy of the first window cell of MULTICAST queue `q` that names tile `j` leaves bank `m` (R208). -/
def State.takeMulticast (s : State) (m q j : Nat) : State × Option Cell :=
  let l := Tab.getD (s.bank m).queues q []
  match (l.take 2).find? (fun c => bit c.tileMap j) with
  | none => (s, none)
  | some c =>
    let left := putBit c.tileMap j false
    let l' := if left = 0 then l.filter (fun x => x != c)
      else l.map (fun x => if x = c then { c with tileMap := left } else x)
    let s := s.upBank m (fun b => { b with queues := Tab.set b.queues q l' })
    (if left = 0 then s.creditBack m c else s, some c)

/-- A recalled spill cell requested by tile `j` leaves bank `m` (R218); requests for cells no longer stored lapse. -/
def State.takeRecall (s : State) (m j : Nat) : State × Option Cell :=
  match (Tab.getD (s.bank m).recalls j []).filter (fun r => (s.bank m).spill.contains r) with
  | [] => (s.upBank m (fun b => { b with recalls := Tab.erase b.recalls j }), none)
  | r :: rest =>
    (s.upBank m (fun b => { b with
      recalls := Tab.set b.recalls j rest, spill := b.spill.filter (fun x => x != r) }),
     some { kind := 3, spill := true, src := j, dst := j, seq := r.2, eqId := r.1 })

/-- One HP cell from bank `m` to tile `j`: `mcFirst` says which source is tried first (R199). -/
def State.takeHp (s : State) (m j : Nat) (mcFirst : Bool) : State × Option Cell :=
  if mcFirst then
    match s.takeMulticast m 17 j with
    | (s, some c) => (s, some c)
    | (s, none) => s.takeUnicast m (8 + j)
  else
    match s.takeUnicast m (8 + j) with
    | (s, some c) => (s, some c)
    | (s, none) => s.takeMulticast m 17 j

/-- One LO-priority cell from source `x` (0 recalled, 1 UNICAST, 2 MULTICAST), which only the recalled source may give
without credit (R199). -/
def State.takeLoFrom (s : State) (m j x : Nat) (credit : Bool) : State × Option Cell :=
  if x = 0 then s.takeRecall m j
  else if !credit then (s, none)
  else if x = 1 then s.takeUnicast m j
  else s.takeMulticast m 16 j

/-- One LO-priority cell, the sources rotating after the one served last (R199). -/
def State.takeLo (s : State) (m j : Nat) (credit : Bool) : State × Option Cell :=
  let last := Tab.getD (s.bank m).loTurn j 2
  let try_ : State → Nat → State × Option Cell := fun s k =>
    let x := (last + 1 + k) % 3
    match s.takeLoFrom m j x credit with
    | (s, some c) => (s.upBank m (fun b => { b with loTurn := Tab.set b.loTurn j x }), some c)
    | (s, none) => (s, none)
  match try_ s 0 with
  | (s, some c) => (s, some c)
  | (s, none) =>
    match try_ s 1 with
    | (s, some c) => (s, some c)
    | (s, none) => try_ s 2

/-- One cell of a visit, HP ahead of LO. -/
def State.takeCell (s : State) (m j : Nat) (hp lo mcFirst : Bool) : State × Option Cell :=
  match (if hp then s.takeHp m j mcFirst else (s, none)) with
  | (s, some c) => (s, some c)
  | (s, none) => s.takeLo m j lo

/-- The visit word of bank `m` for tile `j` (R201): by input tile and priority, the oldest MULTICAST cell that still
names `j`. -/
def State.visitWord (s : State) (m j : Nat) : List (Option Nat) :=
  (List.range 16).map (fun e =>
    ((Tab.getD (s.bank m).queues (if e % 2 = 1 then 17 else 16) []).find? (fun c =>
      c.src == e / 2 && bit c.tileMap j)).map (fun c => c.seq))

/-- A VOID cell in place of a damaged one (R220): it carries no payload, and stands for the parts it replaces. -/
def Cell.toVoid (c : Cell) : Cell := { c with kind := 2, fill := 0 }

/-- Spill cells of tile `j` sent to bank `m` on the reverse direction: one of the first queue that has one (R217). -/
def State.spillOne (s : State) (m j : Nat) : State :=
  if decide (76480 ≤ (s.bank m).spill.length) then s
  else
    match s.queues.find? (fun e => decide (e.1 / 16 / 32 = j ∧ e.1 / 16 < 256) &&
        e.2.tail.any (fun x => decide (x.banks.length < x.cells))) with
    | none => s
    | some e =>
      let sent : Option SpillFrame := e.2.tail.find? (fun x => decide (x.banks.length < x.cells))
      match sent with
      | none => s
      | some x =>
        let s := s.upBank m (fun b => { b with spill := b.spill ++ [(e.1, x.first + x.banks.length)] })
        (s.upQueue e.1 (fun q => { q with tail := q.tail.map (fun y =>
          if y.first = x.first then { y with banks := y.banks ++ [m] } else y) })).perf j { code := 0x07 }

/-- The frames of tile `j`'s queues whose spill cells have all come back join the on-tile parts as far as the LO region
has pages for them (R216, R218). -/
def State.recallReady (s : State) (j : Nat) : State :=
  match s.queues.find? (fun e => decide (e.1 / 16 / 32 = j ∧ e.1 / 16 < 256) &&
      (match e.2.tail with | x :: _ => decide (x.cells ≤ x.back) && s.loRoom j x.frame | [] => false)) with
  | some e => s.recallIn (e.1 / 16) (e.1 % 16) (e.2.tail.length + 1)
  | none => s

/-- One recall request of tile `j` to bank `m` (R189, R218): the next cell of the first spilled queue whose on-tile part
is below SPILL_ON / 2 and whose next cell bank `m` holds; a cell still in spill staging comes back from there. -/
def State.recallOne (s : State) (m j : Nat) : State :=
  let low := max 2 (s.getF TIL_EGR_SPILL.SPILL_ON j) / 2
  let next : EQueue → Option SpillFrame := fun q => q.tail.find? (fun x => decide (x.asked < x.cells))
  match s.queues.find? (fun e => decide (e.1 / 16 / 32 = j ∧ e.1 / 16 < 256) && e.2.spilled && decide (e.2.pages < low) &&
      (match next e.2 with
       | some x => decide (x.banks.length ≤ x.asked) || x.banks.getD x.asked 8 == m
       | none => false)) with
  | none => s
  | some e =>
    match next e.2 with
    | none => s
    | some x =>
      let staged := decide (x.banks.length ≤ x.asked)
      let s := s.upQueue e.1 (fun q => { q with tail := q.tail.map (fun y =>
        if y.first = x.first then { y with
          asked := y.asked + 1, back := if staged then y.back + 1 else y.back,
          banks := if staged then y.banks ++ [m] else y.banks }
        else y) })
      if staged then s.recallIn (e.1 / 16) (e.1 % 16) (e.2.tail.length + 1)
      else s.upBank m (fun b => { b with
        recalls := Tab.update b.recalls j [] (fun l => l ++ [(e.1, x.first + x.asked)]) })

/-- A cell that bank `m` sends while its copy in the store is damaged (R220): a VOID cell goes instead, and one for each
target that a multicast cell still names. -/
def State.voided (s : State) (m : Nat) (c : Cell) : State × Cell :=
  let s := s.eccEvent m
  (if c.multicast then s.upBank m (fun b => { b with
      queues := b.queues.map (fun e => (e.1, e.2.map (fun x =>
        if x.multicast ∧ x.src = c.src ∧ x.seq = c.seq ∧ x.hp = c.hp then x.toVoid else x))) }) else s,
   c.toVoid)

/-- Bank `m`'s visit of slot pattern `t` (R188, R199–R201, R217, R218): up to two cells and the visit word go to tile
`j`, spill cells and a recall request come back, and the tile's credit flags are noted for the next visit. `ecc1` and
`ecc2` say that the first and the second cell are damaged in the store. -/
def State.stageTwo (s : State) (t m : Nat) (ecc1 ecc2 : Bool) : State :=
  let j := (m + t) % 8
  if (s.fence j).st != 0 then s
  else
    let b := s.bank m
    let hp := Tab.getD b.hpFlag j false
    let lo := Tab.getD b.loFlag j false
    let first := !Tab.getD b.hpMcFirst j true
    let c1 := s.takeCell m j hp lo first
    let c2 := match c1.2 with
      | some _ => c1.1.takeCell m j hp lo (!first)
      | none => (c1.1, none)
    let s := c2.1
    let s := match c1.2 with
      | some c => if c.hp then s.upBank m (fun b => { b with hpMcFirst := Tab.set b.hpMcFirst j c.multicast }) else s
      | none => if !hp && !lo then s.perf j { code := 0x06 } else s
    let sent := ((c1.2.map (fun c => (c, ecc1))).toList ++ (c2.2.map (fun c => (c, ecc2))).toList).foldl
      (fun (a : State × List Cell) e =>
        if e.2 then ((a.1.voided m e.1).1, a.2 ++ [(a.1.voided m e.1).2]) else (a.1, a.2 ++ [e.1])) (s, [])
    let s := sent.1
    let cells := sent.2
    let v : Visit := { bank := m, slot := s.fabric.slot, cells := cells, word := s.visitWord m j }
    let s := { s with fabric := { s.fabric with flight2 := s.fabric.flight2 ++ [(j, v)] } }
    let s := (((s.spillOne m j).spillOne m j).recallReady j).recallOne m j
    s.upBank m (fun b => { b with
      hpFlag := Tab.set b.hpFlag j (decide (s.regionPages j true + 2 ≤ 2048)),
      loFlag := Tab.set b.loFlag j (decide (s.spillStaged j + 2 ≤ 64)) })

/-- One fabric slot (R187, R188, R198). -/
def State.fabricSlot (s : State) (ecc : SlotEcc) : State :=
  let t := s.fabric.slot % 8
  let s := (List.range 8).foldl (fun s i => s.stageOne t i) s
  let s := (List.range 8).foldl (fun s m => s.stageTwo t m (bit ecc.first m) (bit ecc.second m)) s
  let s := (bitsSet 8 ecc.corrected).foldl (fun s m => s.countE (group 7 0) (16 + m)) s
  { s with fabric := { s.fabric with slot := s.fabric.slot + 1 } }

/-- FABRIC_SLOT (R188); there is no slot without CCLK (R26, R187). -/
def execFabricSlot (ecc : SlotEcc) (s : State) : Answer State :=
  .next (if s.cclk then s.fabricSlot ecc else s)

/-! ### Landing (R197, R220, R222) -/

/-- A cell reaches bank `m`. -/
def State.land (s : State) (m : Nat) (c : Cell) (crcOk : Bool) : State :=
  if !crcOk then
    let s := (s.cellEvent c.src c.src).creditBack m c
    if c.multicast then (bitsSet 8 c.tileMap).foldl (fun s j => s.loseCell j 0x24 c) s
    else { s with fabric := { s.fabric with lost := s.fabric.lost ++ [c] } }
  else if c.multicast then
    let gone := (bitsSet 8 c.tileMap).filter (fun j => (s.fence j).st != 0)
    let s := gone.foldl (fun s j => s.loseCell j 0x26 c) s
    let c := { c with tileMap := c.tileMap - (c.tileMap &&& maskOf gone) }
    if c.tileMap = 0 then s.creditBack m c
    else s.upBank m (fun b => { b with queues := Tab.update b.queues c.queue [] (fun l => l ++ [c]) })
  else if (s.fence c.dst).st != 0 then (s.loseCell c.dst 0x26 c).creditBack m c
  else s.upBank m (fun b => { b with queues := Tab.update b.queues c.queue [] (fun l => l ++ [c]) })

/-- The cell longest in flight to bank `m` lands. -/
def State.landNext (s : State) (m : Nat) (crcOk : Bool) : State :=
  match s.fabric.flight1.find? (fun e => e.1 == m) with
  | none => s
  | some e =>
    let s := { s with fabric := { s.fabric with flight1 := s.fabric.flight1.erase e } }
    s.land m e.2 crcOk

/-- CELL_LAND (R197). -/
def execCellLand (bank : Nat) (crcOk : Bool) (s : State) : Answer State :=
  .next (if s.cclk then s.landNext bank crcOk else s)

/-! ### Rebuild and replication (R205, R209, R214) -/

/-- Table 12's record for `rep` in the bank of epoch `e` (R184). -/
def State.repRecord (s : State) (rep e : Nat) : Option Rec :=
  let bank := match s.tables.repRetired.find? (fun r => decide (e ≤ r.1)) with
    | some r => r.2
    | none => Tab.getD s.tables.act 12 []
  bank.find? (fun r => dw r.words 0 % 65536 == rep)

/-- The port mask of a replication record (R587). -/
def repMask (r : Rec) : Nat :=
  (List.range 8).foldl (fun n k => n + dw r.words (8 + k) * 2 ^ (32 * k)) 0

/-- The output tiles of a port mask. -/
def maskTiles (mask : Nat) : Nat := maskOf ((List.range 8).filter (fun t => bits mask (32 * t) 32 != 0))

/-- One port copy of a multicast frame (R209, R214): the first keeps the frame's charge, the others are charged. -/
def State.copyTo (s : State) (p : Nat) (f : Frame) : State :=
  match Tab.get? s.fabric.tokens f.uid with
  | none => s
  | some k =>
    let g : Frame := { f with res := { f.res with destKind := 0, dest := p } }
    let s := if f.counted then s.epochIn f.res.epoch else s
    if !k.taken then
      ({ s with fabric := { s.fabric with tokens := Tab.set s.fabric.tokens f.uid { k with taken := true } } }).arrive p g
    else
      match s.admitCells f.inPort f.res.cls f.cells with
      | (.charged r, s) => s.arrive p { g with region := r }
      | (.refused _, s) => s.dropIngress { g with region := 4 } (if 6 ≤ f.res.cls then 0x23 else 0x21)

/-- A direct-mode frame of port 257 reaches its output tile (R250): its queue, or a launch-time queue with room for it. -/
def State.deliverDirect (s : State) (d : Direct) (f : Frame) : State :=
  if f.res.destKind = 2 then s.arrive 256 f
  else if d.launch.isNone then s.enqueue f.res.dest f.res.cls f
  else if s.directRoom f.res.dest (8 + d.launchQ) f.bytes.length true then s.enqueueLaunch f.res.dest d.launchQ f
  else s.finish f

/-- A rebuilt frame passes to its queue or to egress replication on tile `j` (R205, R209). -/
def State.deliver (s : State) (j : Nat) (mc : Bool) (f : Frame) : State :=
  if !mc then
    match f.direct with
    | some d => s.deliverDirect d f
    | none => (if f.res.destKind = 2 then s.arrive 256 f else if f.res.destKind = 3 then s.arrive 257 f else s.arrive f.res.dest f)
  else
    match Tab.get? s.fabric.tokens f.uid with
    | some k =>
      if !bit k.left j then s
      else
        let mask := match s.repRecord f.res.dest f.res.epoch with | some r => repMask r | none => 0
        let s := (bitsSet 32 (bits mask (32 * j) 32)).foldl (fun s p => s.copyTo (32 * j + p) f) s
        s.mcDone f.uid j
    | none => s

/-- One fragment of a released cell (R205); `void` fragments discard the frames they touch. -/
def State.feedFrag (s : State) (j : Nat) (mc void : Bool) (part : Option (Frame × Nat)) (f : Frag) :
    State × Option (Frame × Nat) :=
  let total := f.frame.bytes.length + 32
  let joins := match part with
    | some (g, got) => g.uid == f.frame.uid && got == f.start
    | none => f.start == 0
  let joins := joins || f.start == 0
  if void || !joins then (s.loseFrag j mc 0x24 f, none)
  else if f.start + f.len = total then (s.deliver j mc f.frame, none)
  else (s, some (f.frame, f.start + f.len))

/-- A released cell is rebuilt into frames (R205). -/
def State.feedCell (s : State) (j : Nat) (part : Option (Frame × Nat)) (c : Cell) : State × Option (Frame × Nat) :=
  let s := s.perf j { code := 0x05, cls := some (if c.hp then 0xC0 else 0x3F) }
  c.frags.foldl (fun a f => a.1.feedFrag j c.multicast (c.kind == 2) a.2 f) (s, part)

/-! ### Resequencing (R202–R204) -/

def State.uniSeq (s : State) (k : Nat) : Reseq := Tab.getD s.fabric.uni k {}
def State.upUni (s : State) (k : Nat) (r : Reseq) : State :=
  { s with fabric := { s.fabric with uni := Tab.set s.fabric.uni k r } }
def State.mcSeq (s : State) (k : Nat) : Reseq := Tab.getD s.fabric.mc k {}
def State.upMc (s : State) (k : Nat) (r : Reseq) : State :=
  { s with fabric := { s.fabric with mc := Tab.set s.fabric.mc k r } }

/-- Every held cell that now follows the expected SEQ is released (R202). -/
def State.releaseUni (s : State) (j k : Nat) : Nat → State
  | 0 => s
  | n + 1 =>
    let r := s.uniSeq k
    match r.held.find? (fun h => h.cell.seq == r.expect) with
    | none => s
    | some h =>
      let x := s.feedCell j r.part h.cell
      let s := x.1.upUni k { expect := (r.expect + 1) % 65536, held := r.held.filter (fun y => y != h), part := x.2 }
      s.releaseUni j k n

/-- A UNICAST cell arrives at tile `j` (R202). -/
def State.takeUni (s : State) (j : Nat) (c : Cell) : State :=
  let k := uniKey c.src j c.hp
  let r := s.uniSeq k
  if 1023 < (c.seq + 65536 - r.expect) % 65536 then
    (s.countS (group 7 0) (40 + j)).loseCell j 0x25 c
  else
    let r := { r with held := r.held ++ [{ cell := c, arrived := s.fabric.slot }] }
    (s.upUni k r).releaseUni j k (r.held.length + 1)

/-- Whether a held MULTICAST cell has been cleared by all eight banks (R204). -/
def Held.ready (h : Held) : Bool := h.seen % 256 == 255

/-- The held cell of a MULTICAST stream with the lowest SEQ. -/
def lowestHeld : List Held → Option Held
  | [] => none
  | h :: t =>
    match lowestHeld t with
    | none => some h
    | some x => if (x.cell.seq + 65536 - h.cell.seq) % 65536 < 32768 then some h else some x

/-- The cells of a MULTICAST stream that R204 lets go are released in SEQ order. -/
def State.releaseMc (s : State) (j k : Nat) : Nat → State
  | 0 => s
  | n + 1 =>
    let r := s.mcSeq k
    match lowestHeld r.held with
    | none => s
    | some h =>
      if !h.ready then s
      else
        let x := s.feedCell j r.part h.cell
        (x.1.upMc k { r with held := r.held.filter (fun y => y != h), part := x.2 }).releaseMc j k n

/-- A visit word's entry for a stream clears a held cell (R204): EMPTY, or greater than its SEQ within the window. -/
def wordClears (e : Option Nat) (seq : Nat) : Bool :=
  match e with
  | none => true
  | some x => decide (1 ≤ (x + 65536 - seq) % 65536 ∧ (x + 65536 - seq) % 65536 ≤ 1023)

/-- A visit word acts on the MULTICAST streams of tile `j` (R204): only on cells that arrived before it was sent. -/
def State.takeWord (s : State) (j : Nat) (v : Visit) : State :=
  (List.range 16).foldl (fun s e =>
    let k := mcKey (e / 2) j (e % 2 == 1)
    let r := s.mcSeq k
    if r.held.isEmpty then s
    else
      let held := r.held.map (fun h =>
        if h.arrived ≤ v.slot ∧ wordClears (v.word.getD e none) h.cell.seq then { h with seen := h.seen ||| (1 <<< v.bank) }
        else h)
      (s.upMc k { r with held := held }).releaseMc j k (held.length + 1)) s

/-- A recalled spill cell arrives at tile `j` (R218); damaged on the link or sent as VOID, its frame is lost. -/
def State.takeSpill (s : State) (j : Nat) (c : Cell) (ok : Bool) : State :=
  let inFrame : SpillFrame → Bool := fun x => decide (x.first ≤ c.seq ∧ c.seq < x.first + x.cells)
  let s := s.perf j { code := 0x08 }
  if ok then
    let s := s.upQueue c.eqId (fun q => { q with tail := q.tail.map (fun x =>
      if inFrame x then { x with back := x.back + 1 } else x) })
    s.recallIn (c.eqId / 16) (c.eqId % 16) ((s.queue c.eqId).tail.length + 1)
  else
    let bad := (s.queue c.eqId).tail.filter inFrame
    let s := s.upQueue c.eqId (fun q => { q with tail := q.tail.filter (fun x => !inFrame x) })
    let s := bad.foldl (fun s x => s.dropIngress x.frame 0x24) s
    s.recallIn (c.eqId / 16) (c.eqId % 16) ((s.queue c.eqId).tail.length + 1)

/-- A cell arrives at tile `j`; `ok` is the outcome of its CRC (R202, R204, R220). -/
def State.takeArrived (s : State) (j : Nat) (c : Cell) (ok : Bool) : State :=
  let s := if ok then s else s.cellEvent (8 + j) j
  if c.spill then s.takeSpill j c (ok && c.kind == 3)
  else if c.multicast then
    if ok then
      let k := mcKey c.src j c.hp
      let r := s.mcSeq k
      s.upMc k { r with held := r.held ++ [{ cell := c, arrived := s.fabric.slot }] }
    else s.loseCell j 0x24 c
  else if ok then s.takeUni j c
  else { s with fabric := { s.fabric with lost := s.fabric.lost ++ [c] } }

/-- The visit longest in flight to tile `j` arrives. -/
def State.visit (s : State) (j : Nat) (crcOk : List Bool) : State :=
  match s.fabric.flight2.find? (fun e => e.1 == j) with
  | none => s
  | some e =>
    let s := { s with fabric := { s.fabric with flight2 := s.fabric.flight2.erase e } }
    let s := (List.range e.2.cells.length).foldl (fun s n =>
      match e.2.cells[n]? with
      | some c => s.takeArrived j c (crcOk.getD n true)
      | none => s) s
    s.takeWord j e.2

/-- VISIT_RECEIVE (R202). -/
def execVisitReceive (tile : Nat) (crcOk : List Bool) (s : State) : Answer State :=
  .next (if s.cclk then s.visit tile crcOk else s)

/-- The lowest held SEQ ahead of the expected one. -/
def Reseq.nearest (r : Reseq) : Option Nat :=
  (r.held.foldl (fun (a : Option Nat) h =>
    let d := (h.cell.seq + 65536 - r.expect) % 65536
    match a with
    | some x => some (min x d)
    | none => some d) none)

/-- The frame under rebuild meets a skipped gap (R203, R205): it is discarded now, unless its last byte was in one of the
cells `lost`, with which it has been discarded already. -/
def State.losePart (s : State) (lost : List Cell) (r : Reseq) : State :=
  match r.part with
  | none => s
  | some (f, _) =>
    if lost.any (fun c => c.frags.any (fun g => g.last && g.frame.uid == f.uid)) then s
    else
      let s := s.dropIngress f 0x24
      { s with fabric := { s.fabric with gone := f.uid :: s.fabric.gone } }

/-- A gap of stream (i, j, hp) is skipped (R203). -/
def State.skipGap (s : State) (i j : Nat) (hp : Bool) : State :=
  let k := uniKey i j hp
  let r := s.uniSeq k
  match r.nearest with
  | none => s
  | some d =>
    let inGap : Cell → Bool := fun c =>
      c.src == i && c.dst == j && c.hp == hp && decide ((c.seq + 65536 - r.expect) % 65536 < d)
    let gone := s.fabric.lost.filter inGap
    let s := s.countS (group 7 0) (32 + j) d
    let s := { s with fabric := { s.fabric with lost := s.fabric.lost.filter (fun c => !inGap c) } }
    let s := (gone.foldl (fun s c => s.loseCell j 0x24 c) s).losePart gone r
    (s.upUni k { r with expect := (r.expect + d) % 65536, part := none }).releaseUni j k (r.held.length + 1)

/-- RESEQ_TIMEOUT (R203). -/
def execReseqTimeout (src dst : Nat) (hp : Bool) (s : State) : Answer State :=
  .next (if s.cclk then s.skipGap src dst hp else s)

end Sys2Proof.Machine
end

