-- ==== Sys2Proof/Machine/Media.lean ====
section
/-!
DEFINITION. The media flow engine's work on a flow hit (R253): RTP inspection (R268–R270), the policer (R266, R267),
ST 2022-7 merge (R273–R277) and clean cut (R282–R288); and the commands CUT_SWEEP and MERGE_IDLE_EXPIRY.
-/

namespace Sys2Proof.Machine

/-! ### RTP inspection (R268–R270) -/

/-- A valid RTP fixed header: sequence, timestamp, marker, SSRC (R268). -/
structure Rtp where
  seq : Nat
  ts : Nat
  marker : Bool
  ssrc : Nat
  deriving DecidableEq, Repr

/-- The RTP header at the start of a UDP payload, when it is valid (R268). -/
def rtpOf (h : Hdr) (b : Bytes) : Option Rtp :=
  let o := h.l4 + 8
  if decide (20 ≤ beAt b (h.l4 + 4) 2) && decide (o + 12 ≤ b.length) && byteAt b o / 64 == 2 then
    some { seq := beAt b (o + 2) 2, ts := beAt b (o + 4) 4, marker := decide (128 ≤ byteAt b (o + 1)),
           ssrc := beAt b (o + 8) 4 }
  else none

/-- What a source does with a packet (R270): it begins a frame, and no marker was seen since its last begin. -/
structure SrcEvt where
  begins : Bool := false
  unmarked : Bool := false
  marker : Bool := false
  prev : Int := 0
  deriving DecidableEq, Repr

/-- A source's state after a valid packet stamped `t` (R269, R270), and what the packet did. -/
def Src.step (x : Src) (r : Rtp) (t : Int) : Src × SrcEvt :=
  let begins := x.valid && r.ts != x.rtpTs
  let d := signed 16 ((r.seq + 65536 - x.high) % 65536)
  ({ x with
      valid := true, high := if !x.valid || decide (0 < d) then r.seq else x.high, seq := r.seq, rtpTs := r.ts,
      ssrc := r.ssrc, prevStamp := t, last := some t,
      marked := r.marker || (x.marked && !begins),
      gap := match x.afterMarker with | some m => t - m | none => x.gap,
      afterMarker := if r.marker then some t else none },
   { begins := begins, unmarked := !x.marked, marker := r.marker, prev := x.last.getD x.prevStamp })

/-- Step 1 of R253 for flow `f` (R268, R269): counters and the flow's source state.  A packet without a valid header is a
packet of the source all the same (log entry 68). -/
def State.inspect (s : State) (f : Flow) (r : Option Rtp) (t : Int) : State × SrcEvt :=
  if !f.rtp then (s, {})
  else
    match r with
    | none => ((s.upFlow f.handle (fun z => { z with src := { z.src with last := some t } })).countFlowE f.handle 8, {})
    | some r =>
      let x := (s.flow f.handle).src
      let d := signed 16 ((r.seq + 65536 - x.high) % 65536)
      let s := if x.valid && decide (1 < d) then s.countFlow f.handle 9 (d - 1).toNat else s
      let s := if x.valid && decide (d < 0) then s.countFlow f.handle 10 else s
      let s := if r.marker then s.countFlow f.handle 11 else s
      let s := if f.ssrcEn && r.ssrc != f.ssrc then s.countFlowE f.handle 12 else s
      let y := x.step r t
      (s.upFlow f.handle (fun z => { z with src := y.1 }), y.2)

/-! ### Policing (R266, R267) -/

/-- A flow's fill rate: bit/s × 256. -/
def Flow.fill (f : Flow) : Nat := f.rate * 1000 * (256 + f.tol)

/-- The bucket's depth D at the frame-tick rate in force, in the unit of `FlowRt.tokens` (R266). -/
def State.bucketDepth (s : State) (f : Flow) : Int :=
  ((f.fill * (s.gen 0).den * 1000000000 * f.depth / (max 1 (s.gen 0).num) : Nat) : Int)

/-- A policer's answers. -/
inductive Policed where
  | conform | demote | drop
  deriving DecidableEq, Repr

/-- The policer of R266 for a frame of `occ` bytes stamped `t`; a bucket starts full (R267). -/
def State.police (s : State) (f : Flow) (t : Int) (occ : Nat) : State × Policed :=
  let x := s.flow f.handle
  let depth := s.bucketDepth f
  let tokens := if x.set then min depth (x.tokens + f.fill * max 0 (t - x.lastTs)) else depth
  let last := if x.set then max x.lastTs t else t
  let cost : Int := ((occ * 8 * 256 * 16000000000 : Nat) : Int)
  let ok := decide (cost ≤ tokens)
  let s := s.upFlow f.handle (fun z => { z with
    set := true, tokens := if ok then tokens - cost else tokens, lastTs := last })
  (s, if ok then .conform else if f.excess then .demote else .drop)

/-- The bucket of a flow whose record becomes active for the first time starts full (R267). -/
def State.startBuckets (s : State) : State :=
  s.tables.flowsAct.foldl (fun s f =>
    if (s.flow f.handle).set then s
    else s.upFlow f.handle (fun z => { z with set := true, tokens := s.bucketDepth f, lastTs := s.now / (nsU / 16) })) s

/-- The buckets of every active flow clipped to their depth (R267). -/
def State.clipBuckets (s : State) : State :=
  s.tables.flowsAct.foldl (fun s f =>
    if (s.flow f.handle).set then
      s.upFlow f.handle (fun z => { z with tokens := min (s.bucketDepth f) z.tokens }) else s) s

/-! ### Merge (R273–R275) -/

/-- A merge's answers. -/
inductive Merged where
  | forward | dup | window | resync
  deriving DecidableEq, Repr

/-- The procedure of R273 on sequence `q`; `n` is RESYNC_N, acting at least as 1 (R274). -/
def Merge.decide (g : Merge) (n q : Nat) : Merge × Merged :=
  let fresh : Merge := { g with high := q, map := 1, empty := false, oow := 0 }
  if g.empty then (fresh, .forward)
  else
    let d := signed 16 ((q + 65536 - g.high) % 65536)
    if 1 ≤ d ∧ d ≤ 1023 then
      ({ g with high := q, map := (g.map <<< d.toNat ||| 1) % 2 ^ 1024, oow := 0 }, .forward)
    else if d ≤ 0 ∧ -1023 ≤ d then
      if bit g.map (-d).toNat then ({ g with oow := 0 }, .dup)
      else ({ g with oow := 0, map := g.map ||| (1 <<< (-d).toNat) }, .forward)
    else
      let oow := if 0 < g.oow ∧ q = (g.oowLast + 1) % 65536 then g.oow + 1 else 1
      if max 1 n ≤ oow then (fresh, .resync)
      else ({ g with oow := oow, oowLast := q }, .window)

/-- Step 3 of R253 for a member of group `m`: whether the frame goes on, and what the group's output source did. -/
def State.mergeStep (s : State) (m : Nat) (f : Flow) (r : Option Rtp) (t : Int) : State × Merged × SrcEvt :=
  match r with
  | none => (s.countFlow f.handle 5, .window, {})
  | some r =>
    let x := (s.merge m).decide (s.getF GLB_MED_CFG.RESYNC_N) r.seq
    let s := s.upMerge m (fun _ => x.1)
    match x.2 with
    | .dup => (s.countFlow f.handle 4, .dup, {})
    | .window => (s.countFlow f.handle 5, .window, {})
    | y =>
      let s := if y = .resync then (s.countFlow f.handle 13).setF GLB_MED_HIST.RESYNC_SEEN 1 else s
      let z := (s.merge m).src.step r t
      (s.upMerge m (fun g => { g with src := z.1 }), .forward, z.2)

/-- MERGE_IDLE_EXPIRY (R275): the group's window is emptied. -/
def execMergeIdleExpiry (group : Nat) (s : State) : Answer State :=
  .next (match Tab.get? s.merges group with
    | some g =>
      if s.getF GLB_MED_CFG.MERGE_IDLE_MS = 0 || !s.cclk then s
      else { s with merges := Tab.set s.merges group { g with empty := true, map := 0, high := 0, oow := 0, oowLast := 0 } }
    | none => s)

/-! ### Clean cut (R282–R288) -/

/-- Units of 62.5 ps in a microsecond. -/
def gridUs : Int := 16000

/-- W of a group (R278, R290), as taken at an arming. -/
def State.cutWindow (s : State) (w : List Word) : Nat :=
  let own := bits (dw w 14) 0 16
  let dflt := s.getF GLB_MED_CFG.CUT_WIN_US
  if own ≠ 0 then own else if dflt = 0 then 1 else dflt

/-- CUT_DONE for group `g` naming candidate `k` (R286). -/
def State.cutDone (s : State) (g k : Nat) : State :=
  s.event 3 0x0030 g k (s.frameCount % 4294967296) (fun f => (s.cut g).owner == f)

/-- CUT_FAIL for group `g` (R286). -/
def State.cutFail (s : State) (g code : Nat) : State :=
  (s.setF GLB_MED_HIST.CUT_FAIL_SEEN 1).event 3 0x0031 g code (s.frameCount % 4294967296)
    (fun f => (s.cut g).owner == f)

/-- The source state of candidate `k` of group `g` (R270). -/
def State.candSrc (s : State) (g k : Nat) : Src :=
  let w := (s.cut g).words
  if candMerge w k then (s.merge (candId w k)).src else (s.flow (candId w k)).src

/-- The old source has ended at `e` (rows 5–7 of R284): GAP, or OFF when the target is no source.  Frames of the target since
`e` count as sent between E and CLOSE (R286). -/
def State.cutEnd (s : State) (g : Nat) (e : Int) : State :=
  let x := s.cut g
  if x.n = 4 then (s.upCut g (fun x => { x with state := 0, c := 4 })).cutDone g 4
  else s.upCut g (fun x => { x with
    state := 3, e := e, close := some (e + (s.candSrc g x.c).gap + x.win * gridUs), failed := false,
    heard := match (s.candSrc g x.n).last with | some l => decide (e < l) | none => false })

/-- The expiries of group `g` at instant `t` (R282; rows 7 and 9–11 of R284). -/
def State.cutExpire (s : State) (g : Nat) (t : Int) : State :=
  let x := s.cut g
  if x.state = 2 then
    let last := (s.candSrc g x.c).last
    if x.win * gridUs < t - max x.armedAt (last.getD x.armedAt) then
      (s.upCut g (fun x => { x with oldSilent := x.oldSilent + 1 })).cutEnd g (last.getD x.armedAt)
    else s
  else if x.state = 3 then
    match x.close with
    | none => s
    | some c =>
      if t ≤ c then s
      else
        let s := s.cutFail g (if x.heard then 1 else 2)
        if bit (dw x.words 8) 20 then s.upCut g (fun x => { x with close := none, failed := true })
        else if x.c = 4 then s.upCut g (fun x => { x with state := 0 })
        else s.upCut g (fun x => { x with state := 4 })
  else s

/-- Group `g` enters ON_AIR with candidate `k` by a frame of it (rows 8 and 12 of R284). -/
def State.cutEnter (s : State) (g k : Nat) : State :=
  (s.upCut g (fun x => { x with state := 1, c := k, n := 4, close := none, failed := false, enter := true })).cutDone g k

/-- A candidate frame stamped `t` moves its group (R284, R285): whether it is forwarded. -/
def State.cutFrame (s : State) (g k : Nat) (v : SrcEvt) (t : Int) : State × Bool :=
  let s := s.cutExpire g t
  let x := s.cut g
  if x.state = 1 then (s, k == x.c)
  else if x.state = 2 then
    if k ≠ x.c then (s, false)
    else if v.begins && v.unmarked then (s.cutEnd g v.prev, false)
    else if v.marker then (s.cutEnd g t, true)
    else (s, true)
  else if x.state = 3 then
    if k ≠ x.n then (s, false)
    else
      let inTime := match x.close with | some c => decide (t ≤ c) | none => true
      if v.begins && inTime then (s.cutEnter g k, true)
      else (s.upCut g (fun x => { x with heard := x.heard || decide (x.e < t) }), false)
  else if x.state = 4 then
    if k == x.c && v.begins then (s.cutEnter g k, true) else (s, false)
  else (s, false)

/-- The arming of a selection of candidate `n` (4: no source) on group `g` at instant `t` (R284 rows 1–4, 13, 14;
R285). -/
def State.cutArm (s : State) (g n : Nat) (t : Int) : State :=
  let x := s.cut g
  let w := s.cutWindow x.words
  let s := s.upCut g (fun x => { x with win := w, armedAt := t, sel := none })
  if bit (dw x.words 8) 19 then
    if n = 4 then (s.upCut g (fun x => { x with state := 0, c := 4 })).cutDone g 4
    else
      (s.upCut g (fun y => { y with
        state := 1, c := n, enter := y.enter || x.state != 1 || x.c != n })).cutDone g n
  else
    let s := if 2 ≤ x.state then s.cutFail g 3 else s
    if x.state = 1 ∨ x.state = 2 then
      if n = x.c then (s.upCut g (fun x => { x with state := 1, n := 4 })).cutDone g n
      else s.upCut g (fun x => { x with state := 2, n := n })
    else if n = 4 then (s.upCut g (fun x => { x with state := 0, c := 4, n := 4 })).cutDone g 4
    else
      let tick : Int := (((s.gen 0).den * 16000000000 / max 1 (s.gen 0).num : Nat) : Int)
      s.upCut g (fun x => { x with
        state := 3, n := n, e := t, close := some (t + tick + w * gridUs), failed := false, heard := false })

/-- The output sequence number of a forwarded frame of candidate `k` (R288): answers the sequence number to write, if
the group renumbers. -/
def State.renumber (s : State) (g k : Nat) (r : Option Rtp) : State × Option Nat :=
  match r with
  | none => (s, none)
  | some r =>
    let s := if (s.cut g).enter then
        s.upCut g (fun x => { x with
          enter := false, offs := x.offs.set k (match x.last with
            | some l => (l + 1 + 65536 - r.seq) % 65536
            | none => 0) })
      else s
    let x := s.cut g
    let renum := bit (dw x.words 8) 18
    let q := if renum then (r.seq + x.offs.getD k 0) % 65536 else r.seq
    (s.upCut g (fun x => { x with last := some q }), if renum then some q else none)

/-- The sequence number written into a frame (R288). -/
def putSeq (h : Hdr) (b : Bytes) (q : Nat) : Bytes := fixUdp h b (overlay b (h.l4 + 10) (toBE 2 q))

/-- The sweep of every cut group (R282). -/
def State.sweepCuts (s : State) : State :=
  (Tab.keys s.cuts).foldl (fun s g => s.cutExpire g (s.now / (nsU / 16))) s

/-- CUT_SWEEP (R282). -/
def execCutSweep (s : State) : Answer State := .next (if s.cclk then s.sweepCuts else s)

/-! ### The whole of R253 -/

/-- What the media flow engine leaves of a hit: a drop reason (0 none), whether the frame was demoted, its bytes. -/
structure MediaOut where
  drop : Nat := 0
  demoted : Bool := false
  bytes : Bytes
  deriving DecidableEq, Repr

/-- Steps 1 to 4 of R253 for a frame that hits flow `f`; the expiries of its cut group are judged before the frame itself
counts as one of its source (R282). -/
def State.media (s : State) (f : Flow) (h : Hdr) (b : Bytes) (stamp : Nat) : State × MediaOut :=
  let t : Int := stamp
  let r := if f.rtp then rtpOf h b else none
  let s := match s.cutOf f.handle with | some (g, _) => s.cutExpire g t | none => s
  let s := (s.countFlow f.handle 0).countFlow f.handle 1 (frameOctets b.length)
  let i := s.inspect f r t
  let p := i.1.police f t (b.length + 24)
  let s := p.1
  match p.2 with
  | .drop => (s.countFlow f.handle 2, { drop := 0x10, bytes := b })
  | pol =>
    let demoted := pol == .demote
    let s := if demoted then s.countFlow f.handle 3 else s
    let m := match s.mergeOf f.handle with
      | some g => s.mergeStep g f r t
      | none => (s, .forward, i.2)
    let s := m.1
    match m.2.1 with
    | .dup => (s, { drop := 0x11, demoted := demoted, bytes := b })
    | .window => (s, { drop := 0x12, demoted := demoted, bytes := b })
    | _ =>
      match s.cutOf f.handle with
      | none => (s, { demoted := demoted, bytes := b })
      | some (g, k) =>
        let c := s.cutFrame g k m.2.2 t
        if c.2 then
          let q := c.1.renumber g k r
          (q.1, { demoted := demoted, bytes := match q.2 with | some n => putSeq h b n | none => b })
        else (c.1.countFlow f.handle 6, { drop := 0x13, demoted := demoted, bytes := b })

end Sys2Proof.Machine
end

