-- ==== Sys2Proof/Machine/Lookup.lean ====
section
/-!
DEFINITION. The ingress pipeline (R153–R177, R186, R252): stages 1 to 6 decide a frame, stage 7 stamps, charges and packs
it; and the command LOOKUP.
-/

namespace Sys2Proof.Machine

/-! ### Class by trust map (R160 rules 5 and 6, R161) -/

/-- A class that only rules 1 and 2 of R160 may raise above 5 (R161). -/
def capClass (c : Nat) : Nat := sat 5 c

/-- PVID, TRUST and DEF_CLASS of a port; those of ports 256 and 257 the spec does not give (log entry 24). -/
def State.pvidOf (s : State) (p : Nat) : Nat :=
  if p < 256 then s.getF TIL_PORT_LKP.PVID p else Config.logicalPvid p % 4096
def State.trustOf (s : State) (p : Nat) : Nat :=
  if p < 256 then s.getF TIL_PORT_LKP.TRUST p else Config.logicalTrust p % 4
def State.defClassOf (s : State) (p : Nat) : Nat :=
  if p < 256 then s.getF TIL_PORT_LKP.DEF_CLASS p else Config.logicalClass p % 8

/-- The class of rules 5 and 6 of R160. -/
def State.trustClass (s : State) (p : Nat) (h : Hdr) : Nat :=
  let t := s.trustOf p
  capClass (
    if t = 2 ∧ h.isIp then bits (s.getF GLB_DSCP_MAP.CLASS_D (h.dscp / 8)) (4 * (h.dscp % 8)) 4
    else if (t = 1 ∨ t = 2) ∧ h.tags ≠ 0 then bits (s.getF GLB_PCP_MAP.CLASS_P) (4 * h.pcp) 4
    else s.defClassOf p)

/-! ### Table records (R165, R167, R169, R171) -/

def l2Mac (w : List Word) : Nat := dw w 0 + bits (dw w 1) 0 16 * 4294967296
def l2Vlan (w : List Word) : Nat := bits (dw w 1) 16 12
def l2Kind (w : List Word) : Nat := bits (dw w 1) 28 4
def l2Nh (w : List Word) : Nat := bits (dw w 2) 0 18
def l2Action (w : List Word) : Nat := bits (dw w 3) 0 3
def l2ClassEn (w : List Word) : Bool := bit (dw w 3) 3
def l2Class (w : List Word) : Nat := bits (dw w 3) 4 3
def l2RingEn (w : List Word) : Bool := bit (dw w 3) 7
def l2Dest (w : List Word) : Nat := bits (dw w 3) 16 16

def mcAf (w : List Word) : Nat := bits (dw w 2) 0 1
def mcAny (w : List Word) : Bool := bit (dw w 2) 1
def mcRpfPort (w : List Word) : Nat := bits (dw w 2) 4 9
def mcRpfAct (w : List Word) : Nat := bits (dw w 2) 13 2
def mcGroup (w : List Word) : Nat := recAddr w (if mcAf w = 0 then 0 else 8) (mcAf w)
def mcSource (w : List Word) : Nat := recAddr w (if mcAf w = 0 then 1 else 12) (mcAf w)

/-- The active records of table `t`. -/
def State.active (s : State) (t : Nat) : List Rec := Tab.getD s.tables.act t []

/-- Stage 2 (R165): the MAC entry of (VLAN, MAC). -/
def State.l2Find (s : State) (vlan mac : Nat) : Option Rec :=
  (s.active 0).find? (fun r => l2Kind r.words == 0 && l2Vlan r.words == vlan && l2Mac r.words == mac)

/-- The NH entry of an NH_ID (R165). -/
def State.nhFind (s : State) (nh : Nat) : Option Rec :=
  (s.active 0).find? (fun r => l2Kind r.words == 1 && l2Nh r.words == nh)

/-- Stage 3a (R168): (S,G), then (*,G). -/
def State.mcFind (s : State) (af src dst : Nat) : Option Rec :=
  let g := (s.active 1).filter (fun r => mcAf r.words == af && mcGroup r.words == dst)
  match g.find? (fun r => !mcAny r.words && mcSource r.words == src) with
  | some r => some r
  | none => g.find? (fun r => mcAny r.words)

/-- The prefix and length of an LPM record of the family with `w` address bits. -/
def lpmPrefix (af : Nat) (w : List Word) : Nat := recAddr w 0 af
def lpmLen (w : List Word) : Nat := bits (dw w 4) 0 8

/-- Stage 3b (R169): the longest prefix that holds `dst`. -/
def State.lpmFind (s : State) (af dst : Nat) : Option Rec :=
  let width := if af = 0 then 32 else 128
  (s.active (2 + af)).foldl (fun best r =>
    let n := lpmLen r.words
    if lpmPrefix af r.words / 2 ^ (width - n) = dst / 2 ^ (width - n) then
      match best with
      | some b => if lpmLen b.words < n then some r else best
      | none => some r
    else best) none

/-- h of R170: addresses, protocol and L4 ports in network order (log entry 25); 0 for a frame that is not IP. -/
def State.hashOf (s : State) (h : Hdr) : Nat :=
  if !h.isIp then 0
  else
    let n := if h.ver = 4 then 4 else 16
    crc16 0x8BB7 (s.getF GLB_LKP_CFG.HASH_SEED)
      (toBE n h.src ++ toBE n h.dst ++ toBE 1 h.proto ++ toBE 2 h.sport ++ toBE 2 h.dport)

/-! ### What a decision leaves in the result -/

def LkpResult.drop (r : LkpResult) (code : Nat) : LkpResult := { r with destKind := 4, dropReason := code }
def LkpResult.port (r : LkpResult) (p : Nat) : LkpResult := { r with destKind := 0, dest := p }
def LkpResult.list (r : LkpResult) (rep : Nat) : LkpResult := { r with destKind := 1, dest := rep }
def LkpResult.control (r : LkpResult) : LkpResult := { r with destKind := 3, dest := 257 }

/-- The host through port 256, on a named ring or on the default ring of the class (R93). -/
def LkpResult.host (r : LkpResult) (reason : Nat) (ring : Option Nat) : LkpResult :=
  { r with destKind := 2, dest := 256, hostReason := reason, ringEn := ring.isSome, hostRing := ring.getD 0 % 256 }

/-- The ring that GLB_LKP_MISS names. -/
def State.missRing (s : State) : Option Nat :=
  if s.isF GLB_LKP_MISS.MISS_RING_EN then some (s.getF GLB_LKP_MISS.MISS_RING) else none

/-- What stages 2 and 3 decided (rules 4 to 6 of R174): the result, the class of the deciding entry with CLASS_EN, and
the key flags. -/
structure Way where
  res : LkpResult := {}
  cls : Option Nat := none
  l2Miss : Bool := false
  l3Miss : Bool := false
  routed : Bool := false
  saMiss : Bool := false
  deriving DecidableEq, Repr

/-- The class that an L2 or multicast-route record gives (R160 rule 4). -/
def entryClass (w : List Word) : Option Nat := if l2ClassEn w then some (capClass (l2Class w)) else none

/-- A decision by a MAC entry (R165). -/
def byL2 (w : List Word) : LkpResult :=
  match l2Action w with
  | 0 => LkpResult.port {} (l2Dest w)
  | 2 => LkpResult.host {} 1 (if l2RingEn w then some (l2Dest w) else none)
  | 4 => LkpResult.list {} (l2Dest w)
  | _ => LkpResult.drop {} 9

/-- The miss action of stage 2 (R174 rule 6). -/
def State.l2MissRes (s : State) : LkpResult :=
  match s.getF GLB_LKP_MISS.L2_MISS with
  | 1 => LkpResult.host {} 2 s.missRing
  | 2 => LkpResult.list {} (s.getF GLB_LKP_FLOOD.FLOOD_REP)
  | _ => LkpResult.drop {} 3

/-- A decision by a multicast route (R167, R168) for a frame of port `p`: a frame that it sends on, to the host too, is
routed; one that RPF gives to the host is not (log entry 66). -/
def byRoute (w : List Word) (p ttl : Nat) : LkpResult :=
  if mcRpfPort w ≠ 0x1FF ∧ mcRpfPort w ≠ p ∧ mcRpfAct w = 0 then LkpResult.drop {} 6
  else if mcRpfPort w ≠ 0x1FF ∧ mcRpfPort w ≠ p ∧ mcRpfAct w = 1 then LkpResult.host {} 6 none
  else if l2Action w ≠ 2 ∧ l2Action w ≠ 4 then LkpResult.drop {} 9
  else if ttl ≤ 1 then LkpResult.drop {} 7
  else if l2Action w = 2 then { LkpResult.host {} 1 (some (l2Dest w)) with routed := true }
  else { LkpResult.list {} (l2Dest w) with routed := true }

/-- Stage 3b and the next hop (R169, R170).  A frame whose next hop is absent or whose TTL has run out, and one of an LPM
record with ACTION HOST, names no ring, so the default ring of its class takes it; only the LPM miss itself uses MISS_RING
(log entry 66). -/
def State.byLpm (s : State) (h : Hdr) : Way :=
  let af := if h.ver = 6 then 1 else 0
  match s.lpmFind af h.dst with
  | none =>
    { res := if s.getF GLB_LKP_MISS.L3_MISS = 1 then LkpResult.host {} 4 s.missRing else LkpResult.drop {} 4, l3Miss := true }
  | some r =>
    match bits (dw r.words 5) 24 3 with
    | 2 => { res := LkpResult.host {} 1 none }
    | 0 =>
      let n := bits (dw r.words 5) 20 4 + 1
      match s.nhFind ((bits (dw r.words 5) 0 18 + s.hashOf h % n) % 262144) with
      | none => { res := LkpResult.host {} 4 none, l3Miss := true }
      | some e =>
        let cls := entryClass e.words
        if l2Action e.words = 2 then
          { res := LkpResult.host {} 1 (if l2RingEn e.words then some (l2Dest e.words) else none), cls := cls }
        else if l2Action e.words = 0 then
          if h.ttl ≤ 1 then { res := LkpResult.host {} 7 none, cls := cls, routed := true }
          else
            { res := { LkpResult.port {} (l2Dest e.words) with
                routed := true, routedUni := true, nhMac := l2Mac e.words, nhVlan := l2Vlan e.words },
              cls := cls, routed := true }
        else { res := LkpResult.drop {} 9, cls := cls }
    | _ => { res := LkpResult.drop {} 9 }

/-- Whether an IP destination address is multicast. -/
def Hdr.isMulticast (h : Hdr) : Bool :=
  h.isIp && (if h.ver = 4 then h.dst / 2 ^ 28 == 14 else h.dst / 2 ^ 120 == 255)

/-- The lookup VLAN (R157). -/
def State.lookupVlan (s : State) (p : Nat) (h : Hdr) : Nat := if h.vid = 0 then s.pvidOf p else h.vid

/-- Stages 2 and 3 (R165–R170): what rules 4 to 6 of R174 decide for a frame of port `p`. -/
def State.way (s : State) (p : Nat) (h : Hdr) : Way :=
  let vlan := s.lookupVlan p h
  let sa := (s.l2Find vlan h.smac).isNone
  let da := s.l2Find vlan h.dmac
  let route := match da with | some r => l2Action r.words == 1 | none => false
  let l2 := if route then none else da
  let w : Way :=
    if h.isMulticast then
      match s.mcFind (if h.ver = 6 then 1 else 0) h.src h.dst with
      | some r => { res := byRoute r.words p h.ttl, cls := entryClass r.words, routed := true, l2Miss := l2.isNone }
      | none =>
        match l2 with
        | some r => { res := byL2 r.words, cls := entryClass r.words }
        | none =>
          { res := if s.getF GLB_LKP_MISS.MC_MISS = 1 then LkpResult.host {} 5 s.missRing else LkpResult.drop {} 5,
            l2Miss := true }
    else if route && h.isIp then s.byLpm h
    else
      match l2 with
      | some r => { res := byL2 r.words, cls := entryClass r.words }
      | none => { res := s.l2MissRes, l2Miss := true }
  { w with saMiss := sa }

/-! ### Media flow lookup (R252) -/

/-- The flow that a UDP frame of port `p` hits: its own IN_PORT first, then 0x1FF. -/
def State.flowHit (s : State) (p : Nat) (h : Hdr) : Option Flow :=
  if !h.isUdp then none
  else
    let af := if h.ver = 6 then 1 else 0
    let l := s.tables.flowsAct.filter (fun f => f.af == af && f.src == h.src && f.dst == h.dst && f.dport == h.dport)
    let f := match l.find? (fun f => f.inPort == p) with
      | some f => some f
      | none => l.find? (fun f => f.inPort == 0x1FF)
    match f with
    | some f => if f.sportEn && f.sport != h.sport then none else some f
    | none => none

/-- What the parser knows of a frame of port `p` (R156): of a media flow hit it also reads the RTP header, and a frame
whose RTP header passes byte 256 is truncated. -/
def State.parseFor (s : State) (p : Nat) (b : Bytes) : Hdr :=
  let h := parse b
  if (s.flowHit p h).isSome && decide (256 < h.l4 + 20) && decide (h.l4 + 20 ≤ b.length) then h.truncated else h

/-! ### ACL (R171–R173) -/

/-- `n` doublewords from `i` on as one number, the first least significant. -/
def wordsNat (w : List Word) (i n : Nat) : Nat := (List.range n).foldl (fun v k => v + dw w (i + k) * 2 ^ (32 * k)) 0

def aclFormat (w : List Word) : Nat := bits (dw w 12) 1 2
def aclAct (w : List Word) : Nat := bits (dw w 10) 0 3
def aclDest (w : List Word) : Nat := bits (dw w 10) 16 16

/-- The CLASS of an ACL action with CLASS_EN (R160 rule 3, R161). -/
def aclClass (w : List Word) : Option Nat := if bit (dw w 10) 3 then some (capClass (bits (dw w 10) 4 3)) else none

/-- The common part of the frame key (R172). -/
def aclCommon (p vlan : Nat) (h : Hdr) (w : Way) (flow : Bool) : Nat :=
  p + vlan * 2 ^ 9 + h.pcp * 2 ^ 21 + flag (h.ver != 0) * 2 ^ 24 + flag h.frag * 2 ^ 25 + flag h.trunc * 2 ^ 26 +
  flag w.routed * 2 ^ 27 + flag flow * 2 ^ 28 + flag w.l2Miss * 2 ^ 29 + flag w.l3Miss * 2 ^ 30 +
  flag (h.isIp && decide (h.ttl ≤ 1)) * 2 ^ 31

/-- The frame key of a format above bit 31 (R172). -/
def aclKey (fmt : Nat) (h : Hdr) : Nat :=
  if fmt = 0 then
    h.src * 2 ^ 32 + h.dst * 2 ^ 64 + h.proto * 2 ^ 96 + h.dscp * 2 ^ 104 + h.sport * 2 ^ 110 + h.dport * 2 ^ 126 +
    h.tcpFlags * 2 ^ 142
  else if fmt = 1 then h.etype * 2 ^ 32 + h.dmac * 2 ^ 48 + h.smac * 2 ^ 96
  else h.src * 2 ^ 32 + h.dst * 2 ^ 160 + h.proto * 2 ^ 288 + h.dscp * 2 ^ 296 + h.dport * 2 ^ 302

/-- KEY and MASK of an entry, of both slots in format 2 (R171). -/
def aclEntryKey (w : List Word) : Nat := wordsNat w 0 5 + (if aclFormat w = 2 then wordsNat w 16 5 * 2 ^ 160 else 0)
def aclEntryMask (w : List Word) : Nat := wordsNat w 5 5 + (if aclFormat w = 2 then wordsNat w 21 5 * 2 ^ 160 else 0)

/-- Whether an entry matches a frame (R171, R172). -/
def aclMatch (r : Rec) (common : Nat) (h : Hdr) : Bool :=
  let w := r.words
  let fmt := aclFormat w
  bit (dw w 12) 0 && (fmt == 1 || (fmt == 0 && h.ver == 4) || (fmt == 2 && h.ver == 6)) &&
  ((common + aclKey fmt h) &&& aclEntryMask w) == (aclEntryKey w &&& aclEntryMask w)

/-- Stage 5 in tile `t`: the matching entry with the lowest INDEX (R173). -/
def State.aclFind (s : State) (t common : Nat) (h : Hdr) : Option Rec :=
  ((s.active (4 + t)).filter (fun r => aclMatch r common h)).foldl (fun best r =>
    match best with
    | some b => if r.idx < b.idx then some r else best
    | none => some r) none

/-! ### Stage 6 (R160, R174, R244) -/

/-- A unicast destination is resolved to the backup of a group that stands on it (R244). -/
def State.pgRedirect (s : State) (r : LkpResult) : LkpResult :=
  if r.destKind = 0 then
    match s.pgs.find? (fun e => e.2.primary == r.dest && e.2.onBackup) with
    | some e => { r with dest := e.2.backup }
    | none => r
  else r

/-- A trap at stage 1 (R122, R158, R174 rule 1), with its class. -/
def State.trapped (s : State) (p : Nat) (h : Hdr) (b : Bytes) : Option LkpResult :=
  if decide (p < 256) && h.isPtp then some { LkpResult.control {} with cls := 7 }
  else if h.etype = 0x8809 then
    some { (if byteAt b h.l3 = 0x0A then LkpResult.control {} else LkpResult.host {} 0x0A none) with
      cls := s.trustClass p h }
  else none

/-- The result of an ACL DROP, TRAP or REDIRECT (R173, R174 rule 3). -/
def aclResult (w : List Word) : Option LkpResult :=
  match aclAct w with
  | 1 => some (LkpResult.drop {} 8)
  | 2 => some (LkpResult.port {} (aclDest w))
  | 3 => some (LkpResult.host {} 8 (some (aclDest w)))
  | _ => none

/-- The host copy of R174: ACL COPY ahead of SA_UNKNOWN, on an outcome that forwards. -/
def State.hostCopy (s : State) (r : LkpResult) (acl : Option Rec) (saMiss : Bool) : LkpResult :=
  if 1 < r.destKind then r
  else
    match acl with
    | some e =>
      if aclAct e.words = 4 then
        { r with hostCopy := true, hostReason := 9, ringEn := true, hostRing := aclDest e.words % 256 }
      else if saMiss && s.getF GLB_LKP_MISS.SA_MISS == 1 then
        { r with hostCopy := true, hostReason := 3, ringEn := s.missRing.isSome, hostRing := s.missRing.getD 0 }
      else r
    | none =>
      if saMiss && s.getF GLB_LKP_MISS.SA_MISS == 1 then
        { r with hostCopy := true, hostReason := 3, ringEn := s.missRing.isSome, hostRing := s.missRing.getD 0 }
      else r

/-- The media flow engine's part in stage 6 (R174, R253): class, flow handle, drop and bytes. -/
def State.stageMedia (s : State) (r : LkpResult) (f : Flow) (h : Hdr) (b : Bytes) (stamp : Nat) : State × LkpResult × Bytes :=
  let m := s.media f h b stamp
  let r : LkpResult := { r with flow := f.handle, cls := if m.2.demoted then 0 else 6 }
  (m.1, (if m.2.drop != 0 && r.destKind != 4 then r.drop m.2.drop else r), m.2.bytes)

/-- Stages 1 to 6 for a frame of port `p` in tile `t` (R153): the result without epoch and time, and the frame's bytes. -/
def State.decideFrame (s : State) (t p : Nat) (b : Bytes) (stamp : Nat) : State × LkpResult × Bytes :=
  let h := s.parseFor p b
  match s.trapped p h b with
  | some r => (s, r, b)
  | none =>
    let w := s.way p h
    let flow := if h.trunc then none else s.flowHit p h
    let acl := s.aclFind t (aclCommon p (s.lookupVlan p h) h w flow.isSome) h
    let s := match acl with
      | some e => s.countS (group 5 (t * 256 + e.idx / 64)) (e.idx % 64)
      | none => s
    let aclCls := match acl with
      | some e => aclClass e.words
      | none => none
    let ruled := match acl with | some e => aclResult e.words | none => none
    let base := match aclCls with | some c => c | none => s.trustClass p h
    let r : LkpResult :=
      if h.bad then { LkpResult.drop {} 2 with cls := base }
      else
        match ruled with
        | some r => { r with cls := base }
        | none => { w.res with cls := match aclCls, w.cls with
                                      | some c, _ => c
                                      | none, some c => c
                                      | none, none => s.trustClass p h }
    let r := { r with hash := s.hashOf h }
    let m := match h.bad || ruled.isSome, flow with
      | false, some f => s.stageMedia r f h b stamp
      | _, _ => (s, r, b)
    (m.1, m.1.hostCopy (m.1.pgRedirect m.2.1) acl w.saMiss, m.2.2)

/-! ### Stage 7 (R176, R178, R192, R196, R210–R212, R222, R587) -/

/-- A frame that goes to one output tile: the drop reason, or 0 and the frame is charged and packed.  Frames of direct mode
count toward no epoch (R183). -/
def State.sendUnicast (s : State) (t j : Nat) (f : Frame) : State × Nat :=
  let n := frameCells f.bytes.length
  let x := streamOf false j f.res.cls
  if (s.fence j).st ≠ 0 then (s.countIngress f.inPort f.res.cls 0x26, 0x26)
  else if !s.stagingRoom t x n then (s.countIngress f.inPort f.res.cls 0x20, 0x20)
  else
    match s.admitCells f.inPort f.res.cls n with
    | (.refused code, s) => (s.countIngress f.inPort f.res.cls code, code)
    | (.charged g, s) =>
      let f := { f with region := g, cells := n, counted := f.direct.isNone, uid := s.fabric.uid }
      let s := { s with fabric := { s.fabric with uid := s.fabric.uid + 1 } }
      ((if f.counted then s.epochIn f.res.epoch else s).pack t x (1 <<< j) f, 0)

/-- A frame that goes to the output tiles of its replication list. -/
def State.sendMulticast (s : State) (t : Nat) (f : Frame) : State × Nat :=
  let n := frameCells f.bytes.length
  let x := streamOf true 0 f.res.cls
  let tiles := match s.repRecord f.res.dest f.res.epoch with | some r => maskTiles (repMask r) | none => 0
  let live := maskOf ((bitsSet 8 tiles).filter (fun j => (s.fence j).st == 0))
  if tiles = 0 then (s.countIngress f.inPort f.res.cls 9, 9)
  else if live = 0 then (s.countIngress f.inPort f.res.cls 0x26, 0x26)
  else if !s.stagingRoom t x n then (s.countIngress f.inPort f.res.cls 0x20, 0x20)
  else
    match s.admitCells f.inPort f.res.cls n with
    | (.refused code, s) => (s.countIngress f.inPort f.res.cls code, code)
    | (.charged g, s) =>
      let f := { f with region := g, cells := n, counted := true, uid := s.fabric.uid }
      let s := { s with fabric := { s.fabric with
          uid := s.fabric.uid + 1, tokens := Tab.set s.fabric.tokens f.uid { left := live, taken := false, frame := f } } }
      ((s.epochIn f.res.epoch).pack t x live f, 0)

/-- The header sampler at stage 7; the queue ID that its record holds there the spec does not state. -/
def State.sampleIngress (s : State) (f : Frame) : State :=
  if s.isF HMK_TRACE_CFG.HDR_EN && s.getF HMK_TRACE_CFG.HDR_POINT == 0 then
    let q := s.draw
    q.2.sampleHdr 0 f.inPort q.1 f
  else s

/-- Stage 7 of tile `t` for a decided frame: answers its drop reason (0: it goes on).  Every copy of a frame that a
multicast route decided is routed, the host copy among them (R168); that of a routed unicast frame is as it came. -/
def State.stageSeven (s : State) (t : Nat) (f : Frame) : State × Nat :=
  let s := s.perf t { code := 0x01, srcKind := 1, srcId := f.inPort, cls := some (1 <<< f.res.cls) }
  let s := s.sampleIngress f
  let r := match f.res.destKind with
    | 0 => s.sendUnicast t (f.res.dest / 32 % 8) f
    | 1 => s.sendMulticast t f
    | 4 => (s.countIngress f.inPort f.res.cls f.res.dropReason, f.res.dropReason)
    | _ => s.sendUnicast t 0 f
  if f.res.hostCopy then
    ((r.1.sendUnicast t 0 { f with res := { f.res with
        destKind := 2, dest := 256, hostCopy := false, routed := f.res.routed && !f.res.routedUni } }).1, r.2)
  else r

/-- A frame whose result has its epoch and time stamped. -/
def State.stamped (s : State) (x : PreFrame) (r : LkpResult) (b : Bytes) : Frame :=
  { bytes := b, inPort := x.inPort, stamp := x.stamp,
    res := { r with epoch := s.epochs.serial, lkpTime := (s.now / (16000 * nsU)).toNat % 65536 } }

/-- One lookup: the frame that waits longest in tile `t`, PTP frames first (R153, R155); a lookup-mode frame of the host
completes (R89). -/
def State.lookupNext (s : State) (t : Nat) : State :=
  let pre := (s.tile t).pre
  let next := match pre.find? (fun x => x.ptp) with
    | some x => some x
    | none => pre.head?
  match next with
  | none => s
  | some x =>
    if (s.fence t).st ≠ 0 then s
    else
      let s := s.upTile t (fun y => { y with pre := y.pre.erase x })
      let d := s.decideFrame t x.inPort x.bytes x.stamp
      let r := d.1.stageSeven t (d.1.stamped x d.2.1 d.2.2)
      match x.tx with
      | some tx => r.1.txComplete tx [] false false r.2
      | none => r.1

/-- LOOKUP (R153); no lookup without CCLK (R26). -/
def execLookup (tile : Nat) (s : State) : Answer State := .next (if s.cclk then s.lookupNext tile else s)

end Sys2Proof.Machine
end

