-- ==== Sys2Proof/Machine/HostIf.lean ====
section
/-!
DEFINITION. The host interface (R46–R98, R112, R235): doorbells, descriptor fetch, transmit and receive, interrupts,
function level resets and the PCI Express link; and the frames that the control complex sends and takes (R36, R242).
-/

namespace Sys2Proof.Machine

/-! ### Reaching the block (R48, R49, R554) -/

/-- Whether commands can arrive over PCI Express: the link is up, the host interface is ready and HCLK runs (R383). -/
def State.pcieUp (s : State) : Bool := s.boot.linkUp && s.isF GLB_BOOT_STAT.HIF_READY && s.hclk

/-- Whether a register write on `p` that only the PF may make takes effect. -/
def State.pfMay (s : State) (p : Path) : Bool := p == .pf && s.pcieUp

/-- Whether a write on `p` reaches the registers of ring `n` (R49): the PF's always, a VF's only for its own ring. -/
def State.ringMay (s : State) (p : Path) (n : Nat) : Bool :=
  s.pcieUp && (match p with | .pf => true | .vf k => s.ringFn n == k | .mgmt => false)

/-- Whether ring `n`'s type is a descriptor ring's (R55). -/
def State.descRing (s : State) (n : Nat) : Bool := s.ringType n != 3 && s.ringType n != 6

/-! ### Enabling a ring (R50, R55, R56, R61, R62) -/

/-- Whether the configuration of ring `n` lets it start. -/
def State.ringCfgOk (s : State) (n : Nat) : Bool :=
  let t := s.ringType n
  decide (t < 7) && decide (6 ≤ s.getF HIF_RING_CFG.SIZE_LOG2 n ∧ s.getF HIF_RING_CFG.SIZE_LOG2 n ≤ 16) &&
  (s.ringFn n == 0 || (t != 4 && t != 5 && decide (s.getF HIF_RING_CFG.VECTOR n < 8)))

/-- Firmware's commands of ring `n` go on, but complete nowhere (R53, R54, R61). -/
def State.orphanCmds (s : State) (n : Nat) : State :=
  let off : Cmd → Cmd := fun c => if c.ring = n then { c with ring := noRing } else c
  { s with fw := { s.fw with
      timeAuth := s.fw.timeAuth.map off, temper := s.fw.temper.map off, pairSwitch := s.fw.pairSwitch.map off,
      activate := s.fw.activate.map (fun a => { a with cmd := off a.cmd }) } }

/-- ENABLE of ring `n` goes from 0 to 1: the indices are 0 (R61), and the ring starts where its configuration lets it.  The
spec does not say what becomes of a ring that is still STOPPING; here it starts anew at once, without what it had fetched
(log entry 62). -/
def State.enableRing (s : State) (n : Nat) : State :=
  if s.isF HIF_RING_CFG.ENABLE n then s
  else
    let s := (s.orphanCmds n).setF HIF_RING_CFG.ENABLE 1 n
    let s := { s with rings := Tab.set s.rings n { era := (s.ring n).era + 1, sbAt := (s.ring n).sbAt } }
    if s.ringCfgOk n then
      (s.setF HIF_RING_STAT.STATE 1 n).setF HIF_RING_STAT.REASON 0 n
    else s.ringFail n 1

/-- RING_ENABLE (R61). -/
def execRingEnable (path : Path) (ring : Nat) (s : State) : Answer State :=
  .next (if s.ringMay path ring then s.enableRing ring else s)

/-! ### Receive (R93–R98) -/

/-- DW1 to DW3 of an RX completion (R83) for `len` bytes of frame `f`. -/
def rxDw1 (f : Frame) (len : Nat) (sop eop : Bool) : Nat :=
  len + flag sop * 2 ^ 14 + flag eop * 2 ^ 15 + f.inPort * 2 ^ 16 + f.res.cls % 8 * 2 ^ 25 + f.errf % 16 * 2 ^ 28
def rxDw2 (f : Frame) : Nat := stampNs f.stamp + stampSec f.stamp % 4 * 2 ^ 30
def rxDw3 (f : Frame) (status : Nat) : Nat := f.res.hostReason % 256 + status * 16777216

/-- Whether BUF_LEN of a buffer descriptor is one that R81 allows. -/
def bufLen (d : Desc) : Nat := bits (dw d.words 2) 0 14
def bufOk (d : Desc) : Bool := bufLen d % 64 == 0 && decide (256 ≤ bufLen d ∧ bufLen d ≤ 16320)

/-- A descriptor's buffer address (R78, R81). -/
def descAddr (d : Desc) : Nat := dw d.words 0 + dw d.words 1 * 4294967296

/-- Buffer descriptors at the front of ring `n` with a bad BUF_LEN complete with BADARG and length 0 (R81). -/
def State.settleBufs (s : State) (n : Nat) : Nat → State
  | 0 => s
  | k + 1 =>
    match (s.ring n).fetched with
    | [] => s
    | d :: rest =>
      if bufOk d then s
      else ((s.upRing n (fun r => { r with fetched := rest })).complete n (dw d.words 6) 0 0 (6 * 16777216)).settleBufs n k

/-- Bytes of receive frames that wait in the staging buffer (R97). -/
def State.rxStaged (s : State) : Nat :=
  s.rings.foldl (fun n e => match e.2.rx with | some x => n + (x.frame.bytes.length - x.done) | none => n) 0

/-- A frame in progress on ring `n` ends at its last used descriptor (R96, R98): its completion is rewritten. -/
def State.rxTruncate (s : State) (n : Nat) : State :=
  match (s.ring n).rx with
  | none => s
  | some x =>
    let s := s.upRing n (fun r => { r with rx := none })
    let s := s.emit (.completion n x.lastIdx (hostBytes [x.lastCookie.toNat,
      rxDw1 x.frame x.lastLen (x.done == x.lastLen) true, rxDw2 x.frame,
      rxDw3 x.frame stTrunc + s.phaseBit n x.lastIdx * 2147483648]))
    let s := (s.countS (group 6 n) 0).countS (group 6 n) 1 (x.frame.bytes.length - x.done)
    s.finish x.frame

/-- A frame, `done` bytes of which have been written, goes on into the fetched buffers of ring `n` (R94, R96, R97). -/
def State.rxFill (s : State) (n : Nat) (f : Frame) (got : Nat) : Nat → State
  | 0 => s
  | k + 1 =>
    let s := s.settleBufs n ((s.ring n).fetched.length + 1)
    match (s.ring n).fetched with
    | [] => s
    | d :: rest =>
      let len := min (bufLen d) (f.bytes.length - got)
      let last := got + len == f.bytes.length
      let s := s.upRing n (fun r => { r with fetched := rest, rx := none })
      let s := s.dmaWrite (s.ringFn n) (descAddr d)
      let s := s.emit (.bufferWrite n d.idx (slice f.bytes got len))
      let idx := (s.ring n).cons
      let s := s.complete n (dw d.words 6) (rxDw1 f len (got == 0) last) (rxDw2 f) (rxDw3 f stOk)
      if last then s.finish f
      else
        let x : RxProg := { frame := f, done := got + len, lastIdx := idx, lastCookie := BitVec.ofNat 32 (dw d.words 6),
                            lastLen := len, used := 0 }
        (s.upRing n (fun r => { r with rx := some x })).rxFill n f (got + len) k

/-- A frame that a ring has run out of buffers for is truncated at once where the staging buffer lacks room (R97). -/
def State.rxHold (s : State) (n : Nat) : State :=
  if decide (1048576 < s.rxStaged) && (s.ring n).rx.isSome then s.rxTruncate n else s

/-- The RX ring of a frame for port 256 (R93). -/
def State.hostRingOf (s : State) (f : Frame) : Nat :=
  if f.res.ringEn then f.res.hostRing
  else if f.res.cls < 4 then bits (s.getF HIF_RX_DEFAULT0.RING_C) (8 * f.res.cls) 8
  else bits (s.getF HIF_RX_DEFAULT1.RING_C) (8 * (f.res.cls - 4)) 8

/-- Whether a frame's ring is an enabled RX ring of a function granted its source port (R93). -/
def State.ringUsable (s : State) (n : Nat) (f : Frame) : Bool :=
  s.ringIs n 1 && (s.ringFn n == 0 || s.granted (s.ringFn n) f.inPort)

/-- What becomes of a waiting frame of port 256 when the host interface looks at it. -/
inductive RxPick where
  | noRing | aged | wait (ring : Nat) | write (ring : Nat)
  deriving DecidableEq, Repr

/-- A frame's turn; rings in `busy` already hold back an older frame of its queue (R95, R97, R242). -/
def State.rxJudge (s : State) (busy : List Nat) (f : Frame) : RxPick :=
  let n := s.hostRingOf f
  if !s.ringUsable n f then .noRing
  else if s.aged f 256 then .aged
  else if busy.contains n || (s.ring n).rx.isSome || !(s.ring n).fetched.any bufOk then .wait n
  else .write n

/-- The first frame of a class queue that does not merely wait, with its position. -/
def State.rxFirst (s : State) : List Frame → Nat → List Nat → Option (Nat × Frame × RxPick)
  | [], _, _ => none
  | f :: t, i, busy =>
    match s.rxJudge busy f with
    | .wait n => s.rxFirst t (i + 1) (n :: busy)
    | v => some (i, f, v)

/-- The class queue, position and frame that the host interface takes next, class 7 first (R242). -/
def State.rxNext (s : State) : Option (Nat × Nat × Frame × RxPick) :=
  [7, 6, 5, 4, 3, 2, 1, 0].findSome? (fun c =>
    (s.rxFirst (s.queue (queueKey 256 c)).onTile 0 []).map (fun x => (c, x)))

/-- Frames of port 256 are taken until one has been written; `fuel` bounds the frames dropped on the way. -/
def State.rxServe (s : State) : Nat → State
  | 0 => s
  | k + 1 =>
    match s.rxNext with
    | none => s
    | some (c, i, f, v) =>
      let s := s.upQueue (queueKey 256 c) (fun q => { q with onTile := q.onTile.eraseIdx i })
      match v with
      | .noRing => (s.dropEgress 256 c f 0x36).rxServe k
      | .aged => (s.dropEgress 256 c f 0x34).rxServe k
      | .wait _ => s
      | .write n =>
        let f := if f.inPort = 257 ∧ !f.counted then { f with stamp := gridOf f.enq } else { f with bytes := s.outgoing f }
        let s := (s.countS (group 3 256) (c * 32)).countS (group 3 256) (c * 32 + 1) (frameOctets f.bytes.length)
        (s.rxFill n f 0 (f.bytes.length / 256 + 2)).rxHold n

/-- RX_FRAME_WRITE (R94). -/
def execRxFrameWrite (s : State) : Answer State :=
  .next (if s.pcieUp then s.rxServe (s.portFrames 256 + 1) else s)

/-- RX_HOLD_EXPIRY (R96). -/
def execRxHoldExpiry (ring : Nat) (s : State) : Answer State := .next (s.rxTruncate ring)

/-! ### Transmit descriptors (R78–R80, R88–R90, R235) -/

def txLen (d : Desc) : Nat := bits (dw d.words 2) 0 14
def txSop (d : Desc) : Bool := bit (dw d.words 2) 16
def txEop (d : Desc) : Bool := bit (dw d.words 2) 17
def txStampReq (d : Desc) : Bool := bit (dw d.words 2) 18
def txLaunchEn (d : Desc) : Bool := bit (dw d.words 2) 19
def txMode (d : Desc) : Nat := bits (dw d.words 2) 20 2
def txClass (d : Desc) : Nat := bits (dw d.words 2) 22 3
def txLaunchQ (d : Desc) : Nat := bits (dw d.words 2) 25 1
def txDest (d : Desc) : Nat := bits (dw d.words 3) 0 9
def txTile (d : Desc) : Nat := bits (dw d.words 3) 9 3
def txTag (d : Desc) : Nat := bits (dw d.words 3) 16 16
def txCookie (d : Desc) : Nat := dw d.words 6

/-- The launch instant of R80: `none` where LT_NS is no nanosecond of a second.  Of two instants equally near to the
serving time, which the spec does not choose between, it is the earlier (log entry 62). -/
def State.launchTime (s : State) (sec ns : Nat) : Option Int :=
  if 1000000000 ≤ ns then none
  else
    let cur := s.nowSec
    let base : Int := (cur : Int) - (((cur + 65536 - sec % 65536) % 65536 : Nat) : Int)
    let at_ : Int → Int := fun x => (x * 1000000000 + ns) * nsU
    let lo := at_ base
    let hi := at_ (base + 65536)
    if s.now - lo ≤ hi - s.now ∧ 0 ≤ base then some lo else some hi

/-- The launch time of an SOP descriptor, resolved when it is processed (R80). -/
def State.descLaunch (s : State) (d : Desc) : Option Int :=
  if txLaunchEn d then s.launchTime (bits (dw d.words 5) 0 16) (bits (dw d.words 4) 0 30) else none

/-- Whether a launch time lies within the horizon of R235. -/
def State.withinHorizon (s : State) (l : Int) : Bool :=
  let h := s.getF GLB_LT_CFG.HORIZON_S
  decide (l ≤ s.now + ((if h = 0 then 1 else h : Nat) : Int) * 1000000000 * nsU)

/-- The frame at the front of a transmit ring: none yet, a malformed run of descriptors to complete with BADARG, or the
descriptors of a whole frame (R78, R79, R90). -/
inductive TxHead where
  | partFetched
  | bad (n : Nat)
  | whole (ds : List Desc)
  deriving DecidableEq, Repr

/-- The descriptors after an SOP descriptor; `acc` holds those before, oldest last, with `sum` bytes. -/
def txWalk : List Desc → List Desc → Nat → TxHead
  | [], _, _ => .partFetched
  | d :: t, acc, sum =>
    if txSop d && !acc.isEmpty then .bad acc.length
    else if txLen d = 0 ∨ 16383 < sum + txLen d ∨ 16 ≤ acc.length then .bad (acc.length + 1)
    else if txEop d then .whole ((d :: acc).reverse)
    else txWalk t (d :: acc) (sum + txLen d)

/-- What stands at the front of a list of fetched transmit descriptors. -/
def txHead (l : List Desc) : TxHead :=
  match l with
  | [] => .partFetched
  | d :: _ => if txSop d then txWalk l [] 0 else .bad 1

/-- The tile that a lookup-mode frame of ring `n` names (R78). -/
def State.txTileOf (s : State) (n : Nat) (d : Desc) : Nat :=
  if txTile d = 0 then s.getF HIF_RING_CFG.AUX n % 8 else txTile d

/-- Whether function `f` may send into tile `t` in lookup mode: the PF always, a VF where a granted port lies (R52). -/
def State.tileGranted (s : State) (f t : Nat) : Bool :=
  f == 0 || (List.range 32).any (fun l => s.granted f (t * 32 + l))

/-- The codes for which a whole frame of ring `n` is not sent, whatever its data (R52, R78, R90, R235, R424). -/
def State.txCodes (s : State) (n : Nat) (d : Desc) : List Nat :=
  let fn := s.ringFn n
  if txMode d = 0 then
    let t := s.txTileOf n d
    (if txStampReq d || txLaunchEn d then [stBadArg] else []) ++ (if s.tileGranted fn t then [] else [stAuth]) ++
    (if (s.fence t).st = 0 then [] else [stFenced])
  else if txMode d = 1 then
    let p := txDest d
    (if 256 ≤ p ∨ d.far then [stBadArg] else []) ++ (if fn = 0 ∨ s.granted fn p then [] else [stAuth]) ++
    (if p < 256 ∧ (s.fence (p / 32)).st ≠ 0 then [stFenced] else [])
  else [stBadArg]

/-- Descriptors of ring `n` complete with one STATUS. -/
def State.txRefuse (s : State) (n : Nat) (ds : List Desc) (status : Nat) : State :=
  ds.foldl (fun s d => s.complete n (txCookie d) 0 0 (status * 16777216)) s

/-- Malformed and refused frames at the front of transmit ring `n` complete (R88, R90); refusals for reasons other than
a descriptor's own fields wait for the frame's turn. -/
def State.settleTx (s : State) (n : Nat) : Nat → State
  | 0 => s
  | k + 1 =>
    let l := (s.ring n).fetched
    match txHead l with
    | .partFetched => s
    | .bad m =>
      let s := s.upRing n (fun r => { r with fetched := l.drop m })
      (s.txRefuse n (l.take m) stBadArg).settleTx n k
    | .whole ds =>
      let codes := match ds with | d :: _ => s.txCodes n d | [] => []
      if codes.isEmpty then s
      else
        let s := s.upRing n (fun r => { r with fetched := l.drop ds.length })
        (s.txRefuse n ds (txStatus codes)).settleTx n k

/-- Whatever the descriptors fetched for ring `n` settle at once, by its type. -/
def State.settleRing (s : State) (n : Nat) : State :=
  let fuel := (s.ring n).fetched.length + 1
  match s.ringType n with
  | 0 => s.settleTx n fuel
  | 1 =>
    let s := s.settleBufs n fuel
    (match (s.ring n).rx with
     | some x => if (s.ring n).fetched.isEmpty then s else (s.rxFill n x.frame x.done (x.frame.bytes.length / 256 + 2)).rxHold n
     | none => s)
  | 2 => s.settleCmds n fuel
  | _ => s.settleBufs n fuel

/-- The descriptors of ring `n` that its last doorbell entry covers and that have not been fetched (R69): none where the
entry named an index behind the fetch index. -/
def State.published (s : State) (n : Nat) : Nat :=
  let r := s.ring n
  let avail : Nat := (r.prod + 4294967296 - r.cons) % 4294967296
  let got : Nat := (r.fetch + 4294967296 - r.cons) % 4294967296
  avail - got

/-- An SOP descriptor as it is processed: its launch time, and whether that is none or lies beyond the horizon (R80, R235). -/
def State.processed (s : State) (d : Desc) : Desc :=
  let l := s.descLaunch d
  { d with launch := l, far := txLaunchEn d && !(match l with | some x => s.withinHorizon x | none => false) }

/-- DESCRIPTOR_FETCH (R69, R79–R81): the descriptors that follow ring `n`'s fetch index arrive, as many as are published. -/
def State.fetchDescs (s : State) (n : Nat) (descs : List Bytes) : State :=
  if s.pcieUp && s.ringState n == 1 && !s.isF HIF_RING_STAT.PAUSED n && s.descRing n then
    let avail := s.published n
    let new := descs.take avail
    let s := (List.range new.length).foldl (fun s i =>
      let idx := ((s.ring n).fetch) % 4294967296
      let d : Desc := { idx := idx, words := toWords 8 (new.getD i []) }
      let d := if s.ringType n = 0 ∧ txSop d then s.processed d else d
      let s := (s.perf 8 { code := 0x24, fn := some (s.ringFn n) }).dmaRead (s.ringFn n)
        (s.ringBase n + 32 * (idx % s.ringSize n))
      s.upRing n (fun r => { r with fetch := (r.fetch + 1) % 4294967296, fetched := r.fetched ++ [d] })) s
    s.settleRing n
  else s

def execDescriptorFetch (ring : Nat) (descs : List Bytes) (s : State) : Answer State := .next (s.fetchDescs ring descs)

/-! ### Transmit data (R75, R79, R89–R92, R228) -/

/-- A frame of fewer than 60 bytes padded to 60 (R79). -/
def padFrame (b : Bytes) : Bytes := padTo 60 b

/-- Bytes held in tile `t`'s pre-lookup buffer (R155). -/
def Tile.preBytes (t : Tile) : Nat := t.pre.foldl (fun n x => n + x.bytes.length) 0

/-- Whether a frame of `n` bytes finds room in the pre-lookup buffer (R155); PTP frames always have their 8 KiB. -/
def State.preRoom (s : State) (t n : Nat) (ptp : Bool) : Bool :=
  let ptpBytes := ((s.tile t).pre.filter (fun x => x.ptp)).foldl (fun n x => n + x.bytes.length) 0
  decide ((s.tile t).preBytes + n ≤ 65536) || (ptp && decide (ptpBytes < 8192))

/-- A frame put into the pre-lookup buffer of tile `t`. -/
def State.preAdd (s : State) (t : Nat) (x : PreFrame) : State := s.upTile t (fun y => { y with pre := y.pre ++ [x] })

/-- The data reads of `len` bytes at `addr` for function `f`, in requests of up to 512 bytes (R75). -/
def State.dmaReads (s : State) (f addr len : Nat) : State :=
  (List.range (ceilDiv len 512)).foldl (fun s i => s.dmaRead f (addr + 512 * i)) s

/-- The data of the whole frame at the front of transmit ring `n` has been read. -/
def State.txData (s : State) (n : Nat) (data : Bytes) : State :=
  match txHead (s.ring n).fetched with
  | .whole ds =>
    match ds with
    | [] => s
    | d :: _ =>
      if data.length ≠ ds.foldl (fun k x => k + txLen x) 0 then s
      else
        let b := padFrame data
        let fn := s.ringFn n
        let tx : Direct := {
          ring := some n, era := (s.ring n).era, fn := fn,
          cookies := ds.map (fun x => (x.idx, BitVec.ofNat 32 (txCookie x))),
          stampReq := txStampReq d, tag := txTag d, launch := d.launch }
        let take : State → State := fun s =>
          s.upRing n (fun r => { r with fetched := r.fetched.drop ds.length })
        let next : State → State := fun s => s.settleTx n ((s.ring n).fetched.length + 1)
        let s := ds.foldl (fun s x => s.dmaReads fn (descAddr x) (txLen x)) s
        if !(s.txCodes n d).isEmpty then next ((take s).txRefuse n ds (txStatus (s.txCodes n d)))
        else if txMode d = 0 then
          let t := s.txTileOf n d
          let ptp := (parse b).isPtp
          if s.preRoom t b.length ptp then
            let g := s.draw
            next ((take g.2).preAdd t { bytes := b, inPort := 256, stamp := g.1, ptp := ptp, tx := some tx })
          else s
        else
          let p := txDest d
          let launch := txLaunchEn d
          let slot := if launch then 8 + txLaunchQ d else txClass d
          if s.directRoom p slot b.length launch then
            let f : Frame := { bytes := b, inPort := 256, res := { destKind := 0, dest := p, cls := txClass d }, direct := some tx }
            next (if launch then (take s).enqueueLaunch p (txLaunchQ d) f else (take s).enqueue p (txClass d) f)
          else next ((take s).txRefuse n ds stNoSpace)
  | _ => s

/-- TX_FRAME_DATA_READ (R91). -/
def execTxFrameDataRead (ring : Nat) (data : Bytes) (s : State) : Answer State :=
  .next (if s.pcieUp && s.ringState ring != 0 && s.ringType ring == 0 then s.txData ring data else s)

/-! ### Stopping a ring (R60) -/

/-- Descriptors after the last whole frame of a list of transmit descriptors. -/
def txTail : Nat → List Desc → List Desc
  | 0, l => l
  | k + 1, l =>
    match txHead l with
    | .whole ds => txTail k (l.drop ds.length)
    | .bad m => txTail k (l.drop m)
    | .partFetched => l

/-- ENABLE of ring `n` goes from 1 to 0. -/
def State.disableRing (s : State) (n : Nat) : State :=
  if !s.isF HIF_RING_CFG.ENABLE n then s
  else
    let s := (s.setF HIF_RING_CFG.ENABLE 0 n).setF HIF_RING_STAT.STATE 2 n
    match s.ringType n with
    | 0 =>
      let l := (s.ring n).fetched
      let tail := txTail l.length l
      let s := s.upRing n (fun r => { r with fetched := l.take (l.length - tail.length) })
      s.txRefuse n tail stFenced
    | 2 => s
    | 3 => s
    | 6 => s
    | _ =>
      let s := s.rxTruncate n
      let l := (s.ring n).fetched
      let s := s.upRing n (fun r => { r with fetched := [] })
      l.foldl (fun s d => s.complete n (dw d.words 6) 0 0 (stFenced * 16777216)) s

/-- RING_DISABLE (R60). -/
def execRingDisable (path : Path) (ring : Nat) (s : State) : Answer State :=
  .next (if s.ringMay path ring then s.disableRing ring else s)

/-- A stopping ring whose fetched descriptors have all completed is STOPPED (R60); the last ring of a VF under a function
level reset ends that reset (R53, R103). -/
def State.stopRing (s : State) (n : Nat) : State :=
  let r := s.ring n
  if s.ringState n == 2 && (!s.descRing n || r.cons == r.fetch) then
    let s := (s.setF HIF_RING_STAT.STATE 0 n).upRing n (fun r => { r with hold := [], rx := none })
    let f := s.ringFn n
    if (s.fn f).resetting && (Tab.keys s.rings).all (fun k => s.ringFn k != f || s.ringState k == 0) then
      s.upFn f (fun x => { x with resetting := false })
    else s
  else s

/-- RING_STOPPED (R60). -/
def execRingStopped (ring : Nat) (s : State) : Answer State := .next (s.stopRing ring)

/-! ### Doorbells (R57–R59, R63–R68, R77) -/

/-- The enabled rings of a function. -/
def State.enabledRings (s : State) (f : Nat) : List Nat :=
  (Tab.keys s.rings).filter (fun n => s.isF HIF_RING_CFG.ENABLE n && s.ringFn n == f)

/-- A scan that does not run is counted (R67, R77). -/
def State.skipScan (s : State) : State := s.addF HIF_SCAN_SKIP.COUNT 1

/-- A function's doorbell scan is due. -/
def State.scan (s : State) (f : Nat) : State :=
  let lines := ((s.enabledRings f).map (· / 8)).eraseDups
  if !s.pcieUp || lines.isEmpty then s
  else if (s.fn f).scanning then s.skipScan
  else
    let s := (s.upFn f (fun x => { x with scanning := true })).emit (.scanRead f lines)
    let s := s.perf 8 { code := 0x23, fn := some f }
    lines.foldl (fun s l => s.dmaRead f (s.dbBase f + 64 * l)) s

/-- DOORBELL_SCAN (R66). -/
def execDoorbellScan (fn : Nat) (s : State) : Answer State := .next (s.scan fn)

/-- The SH5120 acts on one doorbell entry of a function (R57–R59, R64).  The entry of a ring that is not RUNNING but lies
in a line that is read is not acted on; whether a stale one counts there the spec does not say: here it does not (log
entry 62). -/
def State.doorbell (s : State) (f n : Nat) (index gen : Nat) : State :=
  if s.ringState n != 1 || s.ringFn n != f then s
  else if s.getF HIF_RING_GEN.GEN n ≠ gen then s.countS (group 6 n) 2
  else if s.descRing n then
    if s.ringSize n < (index + 4294967296 - (s.ring n).cons) % 4294967296 then
      let d := s.draw
      d.2.ringErr n 2 (d.1 % 4294967296)
    else s.upRing n (fun r => { r with prod := index })
  else s.upRing n (fun r => { r with cons := index })

/-- DOORBELL_READ_COMPLETE (R63, R68): each entry is the 8 bytes that were read, INDEX in the first four and GEN in the
last, little-endian (R4). -/
def execDoorbellReadComplete (fn : Nat) (entries : List (Nat × Bytes)) (s : State) : Answer State :=
  .next (if (s.fn fn).scanning then
      entries.foldl (fun s e => s.doorbell fn e.1 (leAt e.2 0 4) (leAt e.2 4 4)) (s.upFn fn (fun x => { x with scanning := false }))
    else s)

/-- Whether ring `n` reads the data of a whole frame, or a command's buffer. -/
def State.dataReading (s : State) (n : Nat) : Bool :=
  (s.ringType n == 0 && (match txHead (s.ring n).fetched with | .whole _ => true | _ => false)) ||
  (s.ringType n == 2 && !(s.ring n).fetched.isEmpty)

/-- A failed data read of ring `n` (R77): its frame, or its command, completes with BADARG. -/
def State.dataReadFails (s : State) (n : Nat) : State :=
  let l := (s.ring n).fetched
  let d := s.draw
  let s := d.2
  let fail : State → State := fun s => s.ringErr n 3 (d.1 % 4294967296)
  if s.ringType n = 0 then
    match txHead l with
    | .whole ds =>
      let s := fail (s.upRing n (fun r => { r with fetched := l.drop ds.length }))
      let s := s.txRefuse n ds stBadArg
      s.settleTx n (l.length + 1)
    | _ => s
  else if s.ringType n = 2 then
    match l with
    | x :: rest =>
      let s := fail (s.upRing n (fun r => { r with fetched := rest }))
      (s.complete n (dw x.words 1) 0 0 (stBadArg * 16777216)).settleCmds n (l.length + 1)
    | [] => s
  else s

/-- DMA_READ_ERROR (R77): the error is logged through the function's AER, and its ring stops or its scan counts as
skipped. -/
def execDmaReadError (e : DmaError) (s : State) : Answer State :=
  .next (match e.kind with
    | .scan f =>
      if (s.fn f).scanning then
        ((s.emit (.aer f (.dmaRead e.why))).upFn f (fun x => { x with scanning := false })).skipScan
      else s
    | .descriptor n =>
      if s.ringState n == 1 && s.descRing n && s.published n != 0 then
        (s.emit (.aer (s.ringFn n) (.dmaRead e.why))).ringErr n 3 (s.ring n).fetch
      else s
    | .data n =>
      if s.ringState n != 0 && s.dataReading n then (s.emit (.aer (s.ringFn n) (.dmaRead e.why))).dataReadFails n else s)

/-! ### Interrupts and holds (R72, R86) -/

/-- INTERRUPT_TIMER (R72). -/
def execInterruptTimer (ring : Nat) (s : State) : Answer State :=
  .next (if (s.ring ring).timer then s.ringSignal ring else s)

/-- Entries held for ring `n` are written in order while it has space (R86). -/
def State.drainHold (s : State) (n : Nat) : Nat → State
  | 0 => s
  | k + 1 =>
    let r := s.ring n
    match r.hold with
    | [] => s
    | e :: rest =>
      if ringUsed r < s.ringSize n then
        ((s.upRing n (fun r => { r with hold := rest })).writeEntry n e).drainHold n k
      else s

/-- ENTRY_HOLD_DRAIN (R86): the hold first, then the stamps that wait for it in the FIFOs (R322, R325). -/
def execEntryHoldDrain (ring : Nat) (s : State) : Answer State :=
  .next (if s.ringState ring == 1 && !s.descRing ring then
      let s := s.drainHold ring ((s.ring ring).hold.length + 1)
      if s.ringType ring = 6 then (Tab.keys s.ports).foldl (fun s p => s.drainStamps p) s else s
    else s)

/-! ### Function level resets and the link (R53, R54, R418, R420, R546) -/

/-- What ring `n` holds is discarded without completion (R53, R54). -/
def State.discardRing (s : State) (n : Nat) : State :=
  let s := match (s.ring n).rx with | some x => s.finish x.frame | none => s
  let s := s.orphanCmds n
  { s with rings := Tab.set s.rings n { era := (s.ring n).era + 1, sbAt := (s.ring n).sbAt } }

/-- A function level reset of VF `k` (R53): its rings stop. -/
def State.resetVf (s : State) (k : Nat) : State :=
  let mine := (Tab.keys s.rings).filter (fun n => s.ringFn n == k && s.ringState n != 0)
  let s := mine.foldl (fun s n =>
    ((s.discardRing n).setF HIF_RING_CFG.ENABLE 0 n).setF HIF_RING_STAT.STATE 2 n) s
  s.upFn k (fun x => { x with scanning := false, resetting := !mine.isEmpty })

/-- VF_FUNCTION_LEVEL_RESET (R53). -/
def execVfFunctionLevelReset (vf : Nat) (s : State) : Answer State :=
  .next (if s.pcieUp && decide (1 ≤ vf) then s.resetVf vf else s)

/-- Every ring of every function stops (R54, R420). -/
def State.stopRings (s : State) : State :=
  let s := (Tab.keys s.rings).foldl (fun s n =>
    ((s.discardRing n).setF HIF_RING_CFG.ENABLE 0 n).setF HIF_RING_STAT.STATE 0 n) s
  { s with fns := s.fns.map (fun e => (e.1, { e.2 with scanning := false, resetting := false })) }

/-- The host-interface registers return to their reset values (R54, R582). -/
def State.resetHif (s : State) : State := { s with regs := s.regs.filter (fun e => !(decide (1000 * 65536 ≤ e.1 ∧ e.1 < 2000 * 65536))) }

/-- A function level reset of the PF (R54): rings stop, grants clear, registers reset. -/
def State.resetPf (s : State) : State :=
  let s := s.stopRings
  let s := s.resetHif
  { s with fns := [] }

/-- PF_FUNCTION_LEVEL_RESET (R54). -/
def execPfFunctionLevelReset (s : State) : Answer State := .next (if s.pcieUp then s.resetPf else s)

/-- PE_RST_N_ASSERT (R546). -/
def execPeRstNAssert (s : State) : Answer State :=
  .next (let s := s.resetPf
         { s with boot := { s.boot with peRst := true, linkUp := false, training := false } })

/-- PE_RST_N_DEASSERT (R546): link training starts once HIF_READY is set. -/
def execPeRstNDeassert (s : State) : Answer State :=
  .next { s with boot := { s.boot with peRst := false, training := s.isF GLB_BOOT_STAT.HIF_READY } }

/-- PCIE_LINK_LOSS (R420): the crossings flush and the rings stop. -/
def execPcieLinkLoss (s : State) : Answer State :=
  .next (if s.boot.linkUp then
      let s := s.stopRings.countDrops
      { s with boot := { s.boot with linkUp := false } }
    else s)

/-- PCIE_LINK_UP (R419, R546): training ends and the crossings reopen. -/
def execPcieLinkUp (s : State) : Answer State :=
  .next (if s.isF GLB_BOOT_STAT.HIF_READY && !s.boot.peRst then
      { s with boot := { s.boot with linkUp := true, training := false } }
    else s)

/-! ### The control complex (R36, R183, R242, R321) -/

/-- A frame that the control complex hands over.  One of direct mode skips the lookup and goes from T0 through the fabric to
its port (R250). -/
def State.ctrlSend (s : State) (f : CtrlFrame) : State :=
  match f with
  | .lookup t b =>
    let b := padFrame b
    let ptp := (parse b).isPtp
    if (s.fence t).st ≠ 0 then s.countIngress 257 (s.trustClass 257 (parse b)) 0x26
    else if s.preRoom t b.length ptp then
      let g := s.draw
      g.2.preAdd t { bytes := b, inPort := 257, stamp := g.1, ptp := ptp }
    else s.countIngress 257 (s.trustClass 257 (parse b)) 0x01
  | .training p b => if s.portState p == 2 then s.emit (.txTraining p b) else s
  | .direct p c launch stampReq oneStep tag b =>
    let d : Direct := { stampReq := stampReq, oneStep := oneStep, tag := tag, launch := launch.map (fun l => (l.1 : Int) * (nsU / 16)), launchQ := (launch.map (fun l => l.2 % 2)).getD 0 }
    let g : Frame := { bytes := padFrame b, inPort := 257, res := { destKind := if p = 256 then 2 else 0, dest := p, cls := c },
                       direct := some d }
    if (s.fence 0).st ≠ 0 then s.countIngress 257 c 0x26
    else
      match d.launch with
      | some l => if s.withinHorizon l then (s.sendUnicast 0 (p / 32) g).1 else s
      | none => (s.sendUnicast 0 (if p = 256 then 0 else p / 32) g).1

/-- CONTROL_FRAME_SEND (R36, R128). -/
def execControlFrameSend (f : CtrlFrame) (s : State) : Answer State := .next (if s.fwRuns then s.ctrlSend f else s)

/-- The full stamp that the control complex makes of one that crossed the fabric with SEC[1:0] (R319, R320): the one nearest
to the serving time, in units of 62.5 ps. -/
def State.fullStamp (s : State) (g : Nat) : Nat :=
  let span : Int := 64000000000
  let low : Int := (g % 64000000000 : Nat)
  (low + span * roundDiv (s.now / (nsU / 16) - low) span).toNat

/-- CONTROL_COMPLEX_DELIVERY (R242): the control complex takes the first frame of the highest class of port 257. -/
def State.ctrlTake (s : State) : State :=
  match [7, 6, 5, 4, 3, 2, 1, 0].find? (fun c => (s.head 257 c).isSome) with
  | none => s
  | some c =>
    match s.head 257 c with
    | none => s
    | some f =>
      let s := s.popHead 257 c
      if s.aged f 257 then s.dropEgress 257 c f 0x34
      else
        let s := (s.countS (group 3 257) (c * 32)).countS (group 3 257) (c * 32 + 1) (frameOctets f.bytes.length)
        (s.emit (.toControl (s.outgoing f) f.inPort (s.fullStamp f.stamp))).finish f

def execControlComplexDelivery (s : State) : Answer State := .next (if s.fwRuns then s.ctrlTake else s)

end Sys2Proof.Machine
end

