-- ==== Sys2Proof/Machine/Counts.lean ====
section
/-!
DEFINITION. Counter groups as they are read (R520, R521, R523, R524): how many counters a group has, which of them are
error counters, and the bytes of a group record.
-/

namespace Sys2Proof.Machine

/-- Whether a group ID names a group (R520). -/
def groupDefined (g : Nat) : Bool :=
  let inst := g % 8192
  match g / 8192 with
  | 0 => decide (inst < 256)
  | 1 => decide (inst < 256)
  | 2 => decide (inst < 258)
  | 3 => decide (inst < 258)
  | 4 => true
  | 5 => decide (inst < 2048)
  | 6 => decide (inst < 256)
  | 7 => inst == 0
  | _ => false

/-- COUNT of a group (R520). -/
def groupCount (g : Nat) : Nat := [40, 3, 512, 320, 128, 64, 5, 48].getD (g / 8192) 0

/-- Whether counter `k` of a group of kind `kind` is an error counter (R518, R520). -/
def counterIsE (kind k : Nat) : Bool :=
  match kind with
  | 0 => k ∈ [4, 5, 6, 7, 28, 31, 32, 34, 35, 39]
  | 1 => k == 0 || k == 2
  | 4 => k % 16 == 8 || k % 16 == 12
  | 7 => decide (k < 16) || decide (24 ≤ k ∧ k < 32)
  | _ => false

/-- The value of counter `k` of group `g` as a read returns it (R520): a handle that no flow holds reads as 0. -/
def State.readCounter (s : State) (g k : Nat) : Nat :=
  if g / 8192 = 4 ∧ !(s.allFlows.any (fun f => f.handle == g % 8192 * 8 + k / 16)) then 0 else s.counter g k

/-- The slots of group `g` as function `f` reads them (R523). -/
def State.groupSlots (s : State) (f g : Nat) : List Nat :=
  (List.range (groupCount g)).map (fun k =>
    if f != 0 && g / 8192 == 4 && !s.ownsFlowIn f (g % 8192 * 8 + k / 16) then 0 else s.readCounter g k)

/-- SAT of a group record (R524). -/
def groupSat (g : Nat) (slots : List Nat) : Bool :=
  (List.range slots.length).any (fun k =>
    slots.getD k 0 == (if counterIsE (g / 8192) k then 0xFFFFFFFF else 0xFFFFFFFFFFFFFFFF))

/-- A group record (R524): the 16-byte header and the slots. -/
def groupRecord (g fc : Nat) (slots : List Nat) : Bytes :=
  toLE 2 g ++ toLE 2 slots.length ++ toLE 4 fc ++ toLE 4 0 ++ toLE 4 (flag (groupSat g slots)) ++
  slots.flatMap (fun v => toLE 8 v)

/-- The counters of group `g` that function `f` may clear set to 0 (R522, R523), and their COUNTER_EVENT due again. -/
def State.clearGroup (s : State) (f g : Nat) : State :=
  let gone : Nat → Bool := fun key =>
    key / 512 == g && !(f != 0 && g / 8192 == 4 && !s.ownsFlowIn f (g % 8192 * 8 + key % 512 / 16))
  { s with counters := { s.counters with
      val := s.counters.val.filter (fun e => !gone e.1), told := s.counters.told.filter (fun e => !gone e.1) } }

end Sys2Proof.Machine
end

