-- ==== Sys2Proof/Machine/Ticks.lean ====
section
/-!
DEFINITION. Tick instants (R390–R396), the arming cutoff and what it decides about scheduled actions (R399–R401), as the
command engine and Meridian share them.
-/

namespace Sys2Proof.Machine

/-- The quotient rounded toward plus infinity (positive divisor). -/
def ceilQ (a b : Int) : Int := -((-a) / b)

/-! ### The grid of a rate (R391, R392) -/

/-- A rate and offset: NUM / DEN Hz from `off` ns. -/
structure Grid where
  num : Nat
  den : Nat
  off : Int
  deriving DecidableEq, Repr

/-- NUM as a divisor. -/
def Grid.n (g : Grid) : Int := ((max 1 g.num : Nat) : Int)

/-- A second in DEN-fold, in the unit of `Time`. -/
def Grid.step (g : Grid) : Int := ((max 1 g.den : Nat) : Int) * 1000000000 * nsU

/-- Instant `k`, rounded up to the unit of `Time` (R391). -/
def Grid.instant (g : Grid) (k : Int) : Int := g.off * nsU + ceilQ (k * g.step) g.n

/-- The first index whose instant is `t` or later. -/
def Grid.from_ (g : Grid) (t : Int) : Int := ceilQ ((t - g.off * nsU) * g.n) g.step

/-- The first index whose instant is later than `t`. -/
def Grid.after (g : Grid) (t : Int) : Int := (t - g.off * nsU) * g.n / g.step + 1

/-- Half a period, rounded up. -/
def Grid.half (g : Grid) : Int := ceilQ g.step (2 * g.n)

/-- The grid in force of generator `g`. -/
def State.grid (s : State) (g : Nat) : Grid := { num := (s.gen g).num, den := (s.gen g).den, off := (s.gen g).off }

/-! ### Skipping (R395, R407) -/

/-- Q of a pin in µs (0 and 1 act as 2). -/
def PinCfg.quiet (c : PinCfg) : Nat := max 2 c.q

/-- TICKn's configuration in force. -/
def State.pin (s : State) (n : Nat) : PinCfg := Tab.getD s.pinCfg n {}

/-- Whether a pin's message fits the period of `x` (R395, R407). -/
def Grid.fits (x : Grid) (c : PinCfg) : Bool :=
  decide ((10 + c.quiet) * 1000 * max 1 x.num ≤ max 1 x.den * 1000000000)

/-- S_min of generator `g` on grid `x` (R395). -/
def State.sMin (s : State) (g : Nat) (x : Grid) : Int :=
  (List.range 8).foldl (fun m n =>
    let c := s.pin n
    if c.en && c.msg && c.gen == g && x.fits c then max m (((10 + c.quiet) * 1000 : Nat) * nsU) else m) (1000 * nsU)

/-- The index of generator `g`'s next tick: the first not yet examined that lies S_min after the last tick (R395). -/
def State.nextIndex (s : State) (g : Nat) : Int :=
  let x := s.grid g
  match (s.gen g).last with
  | some l => max (s.gen g).k (x.from_ (l + s.sMin g x))
  | none => (s.gen g).k

/-- The instant of generator `g`'s next tick. -/
def State.nextTick (s : State) (g : Nat) : Int := (s.grid g).instant (s.nextIndex g)

/-! ### The arming cutoff (R399, R400) -/

/-- C: the frame count of the last emitted tick, −1 before the first. -/
def State.lastFc (s : State) : Int := if (s.gen 0).started then ((s.gen 0).fc : Int) else -1

/-- The grid after generator 0's next tick, and the index of the tick after that one. -/
def State.secondTick (s : State) : Grid × Int :=
  let t := s.nextTick 0
  match (s.gen 0).pend with
  | some (n, d, o) =>
    let x : Grid := { num := n, den := d, off := o }
    (x, x.from_ (t + max (s.sMin 0 x) x.half))
  | none =>
    let x := s.grid 0
    (x, max (s.nextIndex 0 + 1) (x.from_ (t + s.sMin 0 x)))

/-- ARM_LEAD in the unit of `Time`, with `extra` µs more (R399). -/
def State.armLead (s : State) (extra : Nat) : Int :=
  ((clampN 10 1000 (s.getF MER_ARM.ARM_LEAD) + extra) * 1000 : Nat) * nsU

/-- The first tick after C that lies more than `lead` ahead of now (R109, R400). -/
def State.openTickLead (s : State) (lead : Int) : Nat :=
  let c := s.lastFc
  if s.now < s.nextTick 0 - lead then (c + 1).toNat
  else
    let x := s.secondTick
    let k := max x.2 (x.1.after (s.now + lead))
    (c + 2 + (k - x.2)).toNat

/-- The first tick after C whose cutoff has not passed (R109, R400). -/
def State.openTick (s : State) (extra : Nat) : Nat := s.openTickLead (s.armLead extra)

/-- What the engine makes of a command naming a tick (R399, R400). -/
inductive Arming where
  | at (fc : Nat)
  | past
  | bad
  deriving DecidableEq, Repr

/-- A command naming frame count `n` is judged now. -/
def State.arming (s : State) (n : Nat) (lateOk : Bool) (extra : Nat) : Arming :=
  let c := s.lastFc
  if c + 16777216 < n then .bad
  else
    let late := decide ((n : Int) ≤ c) || ((n : Int) == c + 1 && !decide (s.now < s.nextTick 0 - s.armLead extra))
    if !late then .at n else if lateOk then .at (s.openTick extra) else .past

/-- Whether an action accepted for tick `n` has reached its cutoff (R110). -/
def State.cutoffReached (s : State) (n : Nat) : Bool :=
  let c := s.lastFc
  decide ((n : Int) ≤ c) || decide (n < s.openTick 0)

end Sys2Proof.Machine
end

