-- ==== Sys2Proof/Machine/Commands.lean ====
section
/-!
DEFINITION. How the hardware command engine takes a command (R82, R87, R99–R101): the descriptor at the front of a
COMMAND ring, who may issue it, and whether firmware is there to execute it.
-/

namespace Sys2Proof.Machine

/-- Whether a fetched descriptor is the one that `c` stands for, with OPCODE `op` (R82): ARG0 to ARG5 are DW2 to DW7, and
with INDIRECT DW2–3 address the buffer and DW4 is its length as well (log entry 6). -/
def cmdSpelledBy (c : Cmd) (op : Nat) (d : Desc) : Bool :=
  dw d.words 0 % 256 == op && bit (dw d.words 0) 8 == c.lateOk && bit (dw d.words 0) 9 == c.indirect &&
  bits (dw d.words 0) 16 16 == c.target && dw d.words 1 == c.cookie.toNat &&
  (!c.indirect || dw d.words 4 == c.dataLen) &&
  dw d.words 2 == c.a0.toNat && dw d.words 3 == c.a1.toNat && dw d.words 4 == c.a2.toNat &&
  dw d.words 5 == c.a3.toNat && dw d.words 6 == c.a4.toNat && dw d.words 7 == c.a5.toNat

/-- The address of an indirect command's buffer (R82). -/
def cmdAddr (d : Desc) : Nat := dw d.words 2 + dw d.words 3 * 4294967296

/-- Whether firmware still holds the command at the front of ring `n` (R100). -/
def State.cmdHeld (s : State) (n : Nat) : Bool :=
  let on : Option Cmd → Bool := fun c => match c with | some c => c.ring == n | none => false
  s.fw.timeAuth.any (fun c => c.ring == n) || on s.fw.temper || on s.fw.pairSwitch ||
  (match s.fw.activate with | some a => a.cmd.ring == n | none => false)

/-- Whether the descriptor at the front of `c`'s ring is `c` with opcode `op`, to be executed now (R99, R100). -/
def State.commandReady (s : State) (op : Nat) (c : Cmd) : Bool :=
  decide (c.ring < noRing) && s.ringState c.ring != 0 && s.ringType c.ring == 2 && !s.cmdHeld c.ring &&
  (match (s.ring c.ring).fetched with | d :: _ => cmdSpelledBy c op d | [] => false)

/-- A command of the engine's (R99, R101): only the PF may issue one that is not marked VF, and DATA_LEN is at most
64 KiB (R82). -/
def State.command (s : State) (op : Nat) (vfOk : Bool) (c : Cmd) (run : State → State) : State :=
  if !s.commandReady op c then s
  else
    let f := s.ringFn c.ring
    let s := s.perf 8 { code := 0x25, fn := some f }
    if f != 0 && !vfOk then s.done c stAuth
    else if c.indirect && decide (65536 < c.dataLen) then s.done c stBadArg
    else
      let s := if c.indirect then
          (match (s.ring c.ring).fetched with | d :: _ => s.dmaReads f (cmdAddr d) c.dataLen | [] => s)
        else s
      run s

/-- A command of firmware's (R24, R100, R101, R545): FENCED while firmware is not running, and until HOST_READY; with KCLK
stopped firmware takes no command, and this one waits (R26, R383). -/
def State.fwCommand (s : State) (op : Nat) (c : Cmd) (run : State → State) : State :=
  if !s.kclk then s
  else s.command op false c (fun s => if s.fw.running && s.fw.phase == 3 then run s else s.done c stFenced)

/-- The frame count that a command names (R82). -/
def cmdFrameCount (c : Cmd) : Nat := c.a3.toNat + c.a4.toNat % 65536 * 4294967296

/-- The function that issues a command. -/
def State.issuer (s : State) (c : Cmd) : Nat := s.ringFn c.ring

/-- A result written over a command's indirect buffer. -/
def State.writeResult (s : State) (c : Cmd) (data : Bytes) : State :=
  match (s.ring c.ring).fetched with
  | d :: _ => (s.dmaWrite (s.ringFn c.ring) (cmdAddr d)).emit (.resultWrite c.ring c.cookie data)
  | [] => s.emit (.resultWrite c.ring c.cookie data)

end Sys2Proof.Machine
end

