-- ==== Sys2Proof/Machine/Flash.lean ====
section
/-!
DEFINITION. The flash and the fuses as the boot ROM and firmware use them (R555–R560), and what the first done mark of a
started image ends (R431, R545, R559, R560).
-/

namespace Sys2Proof.Machine

/-- The image in slot A (0) or B (1). -/
def State.slotImage (s : State) (slot : Nat) : Option Image := if slot = 0 then s.flash.slotA else s.flash.slotB

/-- Whether SEQ `b` is later than SEQ `a` in serial-number arithmetic modulo 2^32 (R556). -/
def seqLater (a b : Nat) : Bool :=
  let d := (b + 4294967296 - a % 4294967296) % 4294967296
  decide (0 < d ∧ d < 2147483648)

/-- Whether copy 1 of the boot record is the one in force (R556); copy 0 otherwise. -/
def Flash.second (f : Flash) : Bool := f.rec1.valid && (!f.rec0.valid || seqLater f.rec0.seq f.rec1.seq)

/-- The slot that the boot record names: A where no copy is valid (R556). -/
def Flash.recordSlot (f : Flash) : Nat :=
  if f.second then f.rec1.slot % 2 else if f.rec0.valid then f.rec0.slot % 2 else 0

/-- The boot record rewritten to name `slot`: the copy not in force, with SEQ + 1 (R556). -/
def Flash.rewriteRecord (f : Flash) (slot : Nat) : Flash :=
  let seq := if f.second then f.rec1.seq else if f.rec0.valid then f.rec0.seq else 0
  let r : BootRec := { valid := true, seq := (seq + 1) % 4294967296, slot := slot }
  if f.second then { f with rec0 := r } else { f with rec1 := r }

/-- Whether the boot ROM accepts an image (R558): header, silicon revision 0, key, signature, SVN and hash. -/
def State.imageOk (s : State) (i : Image) : Bool :=
  i.magicLenOk && bit i.silicon 0 && i.keyOk && !bit s.fuses.keyRevoked (i.keyIndex % 4) && i.sigOk &&
  decide (s.fuses.svnMin ≤ i.svn % 64) && i.hashOk

/-- The slot that runs. -/
def State.runningSlot (s : State) : Nat := s.getF GLB_BOOT_STAT.SLOT

/-- SVN_MIN rises to a committing image's SVN when it reaches HOST_READY (R560). -/
def State.commitSvn (s : State) : State :=
  match s.slotImage s.runningSlot with
  | some i =>
    if i.svnCommit && decide (s.fuses.svnMin < i.svn % 64) then { s with fuses := { s.fuses with svnMin := i.svn % 64 } }
    else s
  | none => s

/-- STAGE becomes HOST_READY (R545 step 6); READY_MS, whose value the spec does not state, is written once per start-up
(R579); after a fallback the boot record names the running slot (R559). -/
def State.hostReady (s : State) : State :=
  if s.getF GLB_BOOT_STAT.STAGE != 5 then s
  else
    let s := s.setF GLB_BOOT_STAT.STAGE 6
    let s := if s.boot.ready then s
      else
        let d := s.draw
        let s := d.2.setF GLB_BOOT_TIME.READY_MS (sat 65535 d.1)
        { s with boot := { s.boot with ready := true } }
    if s.isF GLB_BOOT_STAT.FALLBACK then { s with flash := s.flash.rewriteRecord s.runningSlot } else s

/-- A new image's first done mark ends its FW_ACTIVATE: the slot becomes the boot slot (R431). -/
def State.activateDone (s : State) : State :=
  match s.fw.activate with
  | some a =>
    if a.booted then
      ({ s with fw := { s.fw with activate := none }, flash := s.flash.rewriteRecord a.slot }).done a.cmd stOk
    else s
  | none => s

/-- The first done mark of a started image (R398, R431, R545, R560). -/
def State.firstDone (s : State) : State :=
  if s.fw.phase = 2 then
    let s := ({ s with fw := { s.fw with phase := 3, windowed := false } }).setF MER_BUDGET_STAT.HB_ARMED 1
    s.hostReady.commitSvn.activateDone
  else s

end Sys2Proof.Machine
end

