-- ==== Sys2Proof/Machine/TableCmd.lean ====
section
/-!
DEFINITION. The engine's commands on tables and commits (R101, R102, R106–R110, R162–R171, R184, R185, R587–R590), on
rings (R112), counters (R521–R523), protection groups (R243–R247), grants (R103) and faults (R451).
-/

namespace Sys2Proof.Machine

/-! ### Records (R162, R165, R167, R169, R171, R587) -/

/-- Doublewords of the record of table `t` that begins with the doublewords `w` (R162, R167, R171; log entry 16). -/
def recWords (t : Nat) (w : List Word) : Nat :=
  if t = 1 then (if mcAf w = 1 then 16 else 8)
  else if t < 4 then 8
  else if t < 12 then (if aclFormat w = 2 then 32 else 16)
  else 16

/-- Whether a record's key is one its table can hold. -/
def keyOk (t : Nat) (w : List Word) : Bool :=
  if t = 0 then decide (l2Kind w ≤ 1)
  else if t = 2 then decide (lpmLen w ≤ 32) && lpmPrefix 0 w % 2 ^ (32 - lpmLen w) == 0
  else if t = 3 then decide (lpmLen w ≤ 128) && lpmPrefix 1 w % 2 ^ (128 - lpmLen w) == 0
  else true

/-- INDEX of an ACL record. -/
def aclIndex (w : List Word) : Nat := bits (dw w 12) 16 14

/-- The key of a record of table `t`. -/
def recKey (t : Nat) (w : List Word) : List Nat :=
  if t = 0 then (if l2Kind w = 0 then [0, l2Vlan w, l2Mac w] else [1, l2Nh w])
  else if t = 1 then
    (if mcAny w then [mcAf w, 1, mcGroup w] else [mcAf w, 0, mcGroup w, mcSource w])
  else if t = 2 then [lpmPrefix 0 w, lpmLen w]
  else if t = 3 then [lpmPrefix 1 w, lpmLen w]
  else if t < 12 then [aclIndex w]
  else [dw w 0 % 65536]

/-- Whether a record is one that its table accepts (R165, R167, R169, R171, R173, R587). -/
def recOk (t : Nat) (w : List Word) : Bool :=
  keyOk t w &&
  (if t = 0 then
    let a := l2Action w
    (if l2Kind w = 0 then decide (a ≤ 4) else a == 0 || a == 2 || a == 3) &&
    (a != 0 || decide (l2Dest w < 256)) && (a != 2 || !l2RingEn w || decide (l2Dest w < 256))
  else if t = 1 then
    let a := l2Action w
    decide (2 ≤ a ∧ a ≤ 4) && mcRpfAct w != 3 && (decide (mcRpfPort w ≤ 257) || mcRpfPort w == 0x1FF) &&
    (a != 2 || decide (l2Dest w < 256))
  else if t < 4 then
    let a := bits (dw w 5) 24 3
    a == 0 || a == 2 || a == 3
  else if t < 12 then
    decide (aclFormat w < 3) && decide (aclAct w < 5) && (aclFormat w != 2 || aclIndex w % 2 == 0) &&
    (decide (aclAct w < 2) || decide (aclDest w < 256))
  else dw w 0 / 65536 == 0 && (List.range 7).all (fun i => dw w (i + 1) == 0))

/-- The slots of an ACL TCAM that a record occupies. -/
def aclSlots (w : List Word) : List Nat := if aclFormat w = 2 then [aclIndex w, aclIndex w + 1] else [aclIndex w]

/-- The shadow records of table `t`. -/
def State.shadow (s : State) (t : Nat) : List Rec := Tab.getD s.tables.shd t []
def State.setShadow (s : State) (t : Nat) (l : List Rec) : State :=
  { s with tables := { s.tables with shd := Tab.set s.tables.shd t l } }

/-- LPM units used in the shadow bank (R162): an IPv4 prefix takes 1, an IPv6 prefix 4. -/
def State.lpmUnits (s : State) : Nat := (s.shadow 2).length + 4 * (s.shadow 3).length

/-- Whether table `t`'s shadow bank takes a new record `w` (R162, R163): the 2,048-entry overflow CAM alone has room for
the first entries of a hashed table (log entry 14). -/
def State.tblRoom (s : State) (t : Nat) (w : List Word) : Bool :=
  let n := (s.shadow t).length
  if t = 0 then decide (n < 2048) || (decide (n < 262144) && Config.hashRoom t n (recKey t w))
  else if t = 1 then
    let u := (s.shadow 1).foldl (fun k r => k + recWords 1 r.words / 8) 0 + recWords 1 w / 8
    decide (u ≤ 2048) || (decide (u ≤ 262144) && Config.hashRoom t n (recKey t w))
  else if t = 2 then decide (s.lpmUnits + 1 ≤ 524288)
  else if t = 3 then decide (s.lpmUnits + 4 ≤ 524288)
  else true

/-- The index that a new record gets (R163). -/
def State.tblIndex (s : State) (t : Nat) (w : List Word) : Nat :=
  if t < 4 then Config.entryIndex t (s.shadow t).length (recKey t w)
  else if t < 12 then aclIndex w
  else dw w 0 % 65536

/-- The shadow record with a key. -/
def findKey (t : Nat) (k : List Nat) (l : List Rec) : Option Rec := l.find? (fun r => recKey t r.words == k)

/-- One entry written to the shadow bank (R163): the state, STATUS and the entry's index. -/
def State.tblPut (s : State) (t : Nat) (w : List Word) : State × Nat × Nat :=
  if !recOk t w then (s, stBadArg, 0)
  else
    let l := s.shadow t
    match findKey t (recKey t w) l with
    | some r =>
      let l' := l.map (fun x => if recKey t x.words = recKey t w then { x with words := w } else x)
      let l' := if 4 ≤ t ∧ t < 12 then
          l'.filter (fun x => aclIndex x.words == aclIndex w || (aclSlots x.words).all (fun i => !(aclSlots w).contains i))
        else l'
      (s.setShadow t l', stOk, r.idx)
    | none =>
      if !s.tblRoom t w then (s, stNoSpace, 0)
      else
        let l' := if 4 ≤ t ∧ t < 12 then
            l.filter (fun x => (aclSlots x.words).all (fun i => !(aclSlots w).contains i))
          else l
        let i := s.tblIndex t w
        (s.setShadow t (l' ++ [{ words := w, idx := i }]), stOk, i)

/-! ### What stands in the way of a change (R106, R184, R185) -/

/-- Whether table `t` has a commit pending, or its shadow bank still serves frames (R106, R184). -/
def State.tblBusy (s : State) (t : Nat) : Bool :=
  s.epochs.commits.any (fun c => bit c.2 t) || (t == 12 && !s.tables.repRetired.isEmpty)

/-- Whether table `t` is the ACL of a fenced tile (R185). -/
def State.tblFenced (s : State) (t : Nat) : Bool := decide (4 ≤ t ∧ t < 12) && (s.fence (t - 4)).st != 0

/-- The tables of a mask. -/
def maskTables (m : Nat) : List Nat := bitsSet 14 m

/-- Whether a table mask is one of R102. -/
def maskOk (m : Nat) : Bool := m != 0 && decide (m < 16384)

/-- The STATUS that keeps a change of table `t` out, OK if none. -/
def State.tblBar (s : State) (t : Nat) : Nat :=
  if s.tblFenced t then stFenced else if s.tblBusy t then stBusy else stOk

/-! ### Writing (R163, R164, R588, R589) -/

/-- The record that a command carries: inline in ARG0–ARG5 with zeros behind, or in its buffer (R164). -/
def cmdRecord (c : Cmd) : List Word :=
  if c.indirect then toWords (c.dataLen / 4) c.data else [c.a0, c.a1, c.a2, c.a3, c.a4, c.a5, 0, 0]

/-- Whether that record has the length of a record of table `t`. -/
def cmdRecordFits (c : Cmd) (t : Nat) : Bool :=
  (!c.indirect || c.dataLen % 4 == 0) && (cmdRecord c).length == recWords t (cmdRecord c)

/-- TBL_WRITE (R163, R164). -/
def execTblWrite (c : Cmd) (s : State) : Answer State :=
  .next (s.command 0x10 false c (fun s =>
    let t := c.target
    if 12 < t ∨ !cmdRecordFits c t then s.done c stBadArg
    else if !recOk t (cmdRecord c) then s.done c stBadArg
    else if s.tblBar t ≠ stOk then s.done c (s.tblBar t)
    else
      let r := s.tblPut t (cmdRecord c)
      r.1.done c r.2.1 r.2.2))

/-- The key record of TBL_DELETE and TBL_READ: table 12's key stands in ARG0[15:0] (R587). -/
def cmdKeyRecord (c : Cmd) : List Word :=
  if c.target = 12 then [BitVec.ofNat 32 (c.a0.toNat % 65536)] else (cmdRecord c)

/-- Whether a command names a key of table `t`. -/
def cmdKeyFits (c : Cmd) : Bool := c.target == 12 || ((cmdRecordFits c c.target) && keyOk c.target (cmdRecord c))

/-- TBL_DELETE (R106, R588). -/
def execTblDelete (c : Cmd) (s : State) : Answer State :=
  .next (s.command 0x11 false c (fun s =>
    let t := c.target
    if 12 < t ∨ !(cmdKeyFits c) then s.done c stBadArg
    else if s.tblBar t ≠ stOk then s.done c (s.tblBar t)
    else
      let k := recKey t (cmdKeyRecord c)
      match findKey t k (s.shadow t) with
      | some r => (s.setShadow t ((s.shadow t).filter (fun x => recKey t x.words != k))).done c stOk r.idx
      | none => s.done c stOk 0xFFFFFFFF))

/-- A list of doublewords cut into records of table `t`, if they end exactly (R589). -/
def splitRecs (t : Nat) : Nat → List Word → Option (List (List Word))
  | 0, l => if l.isEmpty then some [] else none
  | k + 1, l =>
    if l.isEmpty then some []
    else
      let n := recWords t l
      if l.length < n then none else (splitRecs t k (l.drop n)).map (fun r => l.take n :: r)

/-- Entries written in list order until one fails (R589): STATUS and how many were written. -/
def State.tblPutAll (s : State) (t : Nat) : List (List Word) → Nat → State × Nat × Nat
  | [], n => (s, stOk, n)
  | w :: l, n =>
    let r := s.tblPut t w
    if r.2.1 = stOk then r.1.tblPutAll t l (n + 1) else (s, r.2.1, n)

/-- TBL_BULK (R164, R589). -/
def execTblBulk (c : Cmd) (s : State) : Answer State :=
  .next (s.command 0x12 false c (fun s =>
    let t := c.target
    if 12 < t ∨ !c.indirect ∨ c.dataLen = 0 ∨ c.dataLen % 4 ≠ 0 then s.done c stBadArg
    else
      match splitRecs t (c.dataLen / 4) (toWords (c.dataLen / 4) c.data) with
      | none => s.done c stBadArg
      | some l =>
        if s.tblBar t ≠ stOk then s.done c (s.tblBar t)
        else
          let r := s.tblPutAll t l 0
          r.1.done c r.2.1 r.2.2))

/-! ### Banks (R106–R110, R178, R179) -/

/-- The first STATUS that keeps a mask's tables from a change: FENCED before BUSY. -/
def State.maskBar (s : State) (m : Nat) : Nat :=
  if (maskTables m).any (fun t => s.tblFenced t) then stFenced
  else if (maskTables m).any (fun t => s.tblBusy t) then stBusy
  else stOk

/-- The active bank of table `t` copied to its shadow (R107). -/
def State.syncTable (s : State) (t : Nat) : State :=
  if t = 13 then { s with tables := { s.tables with flowsShd := s.tables.flowsAct } }
  else s.setShadow t (s.active t)

/-- TBL_SYNC (R107). -/
def execTblSync (c : Cmd) (s : State) : Answer State :=
  .next (s.command 0x13 false c (fun s =>
    let m := c.a2.toNat
    if !maskOk m then s.done c stBadArg
    else if s.maskBar m ≠ stOk then s.done c (s.maskBar m)
    else ((maskTables m).foldl (fun s t => s.syncTable t) s).done c stOk))

/-- Live epochs (R179): the current one and every earlier one that a frame still carries. -/
def State.liveEpochs (s : State) : Nat :=
  1 + (s.epochs.count.filter (fun e => decide (e.1 < s.epochs.serial) && e.2 != 0)).length

/-- The epoch that a commit of frame count `n` will install, as predicted now (R108). -/
def State.predictedEpoch (s : State) (n : Nat) : Nat :=
  (s.epochs.serial + ((s.epochs.commits.map (fun c => c.1)).filter (fun x => decide (x ≤ n))).eraseDups.length) % 65536

/-- TBL_COMMIT (R106, R108, R109, R179). -/
def execTblCommit (c : Cmd) (s : State) : Answer State :=
  .next (s.command 0x14 false c (fun s =>
    let m := c.a2.toNat
    let a := s.arming (cmdFrameCount c) c.lateOk 0
    if !maskOk m || a == .bad then s.done c stBadArg
    else if s.maskBar m ≠ stOk then s.done c (s.maskBar m)
    else if 32 < s.liveEpochs + s.epochs.commits.length + 1 then s.done c stBusy
    else
      match a with
      | .at n =>
        let s := { s with epochs := { s.epochs with commits := s.epochs.commits ++ [(n, m)] } }
        s.done c stOk (s.predictedEpoch n) (n % 4294967296)
      | _ => s.done c stPast))

/-- TBL_CANCEL (R110, R185). -/
def execTblCancel (c : Cmd) (s : State) : Answer State :=
  .next (s.command 0x15 false c (fun s =>
    let m := c.a2.toNat
    if !maskOk m then s.done c stBadArg
    else if (maskTables m).any (fun t => s.tblFenced t) then s.done c stFenced
    else
      let hit := s.epochs.commits.filter (fun x => x.2 &&& m != 0)
      if hit.any (fun x => s.cutoffReached x.1) then s.done c stPast
      else
        let left := (s.epochs.commits.map (fun x => (x.1, x.2 - (x.2 &&& m)))).filter (fun x => x.2 != 0)
        ({ s with epochs := { s.epochs with commits := left } }).done c stOk hit.length))

/-! ### Reading (R164, R258, R590) -/

/-- A record's bytes put into the result buffer, or NOSPACE (R590). -/
def State.tblAnswer (s : State) (c : Cmd) (idx : Nat) (w : List Word) : State :=
  if c.dataLen < 4 * w.length then s.done c stNoSpace
  else (s.writeResult c (wordsLE w)).done c stOk idx

/-- TBL_READ (R258, R590): the key stands in the buffer, in ARG0 for tables 12 and 13 (log entry 6). -/
def execTblRead (c : Cmd) (s : State) : Answer State :=
  .next (s.command 0x16 false c (fun s =>
    let t := c.target
    let b := c.a5.toNat
    if !c.indirect || decide (13 < t) || decide (1 < b) then s.done c stBadArg
    else if t = 13 then
      let l := if b = 0 then s.tables.flowsAct else s.tables.flowsShd
      match l.find? (fun f => f.handle == c.a0.toNat) with
      | some f => s.tblAnswer c f.handle f.words
      | none => s.tblAnswer c 0xFFFFFFFF (List.replicate 16 0)
    else
      let key := if t = 12 then (cmdKeyRecord c) else toWords 32 c.data
      if !keyOk t key then s.done c stBadArg
      else if s.tblFenced t then s.done c stFenced
      else
        let l := if b = 0 then s.active t else s.shadow t
        match findKey t (recKey t key) l with
        | some r => s.tblAnswer c r.idx r.words
        | none => s.tblAnswer c 0xFFFFFFFF (List.replicate (recWords t key) 0)))

/-! ### NOP, rings, counters (R101, R112, R521–R523) -/

/-- NOP (R101). -/
def execNop (c : Cmd) (s : State) : Answer State :=
  .next (s.command 0x01 true c (fun s => s.done c stOk (s.frameCount % 4294967296)))

/-- PAUSED of a ring set or cleared by function `f` (R112). -/
def State.pauseRing (s : State) (c : Cmd) (v : Nat) : State :=
  if 256 ≤ c.target then s.done c stBadArg
  else if s.issuer c ≠ 0 ∧ s.ringFn c.target ≠ s.issuer c then s.done c stAuth
  else (s.setF HIF_RING_STAT.PAUSED v c.target).done c stOk

/-- RING_PAUSE (R112). -/
def execRingPause (c : Cmd) (s : State) : Answer State := .next (s.command 0x30 true c (fun s => s.pauseRing c 1))

/-- RING_RESUME (R112). -/
def execRingResume (c : Cmd) (s : State) : Answer State := .next (s.command 0x31 true c (fun s => s.pauseRing c 0))

/-- Whether the issuer reaches a counter group (R523). -/
def State.reaches (s : State) (c : Cmd) : Bool := s.issuer c == 0 || s.vfReaches (s.issuer c) c.target

/-- CNT_READ (R521, R523). -/
def execCntRead (c : Cmd) (s : State) : Answer State :=
  .next (s.command 0x40 true c (fun s =>
    let g := c.target
    if !c.indirect || !groupDefined g then s.done c stBadArg
    else if !s.reaches c then s.done c stAuth
    else
      let data := groupRecord g (s.frameCount % 4294967296) (s.groupSlots (s.issuer c) g)
      if c.dataLen < 16 + 8 * groupCount g then s.done c stNoSpace
      else (s.writeResult c data).done c stOk (16 + 8 * groupCount g)))

/-- CNT_CLEAR (R522, R523). -/
def execCntClear (c : Cmd) (s : State) : Answer State :=
  .next (s.command 0x41 true c (fun s =>
    if !groupDefined c.target then s.done c stBadArg
    else if !s.reaches c then s.done c stAuth
    else (s.clearGroup (s.issuer c) c.target).done c stOk))

/-! ### Protection groups (R243–R247) -/

/-- Whether the tile of front-panel port `p` is fenced. -/
def State.portFenced (s : State) (p : Nat) : Bool := (s.fence (p / 32)).st != 0

/-- Whether a port of group `g` lies on a fenced tile. -/
def State.pgFenced (s : State) (g : Nat) : Bool :=
  match Tab.get? s.pgs g with
  | some x => s.portFenced x.primary || s.portFenced x.backup
  | none => false

/-- Whether a change of position of group `g` has begun and not reached its last step (R243). -/
def State.pgBusy (s : State) (g : Nat) : Bool :=
  match Tab.get? s.pgs g with
  | some x => decide (s.time.tclk < x.busyTo)
  | none => false

/-- Group `g` no longer exists. -/
def State.pgErase (s : State) (g : Nat) : State :=
  ({ s with pgs := Tab.erase s.pgs g }).clrF GLB_PG_STAT.ON_BACKUP (1 <<< (g % 32)) (g / 32)

/-- Group `g` defined anew, in automatic mode, at the position that the links give it (R243). -/
def State.pgDefine (s : State) (g a b : Nat) : State :=
  let s := { s.pgErase g with pgs := Tab.set s.pgs g { primary := a, backup := b } }
  if s.portState a != 5 && s.portState b == 5 then s.pgMove g true else s

/-- PG_SET (R243, R264); where more than one status applies, the order FENCED, BUSY, NOSPACE is the model's (log entry
56). -/
def execPgSet (c : Cmd) (s : State) : Answer State :=
  .next (s.command 0x50 false c (fun s =>
    let g := c.target
    let a := c.a0.toNat
    let b := c.a1.toNat
    if 128 ≤ g ∨ 256 ≤ a ∨ 256 ≤ b then s.done c stBadArg
    else if s.portFenced a || s.portFenced b || s.pgFenced g then s.done c stFenced
    else if s.pgBusy g then s.done c stBusy
    else if s.pgs.any (fun e => e.1 != g && [e.2.primary, e.2.backup].any (fun p => p == a || p == b)) then
      s.done c stNoSpace
    else
      let t := if a = b then s.pgErase g else s.pgDefine g a b
      (t.judgeOverbooked s b).done c stOk))

/-- PG_FORCE (R247). -/
def execPgForce (c : Cmd) (s : State) : Answer State :=
  .next (s.command 0x51 false c (fun s =>
    let g := c.target
    let v := c.a2.toNat
    match Tab.get? s.pgs g with
    | none => s.done c stBadArg
    | some x =>
      if 2 < v then s.done c stBadArg
      else if s.pgFenced g then s.done c stFenced
      else
        let s := { s with pgs := Tab.set s.pgs g { x with forced := if v = 0 then none else some v } }
        let s := if v = 0 then s.pgEval g else if x.onBackup == (v == 2) then s else s.pgMove g (v == 2)
        let inUse := match Tab.get? s.pgs g with | some y => if y.onBackup then y.backup else y.primary | none => 0
        s.done c stOk inUse))

/-! ### Grants and faults (R103, R451) -/

/-- The grant that a record of R103 gives, if the record is well formed.  MERGE_QUOTA and CUT_QUOTA are read whole; a reserved
bit that is set makes them too large, hence BADARG, which the rule does not settle (log entry 27). -/
def grantOf (b : Bytes) : Option Grant :=
  let merges := leAt b 34 2
  let cuts := leAt b 36 2
  if 8192 < merges ∨ 4096 < cuts ∨ !allZero b 39 25 then none
  else some { ports := leAt b 0 32, flows := leAt b 32 2, merges := merges, cuts := cuts, kinds := byteAt b 38 }

/-- VF_GRANT (R103). -/
def execVfGrant (c : Cmd) (s : State) : Answer State :=
  .next (s.command 0x60 false c (fun s =>
    if c.target = 0 ∨ 32 ≤ c.target ∨ !c.indirect ∨ c.dataLen ≠ 64 then s.done c stBadArg
    else
      match grantOf c.data with
      | none => s.done c stBadArg
      | some g =>
        if (s.fn c.target).resetting then s.done c stBusy
        else (s.upFn c.target (fun x => { x with grant := g })).done c stOk))

/-- What FAULT_ACK answers (R451). -/
def ackOutcome (f : FaultSt) : Nat := if !f.latched then 0 else if f.present then 2 else 1

/-- FAULT_ACK (R426, R451): a released fault no longer keeps the fence that it set. -/
def execFaultAck (c : Cmd) (s : State) : Answer State :=
  .next (s.command 0x70 false c (fun s =>
    if 512 ≤ c.target then s.done c stBadArg
    else
      let r := ackOutcome (s.faultSt c.target)
      let s := if r = 1 then
          let s := s.unlatch c.target
          { s with fences := s.fences.map (fun e =>
              (e.1, if e.2.fault = some c.target then { e.2 with fault := none } else e.2)) }
        else s
      s.done c stOk r))

end Sys2Proof.Machine
end

