-- ==== Sys2Proof/Machine/FlowCmd.lean ====
section
/-!
DEFINITION. The engine's commands on media flows, merge groups and clean-cut groups (R256–R264, R271, R272, R278–R281),
and what a commit cycle makes of the records and selections they scheduled (R31, R272, R279, R281).
-/

namespace Sys2Proof.Machine

/-! ### Flow records as commands carry them (R256) -/

/-- The record and the egress port mask in a command's buffer. -/
def cmdFlow (c : Cmd) (owner handle : Nat) : Flow :=
  { handle := handle, words := toWords 16 c.data, mask := leAt c.data 64 32, owner := owner }

/-- Whether a record's reserved fields and unused address doublewords are 0 (R255, R256). -/
def Flow.clean (f : Flow) : Bool :=
  bits (dw f.words 9) 14 2 == 0 && dw f.words 11 / 65536 == 0 &&
  [13, 14, 15].all (fun i => dw f.words i == 0) &&
  (f.af == 1 || [1, 2, 3, 5, 6, 7].all (fun i => dw f.words i == 0))

/-- Whether a command's buffer is a flow record (R256). -/
def cmdFlowOk (c : Cmd) : Bool :=
  let f := cmdFlow c 0 0
  c.indirect && c.dataLen == 96 && f.rate != 0 && f.clean && (decide (f.inPort ≤ 257) || f.inPort == 0x1FF)

/-- The shadow record of a handle. -/
def State.shadowFlow (s : State) (h : Nat) : Option Flow := s.tables.flowsShd.find? (fun f => f.handle == h)

/-- Whether the key of `f` is present in a bank that counts (R257). -/
def State.keyTaken (s : State) (f : Flow) : Bool := s.allFlows.any (fun x => x.key == f.key)

/-- The flows that function `v` holds (R103, R257). -/
def State.flowsOf (s : State) (v : Nat) : Nat :=
  ((s.allFlows.filter (fun f => f.owner == v)).map (fun f => f.handle)).eraseDups.length

/-- The group that a flow is or will be a member of (R271, R272). -/
def State.memberOf (s : State) (h : Nat) : Option Nat :=
  (s.merges.find? (fun e => e.2.members.contains h ||
    (match e.2.next with | some n => n.1.contains h | none => false))).map (fun e => e.1)

/-- Whether record `w` names flow or merge group `id` as a candidate. -/
def recNames (w : List Word) (merge : Bool) (id : Nat) : Bool :=
  (List.range 4).any (fun k => candValid w k && candMerge w k == merge && candId w k == id)

/-- The cut group of which a flow or merge group is or will be a candidate (R279). -/
def State.candOf (s : State) (merge : Bool) (id : Nat) : Option Nat :=
  (s.cuts.find? (fun e => recNames e.2.words merge id ||
    (match e.2.next with | some n => recNames n.1 merge id | none => false))).map (fun e => e.1)

/-! ### Admission (R262, R263) -/

/-- Check 3 of R263 for a flow of function `owner` that has or would get handle `own` (none: not yet assigned). -/
def State.linkBad (s : State) (f : Flow) (own : Option Nat) (owner : Nat) : Bool :=
  f.link != 0xFFFF &&
  (own == some f.link ||
   (match s.shadowFlow f.link with
    | some t => t.link != 0xFFFF || t.owner != owner
    | none => true) ||
   (match own with
    | some h => s.tables.flowsShd.any (fun x => x.handle != h && x.link == h)
    | none => false))

/-- RES_SUM of port `p` without flow `own`'s charge. -/
def State.resWithout (s : State) (own : Option Nat) (p : Nat) : Nat :=
  s.resSum p - (match own with | some h => s.charge h p | none => 0)

/-- PG_SUM of port `p` without flow `own`'s charge. -/
def State.pgWithout (s : State) (own : Option Nat) (p : Nat) : Nat :=
  match s.pgs.find? (fun e => e.2.backup == p) with
  | some e => s.resWithout own e.2.primary
  | none => 0

/-- Whether port `p` has room for `r` kb/s more (checks 6 and 7 of R263). -/
def State.portRoom (s : State) (own : Option Nat) (p r : Nat) : Bool :=
  decide (s.resWithout own p + s.pgWithout own p + r ≤ s.budget p)

/-- The lowest port of mask `m` for which `bad` holds. -/
def lowestPort (m : Nat) (bad : Nat → Bool) : Option Nat := (bitsSet 256 m).find? bad

/-- Whether check 7 fails for primary `p`. -/
def State.backupShort (s : State) (own : Option Nat) (p r : Nat) : Bool :=
  match s.pgs.find? (fun e => e.2.primary == p) with
  | some e => !s.portRoom own e.2.backup r
  | none => false

/-- The REASON of the first check of R263 that fails, for a request by function `v` on a flow of `owner`; `own` is the
flow's handle when the command is FLOW_MODIFY. -/
def State.admitFlow (s : State) (v owner : Nat) (own : Option Nat) (f : Flow) : Option Nat :=
  match (if v = 0 then none else lowestPort f.mask (fun p => !s.granted v p)) with
  | some p => some (0x01 + 256 * p)
  | none =>
    if v ≠ 0 ∧ own.isNone ∧ (s.fn v).grant.flows ≤ s.flowsOf v then some 0x02
    else if s.linkBad f own owner then some 0x03
    else if f.link != 0xFFFF then
      (match s.shadowFlow f.link with
       | some t => if t.rate < f.rate then some 0x04 else none
       | none => some 0x03)
    else
      match lowestPort f.mask (fun p => !s.portEnabled p) with
      | some p => some (0x05 + 256 * p)
      | none =>
        match lowestPort f.mask (fun p => !s.portRoom own p f.rate) with
        | some p => some (0x06 + 256 * p)
        | none => (lowestPort f.mask (fun p => s.backupShort own p f.rate)).map (fun p => 0x07 + 256 * p)

/-! ### FLOW_ADD, FLOW_MODIFY, FLOW_DELETE (R256–R260) -/

/-- The first free handle from `h` on, wrapping before 0xFFFF, among handles not in `used`. -/
def freeHandle (used : List Nat) : Nat → Nat → Nat
  | 0, h => h
  | k + 1, h => if used.contains h then freeHandle used k ((h + 1) % 65535) else h

/-- The slot that the hash gives a new key (R257; log entry 14). -/
def State.flowHandle (s : State) (f : Flow) : Nat :=
  let used := s.flowHandles
  freeHandle used (used.length + 1) (Config.flowSlot used.length f.key % 65535)

/-- A new flow enters the shadow bank: its counters and run-time state start anew (R267, R520). -/
def State.addFlow (s : State) (f : Flow) : State :=
  let gone : Nat → Bool := fun key => key / 512 == group 4 (f.handle / 8) && key % 512 / 16 == f.handle % 8
  { s with
    tables := { s.tables with flowsShd := s.tables.flowsShd ++ [f] },
    flowRt := Tab.erase s.flowRt f.handle,
    counters := { s.counters with
      val := s.counters.val.filter (fun e => !gone e.1), told := s.counters.told.filter (fun e => !gone e.1) } }

/-- FLOW_ADD (R256–R258, R261–R263). -/
def execFlowAdd (c : Cmd) (s : State) : Answer State :=
  .next (s.command 0x20 true c (fun s =>
    let v := s.issuer c
    let f := cmdFlow c v 0
    if !cmdFlowOk c then s.done c stBadArg
    else if s.tblBusy 13 then s.done c stBusy
    else if s.keyTaken f then s.done c stBadArg
    else
      match s.admitFlow v v none f with
      | some r => s.done c stAdmitDeny 0 0 r
      | none =>
        let used := s.flowHandles
        if 65535 ≤ used.length ∨ (2047 ≤ used.length ∧ !Config.hashRoom 13 used.length f.key) then s.done c stNoSpace
        else
          let h := s.flowHandle f
          (s.addFlow { f with handle := h }).done c stOk h))

/-- Whether function `v` may act on flow `h` (R260). -/
def State.mayFlow (s : State) (v h : Nat) : Bool :=
  v == 0 || !s.allFlows.any (fun f => f.handle == h && f.owner != v)

/-- Whether a flow is a merge-group member or a clean-cut candidate. -/
def State.inGroup (s : State) (h : Nat) : Bool := (s.memberOf h).isSome || (s.candOf false h).isSome

/-- FLOW_MODIFY (R257–R260, R263). -/
def execFlowModify (c : Cmd) (s : State) : Answer State :=
  .next (s.command 0x21 true c (fun s =>
    let v := s.issuer c
    let h := c.a0.toNat
    let f := cmdFlow c v h
    if !cmdFlowOk c then s.done c stBadArg
    else if !s.mayFlow v h then s.done c stAuth
    else if s.tblBusy 13 || (!f.rtp && s.inGroup h) then s.done c stBusy
    else
      match s.shadowFlow h with
      | none => s.done c stBadArg
      | some old =>
        if old.key != f.key then s.done c stBadArg
        else
          match s.admitFlow v old.owner (some h) f with
          | some r => s.done c stAdmitDeny 0 0 r
          | none =>
            let l := s.tables.flowsShd.map (fun x => if x.handle = h then { f with owner := old.owner } else x)
            ({ s with tables := { s.tables with flowsShd := l } }).done c stOk))

/-- FLOW_DELETE (R258–R260). -/
def execFlowDelete (c : Cmd) (s : State) : Answer State :=
  .next (s.command 0x22 true c (fun s =>
    let v := s.issuer c
    let h := c.a0.toNat
    if !s.mayFlow v h then s.done c stAuth
    else if s.tblBusy 13 || s.inGroup h || (h != 0xFFFF && s.allFlows.any (fun f => f.handle != h && f.link == h)) then s.done c stBusy
    else if (s.shadowFlow h).isNone then s.done c stBadArg
    else
      let l := s.tables.flowsShd.filter (fun x => x.handle != h)
      ({ s with tables := { s.tables with flowsShd := l } }).done c stOk))

/-! ### MERGE_SET (R260, R271, R272) -/

/-- The handles that a member list names, if it is well formed (R271). -/
def memberList (c : Cmd) : Option (List Nat) :=
  if !(c.dataLen == 0 || (c.indirect && (c.dataLen == 8 || c.dataLen == 12 || c.dataLen == 16))) then none
  else
    let l := (toWords (c.dataLen / 4) c.data).map (fun w => w.toNat)
    if l.any (fun x => 65536 ≤ x) || l.eraseDups != l then none else some l

/-- Merge group `g` has members now or scheduled. -/
def State.mergeLive (s : State) (g : Nat) : Bool :=
  !(s.merge g).members.isEmpty || (match (s.merge g).next with | some n => !n.1.isEmpty | none => false)

/-- Whether function `v` may act on merge group `g` and the flows named (R260). -/
def State.mayMerge (s : State) (v g : Nat) (l : List Nat) : Bool :=
  v == 0 || ((!s.mergeLive g || (s.merge g).owner == v) && l.all (fun h => s.mayFlow v h))

/-- Whether the flows named may be the members of group `g` for function `v` (R271, R279). -/
def State.membersOk (s : State) (v g : Nat) (l : List Nat) : Bool :=
  l.all (fun h =>
    (match s.shadowFlow h with | some f => f.rtp && f.owner == v | none => false) &&
    (match s.memberOf h with | some k => k == g | none => true) && (s.candOf false h).isNone)

/-- Groups with members that function `v` owns, group `g` apart. -/
def State.mergesOf (s : State) (v g : Nat) : Nat :=
  (s.merges.filter (fun e => e.1 != g && e.2.owner == v && s.mergeLive e.1)).length

/-- MERGE_SET (R271, R272). -/
def execMergeSet (c : Cmd) (s : State) : Answer State :=
  .next (s.command 0x23 true c (fun s =>
    let v := s.issuer c
    let g := c.target
    match memberList c with
    | none => s.done c stBadArg
    | some l =>
      if 8192 ≤ g then s.done c stBadArg
      else if !s.mayMerge v g l then s.done c stAuth
      else if !s.membersOk v g l then s.done c stBadArg
      else if (s.merge g).next.isSome then s.done c stBusy
      else if v != 0 && !l.isEmpty && !s.mergeLive g && decide ((s.fn v).grant.merges ≤ s.mergesOf v g) then
        s.done c stNoSpace
      else
        let owner := if s.mergeLive g then (s.merge g).owner else v
        (s.upMerge g (fun x => { x with owner := owner, next := some (l, s.openTick 0) })).done c stOk))

/-- The member lists due at frame count `n` take effect (R272): a group keeps its window with a shared member. -/
def State.applyMerges (s : State) (n : Nat) : State :=
  (Tab.keys s.merges).foldl (fun s g =>
    match (s.merge g).next with
    | some (l, at_) =>
      if n < at_ then s
      else if l.isEmpty then { s with merges := Tab.erase s.merges g }
      else if l.any (fun h => (s.merge g).members.contains h) then
        s.upMerge g (fun x => { x with members := l, next := none })
      else s.upMerge g (fun x => { members := l, owner := x.owner })
    | none => s) s

/-! ### CUT_GROUP_SET (R260, R278, R279) -/

/-- Cut group `g` has candidates now or scheduled. -/
def State.cutLive (s : State) (g : Nat) : Bool :=
  cutHasCands (s.cut g).words || (match (s.cut g).next with | some n => cutHasCands n.1 | none => false)

/-- The flows that candidate `k` of record `w` stands for. -/
def State.candFlows (s : State) (w : List Word) (k : Nat) : List Nat :=
  if candMerge w k then
    (match (s.merge (candId w k)).next with | some n => n.1 | none => (s.merge (candId w k)).members)
  else [candId w k]

/-- Whether candidate `k` of a record for cut group `g` obeys R278 and R279. -/
def State.candOk (s : State) (g : Nat) (w : List Word) (k : Nat) : Bool :=
  !candValid w k ||
  (let l := s.candFlows w k
   !l.isEmpty &&
   (candMerge w k || (s.memberOf (candId w k)).isNone) &&
   (match s.candOf (candMerge w k) (candId w k) with | some x => x == g | none => true) &&
   l.all (fun h => match s.shadowFlow h with | some f => f.rtp && f.af == bits (dw w 8) 16 1 | none => false) &&
   (List.range k).all (fun j => !(candValid w j && candMerge w j == candMerge w k && candId w j == candId w k)))

/-- Whether function `v` may act on cut group `g` and the candidates named (R260). -/
def State.mayCut (s : State) (v g : Nat) (w : List Word) : Bool :=
  v == 0 || ((!s.cutLive g || (s.cut g).owner == v) &&
    (List.range 4).all (fun k => !candValid w k || (s.candFlows w k).all (fun h => s.mayFlow v h)))

/-- Whether the record would remove or change the on-air candidate or the target of an armed cut (R279). -/
def State.cutPinned (s : State) (g : Nat) (w : List Word) : Bool :=
  let x := s.cut g
  let differs : Nat → Bool := fun k => decide (k < 4) && candWord w k != candWord x.words k
  (x.state != 0 && differs x.c) || ((x.state == 2 || x.state == 3) && differs x.n)

/-- Groups with candidates that function `v` owns, group `g` apart. -/
def State.cutsOf (s : State) (v g : Nat) : Nat :=
  (s.cuts.filter (fun e => e.1 != g && e.2.owner == v && s.cutLive e.1)).length

/-- CUT_GROUP_SET (R278, R279). -/
def execCutGroupSet (c : Cmd) (s : State) : Answer State :=
  .next (s.command 0x24 true c (fun s =>
    let v := s.issuer c
    let g := c.target
    let w := toWords 16 c.data
    if decide (4096 ≤ g) || !c.indirect || c.dataLen != 64 then s.done c stBadArg
    else if !s.mayCut v g w then s.done c stAuth
    else if !(List.range 4).all (fun k => s.candOk g w k) then s.done c stBadArg
    else if (s.cut g).next.isSome || s.cutPinned g w then s.done c stBusy
    else if v != 0 && cutHasCands w && !s.cutLive g && decide ((s.fn v).grant.cuts ≤ s.cutsOf v g) then
      s.done c stNoSpace
    else
      let owner := if s.cutLive g then (s.cut g).owner else v
      (s.upCut g (fun x => { x with owner := owner, next := some (w, s.openTick 0) })).done c stOk))

/-- The cut-group records due at frame count `n` take effect (R279). -/
def State.applyCuts (s : State) (n : Nat) : State :=
  (Tab.keys s.cuts).foldl (fun s g =>
    match (s.cut g).next with
    | some (w, at_) =>
      if n < at_ then s
      else if cutHasCands w then s.upCut g (fun x => { x with words := w, next := none })
      else { s with cuts := Tab.erase s.cuts g }
    | none => s) s

/-! ### CUT_SELECT (R281, R399, R476) -/

/-- The record that will hold for cut group `g` at frame count `n`. -/
def State.cutRecordAt (s : State) (g n : Nat) : List Word :=
  match (s.cut g).next with
  | some (w, at_) => if at_ ≤ n then w else (s.cut g).words
  | none => (s.cut g).words

/-- Whether function `v` may select on cut group `g` (R260). -/
def State.maySelect (s : State) (v g : Nat) : Bool := v == 0 || !s.cutLive g || (s.cut g).owner == v

/-- CUT_SELECT (R281, R399, R476). -/
def execCutSelect (c : Cmd) (s : State) : Answer State :=
  .next (s.command 0x25 true c (fun s =>
    let v := s.issuer c
    let g := c.target
    let k := c.a2.toNat
    let n := cmdFrameCount c
    let a := s.arming n c.lateOk (if s.paired then 20 else 0)
    let w := s.cutRecordAt g n
    if decide (4096 ≤ g) || decide (4 < k) || !cutHasCands w || (k != 4 && !candValid w k) || a == .bad then
      s.done c stBadArg
    else if !s.maySelect v g then s.done c stAuth
    else if (s.cut g).sel.isSome || s.getF GLB_PAIR_STAT.STATE == 3 then s.done c stBusy
    else
      match a with
      | .at t =>
        let s := s.upCut g (fun x => { x with sel := some (k, t) })
        let s := if s.getF GLB_PAIR_STAT.STATE == 2 then s.emit (.pairControl g k t) else s
        s.done c stOk 0 (t % 4294967296)
      | _ => s.done c stPast))

/-- The selections due at frame count `n` arm (R281, R284, R285). -/
def State.armCuts (s : State) (n : Nat) : State :=
  (Tab.keys s.cuts).foldl (fun s g =>
    match (s.cut g).sel with
    | some (k, at_) =>
      if n < at_ then s
      else (s.upCut g (fun x => { x with armFc := n })).cutArm g k (s.now / (nsU / 16))
    | none => s) s

end Sys2Proof.Machine
end

