-- ==== Sys2Proof/Machine/Epoch.lean ====
section
/-!
DEFINITION. What happens to tables and epochs at a commit cycle and afterwards (R31, R178–R184), the counter dump
(R114, R524–R526), and the commands EPOCH_DRAINED, PG_WTR_EXPIRY, DUMP_WRITE and TRACE_RING_WRITE.
-/

namespace Sys2Proof.Machine

/-! ### Commits (R31 order 2, R178, R184, R267) -/

/-- The banks of table `t` swap: the shadow bank then holds the previous active content (R107). -/
def State.swapTable (s : State) (t : Nat) : State :=
  if t = 13 then
    { s with tables := { s.tables with
        flowsAct := s.tables.flowsShd, flowsShd := s.tables.flowsAct,
        flowsRetired := s.tables.flowsRetired ++ [(s.epochs.serial, s.tables.flowsAct)] } }
  else
    let a := s.active t
    { s with tables := { s.tables with
        act := Tab.set s.tables.act t (s.shadow t), shd := Tab.set s.tables.shd t a,
        repRetired := if t = 12 then s.tables.repRetired ++ [(s.epochs.serial, a)] else s.tables.repRetired } }

/-- Every table commit due at frame count `n` takes effect: the epoch goes up by one if a table swaps (R178). -/
def State.commitTables (s : State) (n : Nat) : State :=
  let due := s.epochs.commits.filter (fun c => decide (c.1 ≤ n))
  let m := due.foldl (fun m c => m ||| c.2) 0
  if m = 0 then s
  else
    let s := { s with epochs := { s.epochs with commits := s.epochs.commits.filter (fun c => decide (n < c.1)) } }
    let s := (maskTables m).foldl (fun s t => s.swapTable t) s
    let s := { s with epochs := { s.epochs with
        serial := s.epochs.serial + 1, retiredBy := Tab.set s.epochs.retiredBy s.epochs.serial m } }
    let s := if bit m 13 then s.clipBuckets.startBuckets else s
    s.event 0 0x0001 m (s.epochs.serial % 65536) (n % 4294967296)

/-- The serial of the oldest live epoch (R179). -/
def State.oldestEpoch (s : State) : Nat :=
  s.epochs.count.foldl (fun m e => if e.2 != 0 && decide (e.1 < m) then e.1 else m) s.epochs.serial

/-- The retired epoch whose drain is reported next, once no frame carries it or an earlier one (R181). -/
def State.drainedEpoch (s : State) : Option (Nat × Nat) :=
  match s.epochs.retiredBy with
  | (e, m) :: _ => if s.oldestEpoch ≤ e then none else some (e, m)
  | [] => none

/-- The drain of the oldest retired epoch is reported, and the banks that served it are free (R181, R184, R257). -/
def State.drainEpoch (s : State) : State :=
  match s.drainedEpoch with
  | none => s
  | some (e, m) =>
    let s := { s with
      epochs := { s.epochs with retiredBy := Tab.erase s.epochs.retiredBy e, oldest := e + 1 },
      tables := { s.tables with
        repRetired := s.tables.repRetired.filter (fun r => decide (e < r.1)),
        flowsRetired := s.tables.flowsRetired.filter (fun r => decide (e < r.1)) } }
    s.event 0 0x0002 m (e % 65536) s.nowNsec

/-- EPOCH_DRAINED (R181). -/
def execEpochDrained (s : State) : Answer State := .next s.drainEpoch

/-- PG_WTR_EXPIRY (R246): the wait to restore of a group on its backup has ended. -/
def execPgWtrExpiry (group : Nat) (s : State) : Answer State :=
  .next (match Tab.get? s.pgs group with
    | some x =>
      if x.onBackup && x.forced.isNone && s.isF GLB_PG_CFG.REVERT && s.portState x.primary == 5 then s.pgMove group false
      else s
    | none => s)

/-! ### Counter dumps (R31 order 1, R114, R524–R526) -/

/-- The lowest-numbered enabled ring of a type. -/
def State.lowestRing (s : State) (t : Nat) : Option Nat := (Tab.keys s.rings).find? (fun n => s.ringIs n t)

/-- The instances of kind `k` that a dump includes (R520, R525). -/
def State.dumpInstances (s : State) (k : Nat) : List Nat :=
  match k with
  | 0 => List.range 256
  | 1 => List.range 256
  | 2 => List.range 258
  | 3 => List.range 258
  | 4 => (List.range 8192).filter (fun b => s.tables.flowsAct.any (fun f => f.handle / 8 == b))
  | 5 => (List.range 2048).filter (fun b =>
      (s.active (4 + b / 256)).any (fun r => bit (dw r.words 12) 0 && (aclSlots r.words).any (fun i => i / 64 == b % 256)))
  | 6 => List.range 256
  | _ => [0]

/-- The bytes of a dump of the kinds in `mask` at frame count `fc` (R524). -/
def State.dumpBytes (s : State) (mask fc : Nat) : Bytes :=
  let body := (bitsSet 8 mask).flatMap (fun k =>
    (s.dumpInstances k).flatMap (fun i => groupRecord (group k i) fc (s.groupSlots 0 (group k i))))
  body ++ toLE 2 0xFFFF ++ toLE 2 0 ++ toLE 4 fc ++ toLE 4 (body.length + 16) ++ toLE 4 0

/-- Order 1 of R31: the counters are latched for the lowest-numbered enabled DUMP ring, or DUMP_MISSED is written where
it has no descriptor or the last dump is not yet written (R114, R526).  A descriptor that the host has published counts once
it has been fetched, which the spec does not settle (log entry 62). -/
def State.latchDump (s : State) (fc : Nat) : State :=
  match s.lowestRing 4 with
  | none => s
  | some n =>
    if s.counters.dump.isSome || (s.ring n).fetched.isEmpty then
      s.event 1 0x0011 n fc 0 (fun f => s.ringFn n == f)
    else
      { s with counters := { s.counters with dump := some (fc, s.dumpBytes (s.getF HMK_DUMP_CFG.KIND_MASK) fc) } }

/-- The next descriptor of the DUMP ring takes its part of the dump (R525, R526). -/
def State.writeDump (s : State) : State :=
  match s.lowestRing 4, s.counters.dump with
  | some n, some (fc, b) =>
    let s := s.settleBufs n ((s.ring n).fetched.length + 1)
    match (s.ring n).fetched with
    | [] => s
    | d :: rest =>
      let left := b.drop (bufLen d)
      if !left.isEmpty && rest.isEmpty && (s.ring n).prod != (s.ring n).fetch then s
      else
        let trunc := !left.isEmpty && rest.isEmpty
        let s := s.upRing n (fun r => { r with fetched := rest })
        let s := (s.dmaWrite (s.ringFn n) (descAddr d)).emit (.bufferWrite n d.idx (b.take (bufLen d)))
        let s := { s with counters := { s.counters with dump := if left.isEmpty || trunc then none else some (fc, left) } }
        let s := s.complete n (dw d.words 6) (b.take (bufLen d)).length fc ((if trunc then stTrunc else stOk) * 16777216)
        if trunc then s.orF HMK_HIST.DUMP_TRUNC 1 else s
  | _, _ => s

/-- DUMP_WRITE (R524–R526). -/
def execDumpWrite (s : State) : Answer State := .next s.writeDump

/-! ### Trace outputs (R536) -/

/-- The bytes of a trace record (R534): DW0, DW1 and the doublewords after them, filled to whole 32-byte units. -/
def recBytes (r : TraceRec) : Bytes :=
  padTo (32 * recUnits r)
    (toLE 4 (r.typ + (recUnits r - 1) * 16 + r.src * 256 + r.seq * 16777216) ++ toLE 4 (r.ns + r.sec * 1073741824) ++
      wordsLE r.dws)

/-- The leading records of a list that fit in `n` bytes. -/
def recsThatFit : Nat → List TraceRec → List TraceRec
  | _, [] => []
  | n, r :: t => if 32 * recUnits r ≤ n then r :: recsThatFit (n - 32 * recUnits r) t else []

/-- OUT as it acts: 3 as 0. -/
def State.traceOut (s : State) : Nat := if s.getF HMK_TRACE_CFG.OUT = 3 then 0 else s.getF HMK_TRACE_CFG.OUT

/-- `n` more records at the front of the FIFO have been taken by the ring or by the lanes (R536): what every selected
output has taken leaves the FIFO. -/
def State.tookRecs (s : State) (lanes : Bool) (n : Nat) : State :=
  let h := s.hmk
  let r := if lanes then h.toRing else h.toRing + n
  let l := if lanes then h.toLanes + n else h.toLanes
  let k := if s.traceOut = 2 then min r l else if lanes then l else r
  { s with hmk := { h with fifo := h.fifo.drop k, toRing := r - k, toLanes := l - k } }

/-- The records that the ring or the lanes have not taken yet. -/
def State.untaken (s : State) (lanes : Bool) : List TraceRec :=
  s.hmk.fifo.drop (if lanes then s.hmk.toLanes else s.hmk.toRing)

/-- The TRACE ring's next buffer takes the records that fit (R536). -/
def State.writeTrace (s : State) : State :=
  let out := s.traceOut
  match s.lowestRing 5 with
  | none => s
  | some n =>
    let s := s.settleBufs n ((s.ring n).fetched.length + 1)
    match (s.ring n).fetched with
    | [] => s
    | d :: rest =>
      let l := recsThatFit (bufLen d) (s.untaken false)
      if !(out == 0 || out == 2) || s.hmkFenced || l.isEmpty then s
      else
        let b := l.flatMap recBytes
        let s := (s.upRing n (fun r => { r with fetched := rest })).tookRecs false l.length
        let s := (s.dmaWrite (s.ringFn n) (descAddr d)).emit (.bufferWrite n d.idx b)
        s.complete n (dw d.words 6) b.length (s.hmk.lastSync % 4294967296) 0

/-- TRACE_RING_WRITE (R536). -/
def execTraceRingWrite (s : State) : Answer State := .next s.writeTrace

end Sys2Proof.Machine
end

