-- ==== Sys2Proof/Machine/Rivet.lean ====
section
/-!
DEFINITION. What the device pair does at a frame tick and when its state changes (R467–R488): PAIR_STATE, the snapshot,
the standby's proof, joining at a commit cycle, and the switch point.
-/

namespace Sys2Proof.Machine

/-! ### Reactions and state -/

/-- Whether Quench holds a reaction on an output of R434. -/
def State.holdsReaction (s : State) : Bool :=
  s.quenchOn ||
  s.quench.faults.any (fun e => e.2.latched &&
    ((decide (2 ≤ e.2.applied) && (match faultTarget e.1 with | .domain _ => false | _ => true)) ||
     (decide (0x10 ≤ e.1 ∧ e.1 < 0x90) && e.1 % 16 == 0)))

/-- The bits of QCH_STATE that show the outputs of R434: TICK, CLKOUT, PTP, guarded ports, SAFE_N. -/
def State.safetyBits (s : State) : Nat :=
  flag ((List.range 8).all (fun n => s.tickQuenched n)) + 2 * flag ((List.range 8).all (fun n => s.clkQuenched n)) +
  4 * flag (s.quenchOn || !s.armed) + 8 * flag s.anyBlocked + 16 * flag s.quenchOn

/-- The pair states of R467. -/
def pairSolo : Nat := 0
def pairJoining : Nat := 1
def pairActive : Nat := 2
def pairStandby : Nat := 3

def State.pairState (s : State) : Nat := s.getF GLB_PAIR_STAT.STATE
def State.proven (s : State) : Bool := s.isF GLB_PAIR_STAT.PROVEN

/-- PAIR_STATE with a reason (R113, R481). -/
def State.pairEvent (s : State) (reason : Nat) : State :=
  s.event 7 0x0070 0 (s.pairState + 8 * flag s.proven) reason

/-- PAIR_STATE where the spec names no reason: the reason is free (log entry 5). -/
def State.pairNote (s : State) : State :=
  let d := s.draw
  d.2.pairEvent (d.1 % 4294967296)

/-- The device enters a pair state. -/
def State.setPair (s : State) (st : Nat) : State := s.setF GLB_PAIR_STAT.STATE st

/-- PROVEN set or cleared; the return hold-off of R486 counts from its setting. -/
def State.setProven (s : State) (b : Bool) : State :=
  let s := s.setF GLB_PAIR_STAT.PROVEN (flag b)
  { s with pair := { s.pair with provenAt := s.now } }

/-- PAIR_ACT as it is driven (R469). -/
def State.pairAct (s : State) : Bool := s.pairState == pairActive && !s.holdsReaction

/-- SHADOW_LAG_NS as it acts. -/
def State.shadowLag (s : State) : Nat := max 1 (s.getF GLB_PAIR_CFG.SHADOW_LAG_NS)

/-- The pair offset of the last window in ps (R474). -/
def State.pairOffset (s : State) : Int := signed 32 (s.getF GLB_PAIR_OFFSET.OFFSET)

/-- Whether the standby drives shadow edges (R471). -/
def State.shadowing (s : State) : Bool :=
  s.pairState == pairStandby && s.isF GLB_PAIR_CFG.SHADOW_EN && s.proven &&
  decide (2 * (s.pairOffset.natAbs : Int) ≤ s.shadowLag * 1000)

/-! ### The snapshot (R475) -/

/-- EN, rate, offset and count of generator `g`. -/
def State.snapGen (s : State) (g : Nat) : SnapGen :=
  { fc := (s.gen g).fc, en := s.isF MER_GEN_CFG.EN g, num := (s.gen g).num, den := (s.gen g).den, offset := (s.gen g).off }

/-- The snapshot of the tick just passed; DPLL0's increment and offset are those of R33 (R475). -/
def State.snapshotNow (s : State) : Snapshot :=
  { gens := (List.range 16).map (fun g => s.snapGen g),
    epoch := s.epochs.serial % 65536, oldest := s.oldestEpoch % 65536,
    cuts := (s.cuts.filter (fun e => e.2.state != 0)).map (fun e =>
      { group := e.1, state := e.2.state, onAir := e.2.c, target := e.2.n, armFc := e.2.armFc }),
    dpll0 := s.getF TPL_DPLL_STAT.STATE 0, inc := s.time.inc, offset := s.time.offset,
    notCurrent := !s.window.lastCurrent,
    timeValid := s.isF TPL_TB_STAT.TIME_VALID, discCnt := s.getF TPL_TB_STAT.DISC_CNT,
    pendId := s.getF TPL_TB_STAT.PEND_ID, safety := s.safetyBits }

/-- Order 4 of R31: the snapshot is latched, and the active sends it. -/
def State.latchSnapshot (s : State) : State :=
  let x := s.snapshotNow
  let s := if s.pairState = pairActive then s.emit (.snapshot x) else s
  { s with pair := { s.pair with own := some x } }

/-! ### The proof (R477, R478) -/

/-- Whether any enabled generator's count differs. -/
def countsDiffer (a b : Snapshot) : Bool :=
  (List.range 16).any (fun g =>
    let x := a.gens.getD g { fc := 0, en := false, num := 0, den := 0, offset := 0 }
    let y := b.gens.getD g { fc := 0, en := false, num := 0, den := 0, offset := 0 }
    (x.en || y.en) && x.fc != y.fc)

/-- A cut group's state and target in a snapshot: OFF where it is not listed. -/
def snapCut (x : Snapshot) (g : Nat) : Nat × Nat :=
  match x.cuts.find? (fun c => c.group == g) with
  | some c => (c.state, c.target)
  | none => (0, 4)

/-- Whether the state or target of any cut group differs. -/
def cutsDiffer (a b : Snapshot) : Bool :=
  ((a.cuts ++ b.cuts).map (fun c => c.group)).any (fun g => snapCut a g != snapCut b g)

/-- Whether two increments differ by more than `tenths` tenths of a ppb of the nominal increment. -/
def incsDiffer (a b tenths : Nat) : Bool :=
  decide (tenths * 17179869184 < ((a : Int) - b).natAbs * 10000000000)

/-- PROVEN falls after PROOF_N failing ticks, and rises after as many passing ones (R478). -/
def State.proofTick (s : State) (fails : Bool) : State :=
  let n := max 1 (s.getF GLB_PAIR_PROOF.PROOF_N)
  let p := s.pair
  let s := { s with pair := { p with
      failRun := if fails then p.failRun + 1 else 0, passRun := if fails then 0 else p.passRun + 1 } }
  if fails && s.pair.failRun == n then
    let was := s.proven
    let s := ((if was then s.setF GLB_PAIR_HIST.PROOF_FAIL 1 else s).setProven false).raiseOnce 0x1CA
    if was then s.pairNote else s
  else if !fails && decide (n ≤ s.pair.passRun) && !s.proven then (s.setProven true).pairNote
  else s

/-- The standby compares the active's snapshot `x` with its own of the same tick, `y` (R477, R478). -/
def State.prove (s : State) (x y : Snapshot) : State :=
  let count := countsDiffer x y
  let epoch := x.epoch != y.epoch
  let cut := cutsDiffer x y
  let s := if count || epoch || cut then
      let d := s.draw
      (d.2.setF GLB_PAIR_HIST.DIVERGE 1).raiseOnce 0x1CB (d.1 % 4294967296)
    else s
  if x.notCurrent || y.notCurrent then s
  else
    s.proofTick (decide ((max 1 (s.getF GLB_PAIR_PROOF.PROOF_PS) : Nat) < s.pairOffset.natAbs) ||
      incsDiffer x.inc y.inc (max 1 (s.getF GLB_PAIR_PROOF.PROOF_PPB)) ||
      (y.dpll0 != 2 && x.dpll0 == 2) || count || epoch || cut || s.holdsReaction)

/-- A standby's comparison at its tick (R477): nothing without the active's snapshot. -/
def State.proveTick (s : State) : State :=
  match s.pair.snap, s.pair.own with
  | some x, some y =>
    let s := { s with pair := { s.pair with snap := none } }
    s.prove x y
  | _, _ => s

/-! ### Joining at a commit cycle (R488) -/

/-- Whether the peer's generator settings differ from this device's (R488). -/
def State.configDiffers (s : State) (x : Snapshot) : Bool :=
  (List.range 16).any (fun g =>
    let a := s.snapGen g
    match x.gens[g]? with
    | some b => a.en != b.en || a.num != b.num || a.den != b.den || a.offset != b.offset
    | none => true)

/-- Whether epoch value `e` names a live epoch of this device other than the current one. -/
def State.oldLive (s : State) (e : Nat) : Bool :=
  s.epochs.count.any (fun c => c.2 != 0 && decide (c.1 < s.epochs.serial) && c.1 % 65536 == e)

/-- The device epoch becomes `e`: a later serial with that value; the epoch it leaves drains like a retired one. -/
def State.setEpoch (s : State) (e : Nat) : State :=
  let d := (e + 65536 - s.epochs.serial % 65536) % 65536
  if d = 0 then s
  else { s with epochs := { s.epochs with
      serial := s.epochs.serial + d, retiredBy := Tab.set s.epochs.retiredBy s.epochs.serial 0 } }

/-- A join is refused (R488): the device stays JOINING, reason CFG_MISMATCH. -/
def State.refuseJoin (s : State) : State := (s.setF GLB_PAIR_HIST.JOIN_REFUSED 1).pairEvent 9

/-- A joining device takes over the frame counts and the epoch of a received snapshot and becomes STANDBY, unless the
epoch names one of its own that is still live (R488). -/
def State.joinTick (s : State) : State :=
  match s.pair.snap with
  | none => s
  | some x =>
    if s.configDiffers x then { s with pair := { s.pair with snap := none } }.refuseJoin
    else if s.oldLive x.epoch then s
    else
      let s := (List.range 16).foldl (fun s g =>
        match x.gens[g]? with
        | some b => s.upGen g (fun y => { y with
            fc := (b.fc + s.pair.ticksSince.getD g 0) % 281474976710656, started := y.started || b.en })
        | none => s) s
      let s := (s.setEpoch x.epoch).setPair pairStandby
      let s := s.setProven false
      ({ s with pair := { s.pair with snap := none, own := none, failRun := 0, passRun := 0 } }).pairNote

/-! ### The switch point (R483–R486) -/

/-- What firmware owes a waiting PAIR_SWITCH. -/
def State.endPairSwitch (s : State) (status : Nat) : State :=
  match s.fw.pairSwitch with
  | some c => ({ s with fw := { s.fw with pairSwitch := none } }).done c status
  | none => s

/-- The scheduled switch takes place at frame count `n` (R484): the active becomes STANDBY, or the standby ACTIVE. -/
def State.switchTick (s : State) (n : Nat) : State :=
  match s.pair.switch with
  | none => s
  | some (at_, reason) =>
    if n < at_ then s
    else
      let s := { s with pair := { s.pair with switch := none } }
      let s := s.setF GLB_PAIR_HIST.HANDOVER 1
      let s := if s.pairState = pairActive then
          let s := (s.setPair pairStandby).setProven false
          ({ s with pair := { s.pair with failRun := 0, passRun := 0, snap := none, own := none } }).pairEvent reason
        else (s.setPair pairActive).pairEvent reason
      s.endPairSwitch stOk

/-- The pair's part of the commit cycle of frame count `n`, after order 4 (R475–R488). -/
def State.pairTick (s : State) (n : Nat) : State :=
  let s := if s.pairState = pairStandby then s.proveTick else if s.pairState = pairJoining then s.joinTick else s
  (s.switchTick n).latchSnapshot

end Sys2Proof.Machine
end

