-- ==== Sys2Proof/Machine/Meridian.lean ====
section
/-!
DEFINITION. Meridian (R28–R35, R390–R411): generators, TICK pins, the tick budget and heartbeat, and the commit cycle.
-/

namespace Sys2Proof.Machine

/-! ### TICK pins (R403–R407, R471) -/

/-- MER_PIN_CFG of pin `n` as it stands. -/
def State.pinCfgNow (s : State) (n : Nat) : PinCfg :=
  { en := s.isF MER_PIN_CFG.EN n, gen := s.getF MER_PIN_CFG.GEN n, msg := s.isF MER_PIN_CFG.MSG_EN n,
    edgeW := clampN 1 12 (s.getF MER_PIN_CFG.EDGE_W n), q := s.getF MER_PIN_CFG.Q n }

/-- Pins whose new configuration generator `g`'s tick edge takes over (R403). -/
def State.takePins (s : State) (g : Nat) : State :=
  (List.range 8).foldl (fun s n =>
    let old := s.pin n
    let new := s.pinCfgNow n
    if old != new && (new.gen == g || old.gen == g) then
      let s := if new.en && new.msg then s else s.setF MER_PIN_STAT.MSG_SUPPRESSED 0 n
      { s with pinCfg := Tab.set s.pinCfg n new }
    else s) s

/-- CRC-8 with polynomial 0x07 (R406), one bit. -/
def crc8Bit (c : Nat) (b : Bool) : Nat :=
  let top := bit c 7 != b
  let c := c * 2 % 256
  if top then c ^^^ 7 else c

/-- The CRC over bits [95:8] in transmission order (R406). -/
def tickCrc (v : Nat) : Nat := (List.range 88).foldl (fun c i => crc8Bit c (bit v (87 - i))) 0

/-- The 96-bit message of a tick (R406). -/
def tickMessage (g fc ns : Nat) : BitVec 96 :=
  let v := g * 2 ^ 84 + fc % 64 * 2 ^ 78 + ns / 1000000000 % 2 ^ 48 * 2 ^ 30 + ns % 1000000000
  BitVec.ofNat 96 (v * 256 + tickCrc v)

/-- The half cells of a message (R406), bit 95 first: the complement of each bit, then the bit. -/
def manchester (m : BitVec 96) : List Bool :=
  (List.range 96).flatMap (fun i => [!m.getLsbD (95 - i), m.getLsbD (95 - i)])

/-- A time rounded to the nearest point of the 62.5 ps grid (R404). -/
def nearestGrid (t : Int) : Nat := (roundDiv t (nsU / 16)).toNat

/-- What TICKn does at a tick of its generator at instant `t` (R403, R404, R407, R471). -/
def State.drivePin (s : State) (g n : Nat) (t : Int) : State :=
  let c := s.pin n
  if !c.en || c.gen != g then s
  else
    let fits := (s.grid g).fits c
    let s := s.setF MER_PIN_STAT.MSG_SUPPRESSED (flag (c.msg && !fits)) n
    let released := match Tab.get? s.pinRel n with
      | some r => decide (r + (c.quiet * 1000 : Nat) * nsU ≤ t)
      | none => true
    if s.tickQuenched n || !released then s
    else if s.pairState = pairStandby then
      (if s.shadowing then s.emit (.tick n g true (nearestGrid (t + (s.shadowLag : Int) * nsU)) none (40 * c.edgeW) []) else s)
    else
      let m := if c.msg && fits then some (tickMessage g (s.gen g).fc (t / nsU).toNat) else none
      let s := s.emit (.tick n g false (nearestGrid t) m (40 * c.edgeW) (match m with | some x => manchester x | none => []))
      if m.isSome then { s with pinMsg := Tab.set s.pinMsg n s.time.tclk } else s

/-! ### The window (R33–R35, R397, R398) -/

/-- The end of the open window's budget (R397): BUDGET_PCT percent of its length. -/
def State.budgetEndAt (s : State) : Int := s.window.start + (s.nextTick 0 - s.window.start) * s.window.pct / 100

/-- Whether the open window is judged (R35, R398, R430). -/
def State.judged (s : State) : Bool :=
  s.window.opened && s.isF MER_BUDGET_STAT.HB_ARMED && !s.window.excused && !s.window.done

/-- The budget of the open window ends (R398). -/
def State.endBudget (s : State) : State :=
  if !s.window.opened || s.window.budgetDone then s
  else
    let j := s.judged
    let s := { s with window := { s.window with budgetDone := true } }
    if j then
      let s := (s.setF MER_BUDGET_STAT.OVERRUN 1).addF MER_BUDGET_STAT.OVERRUN_CNT 1
      (s.event 5 0x0050 0 (s.frameCount % 4294967296) 0).raiseOnce 0x110
    else s

/-- The window that closes at this tick edge is judged missed (R34, R35, R398). -/
def State.judgeMissed (s : State) : State :=
  if s.judged && decide (s.getF MER_BUDGET_STAT.MISS_RUN < 3) then
    let s := s.addF MER_BUDGET_STAT.MISS_RUN 1
    if s.getF MER_BUDGET_STAT.MISS_RUN = 3 then (s.raise 0x141).abortTraining else s
  else s

/-- The mean pair offset of the window that closes (R474), to the nearest ps (log entry 32). -/
def State.closePairWindow (s : State) : State :=
  if s.pair.samples = 0 then s
  else
    let s := s.setF GLB_PAIR_OFFSET.OFFSET (unsign 32 (roundDiv s.pair.sum (4 * s.pair.samples)))
    { s with pair := { s.pair with sum := 0, samples := 0 } }

/-- Records that take effect from the next tick window: TIME_CFG (R104) and PTP_PORT_CFG (R105). -/
def State.windowRecords (s : State) : State :=
  let s := match s.time.cfgNext with
    | some w =>
      let s := { s with time := { s.time with cfg := w, cfgNext := none } }
      let s := s.setF TPL_TB_POL.STEP_THRESH_NS (bits (dw w 2) 0 10)
      let s := (s.setF TPL_TB_POL.BACK_POL (bits (dw w 2) 10 2)).setF TPL_TB_POL.FWD_POL (bits (dw w 2) 12 1)
      s.setF TPL_TB_SLEW.SLEW_PPB (bits (dw w 3) 0 14)
    | none => s
  (Tab.keys s.ports).foldl (fun s p =>
    match (s.port p).ptpNext with
    | some r => s.upPort p (fun x => { x with ptp := r, ptpNext := none })
    | none => s) s

/-- The tick edge of generator 0 opens the next window (R33–R35, R411); it begins after firmware's first done mark once
there is one (R128). -/
def State.openWindow (s : State) : State :=
  let excused := match s.fw.activate with
    | some a => a.fenced
    | none => false
  let pct := clampN 10 100 (s.getF MER_BUDGET.BUDGET_PCT)
  let w : Window := { opened := true, start := s.now, pct, commitDone := false, excused, lastCurrent := s.window.done }
  let s := { s with window := w, fw := { s.fw with windowed := s.fw.windowed || s.fw.phase == 3 } }
  s.closePairWindow.windowRecords

/-! ### Ticks (R391–R396, R408, R409) -/

/-- A staged rate takes effect at the tick edge (R396): the next tick lies half a new period and S_min after it. -/
def State.changeRate (s : State) (g : Nat) : State :=
  match (s.gen g).pend with
  | none => s
  | some (n, d, o) =>
    let x : Grid := { num := n, den := d, off := o }
    let s := s.upGen g (fun y => { y with num := n, den := d, off := o, pend := none })
    let s := s.upGen g (fun y => { y with k := x.from_ (s.now + max (s.sMin g x) x.half) })
    let s := s.setF MER_GEN_STAT.RATE_PENDING 0 g
    if g = 0 then s.clipBuckets else s

/-- Generator `g` emits its next tick (R394, R395). -/
def State.emitTick (s : State) (g : Nat) : State :=
  let k := s.nextIndex g
  let t := s.nextTick g
  let s := if g = 0 then s.endBudget.judgeMissed else s
  let s := s.addF MER_GEN_STAT.SKIP_CNT (k - (s.gen g).k).toNat g
  let s := s.upGen g (fun y => { y with
    fc := if y.started then (y.fc + 1) % 281474976710656 else 0, started := true, k := k + 1, last := some t })
  let s := s.setF MER_GEN_STAT.SUPPRESSING 0 g
  let since := (List.range 16).map (fun i => s.pair.ticksSince.getD i 0 + flag (i == g))
  let s := if s.pair.snap.isSome then { s with pair := { s.pair with ticksSince := since } } else s
  let s := s.takePins g
  let s := (List.range 8).foldl (fun s n => s.drivePin g n t) s
  let s := s.changeRate g
  if g = 0 then s.openWindow else s

/-- TICK_EDGE (R29, R394, R395): the first TCLK edge at or after the generator's next tick. -/
def execTickEdge (gen : Nat) (s : State) : Answer State :=
  .next (if s.time.running && s.isF MER_GEN_CFG.EN gen then
      let s := s.advanceTo (s.nextTick gen) 64
      if s.now < s.nextTick gen then s else s.emitTick gen
    else s)

/-- What a step of `d` does to Meridian (R408–R410): `old` is the serving time before it.  A window's length, and with it its
budget, is the time that passes in it, so its start moves with the serving time (R397). -/
def State.stepGenerators (s : State) (old d : Int) : State :=
  let s := { s with window := { s.window with start := s.window.start + d } }
  (List.range 16).foldl (fun s g =>
    if !s.isF MER_GEN_CFG.EN g then s
    else
      let x := s.grid g
      if 0 < d then
        let k := max (s.gen g).k (x.after (old + d))
        let s := s.addF MER_GEN_STAT.SKIP_CNT (k - (s.gen g).k).toNat g
        (s.upGen g (fun y => { y with k := k })).setF MER_GEN_HIST.STEP_FWD 1 g
      else if d < 0 then
        let base := match (s.gen g).last with
          | some l => max l (old + d)
          | none => old + d
        let wait := match (s.gen g).last with | some l => decide (old + d ≤ l) | none => false
        let s := s.upGen g (fun y => { y with k := min y.k (x.after base) })
        (s.setF MER_GEN_STAT.SUPPRESSING (flag wait) g).setF MER_GEN_HIST.STEP_BACK 1 g
      else s) s

/-! ### Budget and done mark (R397, R398, R431) -/

/-- BUDGET_END (R397, R398). -/
def execBudgetEnd (s : State) : Answer State :=
  .next (if s.time.running && s.window.opened && !s.window.budgetDone then
      let s := s.advanceTo s.budgetEndAt 64
      if s.now < s.budgetEndAt then s else s.endBudget
    else s)

/-- MER_DONE (R397, R398): firmware's done mark. -/
def execMerDone (mark : Nat) (s : State) : Answer State :=
  .next (if !s.fwRuns then s
    else if s.window.opened && mark % 65536 == s.frameCount % 65536 then
      let s := { s with window := { s.window with done := true } }
      ((s.setF MER_BUDGET_STAT.MISS_RUN 0).clearFault 0x141).firstDone
    else s.addF MER_BUDGET_STAT.DONE_BAD 1)

/-! ### Rates and enables (R393, R394, R396) -/

/-- Whether a rate is one that generator `g` takes (R393). -/
def rateOk (g num den : Nat) : Bool :=
  num != 0 && den != 0 && decide (num ≤ 1000000 * den) &&
  (g != 0 || (decide (24000 * den ≤ 1001 * num) && decide (num ≤ 300 * den)))

/-- RATE_GO (R393, R396). -/
def execRateGo (path : Path) (gen : Nat) (s : State) : Answer State :=
  .next (if !s.pfMay path then s
    else
      let n := s.getF MER_GEN_RATE.NUM gen
      let d := s.getF MER_GEN_DEN.DEN gen
      let o := signed 32 (s.getF MER_GEN_OFFSET.OFFSET gen)
      if !rateOk gen n d then s.setF MER_GEN_HIST.RATE_ERR 1 gen
      else if s.isF MER_GEN_CFG.EN gen then
        (s.upGen gen (fun y => { y with pend := some (n, d, o) })).setF MER_GEN_STAT.RATE_PENDING 1 gen
      else s.upGen gen (fun y => { y with num := n, den := d, off := o }))

/-- GENERATOR_ENABLE (R394, R396): EN of a generator other than 0 set. -/
def execGeneratorEnable (path : Path) (gen : Nat) (s : State) : Answer State :=
  .next (if !s.pfMay path || gen == 0 || s.isF MER_GEN_CFG.EN gen then s
    else
      let s := s.setF MER_GEN_CFG.EN 1 gen
      let x := s.grid gen
      s.upGen gen (fun y => { y with
        k := x.from_ (s.now + s.sMin gen x), last := none, fc := 0, started := false }))

/-! ### The commit cycle (R30–R32) -/

/-- The commit cycle of frame count `n`: SYNC record (R533), then R31 in its order; scheduled merge and cut records take
effect before selections arm. -/
def State.commitCycle (s : State) (n : Nat) : State :=
  let s := s.trace 0 0 []
  let s := s.latchDump (n % 4294967296)
  let s := s.commitTables n
  let s := ((s.applyMerges n).applyCuts n).armCuts n
  s.pairTick n

/-- COMMIT_CYCLE (R30, R31): once for each tick of generator 0. -/
def execCommitCycle (s : State) : Answer State :=
  .next (if s.window.commitDone || !s.cclk then s
    else ({ s with window := { s.window with commitDone := true } }).commitCycle s.frameCount)

end Sys2Proof.Machine
end

