-- ==== Sys2Proof/Machine/Pair.lean ====
section
/-!
DEFINITION. The device pair's link and commands (R467–R488): heartbeats, snapshots, forwarded selections, takeover,
return, joining, PAIR_CFG and PAIR_SWITCH.
-/

namespace Sys2Proof.Machine

/-! ### Heartbeats (R473, R474) -/

/-- The heartbeat that leaves now, `k` sixty-fourths of a TCLK cycle after its edge; T2 and T2_SEQ are free before the
first heartbeat has come in (log entry 5). -/
def State.heartbeatNow (s : State) (k : Nat) : Heartbeat × State :=
  let t1 := gridOf (s.rawStamp k)
  let h (t2 t2Seq : Nat) : Heartbeat := {
    seq := s.pair.hbSeq, state := s.pairState, proven := s.proven, primary := s.isF GLB_PAIR_CFG.PRIMARY,
    activeOk := s.pairAct, t1 := t1, t2 := t2, t2Seq := t2Seq, fc0 := s.frameCount }
  let s' := { s with pair := { s.pair with
    hbSeq := (s.pair.hbSeq + 1) % 65536, tx := Tab.set s.pair.tx s.pair.hbSeq t1 } }
  match s.pair.rx with
  | some r => (h r.2 r.1.seq, s')
  | none =>
    let d := s'.draw
    let e := d.2.draw
    (h d.1 (e.1 % 65536), e.2)

/-- A heartbeat on both lanes (log entry 33: the model has no lock state of a Rivet lane). -/
def State.sendHeartbeat (s : State) (k : Nat) : State :=
  let h := s.heartbeatNow k
  (h.2.emit (.heartbeat 0 h.1)).emit (.heartbeat 1 h.1)

/-- HEARTBEAT_SEND (R473): every 1 µs while the device is paired and the Rivet link is in service. -/
def execHeartbeatSend (sub : Nat) (s : State) : Answer State :=
  .next (if s.paired && (s.fence 11).st == 0 then s.sendHeartbeat sub else s)

/-- One sample of the pair offset in quarter picoseconds (R474): the peer's arrival of this device's heartbeat against
its sending, less the arrival of the peer's against its own (log entry 34). -/
def State.offsetSample (s : State) (hb : Heartbeat) (t4 : Nat) : State :=
  match Tab.get? s.pair.tx hb.t2Seq with
  | some t3 =>
    let x : Int := (((hb.t2 : Int) - t3) - ((t4 : Int) - hb.t1)) * 125 - 4 * signed 16 (s.getF GLB_PAIR_LINK.RIV_ASYM_PS)
    { s with pair := { s.pair with sum := s.pair.sum + x, samples := s.pair.samples + 1 } }
  | none => s

/-! ### Takeover (R479–R482) -/

/-- A STANDBY device becomes ACTIVE for `reason` unless it is unproven and may not take over so (R479–R481, R485). -/
def State.takeover (s : State) (reason : Nat) : State :=
  if s.pairState == pairStandby && (s.proven || s.isF GLB_PAIR_CFG.TAKE_UNPROVEN) then
    let s := (s.setPair pairActive).setF GLB_PAIR_HIST.TAKEOVER 1
    let s := { s with pair := { s.pair with switch := none, snap := none } }
    (s.pairEvent reason).endPairSwitch stOk
  else s

/-- A Rivet frame whose CRC fails is discarded and counted (R472). -/
def State.rivetCrc (s : State) : State := { s with pair := { s.pair with crcErrs := s.pair.crcErrs + 1 } }

/-- HEARTBEAT_RECEIVE (R472–R474, R480, R482, R487). -/
def execHeartbeatReceive (lane : Nat) (m : HeartbeatIn) (t4 : Nat) (s : State) : Answer State :=
  .next (if !s.paired || (s.fence 11).st != 0 then s
    else if !m.crcOk then s.rivetCrc
    else
      let hb := m.hb
      let s := (s.clearFault 0x1C8).orF GLB_PAIR_STAT.LANES_UP (1 <<< (lane % 2))
      let s := (s.setF GLB_PAIR_STAT.PEER_ACT (flag hb.activeOk)).offsetSample hb t4
      let s := { s with pair := { s.pair with rx := some (hb, t4), waited := false } }
      if s.pairState == pairActive then
        if hb.state == pairSolo then s.pairEvent 0x0B
        else if hb.state == pairActive then
          (if s.isF GLB_PAIR_CFG.PRIMARY then s else ((s.setPair pairJoining).setProven false).pairNote)
        else if hb.state == pairStandby && hb.proven != s.proven then s.setProven hb.proven
        else s
      else if s.pairState == pairStandby then
        if hb.state == pairSolo then s.takeover 0x0B
        else if !hb.activeOk then s.takeover 0x04
        else s
      else s)

/-- HEARTBEAT_LOSS (R480): the lanes of mask `lanes` have carried no heartbeat for 2 µs. -/
def execHeartbeatLoss (lanes : Nat) (peerAct : Bool) (s : State) : Answer State :=
  .next (if !s.paired || lanes % 4 == 0 then s
    else
      let s := (s.clrF GLB_PAIR_STAT.LANES_UP (lanes % 4)).setF GLB_PAIR_STAT.PEER_ACT (flag peerAct)
      if lanes % 4 != 3 then
        if s.getF GLB_PAIR_STAT.LANES_UP == 0 then s
        else (s.setF GLB_PAIR_HIST.LANE_LOSS 1).raiseOnce 0x1C9
      else if s.pairState != pairStandby then s
      else if peerAct then ((s.setF GLB_PAIR_HIST.SPLIT 1).pairEvent 0x0A).raise 0x1C8
      else s.takeover 0x03)

/-- PEER_ACT_LOW (R480): PEER_ACT has been low for 1 µs. -/
def execPeerActLow (s : State) : Answer State :=
  .next (if s.paired then (s.setF GLB_PAIR_STAT.PEER_ACT 0).takeover 0x04 else s)

/-! ### Snapshots and forwarded selections (R475, R476) -/

/-- SNAPSHOT_RECEIVE (R475, R488): kept for the next comparison or, by a joining device of the same generator
configuration, for its next commit cycle. -/
def execSnapshotReceive (m : SnapshotIn) (s : State) : Answer State :=
  .next (if !s.paired || (s.fence 11).st != 0 then s
    else if !m.crcOk then s.rivetCrc
    else if s.pairState == pairJoining && s.configDiffers m.snap then s.refuseJoin
    else if s.pairState == pairJoining || s.pairState == pairStandby then
      { s with pair := { s.pair with snap := some m.snap, ticksSince := List.replicate 16 0 } }
    else s)

/-- PAIR_CONTROL_MESSAGE (R45, R472, R476, R484): a selection that the active forwards is scheduled for the tick it names, or
for the next when that tick has passed; with `switch`, the partner tells the switch point at that frame count and its reason,
for both devices act on it (log entry 36). -/
def execPairControlMessage (group cand : Nat) (m : PairMark) (s : State) : Answer State :=
  .next (if s.paired && (s.fence 11).st == 0 && !m.crcOk then s.rivetCrc
    else if let some reason := m.switch then
      if (s.pairState == pairActive || s.pairState == pairStandby) && (s.fence 11).st == 0 && s.pair.switch.isNone then
        { s with pair := { s.pair with switch := some (m.frameCount, reason) } }
      else s
    else if s.pairState == pairStandby && (s.fence 11).st == 0 && s.cutLive group then
      let n := if (m.frameCount : Int) ≤ s.lastFc then (s.lastFc + 1).toNat else m.frameCount
      s.upCut group (fun x => { x with sel := some (cand, n) })
    else s)

/-! ### Switch, return, join (R483–R488) -/

/-- The first frame tick whose cutoff falls at least 1 ms after now (R483). -/
def State.switchPoint (s : State) : Nat := s.openTickLead (s.armLead 1000 - 1)

/-- Whether no switch can be scheduled now (R483). -/
def State.switchBusy (s : State) : Bool :=
  !s.proven || s.pair.switch.isSome || s.getF GLB_PAIR_STAT.LANES_UP == 0

/-- A switch scheduled for its switch point with a reason, which the partner is told (R483, R484, R486). -/
def State.scheduleSwitch (s : State) (reason : Nat) : State :=
  { s with pair := { s.pair with switch := some (s.switchPoint, reason) } }.emit (.pairSwitch s.switchPoint reason)

/-- RETURN_S in the unit of `Time`. -/
def State.returnHold (s : State) : Int := (s.getF GLB_PAIR_CFG.RETURN_S : Int) * 1000000000 * nsU

/-- PAIR_RETURN (R486): a PRIMARY standby that has stayed PROVEN for RETURN_S starts a switch by itself. -/
def execPairReturn (s : State) : Answer State :=
  .next (if s.isF GLB_PAIR_CFG.PRIMARY && s.pairState == pairStandby && s.isF GLB_PAIR_CFG.RETURN_S &&
        decide (s.pair.provenAt + s.returnHold ≤ s.now) && !s.switchBusy then s.scheduleSwitch 0x06
    else s)

/-- JOIN_TIMEOUT (R488): 10 ms have passed without a heartbeat, since the last one, since the device began to join, or since
the last such 10 ms.  With PEER_ACT low a JOINING PRIMARY becomes ACTIVE; a SECONDARY waits a further 10 ms first. -/
def execJoinTimeout (s : State) : Answer State :=
  .next (if s.pairState != pairJoining || s.isF GLB_PAIR_STAT.PEER_ACT then s
    else if s.isF GLB_PAIR_CFG.PRIMARY || s.pair.waited then (s.setPair pairActive).pairNote
    else { s with pair := { s.pair with waited := true } })

/-- The registers of an image of `GLB_PAIR_CFG`, `GLB_PAIR_PROOF` and `GLB_PAIR_LINK` (R487). -/
def State.loadPair (s : State) (cfg proof link : Nat) : State :=
  let s := (s.setF GLB_PAIR_CFG.PAIR_EN (bits cfg 0 1)).setF GLB_PAIR_CFG.PRIMARY (bits cfg 1 1)
  let s := (s.setF GLB_PAIR_CFG.ACT_GPIO (bits cfg 2 4)).setF GLB_PAIR_CFG.PEER_GPIO (bits cfg 6 4)
  let s := (s.setF GLB_PAIR_CFG.SHADOW_EN (bits cfg 10 1)).setF GLB_PAIR_CFG.TAKE_UNPROVEN (bits cfg 11 1)
  let s := (s.setF GLB_PAIR_CFG.SHADOW_LAG_NS (bits cfg 12 4)).setF GLB_PAIR_CFG.RETURN_S (bits cfg 16 16)
  let s := (s.setF GLB_PAIR_PROOF.PROOF_PS (bits proof 0 12)).setF GLB_PAIR_PROOF.PROOF_PPB (bits proof 12 8)
  (s.setF GLB_PAIR_PROOF.PROOF_N (bits proof 20 4)).setF GLB_PAIR_LINK.RIV_ASYM_PS (bits link 0 16)

/-- Whether a PAIR_CFG image names GPIO13–15, a different one in each field (R469). -/
def pairCfgOk (cfg : Nat) : Bool :=
  decide (13 ≤ bits cfg 2 4) && decide (13 ≤ bits cfg 6 4) && bits cfg 2 4 != bits cfg 6 4

/-- The device leaves the pair (R487): SOLO, with one heartbeat that says so. -/
def State.leavePair (s : State) : State :=
  let s := ((s.setPair pairSolo).setProven false).setF GLB_PAIR_STAT.LANES_UP 0
  { (s.sendHeartbeat 0).pairNote with pair := {} }

/-- The device enters the pair (R487): JOINING. -/
def State.enterPair (s : State) : State := ({ s with pair := { hbSeq := s.pair.hbSeq } }.setPair pairJoining).pairNote

/-- PAIR_CFG (R487). -/
def execPairCfg (c : Cmd) (s : State) : Answer State :=
  .next (s.fwCommand 0xA0 c (fun s =>
    let cfg := leAt c.data 0 4
    if !c.indirect || c.dataLen != 12 || !pairCfgOk cfg then s.done c stBadArg
    else if s.pairState == pairJoining || s.pair.switch.isSome then s.done c stBusy
    else
      let was := s.paired
      let s := s.loadPair cfg (leAt c.data 4 4) (leAt c.data 8 4)
      let s := if !was && s.paired then s.enterPair else if was && !s.paired then s.leavePair else s
      s.done c stOk))

/-- PAIR_SWITCH (R483): it completes at the switch point. -/
def execPairSwitch (c : Cmd) (s : State) : Answer State :=
  .next (s.fwCommand 0xA1 c (fun s =>
    let k := c.a2.toNat
    if !((k == 0 && s.pairState == pairActive) || (k == 1 && s.pairState == pairStandby)) then s.done c stBadArg
    else if s.switchBusy then s.done c stBusy
    else { s.scheduleSwitch 0x05 with fw := { s.fw with pairSwitch := some c } }))

end Sys2Proof.Machine
end

