-- ==== Sys2Proof/Machine/Dpll.lean ====
section
/-!
DEFINITION. Offsets and discontinuity records (R305–R307), references and their monitors (R361–R367), and the DPLLs
(R368–R381).  Offsets and phase errors are in picoseconds, frequency offsets in units of 2^-40.
-/

namespace Sys2Proof.Machine

/-! ### Discontinuity records (R305–R307) -/

/-- STEP_THRESH_NS in ps, as it acts. -/
def State.stepThresh (s : State) : Int := (clampN 1 1000 (s.getF TPL_TB_POL.STEP_THRESH_NS) : Int) * 1000

/-- An offset in whole nanoseconds, toward zero, in 32 bits (R306). -/
def offsetNs (d : Int) : Nat := unsign 32 (clampI (-2147483648) 2147483647 (Int.tdiv d 1000))

/-- TIME_PENDING (R306). -/
def State.timePending (s : State) (id : Nat) (d : Int) : State := s.event 5 0x0052 id (offsetNs d) 0

/-- A record opens with the next ID (R306). -/
def State.openDisc (s : State) (d : Int) : State :=
  let id := if s.time.lastId = 65535 then 1 else s.time.lastId + 1
  let s := { s with time := { s.time with lastId := id, disc := some { id := id, off := d } } }
  ((s.setF TPL_TB_STAT.DISC_PENDING 1).setF TPL_TB_STAT.PEND_ID id).timePending id d

/-- The pending record is gone: a TIME_AUTH that waits for it completes (R307, R309). -/
def State.closeDisc (s : State) (status : Nat) : State :=
  let s := { s with time := { s.time with disc := none } }
  ((s.setF TPL_TB_STAT.DISC_PENDING 0).setF TPL_TB_STAT.PEND_ID 0).endTimeAuth status

/-- Whether the policy steps on three confirmations for an offset of this sign (R305). -/
def State.stepConfirm (s : State) (d : Int) : Bool :=
  if 0 < d then s.getF TPL_TB_POL.FWD_POL == 1 else s.getF TPL_TB_POL.BACK_POL == 1

/-- A measurement confirms the record (R306, R307). -/
def State.confirmDisc (s : State) (r : Disc) (d : Int) : State :=
  let n := r.confs + 1
  { s with time := { s.time with
    disc := some { r with off := d, confs := n, ready := r.ready || r.auth || (s.stepConfirm d && decide (3 ≤ n)) } } }

/-- The step policy on a measured offset in HARDWARE mode (R305, R306). -/
def State.applyPolicy (s : State) (d : Int) : State :=
  let th := s.stepThresh
  let small := decide ((d.natAbs : Int) ≤ th)
  match s.time.disc with
  | some r =>
    if small then (s.timePending r.id 0).closeDisc stPast
    else if ((d - r.off).natAbs : Int) ≤ th then s.confirmDisc r d
    else (s.closeDisc stPast).openDisc d
  | none =>
    if !s.isF TPL_TB_STAT.TIME_VALID then { s with time := { s.time with firstStep := some d } }
    else if small then s
    else s.openDisc d

/-! ### References (R361–R367) -/

/-- Whether DPLL `k` can use reference `i` (R361). -/
def State.refAllowed (s : State) (k i : Nat) : Bool :=
  if i < 8 then k != 0 || s.isF TPL_REF_CFG.TYPE i
  else if i < 24 then k != 0
  else if i = 24 then decide (2 ≤ k)
  else i == 25 && k == 0

/-- A reference whose gate has met the QUALIFYING conditions (R367).  One that was newly enabled has been QUALIFYING for
that gate, and is QUALIFIED at its end unless QUAL_MS is longer (log entry 65). -/
def State.gateQualifies (s : State) (i : Nat) : State :=
  let fresh := (s.refr i).fresh
  let s := s.setRef i 2
  if !fresh then s
  else if s.getF TPL_REF_MON2.QUAL_MS i ≤ s.gateTenths i * 100 then s.setRef i 3
  else s.upRef i (fun x => { x with gateOk := true })

/-- REF_GATE_END (R366, R367): the offset and drift monitors of references 0–23. -/
def execRefGateEnd (i : Nat) (foff : Int) (s : State) : Answer State :=
  .next (if !s.isF TPL_REF_CFG.MON_EN i || decide (24 ≤ i) then s
    else
      let s := s.setF TPL_REF_FOFF.FOFF (unsign 32 foff) i
      let s := s.upRef i (fun x => { x with gates := (foff :: x.gates).take 16 })
      let hard := s.getF TPL_REF_MON1.HARD i
      let soft := s.getF TPL_REF_MON1.SOFT i
      let dh := s.getF TPL_REF_MON2.DRIFT_HARD i
      let ds := s.getF TPL_REF_MON2.DRIFT_SOFT i
      let offBad := offExceeds foff hard 1 1
      let driftBad := s.driftExceeds i dh 1 1
      let s := if offBad then s.setF TPL_REF_HIST.HARD_FAIL 1 i else s
      let s := if driftBad then s.setF TPL_REF_HIST.DRIFT_FAIL 1 i else s
      if offBad || driftBad then s.failRef i
      else
        match s.refState i with
        | 1 =>
          if (decide (i < 8) || s.slotActive i) && !s.isF TPL_REF_CFG.DNU i && s.withinHard i then s.gateQualifies i else s
        | 2 =>
          let s := s.upRef i (fun x => { x with gateOk := true })
          if (s.refr i).qualOk then s.setRef i 3 else s
        | 3 => if offExceeds foff soft 1 1 || s.driftExceeds i ds 1 1 then s.setRef i 4 else s
        | 4 => if !offExceeds foff soft 3 4 && !s.driftExceeds i ds 3 4 then s.setRef i 3 else s
        | _ => s)

/-- Whether the references of a TRACE are selectable (R491). -/
def State.traceRefs (s : State) : Bool :=
  let a := s.getF TMP_CFG.REF10_ID
  let b := s.getF TMP_CFG.PPS_ID
  (s.refState a == 3 || s.refState a == 4) && !s.isF TPL_REF_CFG.TYPE a &&
  (s.refState b == 3 || s.refState b == 4) && s.isF TPL_REF_CFG.TYPE b

/-- A TRACE run is abandoned (R493): the previous record stays in force, and a TEMPER_RUN that waits for it completes
(R497). -/
def State.dropTrace (s : State) : State :=
  let s := ({ s with temper := { s.temper with trace := false, traceFailed := true } }).setF TMP_STAT.STATE 0
  ((s.setF TMP_HIST.TRACE_FAIL 1).endTemperRun stOk s.temper.cmdRun 0xFFFFFFFF).raiseOnce 0x1C1

/-- A TRACE run in progress ends when one of its references stops being selectable (R493). -/
def State.traceWatch (s : State) : State := if s.temper.trace && !s.traceRefs then s.dropTrace else s

/-- REF_ACTIVITY_LOSS (R366). -/
def execRefActivityLoss (i : Nat) (s : State) : Answer State :=
  .next (if !s.isF TPL_REF_CFG.MON_EN i || decide (24 ≤ i) then s
    else ((s.setF TPL_REF_HIST.ACT_LOSS 1 i).failRef i).traceWatch)

/-- REF_FAST_FREQUENCY_FAIL (R366). -/
def execRefFastFrequencyFail (i : Nat) (s : State) : Answer State :=
  .next (if !s.isF TPL_REF_CFG.MON_EN i || decide (24 ≤ i) then s
    else ((s.setF TPL_REF_HIST.FAST_FAIL 1 i).failRef i).traceWatch)

/-- QUAL_MS_EXPIRY (R367): QUAL_MS have passed in QUALIFYING without a failure; a gate must have, too, where the
reference has one. -/
def execQualMsExpiry (i : Nat) (s : State) : Answer State :=
  .next (if s.refState i != 2 then s
    else
      let s := s.upRef i (fun x => { x with qualOk := true })
      if i = 25 ∨ (s.refr i).gateOk then s.setRef i 3 else s)

/-- REF25_AGE_OUT (R364). -/
def execRef25AgeOut (s : State) : Answer State :=
  .next (if decide (2 ≤ s.refState 25) then (s.setF TPL_REF_HIST.ACT_LOSS 1 25).setRef 25 1 else s)

/-- Firmware delivers an offset to reference 25 (R364): it is used in DPLL0's next loop update only. -/
def State.deliverOffset (s : State) (d : Int) : State :=
  let s := { s with time := { s.time with offset := d, measured := true } }
  if s.refState 25 == 1 && !s.isF TPL_REF_CFG.DNU 25 then s.setRef 25 2 else s

/-- MON_EN and DNU as they have just been written act on reference `i` (R365, R367). -/
def State.settleRef (s : State) (i : Nat) (dnuWas : Bool) : State :=
  let s := if s.isF TPL_REF_CFG.DNU i && !dnuWas then s.setF TPL_REF_HIST.DNU_SEEN 1 i else s
  if !s.isF TPL_REF_CFG.MON_EN i then (s.upRef i (fun x => { x with gates := [] })).setRef i 0
  else
    let s := if s.refState i = 0 then s.setRef i 1 else s
    let s := if s.isF TPL_REF_CFG.DNU i && i != 24 then s.failRef i else if decide (8 ≤ i ∧ i < 24) then s.requalifySlot i else s
    if i = 24 then
      let st := s.getF TPL_DPLL_STAT.STATE 1
      s.setRef 24 (if st = 2 ∨ st = 3 then 3 else 1)
    else s

/-- The images of a REF_CFG take effect. -/
def State.loadRef (s : State) (i : Nat) (w : List Word) : State :=
  let dnu := s.isF TPL_REF_CFG.DNU i
  let s := (s.setF TPL_REF_CFG.MON_EN (bits (dw w 0) 0 1) i).setF TPL_REF_CFG.TYPE (if i < 8 then bits (dw w 0) 1 1 else 0) i
  let s := (s.setF TPL_REF_CFG.PRE (bits (dw w 0) 2 2) i).setF TPL_REF_CFG.MON_CLK (bits (dw w 0) 4 1) i
  let s := s.setF TPL_REF_CFG.DNU (bits (dw w 0) 5 1) i
  let s := if 8 ≤ i ∧ i < 24 then s else s.setF TPL_REF_FNOM.F_NOM (bits (dw w 1) 0 30) i
  let s := (s.setF TPL_REF_SLOT.PORT (bits (dw w 2) 0 8) i).setF TPL_REF_SLOT.LANE (bits (dw w 2) 8 3) i
  let s := (s.setF TPL_REF_MON1.SOFT (bits (dw w 3) 0 12) i).setF TPL_REF_MON1.HARD (bits (dw w 3) 12 12) i
  let s := (s.setF TPL_REF_MON1.GATE (bits (dw w 3) 24 2) i).setF TPL_REF_MON2.DRIFT_SOFT (bits (dw w 4) 0 8) i
  let s := (s.setF TPL_REF_MON2.DRIFT_HARD (bits (dw w 4) 8 8) i).setF TPL_REF_MON2.QUAL_MS (bits (dw w 4) 16 16) i
  s.settleRef i dnu

/-- The REF_CFGs that wait take effect at a loop update. -/
def State.loadRefs (s : State) : State :=
  (Tab.keys s.refs).foldl (fun s i =>
    match (s.refr i).cfg with
    | some w => (s.upRef i (fun x => { x with cfg := none })).loadRef i w
    | none => s) s

/-- REF_CFG (R101, R365). -/
def execRefCfg (c : Cmd) (s : State) : Answer State :=
  .next (s.fwCommand 0x84 c (fun s =>
    if decide (26 ≤ c.target) || !c.indirect || c.dataLen != 20 then s.done c stBadArg
    else if (s.refr c.target).cfg.isSome then s.done c stBusy
    else (s.upRef c.target (fun x => { x with cfg := some (toWords 5 c.data) })).done c stOk))

/-! ### DPLL states (R373, R374) -/

def State.dpllState (s : State) (k : Nat) : Nat := s.getF TPL_DPLL_STAT.STATE k
def State.dpllMode (s : State) (k : Nat) : Nat := s.getF TPL_DPLL_CFG.MODE k
def State.foff (s : State) (k : Nat) : Int := signed 32 (s.getF TPL_DPLL_FOFF.FOFF k)

/-- TPL_DPLL_HIST as a doubleword. -/
def State.dpllHist (s : State) (k : Nat) : Nat :=
  s.getF TPL_DPLL_HIST.STATE_SEEN k + 32 * s.getF TPL_DPLL_HIST.SWITCH k + 64 * s.getF TPL_DPLL_HIST.PSL_HIT k +
  128 * s.getF TPL_DPLL_HIST.UNLOCK k

/-- DPLL `k` enters state `st` (R373, R374, R365). -/
def State.setDpll (s : State) (k st : Nat) : State :=
  let was := s.dpllState k
  if was = st then s
  else
    let s := (s.setF TPL_DPLL_STAT.STATE st k).orF TPL_DPLL_HIST.STATE_SEEN (1 <<< st) k
    let s := if bit (s.getF TPL_CS_IRQ.DPLL_MASK) st then s.event 5 0x0051 k st (s.dpllHist k) else s
    let s := if st = 4 then s.raise (0xC1 + k) else if was = 4 then s.clearFault (0xC1 + k) else s
    if k = 1 then s.settleRef 24 (s.isF TPL_REF_CFG.DNU 24) else s

/-- The loop update interval in ns. -/
def loopNs (k : Nat) : Nat := if k = 0 then 1048576 else 16000

/-- Seconds of LOCKED time in loop updates, the last one whole. -/
def lockedUpdates (k sec : Nat) : Nat := ceilDiv (sec * 1000000000) (loopNs k)

/-- Whether the history is valid (R379). -/
def State.histValid (s : State) (k : Nat) : Bool :=
  decide (lockedUpdates k (s.getF TPL_DPLL_HOLD.HIST_S k + s.getF TPL_DPLL_HOLD.HIST_SKIP_S k) ≤ (s.dpll k).log.length) &&
  !(s.dpll k).log.isEmpty

/-- The history (R379): the mean output over HIST_S of LOCKED time, the last HIST_SKIP_S left out. -/
def State.history (s : State) (k : Nat) : Int :=
  let l := ((s.dpll k).log.drop (lockedUpdates k (s.getF TPL_DPLL_HOLD.HIST_SKIP_S k))).take
    (max 1 (lockedUpdates k (s.getF TPL_DPLL_HOLD.HIST_S k)))
  roundDiv (l.foldl (· + ·) 0) (max 1 l.length)

/-- The history is cleared (R373 row 1). -/
def State.clearHistory (s : State) (k : Nat) : State := s.upDpll k (fun x => { x with log := [] })

/-! ### Selection (R368–R371) -/

/-- REF, PRIO and REVERT of entry `e` of DPLL `k`. -/
def State.prioRef (s : State) (k e : Nat) : Nat := s.getF TPL_DPLL_PRIO.REF (k * 8 + e)
def State.prioOf (s : State) (k e : Nat) : Nat := s.getF TPL_DPLL_PRIO.PRIO (k * 8 + e)
def State.revertOf (s : State) (k e : Nat) : Bool := s.isF TPL_DPLL_PRIO.REVERT (k * 8 + e)

/-- Whether the reference of entry `e` is selectable by DPLL `k`. -/
def State.selectable (s : State) (k e : Nat) : Bool :=
  let i := s.prioRef k e
  s.prioOf k e != 0 && s.refAllowed k i && (s.refState i == 3 || s.refState i == 4) &&
  (s.dpllMode k != 1 || e == s.getF TPL_DPLL_CFG.FORCE_ENTRY k)

/-- Whether entry `a` ranks before entry `b` (R368). -/
def State.ranks (s : State) (k a b : Nat) : Bool :=
  decide (s.prioOf k a < s.prioOf k b) || (s.prioOf k a == s.prioOf k b && decide (a < b))

/-- The first entry of `l` by rank. -/
def State.bestOf (s : State) (k : Nat) (l : List Nat) : Option Nat :=
  l.foldl (fun b e => match b with | some x => if s.ranks k e x then some e else b | none => some e) none

/-- The best selectable entry (R368, R371). -/
def State.bestEntry (s : State) (k : Nat) : Option Nat :=
  if decide (2 ≤ s.dpllMode k) then none else s.bestOf k ((List.range 8).filter (fun e => s.selectable k e))

/-- The entry that names the selected reference: the best selectable one, else none. -/
def State.selEntry (s : State) (k : Nat) : Option Nat :=
  match (s.dpll k).sel with
  | some i => s.bestOf k ((List.range 8).filter (fun e => s.selectable k e && s.prioRef k e == i))
  | none => none

/-- The selectable REVERT entries that outrank the selected reference (R369). -/
def State.outranking (s : State) (k : Nat) : List Nat :=
  match s.selEntry k with
  | some e => (List.range 8).filter (fun x =>
      s.selectable k x && s.revertOf k x && s.ranks k x e && s.prioRef k x != s.prioRef k e)
  | none => []

/-- The outranking entry whose wait-to-restore ends first (R369). -/
def State.firstWait (s : State) (k : Nat) : Option Nat :=
  (s.outranking k).foldl (fun b e =>
    match b with
    | some x => if (s.refr (s.prioRef k e)).qualAt < (s.refr (s.prioRef k x)).qualAt ||
        ((s.refr (s.prioRef k e)).qualAt == (s.refr (s.prioRef k x)).qualAt && s.ranks k e x) then some e else b
    | none => some e) none

/-- DPLL `k` takes the reference of entry `e` and is ACQUIRING; another reference's phase counts from its own zero. -/
def State.acquire (s : State) (k e : Nat) : State :=
  ((s.upDpll k (fun x => { x with
    sel := some (s.prioRef k e)
    zero := if x.sel = some (s.prioRef k e) then x.zero else 0 })).setF TPL_DPLL_STAT.SEL e k).setDpll k 1

/-- Rows 4 and 5 of R373: the next loop update, or this one, takes the new reference's phase (R377). -/
def State.switchTo (s : State) (k e : Nat) : State :=
  (((s.setF TPL_DPLL_HIST.SWITCH 1 k).acquire k e).upDpll k (fun x => { x with switched := true }))

/-- Entry to HOLDOVER or LOST with the offset to hold; only row 10 keeps the reference selected. -/
def State.holdAt (s : State) (k st : Nat) (f : Int) (keep : Bool := false) : State :=
  (s.upDpll k (fun x => { x with held := f, sel := if keep then x.sel else none })).setDpll k st

/-! ### The loop update (R368, R370, R373, R375, R376) -/

/-- The references that outrank the selected one. -/
def State.outrankingRefs (s : State) (k : Nat) : List Nat := (s.outranking k).map (fun e => s.prioRef k e)

/-- The images of a DPLL_CFG take effect. -/
def State.loadDpll (s : State) (k : Nat) (w : List Word) : State :=
  let s := (s.setF TPL_DPLL_CFG.MODE (bits (dw w 0) 0 2) k).setF TPL_DPLL_CFG.FORCE_ENTRY (bits (dw w 0) 2 3) k
  let s := (s.setF TPL_DPLL_CFG.HO_EN (bits (dw w 0) 5 1) k).setF TPL_DPLL_CFG.ALIGN (bits (dw w 0) 6 1) k
  let s := s.setF TPL_DPLL_CFG.WTR_S (bits (dw w 0) 16 16) k
  let s := (s.setF TPL_DPLL_BW0.BW_LINE (bits (dw w 1) 0 10) k).setF TPL_DPLL_BW0.BW_EXT (bits (dw w 1) 16 10) k
  let s := (s.setF TPL_DPLL_BW1.BW_PPS (bits (dw w 2) 0 10) k).setF TPL_DPLL_BW1.BW_PHASE (bits (dw w 2) 16 10) k
  let s := (s.setF TPL_DPLL_LOCK.LOCK_WIN (bits (dw w 3) 0 16) k).setF TPL_DPLL_LOCK.LOCK_T (bits (dw w 3) 16 12) k
  let s := (s.setF TPL_DPLL_HOLD.HIST_S (bits (dw w 4) 0 12) k).setF TPL_DPLL_HOLD.HIST_SKIP_S (bits (dw w 4) 12 4) k
  let s := s.setF TPL_DPLL_HOLD.HO_LIMIT_S (bits (dw w 4) 16 16) k
  let s := (s.setF TPL_DPLL_PSL.PSL_PPB (bits (dw w 5) 0 16) k).setF TPL_DPLL_MAN.MAN_FOFF (dw w 6) k
  (List.range 8).foldl (fun s e =>
    let v := dw w (8 + e)
    ((s.setF TPL_DPLL_PRIO.REF (bits v 0 5) (k * 8 + e)).setF TPL_DPLL_PRIO.PRIO (bits v 5 4) (k * 8 + e)).setF
      TPL_DPLL_PRIO.REVERT (bits v 9 1) (k * 8 + e)) s

/-- A configuration that waits for DPLL `k`'s loop update, and the references that outranked the selected one before it
(all may switch only by their wait-to-restore, R370). -/
def State.takeDpllCfg (s : State) (k : Nat) : State × Option (List Nat) :=
  match (s.dpll k).cfg with
  | some w => ((s.upDpll k (fun x => { x with cfg := none })).loadDpll k w, some (s.outrankingRefs k))
  | none => (s, none)

/-- The entry to which a changed table switches at once (R370). -/
def State.newlyOutranking (s : State) (k : Nat) (old : Option (List Nat)) : Option Nat :=
  match old with
  | some l => s.bestOf k ((s.outranking k).filter (fun e => !l.contains (s.prioRef k e)))
  | none => none


/-- Whether a PPS offset found by DPLL0 must be held (R378): firmware, which is told, applies the policy. -/
def State.ppsHold (s : State) (k : Nat) (e : Option Nat) (perr : Int) : Bool :=
  k == 0 && !s.time.software &&
  (match e with | some x => decide (s.prioRef 0 x < 8) | none => false) && decide (s.stepThresh < (perr.natAbs : Int))

/-- Whether entry `e` of DPLL0 names a PPS reference. -/
def State.onPps (s : State) (k : Nat) (e : Option Nat) : Bool :=
  k == 0 && !s.time.software && (match e with | some x => decide (s.prioRef 0 x < 8) | none => false)

/-- Firmware is told of the offset of a PPS pulse that lies beyond the threshold or bears on a pending record (R378, R306). -/
def State.reportPps (s : State) (k : Nat) (e : Option Nat) (pulse : Bool) (perr : Int) : State :=
  if s.fw.running && pulse && s.onPps k e && (s.time.disc.isSome || s.ppsHold k e perr) then s.applyPolicy perr else s

/-- DPLL0 leaves HOLDOVER with the offset it has (R305): within the threshold, it is slewed out. -/
def State.slewOffset (s : State) (was k : Nat) (perr : Int) : State :=
  if k == 0 && was == 3 && s.dpllState 0 == 1 && !s.time.software && decide ((perr.natAbs : Int) ≤ s.stepThresh) then
    { s with time := { s.time with adj := perr * psU } }
  else s

/-- FREERUN, HOLDOVER and LOST in MODE AUTO or FORCED (R373 rows 2 and 11, R378). -/
def State.tryAcquire (s : State) (k : Nat) (perr : Int) (pulse : Bool) : State :=
  let e := match s.selEntry k with
    | some e => if s.dpllState k = 3 then some e else s.bestEntry k
    | none => s.bestEntry k
  match e with
  | none => s
  | some e =>
    let s := s.reportPps k (some e) pulse perr
    if (k == 0 && s.time.disc.isSome) || s.ppsHold k (some e) perr then s else s.acquire k e

/-- ACQUIRING and LOCKED in MODE AUTO or FORCED (R373 rows 4 to 8 and 10). -/
def State.tryHold (s : State) (k : Nat) (perr : Int) (pulse : Bool) (old : Option (List Nat)) : State :=
  let pps := s.ppsHold k (s.selEntry k) perr
  let s := s.reportPps k (s.selEntry k) pulse perr
  if (k == 0 && s.time.disc.isSome) || pps then
    s.holdAt k 3 (if s.histValid k then s.history k else s.foff k) true
  else
    match s.selEntry k with
    | none =>
      match s.bestEntry k with
      | some e => s.switchTo k e
      | none =>
        if s.isF TPL_DPLL_CFG.HO_EN k && s.histValid k then s.holdAt k 3 (s.history k) else s.holdAt k 4 0
    | some e =>
      let s := s.setF TPL_DPLL_STAT.SEL e k
      match s.newlyOutranking k old with
      | some x => s.switchTo k x
      | none =>
        if s.dpllState k == 2 && decide (4 * s.getF TPL_DPLL_LOCK.LOCK_WIN k < perr.natAbs) then
          (s.setF TPL_DPLL_HIST.UNLOCK 1 k).setDpll k 1
        else s

/-- The state machine at a loop update. -/
def State.dpllSelect (s : State) (k : Nat) (perr : Int) (pulse : Bool) (old : Option (List Nat)) : State :=
  if decide (2 ≤ s.dpllMode k) then
    let held : Int := if s.dpllMode k = 3 then signed 32 (s.getF TPL_DPLL_MAN.MAN_FOFF k) else 0
    ((s.clearHistory k).upDpll k (fun x => { x with sel := none, held := held })).setDpll k 0
  else if s.dpllState k = 1 ∨ s.dpllState k = 2 then s.tryHold k perr pulse old
  else
    let s := if s.dpllState k = 0 then s.upDpll k (fun x => { x with held := 0 }) else s
    s.tryAcquire k perr pulse

/-- The phase error of DPLL `k` at this update (R364, R368, R377, R378): the offset delivered to reference 25 when the
update uses that reference, else the detector's against the zero in force; and whether it is a delivered offset. -/
def State.phaseError (s : State) (k : Nat) (perr : Int) (pulse : Bool) (old : Option (List Nat)) : Int × Bool :=
  if k = 0 ∧ ((s.dpllSelect 0 perr pulse old).dpll 0).sel = some 25 then
    if s.time.measured then (s.time.offset, true)
    else (if (s.dpll 0).sel = some 25 then signed 32 (s.getF TPL_DPLL_PERR.PERR 0) else s.time.offset, false)
  else (perr - (s.dpll k).zero, false)

/-- What a switch makes of the phase error at it (R377): with ALIGN set it is to be removed, with ALIGN clear it is the
new zero. -/
def State.takeZero (s : State) (k : Nat) (err : Int) : State :=
  if !(s.dpll k).switched then s
  else
    let align := s.isF TPL_DPLL_CFG.ALIGN k
    let s := s.upDpll k (fun x => { x with zero := if align then x.zero else x.zero + err })
    if align then s else s.setF TPL_DPLL_PERR.PERR 0 k

/-- The bandwidth in force (R375), M × 10^(E − 3) Hz in millihertz: that of the selected reference's type. -/
def State.loopBw (s : State) (k : Nat) : Nat :=
  let v := match (s.dpll k).sel with
    | none => 0
    | some i =>
      if i < 8 then (if s.isF TPL_REF_CFG.TYPE i then s.getF TPL_DPLL_BW1.BW_PPS k else s.getF TPL_DPLL_BW0.BW_EXT k)
      else if i = 25 then s.getF TPL_DPLL_BW1.BW_PHASE k
      else s.getF TPL_DPLL_BW0.BW_LINE k
  v % 128 * 10 ^ (v / 128)

/-- The offset that the loop of DPLL `k` steers to in this update (R375): a function of the bandwidth in force, the phase
error and the output that the spec does not give (log entry 15). -/
def State.loopGoal (s : State) (k : Nat) : State × Int :=
  let d := s.drawInt
  (d.2, Config.loopGoal (s.loopBw k) (signed 32 (s.getF TPL_DPLL_PERR.PERR k)) (s.foff k) d.1)

/-- PSL_PPB (R376) over one loop update, in 2^-40 × 10^-18: an equal share of every second (log entry 65). -/
def State.slopeLimit (s : State) (k : Nat) : Int := ((max 1 (s.getF TPL_DPLL_PSL.PSL_PPB k) * 2 ^ 40 * loopNs k : Nat) : Int)

/-- The unit of `Dpll.fine` in 2^-40. -/
def fineU : Int := 1000000000000000000

/-- The output moves toward where its state takes it, within PSL_PPB (R375–R377, R380); it stands still in the update of a
switch. -/
def State.dpllMove (s : State) (k : Nat) : State :=
  let prev := (s.dpll k).fine
  let keep := (s.dpll k).switched
  let g := if s.dpllState k = 1 ∨ s.dpllState k = 2 then s.loopGoal k else (s, (s.dpll k).held)
  let s := g.1
  let goal := if keep then prev else g.2 * fineU
  let next := clampI (prev - s.slopeLimit k) (prev + s.slopeLimit k) goal
  let s := if next != goal then s.setF TPL_DPLL_HIST.PSL_HIT 1 k else s
  let f := roundDiv next fineU
  let s := s.setF TPL_DPLL_FOFF.FOFF (unsign 32 f) k
  s.upDpll k (fun x => { x with fine := next, switched := false, log := if s.dpllState k = 2 then f :: x.log else x.log })

/-- DPLL_LOOP_UPDATE (R368, R370, R373, R378). -/
def execDpllLoopUpdate (k : Nat) (x : LoopIn) (s : State) : Answer State :=
  .next (if !s.time.running then s
    else
      let c := s.loadRefs.takeDpllCfg k
      let e := c.1.phaseError k x.perr x.pulse c.2
      let was := c.1.dpllState k
      let s := if e.2 then { c.1 with time := { c.1.time with measured := false } } else c.1
      let s := s.setF TPL_DPLL_PERR.PERR (unsign 32 (clampI (-2147483648) 2147483647 e.1)) k
      (((s.dpllSelect k e.1 x.pulse c.2).slewOffset was k e.1).takeZero k e.1).dpllMove k)

/-- DPLL_LOCK_TIME (R373 row 3): the phase error has stayed within LOCK_WIN for LOCK_T. -/
def execDpllLockTime (k : Nat) (s : State) : Answer State :=
  .next (if s.dpllState k == 1 &&
      decide ((signed 32 (s.getF TPL_DPLL_PERR.PERR k)).natAbs ≤ s.getF TPL_DPLL_LOCK.LOCK_WIN k) then s.setDpll k 2
    else s)

/-- DPLL_WTR_EXPIRY (R369): the wait-to-restore of an outranking REVERT reference has ended. -/
def execDpllWtrExpiry (k : Nat) (s : State) : Answer State :=
  .next (if (s.dpllState k == 1 || s.dpllState k == 2) && s.dpllMode k == 0 then
      match s.firstWait k with
      | some e => s.switchTo k e
      | none => s
    else s)

/-- HOLDOVER_LIMIT_EXPIRY (R373 row 9). -/
def execHoldoverLimitExpiry (k : Nat) (s : State) : Answer State :=
  .next (if s.dpllState k == 3 && s.isF TPL_DPLL_HOLD.HO_LIMIT_S k then s.setDpll k 4 else s)

/-- Whether a DPLL_CFG image can be taken (R361, R372, R377). -/
def State.dpllCfgOk (s : State) (k : Nat) (w : List Word) : Bool :=
  !(k == 0 && (bits (dw w 0) 0 2 == 3 || !bit (dw w 0) 6)) &&
  (List.range 8).all (fun e => bits (dw w (8 + e)) 5 4 == 0 || s.refAllowed k (bits (dw w (8 + e)) 0 5))

/-- DPLL_CFG (R101, R370). -/
def execDpllCfg (c : Cmd) (s : State) : Answer State :=
  .next (s.fwCommand 0x83 c (fun s =>
    let w := toWords 16 c.data
    if decide (4 ≤ c.target) || !c.indirect || c.dataLen != 64 || !s.dpllCfgOk c.target w then s.done c stBadArg
    else if (s.dpll c.target).cfg.isSome then s.done c stBusy
    else (s.upDpll c.target (fun x => { x with cfg := some w })).done c stOk))

end Sys2Proof.Machine
end

