-- ==== Sys2Proof/Machine/Phase.lean ====
section
/-!
DEFINITION. Phase detectors and phase service (R329–R345, R360).  Within a window phases are counted in eighths of a
femtosecond, in which T, T / 2^14, a femtosecond and 1/16 ps are whole; firmware's computation is in 1/16 ps.
-/

namespace Sys2Proof.Machine

/-- T = 6.4 ns in eighths of a femtosecond (R330). -/
def phT : Int := 51200000

/-- T in 1/16 ps. -/
def phT16 : Int := 102400

/-- The representative of a difference of phases nearest to 0. -/
def phWrap (d : Int) : Int := (d + phT / 2) % phT - phT / 2

/-! ### Temper's items (R489) -/

/-- Keys of items: a port's transmit and receive fixed delay in a MODE, a tile's sampler delay and skew, a TIU source, a
TICK and a CLKOUT pin, and a port's PD_OFF in a MODE. -/
def txKey (p m : Nat) : Nat := p * 16 + m
def rxKey (p m : Nat) : Nat := 65536 + p * 16 + m
def pdKey (p m : Nat) : Nat := 131072 + p * 16 + m
def pathKey (t : Nat) : Nat := 196608 + t
def skewKey (t : Nat) : Nat := 327680 + t
def tiuKey (n : Nat) : Nat := 393216 + n
def tickKey (n : Nat) : Nat := 458752 + n
def clkKey (n : Nat) : Nat := 524288 + n

def State.item (s : State) (k : Nat) : Item := Tab.getD s.temper.items k {}

/-! ### Windows (R336, R338, R339, R360) -/

/-- PD_OFF of port `p` in its present MODE, as applied, in fs (R334). -/
def State.pdOff (s : State) (p : Nat) : Int := (s.item (pdKey p (s.portMode p))).applied

/-- Whether the items that a window of port `p` rests on are STALE (R498, R502): Temper is suspended, or holds the port. -/
def State.portStale (s : State) (p : Nat) : Bool := s.getF TMP_STAT.STATE == 3 || s.temper.hold.contains p

/-- A window of port `p` starts, with the configuration as it stands (R336, R360); it is STALE while Temper holds the
port (R498). -/
def State.startWindow (s : State) (p : Nat) : State :=
  s.upPhase p (fun x => { x with
    running := true, start := false, phi := [], edge := [], updates := 0, slip := false, align := false, disc := false,
    stale := s.portStale p, avg := max 1 (s.getF TPL_PH_CFG.AVG_UPD),
    slipPs := 4 * max 1 (s.getF TPL_PH_CFG.SLIP), syntPpb := max 1 (s.getF TPL_PH_CFG.SYNT_PPB),
    deglitch := max 8 (s.getF TPL_PH_CFG.DEGLITCH) })

/-- Whether port `p` can have windows: phase service enabled, anchor aligned at HOLDOFF, tile in service (R330, R339). -/
def State.windowsRun (s : State) (p : Nat) : Bool :=
  s.phaseOn p && (s.portState p == 4 || s.portState p == 5) && (s.fence (p / 32)).st == 0

/-- Windows of port `p` start at the next servo update (R339, R360). -/
def State.awaitWindow (s : State) (p : Nat) : State :=
  if s.windowsRun p && !(s.phase p).running then s.upPhase p (fun x => { x with start := true }) else s

/-- A servo update as the phase detectors see it (R336, R338): windows start or count it. -/
def State.phaseServo (s : State) (stepped : Bool) : State :=
  (Tab.keys s.phases).foldl (fun s p =>
    let x := s.phase p
    if x.start then s.startWindow p
    else if x.running then s.upPhase p (fun x => { x with updates := x.updates + 1, disc := x.disc || stepped })
    else s) s

/-- The beat phase φ of R333–R335 from the two counts, corrected by the port's offset, in eighths of a femtosecond. -/
def State.beatPhi (s : State) (port nRx nTx : Nat) : Int :=
  ((((nRx : Int) - nTx) % 16384) * 3125 - 8 * s.pdOff port) % phT

/-- The transition of a sampled stream (R333): the first of the stretches `runs` (offset-clock count, samples) that holds the
new value for DEGLITCH samples, else the count `n` from which the stream keeps it. -/
def transition (deglitch n : Nat) (runs : List (Nat × Nat)) : Nat :=
  match runs.find? (fun e => decide (deglitch ≤ e.2)) with
  | some e => e.1
  | none => n

/-- The edge time τ_tx of a beat (R335), in eighths of a femtosecond: the serving time at the next TCLK edge that falls on an
LCLK edge (every 8 TCLK are 5 LCLK of 1.6 TCLK), with the tile's calibrated skew and, in fs, what lies between that LCLK edge
and the anchor edge at the balls: the divider's phase and the transmit clock path (log entry 67). -/
def State.edgeTime (s : State) (port edge : Nat) : Int :=
  ((s.edges ((8 - s.time.tclk % 8) % 8)).now * 8000000 / nsU + 8 * (s.item (skewKey (port / 32))).applied + 8 * (edge : Int)) % phT

/-- Whether φ moved from the last beat's by more than SLIP_PS (R338). -/
def State.beatSlips (s : State) (port : Nat) (phi : Int) : Bool :=
  match (s.phase port).phi.getLast? with
  | some q => decide (((s.phase port).slipPs * 8000 : Nat) < (phWrap (phi - q)).natAbs)
  | none => false

/-- The beat is added to the port's window. -/
def State.addBeat (s : State) (port : Nat) (phi : Int) (edge : Nat) (slip : Bool) : State :=
  s.upPhase port (fun x => { x with
    phi := x.phi ++ [phi], edge := x.edge ++ [s.edgeTime port edge], slip := x.slip || slip })

/-- φ of the beat at which the sampled streams change. -/
def State.phiOf (s : State) (port : Nat) (rx tx : Sampled) : Int :=
  s.beatPhi port (transition (s.phase port).deglitch rx.count rx.runs) (transition (s.phase port).deglitch tx.count tx.runs)

/-- PHASE_BEAT (R332–R335, R338); `edge` in fs as for `State.edgeTime`.  Without LCLK there is no offset clock. -/
def execPhaseBeat (port : Nat) (rx tx : Sampled) (edge : Nat) (s : State) : Answer State :=
  .next (if !(s.phase port).running || !s.lclk then s
    else if s.beatSlips port (s.phiOf port rx tx) then
      ((s.addBeat port (s.phiOf port rx tx) edge true).countE (group 0 port) 34).portNotice port
    else s.addBeat port (s.phiOf port rx tx) edge false)

/-- Beats unwrapped from the window's first (R336). -/
def unwrap : List Int → List Int
  | [] => []
  | x :: t => (t.foldl (fun (a : Int × List Int) y =>
      let u := a.1 + phWrap (y - a.1)
      (u, u :: a.2)) (x, [x])).2.reverse

/-- The mean of beats in 1/16 ps, modulo T (R336; log entry 32). -/
def phMean (l : List Int) : Nat :=
  let u := unwrap l
  (roundDiv (u.foldl (· + ·) 0) (500 * max 1 u.length) % phT16).toNat

/-- The drift of φ over the beats, and the time between the first and the last, both in eighths of a femtosecond. -/
def phDrift (l : List Int) : Int × Int :=
  let u := unwrap l
  (u.getLastD 0 - u.headD 0, max 1 (u.length - 1) * 838860800000)

/-! ### Firmware's resolution (R342–R345) -/

/-- The nearest integer, halves away from zero. -/
def roundAway (a b : Int) : Int := if a < 0 then -((2 * (-a) + b) / (2 * b)) else (2 * a + b) / (2 * b)

/-- The fine offset of R344 (log entry 32 for its rounding to 1/16 ps): θ, μ and the period chosen; none is AMBIG. -/
def fineOffset (t : PartnerTlv) (phiB edgeB : Nat) (txdB rxdB alpha muC thetaC : Int) : Option (Int × Int × Int) :=
  let m := ((t.phase : Int) + phiB) % phT16
  let k := roundAway (muC - m) phT16
  let mu := m + phT16 * k
  if decide (25600 < (mu - muC).natAbs) then none
  else
    let fib := mu - (t.txd * 16 + t.rxd * 16 + txdB * 16 + rxdB * 16)
    let dAb := t.txd * 16 + roundDiv (fib * (2 ^ 40 + alpha)) (2 ^ 41 + alpha) + rxdB * 16
    let th := ((edgeB : Int) + phiB - t.edge - dAb) % phT16
    let th := th + phT16 * roundAway (thetaC - th) phT16
    if decide (25600 < (th - thetaC).natAbs) then none else some (th, mu, k)

/-- The fine offset that port `p`'s window and the partner's give. -/
def State.fine (s : State) (p : Nat) (t : PartnerTlv) (w : WindowIn) : Option (Int × Int × Int) :=
  fineOffset t (s.getF TPL_PH_PHASE.PHASE p) (s.getF TPL_PH_EDGE.EDGE p) (signed 20 (s.getF TPL_LNK_TXD.TXD p))
    (signed 20 (s.getF TPL_LNK_RXD.RXD p)) (signed 32 (s.getF TPL_LNK_ALPHA.ALPHA p)) w.muC w.thetaC

/-- SERVICE of port `p`. -/
def State.setService (s : State) (p v : Nat) : State := s.setF TPL_PH_STAT.SERVICE v p

/-- What firmware shows of a port whose phase service has no result yet (R329): WAIT, or UNAVAILABLE in a mode without an
anchor. -/
def State.showService (s : State) (p : Nat) : State :=
  if !s.fwRuns || !s.isF TPL_PH_PORT.PH_EN p then s
  else s.setService p (if hasAnchor (s.portMode p) (s.getF TIL_PORT_CFG.FEC p) then 1 else 5)

/-- Port `p` returns to RESOLVE, its agreement starting afresh (R345). -/
def State.resolve (s : State) (p : Nat) (mus : List Int) : State :=
  (s.upPhase p (fun x => { x with mus := mus, ambig := 0 })).setService p 2

/-- Whether four round trips agree within 100 ps (R345). -/
def agree4 (l : List Int) : Bool :=
  decide (4 ≤ l.length) &&
  (l.take 4).all (fun a => (l.take 4).all (fun b => decide ((a - b).natAbs ≤ 1600)))

/-- A fine result of port `p` (R344, R345): in ACTIVE, on the slave port, and where TIME_CFG lets DPLL0 use it, it is
reference 25's. -/
def State.fineResult (s : State) (p : Nat) (r : Int × Int × Int) (slave : Bool) : State :=
  let x := s.phase p
  let moved := match x.period with | some k => k != r.2.2 | none => false
  let s := s.upPhase p (fun x => { x with period := some r.2.2, ambig := 0 })
  if moved then s.resolve p [r.2.1]
  else
    let s := s.upPhase p (fun y => { y with mus := (r.2.1 :: x.mus).take 4 })
    let s := if s.getF TPL_PH_STAT.SERVICE p == 2 && agree4 (s.phase p).mus then s.setService p 3 else s
    if s.getF TPL_PH_STAT.SERVICE p == 3 && slave && !bit (s.port p).ptp.flags 3 && bit (dw s.time.cfg 0) 18 then s.deliverOffset (roundDiv (-r.1) 16) else s

/-- An AMBIG window (R344, R345). -/
def State.ambigResult (s : State) (p : Nat) : State :=
  let s := s.countS (group 0 p) 37
  let s := s.upPhase p (fun x => { x with ambig := x.ambig + 1, mus := [] })
  if decide (8 ≤ (s.phase p).ambig) then s.resolve p [] else s

/-- Firmware transfers time over port `p` with stamps alone, and SERVICE says `why` (R329, R343). -/
def State.stampsAlone (s : State) (p why : Nat) : State :=
  (s.upPhase p (fun x => { x with mus := [], ambig := 0, back := 0 })).setService p why

/-- A window with VALID 0 (R329, R345): stamps alone until the next valid one, with the RESOLVE or ACTIVE that this takes up
again; after an alignment loss it is RESOLVE (log entry 67). -/
def State.invalidWindow (s : State) (p : Nat) (align : Bool) : State :=
  let st := s.getF TPL_PH_STAT.SERVICE p
  let keep := if align then 2 else if st == 2 || st == 3 then st else (s.phase p).back
  (s.upPhase p (fun x => { x with mus := [], back := keep })).setService p 4

/-- A valid window takes up the service that it finds: RESOLVE at first (R345). -/
def State.validWindow (s : State) (p : Nat) : State :=
  let st := s.getF TPL_PH_STAT.SERVICE p
  if st == 2 || st == 3 then s
  else if (s.phase p).back == 3 then (s.upPhase p (fun x => { x with back := 0 })).setService p 3
  else (s.resolve p []).upPhase p (fun x => { x with back := 0 })

/-- The partner's most recent valid window that ended within one window length of this instant (R344). -/
def State.partnerWindow (s : State) (p : Nat) : Option PartnerTlv :=
  (s.phase p).tlvs.find? (fun t => t.valid &&
    decide ((t.endNs * nsU - s.now).natAbs ≤ (s.phase p).avg * 1048576 * nsU.natAbs))

/-- What firmware makes of a window (R151, R329, R343–R345). -/
def State.fwWindow (s : State) (p : Nat) (valid align : Bool) (w : WindowIn) : State :=
  if !s.fwRuns then s
  else
    let s := s.upPhase p (fun x => { x with
      fresh := x.fresh || w.fresh, tlvs := match w.partner with | some t => (t :: x.tlvs).take 4 | none => [] })
    if s.portState p != 5 || !(s.phase p).fresh then s.stampsAlone p 1
    else
      match w.partner with
      | none => s.stampsAlone p 4
      | some t =>
        let flags := (s.port p).ptp.flags
        if !bit flags 0 || (bit flags 4 && !t.synt) then s.stampsAlone p 4
        else if !valid then s.invalidWindow p align
        else
          let s := s.validWindow p
          match s.partnerWindow p with
          | none => s.upPhase p (fun x => { x with mus := [] })
          | some t =>
            match s.fine p t w with
            | some r => s.fineResult p r w.slave
            | none => s.ambigResult p

/-- The TLV that port `p` sends for the window that ends (R343). -/
def State.ownTlv (s : State) (p : Nat) (valid : Bool) : PartnerTlv :=
  { phase := s.getF TPL_PH_PHASE.PHASE p, edge := s.getF TPL_PH_EDGE.EDGE p, valid := valid, synt := s.dpllState 1 == 1,
    txd := signed 20 (s.getF TPL_LNK_TXD.TXD p), rxd := signed 20 (s.getF TPL_LNK_RXD.RXD p),
    winSeq := s.getF TPL_PH_STAT.WIN_SEQ p, endNs := s.now / nsU }

/-- Firmware sends its own result to the link partner (R343) where PTP runs on the port. -/
def State.sendTlv (s : State) (p : Nat) (valid : Bool) : State :=
  if s.fwRuns && bit (s.port p).ptp.flags 0 then s.emit (.phaseTlv p (s.ownTlv p valid)) else s

/-- PHASE_WINDOW_END (R336, R338, R344, R345): the window is delivered and the next begins. -/
def execPhaseWindowEnd (port : Nat) (w : WindowIn) (s : State) : Answer State :=
  .next (let x := s.phase port
    if !x.running || decide (x.updates < x.avg) || x.phi.isEmpty then s
    else
      let d := phDrift x.phi
      let notSynt := decide ((x.syntPpb : Int) * d.2 < d.1.natAbs * 1000000000)
      let valid := !(x.slip || x.align || notSynt || x.disc || x.stale)
      let s := (s.setF TPL_PH_STAT.VALID (flag valid) port).setF TPL_PH_STAT.STALE (flag x.stale) port
      let s := (s.setF TPL_PH_STAT.NOT_SYNT (flag notSynt) port).setF TPL_PH_STAT.SLIP (flag x.slip) port
      let s := (s.setF TPL_PH_STAT.ALIGN_LOSS (flag x.align) port).setF TPL_PH_STAT.DISC (flag x.disc) port
      let s := s.setF TPL_PH_STAT.WIN_SEQ (s.getF TPL_PH_STAT.WIN_SEQ port + 1) port
      let s := if valid then
          let r := clampI (-32768) 32767 (roundDiv (d.1 * 100000000000) d.2)
          ((s.setF TPL_PH_PHASE.PHASE (phMean x.phi) port).setF TPL_PH_EDGE.EDGE (phMean x.edge) port).setF
            TPL_PH_DRIFT.RATE (unsign 16 r) port
        else s
      let s := if notSynt || x.disc || x.stale then s.countS (group 0 port) 36 else s
      ((s.sendTlv port valid).fwWindow port valid x.align w).startWindow port)

/-- An alignment loss returns a port in RESOLVE or ACTIVE to RESOLVE (R345), its agreement starting afresh. -/
def State.alignResolve (s : State) (p : Nat) : State :=
  let st := s.getF TPL_PH_STAT.SERVICE p
  if !s.fwRuns then s
  else if st == 2 || st == 3 then s.resolve p []
  else s.upPhase p (fun x => { x with mus := [], back := min x.back 2 })

/-- ALIGNMENT_LOSS (R331, R345). -/
def execAlignmentLoss (port : Nat) (s : State) : Answer State :=
  .next (if s.portState port != 5 || !hasAnchor (s.portMode port) (s.getF TIL_PORT_CFG.FEC port) then s
    else
      let s := (s.upPhase port (fun x => { x with align := true })).setF TPL_PH_STAT.ALIGN_LOSS 1 port
      ((s.countE (group 0 port) 35).portNotice port).alignResolve port)

/-! ### PH_EN (R329, R330, R360) -/

/-- PH_EN_SET (R360): low-power idle is no longer available on the port (R133). -/
def execPhEnSet (path : Path) (port : Nat) (s : State) : Answer State :=
  .next (if !s.pfMay path || s.isF TPL_PH_PORT.PH_EN port || s.portUnused port then s
    else
      let s := (s.setF TPL_PH_PORT.PH_EN 1 port).awaitWindow port
      let s := (s.setF TIL_PORT_STAT.TX_LPI 0 port).setF TIL_PORT_STAT.RX_LPI 0 port
      s.showService port)

/-- PH_EN_CLEAR (R360). -/
def execPhEnClear (path : Path) (port : Nat) (s : State) : Answer State :=
  .next (if !s.pfMay path || !s.isF TPL_PH_PORT.PH_EN port then s
    else
      let s := s.setF TPL_PH_PORT.PH_EN 0 port
      ((s.upPhase port (fun _ => {})).setF TPL_PH_STAT.VALID 0 port).setService port 0)

end Sys2Proof.Machine
end

