-- ==== Sys2Proof/Machine/Tiu.lean ====
section
/-!
DEFINITION. The time-interval unit (R348–R358).  An input edge, before the prescaler (R353), is given in bins of 62.5 ps, 64
to a TCLK cycle, and its place in the bin in units of 2^-10 ns, in which results are.
-/

namespace Sys2Proof.Machine

def State.tiuState (s : State) (c : Nat) : Nat := s.getF TPL_TIU_STAT.STATE c
def State.tiuMode (s : State) (c : Nat) : Nat := s.getF TPL_TIU_CFG.MODE c

/-- Whether a GO is refused (R349, R350, R356): a reserved mode or source; PERIOD ignores STOP_SRC. -/
def State.tiuBad (s : State) (c : Nat) : Bool :=
  s.tiuMode c == 3 || decide (53 ≤ s.getF TPL_TIU_CFG.START_SRC c) ||
  (s.tiuMode c != 1 && decide (53 ≤ s.getF TPL_TIU_CFG.STOP_SRC c))

/-- Whether a host write on `path` reaches channel `c` (R348). -/
def State.tiuMay (s : State) (path : Path) (c : Nat) : Bool := s.pfMay path && decide (c < 12)

/-- A number below 2^`n` that the spec does not state, nothing being drawn where 0 is the only one. -/
def State.drawBelow (s : State) (n : Nat) : Nat × State := if n = 0 then (0, s) else (s.draw.1 % 2 ^ n, s.draw.2)

/-- A run starts on channel `c`: each prescaler at an arbitrary edge of its input (R353). -/
def State.tiuStart (s : State) (c : Nat) : State :=
  let a := s.drawBelow (s.getF TPL_TIU_CFG.PRE_START c)
  let b := a.2.drawBelow (s.getF TPL_TIU_CFG.PRE_STOP c)
  b.2.upTiu c (fun x => { preStart := a.1, preStop := b.1, dith := x.dith })

/-- GO (R353, R356). -/
def execGo (path : Path) (ch : Nat) (s : State) : Answer State :=
  .next (if !s.tiuMay path ch || s.tiuState ch == 1 then s
    else
      let s := (s.setF TPL_TIU_STAT.COUNT 0 ch).setF TPL_TIU_STAT.STEP_ABORT 0 ch
      let s := (s.setF TPL_TIU_ERR.TIMEOUTS 0 ch).setF TPL_TIU_ERR.DEAD_MISS 0 ch
      let s := s.setF TPL_TIU_STAT.CFG_ERR (flag (s.tiuBad ch)) ch
      if s.tiuBad ch then s.setF TPL_TIU_STAT.STATE 3 ch
      else (s.tiuStart ch).setF TPL_TIU_STAT.STATE 1 ch)

/-- ABORT (R356). -/
def execAbort (path : Path) (ch : Nat) (s : State) : Answer State :=
  .next (if s.tiuMay path ch && s.tiuState ch == 1 then s.setF TPL_TIU_STAT.STATE 3 ch else s)

/-- N = 2^NLOG2, NLOG2 at most 20. -/
def State.tiuN (s : State) (c : Nat) : Nat := 2 ^ min 20 (s.getF TPL_TIU_CFG.NLOG2 c)

/-- The run of channel `c` is complete (R357; log entry 32 for MEAN and DEV). -/
def State.tiuDone (s : State) (c : Nat) : State :=
  let x := s.tiu c
  let mean := unsign 64 (roundDiv (x.sum * 64) (max 1 x.n))
  let var := ((x.sumSq * x.n - x.sum * x.sum) * 4096 / ((max 1 x.n : Nat) * (max 1 (x.n - 1) : Nat) : Int)).toNat
  let dev := if x.n ≤ 1 then 0 else sqrtFloor 80 var 0
  let mn := unsign 48 x.min
  let mx := unsign 48 x.max
  let s := (s.setF TPL_TIU_MEAN_LO.MEAN mean c).setF TPL_TIU_MEAN_HI.MEAN (mean / 2 ^ 32) c
  let s := (s.setF TPL_TIU_DEV_LO.DEV dev c).setF TPL_TIU_DEV_HI.DEV (dev / 2 ^ 32) c
  let s := (s.setF TPL_TIU_MIN_LO.MIN mn c).setF TPL_TIU_MIN_HI.MIN (mn / 2 ^ 32) c
  let s := (s.setF TPL_TIU_MAX_LO.MAX mx c).setF TPL_TIU_MAX_HI.MAX (mx / 2 ^ 32) c
  s.setF TPL_TIU_STAT.STATE 2 c

/-! ### Dither (R355) -/

/-- The order that the choices `pick` make of the values `l`: at each place, one of those left. -/
def orderOf (pick : Nat → Nat) : Nat → List Nat → List Nat
  | 0, _ => []
  | n + 1, l =>
    let v := l.getD (pick n % max 1 l.length) 0
    v :: orderOf pick n (l.filter (· != v))

/-- The fixed order in which the start path's delay takes the 64 values. -/
def ditherOrder : List Nat := orderOf Config.ditherPick 64 (List.range 64)

/-- The value in force for channel `c`'s next measurement, in units of 2^-10 ns. -/
def State.dither (s : State) (c : Nat) : Nat :=
  if s.isF TPL_TIU_CFG.DITHER c then ditherOrder.getD ((Config.ditherFirst c + (s.tiu c).dith) % 64) 0 else 0

/-! ### Results -/

/-- A result (R356, R357). -/
def State.tiuResult (s : State) (c : Nat) (v : Int) : State :=
  let s := s.upTiu c (fun x => { x with
    n := x.n + 1, sum := x.sum + v, sumSq := x.sumSq + v * v,
    min := if x.n = 0 then v else min x.min v, max := if x.n = 0 then v else max x.max v })
  let s := (s.setF TPL_TIU_LAST_LO.LAST (unsign 48 v) c).setF TPL_TIU_LAST_HI.LAST (unsign 48 v / 2 ^ 32) c
  let s := s.setF TPL_TIU_STAT.COUNT (s.tiu c).n c
  if s.tiuN c ≤ (s.tiu c).n then s.tiuDone c else s

/-- The delay of source `src` to its sampler as Temper has it applied, in fs (R349, R489). -/
def State.tiuDelay (s : State) (src : Nat) : Int := (s.item (tiuKey src)).applied

/-- What Temper's delays of channel `c`'s stop and start sources add to an interval, in units of 2^-10 ns (R349). -/
def State.tiuFix (s : State) (c : Nat) : Int :=
  roundDiv ((s.tiuDelay (s.getF TPL_TIU_CFG.START_SRC c) - s.tiuDelay (s.getF TPL_TIU_CFG.STOP_SRC c)) * 1024) 1000000

/-- The serving time of a start edge of channel `c` sampled `bins` sixty-fourths after this TCLK edge, at the point that its
source refers to and without the dither `k`, less the nearest second boundary, in units of 2^-10 ns (R313, R349, R350). -/
def State.tiuTime (s : State) (c bins k : Nat) : Int :=
  let at_ := if bins < 64 then s.rawStamp bins else (s.edges 1).rawStamp bins
  let t := at_ - s.tiuDelay (s.getF TPL_TIU_CFG.START_SRC c) * (nsU / 1000000) - (k : Int) * (nsU / 1024)
  let sec := 1000000000 * nsU
  let d := t % sec
  (if 2 * d ≤ sec then d else d - sec) * 1024 / nsU

/-- WIN_MAX in ns, as it acts. -/
def State.tiuWinMax (s : State) (c : Nat) : Nat :=
  if s.getF TPL_TIU_WMAX.WIN_MAX c = 0 then 4294967295 else s.getF TPL_TIU_WMAX.WIN_MAX c

/-- An edge within 20 ns of the input's last accepted one (R352). -/
def deadTime (last : Option Int) (t : Int) : Bool := match last with | some l => decide (t < l + 320) | none => false

/-- A stop edge at bin `t` (R352, R354): with one source for both inputs, the edge that started the measurement does not stop
it. -/
def State.tiuStopEdge (s : State) (c : Nat) (t : Int) : State :=
  let x := s.tiu c
  if s.tiuMode c != 0 then s
  else if deadTime x.lastStop t then s.addF TPL_TIU_ERR.DEAD_MISS 1 c
  else
    match x.start with
    | some t0 =>
      let d := t * 64 - t0
      if decide (d < 1024 * s.getF TPL_TIU_WMIN.WIN_MIN c) || decide (1024 * s.tiuWinMax c < d) ||
          (s.getF TPL_TIU_CFG.START_SRC c == s.getF TPL_TIU_CFG.STOP_SRC c && x.lastStart == some t) then s
      else (s.upTiu c (fun x => { x with start := none, lastStop := some t })).tiuResult c (d + s.tiuFix c)
    | none => s

/-- A start edge `sub` units of 2^-10 ns into bin `bins` of TCLK cycle `tclk` (R350, R352, R355): the dither delays it
before it is sampled, and is taken out of the result again (log entry 38). -/
def State.tiuStartEdge (s : State) (c tclk bins sub : Nat) : State :=
  let x := s.tiu c
  let t : Int := (tclk : Int) * 64 + bins
  let k := s.dither c
  let late := (sub + k) / 64
  let mark : Int := (t + late) * 64 - k
  if deadTime x.lastStart t then s.addF TPL_TIU_ERR.DEAD_MISS 1 c
  else if s.tiuMode c = 2 then
    (s.upTiu c (fun x => { x with lastStart := some t, dith := x.dith + 1 })).tiuResult c (s.tiuTime c (bins + late) k)
  else
    match x.start with
    | some t0 =>
      if s.tiuMode c = 0 then s
      else
        (s.upTiu c (fun x => { x with start := some mark, lastStart := some t, dith := x.dith + 1 })).tiuResult c (mark - t0)
    | none => s.upTiu c (fun x => { x with start := some mark, lastStart := some t, dith := x.dith + 1 })

/-- TIU_EDGE (R350–R354): an input edge in TCLK cycle `tclk`; the prescaler lets every 2nd, 4th or 8th edge through. -/
def execTiuEdge (ch : Nat) (stop : Bool) (tclk : Nat) (e : BinEdge) (s : State) : Answer State :=
  .next (if s.tiuState ch != 1 then s
    else
      let s := s.edges (tclk - s.time.tclk)
      let x := s.tiu ch
      if stop then
        if x.preStop != 0 then s.upTiu ch (fun x => { x with preStop := x.preStop - 1 })
        else
          (s.upTiu ch (fun x => { x with preStop := 2 ^ s.getF TPL_TIU_CFG.PRE_STOP ch - 1 })).tiuStopEdge ch
            ((tclk : Int) * 64 + e.bin)
      else if x.preStart != 0 then s.upTiu ch (fun x => { x with preStart := x.preStart - 1 })
      else
        (s.upTiu ch (fun x => { x with preStart := 2 ^ s.getF TPL_TIU_CFG.PRE_START ch - 1 })).tiuStartEdge ch tclk e.bin e.sub)

/-- TIU_TIMEOUT (R354). -/
def execTiuTimeout (ch : Nat) (s : State) : Answer State :=
  .next (if s.tiuState ch == 1 && s.tiuMode ch == 0 && (s.tiu ch).start.isSome then
      (s.upTiu ch (fun x => { x with start := none })).addF TPL_TIU_ERR.TIMEOUTS 1 ch
    else s)

/-- A step ends the TIME-mode runs (R358). -/
def State.tiuStep (s : State) : State :=
  (List.range 16).foldl (fun s c =>
    if s.tiuState c == 1 && s.tiuMode c == 2 then
      (s.setF TPL_TIU_STAT.STATE 3 c).setF TPL_TIU_STAT.STEP_ABORT 1 c
    else s) s

end Sys2Proof.Machine
end

