-- ==== Sys2Proof/Machine/Temper.lean ====
section
/-!
DEFINITION. Temper (R489–R503, R517): calibration runs, confirmation, and the gradual entry of corrections.  What a
measurement yields is free (log entry 5), except the PATH level's, which PATH_STEP carries; all are in femtoseconds.
-/

namespace Sys2Proof.Machine

/-! ### Items (R489) -/

def State.upItem (s : State) (k : Nat) (f : Item → Item) : State :=
  { s with temper := { s.temper with items := Tab.update s.temper.items k {} f } }

/-- The part of unit 8 (R498): written as lane 256. -/
def timingPart : Nat := 256

/-- The items that a lane part measures (R489, R498; log entry 41). -/
def State.partItems (s : State) (l : Nat) : List Nat :=
  if l = timingPart then
    (List.range 53).map tiuKey ++ (List.range 8).map tickKey ++ (List.range 8).map clkKey
  else
    match s.laneOwner l with
    | some p =>
      let m := s.portMode p
      [txKey p m, rxKey p m] ++ (if l = p then [pdKey p m] else [])
    | none => []

/-- Whether a lane has a part (R498, R503, R511): it belongs to a port, is not gated, and its tile is in service. -/
def State.lanePart (s : State) (l : Nat) : Bool :=
  l == timingPart || ((s.laneOwner l).isSome && !(s.lane l).gated && (s.fence (l / 32)).st == 0)

/-- The lanes of unit `u` in mask `m`. -/
def unitLanes (u m : Nat) : List Nat := if u = 8 then [timingPart] else (bitsSet 32 m).map (fun l => u * 32 + l)

/-! ### Temperature and voltage (R494, R500) -/

/-- The sensors of a unit (R512). -/
def unitSensors (u : Nat) : List Nat :=
  if u = 8 then [56, 57, 58, 59] else (List.range 6).map (fun i => 6 * u + i)

/-- Sum and number of a unit's valid readings, in 0.25 °C. -/
def State.unitTemp (s : State) (u : Nat) : Int × Nat :=
  (unitSensors u).foldl (fun a i =>
    if s.isF PWR_SENSOR.VALID i then (a.1 + signed 10 (s.getF PWR_SENSOR.TEMP i), a.2 + 1) else a) (0, 0)

/-- Whether the unit's mean lies further than DT from T_LAST. -/
def State.tempMoved (s : State) (u : Nat) : Bool :=
  let t := s.unitTemp u
  decide (t.2 * 2 * max 1 s.temper.dt < (t.1 - t.2 * signed 10 (s.getF TMP_UNIT_T.T_LAST u)).natAbs)

/-- Whether the core target lies further than 10 mV from V_LAST. -/
def State.voltMoved (s : State) (u : Nat) : Bool :=
  decide (10 < ((s.getF PWR_AVS_STAT.VCORE_MV : Int) - s.getF TMP_UNIT_V.V_LAST u).natAbs)

/-- Whether unit `u` has had a confirmed run. -/
def State.calibrated (s : State) (u : Nat) : Bool := (Tab.get? s.temper.confirmedAt u).isSome

/-- DT_OK of every unit (R500). -/
def State.judgeDt (s : State) : State :=
  s.setF TMP_STAT.DT_OK (maskOf ((List.range 9).filter (fun u => s.calibrated u && !s.tempMoved u && !s.voltMoved u)))

/-! ### Runs (R494, R495, R499) -/

/-- A trigger (R494, R495): it merges into a run that is pending; a repeat that waits is superseded. -/
def State.trigger (s : State) (u m : Nat) : State :=
  { s with temper := { s.temper with
    pending := Tab.update s.temper.pending u 0 (fun x => x ||| m), repeats := Tab.erase s.temper.repeats u } }

/-- All lanes of a unit. -/
def allLanes : Nat := 0xFFFFFFFF

def State.temperOn (s : State) : Bool := s.getF TMP_STAT.STATE != 3

/-- TEMPER_RUN starts its TRACE when its other levels have ended, and completes when all have (R493, R497). -/
def State.checkRun (s : State) : State :=
  if s.fw.temper.isNone || s.temper.fixedLeft != 0 || s.temper.pathLeft != 0 || s.temper.trace then s
  else if s.temper.traceDue then
    if s.temper.unit.isSome then s
    else ({ s with temper := { s.temper with trace := true, traceDue := false } }).setF TMP_STAT.STATE 2
  else s.endTemperRun stOk s.temper.cmdRun (if s.temper.traceFailed then 0xFFFFFFFF else s.temper.cmdUnconf)

/-- A run ends (R499). -/
def State.endRun (s : State) : State :=
  match s.temper.unit with
  | none => s
  | some u =>
    let n := s.temper.unconf
    let s := s.setF TMP_RUN.UNCONFIRMED (sat 255 n)
    let s := { s with temper := { s.temper with
      unit := none, lanes := [], part := none, open_ := [],
      cmdUnconf := s.temper.cmdUnconf + (if bit s.temper.fixedLeft u then n else 0),
      fixedLeft := putBit s.temper.fixedLeft u false } }
    let s := (s.setF TMP_RUN.UNIT 15).setF TMP_STAT.STATE 0
    let s := if n = 0 then
        let t := s.unitTemp u
        let s := s.setF TMP_UNIT_T.T_LAST (unsign 10 (roundDiv t.1 (max 1 t.2))) u
        let s := s.setF TMP_UNIT_V.V_LAST (s.getF PWR_AVS_STAT.VCORE_MV) u
        { s with temper := { s.temper with
          confirmedAt := Tab.set s.temper.confirmedAt u s.time.tclk, repeats := Tab.erase s.temper.repeats u,
          moved := putBit s.temper.moved u false } }
      else { s with temper := { s.temper with repeats := Tab.update s.temper.repeats u 0 (· + 1) } }
    s.judgeDt.checkRun

/-- The unit whose pending run starts next (R495, R502). -/
def State.nextUnit (s : State) : Option (Nat × Nat) :=
  match s.temper.pending.find? (fun e => bit s.temper.first e.1) with
  | some e => some e
  | none => s.temper.pending.head?

/-- The next pending run starts when none is in progress (R495); a run without lanes ends at once. -/
def State.nextRun (s : State) : Nat → State
  | 0 => s
  | k + 1 =>
    if !s.temperOn || s.temper.unit.isSome || s.temper.trace then s
    else
      match s.nextUnit with
      | none => s
      | some (u, m) =>
        let lanes := (unitLanes u m).filter (fun l => s.lanePart l)
        let d := s.draw
        let s := d.2.setF TMP_RUN.RUN_ID d.1
        let s := (s.setF TMP_RUN.UNIT u).setF TMP_STAT.STATE 1
        let s := { s with temper := { s.temper with
          unit := some u, lanes := lanes, part := none, unconf := 0, pending := Tab.erase s.temper.pending u,
          first := putBit s.temper.first u false,
          seen := (unitLanes u m).foldl (fun t l => Tab.erase t l) s.temper.seen } }
        if lanes.isEmpty then s.endRun.nextRun k else s

/-- Triggers have been noted: a run may start. -/
def State.runTemper (s : State) : State := s.nextRun 10

/-- The automatic triggers (R494): a unit is triggered when it is first seen to have moved from its last confirmed run, for
after three repeats an unconfirmed unit waits for its next trigger (R499; log entry 57). -/
def State.autoTrigger (s : State) : State :=
  let moved := if s.isF TMP_CFG.AUTO_EN then
      maskOf ((List.range 9).filter (fun u => s.calibrated u && (s.tempMoved u || s.voltMoved u)))
    else 0
  let new := (bitsSet 9 moved).filter (fun u => !bit s.temper.moved u)
  (new.foldl (fun (s : State) u => s.trigger u allLanes) { s with temper := { s.temper with moved := moved } }).runTemper

/-- Port `p` has entered HOLDOFF: a run of its lanes where its MODE was not measured at the unit's last run (R494). -/
def State.holdoffTrigger (s : State) (p : Nat) : State :=
  let m := s.portMode p
  if (s.portLanes p).all (fun l => Tab.getD s.temper.seen l 0 == m + 1) then s
  else (s.trigger (p / 32) (maskOf ((s.portLanes p).map (fun l => l % 32)))).runTemper

/-- A unit leaves a fence: its lanes are measured anew as their ports enter HOLDOFF (R494). -/
def State.forgetUnit (s : State) (u : Nat) : State :=
  { s with temper := { s.temper with seen := s.temper.seen.filter (fun e => e.1 / 32 != u) } }

/-- Temper resumes when nothing suspends it any longer (R502). -/
def State.temperResume (s : State) : State :=
  if s.temperOn || !s.fw.running || (s.fence 8).st != 0 || (s.fence 9).st != 0 then s
  else
    let s := (s.setF TMP_STAT.STATE 0).judgeDt
    let due := (List.range 9).filter (fun u => !bit (s.getF TMP_STAT.DT_OK) u)
    let s := due.foldl (fun s u => s.trigger u allLanes) s
    ({ s with temper := { s.temper with first := maskOf due } }).runTemper

/-! ### Measurement and confirmation (R498, R499) -/

/-- A measurement of item `k`: 0 unsettled, 1 confirmed, 2 given up; `keep` lets the last measurement count again (the
PATH level's runs follow each other without a break). -/
def State.measure (s : State) (k : Nat) (m : Int) (keep : Bool) : State × Nat :=
  let l := m :: (s.item k).meas
  match l with
  | a :: b :: _ =>
    if (a - b).natAbs ≤ 1000 * max 1 s.temper.rep then
      (s.upItem k (fun x => { x with target := some ((a + b) / 2), meas := if keep then [a] else [] }), 1)
    else if 2 + s.temper.retry ≤ l.length then
      let d := s.draw
      let s := (d.2.upItem k (fun x => { x with meas := [] })).setF TMP_HIST.REPEAT_FAIL 1
      (s.raiseOnce 0x1C0 (d.1 % 4294967296), 2)
    else (s.upItem k (fun x => { x with meas := l }), 0)
  | _ => (s.upItem k (fun x => { x with meas := l }), 0)

/-- What a confirmed TICK or CLKOUT delay shows (R490). -/
def State.reportDelay (s : State) (k : Nat) : State :=
  match (s.item k).target with
  | some t =>
    let ps := unsign 16 (roundDiv t 1000)
    if k / 65536 = 7 then s.setF TMP_TICK_DLY.DLY ps (k % 65536)
    else if k / 65536 = 8 then s.setF TMP_CLKOUT_DLY.DLY ps (k % 65536)
    else s
  | none => s

/-- REPEAT_PS, RETRY and DT are taken (R517). -/
def State.takeTemperCfg (s : State) : State :=
  { s with temper := { s.temper with
    dt := s.getF TMP_CFG.DT, rep := s.getF TMP_CFG.REPEAT_PS, retry := s.getF TMP_CFG.RETRY } }

/-- Port `p`'s pair is held at its applied values (R498); its phase window is STALE (R338). -/
def State.holdPort (s : State) (p : Nat) : State :=
  if s.temper.hold.contains p then s
  else
    let i := p * 16 + s.portMode p
    let s := { s with temper := { s.temper with
      hold := p :: s.temper.hold,
      pairs := Tab.set (Tab.set s.temper.pairs i (s.getF TPL_STC_TX.TX_CORR i)) (65536 + i) (s.getF TPL_STC_RX.RX_CORR i) } }
    s.upPhase p (fun x => { x with stale := true })

/-- Port `p`'s hold ends: its pair stands as it was held (R328). -/
def State.releasePort (s : State) (p : Nat) : State :=
  let mine := s.temper.pairs.filter (fun e => e.1 % 65536 / 16 == p)
  let s := mine.foldl (fun s e =>
    if e.1 < 65536 then s.setF TPL_STC_TX.TX_CORR e.2 e.1 else s.setF TPL_STC_RX.RX_CORR e.2 (e.1 % 65536)) s
  { s with temper := { s.temper with
    hold := s.temper.hold.filter (fun q => q != p),
    pairs := s.temper.pairs.filter (fun e => e.1 % 65536 / 16 != p) } }

/-- A lane part starts (R498); lanes that have none any more are passed over, and the run ends behind the last. -/
def State.startPart (s : State) : Nat → State
  | 0 => s
  | k + 1 =>
    match s.temper.unit, s.temper.part, s.temper.lanes with
    | some _, none, l :: rest =>
      if !s.lanePart l then ({ s with temper := { s.temper with lanes := rest } }).startPart k
      else
        let s := s.takeTemperCfg
        let s := match s.laneOwner l with | some p => if l = timingPart then s else s.holdPort p | none => s
        { s with temper := { s.temper with part := some l, open_ := s.partItems l } }
    | some _, none, [] => (s.endRun.runTemper).startPart k
    | _, _, _ => s

/-- A lane part ends (R498, R503): the port is released with its last lane. -/
def State.endPart (s : State) (l : Nat) (done : Bool) : State :=
  let rest := s.temper.lanes.drop 1
  let s := { s with temper := { s.temper with part := none, open_ := [], lanes := rest } }
  if l = timingPart then s
  else
    match s.laneOwner l with
    | some p =>
      let s := if done then
          { s with temper := { s.temper with seen := Tab.set s.temper.seen l (s.portMode p + 1) } }
        else s
      if rest.any (fun q => s.laneOwner q == some p) then s else s.releasePort p
    | none => (s.temper.hold).foldl (fun s p => s.releasePort p) s

/-- One measurement of every unsettled item of the lane part in progress (R498, R499). -/
def State.measurePart (s : State) : State :=
  match s.temper.part with
  | none => s
  | some l =>
    if !s.lanePart l then s.endPart l false
    else
      let s := s.temper.open_.foldl (fun s k =>
        let d := s.drawInt
        let r := d.2.measure k d.1 false
        let s := r.1
        if r.2 = 0 then s
        else
          let s := { s with temper := { s.temper with
            open_ := s.temper.open_.filter (fun x => x != k), unconf := s.temper.unconf + (if r.2 = 2 then 1 else 0) } }
          if r.2 = 1 then s.reportDelay k else s) s
      if s.temper.open_.isEmpty then s.endPart l true else s

/-! ### Entry (R501) -/

/-- `v` moved toward `goal` by at most `by_`. -/
def toward (v goal by_ : Int) : Int := clampI (v - by_) (v + by_) goal

/-- Whether item `k` enters now: PD_OFF of a port not held, skews, and the TIU inputs outside the timing-plane part. -/
def State.enters (s : State) (k : Nat) : Bool :=
  match k / 65536 with
  | 2 => !s.temper.hold.contains (k % 65536 / 16)
  | 5 => true
  | 6 => s.temper.part != some timingPart
  | _ => false

/-- The target in ps of a correction table entry (R489): fixed delay and path delay, once both are known, within what an
entry holds (log entry 41). -/
def State.pairTarget (s : State) (dir i : Nat) : Option Int :=
  match (s.item (dir * 65536 + i)).target, (s.item (pathKey (i / 512))).target with
  | some a, some b => some (clampI (-524288) 524287 (roundDiv (a + b) 1000))
  | _, _ => none

/-- Entry `i` of the correction table moves by at most 1 ps. -/
def State.movePair (s : State) (dir i : Nat) : State :=
  if (Tab.get? s.temper.pairs (dir * 65536 + i)).isSome then s
  else
    match s.pairTarget dir i with
    | none => s
    | some t =>
      if dir = 0 then s.setF TPL_STC_TX.TX_CORR (unsign 20 (toward (signed 20 (s.getF TPL_STC_TX.TX_CORR i)) t 1)) i
      else s.setF TPL_STC_RX.RX_CORR (unsign 20 (toward (signed 20 (s.getF TPL_STC_RX.RX_CORR i)) t 1)) i

/-- Every applied value moves toward its target (R501). -/
def State.temperEnter (s : State) : State :=
  let keys := (Tab.keys s.temper.items).eraseDups
  keys.foldl (fun s k =>
    if k < 131072 then s.movePair (k / 65536) (k % 65536)
    else if s.enters k then
      match (s.item k).target with
      | some t => s.upItem k (fun x => { x with applied := toward x.applied t 1000 })
      | none => s
    else s) s

/-- Whether an applied value differs from its target (ENTERING, R501). -/
def State.entering (s : State) : Bool :=
  (Tab.keys s.temper.items).any (fun k =>
    if k < 131072 then
      match s.pairTarget (k / 65536) (k % 65536) with
      | some t =>
        t != (if k < 65536 then signed 20 (s.getF TPL_STC_TX.TX_CORR k) else signed 20 (s.getF TPL_STC_RX.RX_CORR (k % 65536)))
      | none => false
    else
      (k / 65536 == 2 || k / 65536 == 5 || k / 65536 == 6) &&
      (match (s.item k).target with | some t => t != (s.item k).applied | none => false))

/-- Temper's part of a servo update (R498–R501): entry, measurement, the next lane part. -/
def State.temperServo (s : State) : State :=
  if !s.temperOn then s else (s.runTemper.temperEnter.measurePart).startPart 300

/-! ### Commands -/

/-- TEMPER_RETRY (R499): a run that left items unconfirmed is repeated, up to three times. -/
def execTemperRetry (unit : Nat) (s : State) : Answer State :=
  .next (let n := Tab.getD s.temper.repeats unit 0
    if !s.temperOn || n = 0 || decide (3 < n) then s
    else
      let t := s.trigger unit allLanes
      ({ t with temper := { t.temper with repeats := s.temper.repeats } }).runTemper)

/-- PATH_STEP (R496): one tile's sampler delay has been measured. -/
def execPathStep (tile : Nat) (m : Int) (s : State) : Answer State :=
  .next (if !s.temperOn || s.temper.trace || !(s.isF TMP_CFG.PATH_EN || bit s.temper.pathLeft tile) then s
    else
      let s := { s with temper := { s.temper with pathLeft := putBit s.temper.pathLeft tile false } }
      let s := if (s.fence tile).st == 0 then
          let r := s.measure (pathKey tile) m true
          let d := r.1.drawInt
          let q := d.2.measure (skewKey tile) d.1 true
          { q.1 with temper := { q.1.temper with cmdUnconf := q.1.temper.cmdUnconf + r.2 / 2 + q.2 / 2 } }
        else s
      s.checkRun)

/-- The calibration that a trace run has measured is in force, and stored in flash (R491–R493). -/
def State.setCal (s : State) (cal : TraceCal) : State :=
  { s with temper := { s.temper with cal := some cal }, flash := { s.flash with trace := true, cal := some cal } }

/-- TRACE_RUN_END (R491–R493): the run ends; what it measured is not stated (log entry 5), is in force from here on and is
stored in flash. -/
def execTraceRunEnd (ok : Bool) (s : State) : Answer State :=
  .next (if !s.temper.trace then s
    else if !ok || !s.traceRefs then s.dropTrace.runTemper
    else
      let s := ({ s with temper := { s.temper with trace := false, traceFailed := false } }).setF TMP_STAT.STATE 0
      let s := (s.setF TMP_STAT.TRACE_VALID 1).setF TMP_STAT.FACTORY_TRACE 0
      let a := s.drawInt
      let b := a.2.drawInt
      let cal : TraceCal := { edge := a.1, scale := b.1 }
      (b.2.setCal cal).checkRun.runTemper)

/-- TEMPER_OVERDUE (R500): DT_OK of a unit has stayed clear for 60 s. -/
def execTemperOverdue (unit : Nat) (s : State) : Answer State :=
  .next (if s.temperOn && !bit (s.getF TMP_STAT.DT_OK) unit then (s.setF TMP_HIST.OVERDUE 1).raiseOnce 0x1C2 else s)

/-- The tiles in service. -/
def State.tilesOpen (s : State) : Nat := maskOf ((List.range 8).filter (fun t => (s.fence t).st == 0))

/-- TEMPER_RUN (R497): it completes when the levels it names have ended. -/
def execTemperRun (c : Cmd) (s : State) : Answer State :=
  .next (s.fwCommand 0x90 c (fun s =>
    let m := c.a2.toNat
    if m = 0 ∨ 7 < m || (bit m 2 && !s.traceRefs) then s.done c stBadArg
    else if (s.fence 9).st != 0 then s.done c stFenced
    else if s.fw.temper.isSome then s.done c stBusy
    else
      let d := s.draw
      let s := d.2.setF TMP_RUN.RUN_ID d.1
      let s := { s with
        fw := { s.fw with temper := some c },
        temper := { s.temper with
          cmdRun := d.1 % 65536, cmdUnconf := 0, traceFailed := false, traceDue := bit m 2,
          fixedLeft := if bit m 0 then 511 else 0, pathLeft := if bit m 1 then s.tilesOpen else 0 } }
      let s := if bit m 0 then (List.range 9).foldl (fun s u => s.trigger u allLanes) s else s
      s.runTemper.checkRun))

end Sys2Proof.Machine
end

