-- ==== Sys2Proof/Machine/Timebase.lean ====
section
/-!
DEFINITION. The timebases (R291–R312, R327, R463–R466): the servo update, the writes of SOFTWARE mode, firmware's offset
measurements, and the commands TIME_CFG, TIME_AUTH and PTP_PORT_CFG.
-/

namespace Sys2Proof.Machine

/-! ### Steps (R304, R308–R311) -/

/-- A step of `d` (R309): both timebases, DISC_CNT, STEPPED, the record, Meridian, the TIU and the trace. -/
def State.applyStep (s : State) (d : Int) : State :=
  let old := s.now
  let s := { s with time := { s.time with
    a := s.time.a + d, b := s.time.b + d, adj := 0, offset := s.time.offset - d / psU, measured := false } }
  let s := s.setF TPL_TB_STAT.DISC_CNT (s.getF TPL_TB_STAT.DISC_CNT + 1)
  let s := (s.setF TPL_TB_HIST.STEPPED 1).setF TPL_TB_STAT.TIME_VALID 1
  let s := if s.time.disc.isSome then s.closeDisc stOk else s
  ((s.stepGenerators old d).tiuStep).trace 0 0 []

/-- A backward step without authorisation is refused (R308). -/
def State.refuseStep (s : State) : State :=
  ((s.setF TPL_TB_HIST.STEP_REFUSED 1).addF TPL_TB_REFUSED.REFUSED_CNT 1).raiseOnce 0xC5

/-- The step of HARDWARE mode that is due (R305, R307, R308), and whether one was applied. -/
def State.hardStep (s : State) : State × Bool :=
  match s.time.firstStep with
  | some d =>
    let s := { s with time := { s.time with firstStep := none } }
    if d < 0 then (s.refuseStep, false) else (s.applyStep (d * psU), true)
  | none =>
    match s.time.disc with
    | some r => if r.ready then (s.applyStep (r.off * psU), true) else (s, false)
    | none => (s, false)

/-- The step that STEP_GO asked for (R311), and whether one was applied. -/
def State.softStep (s : State) : State × Bool :=
  if !s.isF TPL_TB_STAT.STEP_PENDING then (s, false)
  else
    let s := s.setF TPL_TB_STAT.STEP_PENDING 0
    let ns := s.getF TPL_TB_STEP_NS.STEP_NS
    if decide (999999999 < ns) then (s, false)
    else (s.applyStep ((signed 32 (s.getF TPL_TB_STEP_SEC.STEP_SEC) * 1000000000 + ns) * nsU), true)

/-! ### The servo update (R296–R301, R312, R466) -/

/-- The increment for an offset of DPLL0 (2^-40): 4 ns × (1 + offset), in 2^-32 ns (log entry 32). -/
def incOf (foff : Int) : Int := 17179869184 + roundDiv foff 64

/-- An increment is taken within 3.998–4.002 ns (R297). -/
def State.takeInc (s : State) (v : Int) : State :=
  let c := clampI 17171279250 17188459118 v
  let s := if c != v then s.setF TPL_TB_HIST.INC_CLAMPED 1 else s
  { s with time := { s.time with inc := c.toNat } }

/-- INC_NS and INC_FRAC show the increment in force (R299). -/
def State.showInc (s : State) : State :=
  (s.setF TPL_TB_INC_NS.INC_NS (s.time.inc / 4294967296)).setF TPL_TB_INC_FRAC.INC_FRAC (s.time.inc % 4294967296)

/-- A change of SERVO_MODE takes effect (R300). -/
def State.servoMode (s : State) : State :=
  let soft := s.isF TPL_TB_CFG.SERVO_MODE
  if soft == s.time.software then s
  else
    let s := { s with time := { s.time with software := soft, adj := 0, incNext := none, firstStep := none } }
    let s := s.setF TPL_TB_STAT.STEP_PENDING 0
    if soft then s
    else
      let f := ((s.time.inc : Int) - 17179869184) * 64
      (s.setF TPL_DPLL_FOFF.FOFF (unsign 32 f) 0).upDpll 0 (fun x => { x with fine := f * fineU })

/-- The increment of this servo update (R296, R299, R301). -/
def State.servoInc (s : State) : State :=
  if s.time.software then
    match s.time.incNext with
    | some v => ({ s with time := { s.time with incNext := none } }).takeInc v
    | none => s
  else (s.takeInc (incOf (s.foff 0))).showInc

/-- A failed side is reloaded from the serving one, and the mismatch is over (R466). -/
def State.reloadFailed (s : State) : State :=
  if s.isF TPL_TB_CMP.A_FAILED || s.isF TPL_TB_CMP.B_FAILED then
    ({ s with time := { s.time with a := s.now, b := s.now } }).clearFault 0xC0
  else s

/-- The copy of tile `t` goes wrong, by an amount that is free: it stays so until the copy is loaded again. -/
def State.copyWrong (s : State) (t : Nat) : State :=
  if Tab.getD s.time.copies t 0 != 0 then s
  else
    let d := s.drawInt
    { d.2 with time := { d.2.time with copies := Tab.set d.2.time.copies t (if d.1 = 0 then 1 else d.1) } }

/-- The tile copies are compared (R312), those in `bad` having gone wrong: a mismatch is STAMP_COPY of its tile. -/
def State.copyCheck (s : State) (bad : Nat) : State :=
  (List.range 8).foldl (fun s t =>
    if (s.fence t).st != 0 then s
    else if bit bad t then (s.copyWrong t).raise (0x10 + 16 * t)
    else if Tab.getD s.time.copies t 0 != 0 then s.raise (0x10 + 16 * t)
    else s.clearFault (0x10 + 16 * t)) s

/-- Everything that a servo update does, at its TCLK edge. -/
def State.servo (s : State) (bad : Nat) : State :=
  let s := s.reloadFailed.servoMode.servoInc
  let s := { s with time := { s.time with stcHold := [] } }
  let r := if s.time.software then s.softStep else s.hardStep
  ((r.1.phaseServo r.2).temperServo).copyCheck bad

/-- SERVO_UPDATE (R296): every 262,144 TCLK from the release of timing-plane reset. -/
def execServoUpdate (badCopies : Nat) (s : State) : Answer State :=
  .next (if !s.time.running then s
    else
      let s := s.edges ((s.time.servos + 1) * 262144 - s.time.tclk)
      ({ s with time := { s.time with servos := s.time.servos + 1 } }).servo badCopies)

/-- SLEW_END (R303): the TCLK edges of the remaining slew pass. -/
def execSlewEnd (s : State) : Answer State :=
  .next (let most := 4 * 4294967296 * s.slewPpb
    if s.time.adj = 0 then s else s.edges (ceilDiv s.time.adj.natAbs most))

/-! ### Measurements (R305, R364) -/

/-- OFFSET_MEASUREMENT (R305, R306, R364): `delta` in ps, once per tick window.  One that a discontinuity record holds back
is no measurement for an assurance (R453). -/
def execOffsetMeasurement (delta : Int) (s : State) : Answer State :=
  .next (if !s.fwRuns then s
    else
      let s := s.deliverOffset delta
      let s := if s.time.software then s else s.applyPolicy delta
      { s with window := { s.window with measured := s.time.disc.isNone } })

/-! ### SOFTWARE mode (R299, R301, R302, R311) -/

/-- INC_NS_WRITE (R301): the write commits the pair. -/
def execIncNsWrite (path : Path) (value : Word) (s : State) : Answer State :=
  .next (if !s.pfMay path || !s.time.software then s
    else
      let n := value.toNat % 256
      let s := s.setF TPL_TB_INC_NS.INC_NS n
      { s with time := { s.time with incNext := some (n * 4294967296 + s.getF TPL_TB_INC_FRAC.INC_FRAC) } })

/-- TPL_TB_ADJ_WRITE (R302). -/
def execTplTbAdjWrite (path : Path) (value : Word) (s : State) : Answer State :=
  .next (if !s.pfMay path || !s.time.software then s
    else { s with time := { s.time with adj := s.time.adj + signed 32 value.toNat * psU } })

/-- STEP_GO (R311). -/
def execStepGo (path : Path) (s : State) : Answer State :=
  .next (if !s.pfMay path || !s.time.software || decide (999999999 < s.getF TPL_TB_STEP_NS.STEP_NS) then s
    else s.setF TPL_TB_STAT.STEP_PENDING 1)

/-- CAPTURE (R327): the serving time on the next TCLK edge. -/
def execCapture (path : Path) (s : State) : Answer State :=
  .next (if !s.pfMay path || !s.time.running then s
    else
      let s := s.edges 1
      let s := (s.setF TPL_TB_CAP_FRAC.FRAC s.nowFrac).setF TPL_TB_CAP_NS.NS s.nowNsec
      (s.setF TPL_TB_CAP_SEC_LO.SEC (s.nowSec % 4294967296)).setF TPL_TB_CAP_SEC_HI.SEC (s.nowSec / 4294967296))

/-! ### Firmware's commands (R104, R105, R307) -/

/-- Whether a TIME_CFG buffer is in range (R104). -/
def timeCfgOk (c : Cmd) : Bool :=
  c.indirect && c.dataLen == 32 && decide (byteAt c.data 0 ≤ 1) && decide (byteAt c.data 1 ≤ 127) &&
  decide (byteAt c.data 2 < 8) && byteAt c.data 3 == 0 && leAt c.data 6 2 == 0 && allZero c.data 16 16

/-- TIME_CFG (R104): from the next tick window. -/
def execTimeCfg (c : Cmd) (s : State) : Answer State :=
  .next (s.fwCommand 0x81 c (fun s =>
    if !timeCfgOk c then s.done c stBadArg
    else ({ s with time := { s.time with cfgNext := some (toWords 8 c.data) } }).done c stOk))

/-- A signed byte of a buffer. -/
def sbyte (b : Bytes) (i : Nat) : Int := signed 8 (byteAt b i)

/-- Whether a PTP_PORT_CFG buffer is in range (R105). -/
def ptpCfgOk (c : Cmd) : Bool :=
  let b := c.data
  c.indirect && c.dataLen == 16 && decide (c.target < 256) &&
  bits (byteAt b 0) 5 2 != 3 && decide (byteAt b 0 < 128) &&
  decide (-3 ≤ sbyte b 1 ∧ sbyte b 1 ≤ 4) && decide (-7 ≤ sbyte b 2 ∧ sbyte b 2 ≤ 1) &&
  decide (-7 ≤ sbyte b 3 ∧ sbyte b 3 ≤ 5) && decide (2 ≤ byteAt b 4 ∧ byteAt b 4 ≤ 10) &&
  decide (byteAt b 5 < 64) && bits (leAt b 6 2) 12 3 == 0 && allZero b 8 8

/-- The record in a PTP_PORT_CFG buffer. -/
def ptpRec (b : Bytes) : PtpRec :=
  { flags := byteAt b 0, logAnnounce := sbyte b 1, logSync := sbyte b 2, logDelayReq := sbyte b 3,
    announceTo := byteAt b 4, dscp := byteAt b 5, vlan := leAt b 6 2 }

/-- PTP_PORT_CFG (R105): from the port's next tick window. -/
def execPtpPortCfg (c : Cmd) (s : State) : Answer State :=
  .next (s.fwCommand 0x80 c (fun s =>
    if !ptpCfgOk c then s.done c stBadArg
    else (s.upPort c.target (fun x => { x with ptpNext := some (ptpRec c.data) })).done c stOk))

/-- TIME_AUTH (R307): it completes when the step has been applied. -/
def execTimeAuth (c : Cmd) (s : State) : Answer State :=
  .next (s.fwCommand 0x82 c (fun s =>
    match s.time.disc with
    | some r =>
      if c.a0.toNat = r.id then
        { s with
          time := { s.time with disc := some { r with auth := true } },
          fw := { s.fw with timeAuth := s.fw.timeAuth ++ [c] } }
      else s.done c stPast
    | none => s.done c stPast))

end Sys2Proof.Machine
end

