-- ==== Sys2Proof/Machine/Clocks.lean ====
section
/-!
DEFINITION. Clock synthesis (R382–R389): PLL lock and loss of lock, VCO bands, the staged values of APLL2, APLL3 and the
output dividers, and SYNCIN.
-/

namespace Sys2Proof.Machine

/-! ### Band tables (R384) -/

/-- The lowest-numbered VALID entry of PLL `j`'s band table that holds a VCO frequency of `khz`. -/
def State.bandEntry (s : State) (j khz : Nat) : Option Nat :=
  ((List.range 16).map (j * 16 + ·)).find? (fun i =>
    s.isF TPL_BAND_SEL.VALID i && decide (s.getF TPL_BAND_RANGE.F_LO i * 1000 ≤ khz) &&
    decide (khz ≤ s.getF TPL_BAND_RANGE.F_HI i * 1000))

/-- The band of an APLL that starts or relocks (R384); with no entry it does not start, and a NOTICE is raised. -/
def State.apllStart (s : State) (j : Nat) : State :=
  let s := s.setF TPL_PLL_STAT.LOCK 0 j
  let s := s.upPll j (fun x => { x with gated := true })
  match s.bandEntry j (s.pll j).vco with
  | some i => (s.setF TPL_PLL_STAT.NO_BAND 0 j).setF TPL_PLL_STAT.BAND (s.getF TPL_BAND_SEL.BAND i) j
  | none => (s.setF TPL_PLL_STAT.NO_BAND 1 j).raiseOnce 0xD8 j

/-- The band of a PLL that locks, and whether it starts (R384): an APLL's as it was chosen when it started; that of PLLs
0–4 by their VCO frequency, which the spec does not give.  Before any entry of its table is VALID, as when they start with
the core (R542, R545), theirs is a free value (log entry 42). -/
def State.pllBand (s : State) (j : Nat) : State × Bool :=
  if decide (5 ≤ j) then (s, !s.isF TPL_PLL_STAT.NO_BAND j)
  else
    match s.bandEntry j (Config.pllVco j) with
    | some i => ((s.setF TPL_PLL_STAT.NO_BAND 0 j).setF TPL_PLL_STAT.BAND (s.getF TPL_BAND_SEL.BAND i) j, true)
    | none =>
      if (List.range 16).all (fun i => !s.isF TPL_BAND_SEL.VALID (j * 16 + i)) then
        let x := s.draw
        (x.2.setF TPL_PLL_STAT.BAND (x.1 % 64) j, true)
      else ((s.setF TPL_PLL_STAT.NO_BAND 1 j).raiseOnce 0xD8 j, false)

/-! ### Lock (R383) -/

/-- PLL `j` locks (R383): the outputs are released; with TCLK the timing plane runs (R293). -/
def State.pllLock (s : State) (j : Nat) : State :=
  if !s.boot.coreUp || s.isF TPL_PLL_STAT.LOCK j then s
  else if !(s.pllBand j).2 then (s.pllBand j).1
  else
    let s := (s.pllBand j).1.setF TPL_PLL_STAT.LOCK 1 j
    let s := (s.upPll j (fun x => { x with gated := false })).clearFault (0xC8 + j)
    if j = 2 then { s with time := { s.time with running := true } } else s

/-- PLL_LOSS_OF_LOCK (R383): the outputs are gated, LOCK_LOST is set and the fault raised; the PLL relocks, on the band
that its table gives now (R384). Without TCLK the timebases stand still (R417). -/
def execPllLossOfLock (j : Nat) (s : State) : Answer State :=
  .next (if !s.isF TPL_PLL_STAT.LOCK j then s
    else
      let s := (s.setF TPL_PLL_STAT.LOCK 0 j).setF TPL_PLL_HIST.LOCK_LOST 1 j
      let s := s.upPll j (fun x => { x with gated := true })
      let s := s.raise (0xC8 + j) j
      let s := if j = 2 then { s with time := { s.time with running := false } } else s
      if decide (5 ≤ j) then s.apllStart j else s)

/-! ### Staged values (R385, R389) -/

/-- SSC_MODE and DEPTH of PLL `j` as they act (R386), in force from the next modulation period: off, down or centre, and
the total excursion in units of 0.05%.  Down, the frequency runs from nominal to nominal minus the excursion; centre, half
of it either side. -/
def State.loadSsc (s : State) (j : Nat) : State :=
  let m := s.getF TPL_PLL_SSC.SSC_MODE j
  let d := min 10 (s.getF TPL_PLL_SSC.DEPTH j)
  let m := if m = 3 ∨ d = 0 then 0 else m
  s.upPll j (fun x => { x with ssc := m, depth := if m = 0 then 0 else d })

/-- The lowest and the highest frequency of PLL `j` in 10^-5 of nominal (R386). -/
def State.sscRange (s : State) (j : Nat) : Nat × Nat :=
  match (s.pll j).ssc with
  | 1 => (100000 - 50 * (s.pll j).depth, 100000)
  | 2 => (100000 - 25 * (s.pll j).depth, 100000 + 25 * (s.pll j).depth)
  | _ => (100000, 100000)

/-- Every staged value loads (R385): a new F_VCO makes its APLL relock. -/
def State.loadStaged (s : State) : State :=
  let s := [5, 6].foldl (fun s j =>
    if !s.isF TPL_PLL_STAT.PENDING j then s
    else
      let v := s.getF TPL_PLL_VCO.F_VCO j
      let s := s.setF TPL_PLL_STAT.PENDING 0 j
      if (s.pll j).vco = v then s else (s.upPll j (fun x => { x with vco := v })).apllStart j) s
  (List.range 8).foldl (fun s n =>
    let d := max 1 (s.getF TPL_OUT_DIV.D n)
    let h := s.getF TPL_OUT_PW.HIGH n
    (s.upOut n (fun x => { x with d := d, high := h })).setF TPL_OUT_STAT.PENDING 0 n) s

/-- DIV_GO (R385). -/
def execDivGo (path : Path) (s : State) : Answer State :=
  .next (if s.pfMay path then s.loadStaged else s)

/-! ### SYNCIN (R388) -/

/-- SYNC_ARM (R388). -/
def execSyncArm (path : Path) (s : State) : Answer State :=
  .next (if s.pfMay path then s.setF TPL_CS_CTRL.SYNC_ARM 1 else s)

/-- An accepted edge restarts the divider of every output with SYNC_EN set (R388): outputs that bear the same number count
from the same edge. -/
def State.syncOutputs (s : State) : State :=
  let n := s.time.syncs + 1
  let s := { s with time := { s.time with syncs := n } }
  (List.range 8).foldl (fun s i =>
    if s.isF TPL_OUT_CFG.SYNC_EN i then s.upOut i (fun x => { x with synced := n }) else s) s

/-- SYNCIN_EDGE (R388): a rising edge, `sincePrevNs` after the previous accepted one if there is one. -/
def execSyncinEdge (sincePrevNs : Nat) (s : State) : Answer State :=
  .next (let mode := s.getF TPL_CS_CTRL.SYNC_MODE
    if mode == 2 || (mode == 1 && s.isF TPL_CS_CTRL.SYNC_ARM) then
      if s.time.syncs ≠ 0 ∧ sincePrevNs < 1000 then s.setF TPL_CS_STAT.SYNC_EARLY 1
      else
        let s := s.setF TPL_CS_STAT.SYNC_SEEN 1
        let s := if mode == 1 then s.setF TPL_CS_CTRL.SYNC_ARM 0 else s
        (if s.isF TPL_CS_CTRL.LOAD_ON_SYNC then s.loadStaged else s).syncOutputs
    else s)

/-! ### The outputs (R40, R43, R387) -/

/-- The frequency of CLKOUTn in millihertz, rounded down, and its high time in half periods of the HS-divided clock (R387). -/
def State.clkShape (s : State) (n : Nat) : Nat × Nat :=
  let hs := max 4 (s.getF TPL_OUT_CFG.HS n)
  let o := s.outp n
  ((s.pll (5 + s.getF TPL_OUT_CFG.SRC n)).vco * 1000000 / (hs * max 1 o.d), if o.high = 0 then o.d else 2 * o.high)

/-- Whether CLKOUTn's APLL gates it (TPL_OUT_STAT.GATED). -/
def State.clkGated (s : State) (n : Nat) : Bool := (s.pll (5 + s.getF TPL_OUT_CFG.SRC n)).gated

/-- Whether CLKOUTn toggles (TPL_OUT_STAT.ACTIVE): enabled, its APLL locked and not gating it, not idled by Quench, and
not on a standby (R471). -/
def State.clkActive (s : State) (n : Nat) : Bool :=
  s.isF TPL_OUT_CFG.EN n && s.isF TPL_PLL_STAT.LOCK (5 + s.getF TPL_OUT_CFG.SRC n) && !s.clkGated n && !s.clkQuenched n && s.pairState != pairStandby

end Sys2Proof.Machine
end

