-- ==== Sys2Proof/Machine/Egress.lean ====
section
/-!
DEFINITION. The commands of egress: SCHEDULER_PICK, LAUNCH_DUE and AGE_CHECK (R182, R229–R241).
-/

namespace Sys2Proof.Machine

/-- Whether port `p`'s transmitter can start frames at all (R148, R150). -/
def State.canSend (s : State) (p : Nat) : Bool := s.portState p == 5 || s.portState p == 4

/-- The transmitter of port `p` can start a frame (R229). -/
def State.pickOnPort (s : State) (p phase : Nat) (dTx : Int) : State :=
  if !s.canSend p || !s.cclk || !s.lclk then s
  else
    let s := (s.fillBuckets p).renewRates p
    match (s.port p).fcOut with
    | f :: t => (s.upPort p (fun x => { x with fcOut := t })).sendFc p f
    | [] => if s.blocked p then s.blockFlush p else s.schedule p phase dTx (s.portFrames p + 1)

/-- SCHEDULER_PICK (R229, R436). -/
def execSchedulerPick (port phase : Nat) (dTx : Int) (s : State) : Answer State := .next (s.pickOnPort port phase dTx)

/-- A launch-time head of port `p`, queue `q`, is due: time reaches its launch time minus pre.  A generated flow-control frame
that waits goes first; then the due head with the earlier launch time starts or is judged late (R144, R237, R239). -/
def State.launchNow (s : State) (p q phase : Nat) (dTx : Int) : State :=
  match s.launchHead p q with
  | none => s
  | some l =>
    let s := s.advanceTo (l - s.byteTime p 8) 64
    if !s.canSend p || !s.cclk || !s.lclk then s
    else
      let s := (s.fillBuckets p).renewRates p
      match (s.port p).fcOut with
      | f :: t => (s.upPort p (fun x => { x with fcOut := t })).sendFc p f
      | [] =>
        if s.blocked p then s.blockFlush p
        else
          match s.dueLaunch p with
          | some k => (s.serve p (8 + k) phase dTx).1
          | none => s

/-- LAUNCH_DUE (R237). -/
def execLaunchDue (port q phase : Nat) (dTx : Int) (s : State) : Answer State := .next (s.launchNow port q phase dTx)

/-- The periodic check of a queue's head (R182, R183). -/
def State.checkAge (s : State) (p slot : Nat) : State :=
  match s.head p slot with
  | some f =>
    if decide (slot ≠ 8 ∧ slot ≠ 9) && s.aged f p then (s.popHead p slot).dropEgress p slot f 0x34 else s
  | none => s

/-- AGE_CHECK (R182). -/
def execAgeCheck (q : QueueRef) (s : State) : Answer State := .next (if s.cclk then s.checkAge q.port q.slot else s)

end Sys2Proof.Machine
end

