-- ==== Sys2Proof/Machine/Ports.lean ====
section
/-!
DEFINITION. Ports and lanes (R115–R136, R146–R152): enabling and its checks, link-up and link loss, training, adaptation
and low-power idle.
-/

namespace Sys2Proof.Machine

/-! ### Enabling (R115–R119, R511) -/

/-- Whether enabled port `q` stands in the way of port `p` (R116, R118): it shares a lane, or a quad at another rate
family. -/
def State.portConflict (s : State) (p q : Nat) : Bool :=
  let mine := s.portLanes p
  let theirs := s.portLanes q
  theirs.any (fun l => mine.contains l) ||
  (modeNrz (s.portMode p) != modeNrz (s.portMode q) &&
    theirs.any (fun l => mine.any (fun k => decide (k / 4 = l / 4))))

/-- The check of R118. -/
def State.portCfgOk (s : State) (p : Nat) : Bool :=
  let m := s.portMode p
  decide (m < 16) && decide (p % 32 % modeLanes m = 0) && modeFecOk m (s.getF TIL_PORT_CFG.FEC p) &&
  ((List.range 32).map (p / 32 * 32 + ·)).all (fun q => q == p || !s.portEnabled q || !s.portConflict p q)

/-- PORT_ENABLE (R118, R264, R511). -/
def execPortEnable (path : Path) (port : Nat) (s : State) : Answer State :=
  .next (if !s.pfMay path || s.isF TIL_PORT_CFG.ENABLE port then s
    else
      let ok := s.portCfgOk port
      let was := s
      let s := s.setF TIL_PORT_CFG.ENABLE 1 port
      if ok then
        let s := (s.portLanes port).foldl (fun s l => s.upLane l (fun x => { x with gated := false })) s
        let s := (((s.setPortState port 1).upPort port (fun x => { x with line := 1 })).freezeLanes port).judgeOverbooked was port
        (s.showService port).linkChange port
      else (s.setPortState port 6).linkChange port)

/-- PORT_DISABLE (R118, R126, R152): steps 1 to 5 of R147 with cause 8; a port in CFG_ERR holds no lane that could fail. -/
def execPortDisable (path : Path) (port : Nat) (s : State) : Answer State :=
  .next (if !s.pfMay path || !s.isF TIL_PORT_CFG.ENABLE port then s
    else
      let failed := if s.portState port == 6 then 0 else s.failedLanes port
      (s.setF TIL_PORT_CFG.ENABLE 0 port).portDown port 8 failed)

/-! ### Link loss (R125, R126, R141) -/

/-- The frame whose transmission has begun on port `p` ends with an error control character (R141) and counts as
flushed.  SCHEDULER_PICK sends a frame whole, so the frame under way is taken to be the one that the scheduler picks next
(log entry 64). -/
def State.abortTransmit (s : State) (p : Nat) : State :=
  if !s.canSend p then s
  else
    match s.pick p with
    | (s, some slot) =>
      (match s.head p slot with
       | some f =>
         let s := (s.popHead p slot).emit (.txFrame p (s.outgoing f) true 0)
         (s.dropEgress p slot f 0x33).countS (group 0 p) 29
       | none => s)
    | (s, none) => s

/-- The lanes of port `p` named by a mask of its lane positions. -/
def State.laneMask (s : State) (p mask : Nat) : List Nat := (bitsSet (modeLanes (s.portMode p)) mask).map (p + ·)

/-- What the lanes of port `p` have lost (R126, R520). -/
def State.lanesLost (s : State) (p cause noSignal noCdr noLock : Nat) : State :=
  let s := (s.laneMask p noSignal).foldl (fun s l => s.setF TIL_LANE_STAT.SIGNAL 0 l) s
  let s := (s.laneMask p noCdr).foldl (fun s l =>
    let s := if s.isF TIL_LANE_STAT.CDR_LOCK l then s.countE (group 1 l) 2 else s
    s.setF TIL_LANE_STAT.CDR_LOCK 0 l) s
  (s.laneMask p (if cause = 4 then 0xFF else noLock)).foldl (fun s l => s.setF TIL_LANE_STAT.LOCK 0 l) s

/-! ### Block lock (R123) -/

/-- The counts of a lane after one more 64b/66b block. -/
def Lane.header (x : Lane) (ok : Bool) : Lane :=
  { x with run := if ok then min 64 (x.run + 1) else 0, win := (ok :: x.win).take 64 }

/-- One more block on lane `l`: lock after 64 valid headers in a row, loss at 16 invalid ones of 64. -/
def State.laneHeader (s : State) (l : Nat) (ok : Bool) : State :=
  let s := s.upLane l (fun x => x.header ok)
  if s.isF TIL_LANE_STAT.LOCK l then
    (if 16 ≤ ((s.lane l).win.filter (fun b => !b)).length then
      (s.setF TIL_LANE_STAT.LOCK 0 l).upLane l (fun x => { x with run := 0, win := [] })
    else s)
  else if (s.lane l).run = 64 then (s.setF TIL_LANE_STAT.LOCK 1 l).upLane l (fun x => { x with win := [] })
  else s

/-- The sync headers of a lane of port `p`; in RS(544,514) modes lock is judged by alignment markers instead. -/
def State.laneHeaders (s : State) (p l : Nat) (hs : List Bool) : State :=
  if s.getF TIL_PORT_CFG.FEC p == 2 then s else hs.foldl (fun s h => s.laneHeader l h) s

/-- The lanes of port `p`, as a mask, that lose block lock by the headers given for them, and the state after these. -/
def State.headersLost (s : State) (p : Nat) (hs : List (Nat × List Bool)) : Nat × State :=
  let mine := hs.filter (fun e => decide (e.1 < modeLanes (s.portMode p)))
  let t := mine.foldl (fun s e => s.laneHeaders p (p + e.1) e.2) s
  (maskOf ((mine.map (fun e => e.1)).filter (fun k => s.isF TIL_LANE_STAT.LOCK (p + k) && !t.isF TIL_LANE_STAT.LOCK (p + k))), t)

/-- Whether a cause can be met (R125): UNCORR_RUN 0 disables cause 5. -/
def State.causeMet (s : State) (p cause noSignal noCdr noLock : Nat) : Bool :=
  match cause with
  | 1 => noSignal != 0
  | 2 => noCdr != 0
  | 3 => noLock != 0
  | 5 => s.getF TIL_PORT_CFG.FEC p != 0 && s.isF TIL_PORT_FEC.UNCORR_RUN p
  | _ => true

/-- LINK_LOSS (R123, R125, R126, R141, R147): on a port that has no link the lanes' losses alone are shown. -/
def execLinkLoss (port cause noSignal noCdr : Nat) (lockLoss : LockLoss) (rxBusy txBusy : Bool) (s : State) : Answer State :=
  .next (let st := s.portState port
    let seen := if st == 0 || st == 6 then (0, s) else s.headersLost port lockLoss.headers
    let s := seen.2
    let noLock := lockLoss.mask ||| seen.1
    if st == 0 || st == 6 || !s.causeMet port cause noSignal noCdr noLock then s
    else
      let s := if cause = 5 then s.countE (group 0 port) 28 (s.getF TIL_PORT_FEC.UNCORR_RUN port) else s
      let before := s.failedLanes port
      let s := s.lanesLost port cause noSignal noCdr noLock
      if st == 1 then s
      else
        let s := if rxBusy then s.countE (group 0 port) 7 else s
        let s := if txBusy then s.abortTransmit port else s
        let n := modeLanes (s.portMode port)
        s.portDown port cause ((noSignal ||| noCdr ||| noLock) % 2 ^ n ||| before))

/-! ### Link-up (R128, R129, R149–R151) -/

/-- Whether port `p` is enabled, on a tile in service, and in state `st`. -/
def State.rising (s : State) (p st : Nat) : Bool :=
  s.portEnabled p && (s.fence (p / 32)).st == 0 && s.portState p == st

/-- Whether field `f` is set on every lane of port `p`. -/
def State.allLanes (s : State) (p : Nat) (f : Fld) : Bool := (s.portLanes p).all (fun l => s.isF f l)

/-- Whether firmware runs as R128 means it: a tick window has begun since its first done mark after the release of its
reset, and no three windows in a row were missed. -/
def State.trainerUp (s : State) : Bool :=
  s.fw.running && s.fw.phase == 3 && s.fw.windowed && decide (s.getF MER_BUDGET_STAT.MISS_RUN < 3)

/-- SIGNAL_DETECT (R149 step 1). -/
def execSignalDetect (port : Nat) (s : State) : Answer State :=
  .next (if s.rising port 1 then
      (s.portLanes port).foldl (fun s l => s.setF TIL_LANE_STAT.SIGNAL 1 l) s
    else s)

/-- CDR_LOCK (R123, R149 step 2) on a lane of a port; with every lane locked a port with TRAIN set trains, or waits for firmware (R128). -/
def execCdrLock (port : Nat) (lock : LaneLock) (s : State) : Answer State :=
  .next (let l := port + lock.lane
    if !s.rising port 1 || decide (modeLanes (s.portMode port) ≤ lock.lane) || !s.isF TIL_LANE_STAT.SIGNAL l then s
    else
      let s := (s.setF TIL_LANE_STAT.CDR_LOCK 1 l).laneHeaders port l lock.headers
      if s.allLanes port TIL_LANE_STAT.CDR_LOCK && s.isF TIL_PORT_CFG.TRAIN port then
        (s.setPortState port (if s.trainerUp then 2 else 3)).linkChange port
      else s)

/-- TRAINING_START (R128). -/
def execTrainingStart (port : Nat) (s : State) : Answer State :=
  .next (if s.rising port 3 && s.trainerUp then
      ((s.upPort port (fun x => { x with trained := false })).setPortState port 2).linkChange port
    else s)

/-- TRAINING_COMPLETE (R149 step 3). -/
def execTrainingComplete (port : Nat) (s : State) : Answer State :=
  .next (if s.rising port 2 then s.upPort port (fun x => { x with trained := true }) else s)

/-- The lanes that port `p` holds (R118): those of its mode on its tile that are no other port's, none in CFG_ERR. -/
def State.heldLanes (s : State) (p : Nat) : List Nat := if s.portState p == 6 then [] else s.ownLanes p

/-- Current coefficients of port `p`'s lanes: lane position, coefficient, value.  A frozen lane keeps its coefficients
exactly (R131). -/
def State.setCoeffs (s : State) (p : Nat) (l : List (Nat × Nat × Int)) : State :=
  l.foldl (fun s e => if !(s.heldLanes p).contains (p + e.1) || s.isF TIL_LANE_STAT.FROZEN (p + e.1) then s
    else s.upLane (p + e.1) (fun x => { x with coeffs := Tab.set x.coeffs e.2.1 e.2.2 })) s

/-- The current coefficients of port `p`'s lanes become their references (R129, R132). -/
def State.takeRefs (s : State) (p : Nat) : State :=
  (s.heldLanes p).foldl (fun s l => s.upLane l (fun x => { x with refs := x.coeffs, beyond := [] })) s

/-- HOLDOFF_ENTRY (R149 step 4, R129). -/
def execHoldoffEntry (port : Nat) (coeffs : List (Nat × Nat × Int)) (s : State) : Answer State :=
  .next (let ready := (s.rising port 1 && !s.isF TIL_PORT_CFG.TRAIN port) || (s.rising port 2 && (s.port port).trained)
    if !ready || !s.allLanes port TIL_LANE_STAT.SIGNAL || !s.allLanes port TIL_LANE_STAT.CDR_LOCK then s
    else
      let s := (s.portLanes port).foldl (fun s l => s.setF TIL_LANE_STAT.LOCK 1 l) s
      let s := ((s.setPortState port 4).upPort port (fun x => { x with line := 3 })).setCoeffs port coeffs
      (((s.takeRefs port).linkChange port).awaitWindow port).holdoffTrigger port)

/-- HOLDOFF_EXPIRY (R149 step 5). -/
def execHoldoffExpiry (port : Nat) (s : State) : Answer State :=
  .next (if s.rising port 4 then (((s.setPortState port 5).pgPort port).linkChange port).slotsBack port else s)

/-! ### FEC and adaptation (R127, R130–R132) -/

/-- `n` symbol errors of a port counted on its lanes; how they fall on several lanes the spec does not say. -/
def State.countSymbols (s : State) (n : Nat) : List Nat → State
  | [] => s
  | [l] => s.countE (group 1 l) 0 n
  | l :: t =>
    let d := s.draw
    let k := min d.1 n
    (d.2.countE (group 1 l) 0 k).countSymbols (n - k) t

/-- FEC_DEGRADE_WINDOW (R124, R127). -/
def execFecDegradeWindow (port : Nat) (counts : FecCounts) (s : State) : Answer State :=
  .next (if !s.canSend port || s.getF TIL_PORT_CFG.FEC port == 0 then s
    else
      let s := if counts.corrected = 0 then s else s.countS (group 0 port) 27 counts.corrected
      let s := if counts.uncorrectable = 0 then s else s.countE (group 0 port) 28 counts.uncorrectable
      let s := s.countSymbols counts.symbols (s.portLanes port)
      if decide (s.getF TIL_PORT_FEC.DEG_THRESH port < counts.symbols) then
        (s.setF TIL_PORT_HIST.FEC_DEGRADE 1 port).portNotice port
      else s)

/-- ADAPT_GUARD_HIT (R130): adaptation would move a coefficient of the port's `lane`-th lane to `want`.  An excursion lasts
until a movement ends within the window again, and is reported once. -/
def execAdaptGuardHit (port lane coeff : Nat) (want : Int) (s : State) : Answer State :=
  .next (let l := port + lane
    if s.portState port != 5 || decide (modeLanes (s.portMode port) ≤ lane) || s.isF TIL_LANE_STAT.FROZEN l then s
    else
      let ref := Tab.getD (s.lane l).refs coeff 0
      let g : Int := s.getF TIL_PORT_ADAPT.GUARD port
      let v := clampI (ref - g) (ref + g) want
      let first := v != want && !(s.lane l).beyond.contains coeff
      let s := s.upLane l (fun x => { x with
        coeffs := Tab.set x.coeffs coeff v,
        beyond := if v == want then x.beyond.filter (· != coeff) else if first then coeff :: x.beyond else x.beyond })
      if v == want then s
      else
        let s := (s.setF TIL_LANE_STAT.GUARD_HIT 1 l).setF TIL_PORT_HIST.ADAPT_GUARD 1 port
        if first then (s.countS (group 1 l) 1).portNotice port else s)

/-- A new GUARD on a port that is UP (R130): a coefficient that now lies past its window is clamped at the edge. -/
def State.clampGuard (s : State) (p : Nat) : State :=
  if s.portState p != 5 then s
  else
    (s.heldLanes p).foldl (fun s l =>
      if s.isF TIL_LANE_STAT.FROZEN l then s
      else
        let g : Int := s.getF TIL_PORT_ADAPT.GUARD p
        let x := s.lane l
        let held : Nat × Int → Int := fun e => clampI (Tab.getD x.refs e.1 0 - g) (Tab.getD x.refs e.1 0 + g) e.2
        let out := (x.coeffs.filter (fun e => held e != e.2)).map (fun e => e.1)
        if out.isEmpty then s
        else
          let s := s.upLane l (fun x => { x with
            coeffs := x.coeffs.map (fun e => (e.1, held e)), beyond := out ++ x.beyond.filter (fun c => !out.contains c) })
          let s := (s.setF TIL_LANE_STAT.GUARD_HIT 1 l).setF TIL_PORT_HIST.ADAPT_GUARD 1 p
          let new := out.filter (fun c => !x.beyond.contains c)
          if new.isEmpty then s else (s.countS (group 1 l) 1 new.length).portNotice p) s

/-- ADAPT_FREEZE (R131). -/
def execAdaptFreeze (port lane : Nat) (s : State) : Answer State :=
  .next (if decide (modeLanes (s.portMode port) ≤ lane) || !s.portEnabled port then s
    else (s.upLane (port + lane) (fun x => { x with nonRandom := true })).setF TIL_LANE_STAT.FROZEN 1 (port + lane))

/-- ADAPT_RESUME (R131): the monitor has seen random data. -/
def execAdaptResume (port lane : Nat) (s : State) : Answer State :=
  .next (if decide (modeLanes (s.portMode port) ≤ lane) || !s.portEnabled port then s
    else
      let s := s.upLane (port + lane) (fun x => { x with nonRandom := false })
      if s.mustFreeze port (port + lane) then s else s.setF TIL_LANE_STAT.FROZEN 0 (port + lane))

/-- RECAPTURE (R132): the current coefficients, as given for lanes that are not frozen, become the references. -/
def execRecapture (path : Path) (port : Nat) (coeffs : List (Nat × Nat × Int)) (s : State) : Answer State :=
  .next (if !s.pfMay path || s.portUnused port then s
    else
      let s := (s.setCoeffs port coeffs).takeRefs port
      (s.heldLanes port).foldl (fun s l => s.setF TIL_LANE_STAT.GUARD_HIT 0 l) s)

/-! ### Low-power idle (R133–R136) -/

/-- Whether low-power idle is available on port `p` (R133). -/
def State.lpiOk (s : State) (p : Nat) : Bool := modeNrz (s.portMode p) && !s.isF TPL_PH_PORT.PH_EN p

/-- TX_LPI_ENTER (R134). -/
def execTxLpiEnter (port : Nat) (s : State) : Answer State :=
  .next (if s.canSend port && s.lpiOk port && s.isF TIL_PORT_CFG.TX_LPI_EN port && s.portFrames port == 0 &&
      (s.port port).fcOut.isEmpty then s.setF TIL_PORT_STAT.TX_LPI 1 port
    else s)

/-- TX_LPI_WAKE (R134): ahead of a launch-time frame. -/
def execTxLpiWake (port : Nat) (s : State) : Answer State :=
  .next (if (s.launchHead port 0).isSome || (s.launchHead port 1).isSome then s.setF TIL_PORT_STAT.TX_LPI 0 port else s)

/-- RX_LPI_ENTER (R136, R131). -/
def execRxLpiEnter (port : Nat) (s : State) : Answer State :=
  .next (if s.canSend port && s.lpiOk port && s.isF TIL_PORT_CFG.RX_LPI_EN port then
      (s.setF TIL_PORT_STAT.RX_LPI 1 port).freezeLanes port
    else s)

/-- RX_LPI_EXIT (R136). -/
def execRxLpiExit (port : Nat) (s : State) : Answer State := .next (s.setF TIL_PORT_STAT.RX_LPI 0 port)

end Sys2Proof.Machine
end

