-- ==== Sys2Proof/Machine/Mac.lean ====
section
/-!
DEFINITION. The MACs: received frames (R137–R140, R150, R155, R318, R319) and flow control (R142–R145).
-/

namespace Sys2Proof.Machine

/-! ### Received frames -/

/-- ERRF of a received frame (R124, R138, R140): FCS, OVERSIZE, CODE, UNDERSIZE; 0 for a valid frame.  A codeword that the
FEC could not correct marks the blocks it carried. -/
def State.errFlags (s : State) (f : RxFrame) : Nat :=
  let n := f.bytes.length + 4
  flag (!f.fcsOk) + 2 * flag (decide (s.getF TIL_PORT_MAXLEN.MAXLEN f.port < n)) + 4 * flag (f.codeErr || (f.badWord && s.isF TIL_PORT_CFG.FEC f.port)) +
  8 * flag (decide (n < 64))

/-- The receive stamp (R313, R314, R317). -/
def State.rxStamp (s : State) (f : RxFrame) : Nat := gridOf (s.tileStamp (f.port / 32) f.phase - (s.rxCorr f.port + f.dRx) * psU)

/-- An errored frame (R140): counted, and with ERR_DELIVER sent to logical port 256 without a lookup.  The 14 bytes of the
limit count the FCS, as the lengths of R138 do; the cut to MAXLEN bytes is made on the frame without its FCS (log entry
64). -/
def State.receiveErrored (s : State) (f : RxFrame) (e : Nat) : State :=
  let g := group 0 f.port
  let s := if bit e 0 then s.countE g 4 else s
  let s := if bit e 3 then s.countE g 5 else s
  let s := if bit e 1 then s.countE g 6 else s
  let s := if bit e 2 then s.countE g 39 else s
  if s.isF TIL_PORT_CFG.ERR_DELIVER f.port && decide (14 ≤ f.bytes.length + 4) then
    let s := s.countS g 38
    let r : LkpResult := { destKind := 2, dest := 256, cls := 0, ringEn := true,
                           hostRing := s.getF TIL_PORT_ERR_RING.RING f.port, hostReason := 0x10 }
    let x : PreFrame := { bytes := f.bytes, inPort := f.port, stamp := s.rxStamp f, ptp := false }
    let h := s.stamped x r (f.bytes.take (s.getF TIL_PORT_MAXLEN.MAXLEN f.port))
    (s.sendUnicast (f.port / 32) 0 { h with errf := e }).1
  else s

/-- A valid frame (R122, R150, R155): MAC control stops here; in HOLDOFF only frames for logical port 257 go on. -/
def State.receiveValid (s : State) (f : RxFrame) : State :=
  let g := group 0 f.port
  let s := (s.countS g 0).countS g 1 (frameOctets f.bytes.length)
  let h := parse f.bytes
  let cls := s.trustClass f.port h
  let control := match s.trapped f.port h f.bytes with | some r => r.destKind == 3 | none => false
  if h.etype == 0x8808 then s
  else if s.portState f.port == 4 && !control then s.countIngress f.port cls 0x0A
  else if s.preRoom (f.port / 32) f.bytes.length h.isPtp then
    s.preAdd (f.port / 32) { bytes := f.bytes, inPort := f.port, stamp := s.rxStamp f, ptp := h.isPtp }
  else s.countIngress f.port cls 0x01

/-- A frame of the link training exchange goes to the control complex, in class 7, without a lookup (R128). -/
def State.receiveTraining (s : State) (f : RxFrame) : State :=
  let x : PreFrame := { bytes := f.bytes, inPort := f.port, stamp := s.rxStamp f, ptp := false }
  (s.sendUnicast (f.port / 32) 0 (s.stamped x { destKind := 3, dest := 257, cls := 7 } f.bytes)).1

/-- FRAME_RECEIVE (R128, R137, R138): training frames while the port trains, other frames while it is UP or in HOLDOFF. -/
def execFrameReceive (f : RxFrame) (s : State) : Answer State :=
  .next (if f.training then (if s.portState f.port == 2 then s.receiveTraining f else s)
    else if !s.canSend f.port || !s.cclk then s
    else if s.errFlags f = 0 then s.receiveValid f
    else s.receiveErrored f (s.errFlags f))

/-! ### Flow control (R142–R145) -/

/-- Classes `stop` stop and classes `go` are released, the ignored ones apart (R143, R145). -/
def State.applyFc (s : State) (p stop go : Nat) : State :=
  s.upPort p (fun x =>
    let stop := stop - (stop &&& x.ignore)
    let go := go - (go &&& x.ignore)
    { x with stopped := (x.stopped ||| stop) - ((x.stopped ||| stop) &&& go) })

/-- FLOW_CONTROL_FRAME_RECEIVE (R142, R143). -/
def execFlowControlFrameReceive (port : Nat) (f : FcFrame) (s : State) : Answer State :=
  .next (if !s.canSend port then s
    else
      let g := group 0 port
      match f with
      | .pause q =>
        let s := s.countS g 8
        if s.getF TIL_PORT_CFG.FC port != 1 then s.countS g 25
        else if q = 0 then s.applyFc port 0 0x7F else s.applyFc port 0x7F 0
      | .pfc en qs =>
        let s := (bitsSet 8 en).foldl (fun s c => s.countS g (10 + c)) s
        if s.getF TIL_PORT_CFG.FC port != 2 then s.countS g 25
        else
          let named := (bitsSet 7 en).filter (fun c => bit (s.getF TIL_PORT_PAUSE.PFC_CLASSES port) c)
          let zero := named.filter (fun c => qs.getD c 0 == 0)
          s.applyFc port (maskOf (named.filter (fun c => qs.getD c 0 != 0))) (maskOf zero))

/-- The classes that stand together (R143, R145): in PAUSE mode the whole port. -/
def State.fcClasses (s : State) (p c : Nat) : Nat := if s.getF TIL_PORT_CFG.FC p == 1 then 0x7F else 1 <<< c

/-- PAUSE_TIME_EXPIRY (R143). -/
def execPauseTimeExpiry (port cls : Nat) (s : State) : Answer State :=
  .next (let m := s.fcClasses port cls
    s.upPort port (fun x => { x with stopped := x.stopped - (x.stopped &&& m) }))

/-- PFC_REFRESH (R144): every class in XOFF is asserted again. -/
def execPfcRefresh (port : Nat) (s : State) : Answer State :=
  .next (let x := s.getF TIL_BUF_STAT.XOFF port
    if !s.canSend port || x == 0 then s
    else if s.getF TIL_PORT_CFG.FC port == 1 then s.queueFc port (s.fcFrame port 0 0xFFFF)
    else (bitsSet 7 x).foldl (fun s c => s.queueFc port (s.fcFrame port c 0xFFFF)) s)

/-- PAUSE_WATCHDOG (R145). -/
def execPauseWatchdog (port cls : Nat) (s : State) : Answer State :=
  .next (if s.getF TIL_PORT_PAUSE.WDOG_MS port == 0 || !s.stoppedCls port cls then s
    else
      let m := s.fcClasses port cls
      let s := s.upPort port (fun x => { x with stopped := x.stopped - (x.stopped &&& m), ignore := x.ignore ||| m })
      ((s.countS (group 0 port) 26).setF TIL_PORT_HIST.PAUSE_WDOG 1 port).portNotice port)

/-- PAUSE_RECOVER_END (R145). -/
def execPauseRecoverEnd (port cls : Nat) (s : State) : Answer State :=
  .next (let m := s.fcClasses port cls
    s.upPort port (fun x => { x with ignore := x.ignore - (x.ignore &&& m) }))

end Sys2Proof.Machine
end

