-- ==== Sys2Proof/Machine/Fence.lean ====
section
/-!
DEFINITION. The commands of the fence protocol (R421–R428, R432): requests, resets, releases, and the load of SerDes
microcode.
-/

namespace Sys2Proof.Machine

/-! ### Requests (R421–R423) -/

/-- The latched fault whose ISOLATE reaction calls for a fence of domain `d` (R438). -/
def State.fenceCause (s : State) (d : Nat) : Option Nat :=
  (s.quench.faults.find? (fun e => e.2.latched && decide (2 ≤ e.2.applied) && faultTarget e.1 == .domain d)).map (·.1)

/-- Firmware completes its window, marks it done and fences the control complex, which enters reset (R430 steps 3 and
4). -/
def State.activateFence (s : State) (a : Activate) : State :=
  let s := { s with window := { s.window with done := s.window.done || s.window.opened } }
  let s := (s.setF MER_BUDGET_STAT.MISS_RUN 0).clearFault 0x141
  let s := { s with fw := { s.fw with activate := some { a with fenced := true } } }
  let s := s.fenceAccept .fwActivate 8 none
  let s := s.upFence 8 (fun x => { x with st := 2 })
  { s with fw := { s.fw with phase := 0 } }

/-- FENCE_REQUEST (R421–R423): the PF's for any domain, firmware's for Temper and Hallmark, Quench's where a fault
isolates the domain, FW_ACTIVATE's for the control complex. -/
def execFenceRequest (by_ : Requester) (domain : Nat) (s : State) : Answer State :=
  .next (match by_ with
    | .pf => if s.pcieUp then s.fenceAsk .pf domain none else s
    | .firmware => if s.fwRuns && (domain == 9 || domain == 10) then s.fenceAsk .firmware domain none else s
    | .quench =>
      (match s.fenceCause domain with
       | some id => s.fenceAsk .quench domain (some id)
       | none => s)
    | .fwActivate =>
      (match s.fw.activate with
       | some a => if domain == 8 && s.fwRuns && !a.fenced && !a.booted then s.activateFence a else s
       | none => s))

/-- Stamps still in the FIFO of port `p` when its tile enters FENCED are lost (R323, R424). -/
def State.loseStamps (s : State) (p : Nat) : State :=
  let s := s.drainStamps p
  let l := (s.port p).fifo
  if l.isEmpty then s
  else
    let host := (l.filter (fun e => e.ring.isSome)).length
    let s := s.upPort p (fun x => { x with fifo := [] })
    let s := (List.range host).foldl (fun s _ => s.countE (group 0 p) 31) s
    let s := (List.range (l.length - host)).foldl (fun s _ => s.countE (group 0 p) 32) s
    s.setF TPL_TB_HIST.STAMP_LOST_SEEN 1

/-- FENCE_COMPLETE (R423 step 4, R424): a tile's stamps have been delivered as far as their rings take them. -/
def execFenceComplete (domain : Nat) (s : State) : Answer State :=
  .next (if (s.fence domain).st = 1 then
      let s := if domain < 8 then ((List.range 32).map (domain * 32 + ·)).foldl (fun s p => s.loseStamps p) s else s
      s.upFence domain (fun x => { x with st := 2 })
    else s)

/-! ### Reset (R425, R432) -/

/-- The register fields of block `b` (thousands of a field's identity) at their reset values where `gone` holds of the
field and copy. -/
def State.resetBlock (s : State) (b : Nat) (gone : Nat → Nat → Bool) : State :=
  { s with regs := s.regs.filter (fun e =>
      !(decide (e.1 / 65536 / 1000 = b) && gone (e.1 / 65536) (e.1 % 65536))) }

/-- Whether copy `i` of field `f` of the tile block lies in tile `t`: the spill registers stand once per tile, the others
once per port or lane. -/
def tileOf (t f i : Nat) : Bool :=
  if decide (TIL_EGR_SPILL.SPILL_ON.id ≤ f) then i == t else i / 32 == t

/-- Whether counter group `g` is held in tile `t` (R520): the groups of its ports and lanes, and its ACL blocks. -/
def tileGroup (t g : Nat) : Bool :=
  (decide (g / 8192 < 4) && decide (g % 8192 < 256) && g % 8192 / 32 == t) || (g / 8192 == 5 && g % 8192 / 256 == t)

/-- Tile `t` is reset: its registers, its ports and lanes, its counters (R520), its guard stores (R459) and its microcode
(R425, R432). -/
def State.tileReset (s : State) (t : Nat) : State :=
  let s := s.resetBlock 2 (tileOf t)
  let s := { s with
    ports := s.ports.filter (fun e => e.1 / 32 != t)
    lanes := s.lanes.map (fun (e : Nat × Lane) => if e.1 / 32 = t then (e.1, { gated := e.2.gated }) else e)
    phases := s.phases.filter (fun e => e.1 / 32 != t)
    quench := { s.quench with allow := s.quench.allow.map (fun (e : Nat × Allow) =>
      if e.1 / 32 = t then (e.1, { e.2 with entries := [], next := none, bad := false }) else e) }
    counters := { s.counters with
      val := s.counters.val.filter (fun e => !tileGroup t (e.1 / 512))
      told := s.counters.told.filter (fun e => !tileGroup t (e.1 / 512)) } }
  s.clrF GLB_UCODE_STAT.READY (1 <<< t)

/-- The fields of the pair's registers. -/
def pairField (f : Nat) : Bool := decide (GLB_PAIR_CFG.PAIR_EN.id ≤ f ∧ f ≤ GLB_PAIR_HIST.JOIN_REFUSED.id)

/-- A FENCED domain is reset (R425). -/
def State.resetDomain (s : State) (d : Nat) : State :=
  let s := (s.upFence d (fun x => { x with rst := true })).countDrops
  if d < 8 then s.tileReset d
  else if d = 8 then { s with fw := { s.fw with running := false, phase := 0 } }
  else if d = 9 then
    let s := s.resetBlock 6 (fun _ _ => true)
    { s with temper := { items := s.temper.items } }
  else if d = 10 then { s.resetBlock 8 (fun _ _ => true) with hmk := {} }
  else { s.resetBlock 0 (fun f _ => pairField f) with pair := {} }

/-- DOMAIN_RESET (R425). -/
def execDomainReset (path : Path) (domain : Nat) (s : State) : Answer State :=
  .next (if !s.pfMay path || decide (12 ≤ domain) then s
    else if (s.fence domain).st = 2 then s.resetDomain domain
    else s.setF GLB_FENCE_HIST.RST_REFUSED 1)

/-- The reset of a domain ends (R425). -/
def State.resetEnd (s : State) (domain : Nat) : State :=
  if (s.fence domain).rst then s.upFence domain (fun x => { x with rst := false }) else s

/-- UCODE_LOAD_COMPLETE (R432): firmware's load into a reset tile ends. -/
def execUcodeLoadComplete (tile : Nat) (ok : Bool) (s : State) : Answer State :=
  .next (if !s.fwRuns || (s.fence tile).rst || bit (s.getF PWR_GATE_STAT.TILE_GATED) tile ||
      bit (s.getF GLB_UCODE_STAT.READY) tile then s
    else if ok then s.orF GLB_UCODE_STAT.READY (1 <<< tile)
    else s.orF GLB_UCODE_STAT.UCODE_ERR (1 <<< tile))

/-! ### Release (R426) -/

/-- Whether a release of a FENCED domain is refused (R426, R510, R549). -/
def State.releaseRefused (s : State) (who : Requester) (d : Nat) : Bool :=
  let f := s.fence d
  (who == .firmware && f.by_ != .firmware) ||
  (match f.fault with | some id => f.by_ == .quench && (s.faultSt id).latched | none => false) ||
  (decide (d < 8) && (!bit (s.getF GLB_UCODE_STAT.READY) d || bit (s.getF PWR_GATE_STAT.TILE_GATED) d)) ||
  f.bist || (d == 8 && f.by_ == .fwActivate)

/-- FENCE_RELEASE (R426): the PF's, or firmware's. -/
def execFenceRelease (by_ : Requester) (domain : Nat) (s : State) : Answer State :=
  .next (let may := match by_ with
      | .pf => s.pcieUp
      | .firmware => s.fwRuns
      | _ => false
    if !may || (s.fence domain).st ≠ 2 then s
    else if s.releaseRefused by_ domain then s.setF GLB_FENCE_HIST.REL_REFUSED 1
    else s.upFence domain (fun x => { x with st := 3 }))

/-! ### Unfencing (R427) -/

/-- Whether the fabric holds no cell of tile `t`'s streams from before the fence (R222). -/
def State.fabricClear (s : State) (t : Nat) : Bool :=
  let mine : Cell → Bool := fun c => c.src == t || (!c.multicast && c.dst == t)
  s.fabric.flight1.all (fun x => !mine x.2) && s.fabric.flight2.all (fun x => x.2.cells.all (fun c => !mine c)) &&
  s.fabric.banks.all (fun b => b.2.queues.all (fun q => q.2.all (fun c => !mine c))) &&
  s.fabric.uni.all (fun r => r.2.held.all (fun h => !mine h.cell)) &&
  s.fabric.mc.all (fun r => r.2.held.all (fun h => !mine h.cell)) &&
  (List.range 8).all (fun i => (s.stream i t).closed.isEmpty && (s.stream i (8 + t)).closed.isEmpty)

/-- Every stream to and from tile `t` restarts at SEQ 0 (R222, R427 step 3); the frames that ended in a cell lost on a link,
whose gap nothing will skip any more, are lost. -/
def State.restartStreams (s : State) (t : Nat) : State :=
  let restart : Stream → Stream := fun x => { x with seq := 0 }
  let s := (List.range 18).foldl (fun s x => s.upStream t x restart) s
  let s := (List.range 8).foldl (fun s i => (s.upStream i t restart).upStream i (8 + t) restart) s
  let old := s.fabric.lost.filter (fun c => c.src == t || c.dst == t)
  let s := old.foldl (fun s c => s.loseCell c.dst 0x24 c) s
  { s with fabric := { s.fabric with
      uni := s.fabric.uni.filter (fun e => e.1 / 16 != t && e.1 / 2 % 8 != t)
      mc := s.fabric.mc.filter (fun e => e.1 / 16 != t && e.1 / 2 % 8 != t)
      lost := s.fabric.lost.filter (fun c => c.src != t && c.dst != t) } }

/-- What a domain that enters OPEN takes up again: the enabled ports of a tile are no longer squelched (R147), a lane part that
was in progress there has no result (R503), firmware reinstalls its allow-lists (R459), its copy of the serving time is loaded (R312), and the control complex takes the stamps that waited for it (R322). -/
def State.opened (s : State) (d : Nat) : State :=
  if d < 8 then
    let s := ((s.clrF GLB_FAB_STAT.FENCED_TILES (1 <<< d)).restartStreams d).clearFault (0x10 + 16 * d)
    let s := s.forgetUnit d
    let s := match s.temper.part with
      | some l => if l != timingPart && l / 32 == d then s.endPart l false else s
      | none => s
    let s := { s with time := { s.time with copies := Tab.erase s.time.copies d } }
    let s := (((List.range 32).map (d * 32 + ·)).filter (fun p => s.portEnabled p && s.portState p == 1)).foldl
      (fun s p => s.upPort p (fun x => { x with line := 1 })) s
    if s.fw.running then
      { s with quench := { s.quench with allow := s.quench.allow.map (fun (e : Nat × Allow) =>
          if e.1 / 32 = d then (e.1, { e.2 with entries := e.2.kept }) else e) } }
    else s
  else if d = 8 then
    let s := ({ s with fw := { s.fw with running := decide (2 ≤ s.fw.phase) } }).temperResume
    (Tab.keys s.ports).foldl (fun s p => s.drainStamps p) s
  else if d = 9 then s.temperResume
  else s

/-- UNFENCE_COMPLETE (R427): for a tile once the fabric holds none of its old cells (R222), and once a reset has ended
(R419). -/
def execUnfenceComplete (domain : Nat) (s : State) : Answer State :=
  .next (if (s.fence domain).st ≠ 3 || (s.fence domain).rst || (decide (domain < 8) && !s.fabricClear domain) then s
    else (s.upFence domain (fun x => { x with st := 0, fault := none })).opened domain)

end Sys2Proof.Machine
end

