-- ==== Sys2Proof/Machine/Quench.lean ====
section
/-!
DEFINITION. The commands of Quench (R437–R460): faults presented and cleared, the comparison of its sides, the time guard,
the output monitor, the guard stores and ALLOW_SET; and what a mismatch of the timebases does (R463–R466).
-/

namespace Sys2Proof.Machine

/-! ### Timebase mismatch (R464, R465) -/

/-- The verdict on a mismatch that the residues do not decide (R464): the tile copies that are right agree with the healthy
side, which needs five of the eight. -/
def State.tbVerdict (s : State) (verdict : Nat) : Nat :=
  if decide (2 ≤ verdict ∧ verdict ≤ 3) &&
      decide (((List.range 8).filter (fun t => Tab.getD s.time.copies t 0 == 0)).length < 5) then 4
  else verdict

/-- A mismatch of `ps` picoseconds: `verdict` 0 says that A is the healthy side, 1 that B is, both by residue; 2 and 3 the
same by the majority of the tile copies; 4 that there is no majority.  With a side failed already none is healthy. -/
def State.tbMismatch (s : State) (verdict ps : Nat) : State :=
  let s := s.setF TPL_TB_CMP.MISMATCH_CNT (sat 255 (s.getF TPL_TB_CMP.MISMATCH_CNT + 1))
  let d : Int := (ps : Int) * psU
  if s.isF TPL_TB_CMP.A_FAILED then { s with time := { s.time with a := s.time.b + d } }
  else if s.isF TPL_TB_CMP.B_FAILED then { s with time := { s.time with b := s.time.a + d } }
  else if decide (4 ≤ verdict) then
    if s.isF TPL_TB_STAT.SERVING then { s with time := { s.time with a := s.time.b + d } }
    else { s with time := { s.time with b := s.time.a + d } }
  else if verdict % 2 = 0 then
    let t := s.now
    ({ s with time := { s.time with a := t, b := t + d } }.setF TPL_TB_STAT.SERVING 0).setF TPL_TB_CMP.B_FAILED 1
  else
    let t := s.now
    ({ s with time := { s.time with b := t, a := t + d } }.setF TPL_TB_STAT.SERVING 1).setF TPL_TB_CMP.A_FAILED 1

/-- The occurrences that Quench sees of what is presented: a mismatch without majority is also TB_UNDECIDED (R464), and
its verdict is no field of the record; a guard fault's master is its port (R458). -/
def State.sourceOccs (s : State) (o : FaultOcc) : List FaultOcc :=
  if o.id = 0xC0 then
    let r : FaultOcc := { o with masterKind := 0, masterId := 0, detail := sat 0xFFFFFFFF o.detail, momentary := false }
    if decide (4 ≤ s.tbVerdict o.masterId) && !s.isF TPL_TB_CMP.A_FAILED && !s.isF TPL_TB_CMP.B_FAILED then
      [r, { id := 0xC6, detail := r.detail }]
    else [r]
  else if faultTarget o.id == .guarded then [{ o with masterKind := 1 }]
  else [o]

/-- What a presented fault's own source does (R414, R464). -/
def State.sourceAction (s : State) (o : FaultOcc) : State :=
  if o.id = 0xC0 then s.tbMismatch (s.tbVerdict o.masterId) o.detail
  else if o.id = 0xA2 then
    (s.orF GLB_XING_OVR.XING_OVR (1 <<< (o.detail % 6))).setF GLB_FENCE_HIST.XING_OVR 1
  else s

/-- Whether a presented occurrence reaches Quench: a lost pulse raises its NOTICE once per setting of its bit (R414). -/
def State.presented (s : State) (o : FaultOcc) : Bool :=
  o.id != 0xA2 || !bit (s.getF GLB_XING_OVR.XING_OVR) (o.detail % 6)

/-- FAULT_PRESENT (R442–R448): the faults that become present in one cycle. -/
def execFaultPresent (occs : List FaultOcc) (s : State) : Answer State :=
  .next (let l := (occs.filter (fun o => s.presented o)).flatMap (fun o => s.sourceOccs o)
    (occs.foldl (fun s o => s.sourceAction o) s).raiseCycle l)

/-- Whether the state of the block itself still makes the condition of an ID present (R437, R452, R383, R374, R35). -/
def State.demanded (s : State) (id : Nat) : Bool :=
  (id == 0 && decide (s.fw.phase = 0)) || id == 0x120 ||
  (decide (0xC8 ≤ id ∧ id ≤ 0xCE) && !s.isF TPL_PLL_STAT.LOCK (id - 0xC8)) ||
  (decide (0xC1 ≤ id ∧ id ≤ 0xC4) && s.getF TPL_DPLL_STAT.STATE (id - 0xC1) == 4) ||
  (id == 0x141 && decide (3 ≤ s.getF MER_BUDGET_STAT.MISS_RUN)) || id == 0xC0

/-- FAULT_CLEAR (R447): the condition of an ID ends. -/
def execFaultClear (id : Nat) (s : State) : Answer State := .next (if s.demanded id then s else s.clearFault id)

/-- QUENCH_SIDE_COMPARE (R441): while the TCLK side does not answer, every reaction is the AON side's alone. -/
def execQuenchSideCompare (a : SideAnswer) (s : State) : Answer State :=
  .next (let s := { s with quench := { s.quench with sideDead := a == SideAnswer.silent } }
    if a == SideAnswer.agrees then s.clearFault 1 else s.raise 1)

/-! ### The time guard (R452–R454) -/

/-- TIME_BOUND_NS as it acts. -/
def State.timeBoundNs (s : State) : Nat := max 100 (s.getF QCH_CFG.TIME_BOUND_NS)

/-- HO_RATE_PPB as it acts. -/
def State.hoRate (s : State) : Nat := max 1 (s.getF QCH_CFG.HO_RATE_PPB)

/-- B in whole nanoseconds (QCH_TG_STAT.BOUND_NS). -/
def State.boundNs (s : State) : Nat := s.quench.bound / 10000000000

/-- Whether the safety pair writes an assurance now (R453): DPLL0 is LOCKED, an offset was measured in the window and not
held back as a discontinuity, and the window has had none yet. -/
def State.mayAssure (s : State) : Bool :=
  s.fwRuns && s.getF TPL_DPLL_STAT.STATE 0 == 2 && s.window.measured && !s.window.assured

/-- QCH_ASSURE (R452–R454): the safety pair's assurance. -/
def execQchAssure (eNs : Nat) (s : State) : Answer State :=
  .next (if !s.mayAssure then s
    else
      let e := eNs % 16777216
      let s' := { s with quench := { s.quench with bound := e * 10000000000 }, window := { s.window with assured := true } }
      let s' := (s'.setF QCH_STATE.TG_ARMED 1).notePins s
      if s'.timeBoundNs ≤ e then s'.raise 0x120 e
      else if 2 * e ≤ s'.timeBoundNs then s'.clearFault 0x120
      else s')

/-- TIME_BOUND (R452): `aonCycles` AON cycles pass, each taken as 42.2 ns. -/
def execTimeBound (aonCycles : Nat) (s : State) : Answer State :=
  .next (if !s.armed then s
    else
      let s := { s with quench := { s.quench with bound := s.quench.bound + s.hoRate * 422 * aonCycles } }
      if s.timeBoundNs ≤ s.boundNs then s.raise 0x120 s.boundNs else s)

/-- LOCK (R439). -/
def execLock (path : Path) (s : State) : Answer State :=
  .next (if s.pfMay path then s.setF QCH_LOCK.LOCK 1 else s)

/-! ### Monitors (R455, R459) -/

/-- CLKOUT_MONITOR (R455): over 100 µs, CLKOUTn was `active` and deviated by `devPpm`. -/
def execClkoutMonitor (n : Nat) (devPpm : Int) (active : Bool) (s : State) : Answer State :=
  .next (let bad := if s.clkActive n then decide (100 < devPpm.natAbs) else active
    if bad then s.raise (0xD0 + n) else s.clearFault (0xD0 + n))

/-- A guarded port's store. -/
def State.allowOf (s : State) (p : Nat) : Allow := Tab.getD s.quench.allow p {}
def State.upAllow (s : State) (p : Nat) (f : Allow → Allow) : State :=
  { s with quench := { s.quench with allow := Tab.update s.quench.allow p {} f } }

/-- The guarded ports. -/
def State.guardedPorts (s : State) : List Nat := (List.range 256).filter (fun p => s.guarded p)

/-- GUARD_SCRUB (R459): the stores of the guarded ports in `bad` fail their CRC. -/
def execGuardScrub (bad : List Nat) (s : State) : Answer State :=
  .next (let ports := s.guardedPorts
    let fresh := ports.filter (fun p => bad.contains p && !(s.allowOf p).bad)
    let s := ports.foldl (fun s p => s.upAllow p (fun x => { x with bad := bad.contains p })) s
    let s := (List.range 8).foldl (fun s t =>
      if ports.any (fun p => bad.contains p && p / 32 == t) then s else s.clearFault (0x15 + 16 * t)) s
    s.raiseCycle (fresh.map (fun p => { id := 0x15 + 16 * (p / 32), masterKind := 1, masterId := p })))

/-! ### ALLOW_SET (R460, R563) -/

/-- Entry `i` of an allow-list buffer; an IPv4 address lies in the first 4 bytes of its field. -/
def allowEnt (b : Bytes) (i : Nat) : AllowEnt :=
  let o := 64 + 40 * i
  let n := if bit (leAt b (o + 34) 2) 0 then 16 else 4
  { dst := beAt b o n, src := beAt b (o + 16) n, dport := leAt b (o + 32) 2, af := bits (leAt b (o + 34) 2) 0 1,
    srcAny := bit (leAt b (o + 34) 2) 1 }

/-- Whether entry `i`'s reserved bits are 0. -/
def allowEntOk (b : Bytes) (i : Nat) : Bool :=
  let o := 64 + 40 * i
  decide (leAt b (o + 34) 2 < 4) && allZero b (o + 36) 4

/-- Whether an ALLOW_SET buffer is well formed. -/
def allowSetOk (c : Cmd) : Bool :=
  let b := c.data
  let n := leAt b 4 4
  c.indirect && decide (n ≤ 1024) && c.dataLen == 160 + 40 * n && decide (leAt b 0 4 < 1024) &&
  decide (leAt b 0 4 % 512 < 256) && c.target == leAt b 0 4 % 512 && allZero b 12 52 &&
  (bit (leAt b 0 4) 9 || n == 0) && (List.range n).all (fun i => allowEntOk b i)

/-- Whether an owner key is provisioned (R563): that of the highest programmed slot, present in flash. -/
def State.ownerKey (s : State) : Bool := if s.fuses.owner1 then s.flash.key1 else s.fuses.owner0 && s.flash.key0

/-- Whether one more guarded port would break the limits of R457. -/
def State.guardFull (s : State) (p : Nat) : Bool :=
  let l := s.guardedPorts
  !s.guarded p && (decide (64 ≤ l.length) || decide (8 ≤ (l.filter (fun q => q / 32 == p / 32)).length))

/-- ALLOW_SET (R457, R460). -/
def execAllowSet (c : Cmd) (sigOk : Bool) (s : State) : Answer State :=
  .next (s.fwCommand 0xC0 c (fun s =>
    if !allowSetOk c then s.done c stBadArg
    else
      let p := c.target
      let b := c.data
      let seq := leAt b 8 4
      let on := bit (leAt b 0 4) 9
      let old := match (s.allowOf p).seq with | some q => decide (seq ≤ q) | none => false
      if (s.allowOf p).next.isSome then s.done c stBusy
      else if (s.fence (p / 32)).st ≠ 0 then s.done c stFenced
      else if !s.ownerKey || !sigOk || old then s.done c stAuth
      else if on && s.guardFull p then s.done c stBadArg
      else
        let es := if on then (List.range (leAt b 4 4)).map (fun i => allowEnt b i) else []
        let s := s.upAllow p (fun x => { x with next := some es, kept := es, seq := some seq })
        let s := if on then s.orF QCH_GUARD_PORTS.GUARDED (1 <<< (p % 32)) (p / 32)
          else s.clrF QCH_GUARD_PORTS.GUARDED (1 <<< (p % 32)) (p / 32)
        s.done c stOk))

end Sys2Proof.Machine
end

