-- ==== Sys2Proof/Machine/StartUp.lean ====
section
/-!
DEFINITION. Start-up (R504–R506, R542–R563): power-on, the rail sequence, self-test, the boot ROM, FW_RUN and its timeout,
and the reset of the whole device.
-/

namespace Sys2Proof.Machine

/-! ### Power-on and the rails (R505, R506, R542, R543) -/

/-- STAGE of GLB_BOOT_STAT (R544). -/
def State.stage (s : State) : Nat := s.getF GLB_BOOT_STAT.STAGE

/-- OWNER_SLOT of the fuses (R562). -/
def Fuses.ownerSlot (f : Fuses) : Nat := if f.owner1 then 2 else if f.owner0 then 1 else 0

/-- The fuses as GLB_FUSE_SEC shows them (R544 step 1). -/
def State.showFuses (s : State) : State :=
  ((s.setF GLB_FUSE_SEC.SVN_MIN s.fuses.svnMin).setF GLB_FUSE_SEC.KEY_REVOKED s.fuses.keyRevoked).setF
    GLB_FUSE_SEC.OWNER_SLOT s.fuses.ownerSlot

/-- POWER_ON (R542, R550): t0; straps and fuses are taken, and RAIL_SEQ starts with VDD_CORE at 0.800 V. -/
def execPowerOn (straps : Nat) (s : State) : Answer State :=
  .next (if s.boot.aonUp then s
    else
      let s := (s.setF GLB_STRAP.STRAPS straps).showFuses
      let s := (s.setF GLB_BOOT_STAT.STAGE 2).setF PWR_AVS_STAT.VCORE_MV 800
      { s with boot := { s.boot with aonUp := true, safeHeld := true, railsOn := 1 } })

/-- VDD_1V8_SAFE_HOLD (R543). -/
def execVdd1v8SafeHold (s : State) : Answer State := .next { s with boot := { s.boot with safeHeld := true } }

/-- Whether RAIL_SEQ is under way. -/
def State.sequencing (s : State) : Bool := s.boot.aonUp && s.stage == 2 && !s.boot.waiting && !s.boot.stopped

/-- RAIL_IN_WINDOW (R505): the rail enabled last has stayed in its window for 1 ms; with the sixth the core starts. The
voltage read is not stated. -/
def execRailInWindow (rail : Nat) (s : State) : Answer State :=
  .next (if !s.sequencing || s.boot.railsOn != rail + 1 then s
    else
      let d := s.draw
      let s := (d.2.setF PWR_RAIL.VOUT_MV d.1 rail).setF PWR_RAIL.IN_WINDOW 1 rail
      let s := s.orF PWR_SEQ_STAT.RAILS_UP (1 <<< rail)
      if rail = 5 then
        let s := (s.setF PWR_SEQ_STAT.SEQ_DONE 1).setF GLB_BOOT_STAT.STAGE 3
        { s with boot := { s.boot with coreUp := true } }
      else { s with boot := { s.boot with railsOn := rail + 2 } })

/-- RAIL_SEQ_FAIL (R505, R506): the attempt fails for `rail`, and the enabled rails are disabled. -/
def execRailSeqFail (rail : Nat) (s : State) : Answer State :=
  .next (if !s.sequencing then s
    else
      let s := (s.setF PWR_SEQ_STAT.RAILS_UP 0).resetF PWR_RAIL.IN_WINDOW
      { s with boot := { s.boot with
          railsOn := 0, failures := s.boot.failures + 1, failRail := rail, waiting := true } })

/-- RAIL_SEQ_RETRY (R506): the next attempt, or the stop after three. -/
def execRailSeqRetry (s : State) : Answer State :=
  .next (if !s.boot.waiting then s
    else if s.boot.failures < 3 then
      let s := s.setF PWR_SEQ_STAT.ATTEMPT s.boot.failures
      { s with boot := { s.boot with waiting := false, railsOn := 1 } }
    else
      let s := (s.setF PWR_SEQ_STAT.SEQ_FAIL 1).setF PWR_SEQ_STAT.FAIL_RAIL s.boot.failRail
      let s := (s.setF GLB_BOOT_STAT.STAGE 7).setF GLB_BOOT_STAT.FAIL_REASON 1
      { s with boot := { s.boot with waiting := false, stopped := true } })

/-! ### Self-test (R544, R549, R552) -/

/-- A domain that failed self-test is left FENCED (R549); a tile is also gated, the others may not be released. -/
def State.leaveFenced (s : State) (d : Nat) : State :=
  let s := s.upFence d (fun _ => { st := 2, by_ := .quench, bist := decide (8 ≤ d) })
  if d < 8 then
    ((s.orF GLB_FAB_STAT.FENCED_TILES (1 <<< d)).orF PWR_GATE.TILE_GATE (1 <<< d)).orF PWR_GATE_STAT.TILE_GATED (1 <<< d)
  else s

/-- SELFTEST_COMPLETE (R549): failed tiles, failed blocks (bit 0 Temper, 1 Hallmark, 2 Rivet link), fatal failures. -/
def execSelftestComplete (tileFail blockFail fatal : Nat) (s : State) : Answer State :=
  .next (if s.stage != 3 then s
    else
      let s := (s.setF GLB_BOOT_STAT.BIST_FAIL tileFail).setF GLB_BOOT_STAT.BLOCK_FAIL blockFail
      let s := (bitsSet 8 tileFail ++ (bitsSet 3 blockFail).map (fun i => 9 + i)).foldl (fun (s : State) d => s.leaveFenced d) s
      if fatal % 128 != 0 then
        ((s.setF GLB_BOOT_STAT.STAGE 7).setF GLB_BOOT_STAT.FAIL_REASON 2).setF GLB_BOOT_FAIL.FATAL_BLOCK fatal
      else
        let s := s.setF GLB_BOOT_STAT.STAGE 4
        if bit (s.getF GLB_STRAP.STRAPS) 0 then s.setF GLB_BOOT_STAT.TEST_MODE 1 else s)

/-- HIF_READY (R544 step 5, R546): link training starts where PE_RST_N is deasserted. -/
def execHifReady (s : State) : Answer State :=
  .next (if !s.boot.coreUp || bit (s.getF GLB_BOOT_FAIL.FATAL_BLOCK) 2 then s
    else
      let s := s.setF GLB_BOOT_STAT.HIF_READY 1
      { s with boot := { s.boot with training := !s.boot.peRst && !s.boot.linkUp } })

/-! ### The boot ROM (R431, R551, R558, R559) -/

/-- The slot to which BOOT_FORCE holds the boot ROM, if it does (R551). -/
def State.forcedSlot (s : State) : Option Nat :=
  match bits (s.getF GLB_STRAP.STRAPS) 10 2 with
  | 1 => some 0
  | 2 => some 1
  | _ => none

/-- The slots that the boot ROM tries, in order (R558, R559). -/
def State.bootSlots (s : State) : List Nat :=
  match s.forcedSlot, s.boot.retry with
  | some x, _ => [x]
  | none, some x => [x]
  | none, none => [s.flash.recordSlot, 1 - s.flash.recordSlot]

/-- Whether the boot ROM accepts the image of a slot (R558). -/
def State.slotBoots (s : State) (slot : Nat) : Bool :=
  match s.slotImage slot with
  | some i => s.imageOk i
  | none => false

/-- Slot `slot` is started (R558): STAGE, SLOT and FALLBACK show it (R579). -/
def State.startSlot (s : State) (slot : Nat) (fallback : Bool) : State :=
  let s := ((s.setF GLB_BOOT_STAT.STAGE 5).setF GLB_BOOT_STAT.SLOT slot).setF GLB_BOOT_STAT.FALLBACK (flag fallback)
  { s with fw := { s.fw with phase := 1 } }

/-- GLB_FW_VER shows the image of the first boot since t0 (R579). -/
def State.showVersion (s : State) (slot : Nat) : State :=
  match s.slotImage slot with
  | some i =>
    (((s.setF GLB_FW_VER.PATCH i.patch).setF GLB_FW_VER.MINOR i.minor).setF GLB_FW_VER.MAJOR i.major).setF
      GLB_FW_VER.SVN i.svn
  | none => s

/-- No slot boots (R558): reason FW, and the SPI pins are released. -/
def State.bootFails (s : State) : State :=
  let s := (s.setF GLB_BOOT_STAT.STAGE 7).setF GLB_BOOT_STAT.FAIL_REASON 3
  { s with boot := { s.boot with spiReleased := true } }

/-- The boot at the end of self-test, or of the other slot after R559: BOOT_HOLD's condition clears (R437), and a fallback
raises its NOTICE. -/
def State.bootStart (s : State) : State :=
  let slots := s.bootSlots
  match slots.find? (fun x => s.slotBoots x) with
  | none => s.bootFails
  | some x =>
    let fallback := s.boot.retried || slots.head? != some x
    let s := (s.startSlot x fallback).clearFault 0
    let s := if s.boot.retried then s else s.showVersion x
    if fallback then s.raiseOnce 0x143 else s

/-- The previous slot is booted again (R431); the command completes with `status`. -/
def State.activateBack (s : State) (a : Activate) (status : Nat) : State :=
  let s := ({ s with fw := { s.fw with activate := none } }).done a.cmd status
  if s.slotBoots a.prev then s.startSlot a.prev true else s.bootFails

/-- The control complex, reset under FW_ACTIVATE's fence, boots the new slot (R430 step 4, R431). -/
def State.activateBoot (s : State) (a : Activate) : State :=
  if s.slotBoots a.slot then
    let s := s.startSlot a.slot false
    { s with fw := { s.fw with activate := some { a with booted := true } } }
  else s.activateBack a stAuth

/-- BOOT (R558): at FW_LOAD; under FW_ACTIVATE; or of the same image after a reset under R425, which GLB_BOOT_STAT does
not show (R579). -/
def execBoot (s : State) : Answer State :=
  .next (if !s.boot.coreUp || s.fw.phase != 0 || s.isF GLB_BOOT_STAT.TEST_MODE then s
    else
      match s.fw.activate with
      | some a => if a.fenced && !a.booted then s.activateBoot a else s
      | none =>
        if s.stage = 4 then s.bootStart
        else if decide (5 ≤ s.stage ∧ s.stage ≤ 6) && !(s.fence 8).rst && s.slotBoots s.runningSlot then
          { s with fw := { s.fw with phase := 1 } }
        else s)

/-- BOOT_DONE_TIMEOUT (R559): no first done mark within 3 s of FW_RUN. -/
def execBootDoneTimeout (s : State) : Answer State :=
  .next (if s.stage != 5 || s.fw.phase == 0 || s.fw.activate.isSome || (s.fence 8).st != 0 then s
    else
      let other := 1 - s.runningSlot
      let s := (if s.fw.running then s.fwStops else s).raise 0
      let s := { s with fw := { s.fw with running := false, phase := 0 } }
      if s.boot.retried then (s.setF GLB_BOOT_STAT.STAGE 7).setF GLB_BOOT_STAT.FAIL_REASON 4
      else
        let s := s.setF GLB_BOOT_STAT.STAGE 4
        { s with boot := { s.boot with retry := some other, retried := true } })

/-! ### FW_RUN (R545) -/

/-- Step 1: the board configuration record is applied, or its absence reported, and LOCK is set (R561). -/
def State.applyBcr (s : State) : State :=
  let s := match s.flash.bcr with
    | some b =>
      let s := (s.setF QCH_CFG.TIME_BOUND_NS b.cfg.toNat).setF QCH_CFG.HO_RATE_PPB (b.cfg.toNat / 65536)
      (b.sev.take 64).foldl (fun (s : State) (e : Nat × Nat) => if e.1 < 512 then s.setF QCH_SEV.SEV e.2 e.1 else s) s
    | none => (s.setF GLB_BOOT_STAT.BCR_MISSING 1).raiseOnce 4
  s.setF QCH_LOCK.LOCK 1

/-- Owner key provisioning (R562): the lowest blank hash slot whose key is in flash. -/
def State.provision (s : State) : State :=
  if !bit (s.getF GLB_STRAP.STRAPS) 12 then s
  else
    let f := s.fuses
    let f := if !f.owner0 && s.flash.key0 then { f with owner0 := true }
      else if !f.owner1 && s.flash.key1 then { f with owner1 := true } else f
    ({ s with fuses := f }).setF GLB_FUSE_SEC.OWNER_SLOT f.ownerSlot

/-- Step 2: HOURS, LIFE_PPM and the TRACE record (R492, R515). -/
def State.restoreLife (s : State) : State :=
  let s := (s.setF PWR_HOURS.HOURS s.flash.hours).setF PWR_LIFE.LIFE_PPM s.flash.lifePpm
  let s := (s.setF TMP_STAT.TRACE_VALID (flag s.flash.trace)).setF TMP_STAT.FACTORY_TRACE (flag (!s.flash.trace))
  { s with temper := { s.temper with cal := if s.flash.trace then s.flash.cal else none } }

/-- One band-table entry (R384): PLL, entry, F_LO, F_HI, BAND. -/
def State.loadBand (s : State) (b : Nat × Nat × Nat × Nat × Nat) : State :=
  if decide (b.1 < 7) && decide (b.2.1 < 16) then
    let i := b.1 * 16 + b.2.1
    (((s.setF TPL_BAND_RANGE.F_LO b.2.2.1 i).setF TPL_BAND_RANGE.F_HI b.2.2.2.1 i).setF
      TPL_BAND_SEL.BAND b.2.2.2.2 i).setF TPL_BAND_SEL.VALID 1 i
  else s

/-- What stamps use of a correction entry stands until the next servo update after a write (R328). -/
def State.holdCorr (s : State) (dir i : Nat) : State :=
  let k := dir * 65536 + i
  if (Tab.get? s.time.stcHold k).isSome then s
  else
    let v := if dir = 0 then s.getF TPL_STC_TX.TX_CORR i else s.getF TPL_STC_RX.RX_CORR i
    { s with time := { s.time with stcHold := Tab.set s.time.stcHold k v } }

/-- One characterised correction pair (R315): port, MODE, TX_CORR, RX_CORR. -/
def State.loadCorr (s : State) (c : Nat × Nat × Int × Int) : State :=
  if decide (c.1 < 256) && decide (c.2.1 < 16) then
    let i := c.1 * 16 + c.2.1
    let s := (s.holdCorr 0 i).holdCorr 1 i
    (s.setF TPL_STC_TX.TX_CORR (unsign 20 c.2.2.1) i).setF TPL_STC_RX.RX_CORR (unsign 20 c.2.2.2) i
  else s

/-- Reference 25 is enabled for DPLL0 (R364): entry 0 is written where every entry has PRIO 0. -/
def State.enableRef25 (s : State) : State :=
  let s := (s.setF TPL_REF_CFG.MON_EN 1 25).settleRef 25 (s.isF TPL_REF_CFG.DNU 25)
  if (List.range 8).all (fun e => s.prioOf 0 e == 0) then
    (((s.setF TPL_DPLL_PRIO.REF 25 0).setF TPL_DPLL_PRIO.PRIO 1 0).setF TPL_DPLL_PRIO.REVERT 0 0).setF TPL_DPLL_CFG.MODE 0 0
  else s

/-- Step 3: band tables, correction tables, reference 25; APLL2 and APLL3 start on the bands now given (log entry 42). -/
def State.fillTables (s : State) (l : FwLoad) : State :=
  let s := l.corrections.foldl (fun s c => s.loadCorr c) (l.bands.foldl (fun s b => s.loadBand b) s)
  [5, 6].foldl (fun s j => if s.isF TPL_PLL_STAT.LOCK j then s else s.apllStart j) s.enableRef25

/-- Step 4: microcode into every tile that is neither gated nor loaded (R432). -/
def State.loadUcode (s : State) (ok : Nat) : State :=
  (List.range 8).foldl (fun s t =>
    if bit (s.getF PWR_GATE_STAT.TILE_GATED) t || bit (s.getF GLB_UCODE_STAT.READY) t then s
    else if bit ok t then s.orF GLB_UCODE_STAT.READY (1 <<< t)
    else s.orF GLB_UCODE_STAT.UCODE_ERR (1 <<< t)) s

/-- FW_ACTIVATE's fence is lifted by the image that starts (R430, R431); the NOTICE of a return to the previous slot follows
it, for the fence would mask it (R449). -/
def State.liftFence (s : State) : State :=
  if (s.fence 8).st != 0 && (s.fence 8).by_ == .fwActivate then
    let s := s.upFence 8 (fun x => { x with st := 0, by_ := .pf, fault := none, rst := false })
    let s := match s.fw.activate with
      | some a => { s with fw := { s.fw with activate := some { a with fenced := false } } }
      | none => s
    if s.isF GLB_BOOT_STAT.FALLBACK then s.raiseOnce 0x143 else s
  else s

/-- Step 5: FIXED on every unit (R494). -/
def State.startTemper (s : State) : State :=
  ((List.range 9).foldl (fun s u => s.trigger u Machine.allLanes) s).temperResume

/-- FW_RUN (R545 steps 1 to 5).  Firmware of any signed image behaves as the manual describes; what an image outside versions
3.0.0 to 3.255.255 does the spec leaves undescribed (R20, R560), and giving it the same behaviour is the model's choice (log
entry 47). -/
def execFwRun (load : FwLoad) (s : State) : Answer State :=
  .next (if s.fw.phase != 1 || !((s.fence 8).st == 0 || (s.fence 8).by_ == .fwActivate) then s
    else
      let s := s.liftFence
      let s := { s with fw := { s.fw with running := true, phase := 2 } }
      let s := if s.isF QCH_LOCK.LOCK then s else s.applyBcr.provision
      let s := ((s.restoreLife.fillTables load).loadUcode load.ucodeOk).setF HMK_TRACE_CFG.BR_EN (flag load.brEn)
      s.startTemper)

/-! ### The whole device (R547, R548) -/

/-- Everything is reset; the flash, the fuses, PE_RST_N, what has been sent and what waits stay. -/
def State.wholeReset (s : State) (held : Bool) : State :=
  { State.reset with
    flash := s.flash, fuses := s.fuses, free := s.free, out := s.out, pending := s.pending
    boot := { safeHeld := held, peRst := s.boot.peRst } }

/-- DEVICE_RESET (R547): RESET_N low for `lowNs`; between 1 and 10 µs it may or may not reset the device. -/
def execDeviceReset (lowNs : Nat) (s : State) : Answer State :=
  .next (if lowNs < 1000 then s
    else if 10000 ≤ lowNs then s.wholeReset true
    else
      let s' := { s with free := s.free + 1 }
      if Config.freeBool s.free then s'.wholeReset true else s')

/-- AON_RAIL_FAIL (R548): without the always-on rails the board holds SAFE_N, and nothing of the device remains. -/
def execAonRailFail (s : State) : Answer State := .next (s.wholeReset false)

/-! ### Firmware update (R111, R430, R431) -/

/-- FW_STAGE (R430 step 1): a chunk of an image into the slot that does not run; `img` says what the slot then holds. -/
def execFwStage (c : Cmd) (img : Image) (s : State) : Answer State :=
  .next (s.fwCommand 0xB0 c (fun s =>
    if !c.indirect || decide (12582912 < c.a3.toNat + c.dataLen) then s.done c stBadArg
    else if s.fw.activate.isSome then s.done c stBusy
    else if !img.sigOk then s.done c stAuth
    else
      let s := if s.runningSlot = 0 then { s with flash := { s.flash with slotB := some img } }
        else { s with flash := { s.flash with slotA := some img } }
      s.done c stOk c.dataLen))

/-- Whether an image passes the signature check of FW_ACTIVATE (R430 step 2). -/
def signatureOk (i : Option Image) : Bool :=
  match i with
  | some i => i.magicLenOk && i.keyOk && i.sigOk
  | none => false

/-- FW_ACTIVATE (R430 step 2): firmware holds the command from here on. -/
def execFwActivate (c : Cmd) (s : State) : Answer State :=
  .next (s.fwCommand 0xB1 c (fun s =>
    let slot := c.a2.toNat
    if decide (1 < slot) || slot == s.runningSlot then s.done c stBadArg
    else if s.fw.activate.isSome then s.done c stBusy
    else if !signatureOk (s.slotImage slot) then s.done c stAuth
    else { s with fw := { s.fw with activate := some { cmd := c, slot := slot, prev := s.runningSlot } } }))

/-- FW_ACTIVATE_FENCE (R430 steps 3 and 4): the fence, the reset and the boot of the new slot. -/
def execFwActivateFence (s : State) : Answer State :=
  .next (match s.fw.activate with
    | some a =>
      if a.booted then s
      else if a.fenced then s.activateBoot a
      else if s.fwRuns then
        let s := s.activateFence a
        s.activateBoot { a with fenced := true }
      else s
    | none => s)

/-- FW_ACTIVATE_TIMEOUT (R431): no done mark within 2 s of the reset. -/
def execFwActivateTimeout (s : State) : Answer State :=
  .next (match s.fw.activate with
    | some a =>
      if !a.booted then s
      else
        let s := { s with fw := { s.fw with activate := none } }
        let s := if (s.fence 8).st = 0 then s.fenceAccept .fwActivate 8 none else s
        let s := s.upFence 8 (fun x => { x with st := 2 })
        let s := { s with fw := { s.fw with running := false, phase := 0 } }
        s.activateBack a stFenced
    | none => s)

end Sys2Proof.Machine
end

