-- ==== Sys2Proof/Machine/Power.lean ====
section
/-!
DEFINITION. The power manager (R503–R516): rail polls, adaptive voltage scaling, gating of tiles and lanes, thermal
sensing, aging and service life.
-/

namespace Sys2Proof.Machine

/-- A condition of the power manager's is present: at its start the history bit is set and the fault raised. -/
def State.powerFault (s : State) (seen : Fld) (id detail : Nat) : State :=
  if (s.faultSt id).present then s else (s.setF seen 1).raise id detail

/-! ### Rails (R504, R507) -/

/-- The voltage in mV that rail `r` is to have (R504). -/
def State.railTarget (s : State) (r : Nat) : Nat :=
  if r = 0 then s.getF PWR_AVS_STAT.VCORE_MV else [850, 850, 900, 900, 1200, 1200].getD r 0

/-- Whether `v` mV lies within the window of rail `r`: 3% either side. -/
def State.railInside (s : State) (r v : Nat) : Bool :=
  decide (100 * ((v : Int) - s.railTarget r).natAbs ≤ 3 * s.railTarget r)

/-- One poll of rail `r`. -/
def State.pollRail (s : State) (r : Nat) (x : RailReading) : State :=
  match x.vout with
  | none => { s with pwr := { s.pwr with silentRun := Tab.update s.pwr.silentRun r 0 (· + 1) } }
  | some v =>
    let inside := s.railInside r v
    let s := (s.setF PWR_RAIL.VOUT_MV v r).setF PWR_RAIL.IN_WINDOW (flag inside) r
    let s := if inside then s.orF PWR_SEQ_STAT.RAILS_UP (1 <<< r) else s.clrF PWR_SEQ_STAT.RAILS_UP (1 <<< r)
    { s with pwr := { s.pwr with
        silentRun := Tab.set s.pwr.silentRun r 0
        outRun := Tab.set s.pwr.outRun r (if inside then 0 else Tab.getD s.pwr.outRun r 0 + 1) } }

/-- Whether rail `r` is at fault after a poll that gave `x`. -/
def State.railBad (s : State) (r : Nat) (x : RailReading) : Bool :=
  x.statusFault || decide (3 ≤ Tab.getD s.pwr.outRun r 0) || decide (3 ≤ Tab.getD s.pwr.silentRun r 0)

/-- RAIL_POLL (R507). -/
def execRailPoll (readings : List RailReading) (s : State) : Answer State :=
  .next (if !s.boot.coreUp then s
    else
      let at_ := fun r => readings.getD r { vout := none }
      let s := (List.range 6).foldl (fun (s : State) r => s.pollRail r (at_ r)) s
      match (List.range 6).find? (fun r => s.railBad r (at_ r)) with
      | some r => s.powerFault PWR_HIST.RAIL_FAULT_SEEN 0x180 r
      | none => s.clearFault 0x180)

/-! ### Adaptive voltage scaling (R508, R509) -/

/-- Temper sees a new temperature or core target (R494, R500). -/
def State.temperCheck (s : State) : State := if s.temperOn then s.judgeDt.autoTrigger else s

/-- The core target becomes `v` half millivolts. -/
def State.setCore (s : State) (v : Nat) : State :=
  (({ s with pwr := { s.pwr with core := v } }).setF PWR_AVS_STAT.VCORE_MV (v / 2)).temperCheck

/-- LOW_PS and HIGH_PS as they act. -/
def State.highPs (s : State) : Nat := max (s.getF PWR_AVS_CFG.LOW_PS) (s.getF PWR_AVS_CFG.HIGH_PS)

/-- AVS_PERIOD (R508): `margins` are those of the replicas that are not gated, in ps. -/
def execAvsPeriod (margins : List Nat) (s : State) : Answer State :=
  .next (match s.boot.coreUp && s.isF PWR_AVS_CFG.AVS_EN, margins with
    | true, x :: t =>
      let m := t.foldl min x
      let s := s.setF PWR_AVS_STAT.MARGIN_PS (sat 255 m)
      let s := if m < 15 then s else s.clearFault 0x184
      let run := s.getF TMP_STAT.STATE == 1 || s.getF TMP_STAT.STATE == 2
      if m < s.getF PWR_AVS_CFG.LOW_PS then (if s.pwr.core + 5 ≤ 1640 then s.setCore (s.pwr.core + 5) else s)
      else if decide (s.highPs < m) && !run && decide (1405 ≤ s.pwr.core) then s.setCore (s.pwr.core - 5)
      else s
    | _, _ => s)

/-- The lane part in progress starts again from its first measurement (R503). -/
def State.restartPart (s : State) : State :=
  match s.temper.part with
  | some l =>
    let ks := s.partItems l
    { s with temper := { s.temper with
        open_ := ks
        items := s.temper.items.map (fun (e : Nat × Item) => if ks.contains e.1 then (e.1, { e.2 with meas := [] }) else e) } }
  | none => s

/-- MARGIN_EMERGENCY (R503, R509). -/
def execMarginEmergency (margin : Nat) (s : State) : Answer State :=
  .next (if !s.boot.coreUp || decide (15 ≤ margin) then s
    else
      let s := s.setF PWR_AVS_STAT.MARGIN_PS margin
      if s.pwr.core = 1640 then s.powerFault PWR_HIST.AVS_LIMIT_SEEN 0x184 0
      else (s.setCore (min 1640 (s.pwr.core + 20))).restartPart)

/-! ### Gating (R510, R511) -/

/-- Whether a write on `p` to the power-manager block takes effect: the PF's, or the management port's under I2C_WR
(R554). -/
def State.pwrMay (s : State) (p : Path) : Bool :=
  match p with
  | .pf => s.pcieUp
  | .mgmt => s.boot.aonUp && bit (s.getF GLB_STRAP.STRAPS) 9
  | .vf _ => false

/-- TILE_GATE_SET (R510): the tile loses its supplies, and with them its registers and its sensors' readings. -/
def execTileGateSet (path : Path) (tile : Nat) (s : State) : Answer State :=
  .next (if !s.pwrMay path || decide (8 ≤ tile) || bit (s.getF PWR_GATE.TILE_GATE) tile then s
    else if (s.fence tile).st ≠ 2 then s.setF PWR_HIST.GATE_REFUSED 1
    else
      let s := (s.orF PWR_GATE.TILE_GATE (1 <<< tile)).orF PWR_GATE_STAT.TILE_GATED (1 <<< tile)
      let s := s.tileReset tile
      (List.range 6).foldl (fun (s : State) i => s.setF PWR_SENSOR.VALID 0 (6 * tile + i)) s)

/-- A tile is powered again (R510): in FENCED, its registers at reset values. -/
def State.ungateTile (s : State) (path : Path) (tile : Nat) : State :=
  if !s.pwrMay path || decide (8 ≤ tile) || !bit (s.getF PWR_GATE.TILE_GATE) tile then s
  else
    let s := (s.clrF PWR_GATE.TILE_GATE (1 <<< tile)).clrF PWR_GATE_STAT.TILE_GATED (1 <<< tile)
    s.tileReset tile

/-- Whether quad PLL `q` of a tile is gated (R511): all four of its lanes are. -/
def State.quadGated (s : State) (tile q : Nat) : Bool :=
  (List.range 4).all (fun i => (s.lane (tile * 32 + 4 * q + i)).gated)

/-- LANE_GATE (R511): a lane has belonged to no enabled port for 1 ms. -/
def execLaneGate (tile lane : Nat) (s : State) : Answer State :=
  .next (if s.isF PWR_GATE.LANE_GATE_EN && (s.laneOwner (tile * 32 + lane)).isNone then
      s.upLane (tile * 32 + lane) (fun x => { x with gated := true })
    else s)

/-! ### Temperature (R512, R513) -/

/-- The group of a sensor (R512). -/
def sensorGroup (i : Nat) : List Nat :=
  if i < 48 then (List.range 6).map (6 * (i / 6) + ·)
  else if i < 56 then (List.range 8).map (48 + ·)
  else if i < 60 then (List.range 4).map (56 + ·)
  else if i < 62 then [60, 61]
  else [i]

/-- A number in its place in a rising list. -/
def insertSorted (x : Int) : List Int → List Int
  | [] => [x]
  | y :: t => if x ≤ y then x :: y :: t else y :: insertSorted x t

/-- Twice the median: the middle reading, or the mean of the middle two. -/
def median2 (l : List Int) : Int :=
  let r := l.foldr insertSorted []
  r.getD ((l.length - 1) / 2) 0 + r.getD (l.length / 2) 0

/-- Whether sensor `i` reads validly (R510, R512), all readings in 0.25 °C. -/
def State.sensorOk (s : State) (temps : List Int) (i : Nat) : Bool :=
  let t := temps.getD i 0
  let m := median2 ((sensorGroup i).map (fun k => temps.getD k 0))
  !(decide (i < 48) && bit (s.getF PWR_GATE_STAT.TILE_GATED) (i / 6)) &&
  decide (-240 ≤ t ∧ t ≤ 600) && decide ((2 * t - m).natAbs ≤ 120)

/-- A temperature in a 10-bit field; outside ±128 °C the spec gives the field no value. -/
def State.setTemp (s : State) (f : Fld) (t : Int) (i : Nat) : State :=
  if -512 ≤ t ∧ t < 512 then s.setF f (unsign 10 t) i
  else let d := s.draw; d.2.setF f d.1 i

/-- The thresholds (R513): ALARM_C, ALARM_C − HYST_C and LIMIT_C as they act, in 0.25 °C. -/
def State.alarmAt (s : State) : Int := 4 * (s.getF PWR_THERM_CFG.ALARM_C : Int)
def State.alarmOff (s : State) : Int := s.alarmAt - 4 * (s.getF PWR_THERM_CFG.HYST_C : Int)
def State.limitAt (s : State) : Int :=
  4 * ((min 125 (max (s.getF PWR_THERM_CFG.LIMIT_C) (s.getF PWR_THERM_CFG.ALARM_C)) : Nat) : Int)

/-- The highest valid reading and its sensor, the lowest-numbered on a tie. -/
def hottest (temps : List Int) (valid : List Nat) : Option (Int × Nat) :=
  valid.foldl (fun b i =>
    match b with
    | some (t, k) => if t < temps.getD i 0 then some (temps.getD i 0, i) else some (t, k)
    | none => some (temps.getD i 0, i)) none

/-- TMAX is judged (R513). -/
def State.judgeTemp (s : State) (t : Int) (k : Nat) : State :=
  let s := (s.setTemp PWR_THERM_STAT.TMAX t 0).setF PWR_THERM_STAT.TMAX_SENSOR k
  let s := { s with pwr := { s.pwr with hourMax := some (match s.pwr.hourMax with | some x => max x t | none => t) } }
  let s := if s.alarmAt ≤ t then
      (s.setF PWR_THERM_STAT.ALARM 1).powerFault PWR_HIST.ALARM_SEEN 0x181 0
    else if t < s.alarmOff then (s.setF PWR_THERM_STAT.ALARM 0).clearFault 0x181 else s
  if s.limitAt ≤ t then (s.setF PWR_THERM_STAT.LIMIT 1).powerFault PWR_HIST.LIMIT_SEEN 0x182 0
  else (s.setF PWR_THERM_STAT.LIMIT 0).clearFault 0x182

/-- SENSOR_READ (R512, R513): the readings of sensors 0–63 in 0.25 °C; those of gated tiles are not looked at. -/
def execSensorRead (temps : List Int) (s : State) : Answer State :=
  .next (if !s.boot.coreUp then s
    else
      let live := (List.range 64).filter (fun i => !(decide (i < 48) && bit (s.getF PWR_GATE_STAT.TILE_GATED) (i / 6)))
      let valid := live.filter (fun i => s.sensorOk temps i)
      let bad := live.filter (fun i => !valid.contains i)
      let fresh := bad.any (fun i => s.isF PWR_SENSOR.VALID i) || (!bad.isEmpty && !(s.faultSt 0x183).present)
      let s := live.foldl (fun (s : State) i =>
        (s.setTemp PWR_SENSOR.TEMP (temps.getD i 0) i).setF PWR_SENSOR.VALID (flag (valid.contains i)) i) s
      let s := if fresh then s.setF PWR_HIST.SENSOR_FAIL_SEEN 1 else s
      let s := if bad.isEmpty then s.clearFault 0x183 else s.raise 0x183
      let s := match hottest temps valid with
        | some x => s.judgeTemp x.1 x.2
        | none => s
      s.temperCheck)

/-! ### Aging and service life (R514, R515) -/

/-- AGING_MEASURE (R514): the largest twin difference as core voltage, and the 24-hour mean of the AVS target, in mV. -/
def execAgingMeasure (ageMv meanMv : Nat) (s : State) : Answer State :=
  .next (if !s.boot.coreUp then s
    else
      let s := s.setF PWR_AVS_STAT.AGE_MV (sat 255 ageMv)
      if 805 < meanMv then s.powerFault PWR_HIST.AGING_SEEN 0x185 0 else s.clearFault 0x185)

/-- The weight of an hour with a TMAX of `t` quarter degrees, in hundredths (R515). -/
def hourWeight (t : Int) : Nat :=
  if t ≤ 260 then 25 else if t ≤ 300 then 40 else if t ≤ 340 then 60 else if t ≤ 380 then 100
  else if t ≤ 420 then 180 else 400

/-- HOUR_TICK (R515): a powered hour ends; firmware saves both counters. -/
def execHourTick (s : State) : Answer State :=
  .next (if !s.boot.aonUp then s
    else
      let t := match s.pwr.hourMax with | some t => t | none => signed 10 (s.getF PWR_THERM_STAT.TMAX)
      let add := s.pwr.lifeFrac + 57078 * hourWeight t
      let s := (s.addF PWR_HOURS.HOURS 1).addF PWR_LIFE.LIFE_PPM (add / 1000000)
      let s := { s with pwr := { s.pwr with lifeFrac := add % 1000000, hourMax := none } }
      if s.fwRuns then
        { s with flash := { s.flash with hours := s.getF PWR_HOURS.HOURS, lifePpm := s.getF PWR_LIFE.LIFE_PPM } }
      else s)

end Sys2Proof.Machine
end

