-- ==== Sys2Proof/Machine/Hallmark.lean ====
section
/-!
DEFINITION. The commands of Hallmark (R527–R538): performance counters that wrap or are configured, and the trace frames
of the HMK lanes.
-/

namespace Sys2Proof.Machine

/-- PERF_COUNTER_WRAP (R530): counter `n` passes 2^48 − 1; `pc` is the instruction of a core counter's record. -/
def execPerfCounterWrap (n pc : Nat) (s : State) : Answer State :=
  .next (if s.hmkFenced || decide (312 ≤ n) || !s.isF HMK_PC_CFG.EN n || !s.perfCfgOk n then s
    else s.perfWrap n (if n < 272 then 0 else pc))

/-- A counter whose event or filter is refused sets FILT_ERR once it is enabled (R528). -/
def State.judgeFilter (s : State) (n : Nat) : State :=
  if s.isF HMK_PC_CFG.EN n && !s.perfCfgOk n then s.setF HMK_HIST.FILT_ERR 1 else s

/-- HMK_PC_CFG_WRITE (R527, R531): host writes to the safety pair's counters are ignored. -/
def execHmkPcCfgWrite (path : Path) (n : Nat) (value : Word) (s : State) : Answer State :=
  .next (if !s.pfMay path || decide (304 ≤ n) then s
    else
      let v := value.toNat
      let s := (s.setF HMK_PC_CFG.EN (bits v 0 1) n).setF HMK_PC_CFG.SAMPLE (bits v 1 1) n
      let s := (s.setF HMK_PC_CFG.ADDR_EN (bits v 2 1) n).setF HMK_PC_CFG.EVT (bits v 3 8) n
      let s := (s.setF HMK_PC_CFG.CLASS (bits v 11 8) n).setF HMK_PC_CFG.FUNC (bits v 19 6) n
      let s := (s.setF HMK_PC_CFG.SRC_KIND (bits v 25 2) n).setF HMK_PC_CFG.OWNER (bits v 27 5) n
      s.judgeFilter n)

/-- Whether the HMK lanes send (R536, R537): trace is enabled, selected for the lanes and not fenced. -/
def State.hmkLanes (s : State) : Bool :=
  s.boot.coreUp && s.isF HMK_TRACE_CFG.TRACE_EN && (s.traceOut == 1 || s.traceOut == 2) && !s.hmkFenced

/-- HMK_FRAME_SEND (R537): a frame of up to 45 records of 32 bytes; the lanes take turns. -/
def execHmkFrameSend (s : State) : Answer State :=
  .next (let l := recsThatFit 1440 (s.untaken true)
    if !s.hmkLanes || l.isEmpty then s
    else
      let q := s.hmk.frameSeq
      let s := (s.emit (.hmkFrame (q % 2) q l)).tookRecs true l.length
      { s with hmk := { s.hmk with frameSeq := (q + 1) % 4294967296 } })

end Sys2Proof.Machine
end

