-- ==== Sys2Proof/Machine/Jtag.lean ====
section
/-!
DEFINITION. The TAP (R539, R540, R552).  In mission mode every opcode but IDCODE and SAMPLE selects the bypass register.
-/

namespace Sys2Proof.Machine

/-- Whether the TEST_EN strap was set at t0 (R552). -/
def State.testMode (s : State) : Bool := bit (s.getF GLB_STRAP.STRAPS) 0

/-- The instruction register takes `ir`, and the pins are driven as `drive` says. -/
def State.tap (s : State) (ir drive : Nat) : State := { s with jtag := { s.jtag with ir := ir, drive := drive } }

/-- An instruction of test mode; in mission mode the bypass register is selected (R539). -/
def State.testOp (s : State) (ir drive : Nat) : State := if s.testMode then s.tap ir drive else s.tap 0xFF 0

/-- The device ID as it is shifted out, bit 0 first (R540): the version is REV. -/
def State.idBits (s : State) : List Bool :=
  let v := s.getF GLB_ID.REV * 268435456 + 0x5120 * 4096 + 0x2E5 * 2 + 1
  (List.range 32).map (fun i => bit v i)

/-- IDCODE (R540). -/
def execIdcode (s : State) : Answer State := .next ((s.tap 1 0).emit (.tdo s.idBits))

/-- SAMPLE (R539): the boundary cells are captured and shifted out. -/
def execSample (cells : List Bool) (s : State) : Answer State :=
  .next (let s := (s.tap 2 0).emit (.tdo cells)
    { s with jtag := { s.jtag with captured := cells } })

/-- BYPASS (R539): the bypass register captures a 0. -/
def execBypass (s : State) : Answer State := .next ((s.tap 0xFF 0).emit (.tdo [false]))

/-- EXTEST (R552): the pins take the boundary cells. -/
def execExtest (s : State) : Answer State := .next (s.testOp 0 1)

/-- PRELOAD (R552): the boundary cells are loaded; in mission mode the update stage has no effect (R539). -/
def execPreload (cells : List Bool) (s : State) : Answer State :=
  .next (let t := s.testOp 3 0
    if s.testMode then { t with jtag := { t.jtag with cells := cells } } else t)

/-- CLAMP (R552). -/
def execClamp (s : State) : Answer State := .next (s.testOp 4 2)

/-- HIGHZ (R552). -/
def execHighz (s : State) : Answer State := .next (s.testOp 5 3)

/-- EXTEST_PULSE (R552). -/
def execExtestPulse (s : State) : Answer State := .next (s.testOp 6 4)

/-- EXTEST_TRAIN (R552). -/
def execExtestTrain (s : State) : Answer State := .next (s.testOp 7 5)

end Sys2Proof.Machine
end

