-- ==== Sys2Proof/Machine/Access.lean ====
section
/-!
DEFINITION. Register accesses (R5–R12, R48, R49, R341, R416, R554, R580): where an address lies for a requester path, what
a register reads as, what a write does, the upper-half latches, and accesses that end without effect.
-/

namespace Sys2Proof.Machine

/-! ### Addresses (R48, R49, R580, R584) -/

/-- The function that makes accesses on a path; the management port sees what the PF sees (R554). -/
def pathFn (p : Path) : Nat := match p with | .vf k => k | _ => 0

/-- The number under which a path's latches are kept (R8). -/
def pathCode (p : Path) : Nat := match p with | .pf => 0 | .mgmt => 1 | .vf k => 1 + k

/-- The MSI-X vectors of the function that a path reaches (R46). -/
def pathVectors (p : Path) : Nat := match p with | .vf _ => 8 | _ => 256

/-- The place in the PF's BAR0 map of address `a` on a path (R48). -/
def fullAddr (p : Path) (a : Nat) : Nat := match p with | .vf _ => 0x100000 + a | _ => a

/-- The copy of register `d` that address `a` is, if one. -/
def RegDesc.copyAt (d : RegDesc) (a : Nat) : Option Nat :=
  let o := a - d.base
  let i1 := o / d.s1
  let r := o % d.s1
  if decide (d.base ≤ a) && decide (i1 < d.n1) && decide (r / d.s2 < d.n2) && r % d.s2 == 0 then some (i1 * d.n2 + r / d.s2)
  else none

/-- The registers of the block that holds address `a` (R580). -/
def blockRegs (a : Nat) : List RegDesc :=
  if a < 0x100000 then regsGlb
  else if a < 0x1000000 then regsHif
  else if a < 0x2000000 then regsTil
  else if a < 0x3000000 then []
  else if a < 0x3400000 then regsTpl
  else if a < 0x3800000 then regsMer
  else if a < 0x3A00000 then regsQch
  else if a < 0x3C00000 then regsTmp
  else if a < 0x3E00000 then regsPwr
  else if a < 0x4000000 then regsHmk
  else []

/-- The register and copy at address `a`, if a register occupies it (R7). -/
def findReg (a : Nat) : List RegDesc → Option (List Slot × Nat)
  | [] => none
  | d :: t => match d.copyAt a with
    | some i => some (d.slots, i)
    | none => findReg a t

/-- The registers that each function has for itself: doorbell and status block bases, and its MSI-X table. -/
def fnCopy (f a i : Nat) : Nat :=
  if 0x100400 ≤ a ∧ a < 0x100410 then f else if 0x108000 ≤ a ∧ a < 0x109000 then f * 256 + i else i

/-- Whether VF `k` reaches the register at `a` of the PF's map (R48, R49): its own ring registers, its own bases and the
eight entries of its MSI-X table. -/
def State.vfRegister (s : State) (k a : Nat) : Bool :=
  decide (0x100400 ≤ a ∧ a < 0x100410) || decide (0x108000 ≤ a ∧ a < 0x108080) ||
  (decide (0x101000 ≤ a ∧ a < 0x103000) && s.ringFn ((a - 0x101000) / 32) == k)

/-- The fields and the copy of the register that an access on a path at `addr` reaches; none where no register is, and
for the phase registers of a port number that a wider port leaves unused. -/
def State.locate (s : State) (p : Path) (addr : Nat) : Option (List Slot × Nat) :=
  let a := fullAddr p addr
  let may := match p with | .vf k => s.vfRegister k a | _ => true
  if !may || (decide (0x3020000 ≤ a ∧ a < 0x3022000) && s.portUnused ((a - 0x3020000) / 32)) then none
  else (findReg a (blockRegs a)).map (fun x => (x.1, fnCopy (pathFn p) a x.2))

/-! ### What a field reads as (R10) -/

/-- A word with bit `b` set where `p (32 * j + b)` holds. -/
def wordOf (p : Nat → Bool) (j : Nat) : Nat := maskOf ((List.range 32).filter (fun b => p (32 * j + b)))

/-- The level of GPIO pin `n` (R469, R553): what the pair logic drives or reads there, or what OUT drives under OE; the level
of a pin that the block does not drive is held in the field. -/
def State.gpioLevel (s : State) (n : Nat) : Bool :=
  if s.paired && n == s.getF GLB_PAIR_CFG.ACT_GPIO then s.pairAct
  else if s.paired && n == s.getF GLB_PAIR_CFG.PEER_GPIO then s.isF GLB_PAIR_STAT.PEER_ACT
  else if bit (s.getF GLB_GPIO_OE.OE) n then bit (s.getF GLB_GPIO_OUT.OUT) n
  else bit (s.getF GLB_GPIO_IN.IN) n

/-- Read views of the global block; the bits of GLB_FENCE_REQ, GLB_FENCE_REL and GLB_RST_CTRL stand while the action that
they ask for lasts (log entry 63). -/
def State.readGlb (s : State) (f : Fld) (i : Nat) : Nat :=
  let id := f.id
  if id == GLB_EPOCH.CURRENT.id then s.epochs.serial
  else if id == GLB_EPOCH.OLDEST.id then s.oldestEpoch
  else if id == GLB_EPOCH_LIVE.LIVE.id then s.liveEpochs
  else if id == GLB_EPOCH_LIVE.PENDING.id then s.epochs.commits.length
  else if id == GLB_LPM_UNITS.SHADOW_USED.id then s.lpmUnits
  else if id == GLB_BUF_SHARED.SHARED_SIZE.id then s.sharedSize.toNat
  else if id == GLB_BUF_SHUSED.SHARED_USED.id then s.acctSum 1
  else if id == GLB_MED_STAT.FLOWS.id then s.flowHandles.length
  else if id == GLB_MED_GROUPS.MERGE_USED.id then (s.merges.filter (fun e => !e.2.members.isEmpty)).length
  else if id == GLB_MED_GROUPS.CUT_USED.id then
    (s.cuts.filter (fun e => cutHasCands e.2.words)).length
  else if id == GLB_FENCE_STAT.STATE_D.id then
    (List.range 12).foldl (fun v d => v + (s.fence d).st % 4 * 4 ^ d) 0
  else if id == GLB_FENCE_REQ.REQ.id then
    maskOf ((List.range 12).filter (fun d => (s.fence d).st == 1 && (s.fence d).by_ == .pf))
  else if id == GLB_FENCE_REL.REL.id then maskOf ((List.range 12).filter (fun d => (s.fence d).st == 3))
  else if id == GLB_GPIO_IN.IN.id then maskOf ((List.range 16).filter (fun n => s.gpioLevel n))
  else if id == GLB_RST_CTRL.RST.id then maskOf ((List.range 12).filter (fun d => (s.fence d).rst))
  else if id == GLB_PAIR_STAT.SHADOWING.id then flag s.shadowing
  else if id == GLB_PAIR_STAT.RETURN_REM_S.id then
    if s.isF GLB_PAIR_CFG.PRIMARY && s.pairState == pairStandby && s.proven && s.isF GLB_PAIR_CFG.RETURN_S then
      ((s.pair.provenAt + s.returnHold - s.now + 1000000000 * nsU - 1) / (1000000000 * nsU)).toNat
    else 0
  else s.getF f i

/-- Read views of a tile. -/
def State.readTil (s : State) (f : Fld) (i : Nat) : Nat :=
  let id := f.id
  if id == TIL_EGR_STAT.SPILLED.id then
    (s.queues.filter (fun e => e.1 / 512 == i && e.2.spilled)).length
  else if id == TIL_SCH_CL6_RATE.RATE.id then (s.port i).rate6 / 1000000
  else if id == TIL_MED_RSV.RES_SUM_KBPS.id then s.resSum i
  else if id == TIL_MED_RSV_PG.PG_SUM_KBPS.id then s.pgSum i
  else if id == TIL_MED_STAT.OVERBOOKED.id then flag (s.overbooked i)
  else if id == TIL_PORT_TS.FIFO_LEVEL.id then (s.port i).fifo.length
  else s.getF f i

/-- What remains of the wait-to-restore of DPLL `k` in TCLK cycles, if one runs (R369). -/
def State.wtrLeft (s : State) (k : Nat) : Option Nat :=
  if (s.dpllState k == 1 || s.dpllState k == 2) && s.dpllMode k == 0 then
    (s.firstWait k).map (fun e =>
      (s.refr (s.prioRef k e)).qualAt + s.getF TPL_DPLL_CFG.WTR_S k * 250000000 - s.time.tclk)
  else none

/-- Read views of the timing plane. -/
def State.readTpl (s : State) (f : Fld) (i : Nat) : Nat :=
  let id := f.id
  if id == TPL_TB_ADJ_REM.ADJ_REM.id then
    unsign 32 (clampI (-2147483648) 2147483647 (Int.tdiv s.time.adj psU))
  else if id == TPL_TB_STAT.ADJ_BUSY.id then flag (s.time.adj != 0)
  else if id == TPL_DPLL_STAT.HIST_VALID.id then flag (s.histValid i)
  else if id == TPL_DPLL_STAT.WTR_RUN.id then flag (s.wtrLeft i).isSome
  else if id == TPL_DPLL_STAT.WTR_REM_S.id then ceilDiv ((s.wtrLeft i).getD 0) 250000000
  else if id == TPL_OUT_STAT.ACTIVE.id then flag (s.clkActive i)
  else if id == TPL_OUT_STAT.GATED.id then flag (s.clkGated i)
  else if id == TPL_OUT_STAT.QUENCHED.id then flag (s.clkQuenched i)
  else s.getF f i

/-- Read views of Meridian. -/
def State.readMer (s : State) (f : Fld) (i : Nat) : Nat :=
  let id := f.id
  if id == MER_GEN_FC_LO.FC.id then (s.gen i).fc
  else if id == MER_GEN_FC_HI.FC.id then (s.gen i).fc / 4294967296
  else if id == MER_GEN_STAT.SUPPRESSING.id then
    flag (s.isF MER_GEN_STAT.SUPPRESSING i && match (s.gen i).last with | some l => decide (s.now ≤ l) | none => false)
  else if id == MER_PIN_STAT.ACTIVE.id then
    flag ((Tab.getD s.pinCfg i {}).en && s.isF MER_GEN_CFG.EN (Tab.getD s.pinCfg i {}).gen && !s.tickQuenched i && (s.pairState != pairStandby || s.shadowing))
  else if id == MER_PIN_STAT.QUENCHED.id then flag (s.tickQuenched i)
  else s.getF f i

/-- Read views of Quench. -/
def State.readQch (s : State) (f : Fld) (i : Nat) : Nat :=
  let id := f.id
  if id == QCH_STATE.TICK_IDLE.id then bits s.safetyBits 0 1
  else if id == QCH_STATE.CLKOUT_IDLE.id then bits s.safetyBits 1 1
  else if id == QCH_STATE.PTP_SUPP.id then bits s.safetyBits 2 1
  else if id == QCH_STATE.GUARD_BLOCK.id then bits s.safetyBits 3 1
  else if id == QCH_STATE.SAFE.id then bits s.safetyBits 4 1
  else if id == QCH_STATE.ALARM.id then flag s.alarm
  else if id == QCH_TG_STAT.BOUND_NS.id then sat 0xFFFFFF s.boundNs
  else if id == QCH_ACTIVE.ACTIVE.id then wordOf (fun n => (s.faultSt n).present) i
  else if id == QCH_LATCHED.LATCHED.id then wordOf (fun n => (s.faultSt n).latched) i
  else s.getF f i

/-- Read views of Temper and Hallmark. -/
def State.readTmpHmk (s : State) (f : Fld) (i : Nat) : Nat :=
  let id := f.id
  if id == TMP_STAT.ENTERING.id then flag s.entering
  else if id == TMP_UNIT_T.AGE_S.id then
    (match Tab.get? s.temper.confirmedAt i with
      | some t => sat 65535 ((s.time.tclk - t) / 250000000)
      | none => 65535)
  else if id == HMK_TRACE_STAT.FIFO_LEVEL.id then fifoLevel s.hmk.fifo
  else if id == HMK_TRACE_STAT.LANES_UP.id then 3 * flag s.hmkLanes
  else s.getF f i

/-- The present value of a field's copy `i`: held in the field, or computed from what the engines hold. -/
def State.readField (s : State) (f : Fld) (i : Nat) : Nat :=
  let v := match f.id / 1000 with
    | 0 => s.readGlb f i
    | 2 => s.readTil f i
    | 3 => s.readTpl f i
    | 4 => s.readMer f i
    | 5 => s.readQch f i
    | 6 => s.readTmpHmk f i
    | 8 => s.readTmpHmk f i
    | _ => s.getF f i
  v % 2 ^ f.width

/-- A register's value from its fields (R9, R10). -/
def State.readSlots (s : State) (i : Nat) (l : List Slot) : Nat :=
  l.foldl (fun v x => v + accRead x.acc (s.readField x.fld i) * 2 ^ x.lo) 0

/-- Doubleword `d` of capture record `k` (R448). -/
def State.recWord (s : State) (k d : Nat) : Nat :=
  match Tab.get? s.quench.recs k with
  | none => 0
  | some r =>
    match d with
    | 0 => r.id % 512 + r.sevApplied % 4 * 512 + r.sevConf % 4 * 2048 + r.state % 4 * 8192 +
        flag r.clearedBefore * 32768 + flag r.escalated * 65536 + flag r.sameCycle * 131072 +
        flag r.timeInvalid * 262144 + r.occ % 256 * 16777216
    | 1 => r.masterKind % 16 + r.masterId % 4096 * 16 + r.access % 16 * 65536
    | 2 => r.addr % 4294967296
    | 3 => bits r.addr 32 32
    | 4 => r.tsNs % 1073741824
    | 5 => r.tsSec % 4294967296
    | 6 => bits r.tsSec 32 16 + r.frameLo % 65536 * 65536
    | _ => r.detail % 4294967296

/-- Doubleword `j` of the counter page as function `f` sees it (R532). -/
def State.pageWord (s : State) (f j : Nat) : Nat :=
  let n := j / 2
  if !bit (s.getF HMK_PAGE_EN.PAGE_EN) f || decide (312 ≤ n) ||
      (f != 0 && !(decide (n < 272) && s.getF HMK_PC_CFG.OWNER n == f)) then 0
  else if j % 2 = 0 then s.getF HMK_PC_VAL_LO.VALUE n
  else s.getF HMK_PC_VAL_HI.VALUE n + s.getF HMK_PC_VAL_HI.WRAP n * 2147483648

/-- What a 32-bit read on a path at `addr` finds now (R7, R10). -/
def State.readReg (s : State) (p : Path) (addr : Nat) : Nat :=
  let a := fullAddr p addr
  let f := pathFn p
  let vf := match p with | .vf _ => true | _ => false
  if 0x109000 ≤ a ∧ a < 0x109020 then bits (s.fn f).pba (32 * ((a - 0x109000) / 4)) 32
  else if 0x10A000 ≤ a ∧ a < 0x10B000 then s.pageWord f ((a - 0x10A000) / 4)
  else if !vf && decide (0x3802000 ≤ a ∧ a < 0x3802400) then s.recWord ((a - 0x3802000) / 32) ((a - 0x3802000) / 4 % 8)
  else
    match s.locate p addr with
    | some x => s.readSlots x.2 x.1
    | none => 0

/-- Whether accesses on a path arrive: PCI Express is up, or the management port is available (R554). -/
def State.pathUp (s : State) (p : Path) : Bool := match p with | .mgmt => s.boot.aonUp | _ => s.pcieUp

/-- A PCI Express access to BAR0 as the performance counters see it (R528). -/
def State.accessPerf (s : State) (p : Path) (addr : Nat) : State :=
  if p == .mgmt then s else s.perf 8 { code := 0x27, fn := some (pathFn p), addr := some addr }

/-! ### Upper halves (R6) -/

/-- The lower halves of the 64-bit quantities of BAR0: first address, distance, number of copies. -/
def lowerHalves : List (Nat × Nat × Nat) := [
  (0x200C, 4, 1), (0x100400, 8, 2), (0x101000, 32, 256), (0x101008, 32, 256), (0x108000, 16, 256), (0x109000, 8, 4),
  (0x10A000, 8, 512), (0x3000048, 4, 1), (0x3030018, 64, 16), (0x3030020, 64, 16), (0x3030028, 64, 16),
  (0x3030030, 64, 16), (0x3030038, 64, 16), (0x3400010, 32, 16), (0x3802008, 32, 32), (0x3E01010, 32, 312)]

/-- Whether `a` is the lower half of a 64-bit quantity. -/
def isLower (a : Nat) : Bool :=
  lowerHalves.any (fun e => decide (e.1 ≤ a) && (a - e.1) % e.2.1 == 0 && decide ((a - e.1) / e.2.1 < e.2.2))

/-- The key of a latch. -/
def latchKey (p : Path) (a : Nat) : Nat := pathCode p * 2 ^ 28 + a

/-- A value latched for a path at address `a` of the PF's map. -/
def State.setLatch (s : State) (p : Path) (a v : Nat) : State := { s with latch := Tab.set s.latch (latchKey p a) v }

/-- Whether BAR0 accepts an access (R5): aligned 32-bit ones; over PCI Express aligned 64-bit ones of the MSI-X table and
pending-bit array of the function, and aligned 64-bit reads of the counter page.  The management port carries only 32-bit
accesses. -/
def accessOk (p : Path) (addr bytes : Nat) (write : Bool) : Bool :=
  let a := fullAddr p addr
  (bytes == 4 && addr % 4 == 0) ||
  (bytes == 8 && addr % 8 == 0 && p != .mgmt &&
    (decide (0x108000 ≤ a ∧ a < 0x108000 + 16 * pathVectors p) ||
     decide (0x109000 ≤ a ∧ a < 0x109000 + max 8 (pathVectors p / 8)) ||
     (decide (0x10A000 ≤ a ∧ a < 0x10B000) && !write)))

/-- A 64-bit read (R5): both halves from one instant. -/
def State.readWide (s : State) (p : Path) (addr : Nat) : State :=
  ((s.accessPerf p addr).emit (.readData p addr (BitVec.ofNat 32 (s.readReg p addr)))).emit
    (.readData p (addr + 4) (BitVec.ofNat 32 (s.readReg p (addr + 4))))

/-- A read (R5–R8): it answers, and the upper half is latched for the path; a read of a latched upper half answers the
latched value.  An accepted 64-bit read (`wide`) answers with both halves of one instant. -/
def State.readAccess (s : State) (path : Path) (addr : Nat) (wide : Bool) : State :=
  if wide then (if accessOk path addr 8 false then s.readWide path addr else s)
  else
    let a := fullAddr path addr
    let v := match Tab.get? s.latch (latchKey path a) with
      | some x => if isLower a then s.readReg path addr else x
      | none => s.readReg path addr
    let s := if isLower a then s.setLatch path (a + 4) (s.readReg path (addr + 4)) else s
    (s.accessPerf path addr).emit (.readData path addr (BitVec.ofNat 32 v))

/-- A read of TPL_PH_STAT (R341): it answers, and the phase, edge and drift of the same window are latched. -/
def State.phStatRead (s : State) (path : Path) (port : Nat) : State :=
  let a := 0x3020000 + port * 32
  let v := s.readReg path (a + 4)
  let s := if s.portUnused port then s
    else ((s.setLatch path (a + 8) (s.readReg path (a + 8))).setLatch path (a + 12) (s.readReg path (a + 12))).setLatch
      path (a + 16) (s.readReg path (a + 16))
  (s.accessPerf path (a + 4)).emit (.readData path (a + 4) (BitVec.ofNat 32 v))

/-! ### Writes (R9, R10) -/

/-- The fields that a ring holds fixed while ENABLE is 1 (R60). -/
def ringFixed : List Nat := [
  HIF_RING_BASE_LO.ADDR.id, HIF_RING_BASE_HI.ADDR.id, HIF_RING_CQ_LO.ADDR.id, HIF_RING_CQ_HI.ADDR.id,
  HIF_RING_CFG.SIZE_LOG2.id, HIF_RING_CFG.TYPE.id, HIF_RING_CFG.FUNC.id, HIF_RING_GEN.GEN.id]

/-- A TIU channel's configuration (R348, R356). -/
def tiuFields : List Nat := [
  TPL_TIU_CFG.MODE.id, TPL_TIU_CFG.START_SRC.id, TPL_TIU_CFG.START_EDGE.id, TPL_TIU_CFG.STOP_SRC.id,
  TPL_TIU_CFG.STOP_EDGE.id, TPL_TIU_CFG.NLOG2.id, TPL_TIU_CFG.PRE_START.id, TPL_TIU_CFG.PRE_STOP.id,
  TPL_TIU_CFG.DITHER.id, TPL_TIU_WMIN.WIN_MIN.id, TPL_TIU_WMAX.WIN_MAX.id]

/-- The fields of a performance counter beside HMK_PC_CFG (R527). -/
def pcFields : List Nat := [
  HMK_PC_SRC.SRC_ID.id, HMK_PC_ADDR_LO.PAGE_LO.id, HMK_PC_ADDR_HI.PAGE_HI.id, HMK_PC_VAL_LO.VALUE.id,
  HMK_PC_VAL_HI.VALUE.id, HMK_PC_VAL_HI.WRAP.id, HMK_PC_PERIOD.PERIOD.id]

/-- Whether a write to the field is ignored now (R49, R60, R119, R299, R311, R348, R356, R527, R586). -/
def State.fieldFixed (s : State) (p : Path) (f : Fld) (i : Nat) : Bool :=
  let id := f.id
  (ringFixed.contains id && s.isF HIF_RING_CFG.ENABLE i) ||
  (pathFn p != 0 && (id == HIF_RING_CFG.TYPE.id || id == HIF_RING_CFG.FUNC.id)) ||
  ((id == TIL_PORT_CFG.MODE.id || id == TIL_PORT_CFG.FEC.id || id == TIL_PORT_CFG.TRAIN.id) &&
    s.isF TIL_PORT_CFG.ENABLE i) ||
  ((id == TPL_TB_INC_FRAC.INC_FRAC.id || id == TPL_TB_STEP_SEC.STEP_SEC.id || id == TPL_TB_STEP_NS.STEP_NS.id) &&
    !s.time.software) ||
  (tiuFields.contains id && (decide (12 ≤ i) || s.tiuState i == 1)) ||
  (id == TPL_PLL_VCO.F_VCO.id && decide (i < 5)) ||
  ((id == TPL_PLL_SSC.SSC_MODE.id || id == TPL_PLL_SSC.DEPTH.id) && decide (2 ≤ i)) ||
  ((id == QCH_CFG.TIME_BOUND_NS.id || id == QCH_CFG.HO_RATE_PPB.id || id == QCH_SEV.SEV.id) && s.isF QCH_LOCK.LOCK) ||
  (pcFields.contains id && decide (304 ≤ i))

/-- The fields on which the condition of XON depends (R211–R213). -/
def xonFields : List Nat := [
  GLB_BUF_ALPHA.ALPHA_C.id, GLB_BUF_HP.HP_POOL.id, TIL_BUF_XON.XON_GAP.id, TIL_BUF_GUAR0.GUAR_C.id, TIL_BUF_GUAR1.GUAR_C.id,
  TIL_BUF_HDRM0.HDRM_C.id, TIL_BUF_HDRM1.HDRM_C.id, GLB_BUF_LOGICAL.GUAR_256.id, GLB_BUF_LOGICAL.GUAR_257.id]

/-- What the block does at once when a field has been written: `old` is the state before the write. -/
def State.written (s old : State) (f : Fld) (i : Nat) : State :=
  let id := f.id
  if id == TIL_PORT_ADAPT.FREEZE_FORCE.id then s.freezeLanes i
  else if id == TIL_PORT_ADAPT.GUARD.id then s.clampGuard i
  else if id == TIL_MED_BUDGET.CL6_PCT.id then s.judgeOverbooked old i
  else if id == TPL_PLL_VCO.F_VCO.id then s.setF TPL_PLL_STAT.PENDING 1 i
  else if id == TPL_PLL_SSC.SSC_MODE.id || id == TPL_PLL_SSC.DEPTH.id then s.loadSsc i
  else if id == TPL_OUT_DIV.D.id || id == TPL_OUT_PW.HIGH.id then s.setF TPL_OUT_STAT.PENDING 1 i
  else if xonFields.contains id then s.xonAll
  else if id == TMP_CFG.AUTO_EN.id then s.temperCheck
  else if id == HIF_RING_CFG.VECTOR.id then
    (if s.ringState i == 1 && s.ringFn i != 0 && decide (8 ≤ s.getF HIF_RING_CFG.VECTOR i) then s.ringFail i 1 else s)
  else if id == HIF_MSIX_CTRL.MASK.id then
    let f := i / 256
    let v := i % 256
    if !s.isF HIF_MSIX_CTRL.MASK i && bit (s.fn f).pba v then
      (s.upFn f (fun x => { x with pba := putBit x.pba v false })).msix f v
    else s
  else s

/-- One field of a write (R10); a correction entry in force is held until the next servo update (R328). -/
def State.writeSlot (s : State) (p : Path) (i v : Nat) (x : Slot) : State :=
  if x.own || s.fieldFixed p x.fld i then s
  else
    let s := if x.fld.id == TPL_STC_TX.TX_CORR.id then s.holdCorr 0 i
      else if x.fld.id == TPL_STC_RX.RX_CORR.id then s.holdCorr 1 i else s
    (s.setF x.fld (accWrite x.acc (s.getF x.fld i) (bits v x.lo x.fld.width)) i).written s x.fld i

/-- Whether a write on a path to `addr` reaches a register: the management port writes the power manager's block only, and
that under I2C_WR (R554). -/
def State.writeMay (s : State) (p : Path) (addr : Nat) : Bool :=
  match p with
  | .mgmt => s.pwrMay p && decide (0x3C00000 ≤ addr ∧ addr < 0x3E00000)
  | _ => s.pcieUp

/-- The register at `addr` written with `v`: every field without a row of its own takes what its access code says.
Generators 1 to 15 stop with EN written 0, which has no row of its own. -/
def State.writeReg (s : State) (p : Path) (addr v : Nat) : State :=
  match s.locate p addr with
  | none => s
  | some x =>
    let s := x.1.foldl (fun s y => s.writeSlot p x.2 v y) s
    if x.1.any (fun y => y.fld.id == MER_GEN_CFG.EN.id) && !bit v 0 && x.2 != 0 then
      (s.setF MER_GEN_CFG.EN 0 x.2).setF MER_GEN_STAT.SUPPRESSING 0 x.2
    else s

/-- A write (R5, R7, R9, R10, R48, R49); an accepted 64-bit write carries the register above in `high`. -/
def State.writeAccess (s : State) (path : Path) (addr : Nat) (value : Word) (high : Option Word) : State :=
  match high with
  | none =>
    let s := s.accessPerf path addr
    if s.writeMay path addr then s.writeReg path addr value.toNat else s
  | some h =>
    if !accessOk path addr 8 true then s
    else ((s.accessPerf path addr).writeReg path addr value.toNat).writeReg path (addr + 4) h.toNat

/-! ### Stopped domains (R416, R417, R583) -/

/-- Whether the clock of the domain that holds the register at `a` of the PF's map is stopped (R26, R417): a tile in reset,
gated or without CCLK; TCLK for the timing plane and Meridian; Temper and Hallmark in reset.  The registers of the other blocks
are taken to stand in the always-on domain and the host interface's (log entry 69). -/
def State.stoppedAt (s : State) (a : Nat) : Bool :=
  if 0x1000000 ≤ a ∧ a < 0x2000000 then
    let t := (a - 0x1000000) / 0x200000
    (s.fence t).rst || bit (s.getF PWR_GATE_STAT.TILE_GATED) t || !s.cclk
  else if 0x3000000 ≤ a ∧ a < 0x3800000 then !s.time.running
  else if 0x3A00000 ≤ a ∧ a < 0x3C00000 then (s.fence 9).rst
  else if 0x3E00000 ≤ a ∧ a < 0x4000000 then (s.fence 10).rst
  else false

/-- Whether an access writes. -/
def StalledOp.isWrite : StalledOp → Bool
  | .write _ _ => true
  | _ => false

/-- Whether an access waits: the clock of its domain is stopped (R416), or it is a read behind a write of the same requester
that waits (R583). -/
def State.waits (s : State) (x : Stalled) : Bool :=
  s.stoppedAt (fullAddr x.path x.addr) ||
  (!x.op.isWrite && s.stalled.any (fun y => y.path == x.path && y.op.isWrite))

/-- An access is carried out. -/
def State.carryOut (s : State) (x : Stalled) : State :=
  match x.op with
  | .read wide => s.readAccess x.path x.addr wide
  | .write value high => s.writeAccess x.path x.addr value high
  | .phStat port => s.phStatRead x.path port

/-- An access arrives: it is carried out, or it stalls; on a path that is down there is none. -/
def State.access (s : State) (x : Stalled) : State :=
  if !s.pathUp x.path then s
  else if s.waits x then { s with stalled := s.stalled ++ [x] }
  else s.carryOut x

/-- A clock has returned or an access has ended: the accesses that wait are looked at again, in their order (R416, R583). -/
def State.resume (s : State) : State := s.stalled.foldl (fun s x => s.access x) { s with stalled := [] }

/-- REGISTER_LOWER_HALF_READ (R5–R8, R416). -/
def execRegisterLowerHalfRead (path : Path) (at_ : ReadAddr) (s : State) : Answer State :=
  .next (s.access { path := path, addr := at_.addr, op := .read at_.wide })

/-- TPL_PH_STAT_READ (R341, R416). -/
def execTplPhStatRead (path : Path) (port : Nat) (s : State) : Answer State :=
  .next (match path with
    | .vf _ => s
    | _ => s.access { path := path, addr := 0x3020004 + port * 32, op := .phStat port })

/-- REGISTER_WRITE (R5, R7, R9, R10, R48, R49, R416). -/
def execRegisterWrite (path : Path) (addr : Nat) (value : WriteData) (s : State) : Answer State :=
  .next (s.access { path := path, addr := addr, op := .write value.low value.high })

/-- DOMAIN_RESET_END (R416, R425): the domain's clock runs again, and accesses that stalled complete. -/
def execDomainResetEnd (domain : Nat) (s : State) : Answer State := .next (s.resetEnd domain).resume

/-- PLL_LOCK (R383, R416). -/
def execPllLock (j : Nat) (s : State) : Answer State := .next (s.pllLock j).resume

/-- TILE_GATE_CLEAR (R416, R510). -/
def execTileGateClear (path : Path) (tile : Nat) (s : State) : Answer State := .next (s.ungateTile path tile).resume

/-! ### Accesses without effect -/

/-- UNSUPPORTED_REQUEST (R5, R46, R554): an access that BAR0 does not accept completes with Unsupported Request, which the
function's AER logs; an accepted one is no such command (REGISTER_WRITE and REGISTER_LOWER_HALF_READ perform it).  On the
management port a read at such an offset returns all ones and a write is ignored. -/
def execUnsupportedRequest (path : Path) (addr bytes : Nat) (write : Bool) (s : State) : Answer State :=
  .next (if !s.pathUp path || accessOk path addr bytes write then s
    else
      match path with
      | .mgmt => if write then s else s.emit (.readData path addr 0xFFFFFFFF)
      | _ => (s.emit (.unsupported path addr)).emit (.aer (pathFn path) .unsupportedRequest))

/-- The master and access of a stalled access as its record shows them (R416, R448); a core's number and the kind of its
access are not stated. -/
def State.stallOcc (s : State) (kind : StallKind) (p : Path) (addr : Nat) : FaultOcc × State :=
  match kind, p with
  | .firmware, _ =>
    let d := s.draw
    let e := d.2.draw
    ({ id := 0xA1, masterKind := 4, masterId := d.1 % 5, access := 1 + e.1 % 2, addr := addr, momentary := true }, e.2)
  | k, .mgmt => ({ id := 0xA1, access := if k = .bar0Read then 1 else 2, addr := addr, momentary := true }, s)
  | k, _ => ({ id := 0xA1, masterKind := 3, masterId := pathFn p, access := if k = .bar0Read then 1 else 2, addr := addr,
               momentary := true }, s)

/-- The access at `addr` on `path` that has waited longest, taken off the list; a firmware access is not on it. -/
def State.dropStalled (s : State) (kind : StallKind) (path : Path) (addr : Nat) : State :=
  if kind == .firmware then s
  else { s with stalled := s.stalled.eraseP (fun x =>
    x.path == path && x.addr == addr && x.op.isWrite == (kind == .bar0Write)) }

/-- ACCESS_STALL_TIMEOUT (R416, R554): the access ends with an error, its address is recorded, and a NOTICE raised; what
waited behind it goes on (R583). -/
def execAccessStallTimeout (kind : StallKind) (path : Path) (addr : Nat) (s : State) : Answer State :=
  .next (if kind != .firmware && !s.pathUp path then s
    else
      let s := s.dropStalled kind path addr
      let o := s.stallOcc kind path addr
      let s := o.2.emit (.accessError kind path addr)
      let s := if kind == .bar0Read && path != .mgmt then s.emit (.aer (pathFn path) .completerAbort) else s
      let s := (s.setF GLB_STALL_ADDR.ADDR addr).setF GLB_FENCE_HIST.STALL_TO 1
      (s.raiseCycle [o.1]).resume)

end Sys2Proof.Machine
end

