-- ==== Sys2Proof/Machine/Dispatch.lean ====
section
/-!
DEFINITION. What each command does: one arm per row of the opcode table, each one call of that command's meaning.
-/

namespace Sys2Proof.Machine

def exec (i : Instr) (s : State) : Host.Outcome State Fault Refusal :=
  match i with
  | .registerWrite path addr value => Sys2Proof.Machine.execRegisterWrite path addr value s
  | .registerLowerHalfRead path at_ => Sys2Proof.Machine.execRegisterLowerHalfRead path at_ s
  | .unsupportedRequest path addr bytes write => Sys2Proof.Machine.execUnsupportedRequest path addr bytes write s
  | .tplPhStatRead path port => Sys2Proof.Machine.execTplPhStatRead path port s
  | .accessStallTimeout kind path addr => Sys2Proof.Machine.execAccessStallTimeout kind path addr s
  | .powerOn straps => Sys2Proof.Machine.execPowerOn straps s
  | .vdd1v8SafeHold => Sys2Proof.Machine.execVdd1v8SafeHold s
  | .railInWindow rail => Sys2Proof.Machine.execRailInWindow rail s
  | .railSeqFail rail => Sys2Proof.Machine.execRailSeqFail rail s
  | .railSeqRetry => Sys2Proof.Machine.execRailSeqRetry s
  | .selftestComplete tileFail blockFail fatal => Sys2Proof.Machine.execSelftestComplete tileFail blockFail fatal s
  | .hifReady => Sys2Proof.Machine.execHifReady s
  | .boot => Sys2Proof.Machine.execBoot s
  | .fwRun load => Sys2Proof.Machine.execFwRun load s
  | .bootDoneTimeout => Sys2Proof.Machine.execBootDoneTimeout s
  | .deviceReset lowNs => Sys2Proof.Machine.execDeviceReset lowNs s
  | .aonRailFail => Sys2Proof.Machine.execAonRailFail s
  | .peRstNAssert => Sys2Proof.Machine.execPeRstNAssert s
  | .peRstNDeassert => Sys2Proof.Machine.execPeRstNDeassert s
  | .pcieLinkLoss => Sys2Proof.Machine.execPcieLinkLoss s
  | .vfFunctionLevelReset vf => Sys2Proof.Machine.execVfFunctionLevelReset vf s
  | .pfFunctionLevelReset => Sys2Proof.Machine.execPfFunctionLevelReset s
  | .ringEnable path ring => Sys2Proof.Machine.execRingEnable path ring s
  | .ringDisable path ring => Sys2Proof.Machine.execRingDisable path ring s
  | .ringStopped ring => Sys2Proof.Machine.execRingStopped ring s
  | .doorbellScan fn => Sys2Proof.Machine.execDoorbellScan fn s
  | .doorbellReadComplete fn entries => Sys2Proof.Machine.execDoorbellReadComplete fn entries s
  | .descriptorFetch ring descs => Sys2Proof.Machine.execDescriptorFetch ring descs s
  | .dmaReadError e => Sys2Proof.Machine.execDmaReadError e s
  | .txFrameDataRead ring data => Sys2Proof.Machine.execTxFrameDataRead ring data s
  | .interruptTimer ring => Sys2Proof.Machine.execInterruptTimer ring s
  | .entryHoldDrain ring => Sys2Proof.Machine.execEntryHoldDrain ring s
  | .rxFrameWrite => Sys2Proof.Machine.execRxFrameWrite s
  | .rxHoldExpiry ring => Sys2Proof.Machine.execRxHoldExpiry ring s
  | .nop c => Sys2Proof.Machine.execNop c s
  | .tblWrite c => Sys2Proof.Machine.execTblWrite c s
  | .tblDelete c => Sys2Proof.Machine.execTblDelete c s
  | .tblBulk c => Sys2Proof.Machine.execTblBulk c s
  | .tblSync c => Sys2Proof.Machine.execTblSync c s
  | .tblCommit c => Sys2Proof.Machine.execTblCommit c s
  | .tblCancel c => Sys2Proof.Machine.execTblCancel c s
  | .tblRead c => Sys2Proof.Machine.execTblRead c s
  | .flowAdd c => Sys2Proof.Machine.execFlowAdd c s
  | .flowModify c => Sys2Proof.Machine.execFlowModify c s
  | .flowDelete c => Sys2Proof.Machine.execFlowDelete c s
  | .mergeSet c => Sys2Proof.Machine.execMergeSet c s
  | .cutGroupSet c => Sys2Proof.Machine.execCutGroupSet c s
  | .cutSelect c => Sys2Proof.Machine.execCutSelect c s
  | .ringPause c => Sys2Proof.Machine.execRingPause c s
  | .ringResume c => Sys2Proof.Machine.execRingResume c s
  | .cntRead c => Sys2Proof.Machine.execCntRead c s
  | .cntClear c => Sys2Proof.Machine.execCntClear c s
  | .pgSet c => Sys2Proof.Machine.execPgSet c s
  | .pgForce c => Sys2Proof.Machine.execPgForce c s
  | .vfGrant c => Sys2Proof.Machine.execVfGrant c s
  | .faultAck c => Sys2Proof.Machine.execFaultAck c s
  | .ptpPortCfg c => Sys2Proof.Machine.execPtpPortCfg c s
  | .timeCfg c => Sys2Proof.Machine.execTimeCfg c s
  | .timeAuth c => Sys2Proof.Machine.execTimeAuth c s
  | .dpllCfg c => Sys2Proof.Machine.execDpllCfg c s
  | .refCfg c => Sys2Proof.Machine.execRefCfg c s
  | .temperRun c => Sys2Proof.Machine.execTemperRun c s
  | .pairCfg c => Sys2Proof.Machine.execPairCfg c s
  | .pairSwitch c => Sys2Proof.Machine.execPairSwitch c s
  | .fwStage c img => Sys2Proof.Machine.execFwStage c img s
  | .fwActivate c => Sys2Proof.Machine.execFwActivate c s
  | .fwActivateFence => Sys2Proof.Machine.execFwActivateFence s
  | .fwActivateTimeout => Sys2Proof.Machine.execFwActivateTimeout s
  | .allowSet c sigOk => Sys2Proof.Machine.execAllowSet c sigOk s
  | .portEnable path port => Sys2Proof.Machine.execPortEnable path port s
  | .portDisable path port => Sys2Proof.Machine.execPortDisable path port s
  | .linkLoss port cause noSignal noCdr noLock rxBusy txBusy => Sys2Proof.Machine.execLinkLoss port cause noSignal noCdr noLock rxBusy txBusy s
  | .signalDetect port => Sys2Proof.Machine.execSignalDetect port s
  | .cdrLock port lock => Sys2Proof.Machine.execCdrLock port lock s
  | .trainingStart port => Sys2Proof.Machine.execTrainingStart port s
  | .trainingComplete port => Sys2Proof.Machine.execTrainingComplete port s
  | .holdoffEntry port coeffs => Sys2Proof.Machine.execHoldoffEntry port coeffs s
  | .holdoffExpiry port => Sys2Proof.Machine.execHoldoffExpiry port s
  | .fecDegradeWindow port counts => Sys2Proof.Machine.execFecDegradeWindow port counts s
  | .adaptGuardHit port lane coeff want => Sys2Proof.Machine.execAdaptGuardHit port lane coeff want s
  | .adaptResume port lane => Sys2Proof.Machine.execAdaptResume port lane s
  | .recapture path port coeffs => Sys2Proof.Machine.execRecapture path port coeffs s
  | .txLpiEnter port => Sys2Proof.Machine.execTxLpiEnter port s
  | .rxLpiEnter port => Sys2Proof.Machine.execRxLpiEnter port s
  | .frameReceive f => Sys2Proof.Machine.execFrameReceive f s
  | .flowControlFrameReceive port f => Sys2Proof.Machine.execFlowControlFrameReceive port f s
  | .pauseTimeExpiry port cls => Sys2Proof.Machine.execPauseTimeExpiry port cls s
  | .pfcRefresh port => Sys2Proof.Machine.execPfcRefresh port s
  | .pauseWatchdog port cls => Sys2Proof.Machine.execPauseWatchdog port cls s
  | .pauseRecoverEnd port cls => Sys2Proof.Machine.execPauseRecoverEnd port cls s
  | .lookup tile => Sys2Proof.Machine.execLookup tile s
  | .cellClose tile stream => Sys2Proof.Machine.execCellClose tile stream s
  | .fabricSlot ecc => Sys2Proof.Machine.execFabricSlot ecc s
  | .cellLand bank crcOk => Sys2Proof.Machine.execCellLand bank crcOk s
  | .visitReceive tile crcOk => Sys2Proof.Machine.execVisitReceive tile crcOk s
  | .reseqTimeout src dst hp => Sys2Proof.Machine.execReseqTimeout src dst hp s
  | .schedulerPick port phase dTx => Sys2Proof.Machine.execSchedulerPick port phase dTx s
  | .launchDue port q phase dTx => Sys2Proof.Machine.execLaunchDue port q phase dTx s
  | .ageCheck q => Sys2Proof.Machine.execAgeCheck q s
  | .epochDrained => Sys2Proof.Machine.execEpochDrained s
  | .pgWtrExpiry group => Sys2Proof.Machine.execPgWtrExpiry group s
  | .cutSweep => Sys2Proof.Machine.execCutSweep s
  | .mergeIdleExpiry group => Sys2Proof.Machine.execMergeIdleExpiry group s
  | .tickEdge gen => Sys2Proof.Machine.execTickEdge gen s
  | .commitCycle => Sys2Proof.Machine.execCommitCycle s
  | .budgetEnd => Sys2Proof.Machine.execBudgetEnd s
  | .merDone mark => Sys2Proof.Machine.execMerDone mark s
  | .rateGo path gen => Sys2Proof.Machine.execRateGo path gen s
  | .generatorEnable path gen => Sys2Proof.Machine.execGeneratorEnable path gen s
  | .servoUpdate badCopies => Sys2Proof.Machine.execServoUpdate badCopies s
  | .offsetMeasurement delta => Sys2Proof.Machine.execOffsetMeasurement delta s
  | .incNsWrite path value => Sys2Proof.Machine.execIncNsWrite path value s
  | .tplTbAdjWrite path value => Sys2Proof.Machine.execTplTbAdjWrite path value s
  | .stepGo path => Sys2Proof.Machine.execStepGo path s
  | .capture path => Sys2Proof.Machine.execCapture path s
  | .phaseBeat port rx tx edge => Sys2Proof.Machine.execPhaseBeat port rx tx edge s
  | .phaseWindowEnd port w => Sys2Proof.Machine.execPhaseWindowEnd port w s
  | .alignmentLoss port => Sys2Proof.Machine.execAlignmentLoss port s
  | .phEnSet path port => Sys2Proof.Machine.execPhEnSet path port s
  | .phEnClear path port => Sys2Proof.Machine.execPhEnClear path port s
  | .go path ch => Sys2Proof.Machine.execGo path ch s
  | .abort path ch => Sys2Proof.Machine.execAbort path ch s
  | .tiuEdge ch stop tclk e => Sys2Proof.Machine.execTiuEdge ch stop tclk e s
  | .tiuTimeout ch => Sys2Proof.Machine.execTiuTimeout ch s
  | .dpllLoopUpdate k x => Sys2Proof.Machine.execDpllLoopUpdate k x s
  | .dpllLockTime k => Sys2Proof.Machine.execDpllLockTime k s
  | .dpllWtrExpiry k => Sys2Proof.Machine.execDpllWtrExpiry k s
  | .holdoverLimitExpiry k => Sys2Proof.Machine.execHoldoverLimitExpiry k s
  | .refActivityLoss n => Sys2Proof.Machine.execRefActivityLoss n s
  | .refFastFrequencyFail n => Sys2Proof.Machine.execRefFastFrequencyFail n s
  | .refGateEnd n foff => Sys2Proof.Machine.execRefGateEnd n foff s
  | .qualMsExpiry n => Sys2Proof.Machine.execQualMsExpiry n s
  | .ref25AgeOut => Sys2Proof.Machine.execRef25AgeOut s
  | .pllLock j => Sys2Proof.Machine.execPllLock j s
  | .pllLossOfLock j => Sys2Proof.Machine.execPllLossOfLock j s
  | .divGo path => Sys2Proof.Machine.execDivGo path s
  | .syncArm path => Sys2Proof.Machine.execSyncArm path s
  | .syncinEdge sincePrevNs => Sys2Proof.Machine.execSyncinEdge sincePrevNs s
  | .fenceRequest by_ domain => Sys2Proof.Machine.execFenceRequest by_ domain s
  | .fenceComplete domain => Sys2Proof.Machine.execFenceComplete domain s
  | .domainReset path domain => Sys2Proof.Machine.execDomainReset path domain s
  | .domainResetEnd domain => Sys2Proof.Machine.execDomainResetEnd domain s
  | .fenceRelease by_ domain => Sys2Proof.Machine.execFenceRelease by_ domain s
  | .unfenceComplete domain => Sys2Proof.Machine.execUnfenceComplete domain s
  | .ucodeLoadComplete tile ok => Sys2Proof.Machine.execUcodeLoadComplete tile ok s
  | .faultPresent occs => Sys2Proof.Machine.execFaultPresent occs s
  | .faultClear id => Sys2Proof.Machine.execFaultClear id s
  | .quenchSideCompare a => Sys2Proof.Machine.execQuenchSideCompare a s
  | .qchAssure eNs => Sys2Proof.Machine.execQchAssure eNs s
  | .timeBound aonCycles => Sys2Proof.Machine.execTimeBound aonCycles s
  | .lock path => Sys2Proof.Machine.execLock path s
  | .clkoutMonitor n devPpm active => Sys2Proof.Machine.execClkoutMonitor n devPpm active s
  | .guardScrub bad => Sys2Proof.Machine.execGuardScrub bad s
  | .heartbeatSend sub => Sys2Proof.Machine.execHeartbeatSend sub s
  | .heartbeatReceive lane m t4 => Sys2Proof.Machine.execHeartbeatReceive lane m t4 s
  | .heartbeatLoss lanes peerAct => Sys2Proof.Machine.execHeartbeatLoss lanes peerAct s
  | .peerActLow => Sys2Proof.Machine.execPeerActLow s
  | .snapshotReceive m => Sys2Proof.Machine.execSnapshotReceive m s
  | .pairControlMessage group cand m => Sys2Proof.Machine.execPairControlMessage group cand m s
  | .pairReturn => Sys2Proof.Machine.execPairReturn s
  | .joinTimeout => Sys2Proof.Machine.execJoinTimeout s
  | .temperRetry unit => Sys2Proof.Machine.execTemperRetry unit s
  | .pathStep tile m => Sys2Proof.Machine.execPathStep tile m s
  | .traceRunEnd ok => Sys2Proof.Machine.execTraceRunEnd ok s
  | .temperOverdue unit => Sys2Proof.Machine.execTemperOverdue unit s
  | .railPoll readings => Sys2Proof.Machine.execRailPoll readings s
  | .avsPeriod margins => Sys2Proof.Machine.execAvsPeriod margins s
  | .marginEmergency margin => Sys2Proof.Machine.execMarginEmergency margin s
  | .tileGateSet path tile => Sys2Proof.Machine.execTileGateSet path tile s
  | .tileGateClear path tile => Sys2Proof.Machine.execTileGateClear path tile s
  | .laneGate tile lane => Sys2Proof.Machine.execLaneGate tile lane s
  | .sensorRead temps => Sys2Proof.Machine.execSensorRead temps s
  | .agingMeasure ageMv meanMv => Sys2Proof.Machine.execAgingMeasure ageMv meanMv s
  | .hourTick => Sys2Proof.Machine.execHourTick s
  | .perfCounterWrap n pc => Sys2Proof.Machine.execPerfCounterWrap n pc s
  | .hmkPcCfgWrite path n value => Sys2Proof.Machine.execHmkPcCfgWrite path n value s
  | .hmkFrameSend => Sys2Proof.Machine.execHmkFrameSend s
  | .idcode => Sys2Proof.Machine.execIdcode s
  | .sample cells => Sys2Proof.Machine.execSample cells s
  | .bypass => Sys2Proof.Machine.execBypass s
  | .extest => Sys2Proof.Machine.execExtest s
  | .preload cells => Sys2Proof.Machine.execPreload cells s
  | .clamp => Sys2Proof.Machine.execClamp s
  | .highz => Sys2Proof.Machine.execHighz s
  | .extestPulse => Sys2Proof.Machine.execExtestPulse s
  | .extestTrain => Sys2Proof.Machine.execExtestTrain s
  | .pcieLinkUp => Sys2Proof.Machine.execPcieLinkUp s
  | .controlFrameSend f => Sys2Proof.Machine.execControlFrameSend f s
  | .controlComplexDelivery => Sys2Proof.Machine.execControlComplexDelivery s
  | .rxLpiExit port => Sys2Proof.Machine.execRxLpiExit port s
  | .txLpiWake port => Sys2Proof.Machine.execTxLpiWake port s
  | .adaptFreeze port lane => Sys2Proof.Machine.execAdaptFreeze port lane s
  | .dumpWrite => Sys2Proof.Machine.execDumpWrite s
  | .traceRingWrite => Sys2Proof.Machine.execTraceRingWrite s
  | .slewEnd => Sys2Proof.Machine.execSlewEnd s

end Sys2Proof.Machine
end

