-- ==== Sys2Proof/Safety.lean ====
section
/-!
DEFINITION. What a safe run is: the invariant that every step keeps, and what no step undoes.
-/

namespace Sys2Proof.Machine

/-- Keys strictly rising: the canonical form of the register file, so that equal register contents are equal data. -/
def Tab.rising {α : Type} : Tab α → Bool
  | [] => true
  | [_] => true
  | (a, _) :: (b, v) :: t => decide (a < b) && Tab.rising ((b, v) :: t)

/-- A ring's indices are doublewords (R55, R57). -/
def Ring.ok (r : Ring) : Prop := r.prod < 4294967296 ∧ r.cons < 4294967296 ∧ r.fetch < 4294967296

/-- The invariant: the register file is in its canonical form; every fence domain is OPEN, FENCING, FENCED or UNFENCING
(R421); ring indices are doublewords (R55, R57); the SEQ of trace records and of trace frames are 8 and 32 bits (R534,
R537); the oldest live epoch is not younger than the device epoch (R178). -/
structure State.Inv (s : State) : Prop where
  regs : Tab.rising s.regs = true
  fences : ∀ e ∈ s.fences, e.2.st ≤ 3
  rings : ∀ e ∈ s.rings, e.2.ok
  recSeq : s.hmk.seq < 256
  frameSeq : s.hmk.frameSeq < 4294967296
  epochs : s.epochs.oldest ≤ s.epochs.serial

/-- Whether some copy of the boot record is valid (R556). -/
def Flash.bootable (f : Flash) : Bool := f.rec0.valid || f.rec1.valid

/-- No fuse is taken back (R560, R562): SVN_MIN never falls, and a programmed owner-key hash stays. -/
structure Fuses.Kept (f g : Fuses) : Prop where
  svnMin : f.svnMin ≤ g.svnMin
  keyRevoked : g.keyRevoked = f.keyRevoked
  owner0 : f.owner0 = true → g.owner0 = true
  owner1 : f.owner1 = true → g.owner1 = true

/-! ### The parts of State -/

/-- The parts of State, by the names of its fields. -/
inductive Part where
  | regs | latch | boot | flash | fuses | rings | fns | ports | lanes | tables | epochs | tiles | fabric | acct
  | pinCfg | pinRel | pinMsg | queues | pgs | flowRt | merges | cuts | time | phases | tius | refs | dplls | plls | outs
  | gens | window | fences | fw | quench | pair | temper | pwr | counters | hmk | jtag | stalled | free | out | pending
  deriving DecidableEq, Repr

/-- The parts in which counting, tracing, entries, completions and interrupts show. -/
def reports : List Part := [.regs, .rings, .fns, .counters, .hmk, .out]

/-- The parts that a fault may change: its latch and record, its event, and what isolating its domain does. -/
def faulting : List Part :=
  reports ++ [.ports, .epochs, .tiles, .fabric, .acct, .pinMsg, .queues, .pgs, .time, .phases, .refs, .fences, .fw,
    .quench, .temper, .free]

/-- Part `p` is the same in `s` and `t`. -/
def State.keeps (p : Part) (s t : State) : Prop :=
  match p with
  | .regs => t.regs = s.regs
  | .latch => t.latch = s.latch
  | .boot => t.boot = s.boot
  | .flash => t.flash = s.flash
  | .fuses => t.fuses = s.fuses
  | .rings => t.rings = s.rings
  | .fns => t.fns = s.fns
  | .ports => t.ports = s.ports
  | .lanes => t.lanes = s.lanes
  | .tables => t.tables = s.tables
  | .epochs => t.epochs = s.epochs
  | .tiles => t.tiles = s.tiles
  | .fabric => t.fabric = s.fabric
  | .acct => t.acct = s.acct
  | .pinCfg => t.pinCfg = s.pinCfg
  | .pinRel => t.pinRel = s.pinRel
  | .pinMsg => t.pinMsg = s.pinMsg
  | .queues => t.queues = s.queues
  | .pgs => t.pgs = s.pgs
  | .flowRt => t.flowRt = s.flowRt
  | .merges => t.merges = s.merges
  | .cuts => t.cuts = s.cuts
  | .time => t.time = s.time
  | .phases => t.phases = s.phases
  | .tius => t.tius = s.tius
  | .refs => t.refs = s.refs
  | .dplls => t.dplls = s.dplls
  | .plls => t.plls = s.plls
  | .outs => t.outs = s.outs
  | .gens => t.gens = s.gens
  | .window => t.window = s.window
  | .fences => t.fences = s.fences
  | .fw => t.fw = s.fw
  | .quench => t.quench = s.quench
  | .pair => t.pair = s.pair
  | .temper => t.temper = s.temper
  | .pwr => t.pwr = s.pwr
  | .counters => t.counters = s.counters
  | .hmk => t.hmk = s.hmk
  | .jtag => t.jtag = s.jtag
  | .stalled => t.stalled = s.stalled
  | .free => t.free = s.free
  | .out => t.out = s.out
  | .pending => t.pending = s.pending

/-- What every operation of the block keeps: the commands that wait, what has been sent, the fuses, a valid boot record,
the free values drawn, the invariant, and every part of State that `l` does not list. -/
structure State.Kept (l : List Part) (s t : State) : Prop where
  pending : t.pending = s.pending
  out : ∃ l, t.out = s.out ++ l
  fuses : s.fuses.Kept t.fuses
  boots : s.flash.bootable = true → t.flash.bootable = true
  free : s.free ≤ t.free
  inv : s.Inv → t.Inv
  only : ∀ p, p ∉ l → State.keeps p s t

/-! ### Which parts each command may change -/

/-- The parts of State that a command may change; every other part it leaves as it is. -/
def instrParts : Instr → List Part
  | .pgSet .. | .fecDegradeWindow .. | .pauseWatchdog .. | .fabricSlot .. | .cellLand .. | .visitReceive ..
   | .phaseBeat .. | .alignmentLoss .. | .refActivityLoss .. | .refFastFrequencyFail .. | .faultPresent ..
   | .timeBound .. | .pathStep .. | .temperOverdue .. =>
    faulting
  | .signalDetect .. | .txLpiEnter .. | .rxLpiEnter .. | .stepGo .. | .abort .. | .syncArm ..
   | .ucodeLoadComplete .. | .lock .. | .hmkPcCfgWrite .. | .rxLpiExit .. | .txLpiWake .. =>
    [.regs]
  | .nop .. | .tblRead .. | .ringPause .. | .ringResume .. | .cntRead .. | .cntClear .. | .vfGrant ..
   | .dumpWrite | .traceRingWrite =>
    reports
  | .registerWrite .. | .registerLowerHalfRead .. | .tplPhStatRead .. | .accessStallTimeout ..
   | .domainResetEnd .. | .tileGateClear .. =>
    faulting ++ [.latch, .lanes, .plls, .stalled]
  | .tblWrite .. | .tblDelete .. | .tblBulk .. | .tblSync .. | .flowModify .. | .flowDelete .. =>
    reports ++ [.tables]
  | .dpllLockTime .. | .holdoverLimitExpiry .. | .quenchSideCompare .. | .clkoutMonitor .. | .guardScrub ..
   | .agingMeasure .. =>
    faulting ++ [.pinRel]
  | .extest | .preload .. | .clamp | .highz | .extestPulse | .extestTrain =>
    [.jtag]
  | .powerOn .. | .railSeqFail .. | .railSeqRetry | .hifReady =>
    [.regs, .boot]
  | .refCfg .. | .refGateEnd .. | .qualMsExpiry .. | .ref25AgeOut =>
    reports ++ [.refs]
  | .vdd1v8SafeHold | .peRstNDeassert | .pcieLinkUp =>
    [.boot]
  | .doorbellReadComplete .. | .dmaReadError .. =>
    reports ++ [.free]
  | .entryHoldDrain .. | .ptpPortCfg .. | .trainingStart .. =>
    reports ++ [.ports]
  | .rxFrameWrite | .ageCheck .. | .controlComplexDelivery =>
    reports ++ [.ports, .epochs, .acct, .queues]
  | .cutGroupSet .. | .cutSelect .. | .cutSweep =>
    reports ++ [.cuts]
  | .trainingComplete .. | .pauseTimeExpiry .. | .pauseRecoverEnd .. =>
    [.ports]
  | .adaptResume .. | .recapture .. | .adaptFreeze .. =>
    [.regs, .lanes]
  | .idcode | .sample .. | .bypass =>
    [.jtag, .out]
  | .selftestComplete .. | .fenceRelease .. =>
    [.regs, .fences]
  | .vfFunctionLevelReset .. | .pfFunctionLevelReset =>
    [.regs, .rings, .fns, .ports, .epochs, .acct, .fw]
  | .ringDisable .. | .descriptorFetch .. =>
    reports ++ [.ports, .epochs, .acct]
  | .tblCommit .. | .tblCancel .. =>
    reports ++ [.epochs]
  | .temperRun .. | .temperRetry .. =>
    reports ++ [.fw, .temper, .free]
  | .pairSwitch .. | .peerActLow =>
    reports ++ [.fw, .pair]
  | .portEnable .. | .adaptGuardHit .. =>
    faulting ++ [.lanes]
  | .rateGo .. | .generatorEnable .. =>
    [.regs, .gens]
  | .incNsWrite .. | .capture .. =>
    [.regs, .time]
  | .tplTbAdjWrite .. | .slewEnd =>
    [.time]
  | .phEnSet .. | .phEnClear .. =>
    [.regs, .phases]
  | .dpllLoopUpdate .. | .dpllWtrExpiry .. =>
    faulting ++ [.pinRel, .dplls]
  | .divGo .. | .syncinEdge .. =>
    faulting ++ [.plls, .outs]
  | .railPoll .. | .sensorRead .. =>
    faulting ++ [.pinRel, .pwr]
  | .unsupportedRequest .. =>
    [.out]
  | .railInWindow .. =>
    [.regs, .boot, .free]
  | .boot =>
    faulting ++ [.boot, .pinRel]
  | .fwRun .. =>
    faulting ++ [.fuses, .plls]
  | .bootDoneTimeout =>
    faulting ++ [.boot]
  | .deviceReset .. =>
    [.regs, .latch, .boot, .rings, .fns, .ports, .lanes, .tables, .epochs, .tiles, .fabric, .acct, .pinCfg, .pinRel, .pinMsg, .queues, .pgs, .flowRt, .merges, .cuts, .time, .phases, .tius, .refs, .dplls, .plls, .outs, .gens, .window, .fences, .fw, .quench, .pair, .temper, .pwr, .counters, .hmk, .jtag, .stalled, .free]
  | .aonRailFail =>
    [.regs, .latch, .boot, .rings, .fns, .ports, .lanes, .tables, .epochs, .tiles, .fabric, .acct, .pinCfg, .pinRel, .pinMsg, .queues, .pgs, .flowRt, .merges, .cuts, .time, .phases, .tius, .refs, .dplls, .plls, .outs, .gens, .window, .fences, .fw, .quench, .pair, .temper, .pwr, .counters, .hmk, .jtag, .stalled]
  | .peRstNAssert =>
    [.regs, .boot, .rings, .fns, .ports, .epochs, .acct, .fw]
  | .pcieLinkLoss =>
    [.regs, .boot, .rings, .fns, .ports, .epochs, .acct, .fw, .free]
  | .ringEnable .. =>
    [.regs, .rings, .fw]
  | .ringStopped .. =>
    [.regs, .rings, .fns]
  | .doorbellScan .. =>
    [.regs, .fns, .hmk, .out]
  | .txFrameDataRead .. =>
    reports ++ [.ports, .epochs, .tiles, .acct, .queues, .free]
  | .interruptTimer .. =>
    [.regs, .rings, .fns, .hmk, .out]
  | .rxHoldExpiry .. =>
    [.regs, .rings, .ports, .epochs, .acct, .counters, .out]
  | .flowAdd .. =>
    reports ++ [.tables, .flowRt]
  | .mergeSet .. =>
    reports ++ [.merges]
  | .pgForce .. =>
    reports ++ [.pgs, .free]
  | .faultAck .. =>
    reports ++ [.pinRel, .fences, .quench]
  | .timeCfg .. =>
    reports ++ [.time]
  | .timeAuth .. =>
    reports ++ [.time, .fw]
  | .dpllCfg .. =>
    reports ++ [.dplls]
  | .pairCfg .. =>
    reports ++ [.pair, .free]
  | .fwStage .. =>
    reports ++ [.flash]
  | .fwActivate .. =>
    reports ++ [.fw]
  | .fwActivateFence =>
    reports ++ [.boot, .ports, .epochs, .tiles, .fabric, .acct, .pinRel, .queues, .pgs, .time, .phases, .refs, .window, .fences, .fw, .quench, .temper, .free]
  | .fwActivateTimeout =>
    reports ++ [.boot, .ports, .epochs, .tiles, .fabric, .acct, .queues, .pgs, .time, .phases, .refs, .fences, .fw, .quench, .temper, .free]
  | .allowSet .. =>
    reports ++ [.quench]
  | .portDisable .. =>
    reports ++ [.ports, .epochs, .fabric, .acct, .queues, .pgs, .phases, .refs, .free]
  | .linkLoss .. =>
    reports ++ [.ports, .lanes, .epochs, .fabric, .acct, .queues, .pgs, .phases, .refs, .free]
  | .cdrLock .. =>
    reports ++ [.lanes]
  | .holdoffEntry .. =>
    reports ++ [.ports, .lanes, .phases, .fw, .temper, .free]
  | .holdoffExpiry .. =>
    reports ++ [.pgs, .refs, .free]
  | .frameReceive .. =>
    reports ++ [.ports, .epochs, .tiles, .fabric, .acct]
  | .flowControlFrameReceive .. =>
    [.regs, .ports, .counters]
  | .pfcRefresh .. =>
    [.regs, .ports]
  | .lookup .. =>
    reports ++ [.ports, .epochs, .tiles, .fabric, .acct, .flowRt, .merges, .cuts, .free]
  | .cellClose .. =>
    [.tiles]
  | .reseqTimeout .. =>
    reports ++ [.ports, .epochs, .fabric, .acct, .queues]
  | .schedulerPick .. =>
    reports ++ [.ports, .epochs, .fabric, .acct, .queues, .quench]
  | .launchDue .. =>
    reports ++ [.ports, .epochs, .fabric, .acct, .queues, .time, .quench]
  | .epochDrained =>
    reports ++ [.tables, .epochs]
  | .pgWtrExpiry .. =>
    [.regs, .pgs, .free]
  | .mergeIdleExpiry .. =>
    [.merges]
  | .tickEdge .. =>
    faulting ++ [.pinCfg, .flowRt, .gens, .window, .pair]
  | .commitCycle =>
    faulting ++ [.tables, .flowRt, .merges, .cuts, .gens, .window, .pair]
  | .budgetEnd =>
    faulting ++ [.window]
  | .merDone .. =>
    reports ++ [.boot, .flash, .fuses, .pinRel, .window, .fw, .quench, .free]
  | .servoUpdate .. =>
    faulting ++ [.pinRel, .dplls, .gens, .window]
  | .offsetMeasurement .. =>
    reports ++ [.time, .refs, .window, .fw]
  | .phaseWindowEnd .. =>
    reports ++ [.time, .phases, .refs]
  | .go .. =>
    [.regs, .tius, .free]
  | .tiuEdge .. =>
    [.regs, .time, .tius]
  | .tiuTimeout .. =>
    [.regs, .tius]
  | .pllLock .. =>
    faulting ++ [.latch, .lanes, .pinRel, .plls, .stalled]
  | .pllLossOfLock .. =>
    faulting ++ [.plls]
  | .fenceRequest .. =>
    reports ++ [.ports, .epochs, .tiles, .fabric, .acct, .pinRel, .queues, .pgs, .time, .phases, .refs, .window, .fences, .fw, .quench, .temper, .free]
  | .fenceComplete .. =>
    reports ++ [.ports, .fences]
  | .domainReset .. =>
    [.regs, .ports, .lanes, .phases, .fences, .fw, .quench, .pair, .temper, .counters, .hmk, .free]
  | .unfenceComplete .. =>
    reports ++ [.ports, .epochs, .tiles, .fabric, .acct, .pinRel, .time, .fences, .fw, .quench, .temper, .free]
  | .faultClear .. =>
    [.regs, .pinRel, .quench]
  | .qchAssure .. =>
    faulting ++ [.pinRel, .window]
  | .heartbeatSend .. =>
    [.pair, .free, .out]
  | .heartbeatReceive .. =>
    reports ++ [.pinRel, .fw, .quench, .pair, .free]
  | .joinTimeout =>
    reports ++ [.pair, .free]
  | .heartbeatLoss .. =>
    faulting ++ [.pair]
  | .snapshotReceive .. =>
    reports ++ [.pair]
  | .pairControlMessage .. =>
    [.cuts, .pair]
  | .pairReturn =>
    [.pair, .out]
  | .traceRunEnd .. =>
    faulting ++ [.flash]
  | .avsPeriod .. =>
    reports ++ [.pinRel, .fw, .quench, .temper, .pwr, .free]
  | .marginEmergency .. =>
    faulting ++ [.pwr]
  | .tileGateSet .. =>
    [.regs, .ports, .lanes, .phases, .quench, .counters]
  | .laneGate .. =>
    [.lanes]
  | .hourTick =>
    [.regs, .flash, .pwr]
  | .perfCounterWrap .. =>
    [.regs, .hmk]
  | .hmkFrameSend =>
    [.hmk, .out]
  | .controlFrameSend .. =>
    [.regs, .ports, .epochs, .tiles, .fabric, .acct, .counters, .free, .out]

/-! ### Frames: what reporting may change -/

/-- The register fields in which Hallmark counts and remembers what happens (R518, R530, R535). -/
def reportFields : List Nat :=
  [HMK_PC_VAL_LO.VALUE.id, HMK_PC_VAL_HI.VALUE.id, HMK_PC_VAL_HI.WRAP.id, HMK_HIST.STAT_SAT.id,
   HMK_HIST.PERF_WRAP_SEEN.id, HMK_HIST.LOSS_SEEN.id, HMK_LOSS.LOST.id]

/-- `t` is `s` but for what counting, tracing and writing entries and completions change: Hallmark's own fields, counters
and trace, what has been sent, pending interrupts, and the indices and holds of rings. -/
structure State.Still (s t : State) : Prop where
  rest : { t with regs := s.regs, rings := s.rings, fns := s.fns, counters := s.counters, hmk := s.hmk, out := s.out } = s
  regs : ∀ f : Fld, f.id ∉ reportFields → ∀ i, t.getF f i = s.getF f i
  rings : ∀ n, (t.ring n).fetch = (s.ring n).fetch ∧ (t.ring n).rx = (s.ring n).rx ∧ (t.ring n).era = (s.ring n).era
  fns : ∀ k, (t.fn k).grant = (s.fn k).grant ∧ (t.fn k).scanning = (s.fn k).scanning ∧
    (t.fn k).resetting = (s.fn k).resetting
  out : ∃ l, t.out = s.out ++ l

/-- Nothing but reports: no descriptor is taken and no consumer index moves. -/
structure State.Quiet (s t : State) : Prop where
  still : s.Still t
  fetched : ∀ n, (t.ring n).fetched = (s.ring n).fetched ∧ (t.ring n).cons = (s.ring n).cons

/-- A command is answered (R83, R87): `t` is `s` but for reports and the command's ring, whose front descriptor is taken,
and a completion with STATUS, RESULT0, RESULT1 and REASON has been written in the ring's next slot. -/
structure State.Answered (s t : State) (c : Cmd) (status : Nat) (r0 r1 reason : Nat := 0) : Prop where
  still : s.Still t
  others : ∀ n, n ≠ c.ring → (t.ring n).fetched = (s.ring n).fetched ∧ (t.ring n).cons = (s.ring n).cons
  taken : ∃ k, (t.ring c.ring).fetched = (s.ring c.ring).fetched.drop (k + 1)
  sent : Out.completion c.ring (s.ring c.ring).cons (hostBytes [c.cookie.toNat, r0, r1,
    status * 16777216 + reason % 65536 + s.phaseBit c.ring (s.ring c.ring).cons * 2147483648])
      ∈ t.out.drop s.out.length

/-- The register fields that a fault, its isolation and its report may change (R436, R443–R448), reportFields among them. -/
def faultFields : List Nat :=
  [GLB_FAB_STAT.FENCED_TILES.id, GLB_FENCE_DROPS.COUNT.id, GLB_FENCE_HIST.REQ_REFUSED.id, GLB_PG_STAT.ON_BACKUP.id,
   HMK_HIST.LOSS_SEEN.id, HMK_HIST.PERF_WRAP_SEEN.id, HMK_HIST.STAT_SAT.id, HMK_LOSS.LOST.id, HMK_PC_VAL_HI.VALUE.id,
   HMK_PC_VAL_HI.WRAP.id, HMK_PC_VAL_LO.VALUE.id, MER_BUDGET_STAT.HB_ARMED.id, MER_BUDGET_STAT.MISS_RUN.id,
   QCH_FIRST.FIRST_ID.id, QCH_FIRST.FIRST_REC.id, QCH_FIRST.VALID.id, QCH_HIST.AON_ONLY.id,
   QCH_HIST.ESCALATED_SEEN.id, QCH_HIST.REC_OVF.id, QCH_SAME_MASK.MASK.id, TIL_BUF_STAT.XOFF.id,
   TIL_LANE_STAT.FROZEN.id, TIL_PORT_HIST.DOWN_SEEN.id, TIL_PORT_HIST.FLAP_IN_HOLDOFF.id, TIL_PORT_STAT.CAUSE.id,
   TIL_PORT_STAT.FAILED_LANES.id, TIL_PORT_STAT.RX_LPI.id, TIL_PORT_STAT.STATE.id, TIL_PORT_STAT.TX_LPI.id,
   TMP_HIST.SUSPENDED_SEEN.id, TMP_RUN.UNIT.id, TMP_STAT.STATE.id, TPL_PH_STAT.SERVICE.id, TPL_PH_STAT.VALID.id,
   TPL_REF_HIST.ACT_LOSS.id, TPL_REF_HIST.QUALIFIED_SEEN.id, TPL_REF_HIST.SOFT_SEEN.id, TPL_REF_STAT.STATE.id]

/-- The fields of QCH_FIRST, which only the first fault latched writes (R444). -/
def firstFields : List Nat := [QCH_FIRST.FIRST_ID.id, QCH_FIRST.FIRST_REC.id, QCH_FIRST.VALID.id]

/-- What raising a fault keeps, beside the parts that `faulting` leaves out: every register field outside `faultFields`,
QCH_FIRST once a fault is latched (R444), every fault that is latched, at no lower severity (R438, R451), every fence that is
not OPEN (R421), the timebases, but for what a pending discontinuity record has reached (R307), the time guard's bound
and the guard stores, and commits and epochs, but for the frames that carry them. -/
structure State.Raised (s t : State) : Prop where
  regs : ∀ f : Fld, f.id ∉ faultFields → ∀ i, t.getF f i = s.getF f i
  first : ∀ f : Fld, f.id ∈ firstFields → ∀ i, (∃ id, (s.faultSt id).latched = true) → t.getF f i = s.getF f i
  latched : ∀ id, (s.faultSt id).latched = true →
    (t.faultSt id).latched = true ∧ (s.faultSt id).applied ≤ (t.faultSt id).applied
  fenced : ∀ d, (s.fence d).st ≠ 0 → (t.fence d).st ≠ 0
  time : t.time = { s.time with disc := t.time.disc } ∧ (s.time.disc = none → t.time.disc = none)
  guard : t.quench.bound = s.quench.bound ∧ t.quench.allow = s.quench.allow
  epochs : t.epochs = { s.epochs with count := t.epochs.count }

/-- The fields whose write makes the block act at once (R62, R72, R130, R213, R240, R328, R384, R386, R396, R495), those of
the condition of XON among them. -/
def writeActs : List Nat :=
  [TPL_STC_TX.TX_CORR.id, TPL_STC_RX.RX_CORR.id, TIL_PORT_ADAPT.FREEZE_FORCE.id, TIL_PORT_ADAPT.GUARD.id,
   TIL_MED_BUDGET.CL6_PCT.id, TPL_PLL_VCO.F_VCO.id, TPL_PLL_SSC.SSC_MODE.id, TPL_PLL_SSC.DEPTH.id, TPL_OUT_DIV.D.id,
   TPL_OUT_PW.HIGH.id, TMP_CFG.AUTO_EN.id, HIF_RING_CFG.VECTOR.id, HIF_MSIX_CTRL.MASK.id, MER_GEN_CFG.EN.id,
   GLB_BUF_ALPHA.ALPHA_C.id, GLB_BUF_HP.HP_POOL.id, TIL_BUF_XON.XON_GAP.id, TIL_BUF_GUAR0.GUAR_C.id,
   TIL_BUF_GUAR1.GUAR_C.id, TIL_BUF_HDRM0.HDRM_C.id, TIL_BUF_HDRM1.HDRM_C.id, GLB_BUF_LOGICAL.GUAR_256.id,
   GLB_BUF_LOGICAL.GUAR_257.id]

/-! ### Commands that may run -/

/-- `c` stands at the front of its ring as the next descriptor to execute, with opcode `op` (R82, R99), issued by the PF,
with a buffer that its DATA_LEN allows (R82). -/
structure State.Ready (s : State) (op : Nat) (c : Cmd) : Prop where
  ring : c.ring < 256
  front : s.commandReady op c = true
  pf : s.issuer c = 0
  len : c.indirect = true → c.dataLen ≤ 65536

/-- `c` stands at the front of its ring as the next descriptor to execute, whichever function issued it. -/
structure State.Stands (s : State) (op : Nat) (c : Cmd) : Prop where
  ring : c.ring < 256
  front : s.commandReady op c = true
  len : c.indirect = true → c.dataLen ≤ 65536

/-- The rows that are commands of the hardware engine (R101): OPCODE, whether a VF may issue it, and the command. -/
def engineRow : Instr → Option (Nat × Bool × Cmd)
  | .nop c => some (0x01, true, c)
  | .tblWrite c => some (0x10, false, c)
  | .tblDelete c => some (0x11, false, c)
  | .tblBulk c => some (0x12, false, c)
  | .tblSync c => some (0x13, false, c)
  | .tblCommit c => some (0x14, false, c)
  | .tblCancel c => some (0x15, false, c)
  | .tblRead c => some (0x16, false, c)
  | .flowAdd c => some (0x20, true, c)
  | .flowModify c => some (0x21, true, c)
  | .flowDelete c => some (0x22, true, c)
  | .mergeSet c => some (0x23, true, c)
  | .cutGroupSet c => some (0x24, true, c)
  | .cutSelect c => some (0x25, true, c)
  | .ringPause c => some (0x30, true, c)
  | .ringResume c => some (0x31, true, c)
  | .cntRead c => some (0x40, true, c)
  | .cntClear c => some (0x41, true, c)
  | .pgSet c => some (0x50, false, c)
  | .pgForce c => some (0x51, false, c)
  | .vfGrant c => some (0x60, false, c)
  | .faultAck c => some (0x70, false, c)
  | _ => none

/-- The rows that are commands of firmware's (R101): OPCODE and the command. -/
def firmwareRow : Instr → Option (Nat × Cmd)
  | .ptpPortCfg c => some (0x80, c)
  | .timeCfg c => some (0x81, c)
  | .timeAuth c => some (0x82, c)
  | .dpllCfg c => some (0x83, c)
  | .refCfg c => some (0x84, c)
  | .temperRun c => some (0x90, c)
  | .pairCfg c => some (0xA0, c)
  | .pairSwitch c => some (0xA1, c)
  | .fwStage c _ => some (0xB0, c)
  | .fwActivate c => some (0xB1, c)
  | .allowSet c _ => some (0xC0, c)
  | _ => none

/-- A command of firmware's that firmware is there to execute, with its clock (R26, R100, R383, R545). -/
structure State.FwReady (s : State) (op : Nat) (c : Cmd) : Prop where
  ready : s.Ready op c
  kclk : s.kclk = true
  running : s.fw.running = true
  hostReady : s.fw.phase = 3

end Sys2Proof.Machine
end

