-- ==== Sys2Proof/Certificates/Slice0/Obligations.lean ====
section
/-!
DEFINITION. The statements for the provers: what the whole block keeps, and for every command of the table the state it
answers and what it leaves unchanged.
-/

open Sys2Proof Sys2Proof.Machine

/-- For every command c and state s whose queue is c followed by the rest, step s is exec c on s with the queue's
rest. The block has no instruction fetch; the queue is first in, first out. -/
def Obligations.StepRunsTheCommandInFront : Prop :=
  ∀ (c : Instr) (rest : List Instr) (s : State), s.pending = c :: rest →
    step s = exec c { s with pending := rest }

/-- With no command waiting, a step answers a next state in which only the timebases, and what reports show (a
status-block write that was held back for its 250 ns, R70, with its interrupt), have changed. Where no ring holds such
a write, nothing but the timebases has changed. While the timebases run, one TCLK edge has passed: with no slew both
timebases have advanced by the increment (R295), in units of 10^-9 x 2^-32 ns; while they do not run, they stand
(R293). That a step on an empty queue is one edge is the model's choice (log entry 2), no rule of the spec. -/
def Obligations.EmptyQueuePassesOneClockEdge : Prop :=
  ∀ s : State, s.pending = [] → ∃ t, step s = .next t ∧
    (∀ p, p ≠ Part.time → p ∉ reports → State.keeps p s t) ∧
    ((∀ n, (s.ring n).sbDue = false) → ∀ p, p ≠ Part.time → State.keeps p s t) ∧
    (s.time.running = false → t.time = s.time) ∧
    (s.time.running = true → t.time.tclk = s.time.tclk + 1 ∧
      (s.time.adj = 0 → t.time.a = s.time.a + (s.time.inc : Int) * 1000000000 ∧
        t.time.b = s.time.b + (s.time.inc : Int) * 1000000000))

/-- For every command and every state, exec answers a next state: no command of the table stops the block. It leaves
the queue of waiting commands alone, takes back nothing that has been sent (what it sends stands after it), and takes
back no free value drawn. -/
def Obligations.EveryCommandAnswersANextState : Prop :=
  ∀ (i : Instr) (s : State), ∃ t, exec i s = .next t ∧ t.pending = s.pending ∧
    (∃ l, t.out = s.out ++ l) ∧ s.free ≤ t.free

/-- For every command i and state s: when exec answers a next state, every part of State that the table instrParts
does not list for i is as it was. The table names, for each command, the parts that its effect, its reports (registers
in which Hallmark counts, rings, interrupts, counters, trace, what is sent) and the faults it may raise can touch: a
JTAG instruction touches only the JTAG part, a table command only the reports and the tables, and so on. -/
def Obligations.CommandsChangeOnlyTheirParts : Prop :=
  ∀ (i : Instr) (s t : State), exec i s = .next t → ∀ p, p ∉ instrParts i → State.keeps p s t

/-- For every state s that meets the invariant and every step s that answers next t, t meets it: the register file is
in its canonical form (fields at strictly rising keys); every fence domain is OPEN, FENCING, FENCED or UNFENCING
(R421); every ring index is a 32-bit count (R57); the SEQ of trace records and frames are 8 and 32 bits (R534, R537);
and the oldest live epoch is not younger than the device epoch (R178). The steps include every command of the table
and the idle step. -/
def Obligations.EveryStepKeepsTheInvariant : Prop :=
  ∀ s t : State, s.Inv → step s = .next t → t.Inv

/-- The invariant that every step keeps holds of State.reset. -/
def Obligations.ResetMeetsTheInvariant : Prop :=
  State.reset.Inv

/-- For every command, every state and the next state: SVN_MIN does not fall and KEY_REVOKED stays (R560); an
owner-key hash that is programmed stays programmed (R562); and where some copy of the boot record is valid, some copy
is valid afterwards (R556, R557). Power loss in the middle of a write is outside the model (log entry 49). -/
def Obligations.NoCommandTakesBackAFuseOrTheBootRecord : Prop :=
  ∀ (i : Instr) (s t : State), exec i s = .next t →
    s.fuses.svnMin ≤ t.fuses.svnMin ∧ t.fuses.keyRevoked = s.fuses.keyRevoked ∧
    (s.fuses.owner0 = true → t.fuses.owner0 = true) ∧ (s.fuses.owner1 = true → t.fuses.owner1 = true) ∧
    (s.flash.bootable = true → t.flash.bootable = true)

/-- After reset both timebases hold 0 and stand still, the increment is 4.0 ns (INC_NS 4, INC_FRAC 0; in the engine 4
x 2^32) and TIME_VALID is 0 (R293); BOOT_HOLD is present and latched, so TICKn and CLKOUTn are idle, PTP is suppressed
and SAFE_N is asserted, as QCH_STATE shows (R437; no port is guarded yet, so GUARD_BLOCK is 0); and no command waits. -/
def Obligations.ResetHoldsTimeStillAndOutputsSafe : Prop :=
  State.reset.time.a = 0 ∧ State.reset.time.b = 0 ∧ State.reset.time.running = false ∧
  State.reset.time.inc = 4 * 4294967296 ∧
  State.reset.getF TPL_TB_INC_NS.INC_NS = 4 ∧ State.reset.getF TPL_TB_INC_FRAC.INC_FRAC = 0 ∧
  State.reset.getF TPL_TB_STAT.TIME_VALID = 0 ∧
  (State.reset.faultSt 0).latched = true ∧ (State.reset.faultSt 0).present = true ∧
  (∀ n, State.reset.tickQuenched n = true ∧ State.reset.clkQuenched n = true) ∧
  State.reset.safetyBits = 1 + 2 + 4 + 16 ∧ State.reset.pending = []

/-- A 32-bit write on a path that is up, in a domain whose clock runs, to an address where that path may write and a
register lies (locate gives its fields l and its copy i): REGISTER_WRITE answers a next state, which is the state
after reports (the access is counted), with every field that is not held fixed now and has no command of its own set
to what its access code gives for its bits of the value (R10: RW the value, W1C the old bits without those written 1,
W1S with them, RO and WO the old value), and nothing else changed, where none of the fields acts at once (writeActs).
For a register with such fields, other than the corrections of R328 and EN of a generator, the same holds with each
field's own action (State.written) after its write. An address without a register (R7), or where the path may not
write (R48, R49, R554): only reports. An accepted 64-bit write over PCI Express is the writes of both its registers in
one access (R5). -/
def Obligations.RegisterWriteTakesWhatEachAccessCodeSays : Prop :=
  (∀ (p : Path) (addr : Nat) (v : Word) (s : State) (l : List Slot) (i : Nat),
    s.pathUp p = true → s.stoppedAt (fullAddr p addr) = false → s.writeMay p addr = true →
    s.locate p addr = some (l, i) → (∀ x ∈ l, x.fld.id ∉ writeActs) →
    ∃ u t, s.Quiet u ∧ exec (.registerWrite p addr ⟨v, none⟩) s = .next t ∧
      t = l.foldl (fun w x =>
        if x.own || w.fieldFixed p x.fld i then w
        else w.setF x.fld
          (match x.acc with
            | .rw => bits v.toNat x.lo x.fld.width
            | .w1c => w.getF x.fld i - (w.getF x.fld i &&& bits v.toNat x.lo x.fld.width)
            | .w1s => w.getF x.fld i ||| bits v.toNat x.lo x.fld.width
            | .ro => w.getF x.fld i
            | .wo => w.getF x.fld i) i) u) ∧
  (∀ (p : Path) (addr : Nat) (v : Word) (s : State) (l : List Slot) (i : Nat),
    s.pathUp p = true → s.stoppedAt (fullAddr p addr) = false → s.writeMay p addr = true →
    s.locate p addr = some (l, i) →
    (∀ x ∈ l, x.fld.id ≠ TPL_STC_TX.TX_CORR.id ∧ x.fld.id ≠ TPL_STC_RX.RX_CORR.id ∧ x.fld.id ≠ MER_GEN_CFG.EN.id) →
    ∃ u t, s.Quiet u ∧ exec (.registerWrite p addr ⟨v, none⟩) s = .next t ∧
      t = l.foldl (fun w x =>
        if x.own || w.fieldFixed p x.fld i then w
        else (w.setF x.fld (accWrite x.acc (w.getF x.fld i) (bits v.toNat x.lo x.fld.width)) i).written w x.fld i) u) ∧
  (∀ (p : Path) (addr : Nat) (v : Word) (s : State), s.pathUp p = true → s.stoppedAt (fullAddr p addr) = false →
    (s.writeMay p addr = false ∨ s.locate p addr = none) →
    ∃ t, exec (.registerWrite p addr ⟨v, none⟩) s = .next t ∧ s.Quiet t) ∧
  (∀ (p : Path) (addr : Nat) (v h : Word) (s : State), s.pathUp p = true → s.stoppedAt (fullAddr p addr) = false →
    accessOk p addr 8 true = true →
    ∃ u, s.Quiet u ∧ exec (.registerWrite p addr ⟨v, some h⟩) s =
      .next ((u.writeReg p addr v.toNat).writeReg p (addr + 4) h.toNat))

/-- What a write by the PF does at once, where the register's clock runs: F_VCO of an APLL (5 or 6) is staged and
PENDING of that PLL is set; D and HIGH of an output are staged and its PENDING is set (R384); clearing MASK of a
vector of the PF's that has a message pending sends it and clears its pending bit (R72); EN of a Meridian generator
other than 0 written 0 stops it, which has no row of its own (R396); the VECTOR of a RUNNING ring of a VF set to 8 or
more puts the ring into ERROR (R62); a correction entry takes the value written, while what stamps use of it stands
until the next servo update (R328); and after a write of XON_GAP every XOFF whose condition of XON now holds is taken
back (R213). -/
def Obligations.RegisterWritesThatActAtOnce : Prop :=
  (∀ (s : State) (i : Nat) (v : Word), s.pcieUp = true → s.time.running = true → i = 5 ∨ i = 6 →
    ∃ u t, s.Quiet u ∧ exec (.registerWrite .pf (0x3060008 + 0x20 * i) ⟨v, none⟩) s = .next t ∧
      t = (u.setF TPL_PLL_VCO.F_VCO (bits v.toNat 0 TPL_PLL_VCO.F_VCO.width) i).setF TPL_PLL_STAT.PENDING 1 i) ∧
  (∀ (s : State) (i : Nat) (v : Word), s.pcieUp = true → s.time.running = true → i < 8 →
    ∃ u t, s.Quiet u ∧ exec (.registerWrite .pf (0x3070004 + 0x20 * i) ⟨v, none⟩) s = .next t ∧
      t = (u.setF TPL_OUT_DIV.D (bits v.toNat 0 TPL_OUT_DIV.D.width) i).setF TPL_OUT_STAT.PENDING 1 i) ∧
  (∀ (s : State) (i : Nat) (v : Word), s.pcieUp = true → s.time.running = true → i < 8 →
    ∃ u t, s.Quiet u ∧ exec (.registerWrite .pf (0x3070008 + 0x20 * i) ⟨v, none⟩) s = .next t ∧
      t = (u.setF TPL_OUT_PW.HIGH (bits v.toNat 0 TPL_OUT_PW.HIGH.width) i).setF TPL_OUT_STAT.PENDING 1 i) ∧
  (∀ (s : State) (n : Nat) (v : Word), s.pcieUp = true → n < 256 → bit v.toNat 0 = false → bit (s.fn 0).pba n = true →
    ∃ t, exec (.registerWrite .pf (0x10800C + 0x10 * n) ⟨v, none⟩) s = .next t ∧ t.getF HIF_MSIX_CTRL.MASK n = 0 ∧
      bit (t.fn 0).pba n = false ∧ Out.msix 0 n ∈ t.out.drop s.out.length) ∧
  (∀ (s : State) (g : Nat) (v : Word), s.pcieUp = true → s.time.running = true → 1 ≤ g → g < 16 → bit v.toNat 0 = false →
    ∃ t, exec (.registerWrite .pf (0x3400000 + 0x20 * g) ⟨v, none⟩) s = .next t ∧
      ((s.setF MER_GEN_CFG.EN 0 g).setF MER_GEN_STAT.SUPPRESSING 0 g).Quiet t) ∧
  (∀ (s : State) (n : Nat) (v : Word), s.pcieUp = true → n < 256 → s.ringState n = 1 → s.ringFn n ≠ 0 →
    s.isF HIF_RING_CFG.ENABLE n = true → 8 ≤ bits v.toNat 14 8 →
    ∃ t, exec (.registerWrite .pf (0x101000 + 0x20 * n + 0x10) ⟨v, none⟩) s = .next t ∧ t.ringState n = 3 ∧
      t.getF HIF_RING_STAT.REASON n = 1 ∧ t.getF HIF_RING_CFG.VECTOR n = bits v.toNat 14 8) ∧
  (∀ (s : State) (addr i : Nat) (v : Word), s.pcieUp = true → s.stoppedAt addr = false →
    s.locate .pf addr = some ([⟨TPL_STC_TX.TX_CORR, 0, .rw, false⟩], i) →
    ∃ u, s.Quiet u ∧ exec (.registerWrite .pf addr ⟨v, none⟩) s =
      .next ((u.holdCorr 0 i).setF TPL_STC_TX.TX_CORR (bits v.toNat 0 20) i)) ∧
  (∀ (s : State) (addr i : Nat) (v : Word), s.pcieUp = true → s.stoppedAt addr = false →
    s.locate .pf addr = some ([⟨TPL_STC_RX.RX_CORR, 0, .rw, false⟩], i) →
    ∃ u, s.Quiet u ∧ exec (.registerWrite .pf addr ⟨v, none⟩) s =
      .next ((u.holdCorr 1 i).setF TPL_STC_RX.RX_CORR (bits v.toNat 0 20) i)) ∧
  (∀ (s : State) (addr i : Nat) (v : Word), s.pcieUp = true → s.stoppedAt addr = false →
    s.locate .pf addr = some ([⟨TIL_BUF_XON.XON_GAP, 0, .rw, false⟩], i) →
    ∃ u, s.Quiet u ∧ exec (.registerWrite .pf addr ⟨v, none⟩) s = .next (u.setF TIL_BUF_XON.XON_GAP (bits v.toNat 0 8) i).xonAll)

/-- REGISTER_LOWER_HALF_READ on a path that is up, in a domain whose clock runs and behind no write of the same path
that waits, answers the register's present value (0 where no register lies, R7) and changes nothing but reports and
the path's latches: at the lower half of a 64-bit quantity it latches the upper half as it is at the same instant, and
a later read of the upper half on the same path answers the latched value, in any state in which the path's latch
still holds (R6, R8); elsewhere, where nothing is latched, it answers the present value alone. A 64-bit read that BAR0
accepts answers both halves of one instant and latches nothing (R5). TPL_PH_STAT_READ of a port that a phase detector
serves answers TPL_PH_STAT and latches TPL_PH_PHASE, TPL_PH_EDGE and TPL_PH_DRIFT of the same window (R341). -/
def Obligations.LowerHalfReadLatchesTheUpperHalf : Prop :=
  (∀ (p : Path) (addr : Nat) (s : State), s.pathUp p = true →
    s.waits { path := p, addr := addr, op := .read false } = false → isLower (fullAddr p addr) = true →
    ∃ t, exec (.registerLowerHalfRead p ⟨addr, false⟩) s = .next t ∧
      (s.setLatch p (fullAddr p addr + 4) (s.readReg p (addr + 4))).Quiet t ∧
      Out.readData p addr (BitVec.ofNat 32 (s.readReg p addr)) ∈ t.out.drop s.out.length ∧
      ∀ u : State, u.pathUp p = true → u.waits { path := p, addr := addr + 4, op := .read false } = false →
        u.latch = t.latch →
        ∃ w, exec (.registerLowerHalfRead p ⟨addr + 4, false⟩) u = .next w ∧ u.Quiet w ∧
          Out.readData p (addr + 4) (BitVec.ofNat 32 (s.readReg p (addr + 4))) ∈ w.out.drop u.out.length) ∧
  (∀ (p : Path) (addr : Nat) (s : State), s.pathUp p = true →
    s.waits { path := p, addr := addr, op := .read false } = false → isLower (fullAddr p addr) = false →
    Tab.get? s.latch (latchKey p (fullAddr p addr)) = none →
    ∃ t, exec (.registerLowerHalfRead p ⟨addr, false⟩) s = .next t ∧ s.Quiet t ∧
      Out.readData p addr (BitVec.ofNat 32 (s.readReg p addr)) ∈ t.out.drop s.out.length) ∧
  (∀ (p : Path) (addr : Nat) (s : State), s.pathUp p = true →
    s.waits { path := p, addr := addr, op := .read true } = false → accessOk p addr 8 false = true →
    ∃ t, exec (.registerLowerHalfRead p ⟨addr, true⟩) s = .next t ∧ s.Quiet t ∧
      Out.readData p addr (BitVec.ofNat 32 (s.readReg p addr)) ∈ t.out.drop s.out.length ∧
      Out.readData p (addr + 4) (BitVec.ofNat 32 (s.readReg p (addr + 4))) ∈ t.out.drop s.out.length) ∧
  (∀ (p : Path) (port : Nat) (s : State), s.pathUp p = true → (p = .pf ∨ p = .mgmt) →
    s.waits { path := p, addr := 0x3020004 + port * 32, op := .phStat port } = false → s.portUnused port = false →
    ∃ t, exec (.tplPhStatRead p port) s = .next t ∧
      (((s.setLatch p (0x3020008 + port * 32) (s.readReg p (0x3020008 + port * 32))).setLatch p
        (0x302000C + port * 32) (s.readReg p (0x302000C + port * 32))).setLatch p
        (0x3020010 + port * 32) (s.readReg p (0x3020010 + port * 32))).Quiet t ∧
      Out.readData p (0x3020004 + port * 32) (BitVec.ofNat 32 (s.readReg p (0x3020004 + port * 32))) ∈
        t.out.drop s.out.length)

/-- UNSUPPORTED_REQUEST on a PCI Express path that is up, for an access that BAR0 does not accept (neither an aligned
32-bit access nor one of the 64-bit accesses it allows): the access completes with Unsupported Request, which the
function's AER logs, and changes nothing (R5, R46); on the management port a read returns all ones and a write is
ignored (R554). A write or read to a domain whose clock is stopped has no effect yet: it waits, and nothing else
changes (R416). ACCESS_STALL_TIMEOUT ends the access with an error, records its address in GLB_STALL_ADDR and sets
STALL_TO in GLB_FENCE_HIST (R416); where the other accesses that wait are to domains whose clock is stopped, it
changes nothing but the list of those that wait and what raising its NOTICE can (the parts in faulting). -/
def Obligations.UnsupportedAndStalledAccessesEndWithoutEffect : Prop :=
  (∀ (p : Path) (addr n : Nat) (w : Bool) (s : State), s.pathUp p = true → accessOk p addr n w = false → p ≠ .mgmt →
    exec (.unsupportedRequest p addr n w) s =
      .next ((s.emit (.unsupported p addr)).emit (.aer (pathFn p) .unsupportedRequest))) ∧
  (∀ (addr n : Nat) (w : Bool) (s : State), s.pathUp .mgmt = true → accessOk .mgmt addr n w = false →
    exec (.unsupportedRequest .mgmt addr n w) s =
      .next (if w then s else s.emit (.readData .mgmt addr 0xFFFFFFFF))) ∧
  (∀ (p : Path) (addr : Nat) (v : Word) (h : Option Word) (s : State), s.pathUp p = true →
    s.stoppedAt (fullAddr p addr) = true →
    exec (.registerWrite p addr ⟨v, h⟩) s =
      .next { s with stalled := s.stalled ++ [{ path := p, addr := addr, op := .write v h }] }) ∧
  (∀ (p : Path) (addr : Nat) (w : Bool) (s : State), s.pathUp p = true → s.stoppedAt (fullAddr p addr) = true →
    exec (.registerLowerHalfRead p ⟨addr, w⟩) s =
      .next { s with stalled := s.stalled ++ [{ path := p, addr := addr, op := .read w }] }) ∧
  (∀ (k : StallKind) (p : Path) (addr : Nat) (s : State), k = .firmware ∨ s.pathUp p = true →
    (∀ x ∈ s.stalled, s.stoppedAt (fullAddr x.path x.addr) = true) →
    ∃ t, exec (.accessStallTimeout k p addr) s = .next t ∧
      t.getF GLB_STALL_ADDR.ADDR = addr % 2 ^ GLB_STALL_ADDR.ADDR.width ∧ t.getF GLB_FENCE_HIST.STALL_TO = 1 ∧
      Out.accessError k p addr ∈ t.out.drop s.out.length ∧ ∀ q, q ∉ faulting → q ≠ Part.stalled → State.keeps q s t)

/-- POWER_ON, with the always-on supply not yet up, takes the straps and shows the fuses in GLB_FUSE_SEC, enters
RAIL_SEQ (STAGE 2) with VDD_CORE at 0.800 V and the first rail enabled, and holds SAFE_N (R542, R544).
VDD_1V8_SAFE_HOLD holds SAFE_N and changes nothing else (R543). In RAIL_SEQ, RAIL_IN_WINDOW for the rail enabled last
marks it in its window and up, and enables the next; with the sixth rail SEQ_DONE is 1, the core starts and self-test
begins (STAGE 3); the voltage it shows is a free value. RAIL_SEQ_FAIL shows no rail up and none in its window,
disables all of them and waits with one more failure. RAIL_SEQ_RETRY starts the next attempt, numbered in ATTEMPT,
after fewer than three failures; after the third it stops with SEQ_FAIL and FAIL_RAIL (R505, R506) and, by the model's
reading of R544 (log entry 45), with STAGE 7 and FAIL_REASON 1. Each changes nothing but the registers and the boot
state, and RAIL_IN_WINDOW the free values. -/
def Obligations.PowerOnRunsTheRailSequence : Prop :=
  (∀ (straps : Nat) (s : State), s.boot.aonUp = false → ∃ t, exec (.powerOn straps) s = .next t ∧
    t.getF GLB_STRAP.STRAPS = straps % 2 ^ GLB_STRAP.STRAPS.width ∧
    t.getF GLB_FUSE_SEC.SVN_MIN = s.fuses.svnMin % 2 ^ GLB_FUSE_SEC.SVN_MIN.width ∧
    t.getF GLB_FUSE_SEC.KEY_REVOKED = s.fuses.keyRevoked % 2 ^ GLB_FUSE_SEC.KEY_REVOKED.width ∧
    t.getF GLB_FUSE_SEC.OWNER_SLOT = s.fuses.ownerSlot ∧ t.getF GLB_BOOT_STAT.STAGE = 2 ∧
    t.getF PWR_AVS_STAT.VCORE_MV = 800 ∧ t.boot = { s.boot with aonUp := true, safeHeld := true, railsOn := 1 } ∧
    ∀ p, p ∉ [Part.regs, .boot] → State.keeps p s t) ∧
  (∀ s : State, exec .vdd1v8SafeHold s = .next { s with boot := { s.boot with safeHeld := true } }) ∧
  (∀ (rail : Nat) (s : State), s.sequencing = true → s.boot.railsOn = rail + 1 → rail < 6 →
    ∃ t, exec (.railInWindow rail) s = .next t ∧ t.getF PWR_RAIL.IN_WINDOW rail = 1 ∧
      t.getF PWR_SEQ_STAT.RAILS_UP = (s.getF PWR_SEQ_STAT.RAILS_UP ||| 1 <<< rail) % 64 ∧
      (rail < 5 → t.boot = { s.boot with railsOn := rail + 2 }) ∧
      (rail = 5 → t.boot = { s.boot with coreUp := true } ∧ t.getF PWR_SEQ_STAT.SEQ_DONE = 1 ∧
        t.getF GLB_BOOT_STAT.STAGE = 3) ∧
      ∀ p, p ∉ [Part.regs, .boot, .free] → State.keeps p s t) ∧
  (∀ (rail : Nat) (s : State), s.sequencing = true → ∃ t, exec (.railSeqFail rail) s = .next t ∧
    t.getF PWR_SEQ_STAT.RAILS_UP = 0 ∧ (∀ r, t.getF PWR_RAIL.IN_WINDOW r = 0) ∧
    t.boot = { s.boot with railsOn := 0, failures := s.boot.failures + 1, failRail := rail, waiting := true } ∧
    ∀ p, p ∉ [Part.regs, .boot] → State.keeps p s t) ∧
  (∀ s : State, s.boot.waiting = true → ∃ t, exec .railSeqRetry s = .next t ∧
    (s.boot.failures < 3 → t.getF PWR_SEQ_STAT.ATTEMPT = s.boot.failures % 4 ∧
      t.boot = { s.boot with waiting := false, railsOn := 1 }) ∧
    (3 ≤ s.boot.failures → t.getF PWR_SEQ_STAT.SEQ_FAIL = 1 ∧
      t.getF PWR_SEQ_STAT.FAIL_RAIL = s.boot.failRail % 2 ^ PWR_SEQ_STAT.FAIL_RAIL.width ∧
      t.getF GLB_BOOT_STAT.STAGE = 7 ∧ t.getF GLB_BOOT_STAT.FAIL_REASON = 1 ∧
      t.boot = { s.boot with waiting := false, stopped := true }) ∧
    ∀ p, p ∉ [Part.regs, .boot] → State.keeps p s t)

/-- SELFTEST_COMPLETE at STAGE 3 shows the failed tiles and blocks and leaves each FENCED, a tile also gated (R549).
With no fatal failure the start-up goes on to FW_LOAD (STAGE 4), TEST_MODE set where strap 0 asks for it (R552); with
one it stops (STAGE 7, reason BIST, FATAL_BLOCK). HIF_READY with the core up and the host interface's self-test passed
sets HIF_READY and starts link training where PE_RST_N is deasserted (R544, R546). -/
def Obligations.SelftestLeavesFailedDomainsFenced : Prop :=
  (∀ (tileFail blockFail fatal : Nat) (s : State), s.stage = 3 → tileFail < 256 → blockFail < 8 → fatal < 128 →
    ∃ t, exec (.selftestComplete tileFail blockFail fatal) s = .next t ∧
      t.getF GLB_BOOT_STAT.BIST_FAIL = tileFail ∧ t.getF GLB_BOOT_STAT.BLOCK_FAIL = blockFail ∧
      (∀ d, d < 8 → bit tileFail d = true → (t.fence d).st = 2 ∧ bit (t.getF PWR_GATE.TILE_GATE) d = true ∧
        bit (t.getF GLB_FAB_STAT.FENCED_TILES) d = true) ∧
      (∀ k, k < 3 → bit blockFail k = true → (t.fence (9 + k)).st = 2 ∧ (t.fence (9 + k)).bist = true) ∧
      (fatal = 0 → t.getF GLB_BOOT_STAT.STAGE = 4 ∧
        (bit (s.getF GLB_STRAP.STRAPS) 0 = true → t.getF GLB_BOOT_STAT.TEST_MODE = 1)) ∧
      (fatal ≠ 0 → t.getF GLB_BOOT_STAT.STAGE = 7 ∧ t.getF GLB_BOOT_STAT.FAIL_REASON = 2 ∧
        t.getF GLB_BOOT_FAIL.FATAL_BLOCK = fatal) ∧
      ∀ p, p ∉ [Part.regs, .fences] → State.keeps p s t) ∧
  (∀ s : State, s.boot.coreUp = true → bit (s.getF GLB_BOOT_FAIL.FATAL_BLOCK) 2 = false →
    ∃ t, exec .hifReady s = .next t ∧
      t.getF GLB_BOOT_STAT.HIF_READY = 1 ∧
      t = { s.setF GLB_BOOT_STAT.HIF_READY 1 with boot := { s.boot with training := !s.boot.peRst && !s.boot.linkUp } })

/-- BOOT with the core up, no firmware and no TEST_MODE. At FW_LOAD (STAGE 4) with no FW_ACTIVATE under way: where
some slot that the boot ROM may try holds an image that passes, the first such slot in order is started: STAGE is
FW_RUN (5), SLOT shows it, and FALLBACK is 0 for the recorded slot on the first boot and 1 otherwise (R558); on the
first boot GLB_FW_VER shows its version (R579), and where that slot is the recorded one a BOOT_HOLD that was present
is no longer latched (R437). With no such slot, STAGE is 7 with reason FW (3) and the SPI pins are released. Under
FW_ACTIVATE's fence the new slot, if it passes, is started with FALLBACK 0 (R430). After a reset of the control
complex (STAGE 5 or 6, the reset over) the same image is started and no register shows it (R558, R579).
BOOT_DONE_TIMEOUT at FW_RUN, outside an activation and a fence of the control complex: firmware stops, and the first
time the start-up is back at FW_LOAD (STAGE 4) with the other slot to boot, the second time it stops with STAGE 7 and
reason 4 (R559). -/
def Obligations.BootStartsTheFirstSlotThatPasses : Prop :=
  (∀ (s : State) (x : Nat) (i : Image), s.boot.coreUp = true → s.fw.phase = 0 → s.isF GLB_BOOT_STAT.TEST_MODE = false →
    s.fw.activate = none → s.stage = 4 → s.bootSlots.find? (fun y => s.slotBoots y) = some x → s.slotImage x = some i →
    ∃ t, exec .boot s = .next t ∧ t.getF GLB_BOOT_STAT.STAGE = 5 ∧ t.getF GLB_BOOT_STAT.SLOT = x % 2 ∧ t.fw.phase = 1 ∧
      t.getF GLB_BOOT_STAT.FALLBACK = (if s.boot.retried = true ∨ s.bootSlots.head? ≠ some x then 1 else 0) ∧
      (s.boot.retried = false → t.getF GLB_FW_VER.MAJOR = i.major % 2 ^ GLB_FW_VER.MAJOR.width ∧
        t.getF GLB_FW_VER.MINOR = i.minor % 2 ^ GLB_FW_VER.MINOR.width ∧
        t.getF GLB_FW_VER.PATCH = i.patch % 2 ^ GLB_FW_VER.PATCH.width ∧
        t.getF GLB_FW_VER.SVN = i.svn % 2 ^ GLB_FW_VER.SVN.width) ∧
      (s.boot.retried = false → s.bootSlots.head? = some x → (s.faultSt 0).present = true →
        (t.faultSt 0).latched = false) ∧
      ∀ p, p ∉ faulting → p ≠ Part.boot → p ≠ Part.pinRel → State.keeps p s t) ∧
  (∀ s : State, s.boot.coreUp = true → s.fw.phase = 0 → s.isF GLB_BOOT_STAT.TEST_MODE = false →
    s.fw.activate = none → s.stage = 4 → s.bootSlots.find? (fun y => s.slotBoots y) = none →
    ∃ t, exec .boot s = .next t ∧ t.getF GLB_BOOT_STAT.STAGE = 7 ∧ t.getF GLB_BOOT_STAT.FAIL_REASON = 3 ∧
      t.boot = { s.boot with spiReleased := true } ∧ ∀ p, p ∉ [Part.regs, .boot] → State.keeps p s t) ∧
  (∀ (a : Activate) (s : State), s.boot.coreUp = true → s.fw.phase = 0 → s.isF GLB_BOOT_STAT.TEST_MODE = false →
    s.fw.activate = some a → a.fenced = true → a.booted = false → s.slotBoots a.slot = true →
    ∃ t, exec .boot s = .next t ∧ t.getF GLB_BOOT_STAT.STAGE = 5 ∧ t.getF GLB_BOOT_STAT.SLOT = a.slot % 2 ∧
      t.getF GLB_BOOT_STAT.FALLBACK = 0 ∧ t.fw = { s.fw with phase := 1, activate := some { a with booted := true } } ∧
      ∀ p, p ∉ [Part.regs, .fw] → State.keeps p s t) ∧
  (∀ s : State, s.boot.coreUp = true → s.fw.phase = 0 → s.isF GLB_BOOT_STAT.TEST_MODE = false →
    s.fw.activate = none → s.stage = 5 ∨ s.stage = 6 → (s.fence 8).rst = false → s.slotBoots s.runningSlot = true →
    exec .boot s = .next { s with fw := { s.fw with phase := 1 } }) ∧
  (∀ s : State, s.stage = 5 → s.fw.phase ≠ 0 → s.fw.activate = none → (s.fence 8).st = 0 →
    ∃ t, exec .bootDoneTimeout s = .next t ∧ t.fw.running = false ∧ t.fw.phase = 0 ∧
      (s.boot.retried = false → t.getF GLB_BOOT_STAT.STAGE = 4 ∧
        t.boot = { s.boot with retry := some (1 - s.runningSlot), retried := true }) ∧
      (s.boot.retried = true → t.getF GLB_BOOT_STAT.STAGE = 7 ∧ t.getF GLB_BOOT_STAT.FAIL_REASON = 4 ∧
        t.boot = s.boot) ∧
      ∀ p, p ∉ faulting → p ≠ Part.boot → State.keeps p s t)

/-- FW_RUN of the image that the boot ROM has started, with no fence on the control complex but that of FW_ACTIVATE,
which it lifts where no fallback is shown (R430): firmware is running and not yet at HOST_READY (R545). Where LOCK was
0, LOCK is 1 (R439, R561), with TIME_BOUND_NS and HO_RATE_PPB from the board configuration record, or, where flash
holds none, with BCR_MISSING shown (R561); where LOCK was 1 they are as they were. HOURS and LIFE_PPM come from flash
(R515), TRACE_VALID is whether flash holds a TRACE record (R492); and each tile that is neither gated nor loaded is
READY where its microcode loads, and shows UCODE_ERR where it does not (R432). -/
def Obligations.FirmwareStartLocksTheConfiguration : Prop :=
  ∀ (load : FwLoad) (s : State), s.fw.phase = 1 → (s.fence 8).st = 0 ∨ (s.fence 8).by_ = .fwActivate →
    ∃ t, exec (.fwRun load) s = .next t ∧ t.fw.running = true ∧ t.fw.phase = 2 ∧
      ((s.fence 8).by_ = .fwActivate → s.isF GLB_BOOT_STAT.FALLBACK = false → (t.fence 8).st = 0) ∧
      (s.isF QCH_LOCK.LOCK = false → t.getF QCH_LOCK.LOCK = 1) ∧
      (s.isF QCH_LOCK.LOCK = false → s.flash.bcr = none → t.getF GLB_BOOT_STAT.BCR_MISSING = 1) ∧
      (∀ b, s.isF QCH_LOCK.LOCK = false → s.flash.bcr = some b →
        t.getF QCH_CFG.TIME_BOUND_NS = b.cfg.toNat % 2 ^ QCH_CFG.TIME_BOUND_NS.width ∧
        t.getF QCH_CFG.HO_RATE_PPB = b.cfg.toNat / 65536 % 2 ^ QCH_CFG.HO_RATE_PPB.width) ∧
      (s.isF QCH_LOCK.LOCK = true → t.getF QCH_LOCK.LOCK = 1 ∧
        t.getF QCH_CFG.TIME_BOUND_NS = s.getF QCH_CFG.TIME_BOUND_NS ∧
        t.getF QCH_CFG.HO_RATE_PPB = s.getF QCH_CFG.HO_RATE_PPB) ∧
      t.getF PWR_HOURS.HOURS = s.flash.hours % 2 ^ PWR_HOURS.HOURS.width ∧
      t.getF PWR_LIFE.LIFE_PPM = s.flash.lifePpm % 2 ^ PWR_LIFE.LIFE_PPM.width ∧
      t.getF TMP_STAT.TRACE_VALID = flag s.flash.trace ∧
      (∀ k, k < 8 → bit (s.getF PWR_GATE_STAT.TILE_GATED) k = false → bit (s.getF GLB_UCODE_STAT.READY) k = false →
        (bit load.ucodeOk k = true → bit (t.getF GLB_UCODE_STAT.READY) k = true) ∧
        (bit load.ucodeOk k = false → bit (t.getF GLB_UCODE_STAT.UCODE_ERR) k = true))

/-- RESET_N low for at least 10 microseconds resets the whole device: the next state is State.reset but for the flash,
the fuses, the pin PE_RST_N, what has been sent and what waits, and the model's counter of free values; low for less
than 1 microsecond it does nothing; between, which of the two is a free value (R547). The loss of an always-on rail
leaves nothing either, and the board holds SAFE_N (R548). -/
def Obligations.DeviceResetReturnsToTheResetState : Prop :=
  (∀ (ns : Nat) (s : State), 10000 ≤ ns → exec (.deviceReset ns) s = .next { State.reset with
      flash := s.flash, fuses := s.fuses, free := s.free, out := s.out, pending := s.pending,
      boot := { safeHeld := true, peRst := s.boot.peRst } }) ∧
  (∀ (ns : Nat) (s : State), ns < 1000 → exec (.deviceReset ns) s = .next s) ∧
  (∀ (ns : Nat) (s : State), 1000 ≤ ns → ns < 10000 → ∃ t, exec (.deviceReset ns) s = .next t ∧
    (t = { s with free := s.free + 1 } ∨ t = { State.reset with
      flash := s.flash, fuses := s.fuses, free := s.free + 1, out := s.out, pending := s.pending,
      boot := { safeHeld := true, peRst := s.boot.peRst } })) ∧
  (∀ s : State, exec .aonRailFail s = .next { State.reset with
      flash := s.flash, fuses := s.fuses, free := s.free, out := s.out, pending := s.pending,
      boot := { safeHeld := false, peRst := s.boot.peRst } })

/-- FW_STAGE, ready with firmware there and no activation under way, whose indirect chunk lies within the 12 MiB slot
and whose image is signed, completes OK with RESULT0 its DATA_LEN, the slot that does not run holding the image; the
other slot and the boot record are as they were (R430). FW_ACTIVATE of the other slot with a signed image is taken by
firmware, which holds it from then on without answering yet. FW_ACTIVATE_FENCE, while firmware executes, then fences
the control complex, firmware stops, and the slot is booted: with an image that passes, STAGE is FW_RUN, SLOT shows
it, FALLBACK is 0, and the command is still held. FW_ACTIVATE_TIMEOUT after that stops firmware, answers the command
FENCED on its ring, and the slot that ran before, where its image passes, is booted again, FALLBACK 1 (R431). -/
def Obligations.FirmwareUpdateStagesAndActivates : Prop :=
  (∀ (c : Cmd) (img : Image) (s : State), s.FwReady 0xB0 c → c.indirect = true → c.a3.toNat + c.dataLen ≤ 12582912 →
    s.fw.activate = none → img.sigOk = true →
    ∃ t, exec (.fwStage c img) s = .next t ∧
      State.Answered { s with flash := if s.runningSlot = 0 then { s.flash with slotB := some img }
        else { s.flash with slotA := some img } } t c stOk c.dataLen) ∧
  (∀ (c : Cmd) (s : State), s.FwReady 0xB1 c → c.a2.toNat ≤ 1 → c.a2.toNat ≠ s.runningSlot → s.fw.activate = none →
    signatureOk (s.slotImage c.a2.toNat) = true →
    ∃ t, exec (.fwActivate c) s = .next t ∧
      State.Quiet
        { s with fw := { s.fw with activate := some { cmd := c, slot := c.a2.toNat, prev := s.runningSlot } } } t) ∧
  (∀ (a : Activate) (s : State), s.fw.activate = some a → a.booted = false → a.fenced = false → s.fwRuns = true →
    s.slotBoots a.slot = true →
    ∃ t b, exec .fwActivateFence s = .next t ∧ t.getF GLB_BOOT_STAT.SLOT = a.slot % 2 ∧
      t.getF GLB_BOOT_STAT.FALLBACK = 0 ∧ t.getF GLB_BOOT_STAT.STAGE = 5 ∧ t.fw.running = false ∧ t.fw.phase = 1 ∧
      (t.fence 8).st = 2 ∧ (t.fence 8).by_ = .fwActivate ∧ t.fw.activate = some b ∧ b.booted = true ∧ b.cmd = a.cmd) ∧
  (∀ (a : Activate) (s : State), s.fw.activate = some a → a.booted = true → s.slotBoots a.prev = true →
    a.cmd.ring < 256 →
    ∃ t, exec .fwActivateTimeout s = .next t ∧ t.fw.activate = none ∧ t.fw.running = false ∧ t.fw.phase = 1 ∧
      t.getF GLB_BOOT_STAT.SLOT = a.prev % 2 ∧ t.getF GLB_BOOT_STAT.FALLBACK = 1 ∧
      ∃ n p, Out.completion a.cmd.ring n (hostBytes [a.cmd.cookie.toNat, 0, 0, stFenced * 16777216 + p * 2147483648]) ∈
        t.out.drop s.out.length)

/-- RING_ENABLE on a path that reaches the ring: with ENABLE 0, ENABLE becomes 1, all indices are 0 and nothing is
fetched or held, no other ring changes, and with a configuration that R50, R55 and R56 allow the ring runs (STATE 1,
REASON 0), with another it is in ERROR with reason CONFIG, 1 (R61, R62); with ENABLE 1 nothing changes. RING_DISABLE
with ENABLE 1: ENABLE is 0 and the ring is STOPPING (STATE 2), its fetch index where it was; with ENABLE 0 nothing
changes. RING_STOPPED of a stopping ring whose fetched descriptors have all completed, or of a stopping entry ring:
STATE is 0 and nothing is held, and of the other parts only the functions can change (R60). -/
def Obligations.RingsEnableStopAndReportStopped : Prop :=
  (∀ (p : Path) (n : Nat) (s : State), s.ringMay p n = true → s.isF HIF_RING_CFG.ENABLE n = false →
    ∃ t, exec (.ringEnable p n) s = .next t ∧ t.getF HIF_RING_CFG.ENABLE n = 1 ∧
      t.ring n = { era := (s.ring n).era + 1, sbAt := (s.ring n).sbAt } ∧ (∀ k, k ≠ n → t.ring k = s.ring k) ∧
      (s.ringCfgOk n = true → t.getF HIF_RING_STAT.STATE n = 1 ∧ t.getF HIF_RING_STAT.REASON n = 0) ∧
      (s.ringCfgOk n = false → t.getF HIF_RING_STAT.STATE n = 3 ∧ t.getF HIF_RING_STAT.REASON n = 1) ∧
      ∀ q, q ∉ [Part.regs, .rings, .fw] → State.keeps q s t) ∧
  (∀ (p : Path) (n : Nat) (s : State), s.isF HIF_RING_CFG.ENABLE n = true → exec (.ringEnable p n) s = .next s) ∧
  (∀ (p : Path) (n : Nat) (s : State), s.ringMay p n = true → s.isF HIF_RING_CFG.ENABLE n = true →
    ∃ t, exec (.ringDisable p n) s = .next t ∧ t.getF HIF_RING_CFG.ENABLE n = 0 ∧ t.getF HIF_RING_STAT.STATE n = 2 ∧
      (t.ring n).fetch = (s.ring n).fetch) ∧
  (∀ (p : Path) (n : Nat) (s : State), s.isF HIF_RING_CFG.ENABLE n = false → exec (.ringDisable p n) s = .next s) ∧
  (∀ (n : Nat) (s : State), s.ringState n = 2 → (s.descRing n = false ∨ (s.ring n).cons = (s.ring n).fetch) →
    ∃ t, exec (.ringStopped n) s = .next t ∧ t.getF HIF_RING_STAT.STATE n = 0 ∧ (t.ring n).hold = [] ∧
      (t.ring n).rx = none ∧ ∀ q, q ∉ [Part.regs, .rings, .fns] → State.keeps q s t)

/-- DOORBELL_SCAN of a function with enabled rings and no scan outstanding reads the doorbell lines of those rings,
and only those (R66); with one outstanding it is skipped and counted (R67). DOORBELL_READ_COMPLETE of an outstanding
scan with one entry for a running ring of that function whose GEN matches: a descriptor ring's producer index becomes
INDEX where that is at most the ring's size ahead of the consumer index, and puts the ring in ERROR with reason INDEX
otherwise; an entry ring's consumer index becomes INDEX (R57, R58, R64, R68); a stale GEN moves nothing and is counted
(R59); the INDEX and GEN are the two halves of the entry's 8 bytes, little-endian (R4, R63); several entries act one
after another. DMA_READ_ERROR of a scan ends and counts it; of a descriptor read with descriptors published, or of the
data of the frame or command in front of a ring that is not stopped, it puts the ring in ERROR with reason READ, 3;
each is logged through the function's AER (R46, R77). -/
def Obligations.DoorbellScansMoveTheIndices : Prop :=
  (∀ (f : Nat) (s : State), s.pcieUp = true → s.enabledRings f ≠ [] → (s.fn f).scanning = false →
    ∃ t, exec (.doorbellScan f) s = .next t ∧ (t.fn f).scanning = true ∧
      Out.scanRead f ((s.enabledRings f).map (· / 8)).eraseDups ∈ t.out.drop s.out.length ∧
      (s.upFn f (fun x => { x with scanning := true })).Quiet t) ∧
  (∀ (f : Nat) (s : State), s.pcieUp = true → s.enabledRings f ≠ [] → (s.fn f).scanning = true →
    exec (.doorbellScan f) s = .next (s.setF HIF_SCAN_SKIP.COUNT
      (min (2 ^ HIF_SCAN_SKIP.COUNT.width - 1) (s.getF HIF_SCAN_SKIP.COUNT + 1)))) ∧
  (∀ (f n : Nat) (b : Bytes) (s : State), (s.fn f).scanning = true → s.ringState n = 1 → s.ringFn n = f →
    ∃ t, exec (.doorbellReadComplete f [(n, b)]) s = .next t ∧ (t.fn f).scanning = false ∧
      (s.getF HIF_RING_GEN.GEN n = leAt b 4 4 → s.descRing n = true →
        ((leAt b 0 4 + 4294967296 - (s.ring n).cons) % 4294967296 ≤ s.ringSize n →
          (t.ring n) = { s.ring n with prod := leAt b 0 4 } ∧ t.getF HIF_RING_STAT.STATE n = 1) ∧
        (s.ringSize n < (leAt b 0 4 + 4294967296 - (s.ring n).cons) % 4294967296 →
          (t.ring n).prod = (s.ring n).prod ∧ t.getF HIF_RING_STAT.STATE n = 3 ∧ t.getF HIF_RING_STAT.REASON n = 2)) ∧
      (s.getF HIF_RING_GEN.GEN n = leAt b 4 4 → s.descRing n = false →
        t.ring n = { s.ring n with cons := leAt b 0 4 }) ∧
      (s.getF HIF_RING_GEN.GEN n ≠ leAt b 4 4 → t.ring n = s.ring n ∧
        t.counter (group 6 n) 2 = min 0xFFFFFFFFFFFFFFFF (s.counter (group 6 n) 2 + 1))) ∧
  (∀ (f : Nat) (es : List (Nat × Bytes)) (s : State), (s.fn f).scanning = true →
    exec (.doorbellReadComplete f es) s = .next (es.foldl (fun s e => s.doorbell f e.1 (leAt e.2 0 4) (leAt e.2 4 4))
      (s.upFn f (fun x => { x with scanning := false })))) ∧
  (∀ (f : Nat) (why : DmaFail) (s : State), (s.fn f).scanning = true →
    ∃ t, exec (.dmaReadError ⟨(.scan f), why⟩) s = .next t ∧ (t.fn f).scanning = false ∧
      Out.aer f (.dmaRead why) ∈ t.out.drop s.out.length ∧
      t.getF HIF_SCAN_SKIP.COUNT = min (2 ^ HIF_SCAN_SKIP.COUNT.width - 1) (s.getF HIF_SCAN_SKIP.COUNT + 1)) ∧
  (∀ (n : Nat) (why : DmaFail) (s : State), s.ringState n = 1 → s.descRing n = true → s.published n ≠ 0 →
    ∃ t, exec (.dmaReadError ⟨(.descriptor n), why⟩) s = .next t ∧ t.getF HIF_RING_STAT.STATE n = 3 ∧
      t.getF HIF_RING_STAT.REASON n = 3 ∧ Out.aer (s.ringFn n) (.dmaRead why) ∈ t.out.drop s.out.length) ∧
  (∀ (n : Nat) (why : DmaFail) (s : State), s.ringState n ≠ 0 → s.dataReading n = true →
    ∃ t, exec (.dmaReadError ⟨(.data n), why⟩) s = .next t ∧ t.getF HIF_RING_STAT.STATE n = 3 ∧
      t.getF HIF_RING_STAT.REASON n = 3 ∧ Out.aer (s.ringFn n) (.dmaRead why) ∈ t.out.drop s.out.length)

/-- DESCRIPTOR_FETCH of a running, unpaused descriptor ring takes at most the published descriptors: the fetch index
moves on by as many as arrive and are published, modulo 2^32 (R57, R69). TX_FRAME_DATA_READ of the whole frame in
front of a transmit ring, with data of the length its descriptors give and no code that refuses it: in lookup mode,
with room in the named tile's pre-lookup buffer, the frame, padded to 60 bytes, joins that buffer as a frame of port
256 (R78, R79, R91); in direct mode with LAUNCH_EN, with room in the egress buffer and the port UP, the padded frame
joins the launch-time queue that the descriptor names (R91, R235), and without room, with LAUNCH_EN or not, each of
its descriptors completes NOSPACE (R91). Its descriptors leave the ring each time. -/
def Obligations.DescriptorsAreFetchedAndFramesSent : Prop :=
  (∀ (n : Nat) (descs : List Bytes) (s : State), s.pcieUp = true → s.ringState n = 1 →
    s.isF HIF_RING_STAT.PAUSED n = false → s.descRing n = true → (s.ring n).fetch < 4294967296 →
    ∃ t, exec (.descriptorFetch n descs) s = .next t ∧
      (t.ring n).fetch = ((s.ring n).fetch + min descs.length (s.published n)) % 4294967296) ∧
  (∀ (n : Nat) (d : Desc) (ds : List Desc) (data : Bytes) (s : State), s.pcieUp = true → s.ringState n ≠ 0 →
    s.ringType n = 0 → txHead (s.ring n).fetched = .whole (d :: ds) →
    data.length = (d :: ds).foldl (fun k x => k + txLen x) 0 → s.txCodes n d = [] → txMode d = 0 →
    s.preRoom (s.txTileOf n d) (padFrame data).length (parse (padFrame data)).isPtp = true →
    ∃ t x, exec (.txFrameDataRead n data) s = .next t ∧ x.bytes = padFrame data ∧ x.inPort = 256 ∧
      (t.tile (s.txTileOf n d)).pre = (s.tile (s.txTileOf n d)).pre ++ [x] ∧
      (t.ring n).fetched.length < (s.ring n).fetched.length) ∧
  (∀ (n : Nat) (d : Desc) (ds : List Desc) (data : Bytes) (s : State), s.pcieUp = true → s.ringState n ≠ 0 →
    s.ringType n = 0 → txHead (s.ring n).fetched = .whole (d :: ds) →
    data.length = (d :: ds).foldl (fun k x => k + txLen x) 0 → s.txCodes n d = [] → txMode d = 1 →
    txLaunchEn d = true → s.directRoom (txDest d) (8 + txLaunchQ d) (padFrame data).length true = true →
    s.portState (txDest d) = 5 →
    ∃ t x, exec (.txFrameDataRead n data) s = .next t ∧ x.bytes = padFrame data ∧ x.inPort = 256 ∧
      (t.queue (queueKey (txDest d) (8 + txLaunchQ d))).onTile =
        (s.queue (queueKey (txDest d) (8 + txLaunchQ d))).onTile ++ [x] ∧
      (t.ring n).fetched.length < (s.ring n).fetched.length) ∧
  (∀ (n : Nat) (d : Desc) (ds : List Desc) (data : Bytes) (s : State), s.pcieUp = true → s.ringState n ≠ 0 →
    s.ringType n = 0 → txHead (s.ring n).fetched = .whole (d :: ds) →
    data.length = (d :: ds).foldl (fun k x => k + txLen x) 0 → s.txCodes n d = [] → txMode d = 1 →
    s.directRoom (txDest d) (if txLaunchEn d then 8 + txLaunchQ d else txClass d) (padFrame data).length
      (txLaunchEn d) = false →
    ∃ t, exec (.txFrameDataRead n data) s = .next t ∧
      (∀ x ∈ d :: ds, ∃ i p, Out.completion n i (hostBytes [txCookie x, 0, 0, stNoSpace * 16777216 + p * 2147483648]) ∈
        t.out.drop s.out.length) ∧
      (t.ring n).fetched.length < (s.ring n).fetched.length)

/-- RX_FRAME_WRITE: when the frame that the host interface takes next goes to a ring whose next buffer holds all of it
as it leaves the block, the buffer is written with that frame and the ring's next completion carries the buffer's
cookie and STATUS OK (R94). RX_HOLD_EXPIRY ends a frame in progress: nothing of it stays in progress, and its last
completion is written again with STATUS TRUNC (R96); with none in progress nothing changes. INTERRUPT_TIMER of a ring
whose timer runs, when no status-block write of it waits, sends the ring's MSI-X message, or holds it pending while
its vector is masked, and the timer stops; while such a write waits the interrupt follows it (R70, R72).
ENTRY_HOLD_DRAIN of a running EVENT ring writes the held entries while there is space: with space for all of them none
is held any more and the producer index has moved on by their number (R86). -/
def Obligations.ReceivedFramesReachTheirBuffers : Prop :=
  (∀ (s : State) (c i n : Nat) (f : Frame) (b : Bytes) (d : Desc) (rest : List Desc), s.pcieUp = true →
    s.rxNext = some (c, i, f, .write n) → (s.ring n).fetched = d :: rest → bufOk d = true →
    b = (if f.inPort = 257 ∧ f.counted = false then f.bytes else s.outgoing f) → b.length ≤ bufLen d → 0 < b.length →
    ∃ t, exec .rxFrameWrite s = .next t ∧ Out.bufferWrite n d.idx b ∈ t.out.drop s.out.length ∧
      ∃ d1 d2 r, Out.completion n (s.ring n).cons (hostBytes [dw d.words 6, d1, d2,
        r + s.phaseBit n (s.ring n).cons * 2147483648]) ∈ t.out.drop s.out.length ∧ r < 256) ∧
  (∀ (n : Nat) (s : State) (x : RxProg), (s.ring n).rx = some x →
    ∃ t, exec (.rxHoldExpiry n) s = .next t ∧ (t.ring n).rx = none ∧
      ∃ d1 d2 r, Out.completion n x.lastIdx (hostBytes [x.lastCookie.toNat, d1, d2,
        r + stTrunc * 16777216 + s.phaseBit n x.lastIdx * 2147483648]) ∈ t.out.drop s.out.length ∧ r < 256) ∧
  (∀ (n : Nat) (s : State), (s.ring n).rx = none → exec (.rxHoldExpiry n) s = .next s) ∧
  (∀ (n : Nat) (s : State), (s.ring n).timer = true → (s.ring n).sbDue = false →
    ∃ t, exec (.interruptTimer n) s = .next t ∧ (t.ring n).timer = false ∧ (t.ring n).sinceInt = 0 ∧ s.Quiet t ∧
      (s.isF HIF_MSIX_CTRL.MASK (s.ringFn n * 256 + s.getF HIF_RING_CFG.VECTOR n) = false →
        Out.msix (s.ringFn n) (s.getF HIF_RING_CFG.VECTOR n) ∈ t.out.drop s.out.length) ∧
      (s.isF HIF_MSIX_CTRL.MASK (s.ringFn n * 256 + s.getF HIF_RING_CFG.VECTOR n) = true →
        (t.fn (s.ringFn n)).pba = (s.fn (s.ringFn n)).pba ||| 1 <<< s.getF HIF_RING_CFG.VECTOR n)) ∧
  (∀ (n : Nat) (s : State), (s.ring n).timer = true → (s.ring n).sbDue = true →
    exec (.interruptTimer n) s = .next (s.upRing n (fun r => { r with intDue := true }))) ∧
  (∀ (n : Nat) (s : State), s.ringState n = 1 → s.ringType n = 3 → (s.ring n).ok → (s.ring n).hold ≠ [] →
    ringUsed (s.ring n) + (s.ring n).hold.length ≤ s.ringSize n →
    ∃ t, exec (.entryHoldDrain n) s = .next t ∧ (t.ring n).hold = [] ∧
      (t.ring n).prod = ((s.ring n).prod + (s.ring n).hold.length) % 4294967296 ∧ s.Quiet t)

/-- VF_FUNCTION_LEVEL_RESET of VF k over a link that is up: no scan of the VF is outstanding, its grant stays, every
ring of the VF that was not STOPPED has ENABLE 0 and is STOPPING with indices 0 and nothing held, fetched or in
progress, and no ring of another function changes (R53). PF_FUNCTION_LEVEL_RESET and PE_RST_N_ASSERT: every
host-interface register is at its reset value, no function holds a grant or a scan, and no ring holds anything (R54,
R546); PE_RST_N_ASSERT also takes the link down and ends its training. PE_RST_N_DEASSERT starts link training where
HIF_READY is set; PCIE_LINK_UP with HIF_READY and PE_RST_N deasserted brings the link up (R546); PCIE_LINK_LOSS with
the link up takes it down and stops every ring: ENABLE 0, STATE 0, nothing held (R420). -/
def Obligations.ResetsAndLinkChangesStopTheRings : Prop :=
  (∀ (k : Nat) (s : State), s.pcieUp = true → 1 ≤ k →
    ∃ t, exec (.vfFunctionLevelReset k) s = .next t ∧ (t.fn k).scanning = false ∧ (t.fn k).grant = (s.fn k).grant ∧
      (∀ n, n ∈ Tab.keys s.rings → n < 256 → s.ringFn n = k → s.ringState n ≠ 0 →
        t.getF HIF_RING_CFG.ENABLE n = 0 ∧ t.getF HIF_RING_STAT.STATE n = 2 ∧
        ∃ e, t.ring n = { era := e, sbAt := (s.ring n).sbAt }) ∧
      (∀ n, n < 256 → s.ringFn n ≠ k → (∀ m, m ∈ Tab.keys s.rings → m < 256) → t.ring n = s.ring n ∧
        t.getF HIF_RING_STAT.STATE n = s.getF HIF_RING_STAT.STATE n)) ∧
  (∀ s : State, s.pcieUp = true → ∃ t, exec .pfFunctionLevelReset s = .next t ∧ t.fns = [] ∧
    (∀ f : Fld, 1000 ≤ f.id → f.id < 2000 → ∀ i, t.getF f i = f.resetAt (i % 65536)) ∧
    (∀ n, n ∈ Tab.keys s.rings → ∃ e, t.ring n = { era := e, sbAt := (s.ring n).sbAt }) ∧ t.boot = s.boot) ∧
  (∀ s : State, ∃ t, exec .peRstNAssert s = .next t ∧ t.fns = [] ∧
    (∀ f : Fld, 1000 ≤ f.id → f.id < 2000 → ∀ i, t.getF f i = f.resetAt (i % 65536)) ∧
    (∀ n, n ∈ Tab.keys s.rings → ∃ e, t.ring n = { era := e, sbAt := (s.ring n).sbAt }) ∧
    t.boot = { s.boot with peRst := true, linkUp := false, training := false }) ∧
  (∀ s : State, exec .peRstNDeassert s =
    .next { s with boot := { s.boot with peRst := false, training := s.isF GLB_BOOT_STAT.HIF_READY } }) ∧
  (∀ s : State, s.isF GLB_BOOT_STAT.HIF_READY = true → s.boot.peRst = false →
    exec .pcieLinkUp s = .next { s with boot := { s.boot with linkUp := true, training := false } }) ∧
  (∀ s : State, s.boot.linkUp = true → ∃ t, exec .pcieLinkLoss s = .next t ∧ t.boot = { s.boot with linkUp := false } ∧
    ∀ n, n ∈ Tab.keys s.rings → n < 65536 → t.getF HIF_RING_CFG.ENABLE n = 0 ∧ t.getF HIF_RING_STAT.STATE n = 0 ∧
      ∃ e, t.ring n = { era := e, sbAt := (s.ring n).sbAt })

/-- CONTROL_FRAME_SEND with firmware running and KCLK: a lookup frame for a tile with no fence and room in its
pre-lookup buffer, padded to 60 bytes, joins that buffer as a frame of port 257; without room it is dropped and
counted under port 257 (R36, R79, R155). A direct frame without launch time is dropped and counted while T0 or the
tile of its front-panel port is fenced (R424); otherwise it enters T0's staging toward that tile as every frame does
(sendUnicast), padded, with its class, stamp request, one-step mark and tag (R36, R250, R326). A frame of the training
exchange goes out on a port in TRAINING (R128). CONTROL_COMPLEX_DELIVERY with firmware running and KCLK: the first
frame of the highest class that has one in port 257's queues, when it has not aged, leaves its queue and goes to the
control complex with its ingress port and its receive stamp made whole from the serving time (R242, R319). -/
def Obligations.TheControlComplexSendsAndTakesFrames : Prop :=
  (∀ (k : Nat) (b : Bytes) (s : State), s.fwRuns = true → (s.fence k).st = 0 →
    ∃ t, exec (.controlFrameSend (.lookup k b)) s = .next t ∧
      (s.preRoom k (padFrame b).length (parse (padFrame b)).isPtp = true →
        ∃ x, x.bytes = padFrame b ∧ x.inPort = 257 ∧ (t.tile k).pre = (s.tile k).pre ++ [x]) ∧
      (s.preRoom k (padFrame b).length (parse (padFrame b)).isPtp = false → s.Quiet t ∧ t.tiles = s.tiles ∧
        t.counter (group 2 257) (s.trustClass 257 (parse (padFrame b)) * 64 + 1) =
          min 0xFFFFFFFFFFFFFFFF (s.counter (group 2 257) (s.trustClass 257 (parse (padFrame b)) * 64 + 1) + 1))) ∧
  (∀ (p c : Nat) (sr os : Bool) (tag : Nat) (b : Bytes) (s : State), s.fwRuns = true →
    p < 256 → (s.fence 0).st ≠ 0 ∨ (s.fence (p / 32)).st ≠ 0 →
    ∃ t, exec (.controlFrameSend (.direct p c none sr os tag b)) s = .next t ∧ s.Quiet t ∧
      t.counter (group 2 257) (c * 64 + 0x26) =
        min 0xFFFFFFFFFFFFFFFF (s.counter (group 2 257) (c * 64 + 0x26) + 1)) ∧
  (∀ (p c : Nat) (sr os : Bool) (tag : Nat) (b : Bytes) (s : State), s.fwRuns = true →
    p < 256 → (s.fence 0).st = 0 →
    exec (.controlFrameSend (.direct p c none sr os tag b)) s = .next (s.sendUnicast 0 (p / 32)
      { bytes := padFrame b, inPort := 257, res := { destKind := 0, dest := p, cls := c },
        direct := some { stampReq := sr, oneStep := os, tag := tag } }).1) ∧
  (∀ (p : Nat) (b : Bytes) (s : State), s.fwRuns = true → s.portState p = 2 →
    exec (.controlFrameSend (.training p b)) s = .next (s.emit (.txTraining p b))) ∧
  (∀ (c : Nat) (f : Frame) (s : State), s.fwRuns = true →
    [7, 6, 5, 4, 3, 2, 1, 0].find? (fun c => (s.head 257 c).isSome) = some c → s.head 257 c = some f →
    (s.queue (queueKey 257 c)).spilled = false → s.aged f 257 = false →
    ∃ t, exec .controlComplexDelivery s = .next t ∧
      Out.toControl (s.outgoing f) f.inPort (s.fullStamp f.stamp) ∈ t.out.drop s.out.length ∧
      ((t.queue (queueKey 257 c)).onTile = (s.queue (queueKey 257 c)).onTile.drop 1))

/-- For every command row of the table and every state. A command that does not stand at the front of its ring, ready
to execute, changes nothing (R99). A command that only the PF may issue, issued by a virtual function, completes AUTH
and does nothing else (R101). An indirect command whose DATA_LEN is above 64 KiB completes BADARG (R82). A command of
firmware's, of the PF and ready, completes FENCED while firmware is not running or before HOST_READY (R24, R100,
R545); while KCLK stands firmware's commands wait (R26). Beside the completion only reports change. -/
def Obligations.CommandsOutOfTurnOrRightChangeNothing : Prop :=
  (∀ (i : Instr) (op : Nat) (v : Bool) (c : Cmd) (s : State), engineRow i = some (op, v, c) →
    (s.commandReady op c = false → exec i s = .next s) ∧
    (s.commandReady op c = true → v = false → s.issuer c ≠ 0 → ∃ t, exec i s = .next t ∧ s.Answered t c stAuth) ∧
    (s.commandReady op c = true → s.issuer c = 0 → c.indirect = true → 65536 < c.dataLen →
      ∃ t, exec i s = .next t ∧ s.Answered t c stBadArg)) ∧
  (∀ (i : Instr) (op : Nat) (c : Cmd) (s : State), firmwareRow i = some (op, c) →
    (s.commandReady op c = false ∨ s.kclk = false → exec i s = .next s) ∧
    (s.commandReady op c = true → s.kclk = true → s.issuer c ≠ 0 → ∃ t, exec i s = .next t ∧ s.Answered t c stAuth) ∧
    (s.Ready op c → s.kclk = true → s.fw.running = false ∨ s.fw.phase ≠ 3 → ∃ t, exec i s = .next t ∧ s.Answered t c stFenced))

/-- A ready TBL_WRITE with a record that table T takes, with nothing in the way: where the key is there or the table
has room it completes OK, and T's shadow bank holds the record under its key; the active banks and every other shadow
bank are as they were (R106, R163, R164). Without room for a new key it completes NOSPACE and writes nothing; with a
record the table does not take, BADARG; with the table's fence or a pending commit in the way, FENCED or BUSY (R106,
R184, R185). TBL_BULK whose records all go in, put one after the other, completes OK with RESULT0 their number, and
changes that shadow bank alone (R589). TBL_DELETE removes the key from the shadow bank: RESULT0 is the entry's index,
0xFFFF_FFFF where there was none (R588). -/
def Obligations.TableWritesGoToTheShadowBank : Prop :=
  (∀ (c : Cmd) (s : State), s.Ready 0x10 c → c.target ≤ 12 → cmdRecordFits c c.target = true →
    recOk c.target (cmdRecord c) = true →
    (s.tblBar c.target ≠ stOk → ∃ t, exec (.tblWrite c) s = .next t ∧ s.Answered t c (s.tblBar c.target)) ∧
    (s.tblBar c.target = stOk →
      ((findKey c.target (recKey c.target (cmdRecord c)) (s.shadow c.target) ≠ none ∨
          s.tblRoom c.target (cmdRecord c) = true) →
        ∃ (u t : State) (idx : Nat), exec (.tblWrite c) s = .next t ∧ u.Answered t c stOk idx ∧
          u = { s with tables := u.tables } ∧
          findKey c.target (recKey c.target (cmdRecord c)) (u.shadow c.target) =
            some { words := cmdRecord c, idx := idx } ∧
          u.tables = { s.tables with shd := u.tables.shd } ∧ ∀ k, k ≠ c.target → u.shadow k = s.shadow k) ∧
      (findKey c.target (recKey c.target (cmdRecord c)) (s.shadow c.target) = none →
        s.tblRoom c.target (cmdRecord c) = false → ∃ t, exec (.tblWrite c) s = .next t ∧ s.Answered t c stNoSpace))) ∧
  (∀ (c : Cmd) (s : State), s.Ready 0x10 c →
    (12 < c.target ∨ cmdRecordFits c c.target = false ∨ recOk c.target (cmdRecord c) = false) →
    ∃ t, exec (.tblWrite c) s = .next t ∧ s.Answered t c stBadArg) ∧
  (∀ (c : Cmd) (l : List (List Word)) (s : State), s.Ready 0x12 c → c.target ≤ 12 → c.indirect = true → c.dataLen ≠ 0 →
    c.dataLen % 4 = 0 → splitRecs c.target (c.dataLen / 4) (toWords (c.dataLen / 4) c.data) = some l →
    s.tblBar c.target = stOk → (s.tblPutAll c.target l 0).2.1 = stOk →
    ∃ (u t : State), exec (.tblBulk c) s = .next t ∧ u = (s.tblPutAll c.target l 0).1 ∧ u.Answered t c stOk l.length ∧
      u = { s with tables := u.tables } ∧ u.tables = { s.tables with shd := u.tables.shd } ∧
      ∀ k, k ≠ c.target → u.shadow k = s.shadow k) ∧
  (∀ (c : Cmd) (s : State), s.Ready 0x11 c → c.target ≤ 12 → cmdKeyFits c = true → s.tblBar c.target = stOk →
    ∃ (u t : State), exec (.tblDelete c) s = .next t ∧
      u.Answered t c stOk (match findKey c.target (recKey c.target (cmdKeyRecord c)) (s.shadow c.target) with
        | some r => r.idx
        | none => 0xFFFFFFFF) ∧
      u = { s with tables := u.tables } ∧ u.tables = { s.tables with shd := u.tables.shd } ∧
      findKey c.target (recKey c.target (cmdKeyRecord c)) (u.shadow c.target) = none ∧
      ∀ k, k ≠ c.target → u.shadow k = s.shadow k)

/-- With a table mask that R102 allows and nothing in the way: TBL_SYNC makes the shadow bank of every table of the
mask equal to its active bank (R107); TBL_COMMIT for a frame count that is neither late nor too far, with fewer than
32 epochs live or pending, adds the commit to those scheduled and answers the epoch it will install and the frame
count (R108, R109); one that is late without LATE_OK completes PAST and schedules nothing (R110); TBL_CANCEL, when no
commit it names has reached its cutoff, takes the mask's tables out of every scheduled commit and answers how many it
changed (R110). TBL_READ of a key (tables 0-12) or a flow handle (table 13) with room in the buffer writes the
record's bytes back and answers OK with the entry's index, or zeros and 0xFFFF_FFFF where the bank holds none (R590). -/
def Obligations.BanksAreSyncedCommittedCancelledAndRead : Prop :=
  (∀ (c : Cmd) (s : State), s.Ready 0x13 c → maskOk c.a2.toNat = true → s.maskBar c.a2.toNat = stOk →
    ∃ (u t : State), exec (.tblSync c) s = .next t ∧ u.Answered t c stOk ∧ u = { s with tables := u.tables } ∧
      u.tables.act = s.tables.act ∧ u.tables.flowsAct = s.tables.flowsAct ∧
      (∀ k, k < 13 → u.shadow k = if bit c.a2.toNat k then s.active k else s.shadow k) ∧
      u.tables.flowsShd = if bit c.a2.toNat 13 then s.tables.flowsAct else s.tables.flowsShd) ∧
  (∀ (c : Cmd) (n : Nat) (s : State), s.Ready 0x14 c → maskOk c.a2.toNat = true → s.maskBar c.a2.toNat = stOk →
    s.arming (cmdFrameCount c) c.lateOk 0 = .at n → s.liveEpochs + s.epochs.commits.length < 32 →
    ∃ (u t : State), exec (.tblCommit c) s = .next t ∧
      u = { s with epochs := { s.epochs with commits := s.epochs.commits ++ [(n, c.a2.toNat)] } } ∧
      u.Answered t c stOk (u.predictedEpoch n) (n % 4294967296)) ∧
  (∀ (c : Cmd) (s : State), s.Ready 0x14 c → maskOk c.a2.toNat = true → s.maskBar c.a2.toNat = stOk →
    s.arming (cmdFrameCount c) c.lateOk 0 = .past → s.liveEpochs + s.epochs.commits.length < 32 →
    ∃ t, exec (.tblCommit c) s = .next t ∧ s.Answered t c stPast) ∧
  (∀ (c : Cmd) (s : State), s.Ready 0x15 c → maskOk c.a2.toNat = true →
    (maskTables c.a2.toNat).any (fun t => s.tblFenced t) = false →
    (∀ x ∈ s.epochs.commits, x.2 &&& c.a2.toNat ≠ 0 → s.cutoffReached x.1 = false) →
    ∃ (u t : State), exec (.tblCancel c) s = .next t ∧
      u.Answered t c stOk (s.epochs.commits.filter (fun x => x.2 &&& c.a2.toNat != 0)).length ∧
      u = { s with epochs := { s.epochs with commits := u.epochs.commits } } ∧
      ∀ x ∈ u.epochs.commits, x.2 ≠ 0 ∧ ∃ y ∈ s.epochs.commits, y.1 = x.1 ∧ x.2 = y.2 - (y.2 &&& c.a2.toNat)) ∧
  (∀ (c : Cmd) (key : List Word) (s : State), s.Ready 0x16 c → c.indirect = true → c.target < 13 → c.a5.toNat ≤ 1 →
    key = (if c.target = 12 then cmdKeyRecord c else toWords 32 c.data) → keyOk c.target key = true →
    s.tblFenced c.target = false → 128 ≤ c.dataLen →
    ∃ t, exec (.tblRead c) s = .next t ∧
      (∀ r, findKey c.target (recKey c.target key)
          (if c.a5.toNat = 0 then s.active c.target else s.shadow c.target) = some r → r.words.length ≤ 32 →
        s.Answered t c stOk r.idx ∧ Out.resultWrite c.ring c.cookie (wordsLE r.words) ∈ t.out.drop s.out.length) ∧
      (findKey c.target (recKey c.target key)
          (if c.a5.toNat = 0 then s.active c.target else s.shadow c.target) = none →
        s.Answered t c stOk 0xFFFFFFFF ∧ Out.resultWrite c.ring c.cookie
          (wordsLE (List.replicate (recWords c.target key) 0)) ∈ t.out.drop s.out.length)) ∧
  (∀ (c : Cmd) (s : State), s.Ready 0x16 c → c.indirect = true → c.target = 13 → c.a5.toNat ≤ 1 → 64 ≤ c.dataLen →
    ∃ t, exec (.tblRead c) s = .next t ∧
      (∀ f, (if c.a5.toNat = 0 then s.tables.flowsAct else s.tables.flowsShd).find?
          (fun f => f.handle == c.a0.toNat) = some f → f.words.length ≤ 16 →
        s.Answered t c stOk f.handle ∧ Out.resultWrite c.ring c.cookie (wordsLE f.words) ∈ t.out.drop s.out.length) ∧
      ((if c.a5.toNat = 0 then s.tables.flowsAct else s.tables.flowsShd).find?
          (fun f => f.handle == c.a0.toNat) = none →
        s.Answered t c stOk 0xFFFFFFFF ∧ Out.resultWrite c.ring c.cookie
          (wordsLE (List.replicate 16 0)) ∈ t.out.drop s.out.length))

/-- Ready commands of the PF complete OK: NOP with RESULT0 the frame count's low 32 bits (R101); RING_PAUSE and
RING_RESUME of a ring set and clear PAUSED of that ring (R112); CNT_READ of a defined group with room writes the
group's record and answers its length (R521); CNT_CLEAR leaves every counter of the group 0 and every counter of
another group as it was, the groups of rings apart, in which the completion itself counts (R522); VF_GRANT of a
well-formed grant to a VF that is not under reset gives the VF exactly that grant (R103); FAULT_ACK answers 0 for an
ID that is not latched, 2 for one whose condition is present, which stays latched, and 1 for one that it releases
(R451). -/
def Obligations.RingCounterGrantAndFaultCommands : Prop :=
  (∀ (c : Cmd) (s : State), s.Ready 0x01 c →
    ∃ t, exec (.nop c) s = .next t ∧ s.Answered t c stOk (s.frameCount % 4294967296)) ∧
  (∀ (c : Cmd) (s : State), s.Ready 0x30 c → c.target < 256 →
    ∃ t, exec (.ringPause c) s = .next t ∧ (s.setF HIF_RING_STAT.PAUSED 1 c.target).Answered t c stOk) ∧
  (∀ (c : Cmd) (s : State), s.Ready 0x31 c → c.target < 256 →
    ∃ t, exec (.ringResume c) s = .next t ∧ (s.setF HIF_RING_STAT.PAUSED 0 c.target).Answered t c stOk) ∧
  (∀ (c : Cmd) (s : State), s.Ready 0x40 c → c.indirect = true → groupDefined c.target = true →
    16 + 8 * groupCount c.target ≤ c.dataLen →
    ∃ (t : State) (data : List Byte), exec (.cntRead c) s = .next t ∧ s.Answered t c stOk (16 + 8 * groupCount c.target) ∧
      Out.resultWrite c.ring c.cookie data ∈ t.out.drop s.out.length ∧ data.length = 16 + 8 * groupCount c.target) ∧
  (∀ (c : Cmd) (s : State), s.Ready 0x41 c → groupDefined c.target = true → c.target < 65536 →
    ∃ t, exec (.cntClear c) s = .next t ∧ (s.clearGroup 0 c.target).Answered t c stOk ∧
      ∀ g k, k < 512 → g / 8192 ≠ 6 → t.counter g k = if g = c.target then 0 else s.counter g k) ∧
  (∀ (c : Cmd) (g : Grant) (s : State), s.Ready 0x60 c → 1 ≤ c.target → c.target < 32 → c.indirect = true →
    c.dataLen = 64 → grantOf c.data = some g → (s.fn c.target).resetting = false →
    ∃ t, exec (.vfGrant c) s = .next t ∧ (s.upFn c.target (fun x => { x with grant := g })).Answered t c stOk ∧
      (t.fn c.target).grant = g) ∧
  (∀ (c : Cmd) (s : State), s.Ready 0x70 c → c.target < 512 →
    ((s.faultSt c.target).latched = false → ∃ t, exec (.faultAck c) s = .next t ∧ s.Answered t c stOk 0) ∧
    ((s.faultSt c.target).latched = true → (s.faultSt c.target).present = true →
      ∃ t, exec (.faultAck c) s = .next t ∧ s.Answered t c stOk 2) ∧
    ((s.faultSt c.target).latched = true → (s.faultSt c.target).present = false →
      ∃ (u t : State), exec (.faultAck c) s = .next t ∧ u.Answered t c stOk 1 ∧ (t.faultSt c.target).latched = false))

/-- A ready PG_SET for a group and two front-panel ports on tiles with no fence, the group not on its way to a new
position, neither port in another group, completes OK: with different ports the group stands with those ports in
automatic mode, in use on the backup only where the primary's link is down and the backup's up; with one port twice it
stands no more (R243); every other group is as it was, and the fault of an overbooked backup is then judged. With a
change of position under way: BUSY; a port of another group: NOSPACE. PG_FORCE of a group with no fenced port puts it
on the primary (1) or the backup (2), whatever the links do, or frees it (0), when it moves only where its own link is
down and the other's up, and answers the port in use; of an undefined group, or with another value, it completes
BADARG, which is the model's reading (log entry 56; R247). -/
def Obligations.ProtectionGroupsAreSetAndForced : Prop :=
  (∀ (c : Cmd) (s : State), s.Ready 0x50 c → c.target < 128 → c.a0.toNat < 256 → c.a1.toNat < 256 →
    s.portFenced c.a0.toNat = false → s.portFenced c.a1.toNat = false → s.pgFenced c.target = false →
    (s.pgBusy c.target = true → ∃ t, exec (.pgSet c) s = .next t ∧ s.Answered t c stBusy) ∧
    (s.pgBusy c.target = false →
      (s.pgs.any (fun e => e.1 != c.target &&
          [e.2.primary, e.2.backup].any (fun p => p == c.a0.toNat || p == c.a1.toNat)) = true →
        ∃ t, exec (.pgSet c) s = .next t ∧ s.Answered t c stNoSpace) ∧
      (s.pgs.any (fun e => e.1 != c.target &&
          [e.2.primary, e.2.backup].any (fun p => p == c.a0.toNat || p == c.a1.toNat)) = false →
        ∃ (o u t : State), s.Quiet o ∧ exec (.pgSet c) s = .next t ∧ (u.judgeOverbooked o c.a1.toNat).Answered t c stOk ∧
          (c.a0 = c.a1 → Tab.get? u.pgs c.target = none) ∧
          (c.a0 ≠ c.a1 → ∃ y : Pg, Tab.get? u.pgs c.target = some y ∧ y.primary = c.a0.toNat ∧
            y.backup = c.a1.toNat ∧ y.forced = none ∧
            y.onBackup = (s.portState c.a0.toNat != 5 && s.portState c.a1.toNat == 5)) ∧
          ∀ g, g ≠ c.target → Tab.get? u.pgs g = Tab.get? s.pgs g))) ∧
  (∀ (c : Cmd) (x : Pg) (s : State), s.Ready 0x51 c → Tab.get? s.pgs c.target = some x → s.pgFenced c.target = false →
    c.a2.toNat ≤ 2 →
    ∃ (y : Pg) (u t : State), exec (.pgForce c) s = .next t ∧
      u.Answered t c stOk (if y.onBackup = true then x.backup else x.primary) ∧
      Tab.get? u.pgs c.target = some y ∧ y.primary = x.primary ∧ y.backup = x.backup ∧
      y.forced = (if c.a2.toNat = 0 then none else some c.a2.toNat) ∧
      y.onBackup = (if c.a2.toNat = 2 then true else if c.a2.toNat = 1 then false
        else if s.portState x.primary ≠ 5 ∧ s.portState x.backup = 5 then true
        else if s.portState x.primary = 5 ∧ s.portState x.backup ≠ 5 then false else x.onBackup) ∧
      ∀ g, g ≠ c.target → Tab.get? u.pgs g = Tab.get? s.pgs g) ∧
  (∀ (c : Cmd) (s : State), s.Ready 0x51 c → Tab.get? s.pgs c.target = none ∨ 2 < c.a2.toNat →
    ∃ t, exec (.pgForce c) s = .next t ∧ s.Answered t c stBadArg)

/-- For a flow command at the front of its ring, of the PF or of a virtual function. FLOW_ADD with a well-formed
record, no commit pending and a key that no bank holds (a malformed one: BADARG): where admission control refuses it
completes ADMIT_DENY with the REASON and changes nothing (R263); else, with fewer than 2,047 flows in the banks, where
the table has room for any key (above, the hash decides: log entry 14), it completes OK with a handle below 65,535
that no flow held, and the shadow bank holds the record under it beside every flow it held before (R257, R258).
FLOW_MODIFY of a flow of the issuer, with the same key, not refused, replaces the shadow record and keeps its owner;
FLOW_DELETE of one that is in no group and no LINK target removes it; other handles' records stay (R258–R260). A flow
of another function: AUTH. A pending commit of table 13: BUSY. The active bank does not change. Beside the table,
run-time state and counters of the handle only reports change. -/
def Obligations.FlowsAreAddedModifiedAndDeleted : Prop :=
  (∀ (c : Cmd) (s : State), s.Stands 0x20 c → cmdFlowOk c = true → s.tblBusy 13 = true →
    ∃ t, exec (.flowAdd c) s = .next t ∧ s.Answered t c stBusy) ∧
  (∀ (c : Cmd) (s : State), s.Stands 0x20 c → cmdFlowOk c = false →
    ∃ t, exec (.flowAdd c) s = .next t ∧ s.Answered t c stBadArg) ∧
  (∀ (c : Cmd) (s : State), s.Stands 0x20 c → cmdFlowOk c = true → s.tblBusy 13 = false →
    s.keyTaken (cmdFlow c (s.issuer c) 0) = false →
    (∀ r, s.admitFlow (s.issuer c) (s.issuer c) none (cmdFlow c (s.issuer c) 0) = some r →
      ∃ t, exec (.flowAdd c) s = .next t ∧ s.Answered t c stAdmitDeny 0 0 r) ∧
    (s.admitFlow (s.issuer c) (s.issuer c) none (cmdFlow c (s.issuer c) 0) = none → s.flowHandles.length < 2047 →
      ∃ (u t : State) (h : Nat), exec (.flowAdd c) s = .next t ∧ u.Answered t c stOk h ∧ h < 65535 ∧
        h ∉ s.flowHandles ∧ u.shadowFlow h = some (cmdFlow c (s.issuer c) h) ∧
        (∀ k, k ≠ h → u.shadowFlow k = s.shadowFlow k) ∧ u.tables.flowsAct = s.tables.flowsAct ∧
        (∀ k, k ≠ h → Tab.get? u.flowRt k = Tab.get? s.flowRt k))) ∧
  (∀ (c : Cmd) (old : Flow) (s : State), s.Stands 0x21 c → cmdFlowOk c = true → s.mayFlow (s.issuer c) c.a0.toNat = true →
    s.tblBusy 13 = false → (cmdFlow c 0 0).rtp = true ∨ s.inGroup c.a0.toNat = false →
    s.shadowFlow c.a0.toNat = some old → old.key = (cmdFlow c 0 0).key →
    (∀ r, s.admitFlow (s.issuer c) old.owner (some c.a0.toNat) (cmdFlow c (s.issuer c) c.a0.toNat) = some r →
      ∃ t, exec (.flowModify c) s = .next t ∧ s.Answered t c stAdmitDeny 0 0 r) ∧
    (s.admitFlow (s.issuer c) old.owner (some c.a0.toNat) (cmdFlow c (s.issuer c) c.a0.toNat) = none →
      ∃ u t : State, exec (.flowModify c) s = .next t ∧ u.Answered t c stOk ∧ u = { s with tables := u.tables } ∧
        u.tables = { s.tables with flowsShd := u.tables.flowsShd } ∧
        u.shadowFlow c.a0.toNat = some (cmdFlow c old.owner c.a0.toNat) ∧
        ∀ k, k ≠ c.a0.toNat → u.shadowFlow k = s.shadowFlow k)) ∧
  (∀ (c : Cmd) (s : State), s.Stands 0x22 c → s.mayFlow (s.issuer c) c.a0.toNat = true → s.tblBusy 13 = false →
    s.inGroup c.a0.toNat = false →
    (∀ f ∈ s.allFlows, f.handle ≠ c.a0.toNat → f.link ≠ c.a0.toNat) → s.shadowFlow c.a0.toNat ≠ none →
    ∃ u t : State, exec (.flowDelete c) s = .next t ∧ u.Answered t c stOk ∧ u = { s with tables := u.tables } ∧
      u.tables = { s.tables with flowsShd := u.tables.flowsShd } ∧ u.shadowFlow c.a0.toNat = none ∧
      ∀ k, k ≠ c.a0.toNat → u.shadowFlow k = s.shadowFlow k) ∧
  (∀ (c : Cmd) (s : State), s.mayFlow (s.issuer c) c.a0.toNat = false →
    (s.Stands 0x21 c → cmdFlowOk c = true → ∃ t, exec (.flowModify c) s = .next t ∧ s.Answered t c stAuth) ∧
    (s.Stands 0x22 c → ∃ t, exec (.flowDelete c) s = .next t ∧ s.Answered t c stAuth))

/-- For such a command at the front of its ring, of the PF or of the function that may act on the group and the flows
named. MERGE_SET with a well-formed member list whose flows may be members, nothing scheduled for the group and the
quota of a virtual function not used up: completes OK, and the list is scheduled for the first tick whose cutoff has
not passed, the members in force staying (R271, R272). CUT_GROUP_SET likewise with a record of allowed candidates that
leaves the candidate on air and an armed target alone (R278, R279). CUT_SELECT of a valid candidate, or of 4, none
pending, on a device that is not standby, for a frame count that can be met: completes OK with the frame count in
RESULT1, and the selection is scheduled (R281, R399). A change that is already scheduled: BUSY. A frame count that is
late without LATE_OK: PAST, nothing scheduled. Other groups stay as they are, and beside them only reports change. -/
def Obligations.MergeAndCutRecordsAreScheduledForATick : Prop :=
  (∀ (c : Cmd) (l : List Nat) (s : State), s.Stands 0x23 c → memberList c = some l → c.target < 8192 →
    s.mayMerge (s.issuer c) c.target l = true → s.membersOk (s.issuer c) c.target l = true →
    ((s.merge c.target).next ≠ none → ∃ t, exec (.mergeSet c) s = .next t ∧ s.Answered t c stBusy) ∧
    ((s.merge c.target).next = none →
      (s.issuer c = 0 ∨ l = [] ∨ s.mergeLive c.target = true ∨
        s.mergesOf (s.issuer c) c.target < (s.fn (s.issuer c)).grant.merges) →
      ∃ u t : State, exec (.mergeSet c) s = .next t ∧ u.Answered t c stOk ∧ u = { s with merges := u.merges } ∧
        (u.merge c.target).next = some (l, s.openTick 0) ∧ (u.merge c.target).members = (s.merge c.target).members ∧
        (u.merge c.target).owner = (if s.mergeLive c.target then (s.merge c.target).owner else s.issuer c) ∧
        ∀ g, g ≠ c.target → u.merge g = s.merge g)) ∧
  (∀ (c : Cmd) (s : State), s.Stands 0x24 c → c.target < 4096 → c.indirect = true → c.dataLen = 64 →
    s.mayCut (s.issuer c) c.target (toWords 16 c.data) = true →
    (∀ k, k < 4 → s.candOk c.target (toWords 16 c.data) k = true) →
    ((s.cut c.target).next ≠ none → ∃ t, exec (.cutGroupSet c) s = .next t ∧ s.Answered t c stBusy) ∧
    (s.cutPinned c.target (toWords 16 c.data) = true →
      ∃ t, exec (.cutGroupSet c) s = .next t ∧ s.Answered t c stBusy) ∧
    ((s.cut c.target).next = none → s.cutPinned c.target (toWords 16 c.data) = false →
      (s.issuer c = 0 ∨ cutHasCands (toWords 16 c.data) = false ∨ s.cutLive c.target = true ∨
        s.cutsOf (s.issuer c) c.target < (s.fn (s.issuer c)).grant.cuts) →
      ∃ u t : State, exec (.cutGroupSet c) s = .next t ∧ u.Answered t c stOk ∧ u = { s with cuts := u.cuts } ∧
        (u.cut c.target).next = some (toWords 16 c.data, s.openTick 0) ∧
        (u.cut c.target).words = (s.cut c.target).words ∧ (u.cut c.target).state = (s.cut c.target).state ∧
        ∀ g, g ≠ c.target → u.cut g = s.cut g)) ∧
  (∀ (c : Cmd) (s : State), s.Stands 0x25 c → c.target < 4096 → c.a2.toNat ≤ 4 →
    cutHasCands (s.cutRecordAt c.target (cmdFrameCount c)) = true →
    (c.a2.toNat = 4 ∨ candValid (s.cutRecordAt c.target (cmdFrameCount c)) c.a2.toNat = true) →
    s.maySelect (s.issuer c) c.target = true → s.getF GLB_PAIR_STAT.STATE ≠ 3 →
    (∀ n, s.arming (cmdFrameCount c) c.lateOk (if s.paired then 20 else 0) = .at n →
      ((s.cut c.target).sel ≠ none → ∃ t, exec (.cutSelect c) s = .next t ∧ s.Answered t c stBusy) ∧
      ((s.cut c.target).sel = none →
        ∃ u t : State, exec (.cutSelect c) s = .next t ∧ u.Answered t c stOk 0 (n % 4294967296) ∧
          u = { s with cuts := u.cuts } ∧ (u.cut c.target).sel = some (c.a2.toNat, n) ∧
          (u.cut c.target).words = (s.cut c.target).words ∧ (∀ g, g ≠ c.target → u.cut g = s.cut g) ∧
          (s.getF GLB_PAIR_STAT.STATE = 2 → Out.pairControl c.target c.a2.toNat n ∈ t.out.drop s.out.length))) ∧
    (s.arming (cmdFrameCount c) c.lateOk (if s.paired then 20 else 0) = .past → (s.cut c.target).sel = none →
      ∃ t, exec (.cutSelect c) s = .next t ∧ s.Answered t c stPast))

/-- A command of firmware's that firmware is there to execute. PTP_PORT_CFG with a record in range completes OK, and
the record waits for that port's next tick window, every other port as it was (R105); TIME_CFG likewise for the policy
and slew record (R104); out of range they complete BADARG. TIME_AUTH that names the pending discontinuity record
authorises it and is not yet completed: it waits, after the TIME_AUTHs that wait already, for the step (R307); one
that names another record, or comes when none is pending, completes PAST. DPLL_CFG and REF_CFG with a record of the
right length that the DPLL can take complete OK and the record waits for the next loop update, the registers and every
other DPLL or reference as they were (R365, R370); while one waits already they complete BUSY; a wrong length, or a
record that the DPLL cannot take (R361, R372, R377): BADARG. -/
def Obligations.FirmwareRecordsWaitForTheirInstant : Prop :=
  (∀ (c : Cmd) (s : State), s.FwReady 0x80 c →
    (ptpCfgOk c = true → ∃ u t : State, exec (.ptpPortCfg c) s = .next t ∧ u.Answered t c stOk ∧
      u = { s with ports := u.ports } ∧ u.port c.target = { s.port c.target with ptpNext := some (ptpRec c.data) } ∧
      ∀ p, p ≠ c.target → u.port p = s.port p) ∧
    (ptpCfgOk c = false → ∃ t, exec (.ptpPortCfg c) s = .next t ∧ s.Answered t c stBadArg)) ∧
  (∀ (c : Cmd) (s : State), s.FwReady 0x81 c →
    (timeCfgOk c = true → ∃ t, exec (.timeCfg c) s = .next t ∧
      ({ s with time := { s.time with cfgNext := some (toWords 8 c.data) } } : State).Answered t c stOk) ∧
    (timeCfgOk c = false → ∃ t, exec (.timeCfg c) s = .next t ∧ s.Answered t c stBadArg)) ∧
  (∀ (c : Cmd) (s : State), s.FwReady 0x82 c →
    (∀ r, s.time.disc = some r → r.id = c.a0.toNat → ∃ u t : State, exec (.timeAuth c) s = .next t ∧ u.Quiet t ∧
      u = { s with time := { s.time with disc := some { r with auth := true } }, fw := u.fw } ∧
      u.fw = { s.fw with timeAuth := s.fw.timeAuth ++ [c] }) ∧
    ((∀ r, s.time.disc = some r → r.id ≠ c.a0.toNat) →
      ∃ t, exec (.timeAuth c) s = .next t ∧ s.Answered t c stPast)) ∧
  (∀ (c : Cmd) (s : State), s.FwReady 0x83 c →
    (c.target < 4 → c.indirect = true → c.dataLen = 64 → s.dpllCfgOk c.target (toWords 16 c.data) = true →
      ((s.dpll c.target).cfg = none → ∃ u t : State, exec (.dpllCfg c) s = .next t ∧ u.Answered t c stOk ∧
        u = { s with dplls := u.dplls } ∧
        u.dpll c.target = { s.dpll c.target with cfg := some (toWords 16 c.data) } ∧
        ∀ k, k ≠ c.target → u.dpll k = s.dpll k) ∧
      ((s.dpll c.target).cfg ≠ none → ∃ t, exec (.dpllCfg c) s = .next t ∧ s.Answered t c stBusy)) ∧
    (4 ≤ c.target ∨ c.indirect = false ∨ c.dataLen ≠ 64 ∨ s.dpllCfgOk c.target (toWords 16 c.data) = false →
      ∃ t, exec (.dpllCfg c) s = .next t ∧ s.Answered t c stBadArg)) ∧
  (∀ (c : Cmd) (s : State), s.FwReady 0x84 c →
    (c.target < 26 → c.indirect = true → c.dataLen = 20 →
      ((s.refr c.target).cfg = none → ∃ u t : State, exec (.refCfg c) s = .next t ∧ u.Answered t c stOk ∧
        u = { s with refs := u.refs } ∧
        u.refr c.target = { s.refr c.target with cfg := some (toWords 5 c.data) } ∧
        ∀ k, k ≠ c.target → u.refr k = s.refr k) ∧
      ((s.refr c.target).cfg ≠ none → ∃ t, exec (.refCfg c) s = .next t ∧ s.Answered t c stBusy)) ∧
    (26 ≤ c.target ∨ c.indirect = false ∨ c.dataLen ≠ 20 →
      ∃ t, exec (.refCfg c) s = .next t ∧ s.Answered t c stBadArg))

/-- While the timing plane runs, a servo update falls on TCLK edge 262,144 times its number (R296); before, nothing
happens. With a failed side of the comparison, both timebases are equal afterwards (R466). With neither side failed:
in HARDWARE mode the increment in force is 4 ns times one plus the offset of DPLL0, to the nearest 2^-32 ns (log entry
32: the rounding is the model's), held within 3.998 ns and 4.002 ns (R297); a first setting that is not negative moves
both timebases by exactly its offset, and one that is negative moves neither and is counted as refused (R305, R308); a
record that is ready is stepped and closed (R305, R309); otherwise both timebases only run on. In SOFTWARE mode a
pending STEP_GO with nanoseconds below 10^9 moves both by the step registers, and a committed increment is taken
(R301, R311); without STEP_GO both only run on. A step makes TIME_VALID 1 and adds 1 to DISC_CNT, modulo 256 (R309). -/
def Obligations.ServoUpdateSetsTheIncrementAndAppliesOneStep : Prop :=
  (∀ (k : Nat) (s : State), s.time.running = false → exec (.servoUpdate k) s = .next s) ∧
  (∀ (k : Nat) (s : State), s.time.running = true → s.isF TPL_TB_CMP.A_FAILED = true ∨ s.isF TPL_TB_CMP.B_FAILED = true →
    ∃ t, exec (.servoUpdate k) s = .next t ∧ t.time.servos = s.time.servos + 1 ∧ t.time.a = t.time.b) ∧
  (∀ (k n : Nat) (s : State), s.time.running = true → n = (s.time.servos + 1) * 262144 - s.time.tclk →
    s.isF TPL_TB_CMP.A_FAILED = false → s.isF TPL_TB_CMP.B_FAILED = false →
    ∃ t, exec (.servoUpdate k) s = .next t ∧ t.time.servos = s.time.servos + 1 ∧
      t.time.tclk = s.time.tclk + n ∧ t.time.stcHold = [] ∧ t.time.running = true ∧
      (s.time.software = false → s.isF TPL_TB_CFG.SERVO_MODE = false →
        t.time.inc = (clampI 17171279250 17188459118 (incOf (s.foff 0))).toNat ∧
        (∀ d, s.time.firstStep = some d → t.time.firstStep = none ∧
          (0 ≤ d → t.time.a = (s.edges n).time.a + d * psU ∧ t.time.b = (s.edges n).time.b + d * psU ∧
            t.isF TPL_TB_STAT.TIME_VALID = true ∧
            t.getF TPL_TB_STAT.DISC_CNT = (s.getF TPL_TB_STAT.DISC_CNT + 1) % 256) ∧
          (d < 0 → t.time.a = (s.edges n).time.a ∧ t.time.b = (s.edges n).time.b ∧
            t.isF TPL_TB_HIST.STEP_REFUSED = true ∧ t.getF TPL_TB_STAT.DISC_CNT = s.getF TPL_TB_STAT.DISC_CNT)) ∧
        (∀ r, s.time.firstStep = none → s.time.disc = some r → r.ready = true →
          t.time.a = (s.edges n).time.a + r.off * psU ∧ t.time.b = (s.edges n).time.b + r.off * psU ∧
          t.time.disc = none ∧ t.isF TPL_TB_STAT.TIME_VALID = true ∧
          t.getF TPL_TB_STAT.DISC_CNT = (s.getF TPL_TB_STAT.DISC_CNT + 1) % 256) ∧
        (s.time.firstStep = none → (∀ r, s.time.disc = some r → r.ready = false) →
          t.time.a = (s.edges n).time.a ∧ t.time.b = (s.edges n).time.b ∧
          t.getF TPL_TB_STAT.DISC_CNT = s.getF TPL_TB_STAT.DISC_CNT)) ∧
      (s.time.software = true → s.isF TPL_TB_CFG.SERVO_MODE = true →
        t.time.inc = (match s.time.incNext with
          | some v => (clampI 17171279250 17188459118 v).toNat
          | none => s.time.inc) ∧
        (s.isF TPL_TB_STAT.STEP_PENDING = true → s.getF TPL_TB_STEP_NS.STEP_NS < 1000000000 →
          t.time.a = (s.edges n).time.a +
            (signed 32 (s.getF TPL_TB_STEP_SEC.STEP_SEC) * 1000000000 + s.getF TPL_TB_STEP_NS.STEP_NS) * nsU ∧
          t.isF TPL_TB_STAT.STEP_PENDING = false ∧ t.isF TPL_TB_STAT.TIME_VALID = true) ∧
        (s.isF TPL_TB_STAT.STEP_PENDING = false → t.time.a = (s.edges n).time.a ∧ t.time.b = (s.edges n).time.b)))

/-- For every state and servo update: where the update applies a step, that is, where DISC_CNT changes, the remaining
slew is 0 after it, and ADJ_REM reads 0 (R304). -/
def Obligations.AStepCancelsTheRemainingSlew : Prop :=
  ∀ (k : Nat) (s : State), ∃ t, exec (.servoUpdate k) s = .next t ∧
    (t.getF TPL_TB_STAT.DISC_CNT ≠ s.getF TPL_TB_STAT.DISC_CNT →
      t.time.adj = 0 ∧ t.readTpl TPL_TB_ADJ_REM.ADJ_REM 0 = 0)

/-- A write of INC_NS, TPL_TB_ADJ or STEP_GO that its path does not allow, or in HARDWARE mode, changes nothing. In
SOFTWARE mode INC_NS commits the pair with INC_FRAC for the next servo update (R301), TPL_TB_ADJ adds its signed value
in ps to the remaining slew (R302), and STEP_GO asks for the step, unless STEP_NS is 10^9 or more (R311). CAPTURE,
which a path may not do or which finds the timing plane stopped, changes nothing (the latter is the model's reading);
else it stores the serving time of the next TCLK edge, its nanoseconds below 10^9 (R327). SLEW_END: while the timing
plane stands, nothing; while it runs, TCLK edges pass until nothing remains, no fewer and no more, and both timebases
have moved by the increments and by exactly what remained (R303). -/
def Obligations.SoftwareModeWritesActOnTheTimebase : Prop :=
  (∀ (p : Path) (v : Word) (s : State), s.pfMay p = false ∨ s.time.software = false →
    exec (.incNsWrite p v) s = .next s ∧ exec (.tplTbAdjWrite p v) s = .next s ∧ exec (.stepGo p) s = .next s) ∧
  (∀ (p : Path) (v : Word) (s : State), s.pfMay p = true → s.time.software = true →
    (∃ t, exec (.incNsWrite p v) s = .next t ∧ t.getF TPL_TB_INC_NS.INC_NS = v.toNat % 256 ∧
      t.time = { s.time with
        incNext := some (v.toNat % 256 * 4294967296 + s.getF TPL_TB_INC_FRAC.INC_FRAC) } ∧
      ∀ f i, f.id ≠ TPL_TB_INC_NS.INC_NS.id → t.getF f i = s.getF f i) ∧
    exec (.tplTbAdjWrite p v) s = .next { s with time := { s.time with adj := s.time.adj + signed 32 v.toNat * psU } } ∧
    (s.getF TPL_TB_STEP_NS.STEP_NS < 1000000000 →
      ∃ t, exec (.stepGo p) s = .next t ∧ t.isF TPL_TB_STAT.STEP_PENDING = true ∧ t.time = s.time ∧
        ∀ f i, f.id ≠ TPL_TB_STAT.STEP_PENDING.id → t.getF f i = s.getF f i) ∧
    (1000000000 ≤ s.getF TPL_TB_STEP_NS.STEP_NS → exec (.stepGo p) s = .next s)) ∧
  (∀ (p : Path) (s : State), s.pfMay p = false ∨ s.time.running = false → exec (.capture p) s = .next s) ∧
  (∀ (p : Path) (s : State), s.pfMay p = true → s.time.running = true →
    ∃ t, exec (.capture p) s = .next t ∧ t.time = (s.edges 1).time ∧
      t.getF TPL_TB_CAP_NS.NS = (s.edges 1).nowNsec ∧ t.getF TPL_TB_CAP_NS.NS < 1000000000 ∧
      t.getF TPL_TB_CAP_FRAC.FRAC = (s.edges 1).nowFrac ∧
      t.getF TPL_TB_CAP_SEC_LO.SEC + t.getF TPL_TB_CAP_SEC_HI.SEC * 4294967296 = (s.edges 1).nowSec ∧
      t.isF TPL_TB_STAT.SERVING = s.isF TPL_TB_STAT.SERVING) ∧
  (∀ s : State, s.time.running = false → exec .slewEnd s = .next s) ∧
  (∀ s : State, s.time.running = true → ∃ (t : State) (k : Nat), exec .slewEnd s = .next t ∧ t = s.edges k ∧
    t.time.adj = 0 ∧ (∀ j, j < k → (s.edges j).time.adj ≠ 0) ∧
    t.time.a = s.time.a + (s.time.inc : Int) * 1000000000 * k + s.time.adj ∧
    t.time.b = s.time.b + (s.time.inc : Int) * 1000000000 * k + s.time.adj)

/-- While firmware and its clock run, a measured offset is kept for the next loop update of DPLL0 (R364), and counts
as a measurement of the window where no record is pending afterwards (R453); in SOFTWARE mode nothing more happens to
the time. In HARDWARE mode, with TH the step threshold: before time is valid and with no record pending, the offset
becomes the first setting (R305); later, one within TH opens nothing; one beyond TH opens a record under the next ID,
1 after 65,535, which DISC_PENDING and PEND_ID show (R306). With a record pending: an offset within TH closes it; one
within TH of the record's confirms it and becomes its offset, and the record is ready when it was, when it is
authorised, or at the third confirmation where the policy asks for three (R305-R307); any other replaces it by a new
record with no confirmation (R306). Without firmware or its clock nothing changes. -/
def Obligations.MeasuredOffsetsOpenConfirmAndCloseTheRecord : Prop :=
  (∀ (d : Int) (s : State), s.fwRuns = false → exec (.offsetMeasurement d) s = .next s) ∧
  (∀ (d : Int) (s : State), s.fwRuns = true → ∃ t, exec (.offsetMeasurement d) s = .next t ∧
    t.time.offset = d ∧ t.time.measured = true ∧ t.time.a = s.time.a ∧ t.time.b = s.time.b ∧ t.time.adj = s.time.adj ∧
    t.window.measured = t.time.disc.isNone ∧
    (s.time.software = true → t.time.disc = s.time.disc ∧ t.time.firstStep = s.time.firstStep) ∧
    (s.time.software = false → s.time.disc = none → s.isF TPL_TB_STAT.TIME_VALID = false →
      t.time.firstStep = some d ∧ t.time.disc = none) ∧
    (s.time.software = false → s.time.disc = none → s.isF TPL_TB_STAT.TIME_VALID = true →
      ((d.natAbs : Int) ≤ s.stepThresh → t.time.disc = none) ∧
      (s.stepThresh < (d.natAbs : Int) → t.isF TPL_TB_STAT.DISC_PENDING = true ∧
        t.getF TPL_TB_STAT.PEND_ID = t.time.lastId % 65536 ∧
        t.time.lastId = (if s.time.lastId = 65535 then 1 else s.time.lastId + 1) ∧
        t.time.disc = some { id := t.time.lastId, off := d })) ∧
    (∀ r, s.time.software = false → s.time.disc = some r →
      ((d.natAbs : Int) ≤ s.stepThresh → t.time.disc = none ∧ t.isF TPL_TB_STAT.DISC_PENDING = false) ∧
      (s.stepThresh < (d.natAbs : Int) → ((d - r.off).natAbs : Int) ≤ s.stepThresh →
        ∃ b, t.time.disc = some { r with off := d, confs := r.confs + 1, ready := b } ∧
          b = (r.ready || r.auth || (s.stepConfirm d && decide (3 ≤ r.confs + 1)))) ∧
      (s.stepThresh < (d.natAbs : Int) → s.stepThresh < ((d - r.off).natAbs : Int) →
        t.time.disc = some { id := t.time.lastId, off := d } ∧
        t.time.lastId = (if s.time.lastId = 65535 then 1 else s.time.lastId + 1))))

/-- For a reference with MON_EN clear, and for one above 23, activity loss, a fast frequency failure and the end of a
gate change nothing. Else activity loss and a fast frequency failure note their history bit and disqualify the
reference unless it is UNUSED (R366). The end of a gate stores its offset in TPL_REF_FOFF and, beyond HARD or
DRIFT_HARD, disqualifies it unless it is UNUSED; within them: DISQUALIFIED, with activity where it is a recovered
clock, DNU clear and both within three quarters, becomes QUALIFYING, or, newly enabled and with a gate as long as
QUAL_MS, QUALIFIED at once (the model's reading, log entry 65); QUALIFYING ends in QUALIFIED where QUAL_MS has passed;
QUALIFIED beyond SOFT or DRIFT_SOFT is WARNED; WARNED within three quarters of both is QUALIFIED again (R363, R366,
R367). QUAL_MS ends QUALIFYING where a gate has passed or the reference is 25, and changes nothing in another state
(R367); the age-out of reference 25 disqualifies it from QUALIFYING on (R364). No other reference changes state. -/
def Obligations.ReferencesAreDisqualifiedQualifiedAndWarned : Prop :=
  (∀ (i : Nat) (f : Int) (s : State), s.isF TPL_REF_CFG.MON_EN i = false ∨ 24 ≤ i →
    exec (.refActivityLoss i) s = .next s ∧ exec (.refFastFrequencyFail i) s = .next s ∧
    exec (.refGateEnd i f) s = .next s) ∧
  (∀ (i : Nat) (s : State), s.isF TPL_REF_CFG.MON_EN i = true → i < 24 →
    (∃ t, exec (.refActivityLoss i) s = .next t ∧ t.isF TPL_REF_HIST.ACT_LOSS i = true ∧
      t.refState i = (if s.refState i = 0 then 0 else 1) ∧ ∀ j, j < 26 → j ≠ i → t.refState j = s.refState j) ∧
    (∃ t, exec (.refFastFrequencyFail i) s = .next t ∧ t.isF TPL_REF_HIST.FAST_FAIL i = true ∧
      t.refState i = (if s.refState i = 0 then 0 else 1) ∧ ∀ j, j < 26 → j ≠ i → t.refState j = s.refState j)) ∧
  (∀ (i : Nat) (f : Int) (s u : State), s.isF TPL_REF_CFG.MON_EN i = true → i < 24 →
    u = (s.setF TPL_REF_FOFF.FOFF (unsign 32 f) i).upRef i (fun x => { x with gates := (f :: x.gates).take 16 }) →
    ∃ t, exec (.refGateEnd i f) s = .next t ∧ t.getF TPL_REF_FOFF.FOFF i = unsign 32 f ∧
      (t.refr i).gates = (f :: (s.refr i).gates).take 16 ∧ (∀ j, j < 26 → j ≠ i → t.refState j = s.refState j) ∧
      (offExceeds f (s.getF TPL_REF_MON1.HARD i) 1 1 = true ∨
          u.driftExceeds i (s.getF TPL_REF_MON2.DRIFT_HARD i) 1 1 = true →
        t.refState i = if s.refState i = 0 then 0 else 1) ∧
      (offExceeds f (s.getF TPL_REF_MON1.HARD i) 1 1 = false →
        u.driftExceeds i (s.getF TPL_REF_MON2.DRIFT_HARD i) 1 1 = false →
        (s.refState i = 0 → t.refState i = 0) ∧
        (s.refState i = 1 → t.refState i =
          if (i < 8 ∨ s.slotActive i = true) ∧ s.isF TPL_REF_CFG.DNU i = false ∧ u.withinHard i = true then
            (if (s.refr i).fresh = true ∧ s.getF TPL_REF_MON2.QUAL_MS i ≤ s.gateTenths i * 100 then 3 else 2)
          else 1) ∧
        (s.refState i = 2 → t.refState i = if (s.refr i).qualOk then 3 else 2) ∧
        (s.refState i = 3 → t.refState i =
          if offExceeds f (s.getF TPL_REF_MON1.SOFT i) 1 1 || u.driftExceeds i (s.getF TPL_REF_MON2.DRIFT_SOFT i) 1 1
          then 4 else 3) ∧
        (s.refState i = 4 → t.refState i =
          if offExceeds f (s.getF TPL_REF_MON1.SOFT i) 3 4 || u.driftExceeds i (s.getF TPL_REF_MON2.DRIFT_SOFT i) 3 4
          then 4 else 3))) ∧
  (∀ (i : Nat) (s : State), i < 26 →
    (s.refState i ≠ 2 → exec (.qualMsExpiry i) s = .next s) ∧
    (s.refState i = 2 → ∃ t, exec (.qualMsExpiry i) s = .next t ∧
      t.refState i = (if i = 25 ∨ (s.refr i).gateOk = true then 3 else 2) ∧ (t.refr i).qualOk = true ∧
      ∀ j, j < 26 → j ≠ i → t.refState j = s.refState j)) ∧
  (∀ s : State, (s.refState 25 < 2 → exec .ref25AgeOut s = .next s) ∧
    (2 ≤ s.refState 25 → ∃ t, exec .ref25AgeOut s = .next t ∧ t.refState 25 = 1 ∧
      t.isF TPL_REF_HIST.ACT_LOSS 25 = true ∧ ∀ j, j < 25 → t.refState j = s.refState j))

/-- While the timing plane does not run, a loop update does nothing. A configuration that waits for DPLL k is taken at
its loop update (R370). With none waiting for it or for a reference, at a loop update of DPLL k in MODE AUTO or
FORCED: FREERUN, LOST and HOLDOVER take the best selectable reference, HOLDOVER first the one it has kept, and become
ACQUIRING, or stay where there is none (for DPLL0 so far as no discontinuity record is pending and the reference is no
PPS input); ACQUIRING and LOCKED whose reference is no longer selectable switch to the best one, or, with none, enter
HOLDOVER if HO_EN is set and the history is valid, else LOST; DPLL1-3 in LOCKED with a phase error, counted from their
zero, beyond four LOCK_WIN unlock to ACQUIRING (R368, R373, R377). DPLL0 that tracks while a discontinuity record is
pending, with no PPS pulse since its last update, goes to HOLDOVER (R305). In the other modes it is in FREERUN with no
reference. Its exact output offset moves by no more than PSL_PPB allows, whatever the loop makes of its phase error,
and FOFF is that offset rounded (R376; what the loop makes of the error is a free value, and the even share of PSL_PPB
per update is the model's, log entries 15 and 65). DPLL_LOCK_TIME makes ACQUIRING within LOCK_WIN LOCKED; the end of a
wait-to-restore switches to the outranking reference (R369); the holdover limit makes HOLDOVER LOST (R373); elsewhere
these three change nothing. -/
def Obligations.DpllsAcquireLockHoldAndSwitch : Prop :=
  (∀ (k : Nat) (e : Int) (b : Bool) (s : State), s.time.running = false → exec (.dpllLoopUpdate k ⟨e, b⟩) s = .next s) ∧
  (∀ (k : Nat) (e : Int) (b : Bool) (w : List Word) (s : State), k < 4 → s.time.running = true →
    (s.dpll k).cfg = some w → (∀ i ∈ Tab.keys s.refs, (s.refr i).cfg = none) →
    ∃ t, exec (.dpllLoopUpdate k ⟨e, b⟩) s = .next t ∧ (t.dpll k).cfg = none ∧ t.dpllMode k = bits (dw w 0) 0 2 ∧
      t.getF TPL_DPLL_LOCK.LOCK_WIN k = bits (dw w 3) 0 16 ∧
      ∀ j, j < 8 → t.prioRef k j = bits (dw w (8 + j)) 0 5 ∧ t.prioOf k j = bits (dw w (8 + j)) 5 4) ∧
  (∀ (k : Nat) (e : Int) (b : Bool) (s : State), k < 4 → s.time.running = true → (s.dpll k).cfg = none →
    (∀ i ∈ Tab.keys s.refs, (s.refr i).cfg = none) →
    ∃ t, exec (.dpllLoopUpdate k ⟨e, b⟩) s = .next t ∧
      (2 ≤ s.dpllMode k → t.dpllState k = 0 ∧ (t.dpll k).sel = none) ∧
      (s.dpllMode k < 2 → s.dpllState k = 0 ∨ s.dpllState k = 3 ∨ s.dpllState k = 4 → ∀ c : Option Nat,
        c = (if s.dpllState k = 3 then (s.selEntry k).orElse (fun _ => s.bestEntry k) else s.bestEntry k) →
        (c = none → t.dpllState k = s.dpllState k ∧ (t.dpll k).sel = (s.dpll k).sel) ∧
        (∀ x, c = some x → k ≠ 0 ∨ s.time.disc = none ∧ 8 ≤ s.prioRef k x →
          t.dpllState k = 1 ∧ (t.dpll k).sel = some (s.prioRef k x) ∧ t.getF TPL_DPLL_STAT.SEL k = x)) ∧
      (s.dpllMode k < 2 → s.dpllState k = 1 ∨ s.dpllState k = 2 → k ≠ 0 ∨ s.time.disc = none →
        (∀ x, s.selEntry k = none → s.bestEntry k = some x →
          t.dpllState k = 1 ∧ (t.dpll k).sel = some (s.prioRef k x) ∧ t.isF TPL_DPLL_HIST.SWITCH k = true) ∧
        (s.selEntry k = none → s.bestEntry k = none →
          (t.dpll k).sel = none ∧
          t.dpllState k = if s.isF TPL_DPLL_CFG.HO_EN k && s.histValid k then 3 else 4) ∧
        (∀ x, s.selEntry k = some x → k ≠ 0 →
          t.dpllState k = if s.dpllState k = 2 ∧ 4 * s.getF TPL_DPLL_LOCK.LOCK_WIN k < (e - (s.dpll k).zero).natAbs then 1
            else s.dpllState k)) ∧
      (s.dpllMode 0 < 2 → s.dpllState 0 = 1 ∨ s.dpllState 0 = 2 → k = 0 → b = false → s.time.disc ≠ none →
        t.dpllState 0 = 3) ∧
      ((t.dpll k).fine - (s.dpll k).fine).natAbs ≤ max 1 (s.getF TPL_DPLL_PSL.PSL_PPB k) * 2 ^ 40 * loopNs k ∧
      t.getF TPL_DPLL_FOFF.FOFF k = unsign 32 (roundDiv (t.dpll k).fine fineU)) ∧
  (∀ (k : Nat) (s : State), k < 4 →
    (s.dpllState k = 1 → (signed 32 (s.getF TPL_DPLL_PERR.PERR k)).natAbs ≤ s.getF TPL_DPLL_LOCK.LOCK_WIN k →
      ∃ t, exec (.dpllLockTime k) s = .next t ∧ t.dpllState k = 2) ∧
    (s.dpllState k ≠ 1 ∨ s.getF TPL_DPLL_LOCK.LOCK_WIN k < (signed 32 (s.getF TPL_DPLL_PERR.PERR k)).natAbs →
      exec (.dpllLockTime k) s = .next s) ∧
    (∀ x, s.dpllState k = 1 ∨ s.dpllState k = 2 → s.dpllMode k = 0 → s.firstWait k = some x →
      ∃ t, exec (.dpllWtrExpiry k) s = .next t ∧ t.dpllState k = 1 ∧ (t.dpll k).sel = some (s.prioRef k x) ∧
        t.isF TPL_DPLL_HIST.SWITCH k = true) ∧
    ((s.dpllState k ≠ 1 ∧ s.dpllState k ≠ 2) ∨ s.dpllMode k ≠ 0 ∨ s.firstWait k = none →
      exec (.dpllWtrExpiry k) s = .next s) ∧
    (s.dpllState k = 3 → s.getF TPL_DPLL_HOLD.HO_LIMIT_S k ≠ 0 →
      ∃ t, exec (.holdoverLimitExpiry k) s = .next t ∧ t.dpllState k = 4) ∧
    (s.dpllState k ≠ 3 ∨ s.getF TPL_DPLL_HOLD.HO_LIMIT_S k = 0 → exec (.holdoverLimitExpiry k) s = .next s))

/-- TEMPER_RUN that firmware is there to execute and names no level, or TRACE without its references: BADARG; with
Temper's fence not open: FENCED; while one runs: BUSY; else it runs and is not yet completed: with FIXED, unit 8 among
the units still to run; with PATH, every open tile still to measure; with TRACE alone and no run due, the trace
running (R497). A repeat puts all lanes of its unit into a pending run, or starts it where no run is in progress
(R499). PATH_STEP of a tile in service within the REPEAT_PS in force (R517) of the measurement before confirms their
mean as the tile's target; the tile has no measurement left (R496, R498). A TRACE that passes makes TRACE_VALID 1, and
the calibration it yields is in force and stands in flash; one that fails leaves flash as it was and raises TRACE_FAIL
(R491–R493). A unit whose DT_OK stays clear raises TEMPER_OVERDUE (R500). What does not apply changes nothing. -/
def Obligations.TemperRunsMeasureConfirmAndReport : Prop :=
  (∀ (c : Cmd) (s : State), s.FwReady 0x90 c →
    (c.a2.toNat = 0 ∨ 7 < c.a2.toNat ∨ (bit c.a2.toNat 2 = true ∧ s.traceRefs = false) →
      ∃ t, exec (.temperRun c) s = .next t ∧ s.Answered t c stBadArg) ∧
    (c.a2.toNat ≠ 0 → c.a2.toNat ≤ 7 → bit c.a2.toNat 2 = false ∨ s.traceRefs = true →
      ((s.fence 9).st ≠ 0 → ∃ t, exec (.temperRun c) s = .next t ∧ s.Answered t c stFenced) ∧
      ((s.fence 9).st = 0 → s.fw.temper ≠ none → ∃ t, exec (.temperRun c) s = .next t ∧ s.Answered t c stBusy) ∧
      ((s.fence 9).st = 0 → s.fw.temper = none →
        ∃ t, exec (.temperRun c) s = .next t ∧
          (bit c.a2.toNat 0 = true → t.fw.temper = some c ∧ bit t.temper.fixedLeft 8 = true) ∧
          (bit c.a2.toNat 1 = true → s.tilesOpen ≠ 0 → t.fw.temper = some c ∧ t.temper.pathLeft = s.tilesOpen) ∧
          (c.a2.toNat = 4 → s.temper.unit = none → s.temper.pending = [] → s.temper.trace = false →
            t.fw.temper = some c ∧ t.temper.trace = true ∧ t.getF TMP_STAT.STATE = 2)))) ∧
  (∀ (u n : Nat) (s : State), n = Tab.getD s.temper.repeats u 0 →
    (s.temperOn = false ∨ n = 0 ∨ 3 < n → exec (.temperRetry u) s = .next s) ∧
    (s.temperOn = true → 0 < n → n ≤ 3 →
      ∃ t, exec (.temperRetry u) s = .next t ∧
        (s.temper.unit ≠ none → Tab.get? t.temper.pending u = some (Tab.getD s.temper.pending u 0 ||| allLanes) ∧
          t.temper.unit = s.temper.unit) ∧
        (s.temper.unit = none → s.temper.trace = false → s.temper.pending = [] →
          ((unitLanes u allLanes).filter (fun l => s.lanePart l)) ≠ [] →
          t.temper.unit = some u ∧ t.temper.lanes = (unitLanes u allLanes).filter (fun l => s.lanePart l) ∧
          t.getF TMP_STAT.STATE = 1))) ∧
  (∀ (k : Nat) (m : Int) (s : State),
    (s.temperOn = false ∨ s.temper.trace = true ∨ (s.isF TMP_CFG.PATH_EN = false ∧ bit s.temper.pathLeft k = false) →
      exec (.pathStep k m) s = .next s) ∧
    (s.temperOn = true → s.temper.trace = false → s.isF TMP_CFG.PATH_EN = true ∨ bit s.temper.pathLeft k = true →
      ∃ t, exec (.pathStep k m) s = .next t ∧ bit t.temper.pathLeft k = false ∧
        ∀ a l, k < 8 → (s.fence k).st = 0 → (s.item (pathKey k)).meas = a :: l →
          (m - a).natAbs ≤ 1000 * max 1 s.temper.rep →
          (t.item (pathKey k)).target = some ((m + a) / 2))) ∧
  (∀ (ok : Bool) (s : State), (s.temper.trace = false → exec (.traceRunEnd ok) s = .next s) ∧
    (s.temper.trace = true → ∃ t, exec (.traceRunEnd ok) s = .next t ∧
      (ok = true → s.traceRefs = true →
        t.flash.trace = true ∧ t.temper.cal ≠ none ∧ t.flash.cal = t.temper.cal ∧
        t.isF TMP_STAT.TRACE_VALID = true ∧ t.isF TMP_STAT.FACTORY_TRACE = false) ∧
      (ok = false ∨ s.traceRefs = false → t.flash.trace = s.flash.trace ∧ t.isF TMP_HIST.TRACE_FAIL = true ∧
        (s.masked 0x1C1 = false → (s.faultSt 0x1C1).present = false → (t.faultSt 0x1C1).latched = true)))) ∧
  (∀ (u : Nat) (s : State),
    (s.temperOn = false ∨ bit (s.getF TMP_STAT.DT_OK) u = true → exec (.temperOverdue u) s = .next s) ∧
    (s.temperOn = true → bit (s.getF TMP_STAT.DT_OK) u = false →
      ∃ t, exec (.temperOverdue u) s = .next t ∧ t.isF TMP_HIST.OVERDUE = true ∧
        (s.masked 0x1C2 = false → (s.faultSt 0x1C2).present = false → (t.faultSt 0x1C2).latched = true)))

/-- For every state: a servo update moves the applied value of every item by at most 1 ps, that is 1,000 fs (R501),
and, with no pair held, every entry of the correction table by at most 1 ps (R39, R501). Outside servo updates a
measurement moves no applied value: PATH_STEP leaves every one as it was. -/
def Obligations.CorrectionsEnterByOnePicosecondAServoUpdate : Prop :=
  (∀ (b : Nat) (s : State), ∃ t, exec (.servoUpdate b) s = .next t ∧
    (∀ k, ((t.item k).applied - (s.item k).applied).natAbs ≤ 1000) ∧
    (s.temper.pairs = [] → ∀ i,
      (signed 20 (t.getF TPL_STC_TX.TX_CORR i) - signed 20 (s.getF TPL_STC_TX.TX_CORR i)).natAbs ≤ 1 ∧
      (signed 20 (t.getF TPL_STC_RX.RX_CORR i) - signed 20 (s.getF TPL_STC_RX.RX_CORR i)).natAbs ≤ 1)) ∧
  (∀ (k : Nat) (m : Int) (s : State), ∃ t, exec (.pathStep k m) s = .next t ∧
    ∀ j, (t.item j).applied = (s.item j).applied)

/-- A command of firmware's that firmware is there to execute. PAIR_CFG with a record of the wrong length or GPIO
fields that do not name two different pins of GPIO13–15: BADARG; while JOINING or with a switch pending: BUSY; else it
completes OK with PAIR_EN, PRIMARY and TAKE_UNPROVEN of the record in force, and a device that this puts into a pair
is JOINING, one that it takes out is SOLO and not PROVEN, any other keeps its state (R487). PAIR_SWITCH that does not
fit the device's state: BADARG; unproven, with a switch pending or with no Rivet lane up: BUSY; else the switch is
scheduled for the switch point with reason 5, the partner is told, and the command waits for it, uncompleted (R483;
how the partner is told is the model's reading, log entry 36). -/
def Obligations.PairCommandsJoinLeaveAndScheduleASwitch : Prop :=
  (∀ (c : Cmd) (s : State), s.FwReady 0xA0 c →
    (c.indirect = false ∨ c.dataLen ≠ 12 ∨ pairCfgOk (leAt c.data 0 4) = false →
      ∃ t, exec (.pairCfg c) s = .next t ∧ s.Answered t c stBadArg) ∧
    (c.indirect = true → c.dataLen = 12 → pairCfgOk (leAt c.data 0 4) = true →
      (s.pairState = pairJoining ∨ s.pair.switch ≠ none →
        ∃ t, exec (.pairCfg c) s = .next t ∧ s.Answered t c stBusy) ∧
      (s.pairState ≠ pairJoining → s.pair.switch = none →
        ∃ u t : State, exec (.pairCfg c) s = .next t ∧ u.Answered t c stOk ∧
          t.getF GLB_PAIR_CFG.PAIR_EN = bits (leAt c.data 0 4) 0 1 ∧
          t.getF GLB_PAIR_CFG.PRIMARY = bits (leAt c.data 0 4) 1 1 ∧
          t.getF GLB_PAIR_CFG.TAKE_UNPROVEN = bits (leAt c.data 0 4) 11 1 ∧
          t.pairState =
            (if s.paired = false ∧ bit (leAt c.data 0 4) 0 = true then pairJoining
             else if s.paired = true ∧ bit (leAt c.data 0 4) 0 = false then pairSolo else s.pairState) ∧
          (s.paired = true → bit (leAt c.data 0 4) 0 = false → t.proven = false) ∧
          t.gens = s.gens ∧ t.epochs = s.epochs))) ∧
  (∀ (c : Cmd) (s : State), s.FwReady 0xA1 c →
    (¬ ((c.a2.toNat = 0 ∧ s.pairState = pairActive) ∨ (c.a2.toNat = 1 ∧ s.pairState = pairStandby)) →
      ∃ t, exec (.pairSwitch c) s = .next t ∧ s.Answered t c stBadArg) ∧
    ((c.a2.toNat = 0 ∧ s.pairState = pairActive) ∨ (c.a2.toNat = 1 ∧ s.pairState = pairStandby) →
      (s.switchBusy = true → ∃ t, exec (.pairSwitch c) s = .next t ∧ s.Answered t c stBusy) ∧
      (s.switchBusy = false → ∃ u t : State, exec (.pairSwitch c) s = .next t ∧ u.Quiet t ∧
        Out.pairSwitch s.switchPoint 5 ∈ t.out.drop s.out.length ∧
        u.pair = { s.pair with switch := some (s.switchPoint, 5) } ∧
        u.fw = { s.fw with pairSwitch := some c } ∧ u = { s with pair := u.pair, fw := u.fw })))

/-- Outside a pair, or with the Rivet link fenced, a heartbeat changes nothing; one whose CRC fails is counted and
does nothing else (R472). Another heartbeat shows the peer's PAIR_ACT in PEER_ACT and its lane in LANES_UP. For a
STANDBY device of a pair: a heartbeat of a peer that is SOLO or does not assert its PAIR_ACT, the loss of heartbeats
on both lanes with PEER_ACT low, and PEER_ACT low for 1 µs make it ACTIVE with TAKEOVER set if it is PROVEN or
TAKE_UNPROVEN is set (R480, R481, R487); with TAKE_UNPROVEN clear an unproven standby stays STANDBY (R479); any other
heartbeat leaves it STANDBY. The loss of both lanes with PEER_ACT high sets SPLIT and changes no role, and the loss of
one of two lanes sets LANE_LOSS and changes no role (R480); a device that is not STANDBY keeps its role at a loss and
at PEER_ACT low. An ACTIVE SECONDARY that hears an ACTIVE peer becomes JOINING and is not PROVEN; the PRIMARY stays
ACTIVE (R482). Outside a pair the losses and PEER_ACT low change nothing. -/
def Obligations.StandbyTakesOverWhenTheActiveIsLost : Prop :=
  (∀ (l t4 : Nat) (hb : Heartbeat) (b : Bool) (s : State), s.paired = false ∨ (s.fence 11).st ≠ 0 →
    exec (.heartbeatReceive l ⟨hb, b⟩ t4) s = .next s) ∧
  (∀ (l t4 : Nat) (hb : Heartbeat) (s : State), s.paired = true → (s.fence 11).st = 0 →
    exec (.heartbeatReceive l ⟨hb, false⟩ t4) s = .next { s with pair := { s.pair with crcErrs := s.pair.crcErrs + 1 } }) ∧
  (∀ (l t4 : Nat) (hb : Heartbeat) (s : State), s.paired = true → (s.fence 11).st = 0 →
    ∃ t, exec (.heartbeatReceive l ⟨hb, true⟩ t4) s = .next t ∧ t.isF GLB_PAIR_STAT.PEER_ACT = hb.activeOk ∧
      bit (t.getF GLB_PAIR_STAT.LANES_UP) (l % 2) = true ∧ t.pair.rx = some (hb, t4) ∧
      (s.pairState = pairStandby → hb.state = pairSolo ∨ hb.activeOk = false →
        (s.proven = true ∨ s.isF GLB_PAIR_CFG.TAKE_UNPROVEN = true →
          t.pairState = pairActive ∧ t.isF GLB_PAIR_HIST.TAKEOVER = true) ∧
        (s.proven = false → s.isF GLB_PAIR_CFG.TAKE_UNPROVEN = false → t.pairState = pairStandby)) ∧
      (s.pairState = pairStandby → hb.state ≠ pairSolo → hb.activeOk = true → t.pairState = pairStandby) ∧
      (s.pairState = pairActive → hb.state = pairActive →
        (s.isF GLB_PAIR_CFG.PRIMARY = false → t.pairState = pairJoining ∧ t.proven = false) ∧
        (s.isF GLB_PAIR_CFG.PRIMARY = true → t.pairState = pairActive))) ∧
  (∀ (l : Nat) (act : Bool) (s : State), s.paired = false → exec (.heartbeatLoss l act) s = .next s ∧
    exec .peerActLow s = .next s) ∧
  (∀ (l : Nat) (act : Bool) (s : State), s.paired = true →
    (l % 4 = 0 → exec (.heartbeatLoss l act) s = .next s) ∧
    (l % 4 = 3 → ∃ t, exec (.heartbeatLoss l act) s = .next t ∧ t.isF GLB_PAIR_STAT.PEER_ACT = act ∧
      t.getF GLB_PAIR_STAT.LANES_UP = 0 ∧
      (s.pairState ≠ pairStandby → t.pairState = s.pairState) ∧
      (s.pairState = pairStandby → act = true → t.pairState = pairStandby ∧ t.isF GLB_PAIR_HIST.SPLIT = true) ∧
      (s.pairState = pairStandby → act = false → s.proven = true ∨ s.isF GLB_PAIR_CFG.TAKE_UNPROVEN = true →
        t.pairState = pairActive ∧ t.isF GLB_PAIR_HIST.TAKEOVER = true) ∧
      (s.pairState = pairStandby → act = false → s.proven = false → s.isF GLB_PAIR_CFG.TAKE_UNPROVEN = false →
        t.pairState = pairStandby)) ∧
    (l % 4 = 1 ∨ l % 4 = 2 → ∃ t, exec (.heartbeatLoss l act) s = .next t ∧ t.pairState = s.pairState ∧
      t.isF GLB_PAIR_STAT.PEER_ACT = act ∧
      (s.getF GLB_PAIR_STAT.LANES_UP = 3 → t.isF GLB_PAIR_HIST.LANE_LOSS = true ∧
        t.getF GLB_PAIR_STAT.LANES_UP = 3 - l % 4)) ∧
    ∃ t, exec .peerActLow s = .next t ∧ t.isF GLB_PAIR_STAT.PEER_ACT = false ∧
      (s.pairState ≠ pairStandby → t.pairState = s.pairState) ∧
      (s.pairState = pairStandby → s.proven = true ∨ s.isF GLB_PAIR_CFG.TAKE_UNPROVEN = true →
        t.pairState = pairActive ∧ t.isF GLB_PAIR_HIST.TAKEOVER = true) ∧
      (s.pairState = pairStandby → s.proven = false → s.isF GLB_PAIR_CFG.TAKE_UNPROVEN = false →
        t.pairState = pairStandby))

/-- A paired device whose Rivet link is in service sends one heartbeat on both lanes (log entry 33) with the next
sequence number, its pair state, PROVEN and the frame count (R473); otherwise it sends none. A snapshot or control
message whose CRC fails is counted and does nothing else (R472). A standby keeps a snapshot for its next comparison; a
joining device keeps one whose generator configuration is its own and refuses any other, staying JOINING (R475, R488);
in other states it is ignored. A forwarded selection is scheduled on a standby for the tick it names, or for the next
tick when that has passed (R476); a switch point that the partner tells is scheduled by an active or a standby that
has none (the model's reading, log entry 36). A PRIMARY standby that has been PROVEN for RETURN_S schedules a switch
with reason 6 and tells the partner (R486). Ten milliseconds without a heartbeat, with PEER_ACT low, make a joining
PRIMARY ACTIVE, and a joining SECONDARY at the second such JOIN_TIMEOUT in a row; in other states, or with PEER_ACT
high, it changes nothing (R488). -/
def Obligations.PairLinkCarriesHeartbeatsSnapshotsAndSelections : Prop :=
  (∀ (k : Nat) (s : State),
    (s.paired = false ∨ (s.fence 11).st ≠ 0 → exec (.heartbeatSend k) s = .next s) ∧
    (s.paired = true → (s.fence 11).st = 0 → ∃ (t : State) (h : Heartbeat), exec (.heartbeatSend k) s = .next t ∧
      t.out = s.out ++ [Out.heartbeat 0 h, Out.heartbeat 1 h] ∧ h.seq = s.pair.hbSeq ∧ h.state = s.pairState ∧
      h.proven = s.proven ∧ h.primary = s.isF GLB_PAIR_CFG.PRIMARY ∧ h.activeOk = s.pairAct ∧ h.fc0 = s.frameCount ∧
      h.t1 = gridOf (s.rawStamp k) ∧
      (∀ r, s.pair.rx = some r → h.t2 = r.2 ∧ h.t2Seq = r.1.seq) ∧
      t.pair = { s.pair with hbSeq := (s.pair.hbSeq + 1) % 65536, tx := Tab.set s.pair.tx s.pair.hbSeq h.t1 })) ∧
  (∀ (x : Snapshot) (b : Bool) (s : State),
    (s.paired = false ∨ (s.fence 11).st ≠ 0 → exec (.snapshotReceive ⟨x, b⟩) s = .next s) ∧
    (s.paired = true → (s.fence 11).st = 0 →
      (b = false → exec (.snapshotReceive ⟨x, b⟩) s =
        .next { s with pair := { s.pair with crcErrs := s.pair.crcErrs + 1 } }) ∧
      (b = true → s.pairState = pairSolo ∨ s.pairState = pairActive → exec (.snapshotReceive ⟨x, b⟩) s = .next s) ∧
      (b = true → s.pairState = pairStandby → exec (.snapshotReceive ⟨x, b⟩) s =
        .next { s with pair := { s.pair with snap := some x, ticksSince := List.replicate 16 0 } }) ∧
      (b = true → s.pairState = pairJoining →
        (s.configDiffers x = false → exec (.snapshotReceive ⟨x, b⟩) s =
          .next { s with pair := { s.pair with snap := some x, ticksSince := List.replicate 16 0 } }) ∧
        (s.configDiffers x = true → ∃ t, exec (.snapshotReceive ⟨x, b⟩) s = .next t ∧
          t.isF GLB_PAIR_HIST.JOIN_REFUSED = true ∧ t.pairState = pairJoining ∧ t.pair = s.pair)))) ∧
  (∀ (g k n : Nat) (sw : Option Nat) (b : Bool) (s : State),
    (s.paired = true → (s.fence 11).st = 0 → b = false → exec (.pairControlMessage g k ⟨n, sw, b⟩) s =
      .next { s with pair := { s.pair with crcErrs := s.pair.crcErrs + 1 } }) ∧
    ((s.fence 11).st ≠ 0 → exec (.pairControlMessage g k ⟨n, sw, b⟩) s = .next s) ∧
    ((s.fence 11).st = 0 → s.paired = false ∨ b = true →
      (∀ r, sw = some r →
        (s.pairState = pairActive ∨ s.pairState = pairStandby → s.pair.switch = none →
          exec (.pairControlMessage g k ⟨n, sw, b⟩) s = .next { s with pair := { s.pair with switch := some (n, r) } }) ∧
        ((s.pairState ≠ pairActive ∧ s.pairState ≠ pairStandby) ∨ s.pair.switch ≠ none →
          exec (.pairControlMessage g k ⟨n, sw, b⟩) s = .next s)) ∧
      (sw = none →
        (s.pairState ≠ pairStandby ∨ s.cutLive g = false → exec (.pairControlMessage g k ⟨n, sw, b⟩) s = .next s) ∧
        (s.pairState = pairStandby → s.cutLive g = true →
          ∃ (t : State) (m : Nat), exec (.pairControlMessage g k ⟨n, sw, b⟩) s = .next t ∧ t = { s with cuts := t.cuts } ∧
            (t.cut g).sel = some (k, m) ∧ (∀ j, j ≠ g → t.cut j = s.cut j) ∧ s.lastFc < (m : Int) ∧
            (s.lastFc < (n : Int) → m = n) ∧ ((n : Int) ≤ s.lastFc → (m : Int) = s.lastFc + 1))))) ∧
  (∀ (s : State),
    (s.isF GLB_PAIR_CFG.PRIMARY = true → s.pairState = pairStandby → s.isF GLB_PAIR_CFG.RETURN_S = true →
      s.pair.provenAt + s.returnHold ≤ s.now → s.switchBusy = false →
      exec .pairReturn s = .next { s with pair := { s.pair with switch := some (s.switchPoint, 6) },
                                          out := s.out ++ [Out.pairSwitch s.switchPoint 6] }) ∧
    (s.isF GLB_PAIR_CFG.PRIMARY = false ∨ s.pairState ≠ pairStandby ∨ s.isF GLB_PAIR_CFG.RETURN_S = false ∨
      s.now < s.pair.provenAt + s.returnHold ∨ s.switchBusy = true → exec .pairReturn s = .next s) ∧
    (s.pairState = pairJoining → s.isF GLB_PAIR_STAT.PEER_ACT = false →
      (s.isF GLB_PAIR_CFG.PRIMARY = true ∨ s.pair.waited = true →
        ∃ t, exec .joinTimeout s = .next t ∧ t.pairState = pairActive) ∧
      (s.isF GLB_PAIR_CFG.PRIMARY = false → s.pair.waited = false →
        exec .joinTimeout s = .next { s with pair := { s.pair with waited := true } })) ∧
    (s.pairState ≠ pairJoining ∨ s.isF GLB_PAIR_STAT.PEER_ACT = true → exec .joinTimeout s = .next s))

/-- FAULT_PRESENT of any list of occurrences, lost pulses (0xA2) apart: every named fault of the list that is neither
masked nor present nor latched is latched afterwards with a severity that is at least the configured one and at least
its FLOOR (R438, R439, R443, R444); a fence domain that it isolates at ISOLATE or above is not OPEN afterwards, the
Rivet link of a paired device apart (R422, R438); and, a timebase mismatch (0xC0) apart, latched faults stay latched
at no lower severity and registers outside those of faults stay (R445, R451). Of one occurrence where no fault was
latched before, QCH_FIRST shows it (R444); a masked one leaves the fault latches and fences as they were (R449). A
mismatch of two sides in service counts in MISMATCH_CNT and leaves the serving time as it is; where residues or the
majority name the healthy side, that side serves and the other is marked failed; else TB_UNDECIDED is latched (R463,
R464). A lost pulse sets its bit of XING_OVR, and is latched where the bit was clear (R414). FAULT_CLEAR of a
condition that the block's own state does not demand leaves it absent and, BOOT_HOLD apart, the fault latched (R437,
R447); one that it demands changes nothing. QUENCH_SIDE_COMPARE latches fault 1 on disagreement or with no answer, and
ends its condition on agreement (R441). -/
def Obligations.FaultsLatchIsolateAndClear : Prop :=
  (∀ (l : List FaultOcc) (s : State), (∀ o ∈ l, o.id ≠ 0xA2) →
    ∃ t, exec (.faultPresent l) s = .next t ∧ ((∀ o ∈ l, o.id ≠ 0xC0) → s.Raised t) ∧
      ∀ o ∈ l, faultNamed o.id = true → s.masked o.id = false → (s.faultSt o.id).present = false →
        (s.faultSt o.id).latched = false →
        (t.faultSt o.id).latched = true ∧ s.confSev o.id ≤ (t.faultSt o.id).applied ∧
        s.getF QCH_SEV.FLOOR o.id ≤ (t.faultSt o.id).applied ∧
        (∀ d, faultTarget o.id = .domain d → 2 ≤ s.confSev o.id → d ≠ 11 ∨ s.paired = false → (t.fence d).st ≠ 0)) ∧
  (∀ (o : FaultOcc) (s : State), faultNamed o.id = true → o.id ≠ 0xC0 → o.id ≠ 0xA2 →
    (s.masked o.id = false → (s.faultSt o.id).present = false → s.latched = [] →
      ∃ t, exec (.faultPresent [o]) s = .next t ∧ t.getF QCH_FIRST.FIRST_ID = o.id ∧ t.isF QCH_FIRST.VALID = true) ∧
    (s.masked o.id = true → ∃ t, exec (.faultPresent [o]) s = .next t ∧ t.quench = s.quench ∧ t.fences = s.fences)) ∧
  (∀ (o : FaultOcc) (s : State), o.id = 0xC0 → s.isF TPL_TB_CMP.A_FAILED = false → s.isF TPL_TB_CMP.B_FAILED = false →
    ∃ t, exec (.faultPresent [o]) s = .next t ∧ t.now = s.now ∧
      t.getF TPL_TB_CMP.MISMATCH_CNT = min 255 (s.getF TPL_TB_CMP.MISMATCH_CNT + 1) ∧
      (s.tbVerdict o.masterId < 4 → t.isF TPL_TB_STAT.SERVING = decide (s.tbVerdict o.masterId % 2 = 1) ∧
        t.isF TPL_TB_CMP.A_FAILED = decide (s.tbVerdict o.masterId % 2 = 1) ∧
        t.isF TPL_TB_CMP.B_FAILED = decide (s.tbVerdict o.masterId % 2 = 0)) ∧
      (4 ≤ s.tbVerdict o.masterId → t.isF TPL_TB_CMP.A_FAILED = false ∧ t.isF TPL_TB_CMP.B_FAILED = false ∧
        (s.masked 0xC6 = false → (s.faultSt 0xC6).present = false → (t.faultSt 0xC6).latched = true))) ∧
  (∀ (o : FaultOcc) (s : State), o.id = 0xA2 → ∃ t, exec (.faultPresent [o]) s = .next t ∧
    bit (t.getF GLB_XING_OVR.XING_OVR) (o.detail % 6) = true ∧
    (bit (s.getF GLB_XING_OVR.XING_OVR) (o.detail % 6) = false → s.masked 0xA2 = false →
      (s.faultSt 0xA2).present = false → (t.faultSt 0xA2).latched = true)) ∧
  (∀ (i : Nat) (s : State),
    (s.demanded i = true → exec (.faultClear i) s = .next s) ∧
    (s.demanded i = false → ∃ t, exec (.faultClear i) s = .next t ∧ (t.faultSt i).present = false ∧
      (i ≠ 0 → (t.faultSt i).latched = (s.faultSt i).latched ∧ (t.faultSt i).applied = (s.faultSt i).applied) ∧
      (i = 0 → (s.faultSt 0).present = true → (t.faultSt 0).latched = false) ∧
      ∀ j, j ≠ i → t.faultSt j = s.faultSt j)) ∧
  (∀ (a : SideAnswer) (s : State),
    (a ≠ .agrees → (s.faultSt 1).present = false →
      ∃ t, exec (.quenchSideCompare a) s = .next t ∧ (t.faultSt 1).latched = true ∧
        t.quench.sideDead = decide (a = .silent)) ∧
    (a = .agrees → ∃ t, exec (.quenchSideCompare a) s = .next t ∧ (t.faultSt 1).present = false ∧
      (t.faultSt 1).latched = (s.faultSt 1).latched ∧ t.quench.sideDead = false))

/-- QCH_ASSURE while firmware runs with its clock, DPLL0 is LOCKED, an offset was measured in the window and the
window has had no assurance yet (R453) arms the guard and sets its bound to the 24 bits written; at or above
TIME_BOUND_NS, as it acts, the time-bound fault 0x120 is latched; at half of it or below, its condition is over;
otherwise nothing changes (R452–R454). Unarmed, TIME_BOUND changes nothing; armed, the bound grows by HO_RATE_PPB over
the AON cycles that pass, and fault 0x120 is latched once the bound in ns reaches TIME_BOUND_NS (R452; the cycle of
42.2 ns is the model's rounding, log entry 51). LOCK by a path that may sets QCH_LOCK; nothing clears it here (R439).
CLKOUT_MONITOR of an active output that deviates by more than 100 ppm, or of an idle one that moves, latches the
output's fault, and otherwise ends its condition (R455). -/
def Obligations.TimeGuardArmsGrowsAndTrips : Prop :=
  (∀ (e : Nat) (s : State),
    (s.mayAssure = false → exec (.qchAssure e) s = .next s) ∧
    (s.fwRuns = true → s.getF TPL_DPLL_STAT.STATE 0 = 2 → s.window.measured = true → s.window.assured = false →
      ∃ t, exec (.qchAssure e) s = .next t ∧ t.armed = true ∧ t.quench.bound = e % 16777216 * 10000000000 ∧
        t.boundNs = e % 16777216 ∧ t.window.assured = true ∧
        (s.timeBoundNs ≤ e % 16777216 → (s.faultSt 0x120).present = false → (t.faultSt 0x120).latched = true) ∧
        (2 * (e % 16777216) ≤ s.timeBoundNs → (t.faultSt 0x120).present = false ∧
          (t.faultSt 0x120).latched = (s.faultSt 0x120).latched))) ∧
  (∀ (n : Nat) (s : State),
    (s.armed = false → exec (.timeBound n) s = .next s) ∧
    (s.armed = true → ∃ t, exec (.timeBound n) s = .next t ∧ t.armed = true ∧
      t.quench.bound = s.quench.bound + s.hoRate * 422 * n ∧
      (t.boundNs < s.timeBoundNs → t = { s with quench := { s.quench with bound := t.quench.bound } }) ∧
      (s.timeBoundNs ≤ t.boundNs → (s.faultSt 0x120).present = false → (t.faultSt 0x120).latched = true))) ∧
  (∀ (p : Path) (s : State), ∃ t, exec (.lock p) s = .next t ∧
    (s.pfMay p = true → t.isF QCH_LOCK.LOCK = true) ∧ (s.pfMay p = false → t = s) ∧
    (s.isF QCH_LOCK.LOCK = true → t.isF QCH_LOCK.LOCK = true) ∧
    ∀ f i, f.id ≠ QCH_LOCK.LOCK.id → t.getF f i = s.getF f i) ∧
  (∀ (n : Nat) (dev : Int) (a bad : Bool) (s : State), n < 8 →
    bad = (if s.clkActive n then decide (100 < dev.natAbs) else a) →
    (bad = true → (s.faultSt (0xD0 + n)).present = false →
      ∃ t, exec (.clkoutMonitor n dev a) s = .next t ∧ (t.faultSt (0xD0 + n)).latched = true) ∧
    (bad = false → ∃ t, exec (.clkoutMonitor n dev a) s = .next t ∧ (t.faultSt (0xD0 + n)).present = false ∧
      (t.faultSt (0xD0 + n)).latched = (s.faultSt (0xD0 + n)).latched))

/-- A command of firmware's that firmware is there to execute. ALLOW_SET that is not well formed: BADARG; while an
earlier one of the port waits to take effect: BUSY; of a port whose tile is fenced: FENCED; without an owner key, with
a signature that fails, or with a sequence number not above the last one taken: AUTH; one more guarded port than R457
allows: BADARG; in each case nothing is stored. Else it completes OK, exactly the entries given wait to replace the
port's store, which stands until then, under their sequence number, and the port is guarded or no more guarded as the
record says; every other port's store and guard bit is as it was (R457, R460, R563). GUARD_SCRUB marks the stores of
the guarded ports that it names and no others, and, naming one newly bad one, latches the guard-store fault of its
tile (R459). -/
def Obligations.AllowListsAreSignedSequencedAndScrubbed : Prop :=
  (∀ (c : Cmd) (ok : Bool) (s : State), s.FwReady 0xC0 c →
    (allowSetOk c = false → ∃ t, exec (.allowSet c ok) s = .next t ∧ s.Answered t c stBadArg) ∧
    (allowSetOk c = true →
      ((s.allowOf c.target).next ≠ none → ∃ t, exec (.allowSet c ok) s = .next t ∧ s.Answered t c stBusy) ∧
      ((s.allowOf c.target).next = none → (s.fence (c.target / 32)).st ≠ 0 →
        ∃ t, exec (.allowSet c ok) s = .next t ∧ s.Answered t c stFenced) ∧
      ((s.allowOf c.target).next = none → (s.fence (c.target / 32)).st = 0 →
        (s.ownerKey = false ∨ ok = false ∨ (∃ q, (s.allowOf c.target).seq = some q ∧ leAt c.data 8 4 ≤ q) →
          ∃ t, exec (.allowSet c ok) s = .next t ∧ s.Answered t c stAuth) ∧
        (s.ownerKey = true → ok = true → (∀ q, (s.allowOf c.target).seq = some q → q < leAt c.data 8 4) →
          (bit (leAt c.data 0 4) 9 = true → s.guardFull c.target = true →
            ∃ t, exec (.allowSet c ok) s = .next t ∧ s.Answered t c stBadArg) ∧
          (bit (leAt c.data 0 4) 9 = false ∨ s.guardFull c.target = false →
            ∃ u t : State, exec (.allowSet c ok) s = .next t ∧ u.Answered t c stOk ∧
              (t.allowOf c.target).seq = some (leAt c.data 8 4) ∧
              (t.allowOf c.target).entries = (s.allowOf c.target).entries ∧
              (t.allowOf c.target).next = some (if bit (leAt c.data 0 4) 9
                then (List.range (leAt c.data 4 4)).map (fun i => allowEnt c.data i) else []) ∧
              t.guarded c.target = bit (leAt c.data 0 4) 9 ∧
              ∀ p, p < 256 → p ≠ c.target → t.allowOf p = s.allowOf p ∧ t.guarded p = s.guarded p))))) ∧
  (∀ (l : List Nat) (s : State), ∃ t, exec (.guardScrub l) s = .next t ∧
    (∀ p, p < 256 → s.guarded p = true → (t.allowOf p).bad = l.contains p ∧
      ((t.allowOf p).entries = (s.allowOf p).entries ∧ (t.allowOf p).seq = (s.allowOf p).seq)) ∧
    (∀ p, p < 256 → s.guarded p = false → t.allowOf p = s.allowOf p) ∧
    ∀ p, p < 256 → s.guarded p = true → l = [p] → (s.allowOf p).bad = false →
      (t.faultSt (0x15 + 16 * (p / 32))).latched = true)

/-- A fence request of the PF over a link that is up, for an OPEN domain: the domain is FENCING on the PF's account
(R421, R423), a tile shows in FENCED_TILES and the control complex has its firmware stopped; for a domain that is not
OPEN, or with the link down, it changes nothing (R428), and the Rivet link of a paired device refuses it with
REQ_REFUSED (R422). Firmware, while it runs with its clock, may ask for Temper and Hallmark only; Quench asks for the
domain of a latched fault at ISOLATE; FW_ACTIVATE for the control complex, which is then FENCED with firmware stopped
(R430). FENCE_COMPLETE makes FENCING FENCED (R423); stamps still in the FIFOs of a tile's ports are gone (R424). A
reset of a FENCED domain starts its reset, of any other sets RST_REFUSED (R425); a tile's ports, their ENABLE and its
counters are then at reset (R520); when the reset ends, accesses that had stalled go on (R416); microcode is then
loaded into a tile whose reset has ended (R432). A release that R426 refuses sets REL_REFUSED, another makes FENCED
UNFENCING; unfencing ends in OPEN unless the reset or, for a tile, the fabric's old cells stand in the way (R222,
R427). None of these requests, resets and unfencings touches the fence of another domain. -/
def Obligations.FencesCloseResetAndOpenInOrder : Prop :=
  (∀ (d : Nat) (s : State), d < 12 →
    (s.pcieUp = false ∨ (s.fence d).st ≠ 0 ∧ (d ≠ 11 ∨ s.paired = false) →
      exec (.fenceRequest .pf d) s = .next s) ∧
    (s.pcieUp = true → d = 11 → s.paired = true →
      ∃ t, exec (.fenceRequest .pf d) s = .next t ∧ t.isF GLB_FENCE_HIST.REQ_REFUSED = true ∧ t.fences = s.fences) ∧
    (s.pcieUp = true → (s.fence d).st = 0 → d ≠ 11 ∨ s.paired = false →
      ∃ t, exec (.fenceRequest .pf d) s = .next t ∧ (t.fence d).st = 1 ∧ (t.fence d).by_ = .pf ∧
        (t.fence d).fault = none ∧ (∀ k, k ≠ d → t.fence k = s.fence k) ∧
        (d < 8 → bit (t.getF GLB_FAB_STAT.FENCED_TILES) d = true) ∧ (d = 8 → t.fw.running = false)) ∧
    (s.fwRuns = false ∨ (d ≠ 9 ∧ d ≠ 10) ∨ (s.fence d).st ≠ 0 → exec (.fenceRequest .firmware d) s = .next s) ∧
    (s.fwRuns = true → d = 9 ∨ d = 10 → (s.fence d).st = 0 →
      ∃ t, exec (.fenceRequest .firmware d) s = .next t ∧ (t.fence d).st = 1 ∧ (t.fence d).by_ = .firmware ∧
        ∀ k, k ≠ d → t.fence k = s.fence k) ∧
    (s.fenceCause d = none → exec (.fenceRequest .quench d) s = .next s) ∧
    (∀ x, s.fenceCause d = some x → (s.fence d).st = 0 ∨ (s.fence d).st = 3 → d ≠ 11 ∨ s.paired = false →
      ∃ t, exec (.fenceRequest .quench d) s = .next t ∧ (t.fence d).st = 1 ∧ (t.fence d).by_ = .quench ∧
        (t.fence d).fault = some x ∧ ∀ k, k ≠ d → t.fence k = s.fence k) ∧
    (s.fw.activate = none ∨ d ≠ 8 ∨ s.fwRuns = false → exec (.fenceRequest .fwActivate d) s = .next s) ∧
    (∀ a, s.fw.activate = some a → d = 8 → s.fwRuns = true → a.fenced = false → a.booted = false →
      ∃ t, exec (.fenceRequest .fwActivate d) s = .next t ∧ (t.fence 8).st = 2 ∧ (t.fence 8).by_ = .fwActivate ∧
        t.fw.running = false ∧ t.fw.phase = 0 ∧ t.fw.activate = some { a with fenced := true } ∧
        ∀ k, k ≠ 8 → t.fence k = s.fence k)) ∧
  (∀ (d : Nat) (s u : State),
    ((s.fence d).st = 1 → ∃ t, exec (.fenceComplete d) s = .next t ∧ t.fence d = { s.fence d with st := 2 } ∧
      (∀ k, k ≠ d → t.fence k = s.fence k) ∧ (8 ≤ d → t = s.upFence d (fun x => { x with st := 2 })) ∧
      ∀ q, d < 8 → q / 32 = d → (t.port q).fifo = []) ∧
    ((s.fence d).st ≠ 1 → exec (.fenceComplete d) s = .next s) ∧
    (u = (if (s.fence d).rst = true then s.upFence d (fun x => { x with rst := false }) else s) →
      exec (.domainResetEnd d) s = .next u.resume ∧ (s.stalled = [] → u.resume = u))) ∧
  (∀ (p : Path) (d : Nat) (s : State), d < 12 →
    (s.pfMay p = false → exec (.domainReset p d) s = .next s) ∧
    (s.pfMay p = true → (s.fence d).st ≠ 2 →
      ∃ t, exec (.domainReset p d) s = .next t ∧ t.isF GLB_FENCE_HIST.RST_REFUSED = true ∧ t.fences = s.fences) ∧
    (s.pfMay p = true → (s.fence d).st = 2 →
      ∃ t, exec (.domainReset p d) s = .next t ∧ t.fence d = { s.fence d with rst := true } ∧
        (∀ k, k ≠ d → t.fence k = s.fence k) ∧
        (d < 8 → bit (t.getF GLB_UCODE_STAT.READY) d = false ∧
          (∀ q, q < 256 → q / 32 = d → t.isF TIL_PORT_CFG.ENABLE q = false ∧ t.port q = {}) ∧
          ∀ g k, tileGroup d g = true → k < 512 → t.counter g k = 0) ∧
        (d = 8 → t.fw.running = false ∧ t.fw.phase = 0) ∧ (d = 10 → t.hmk = {}) ∧ (d = 11 → t.pair = {}))) ∧
  (∀ (k : Nat) (ok : Bool) (s : State), k < 8 →
    (s.fwRuns = false ∨ (s.fence k).rst = true ∨ bit (s.getF PWR_GATE_STAT.TILE_GATED) k = true ∨
        bit (s.getF GLB_UCODE_STAT.READY) k = true → exec (.ucodeLoadComplete k ok) s = .next s) ∧
    (s.fwRuns = true → (s.fence k).rst = false → bit (s.getF PWR_GATE_STAT.TILE_GATED) k = false →
      bit (s.getF GLB_UCODE_STAT.READY) k = false →
      ∃ t, exec (.ucodeLoadComplete k ok) s = .next t ∧ bit (t.getF GLB_UCODE_STAT.READY) k = ok ∧
        (ok = false → bit (t.getF GLB_UCODE_STAT.UCODE_ERR) k = true))) ∧
  (∀ (w : Requester) (d : Nat) (s : State), d < 12 →
    ((s.fence d).st ≠ 2 ∨ (w = .pf ∧ s.pcieUp = false) ∨ (w = .firmware ∧ s.fwRuns = false) ∨ w = .quench ∨
      w = .fwActivate → exec (.fenceRelease w d) s = .next s) ∧
    (w = .pf ∧ s.pcieUp = true ∨ w = .firmware ∧ s.fwRuns = true → (s.fence d).st = 2 →
      (s.releaseRefused w d = true →
        ∃ t, exec (.fenceRelease w d) s = .next t ∧ t.isF GLB_FENCE_HIST.REL_REFUSED = true ∧ t.fences = s.fences) ∧
      (s.releaseRefused w d = false →
        exec (.fenceRelease w d) s = .next (s.upFence d (fun x => { x with st := 3 }))))) ∧
  (∀ (d : Nat) (s : State), d < 12 →
    ((s.fence d).st ≠ 3 ∨ (s.fence d).rst = true ∨ (d < 8 ∧ s.fabricClear d = false) →
      exec (.unfenceComplete d) s = .next s) ∧
    ((s.fence d).st = 3 → (s.fence d).rst = false → 8 ≤ d ∨ s.fabricClear d = true →
      ∃ t, exec (.unfenceComplete d) s = .next t ∧ t.fence d = { s.fence d with st := 0, fault := none } ∧
        (∀ k, k ≠ d → t.fence k = s.fence k) ∧
        (d < 8 → bit (t.getF GLB_FAB_STAT.FENCED_TILES) d = false) ∧
        (d = 8 → t.fw.running = decide (2 ≤ s.fw.phase))))

/-- For every path that may write, generator and state: with NUM or DEN 0, or a rate above 1 MHz, and for generator 0
also with a rate below 24000/1001 Hz or above 300 Hz, RATE_GO has no effect but that RATE_ERR of the generator is set. -/
def Obligations.RateGoRefusesRatesOutOfRange : Prop :=
  ∀ (p : Path) (g : Nat) (s : State), s.pfMay p = true →
    (s.getF MER_GEN_RATE.NUM g = 0 ∨ s.getF MER_GEN_DEN.DEN g = 0 ∨
      1000000 * s.getF MER_GEN_DEN.DEN g < s.getF MER_GEN_RATE.NUM g ∨
      (g = 0 ∧ (1001 * s.getF MER_GEN_RATE.NUM g < 24000 * s.getF MER_GEN_DEN.DEN g ∨
        300 * s.getF MER_GEN_DEN.DEN g < s.getF MER_GEN_RATE.NUM g))) →
    ∃ t, exec (.rateGo p g) s = .next t ∧ t.isF MER_GEN_HIST.RATE_ERR g = true ∧ t = s.setF MER_GEN_HIST.RATE_ERR 1 g ∧
      t.gens = s.gens ∧
      ∀ f i, f.id ≠ MER_GEN_HIST.RATE_ERR.id ∨ i % 65536 ≠ g % 65536 → t.getF f i = s.getF f i

/-- By a path that may not write, RATE_GO and GENERATOR_ENABLE change nothing. RATE_GO of a rate in range on a running
generator stages NUM, DEN and OFFSET for its next tick edge, RATE_PENDING set and the rate in force as it was; on a
stopped one they are in force at once (R396). GENERATOR_ENABLE of a stopped generator other than 0 sets EN and starts
its count at the first instant of its grid that lies at least S_min after now, no tick yet emitted (R394, R395); of
generator 0, or of one that runs, it changes nothing. Other generators stay as they are. -/
def Obligations.RatesAreStagedAndGeneratorsStartAnew : Prop :=
  (∀ (p : Path) (g : Nat) (s : State), s.pfMay p = false →
    exec (.rateGo p g) s = .next s ∧ exec (.generatorEnable p g) s = .next s) ∧
  (∀ (p : Path) (g : Nat) (s : State), s.pfMay p = true →
    rateOk g (s.getF MER_GEN_RATE.NUM g) (s.getF MER_GEN_DEN.DEN g) = true →
    ∃ t, exec (.rateGo p g) s = .next t ∧ (∀ k, k ≠ g → t.gen k = s.gen k) ∧
      (s.isF MER_GEN_CFG.EN g = true → t.isF MER_GEN_STAT.RATE_PENDING g = true ∧
        t.gen g = { s.gen g with pend := some (s.getF MER_GEN_RATE.NUM g, s.getF MER_GEN_DEN.DEN g,
          signed 32 (s.getF MER_GEN_OFFSET.OFFSET g)) }) ∧
      (s.isF MER_GEN_CFG.EN g = false → t.regs = s.regs ∧
        t.gen g = { s.gen g with num := s.getF MER_GEN_RATE.NUM g, den := s.getF MER_GEN_DEN.DEN g,
                                 off := signed 32 (s.getF MER_GEN_OFFSET.OFFSET g) })) ∧
  (∀ (p : Path) (g : Nat) (s : State), s.pfMay p = true →
    (g = 0 ∨ s.isF MER_GEN_CFG.EN g = true → exec (.generatorEnable p g) s = .next s) ∧
    (g ≠ 0 → s.isF MER_GEN_CFG.EN g = false →
      ∃ t, exec (.generatorEnable p g) s = .next t ∧ t.isF MER_GEN_CFG.EN g = true ∧
        (t.gen g).started = false ∧ (t.gen g).fc = 0 ∧ (t.gen g).last = none ∧
        s.now + s.sMin g (s.grid g) ≤ (s.grid g).instant (t.gen g).k ∧
        (s.grid g).instant ((t.gen g).k - 1) ≤ s.now + s.sMin g (s.grid g) ∧
        (t.gen g).num = (s.gen g).num ∧ (t.gen g).den = (s.gen g).den ∧ (t.gen g).off = (s.gen g).off ∧
        ∀ k, k ≠ g → t.gen k = s.gen k))

/-- With the timing plane stopped or the generator disabled a tick edge does nothing. Else TCLK edges pass until the
serving time has reached the generator's next instant; at an instant that has been reached, the tick is emitted: the
generator's frame count goes up by one modulo 2^48, from 0 at its first tick, the tick's instant is one of its grid,
and lies at least S_min after its last tick (R29, R391, R394, R395); a staged rate is in force afterwards (R396). A
tick of generator 0 opens a new window, not done, its budget running and its commit cycle due (R30, R33, R397). Other
generators' counts stay. -/
def Obligations.TickEdgesCountFramesAndKeepTheirDistance : Prop :=
  (∀ (g : Nat) (s : State), s.time.running = false ∨ s.isF MER_GEN_CFG.EN g = false →
    exec (.tickEdge g) s = .next s) ∧
  (∀ (g : Nat) (s u : State), s.time.running = true → s.isF MER_GEN_CFG.EN g = true →
    u = s.advanceTo (s.nextTick g) 64 →
    (u.now < s.nextTick g → exec (.tickEdge g) s = .next u) ∧
    (s.nextTick g ≤ u.now → ∃ t, exec (.tickEdge g) s = .next t ∧
      (t.gen g).started = true ∧
      (t.gen g).fc = (if (s.gen g).started then ((s.gen g).fc + 1) % 281474976710656 else 0) ∧
      (t.gen g).last = some (s.nextTick g) ∧ (∃ k : Int, s.nextTick g = (s.grid g).instant k ∧ (s.gen g).k ≤ k) ∧
      (∀ l, (s.gen g).last = some l → l + s.sMin g (s.grid g) ≤ s.nextTick g) ∧
      (t.gen g).pend = none ∧
      (∀ x, (s.gen g).pend = some x → ((t.gen g).num, (t.gen g).den, (t.gen g).off) = x) ∧
      (∀ k, k ≠ g → t.gen k = s.gen k) ∧
      (g = 0 → t.window.opened = true ∧ t.window.done = false ∧ t.window.budgetDone = false ∧
        t.window.commitDone = false ∧ t.window.start = u.now) ∧
      (g ≠ 0 → t.window = s.window))) ∧
  (∀ (g : Nat) (s : State), s.nextTick g ≤ s.now → s.advanceTo (s.nextTick g) 64 = s)

/-- A commit cycle runs once for each tick of generator 0: where it has run, or while CCLK stands (R26), it does
nothing (R30). Else, at the frame count n of that tick: of every table named by a commit due by n, the active and the
shadow bank have changed places (R107, R178), and of every other table both are as they were; commits for later ticks,
and they alone, stay scheduled; on a device that is not joining a pair the device epoch has gone up by one exactly if
some table swapped (R178). EPOCH_DRAINED frees the banks of the oldest retired epoch once no frame carries it or an
earlier one, and otherwise changes nothing (R181). -/
def Obligations.CommitCycleSwapsTheTablesThatAreDue : Prop :=
  (∀ s : State, s.window.commitDone = true ∨ s.cclk = false → exec .commitCycle s = .next s) ∧
  (∀ (m : Nat) (s : State), s.window.commitDone = false → s.cclk = true →
    m = (s.epochs.commits.filter (fun c => decide (c.1 ≤ s.frameCount))).foldl (fun m c => m ||| c.2) 0 →
    ∃ t, exec .commitCycle s = .next t ∧ t.window.commitDone = true ∧
      (∀ k, k < 13 → t.active k = (if bit m k then s.shadow k else s.active k) ∧
        t.shadow k = (if bit m k then s.active k else s.shadow k)) ∧
      t.tables.flowsAct = (if bit m 13 then s.tables.flowsShd else s.tables.flowsAct) ∧
      t.tables.flowsShd = (if bit m 13 then s.tables.flowsAct else s.tables.flowsShd) ∧
      (m ≠ 0 → t.epochs.commits = s.epochs.commits.filter (fun c => decide (s.frameCount < c.1))) ∧
      (s.pairState ≠ pairJoining → t.epochs.serial = if m = 0 then s.epochs.serial else s.epochs.serial + 1)) ∧
  (∀ s : State, (s.drainedEpoch = none → exec .epochDrained s = .next s) ∧
    (∀ e m, s.drainedEpoch = some (e, m) → ∃ t, exec .epochDrained s = .next t ∧ t.epochs.oldest = e + 1 ∧
      Tab.get? t.epochs.retiredBy e = none ∧ (∀ r ∈ t.tables.flowsRetired, e < r.1) ∧
      (∀ r ∈ t.tables.repRetired, e < r.1) ∧ t.tables.act = s.tables.act ∧ t.tables.shd = s.tables.shd))

/-- BUDGET_END in an open window whose budget runs: once the serving time has reached its end the budget is done, and
where the window is judged and has no done mark, OVERRUN is set and counted (R397, R398); outside one nothing happens.
A done mark of firmware that runs with its clock and that names the frame count of the open window makes the window
done and MISS_RUN 0; any other mark counts in DONE_BAD (R397); with firmware or its clock stopped it changes nothing.
At generator 0's tick edge a judged window that closes without a mark adds 1 to MISS_RUN up to 3, and at 3 the
missed-windows fault 0x141 is latched (R35, R398). -/
def Obligations.BudgetsEndAndDoneMarksCount : Prop :=
  (∀ s : State, s.time.running = false ∨ s.window.opened = false ∨ s.window.budgetDone = true →
    exec .budgetEnd s = .next s) ∧
  (∀ s u : State, s.time.running = true → s.window.opened = true → s.window.budgetDone = false →
    u = s.advanceTo s.budgetEndAt 64 →
    (u.now < s.budgetEndAt → exec .budgetEnd s = .next u) ∧
    (s.budgetEndAt ≤ u.now → ∃ t, exec .budgetEnd s = .next t ∧ t.window = { s.window with budgetDone := true } ∧
      (s.judged = true → t.isF MER_BUDGET_STAT.OVERRUN = true ∧
        t.getF MER_BUDGET_STAT.OVERRUN_CNT = sat (2 ^ MER_BUDGET_STAT.OVERRUN_CNT.width - 1)
          (s.getF MER_BUDGET_STAT.OVERRUN_CNT + 1)) ∧
      (s.judged = false → t = { u with window := t.window }))) ∧
  (∀ (k : Nat) (s : State), (s.fwRuns = false → exec (.merDone k) s = .next s) ∧
    (s.fwRuns = true → ¬ (s.window.opened = true ∧ k % 65536 = s.frameCount % 65536) →
      ∃ t, exec (.merDone k) s = .next t ∧ t = s.addF MER_BUDGET_STAT.DONE_BAD 1) ∧
    (s.fwRuns = true → s.window.opened = true → k % 65536 = s.frameCount % 65536 →
      ∃ t, exec (.merDone k) s = .next t ∧ t.window = { s.window with done := true } ∧
        t.getF MER_BUDGET_STAT.MISS_RUN = 0 ∧ (t.faultSt 0x141).present = false)) ∧
  (∀ s u : State, s.time.running = true → s.isF MER_GEN_CFG.EN 0 = true → u = s.advanceTo (s.nextTick 0) 64 →
    s.nextTick 0 ≤ u.now → s.window.budgetDone = true →
    ∃ t, exec (.tickEdge 0) s = .next t ∧
      (s.judged = true → s.getF MER_BUDGET_STAT.MISS_RUN < 2 →
        t.getF MER_BUDGET_STAT.MISS_RUN = s.getF MER_BUDGET_STAT.MISS_RUN + 1) ∧
      (s.judged = true → s.getF MER_BUDGET_STAT.MISS_RUN = 2 → s.masked 0x141 = false →
        (s.faultSt 0x141).present = false → (t.faultSt 0x141).latched = true) ∧
      (s.judged = false → t.getF MER_BUDGET_STAT.MISS_RUN = s.getF MER_BUDGET_STAT.MISS_RUN))

/-- PLL_LOCK of a PLL that is out of lock, with the core up and a band found (where none is, NO_BAND is set and the
PLL does not start, R384), sets its LOCK, releases its outputs and ends its fault's condition, and TCLK's starts the
timing plane (R293, R383); else nothing. In each case accesses that had stalled are then looked at again (R416); with
none, nothing more changes. PLL_LOSS_OF_LOCK of a locked PLL clears LOCK, sets LOCK_LOST, gates its outputs and
latches its fault; without TCLK the timing plane stands (R383). DIV_GO on a path that may write, and SYNCIN accepted
with LOAD_ON_SYNC, load every staged divider at once, and DIV_GO leaves none pending and loads the pending APLL
frequencies (R385, R388); an accepted SYNCIN edge restarts the dividers of the outputs with SYNC_EN and of no others;
one that comes less than 1 µs after the last sets SYNC_EARLY and does nothing else (R388). TIU: GO on a channel that
does not run clears its counts and starts it, its prescalers at an edge below their division (R353), or refuses a bad
configuration with CFG_ERR (R356); ABORT ends a run (R356). Of the edges of a running channel each prescaler passes
over those before its next (R353); an edge within 20 ns of the last counts as a dead-time miss (R352). In INTERVAL
mode the first start edge waits for a stop, later ones change nothing, and a stop inside the window, other than the
start edge itself, gives the interval with the dither taken out and Temper's delays; in PERIOD mode a start edge gives
the time since the last, in TIME mode its serving time; each result is counted and shown, and the run ends with its
last (R349-R351, R354-R356; the dither's sign and order are the model's, log entry 38). A start without a stop counts
as a timeout (R354). -/
def Obligations.PllsGateTheirOutputsAndStagedValuesLoadTogether : Prop :=
  (∀ (j : Nat) (s : State), j < 7 →
    ∃ u, exec (.pllLock j) s = .next u.resume ∧ (s.stalled = [] → u.resume = u) ∧
      (s.boot.coreUp = false ∨ s.isF TPL_PLL_STAT.LOCK j = true → u = s) ∧
      (s.boot.coreUp = true → s.isF TPL_PLL_STAT.LOCK j = false →
        ((s.pllBand j).2 = false → u.isF TPL_PLL_STAT.NO_BAND j = true ∧ u.isF TPL_PLL_STAT.LOCK j = false ∧
          u.pll j = s.pll j) ∧
        ((s.pllBand j).2 = true → u.isF TPL_PLL_STAT.LOCK j = true ∧ (u.pll j).gated = false ∧
          (u.faultSt (0xC8 + j)).present = false ∧ (u.time.running = true ↔ j = 2 ∨ s.time.running = true) ∧
          ∀ k, k ≠ j → u.pll k = s.pll k))) ∧
  (∀ (j : Nat) (s : State), j < 7 →
    (s.isF TPL_PLL_STAT.LOCK j = false → exec (.pllLossOfLock j) s = .next s) ∧
    (s.isF TPL_PLL_STAT.LOCK j = true → ∃ t, exec (.pllLossOfLock j) s = .next t ∧
      t.isF TPL_PLL_STAT.LOCK j = false ∧ t.isF TPL_PLL_HIST.LOCK_LOST j = true ∧ (t.pll j).gated = true ∧
      ((s.faultSt (0xC8 + j)).present = false → (t.faultSt (0xC8 + j)).latched = true) ∧
      (j = 2 → t.time.running = false) ∧ (j ≠ 2 → t.time.running = s.time.running) ∧ t.time.a = s.time.a ∧
      t.time.b = s.time.b ∧ ∀ k, k ≠ j → t.pll k = s.pll k)) ∧
  (∀ (p : Path) (s : State), (s.pfMay p = false → exec (.divGo p) s = .next s ∧ exec (.syncArm p) s = .next s) ∧
    (s.pfMay p = true → (∃ t, exec (.divGo p) s = .next t ∧
        (∀ n, n < 8 → (t.outp n).d = max 1 (s.getF TPL_OUT_DIV.D n) ∧ (t.outp n).high = s.getF TPL_OUT_PW.HIGH n ∧
          t.isF TPL_OUT_STAT.PENDING n = false) ∧
        ∀ j, j = 5 ∨ j = 6 → t.isF TPL_PLL_STAT.PENDING j = false ∧
          (t.pll j).vco = if s.isF TPL_PLL_STAT.PENDING j then s.getF TPL_PLL_VCO.F_VCO j else (s.pll j).vco) ∧
      ∃ t, exec (.syncArm p) s = .next t ∧ t.isF TPL_CS_CTRL.SYNC_ARM = true)) ∧
  (∀ (n : Nat) (ok : Bool) (s : State),
    ok = (s.getF TPL_CS_CTRL.SYNC_MODE == 2 || (s.getF TPL_CS_CTRL.SYNC_MODE == 1 && s.isF TPL_CS_CTRL.SYNC_ARM)) →
    (ok = false → exec (.syncinEdge n) s = .next s) ∧
    (ok = true → s.time.syncs ≠ 0 → n < 1000 → exec (.syncinEdge n) s = .next (s.setF TPL_CS_STAT.SYNC_EARLY 1)) ∧
    (ok = true → s.time.syncs = 0 ∨ 1000 ≤ n → ∃ t, exec (.syncinEdge n) s = .next t ∧
      t.isF TPL_CS_STAT.SYNC_SEEN = true ∧ t.time.syncs = s.time.syncs + 1 ∧
      (s.getF TPL_CS_CTRL.SYNC_MODE = 1 → t.isF TPL_CS_CTRL.SYNC_ARM = false) ∧
      (∀ k, k < 8 → (t.outp k).synced = (if s.isF TPL_OUT_CFG.SYNC_EN k then s.time.syncs + 1 else (s.outp k).synced) ∧
        (t.outp k).d = (if s.isF TPL_CS_CTRL.LOAD_ON_SYNC then max 1 (s.getF TPL_OUT_DIV.D k) else (s.outp k).d)) ∧
      (s.isF TPL_CS_CTRL.LOAD_ON_SYNC = false → t.plls = s.plls))) ∧
  (∀ (p : Path) (c : Nat) (s : State),
    (s.tiuMay p c = false ∨ s.tiuState c = 1 → exec (.go p c) s = .next s) ∧
    (s.tiuMay p c = true → s.tiuState c ≠ 1 → ∃ t, exec (.go p c) s = .next t ∧
      t.tiuState c = (if s.tiuBad c then 3 else 1) ∧ t.isF TPL_TIU_STAT.CFG_ERR c = s.tiuBad c ∧
      t.getF TPL_TIU_STAT.COUNT c = 0 ∧ (∀ k, k ≠ c → t.tiu k = s.tiu k) ∧
      (s.tiuBad c = false → (t.tiu c).preStart < 2 ^ s.getF TPL_TIU_CFG.PRE_START c ∧
        (t.tiu c).preStop < 2 ^ s.getF TPL_TIU_CFG.PRE_STOP c ∧
        t.tiu c = { preStart := (t.tiu c).preStart, preStop := (t.tiu c).preStop, dith := (s.tiu c).dith })) ∧
    (s.tiuMay p c = true → s.tiuState c = 1 → ∃ t, exec (.abort p c) s = .next t ∧ t.tiuState c = 3 ∧
      t.tius = s.tius) ∧
    (s.tiuMay p c = false ∨ s.tiuState c ≠ 1 → exec (.abort p c) s = .next s)) ∧
  (∀ (c k b sub : Nat) (stop : Bool) (s : State), s.tiuState c ≠ 1 → exec (.tiuEdge c stop k ⟨b, sub⟩) s = .next s) ∧
  (∀ (c k b sub : Nat) (s u : State), c < 16 → s.tiuState c = 1 → u = s.edges (k - s.time.tclk) →
    ((s.tiu c).preStop ≠ 0 → exec (.tiuEdge c true k ⟨b, sub⟩) s =
      .next (u.upTiu c (fun x => { x with preStop := x.preStop - 1 }))) ∧
    ((s.tiu c).preStart ≠ 0 → exec (.tiuEdge c false k ⟨b, sub⟩) s =
      .next (u.upTiu c (fun x => { x with preStart := x.preStart - 1 }))) ∧
    ((s.tiu c).preStop = 0 → s.tiuMode c ≠ 0 → ∃ t, exec (.tiuEdge c true k ⟨b, sub⟩) s = .next t ∧
      t.tiu c = { s.tiu c with preStop := 2 ^ s.getF TPL_TIU_CFG.PRE_STOP c - 1 } ∧ t.regs = s.regs) ∧
    ((s.tiu c).preStop = 0 → s.tiuMode c = 0 → deadTime (s.tiu c).lastStop ((k : Int) * 64 + b) = true →
      ∃ t, exec (.tiuEdge c true k ⟨b, sub⟩) s = .next t ∧
        t.tiu c = { s.tiu c with preStop := 2 ^ s.getF TPL_TIU_CFG.PRE_STOP c - 1 } ∧
        t.getF TPL_TIU_ERR.DEAD_MISS c = sat (2 ^ TPL_TIU_ERR.DEAD_MISS.width - 1) (s.getF TPL_TIU_ERR.DEAD_MISS c + 1)) ∧
    ((s.tiu c).preStart = 0 → deadTime (s.tiu c).lastStart ((k : Int) * 64 + b) = true →
      ∃ t, exec (.tiuEdge c false k ⟨b, sub⟩) s = .next t ∧
        t.tiu c = { s.tiu c with preStart := 2 ^ s.getF TPL_TIU_CFG.PRE_START c - 1 } ∧
        t.getF TPL_TIU_ERR.DEAD_MISS c = sat (2 ^ TPL_TIU_ERR.DEAD_MISS.width - 1) (s.getF TPL_TIU_ERR.DEAD_MISS c + 1))) ∧
  (∀ (c k b sub : Nat) (mark : Int) (s u : State), c < 16 → s.tiuState c = 1 → u = s.edges (k - s.time.tclk) →
    (s.tiu c).preStart = 0 → deadTime (s.tiu c).lastStart ((k : Int) * 64 + b) = false →
    mark = ((k : Int) * 64 + b + ((sub + s.dither c) / 64 : Nat)) * 64 - s.dither c →
    ∃ t, exec (.tiuEdge c false k ⟨b, sub⟩) s = .next t ∧
      ((s.tiu c).start = none → s.tiuMode c ≠ 2 → (t.tiu c).start = some mark ∧
        (t.tiu c).lastStart = some ((k : Int) * 64 + b) ∧ (t.tiu c).n = (s.tiu c).n) ∧
      (∀ t0, (s.tiu c).start = some t0 → s.tiuMode c = 0 → (t.tiu c).start = some t0 ∧ (t.tiu c).n = (s.tiu c).n) ∧
      (∀ v, (∃ t0, (s.tiu c).start = some t0 ∧ s.tiuMode c = 1 ∧ v = mark - t0) ∨
          (s.tiuMode c = 2 ∧ v = u.tiuTime c (b + (sub + s.dither c) / 64) (s.dither c)) →
        (t.tiu c).n = (s.tiu c).n + 1 ∧ (t.tiu c).sum = (s.tiu c).sum + v ∧
        t.getF TPL_TIU_LAST_LO.LAST c = unsign 48 v % 4294967296 ∧
        t.tiuState c = if s.tiuN c ≤ (s.tiu c).n + 1 then 2 else 1)) ∧
  (∀ (c k b sub : Nat) (t0 d : Int) (s : State), c < 16 → s.tiuState c = 1 → s.tiuMode c = 0 → (s.tiu c).preStop = 0 →
    (s.tiu c).start = some t0 → deadTime (s.tiu c).lastStop ((k : Int) * 64 + b) = false →
    d = ((k : Int) * 64 + b) * 64 - t0 →
    ∃ t, exec (.tiuEdge c true k ⟨b, sub⟩) s = .next t ∧
      (d < 1024 * s.getF TPL_TIU_WMIN.WIN_MIN c ∨ 1024 * s.tiuWinMax c < d ∨
          (s.getF TPL_TIU_CFG.START_SRC c = s.getF TPL_TIU_CFG.STOP_SRC c ∧
            (s.tiu c).lastStart = some ((k : Int) * 64 + b)) →
        (t.tiu c).start = some t0 ∧ (t.tiu c).n = (s.tiu c).n) ∧
      (1024 * s.getF TPL_TIU_WMIN.WIN_MIN c ≤ d → d ≤ 1024 * s.tiuWinMax c →
        s.getF TPL_TIU_CFG.START_SRC c ≠ s.getF TPL_TIU_CFG.STOP_SRC c ∨
          (s.tiu c).lastStart ≠ some ((k : Int) * 64 + b) →
        (t.tiu c).start = none ∧ (t.tiu c).n = (s.tiu c).n + 1 ∧ (t.tiu c).sum = (s.tiu c).sum + (d + s.tiuFix c) ∧
        t.getF TPL_TIU_LAST_LO.LAST c = unsign 48 (d + s.tiuFix c) % 4294967296 ∧
        t.tiuState c = if s.tiuN c ≤ (s.tiu c).n + 1 then 2 else 1)) ∧
  (∀ (c : Nat) (s : State), c < 16 →
    (s.tiuState c = 1 → s.tiuMode c = 0 → (s.tiu c).start ≠ none →
      ∃ t, exec (.tiuTimeout c) s = .next t ∧ (t.tiu c).start = none ∧
        t.getF TPL_TIU_ERR.TIMEOUTS c = sat (2 ^ TPL_TIU_ERR.TIMEOUTS.width - 1) (s.getF TPL_TIU_ERR.TIMEOUTS c + 1)) ∧
    (s.tiuState c ≠ 1 ∨ s.tiuMode c ≠ 0 ∨ (s.tiu c).start = none → exec (.tiuTimeout c) s = .next s))

/-- In a running window of a port, with LCLK, a beat adds its phase, of the transitions that DEGLITCH locates,
corrected by the port's offset and below T, and its edge time to the window, marked SLIP where it lies further than
SLIP_PS from the last (R333-R335, R338); otherwise it changes nothing. A window that is not due, or without beats,
does not end. One that ends adds 1 to WIN_SEQ, shows its flags, is VALID exactly if none of them is set, and only then
delivers PHASE, EDGE and drift; the next window then runs, empty (R336, R338). With firmware or its clock stopped
SERVICE stays. Else a port on which PTP runs sends its result to the partner (R343), and SERVICE is WAIT without a
fresh delay measurement or UP (R151, R329), STAMP_ONLY without a partner's TLV, without PTP, against a partner that is
not syntonised where that is asked for, or in a window that is not VALID, the last being the model's reading (R329,
R343, log entry 67), and otherwise RESOLVE or ACTIVE (R345). Loss of alignment on a port that is UP with an anchor
flags the window, and elsewhere does nothing (R331). PH_EN_SET of an enabled path and port sets PH_EN, ends low-power
idle (R133), and SERVICE is 1, or 5 where the mode has no anchor, while firmware runs; PH_EN_CLEAR ends the window,
VALID and SERVICE (R329, R360); on another path, or where PH_EN stands so already, they change nothing. -/
def Obligations.PhaseWindowsAreTakenJudgedAndResolved : Prop :=
  (∀ (p e : Nat) (rx tx : Sampled) (phi : Int) (s : State), phi = s.phiOf p rx tx →
    ((s.phase p).running = false ∨ s.lclk = false → exec (.phaseBeat p rx tx e) s = .next s) ∧
    ((s.phase p).running = true → s.lclk = true → ∃ t, exec (.phaseBeat p rx tx e) s = .next t ∧
      0 ≤ phi ∧ phi < phT ∧
      (s.beatSlips p phi = false → t = s.addBeat p phi e false ∧ (t.phase p).phi = (s.phase p).phi ++ [phi] ∧
        (t.phase p).edge = (s.phase p).edge ++ [s.edgeTime p e] ∧ (t.phase p).slip = (s.phase p).slip) ∧
      (s.beatSlips p phi = true → (s.addBeat p phi e true).Raised t))) ∧
  (∀ (p : Nat) (w : WindowIn) (x : Phase) (d : Int × Int) (notSynt valid : Bool) (s : State), p < 256 →
    x = s.phase p → d = phDrift x.phi → notSynt = decide ((x.syntPpb : Int) * d.2 < d.1.natAbs * 1000000000) →
    valid = !(x.slip || x.align || notSynt || x.disc || x.stale) →
    (x.running = false ∨ x.updates < x.avg ∨ x.phi = [] → exec (.phaseWindowEnd p w) s = .next s) ∧
    (x.running = true → x.avg ≤ x.updates → x.phi ≠ [] →
      ∃ t, exec (.phaseWindowEnd p w) s = .next t ∧ t.isF TPL_PH_STAT.VALID p = valid ∧
        t.isF TPL_PH_STAT.SLIP p = x.slip ∧ t.isF TPL_PH_STAT.NOT_SYNT p = notSynt ∧
        t.isF TPL_PH_STAT.STALE p = x.stale ∧ t.isF TPL_PH_STAT.DISC p = x.disc ∧
        t.getF TPL_PH_STAT.WIN_SEQ p = (s.getF TPL_PH_STAT.WIN_SEQ p + 1) % 2 ^ TPL_PH_STAT.WIN_SEQ.width ∧
        (valid = true → t.getF TPL_PH_PHASE.PHASE p = phMean x.phi ∧ t.getF TPL_PH_PHASE.PHASE p < 102400 ∧
          t.getF TPL_PH_EDGE.EDGE p = phMean x.edge) ∧
        (valid = false → t.getF TPL_PH_PHASE.PHASE p = s.getF TPL_PH_PHASE.PHASE p ∧
          t.getF TPL_PH_EDGE.EDGE p = s.getF TPL_PH_EDGE.EDGE p ∧
          t.getF TPL_PH_DRIFT.RATE p = s.getF TPL_PH_DRIFT.RATE p) ∧
        (t.phase p).running = true ∧ (t.phase p).phi = [] ∧ (t.phase p).updates = 0 ∧
        (t.phase p).avg = max 1 (s.getF TPL_PH_CFG.AVG_UPD) ∧
        (s.fwRuns = false → t.getF TPL_PH_STAT.SERVICE p = s.getF TPL_PH_STAT.SERVICE p) ∧
        (s.fwRuns = true →
          (bit (s.port p).ptp.flags 0 = true → ∃ own : PartnerTlv, Out.phaseTlv p own ∈ t.out.drop s.out.length ∧
            own.valid = valid ∧ own.winSeq = t.getF TPL_PH_STAT.WIN_SEQ p) ∧
          (s.portState p ≠ 5 ∨ (x.fresh = false ∧ w.fresh = false) → t.getF TPL_PH_STAT.SERVICE p = 1) ∧
          (s.portState p = 5 → x.fresh = true ∨ w.fresh = true →
            (w.partner = none → t.getF TPL_PH_STAT.SERVICE p = 4) ∧
            ∀ o, w.partner = some o →
              (bit (s.port p).ptp.flags 0 = false ∨ (bit (s.port p).ptp.flags 4 = true ∧ o.synt = false) ∨
                valid = false → t.getF TPL_PH_STAT.SERVICE p = 4) ∧
              (bit (s.port p).ptp.flags 0 = true → bit (s.port p).ptp.flags 4 = false ∨ o.synt = true →
                valid = true → t.getF TPL_PH_STAT.SERVICE p = 2 ∨ t.getF TPL_PH_STAT.SERVICE p = 3))) ∧
        ∀ q, q ≠ p → t.phase q = s.phase q)) ∧
  (∀ (p : Nat) (s : State),
    (s.portState p ≠ 5 ∨ hasAnchor (s.portMode p) (s.getF TIL_PORT_CFG.FEC p) = false →
      exec (.alignmentLoss p) s = .next s) ∧
    (s.portState p = 5 → hasAnchor (s.portMode p) (s.getF TIL_PORT_CFG.FEC p) = true →
      ∃ t, exec (.alignmentLoss p) s = .next t ∧ t.isF TPL_PH_STAT.ALIGN_LOSS p = true)) ∧
  (∀ (q : Path) (p : Nat) (s : State), p < 256 →
    (s.pfMay q = false ∨ s.isF TPL_PH_PORT.PH_EN p = true ∨ s.portUnused p = true →
      exec (.phEnSet q p) s = .next s) ∧
    (s.pfMay q = true → s.isF TPL_PH_PORT.PH_EN p = false → s.portUnused p = false →
      ∃ t, exec (.phEnSet q p) s = .next t ∧ t.isF TPL_PH_PORT.PH_EN p = true ∧
        t.isF TIL_PORT_STAT.TX_LPI p = false ∧ t.isF TIL_PORT_STAT.RX_LPI p = false ∧
        (s.fwRuns = true → t.getF TPL_PH_STAT.SERVICE p =
          if hasAnchor (s.portMode p) (s.getF TIL_PORT_CFG.FEC p) then 1 else 5)) ∧
    (s.pfMay q = false ∨ s.isF TPL_PH_PORT.PH_EN p = false → exec (.phEnClear q p) s = .next s) ∧
    (s.pfMay q = true → s.isF TPL_PH_PORT.PH_EN p = true →
      ∃ t, exec (.phEnClear q p) s = .next t ∧ t.isF TPL_PH_PORT.PH_EN p = false ∧ t.phase p = {} ∧
        t.isF TPL_PH_STAT.VALID p = false ∧ t.getF TPL_PH_STAT.SERVICE p = 0))

/-- PORT_ENABLE of a disabled port makes it DOWN where its configuration passes R118, else CFG_ERR; PORT_DISABLE makes
it DISABLED, with cause 8 (R118, R152). LINK_LOSS, with the sync headers that it tells of: on a disabled port or one
in CFG_ERR, nothing; where its cause is not met, the headers alone are taken (R123); of a port that is coming up or UP
it makes it DOWN, shows the cause and sets DOWN_SEEN; on a DOWN port it shows the lanes alone (R125, R126, R147). On
an enabled port of a tile in service: signal on every lane of a DOWN port is shown; the last CDR lock starts training
where TRAIN is set, or the wait for firmware (R128); training that completes, or no training, leads to HOLDOFF with
all lanes locked and the port's lanes taking their coefficients as references (R129), and its end to UP (R149); in
another state of the port each of these does nothing. No other port changes its state. The adaptation of a port that
is UP keeps a coefficient within GUARD of its reference and shows a hit; a frozen lane does not move (R130, R131); a
recapture makes the coefficients of the port's lanes references, those of frozen lanes as they were (R131, R132);
non-random data freezes a lane, random data frees it where nothing else freezes it (R131). Symbol errors beyond
DEG_THRESH set FEC_DEGRADE (R127). Low-power idle is entered only where R133-R136 allow it, a due launch frame wakes
the transmitter (R134), and receive idle ends at once. -/
def Obligations.PortsComeUpGoDownAdaptAndSleep : Prop :=
  (∀ (q : Path) (p : Nat) (s : State), p < 256 →
    (s.pfMay q = false ∨ s.isF TIL_PORT_CFG.ENABLE p = true → exec (.portEnable q p) s = .next s) ∧
    (s.pfMay q = true → s.isF TIL_PORT_CFG.ENABLE p = false →
      ∃ t, exec (.portEnable q p) s = .next t ∧ t.isF TIL_PORT_CFG.ENABLE p = true ∧
        t.portState p = (if s.portCfgOk p then 1 else 6) ∧
        (s.portCfgOk p = true → ∀ l ∈ s.portLanes p, (t.lane l).gated = false) ∧
        ∀ k, k < 256 → k ≠ p → t.portState k = s.portState k) ∧
    (s.pfMay q = false ∨ s.isF TIL_PORT_CFG.ENABLE p = false → exec (.portDisable q p) s = .next s) ∧
    (s.pfMay q = true → s.isF TIL_PORT_CFG.ENABLE p = true →
      ∃ t, exec (.portDisable q p) s = .next t ∧ t.isF TIL_PORT_CFG.ENABLE p = false ∧ t.portState p = 0 ∧
        (s.portState p ≠ 0 → t.getF TIL_PORT_STAT.CAUSE p = 8) ∧
        ∀ k, k < 256 → k ≠ p → t.portState k = s.portState k)) ∧
  (∀ (p cause a b : Nat) (c : LockLoss) (rx tx : Bool) (met : Bool) (s : State), p < 256 →
    1 ≤ cause → cause ≤ 7 → met = s.causeMet p cause a b (c.mask ||| (s.headersLost p c.headers).1) →
    (s.portState p = 0 ∨ s.portState p = 6 → exec (.linkLoss p cause a b c rx tx) s = .next s) ∧
    (s.portState p ≠ 0 → s.portState p ≠ 6 → met = false →
      exec (.linkLoss p cause a b c rx tx) s = .next (s.headersLost p c.headers).2 ∧
      ∀ f i, f.id ≠ TIL_LANE_STAT.LOCK.id → (s.headersLost p c.headers).2.getF f i = s.getF f i) ∧
    (s.portState p = 1 → met = true →
      ∃ t, exec (.linkLoss p cause a b c rx tx) s = .next t ∧ t.portState p = 1 ∧ t.queues = s.queues ∧
        (∀ l ∈ s.laneMask p a, t.isF TIL_LANE_STAT.SIGNAL l = false) ∧
        ∀ l ∈ s.laneMask p b, t.isF TIL_LANE_STAT.CDR_LOCK l = false) ∧
    (2 ≤ s.portState p → s.portState p ≤ 5 → met = true →
      ∃ t, exec (.linkLoss p cause a b c rx tx) s = .next t ∧ t.portState p = 1 ∧
        t.getF TIL_PORT_STAT.CAUSE p = cause ∧ t.isF TIL_PORT_HIST.DOWN_SEEN p = true ∧
        (s.portState p = 4 → t.isF TIL_PORT_HIST.FLAP_IN_HOLDOFF p = true) ∧
        (∀ l ∈ s.laneMask p a, t.isF TIL_LANE_STAT.SIGNAL l = false) ∧
        (∀ l ∈ s.laneMask p b, t.isF TIL_LANE_STAT.CDR_LOCK l = false) ∧
        ∀ k, k < 256 → k ≠ p → t.portState k = s.portState k)) ∧
  (∀ (p l : Nat) (hs : List Bool) (co : List (Nat × Nat × Int)) (s : State), p < 256 →
    (s.rising p 1 = false → exec (.signalDetect p) s = .next s ∧ exec (.cdrLock p ⟨l, hs⟩) s = .next s) ∧
    (s.rising p 1 = true → ∃ t, exec (.signalDetect p) s = .next t ∧
      ∀ k ∈ s.portLanes p, t.isF TIL_LANE_STAT.SIGNAL k = true) ∧
    (modeLanes (s.portMode p) ≤ l ∨ s.isF TIL_LANE_STAT.SIGNAL (p + l) = false → exec (.cdrLock p ⟨l, hs⟩) s = .next s) ∧
    (s.rising p 1 = true → l < modeLanes (s.portMode p) → s.isF TIL_LANE_STAT.SIGNAL (p + l) = true →
      ∃ t, exec (.cdrLock p ⟨l, hs⟩) s = .next t ∧ t.isF TIL_LANE_STAT.CDR_LOCK (p + l) = true ∧
        t.portState p = if (∀ k ∈ s.portLanes p, k = p + l ∨ s.isF TIL_LANE_STAT.CDR_LOCK k = true) ∧
          s.isF TIL_PORT_CFG.TRAIN p = true then (if s.trainerUp then 2 else 3) else 1) ∧
    (s.rising p 3 = true → s.trainerUp = true → ∃ t, exec (.trainingStart p) s = .next t ∧ t.portState p = 2 ∧
      (t.port p).trained = false) ∧
    (s.rising p 3 = false ∨ s.trainerUp = false → exec (.trainingStart p) s = .next s) ∧
    (s.rising p 2 = true → exec (.trainingComplete p) s = .next (s.upPort p (fun x => { x with trained := true }))) ∧
    (s.rising p 2 = false → exec (.trainingComplete p) s = .next s) ∧
    ((s.rising p 1 = true ∧ s.isF TIL_PORT_CFG.TRAIN p = false) ∨ (s.rising p 2 = true ∧ (s.port p).trained = true) →
      s.allLanes p TIL_LANE_STAT.SIGNAL = true → s.allLanes p TIL_LANE_STAT.CDR_LOCK = true →
      ∃ t, exec (.holdoffEntry p co) s = .next t ∧ t.portState p = 4 ∧
        (∀ k ∈ s.portLanes p, t.isF TIL_LANE_STAT.LOCK k = true) ∧
        ∀ k ∈ s.ownLanes p, (t.lane k).refs = (t.lane k).coeffs ∧
          (s.isF TIL_LANE_STAT.FROZEN k = true → (t.lane k).coeffs = (s.lane k).coeffs)) ∧
    (((s.rising p 1 = false ∨ s.isF TIL_PORT_CFG.TRAIN p = true) ∧ (s.rising p 2 = false ∨ (s.port p).trained = false)) ∨
        s.allLanes p TIL_LANE_STAT.SIGNAL = false ∨ s.allLanes p TIL_LANE_STAT.CDR_LOCK = false →
      exec (.holdoffEntry p co) s = .next s) ∧
    (s.rising p 4 = true → ∃ t, exec (.holdoffExpiry p) s = .next t ∧ t.portState p = 5 ∧
      ∀ k, k < 256 → k ≠ p → t.portState k = s.portState k) ∧
    (s.rising p 4 = false → exec (.holdoffExpiry p) s = .next s)) ∧
  (∀ (q : Path) (p l c n x y : Nat) (want v : Int) (co : List (Nat × Nat × Int)) (s : State), p < 256 →
    v = clampI (Tab.getD (s.lane (p + l)).refs c 0 - s.getF TIL_PORT_ADAPT.GUARD p)
      (Tab.getD (s.lane (p + l)).refs c 0 + s.getF TIL_PORT_ADAPT.GUARD p) want →
    (s.portState p ≠ 5 ∨ modeLanes (s.portMode p) ≤ l ∨ s.isF TIL_LANE_STAT.FROZEN (p + l) = true →
      exec (.adaptGuardHit p l c want) s = .next s) ∧
    (s.portState p = 5 → l < modeLanes (s.portMode p) → s.isF TIL_LANE_STAT.FROZEN (p + l) = false →
      ∃ t, exec (.adaptGuardHit p l c want) s = .next t ∧ Tab.get? (t.lane (p + l)).coeffs c = some v ∧
        (v ≠ want → t.isF TIL_LANE_STAT.GUARD_HIT (p + l) = true ∧ t.isF TIL_PORT_HIST.ADAPT_GUARD p = true)) ∧
    (modeLanes (s.portMode p) ≤ l ∨ s.portEnabled p = false →
      exec (.adaptFreeze p l) s = .next s ∧ exec (.adaptResume p l) s = .next s) ∧
    (l < modeLanes (s.portMode p) → s.portEnabled p = true →
      (∃ t, exec (.adaptFreeze p l) s = .next t ∧ t.isF TIL_LANE_STAT.FROZEN (p + l) = true ∧
        (t.lane (p + l)).nonRandom = true) ∧
      ∃ t, exec (.adaptResume p l) s = .next t ∧ (t.lane (p + l)).nonRandom = false ∧
        (t.isF TIL_LANE_STAT.FROZEN (p + l) = true →
          s.isF TIL_LANE_STAT.FROZEN (p + l) = true ∧ t.mustFreeze p (p + l) = true)) ∧
    (s.pfMay q = false ∨ s.portUnused p = true → exec (.recapture q p co) s = .next s) ∧
    (s.pfMay q = true → s.portUnused p = false → ∃ t, exec (.recapture q p co) s = .next t ∧
      ∀ k ∈ s.heldLanes p, (t.lane k).refs = (t.lane k).coeffs ∧ t.isF TIL_LANE_STAT.GUARD_HIT k = false ∧
        (s.isF TIL_LANE_STAT.FROZEN k = true → (t.lane k).coeffs = (s.lane k).coeffs)) ∧
    (s.canSend p = false ∨ s.getF TIL_PORT_CFG.FEC p = 0 → exec (.fecDegradeWindow p ⟨n, x, y⟩) s = .next s) ∧
    (s.canSend p = true → s.getF TIL_PORT_CFG.FEC p ≠ 0 → ∃ t, exec (.fecDegradeWindow p ⟨n, x, y⟩) s = .next t ∧
      (s.getF TIL_PORT_FEC.DEG_THRESH p < n → t.isF TIL_PORT_HIST.FEC_DEGRADE p = true) ∧
      (n ≤ s.getF TIL_PORT_FEC.DEG_THRESH p →
        t.isF TIL_PORT_HIST.FEC_DEGRADE p = s.isF TIL_PORT_HIST.FEC_DEGRADE p))) ∧
  (∀ (p : Nat) (s : State), p < 256 →
    (∃ t, exec (.rxLpiExit p) s = .next t ∧ t.isF TIL_PORT_STAT.RX_LPI p = false) ∧
    (s.canSend p = true → s.lpiOk p = true →
      (s.isF TIL_PORT_CFG.TX_LPI_EN p = true → s.portFrames p = 0 → (s.port p).fcOut = [] →
        ∃ t, exec (.txLpiEnter p) s = .next t ∧ t.isF TIL_PORT_STAT.TX_LPI p = true) ∧
      (s.isF TIL_PORT_CFG.RX_LPI_EN p = true →
        ∃ t, exec (.rxLpiEnter p) s = .next t ∧ t.isF TIL_PORT_STAT.RX_LPI p = true ∧
          ∀ l ∈ s.ownLanes p, t.isF TIL_LANE_STAT.FROZEN l = true)) ∧
    (s.canSend p = false ∨ s.lpiOk p = false → exec (.txLpiEnter p) s = .next s ∧ exec (.rxLpiEnter p) s = .next s) ∧
    (s.isF TIL_PORT_CFG.TX_LPI_EN p = false ∨ s.portFrames p ≠ 0 ∨ (s.port p).fcOut ≠ [] →
      exec (.txLpiEnter p) s = .next s) ∧
    (s.isF TIL_PORT_CFG.RX_LPI_EN p = false → exec (.rxLpiEnter p) s = .next s) ∧
    ((s.launchHead p 0).isSome = true ∨ (s.launchHead p 1).isSome = true →
      ∃ t, exec (.txLpiWake p) s = .next t ∧ t.isF TIL_PORT_STAT.TX_LPI p = false) ∧
    ((s.launchHead p 0).isSome = false → (s.launchHead p 1).isSome = false → exec (.txLpiWake p) s = .next s))

/-- A port that cannot send, or without CCLK, takes no frame, and one that does not train takes no training frame; a
training frame of a port in TRAINING goes to port 257 in class 7 without a lookup (R128, the class being the model's
choice, log entry 64). On a port that can send, a valid frame (R138) adds 1 to RX frames and its octets with the FCS
to RX octets; MAC control frames stop there; in HOLDOFF all but frames for logical port 257 are dropped under HOLDOFF
(R150); the others join the end of the tile's pre-lookup buffer with their receive stamp, or, without room, are
dropped under LKP_OVERRUN (R155). An errored frame counts once in each error counter whose flag applies (a frame in a
codeword that the FEC could not correct being one with a code error, R124); without ERR_DELIVER, or below 14 bytes,
nothing else happens; with it, the frame cut to MAXLEN goes on to port 256 in class 0, to the ring of
TIL_PORT_ERR_RING with its error flags (R140). PAUSE and PFC frames count; in another mode they count as mismatched
and stop nothing (R142); in theirs they stop or release the classes they name, ignored ones and class 7 apart (R143).
A pause time that ends releases its classes (R143); a refresh puts a frame for each class in XOFF in line, which wakes
the transmitter (R135, R144); the watchdog releases and ignores classes, counts and reports; its end accepts flow
control again (R145). Beside what is named only reports change. -/
def Obligations.FramesAndFlowControlAreReceived : Prop :=
  (∀ (f : RxFrame) (s : State), f.training = false → s.canSend f.port = false ∨ s.cclk = false →
    exec (.frameReceive f) s = .next s) ∧
  (∀ (f : RxFrame) (s : State), f.training = true →
    (s.portState f.port ≠ 2 → exec (.frameReceive f) s = .next s) ∧
    (s.portState f.port = 2 → ∃ (h : Frame) (t : State), exec (.frameReceive f) s = .next t ∧
      t = (s.sendUnicast (f.port / 32) 0 h).1 ∧ h.bytes = f.bytes ∧ h.inPort = f.port ∧ h.res.destKind = 3 ∧
      h.res.dest = 257 ∧ h.res.cls = 7)) ∧
  (∀ (f : RxFrame) (s : State), f.port < 256 → f.training = false → s.canSend f.port = true →
    s.cclk = true → s.errFlags f = 0 →
    ∃ u t : State, exec (.frameReceive f) s = .next t ∧ s.Quiet u ∧ t = { u with tiles := t.tiles } ∧
      u.counter (group 0 f.port) 0 = min 0xFFFFFFFFFFFFFFFF (s.counter (group 0 f.port) 0 + 1) ∧
      u.counter (group 0 f.port) 1 = min 0xFFFFFFFFFFFFFFFF (s.counter (group 0 f.port) 1 + (f.bytes.length + 4)) ∧
      ((parse f.bytes).etype = 0x8808 → t = u) ∧
      ((parse f.bytes).etype ≠ 0x8808 → s.portState f.port = 4 →
        (∀ r, s.trapped f.port (parse f.bytes) f.bytes = some r → r.destKind ≠ 3) → t = u ∧
        u.counter (group 2 f.port) (s.trustClass f.port (parse f.bytes) * 64 + 0x0A) = min 0xFFFFFFFFFFFFFFFF
          (s.counter (group 2 f.port) (s.trustClass f.port (parse f.bytes) * 64 + 0x0A) + 1)) ∧
      ((parse f.bytes).etype ≠ 0x8808 →
        s.portState f.port = 5 ∨ (∃ r, s.trapped f.port (parse f.bytes) f.bytes = some r ∧ r.destKind = 3) →
        (s.preRoom (f.port / 32) f.bytes.length (parse f.bytes).isPtp = true →
          (t.tile (f.port / 32)).pre = (s.tile (f.port / 32)).pre ++
            [{ bytes := f.bytes, inPort := f.port, stamp := s.rxStamp f, ptp := (parse f.bytes).isPtp }] ∧
          ∀ k, k ≠ f.port / 32 → t.tile k = s.tile k) ∧
        (s.preRoom (f.port / 32) f.bytes.length (parse f.bytes).isPtp = false → t = u ∧
          u.counter (group 2 f.port) (s.trustClass f.port (parse f.bytes) * 64 + 1) = min 0xFFFFFFFFFFFFFFFF
            (s.counter (group 2 f.port) (s.trustClass f.port (parse f.bytes) * 64 + 1) + 1)))) ∧
  (∀ (f : RxFrame) (s : State), f.port < 256 → f.training = false → s.canSend f.port = true →
    s.cclk = true → s.errFlags f ≠ 0 →
    ∃ u t : State, exec (.frameReceive f) s = .next t ∧ s.Quiet u ∧
      (∀ k b, (k, b) ∈ [(4, !f.fcsOk), (5, decide (f.bytes.length + 4 < 64)),
          (39, f.codeErr || (f.badWord && s.isF TIL_PORT_CFG.FEC f.port)),
          (6, decide (s.getF TIL_PORT_MAXLEN.MAXLEN f.port < f.bytes.length + 4))] →
        u.counter (group 0 f.port) k =
          if b then min 0xFFFFFFFF (s.counter (group 0 f.port) k + 1) else s.counter (group 0 f.port) k) ∧
      (s.isF TIL_PORT_CFG.ERR_DELIVER f.port = false ∨ f.bytes.length + 4 < 14 → t = u) ∧
      (s.isF TIL_PORT_CFG.ERR_DELIVER f.port = true → 14 ≤ f.bytes.length + 4 →
        ∃ h : Frame, t = (u.sendUnicast (f.port / 32) 0 h).1 ∧ h.inPort = f.port ∧ h.errf = s.errFlags f ∧
          h.bytes = f.bytes.take (s.getF TIL_PORT_MAXLEN.MAXLEN f.port) ∧ h.res.cls = 0 ∧ h.res.destKind = 2 ∧
          h.res.dest = 256 ∧ h.res.hostReason = 0x10 ∧ h.res.ringEn = true ∧
          h.res.hostRing = s.getF TIL_PORT_ERR_RING.RING f.port ∧
          u.counter (group 0 f.port) 38 = min 0xFFFFFFFFFFFFFFFF (s.counter (group 0 f.port) 38 + 1))) ∧
  (∀ (p q en : Nat) (qs : List Nat) (s : State), p < 256 →
    (s.canSend p = false → ∀ x, exec (.flowControlFrameReceive p x) s = .next s) ∧
    (s.canSend p = true →
      (∃ u t : State, exec (.flowControlFrameReceive p (.pause q)) s = .next t ∧ s.Quiet u ∧
        t = { u with ports := t.ports } ∧
        u.counter (group 0 p) 8 = min 0xFFFFFFFFFFFFFFFF (s.counter (group 0 p) 8 + 1) ∧
        (s.getF TIL_PORT_CFG.FC p ≠ 1 → t = u ∧
          u.counter (group 0 p) 25 = min 0xFFFFFFFFFFFFFFFF (s.counter (group 0 p) 25 + 1)) ∧
        (s.getF TIL_PORT_CFG.FC p = 1 → (∀ k, k ≠ p → t.port k = s.port k) ∧
          ∀ c, c < 8 → t.stoppedCls p c =
            if c = 7 ∨ bit (s.port p).ignore c = true then s.stoppedCls p c else decide (q ≠ 0))) ∧
      ∃ u t : State, exec (.flowControlFrameReceive p (.pfc en qs)) s = .next t ∧ s.Quiet u ∧
        t = { u with ports := t.ports } ∧
        (∀ c, c < 8 → bit en c = true →
          u.counter (group 0 p) (10 + c) = min 0xFFFFFFFFFFFFFFFF (s.counter (group 0 p) (10 + c) + 1)) ∧
        (s.getF TIL_PORT_CFG.FC p ≠ 2 → t = u ∧
          u.counter (group 0 p) 25 = min 0xFFFFFFFFFFFFFFFF (s.counter (group 0 p) 25 + 1)) ∧
        (s.getF TIL_PORT_CFG.FC p = 2 → (∀ k, k ≠ p → t.port k = s.port k) ∧
          ∀ c, c < 8 → t.stoppedCls p c =
            if c = 7 ∨ bit (s.port p).ignore c = true ∨ bit en c = false ∨
              bit (s.getF TIL_PORT_PAUSE.PFC_CLASSES p) c = false then s.stoppedCls p c else decide (qs.getD c 0 ≠ 0)))) ∧
  (∀ (p c : Nat) (s : State),
    (∃ t, exec (.pauseTimeExpiry p c) s = .next t ∧ t = { s with ports := t.ports } ∧
      (∀ k, k ≠ p → t.port k = s.port k) ∧
      ∀ k, t.stoppedCls p k = (s.stoppedCls p k && !bit (s.fcClasses p c) k)) ∧
    (∃ t, exec (.pauseRecoverEnd p c) s = .next t ∧ t = { s with ports := t.ports } ∧
      (∀ k, k ≠ p → t.port k = s.port k) ∧ (t.port p).stopped = (s.port p).stopped ∧
      ∀ k, bit (t.port p).ignore k = (bit (s.port p).ignore k && !bit (s.fcClasses p c) k)) ∧
    (s.getF TIL_PORT_PAUSE.WDOG_MS p = 0 ∨ s.stoppedCls p c = false → exec (.pauseWatchdog p c) s = .next s) ∧
    (p < 256 → s.getF TIL_PORT_PAUSE.WDOG_MS p ≠ 0 → s.stoppedCls p c = true →
      ∃ u t : State, exec (.pauseWatchdog p c) s = .next t ∧ u.Raised t ∧ t.isF TIL_PORT_HIST.PAUSE_WDOG p = true ∧
        (∀ k, u.stoppedCls p k = (s.stoppedCls p k && !bit (s.fcClasses p c) k) ∧
          bit (u.port p).ignore k = (bit (s.port p).ignore k || bit (s.fcClasses p c) k)) ∧
        (∀ k, k ≠ p → u.port k = s.port k) ∧
        u.counter (group 0 p) 26 = min 0xFFFFFFFFFFFFFFFF (s.counter (group 0 p) 26 + 1))) ∧
  (∀ (p : Nat) (s : State),
    (s.canSend p = false ∨ s.getF TIL_BUF_STAT.XOFF p = 0 → exec (.pfcRefresh p) s = .next s) ∧
    (s.canSend p = true → s.getF TIL_BUF_STAT.XOFF p ≠ 0 →
      ∃ t, exec (.pfcRefresh p) s = .next t ∧ t = { s with ports := t.ports, regs := t.regs } ∧
        (∀ k, k ≠ p → t.port k = s.port k) ∧ (∀ g i, g.id ≠ TIL_PORT_STAT.TX_LPI.id → t.getF g i = s.getF g i) ∧
        (t.port p).stopped = (s.port p).stopped ∧
        (s.getF TIL_PORT_CFG.FC p ≠ 1 → s.getF TIL_PORT_CFG.FC p ≠ 2 → t = s) ∧
        (s.getF TIL_PORT_CFG.FC p = 1 → t.isF TIL_PORT_STAT.TX_LPI p = false ∧
          (t.port p).fcOut = (s.port p).fcOut ++ [.pause 0xFFFF]) ∧
        (s.getF TIL_PORT_CFG.FC p = 2 → (t.port p).fcOut = (s.port p).fcOut ++
          (bitsSet 7 (s.getF TIL_BUF_STAT.XOFF p)).map (fun c =>
            FcFrame.pfc (1 <<< c) ((List.range 8).map (fun i => if i = c then 0xFFFF else 0))))))

/-- None of these commands has an effect while CCLK stands (R26). While it runs: LOOKUP on an open tile takes the
frame that waits longest, PTP first, out of its pre-lookup buffer (R155). A PTP frame of a front-panel port goes to
port 257 in class 7 (R158); a malformed frame drops under 2, an ACL DROP under 8; a MAC entry that forwards names its
port (R165, R174). A dropped frame is counted under its class and reason and enters no stream; a PTP frame for which
tile 0 is open and staging and the HP pool have room is charged, counts toward the device epoch and is packed (R176,
R178, R192, R196, R211). CELL_CLOSE closes a partly filled cell with the stream's SEQ (R193). In slot t, tile i sends
closed cells of its own to bank (i + t) mod 8 and bank m visits tile (m + t) mod 8 with at most two cells, whatever is
damaged; fenced tiles send nothing; with nothing damaged every bank visits its open tile (R188, R194). A landing cell
joins its bank's queue; a damaged one is lost, shown and its credit returned (R195, R197, R220). At its tile a unicast
cell that is expected is released, one within 1,023 ahead is held, another is not (R202); RESEQ_TIMEOUT skips to the
nearest held cell and releases what follows it (R203). -/
def Obligations.FramesAreDecidedPackedAndCarried : Prop :=
  (∀ (s : State), s.cclk = false →
    (∀ k, exec (.lookup k) s = .next s) ∧ (∀ i x, exec (.cellClose i x) s = .next s) ∧
    (∀ e, exec (.fabricSlot e) s = .next s) ∧ (∀ m ok, exec (.cellLand m ok) s = .next s) ∧
    (∀ j oks, exec (.visitReceive j oks) s = .next s) ∧ ∀ i j hp, exec (.reseqTimeout i j hp) s = .next s) ∧
  (∀ (k : Nat) (s : State), ((s.tile k).pre = [] ∨ (s.fence k).st ≠ 0) → exec (.lookup k) s = .next s) ∧
  (∀ (k : Nat) (x : PreFrame) (s : State), s.cclk = true → (s.fence k).st = 0 → x ∈ (s.tile k).pre →
    ((s.tile k).pre.find? (fun y => y.ptp) = some x ∨
      (s.tile k).pre.find? (fun y => y.ptp) = none ∧ (s.tile k).pre.head? = some x) →
    (∃ t, exec (.lookup k) s = .next t ∧ (t.tile k).pre = (s.tile k).pre.erase x ∧
      (∀ j, j ≠ k → t.tile j = s.tile j) ∧
      (∀ d, d = (s.upTile k (fun y => { y with pre := y.pre.erase x })).decideFrame k x.inPort x.bytes x.stamp →
        x.tx = none → d.2.1.destKind = 4 →
        t.counter (group 2 x.inPort) (d.2.1.cls * 64 + d.2.1.dropReason) = min 0xFFFFFFFFFFFFFFFF
          (d.1.counter (group 2 x.inPort) (d.2.1.cls * 64 + d.2.1.dropReason) + 1) ∧
        t.fabric = s.fabric ∧ t.epochs = s.epochs ∧ t.acct = s.acct ∧ (t.tile k).streams = (s.tile k).streams)) ∧
    (x.inPort < 256 → (parse x.bytes).isPtp = true → x.tx = none → (s.fence 0).st = 0 →
      s.stagingRoom k 8 (frameCells x.bytes.length) = true →
      s.acctSum 3 + frameCells x.bytes.length ≤ s.getF GLB_BUF_HP.HP_POOL →
      ∃ (t : State) (f : Frame), exec (.lookup k) s = .next t ∧ f.bytes = x.bytes ∧ f.inPort = x.inPort ∧
        f.stamp = x.stamp ∧ f.res.destKind = 3 ∧ f.res.cls = 7 ∧ f.res.epoch = s.epochs.serial ∧
        t.acctOf 3 x.inPort 7 = s.acctOf 3 x.inPort 7 + frameCells x.bytes.length ∧
        Tab.getD t.epochs.count s.epochs.serial 0 = Tab.getD s.epochs.count s.epochs.serial 0 + 1 ∧
        ∃ g ∈ ((t.stream k 8).closed.flatMap (fun c => c.frags)) ++ (t.stream k 8).frags, g.frame = f ∧ g.start = 0)) ∧
  (∀ (k p stamp : Nat) (b : Bytes) (h : Hdr) (s : State), h = s.parseFor p b →
    (p < 256 → h.isPtp = true →
      (s.decideFrame k p b stamp).2 = ({ LkpResult.control {} with cls := 7 }, b)) ∧
    ((256 ≤ p ∨ h.isPtp = false) → h.etype ≠ 0x8809 → h.bad = true →
      (s.decideFrame k p b stamp).2.1.destKind = 4 ∧ (s.decideFrame k p b stamp).2.1.dropReason = 2) ∧
    ((256 ≤ p ∨ h.isPtp = false) → h.etype ≠ 0x8809 → h.bad = false → h.trunc = false →
      (∀ e, s.aclFind k (aclCommon p (s.lookupVlan p h) h (s.way p h) (s.flowHit p h).isSome) h = some e →
        aclAct e.words = 1 →
        (s.decideFrame k p b stamp).2.1.destKind = 4 ∧ (s.decideFrame k p b stamp).2.1.dropReason = 8) ∧
      (∀ r, s.aclFind k (aclCommon p (s.lookupVlan p h) h (s.way p h) (s.flowHit p h).isSome) h = none →
        s.flowHit p h = none → h.isMulticast = false → s.l2Find (s.lookupVlan p h) h.dmac = some r →
        l2Action r.words = 0 → (∀ e ∈ s.pgs, e.2.onBackup = true → e.2.primary ≠ l2Dest r.words) →
        (s.decideFrame k p b stamp).2.1.destKind = 0 ∧ (s.decideFrame k p b stamp).2.1.dest = l2Dest r.words ∧
        (s.decideFrame k p b stamp).2.1.cls ≤ 5 ∧ (s.decideFrame k p b stamp).2.2 = b))) ∧
  (∀ (i x : Nat) (s : State),
    ((s.stream i x).fill = 0 → exec (.cellClose i x) s = .next s) ∧
    (s.cclk = true → (s.stream i x).fill ≠ 0 → ∃ (t : State) (c : Cell), exec (.cellClose i x) s = .next t ∧
      t = { s with tiles := t.tiles } ∧ (t.stream i x).closed = (s.stream i x).closed ++ [c] ∧
      c.seq = (s.stream i x).seq ∧ c.frags = (s.stream i x).frags ∧ c.src = i ∧ c.multicast = decide (16 ≤ x) ∧
      (t.stream i x).fill = 0 ∧ (t.stream i x).frags = [] ∧ (t.stream i x).seq = ((s.stream i x).seq + 1) % 65536 ∧
      ∀ j y, j ≠ i ∨ y ≠ x → t.stream j y = s.stream j y)) ∧
  (∀ (ecc : SlotEcc) (s : State), s.cclk = true → ∃ t,
    exec (.fabricSlot ecc) s = .next t ∧ t.fabric.slot = s.fabric.slot + 1 ∧
    (∀ e ∈ t.fabric.flight1, e ∈ s.fabric.flight1 ∨
      ∃ i x c, i < 8 ∧ (s.fence i).st = 0 ∧ e.1 = (i + s.fabric.slot) % 8 ∧ c ∈ (s.stream i x).closed ∧
        e.2 = { c with sendTime := s.fabric.slot / 8 % 65536 }) ∧
    (∀ e ∈ t.fabric.flight2, e ∈ s.fabric.flight2 ∨
      e.2.bank < 8 ∧ (s.fence e.1).st = 0 ∧ e.1 = (e.2.bank + s.fabric.slot) % 8 ∧ e.2.slot = s.fabric.slot ∧
        e.2.cells.length ≤ 2) ∧
    (ecc.first = 0 → ecc.second = 0 → (∀ i x, 8 ≤ i ∨ (s.fence i).st ≠ 0 → t.stream i x = s.stream i x) ∧
      ∀ m, m < 8 → (s.fence ((m + s.fabric.slot) % 8)).st = 0 → ∃ v : Visit,
        v.bank = m ∧ v.slot = s.fabric.slot ∧ ((m + s.fabric.slot) % 8, v) ∈ t.fabric.flight2)) ∧
  (∀ (m : Nat) (ok : Bool) (s : State),
    (s.fabric.flight1.find? (fun e => e.1 == m) = none → exec (.cellLand m ok) s = .next s) ∧
    (∀ c, s.fabric.flight1.find? (fun e => e.1 == m) = some (m, c) → c.multicast = false → s.cclk = true →
      (ok = true → (s.fence c.dst).st = 0 → ∃ t, exec (.cellLand m ok) s = .next t ∧
        t = { s with fabric := t.fabric } ∧ t.fabric.flight1 = s.fabric.flight1.erase (m, c) ∧
        Tab.getD (t.bank m).queues c.queue [] = Tab.getD (s.bank m).queues c.queue [] ++ [c] ∧
        ∀ q, q ≠ c.queue → Tab.getD (t.bank m).queues q [] = Tab.getD (s.bank m).queues q []) ∧
      (ok = true → (s.fence c.dst).st ≠ 0 → ∃ t, exec (.cellLand m ok) s = .next t ∧
        t.fabric.flight1 = s.fabric.flight1.erase (m, c) ∧ (c.src, m, c.queue) ∈ t.fabric.returns ∧
        (t.bank m).queues = (s.bank m).queues) ∧
      (ok = false → c.src < 8 → ∃ t, exec (.cellLand m ok) s = .next t ∧
        bit (t.getF GLB_FAB_STAT.CELL_ERR) c.src = true ∧ (c.src, m, c.queue) ∈ t.fabric.returns ∧
        c ∈ t.fabric.lost))) ∧
  (∀ (j : Nat) (oks : List Bool) (s : State),
    (s.fabric.flight2.find? (fun e => e.1 == j) = none → exec (.visitReceive j oks) s = .next s) ∧
    (∀ v, s.fabric.flight2.find? (fun e => e.1 == j) = some (j, v) → (∀ b ∈ oks, b = true) → s.cclk = true →
      ∃ t, exec (.visitReceive j oks) s = .next t ∧ t.fabric.flight2 = s.fabric.flight2.erase (j, v) ∧
        (∀ c k, v.cells = [c] → c.kind = 0 → c.spill = false → c.multicast = false → k = uniKey c.src j c.hp → c.seq < 65536 →
          (s.uniSeq k).expect < 65536 → (∀ h ∈ (s.uniSeq k).held, h.cell.seq ≠ (s.uniSeq k).expect) →
          (1023 < (c.seq + 65536 - (s.uniSeq k).expect) % 65536 → t.uniSeq k = s.uniSeq k) ∧
          ((c.seq + 65536 - (s.uniSeq k).expect) % 65536 ≤ 1023 → c.seq ≠ (s.uniSeq k).expect →
            t.uniSeq k = { s.uniSeq k with held := (s.uniSeq k).held ++ [{ cell := c, arrived := s.fabric.slot }] }) ∧
          (c.seq = (s.uniSeq k).expect → (s.uniSeq k).held = [] → (t.uniSeq k).held = [] ∧
            (t.uniSeq k).expect = (c.seq + 1) % 65536)))) ∧
  (∀ (i j : Nat) (hp : Bool) (s : State),
    ((s.uniSeq (uniKey i j hp)).held = [] → exec (.reseqTimeout i j hp) s = .next s) ∧
    (∀ d, (s.uniSeq (uniKey i j hp)).nearest = some d → (s.uniSeq (uniKey i j hp)).expect < 65536 → s.cclk = true →
      (∀ h ∈ (s.uniSeq (uniKey i j hp)).held, h.cell.seq < 65536) →
      ∃ (t : State) (n : Nat), exec (.reseqTimeout i j hp) s = .next t ∧ 1 ≤ n ∧
        n + (t.uniSeq (uniKey i j hp)).held.length ≤ (s.uniSeq (uniKey i j hp)).held.length ∧
        (t.uniSeq (uniKey i j hp)).expect = ((s.uniSeq (uniKey i j hp)).expect + d + n) % 65536))

/-- Nothing is picked, aged or swept while CCLK stands, nothing starts without LCLK (R26) or on a port that cannot
send, and a launch head's time only passes. On a port that can, a generated flow-control frame goes first, ahead of a
due launch frame too (R144, R229); a blocked guarded port's queues are emptied (R436); with no launch frame waiting,
the head of class 7 from port 257 is sent, then the host's class 7 head while HOST7_PCT is not 0 and its bucket not
negative, then class 6 while its shaper is not negative and flow control does not stop it, then the class whose turn
it is if its deficit covers the frame: the frame leaves its queue and, in preamble and FCS, the port, and counts
(R139, R229–R232; aged, guarded and suppressed heads apart). The due launch head to serve leaves its queue: late under
DROP it is dropped under LAUNCH_PAST, else it is sent (R237, R239). AGE_CHECK drops a head that has reached
RESIDENCY_MS, launch-time queues apart (R182, R183, R241). CUT_SWEEP: in GAP, CLOSE past fails the cut by FAIL_POL; in
ARMED, an old source silent for W after its last frame, or after the arming, ends and is counted; other groups stay
(R282, R284). MERGE_IDLE_EXPIRY empties a present group's window, unless MERGE_IDLE_MS is 0 (R275). PG_WTR_EXPIRY
returns a group on its backup to a primary that is UP, with REVERT and in automatic mode (R246). -/
def Obligations.SchedulersPickLaunchAgeAndSweep : Prop :=
  (∀ (p phase q : Nat) (d : Int) (s : State),
    (s.canSend p = false ∨ s.cclk = false ∨ s.lclk = false → exec (.schedulerPick p phase d) s = .next s ∧
      ∀ l, s.launchHead p q = some l → exec (.launchDue p q phase d) s = .next (s.advanceTo (l - s.byteTime p 8) 64)) ∧
    (s.launchHead p q = none → exec (.launchDue p q phase d) s = .next s) ∧
    (∀ x l, s.canSend p = true → s.cclk = true → s.lclk = true → (s.port p).fcOut = x :: l →
      (∃ t, exec (.schedulerPick p phase d) s = .next t ∧ (t.port p).fcOut = l ∧ t.queues = s.queues ∧
        Out.txFlowControl p x ∈ t.out.drop s.out.length) ∧
      (∀ y, s.launchHead p q = some y → y - s.byteTime p 8 ≤ s.now →
        ∃ t, exec (.launchDue p q phase d) s = .next t ∧ (t.port p).fcOut = l ∧ t.queues = s.queues ∧
          Out.txFlowControl p x ∈ t.out.drop s.out.length)) ∧
    (s.canSend p = true → s.cclk = true → s.lclk = true → (s.port p).fcOut = [] → s.blocked p = true →
      ∃ t, exec (.schedulerPick p phase d) s = .next t ∧
        (∀ k, k ≤ 10 → t.queue (queueKey p k) = {}) ∧ ∀ k, k / 16 ≠ p → t.queue k = s.queue k)) ∧
  (∀ (p slot phase : Nat) (d : Int) (f : Frame) (s u : State), p < 256 → s.canSend p = true → s.cclk = true →
    s.lclk = true → (s.port p).fcOut = [] → u = (s.fillBuckets p).renewRates p → s.guarded p = false →
    s.launchHead p 0 = none → s.launchHead p 1 = none → s.head p slot = some f →
    (slot = 7 ∨ slot = 10 ∧ s.head p 7 = none ∧ s.getF TIL_SCH_HOST7.HOST7_PCT p ≠ 0 ∧ 0 ≤ (u.port p).tok7 ∨
      slot = 6 ∧ s.head p 7 = none ∧ s.head p 10 = none ∧ 0 ≤ (u.port p).tok6 ∧ s.stoppedCls p 6 = false ∨
      slot < 6 ∧ s.head p 7 = none ∧ s.head p 10 = none ∧ s.head p 6 = none ∧ s.stoppedCls p slot = false ∧
        (s.port p).turn = slot ∧ u.occBytes f ≤ (s.port p).deficit.getD slot 0 +
          (if (s.port p).drrOpen then 0 else u.quantum p slot)) →
    s.aged f p = false → (f.inPort ≠ 257 ∨ s.suppressed p = false) → (∀ x, f.direct = some x → x.oneStep = false) →
    ∃ t, exec (.schedulerPick p phase d) s = .next t ∧
      Out.txFrame p (wireFrame (s.outgoing f)) false (s.interFrame p ((s.outgoing f).length + 12)).1
        ∈ t.out.drop s.out.length ∧
      t.counter (group 0 p) 2 = min 0xFFFFFFFFFFFFFFFF (s.counter (group 0 p) 2 + 1) ∧
      ((s.queue (queueKey p slot)).spilled = false →
        (t.queue (queueKey p slot)).onTile = (s.queue (queueKey p slot)).onTile.drop 1) ∧
      ∀ k, k ≠ queueKey p slot → t.queue k = s.queue k) ∧
  (∀ (p q phase : Nat) (dTx l : Int) (f : Frame) (d : Direct) (late : Bool) (s : State), p < 256 → q < 2 →
    s.dueLaunch p = some q → s.head p (8 + q) = some f → f.direct = some d → d.launch = some l → d.oneStep = false →
    s.canSend p = true → s.cclk = true → s.lclk = true → (s.port p).fcOut = [] → s.guarded p = false →
    (f.inPort ≠ 257 ∨ s.suppressed p = false) → (s.queue (queueKey p (8 + q))).spilled = false →
    late = (decide (l + s.getF TIL_SCH_LT.LATE_TOL p * (4 * nsU) < s.now + s.byteTime p 8) &&
      (if q = 0 then s.getF TIL_SCH_LT.LATE_POL0 p else s.getF TIL_SCH_LT.LATE_POL1 p) == 1) →
    ∃ t, exec (.launchDue p q phase dTx) s = .next t ∧
      (t.queue (queueKey p (8 + q))).onTile = (s.queue (queueKey p (8 + q))).onTile.drop 1 ∧
      (∀ k, k ≠ queueKey p (8 + q) → t.queue k = s.queue k) ∧
      (late = true → t.counter (group 3 p) ((8 + q) * 32 + 7) =
        min 0xFFFFFFFFFFFFFFFF (s.counter (group 3 p) ((8 + q) * 32 + 7) + 1)) ∧
      (late = false → Out.txFrame p (wireFrame (s.outgoing f)) false (s.interFrame p ((s.outgoing f).length + 12)).1
        ∈ t.out.drop s.out.length)) ∧
  (∀ (r : QueueRef) (f : Frame) (s : State), r.port < 258 → r.slot ≤ 10 →
    (s.cclk = false ∨ r.slot = 8 ∨ r.slot = 9 ∨ s.head r.port r.slot = none → exec (.ageCheck r) s = .next s) ∧
    (s.head r.port r.slot = some f → s.aged f r.port = false → exec (.ageCheck r) s = .next s) ∧
    (s.cclk = true → s.head r.port r.slot = some f → s.aged f r.port = true → r.slot ≠ 8 → r.slot ≠ 9 →
      (s.queue (queueKey r.port r.slot)).spilled = false →
      ∃ t, exec (.ageCheck r) s = .next t ∧
        (t.queue (queueKey r.port r.slot)).onTile = (s.queue (queueKey r.port r.slot)).onTile.drop 1 ∧
        (∀ k, k ≠ queueKey r.port r.slot → t.queue k = s.queue k) ∧
        t.counter (group 3 r.port) (slotNumber r.slot * 32 + 6) =
          min 0xFFFFFFFFFFFFFFFF (s.counter (group 3 r.port) (slotNumber r.slot * 32 + 6) + 1))) ∧
  (∀ s : State, s.cclk = false → exec .cutSweep s = .next s) ∧
  (∀ s : State, s.cclk = true → ∃ t, exec .cutSweep s = .next t ∧ ∀ (g : Nat) (now last since : Int),
    now = s.now / (nsU / 16) → last = (s.candSrc g (s.cut g).c).last.getD (s.cut g).armedAt →
    since = max (s.cut g).armedAt last →
    ((s.cut g).state ≠ 2 → (s.cut g).state ≠ 3 → t.cut g = s.cut g) ∧
    ((s.cut g).state = 3 → (∀ c, (s.cut g).close = some c → now ≤ c) → t.cut g = s.cut g) ∧
    (∀ c, (s.cut g).state = 3 → (s.cut g).close = some c → c < now →
      t.isF GLB_MED_HIST.CUT_FAIL_SEEN = true ∧
      t.cut g = if bit (dw (s.cut g).words 8) 20 then { s.cut g with close := none, failed := true }
        else { s.cut g with state := if (s.cut g).c = 4 then 0 else 4 }) ∧
    ((s.cut g).state = 2 → now - since ≤ (s.cut g).win * gridUs → t.cut g = s.cut g) ∧
    ((s.cut g).state = 2 → (s.cut g).win * gridUs < now - since →
      (t.cut g).oldSilent = (s.cut g).oldSilent + 1 ∧
      ((s.cut g).n = 4 → (t.cut g).state = 0 ∧ (t.cut g).c = 4) ∧
      ((s.cut g).n ≠ 4 → (Tab.keys s.cuts).Nodup → (t.cut g).state = 3 ∧ (t.cut g).c = (s.cut g).c ∧
        (t.cut g).close = some (last + (s.candSrc g (s.cut g).c).gap + (s.cut g).win * gridUs)))) ∧
  (∀ (g : Nat) (s : State),
    (s.getF GLB_MED_CFG.MERGE_IDLE_MS = 0 ∨ s.cclk = false ∨ Tab.get? s.merges g = none →
      exec (.mergeIdleExpiry g) s = .next s) ∧
    (s.getF GLB_MED_CFG.MERGE_IDLE_MS ≠ 0 → s.cclk = true → (Tab.get? s.merges g).isSome → ∃ t,
      exec (.mergeIdleExpiry g) s = .next t ∧
      t = { s with merges := t.merges } ∧ (∀ k, k ≠ g → t.merge k = s.merge k) ∧ (t.merge g).empty = true ∧
      (t.merge g).members = (s.merge g).members ∧ (t.merge g).next = (s.merge g).next) ∧
    (∀ x, Tab.get? s.pgs g = some x → x.onBackup = true → x.forced = none → s.isF GLB_PG_CFG.REVERT = true →
      s.portState x.primary = 5 → ∃ t, exec (.pgWtrExpiry g) s = .next t ∧
        Tab.get? t.pgs g = some { x with onBackup := false } ∧ (∀ k, k ≠ g → Tab.get? t.pgs k = Tab.get? s.pgs k) ∧
        bit (t.getF GLB_PG_STAT.ON_BACKUP (g / 32)) (g % 32) = false) ∧
    ((∀ x, Tab.get? s.pgs g = some x → x.onBackup = false ∨ x.forced ≠ none ∨ s.isF GLB_PG_CFG.REVERT = false ∨
      s.portState x.primary ≠ 5) → exec (.pgWtrExpiry g) s = .next s))

/-- Before the core rails are up, polls, readings and scaling change nothing; scaling does nothing without AVS_EN or a
reading. RAIL_POLL shows each answered rail's voltage and whether it is within 3 percent of its target; a STATUS_WORD
fault, a third poll in a row out of window or unanswered latches 0x180, and six rails in window end its condition
(R507). With AVS_EN the smallest margin m is shown; below LOW_PS the core rises by 2.5 mV, above HIGH_PS with no run
in progress it falls by 2.5 mV, within 700 to 820 mV (R508). A margin below 15 ps is shown and raises it by 10 mV, and
at 820 mV latches 0x184 (R509). TILE_GATE_SET of a tile that is not FENCED only sets GATE_REFUSED; of a FENCED one it
gates the tile, resets its registers and clears its sensors' VALID; other tiles' ports stay; clearing the bit leaves
it ungated in the same fence state, and accesses that waited are looked at again (R416, R510). LANE_GATE gates a lane
that no enabled port owns (R511). SENSOR_READ shows readings and their validity, TMAX, and ALARM and LIMIT with 0x181
and 0x182 (R512, R513). AGING_MEASURE above 805 mV latches 0x185 (R514). HOUR_TICK counts an hour and its weight, and
firmware, while it executes, saves both (R515). A fault present already is not latched anew. -/
def Obligations.ThePowerManagerPollsScalesGatesAndAges : Prop :=
  (∀ (l : List RailReading) (x : List Int) (a b : Nat) (m : List Nat) (s : State), s.boot.coreUp = false →
    exec (.railPoll l) s = .next s ∧ exec (.avsPeriod m) s = .next s ∧ exec (.marginEmergency a) s = .next s ∧
    exec (.sensorRead x) s = .next s ∧ exec (.agingMeasure a b) s = .next s) ∧
  (∀ (l : List RailReading) (s : State), s.boot.coreUp = true → ∃ t, exec (.railPoll l) s = .next t ∧
    (∀ r x v, r < 6 → l[r]? = some x → x.vout = some v → v < 4096 →
      t.getF PWR_RAIL.VOUT_MV r = v ∧ t.isF PWR_RAIL.IN_WINDOW r = s.railInside r v) ∧
    (∀ r x, r < 6 → l[r]? = some x → (s.faultSt 0x180).present = false →
      (x.statusFault = true ∨ x.vout = none ∧ 2 ≤ Tab.getD s.pwr.silentRun r 0 ∨
        2 ≤ Tab.getD s.pwr.outRun r 0 ∧ ∃ v, x.vout = some v ∧ s.railInside r v = false) →
      (t.faultSt 0x180).latched = true ∧ t.isF PWR_HIST.RAIL_FAULT_SEEN = true) ∧
    ((∀ r, r < 6 → ∃ x v, l[r]? = some x ∧ x.statusFault = false ∧ x.vout = some v ∧ s.railInside r v = true) →
      (t.faultSt 0x180).present = false)) ∧
  (∀ (l : List Nat) (s : State), s.isF PWR_AVS_CFG.AVS_EN = false ∨ l = [] → exec (.avsPeriod l) s = .next s) ∧
  (∀ (x m : Nat) (l : List Nat) (s : State), s.boot.coreUp = true → s.isF PWR_AVS_CFG.AVS_EN = true → m = l.foldl min x →
    ∃ t, exec (.avsPeriod (x :: l)) s = .next t ∧ t.getF PWR_AVS_STAT.MARGIN_PS = min 255 m ∧
      (m < s.getF PWR_AVS_CFG.LOW_PS → t.pwr.core = if s.pwr.core + 5 ≤ 1640 then s.pwr.core + 5 else s.pwr.core) ∧
      (s.getF PWR_AVS_CFG.LOW_PS ≤ m → t.pwr.core =
        if s.highPs < m ∧ s.getF TMP_STAT.STATE ≠ 1 ∧ s.getF TMP_STAT.STATE ≠ 2 ∧ 1405 ≤ s.pwr.core
        then s.pwr.core - 5 else s.pwr.core) ∧
      (t.pwr.core ≠ s.pwr.core → t.getF PWR_AVS_STAT.VCORE_MV = t.pwr.core / 2 % 1024)) ∧
  (∀ (m : Nat) (s : State), s.boot.coreUp = true →
    (15 ≤ m → exec (.marginEmergency m) s = .next s) ∧
    (m < 15 → s.pwr.core ≠ 1640 → ∃ t, exec (.marginEmergency m) s = .next t ∧
      t.pwr.core = min 1640 (s.pwr.core + 20) ∧ t.getF PWR_AVS_STAT.MARGIN_PS = m ∧
      t.getF PWR_AVS_STAT.VCORE_MV = t.pwr.core / 2 % 1024) ∧
    (m < 15 → s.pwr.core = 1640 → ∃ t, exec (.marginEmergency m) s = .next t ∧ t.pwr = s.pwr ∧
      t.getF PWR_AVS_STAT.MARGIN_PS = m ∧
      ((s.faultSt 0x184).present = false → (t.faultSt 0x184).latched = true ∧ t.isF PWR_HIST.AVS_LIMIT_SEEN = true))) ∧
  (∀ (q : Path) (k : Nat) (s : State),
    (s.pwrMay q = false ∨ 8 ≤ k ∨ bit (s.getF PWR_GATE.TILE_GATE) k = true → exec (.tileGateSet q k) s = .next s) ∧
    (s.pwrMay q = false ∨ 8 ≤ k ∨ bit (s.getF PWR_GATE.TILE_GATE) k = false →
      exec (.tileGateClear q k) s = .next s.resume) ∧
    (s.pwrMay q = true → k < 8 → bit (s.getF PWR_GATE.TILE_GATE) k = false →
      ((s.fence k).st ≠ 2 → exec (.tileGateSet q k) s = .next (s.setF PWR_HIST.GATE_REFUSED 1)) ∧
      ((s.fence k).st = 2 → ∃ t, exec (.tileGateSet q k) s = .next t ∧ bit (t.getF PWR_GATE.TILE_GATE) k = true ∧
        bit (t.getF PWR_GATE_STAT.TILE_GATED) k = true ∧ (∀ i, i < 6 → t.isF PWR_SENSOR.VALID (6 * k + i) = false) ∧
        t.fences = s.fences ∧ (∀ p, p < 256 → p / 32 = k → t.portState p = 0) ∧
        ∀ p, p < 256 → p / 32 ≠ k → t.portState p = s.portState p ∧ t.port p = s.port p)) ∧
    (s.pwrMay q = true → k < 8 → bit (s.getF PWR_GATE.TILE_GATE) k = true →
      ∃ t : State, exec (.tileGateClear q k) s = .next t.resume ∧ bit (t.getF PWR_GATE.TILE_GATE) k = false ∧
        bit (t.getF PWR_GATE_STAT.TILE_GATED) k = false ∧ t.fences = s.fences ∧
        ∀ p, p < 256 → p / 32 ≠ k → t.portState p = s.portState p ∧ t.port p = s.port p)) ∧
  (∀ (k n : Nat) (s : State),
    (s.isF PWR_GATE.LANE_GATE_EN = false ∨ s.laneOwner (k * 32 + n) ≠ none → exec (.laneGate k n) s = .next s) ∧
    (s.isF PWR_GATE.LANE_GATE_EN = true → s.laneOwner (k * 32 + n) = none → ∃ t, exec (.laneGate k n) s = .next t ∧
      t = { s with lanes := t.lanes } ∧ (t.lane (k * 32 + n)).gated = true ∧
      ∀ j, j ≠ k * 32 + n → t.lane j = s.lane j)) ∧
  (∀ (l : List Int) (live : List Nat) (s : State), s.boot.coreUp = true →
    live = (List.range 64).filter (fun i => !(decide (i < 48) && bit (s.getF PWR_GATE_STAT.TILE_GATED) (i / 6))) →
    ∃ t, exec (.sensorRead l) s = .next t ∧
      (∀ i ∈ live, t.isF PWR_SENSOR.VALID i = s.sensorOk l i ∧
        (-512 ≤ l.getD i 0 → l.getD i 0 < 512 → t.getF PWR_SENSOR.TEMP i = unsign 10 (l.getD i 0))) ∧
      (∀ i, i < 64 → i ∉ live → t.isF PWR_SENSOR.VALID i = s.isF PWR_SENSOR.VALID i) ∧
      ((∃ i ∈ live, s.sensorOk l i = false) → (s.faultSt 0x183).present = false → (t.faultSt 0x183).latched = true) ∧
      (∀ x k, hottest l (live.filter (fun i => s.sensorOk l i)) = some (x, k) →
        t.getF PWR_THERM_STAT.TMAX_SENSOR = k ∧
        (-512 ≤ x → x < 512 → t.getF PWR_THERM_STAT.TMAX = unsign 10 x) ∧
        (s.alarmAt ≤ x → t.isF PWR_THERM_STAT.ALARM = true ∧
          ((s.faultSt 0x181).present = false → (t.faultSt 0x181).latched = true)) ∧
        (x < s.alarmOff → t.isF PWR_THERM_STAT.ALARM = false ∧ (t.faultSt 0x181).present = false) ∧
        (s.limitAt ≤ x → t.isF PWR_THERM_STAT.LIMIT = true ∧
          ((s.faultSt 0x182).present = false → (t.faultSt 0x182).latched = true)) ∧
        (x < s.limitAt → t.isF PWR_THERM_STAT.LIMIT = false ∧ (t.faultSt 0x182).present = false))) ∧
  (∀ (a m : Nat) (s : State), s.boot.coreUp = true → ∃ t, exec (.agingMeasure a m) s = .next t ∧
    t.getF PWR_AVS_STAT.AGE_MV = min 255 a ∧
    (805 < m → (s.faultSt 0x185).present = false → (t.faultSt 0x185).latched = true ∧ t.isF PWR_HIST.AGING_SEEN = true) ∧
    (m ≤ 805 → (t.faultSt 0x185).present = false ∧ (t.faultSt 0x185).latched = (s.faultSt 0x185).latched)) ∧
  (∀ (x : Int) (s : State),
    (s.boot.aonUp = false → exec .hourTick s = .next s) ∧
    (s.boot.aonUp = true → x = (match s.pwr.hourMax with | some y => y | none => signed 10 (s.getF PWR_THERM_STAT.TMAX)) →
      ∃ t, exec .hourTick s = .next t ∧ t.getF PWR_HOURS.HOURS = min 0xFFFFFFFF (s.getF PWR_HOURS.HOURS + 1) ∧
        t.getF PWR_LIFE.LIFE_PPM = min 0xFFFFFFFF
          (s.getF PWR_LIFE.LIFE_PPM + (s.pwr.lifeFrac + 57078 * hourWeight x) / 1000000) ∧
        t.pwr.lifeFrac = (s.pwr.lifeFrac + 57078 * hourWeight x) % 1000000 ∧ t.pwr.hourMax = none ∧
        (s.fwRuns = true → t.flash.hours = t.getF PWR_HOURS.HOURS ∧ t.flash.lifePpm = t.getF PWR_LIFE.LIFE_PPM) ∧
        (s.fwRuns = false → t.flash = s.flash)))

/-- PERF_COUNTER_WRAP of an enabled counter with an accepted filter, Hallmark in service: without SAMPLE the counter
is 0, with it 2^48 less PERIOD, 0 acting as 1, and WRAP is set (R530); with trace enabled and room a SAMPLE record
joins the FIFO. A write of HMK_PC_CFG by the PF sets the counter's configuration and leaves its value; a refused event
or filter sets FILT_ERR; the safety pair's counters take no host write (R527, R528, R531). DUMP_WRITE puts the next
part of the latched dump into the next descriptor of the lowest DUMP ring; out of descriptors, the rest is discarded
with TRUNC and DUMP_TRUNC (R525, R526). TRACE_RING_WRITE puts the records that fit into the next descriptor of the
lowest TRACE ring, in order (R536); HMK_FRAME_SEND sends at most 45 units with the next frame SEQ on alternate lanes
(R537). Without what they need, these change nothing. In the TAP IDCODE, SAMPLE and BYPASS shift out their register;
with the TEST_EN strap EXTEST, PRELOAD, CLAMP, HIGHZ, EXTEST_PULSE and EXTEST_TRAIN are selected, without it they
select bypass and drive nothing (R539, R540, R552). Outside the TAP nothing but TDO changes. -/
def Obligations.HallmarkDumpsTracesAndCountsAndTheTap : Prop :=
  (∀ (n pc : Nat) (s : State),
    (s.hmkFenced = true ∨ 312 ≤ n ∨ s.isF HMK_PC_CFG.EN n = false ∨ s.perfCfgOk n = false →
      exec (.perfCounterWrap n pc) s = .next s) ∧
    (s.hmkFenced = false → n < 312 → s.isF HMK_PC_CFG.EN n = true → s.perfCfgOk n = true →
      ∃ t, exec (.perfCounterWrap n pc) s = .next t ∧ t.isF HMK_PC_VAL_HI.WRAP n = true ∧
        t.isF HMK_HIST.PERF_WRAP_SEEN = true ∧
        t.perfValue n = (if s.isF HMK_PC_CFG.SAMPLE n then 2 ^ 48 - max 1 (s.getF HMK_PC_PERIOD.PERIOD n) else 0) ∧
        (s.isF HMK_PC_CFG.SAMPLE n = false → t.hmk = s.hmk) ∧
        (s.isF HMK_PC_CFG.SAMPLE n = true → s.isF HMK_TRACE_CFG.TRACE_EN = true → s.hmk.lossDue = false →
          fifoLevel s.hmk.fifo + 1 ≤ 8128 → ∃ r : TraceRec, t.hmk.fifo = s.hmk.fifo ++ [r] ∧ r.typ = 4 ∧ r.src = n))) ∧
  (∀ (q : Path) (n : Nat) (v : Word) (s : State),
    (s.pfMay q = false ∨ 304 ≤ n → exec (.hmkPcCfgWrite q n v) s = .next s) ∧
    (s.pfMay q = true → n < 304 → ∃ t, exec (.hmkPcCfgWrite q n v) s = .next t ∧
      t.getF HMK_PC_CFG.EN n = bits v.toNat 0 1 ∧ t.getF HMK_PC_CFG.SAMPLE n = bits v.toNat 1 1 ∧
      t.getF HMK_PC_CFG.ADDR_EN n = bits v.toNat 2 1 ∧ t.getF HMK_PC_CFG.EVT n = bits v.toNat 3 8 ∧
      t.getF HMK_PC_CFG.CLASS n = bits v.toNat 11 8 ∧ t.getF HMK_PC_CFG.FUNC n = bits v.toNat 19 6 ∧
      t.getF HMK_PC_CFG.SRC_KIND n = bits v.toNat 25 2 ∧ t.getF HMK_PC_CFG.OWNER n = bits v.toNat 27 5 ∧
      t.perfValue n = s.perfValue n ∧
      (bit v.toNat 0 = true → t.perfCfgOk n = false → t.isF HMK_HIST.FILT_ERR = true) ∧
      ∀ k, k < 304 → k ≠ n → t.getF HMK_PC_CFG.EVT k = s.getF HMK_PC_CFG.EVT k)) ∧
  (∀ (n fc : Nat) (b : Bytes) (d : Desc) (rest : List Desc) (s : State),
    (s.lowestRing 4 = none ∨ s.counters.dump = none → exec .dumpWrite s = .next s) ∧
    (s.lowestRing 4 = some n → (s.ring n).fetched = [] → exec .dumpWrite s = .next s) ∧
    (s.lowestRing 4 = some n → s.counters.dump = some (fc, b) → (s.ring n).fetched = [d] → bufOk d = true →
      bufLen d < b.length → (s.ring n).prod ≠ (s.ring n).fetch → exec .dumpWrite s = .next s) ∧
    (s.lowestRing 4 = some n → s.counters.dump = some (fc, b) → (s.ring n).fetched = d :: rest → bufOk d = true →
      b.length ≤ bufLen d ∨ rest ≠ [] ∨ (s.ring n).prod = (s.ring n).fetch →
      ∃ t, exec .dumpWrite s = .next t ∧ (t.ring n).fetched = rest ∧
        Out.bufferWrite n d.idx (b.take (bufLen d)) ∈ t.out.drop s.out.length ∧
        t.counters.dump = (if b.length ≤ bufLen d ∨ rest = [] then none else some (fc, b.drop (bufLen d))) ∧
        (bufLen d < b.length → rest = [] → t.isF HMK_HIST.DUMP_TRUNC = true) ∧
        Out.completion n (s.ring n).cons (hostBytes [dw d.words 6, min (bufLen d) b.length, fc,
          (if bufLen d < b.length ∧ rest = [] then stTrunc else stOk) * 16777216 +
            s.phaseBit n (s.ring n).cons * 2147483648]) ∈ t.out.drop s.out.length)) ∧
  (∀ (n : Nat) (d : Desc) (rest : List Desc) (l : List TraceRec) (s : State),
    (s.lowestRing 5 = none → exec .traceRingWrite s = .next s) ∧
    (s.lowestRing 5 = some n → (s.ring n).fetched = [] → exec .traceRingWrite s = .next s) ∧
    (s.lowestRing 5 = some n → (s.ring n).fetched = d :: rest → bufOk d = true →
      l = recsThatFit (bufLen d) (s.untaken false) →
      (l = [] ∨ s.traceOut = 1 ∨ s.hmkFenced = true → exec .traceRingWrite s = .next s) ∧
      (l ≠ [] → s.traceOut = 0 ∨ s.traceOut = 2 → s.hmkFenced = false →
        ∃ t, exec .traceRingWrite s = .next t ∧ (t.ring n).fetched = rest ∧
          Out.bufferWrite n d.idx (l.flatMap recBytes) ∈ t.out.drop s.out.length ∧
          32 * fifoLevel l ≤ bufLen d ∧ (∃ k, l = (s.untaken false).take k) ∧
          (s.traceOut = 0 → ∃ new, t.hmk.fifo = s.hmk.fifo.drop (s.hmk.toRing + l.length) ++ new)))) ∧
  (∀ (l : List TraceRec) (s : State), l = recsThatFit 1440 (s.untaken true) →
    (s.hmkLanes = false ∨ l = [] → exec .hmkFrameSend s = .next s) ∧
    (s.hmkLanes = true → l ≠ [] → ∃ t, exec .hmkFrameSend s = .next t ∧
      t.out = s.out ++ [.hmkFrame (s.hmk.frameSeq % 2) s.hmk.frameSeq l] ∧ fifoLevel l ≤ 45 ∧
      (∃ k, l = (s.untaken true).take k) ∧ t.hmk.frameSeq = (s.hmk.frameSeq + 1) % 4294967296 ∧
      (s.traceOut = 1 → t.hmk.fifo = s.hmk.fifo.drop (s.hmk.toLanes + l.length)) ∧
      t = { s with hmk := t.hmk, out := t.out })) ∧
  (∀ (cells : List Bool) (s : State),
    (∃ t, exec .idcode s = .next t ∧ t = { s with jtag := t.jtag, out := t.out } ∧ t.jtag.ir = 1 ∧ t.jtag.drive = 0 ∧
      (s.getF GLB_ID.REV = 0 → t.out = s.out ++ [.tdo ((List.range 32).map (fun i => bit 0x051205CB i))])) ∧
    (∃ t, exec (.sample cells) s = .next t ∧ t = { s with jtag := t.jtag, out := s.out ++ [.tdo cells] } ∧
      t.jtag.ir = 2 ∧ t.jtag.drive = 0 ∧ t.jtag.captured = cells) ∧
    (∃ t, exec .bypass s = .next t ∧ t = { s with jtag := t.jtag, out := s.out ++ [.tdo [false]] } ∧
      t.jtag.ir = 0xFF ∧ t.jtag.drive = 0) ∧
    (∃ t, exec (.preload cells) s = .next t ∧ t = { s with jtag := t.jtag } ∧ t.jtag.drive = 0 ∧
      (s.testMode = true → t.jtag.ir = 3 ∧ t.jtag.cells = cells) ∧
      (s.testMode = false → t.jtag.ir = 0xFF ∧ t.jtag.cells = s.jtag.cells)) ∧
    ∀ i ir drive, (i, ir, drive) ∈ [(Instr.extest, 0, 1), (.clamp, 4, 2), (.highz, 5, 3), (.extestPulse, 6, 4),
        (.extestTrain, 7, 5)] →
      ∃ t, exec i s = .next t ∧ t = { s with jtag := t.jtag } ∧ t.jtag.cells = s.jtag.cells ∧
        (s.testMode = true → t.jtag.ir = ir ∧ t.jtag.drive = drive) ∧
        (s.testMode = false → t.jtag.ir = 0xFF ∧ t.jtag.drive = 0))
end

