-- ==== Sys2Proof/Laws/Tab.lean ====
section
/-!
SUPPORT. Laws of the sparse tables: a read after a write gives the value written, a write leaves every other key alone,
and the canonical form is kept.
-/

namespace Sys2Proof.Machine

theorem Tab.get?_set {α : Type} (t : Tab α) (k : Nat) (v : α) (q : Nat) :
    Tab.get? (Tab.set t k v) q = if q = k then some v else Tab.get? t q := by
  induction t with
  | nil => simp [Tab.set, Tab.get?]
  | cons e t ih =>
    obtain ⟨k', v'⟩ := e
    simp only [Tab.set]
    split
    · subst_vars; simp only [Tab.get?]; split <;> rfl
    · split
      · simp only [Tab.get?]
      · simp only [Tab.get?, ih]; split <;> split <;> first | rfl | omega

theorem Tab.getD_set {α : Type} (t : Tab α) (k : Nat) (v : α) (q : Nat) (d : α) :
    Tab.getD (Tab.set t k v) q d = if q = k then v else Tab.getD t q d := by
  by_cases h : q = k <;> simp [Tab.getD, Tab.get?_set, h]

@[simp] theorem Tab.getD_set_same {α : Type} (t : Tab α) (k : Nat) (v d : α) :
    Tab.getD (Tab.set t k v) k d = v := by simp [Tab.getD_set]

theorem Tab.getD_set_other {α : Type} (t : Tab α) {k q : Nat} (v d : α) (h : q ≠ k) :
    Tab.getD (Tab.set t k v) q d = Tab.getD t q d := by simp [Tab.getD_set, h]

theorem Tab.get?_erase {α : Type} (t : Tab α) (k q : Nat) :
    Tab.get? (Tab.erase t k) q = if q = k then none else Tab.get? t q := by
  induction t with
  | nil => simp [Tab.erase, Tab.get?]
  | cons e t ih =>
    obtain ⟨k', v'⟩ := e
    simp only [Tab.erase]
    split
    · subst_vars; simp only [Tab.get?, ih]; split <;> rfl
    · simp only [Tab.get?, ih]; split <;> split <;> first | rfl | omega

theorem Tab.getD_setD {α : Type} [DecidableEq α] (t : Tab α) (k : Nat) (v d : α) (q : Nat) (e : α)
    (h : q = k → e = d) : Tab.getD (Tab.setD t k v d) q e = if q = k then v else Tab.getD t q e := by
  simp only [Tab.setD]
  split
  · by_cases hq : q = k <;> simp_all [Tab.getD, Tab.get?_erase]
  · exact Tab.getD_set t k v q e

theorem Tab.getD_update {α : Type} (t : Tab α) (k : Nat) (d : α) (f : α → α) (q : Nat) :
    Tab.getD (Tab.update t k d f) q d = if q = k then f (Tab.getD t k d) else Tab.getD t q d := by
  simp only [Tab.update, Tab.getD_set]

/-! ### The canonical form -/

/-- Every key listed is above `k`. -/
theorem Tab.rising_cons {α : Type} (k : Nat) (v : α) (t : Tab α) :
    Tab.rising ((k, v) :: t) = true ↔ (∀ e ∈ t, k < e.1) ∧ Tab.rising t = true := by
  induction t generalizing k v with
  | nil => simp [Tab.rising]
  | cons e t ih =>
    obtain ⟨k', v'⟩ := e
    simp only [Tab.rising, Bool.and_eq_true, decide_eq_true_eq, List.mem_cons, forall_eq_or_imp]
    constructor
    · rintro ⟨h, h'⟩
      refine ⟨⟨h, fun e he => ?_⟩, h'⟩
      have := ((ih k' v').1 h').1 e he
      omega
    · rintro ⟨⟨h, -⟩, h'⟩; exact ⟨h, h'⟩

theorem Tab.mem_set {α : Type} (t : Tab α) (k : Nat) (v : α) {e : Nat × α} (h : e ∈ Tab.set t k v) :
    e = (k, v) ∨ e ∈ t := by
  induction t with
  | nil => simpa [Tab.set] using h
  | cons x t ih =>
    obtain ⟨k', v'⟩ := x
    simp only [Tab.set] at h
    split at h
    · rcases List.mem_cons.1 h with h | h
      · exact .inl h
      · exact .inr (List.mem_cons_of_mem _ h)
    · split at h
      · exact List.mem_cons.1 h
      · rcases List.mem_cons.1 h with h | h
        · simp [h]
        · rcases ih h with h | h <;> simp [h]

theorem Tab.mem_erase {α : Type} (t : Tab α) (k : Nat) {e : Nat × α} (h : e ∈ Tab.erase t k) : e ∈ t := by
  induction t with
  | nil => simp [Tab.erase] at h
  | cons x t ih =>
    obtain ⟨k', v'⟩ := x
    simp only [Tab.erase] at h
    split at h
    · exact List.mem_cons_of_mem _ (ih h)
    · rcases List.mem_cons.1 h with h | h
      · simp [h]
      · exact List.mem_cons_of_mem _ (ih h)

theorem Tab.rising_set {α : Type} (t : Tab α) (k : Nat) (v : α) (h : Tab.rising t = true) :
    Tab.rising (Tab.set t k v) = true := by
  induction t with
  | nil => simp [Tab.set, Tab.rising]
  | cons x t ih =>
    obtain ⟨k', v'⟩ := x
    obtain ⟨h1, h2⟩ := (Tab.rising_cons k' v' t).1 h
    simp only [Tab.set]
    split
    · subst_vars; exact (Tab.rising_cons _ _ _).2 ⟨h1, h2⟩
    · split
      · rename_i h3 h4
        refine (Tab.rising_cons _ _ _).2 ⟨fun e he => ?_, h⟩
        rcases List.mem_cons.1 he with he | he
        · subst he; exact h4
        · have := h1 e he; omega
      · rename_i h3 h4
        refine (Tab.rising_cons _ _ _).2 ⟨fun e he => ?_, ih h2⟩
        rcases Tab.mem_set t k v he with he | he
        · subst he; simp only; omega
        · exact h1 e he

theorem Tab.rising_filter {α : Type} (t : Tab α) (p : Nat × α → Bool) (h : Tab.rising t = true) :
    Tab.rising (t.filter p) = true := by
  induction t with
  | nil => simp [Tab.rising]
  | cons x t ih =>
    obtain ⟨k', v'⟩ := x
    obtain ⟨h1, h2⟩ := (Tab.rising_cons k' v' t).1 h
    simp only [List.filter_cons]
    split
    · exact (Tab.rising_cons _ _ _).2 ⟨fun e he => h1 e (List.mem_filter.1 he).1, ih h2⟩
    · exact ih h2

theorem Tab.rising_erase {α : Type} (t : Tab α) (k : Nat) (h : Tab.rising t = true) :
    Tab.rising (Tab.erase t k) = true := by
  induction t with
  | nil => simp [Tab.erase, Tab.rising]
  | cons x t ih =>
    obtain ⟨k', v'⟩ := x
    obtain ⟨h1, h2⟩ := (Tab.rising_cons k' v' t).1 h
    simp only [Tab.erase]
    split
    · exact ih h2
    · exact (Tab.rising_cons _ _ _).2 ⟨fun e he => h1 e (Tab.mem_erase t k he), ih h2⟩

theorem Tab.rising_setD {α : Type} [DecidableEq α] (t : Tab α) (k : Nat) (v d : α) (h : Tab.rising t = true) :
    Tab.rising (Tab.setD t k v d) = true := by
  simp only [Tab.setD]; split
  · exact Tab.rising_erase t k h
  · exact Tab.rising_set t k v h

/-- A property of every value listed survives an update that keeps it. -/
theorem Tab.all_set {α : Type} {P : α → Prop} (t : Tab α) (k : Nat) (v : α) (h : ∀ e ∈ t, P e.2) (hv : P v) :
    ∀ e ∈ Tab.set t k v, P e.2 := by
  intro e he
  rcases Tab.mem_set t k v he with he | he
  · subst he; exact hv
  · exact h e he

theorem Tab.get?_mem {α : Type} (t : Tab α) (k : Nat) (v : α) (h : Tab.get? t k = some v) : (k, v) ∈ t := by
  induction t with
  | nil => simp [Tab.get?] at h
  | cons x t ih =>
    obtain ⟨k', v'⟩ := x
    simp only [Tab.get?] at h
    split at h
    · simp_all
    · exact List.mem_cons_of_mem _ (ih h)

theorem Tab.getD_prop {α : Type} {P : α → Prop} (t : Tab α) (k : Nat) (d : α) (h : ∀ e ∈ t, P e.2) (hd : P d) :
    P (Tab.getD t k d) := by
  simp only [Tab.getD]
  split
  · rename_i v hv; exact h _ (Tab.get?_mem t k v hv)
  · exact hd

end Sys2Proof.Machine
end

