-- ==== Sys2Proof/Laws/Kept.lean ====
section
/-!
SUPPORT. `State.Kept` is kept by composition and by the base operations on State: what no operation of the block undoes,
and which parts of State an operation leaves alone.  The lemmas of Laws/Kept….lean say it of every operation and of every
command's meaning, each with the parts that it may change.
-/

namespace Sys2Proof.Machine

theorem Part.sub_trans {a b l : List Part} (h : ∀ p ∈ b, p ∈ l) (k : ∀ p ∈ a, p ∈ b) : ∀ p ∈ a, p ∈ l :=
  fun p hp => h p (k p hp)

theorem State.keeps_refl (p : Part) (s : State) : State.keeps p s s := by cases p <;> rfl

theorem State.keeps_trans {p : Part} {s t u : State} (h : State.keeps p s t) (k : State.keeps p t u) :
    State.keeps p s u := by
  cases p <;> exact Eq.trans k h

theorem Fuses.Kept.refl (f : Fuses) : f.Kept f := ⟨Nat.le_refl _, rfl, id, id⟩

theorem State.Kept.refl (l : List Part) (s : State) : s.Kept l s :=
  ⟨rfl, ⟨[], by simp⟩, .refl _, id, Nat.le_refl _, id, fun p _ => State.keeps_refl p s⟩

/-- An update of fields that no clause names. -/
theorem State.Kept.same {l : List Part} {s0 s t : State} (h : s0.Kept l s) (hk : ∀ p, p ∉ l → State.keeps p s t)
    (hp : t.pending = s.pending) (ho : t.out = s.out) (hf : t.fuses = s.fuses) (hb : t.flash = s.flash)
    (hn : t.free = s.free) (hr : t.regs = s.regs) (he : t.fences = s.fences) (hi : t.rings = s.rings)
    (hh : t.hmk = s.hmk) (hq : t.epochs = s.epochs) : s0.Kept l t := by
  obtain ⟨h1, h2, h3, h4, h5, h6, h7⟩ := h
  refine ⟨hp ▸ h1, ho ▸ h2, hf ▸ h3, hb ▸ h4, hn ▸ h5, fun hv => ?_, fun p hpl => State.keeps_trans (h7 p hpl) (hk p
    hpl)⟩
  obtain ⟨g1, g2, g3, g4, g5, g6⟩ := h6 hv
  exact ⟨hr ▸ g1, he ▸ g2, hi ▸ g3, hh ▸ g4, hh ▸ g5, hq ▸ g6⟩

/-- A state written out: the fields that a clause names keep their clause, the others are free. -/
theorem State.Kept.lit {l : List Part} {s0 s : State} {regs' : Tab Nat} {latch' : Tab Nat} {boot' : Boot} {flash' :
    Flash} {rings' : Tab Ring} {fns' : Tab Fn} {ports' : Tab Port} {lanes' : Tab Lane} {tables' : Tables} {epochs' :
    Epochs} {tiles' : Tab Tile} {fabric' : Fabric} {acct' : Tab Nat} {pinCfg' : Tab PinCfg} {pinRel' : Tab Int} {pinMsg' :
    Tab Nat} {queues' : Tab EQueue} {pgs' : Tab Pg} {flowRt' : Tab FlowRt} {merges' : Tab Merge} {cuts' : Tab Cut} {time'
    : Time} {phases' : Tab Phase} {tius' : Tab Tiu} {refs' : Tab Ref} {dplls' : Tab Dpll} {plls' : Tab Pll} {outs' : Tab
    Pll} {gens' : Tab Gen} {window' : Window} {fences' : Tab Fence} {fw' : Fw} {quench' : Quench} {pair' : Pair} {temper'
    : Temper} {pwr' : Pwr} {counters' : Counters} {hmk' : Hmk} {jtag' : Jtag} {stalled' : List Stalled}
    (h : s0.Kept l s) (hk : ∀ p, p ∉ l → State.keeps p s (State.mk regs' latch' boot' flash' s.fuses rings' fns'
    ports' lanes' tables' epochs' tiles' fabric' acct' pinCfg' pinRel' pinMsg' queues' pgs' flowRt' merges' cuts' time'
    phases' tius' refs' dplls' plls' outs' gens' window' fences' fw' quench' pair' temper' pwr' counters' hmk' jtag'
    stalled' s.free s.out s.pending))
    (h1 : Tab.rising s.regs = true → Tab.rising regs' = true)
    (h2 : (∀ e ∈ s.fences, e.2.st ≤ 3) → ∀ e ∈ fences', e.2.st ≤ 3)
    (h3 : (∀ e ∈ s.rings, e.2.ok) → ∀ e ∈ rings', e.2.ok)
    (h4 : s.hmk.seq < 256 ∧ s.hmk.frameSeq < 4294967296 → hmk'.seq < 256 ∧ hmk'.frameSeq < 4294967296)
    (h5 : s.epochs.oldest ≤ s.epochs.serial → epochs'.oldest ≤ epochs'.serial)
    (h6 : s.flash.bootable = true → flash'.bootable = true) :
    s0.Kept l (State.mk regs' latch' boot' flash' s.fuses rings' fns' ports' lanes' tables' epochs' tiles' fabric'
    acct' pinCfg' pinRel' pinMsg' queues' pgs' flowRt' merges' cuts' time' phases' tius' refs' dplls' plls' outs' gens'
    window' fences' fw' quench' pair' temper' pwr' counters' hmk' jtag' stalled' s.free s.out s.pending) := by
  obtain ⟨g1, g2, g3, g4, g5, g6, g7⟩ := h
  refine ⟨g1, g2, g3, fun hb => h6 (g4 hb), g5, fun hv => ?_, fun p hpl => State.keeps_trans (g7 p hpl) (hk p hpl)⟩
  obtain ⟨k1, k2, k3, k4, k5, k6⟩ := g6 hv
  exact ⟨h1 k1, h2 k2, h3 k3, (h4 ⟨k4, k5⟩).1, (h4 ⟨k4, k5⟩).2, h5 k6⟩

theorem State.Kept.setFuses {l : List Part} {s0 s : State} (h : s0.Kept l s) {r : Fuses} (hl : ∀ p ∈ [Part.fuses], p ∈ l)
    (hr : s.fuses.Kept r) : s0.Kept l { s with fuses := r } := by
  obtain ⟨h1, h2, h3, h4, h5, h6, h7⟩ := h
  exact ⟨h1, h2, ⟨Nat.le_trans h3.1 hr.1, hr.2.trans h3.2, fun x => hr.3 (h3.3 x), fun x => hr.4 (h3.4 x)⟩, h4, h5,
    fun hv => ⟨(h6 hv).1, (h6 hv).2, (h6 hv).3, (h6 hv).4, (h6 hv).5, (h6 hv).6⟩,
    fun p hp => State.keeps_trans (h7 p hp) (by
      cases p <;> first | rfl | exact absurd (hl _ (by decide)) hp)⟩

/-- A local function whose every value is kept. -/
theorem State.Kept.cutFun {l : List Part} {s0 : State} {α : Type} (x : α → State) {P : Prop}
    (h : (∀ r, s0.Kept l (x r)) → P) (hx : ∀ r, s0.Kept l (x r)) : P := h hx

/-- A local operation on State that keeps. -/
theorem State.Kept.cutMap {l : List Part} {s0 : State} (x : State → State) {P : Prop}
    (h : (∀ t, s0.Kept l t → s0.Kept l (x t)) → P) (hx : ∀ t, s0.Kept l t → s0.Kept l (x t)) : P := h hx

theorem State.Kept.ite {l : List Part} {s0 a b : State} {c : Prop} [Decidable c] (ha : s0.Kept l a) (hb : s0.Kept l b) :
    s0.Kept l (if c then a else b) := by
  split
  · exact ha
  · exact hb

/-- What keeps for every element keeps for a run over a list. -/
theorem State.Kept.foldl {l : List Part} {s0 s : State} {α : Type} (f : State → α → State) (xs : List α)
    (h : s0.Kept l s) (hf : ∀ t a, s0.Kept l t → s0.Kept l (f t a)) : s0.Kept l (xs.foldl f s) := by
  induction xs generalizing s with
  | nil => exact h
  | cons a xs ih => exact ih (hf s a h)

/-- The same over a state paired with a value, state first. -/
theorem State.Kept.foldlFst {l : List Part} {s0 : State} {α β : Type} (f : State × β → α → State × β) (xs : List α)
    (x : State × β) (h : s0.Kept l x.1) (hf : ∀ t a, s0.Kept l t.1 → s0.Kept l (f t a).1) :
    s0.Kept l (xs.foldl f x).1 := by
  induction xs generalizing x with
  | nil => exact h
  | cons a xs ih => exact ih (f x a) (hf x a h)

/-- The same over a state paired with a value, state second. -/
theorem State.Kept.foldlSnd {l : List Part} {s0 : State} {α β : Type} (f : β × State → α → β × State) (xs : List α)
    (x : β × State) (h : s0.Kept l x.2) (hf : ∀ t a, s0.Kept l t.2 → s0.Kept l (f t a).2) :
    s0.Kept l (xs.foldl f x).2 := by
  induction xs generalizing x with
  | nil => exact h
  | cons a xs ih => exact ih (f x a) (hf x a h)

theorem State.setF_kept {l : List Part} {s0 s : State} (f : Fld) (v i : Nat) (hl : ∀ p ∈ [Part.regs], p ∈ l)
    (h : s0.Kept l s) : s0.Kept l (s.setF f v i) :=
  State.Kept.lit h (by intro p hp; cases p <;> first | rfl | exact absurd (hl _ (by decide)) hp) (Tab.rising_setD _ _
    _ _) id id id id id

theorem State.resetF_kept {l : List Part} {s0 s : State} (f : Fld) (hl : ∀ p ∈ [Part.regs], p ∈ l)
    (h : s0.Kept l s) : s0.Kept l (s.resetF f) :=
  State.Kept.lit h (by intro p hp; cases p <;> first | rfl | exact absurd (hl _ (by decide)) hp) (Tab.rising_filter _
    _) id id id id id

theorem State.emit_kept {l : List Part} {s0 s : State} (o : Out) (hl : ∀ p ∈ [Part.out], p ∈ l) (h : s0.Kept l s) :
    s0.Kept l (s.emit o) := by
  obtain ⟨h1, ⟨m, h2⟩, h3, h4, h5, h6, h7⟩ := h
  refine ⟨h1, ⟨m ++ [o], by simp [State.emit, h2]⟩, h3, h4, h5, fun hv => ?_,
    fun p hp => State.keeps_trans (h7 p hp) (by cases p <;> first | rfl | exact absurd (hl _ (by decide)) hp)⟩
  exact ⟨(h6 hv).1, (h6 hv).2, (h6 hv).3, (h6 hv).4, (h6 hv).5, (h6 hv).6⟩

/-- Free values drawn only grow in number. -/
theorem State.Kept.drawn {l : List Part} {s0 s : State} (h : s0.Kept l s) {n : Nat} (hl : ∀ p ∈ [Part.free], p ∈ l)
    (hn : s.free ≤ n) : s0.Kept l { s with free := n } := by
  obtain ⟨h1, h2, h3, h4, h5, h6, h7⟩ := h
  exact ⟨h1, h2, h3, h4, Nat.le_trans h5 hn,
    fun hv => ⟨(h6 hv).1, (h6 hv).2, (h6 hv).3, (h6 hv).4, (h6 hv).5, (h6 hv).6⟩,
    fun p hp => State.keeps_trans (h7 p hp) (by cases p <;> first | rfl | exact absurd (hl _ (by decide)) hp)⟩

theorem State.draw_kept {l : List Part} {s0 s : State} (hl : ∀ p ∈ [Part.free], p ∈ l) (h : s0.Kept l s) :
    s0.Kept l s.draw.2 := h.drawn hl (Nat.le_succ _)
theorem State.drawInt_kept {l : List Part} {s0 s : State} (hl : ∀ p ∈ [Part.free], p ∈ l) (h : s0.Kept l s) :
    s0.Kept l s.drawInt.2 := h.drawn hl (Nat.le_succ _)

theorem Ring.ok_default : ({} : Ring).ok := by unfold Ring.ok; decide

theorem State.upRing_kept {l : List Part} {s0 s : State} (n : Nat) (f : Ring → Ring) (hl : ∀ p ∈ [Part.rings], p ∈ l)
    (h : s0.Kept l s) (hf : ∀ r, r.ok → (f r).ok) : s0.Kept l (s.upRing n f) :=
  State.Kept.lit h (by intro p hp; cases p <;> first | rfl | exact absurd (hl _ (by decide)) hp) id id (fun hv =>
    Tab.all_set (P := Ring.ok) _ _ _ hv
    (hf _ (Tab.getD_prop (P := Ring.ok) _ _ _ hv Ring.ok_default))) id id id

theorem State.upFence_kept {l : List Part} {s0 s : State} (n : Nat) (f : Fence → Fence)
    (hl : ∀ p ∈ [Part.fences], p ∈ l) (h : s0.Kept l s) (hf : ∀ x, x.st ≤ 3 → (f x).st ≤ 3) :
    s0.Kept l (s.upFence n f) :=
  State.Kept.lit h (by intro p hp; cases p <;> first | rfl | exact absurd (hl _ (by decide)) hp) id (fun hv =>
    Tab.all_set (P := fun x : Fence => x.st ≤ 3) _ _ _ hv
    (hf _ (Tab.getD_prop (P := fun x : Fence => x.st ≤ 3) _ _ _ hv (by decide)))) id id id id

theorem State.upFn_kept {l : List Part} {s0 s : State} (n : Nat) (f : Fn → Fn) (hl : ∀ p ∈ [Part.fns], p ∈ l)
    (h : s0.Kept l s) : s0.Kept l (s.upFn n f) :=
  State.Kept.lit h (by intro p hp; cases p <;> first | rfl | exact absurd (hl _ (by decide)) hp) id id id id id id
theorem State.upPort_kept {l : List Part} {s0 s : State} (n : Nat) (f : Port → Port) (hl : ∀ p ∈ [Part.ports], p ∈ l)
    (h : s0.Kept l s) : s0.Kept l (s.upPort n f) :=
  State.Kept.lit h (by intro p hp; cases p <;> first | rfl | exact absurd (hl _ (by decide)) hp) id id id id id id
theorem State.upLane_kept {l : List Part} {s0 s : State} (n : Nat) (f : Lane → Lane) (hl : ∀ p ∈ [Part.lanes], p ∈ l)
    (h : s0.Kept l s) : s0.Kept l (s.upLane n f) :=
  State.Kept.lit h (by intro p hp; cases p <;> first | rfl | exact absurd (hl _ (by decide)) hp) id id id id id id
theorem State.upTile_kept {l : List Part} {s0 s : State} (n : Nat) (f : Tile → Tile) (hl : ∀ p ∈ [Part.tiles], p ∈ l)
    (h : s0.Kept l s) : s0.Kept l (s.upTile n f) :=
  State.Kept.lit h (by intro p hp; cases p <;> first | rfl | exact absurd (hl _ (by decide)) hp) id id id id id id
theorem State.upQueue_kept {l : List Part} {s0 s : State} (n : Nat) (f : EQueue → EQueue) (hl : ∀ p ∈ [Part.queues], p
    ∈ l)
    (h : s0.Kept l s) : s0.Kept l (s.upQueue n f) :=
  State.Kept.lit h (by intro p hp; cases p <;> first | rfl | exact absurd (hl _ (by decide)) hp) id id id id id id
theorem State.upFlow_kept {l : List Part} {s0 s : State} (n : Nat) (f : FlowRt → FlowRt) (hl : ∀ p ∈ [Part.flowRt], p
    ∈ l)
    (h : s0.Kept l s) : s0.Kept l (s.upFlow n f) :=
  State.Kept.lit h (by intro p hp; cases p <;> first | rfl | exact absurd (hl _ (by decide)) hp) id id id id id id
theorem State.upMerge_kept {l : List Part} {s0 s : State} (n : Nat) (f : Merge → Merge) (hl : ∀ p ∈ [Part.merges], p ∈ l)
    (h : s0.Kept l s) : s0.Kept l (s.upMerge n f) :=
  State.Kept.lit h (by intro p hp; cases p <;> first | rfl | exact absurd (hl _ (by decide)) hp) id id id id id id
theorem State.upCut_kept {l : List Part} {s0 s : State} (n : Nat) (f : Cut → Cut) (hl : ∀ p ∈ [Part.cuts], p ∈ l)
    (h : s0.Kept l s) : s0.Kept l (s.upCut n f) :=
  State.Kept.lit h (by intro p hp; cases p <;> first | rfl | exact absurd (hl _ (by decide)) hp) id id id id id id
theorem State.upPhase_kept {l : List Part} {s0 s : State} (n : Nat) (f : Phase → Phase) (hl : ∀ p ∈ [Part.phases], p ∈ l)
    (h : s0.Kept l s) : s0.Kept l (s.upPhase n f) :=
  State.Kept.lit h (by intro p hp; cases p <;> first | rfl | exact absurd (hl _ (by decide)) hp) id id id id id id
theorem State.upTiu_kept {l : List Part} {s0 s : State} (n : Nat) (f : Tiu → Tiu) (hl : ∀ p ∈ [Part.tius], p ∈ l)
    (h : s0.Kept l s) : s0.Kept l (s.upTiu n f) :=
  State.Kept.lit h (by intro p hp; cases p <;> first | rfl | exact absurd (hl _ (by decide)) hp) id id id id id id
theorem State.upRef_kept {l : List Part} {s0 s : State} (n : Nat) (f : Ref → Ref) (hl : ∀ p ∈ [Part.refs], p ∈ l)
    (h : s0.Kept l s) : s0.Kept l (s.upRef n f) :=
  State.Kept.lit h (by intro p hp; cases p <;> first | rfl | exact absurd (hl _ (by decide)) hp) id id id id id id
theorem State.upDpll_kept {l : List Part} {s0 s : State} (n : Nat) (f : Dpll → Dpll) (hl : ∀ p ∈ [Part.dplls], p ∈ l)
    (h : s0.Kept l s) : s0.Kept l (s.upDpll n f) :=
  State.Kept.lit h (by intro p hp; cases p <;> first | rfl | exact absurd (hl _ (by decide)) hp) id id id id id id
theorem State.upPll_kept {l : List Part} {s0 s : State} (n : Nat) (f : Pll → Pll) (hl : ∀ p ∈ [Part.plls], p ∈ l)
    (h : s0.Kept l s) : s0.Kept l (s.upPll n f) :=
  State.Kept.lit h (by intro p hp; cases p <;> first | rfl | exact absurd (hl _ (by decide)) hp) id id id id id id
theorem State.upOut_kept {l : List Part} {s0 s : State} (n : Nat) (f : Pll → Pll) (hl : ∀ p ∈ [Part.outs], p ∈ l)
    (h : s0.Kept l s) : s0.Kept l (s.upOut n f) :=
  State.Kept.lit h (by intro p hp; cases p <;> first | rfl | exact absurd (hl _ (by decide)) hp) id id id id id id
theorem State.upGen_kept {l : List Part} {s0 s : State} (n : Nat) (f : Gen → Gen) (hl : ∀ p ∈ [Part.gens], p ∈ l)
    (h : s0.Kept l s) : s0.Kept l (s.upGen n f) :=
  State.Kept.lit h (by intro p hp; cases p <;> first | rfl | exact absurd (hl _ (by decide)) hp) id id id id id id

end Sys2Proof.Machine
end

