-- ==== Sys2Proof/Laws/Raised.lean ====
section
/-!
SUPPORT. The register fields that reporting and raising a fault may change, and that they change no others (`State.Raised`),
once for each operation that raising a fault goes through.
-/

set_option linter.all false
set_option linter.unusedTactic false
set_option linter.unreachableTactic false

namespace Sys2Proof.Machine

theorem firstFields_sub : ∀ x ∈ firstFields, x ∈ faultFields := by decide

/-- A latched fault is one of `latched`, and the other way about. -/
theorem State.latched_mem (u : State) {id : Nat} (h : (u.faultSt id).latched = true) : u.latched ≠ [] := by
  unfold State.faultSt State.latched at *
  intro e
  rw [List.filter_eq_nil_iff] at e
  cases hg : Tab.get? u.quench.faults id with
  | none => simp [Tab.getD, hg] at h
  | some x =>
    have hm : (id, x) ∈ u.quench.faults := Tab.get?_mem _ _ _ hg
    have := e _ hm
    simp [Tab.getD, hg] at h
    exact this h

theorem State.Raised.refl (s : State) : s.Raised s := ⟨fun _ _ _ => rfl, fun _ _ _ _ => rfl, fun _ h => ⟨h, Nat.le_refl _⟩, fun _ h => h, ⟨rfl, fun h => h⟩, ⟨rfl, rfl⟩, rfl⟩

/-- A latched fault stays one. -/
theorem State.Raised.latched_ne {s t : State} (h : s.Raised t) (he : ∃ id, (s.faultSt id).latched = true) :
    ∃ id, (t.faultSt id).latched = true := he.imp fun id hi => (h.latched id hi).1

theorem State.Raised.trans {s t u : State} (h : s.Raised t) (k : t.Raised u) : s.Raised u :=
  ⟨fun f hf i => (k.regs f hf i).trans (h.regs f hf i),
    fun f hf i he => (k.first f hf i (h.latched_ne he)).trans (h.first f hf i he),
    fun id hi => ⟨(k.latched id (h.latched id hi).1).1, Nat.le_trans (h.latched id hi).2 (k.latched id (h.latched id hi).1).2⟩,
    fun d hd => k.fenced d (h.fenced d hd),
    by have h1 := h.time; have k1 := k.time; exact ⟨by rw [k1.1, h1.1], fun e => k1.2 (h1.2 e)⟩,
    ⟨k.guard.1.trans h.guard.1, k.guard.2.trans h.guard.2⟩,
    by rw [k.epochs, h.epochs]⟩

/-- A state written out with the same registers. -/
theorem State.Raised.lit {s0 s : State} {latch' : Tab Nat} {boot' : Boot} {flash' : Flash} {fuses' : Fuses} {rings' : Tab Ring} {fns' : Tab Fn} {ports' : Tab Port} {lanes' : Tab Lane} {tables' : Tables} {epochs' : Epochs} {tiles' : Tab Tile} {fabric' : Fabric} {acct' : Tab Nat} {pinCfg' : Tab PinCfg} {pinRel' : Tab Int} {pinMsg' : Tab Nat} {queues' : Tab EQueue} {pgs' : Tab Pg} {flowRt' : Tab FlowRt} {merges' : Tab Merge} {cuts' : Tab Cut} {time' : Time} {phases' : Tab Phase} {tius' : Tab Tiu} {refs' : Tab Ref} {dplls' : Tab Dpll} {plls' : Tab Pll} {outs' : Tab Pll} {gens' : Tab Gen} {window' : Window} {fences' : Tab Fence} {fw' : Fw} {quench' : Quench} {pair' : Pair} {temper' : Temper} {pwr' : Pwr} {counters' : Counters} {hmk' : Hmk} {jtag' : Jtag} {stalled' : List Stalled} {free' : Nat} {out' : List Out} {pending' : List Instr}
    (h : s0.Raised s) (hq : ∀ id, (Tab.getD s.quench.faults id {}).latched = true →
      (Tab.getD quench'.faults id {}).latched = true ∧
      (Tab.getD s.quench.faults id {}).applied ≤ (Tab.getD quench'.faults id {}).applied)
    (hf : ∀ d, (Tab.getD s.fences d {}).st ≠ 0 → (Tab.getD fences' d {}).st ≠ 0)
    (ht : time' = { s.time with disc := time'.disc } ∧ (s.time.disc = none → time'.disc = none))
    (hg : quench'.bound = s.quench.bound ∧ quench'.allow = s.quench.allow)
    (he : epochs' = { s.epochs with count := epochs'.count }) :
    s0.Raised (State.mk s.regs latch' boot' flash' fuses' rings' fns' ports' lanes' tables' epochs' tiles' fabric' acct' pinCfg' pinRel' pinMsg' queues' pgs' flowRt' merges' cuts' time' phases' tius' refs' dplls' plls' outs' gens' window' fences' fw' quench' pair' temper' pwr' counters' hmk' jtag' stalled' free' out' pending') :=
  ⟨fun f hf i => h.regs f hf i, fun f hf i he => h.first f hf i he,
    fun id hi => ⟨(hq id (h.latched id hi).1).1, Nat.le_trans (h.latched id hi).2 (hq id (h.latched id hi).1).2⟩,
    fun d hd => hf d (h.fenced d hd),
    by have h1 := h.time; exact ⟨by rw [ht.1, h1.1], fun e => ht.2 (h1.2 e)⟩,
    ⟨hg.1.trans h.guard.1, hg.2.trans h.guard.2⟩,
    by rw [he, h.epochs]⟩

theorem State.Raised.foldl {s0 s : State} {α : Type} (f : State → α → State) (xs : List α)
    (h : s0.Raised s) (hf : ∀ t a, s0.Raised t → s0.Raised (f t a)) : s0.Raised (xs.foldl f s) := by
  induction xs generalizing s with
  | nil => exact h
  | cons a xs ih => exact ih (hf s a h)

theorem State.Raised.foldlFst {s0 : State} {α β : Type} (f : State × β → α → State × β) (xs : List α)
    (x : State × β) (h : s0.Raised x.1) (hf : ∀ t a, s0.Raised t.1 → s0.Raised (f t a).1) :
    s0.Raised (xs.foldl f x).1 := by
  induction xs generalizing x with
  | nil => exact h
  | cons a xs ih => exact ih _ (hf x a h)

theorem State.Raised.foldlSnd {s0 : State} {α β : Type} (f : β × State → α → β × State) (xs : List α)
    (x : β × State) (h : s0.Raised x.2) (hf : ∀ t a, s0.Raised t.2 → s0.Raised (f t a).2) :
    s0.Raised (xs.foldl f x).2 := by
  induction xs generalizing x with
  | nil => exact h
  | cons a xs ih => exact ih _ (hf x a h)

theorem State.Raised.cutMap {s0 : State} {P : Prop} (x : State → State)
    (k : (∀ t, s0.Raised t → s0.Raised (x t)) → P) (hx : ∀ t, s0.Raised t → s0.Raised (x t)) : P := k hx

theorem State.Raised.cutFun {s0 : State} {P : Prop} {α : Type} (x : α → State)
    (k : (∀ a, s0.Raised (x a)) → P) (hx : ∀ a, s0.Raised (x a)) : P := k hx

/-- `faultFields` but for QCH_FIRST, which only the first fault writes. -/
def movedFields : List Nat := faultFields.filter (fun x => !firstFields.contains x)

theorem State.setF_raised {s0 s : State} (f : Fld) (v i : Nat) (hf : f.id ∈ movedFields) (h : s0.Raised s) :
    s0.Raised (s.setF f v i) := by
  have key : ∀ g : Fld, g.id ≠ f.id → ∀ j, (s.setF f v i).getF g j = s.getF g j := by
    intro g hid j
    have hk : g.id * 65536 + j % 65536 ≠ f.id * 65536 + i % 65536 := by omega
    simp [State.getF, State.setF, Tab.getD_setD, hk]
  simp only [movedFields, List.mem_filter] at hf
  refine ⟨fun g hg j => (key g (fun e => hg (e ▸ hf.1)) j).trans (h.regs g hg j),
    fun g hg j he => (key g (fun e => ?_) j).trans (h.first g hg j he), h.latched, h.fenced, h.time, h.guard, h.epochs⟩
  rw [e] at hg
  simp_all

/-- QCH_FIRST is written while nothing is latched. -/
theorem State.setFirst_raised {s0 s : State} (f : Fld) (v i : Nat) (hf : f.id ∈ firstFields) (he : ¬ ∃ id, (s0.faultSt id).latched = true)
    (h : s0.Raised s) : s0.Raised (s.setF f v i) := by
  refine ⟨fun g hg j => ?_, fun g hg j hn => absurd hn he, h.latched, h.fenced, h.time, h.guard, h.epochs⟩
  have hid : g.id ≠ f.id := fun e => hg (e ▸ firstFields_sub _ hf)
  refine Eq.trans ?_ (h.regs g hg j)
  have hk : g.id * 65536 + j % 65536 ≠ f.id * 65536 + i % 65536 := by omega
  simp [State.getF, State.setF, Tab.getD_setD, hk]

theorem State.emit_raised {s0 s : State} (o : Out) (h : s0.Raised s) : s0.Raised (s.emit o) := ⟨h.regs, h.first, h.latched, h.fenced, h.time, h.guard, h.epochs⟩
theorem State.draw_raised {s0 s : State} (h : s0.Raised s) : s0.Raised s.draw.2 := ⟨h.regs, h.first, h.latched, h.fenced, h.time, h.guard, h.epochs⟩
theorem State.drawInt_raised {s0 s : State} (h : s0.Raised s) : s0.Raised s.drawInt.2 := ⟨h.regs, h.first, h.latched, h.fenced, h.time, h.guard, h.epochs⟩
theorem State.upRing_raised {s0 s : State} (n : Nat) (f : Ring → Ring) (h : s0.Raised s) : s0.Raised (s.upRing n f) := ⟨h.regs, h.first, h.latched, h.fenced, h.time, h.guard, h.epochs⟩
theorem State.upFence_raised {s0 s : State} (n : Nat) (f : Fence → Fence) (hf : ∀ x, (f x).st ≠ 0) (h : s0.Raised s) :
    s0.Raised (s.upFence n f) := by
  refine ⟨h.regs, h.first, h.latched, fun d hd => ?_, h.time, h.guard, h.epochs⟩
  have := h.fenced d hd
  simp only [State.fence, State.upFence, Tab.getD_update] at this ⊢
  split
  · exact hf _
  · exact this
theorem State.upFn_raised {s0 s : State} (n : Nat) (f : Fn → Fn) (h : s0.Raised s) : s0.Raised (s.upFn n f) := ⟨h.regs, h.first, h.latched, h.fenced, h.time, h.guard, h.epochs⟩
theorem State.upPort_raised {s0 s : State} (n : Nat) (f : Port → Port) (h : s0.Raised s) : s0.Raised (s.upPort n f) := ⟨h.regs, h.first, h.latched, h.fenced, h.time, h.guard, h.epochs⟩
theorem State.upLane_raised {s0 s : State} (n : Nat) (f : Lane → Lane) (h : s0.Raised s) : s0.Raised (s.upLane n f) := ⟨h.regs, h.first, h.latched, h.fenced, h.time, h.guard, h.epochs⟩
theorem State.upTile_raised {s0 s : State} (n : Nat) (f : Tile → Tile) (h : s0.Raised s) : s0.Raised (s.upTile n f) := ⟨h.regs, h.first, h.latched, h.fenced, h.time, h.guard, h.epochs⟩
theorem State.upQueue_raised {s0 s : State} (n : Nat) (f : EQueue → EQueue) (h : s0.Raised s) : s0.Raised (s.upQueue n f) := ⟨h.regs, h.first, h.latched, h.fenced, h.time, h.guard, h.epochs⟩
theorem State.upPhase_raised {s0 s : State} (n : Nat) (f : Phase → Phase) (h : s0.Raised s) : s0.Raised (s.upPhase n f) := ⟨h.regs, h.first, h.latched, h.fenced, h.time, h.guard, h.epochs⟩
theorem State.upRef_raised {s0 s : State} (n : Nat) (f : Ref → Ref) (h : s0.Raised s) : s0.Raised (s.upRef n f) := ⟨h.regs, h.first, h.latched, h.fenced, h.time, h.guard, h.epochs⟩
theorem State.orF_raised {s0 s : State} (f : Fld) (v i : Nat) (hf : f.id ∈ movedFields) (h : s0.Raised s) :
    s0.Raised (s.orF f v i) := State.setF_raised _ _ _ hf h
theorem State.clrF_raised {s0 s : State} (f : Fld) (v i : Nat) (hf : f.id ∈ movedFields) (h : s0.Raised s) :
    s0.Raised (s.clrF f v i) := State.setF_raised _ _ _ hf h
theorem State.addF_raised {s0 s : State} (f : Fld) (v i : Nat) (hf : f.id ∈ movedFields) (h : s0.Raised s) :
    s0.Raised (s.addF f v i) := State.setF_raised _ _ _ hf h

theorem State.setCounter_raised {s0 s : State} (g : Nat) (k : Nat) (v : Nat) (h : s0.Raised s) : s0.Raised (State.setCounter s g k v) := by
  unfold State.setCounter
  repeat' (first
    | with_reducible assumption | (with_reducible refine (?_ : _ ∈ movedFields); decide)
    | (with_reducible refine (?_ : s0.Raised _); fail_if_no_progress extract_lets +onlyGivenNames y
       clear_value (hy : y = _))
    | with_reducible exact fun hv => hv | with_reducible refine State.Raised.lit ?_ ?_ ?_ ?_ ?_ ?_ | rfl | (subst_vars; rfl) | exact ⟨rfl, rfl⟩ | (subst_vars; exact ⟨rfl, rfl⟩) | exact fun _ h => ⟨h, Nat.le_refl _⟩ | exact fun _ h => h | exact ⟨rfl, fun h => h⟩ | exact fun _ => Nat.one_ne_zero | (subst_vars; exact ⟨rfl, fun h => by simp_all⟩) | (intro i hi; simp only [Tab.getD_set] at hi ⊢; split <;> simp_all [State.faultSt] <;> split <;> simp_all <;> omega) | (intro i hi; simp only [Tab.getD_set] at hi ⊢; split <;> simp_all [State.faultSt]))

theorem State.countS_raised {s0 s : State} (g : Nat) (k : Nat) (n : Nat) (h : s0.Raised s) : s0.Raised (State.countS s g k n) := by
  unfold State.countS
  repeat' (first
    | with_reducible assumption | (with_reducible refine (?_ : _ ∈ movedFields); decide)
    | (with_reducible refine (?_ : s0.Raised _); fail_if_no_progress extract_lets +onlyGivenNames x
       refine (fun (_ : s0.Raised x) => ?_) ?_
       (on_goal 1 => clear_value x); (on_goal 2 => unfold x; clear x))
    | (with_reducible refine (?_ : s0.Raised _); fail_if_no_progress extract_lets +onlyGivenNames y
       clear_value (hy : y = _))
    | with_reducible apply State.setCounter_raised | with_reducible apply State.orF_raised | split)

theorem State.pushRec_raised {s0 s : State} (typ : Nat) (src : Nat) (dws : List Word) (h : s0.Raised s) : s0.Raised (State.pushRec s typ src dws) := by
  unfold State.pushRec
  repeat' (first
    | with_reducible assumption | (with_reducible refine (?_ : _ ∈ movedFields); decide)
    | (with_reducible refine (?_ : s0.Raised _); fail_if_no_progress extract_lets +onlyGivenNames x
       refine (fun (_ : s0.Raised x) => ?_) ?_
       (on_goal 1 => clear_value x); (on_goal 2 => unfold x; clear x))
    | (with_reducible refine (?_ : s0.Raised _); fail_if_no_progress extract_lets +onlyGivenNames y
       clear_value (hy : y = _))
    | with_reducible exact fun hv => hv
    | (intro hv; first | exact hv | (subst_vars; first | exact hv | omega))
    | with_reducible refine State.Raised.lit ?_ ?_ ?_ ?_ ?_ ?_ | rfl | (subst_vars; rfl) | exact ⟨rfl, rfl⟩ | (subst_vars; exact ⟨rfl, rfl⟩) | exact fun _ h => ⟨h, Nat.le_refl _⟩ | exact fun _ h => h | exact ⟨rfl, fun h => h⟩ | exact fun _ => Nat.one_ne_zero | (subst_vars; exact ⟨rfl, fun h => by simp_all⟩) | (intro i hi; simp only [Tab.getD_set] at hi ⊢; split <;> simp_all [State.faultSt] <;> split <;> simp_all <;> omega) | (intro i hi; simp only [Tab.getD_set] at hi ⊢; split <;> simp_all [State.faultSt]))

theorem State.pushSync_raised {s0 s : State}  (h : s0.Raised s) : s0.Raised (State.pushSync s) := by
  unfold State.pushSync
  repeat' (first
    | with_reducible assumption | (with_reducible refine (?_ : _ ∈ movedFields); decide)
    | (with_reducible refine (?_ : s0.Raised _); fail_if_no_progress extract_lets +onlyGivenNames x
       refine (fun (_ : s0.Raised x) => ?_) ?_
       (on_goal 1 => clear_value x); (on_goal 2 => unfold x; clear x))
    | (with_reducible refine (?_ : s0.Raised _); fail_if_no_progress extract_lets +onlyGivenNames y
       clear_value (hy : y = _))
    | with_reducible apply State.pushRec_raised
    | with_reducible exact fun hv => hv
    | (intro hv; first | exact hv | (subst_vars; first | exact hv | omega))
    | with_reducible refine State.Raised.lit ?_ ?_ ?_ ?_ ?_ ?_ | rfl | (subst_vars; rfl) | exact ⟨rfl, rfl⟩ | (subst_vars; exact ⟨rfl, rfl⟩) | exact fun _ h => ⟨h, Nat.le_refl _⟩ | exact fun _ h => h | exact ⟨rfl, fun h => h⟩ | exact fun _ => Nat.one_ne_zero | (subst_vars; exact ⟨rfl, fun h => by simp_all⟩) | (intro i hi; simp only [Tab.getD_set] at hi ⊢; split <;> simp_all [State.faultSt] <;> split <;> simp_all <;> omega) | (intro i hi; simp only [Tab.getD_set] at hi ⊢; split <;> simp_all [State.faultSt]))

theorem State.trace_raised {s0 s : State} (typ : Nat) (src : Nat) (dws : List Word) (h : s0.Raised s) : s0.Raised (State.trace s typ src dws) := by
  unfold State.trace
  repeat' (first
    | with_reducible assumption | (with_reducible refine (?_ : _ ∈ movedFields); decide)
    | (with_reducible refine (?_ : s0.Raised _); fail_if_no_progress extract_lets +onlyGivenNames x
       refine (fun (_ : s0.Raised x) => ?_) ?_
       (on_goal 1 => clear_value x); (on_goal 2 => unfold x; clear x))
    | (with_reducible refine (?_ : s0.Raised _); fail_if_no_progress extract_lets +onlyGivenNames y
       clear_value (hy : y = _))
    | with_reducible apply State.orF_raised | with_reducible apply State.addF_raised
    | with_reducible apply State.pushRec_raised | with_reducible apply State.pushSync_raised
    | with_reducible exact fun hv => hv
    | (intro hv; first | exact hv | (subst_vars; first | exact hv | omega)) | split
    | with_reducible refine State.Raised.lit ?_ ?_ ?_ ?_ ?_ ?_ | rfl | (subst_vars; rfl) | exact ⟨rfl, rfl⟩ | (subst_vars; exact ⟨rfl, rfl⟩) | exact fun _ h => ⟨h, Nat.le_refl _⟩ | exact fun _ h => h | exact ⟨rfl, fun h => h⟩ | exact fun _ => Nat.one_ne_zero | (subst_vars; exact ⟨rfl, fun h => by simp_all⟩) | (intro i hi; simp only [Tab.getD_set] at hi ⊢; split <;> simp_all [State.faultSt] <;> split <;> simp_all <;> omega) | (intro i hi; simp only [Tab.getD_set] at hi ⊢; split <;> simp_all [State.faultSt]))

theorem State.setPerf_raised {s0 s : State} (n : Nat) (v : Nat) (h : s0.Raised s) : s0.Raised (State.setPerf s n v) := by
  unfold State.setPerf
  repeat' (first
    | with_reducible assumption | (with_reducible refine (?_ : _ ∈ movedFields); decide)
    | (with_reducible refine (?_ : s0.Raised _); fail_if_no_progress extract_lets +onlyGivenNames y
       clear_value (hy : y = _))
    | with_reducible apply State.setF_raised
    | with_reducible exact fun hv => hv | with_reducible refine State.Raised.lit ?_ ?_ ?_ ?_ ?_ ?_ | rfl | (subst_vars; rfl) | exact ⟨rfl, rfl⟩ | (subst_vars; exact ⟨rfl, rfl⟩) | exact fun _ h => ⟨h, Nat.le_refl _⟩ | exact fun _ h => h | exact ⟨rfl, fun h => h⟩ | exact fun _ => Nat.one_ne_zero | (subst_vars; exact ⟨rfl, fun h => by simp_all⟩) | (intro i hi; simp only [Tab.getD_set] at hi ⊢; split <;> simp_all [State.faultSt] <;> split <;> simp_all <;> omega) | (intro i hi; simp only [Tab.getD_set] at hi ⊢; split <;> simp_all [State.faultSt]))

theorem State.perfWrap_raised {s0 s : State} (n : Nat) (pc : Nat) (h : s0.Raised s) : s0.Raised (State.perfWrap s n pc) := by
  unfold State.perfWrap
  repeat' (first
    | with_reducible assumption | (with_reducible refine (?_ : _ ∈ movedFields); decide)
    | (with_reducible refine (?_ : s0.Raised _); fail_if_no_progress extract_lets +onlyGivenNames x
       refine (fun (_ : s0.Raised x) => ?_) ?_
       (on_goal 1 => clear_value x); (on_goal 2 => unfold x; clear x))
    | (with_reducible refine (?_ : s0.Raised _); fail_if_no_progress extract_lets +onlyGivenNames y
       clear_value (hy : y = _))
    | with_reducible apply State.orF_raised | with_reducible apply State.setF_raised
    | with_reducible apply State.setPerf_raised | with_reducible apply State.trace_raised | split)

theorem State.perf_raised {s0 s : State} (tile : Nat) (e : PerfEvt) (h : s0.Raised s) : s0.Raised (State.perf s tile e) := by
  unfold State.perf
  repeat' (first
    | with_reducible assumption | (with_reducible refine (?_ : _ ∈ movedFields); decide)
    | with_reducible apply State.perfWrap_raised | with_reducible apply State.setPerf_raised
    | (intro t a ht; with_reducible refine (?_ : s0.Raised _)) | with_reducible apply State.Raised.foldl
    | split | dsimp -zeta only)

theorem State.dmaWrite_raised {s0 s : State} (f : Nat) (addr : Nat) (h : s0.Raised s) : s0.Raised (State.dmaWrite s f addr) := by
  unfold State.dmaWrite
  repeat' (first
    | with_reducible assumption | (with_reducible refine (?_ : _ ∈ movedFields); decide)
    | with_reducible apply State.perf_raised)

theorem State.msix_raised {s0 s : State} (f : Nat) (v : Nat) (h : s0.Raised s) : s0.Raised (State.msix s f v) := by
  unfold State.msix
  repeat' (first
    | with_reducible assumption | (with_reducible refine (?_ : _ ∈ movedFields); decide)
    | (with_reducible refine (?_ : s0.Raised _); fail_if_no_progress extract_lets +onlyGivenNames y
       clear_value (hy : y = _))
    | with_reducible apply State.upFn_raised | with_reducible apply State.perf_raised
    | with_reducible apply State.emit_raised
    | with_reducible exact fun hv => hv | split | dsimp -zeta only
    | with_reducible refine State.Raised.lit ?_ ?_ ?_ ?_ ?_ ?_ | rfl | (subst_vars; rfl) | exact ⟨rfl, rfl⟩ | (subst_vars; exact ⟨rfl, rfl⟩) | exact fun _ h => ⟨h, Nat.le_refl _⟩ | exact fun _ h => h | exact ⟨rfl, fun h => h⟩ | exact fun _ => Nat.one_ne_zero | (subst_vars; exact ⟨rfl, fun h => by simp_all⟩) | (intro i hi; simp only [Tab.getD_set] at hi ⊢; split <;> simp_all [State.faultSt] <;> split <;> simp_all <;> omega) | (intro i hi; simp only [Tab.getD_set] at hi ⊢; split <;> simp_all [State.faultSt]))

theorem State.ringInterrupt_raised {s0 s : State} (n : Nat) (h : s0.Raised s) : s0.Raised (State.ringInterrupt s n) := by
  unfold State.ringInterrupt
  repeat' (first
    | with_reducible assumption | (with_reducible refine (?_ : _ ∈ movedFields); decide)
    | (with_reducible refine (?_ : s0.Raised _); fail_if_no_progress extract_lets +onlyGivenNames x
       refine (fun (_ : s0.Raised x) => ?_) ?_
       (on_goal 1 => clear_value x); (on_goal 2 => unfold x; clear x))
    | (with_reducible refine (?_ : s0.Raised _); fail_if_no_progress extract_lets +onlyGivenNames y
       clear_value (hy : y = _))
    | with_reducible apply State.upRing_raised | with_reducible apply State.msix_raised
    | with_reducible exact fun hv => hv
    | (intro r hr; first | exact hr | (revert hr; simp only [Ring.ok] <;> omega)) | dsimp -zeta only
    | with_reducible refine State.Raised.lit ?_ ?_ ?_ ?_ ?_ ?_ | rfl | (subst_vars; rfl) | exact ⟨rfl, rfl⟩ | (subst_vars; exact ⟨rfl, rfl⟩) | exact fun _ h => ⟨h, Nat.le_refl _⟩ | exact fun _ h => h | exact ⟨rfl, fun h => h⟩ | exact fun _ => Nat.one_ne_zero | (subst_vars; exact ⟨rfl, fun h => by simp_all⟩) | (intro i hi; simp only [Tab.getD_set] at hi ⊢; split <;> simp_all [State.faultSt] <;> split <;> simp_all <;> omega) | (intro i hi; simp only [Tab.getD_set] at hi ⊢; split <;> simp_all [State.faultSt]))

theorem State.statusBlock_raised {s0 s : State} (n : Nat) (h : s0.Raised s) : s0.Raised (State.statusBlock s n) := by
  unfold State.statusBlock
  repeat' (first
    | with_reducible assumption | (with_reducible refine (?_ : _ ∈ movedFields); decide)
    | (with_reducible refine (?_ : s0.Raised _); fail_if_no_progress extract_lets +onlyGivenNames x
       refine (fun (_ : s0.Raised x) => ?_) ?_
       (on_goal 1 => clear_value x); (on_goal 2 => unfold x; clear x))
    | (with_reducible refine (?_ : s0.Raised _); fail_if_no_progress extract_lets +onlyGivenNames y
       clear_value (hy : y = _))
    | with_reducible apply State.upRing_raised | with_reducible apply State.dmaWrite_raised
    | with_reducible apply State.emit_raised
    | with_reducible exact fun hv => hv
    | (intro r hr; first | exact hr | (revert hr; simp only [Ring.ok] <;> omega)) | split
    | dsimp -zeta only | with_reducible refine State.Raised.lit ?_ ?_ ?_ ?_ ?_ ?_ | rfl | (subst_vars; rfl) | exact ⟨rfl, rfl⟩ | (subst_vars; exact ⟨rfl, rfl⟩) | exact fun _ h => ⟨h, Nat.le_refl _⟩ | exact fun _ h => h | exact ⟨rfl, fun h => h⟩ | exact fun _ => Nat.one_ne_zero | (subst_vars; exact ⟨rfl, fun h => by simp_all⟩) | (intro i hi; simp only [Tab.getD_set] at hi ⊢; split <;> simp_all [State.faultSt] <;> split <;> simp_all <;> omega) | (intro i hi; simp only [Tab.getD_set] at hi ⊢; split <;> simp_all [State.faultSt]))

theorem State.ringSignal_raised {s0 s : State} (n : Nat) (h : s0.Raised s) : s0.Raised (State.ringSignal s n) := by
  unfold State.ringSignal
  repeat' (first
    | with_reducible assumption | (with_reducible refine (?_ : _ ∈ movedFields); decide)
    | (with_reducible refine (?_ : s0.Raised _); fail_if_no_progress extract_lets +onlyGivenNames y
       clear_value (hy : y = _))
    | with_reducible apply State.upRing_raised | with_reducible apply State.ringInterrupt_raised
    | with_reducible exact fun hv => hv
    | (intro r hr; first | exact hr | (revert hr; simp only [Ring.ok] <;> omega)) | split
    | dsimp -zeta only | with_reducible refine State.Raised.lit ?_ ?_ ?_ ?_ ?_ ?_ | rfl | (subst_vars; rfl) | exact ⟨rfl, rfl⟩ | (subst_vars; exact ⟨rfl, rfl⟩) | exact fun _ h => ⟨h, Nat.le_refl _⟩ | exact fun _ h => h | exact ⟨rfl, fun h => h⟩ | exact fun _ => Nat.one_ne_zero | (subst_vars; exact ⟨rfl, fun h => by simp_all⟩) | (intro i hi; simp only [Tab.getD_set] at hi ⊢; split <;> simp_all [State.faultSt] <;> split <;> simp_all <;> omega) | (intro i hi; simp only [Tab.getD_set] at hi ⊢; split <;> simp_all [State.faultSt]))

theorem State.ringWrote_raised {s0 s : State} (n : Nat) (h : s0.Raised s) : s0.Raised (State.ringWrote s n) := by
  unfold State.ringWrote
  repeat' (first
    | with_reducible assumption | (with_reducible refine (?_ : _ ∈ movedFields); decide)
    | (with_reducible refine (?_ : s0.Raised _); fail_if_no_progress extract_lets +onlyGivenNames x
       refine (fun (_ : s0.Raised x) => ?_) ?_
       (on_goal 1 => clear_value x); (on_goal 2 => unfold x; clear x))
    | (with_reducible refine (?_ : s0.Raised _); fail_if_no_progress extract_lets +onlyGivenNames y
       clear_value (hy : y = _))
    | with_reducible apply State.countS_raised | with_reducible apply State.statusBlock_raised
    | with_reducible apply State.upRing_raised | with_reducible apply State.ringSignal_raised
    | with_reducible exact fun hv => hv
    | (intro r hr; first | exact hr | (revert hr; simp only [Ring.ok] <;> omega)) | split
    | dsimp -zeta only | with_reducible refine State.Raised.lit ?_ ?_ ?_ ?_ ?_ ?_ | rfl | (subst_vars; rfl) | exact ⟨rfl, rfl⟩ | (subst_vars; exact ⟨rfl, rfl⟩) | exact fun _ h => ⟨h, Nat.le_refl _⟩ | exact fun _ h => h | exact ⟨rfl, fun h => h⟩ | exact fun _ => Nat.one_ne_zero | (subst_vars; exact ⟨rfl, fun h => by simp_all⟩) | (intro i hi; simp only [Tab.getD_set] at hi ⊢; split <;> simp_all [State.faultSt] <;> split <;> simp_all <;> omega) | (intro i hi; simp only [Tab.getD_set] at hi ⊢; split <;> simp_all [State.faultSt]))

theorem State.complete_raised {s0 s : State} (n : Nat) (d0 : Nat) (d1 : Nat) (d2 : Nat) (d3 : Nat) (h : s0.Raised s) : s0.Raised (State.complete s n d0 d1 d2 d3) := by
  unfold State.complete
  repeat' (first
    | with_reducible assumption | (with_reducible refine (?_ : _ ∈ movedFields); decide)
    | (with_reducible refine (?_ : s0.Raised _); fail_if_no_progress extract_lets +onlyGivenNames x
       refine (fun (_ : s0.Raised x) => ?_) ?_
       (on_goal 1 => clear_value x); (on_goal 2 => unfold x; clear x))
    | (with_reducible refine (?_ : s0.Raised _); fail_if_no_progress extract_lets +onlyGivenNames y
       clear_value (hy : y = _))
    | with_reducible apply State.dmaWrite_raised | with_reducible apply State.emit_raised
    | with_reducible apply State.upRing_raised | with_reducible apply State.ringWrote_raised
    | (intro t ht; with_reducible refine (?_ : s0.Raised _))
    | with_reducible exact fun hv => hv
    | (intro r hr; first | exact hr | (revert hr; simp only [Ring.ok] <;> omega)) | dsimp -zeta only
    | with_reducible refine State.Raised.lit ?_ ?_ ?_ ?_ ?_ ?_ | rfl | (subst_vars; rfl) | exact ⟨rfl, rfl⟩ | (subst_vars; exact ⟨rfl, rfl⟩) | exact fun _ h => ⟨h, Nat.le_refl _⟩ | exact fun _ h => h | exact ⟨rfl, fun h => h⟩ | exact fun _ => Nat.one_ne_zero | (subst_vars; exact ⟨rfl, fun h => by simp_all⟩) | (intro i hi; simp only [Tab.getD_set] at hi ⊢; split <;> simp_all [State.faultSt] <;> split <;> simp_all <;> omega) | (intro i hi; simp only [Tab.getD_set] at hi ⊢; split <;> simp_all [State.faultSt]))

theorem State.settleCmds_raised {s0 : State} (fuel : Nat) : ∀ {s : State} (n : Nat) (_ : s0.Raised s),
    s0.Raised (State.settleCmds s n fuel) := by
  induction fuel with
  | zero => intros; assumption
  | succ fuel ih =>
    intros
    rw [State.settleCmds]
    repeat' (first
      | with_reducible assumption | (with_reducible refine (?_ : _ ∈ movedFields); decide)
      | (with_reducible refine (?_ : s0.Raised _); fail_if_no_progress extract_lets +onlyGivenNames y
         clear_value (hy : y = _))
      | with_reducible apply ih | with_reducible apply State.complete_raised
      | with_reducible apply State.upRing_raised | (intro t ht; with_reducible refine (?_ : s0.Raised _))

      | with_reducible exact fun hv => hv
      | (intro r hr; first | exact hr | (revert hr; simp only [Ring.ok] <;> omega)) | split
      | dsimp -zeta only | with_reducible refine State.Raised.lit ?_ ?_ ?_ ?_ ?_ ?_ | rfl | (subst_vars; rfl) | exact ⟨rfl, rfl⟩ | (subst_vars; exact ⟨rfl, rfl⟩) | exact fun _ h => ⟨h, Nat.le_refl _⟩ | exact fun _ h => h | exact ⟨rfl, fun h => h⟩ | exact fun _ => Nat.one_ne_zero | (subst_vars; exact ⟨rfl, fun h => by simp_all⟩) | (intro i hi; simp only [Tab.getD_set] at hi ⊢; split <;> simp_all [State.faultSt] <;> split <;> simp_all <;> omega) | (intro i hi; simp only [Tab.getD_set] at hi ⊢; split <;> simp_all [State.faultSt]))

theorem State.done_raised {s0 s : State} (c : Cmd) (status : Nat) (r0 : Nat) (r1 : Nat) (reason : Nat) (h : s0.Raised s) : s0.Raised (State.done s c status r0 r1 reason) := by
  unfold State.done
  repeat' (first
    | with_reducible assumption | (with_reducible refine (?_ : _ ∈ movedFields); decide)
    | (with_reducible refine (?_ : s0.Raised _); fail_if_no_progress extract_lets +onlyGivenNames x
       refine (fun (_ : s0.Raised x) => ?_) ?_
       (on_goal 1 => clear_value x); (on_goal 2 => unfold x; clear x))
    | (with_reducible refine (?_ : s0.Raised _); fail_if_no_progress extract_lets +onlyGivenNames y
       clear_value (hy : y = _))
    | with_reducible apply State.upRing_raised | with_reducible apply State.complete_raised
    | with_reducible apply State.settleCmds_raised
    | with_reducible exact fun hv => hv
    | (intro r hr; first | exact hr | (revert hr; simp only [Ring.ok] <;> omega)) | split
    | dsimp -zeta only | with_reducible refine State.Raised.lit ?_ ?_ ?_ ?_ ?_ ?_ | rfl | (subst_vars; rfl) | exact ⟨rfl, rfl⟩ | (subst_vars; exact ⟨rfl, rfl⟩) | exact fun _ h => ⟨h, Nat.le_refl _⟩ | exact fun _ h => h | exact ⟨rfl, fun h => h⟩ | exact fun _ => Nat.one_ne_zero | (subst_vars; exact ⟨rfl, fun h => by simp_all⟩) | (intro i hi; simp only [Tab.getD_set] at hi ⊢; split <;> simp_all [State.faultSt] <;> split <;> simp_all <;> omega) | (intro i hi; simp only [Tab.getD_set] at hi ⊢; split <;> simp_all [State.faultSt]))

theorem State.writeEntry_raised {s0 s : State} (n : Nat) (e : Entry) (h : s0.Raised s) : s0.Raised (State.writeEntry s n e) := by
  unfold State.writeEntry
  repeat' (first
    | with_reducible assumption | (with_reducible refine (?_ : _ ∈ movedFields); decide)
    | (with_reducible refine (?_ : s0.Raised _); fail_if_no_progress extract_lets +onlyGivenNames x
       refine (fun (_ : s0.Raised x) => ?_) ?_
       (on_goal 1 => clear_value x); (on_goal 2 => unfold x; clear x))
    | (with_reducible refine (?_ : s0.Raised _); fail_if_no_progress extract_lets +onlyGivenNames y
       clear_value (hy : y = _))
    | with_reducible apply State.dmaWrite_raised | with_reducible apply State.emit_raised
    | with_reducible apply State.upRing_raised | with_reducible apply State.ringWrote_raised
    | with_reducible exact fun hv => hv
    | (intro r hr; first | exact hr | (revert hr; simp only [Ring.ok] <;> omega)) | dsimp -zeta only
    | with_reducible refine State.Raised.lit ?_ ?_ ?_ ?_ ?_ ?_ | rfl | (subst_vars; rfl) | exact ⟨rfl, rfl⟩ | (subst_vars; exact ⟨rfl, rfl⟩) | exact fun _ h => ⟨h, Nat.le_refl _⟩ | exact fun _ h => h | exact ⟨rfl, fun h => h⟩ | exact fun _ => Nat.one_ne_zero | (subst_vars; exact ⟨rfl, fun h => by simp_all⟩) | (intro i hi; simp only [Tab.getD_set] at hi ⊢; split <;> simp_all [State.faultSt] <;> split <;> simp_all <;> omega) | (intro i hi; simp only [Tab.getD_set] at hi ⊢; split <;> simp_all [State.faultSt]))

theorem State.pushEntry_raised {s0 s : State} (n : Nat) (e : Entry) (h : s0.Raised s) : s0.Raised (State.pushEntry s n e) := by
  unfold State.pushEntry
  repeat' (first
    | with_reducible assumption | (with_reducible refine (?_ : _ ∈ movedFields); decide)
    | (with_reducible refine (?_ : s0.Raised _); fail_if_no_progress extract_lets +onlyGivenNames x
       refine (fun (_ : s0.Raised x) => ?_) ?_
       (on_goal 1 => clear_value x); (on_goal 2 => unfold x; clear x))
    | (with_reducible refine (?_ : s0.Raised _); fail_if_no_progress extract_lets +onlyGivenNames y
       clear_value (hy : y = _))
    | with_reducible apply State.writeEntry_raised | with_reducible apply State.upRing_raised
    | with_reducible apply State.countS_raised
    | with_reducible exact fun hv => hv
    | (intro r hr; first | exact hr | (revert hr; simp only [Ring.ok] <;> omega)) | split
    | dsimp -zeta only | with_reducible refine State.Raised.lit ?_ ?_ ?_ ?_ ?_ ?_ | rfl | (subst_vars; rfl) | exact ⟨rfl, rfl⟩ | (subst_vars; exact ⟨rfl, rfl⟩) | exact fun _ h => ⟨h, Nat.le_refl _⟩ | exact fun _ h => h | exact ⟨rfl, fun h => h⟩ | exact fun _ => Nat.one_ne_zero | (subst_vars; exact ⟨rfl, fun h => by simp_all⟩) | (intro i hi; simp only [Tab.getD_set] at hi ⊢; split <;> simp_all [State.faultSt] <;> split <;> simp_all <;> omega) | (intro i hi; simp only [Tab.getD_set] at hi ⊢; split <;> simp_all [State.faultSt]))

theorem State.event_raised {s0 s : State} (cls : Nat) (code : Nat) (source : Nat) (d0 : Nat) (d1 : Nat) (concerns : (Nat → Bool)) (h : s0.Raised s) : s0.Raised (State.event s cls code source d0 d1 concerns) := by
  unfold State.event
  repeat' (first
    | with_reducible assumption | (with_reducible refine (?_ : _ ∈ movedFields); decide)
    | (with_reducible refine (?_ : s0.Raised _); fail_if_no_progress extract_lets +onlyGivenNames x
       refine (fun (_ : s0.Raised x) => ?_) ?_
       (on_goal 1 => clear_value x); (on_goal 2 => unfold x; clear x))
    | (with_reducible refine (?_ : s0.Raised _); fail_if_no_progress extract_lets +onlyGivenNames y
       clear_value (hy : y = _))
    | with_reducible apply State.pushEntry_raised | with_reducible apply State.trace_raised
    | (intro t a ht; with_reducible refine (?_ : s0.Raised _)) | with_reducible apply State.Raised.foldl
    | split | dsimp -zeta only)

theorem State.countE_raised {s0 s : State} (g : Nat) (k : Nat) (n : Nat) (h : s0.Raised s) : s0.Raised (State.countE s g k n) := by
  unfold State.countE
  repeat' (first
    | with_reducible assumption | (with_reducible refine (?_ : _ ∈ movedFields); decide)
    | (with_reducible refine (?_ : s0.Raised _); fail_if_no_progress extract_lets +onlyGivenNames x
       refine (fun (_ : s0.Raised x) => ?_) ?_
       (on_goal 1 => clear_value x); (on_goal 2 => unfold x; clear x))
    | (with_reducible refine (?_ : s0.Raised _); fail_if_no_progress extract_lets +onlyGivenNames y
       clear_value (hy : y = _))
    | with_reducible apply State.setCounter_raised | with_reducible apply State.orF_raised
    | with_reducible apply State.event_raised
    | with_reducible exact fun hv => hv | split | dsimp -zeta only
    | with_reducible refine State.Raised.lit ?_ ?_ ?_ ?_ ?_ ?_ | rfl | (subst_vars; rfl) | exact ⟨rfl, rfl⟩ | (subst_vars; exact ⟨rfl, rfl⟩) | exact fun _ h => ⟨h, Nat.le_refl _⟩ | exact fun _ h => h | exact ⟨rfl, fun h => h⟩ | exact fun _ => Nat.one_ne_zero | (subst_vars; exact ⟨rfl, fun h => by simp_all⟩) | (intro i hi; simp only [Tab.getD_set] at hi ⊢; split <;> simp_all [State.faultSt] <;> split <;> simp_all <;> omega) | (intro i hi; simp only [Tab.getD_set] at hi ⊢; split <;> simp_all [State.faultSt]))

theorem State.setAcct_raised {s0 s : State} (r : Nat) (p : Nat) (c : Nat) (n : Nat) (h : s0.Raised s) : s0.Raised (State.setAcct s r p c n) := by
  unfold State.setAcct
  repeat' (first
    | with_reducible assumption | (with_reducible refine (?_ : _ ∈ movedFields); decide)
    | (with_reducible refine (?_ : s0.Raised _); fail_if_no_progress extract_lets +onlyGivenNames y
       clear_value (hy : y = _))
    | with_reducible exact fun hv => hv | with_reducible refine State.Raised.lit ?_ ?_ ?_ ?_ ?_ ?_ | rfl | (subst_vars; rfl) | exact ⟨rfl, rfl⟩ | (subst_vars; exact ⟨rfl, rfl⟩) | exact fun _ h => ⟨h, Nat.le_refl _⟩ | exact fun _ h => h | exact ⟨rfl, fun h => h⟩ | exact fun _ => Nat.one_ne_zero | (subst_vars; exact ⟨rfl, fun h => by simp_all⟩) | (intro i hi; simp only [Tab.getD_set] at hi ⊢; split <;> simp_all [State.faultSt] <;> split <;> simp_all <;> omega) | (intro i hi; simp only [Tab.getD_set] at hi ⊢; split <;> simp_all [State.faultSt]))

theorem State.queueFc_raised {s0 s : State} (p : Nat) (fuel : Option FcFrame) (h : s0.Raised s) : s0.Raised (State.queueFc s p fuel) := by
  unfold State.queueFc
  repeat' (first
    | with_reducible assumption | (with_reducible refine (?_ : _ ∈ movedFields); decide)
    | (with_reducible refine (?_ : s0.Raised _); fail_if_no_progress extract_lets +onlyGivenNames x
       refine (fun (_ : s0.Raised x) => ?_) ?_
       (on_goal 1 => clear_value x); (on_goal 2 => unfold x; clear x))
    | (with_reducible refine (?_ : s0.Raised _); fail_if_no_progress extract_lets +onlyGivenNames x
       refine (fun (_ : s0.Raised x.1) => ?_) ?_
       (on_goal 1 => clear_value x); (on_goal 2 => unfold x; clear x))
    | (with_reducible refine (?_ : s0.Raised _); fail_if_no_progress extract_lets +onlyGivenNames x
       refine (fun (_ : s0.Raised x.2) => ?_) ?_
       (on_goal 1 => clear_value x); (on_goal 2 => unfold x; clear x))
    | (with_reducible refine (?_ : s0.Raised _); fail_if_no_progress extract_lets +onlyGivenNames x
       refine State.Raised.cutMap (s0 := s0) x (fun hmap => ?_) ?_
       (on_goal 1 => clear_value x); (on_goal 2 => intro r hr; unfold x; clear x; try beta_reduce))
    | with_reducible apply hmap
    | (with_reducible refine (?_ : s0.Raised _); fail_if_no_progress extract_lets +onlyGivenNames x
       refine State.Raised.cutFun (s0 := s0) x (fun hfun => ?_) ?_
       (on_goal 1 => clear_value x); (on_goal 2 => intro r; unfold x; clear x; try beta_reduce))
    | with_reducible apply hfun
    | (with_reducible refine (?_ : s0.Raised _); fail_if_no_progress extract_lets +onlyGivenNames y
       clear_value (hy : y = _))
    | with_reducible apply State.upPort_raised | with_reducible apply State.setF_raised
    | (intro t a ht; with_reducible refine (?_ : s0.Raised _))
    | (intro t ht; with_reducible refine (?_ : s0.Raised _)) | with_reducible apply State.Raised.foldl
    | with_reducible apply State.Raised.foldlFst | with_reducible apply State.Raised.foldlSnd
    | with_reducible exact fun hv => hv
    | (intro hv; first | exact hv | (subst_vars; first | exact hv | omega))
    | (intro r hr; first | exact hr | (revert hr; simp only [Ring.ok] <;> omega))
    | with_reducible exact Tab.rising_filter _ _
    | (intro hv; refine Tab.all_set (P := Ring.ok) _ _ _ hv ?_; simp [Ring.ok]) | split
    | dsimp -zeta only | with_reducible refine State.Raised.lit ?_ ?_ ?_ ?_ ?_ ?_ | rfl | (subst_vars; rfl) | exact ⟨rfl, rfl⟩ | (subst_vars; exact ⟨rfl, rfl⟩) | exact fun _ h => ⟨h, Nat.le_refl _⟩ | exact fun _ h => h | exact ⟨rfl, fun h => h⟩ | exact fun _ => Nat.one_ne_zero | (subst_vars; exact ⟨rfl, fun h => by simp_all⟩) | (intro i hi; simp only [Tab.getD_set] at hi ⊢; split <;> simp_all [State.faultSt] <;> split <;> simp_all <;> omega) | (intro i hi; simp only [Tab.getD_set] at hi ⊢; split <;> simp_all [State.faultSt]))

theorem State.xonTry_raised {s0 s : State} (p : Nat) (c : Nat) (h : s0.Raised s) : s0.Raised (State.xonTry s p c) := by
  unfold State.xonTry
  repeat' (first
    | with_reducible assumption | (with_reducible refine (?_ : _ ∈ movedFields); decide)
    | (with_reducible refine (?_ : s0.Raised _); fail_if_no_progress extract_lets +onlyGivenNames x
       refine (fun (_ : s0.Raised x) => ?_) ?_
       (on_goal 1 => clear_value x); (on_goal 2 => unfold x; clear x))
    | (with_reducible refine (?_ : s0.Raised _); fail_if_no_progress extract_lets +onlyGivenNames x
       refine (fun (_ : s0.Raised x.1) => ?_) ?_
       (on_goal 1 => clear_value x); (on_goal 2 => unfold x; clear x))
    | (with_reducible refine (?_ : s0.Raised _); fail_if_no_progress extract_lets +onlyGivenNames x
       refine (fun (_ : s0.Raised x.2) => ?_) ?_
       (on_goal 1 => clear_value x); (on_goal 2 => unfold x; clear x))
    | (with_reducible refine (?_ : s0.Raised _); fail_if_no_progress extract_lets +onlyGivenNames x
       refine State.Raised.cutMap (s0 := s0) x (fun hmap => ?_) ?_
       (on_goal 1 => clear_value x); (on_goal 2 => intro r hr; unfold x; clear x; try beta_reduce))
    | with_reducible apply hmap
    | (with_reducible refine (?_ : s0.Raised _); fail_if_no_progress extract_lets +onlyGivenNames x
       refine State.Raised.cutFun (s0 := s0) x (fun hfun => ?_) ?_
       (on_goal 1 => clear_value x); (on_goal 2 => intro r; unfold x; clear x; try beta_reduce))
    | with_reducible apply hfun
    | (with_reducible refine (?_ : s0.Raised _); fail_if_no_progress extract_lets +onlyGivenNames y
       clear_value (hy : y = _))
    | with_reducible apply State.clrF_raised | with_reducible apply State.queueFc_raised
    | (intro t a ht; with_reducible refine (?_ : s0.Raised _))
    | (intro t ht; with_reducible refine (?_ : s0.Raised _)) | with_reducible apply State.Raised.foldl
    | with_reducible apply State.Raised.foldlFst | with_reducible apply State.Raised.foldlSnd
    | with_reducible exact fun hv => hv
    | (intro hv; first | exact hv | (subst_vars; first | exact hv | omega))
    | (intro r hr; first | exact hr | (revert hr; simp only [Ring.ok] <;> omega))
    | with_reducible exact Tab.rising_filter _ _
    | (intro hv; refine Tab.all_set (P := Ring.ok) _ _ _ hv ?_; simp [Ring.ok]) | split
    | dsimp -zeta only | with_reducible refine State.Raised.lit ?_ ?_ ?_ ?_ ?_ ?_ | rfl | (subst_vars; rfl) | exact ⟨rfl, rfl⟩ | (subst_vars; exact ⟨rfl, rfl⟩) | exact fun _ h => ⟨h, Nat.le_refl _⟩ | exact fun _ h => h | exact ⟨rfl, fun h => h⟩ | exact fun _ => Nat.one_ne_zero | (subst_vars; exact ⟨rfl, fun h => by simp_all⟩) | (intro i hi; simp only [Tab.getD_set] at hi ⊢; split <;> simp_all [State.faultSt] <;> split <;> simp_all <;> omega) | (intro i hi; simp only [Tab.getD_set] at hi ⊢; split <;> simp_all [State.faultSt]))

theorem State.xonAll_raised {s0 s : State}  (h : s0.Raised s) : s0.Raised (State.xonAll s) := by
  unfold State.xonAll
  repeat' (first
    | with_reducible assumption | (with_reducible refine (?_ : _ ∈ movedFields); decide)
    | with_reducible apply State.xonTry_raised | (intro t a ht; with_reducible refine (?_ : s0.Raised _))
    | with_reducible apply State.Raised.foldl | dsimp -zeta only)

theorem State.release_raised {s0 s : State} (r : Nat) (p : Nat) (c : Nat) (n : Nat) (h : s0.Raised s) : s0.Raised (State.release s r p c n) := by
  unfold State.release
  repeat' (first
    | with_reducible assumption | (with_reducible refine (?_ : _ ∈ movedFields); decide)
    | (with_reducible refine (?_ : s0.Raised _); fail_if_no_progress extract_lets +onlyGivenNames y
       clear_value (hy : y = _))
    | with_reducible apply State.xonAll_raised | with_reducible apply State.setAcct_raised
    | with_reducible exact fun hv => hv | split
    | with_reducible refine State.Raised.lit ?_ ?_ ?_ ?_ ?_ ?_ | rfl | (subst_vars; rfl) | exact ⟨rfl, rfl⟩ | (subst_vars; exact ⟨rfl, rfl⟩) | exact fun _ h => ⟨h, Nat.le_refl _⟩ | exact fun _ h => h | exact ⟨rfl, fun h => h⟩ | exact fun _ => Nat.one_ne_zero | (subst_vars; exact ⟨rfl, fun h => by simp_all⟩) | (intro i hi; simp only [Tab.getD_set] at hi ⊢; split <;> simp_all [State.faultSt] <;> split <;> simp_all <;> omega) | (intro i hi; simp only [Tab.getD_set] at hi ⊢; split <;> simp_all [State.faultSt]))

theorem State.epochOut_raised {s0 s : State} (e : Nat) (h : s0.Raised s) : s0.Raised (State.epochOut s e) := by
  unfold State.epochOut
  repeat' (first
    | with_reducible assumption | (with_reducible refine (?_ : _ ∈ movedFields); decide)
    | (with_reducible refine (?_ : s0.Raised _); fail_if_no_progress extract_lets +onlyGivenNames y
       clear_value (hy : y = _))
    | with_reducible exact fun hv => hv
    | (intro hv; first | exact hv | (subst_vars; first | exact hv | omega))
    | with_reducible refine State.Raised.lit ?_ ?_ ?_ ?_ ?_ ?_ | rfl | (subst_vars; rfl) | exact ⟨rfl, rfl⟩ | (subst_vars; exact ⟨rfl, rfl⟩) | exact fun _ h => ⟨h, Nat.le_refl _⟩ | exact fun _ h => h | exact ⟨rfl, fun h => h⟩ | exact fun _ => Nat.one_ne_zero | (subst_vars; exact ⟨rfl, fun h => by simp_all⟩) | (intro i hi; simp only [Tab.getD_set] at hi ⊢; split <;> simp_all [State.faultSt] <;> split <;> simp_all <;> omega) | (intro i hi; simp only [Tab.getD_set] at hi ⊢; split <;> simp_all [State.faultSt]))

theorem State.finish_raised {s0 s : State} (f : Frame) (h : s0.Raised s) : s0.Raised (State.finish s f) := by
  unfold State.finish
  repeat' (first
    | with_reducible assumption | (with_reducible refine (?_ : _ ∈ movedFields); decide)
    | (with_reducible refine (?_ : s0.Raised _); fail_if_no_progress extract_lets +onlyGivenNames x
       refine (fun (_ : s0.Raised x) => ?_) ?_
       (on_goal 1 => clear_value x); (on_goal 2 => unfold x; clear x))
    | (with_reducible refine (?_ : s0.Raised _); fail_if_no_progress extract_lets +onlyGivenNames y
       clear_value (hy : y = _))
    | with_reducible apply State.release_raised | with_reducible apply State.epochOut_raised
    | with_reducible exact fun hv => hv | split
    | with_reducible refine State.Raised.lit ?_ ?_ ?_ ?_ ?_ ?_ | rfl | (subst_vars; rfl) | exact ⟨rfl, rfl⟩ | (subst_vars; exact ⟨rfl, rfl⟩) | exact fun _ h => ⟨h, Nat.le_refl _⟩ | exact fun _ h => h | exact ⟨rfl, fun h => h⟩ | exact fun _ => Nat.one_ne_zero | (subst_vars; exact ⟨rfl, fun h => by simp_all⟩) | (intro i hi; simp only [Tab.getD_set] at hi ⊢; split <;> simp_all [State.faultSt] <;> split <;> simp_all <;> omega) | (intro i hi; simp only [Tab.getD_set] at hi ⊢; split <;> simp_all [State.faultSt]))

theorem State.mcDone_raised {s0 s : State} (uid : Nat) (t : Nat) (h : s0.Raised s) : s0.Raised (State.mcDone s uid t) := by
  unfold State.mcDone
  repeat' (first
    | with_reducible assumption | (with_reducible refine (?_ : _ ∈ movedFields); decide)
    | (with_reducible refine (?_ : s0.Raised _); fail_if_no_progress extract_lets +onlyGivenNames x
       refine (fun (_ : s0.Raised x) => ?_) ?_
       (on_goal 1 => clear_value x); (on_goal 2 => unfold x; clear x))
    | (with_reducible refine (?_ : s0.Raised _); fail_if_no_progress extract_lets +onlyGivenNames y
       clear_value (hy : y = _))
    | with_reducible apply State.release_raised | with_reducible apply State.epochOut_raised
    | with_reducible exact fun hv => hv | split
    | with_reducible refine State.Raised.lit ?_ ?_ ?_ ?_ ?_ ?_ | rfl | (subst_vars; rfl) | exact ⟨rfl, rfl⟩ | (subst_vars; exact ⟨rfl, rfl⟩) | exact fun _ h => ⟨h, Nat.le_refl _⟩ | exact fun _ h => h | exact ⟨rfl, fun h => h⟩ | exact fun _ => Nat.one_ne_zero | (subst_vars; exact ⟨rfl, fun h => by simp_all⟩) | (intro i hi; simp only [Tab.getD_set] at hi ⊢; split <;> simp_all [State.faultSt] <;> split <;> simp_all <;> omega) | (intro i hi; simp only [Tab.getD_set] at hi ⊢; split <;> simp_all [State.faultSt]))

theorem State.txComplete_raised {s0 s : State} (d : Direct) (codes : List Nat) (late : Bool) (miss : Bool) (drop : Nat) (h : s0.Raised s) : s0.Raised (State.txComplete s d codes late miss drop) := by
  unfold State.txComplete
  repeat' (first
    | with_reducible assumption | (with_reducible refine (?_ : _ ∈ movedFields); decide)
    | with_reducible apply State.complete_raised
    | (intro t a ht; with_reducible refine (?_ : s0.Raised _)) | with_reducible apply State.Raised.foldl
    | with_reducible apply State.Raised.foldlFst | with_reducible apply State.Raised.foldlSnd | split
    | dsimp -zeta only | with_reducible refine State.Raised.lit ?_ ?_ ?_ ?_ ?_ ?_ | rfl | (subst_vars; rfl) | exact ⟨rfl, rfl⟩ | (subst_vars; exact ⟨rfl, rfl⟩) | exact fun _ h => ⟨h, Nat.le_refl _⟩ | exact fun _ h => h | exact ⟨rfl, fun h => h⟩ | exact fun _ => Nat.one_ne_zero | (subst_vars; exact ⟨rfl, fun h => by simp_all⟩) | (intro i hi; simp only [Tab.getD_set] at hi ⊢; split <;> simp_all [State.faultSt] <;> split <;> simp_all <;> omega) | (intro i hi; simp only [Tab.getD_set] at hi ⊢; split <;> simp_all [State.faultSt]))

theorem State.countIngress_raised {s0 s : State} (p : Nat) (c : Nat) (code : Nat) (h : s0.Raised s) : s0.Raised (State.countIngress s p c code) := by
  unfold State.countIngress
  repeat' (first
    | with_reducible assumption | (with_reducible refine (?_ : _ ∈ movedFields); decide)
    | with_reducible apply State.countS_raised)

theorem State.countQueue_raised {s0 s : State} (p : Nat) (slot : Nat) (code : Nat) (h : s0.Raised s) : s0.Raised (State.countQueue s p slot code) := by
  unfold State.countQueue
  repeat' (first
    | with_reducible assumption | (with_reducible refine (?_ : _ ∈ movedFields); decide)
    | (with_reducible refine (?_ : s0.Raised _); fail_if_no_progress extract_lets +onlyGivenNames y
       clear_value (hy : y = _))
    | with_reducible apply State.countS_raised
    | with_reducible exact fun hv => hv | split
    | with_reducible refine State.Raised.lit ?_ ?_ ?_ ?_ ?_ ?_ | rfl | (subst_vars; rfl) | exact ⟨rfl, rfl⟩ | (subst_vars; exact ⟨rfl, rfl⟩) | exact fun _ h => ⟨h, Nat.le_refl _⟩ | exact fun _ h => h | exact ⟨rfl, fun h => h⟩ | exact fun _ => Nat.one_ne_zero | (subst_vars; exact ⟨rfl, fun h => by simp_all⟩) | (intro i hi; simp only [Tab.getD_set] at hi ⊢; split <;> simp_all [State.faultSt] <;> split <;> simp_all <;> omega) | (intro i hi; simp only [Tab.getD_set] at hi ⊢; split <;> simp_all [State.faultSt]))

theorem State.dropIngress_raised {s0 s : State} (f : Frame) (code : Nat) (h : s0.Raised s) : s0.Raised (State.dropIngress s f code) := by
  unfold State.dropIngress
  repeat' (first
    | with_reducible assumption | (with_reducible refine (?_ : _ ∈ movedFields); decide)
    | (with_reducible refine (?_ : s0.Raised _); fail_if_no_progress extract_lets +onlyGivenNames x
       refine (fun (_ : s0.Raised x) => ?_) ?_
       (on_goal 1 => clear_value x); (on_goal 2 => unfold x; clear x))
    | (with_reducible refine (?_ : s0.Raised _); fail_if_no_progress extract_lets +onlyGivenNames y
       clear_value (hy : y = _))
    | with_reducible apply State.finish_raised | with_reducible apply State.countIngress_raised
    | with_reducible apply State.txComplete_raised
    | with_reducible exact fun hv => hv | split
    | with_reducible refine State.Raised.lit ?_ ?_ ?_ ?_ ?_ ?_ | rfl | (subst_vars; rfl) | exact ⟨rfl, rfl⟩ | (subst_vars; exact ⟨rfl, rfl⟩) | exact fun _ h => ⟨h, Nat.le_refl _⟩ | exact fun _ h => h | exact ⟨rfl, fun h => h⟩ | exact fun _ => Nat.one_ne_zero | (subst_vars; exact ⟨rfl, fun h => by simp_all⟩) | (intro i hi; simp only [Tab.getD_set] at hi ⊢; split <;> simp_all [State.faultSt] <;> split <;> simp_all <;> omega) | (intro i hi; simp only [Tab.getD_set] at hi ⊢; split <;> simp_all [State.faultSt]))

theorem State.dropEgress_raised {s0 s : State} (p : Nat) (slot : Nat) (f : Frame) (code : Nat) (h : s0.Raised s) : s0.Raised (State.dropEgress s p slot f code) := by
  unfold State.dropEgress
  repeat' (first
    | with_reducible assumption | (with_reducible refine (?_ : _ ∈ movedFields); decide)
    | (with_reducible refine (?_ : s0.Raised _); fail_if_no_progress extract_lets +onlyGivenNames x
       refine (fun (_ : s0.Raised x) => ?_) ?_
       (on_goal 1 => clear_value x); (on_goal 2 => unfold x; clear x))
    | (with_reducible refine (?_ : s0.Raised _); fail_if_no_progress extract_lets +onlyGivenNames y
       clear_value (hy : y = _))
    | with_reducible apply State.finish_raised | with_reducible apply State.countQueue_raised
    | with_reducible apply State.txComplete_raised | split
    | with_reducible refine State.Raised.lit ?_ ?_ ?_ ?_ ?_ ?_ | rfl | (subst_vars; rfl) | exact ⟨rfl, rfl⟩ | (subst_vars; exact ⟨rfl, rfl⟩) | exact fun _ h => ⟨h, Nat.le_refl _⟩ | exact fun _ h => h | exact ⟨rfl, fun h => h⟩ | exact fun _ => Nat.one_ne_zero | (subst_vars; exact ⟨rfl, fun h => by simp_all⟩) | (intro i hi; simp only [Tab.getD_set] at hi ⊢; split <;> simp_all [State.faultSt] <;> split <;> simp_all <;> omega) | (intro i hi; simp only [Tab.getD_set] at hi ⊢; split <;> simp_all [State.faultSt]))

theorem State.dropSpill_raised {s0 s : State} (k : Nat) (h : s0.Raised s) : s0.Raised (State.dropSpill s k) := by
  unfold State.dropSpill
  repeat' (first
    | with_reducible assumption | (with_reducible refine (?_ : _ ∈ movedFields); decide)
    | (with_reducible refine (?_ : s0.Raised _); fail_if_no_progress extract_lets +onlyGivenNames y
       clear_value (hy : y = _))
    | with_reducible exact fun hv => hv | dsimp -zeta only
    | with_reducible refine State.Raised.lit ?_ ?_ ?_ ?_ ?_ ?_ | rfl | (subst_vars; rfl) | exact ⟨rfl, rfl⟩ | (subst_vars; exact ⟨rfl, rfl⟩) | exact fun _ h => ⟨h, Nat.le_refl _⟩ | exact fun _ h => h | exact ⟨rfl, fun h => h⟩ | exact fun _ => Nat.one_ne_zero | (subst_vars; exact ⟨rfl, fun h => by simp_all⟩) | (intro i hi; simp only [Tab.getD_set] at hi ⊢; split <;> simp_all [State.faultSt] <;> split <;> simp_all <;> omega) | (intro i hi; simp only [Tab.getD_set] at hi ⊢; split <;> simp_all [State.faultSt]))

theorem State.flushQueue_raised {s0 s : State} (p : Nat) (slot : Nat) (code : Nat) (flushed : Bool) (h : s0.Raised s) : s0.Raised (State.flushQueue s p slot code flushed) := by
  unfold State.flushQueue
  repeat' (first
    | with_reducible assumption | (with_reducible refine (?_ : _ ∈ movedFields); decide)
    | (with_reducible refine (?_ : s0.Raised _); fail_if_no_progress extract_lets +onlyGivenNames x
       refine (fun (_ : s0.Raised x) => ?_) ?_
       (on_goal 1 => clear_value x); (on_goal 2 => unfold x; clear x))
    | (with_reducible refine (?_ : s0.Raised _); fail_if_no_progress extract_lets +onlyGivenNames y
       clear_value (hy : y = _))
    | with_reducible apply State.dropSpill_raised | with_reducible apply State.dropEgress_raised
    | with_reducible apply State.countS_raised | (intro t a ht; with_reducible refine (?_ : s0.Raised _))
    | with_reducible apply State.Raised.foldl
    | with_reducible exact fun hv => hv | split | dsimp -zeta only
    | with_reducible refine State.Raised.lit ?_ ?_ ?_ ?_ ?_ ?_ | rfl | (subst_vars; rfl) | exact ⟨rfl, rfl⟩ | (subst_vars; exact ⟨rfl, rfl⟩) | exact fun _ h => ⟨h, Nat.le_refl _⟩ | exact fun _ h => h | exact ⟨rfl, fun h => h⟩ | exact fun _ => Nat.one_ne_zero | (subst_vars; exact ⟨rfl, fun h => by simp_all⟩) | (intro i hi; simp only [Tab.getD_set] at hi ⊢; split <;> simp_all [State.faultSt] <;> split <;> simp_all <;> omega) | (intro i hi; simp only [Tab.getD_set] at hi ⊢; split <;> simp_all [State.faultSt]))

theorem State.flushPort_raised {s0 s : State} (p : Nat) (h : s0.Raised s) : s0.Raised (State.flushPort s p) := by
  unfold State.flushPort
  repeat' (first
    | with_reducible assumption | (with_reducible refine (?_ : _ ∈ movedFields); decide)
    | with_reducible apply State.flushQueue_raised
    | (intro t a ht; with_reducible refine (?_ : s0.Raised _)) | with_reducible apply State.Raised.foldl
    | dsimp -zeta only)

theorem State.setPortState_raised {s0 s : State} (p : Nat) (st : Nat) (h : s0.Raised s) : s0.Raised (State.setPortState s p st) := by
  unfold State.setPortState
  repeat' (first
    | with_reducible assumption | (with_reducible refine (?_ : _ ∈ movedFields); decide)
    | with_reducible apply State.setF_raised)

theorem State.linkChange_raised {s0 s : State} (p : Nat) (h : s0.Raised s) : s0.Raised (State.linkChange s p) := by
  unfold State.linkChange
  repeat' (first
    | with_reducible assumption | (with_reducible refine (?_ : _ ∈ movedFields); decide)
    | with_reducible apply State.event_raised | dsimp -zeta only)

theorem State.freezeLanes_raised {s0 s : State} (p : Nat) (h : s0.Raised s) : s0.Raised (State.freezeLanes s p) := by
  unfold State.freezeLanes
  repeat' (first
    | with_reducible assumption | (with_reducible refine (?_ : _ ∈ movedFields); decide)
    | (with_reducible refine (?_ : s0.Raised _); fail_if_no_progress extract_lets +onlyGivenNames y
       clear_value (hy : y = _))
    | with_reducible apply State.setF_raised | (intro t a ht; with_reducible refine (?_ : s0.Raised _))
    | with_reducible apply State.Raised.foldl
    | with_reducible exact fun hv => hv | split | dsimp -zeta only
    | with_reducible refine State.Raised.lit ?_ ?_ ?_ ?_ ?_ ?_ | rfl | (subst_vars; rfl) | exact ⟨rfl, rfl⟩ | (subst_vars; exact ⟨rfl, rfl⟩) | exact fun _ h => ⟨h, Nat.le_refl _⟩ | exact fun _ h => h | exact ⟨rfl, fun h => h⟩ | exact fun _ => Nat.one_ne_zero | (subst_vars; exact ⟨rfl, fun h => by simp_all⟩) | (intro i hi; simp only [Tab.getD_set] at hi ⊢; split <;> simp_all [State.faultSt] <;> split <;> simp_all <;> omega) | (intro i hi; simp only [Tab.getD_set] at hi ⊢; split <;> simp_all [State.faultSt]))

theorem State.setRef_raised {s0 s : State} (i : Nat) (st : Nat) (h : s0.Raised s) : s0.Raised (State.setRef s i st) := by
  unfold State.setRef
  repeat' (first
    | with_reducible assumption | (with_reducible refine (?_ : _ ∈ movedFields); decide)
    | (with_reducible refine (?_ : s0.Raised _); fail_if_no_progress extract_lets +onlyGivenNames x
       refine (fun (_ : s0.Raised x) => ?_) ?_
       (on_goal 1 => clear_value x); (on_goal 2 => unfold x; clear x))
    | (with_reducible refine (?_ : s0.Raised _); fail_if_no_progress extract_lets +onlyGivenNames y
       clear_value (hy : y = _))
    | with_reducible apply State.setF_raised | with_reducible apply State.upRef_raised
    | with_reducible apply State.event_raised
    | with_reducible exact fun hv => hv | split | dsimp -zeta only
    | with_reducible refine State.Raised.lit ?_ ?_ ?_ ?_ ?_ ?_ | rfl | (subst_vars; rfl) | exact ⟨rfl, rfl⟩ | (subst_vars; exact ⟨rfl, rfl⟩) | exact fun _ h => ⟨h, Nat.le_refl _⟩ | exact fun _ h => h | exact ⟨rfl, fun h => h⟩ | exact fun _ => Nat.one_ne_zero | (subst_vars; exact ⟨rfl, fun h => by simp_all⟩) | (intro i hi; simp only [Tab.getD_set] at hi ⊢; split <;> simp_all [State.faultSt] <;> split <;> simp_all <;> omega) | (intro i hi; simp only [Tab.getD_set] at hi ⊢; split <;> simp_all [State.faultSt]))

theorem State.failRef_raised {s0 s : State} (i : Nat) (h : s0.Raised s) : s0.Raised (State.failRef s i) := by
  unfold State.failRef
  repeat' (first
    | with_reducible assumption | (with_reducible refine (?_ : _ ∈ movedFields); decide)
    | with_reducible apply State.setRef_raised | split)

theorem State.slotsLost_raised {s0 s : State} (p : Nat) (h : s0.Raised s) : s0.Raised (State.slotsLost s p) := by
  unfold State.slotsLost
  repeat' (first
    | with_reducible assumption | (with_reducible refine (?_ : _ ∈ movedFields); decide)
    | with_reducible apply State.failRef_raised | with_reducible apply State.setF_raised
    | (intro t a ht; with_reducible refine (?_ : s0.Raised _)) | with_reducible apply State.Raised.foldl
    | dsimp -zeta only)

theorem State.suspendPhase_raised {s0 s : State} (p : Nat) (h : s0.Raised s) : s0.Raised (State.suspendPhase s p) := by
  unfold State.suspendPhase
  repeat' (first
    | with_reducible assumption | (with_reducible refine (?_ : _ ∈ movedFields); decide)
    | (with_reducible refine (?_ : s0.Raised _); fail_if_no_progress extract_lets +onlyGivenNames x
       refine (fun (_ : s0.Raised x) => ?_) ?_
       (on_goal 1 => clear_value x); (on_goal 2 => unfold x; clear x))
    | (with_reducible refine (?_ : s0.Raised _); fail_if_no_progress extract_lets +onlyGivenNames y
       clear_value (hy : y = _))
    | with_reducible apply State.upPhase_raised | with_reducible apply State.setF_raised | split
    | dsimp -zeta only)

theorem State.pgMove_raised {s0 s : State} (g : Nat) (toBackup : Bool) (h : s0.Raised s) : s0.Raised (State.pgMove s g toBackup) := by
  unfold State.pgMove
  repeat' (first
    | with_reducible assumption | (with_reducible refine (?_ : _ ∈ movedFields); decide)
    | (with_reducible refine (?_ : s0.Raised _); fail_if_no_progress extract_lets +onlyGivenNames x
       refine (fun (_ : s0.Raised x) => ?_) ?_
       (on_goal 1 => clear_value x); (on_goal 2 => unfold x; clear x))
    | (with_reducible refine (?_ : s0.Raised _); fail_if_no_progress extract_lets +onlyGivenNames x
       refine (fun (_ : s0.Raised x.1) => ?_) ?_
       (on_goal 1 => clear_value x); (on_goal 2 => unfold x; clear x))
    | (with_reducible refine (?_ : s0.Raised _); fail_if_no_progress extract_lets +onlyGivenNames x
       refine (fun (_ : s0.Raised x.2) => ?_) ?_
       (on_goal 1 => clear_value x); (on_goal 2 => unfold x; clear x))
    | (with_reducible refine (?_ : s0.Raised _); fail_if_no_progress extract_lets +onlyGivenNames y
       clear_value (hy : y = _))
    | with_reducible apply State.draw_raised
    | with_reducible refine State.draw_raised_eq (pp := (_, _)) (by assumption) ?_
    | with_reducible apply State.orF_raised | with_reducible apply State.clrF_raised
    | with_reducible exact fun hv => hv | split | dsimp -zeta only
    | with_reducible refine State.Raised.lit ?_ ?_ ?_ ?_ ?_ ?_ | rfl | (subst_vars; rfl) | exact ⟨rfl, rfl⟩ | (subst_vars; exact ⟨rfl, rfl⟩) | exact fun _ h => ⟨h, Nat.le_refl _⟩ | exact fun _ h => h | exact ⟨rfl, fun h => h⟩ | exact fun _ => Nat.one_ne_zero | (subst_vars; exact ⟨rfl, fun h => by simp_all⟩) | (intro i hi; simp only [Tab.getD_set] at hi ⊢; split <;> simp_all [State.faultSt] <;> split <;> simp_all <;> omega) | (intro i hi; simp only [Tab.getD_set] at hi ⊢; split <;> simp_all [State.faultSt]))

theorem State.pgEval_raised {s0 s : State} (g : Nat) (h : s0.Raised s) : s0.Raised (State.pgEval s g) := by
  unfold State.pgEval
  repeat' (first
    | with_reducible assumption | (with_reducible refine (?_ : _ ∈ movedFields); decide)
    | (with_reducible refine (?_ : s0.Raised _); fail_if_no_progress extract_lets +onlyGivenNames x
       refine (fun (_ : s0.Raised x) => ?_) ?_
       (on_goal 1 => clear_value x); (on_goal 2 => unfold x; clear x))
    | (with_reducible refine (?_ : s0.Raised _); fail_if_no_progress extract_lets +onlyGivenNames y
       clear_value (hy : y = _))
    | with_reducible apply State.pgMove_raised | split
    | with_reducible refine State.Raised.lit ?_ ?_ ?_ ?_ ?_ ?_ | rfl | (subst_vars; rfl) | exact ⟨rfl, rfl⟩ | (subst_vars; exact ⟨rfl, rfl⟩) | exact fun _ h => ⟨h, Nat.le_refl _⟩ | exact fun _ h => h | exact ⟨rfl, fun h => h⟩ | exact fun _ => Nat.one_ne_zero | (subst_vars; exact ⟨rfl, fun h => by simp_all⟩) | (intro i hi; simp only [Tab.getD_set] at hi ⊢; split <;> simp_all [State.faultSt] <;> split <;> simp_all <;> omega) | (intro i hi; simp only [Tab.getD_set] at hi ⊢; split <;> simp_all [State.faultSt]))

theorem State.pgPort_raised {s0 s : State} (p : Nat) (h : s0.Raised s) : s0.Raised (State.pgPort s p) := by
  unfold State.pgPort
  repeat' (first
    | with_reducible assumption | (with_reducible refine (?_ : _ ∈ movedFields); decide)
    | with_reducible apply State.pgEval_raised | split
    | with_reducible refine State.Raised.lit ?_ ?_ ?_ ?_ ?_ ?_ | rfl | (subst_vars; rfl) | exact ⟨rfl, rfl⟩ | (subst_vars; exact ⟨rfl, rfl⟩) | exact fun _ h => ⟨h, Nat.le_refl _⟩ | exact fun _ h => h | exact ⟨rfl, fun h => h⟩ | exact fun _ => Nat.one_ne_zero | (subst_vars; exact ⟨rfl, fun h => by simp_all⟩) | (intro i hi; simp only [Tab.getD_set] at hi ⊢; split <;> simp_all [State.faultSt] <;> split <;> simp_all <;> omega) | (intro i hi; simp only [Tab.getD_set] at hi ⊢; split <;> simp_all [State.faultSt]))

theorem State.cutShort_raised {s0 s : State} (p : Nat) (h : s0.Raised s) : s0.Raised (State.cutShort s p) := by
  unfold State.cutShort
  repeat' (first
    | with_reducible assumption | (with_reducible refine (?_ : _ ∈ movedFields); decide)
    | (with_reducible refine (?_ : s0.Raised _); fail_if_no_progress extract_lets +onlyGivenNames x
       refine (fun (_ : s0.Raised x) => ?_) ?_
       (on_goal 1 => clear_value x); (on_goal 2 => unfold x; clear x))
    | (with_reducible refine (?_ : s0.Raised _); fail_if_no_progress extract_lets +onlyGivenNames x
       refine (fun (_ : s0.Raised x.1) => ?_) ?_
       (on_goal 1 => clear_value x); (on_goal 2 => unfold x; clear x))
    | (with_reducible refine (?_ : s0.Raised _); fail_if_no_progress extract_lets +onlyGivenNames x
       refine (fun (_ : s0.Raised x.2) => ?_) ?_
       (on_goal 1 => clear_value x); (on_goal 2 => unfold x; clear x))
    | (with_reducible refine (?_ : s0.Raised _); fail_if_no_progress extract_lets +onlyGivenNames y
       clear_value (hy : y = _))
    | with_reducible apply State.draw_raised
    | with_reducible refine State.draw_raised_eq (pp := (_, _)) (by assumption) ?_
    | with_reducible apply State.countE_raised | with_reducible apply State.emit_raised
    | with_reducible apply State.upQueue_raised | with_reducible apply State.countS_raised
    | with_reducible apply State.dropEgress_raised
    | with_reducible exact fun hv => hv | split | dsimp -zeta only
    | with_reducible refine State.Raised.lit ?_ ?_ ?_ ?_ ?_ ?_ | rfl | (subst_vars; rfl) | exact ⟨rfl, rfl⟩ | (subst_vars; exact ⟨rfl, rfl⟩) | exact fun _ h => ⟨h, Nat.le_refl _⟩ | exact fun _ h => h | exact ⟨rfl, fun h => h⟩ | exact fun _ => Nat.one_ne_zero | (subst_vars; exact ⟨rfl, fun h => by simp_all⟩) | (intro i hi; simp only [Tab.getD_set] at hi ⊢; split <;> simp_all [State.faultSt] <;> split <;> simp_all <;> omega) | (intro i hi; simp only [Tab.getD_set] at hi ⊢; split <;> simp_all [State.faultSt]))

theorem State.enterDown_raised {s0 s : State} (p : Nat) (cause : Nat) (h : s0.Raised s) : s0.Raised (State.enterDown s p cause) := by
  unfold State.enterDown
  repeat' (first
    | with_reducible assumption | (with_reducible refine (?_ : _ ∈ movedFields); decide)
    | (with_reducible refine (?_ : s0.Raised _); fail_if_no_progress extract_lets +onlyGivenNames x
       refine (fun (_ : s0.Raised x) => ?_) ?_
       (on_goal 1 => clear_value x); (on_goal 2 => unfold x; clear x))
    | (with_reducible refine (?_ : s0.Raised _); fail_if_no_progress extract_lets +onlyGivenNames y
       clear_value (hy : y = _))
    | with_reducible apply State.setPortState_raised | with_reducible apply State.setF_raised
    | with_reducible apply State.countS_raised | split)

theorem State.leaveLine_raised {s0 s : State} (p : Nat) (st : Nat) (cause : Nat) (failed : Nat) (h : s0.Raised s) : s0.Raised (State.leaveLine s p st cause failed) := by
  unfold State.leaveLine
  repeat' (first
    | with_reducible assumption | (with_reducible refine (?_ : _ ∈ movedFields); decide)
    | (with_reducible refine (?_ : s0.Raised _); fail_if_no_progress extract_lets +onlyGivenNames x
       refine (fun (_ : s0.Raised x) => ?_) ?_
       (on_goal 1 => clear_value x); (on_goal 2 => unfold x; clear x))
    | (with_reducible refine (?_ : s0.Raised _); fail_if_no_progress extract_lets +onlyGivenNames y
       clear_value (hy : y = _))
    | with_reducible apply State.pgPort_raised | with_reducible apply State.cutShort_raised
    | with_reducible apply State.upPort_raised | with_reducible apply State.emit_raised
    | with_reducible apply State.setF_raised | with_reducible apply State.flushPort_raised
    | with_reducible apply State.slotsLost_raised | with_reducible apply State.suspendPhase_raised
    | with_reducible apply State.freezeLanes_raised | with_reducible apply State.linkChange_raised
    | with_reducible exact fun hv => hv | split | dsimp -zeta only
    | with_reducible refine State.Raised.lit ?_ ?_ ?_ ?_ ?_ ?_ | rfl | (subst_vars; rfl) | exact ⟨rfl, rfl⟩ | (subst_vars; exact ⟨rfl, rfl⟩) | exact fun _ h => ⟨h, Nat.le_refl _⟩ | exact fun _ h => h | exact ⟨rfl, fun h => h⟩ | exact fun _ => Nat.one_ne_zero | (subst_vars; exact ⟨rfl, fun h => by simp_all⟩) | (intro i hi; simp only [Tab.getD_set] at hi ⊢; split <;> simp_all [State.faultSt] <;> split <;> simp_all <;> omega) | (intro i hi; simp only [Tab.getD_set] at hi ⊢; split <;> simp_all [State.faultSt]))

theorem State.tileDown_raised {s0 s : State} (t : Nat) (h : s0.Raised s) : s0.Raised (State.tileDown s t) := by
  unfold State.tileDown
  repeat' (first
    | with_reducible assumption | (with_reducible refine (?_ : _ ∈ movedFields); decide)
    | (with_reducible refine (?_ : s0.Raised _); fail_if_no_progress extract_lets +onlyGivenNames x
       refine (fun (_ : s0.Raised x) => ?_) ?_
       (on_goal 1 => clear_value x); (on_goal 2 => unfold x; clear x))
    | (with_reducible refine (?_ : s0.Raised _); fail_if_no_progress extract_lets +onlyGivenNames x
       refine (fun (_ : s0.Raised x.1) => ?_) ?_
       (on_goal 1 => clear_value x); (on_goal 2 => unfold x; clear x))
    | (with_reducible refine (?_ : s0.Raised _); fail_if_no_progress extract_lets +onlyGivenNames x
       refine (fun (_ : s0.Raised x.2) => ?_) ?_
       (on_goal 1 => clear_value x); (on_goal 2 => unfold x; clear x))
    | (with_reducible refine (?_ : s0.Raised _); fail_if_no_progress extract_lets +onlyGivenNames y
       clear_value (hy : y = _))
    | with_reducible apply State.enterDown_raised | with_reducible apply State.leaveLine_raised
    | (intro t a ht; with_reducible refine (?_ : s0.Raised _)) | with_reducible apply State.Raised.foldl
    | with_reducible apply State.Raised.foldlFst | with_reducible apply State.Raised.foldlSnd
    | dsimp -zeta only)

theorem State.abortTraining_raised {s0 s : State}  (h : s0.Raised s) : s0.Raised (State.abortTraining s) := by
  unfold State.abortTraining
  repeat' (first
    | with_reducible assumption | (with_reducible refine (?_ : _ ∈ movedFields); decide)
    | with_reducible apply State.linkChange_raised | with_reducible apply State.setPortState_raised
    | (intro t a ht; with_reducible refine (?_ : s0.Raised _)) | with_reducible apply State.Raised.foldl
    | split | dsimp -zeta only)

theorem State.loseFrag_raised {s0 s : State} (t : Nat) (mc : Bool) (code : Nat) (f : Frag) (h : s0.Raised s) : s0.Raised (State.loseFrag s t mc code f) := by
  unfold State.loseFrag
  repeat' (first
    | with_reducible assumption | (with_reducible refine (?_ : _ ∈ movedFields); decide)
    | (with_reducible refine (?_ : s0.Raised _); fail_if_no_progress extract_lets +onlyGivenNames y
       clear_value (hy : y = _))
    | with_reducible apply State.mcDone_raised | with_reducible apply State.countIngress_raised
    | with_reducible apply State.dropIngress_raised
    | with_reducible exact fun hv => hv | split
    | with_reducible refine State.Raised.lit ?_ ?_ ?_ ?_ ?_ ?_ | rfl | (subst_vars; rfl) | exact ⟨rfl, rfl⟩ | (subst_vars; exact ⟨rfl, rfl⟩) | exact fun _ h => ⟨h, Nat.le_refl _⟩ | exact fun _ h => h | exact ⟨rfl, fun h => h⟩ | exact fun _ => Nat.one_ne_zero | (subst_vars; exact ⟨rfl, fun h => by simp_all⟩) | (intro i hi; simp only [Tab.getD_set] at hi ⊢; split <;> simp_all [State.faultSt] <;> split <;> simp_all <;> omega) | (intro i hi; simp only [Tab.getD_set] at hi ⊢; split <;> simp_all [State.faultSt]))

theorem State.loseCell_raised {s0 s : State} (t : Nat) (code : Nat) (c : Cell) (h : s0.Raised s) : s0.Raised (State.loseCell s t code c) := by
  unfold State.loseCell
  repeat' (first
    | with_reducible assumption | (with_reducible refine (?_ : _ ∈ movedFields); decide)
    | (with_reducible refine (?_ : s0.Raised _); fail_if_no_progress extract_lets +onlyGivenNames y
       clear_value (hy : y = _))
    | with_reducible apply State.loseFrag_raised
    | (intro t a ht; with_reducible refine (?_ : s0.Raised _)) | with_reducible apply State.Raised.foldl
    | with_reducible exact fun hv => hv | dsimp -zeta only
    | with_reducible refine State.Raised.lit ?_ ?_ ?_ ?_ ?_ ?_ | rfl | (subst_vars; rfl) | exact ⟨rfl, rfl⟩ | (subst_vars; exact ⟨rfl, rfl⟩) | exact fun _ h => ⟨h, Nat.le_refl _⟩ | exact fun _ h => h | exact ⟨rfl, fun h => h⟩ | exact fun _ => Nat.one_ne_zero | (subst_vars; exact ⟨rfl, fun h => by simp_all⟩) | (intro i hi; simp only [Tab.getD_set] at hi ⊢; split <;> simp_all [State.faultSt] <;> split <;> simp_all <;> omega) | (intro i hi; simp only [Tab.getD_set] at hi ⊢; split <;> simp_all [State.faultSt]))

theorem State.dropMulticast_raised {s0 s : State} (f : Frame) (code : Nat) (h : s0.Raised s) : s0.Raised (State.dropMulticast s f code) := by
  unfold State.dropMulticast
  repeat' (first
    | with_reducible assumption | (with_reducible refine (?_ : _ ∈ movedFields); decide)
    | (with_reducible refine (?_ : s0.Raised _); fail_if_no_progress extract_lets +onlyGivenNames x
       refine (fun (_ : s0.Raised x) => ?_) ?_
       (on_goal 1 => clear_value x); (on_goal 2 => unfold x; clear x))
    | (with_reducible refine (?_ : s0.Raised _); fail_if_no_progress extract_lets +onlyGivenNames y
       clear_value (hy : y = _))
    | with_reducible apply State.countIngress_raised | with_reducible apply State.mcDone_raised
    | (intro t a ht; with_reducible refine (?_ : s0.Raised _)) | with_reducible apply State.Raised.foldl
    | split | dsimp -zeta only | with_reducible refine State.Raised.lit ?_ ?_ ?_ ?_ ?_ ?_ | rfl | (subst_vars; rfl) | exact ⟨rfl, rfl⟩ | (subst_vars; exact ⟨rfl, rfl⟩) | exact fun _ h => ⟨h, Nat.le_refl _⟩ | exact fun _ h => h | exact ⟨rfl, fun h => h⟩ | exact fun _ => Nat.one_ne_zero | (subst_vars; exact ⟨rfl, fun h => by simp_all⟩) | (intro i hi; simp only [Tab.getD_set] at hi ⊢; split <;> simp_all [State.faultSt] <;> split <;> simp_all <;> omega) | (intro i hi; simp only [Tab.getD_set] at hi ⊢; split <;> simp_all [State.faultSt]))

theorem State.creditBack_raised {s0 s : State} (m : Nat) (c : Cell) (h : s0.Raised s) : s0.Raised (State.creditBack s m c) := by
  unfold State.creditBack
  repeat' (first
    | with_reducible assumption | (with_reducible refine (?_ : _ ∈ movedFields); decide)
    | (with_reducible refine (?_ : s0.Raised _); fail_if_no_progress extract_lets +onlyGivenNames y
       clear_value (hy : y = _))
    | with_reducible exact fun hv => hv | with_reducible refine State.Raised.lit ?_ ?_ ?_ ?_ ?_ ?_ | rfl | (subst_vars; rfl) | exact ⟨rfl, rfl⟩ | (subst_vars; exact ⟨rfl, rfl⟩) | exact fun _ h => ⟨h, Nat.le_refl _⟩ | exact fun _ h => h | exact ⟨rfl, fun h => h⟩ | exact fun _ => Nat.one_ne_zero | (subst_vars; exact ⟨rfl, fun h => by simp_all⟩) | (intro i hi; simp only [Tab.getD_set] at hi ⊢; split <;> simp_all [State.faultSt] <;> split <;> simp_all <;> omega) | (intro i hi; simp only [Tab.getD_set] at hi ⊢; split <;> simp_all [State.faultSt]))

theorem State.upBank_raised {s0 s : State} (m : Nat) (f : Bank → Bank) (h : s0.Raised s) : s0.Raised (State.upBank s m f) := by
  unfold State.upBank
  repeat' (first
    | with_reducible assumption | (with_reducible refine (?_ : _ ∈ movedFields); decide)
    | (with_reducible refine (?_ : s0.Raised _); fail_if_no_progress extract_lets +onlyGivenNames y
       clear_value (hy : y = _))
    | with_reducible exact fun hv => hv | with_reducible refine State.Raised.lit ?_ ?_ ?_ ?_ ?_ ?_ | rfl | (subst_vars; rfl) | exact ⟨rfl, rfl⟩ | (subst_vars; exact ⟨rfl, rfl⟩) | exact fun _ h => ⟨h, Nat.le_refl _⟩ | exact fun _ h => h | exact ⟨rfl, fun h => h⟩ | exact fun _ => Nat.one_ne_zero | (subst_vars; exact ⟨rfl, fun h => by simp_all⟩) | (intro i hi; simp only [Tab.getD_set] at hi ⊢; split <;> simp_all [State.faultSt] <;> split <;> simp_all <;> omega) | (intro i hi; simp only [Tab.getD_set] at hi ⊢; split <;> simp_all [State.faultSt]))

theorem State.bankDiscard_raised {s0 s : State} (j : Nat) (m : Nat) (h : s0.Raised s) : s0.Raised (State.bankDiscard s j m) := by
  unfold State.bankDiscard
  repeat' (first
    | with_reducible assumption | (with_reducible refine (?_ : _ ∈ movedFields); decide)
    | (with_reducible refine (?_ : s0.Raised _); fail_if_no_progress extract_lets +onlyGivenNames x
       refine (fun (_ : s0.Raised x) => ?_) ?_
       (on_goal 1 => clear_value x); (on_goal 2 => unfold x; clear x))
    | (with_reducible refine (?_ : s0.Raised _); fail_if_no_progress extract_lets +onlyGivenNames y
       clear_value (hy : y = _))
    | with_reducible apply State.creditBack_raised | with_reducible apply State.loseCell_raised
    | with_reducible apply State.upBank_raised | (intro t a ht; with_reducible refine (?_ : s0.Raised _))
    | with_reducible apply State.Raised.foldl
    | with_reducible exact fun hv => hv | split | dsimp -zeta only
    | with_reducible refine State.Raised.lit ?_ ?_ ?_ ?_ ?_ ?_ | rfl | (subst_vars; rfl) | exact ⟨rfl, rfl⟩ | (subst_vars; exact ⟨rfl, rfl⟩) | exact fun _ h => ⟨h, Nat.le_refl _⟩ | exact fun _ h => h | exact ⟨rfl, fun h => h⟩ | exact fun _ => Nat.one_ne_zero | (subst_vars; exact ⟨rfl, fun h => by simp_all⟩) | (intro i hi; simp only [Tab.getD_set] at hi ⊢; split <;> simp_all [State.faultSt] <;> split <;> simp_all <;> omega) | (intro i hi; simp only [Tab.getD_set] at hi ⊢; split <;> simp_all [State.faultSt]))

theorem State.tileDiscard_raised {s0 s : State} (j : Nat) (h : s0.Raised s) : s0.Raised (State.tileDiscard s j) := by
  unfold State.tileDiscard
  repeat' (first
    | with_reducible assumption | (with_reducible refine (?_ : _ ∈ movedFields); decide)
    | (with_reducible refine (?_ : s0.Raised _); fail_if_no_progress extract_lets +onlyGivenNames x
       refine (fun (_ : s0.Raised x) => ?_) ?_
       (on_goal 1 => clear_value x); (on_goal 2 => unfold x; clear x))
    | (with_reducible refine (?_ : s0.Raised _); fail_if_no_progress extract_lets +onlyGivenNames x
       refine (fun (_ : s0.Raised x.1) => ?_) ?_
       (on_goal 1 => clear_value x); (on_goal 2 => unfold x; clear x))
    | (with_reducible refine (?_ : s0.Raised _); fail_if_no_progress extract_lets +onlyGivenNames x
       refine (fun (_ : s0.Raised x.2) => ?_) ?_
       (on_goal 1 => clear_value x); (on_goal 2 => unfold x; clear x))
    | (with_reducible refine (?_ : s0.Raised _); fail_if_no_progress extract_lets +onlyGivenNames y
       clear_value (hy : y = _))
    | with_reducible apply State.bankDiscard_raised | with_reducible apply State.loseCell_raised
    | with_reducible apply State.dropMulticast_raised | with_reducible apply State.dropIngress_raised
    | with_reducible apply State.txComplete_raised | with_reducible apply State.upTile_raised
    | with_reducible apply State.dropSpill_raised | with_reducible apply State.upQueue_raised
    | (intro t a ht; with_reducible refine (?_ : s0.Raised _)) | with_reducible apply State.Raised.foldl
    | with_reducible apply State.Raised.foldlFst | with_reducible apply State.Raised.foldlSnd
    | with_reducible exact fun hv => hv | split | dsimp -zeta only
    | with_reducible refine State.Raised.lit ?_ ?_ ?_ ?_ ?_ ?_ | rfl | (subst_vars; rfl) | exact ⟨rfl, rfl⟩ | (subst_vars; exact ⟨rfl, rfl⟩) | exact fun _ h => ⟨h, Nat.le_refl _⟩ | exact fun _ h => h | exact ⟨rfl, fun h => h⟩ | exact fun _ => Nat.one_ne_zero | (subst_vars; exact ⟨rfl, fun h => by simp_all⟩) | (intro i hi; simp only [Tab.getD_set] at hi ⊢; split <;> simp_all [State.faultSt] <;> split <;> simp_all <;> omega) | (intro i hi; simp only [Tab.getD_set] at hi ⊢; split <;> simp_all [State.faultSt]))

theorem State.endCondition_raised {s0 s : State} (id : Nat) (h : s0.Raised s) : s0.Raised (State.endCondition s id) := by
  unfold State.endCondition
  repeat' (first
    | with_reducible assumption | (with_reducible refine (?_ : _ ∈ movedFields); decide)
    | (with_reducible refine (?_ : s0.Raised _); fail_if_no_progress extract_lets +onlyGivenNames x
       refine (fun (_ : s0.Raised x) => ?_) ?_
       (on_goal 1 => clear_value x); (on_goal 2 => unfold x; clear x))
    | (with_reducible refine (?_ : s0.Raised _); fail_if_no_progress extract_lets +onlyGivenNames x
       refine (fun (_ : s0.Raised x.1) => ?_) ?_
       (on_goal 1 => clear_value x); (on_goal 2 => unfold x; clear x))
    | (with_reducible refine (?_ : s0.Raised _); fail_if_no_progress extract_lets +onlyGivenNames x
       refine (fun (_ : s0.Raised x.2) => ?_) ?_
       (on_goal 1 => clear_value x); (on_goal 2 => unfold x; clear x))
    | (with_reducible refine (?_ : s0.Raised _); fail_if_no_progress extract_lets +onlyGivenNames x
       refine State.Raised.cutMap (s0 := s0) x (fun hmap => ?_) ?_
       (on_goal 1 => clear_value x); (on_goal 2 => intro r hr; unfold x; clear x; try beta_reduce))
    | with_reducible apply hmap
    | (with_reducible refine (?_ : s0.Raised _); fail_if_no_progress extract_lets +onlyGivenNames x
       refine State.Raised.cutFun (s0 := s0) x (fun hfun => ?_) ?_
       (on_goal 1 => clear_value x); (on_goal 2 => intro r; unfold x; clear x; try beta_reduce))
    | with_reducible apply hfun
    | (with_reducible refine (?_ : s0.Raised _); fail_if_no_progress extract_lets +onlyGivenNames y
       clear_value (hy : y = _))
    | (intro t a ht; with_reducible refine (?_ : s0.Raised _))
    | (intro t ht; with_reducible refine (?_ : s0.Raised _)) | with_reducible apply State.Raised.foldl
    | with_reducible apply State.Raised.foldlFst | with_reducible apply State.Raised.foldlSnd
    | with_reducible exact fun hv => hv
    | (intro hv; first | exact hv | (subst_vars; first | exact hv | omega))
    | (intro r hr; first | exact hr | (revert hr; simp only [Ring.ok] <;> omega))
    | with_reducible exact Tab.rising_filter _ _
    | (intro hv; refine Tab.all_set (P := Ring.ok) _ _ _ hv ?_; simp [Ring.ok]) | split
    | dsimp -zeta only | with_reducible refine State.Raised.lit ?_ ?_ ?_ ?_ ?_ ?_ | rfl | (subst_vars; rfl) | exact ⟨rfl, rfl⟩ | (subst_vars; exact ⟨rfl, rfl⟩) | exact fun _ h => ⟨h, Nat.le_refl _⟩ | exact fun _ h => h | exact ⟨rfl, fun h => h⟩ | exact fun _ => Nat.one_ne_zero | (subst_vars; exact ⟨rfl, fun h => by simp_all⟩) | (intro i hi; simp only [Tab.getD_set] at hi ⊢; split <;> simp_all [State.faultSt] <;> split <;> simp_all <;> omega) | (intro i hi; simp only [Tab.getD_set] at hi ⊢; split <;> simp_all [State.faultSt]))

theorem State.endTimeAuth_raised {s0 s : State} (status : Nat) (h : s0.Raised s) : s0.Raised (State.endTimeAuth s status) := by
  unfold State.endTimeAuth
  repeat' (first
    | with_reducible assumption | (with_reducible refine (?_ : _ ∈ movedFields); decide)
    | (with_reducible refine (?_ : s0.Raised _); fail_if_no_progress extract_lets +onlyGivenNames x
       refine (fun (_ : s0.Raised x) => ?_) ?_
       (on_goal 1 => clear_value x); (on_goal 2 => unfold x; clear x))
    | (with_reducible refine (?_ : s0.Raised _); fail_if_no_progress extract_lets +onlyGivenNames y
       clear_value (hy : y = _))
    | with_reducible apply State.done_raised | (intro t a ht; with_reducible refine (?_ : s0.Raised _))
    | with_reducible apply State.Raised.foldl
    | with_reducible exact fun hv => hv | dsimp -zeta only
    | with_reducible refine State.Raised.lit ?_ ?_ ?_ ?_ ?_ ?_ | rfl | (subst_vars; rfl) | exact ⟨rfl, rfl⟩ | (subst_vars; exact ⟨rfl, rfl⟩) | exact fun _ h => ⟨h, Nat.le_refl _⟩ | exact fun _ h => h | exact ⟨rfl, fun h => h⟩ | exact fun _ => Nat.one_ne_zero | (subst_vars; exact ⟨rfl, fun h => by simp_all⟩) | (intro i hi; simp only [Tab.getD_set] at hi ⊢; split <;> simp_all [State.faultSt] <;> split <;> simp_all <;> omega) | (intro i hi; simp only [Tab.getD_set] at hi ⊢; split <;> simp_all [State.faultSt]))

theorem State.endTemperRun_raised {s0 s : State} (status : Nat) (r0 : Nat) (r1 : Nat) (h : s0.Raised s) : s0.Raised (State.endTemperRun s status r0 r1) := by
  unfold State.endTemperRun
  repeat' (first
    | with_reducible assumption | (with_reducible refine (?_ : _ ∈ movedFields); decide)
    | (with_reducible refine (?_ : s0.Raised _); fail_if_no_progress extract_lets +onlyGivenNames y
       clear_value (hy : y = _))
    | with_reducible apply State.done_raised
    | with_reducible exact fun hv => hv | split
    | with_reducible refine State.Raised.lit ?_ ?_ ?_ ?_ ?_ ?_ | rfl | (subst_vars; rfl) | exact ⟨rfl, rfl⟩ | (subst_vars; exact ⟨rfl, rfl⟩) | exact fun _ h => ⟨h, Nat.le_refl _⟩ | exact fun _ h => h | exact ⟨rfl, fun h => h⟩ | exact fun _ => Nat.one_ne_zero | (subst_vars; exact ⟨rfl, fun h => by simp_all⟩) | (intro i hi; simp only [Tab.getD_set] at hi ⊢; split <;> simp_all [State.faultSt] <;> split <;> simp_all <;> omega) | (intro i hi; simp only [Tab.getD_set] at hi ⊢; split <;> simp_all [State.faultSt]))

theorem State.temperSuspend_raised {s0 s : State}  (h : s0.Raised s) : s0.Raised (State.temperSuspend s) := by
  unfold State.temperSuspend
  repeat' (first
    | with_reducible assumption | (with_reducible refine (?_ : _ ∈ movedFields); decide)
    | (with_reducible refine (?_ : s0.Raised _); fail_if_no_progress extract_lets +onlyGivenNames x
       refine (fun (_ : s0.Raised x) => ?_) ?_
       (on_goal 1 => clear_value x); (on_goal 2 => unfold x; clear x))
    | (with_reducible refine (?_ : s0.Raised _); fail_if_no_progress extract_lets +onlyGivenNames x
       refine (fun (_ : s0.Raised x.1) => ?_) ?_
       (on_goal 1 => clear_value x); (on_goal 2 => unfold x; clear x))
    | (with_reducible refine (?_ : s0.Raised _); fail_if_no_progress extract_lets +onlyGivenNames x
       refine (fun (_ : s0.Raised x.2) => ?_) ?_
       (on_goal 1 => clear_value x); (on_goal 2 => unfold x; clear x))
    | (with_reducible refine (?_ : s0.Raised _); fail_if_no_progress extract_lets +onlyGivenNames y
       clear_value (hy : y = _))
    | with_reducible apply State.setF_raised | with_reducible apply State.endTemperRun_raised
    | with_reducible exact fun hv => hv | dsimp -zeta only
    | with_reducible refine State.Raised.lit ?_ ?_ ?_ ?_ ?_ ?_ | rfl | (subst_vars; rfl) | exact ⟨rfl, rfl⟩ | (subst_vars; exact ⟨rfl, rfl⟩) | exact fun _ h => ⟨h, Nat.le_refl _⟩ | exact fun _ h => h | exact ⟨rfl, fun h => h⟩ | exact fun _ => Nat.one_ne_zero | (subst_vars; exact ⟨rfl, fun h => by simp_all⟩) | (intro i hi; simp only [Tab.getD_set] at hi ⊢; split <;> simp_all [State.faultSt] <;> split <;> simp_all <;> omega) | (intro i hi; simp only [Tab.getD_set] at hi ⊢; split <;> simp_all [State.faultSt]))

theorem State.fwStops_raised {s0 s : State}  (h : s0.Raised s) : s0.Raised (State.fwStops s) := by
  unfold State.fwStops
  repeat' (first
    | with_reducible assumption | (with_reducible refine (?_ : _ ∈ movedFields); decide)
    | (with_reducible refine (?_ : s0.Raised _); fail_if_no_progress extract_lets +onlyGivenNames x
       refine (fun (_ : s0.Raised x) => ?_) ?_
       (on_goal 1 => clear_value x); (on_goal 2 => unfold x; clear x))
    | (with_reducible refine (?_ : s0.Raised _); fail_if_no_progress extract_lets +onlyGivenNames y
       clear_value (hy : y = _))
    | with_reducible apply State.endCondition_raised | with_reducible apply State.setF_raised
    | with_reducible apply State.abortTraining_raised | with_reducible apply State.endTimeAuth_raised
    | with_reducible apply State.done_raised | with_reducible apply State.temperSuspend_raised
    | with_reducible apply State.flushQueue_raised
    | (intro t a ht; with_reducible refine (?_ : s0.Raised _)) | with_reducible apply State.Raised.foldl
    | with_reducible exact fun hv => hv | split | dsimp -zeta only
    | with_reducible refine State.Raised.lit ?_ ?_ ?_ ?_ ?_ ?_ | rfl | (subst_vars; rfl) | exact ⟨rfl, rfl⟩ | (subst_vars; exact ⟨rfl, rfl⟩) | exact fun _ h => ⟨h, Nat.le_refl _⟩ | exact fun _ h => h | exact ⟨rfl, fun h => h⟩ | exact fun _ => Nat.one_ne_zero | (subst_vars; exact ⟨rfl, fun h => by simp_all⟩) | (intro i hi; simp only [Tab.getD_set] at hi ⊢; split <;> simp_all [State.faultSt] <;> split <;> simp_all <;> omega) | (intro i hi; simp only [Tab.getD_set] at hi ⊢; split <;> simp_all [State.faultSt]))

theorem State.hmkDiscard_raised {s0 s : State}  (h : s0.Raised s) : s0.Raised (State.hmkDiscard s) := by
  unfold State.hmkDiscard
  repeat' (first
    | with_reducible assumption | (with_reducible refine (?_ : _ ∈ movedFields); decide)
    | (with_reducible refine (?_ : s0.Raised _); fail_if_no_progress extract_lets +onlyGivenNames x
       refine (fun (_ : s0.Raised x) => ?_) ?_
       (on_goal 1 => clear_value x); (on_goal 2 => unfold x; clear x))
    | (with_reducible refine (?_ : s0.Raised _); fail_if_no_progress extract_lets +onlyGivenNames y
       clear_value (hy : y = _))
    | with_reducible apply State.orF_raised | with_reducible apply State.addF_raised
    | with_reducible exact fun hv => hv
    | (intro hv; first | exact hv | (subst_vars; first | exact hv | omega)) | split
    | with_reducible refine State.Raised.lit ?_ ?_ ?_ ?_ ?_ ?_ | rfl | (subst_vars; rfl) | exact ⟨rfl, rfl⟩ | (subst_vars; exact ⟨rfl, rfl⟩) | exact fun _ h => ⟨h, Nat.le_refl _⟩ | exact fun _ h => h | exact ⟨rfl, fun h => h⟩ | exact fun _ => Nat.one_ne_zero | (subst_vars; exact ⟨rfl, fun h => by simp_all⟩) | (intro i hi; simp only [Tab.getD_set] at hi ⊢; split <;> simp_all [State.faultSt] <;> split <;> simp_all <;> omega) | (intro i hi; simp only [Tab.getD_set] at hi ⊢; split <;> simp_all [State.faultSt]))

theorem State.countDrops_raised {s0 s : State}  (h : s0.Raised s) : s0.Raised (State.countDrops s) := by
  unfold State.countDrops
  repeat' (first
    | with_reducible assumption | (with_reducible refine (?_ : _ ∈ movedFields); decide)
    | (with_reducible refine (?_ : s0.Raised _); fail_if_no_progress extract_lets +onlyGivenNames x
       refine (fun (_ : s0.Raised x) => ?_) ?_
       (on_goal 1 => clear_value x); (on_goal 2 => unfold x; clear x))
    | (with_reducible refine (?_ : s0.Raised _); fail_if_no_progress extract_lets +onlyGivenNames x
       refine (fun (_ : s0.Raised x.1) => ?_) ?_
       (on_goal 1 => clear_value x); (on_goal 2 => unfold x; clear x))
    | (with_reducible refine (?_ : s0.Raised _); fail_if_no_progress extract_lets +onlyGivenNames x
       refine (fun (_ : s0.Raised x.2) => ?_) ?_
       (on_goal 1 => clear_value x); (on_goal 2 => unfold x; clear x))
    | (with_reducible refine (?_ : s0.Raised _); fail_if_no_progress extract_lets +onlyGivenNames y
       clear_value (hy : y = _))
    | with_reducible apply State.draw_raised
    | with_reducible refine State.draw_raised_eq (pp := (_, _)) (by assumption) ?_
    | with_reducible apply State.addF_raised | dsimp -zeta only)

theorem State.fenceAccept_raised {s0 s : State} (who : Requester) (d : Nat) (fault : Option Nat) (h : s0.Raised s) : s0.Raised (State.fenceAccept s who d fault) := by
  unfold State.fenceAccept
  repeat' (first
    | with_reducible assumption | (with_reducible refine (?_ : _ ∈ movedFields); decide)
    | (with_reducible refine (?_ : s0.Raised _); fail_if_no_progress extract_lets +onlyGivenNames x
       refine (fun (_ : s0.Raised x) => ?_) ?_
       (on_goal 1 => clear_value x); (on_goal 2 => unfold x; clear x))
    | (with_reducible refine (?_ : s0.Raised _); fail_if_no_progress extract_lets +onlyGivenNames y
       clear_value (hy : y = _))
    | with_reducible apply State.countDrops_raised | with_reducible apply State.upFence_raised
    | with_reducible apply State.orF_raised | with_reducible apply State.tileDiscard_raised
    | with_reducible apply State.tileDown_raised | with_reducible apply State.fwStops_raised
    | with_reducible apply State.temperSuspend_raised | with_reducible apply State.hmkDiscard_raised
    | with_reducible exact fun hv => hv
    | (intro r hr; first | exact hr | (revert hr; simp only [Ring.ok] <;> omega)) | split
    | dsimp -zeta only | with_reducible refine State.Raised.lit ?_ ?_ ?_ ?_ ?_ ?_ | rfl | (subst_vars; rfl) | exact ⟨rfl, rfl⟩ | (subst_vars; exact ⟨rfl, rfl⟩) | exact fun _ h => ⟨h, Nat.le_refl _⟩ | exact fun _ h => h | exact ⟨rfl, fun h => h⟩ | exact fun _ => Nat.one_ne_zero | (subst_vars; exact ⟨rfl, fun h => by simp_all⟩) | (intro i hi; simp only [Tab.getD_set] at hi ⊢; split <;> simp_all [State.faultSt] <;> split <;> simp_all <;> omega) | (intro i hi; simp only [Tab.getD_set] at hi ⊢; split <;> simp_all [State.faultSt]))

theorem State.fenceAsk_raised {s0 s : State} (who : Requester) (d : Nat) (fault : Option Nat) (h : s0.Raised s) : s0.Raised (State.fenceAsk s who d fault) := by
  unfold State.fenceAsk
  repeat' (first
    | with_reducible assumption | (with_reducible refine (?_ : _ ∈ movedFields); decide)
    | (with_reducible refine (?_ : s0.Raised _); fail_if_no_progress extract_lets +onlyGivenNames x
       refine (fun (_ : s0.Raised x) => ?_) ?_
       (on_goal 1 => clear_value x); (on_goal 2 => unfold x; clear x))
    | (with_reducible refine (?_ : s0.Raised _); fail_if_no_progress extract_lets +onlyGivenNames y
       clear_value (hy : y = _))
    | with_reducible apply State.setF_raised | with_reducible apply State.fenceAccept_raised | split)

theorem State.cutPins_raised {s0 s : State} (old : State) (h : s0.Raised s) : s0.Raised (State.cutPins s old) := by
  unfold State.cutPins
  repeat' (first
    | with_reducible assumption | (with_reducible refine (?_ : _ ∈ movedFields); decide)
    | (with_reducible refine (?_ : s0.Raised _); fail_if_no_progress extract_lets +onlyGivenNames x
       refine (fun (_ : s0.Raised x) => ?_) ?_
       (on_goal 1 => clear_value x); (on_goal 2 => unfold x; clear x))
    | (with_reducible refine (?_ : s0.Raised _); fail_if_no_progress extract_lets +onlyGivenNames y
       clear_value (hy : y = _))
    | with_reducible apply State.emit_raised | (intro t a ht; with_reducible refine (?_ : s0.Raised _))
    | with_reducible apply State.Raised.foldl
    | with_reducible exact fun hv => hv | split | dsimp -zeta only
    | with_reducible refine State.Raised.lit ?_ ?_ ?_ ?_ ?_ ?_ | rfl | (subst_vars; rfl) | exact ⟨rfl, rfl⟩ | (subst_vars; exact ⟨rfl, rfl⟩) | exact fun _ h => ⟨h, Nat.le_refl _⟩ | exact fun _ h => h | exact ⟨rfl, fun h => h⟩ | exact fun _ => Nat.one_ne_zero | (subst_vars; exact ⟨rfl, fun h => by simp_all⟩) | (intro i hi; simp only [Tab.getD_set] at hi ⊢; split <;> simp_all [State.faultSt] <;> split <;> simp_all <;> omega) | (intro i hi; simp only [Tab.getD_set] at hi ⊢; split <;> simp_all [State.faultSt]))

theorem State.faultEvent_raised {s0 s : State} (id : Nat) (h : s0.Raised s) : s0.Raised (State.faultEvent s id) := by
  unfold State.faultEvent
  repeat' (first
    | with_reducible assumption | (with_reducible refine (?_ : _ ∈ movedFields); decide)
    | (with_reducible refine (?_ : s0.Raised _); fail_if_no_progress extract_lets +onlyGivenNames x
       refine (fun (_ : s0.Raised x) => ?_) ?_
       (on_goal 1 => clear_value x); (on_goal 2 => unfold x; clear x))
    | (with_reducible refine (?_ : s0.Raised _); fail_if_no_progress extract_lets +onlyGivenNames y
       clear_value (hy : y = _))
    | with_reducible apply State.event_raised
    | with_reducible exact fun hv => hv | split
    | with_reducible refine State.Raised.lit ?_ ?_ ?_ ?_ ?_ ?_ | rfl | (subst_vars; rfl) | exact ⟨rfl, rfl⟩ | (subst_vars; exact ⟨rfl, rfl⟩) | exact fun _ h => ⟨h, Nat.le_refl _⟩ | exact fun _ h => h | exact ⟨rfl, fun h => h⟩ | exact fun _ => Nat.one_ne_zero | (subst_vars; exact ⟨rfl, fun h => by simp_all⟩) | (intro i hi; simp only [Tab.getD_set] at hi ⊢; split <;> simp_all [State.faultSt] <;> split <;> simp_all <;> omega) | (intro i hi; simp only [Tab.getD_set] at hi ⊢; split <;> simp_all [State.faultSt]))

theorem State.isolateFence_raised {s0 s : State} (id : Nat) (h : s0.Raised s) : s0.Raised (State.isolateFence s id) := by
  unfold State.isolateFence
  repeat' (first
    | with_reducible assumption | (with_reducible refine (?_ : _ ∈ movedFields); decide)
    | with_reducible apply State.fenceAsk_raised | split
    | with_reducible refine State.Raised.lit ?_ ?_ ?_ ?_ ?_ ?_ | rfl | (subst_vars; rfl) | exact ⟨rfl, rfl⟩ | (subst_vars; exact ⟨rfl, rfl⟩) | exact fun _ h => ⟨h, Nat.le_refl _⟩ | exact fun _ h => h | exact ⟨rfl, fun h => h⟩ | exact fun _ => Nat.one_ne_zero | (subst_vars; exact ⟨rfl, fun h => by simp_all⟩) | (intro i hi; simp only [Tab.getD_set] at hi ⊢; split <;> simp_all [State.faultSt] <;> split <;> simp_all <;> omega) | (intro i hi; simp only [Tab.getD_set] at hi ⊢; split <;> simp_all [State.faultSt]))

theorem State.latchNew_raised {s0 s : State} (o : FaultOcc) (same : Bool) (hl : (s.faultSt o.id).latched = false)
    (he : s.latched.isEmpty = true → ¬ ∃ id, (s0.faultSt id).latched = true) (h : s0.Raised s) :
    s0.Raised (State.latchNew s o same) := by
  unfold State.latchNew
  repeat' (first
    | with_reducible assumption | (with_reducible refine (?_ : _ ∈ movedFields); decide)
    | (with_reducible refine (?_ : s0.Raised _); fail_if_no_progress extract_lets +onlyGivenNames x
       refine (fun (_ : s0.Raised x) => ?_) ?_
       (on_goal 1 => clear_value x); (on_goal 2 => unfold x; clear x))
    | (with_reducible refine (?_ : s0.Raised _); fail_if_no_progress extract_lets +onlyGivenNames x
       refine (fun (_ : s0.Raised x.1) => ?_) ?_
       (on_goal 1 => clear_value x); (on_goal 2 => unfold x; clear x))
    | (with_reducible refine (?_ : s0.Raised _); fail_if_no_progress extract_lets +onlyGivenNames x
       refine (fun (_ : s0.Raised x.2) => ?_) ?_
       (on_goal 1 => clear_value x); (on_goal 2 => unfold x; clear x))
    | (with_reducible refine (?_ : s0.Raised _); fail_if_no_progress extract_lets +onlyGivenNames y
       clear_value (hy : y = _))
    | (refine State.setFirst_raised _ _ _ (by decide) (he (by simp_all)) ?_)
    | with_reducible apply State.setF_raised | with_reducible apply State.isolateFence_raised
    | with_reducible apply State.faultEvent_raised
    | with_reducible exact fun hv => hv | split | dsimp -zeta only
    | with_reducible refine State.Raised.lit ?_ ?_ ?_ ?_ ?_ ?_ | rfl | (subst_vars; rfl) | exact ⟨rfl, rfl⟩ | (subst_vars; exact ⟨rfl, rfl⟩) | exact fun _ h => ⟨h, Nat.le_refl _⟩ | exact fun _ h => h | exact ⟨rfl, fun h => h⟩ | exact fun _ => Nat.one_ne_zero | (subst_vars; exact ⟨rfl, fun h => by simp_all⟩) | (intro i hi; simp only [Tab.getD_set] at hi ⊢; split <;> simp_all [State.faultSt] <;> split <;> simp_all <;> omega) | (intro i hi; simp only [Tab.getD_set] at hi ⊢; split <;> simp_all [State.faultSt]))

theorem State.latchAgain_raised {s0 s : State} (o : FaultOcc) (h : s0.Raised s) : s0.Raised (State.latchAgain s o) := by
  unfold State.latchAgain
  repeat' (first
    | with_reducible assumption | (with_reducible refine (?_ : _ ∈ movedFields); decide)
    | (with_reducible refine (?_ : s0.Raised _); fail_if_no_progress extract_lets +onlyGivenNames x
       refine (fun (_ : s0.Raised x) => ?_) ?_
       (on_goal 1 => clear_value x); (on_goal 2 => unfold x; clear x))
    | (with_reducible refine (?_ : s0.Raised _); fail_if_no_progress extract_lets +onlyGivenNames y
       clear_value (hy : y = _))
    | with_reducible apply State.isolateFence_raised | with_reducible apply State.faultEvent_raised
    | with_reducible apply State.setF_raised
    | with_reducible exact fun hv => hv | split | dsimp -zeta only
    | with_reducible refine State.Raised.lit ?_ ?_ ?_ ?_ ?_ ?_ | rfl | (subst_vars; rfl) | exact ⟨rfl, rfl⟩ | (subst_vars; exact ⟨rfl, rfl⟩) | exact fun _ h => ⟨h, Nat.le_refl _⟩ | exact fun _ h => h | exact ⟨rfl, fun h => h⟩ | exact fun _ => Nat.one_ne_zero | (subst_vars; exact ⟨rfl, fun h => by simp_all⟩) | (intro i hi; simp only [Tab.getD_set] at hi ⊢; split <;> simp_all [State.faultSt] <;> split <;> simp_all <;> omega) | (intro i hi; simp only [Tab.getD_set] at hi ⊢; split <;> simp_all [State.faultSt]))

theorem State.occur_raised {s0 s : State} (o : FaultOcc) (same : Bool) (h : s0.Raised s) :
    s0.Raised (State.occur s o same) := by
  unfold State.occur
  split
  · exact State.latchAgain_raised o h
  · exact State.latchNew_raised o same (by cases e : (s.faultSt o.id).latched <;> simp_all)
      (fun e ⟨id, hi⟩ => s.latched_mem (h.latched id hi).1 (by simpa using e)) h

theorem State.raiseCycle_raised {s0 s : State} (l : List FaultOcc) (h : s0.Raised s) : s0.Raised (State.raiseCycle s l) := by
  unfold State.raiseCycle
  repeat' (first
    | with_reducible assumption | (with_reducible refine (?_ : _ ∈ movedFields); decide)
    | (with_reducible refine (?_ : s0.Raised _); fail_if_no_progress extract_lets +onlyGivenNames x
       refine (fun (_ : s0.Raised x) => ?_) ?_
       (on_goal 1 => clear_value x); (on_goal 2 => unfold x; clear x))
    | (with_reducible refine (?_ : s0.Raised _); fail_if_no_progress extract_lets +onlyGivenNames x
       refine (fun (_ : s0.Raised x.1) => ?_) ?_
       (on_goal 1 => clear_value x); (on_goal 2 => unfold x; clear x))
    | (with_reducible refine (?_ : s0.Raised _); fail_if_no_progress extract_lets +onlyGivenNames x
       refine (fun (_ : s0.Raised x.2) => ?_) ?_
       (on_goal 1 => clear_value x); (on_goal 2 => unfold x; clear x))
    | (with_reducible refine (?_ : s0.Raised _); fail_if_no_progress extract_lets +onlyGivenNames y
       clear_value (hy : y = _))
    | with_reducible apply State.cutPins_raised | with_reducible apply State.occur_raised
    | with_reducible apply State.setF_raised | (intro t a ht; with_reducible refine (?_ : s0.Raised _))
    | with_reducible apply State.Raised.foldl | with_reducible apply State.Raised.foldlFst
    | with_reducible apply State.Raised.foldlSnd | split | dsimp -zeta only)

theorem State.raise_raised {s0 s : State} (id : Nat) (detail : Nat) (kind : Nat) (mid : Nat) (h : s0.Raised s) : s0.Raised (State.raise s id detail kind mid) := by
  unfold State.raise
  repeat' (first
    | with_reducible assumption | (with_reducible refine (?_ : _ ∈ movedFields); decide)
    | with_reducible apply State.raiseCycle_raised)

theorem State.raiseOnce_raised {s0 s : State} (id : Nat) (detail : Nat) (kind : Nat) (mid : Nat) (h : s0.Raised s) : s0.Raised (State.raiseOnce s id detail kind mid) := by
  unfold State.raiseOnce
  repeat' (first
    | with_reducible assumption | (with_reducible refine (?_ : _ ∈ movedFields); decide)
    | with_reducible apply State.raiseCycle_raised)

theorem State.portNotice_raised {s0 s : State} (p : Nat) (h : s0.Raised s) : s0.Raised (State.portNotice s p) := by
  unfold State.portNotice
  repeat' (first
    | with_reducible assumption | (with_reducible refine (?_ : _ ∈ movedFields); decide)
    | (with_reducible refine (?_ : s0.Raised _); fail_if_no_progress extract_lets +onlyGivenNames y
       clear_value (hy : y = _))
    | with_reducible apply State.raiseOnce_raised
    | with_reducible exact fun hv => hv | with_reducible refine State.Raised.lit ?_ ?_ ?_ ?_ ?_ ?_ | rfl | (subst_vars; rfl) | exact ⟨rfl, rfl⟩ | (subst_vars; exact ⟨rfl, rfl⟩) | exact fun _ h => ⟨h, Nat.le_refl _⟩ | exact fun _ h => h | exact ⟨rfl, fun h => h⟩ | exact fun _ => Nat.one_ne_zero | (subst_vars; exact ⟨rfl, fun h => by simp_all⟩) | (intro i hi; simp only [Tab.getD_set] at hi ⊢; split <;> simp_all [State.faultSt] <;> split <;> simp_all <;> omega) | (intro i hi; simp only [Tab.getD_set] at hi ⊢; split <;> simp_all [State.faultSt]))

/-- A fault that becomes latched is latched. -/
theorem State.latchNew_latched (s : State) (o : FaultOcc) (same : Bool) :
    ((s.latchNew o same).faultSt o.id).latched = true := by
  unfold State.latchNew
  extract_lets conf esc applied first k r f q s1 s2 s3 s4 s5
  have h1 : (s1.faultSt o.id).latched = true := by simp [s1, State.faultSt, f]
  have h2 : s2.quench = s1.quench := by unfold s2; split <;> rfl
  have h3 : s3.quench = s2.quench := by unfold s3; split <;> rfl
  have h4 : s4.quench = s3.quench := by unfold s4; split <;> rfl
  have h5 : s5.quench = s4.quench := by unfold s5; split <;> rfl
  clear_value s5 s4 s3 s2 s1
  have hq : (s5.faultSt o.id).latched = true := by simp only [State.faultSt, h5, h4, h3, h2]; exact h1
  exact ((State.isolateFence_raised _ (State.faultEvent_raised _ (.refl s5))).latched _ hq).1

/-- An occurrence that Quench sees is latched after its cycle (R443, R451). -/
theorem State.raiseCycle_latched (s : State) (o : FaultOcc) (hn : faultNamed o.id = true) (hm : s.masked o.id = false)
    (hp : (s.faultSt o.id).present = false ∨ faultTarget o.id = .guarded) :
    ((s.raiseCycle [o]).faultSt o.id).latched = true := by
  have hf : [o].filter (fun o => faultNamed o.id && !s.masked o.id &&
      (!(s.faultSt o.id).present || faultTarget o.id == .guarded)) = [o] := by
    rcases hp with hp | hp <;> simp [hn, hm, hp]
  have ho : ((s.occur o false).faultSt o.id).latched = true := by
    unfold State.occur
    split
    · exact (State.latchAgain_raised _ (.refl s)).latched _ (by assumption) |>.1
    · exact State.latchNew_latched s o false
  have hr : s.ranked [o] = [o] := rfl
  have hc := ((State.cutPins_raised s (.refl (s.occur o false))).latched _ ho).1
  simp only [State.raiseCycle, hf, hr, List.foldl]
  generalize (s.occur o false).cutPins s = u at hc ⊢
  split
  · exact (State.setF_raised _ _ _ (by decide) (.refl _)).latched _ hc |>.1
  · exact hc

end Sys2Proof.Machine
end

