-- ==== Sys2Proof/Laws/Still.lean ====
section
/-!
SUPPORT. Reading registers and the indexed parts of State after a write, and what counting, tracing, entries, completions
and interrupts change at most (`State.Still`, `State.Quiet`), once for each shared operation of Machine/Ops.lean.
-/

namespace Sys2Proof.Machine

/-! ### Registers -/

/-- A read after a write to the same copy gives the value written, modulo the field's width. -/
theorem State.getF_setF_same (s : State) (f : Fld) (v i : Nat) : (s.setF f v i).getF f i = v % 2 ^ f.width := by
  simp [State.getF, State.setF, Tab.getD_setD]

/-- A write leaves every other field, and every other copy, alone. -/
theorem State.getF_setF_other (s : State) (f g : Fld) (v i j : Nat)
    (h : g.id ≠ f.id ∨ j % 65536 ≠ i % 65536) : (s.setF f v i).getF g j = s.getF g j := by
  have hk : g.id * 65536 + j % 65536 ≠ f.id * 65536 + i % 65536 := by omega
  simp [State.getF, State.setF, Tab.getD_setD, hk]

@[simp] theorem State.setF_rings (s : State) (f : Fld) (v i : Nat) : (s.setF f v i).rings = s.rings := rfl
@[simp] theorem State.setF_out (s : State) (f : Fld) (v i : Nat) : (s.setF f v i).out = s.out := rfl
@[simp] theorem State.setF_fns (s : State) (f : Fld) (v i : Nat) : (s.setF f v i).fns = s.fns := rfl

theorem State.ring_upRing (s : State) (n k : Nat) (f : Ring → Ring) :
    (s.upRing n f).ring k = if k = n then f (s.ring n) else s.ring k := by
  simp [State.ring, State.upRing, Tab.getD_update]

theorem State.fn_upFn (s : State) (n k : Nat) (f : Fn → Fn) :
    (s.upFn n f).fn k = if k = n then f (s.fn n) else s.fn k := by
  simp [State.fn, State.upFn, Tab.getD_update]

/-! ### Composition -/

theorem State.Still.refl (s : State) : s.Still s :=
  ⟨rfl, fun _ _ _ => rfl, fun _ => ⟨rfl, rfl, rfl⟩, fun _ => ⟨rfl, rfl, rfl⟩, ⟨[], by simp⟩⟩

theorem State.Still.trans {s t u : State} (h : s.Still t) (k : t.Still u) : s.Still u := by
  refine ⟨?_, fun f hf i => (k.regs f hf i).trans (h.regs f hf i), fun n => ?_, fun n => ?_, ?_⟩
  · have h1 := h.rest
    have h2 := k.rest
    rw [← h1]
    rw [← h2]
  · obtain ⟨a, b, c⟩ := h.rings n
    obtain ⟨a', b', c'⟩ := k.rings n
    exact ⟨a'.trans a, b'.trans b, c'.trans c⟩
  · obtain ⟨a, b, c⟩ := h.fns n
    obtain ⟨a', b', c'⟩ := k.fns n
    exact ⟨a'.trans a, b'.trans b, c'.trans c⟩
  · obtain ⟨l, hl⟩ := h.out
    obtain ⟨m, hm⟩ := k.out
    exact ⟨l ++ m, by rw [hm, hl, List.append_assoc]⟩

theorem State.Quiet.refl (s : State) : s.Quiet s := ⟨.refl s, fun _ => ⟨rfl, rfl⟩⟩

theorem State.Quiet.trans {s t u : State} (h : s.Quiet t) (k : t.Quiet u) : s.Quiet u :=
  ⟨h.still.trans k.still, fun n => ⟨(k.fetched n).1.trans (h.fetched n).1, (k.fetched n).2.trans (h.fetched n).2⟩⟩

theorem State.Quiet.foldl {s0 s : State} {α : Type} (f : State → α → State) (l : List α) (h : s0.Quiet s)
    (hf : ∀ t, ∀ a ∈ l, s0.Quiet t → s0.Quiet (f t a)) : s0.Quiet (l.foldl f s) := by
  induction l generalizing s with
  | nil => exact h
  | cons a l ih =>
    exact ih (hf s a (List.mem_cons_self ..) h) (fun t b hb => hf t b (List.mem_cons_of_mem _ hb))

/-! ### The base of reporting -/

theorem State.setF_quiet (s : State) (f : Fld) (v i : Nat) (hf : f.id ∈ reportFields) :
    s.Quiet (s.setF f v i) := by
  refine ⟨⟨rfl, fun g hg j => ?_, fun _ => ⟨rfl, rfl, rfl⟩, fun _ => ⟨rfl, rfl, rfl⟩, ⟨[], by simp⟩⟩,
    fun _ => ⟨rfl, rfl⟩⟩
  exact State.getF_setF_other s f g v i j (.inl (fun he => hg (he ▸ hf)))

theorem State.emit_quiet (s : State) (o : Out) : s.Quiet (s.emit o) :=
  ⟨⟨rfl, fun _ _ _ => rfl, fun _ => ⟨rfl, rfl, rfl⟩, fun _ => ⟨rfl, rfl, rfl⟩, ⟨[o], rfl⟩⟩, fun _ => ⟨rfl, rfl⟩⟩

/-- Hallmark's own state and the counters. -/
theorem State.hmk_quiet (s : State) (h : Hmk) : s.Quiet { s with hmk := h } :=
  ⟨⟨rfl, fun _ _ _ => rfl, fun _ => ⟨rfl, rfl, rfl⟩, fun _ => ⟨rfl, rfl, rfl⟩, ⟨[], by simp⟩⟩, fun _ => ⟨rfl, rfl⟩⟩

theorem State.counters_quiet (s : State) (h : Counters) : s.Quiet { s with counters := h } :=
  ⟨⟨rfl, fun _ _ _ => rfl, fun _ => ⟨rfl, rfl, rfl⟩, fun _ => ⟨rfl, rfl, rfl⟩, ⟨[], by simp⟩⟩, fun _ => ⟨rfl, rfl⟩⟩

theorem State.upRing_quiet (s : State) (n : Nat) (f : Ring → Ring)
    (hf : ∀ r, (f r).fetch = r.fetch ∧ (f r).rx = r.rx ∧ (f r).era = r.era ∧ (f r).fetched = r.fetched ∧
      (f r).cons = r.cons) : s.Quiet (s.upRing n f) := by
  refine ⟨⟨rfl, fun _ _ _ => rfl, fun k => ?_, fun _ => ⟨rfl, rfl, rfl⟩, ⟨[], by simp [State.upRing]⟩⟩, fun k => ?_⟩ <;>
    rw [State.ring_upRing] <;> split
  · subst_vars; exact ⟨(hf _).1, (hf _).2.1, (hf _).2.2.1⟩
  · exact ⟨rfl, rfl, rfl⟩
  · subst_vars; exact (hf _).2.2.2
  · exact ⟨rfl, rfl⟩

theorem State.upFn_quiet (s : State) (n : Nat) (f : Fn → Fn)
    (hf : ∀ r, (f r).grant = r.grant ∧ (f r).scanning = r.scanning ∧ (f r).resetting = r.resetting) :
    s.Quiet (s.upFn n f) := by
  refine ⟨⟨rfl, fun _ _ _ => rfl, fun _ => ⟨rfl, rfl, rfl⟩, fun k => ?_, ⟨[], by simp [State.upFn]⟩⟩, fun _ => ⟨rfl, rfl⟩⟩
  rw [State.fn_upFn]
  split
  · subst_vars; exact hf _
  · exact ⟨rfl, rfl, rfl⟩

/-! ### Counters, trace, performance counters -/

theorem State.setCounter_quiet (s : State) (g k v : Nat) : s.Quiet (s.setCounter g k v) := s.counters_quiet _

theorem State.countS_quiet (s : State) (g k n : Nat) : s.Quiet (s.countS g k n) := by
  unfold State.countS
  dsimp only
  split
  · exact (s.setCounter_quiet _ _ _).trans (State.setF_quiet _ _ _ _ (by decide))
  · exact s.setCounter_quiet _ _ _

theorem State.pushRec_quiet (s : State) (typ src : Nat) (dws : List Word) : s.Quiet (s.pushRec typ src dws) :=
  s.hmk_quiet _

theorem State.pushSync_quiet (s : State) : s.Quiet s.pushSync := (s.pushRec_quiet _ _ _).trans (State.hmk_quiet _ _)

theorem State.trace_quiet (s : State) (typ src : Nat) (dws : List Word) : s.Quiet (s.trace typ src dws) := by
  unfold State.trace
  split
  · exact .refl s
  · extract_lets units room need s1 s2 s3 s3b src s4
    split
    · exact ((State.setF_quiet s _ _ _ (by decide)).trans
        (State.setF_quiet _ _ _ _ (by decide))).trans (State.hmk_quiet _ _)
    · have h4 : s.Quiet s4 := by
        unfold s4
        split
        · exact ((s.pushRec_quiet _ _ _).trans (State.pushSync_quiet _)).trans (State.hmk_quiet _ _)
        · exact .refl s
      clear_value s4
      split
      · exact h4.trans (State.pushSync_quiet _)
      · exact h4.trans (State.pushRec_quiet _ _ _ _)

theorem State.setPerf_quiet (s : State) (n v : Nat) : s.Quiet (s.setPerf n v) :=
  (State.setF_quiet s _ _ _ (by decide)).trans (State.setF_quiet _ _ _ _ (by decide))

theorem State.perfWrap_quiet (s : State) (n pc : Nat) : s.Quiet (s.perfWrap n pc) := by
  unfold State.perfWrap
  extract_lets sample period v s1
  have h1 : s.Quiet s1 := ((s.setPerf_quiet n v).trans (State.setF_quiet _ _ _ _ (by decide))).trans
    (State.setF_quiet _ _ _ _ (by decide))
  clear_value s1
  split
  · exact h1.trans (State.trace_quiet _ _ _ _)
  · exact h1

theorem State.perf_quiet (s : State) (tile : Nat) (e : PerfEvt) : s.Quiet (s.perf tile e) := by
  unfold State.perf
  split
  · exact .refl s
  · refine State.Quiet.foldl _ _ (.refl s) (fun t n hn ht => ?_)
    split
    · split
      · exact ht.trans (State.perfWrap_quiet _ _ _)
      · exact ht.trans (State.setPerf_quiet _ _ _)
    · exact ht

theorem State.dmaRead_quiet (s : State) (f addr : Nat) : s.Quiet (s.dmaRead f addr) := s.perf_quiet _ _
theorem State.dmaWrite_quiet (s : State) (f addr : Nat) : s.Quiet (s.dmaWrite f addr) := s.perf_quiet _ _

/-! ### Interrupts, entries, events -/

theorem State.msix_quiet (s : State) (f v : Nat) : s.Quiet (s.msix f v) := by
  unfold State.msix
  split
  · exact State.upFn_quiet _ _ _ (fun _ => ⟨rfl, rfl, rfl⟩)
  · exact (s.emit_quiet _).trans (State.perf_quiet _ _ _)

theorem State.ringInterrupt_quiet (s : State) (n : Nat) : s.Quiet (s.ringInterrupt n) :=
  (State.upRing_quiet s n (fun r => { r with sinceInt := 0, timer := false, intDue := false }) (fun _ => ⟨rfl, rfl, rfl, rfl, rfl⟩)).trans
    (State.msix_quiet _ _ _)

theorem State.statusBlock_quiet (s : State) (n : Nat) : s.Quiet (s.statusBlock n) :=
  ((s.upRing_quiet n (fun r => { r with sbAt := some s.time.tclk, sbDue := false })
    (fun _ => ⟨rfl, rfl, rfl, rfl, rfl⟩)).trans (State.dmaWrite_quiet _ _ _)).trans (State.emit_quiet _ _)

theorem State.ringSignal_quiet (s : State) (n : Nat) : s.Quiet (s.ringSignal n) := by
  unfold State.ringSignal
  split
  · exact State.upRing_quiet _ _ _ (fun _ => ⟨rfl, rfl, rfl, rfl, rfl⟩)
  · exact State.ringInterrupt_quiet _ _

theorem State.ringWrote_quiet (s : State) (n : Nat) : s.Quiet (s.ringWrote n) := by
  unfold State.ringWrote
  extract_lets s1 s2 s3 m
  have h1 : s.Quiet s1 := s.countS_quiet _ _ _
  have h2 : s.Quiet s2 := by
    unfold s2
    split
    · exact h1.trans (State.statusBlock_quiet _ _)
    · exact h1.trans (State.upRing_quiet _ _ _ (fun _ => ⟨rfl, rfl, rfl, rfl, rfl⟩))
  have h2 : s.Quiet s3 := h2.trans (State.upRing_quiet _ _ _ (fun _ => ⟨rfl, rfl, rfl, rfl, rfl⟩))
  clear_value s3
  split
  · exact h2.trans (State.ringSignal_quiet _ _)
  · split
    · exact h2.trans (State.upRing_quiet _ _ _ (fun _ => ⟨rfl, rfl, rfl, rfl, rfl⟩))
    · exact h2

theorem State.writeEntry_quiet (s : State) (n : Nat) (e : Entry) : s.Quiet (s.writeEntry n e) := by
  unfold State.writeEntry
  extract_lets r d3 s1 s2 s3
  have h1 : s.Quiet s1 := s.dmaWrite_quiet _ _
  have h2 : s.Quiet s2 := h1.trans (State.emit_quiet _ _)
  have h3 : s.Quiet s3 := h2.trans (State.upRing_quiet _ _ _ (fun _ => ⟨rfl, rfl, rfl, rfl, rfl⟩))
  exact h3.trans (State.ringWrote_quiet _ _)

theorem State.pushEntry_quiet (s : State) (n : Nat) (e : Entry) : s.Quiet (s.pushEntry n e) := by
  unfold State.pushEntry
  dsimp only
  split
  · exact s.writeEntry_quiet n e
  · split
    · exact State.upRing_quiet _ _ _ (fun _ => ⟨rfl, rfl, rfl, rfl, rfl⟩)
    · exact (s.countS_quiet _ _ _).trans (State.upRing_quiet _ _ _ (fun _ => ⟨rfl, rfl, rfl, rfl, rfl⟩))

theorem State.event_quiet (s : State) (cls code source d0 d1 : Nat) (concerns : Nat → Bool) :
    s.Quiet (s.event cls code source d0 d1 concerns) := by
  unfold State.event
  extract_lets e s1
  have h1 : s.Quiet s1 := by
    refine State.Quiet.foldl _ _ (.refl s) (fun t n _ ht => ?_)
    split
    · exact ht.trans (State.pushEntry_quiet _ _ _)
    · exact ht
  clear_value s1
  split
  · exact h1.trans (State.trace_quiet _ _ _ _)
  · exact h1

theorem State.countE_quiet (s : State) (g k n : Nat) : s.Quiet (s.countE g k n) := by
  unfold State.countE
  extract_lets v s1 th full s2 cs s3
  have h1 : s.Quiet s1 := s.setCounter_quiet _ _ _
  have h2 : s.Quiet s2 := by
    unfold s2
    split
    · exact h1.trans (State.setF_quiet _ _ _ _ (by decide))
    · exact h1
  have h3 : s.Quiet s3 := h2.trans (State.counters_quiet _ _)
  clear_value s3 s2
  split
  · exact h3.trans (State.event_quiet _ _ _ _ _ _ _)
  · exact h2

/-! ### Completions -/

/-- What only ring `n` shows: `t` is `s` but for reports and ring `n`'s fetched descriptors and consumer index. -/
structure State.Ringed (s t : State) (n : Nat) : Prop where
  still : s.Still t
  others : ∀ k, k ≠ n → (t.ring k).fetched = (s.ring k).fetched ∧ (t.ring k).cons = (s.ring k).cons

theorem State.Quiet.ringed {s t : State} (h : s.Quiet t) (n : Nat) : s.Ringed t n := ⟨h.still, fun k _ => h.fetched k⟩

theorem State.Ringed.trans {s t u : State} {n : Nat} (h : s.Ringed t n) (k : t.Ringed u n) : s.Ringed u n :=
  ⟨h.still.trans k.still, fun m hm => ⟨(k.others m hm).1.trans (h.others m hm).1, (k.others m hm).2.trans (h.others m hm).2⟩⟩

theorem State.upRing_ringed (s : State) (n : Nat) (f : Ring → Ring)
    (hf : ∀ r, (f r).fetch = r.fetch ∧ (f r).rx = r.rx ∧ (f r).era = r.era) : s.Ringed (s.upRing n f) n := by
  refine ⟨⟨rfl, fun _ _ _ => rfl, fun k => ?_, fun _ => ⟨rfl, rfl, rfl⟩, ⟨[], by simp [State.upRing]⟩⟩, fun k hk => ?_⟩ <;>
    rw [State.ring_upRing]
  · split
    · subst_vars; exact hf _
    · exact ⟨rfl, rfl, rfl⟩
  · rw [if_neg hk]; exact ⟨rfl, rfl⟩

/-- The PHASE bit depends on the ring's size alone. -/
theorem State.Still.phaseBit {s t : State} (h : s.Still t) (n idx : Nat) :
    t.phaseBit n idx = s.phaseBit n idx := by
  simp only [State.phaseBit, State.ringSize, h.regs HIF_RING_CFG.SIZE_LOG2 (by decide) n]

/-- A completion: the ring's consumer index moves on, its fetched descriptors stay, and the entry has been sent. -/
theorem State.complete_law (s : State) (n d0 d1 d2 d3 : Nat) :
    s.Ringed (s.complete n d0 d1 d2 d3) n ∧ ((s.complete n d0 d1 d2 d3).ring n).fetched = (s.ring n).fetched ∧
    ∃ l m, (s.complete n d0 d1 d2 d3).out = s.out ++ l ++ [.completion n (s.ring n).cons
      (hostBytes [d0, d1, d2, d3 + s.phaseBit n (s.ring n).cons * 2147483648])] ++ m := by
  unfold State.complete
  extract_lets idx s1 s2 s3
  have h1 : s.Quiet s1 := s.dmaWrite_quiet _ _
  have h2 : s.Quiet s2 := h1.trans (State.emit_quiet _ _)
  have h3 : s.Ringed s3 n := (h2.ringed n).trans (State.upRing_ringed _ _ _ (fun _ => ⟨rfl, rfl, rfl⟩))
  have h4 := State.ringWrote_quiet s3 n
  refine ⟨h3.trans (h4.ringed n), ?_, ?_⟩
  · rw [(h4.fetched n).1, State.ring_upRing, if_pos rfl]
    exact (h2.fetched n).1
  · obtain ⟨l, hl⟩ := h1.still.out
    obtain ⟨m, hm⟩ := h4.still.out
    have ho : s3.out = s2.out := rfl
    have ho2 : s2.out = s1.out ++ [.completion n idx
      (hostBytes [d0, d1, d2, d3 + s1.phaseBit n idx * 2147483648])] := rfl
    refine ⟨l, m, ?_⟩
    rw [hm, ho, ho2, hl, h1.still.phaseBit n idx]

/-- Descriptors with an unknown opcode leave the front of the ring. -/
theorem State.settleCmds_law (n : Nat) (k : Nat) : ∀ s : State,
    s.Ringed (s.settleCmds n k) n ∧ ∃ j, ((s.settleCmds n k).ring n).fetched = (s.ring n).fetched.drop j := by
  induction k with
  | zero => intro s; exact ⟨(State.Quiet.refl s).ringed n, 0, rfl⟩
  | succ k ih =>
    intro s
    rw [State.settleCmds]
    split
    · exact ⟨(State.Quiet.refl s).ringed n, 0, rfl⟩
    · rename_i d rest hf
      split
      · exact ⟨(State.Quiet.refl s).ringed n, 0, rfl⟩
      · have h1 := State.upRing_ringed s n (fun r => { r with fetched := rest }) (fun _ => ⟨rfl, rfl, rfl⟩)
        have hr : ((s.upRing n (fun r => { r with fetched := rest })).ring n).fetched = rest := by
          rw [State.ring_upRing, if_pos rfl]
        generalize s.upRing n (fun r => { r with fetched := rest }) = s1 at h1 hr ⊢
        obtain ⟨h2, hf2, -⟩ := State.complete_law s1 n (dw d.words 1) 0 0 (6 * 16777216)
        obtain ⟨h3, j, hj⟩ := ih (s1.complete n (dw d.words 1) 0 0 (6 * 16777216))
        refine ⟨(h1.trans h2).trans h3, j + 1, ?_⟩
        rw [hj, hf2, hr, hf]
        rfl

/-- An answered command (R83, R87): everything that `State.done` does. -/
theorem State.done_answered (s : State) (c : Cmd) (status r0 r1 reason : Nat) (hc : c.ring < 256) :
    s.Answered (s.done c status r0 r1 reason) c status r0 r1 reason := by
  unfold State.done
  rw [if_neg (show ¬ noRing ≤ c.ring from Nat.not_le.2 hc)]
  extract_lets s1 s2
  have h1 : s.Ringed s1 c.ring := State.upRing_ringed _ _ _ (fun _ => ⟨rfl, rfl, rfl⟩)
  have hr : (s1.ring c.ring).fetched = (s.ring c.ring).fetched.drop 1 := by
    unfold s1; rw [State.ring_upRing, if_pos rfl]
  have hk : (s1.ring c.ring).cons = (s.ring c.ring).cons := by
    unfold s1; rw [State.ring_upRing, if_pos rfl]
  have ho : s1.out = s.out := rfl
  obtain ⟨h2, hf2, l, m, hl⟩ := State.complete_law s1 c.ring c.cookie.toNat r0 r1 (status * 16777216 + reason % 65536)
  obtain ⟨h3, j, hj⟩ := State.settleCmds_law c.ring ((s2.ring c.ring).fetched.length + 1) s2
  have h13 := (h1.trans h2).trans h3
  refine ⟨h13.still, h13.others, ⟨j, ?_⟩, ?_⟩
  · rw [hj]
    show List.drop j ((s1.complete _ _ _ _ _).ring c.ring).fetched = _
    rw [hf2, hr, List.drop_drop, Nat.add_comm 1 j]
  · obtain ⟨x, hx⟩ := h3.still.out
    rw [hx]
    show _ ∈ List.drop s.out.length ((s1.complete _ _ _ _ _).out ++ x)
    rw [hl, ho, h1.still.phaseBit _ _, hk]
    simp [List.append_assoc]

end Sys2Proof.Machine
end

