-- ==== Sys2Proof/Laws/Command.lean ====
section
/-!
SUPPORT. Reporting leaves every other part of State alone; what a command at the front of its ring does before its own
effect (R99–R101); a completion after reports.
-/

namespace Sys2Proof.Machine

theorem State.Still.latch {s t : State} (h : s.Still t) : t.latch = s.latch := (congrArg State.latch h.rest :)
theorem State.Still.boot {s t : State} (h : s.Still t) : t.boot = s.boot := (congrArg State.boot h.rest :)
theorem State.Still.flash {s t : State} (h : s.Still t) : t.flash = s.flash := (congrArg State.flash h.rest :)
theorem State.Still.fuses {s t : State} (h : s.Still t) : t.fuses = s.fuses := (congrArg State.fuses h.rest :)
theorem State.Still.ports {s t : State} (h : s.Still t) : t.ports = s.ports := (congrArg State.ports h.rest :)
theorem State.Still.lanes {s t : State} (h : s.Still t) : t.lanes = s.lanes := (congrArg State.lanes h.rest :)
theorem State.Still.tables {s t : State} (h : s.Still t) : t.tables = s.tables := (congrArg State.tables h.rest :)
theorem State.Still.epochs {s t : State} (h : s.Still t) : t.epochs = s.epochs := (congrArg State.epochs h.rest :)
theorem State.Still.tiles {s t : State} (h : s.Still t) : t.tiles = s.tiles := (congrArg State.tiles h.rest :)
theorem State.Still.fabric {s t : State} (h : s.Still t) : t.fabric = s.fabric := (congrArg State.fabric h.rest :)
theorem State.Still.acct {s t : State} (h : s.Still t) : t.acct = s.acct := (congrArg State.acct h.rest :)
theorem State.Still.pinCfg {s t : State} (h : s.Still t) : t.pinCfg = s.pinCfg := (congrArg State.pinCfg h.rest :)
theorem State.Still.pinRel {s t : State} (h : s.Still t) : t.pinRel = s.pinRel := (congrArg State.pinRel h.rest :)
theorem State.Still.pinMsg {s t : State} (h : s.Still t) : t.pinMsg = s.pinMsg := (congrArg State.pinMsg h.rest :)
theorem State.Still.queues {s t : State} (h : s.Still t) : t.queues = s.queues := (congrArg State.queues h.rest :)
theorem State.Still.pgs {s t : State} (h : s.Still t) : t.pgs = s.pgs := (congrArg State.pgs h.rest :)
theorem State.Still.flowRt {s t : State} (h : s.Still t) : t.flowRt = s.flowRt := (congrArg State.flowRt h.rest :)
theorem State.Still.merges {s t : State} (h : s.Still t) : t.merges = s.merges := (congrArg State.merges h.rest :)
theorem State.Still.cuts {s t : State} (h : s.Still t) : t.cuts = s.cuts := (congrArg State.cuts h.rest :)
theorem State.Still.time {s t : State} (h : s.Still t) : t.time = s.time := (congrArg State.time h.rest :)
theorem State.Still.phases {s t : State} (h : s.Still t) : t.phases = s.phases := (congrArg State.phases h.rest :)
theorem State.Still.tius {s t : State} (h : s.Still t) : t.tius = s.tius := (congrArg State.tius h.rest :)
theorem State.Still.refs {s t : State} (h : s.Still t) : t.refs = s.refs := (congrArg State.refs h.rest :)
theorem State.Still.dplls {s t : State} (h : s.Still t) : t.dplls = s.dplls := (congrArg State.dplls h.rest :)
theorem State.Still.plls {s t : State} (h : s.Still t) : t.plls = s.plls := (congrArg State.plls h.rest :)
theorem State.Still.outs {s t : State} (h : s.Still t) : t.outs = s.outs := (congrArg State.outs h.rest :)
theorem State.Still.gens {s t : State} (h : s.Still t) : t.gens = s.gens := (congrArg State.gens h.rest :)
theorem State.Still.window {s t : State} (h : s.Still t) : t.window = s.window := (congrArg State.window h.rest :)
theorem State.Still.fences {s t : State} (h : s.Still t) : t.fences = s.fences := (congrArg State.fences h.rest :)
theorem State.Still.fw {s t : State} (h : s.Still t) : t.fw = s.fw := (congrArg State.fw h.rest :)
theorem State.Still.quench {s t : State} (h : s.Still t) : t.quench = s.quench := (congrArg State.quench h.rest :)
theorem State.Still.pair {s t : State} (h : s.Still t) : t.pair = s.pair := (congrArg State.pair h.rest :)
theorem State.Still.temper {s t : State} (h : s.Still t) : t.temper = s.temper := (congrArg State.temper h.rest :)
theorem State.Still.pwr {s t : State} (h : s.Still t) : t.pwr = s.pwr := (congrArg State.pwr h.rest :)
theorem State.Still.jtag {s t : State} (h : s.Still t) : t.jtag = s.jtag := (congrArg State.jtag h.rest :)
theorem State.Still.stalled {s t : State} (h : s.Still t) : t.stalled = s.stalled := (congrArg State.stalled h.rest :)
theorem State.Still.free {s t : State} (h : s.Still t) : t.free = s.free := (congrArg State.free h.rest :)
theorem State.Still.pending {s t : State} (h : s.Still t) : t.pending = s.pending := (congrArg State.pending h.rest :)

/-! ### Updates after reports -/

theorem State.Quiet.getF {s t : State} (h : s.Quiet t) (f : Fld) (i : Nat) (hf : f.id ∉ reportFields) :
    t.getF f i = s.getF f i := h.still.regs f hf i

theorem State.Quiet.isF {s t : State} (h : s.Quiet t) (f : Fld) (i : Nat) (hf : f.id ∉ reportFields) :
    t.isF f i = s.isF f i := by
  simp only [State.isF, h.getF f i hf]

theorem State.Quiet.answered {s t u : State} {c : Cmd} {st r0 r1 re : Nat} (h : s.Quiet t)
    (k : t.Answered u c st r0 r1 re) : s.Answered u c st r0 r1 re := by
  refine ⟨h.still.trans k.still, fun n hn => ?_, ?_, ?_⟩
  · exact ⟨(k.others n hn).1.trans (h.fetched n).1, (k.others n hn).2.trans (h.fetched n).2⟩
  · obtain ⟨j, hj⟩ := k.taken
    exact ⟨j, hj.trans (by rw [(h.fetched c.ring).1])⟩
  · have hs := k.sent
    rw [(h.fetched c.ring).2, h.still.phaseBit _ _] at hs
    obtain ⟨l, hl⟩ := h.still.out
    obtain ⟨m, hm⟩ := k.still.out
    rw [hm, List.drop_left] at hs
    rw [hm, hl, List.append_assoc, List.drop_left]
    exact List.mem_append_right _ hs

/-- The same register write on both sides of reports. -/
theorem State.Quiet.setF {s t : State} (h : s.Quiet t) (f : Fld) (v i : Nat) :
    (s.setF f v i).Quiet (t.setF f v i) := by
  refine ⟨⟨(congrArg (fun x : State => { x with regs := (s.setF f v i).regs }) h.still.rest :), fun g hg j => ?_,
    h.still.rings, h.still.fns, h.still.out⟩, h.fetched⟩
  by_cases hid : g.id = f.id ∧ j % 65536 = i % 65536
  · simp only [State.getF, State.setF, hid, Tab.setD]
    split <;> simp [Tab.getD, Tab.get?_erase, Tab.get?_set]
  · rw [State.getF_setF_other _ _ _ _ _ _ (by tauto), State.getF_setF_other _ _ _ _ _ _ (by tauto)]
    exact h.still.regs g hg j

/-! The same new value of another part on both sides of reports. -/

theorem State.Quiet.put_latch {s t : State} (h : s.Quiet t) (x : Tab Nat) : ({ s with latch := x } : State).Quiet { t with latch := x } :=
  ⟨⟨(congrArg (fun y : State => { y with latch := x }) h.still.rest :), h.still.regs, h.still.rings, h.still.fns, h.still.out⟩, h.fetched⟩
theorem State.Quiet.put_boot {s t : State} (h : s.Quiet t) (x : Boot) : ({ s with boot := x } : State).Quiet { t with boot := x } :=
  ⟨⟨(congrArg (fun y : State => { y with boot := x }) h.still.rest :), h.still.regs, h.still.rings, h.still.fns, h.still.out⟩, h.fetched⟩
theorem State.Quiet.put_flash {s t : State} (h : s.Quiet t) (x : Flash) : ({ s with flash := x } : State).Quiet { t with flash := x } :=
  ⟨⟨(congrArg (fun y : State => { y with flash := x }) h.still.rest :), h.still.regs, h.still.rings, h.still.fns, h.still.out⟩, h.fetched⟩
theorem State.Quiet.put_fuses {s t : State} (h : s.Quiet t) (x : Fuses) : ({ s with fuses := x } : State).Quiet { t with fuses := x } :=
  ⟨⟨(congrArg (fun y : State => { y with fuses := x }) h.still.rest :), h.still.regs, h.still.rings, h.still.fns, h.still.out⟩, h.fetched⟩
theorem State.Quiet.put_ports {s t : State} (h : s.Quiet t) (x : Tab Port) : ({ s with ports := x } : State).Quiet { t with ports := x } :=
  ⟨⟨(congrArg (fun y : State => { y with ports := x }) h.still.rest :), h.still.regs, h.still.rings, h.still.fns, h.still.out⟩, h.fetched⟩
theorem State.Quiet.put_lanes {s t : State} (h : s.Quiet t) (x : Tab Lane) : ({ s with lanes := x } : State).Quiet { t with lanes := x } :=
  ⟨⟨(congrArg (fun y : State => { y with lanes := x }) h.still.rest :), h.still.regs, h.still.rings, h.still.fns, h.still.out⟩, h.fetched⟩
theorem State.Quiet.put_tables {s t : State} (h : s.Quiet t) (x : Tables) : ({ s with tables := x } : State).Quiet { t with tables := x } :=
  ⟨⟨(congrArg (fun y : State => { y with tables := x }) h.still.rest :), h.still.regs, h.still.rings, h.still.fns, h.still.out⟩, h.fetched⟩
theorem State.Quiet.put_epochs {s t : State} (h : s.Quiet t) (x : Epochs) : ({ s with epochs := x } : State).Quiet { t with epochs := x } :=
  ⟨⟨(congrArg (fun y : State => { y with epochs := x }) h.still.rest :), h.still.regs, h.still.rings, h.still.fns, h.still.out⟩, h.fetched⟩
theorem State.Quiet.put_tiles {s t : State} (h : s.Quiet t) (x : Tab Tile) : ({ s with tiles := x } : State).Quiet { t with tiles := x } :=
  ⟨⟨(congrArg (fun y : State => { y with tiles := x }) h.still.rest :), h.still.regs, h.still.rings, h.still.fns, h.still.out⟩, h.fetched⟩
theorem State.Quiet.put_fabric {s t : State} (h : s.Quiet t) (x : Fabric) : ({ s with fabric := x } : State).Quiet { t with fabric := x } :=
  ⟨⟨(congrArg (fun y : State => { y with fabric := x }) h.still.rest :), h.still.regs, h.still.rings, h.still.fns, h.still.out⟩, h.fetched⟩
theorem State.Quiet.put_acct {s t : State} (h : s.Quiet t) (x : Tab Nat) : ({ s with acct := x } : State).Quiet { t with acct := x } :=
  ⟨⟨(congrArg (fun y : State => { y with acct := x }) h.still.rest :), h.still.regs, h.still.rings, h.still.fns, h.still.out⟩, h.fetched⟩
theorem State.Quiet.put_pinCfg {s t : State} (h : s.Quiet t) (x : Tab PinCfg) : ({ s with pinCfg := x } : State).Quiet { t with pinCfg := x } :=
  ⟨⟨(congrArg (fun y : State => { y with pinCfg := x }) h.still.rest :), h.still.regs, h.still.rings, h.still.fns, h.still.out⟩, h.fetched⟩
theorem State.Quiet.put_pinRel {s t : State} (h : s.Quiet t) (x : Tab Int) : ({ s with pinRel := x } : State).Quiet { t with pinRel := x } :=
  ⟨⟨(congrArg (fun y : State => { y with pinRel := x }) h.still.rest :), h.still.regs, h.still.rings, h.still.fns, h.still.out⟩, h.fetched⟩
theorem State.Quiet.put_pinMsg {s t : State} (h : s.Quiet t) (x : Tab Nat) : ({ s with pinMsg := x } : State).Quiet { t with pinMsg := x } :=
  ⟨⟨(congrArg (fun y : State => { y with pinMsg := x }) h.still.rest :), h.still.regs, h.still.rings, h.still.fns, h.still.out⟩, h.fetched⟩
theorem State.Quiet.put_queues {s t : State} (h : s.Quiet t) (x : Tab EQueue) : ({ s with queues := x } : State).Quiet { t with queues := x } :=
  ⟨⟨(congrArg (fun y : State => { y with queues := x }) h.still.rest :), h.still.regs, h.still.rings, h.still.fns, h.still.out⟩, h.fetched⟩
theorem State.Quiet.put_pgs {s t : State} (h : s.Quiet t) (x : Tab Pg) : ({ s with pgs := x } : State).Quiet { t with pgs := x } :=
  ⟨⟨(congrArg (fun y : State => { y with pgs := x }) h.still.rest :), h.still.regs, h.still.rings, h.still.fns, h.still.out⟩, h.fetched⟩
theorem State.Quiet.put_flowRt {s t : State} (h : s.Quiet t) (x : Tab FlowRt) : ({ s with flowRt := x } : State).Quiet { t with flowRt := x } :=
  ⟨⟨(congrArg (fun y : State => { y with flowRt := x }) h.still.rest :), h.still.regs, h.still.rings, h.still.fns, h.still.out⟩, h.fetched⟩
theorem State.Quiet.put_merges {s t : State} (h : s.Quiet t) (x : Tab Merge) : ({ s with merges := x } : State).Quiet { t with merges := x } :=
  ⟨⟨(congrArg (fun y : State => { y with merges := x }) h.still.rest :), h.still.regs, h.still.rings, h.still.fns, h.still.out⟩, h.fetched⟩
theorem State.Quiet.put_cuts {s t : State} (h : s.Quiet t) (x : Tab Cut) : ({ s with cuts := x } : State).Quiet { t with cuts := x } :=
  ⟨⟨(congrArg (fun y : State => { y with cuts := x }) h.still.rest :), h.still.regs, h.still.rings, h.still.fns, h.still.out⟩, h.fetched⟩
theorem State.Quiet.put_time {s t : State} (h : s.Quiet t) (x : Time) : ({ s with time := x } : State).Quiet { t with time := x } :=
  ⟨⟨(congrArg (fun y : State => { y with time := x }) h.still.rest :), h.still.regs, h.still.rings, h.still.fns, h.still.out⟩, h.fetched⟩
theorem State.Quiet.put_phases {s t : State} (h : s.Quiet t) (x : Tab Phase) : ({ s with phases := x } : State).Quiet { t with phases := x } :=
  ⟨⟨(congrArg (fun y : State => { y with phases := x }) h.still.rest :), h.still.regs, h.still.rings, h.still.fns, h.still.out⟩, h.fetched⟩
theorem State.Quiet.put_tius {s t : State} (h : s.Quiet t) (x : Tab Tiu) : ({ s with tius := x } : State).Quiet { t with tius := x } :=
  ⟨⟨(congrArg (fun y : State => { y with tius := x }) h.still.rest :), h.still.regs, h.still.rings, h.still.fns, h.still.out⟩, h.fetched⟩
theorem State.Quiet.put_refs {s t : State} (h : s.Quiet t) (x : Tab Ref) : ({ s with refs := x } : State).Quiet { t with refs := x } :=
  ⟨⟨(congrArg (fun y : State => { y with refs := x }) h.still.rest :), h.still.regs, h.still.rings, h.still.fns, h.still.out⟩, h.fetched⟩
theorem State.Quiet.put_dplls {s t : State} (h : s.Quiet t) (x : Tab Dpll) : ({ s with dplls := x } : State).Quiet { t with dplls := x } :=
  ⟨⟨(congrArg (fun y : State => { y with dplls := x }) h.still.rest :), h.still.regs, h.still.rings, h.still.fns, h.still.out⟩, h.fetched⟩
theorem State.Quiet.put_plls {s t : State} (h : s.Quiet t) (x : Tab Pll) : ({ s with plls := x } : State).Quiet { t with plls := x } :=
  ⟨⟨(congrArg (fun y : State => { y with plls := x }) h.still.rest :), h.still.regs, h.still.rings, h.still.fns, h.still.out⟩, h.fetched⟩
theorem State.Quiet.put_outs {s t : State} (h : s.Quiet t) (x : Tab Pll) : ({ s with outs := x } : State).Quiet { t with outs := x } :=
  ⟨⟨(congrArg (fun y : State => { y with outs := x }) h.still.rest :), h.still.regs, h.still.rings, h.still.fns, h.still.out⟩, h.fetched⟩
theorem State.Quiet.put_gens {s t : State} (h : s.Quiet t) (x : Tab Gen) : ({ s with gens := x } : State).Quiet { t with gens := x } :=
  ⟨⟨(congrArg (fun y : State => { y with gens := x }) h.still.rest :), h.still.regs, h.still.rings, h.still.fns, h.still.out⟩, h.fetched⟩
theorem State.Quiet.put_window {s t : State} (h : s.Quiet t) (x : Window) : ({ s with window := x } : State).Quiet { t with window := x } :=
  ⟨⟨(congrArg (fun y : State => { y with window := x }) h.still.rest :), h.still.regs, h.still.rings, h.still.fns, h.still.out⟩, h.fetched⟩
theorem State.Quiet.put_fences {s t : State} (h : s.Quiet t) (x : Tab Fence) : ({ s with fences := x } : State).Quiet { t with fences := x } :=
  ⟨⟨(congrArg (fun y : State => { y with fences := x }) h.still.rest :), h.still.regs, h.still.rings, h.still.fns, h.still.out⟩, h.fetched⟩
theorem State.Quiet.put_fw {s t : State} (h : s.Quiet t) (x : Fw) : ({ s with fw := x } : State).Quiet { t with fw := x } :=
  ⟨⟨(congrArg (fun y : State => { y with fw := x }) h.still.rest :), h.still.regs, h.still.rings, h.still.fns, h.still.out⟩, h.fetched⟩
theorem State.Quiet.put_quench {s t : State} (h : s.Quiet t) (x : Quench) : ({ s with quench := x } : State).Quiet { t with quench := x } :=
  ⟨⟨(congrArg (fun y : State => { y with quench := x }) h.still.rest :), h.still.regs, h.still.rings, h.still.fns, h.still.out⟩, h.fetched⟩
theorem State.Quiet.put_pair {s t : State} (h : s.Quiet t) (x : Pair) : ({ s with pair := x } : State).Quiet { t with pair := x } :=
  ⟨⟨(congrArg (fun y : State => { y with pair := x }) h.still.rest :), h.still.regs, h.still.rings, h.still.fns, h.still.out⟩, h.fetched⟩
theorem State.Quiet.put_temper {s t : State} (h : s.Quiet t) (x : Temper) : ({ s with temper := x } : State).Quiet { t with temper := x } :=
  ⟨⟨(congrArg (fun y : State => { y with temper := x }) h.still.rest :), h.still.regs, h.still.rings, h.still.fns, h.still.out⟩, h.fetched⟩
theorem State.Quiet.put_pwr {s t : State} (h : s.Quiet t) (x : Pwr) : ({ s with pwr := x } : State).Quiet { t with pwr := x } :=
  ⟨⟨(congrArg (fun y : State => { y with pwr := x }) h.still.rest :), h.still.regs, h.still.rings, h.still.fns, h.still.out⟩, h.fetched⟩
theorem State.Quiet.put_jtag {s t : State} (h : s.Quiet t) (x : Jtag) : ({ s with jtag := x } : State).Quiet { t with jtag := x } :=
  ⟨⟨(congrArg (fun y : State => { y with jtag := x }) h.still.rest :), h.still.regs, h.still.rings, h.still.fns, h.still.out⟩, h.fetched⟩
theorem State.Quiet.put_stalled {s t : State} (h : s.Quiet t) (x : List Stalled) : ({ s with stalled := x } : State).Quiet { t with stalled := x } :=
  ⟨⟨(congrArg (fun y : State => { y with stalled := x }) h.still.rest :), h.still.regs, h.still.rings, h.still.fns, h.still.out⟩, h.fetched⟩
theorem State.Quiet.put_free {s t : State} (h : s.Quiet t) (x : Nat) : ({ s with free := x } : State).Quiet { t with free := x } :=
  ⟨⟨(congrArg (fun y : State => { y with free := x }) h.still.rest :), h.still.regs, h.still.rings, h.still.fns, h.still.out⟩, h.fetched⟩
theorem State.Quiet.put_pending {s t : State} (h : s.Quiet t) (x : List Instr) : ({ s with pending := x } : State).Quiet { t with pending := x } :=
  ⟨⟨(congrArg (fun y : State => { y with pending := x }) h.still.rest :), h.still.regs, h.still.rings, h.still.fns, h.still.out⟩, h.fetched⟩

theorem State.Quiet.raised {s t : State} (h : s.Quiet t) : s.Raised t where
  regs f hf i := h.still.regs f (fun hr => hf (by revert hr; simp only [reportFields, faultFields]; simp; tauto)) i
  first f hf i _ := h.still.regs f (fun hr => by revert hr; revert hf; simp only [reportFields, firstFields]; simp; rintro (e | e | e) <;> simp [e] <;> decide) i
  latched id hi := by
    have e : t.faultSt id = s.faultSt id := by simp only [State.faultSt, h.still.quench]
    rw [e]; exact ⟨hi, Nat.le_refl _⟩
  fenced d hd := by
    have e : t.fence d = s.fence d := by simp only [State.fence, h.still.fences]
    rwa [e]
  time := by rw [h.still.time]; exact ⟨rfl, fun e => e⟩
  guard := by rw [h.still.quench]; exact ⟨rfl, rfl⟩
  epochs := by rw [h.still.epochs]

/-! ### What the engine does before a command's own effect -/

theorem State.dmaReads_quiet (s : State) (f addr len : Nat) : s.Quiet (s.dmaReads f addr len) :=
  State.Quiet.foldl _ _ (.refl s) (fun t _ _ ht => ht.trans (State.dmaRead_quiet _ _ _))

/-- A command that stands at the front of its ring names one of the 256 rings. -/
theorem State.commandReady_ring {s : State} {op : Nat} {c : Cmd} (h : s.commandReady op c = true) : c.ring < 256 := by
  simp only [State.commandReady, Bool.and_eq_true, decide_eq_true_eq] at h
  exact h.1.1.1.1

/-- A command that its issuer may give runs, after reports only. -/
theorem State.command_stands {s : State} {op : Nat} {c : Cmd} (vfOk : Bool) (run : State → State) (h : s.Stands op c)
    (hv : vfOk = true ∨ s.issuer c = 0) : ∃ u, s.Quiet u ∧ s.command op vfOk c run = run u := by
  have hp : (s.ringFn c.ring != 0 && !vfOk) = false := by
    rcases hv with h0 | h0
    · simp [h0]
    · have h0' : s.ringFn c.ring = 0 := h0
      simp [h0']
  have hl : ¬ (c.indirect = true ∧ 65536 < c.dataLen) := fun ⟨a, b⟩ => by have := h.len a; omega
  unfold State.command
  extract_lets f u v
  have hu : s.Quiet u := s.perf_quiet _ _
  refine ⟨v, ?_, ?_⟩
  · refine hu.trans ?_
    simp only [v]
    split
    · split
      · exact State.dmaReads_quiet _ _ _ _
      · exact .refl _
    · exact .refl _
  · simp only [h.front, f, hp]
    simp [hl, v, f]

/-- A command of the PF that may run does, after reports only. -/
theorem State.command_runs {s : State} {op : Nat} {c : Cmd} (vfOk : Bool) (run : State → State) (h : s.Ready op c) :
    ∃ u, s.Quiet u ∧ s.command op vfOk c run = run u :=
  State.command_stands vfOk run ⟨h.ring, h.front, h.len⟩ (.inr h.pf)

/-- The command of a virtual function that only the PF may issue completes AUTH (R101). -/
theorem State.command_auth {s : State} {op : Nat} {c : Cmd} (run : State → State) (h : s.commandReady op c = true)
    (hv : s.issuer c ≠ 0) : s.Answered (s.command op false c run) c stAuth := by
  have hv' : s.ringFn c.ring ≠ 0 := hv
  have hu := s.perf_quiet 8 { code := 0x25, fn := some (s.ringFn c.ring) }
  have hd := hu.answered (State.done_answered _ c stAuth 0 0 0 (State.commandReady_ring h))
  simpa [State.command, h, hv'] using hd

/-- A buffer longer than 64 KiB: BADARG (R82). -/
theorem State.command_badLen {s : State} {op : Nat} {c : Cmd} (vfOk : Bool) (run : State → State)
    (h : s.commandReady op c = true) (hv : s.issuer c = 0 ∨ vfOk = true) (hl : c.indirect = true ∧ 65536 < c.dataLen) : s.Answered (s.command op vfOk c run) c stBadArg := by
  have hv' : s.ringFn c.ring = 0 ∨ vfOk = true := hv
  have hu := s.perf_quiet 8 { code := 0x25, fn := some (s.ringFn c.ring) }
  have hd := hu.answered (State.done_answered _ c stBadArg 0 0 0 (State.commandReady_ring h))
  rcases hv' with h0 | h0 <;> simpa [State.command, h, h0, hl.1, hl.2] using hd

/-- A command of firmware's that may run does. -/
theorem State.fwCommand_runs {s : State} {op : Nat} {c : Cmd} (run : State → State) (h : s.FwReady op c) :
    ∃ u, s.Quiet u ∧ s.fwCommand op c run = run u := by
  obtain ⟨u, hu, e⟩ := State.command_runs false
    (fun s => if s.fw.running && s.fw.phase == 3 then run s else s.done c stFenced) h.ready
  refine ⟨u, hu, ?_⟩
  rw [State.fwCommand, h.kclk]
  refine e.trans ?_
  simp [hu.still.fw, h.running, h.hostReady]

/-- What holds of a command's own effect after reports holds of the command, where it may run. -/
theorem State.command_elim {s : State} {op : Nat} {c : Cmd} {vfOk : Bool} {run : State → State} (P : State → Prop)
    (h : s.Ready op c) (k : ∀ u, s.Quiet u → P (run u)) : P (s.command op vfOk c run) := by
  obtain ⟨u, hu, e⟩ := State.command_runs vfOk run h
  exact e ▸ k u hu

theorem State.fwCommand_elim {s : State} {op : Nat} {c : Cmd} {run : State → State} (P : State → Prop)
    (h : s.FwReady op c) (k : ∀ u, s.Quiet u → P (run u)) : P (s.fwCommand op c run) := by
  obtain ⟨u, hu, e⟩ := State.fwCommand_runs run h
  exact e ▸ k u hu

/-- Without firmware, or before HOST_READY, its commands complete FENCED (R24, R100, R545). -/
theorem State.fwCommand_fenced {s : State} {op : Nat} {c : Cmd} (run : State → State) (h : s.Ready op c) (hk : s.kclk = true)
    (hf : s.fw.running = false ∨ s.fw.phase ≠ 3) : s.Answered (s.fwCommand op c run) c stFenced := by
  obtain ⟨u, hu, e⟩ := State.command_runs false
    (fun s => if s.fw.running && s.fw.phase == 3 then run s else s.done c stFenced) h
  have e' : s.fwCommand op c run = u.done c stFenced := by
    rw [State.fwCommand, hk]
    refine e.trans ?_
    rcases hf with h0 | h0 <;> simp [hu.still.fw, h0]
  rw [e']
  exact hu.answered (State.done_answered _ c stFenced 0 0 0 h.ring)

end Sys2Proof.Machine
end

