-- ==== Sys2Proof/Laws/KeptOps.lean ====
section
/-!
SUPPORT. What the operations and meanings of Machine/Ops.lean keep (`State.Kept`).
-/

set_option linter.all false
set_option linter.unusedTactic false
set_option linter.unreachableTactic false

namespace Sys2Proof.Machine

theorem State.orF_kept {ps : List Part} {s0 s : State} (f : Fld) (v : Nat) (i : Nat) (hl : ∀ p ∈ ([.regs] : List Part), p ∈ ps)
    (h : s0.Kept ps s) : s0.Kept ps (State.orF s f v i) := by
  unfold State.orF
  repeat' (first
    | with_reducible assumption | with_reducible exact Part.sub_trans hl (by decide)
    | with_reducible apply State.setF_kept)

theorem State.clrF_kept {ps : List Part} {s0 s : State} (f : Fld) (v : Nat) (i : Nat) (hl : ∀ p ∈ ([.regs] : List Part), p ∈ ps)
    (h : s0.Kept ps s) : s0.Kept ps (State.clrF s f v i) := by
  unfold State.clrF
  repeat' (first
    | with_reducible assumption | with_reducible exact Part.sub_trans hl (by decide)
    | with_reducible apply State.setF_kept)

theorem State.addF_kept {ps : List Part} {s0 s : State} (f : Fld) (n : Nat) (i : Nat) (hl : ∀ p ∈ ([.regs] : List Part), p ∈ ps)
    (h : s0.Kept ps s) : s0.Kept ps (State.addF s f n i) := by
  unfold State.addF
  repeat' (first
    | with_reducible assumption | with_reducible exact Part.sub_trans hl (by decide)
    | with_reducible apply State.setF_kept)

theorem State.edges_kept {ps : List Part} {s0 s : State} (n : Nat) (hl : ∀ p ∈ ([.time] : List Part), p ∈ ps)
    (h : s0.Kept ps s) : s0.Kept ps (State.edges s n) := by
  unfold State.edges
  repeat' (first
    | with_reducible assumption | with_reducible exact Part.sub_trans hl (by decide)
    | (with_reducible refine (?_ : s0.Kept ps _); fail_if_no_progress extract_lets +onlyGivenNames x
       refine (fun (_ : s0.Kept ps x) => ?_) ?_
       (on_goal 1 => clear_value x); (on_goal 2 => unfold x; clear x))
    | (with_reducible refine (?_ : s0.Kept ps _); fail_if_no_progress extract_lets +onlyGivenNames y
       clear_value (hy : y = _))
    | (intro p hp; cases p <;>
       first | exact absurd (hl _ (by decide)) hp | rfl)
    | with_reducible exact id | split | with_reducible refine State.Kept.lit ?_ ?_ ?_ ?_ ?_ ?_ ?_ ?_)

theorem State.advanceTo_kept {ps : List Part} {s0 : State} (hl : ∀ p ∈ ([.time] : List Part), p ∈ ps)
    (fuel : Nat) : ∀ {s : State} (t : Int) (_ : s0.Kept ps s),
    s0.Kept ps (State.advanceTo s t fuel) := by
  induction fuel with
  | zero => intros; assumption
  | succ fuel ih =>
    intros
    rw [State.advanceTo]
    repeat' (first
      | with_reducible assumption | with_reducible exact Part.sub_trans hl (by decide)
      | (with_reducible refine (?_ : s0.Kept ps _); fail_if_no_progress extract_lets +onlyGivenNames x
         refine (fun (_ : s0.Kept ps x) => ?_) ?_
         (on_goal 1 => clear_value x); (on_goal 2 => unfold x; clear x))
      | (with_reducible refine (?_ : s0.Kept ps _); fail_if_no_progress extract_lets +onlyGivenNames y
         clear_value (hy : y = _))
      | with_reducible apply ih | with_reducible apply State.edges_kept | split)

theorem State.setCounter_kept {ps : List Part} {s0 s : State} (g : Nat) (k : Nat) (v : Nat) (hl : ∀ p ∈ ([.counters] : List Part), p ∈ ps)
    (h : s0.Kept ps s) : s0.Kept ps (State.setCounter s g k v) := by
  unfold State.setCounter
  repeat' (first
    | with_reducible assumption | with_reducible exact Part.sub_trans hl (by decide)
    | (with_reducible refine (?_ : s0.Kept ps _); fail_if_no_progress extract_lets +onlyGivenNames y
       clear_value (hy : y = _))
    | (intro p hp; cases p <;>
       first | exact absurd (hl _ (by decide)) hp | rfl)
    | with_reducible exact id | with_reducible refine State.Kept.lit ?_ ?_ ?_ ?_ ?_ ?_ ?_ ?_)

theorem State.countS_kept {ps : List Part} {s0 s : State} (g : Nat) (k : Nat) (n : Nat) (hl : ∀ p ∈ ([.regs, .counters] : List Part), p ∈ ps)
    (h : s0.Kept ps s) : s0.Kept ps (State.countS s g k n) := by
  unfold State.countS
  repeat' (first
    | with_reducible assumption | with_reducible exact Part.sub_trans hl (by decide)
    | (with_reducible refine (?_ : s0.Kept ps _); fail_if_no_progress extract_lets +onlyGivenNames x
       refine (fun (_ : s0.Kept ps x) => ?_) ?_
       (on_goal 1 => clear_value x); (on_goal 2 => unfold x; clear x))
    | (with_reducible refine (?_ : s0.Kept ps _); fail_if_no_progress extract_lets +onlyGivenNames y
       clear_value (hy : y = _))
    | with_reducible apply State.setCounter_kept | with_reducible apply State.orF_kept | split)

theorem State.pushRec_kept {ps : List Part} {s0 s : State} (typ src : Nat) (dws : List Word)
    (hl : ∀ p ∈ ([.hmk] : List Part), p ∈ ps) (h : s0.Kept ps s) : s0.Kept ps (s.pushRec typ src dws) :=
  State.Kept.lit h (by
      intro p hp; cases p <;> first | exact absurd (hl _ (by decide)) hp | rfl) id id id (fun hv => ⟨Nat.mod_lt _ (by decide), hv.2⟩) id id

theorem State.pushSync_kept {ps : List Part} {s0 s : State}  (hl : ∀ p ∈ ([.hmk] : List Part), p ∈ ps)
    (h : s0.Kept ps s) : s0.Kept ps (State.pushSync s) := by
  unfold State.pushSync
  repeat' (first
    | with_reducible assumption | with_reducible exact Part.sub_trans hl (by decide)
    | (with_reducible refine (?_ : s0.Kept ps _); fail_if_no_progress extract_lets +onlyGivenNames x
       refine (fun (_ : s0.Kept ps x) => ?_) ?_
       (on_goal 1 => clear_value x); (on_goal 2 => unfold x; clear x))
    | (with_reducible refine (?_ : s0.Kept ps _); fail_if_no_progress extract_lets +onlyGivenNames y
       clear_value (hy : y = _))
    | with_reducible apply State.pushRec_kept
    | (intro p hp; cases p <;>
       first | exact absurd (hl _ (by decide)) hp | rfl)
    | with_reducible exact id | (intro hv; first | exact hv | (subst_vars; first | exact hv | omega))
    | with_reducible refine State.Kept.lit ?_ ?_ ?_ ?_ ?_ ?_ ?_ ?_)

theorem State.trace_kept {ps : List Part} {s0 s : State} (typ : Nat) (src : Nat) (dws : List Word) (hl : ∀ p ∈ ([.regs, .hmk] : List Part), p ∈ ps)
    (h : s0.Kept ps s) : s0.Kept ps (State.trace s typ src dws) := by
  unfold State.trace
  repeat' (first
    | with_reducible assumption | with_reducible exact Part.sub_trans hl (by decide)
    | (with_reducible refine (?_ : s0.Kept ps _); fail_if_no_progress extract_lets +onlyGivenNames x
       refine (fun (_ : s0.Kept ps x) => ?_) ?_
       (on_goal 1 => clear_value x); (on_goal 2 => unfold x; clear x))
    | (with_reducible refine (?_ : s0.Kept ps _); fail_if_no_progress extract_lets +onlyGivenNames y
       clear_value (hy : y = _))
    | with_reducible apply State.orF_kept | with_reducible apply State.addF_kept
    | with_reducible apply State.pushRec_kept | with_reducible apply State.pushSync_kept
    | (intro p hp; cases p <;>
       first | exact absurd (hl _ (by decide)) hp | rfl)
    | with_reducible exact id | (intro hv; first | exact hv | (subst_vars; first | exact hv | omega))
    | split | with_reducible refine State.Kept.lit ?_ ?_ ?_ ?_ ?_ ?_ ?_ ?_)

theorem State.setPerf_kept {ps : List Part} {s0 s : State} (n : Nat) (v : Nat) (hl : ∀ p ∈ ([.regs] : List Part), p ∈ ps)
    (h : s0.Kept ps s) : s0.Kept ps (State.setPerf s n v) := by
  unfold State.setPerf
  repeat' (first
    | with_reducible assumption | with_reducible exact Part.sub_trans hl (by decide)
    | (with_reducible refine (?_ : s0.Kept ps _); fail_if_no_progress extract_lets +onlyGivenNames y
       clear_value (hy : y = _))
    | with_reducible apply State.setF_kept
    | (intro p hp; cases p <;>
       first | exact absurd (hl _ (by decide)) hp | rfl)
    | with_reducible exact id | with_reducible refine State.Kept.lit ?_ ?_ ?_ ?_ ?_ ?_ ?_ ?_)

theorem State.perfWrap_kept {ps : List Part} {s0 s : State} (n : Nat) (pc : Nat) (hl : ∀ p ∈ ([.regs, .hmk] : List Part), p ∈ ps)
    (h : s0.Kept ps s) : s0.Kept ps (State.perfWrap s n pc) := by
  unfold State.perfWrap
  repeat' (first
    | with_reducible assumption | with_reducible exact Part.sub_trans hl (by decide)
    | (with_reducible refine (?_ : s0.Kept ps _); fail_if_no_progress extract_lets +onlyGivenNames x
       refine (fun (_ : s0.Kept ps x) => ?_) ?_
       (on_goal 1 => clear_value x); (on_goal 2 => unfold x; clear x))
    | (with_reducible refine (?_ : s0.Kept ps _); fail_if_no_progress extract_lets +onlyGivenNames y
       clear_value (hy : y = _))
    | with_reducible apply State.orF_kept | with_reducible apply State.setF_kept
    | with_reducible apply State.setPerf_kept | with_reducible apply State.trace_kept | split)

theorem State.perf_kept {ps : List Part} {s0 s : State} (tile : Nat) (e : PerfEvt) (hl : ∀ p ∈ ([.regs, .hmk] : List Part), p ∈ ps)
    (h : s0.Kept ps s) : s0.Kept ps (State.perf s tile e) := by
  unfold State.perf
  repeat' (first
    | with_reducible assumption | with_reducible exact Part.sub_trans hl (by decide)
    | with_reducible apply State.perfWrap_kept | with_reducible apply State.setPerf_kept
    | (intro t a ht; with_reducible refine (?_ : s0.Kept ps _)) | with_reducible apply State.Kept.foldl
    | split | dsimp -zeta only)

theorem State.dmaRead_kept {ps : List Part} {s0 s : State} (f : Nat) (addr : Nat) (hl : ∀ p ∈ ([.regs, .hmk] : List Part), p ∈ ps)
    (h : s0.Kept ps s) : s0.Kept ps (State.dmaRead s f addr) := by
  unfold State.dmaRead
  repeat' (first
    | with_reducible assumption | with_reducible exact Part.sub_trans hl (by decide)
    | with_reducible apply State.perf_kept)

theorem State.dmaWrite_kept {ps : List Part} {s0 s : State} (f : Nat) (addr : Nat) (hl : ∀ p ∈ ([.regs, .hmk] : List Part), p ∈ ps)
    (h : s0.Kept ps s) : s0.Kept ps (State.dmaWrite s f addr) := by
  unfold State.dmaWrite
  repeat' (first
    | with_reducible assumption | with_reducible exact Part.sub_trans hl (by decide)
    | with_reducible apply State.perf_kept)

theorem State.msix_kept {ps : List Part} {s0 s : State} (f : Nat) (v : Nat) (hl : ∀ p ∈ ([.regs, .fns, .hmk, .out] : List Part), p ∈ ps)
    (h : s0.Kept ps s) : s0.Kept ps (State.msix s f v) := by
  unfold State.msix
  repeat' (first
    | with_reducible assumption | with_reducible exact Part.sub_trans hl (by decide)
    | (with_reducible refine (?_ : s0.Kept ps _); fail_if_no_progress extract_lets +onlyGivenNames y
       clear_value (hy : y = _))
    | with_reducible apply State.upFn_kept | with_reducible apply State.perf_kept
    | with_reducible apply State.emit_kept
    | (intro p hp; cases p <;>
       first | exact absurd (hl _ (by decide)) hp | rfl)
    | with_reducible exact id | split | dsimp -zeta only
    | with_reducible refine State.Kept.lit ?_ ?_ ?_ ?_ ?_ ?_ ?_ ?_)

theorem State.ringInterrupt_kept {ps : List Part} {s0 s : State} (n : Nat) (hl : ∀ p ∈ ([.regs, .rings, .fns, .hmk, .out] : List Part), p ∈ ps)
    (h : s0.Kept ps s) : s0.Kept ps (State.ringInterrupt s n) := by
  unfold State.ringInterrupt
  repeat' (first
    | with_reducible assumption | with_reducible exact Part.sub_trans hl (by decide)
    | (with_reducible refine (?_ : s0.Kept ps _); fail_if_no_progress extract_lets +onlyGivenNames x
       refine (fun (_ : s0.Kept ps x) => ?_) ?_
       (on_goal 1 => clear_value x); (on_goal 2 => unfold x; clear x))
    | (with_reducible refine (?_ : s0.Kept ps _); fail_if_no_progress extract_lets +onlyGivenNames y
       clear_value (hy : y = _))
    | with_reducible apply State.upRing_kept | with_reducible apply State.msix_kept
    | (intro p hp; cases p <;>
       first | exact absurd (hl _ (by decide)) hp | rfl)
    | with_reducible exact id
    | (intro r hr; first | exact hr | (revert hr; simp only [Ring.ok] <;> omega)) | dsimp -zeta only
    | with_reducible refine State.Kept.lit ?_ ?_ ?_ ?_ ?_ ?_ ?_ ?_)

theorem State.statusBlock_kept {ps : List Part} {s0 s : State} (n : Nat) (hl : ∀ p ∈ ([.regs, .rings, .hmk, .out] : List Part), p ∈ ps)
    (h : s0.Kept ps s) : s0.Kept ps (State.statusBlock s n) := by
  unfold State.statusBlock
  repeat' (first
    | with_reducible assumption | with_reducible exact Part.sub_trans hl (by decide)
    | (with_reducible refine (?_ : s0.Kept ps _); fail_if_no_progress extract_lets +onlyGivenNames x
       refine (fun (_ : s0.Kept ps x) => ?_) ?_
       (on_goal 1 => clear_value x); (on_goal 2 => unfold x; clear x))
    | (with_reducible refine (?_ : s0.Kept ps _); fail_if_no_progress extract_lets +onlyGivenNames y
       clear_value (hy : y = _))
    | with_reducible apply State.upRing_kept | with_reducible apply State.dmaWrite_kept
    | with_reducible apply State.emit_kept
    | (intro p hp; cases p <;>
       first | exact absurd (hl _ (by decide)) hp | rfl)
    | with_reducible exact id
    | (intro r hr; first | exact hr | (revert hr; simp only [Ring.ok] <;> omega)) | split
    | dsimp -zeta only | with_reducible refine State.Kept.lit ?_ ?_ ?_ ?_ ?_ ?_ ?_ ?_)

theorem State.ringSignal_kept {ps : List Part} {s0 s : State} (n : Nat) (hl : ∀ p ∈ ([.regs, .rings, .fns, .hmk, .out] : List Part), p ∈ ps)
    (h : s0.Kept ps s) : s0.Kept ps (State.ringSignal s n) := by
  unfold State.ringSignal
  repeat' (first
    | with_reducible assumption | with_reducible exact Part.sub_trans hl (by decide)
    | (with_reducible refine (?_ : s0.Kept ps _); fail_if_no_progress extract_lets +onlyGivenNames y
       clear_value (hy : y = _))
    | with_reducible apply State.upRing_kept | with_reducible apply State.ringInterrupt_kept
    | (intro p hp; cases p <;>
       first | exact absurd (hl _ (by decide)) hp | rfl)
    | with_reducible exact id
    | (intro r hr; first | exact hr | (revert hr; simp only [Ring.ok] <;> omega)) | split
    | dsimp -zeta only | with_reducible refine State.Kept.lit ?_ ?_ ?_ ?_ ?_ ?_ ?_ ?_)

theorem State.flushStatus_kept {ps : List Part} {s0 s : State}  (hl : ∀ p ∈ ([.regs, .rings, .fns, .hmk, .out] : List Part), p ∈ ps)
    (h : s0.Kept ps s) : s0.Kept ps (State.flushStatus s) := by
  unfold State.flushStatus
  repeat' (first
    | with_reducible assumption | with_reducible exact Part.sub_trans hl (by decide)
    | (with_reducible refine (?_ : s0.Kept ps _); fail_if_no_progress extract_lets +onlyGivenNames x
       refine (fun (_ : s0.Kept ps x) => ?_) ?_
       (on_goal 1 => clear_value x); (on_goal 2 => unfold x; clear x))
    | (with_reducible refine (?_ : s0.Kept ps _); fail_if_no_progress extract_lets +onlyGivenNames y
       clear_value (hy : y = _))
    | with_reducible apply State.statusBlock_kept | with_reducible apply State.ringInterrupt_kept
    | (intro t a ht; with_reducible refine (?_ : s0.Kept ps _)) | with_reducible apply State.Kept.foldl
    | split | dsimp -zeta only)

theorem State.idle_kept {ps : List Part} {s0 s : State}  (hl : ∀ p ∈ ([.regs, .rings, .fns, .time, .hmk, .out] : List Part), p ∈ ps)
    (h : s0.Kept ps s) : s0.Kept ps (State.idle s) := by
  unfold State.idle
  repeat' (first
    | with_reducible assumption | with_reducible exact Part.sub_trans hl (by decide)
    | with_reducible apply State.flushStatus_kept | with_reducible apply State.edges_kept)

theorem State.ringWrote_kept {ps : List Part} {s0 s : State} (n : Nat) (hl : ∀ p ∈ reports, p ∈ ps)
    (h : s0.Kept ps s) : s0.Kept ps (State.ringWrote s n) := by
  unfold State.ringWrote
  repeat' (first
    | with_reducible assumption | with_reducible exact Part.sub_trans hl (by decide)
    | (with_reducible refine (?_ : s0.Kept ps _); fail_if_no_progress extract_lets +onlyGivenNames x
       refine (fun (_ : s0.Kept ps x) => ?_) ?_
       (on_goal 1 => clear_value x); (on_goal 2 => unfold x; clear x))
    | (with_reducible refine (?_ : s0.Kept ps _); fail_if_no_progress extract_lets +onlyGivenNames y
       clear_value (hy : y = _))
    | with_reducible apply State.countS_kept | with_reducible apply State.statusBlock_kept
    | with_reducible apply State.upRing_kept | with_reducible apply State.ringSignal_kept
    | (intro p hp; cases p <;>
       first | exact absurd (hl _ (by decide)) hp | rfl)
    | with_reducible exact id
    | (intro r hr; first | exact hr | (revert hr; simp only [Ring.ok] <;> omega)) | split
    | dsimp -zeta only | with_reducible refine State.Kept.lit ?_ ?_ ?_ ?_ ?_ ?_ ?_ ?_)

theorem State.complete_kept {ps : List Part} {s0 s : State} (n : Nat) (d0 : Nat) (d1 : Nat) (d2 : Nat) (d3 : Nat) (hl : ∀ p ∈ reports, p ∈ ps)
    (h : s0.Kept ps s) : s0.Kept ps (State.complete s n d0 d1 d2 d3) := by
  unfold State.complete
  repeat' (first
    | with_reducible assumption | with_reducible exact Part.sub_trans hl (by decide)
    | (with_reducible refine (?_ : s0.Kept ps _); fail_if_no_progress extract_lets +onlyGivenNames x
       refine (fun (_ : s0.Kept ps x) => ?_) ?_
       (on_goal 1 => clear_value x); (on_goal 2 => unfold x; clear x))
    | (with_reducible refine (?_ : s0.Kept ps _); fail_if_no_progress extract_lets +onlyGivenNames y
       clear_value (hy : y = _))
    | with_reducible apply State.dmaWrite_kept | with_reducible apply State.emit_kept
    | with_reducible apply State.upRing_kept | with_reducible apply State.ringWrote_kept
    | (intro t ht; with_reducible refine (?_ : s0.Kept ps _))
    | (intro p hp; cases p <;>
       first | exact absurd (hl _ (by decide)) hp | rfl)
    | with_reducible exact id
    | (intro r hr; first | exact hr | (revert hr; simp only [Ring.ok] <;> omega)) | dsimp -zeta only
    | with_reducible refine State.Kept.lit ?_ ?_ ?_ ?_ ?_ ?_ ?_ ?_)

theorem State.settleCmds_kept {ps : List Part} {s0 : State} (hl : ∀ p ∈ reports, p ∈ ps)
    (fuel : Nat) : ∀ {s : State} (n : Nat) (_ : s0.Kept ps s),
    s0.Kept ps (State.settleCmds s n fuel) := by
  induction fuel with
  | zero => intros; assumption
  | succ fuel ih =>
    intros
    rw [State.settleCmds]
    repeat' (first
      | with_reducible assumption | with_reducible exact Part.sub_trans hl (by decide)
      | (with_reducible refine (?_ : s0.Kept ps _); fail_if_no_progress extract_lets +onlyGivenNames y
         clear_value (hy : y = _))
      | with_reducible apply ih | with_reducible apply State.complete_kept
      | with_reducible apply State.upRing_kept | (intro t ht; with_reducible refine (?_ : s0.Kept ps _))
      | (intro p hp; cases p <;>
         first | exact absurd (hl _ (by decide)) hp | rfl)
      | with_reducible exact id
      | (intro r hr; first | exact hr | (revert hr; simp only [Ring.ok] <;> omega)) | split
      | dsimp -zeta only | with_reducible refine State.Kept.lit ?_ ?_ ?_ ?_ ?_ ?_ ?_ ?_)

theorem State.done_kept {ps : List Part} {s0 s : State} (c : Cmd) (status : Nat) (r0 : Nat) (r1 : Nat) (reason : Nat) (hl : ∀ p ∈ reports, p ∈ ps)
    (h : s0.Kept ps s) : s0.Kept ps (State.done s c status r0 r1 reason) := by
  unfold State.done
  repeat' (first
    | with_reducible assumption | with_reducible exact Part.sub_trans hl (by decide)
    | (with_reducible refine (?_ : s0.Kept ps _); fail_if_no_progress extract_lets +onlyGivenNames x
       refine (fun (_ : s0.Kept ps x) => ?_) ?_
       (on_goal 1 => clear_value x); (on_goal 2 => unfold x; clear x))
    | (with_reducible refine (?_ : s0.Kept ps _); fail_if_no_progress extract_lets +onlyGivenNames y
       clear_value (hy : y = _))
    | with_reducible apply State.upRing_kept | with_reducible apply State.complete_kept
    | with_reducible apply State.settleCmds_kept
    | (intro p hp; cases p <;>
       first | exact absurd (hl _ (by decide)) hp | rfl)
    | with_reducible exact id
    | (intro r hr; first | exact hr | (revert hr; simp only [Ring.ok] <;> omega)) | split
    | dsimp -zeta only | with_reducible refine State.Kept.lit ?_ ?_ ?_ ?_ ?_ ?_ ?_ ?_)

theorem State.writeEntry_kept {ps : List Part} {s0 s : State} (n : Nat) (e : Entry) (hl : ∀ p ∈ reports, p ∈ ps)
    (h : s0.Kept ps s) : s0.Kept ps (State.writeEntry s n e) := by
  unfold State.writeEntry
  repeat' (first
    | with_reducible assumption | with_reducible exact Part.sub_trans hl (by decide)
    | (with_reducible refine (?_ : s0.Kept ps _); fail_if_no_progress extract_lets +onlyGivenNames x
       refine (fun (_ : s0.Kept ps x) => ?_) ?_
       (on_goal 1 => clear_value x); (on_goal 2 => unfold x; clear x))
    | (with_reducible refine (?_ : s0.Kept ps _); fail_if_no_progress extract_lets +onlyGivenNames y
       clear_value (hy : y = _))
    | with_reducible apply State.dmaWrite_kept | with_reducible apply State.emit_kept
    | with_reducible apply State.upRing_kept | with_reducible apply State.ringWrote_kept
    | (intro p hp; cases p <;>
       first | exact absurd (hl _ (by decide)) hp | rfl)
    | with_reducible exact id
    | (intro r hr; first | exact hr | (revert hr; simp only [Ring.ok] <;> omega)) | dsimp -zeta only
    | with_reducible refine State.Kept.lit ?_ ?_ ?_ ?_ ?_ ?_ ?_ ?_)

theorem State.pushEntry_kept {ps : List Part} {s0 s : State} (n : Nat) (e : Entry) (hl : ∀ p ∈ reports, p ∈ ps)
    (h : s0.Kept ps s) : s0.Kept ps (State.pushEntry s n e) := by
  unfold State.pushEntry
  repeat' (first
    | with_reducible assumption | with_reducible exact Part.sub_trans hl (by decide)
    | (with_reducible refine (?_ : s0.Kept ps _); fail_if_no_progress extract_lets +onlyGivenNames x
       refine (fun (_ : s0.Kept ps x) => ?_) ?_
       (on_goal 1 => clear_value x); (on_goal 2 => unfold x; clear x))
    | (with_reducible refine (?_ : s0.Kept ps _); fail_if_no_progress extract_lets +onlyGivenNames y
       clear_value (hy : y = _))
    | with_reducible apply State.writeEntry_kept | with_reducible apply State.upRing_kept
    | with_reducible apply State.countS_kept
    | (intro p hp; cases p <;>
       first | exact absurd (hl _ (by decide)) hp | rfl)
    | with_reducible exact id
    | (intro r hr; first | exact hr | (revert hr; simp only [Ring.ok] <;> omega)) | split
    | dsimp -zeta only | with_reducible refine State.Kept.lit ?_ ?_ ?_ ?_ ?_ ?_ ?_ ?_)

theorem State.event_kept {ps : List Part} {s0 s : State} (cls : Nat) (code : Nat) (source : Nat) (d0 : Nat) (d1 : Nat) (concerns : (Nat → Bool)) (hl : ∀ p ∈ reports, p ∈ ps)
    (h : s0.Kept ps s) : s0.Kept ps (State.event s cls code source d0 d1 concerns) := by
  unfold State.event
  repeat' (first
    | with_reducible assumption | with_reducible exact Part.sub_trans hl (by decide)
    | (with_reducible refine (?_ : s0.Kept ps _); fail_if_no_progress extract_lets +onlyGivenNames x
       refine (fun (_ : s0.Kept ps x) => ?_) ?_
       (on_goal 1 => clear_value x); (on_goal 2 => unfold x; clear x))
    | (with_reducible refine (?_ : s0.Kept ps _); fail_if_no_progress extract_lets +onlyGivenNames y
       clear_value (hy : y = _))
    | with_reducible apply State.pushEntry_kept | with_reducible apply State.trace_kept
    | (intro t a ht; with_reducible refine (?_ : s0.Kept ps _)) | with_reducible apply State.Kept.foldl
    | split | dsimp -zeta only)

theorem State.countE_kept {ps : List Part} {s0 s : State} (g : Nat) (k : Nat) (n : Nat) (hl : ∀ p ∈ reports, p ∈ ps)
    (h : s0.Kept ps s) : s0.Kept ps (State.countE s g k n) := by
  unfold State.countE
  repeat' (first
    | with_reducible assumption | with_reducible exact Part.sub_trans hl (by decide)
    | (with_reducible refine (?_ : s0.Kept ps _); fail_if_no_progress extract_lets +onlyGivenNames x
       refine (fun (_ : s0.Kept ps x) => ?_) ?_
       (on_goal 1 => clear_value x); (on_goal 2 => unfold x; clear x))
    | (with_reducible refine (?_ : s0.Kept ps _); fail_if_no_progress extract_lets +onlyGivenNames y
       clear_value (hy : y = _))
    | with_reducible apply State.setCounter_kept | with_reducible apply State.orF_kept
    | with_reducible apply State.event_kept
    | (intro p hp; cases p <;>
       first | exact absurd (hl _ (by decide)) hp | rfl)
    | with_reducible exact id | split | dsimp -zeta only
    | with_reducible refine State.Kept.lit ?_ ?_ ?_ ?_ ?_ ?_ ?_ ?_)

theorem State.ringFail_kept {ps : List Part} {s0 s : State} (n : Nat) (reason : Nat) (hl : ∀ p ∈ ([.regs] : List Part), p ∈ ps)
    (h : s0.Kept ps s) : s0.Kept ps (State.ringFail s n reason) := by
  unfold State.ringFail
  repeat' (first
    | with_reducible assumption | with_reducible exact Part.sub_trans hl (by decide)
    | with_reducible apply State.setF_kept)

theorem State.ringErr_kept {ps : List Part} {s0 s : State} (n : Nat) (reason : Nat) (idx : Nat) (hl : ∀ p ∈ reports, p ∈ ps)
    (h : s0.Kept ps s) : s0.Kept ps (State.ringErr s n reason idx) := by
  unfold State.ringErr
  repeat' (first
    | with_reducible assumption | with_reducible exact Part.sub_trans hl (by decide)
    | (with_reducible refine (?_ : s0.Kept ps _); fail_if_no_progress extract_lets +onlyGivenNames x
       refine (fun (_ : s0.Kept ps x) => ?_) ?_
       (on_goal 1 => clear_value x); (on_goal 2 => unfold x; clear x))
    | (with_reducible refine (?_ : s0.Kept ps _); fail_if_no_progress extract_lets +onlyGivenNames y
       clear_value (hy : y = _))
    | with_reducible apply State.ringFail_kept | with_reducible apply State.event_kept
    | dsimp -zeta only)

end Sys2Proof.Machine
end

