-- ==== Sys2Proof/Laws/KeptFrames.lean ====
section
/-!
SUPPORT. What the operations and meanings of Machine/Frames.lean keep (`State.Kept`).
-/

set_option linter.all false
set_option linter.unusedTactic false
set_option linter.unreachableTactic false

namespace Sys2Proof.Machine

theorem State.setAcct_kept {ps : List Part} {s0 s : State} (r : Nat) (p : Nat) (c : Nat) (n : Nat) (hl : ∀ p ∈ ([.acct] : List Part), p ∈ ps)
    (h : s0.Kept ps s) : s0.Kept ps (State.setAcct s r p c n) := by
  unfold State.setAcct
  repeat' (first
    | with_reducible assumption | with_reducible exact Part.sub_trans hl (by decide)
    | (with_reducible refine (?_ : s0.Kept ps _); fail_if_no_progress extract_lets +onlyGivenNames y
       clear_value (hy : y = _))
    | (intro p hp; cases p <;>
       first | exact absurd (hl _ (by decide)) hp | rfl)
    | with_reducible exact id | with_reducible refine State.Kept.lit ?_ ?_ ?_ ?_ ?_ ?_ ?_ ?_)

theorem State.queueFc_kept {ps : List Part} {s0 s : State} (p : Nat) (fuel : Option FcFrame) (hl : ∀ p ∈ ([.regs, .ports] : List Part), p ∈ ps)
    (h : s0.Kept ps s) : s0.Kept ps (State.queueFc s p fuel) := by
  unfold State.queueFc
  repeat' (first
    | with_reducible assumption | with_reducible exact Part.sub_trans hl (by decide)
    | (with_reducible refine (?_ : s0.Kept ps _); fail_if_no_progress extract_lets +onlyGivenNames x
       refine (fun (_ : s0.Kept ps x) => ?_) ?_
       (on_goal 1 => clear_value x); (on_goal 2 => unfold x; clear x))
    | (with_reducible refine (?_ : s0.Kept ps _); fail_if_no_progress extract_lets +onlyGivenNames x
       refine (fun (_ : s0.Kept ps x.1) => ?_) ?_
       (on_goal 1 => clear_value x); (on_goal 2 => unfold x; clear x))
    | (with_reducible refine (?_ : s0.Kept ps _); fail_if_no_progress extract_lets +onlyGivenNames x
       refine (fun (_ : s0.Kept ps x.2) => ?_) ?_
       (on_goal 1 => clear_value x); (on_goal 2 => unfold x; clear x))
    | (with_reducible refine (?_ : s0.Kept ps _); fail_if_no_progress extract_lets +onlyGivenNames x
       refine State.Kept.cutMap (l := ps) (s0 := s0) x (fun hmap => ?_) ?_
       (on_goal 1 => clear_value x); (on_goal 2 => intro r hr; unfold x; clear x; try beta_reduce))
    | with_reducible apply hmap
    | (with_reducible refine (?_ : s0.Kept ps _); fail_if_no_progress extract_lets +onlyGivenNames x
       refine State.Kept.cutFun (l := ps) (s0 := s0) x (fun hfun => ?_) ?_
       (on_goal 1 => clear_value x); (on_goal 2 => intro r; unfold x; clear x; try beta_reduce))
    | with_reducible apply hfun
    | (with_reducible refine (?_ : s0.Kept ps _); fail_if_no_progress extract_lets +onlyGivenNames y
       clear_value (hy : y = _))
    | with_reducible apply State.upPort_kept | with_reducible apply State.setF_kept
    | (intro t a ht; with_reducible refine (?_ : s0.Kept ps _))
    | (intro t ht; with_reducible refine (?_ : s0.Kept ps _)) | with_reducible apply State.Kept.foldl
    | with_reducible apply State.Kept.foldlFst | with_reducible apply State.Kept.foldlSnd
    | (intro p hp; cases p <;>
       first | exact absurd (hl _ (by decide)) hp | rfl)
    | with_reducible exact id | (intro hv; first | exact hv | (subst_vars; first | exact hv | omega))
    | (intro r hr; first | exact hr | (revert hr; simp only [Ring.ok] <;> omega))
    | with_reducible exact Tab.rising_filter _ _
    | (intro hv; refine Tab.all_set (P := Ring.ok) _ _ _ hv ?_; simp [Ring.ok]) | split
    | dsimp -zeta only | with_reducible refine State.Kept.lit ?_ ?_ ?_ ?_ ?_ ?_ ?_ ?_)

theorem State.xoff_kept {ps : List Part} {s0 s : State} (p : Nat) (c : Nat) (hl : ∀ p ∈ ([.regs, .ports] : List Part), p ∈ ps)
    (h : s0.Kept ps s) : s0.Kept ps (State.xoff s p c) := by
  unfold State.xoff
  repeat' (first
    | with_reducible assumption | with_reducible exact Part.sub_trans hl (by decide)
    | (with_reducible refine (?_ : s0.Kept ps _); fail_if_no_progress extract_lets +onlyGivenNames x
       refine (fun (_ : s0.Kept ps x) => ?_) ?_
       (on_goal 1 => clear_value x); (on_goal 2 => unfold x; clear x))
    | (with_reducible refine (?_ : s0.Kept ps _); fail_if_no_progress extract_lets +onlyGivenNames x
       refine (fun (_ : s0.Kept ps x.1) => ?_) ?_
       (on_goal 1 => clear_value x); (on_goal 2 => unfold x; clear x))
    | (with_reducible refine (?_ : s0.Kept ps _); fail_if_no_progress extract_lets +onlyGivenNames x
       refine (fun (_ : s0.Kept ps x.2) => ?_) ?_
       (on_goal 1 => clear_value x); (on_goal 2 => unfold x; clear x))
    | (with_reducible refine (?_ : s0.Kept ps _); fail_if_no_progress extract_lets +onlyGivenNames x
       refine State.Kept.cutMap (l := ps) (s0 := s0) x (fun hmap => ?_) ?_
       (on_goal 1 => clear_value x); (on_goal 2 => intro r hr; unfold x; clear x; try beta_reduce))
    | with_reducible apply hmap
    | (with_reducible refine (?_ : s0.Kept ps _); fail_if_no_progress extract_lets +onlyGivenNames x
       refine State.Kept.cutFun (l := ps) (s0 := s0) x (fun hfun => ?_) ?_
       (on_goal 1 => clear_value x); (on_goal 2 => intro r; unfold x; clear x; try beta_reduce))
    | with_reducible apply hfun
    | (with_reducible refine (?_ : s0.Kept ps _); fail_if_no_progress extract_lets +onlyGivenNames y
       clear_value (hy : y = _))
    | with_reducible apply State.orF_kept | with_reducible apply State.queueFc_kept
    | (intro t a ht; with_reducible refine (?_ : s0.Kept ps _))
    | (intro t ht; with_reducible refine (?_ : s0.Kept ps _)) | with_reducible apply State.Kept.foldl
    | with_reducible apply State.Kept.foldlFst | with_reducible apply State.Kept.foldlSnd
    | (intro p hp; cases p <;>
       first | exact absurd (hl _ (by decide)) hp | rfl)
    | with_reducible exact id | (intro hv; first | exact hv | (subst_vars; first | exact hv | omega))
    | (intro r hr; first | exact hr | (revert hr; simp only [Ring.ok] <;> omega))
    | with_reducible exact Tab.rising_filter _ _
    | (intro hv; refine Tab.all_set (P := Ring.ok) _ _ _ hv ?_; simp [Ring.ok]) | split
    | dsimp -zeta only | with_reducible refine State.Kept.lit ?_ ?_ ?_ ?_ ?_ ?_ ?_ ?_)

theorem State.xonTry_kept {ps : List Part} {s0 s : State} (p : Nat) (c : Nat) (hl : ∀ p ∈ ([.regs, .ports] : List Part), p ∈ ps)
    (h : s0.Kept ps s) : s0.Kept ps (State.xonTry s p c) := by
  unfold State.xonTry
  repeat' (first
    | with_reducible assumption | with_reducible exact Part.sub_trans hl (by decide)
    | (with_reducible refine (?_ : s0.Kept ps _); fail_if_no_progress extract_lets +onlyGivenNames x
       refine (fun (_ : s0.Kept ps x) => ?_) ?_
       (on_goal 1 => clear_value x); (on_goal 2 => unfold x; clear x))
    | (with_reducible refine (?_ : s0.Kept ps _); fail_if_no_progress extract_lets +onlyGivenNames x
       refine (fun (_ : s0.Kept ps x.1) => ?_) ?_
       (on_goal 1 => clear_value x); (on_goal 2 => unfold x; clear x))
    | (with_reducible refine (?_ : s0.Kept ps _); fail_if_no_progress extract_lets +onlyGivenNames x
       refine (fun (_ : s0.Kept ps x.2) => ?_) ?_
       (on_goal 1 => clear_value x); (on_goal 2 => unfold x; clear x))
    | (with_reducible refine (?_ : s0.Kept ps _); fail_if_no_progress extract_lets +onlyGivenNames x
       refine State.Kept.cutMap (l := ps) (s0 := s0) x (fun hmap => ?_) ?_
       (on_goal 1 => clear_value x); (on_goal 2 => intro r hr; unfold x; clear x; try beta_reduce))
    | with_reducible apply hmap
    | (with_reducible refine (?_ : s0.Kept ps _); fail_if_no_progress extract_lets +onlyGivenNames x
       refine State.Kept.cutFun (l := ps) (s0 := s0) x (fun hfun => ?_) ?_
       (on_goal 1 => clear_value x); (on_goal 2 => intro r; unfold x; clear x; try beta_reduce))
    | with_reducible apply hfun
    | (with_reducible refine (?_ : s0.Kept ps _); fail_if_no_progress extract_lets +onlyGivenNames y
       clear_value (hy : y = _))
    | with_reducible apply State.clrF_kept | with_reducible apply State.queueFc_kept
    | (intro t a ht; with_reducible refine (?_ : s0.Kept ps _))
    | (intro t ht; with_reducible refine (?_ : s0.Kept ps _)) | with_reducible apply State.Kept.foldl
    | with_reducible apply State.Kept.foldlFst | with_reducible apply State.Kept.foldlSnd
    | (intro p hp; cases p <;>
       first | exact absurd (hl _ (by decide)) hp | rfl)
    | with_reducible exact id | (intro hv; first | exact hv | (subst_vars; first | exact hv | omega))
    | (intro r hr; first | exact hr | (revert hr; simp only [Ring.ok] <;> omega))
    | with_reducible exact Tab.rising_filter _ _
    | (intro hv; refine Tab.all_set (P := Ring.ok) _ _ _ hv ?_; simp [Ring.ok]) | split
    | dsimp -zeta only | with_reducible refine State.Kept.lit ?_ ?_ ?_ ?_ ?_ ?_ ?_ ?_)

theorem State.xonAll_kept {ps : List Part} {s0 s : State}  (hl : ∀ p ∈ ([.regs, .ports] : List Part), p ∈ ps)
    (h : s0.Kept ps s) : s0.Kept ps (State.xonAll s) := by
  unfold State.xonAll
  repeat' (first
    | with_reducible assumption | with_reducible exact Part.sub_trans hl (by decide)
    | with_reducible apply State.xonTry_kept | (intro t a ht; with_reducible refine (?_ : s0.Kept ps _))
    | with_reducible apply State.Kept.foldl | dsimp -zeta only)

theorem State.admitCells_kept {ps : List Part} {s0 s : State} (p : Nat) (c : Nat) (n : Nat) (hl : ∀ p ∈ ([.regs, .ports, .acct] : List Part), p ∈ ps)
    (h : s0.Kept ps s) : s0.Kept ps (State.admitCells s p c n).2 := by
  unfold State.admitCells
  repeat' (first
    | with_reducible assumption | with_reducible exact Part.sub_trans hl (by decide)
    | (with_reducible refine (?_ : s0.Kept ps _); fail_if_no_progress extract_lets +onlyGivenNames x
       refine (fun (_ : s0.Kept ps x) => ?_) ?_
       (on_goal 1 => clear_value x); (on_goal 2 => unfold x; clear x))
    | (with_reducible refine (?_ : s0.Kept ps _); fail_if_no_progress extract_lets +onlyGivenNames x
       refine (fun (_ : s0.Kept ps x.1) => ?_) ?_
       (on_goal 1 => clear_value x); (on_goal 2 => unfold x; clear x))
    | (with_reducible refine (?_ : s0.Kept ps _); fail_if_no_progress extract_lets +onlyGivenNames x
       refine (fun (_ : s0.Kept ps x.2) => ?_) ?_
       (on_goal 1 => clear_value x); (on_goal 2 => unfold x; clear x))
    | (with_reducible refine (?_ : s0.Kept ps _); fail_if_no_progress extract_lets +onlyGivenNames y
       clear_value (hy : y = _))
    | with_reducible apply State.xoff_kept | with_reducible apply State.setAcct_kept
    | with_reducible apply State.xonTry_kept | split | dsimp -zeta only
    | with_reducible refine State.Kept.lit ?_ ?_ ?_ ?_ ?_ ?_ ?_ ?_)

theorem State.admitCells_kept_eq {ps : List Part} {s0 s : State} {p : Nat} {c : Nat} {n : Nat} {pp : Admit × State} (hp : State.admitCells s p c n = pp) (hl : ∀ p ∈ ([.regs, .ports, .acct] : List Part), p ∈ ps)
    (h : s0.Kept ps s) : s0.Kept ps pp.2 := by
  subst hp; apply State.admitCells_kept <;> assumption

theorem State.release_kept {ps : List Part} {s0 s : State} (r : Nat) (p : Nat) (c : Nat) (n : Nat) (hl : ∀ p ∈ ([.regs, .ports, .acct] : List Part), p ∈ ps)
    (h : s0.Kept ps s) : s0.Kept ps (State.release s r p c n) := by
  unfold State.release
  repeat' (first
    | with_reducible assumption | with_reducible exact Part.sub_trans hl (by decide)
    | (with_reducible refine (?_ : s0.Kept ps _); fail_if_no_progress extract_lets +onlyGivenNames y
       clear_value (hy : y = _))
    | with_reducible apply State.xonAll_kept | with_reducible apply State.setAcct_kept
    | (intro p hp; cases p <;>
       first | exact absurd (hl _ (by decide)) hp | rfl)
    | with_reducible exact id | split | with_reducible refine State.Kept.lit ?_ ?_ ?_ ?_ ?_ ?_ ?_ ?_)

theorem State.epochIn_kept {ps : List Part} {s0 s : State} (e : Nat) (hl : ∀ p ∈ ([.epochs] : List Part), p ∈ ps)
    (h : s0.Kept ps s) : s0.Kept ps (State.epochIn s e) := by
  unfold State.epochIn
  repeat' (first
    | with_reducible assumption | with_reducible exact Part.sub_trans hl (by decide)
    | (with_reducible refine (?_ : s0.Kept ps _); fail_if_no_progress extract_lets +onlyGivenNames y
       clear_value (hy : y = _))
    | (intro p hp; cases p <;>
       first | exact absurd (hl _ (by decide)) hp | rfl)
    | with_reducible exact id | (intro hv; first | exact hv | (subst_vars; first | exact hv | omega))
    | with_reducible refine State.Kept.lit ?_ ?_ ?_ ?_ ?_ ?_ ?_ ?_)

theorem State.epochOut_kept {ps : List Part} {s0 s : State} (e : Nat) (hl : ∀ p ∈ ([.epochs] : List Part), p ∈ ps)
    (h : s0.Kept ps s) : s0.Kept ps (State.epochOut s e) := by
  unfold State.epochOut
  repeat' (first
    | with_reducible assumption | with_reducible exact Part.sub_trans hl (by decide)
    | (with_reducible refine (?_ : s0.Kept ps _); fail_if_no_progress extract_lets +onlyGivenNames y
       clear_value (hy : y = _))
    | (intro p hp; cases p <;>
       first | exact absurd (hl _ (by decide)) hp | rfl)
    | with_reducible exact id | (intro hv; first | exact hv | (subst_vars; first | exact hv | omega))
    | with_reducible refine State.Kept.lit ?_ ?_ ?_ ?_ ?_ ?_ ?_ ?_)

theorem State.finish_kept {ps : List Part} {s0 s : State} (f : Frame) (hl : ∀ p ∈ ([.regs, .ports, .epochs, .acct] : List Part), p ∈ ps)
    (h : s0.Kept ps s) : s0.Kept ps (State.finish s f) := by
  unfold State.finish
  repeat' (first
    | with_reducible assumption | with_reducible exact Part.sub_trans hl (by decide)
    | (with_reducible refine (?_ : s0.Kept ps _); fail_if_no_progress extract_lets +onlyGivenNames x
       refine (fun (_ : s0.Kept ps x) => ?_) ?_
       (on_goal 1 => clear_value x); (on_goal 2 => unfold x; clear x))
    | (with_reducible refine (?_ : s0.Kept ps _); fail_if_no_progress extract_lets +onlyGivenNames y
       clear_value (hy : y = _))
    | with_reducible apply State.release_kept | with_reducible apply State.epochOut_kept
    | (intro p hp; cases p <;>
       first | exact absurd (hl _ (by decide)) hp | rfl)
    | with_reducible exact id | split | with_reducible refine State.Kept.lit ?_ ?_ ?_ ?_ ?_ ?_ ?_ ?_)

theorem State.mcDone_kept {ps : List Part} {s0 s : State} (uid : Nat) (t : Nat) (hl : ∀ p ∈ ([.regs, .ports, .epochs, .fabric, .acct] : List Part), p ∈ ps)
    (h : s0.Kept ps s) : s0.Kept ps (State.mcDone s uid t) := by
  unfold State.mcDone
  repeat' (first
    | with_reducible assumption | with_reducible exact Part.sub_trans hl (by decide)
    | (with_reducible refine (?_ : s0.Kept ps _); fail_if_no_progress extract_lets +onlyGivenNames x
       refine (fun (_ : s0.Kept ps x) => ?_) ?_
       (on_goal 1 => clear_value x); (on_goal 2 => unfold x; clear x))
    | (with_reducible refine (?_ : s0.Kept ps _); fail_if_no_progress extract_lets +onlyGivenNames y
       clear_value (hy : y = _))
    | with_reducible apply State.release_kept | with_reducible apply State.epochOut_kept
    | (intro p hp; cases p <;>
       first | exact absurd (hl _ (by decide)) hp | rfl)
    | with_reducible exact id | split | with_reducible refine State.Kept.lit ?_ ?_ ?_ ?_ ?_ ?_ ?_ ?_)

theorem State.txComplete_kept {ps : List Part} {s0 s : State} (d : Direct) (codes : List Nat) (late : Bool) (miss : Bool) (drop : Nat) (hl : ∀ p ∈ reports, p ∈ ps)
    (h : s0.Kept ps s) : s0.Kept ps (State.txComplete s d codes late miss drop) := by
  unfold State.txComplete
  repeat' (first
    | with_reducible assumption | with_reducible exact Part.sub_trans hl (by decide)
    | with_reducible apply State.complete_kept
    | (intro t a ht; with_reducible refine (?_ : s0.Kept ps _)) | with_reducible apply State.Kept.foldl
    | with_reducible apply State.Kept.foldlFst | with_reducible apply State.Kept.foldlSnd | split
    | dsimp -zeta only | with_reducible refine State.Kept.lit ?_ ?_ ?_ ?_ ?_ ?_ ?_ ?_)

theorem State.countIngress_kept {ps : List Part} {s0 s : State} (p : Nat) (c : Nat) (code : Nat) (hl : ∀ p ∈ ([.regs, .counters] : List Part), p ∈ ps)
    (h : s0.Kept ps s) : s0.Kept ps (State.countIngress s p c code) := by
  unfold State.countIngress
  repeat' (first
    | with_reducible assumption | with_reducible exact Part.sub_trans hl (by decide)
    | with_reducible apply State.countS_kept)

theorem State.countQueue_kept {ps : List Part} {s0 s : State} (p : Nat) (slot : Nat) (code : Nat) (hl : ∀ p ∈ ([.regs, .counters] : List Part), p ∈ ps)
    (h : s0.Kept ps s) : s0.Kept ps (State.countQueue s p slot code) := by
  unfold State.countQueue
  repeat' (first
    | with_reducible assumption | with_reducible exact Part.sub_trans hl (by decide)
    | (with_reducible refine (?_ : s0.Kept ps _); fail_if_no_progress extract_lets +onlyGivenNames y
       clear_value (hy : y = _))
    | with_reducible apply State.countS_kept
    | (intro p hp; cases p <;>
       first | exact absurd (hl _ (by decide)) hp | rfl)
    | with_reducible exact id | split | with_reducible refine State.Kept.lit ?_ ?_ ?_ ?_ ?_ ?_ ?_ ?_)

theorem State.dropIngress_kept {ps : List Part} {s0 s : State} (f : Frame) (code : Nat) (hl : ∀ p ∈ reports ++ [.ports, .epochs, .acct], p ∈ ps)
    (h : s0.Kept ps s) : s0.Kept ps (State.dropIngress s f code) := by
  unfold State.dropIngress
  repeat' (first
    | with_reducible assumption | with_reducible exact Part.sub_trans hl (by decide)
    | (with_reducible refine (?_ : s0.Kept ps _); fail_if_no_progress extract_lets +onlyGivenNames x
       refine (fun (_ : s0.Kept ps x) => ?_) ?_
       (on_goal 1 => clear_value x); (on_goal 2 => unfold x; clear x))
    | (with_reducible refine (?_ : s0.Kept ps _); fail_if_no_progress extract_lets +onlyGivenNames y
       clear_value (hy : y = _))
    | with_reducible apply State.finish_kept | with_reducible apply State.countIngress_kept
    | with_reducible apply State.txComplete_kept
    | (intro p hp; cases p <;>
       first | exact absurd (hl _ (by decide)) hp | rfl)
    | with_reducible exact id | split | with_reducible refine State.Kept.lit ?_ ?_ ?_ ?_ ?_ ?_ ?_ ?_)

theorem State.dropEgress_kept {ps : List Part} {s0 s : State} (p : Nat) (slot : Nat) (f : Frame) (code : Nat) (hl : ∀ p ∈ reports ++ [.ports, .epochs, .acct], p ∈ ps)
    (h : s0.Kept ps s) : s0.Kept ps (State.dropEgress s p slot f code) := by
  unfold State.dropEgress
  repeat' (first
    | with_reducible assumption | with_reducible exact Part.sub_trans hl (by decide)
    | (with_reducible refine (?_ : s0.Kept ps _); fail_if_no_progress extract_lets +onlyGivenNames x
       refine (fun (_ : s0.Kept ps x) => ?_) ?_
       (on_goal 1 => clear_value x); (on_goal 2 => unfold x; clear x))
    | (with_reducible refine (?_ : s0.Kept ps _); fail_if_no_progress extract_lets +onlyGivenNames y
       clear_value (hy : y = _))
    | with_reducible apply State.finish_kept | with_reducible apply State.countQueue_kept
    | with_reducible apply State.txComplete_kept | split
    | with_reducible refine State.Kept.lit ?_ ?_ ?_ ?_ ?_ ?_ ?_ ?_)

theorem State.dropSpill_kept {ps : List Part} {s0 s : State} (k : Nat) (hl : ∀ p ∈ ([.fabric] : List Part), p ∈ ps)
    (h : s0.Kept ps s) : s0.Kept ps (State.dropSpill s k) := by
  unfold State.dropSpill
  repeat' (first
    | with_reducible assumption | with_reducible exact Part.sub_trans hl (by decide)
    | (with_reducible refine (?_ : s0.Kept ps _); fail_if_no_progress extract_lets +onlyGivenNames y
       clear_value (hy : y = _))
    | (intro p hp; cases p <;>
       first | exact absurd (hl _ (by decide)) hp | rfl)
    | with_reducible exact id | dsimp -zeta only
    | with_reducible refine State.Kept.lit ?_ ?_ ?_ ?_ ?_ ?_ ?_ ?_)

theorem State.flushQueue_kept {ps : List Part} {s0 s : State} (p : Nat) (slot : Nat) (code : Nat) (flushed : Bool) (hl : ∀ p ∈ reports ++ [.ports, .epochs, .fabric, .acct, .queues], p ∈ ps)
    (h : s0.Kept ps s) : s0.Kept ps (State.flushQueue s p slot code flushed) := by
  unfold State.flushQueue
  repeat' (first
    | with_reducible assumption | with_reducible exact Part.sub_trans hl (by decide)
    | (with_reducible refine (?_ : s0.Kept ps _); fail_if_no_progress extract_lets +onlyGivenNames x
       refine (fun (_ : s0.Kept ps x) => ?_) ?_
       (on_goal 1 => clear_value x); (on_goal 2 => unfold x; clear x))
    | (with_reducible refine (?_ : s0.Kept ps _); fail_if_no_progress extract_lets +onlyGivenNames y
       clear_value (hy : y = _))
    | with_reducible apply State.dropSpill_kept | with_reducible apply State.dropEgress_kept
    | with_reducible apply State.countS_kept | (intro t a ht; with_reducible refine (?_ : s0.Kept ps _))
    | with_reducible apply State.Kept.foldl
    | (intro p hp; cases p <;>
       first | exact absurd (hl _ (by decide)) hp | rfl)
    | with_reducible exact id | split | dsimp -zeta only
    | with_reducible refine State.Kept.lit ?_ ?_ ?_ ?_ ?_ ?_ ?_ ?_)

theorem State.flushPort_kept {ps : List Part} {s0 s : State} (p : Nat) (hl : ∀ p ∈ reports ++ [.ports, .epochs, .fabric, .acct, .queues], p ∈ ps)
    (h : s0.Kept ps s) : s0.Kept ps (State.flushPort s p) := by
  unfold State.flushPort
  repeat' (first
    | with_reducible assumption | with_reducible exact Part.sub_trans hl (by decide)
    | with_reducible apply State.flushQueue_kept
    | (intro t a ht; with_reducible refine (?_ : s0.Kept ps _)) | with_reducible apply State.Kept.foldl
    | dsimp -zeta only)

end Sys2Proof.Machine
end

