-- ==== Sys2Proof/Laws/KeptLinks.lean ====
section
/-!
SUPPORT. What the operations and meanings of Machine/Links.lean keep (`State.Kept`).
-/

set_option linter.all false
set_option linter.unusedTactic false
set_option linter.unreachableTactic false

namespace Sys2Proof.Machine

theorem State.setPortState_kept {ps : List Part} {s0 s : State} (p : Nat) (st : Nat) (hl : ∀ p ∈ ([.regs] : List Part), p ∈ ps)
    (h : s0.Kept ps s) : s0.Kept ps (State.setPortState s p st) := by
  unfold State.setPortState
  repeat' (first
    | with_reducible assumption | with_reducible exact Part.sub_trans hl (by decide)
    | with_reducible apply State.setF_kept)

theorem State.linkChange_kept {ps : List Part} {s0 s : State} (p : Nat) (hl : ∀ p ∈ reports, p ∈ ps)
    (h : s0.Kept ps s) : s0.Kept ps (State.linkChange s p) := by
  unfold State.linkChange
  repeat' (first
    | with_reducible assumption | with_reducible exact Part.sub_trans hl (by decide)
    | with_reducible apply State.event_kept | dsimp -zeta only)

theorem State.freezeLanes_kept {ps : List Part} {s0 s : State} (p : Nat) (hl : ∀ p ∈ ([.regs] : List Part), p ∈ ps)
    (h : s0.Kept ps s) : s0.Kept ps (State.freezeLanes s p) := by
  unfold State.freezeLanes
  repeat' (first
    | with_reducible assumption | with_reducible exact Part.sub_trans hl (by decide)
    | (with_reducible refine (?_ : s0.Kept ps _); fail_if_no_progress extract_lets +onlyGivenNames y
       clear_value (hy : y = _))
    | with_reducible apply State.setF_kept | (intro t a ht; with_reducible refine (?_ : s0.Kept ps _))
    | with_reducible apply State.Kept.foldl
    | (intro p hp; cases p <;>
       first | exact absurd (hl _ (by decide)) hp | rfl)
    | with_reducible exact id | split | dsimp -zeta only
    | with_reducible refine State.Kept.lit ?_ ?_ ?_ ?_ ?_ ?_ ?_ ?_)

theorem State.setRef_kept {ps : List Part} {s0 s : State} (i : Nat) (st : Nat) (hl : ∀ p ∈ reports ++ [.refs], p ∈ ps)
    (h : s0.Kept ps s) : s0.Kept ps (State.setRef s i st) := by
  unfold State.setRef
  repeat' (first
    | with_reducible assumption | with_reducible exact Part.sub_trans hl (by decide)
    | (with_reducible refine (?_ : s0.Kept ps _); fail_if_no_progress extract_lets +onlyGivenNames x
       refine (fun (_ : s0.Kept ps x) => ?_) ?_
       (on_goal 1 => clear_value x); (on_goal 2 => unfold x; clear x))
    | (with_reducible refine (?_ : s0.Kept ps _); fail_if_no_progress extract_lets +onlyGivenNames y
       clear_value (hy : y = _))
    | with_reducible apply State.setF_kept | with_reducible apply State.upRef_kept
    | with_reducible apply State.event_kept
    | (intro p hp; cases p <;>
       first | exact absurd (hl _ (by decide)) hp | rfl)
    | with_reducible exact id | split | dsimp -zeta only
    | with_reducible refine State.Kept.lit ?_ ?_ ?_ ?_ ?_ ?_ ?_ ?_)

theorem State.failRef_kept {ps : List Part} {s0 s : State} (i : Nat) (hl : ∀ p ∈ reports ++ [.refs], p ∈ ps)
    (h : s0.Kept ps s) : s0.Kept ps (State.failRef s i) := by
  unfold State.failRef
  repeat' (first
    | with_reducible assumption | with_reducible exact Part.sub_trans hl (by decide)
    | with_reducible apply State.setRef_kept | split)

theorem State.slotsLost_kept {ps : List Part} {s0 s : State} (p : Nat) (hl : ∀ p ∈ reports ++ [.refs], p ∈ ps)
    (h : s0.Kept ps s) : s0.Kept ps (State.slotsLost s p) := by
  unfold State.slotsLost
  repeat' (first
    | with_reducible assumption | with_reducible exact Part.sub_trans hl (by decide)
    | with_reducible apply State.failRef_kept | with_reducible apply State.setF_kept
    | (intro t a ht; with_reducible refine (?_ : s0.Kept ps _)) | with_reducible apply State.Kept.foldl
    | dsimp -zeta only)

theorem State.requalifySlot_kept {ps : List Part} {s0 s : State} (i : Nat) (hl : ∀ p ∈ reports ++ [.refs], p ∈ ps)
    (h : s0.Kept ps s) : s0.Kept ps (State.requalifySlot s i) := by
  unfold State.requalifySlot
  repeat' (first
    | with_reducible assumption | with_reducible exact Part.sub_trans hl (by decide)
    | with_reducible apply State.setRef_kept | split)

theorem State.slotsBack_kept {ps : List Part} {s0 s : State} (p : Nat) (hl : ∀ p ∈ reports ++ [.refs], p ∈ ps)
    (h : s0.Kept ps s) : s0.Kept ps (State.slotsBack s p) := by
  unfold State.slotsBack
  repeat' (first
    | with_reducible assumption | with_reducible exact Part.sub_trans hl (by decide)
    | with_reducible apply State.requalifySlot_kept
    | (intro t a ht; with_reducible refine (?_ : s0.Kept ps _)) | with_reducible apply State.Kept.foldl
    | dsimp -zeta only)

theorem State.suspendPhase_kept {ps : List Part} {s0 s : State} (p : Nat) (hl : ∀ p ∈ ([.regs, .phases] : List Part), p ∈ ps)
    (h : s0.Kept ps s) : s0.Kept ps (State.suspendPhase s p) := by
  unfold State.suspendPhase
  repeat' (first
    | with_reducible assumption | with_reducible exact Part.sub_trans hl (by decide)
    | (with_reducible refine (?_ : s0.Kept ps _); fail_if_no_progress extract_lets +onlyGivenNames x
       refine (fun (_ : s0.Kept ps x) => ?_) ?_
       (on_goal 1 => clear_value x); (on_goal 2 => unfold x; clear x))
    | (with_reducible refine (?_ : s0.Kept ps _); fail_if_no_progress extract_lets +onlyGivenNames y
       clear_value (hy : y = _))
    | with_reducible apply State.upPhase_kept | with_reducible apply State.setF_kept | split
    | dsimp -zeta only)

theorem State.pgMove_kept {ps : List Part} {s0 s : State} (g : Nat) (toBackup : Bool) (hl : ∀ p ∈ ([.regs, .pgs, .free] : List Part), p ∈ ps)
    (h : s0.Kept ps s) : s0.Kept ps (State.pgMove s g toBackup) := by
  unfold State.pgMove
  repeat' (first
    | with_reducible assumption | with_reducible exact Part.sub_trans hl (by decide)
    | (with_reducible refine (?_ : s0.Kept ps _); fail_if_no_progress extract_lets +onlyGivenNames x
       refine (fun (_ : s0.Kept ps x) => ?_) ?_
       (on_goal 1 => clear_value x); (on_goal 2 => unfold x; clear x))
    | (with_reducible refine (?_ : s0.Kept ps _); fail_if_no_progress extract_lets +onlyGivenNames x
       refine (fun (_ : s0.Kept ps x.1) => ?_) ?_
       (on_goal 1 => clear_value x); (on_goal 2 => unfold x; clear x))
    | (with_reducible refine (?_ : s0.Kept ps _); fail_if_no_progress extract_lets +onlyGivenNames x
       refine (fun (_ : s0.Kept ps x.2) => ?_) ?_
       (on_goal 1 => clear_value x); (on_goal 2 => unfold x; clear x))
    | (with_reducible refine (?_ : s0.Kept ps _); fail_if_no_progress extract_lets +onlyGivenNames y
       clear_value (hy : y = _))
    | with_reducible apply State.draw_kept
    | with_reducible refine State.draw_kept_eq (pp := (_, _)) (by assumption) ?_ ?_
    | with_reducible apply State.orF_kept | with_reducible apply State.clrF_kept
    | (intro p hp; cases p <;>
       first | exact absurd (hl _ (by decide)) hp | rfl)
    | with_reducible exact id | split | dsimp -zeta only
    | with_reducible refine State.Kept.lit ?_ ?_ ?_ ?_ ?_ ?_ ?_ ?_)

theorem State.pgEval_kept {ps : List Part} {s0 s : State} (g : Nat) (hl : ∀ p ∈ ([.regs, .pgs, .free] : List Part), p ∈ ps)
    (h : s0.Kept ps s) : s0.Kept ps (State.pgEval s g) := by
  unfold State.pgEval
  repeat' (first
    | with_reducible assumption | with_reducible exact Part.sub_trans hl (by decide)
    | (with_reducible refine (?_ : s0.Kept ps _); fail_if_no_progress extract_lets +onlyGivenNames x
       refine (fun (_ : s0.Kept ps x) => ?_) ?_
       (on_goal 1 => clear_value x); (on_goal 2 => unfold x; clear x))
    | (with_reducible refine (?_ : s0.Kept ps _); fail_if_no_progress extract_lets +onlyGivenNames y
       clear_value (hy : y = _))
    | with_reducible apply State.pgMove_kept | split
    | with_reducible refine State.Kept.lit ?_ ?_ ?_ ?_ ?_ ?_ ?_ ?_)

theorem State.pgPort_kept {ps : List Part} {s0 s : State} (p : Nat) (hl : ∀ p ∈ ([.regs, .pgs, .free] : List Part), p ∈ ps)
    (h : s0.Kept ps s) : s0.Kept ps (State.pgPort s p) := by
  unfold State.pgPort
  repeat' (first
    | with_reducible assumption | with_reducible exact Part.sub_trans hl (by decide)
    | with_reducible apply State.pgEval_kept | split
    | with_reducible refine State.Kept.lit ?_ ?_ ?_ ?_ ?_ ?_ ?_ ?_)

theorem State.cutShort_kept {ps : List Part} {s0 s : State} (p : Nat) (hl : ∀ p ∈ reports ++ [.ports, .epochs, .acct, .queues, .free], p ∈ ps)
    (h : s0.Kept ps s) : s0.Kept ps (State.cutShort s p) := by
  unfold State.cutShort
  repeat' (first
    | with_reducible assumption | with_reducible exact Part.sub_trans hl (by decide)
    | (with_reducible refine (?_ : s0.Kept ps _); fail_if_no_progress extract_lets +onlyGivenNames x
       refine (fun (_ : s0.Kept ps x) => ?_) ?_
       (on_goal 1 => clear_value x); (on_goal 2 => unfold x; clear x))
    | (with_reducible refine (?_ : s0.Kept ps _); fail_if_no_progress extract_lets +onlyGivenNames x
       refine (fun (_ : s0.Kept ps x.1) => ?_) ?_
       (on_goal 1 => clear_value x); (on_goal 2 => unfold x; clear x))
    | (with_reducible refine (?_ : s0.Kept ps _); fail_if_no_progress extract_lets +onlyGivenNames x
       refine (fun (_ : s0.Kept ps x.2) => ?_) ?_
       (on_goal 1 => clear_value x); (on_goal 2 => unfold x; clear x))
    | (with_reducible refine (?_ : s0.Kept ps _); fail_if_no_progress extract_lets +onlyGivenNames y
       clear_value (hy : y = _))
    | with_reducible apply State.draw_kept
    | with_reducible refine State.draw_kept_eq (pp := (_, _)) (by assumption) ?_ ?_
    | with_reducible apply State.countE_kept | with_reducible apply State.emit_kept
    | with_reducible apply State.upQueue_kept | with_reducible apply State.countS_kept
    | with_reducible apply State.dropEgress_kept
    | (intro p hp; cases p <;>
       first | exact absurd (hl _ (by decide)) hp | rfl)
    | with_reducible exact id | split | dsimp -zeta only
    | with_reducible refine State.Kept.lit ?_ ?_ ?_ ?_ ?_ ?_ ?_ ?_)

theorem State.enterDown_kept {ps : List Part} {s0 s : State} (p : Nat) (cause : Nat) (hl : ∀ p ∈ ([.regs, .counters] : List Part), p ∈ ps)
    (h : s0.Kept ps s) : s0.Kept ps (State.enterDown s p cause) := by
  unfold State.enterDown
  repeat' (first
    | with_reducible assumption | with_reducible exact Part.sub_trans hl (by decide)
    | (with_reducible refine (?_ : s0.Kept ps _); fail_if_no_progress extract_lets +onlyGivenNames x
       refine (fun (_ : s0.Kept ps x) => ?_) ?_
       (on_goal 1 => clear_value x); (on_goal 2 => unfold x; clear x))
    | (with_reducible refine (?_ : s0.Kept ps _); fail_if_no_progress extract_lets +onlyGivenNames y
       clear_value (hy : y = _))
    | with_reducible apply State.setPortState_kept | with_reducible apply State.setF_kept
    | with_reducible apply State.countS_kept | split)

theorem State.leaveLine_kept {ps : List Part} {s0 s : State} (p : Nat) (st : Nat) (cause : Nat) (failed : Nat) (hl : ∀ p ∈ reports ++ [.ports, .epochs, .fabric, .acct, .queues, .pgs, .phases, .refs, .free], p ∈ ps)
    (h : s0.Kept ps s) : s0.Kept ps (State.leaveLine s p st cause failed) := by
  unfold State.leaveLine
  repeat' (first
    | with_reducible assumption | with_reducible exact Part.sub_trans hl (by decide)
    | (with_reducible refine (?_ : s0.Kept ps _); fail_if_no_progress extract_lets +onlyGivenNames x
       refine (fun (_ : s0.Kept ps x) => ?_) ?_
       (on_goal 1 => clear_value x); (on_goal 2 => unfold x; clear x))
    | (with_reducible refine (?_ : s0.Kept ps _); fail_if_no_progress extract_lets +onlyGivenNames y
       clear_value (hy : y = _))
    | with_reducible apply State.pgPort_kept | with_reducible apply State.cutShort_kept
    | with_reducible apply State.upPort_kept | with_reducible apply State.emit_kept
    | with_reducible apply State.setF_kept | with_reducible apply State.flushPort_kept
    | with_reducible apply State.slotsLost_kept | with_reducible apply State.suspendPhase_kept
    | with_reducible apply State.freezeLanes_kept | with_reducible apply State.linkChange_kept
    | (intro p hp; cases p <;>
       first | exact absurd (hl _ (by decide)) hp | rfl)
    | with_reducible exact id | split | dsimp -zeta only
    | with_reducible refine State.Kept.lit ?_ ?_ ?_ ?_ ?_ ?_ ?_ ?_)

theorem State.portDown_kept {ps : List Part} {s0 s : State} (p : Nat) (cause : Nat) (failed : Nat) (hl : ∀ p ∈ reports ++ [.ports, .epochs, .fabric, .acct, .queues, .pgs, .phases, .refs, .free], p ∈ ps)
    (h : s0.Kept ps s) : s0.Kept ps (State.portDown s p cause failed) := by
  unfold State.portDown
  repeat' (first
    | with_reducible assumption | with_reducible exact Part.sub_trans hl (by decide)
    | (with_reducible refine (?_ : s0.Kept ps _); fail_if_no_progress extract_lets +onlyGivenNames y
       clear_value (hy : y = _))
    | with_reducible apply State.leaveLine_kept | with_reducible apply State.enterDown_kept
    | (intro p hp; cases p <;>
       first | exact absurd (hl _ (by decide)) hp | rfl)
    | with_reducible exact id | split | with_reducible refine State.Kept.lit ?_ ?_ ?_ ?_ ?_ ?_ ?_ ?_)

theorem State.tileDown_kept {ps : List Part} {s0 s : State} (t : Nat) (hl : ∀ p ∈ reports ++ [.ports, .epochs, .fabric, .acct, .queues, .pgs, .phases, .refs, .free], p ∈ ps)
    (h : s0.Kept ps s) : s0.Kept ps (State.tileDown s t) := by
  unfold State.tileDown
  repeat' (first
    | with_reducible assumption | with_reducible exact Part.sub_trans hl (by decide)
    | (with_reducible refine (?_ : s0.Kept ps _); fail_if_no_progress extract_lets +onlyGivenNames x
       refine (fun (_ : s0.Kept ps x) => ?_) ?_
       (on_goal 1 => clear_value x); (on_goal 2 => unfold x; clear x))
    | (with_reducible refine (?_ : s0.Kept ps _); fail_if_no_progress extract_lets +onlyGivenNames x
       refine (fun (_ : s0.Kept ps x.1) => ?_) ?_
       (on_goal 1 => clear_value x); (on_goal 2 => unfold x; clear x))
    | (with_reducible refine (?_ : s0.Kept ps _); fail_if_no_progress extract_lets +onlyGivenNames x
       refine (fun (_ : s0.Kept ps x.2) => ?_) ?_
       (on_goal 1 => clear_value x); (on_goal 2 => unfold x; clear x))
    | (with_reducible refine (?_ : s0.Kept ps _); fail_if_no_progress extract_lets +onlyGivenNames y
       clear_value (hy : y = _))
    | with_reducible apply State.enterDown_kept | with_reducible apply State.leaveLine_kept
    | (intro t a ht; with_reducible refine (?_ : s0.Kept ps _)) | with_reducible apply State.Kept.foldl
    | with_reducible apply State.Kept.foldlFst | with_reducible apply State.Kept.foldlSnd
    | dsimp -zeta only)

theorem State.abortTraining_kept {ps : List Part} {s0 s : State}  (hl : ∀ p ∈ reports, p ∈ ps)
    (h : s0.Kept ps s) : s0.Kept ps (State.abortTraining s) := by
  unfold State.abortTraining
  repeat' (first
    | with_reducible assumption | with_reducible exact Part.sub_trans hl (by decide)
    | with_reducible apply State.linkChange_kept | with_reducible apply State.setPortState_kept
    | (intro t a ht; with_reducible refine (?_ : s0.Kept ps _)) | with_reducible apply State.Kept.foldl
    | split | dsimp -zeta only)

end Sys2Proof.Machine
end

