-- ==== Sys2Proof/Laws/KeptReactions.lean ====
section
/-!
SUPPORT. What the operations and meanings of Machine/Reactions.lean keep (`State.Kept`).
-/

set_option linter.all false
set_option linter.unusedTactic false
set_option linter.unreachableTactic false

namespace Sys2Proof.Machine

theorem State.loseFrag_kept {ps : List Part} {s0 s : State} (t : Nat) (mc : Bool) (code : Nat) (f : Frag) (hl : ∀ p ∈ reports ++ [.ports, .epochs, .fabric, .acct], p ∈ ps)
    (h : s0.Kept ps s) : s0.Kept ps (State.loseFrag s t mc code f) := by
  unfold State.loseFrag
  repeat' (first
    | with_reducible assumption | with_reducible exact Part.sub_trans hl (by decide)
    | (with_reducible refine (?_ : s0.Kept ps _); fail_if_no_progress extract_lets +onlyGivenNames y
       clear_value (hy : y = _))
    | with_reducible apply State.mcDone_kept | with_reducible apply State.countIngress_kept
    | with_reducible apply State.dropIngress_kept
    | (intro p hp; cases p <;>
       first | exact absurd (hl _ (by decide)) hp | rfl)
    | with_reducible exact id | split | with_reducible refine State.Kept.lit ?_ ?_ ?_ ?_ ?_ ?_ ?_ ?_)

theorem State.loseCell_kept {ps : List Part} {s0 s : State} (t : Nat) (code : Nat) (c : Cell) (hl : ∀ p ∈ reports ++ [.ports, .epochs, .fabric, .acct], p ∈ ps)
    (h : s0.Kept ps s) : s0.Kept ps (State.loseCell s t code c) := by
  unfold State.loseCell
  repeat' (first
    | with_reducible assumption | with_reducible exact Part.sub_trans hl (by decide)
    | (with_reducible refine (?_ : s0.Kept ps _); fail_if_no_progress extract_lets +onlyGivenNames y
       clear_value (hy : y = _))
    | with_reducible apply State.loseFrag_kept
    | (intro t a ht; with_reducible refine (?_ : s0.Kept ps _)) | with_reducible apply State.Kept.foldl
    | (intro p hp; cases p <;>
       first | exact absurd (hl _ (by decide)) hp | rfl)
    | with_reducible exact id | dsimp -zeta only
    | with_reducible refine State.Kept.lit ?_ ?_ ?_ ?_ ?_ ?_ ?_ ?_)

theorem State.dropMulticast_kept {ps : List Part} {s0 s : State} (f : Frame) (code : Nat) (hl : ∀ p ∈ ([.regs, .ports, .epochs, .fabric, .acct, .counters] : List Part), p ∈ ps)
    (h : s0.Kept ps s) : s0.Kept ps (State.dropMulticast s f code) := by
  unfold State.dropMulticast
  repeat' (first
    | with_reducible assumption | with_reducible exact Part.sub_trans hl (by decide)
    | (with_reducible refine (?_ : s0.Kept ps _); fail_if_no_progress extract_lets +onlyGivenNames x
       refine (fun (_ : s0.Kept ps x) => ?_) ?_
       (on_goal 1 => clear_value x); (on_goal 2 => unfold x; clear x))
    | (with_reducible refine (?_ : s0.Kept ps _); fail_if_no_progress extract_lets +onlyGivenNames y
       clear_value (hy : y = _))
    | with_reducible apply State.countIngress_kept | with_reducible apply State.mcDone_kept
    | (intro t a ht; with_reducible refine (?_ : s0.Kept ps _)) | with_reducible apply State.Kept.foldl
    | split | dsimp -zeta only | with_reducible refine State.Kept.lit ?_ ?_ ?_ ?_ ?_ ?_ ?_ ?_)

theorem State.creditBack_kept {ps : List Part} {s0 s : State} (m : Nat) (c : Cell) (hl : ∀ p ∈ ([.fabric] : List Part), p ∈ ps)
    (h : s0.Kept ps s) : s0.Kept ps (State.creditBack s m c) := by
  unfold State.creditBack
  repeat' (first
    | with_reducible assumption | with_reducible exact Part.sub_trans hl (by decide)
    | (with_reducible refine (?_ : s0.Kept ps _); fail_if_no_progress extract_lets +onlyGivenNames y
       clear_value (hy : y = _))
    | (intro p hp; cases p <;>
       first | exact absurd (hl _ (by decide)) hp | rfl)
    | with_reducible exact id | with_reducible refine State.Kept.lit ?_ ?_ ?_ ?_ ?_ ?_ ?_ ?_)

theorem State.upBank_kept {ps : List Part} {s0 s : State} (m : Nat) (f : Bank → Bank) (hl : ∀ p ∈ ([.fabric] : List Part), p ∈ ps)
    (h : s0.Kept ps s) : s0.Kept ps (State.upBank s m f) := by
  unfold State.upBank
  repeat' (first
    | with_reducible assumption | with_reducible exact Part.sub_trans hl (by decide)
    | (with_reducible refine (?_ : s0.Kept ps _); fail_if_no_progress extract_lets +onlyGivenNames y
       clear_value (hy : y = _))
    | (intro p hp; cases p <;>
       first | exact absurd (hl _ (by decide)) hp | rfl)
    | with_reducible exact id | with_reducible refine State.Kept.lit ?_ ?_ ?_ ?_ ?_ ?_ ?_ ?_)

theorem State.bankDiscard_kept {ps : List Part} {s0 s : State} (j : Nat) (m : Nat) (hl : ∀ p ∈ reports ++ [.ports, .epochs, .fabric, .acct], p ∈ ps)
    (h : s0.Kept ps s) : s0.Kept ps (State.bankDiscard s j m) := by
  unfold State.bankDiscard
  repeat' (first
    | with_reducible assumption | with_reducible exact Part.sub_trans hl (by decide)
    | (with_reducible refine (?_ : s0.Kept ps _); fail_if_no_progress extract_lets +onlyGivenNames x
       refine (fun (_ : s0.Kept ps x) => ?_) ?_
       (on_goal 1 => clear_value x); (on_goal 2 => unfold x; clear x))
    | (with_reducible refine (?_ : s0.Kept ps _); fail_if_no_progress extract_lets +onlyGivenNames y
       clear_value (hy : y = _))
    | with_reducible apply State.creditBack_kept | with_reducible apply State.loseCell_kept
    | with_reducible apply State.upBank_kept | (intro t a ht; with_reducible refine (?_ : s0.Kept ps _))
    | with_reducible apply State.Kept.foldl
    | (intro p hp; cases p <;>
       first | exact absurd (hl _ (by decide)) hp | rfl)
    | with_reducible exact id | split | dsimp -zeta only
    | with_reducible refine State.Kept.lit ?_ ?_ ?_ ?_ ?_ ?_ ?_ ?_)

theorem State.tileDiscard_kept {ps : List Part} {s0 s : State} (j : Nat) (hl : ∀ p ∈ reports ++ [.ports, .epochs, .tiles, .fabric, .acct, .queues], p ∈ ps)
    (h : s0.Kept ps s) : s0.Kept ps (State.tileDiscard s j) := by
  unfold State.tileDiscard
  repeat' (first
    | with_reducible assumption | with_reducible exact Part.sub_trans hl (by decide)
    | (with_reducible refine (?_ : s0.Kept ps _); fail_if_no_progress extract_lets +onlyGivenNames x
       refine (fun (_ : s0.Kept ps x) => ?_) ?_
       (on_goal 1 => clear_value x); (on_goal 2 => unfold x; clear x))
    | (with_reducible refine (?_ : s0.Kept ps _); fail_if_no_progress extract_lets +onlyGivenNames x
       refine (fun (_ : s0.Kept ps x.1) => ?_) ?_
       (on_goal 1 => clear_value x); (on_goal 2 => unfold x; clear x))
    | (with_reducible refine (?_ : s0.Kept ps _); fail_if_no_progress extract_lets +onlyGivenNames x
       refine (fun (_ : s0.Kept ps x.2) => ?_) ?_
       (on_goal 1 => clear_value x); (on_goal 2 => unfold x; clear x))
    | (with_reducible refine (?_ : s0.Kept ps _); fail_if_no_progress extract_lets +onlyGivenNames y
       clear_value (hy : y = _))
    | with_reducible apply State.bankDiscard_kept | with_reducible apply State.loseCell_kept
    | with_reducible apply State.dropMulticast_kept | with_reducible apply State.dropIngress_kept
    | with_reducible apply State.txComplete_kept | with_reducible apply State.upTile_kept
    | with_reducible apply State.dropSpill_kept | with_reducible apply State.upQueue_kept
    | (intro t a ht; with_reducible refine (?_ : s0.Kept ps _)) | with_reducible apply State.Kept.foldl
    | with_reducible apply State.Kept.foldlFst | with_reducible apply State.Kept.foldlSnd
    | (intro p hp; cases p <;>
       first | exact absurd (hl _ (by decide)) hp | rfl)
    | with_reducible exact id | split | dsimp -zeta only
    | with_reducible refine State.Kept.lit ?_ ?_ ?_ ?_ ?_ ?_ ?_ ?_)

theorem State.endCondition_kept {ps : List Part} {s0 s : State} (id : Nat) (hl : ∀ p ∈ ([.quench] : List Part), p ∈ ps)
    (h : s0.Kept ps s) : s0.Kept ps (State.endCondition s id) := by
  unfold State.endCondition
  repeat' (first
    | with_reducible assumption | with_reducible exact Part.sub_trans hl (by decide)
    | (with_reducible refine (?_ : s0.Kept ps _); fail_if_no_progress extract_lets +onlyGivenNames x
       refine (fun (_ : s0.Kept ps x) => ?_) ?_
       (on_goal 1 => clear_value x); (on_goal 2 => unfold x; clear x))
    | (with_reducible refine (?_ : s0.Kept ps _); fail_if_no_progress extract_lets +onlyGivenNames x
       refine (fun (_ : s0.Kept ps x.1) => ?_) ?_
       (on_goal 1 => clear_value x); (on_goal 2 => unfold x; clear x))
    | (with_reducible refine (?_ : s0.Kept ps _); fail_if_no_progress extract_lets +onlyGivenNames x
       refine (fun (_ : s0.Kept ps x.2) => ?_) ?_
       (on_goal 1 => clear_value x); (on_goal 2 => unfold x; clear x))
    | (with_reducible refine (?_ : s0.Kept ps _); fail_if_no_progress extract_lets +onlyGivenNames x
       refine State.Kept.cutMap (l := ps) (s0 := s0) x (fun hmap => ?_) ?_
       (on_goal 1 => clear_value x); (on_goal 2 => intro r hr; unfold x; clear x; try beta_reduce))
    | with_reducible apply hmap
    | (with_reducible refine (?_ : s0.Kept ps _); fail_if_no_progress extract_lets +onlyGivenNames x
       refine State.Kept.cutFun (l := ps) (s0 := s0) x (fun hfun => ?_) ?_
       (on_goal 1 => clear_value x); (on_goal 2 => intro r; unfold x; clear x; try beta_reduce))
    | with_reducible apply hfun
    | (with_reducible refine (?_ : s0.Kept ps _); fail_if_no_progress extract_lets +onlyGivenNames y
       clear_value (hy : y = _))
    | (intro t a ht; with_reducible refine (?_ : s0.Kept ps _))
    | (intro t ht; with_reducible refine (?_ : s0.Kept ps _)) | with_reducible apply State.Kept.foldl
    | with_reducible apply State.Kept.foldlFst | with_reducible apply State.Kept.foldlSnd
    | (intro p hp; cases p <;>
       first | exact absurd (hl _ (by decide)) hp | rfl)
    | with_reducible exact id | (intro hv; first | exact hv | (subst_vars; first | exact hv | omega))
    | (intro r hr; first | exact hr | (revert hr; simp only [Ring.ok] <;> omega))
    | with_reducible exact Tab.rising_filter _ _
    | (intro hv; refine Tab.all_set (P := Ring.ok) _ _ _ hv ?_; simp [Ring.ok]) | split
    | dsimp -zeta only | with_reducible refine State.Kept.lit ?_ ?_ ?_ ?_ ?_ ?_ ?_ ?_)

theorem State.endTimeAuth_kept {ps : List Part} {s0 s : State} (status : Nat) (hl : ∀ p ∈ reports ++ [.fw], p ∈ ps)
    (h : s0.Kept ps s) : s0.Kept ps (State.endTimeAuth s status) := by
  unfold State.endTimeAuth
  repeat' (first
    | with_reducible assumption | with_reducible exact Part.sub_trans hl (by decide)
    | (with_reducible refine (?_ : s0.Kept ps _); fail_if_no_progress extract_lets +onlyGivenNames x
       refine (fun (_ : s0.Kept ps x) => ?_) ?_
       (on_goal 1 => clear_value x); (on_goal 2 => unfold x; clear x))
    | (with_reducible refine (?_ : s0.Kept ps _); fail_if_no_progress extract_lets +onlyGivenNames y
       clear_value (hy : y = _))
    | with_reducible apply State.done_kept | (intro t a ht; with_reducible refine (?_ : s0.Kept ps _))
    | with_reducible apply State.Kept.foldl
    | (intro p hp; cases p <;>
       first | exact absurd (hl _ (by decide)) hp | rfl)
    | with_reducible exact id | dsimp -zeta only
    | with_reducible refine State.Kept.lit ?_ ?_ ?_ ?_ ?_ ?_ ?_ ?_)

theorem State.endTemperRun_kept {ps : List Part} {s0 s : State} (status : Nat) (r0 : Nat) (r1 : Nat) (hl : ∀ p ∈ reports ++ [.fw], p ∈ ps)
    (h : s0.Kept ps s) : s0.Kept ps (State.endTemperRun s status r0 r1) := by
  unfold State.endTemperRun
  repeat' (first
    | with_reducible assumption | with_reducible exact Part.sub_trans hl (by decide)
    | (with_reducible refine (?_ : s0.Kept ps _); fail_if_no_progress extract_lets +onlyGivenNames y
       clear_value (hy : y = _))
    | with_reducible apply State.done_kept
    | (intro p hp; cases p <;>
       first | exact absurd (hl _ (by decide)) hp | rfl)
    | with_reducible exact id | split | with_reducible refine State.Kept.lit ?_ ?_ ?_ ?_ ?_ ?_ ?_ ?_)

theorem State.temperSuspend_kept {ps : List Part} {s0 s : State}  (hl : ∀ p ∈ reports ++ [.phases, .fw, .temper], p ∈ ps)
    (h : s0.Kept ps s) : s0.Kept ps (State.temperSuspend s) := by
  unfold State.temperSuspend
  repeat' (first
    | with_reducible assumption | with_reducible exact Part.sub_trans hl (by decide)
    | (with_reducible refine (?_ : s0.Kept ps _); fail_if_no_progress extract_lets +onlyGivenNames x
       refine (fun (_ : s0.Kept ps x) => ?_) ?_
       (on_goal 1 => clear_value x); (on_goal 2 => unfold x; clear x))
    | (with_reducible refine (?_ : s0.Kept ps _); fail_if_no_progress extract_lets +onlyGivenNames x
       refine (fun (_ : s0.Kept ps x.1) => ?_) ?_
       (on_goal 1 => clear_value x); (on_goal 2 => unfold x; clear x))
    | (with_reducible refine (?_ : s0.Kept ps _); fail_if_no_progress extract_lets +onlyGivenNames x
       refine (fun (_ : s0.Kept ps x.2) => ?_) ?_
       (on_goal 1 => clear_value x); (on_goal 2 => unfold x; clear x))
    | (with_reducible refine (?_ : s0.Kept ps _); fail_if_no_progress extract_lets +onlyGivenNames y
       clear_value (hy : y = _))
    | with_reducible apply State.setF_kept | with_reducible apply State.endTemperRun_kept
    | (intro p hp; cases p <;>
       first | exact absurd (hl _ (by decide)) hp | rfl)
    | with_reducible exact id | dsimp -zeta only
    | with_reducible refine State.Kept.lit ?_ ?_ ?_ ?_ ?_ ?_ ?_ ?_)

theorem State.fwStops_kept {ps : List Part} {s0 s : State}  (hl : ∀ p ∈ reports ++ [.ports, .epochs, .fabric, .acct, .queues, .time, .phases, .fw, .quench, .temper], p ∈ ps)
    (h : s0.Kept ps s) : s0.Kept ps (State.fwStops s) := by
  unfold State.fwStops
  repeat' (first
    | with_reducible assumption | with_reducible exact Part.sub_trans hl (by decide)
    | (with_reducible refine (?_ : s0.Kept ps _); fail_if_no_progress extract_lets +onlyGivenNames x
       refine (fun (_ : s0.Kept ps x) => ?_) ?_
       (on_goal 1 => clear_value x); (on_goal 2 => unfold x; clear x))
    | (with_reducible refine (?_ : s0.Kept ps _); fail_if_no_progress extract_lets +onlyGivenNames y
       clear_value (hy : y = _))
    | with_reducible apply State.endCondition_kept | with_reducible apply State.setF_kept
    | with_reducible apply State.abortTraining_kept | with_reducible apply State.endTimeAuth_kept
    | with_reducible apply State.done_kept | with_reducible apply State.temperSuspend_kept
    | with_reducible apply State.flushQueue_kept
    | (intro t a ht; with_reducible refine (?_ : s0.Kept ps _)) | with_reducible apply State.Kept.foldl
    | (intro p hp; cases p <;>
       first | exact absurd (hl _ (by decide)) hp | rfl)
    | with_reducible exact id | split | dsimp -zeta only
    | with_reducible refine State.Kept.lit ?_ ?_ ?_ ?_ ?_ ?_ ?_ ?_)

theorem State.hmkDiscard_kept {ps : List Part} {s0 s : State}  (hl : ∀ p ∈ ([.regs, .hmk] : List Part), p ∈ ps)
    (h : s0.Kept ps s) : s0.Kept ps (State.hmkDiscard s) := by
  unfold State.hmkDiscard
  repeat' (first
    | with_reducible assumption | with_reducible exact Part.sub_trans hl (by decide)
    | (with_reducible refine (?_ : s0.Kept ps _); fail_if_no_progress extract_lets +onlyGivenNames x
       refine (fun (_ : s0.Kept ps x) => ?_) ?_
       (on_goal 1 => clear_value x); (on_goal 2 => unfold x; clear x))
    | (with_reducible refine (?_ : s0.Kept ps _); fail_if_no_progress extract_lets +onlyGivenNames y
       clear_value (hy : y = _))
    | with_reducible apply State.orF_kept | with_reducible apply State.addF_kept
    | (intro p hp; cases p <;>
       first | exact absurd (hl _ (by decide)) hp | rfl)
    | with_reducible exact id | (intro hv; first | exact hv | (subst_vars; first | exact hv | omega))
    | split | with_reducible refine State.Kept.lit ?_ ?_ ?_ ?_ ?_ ?_ ?_ ?_)

theorem State.countDrops_kept {ps : List Part} {s0 s : State}  (hl : ∀ p ∈ ([.regs, .free] : List Part), p ∈ ps)
    (h : s0.Kept ps s) : s0.Kept ps (State.countDrops s) := by
  unfold State.countDrops
  repeat' (first
    | with_reducible assumption | with_reducible exact Part.sub_trans hl (by decide)
    | (with_reducible refine (?_ : s0.Kept ps _); fail_if_no_progress extract_lets +onlyGivenNames x
       refine (fun (_ : s0.Kept ps x) => ?_) ?_
       (on_goal 1 => clear_value x); (on_goal 2 => unfold x; clear x))
    | (with_reducible refine (?_ : s0.Kept ps _); fail_if_no_progress extract_lets +onlyGivenNames x
       refine (fun (_ : s0.Kept ps x.1) => ?_) ?_
       (on_goal 1 => clear_value x); (on_goal 2 => unfold x; clear x))
    | (with_reducible refine (?_ : s0.Kept ps _); fail_if_no_progress extract_lets +onlyGivenNames x
       refine (fun (_ : s0.Kept ps x.2) => ?_) ?_
       (on_goal 1 => clear_value x); (on_goal 2 => unfold x; clear x))
    | (with_reducible refine (?_ : s0.Kept ps _); fail_if_no_progress extract_lets +onlyGivenNames y
       clear_value (hy : y = _))
    | with_reducible apply State.draw_kept
    | with_reducible refine State.draw_kept_eq (pp := (_, _)) (by assumption) ?_ ?_
    | with_reducible apply State.addF_kept | dsimp -zeta only)

theorem State.fenceAccept_kept {ps : List Part} {s0 s : State} (who : Requester) (d : Nat) (fault : Option Nat) (hl : ∀ p ∈ reports ++ [.ports, .epochs, .tiles, .fabric, .acct, .queues, .pgs, .time, .phases, .refs, .fences, .fw, .quench, .temper, .free], p ∈ ps)
    (h : s0.Kept ps s) : s0.Kept ps (State.fenceAccept s who d fault) := by
  unfold State.fenceAccept
  repeat' (first
    | with_reducible assumption | with_reducible exact Part.sub_trans hl (by decide)
    | (with_reducible refine (?_ : s0.Kept ps _); fail_if_no_progress extract_lets +onlyGivenNames x
       refine (fun (_ : s0.Kept ps x) => ?_) ?_
       (on_goal 1 => clear_value x); (on_goal 2 => unfold x; clear x))
    | (with_reducible refine (?_ : s0.Kept ps _); fail_if_no_progress extract_lets +onlyGivenNames y
       clear_value (hy : y = _))
    | with_reducible apply State.countDrops_kept | with_reducible apply State.upFence_kept
    | with_reducible apply State.orF_kept | with_reducible apply State.tileDiscard_kept
    | with_reducible apply State.tileDown_kept | with_reducible apply State.fwStops_kept
    | with_reducible apply State.temperSuspend_kept | with_reducible apply State.hmkDiscard_kept
    | (intro p hp; cases p <;>
       first | exact absurd (hl _ (by decide)) hp | rfl)
    | with_reducible exact id
    | (intro r hr; first | exact hr | (revert hr; simp only [Ring.ok] <;> omega)) | split
    | dsimp -zeta only | with_reducible refine State.Kept.lit ?_ ?_ ?_ ?_ ?_ ?_ ?_ ?_)

theorem State.fenceAsk_kept {ps : List Part} {s0 s : State} (who : Requester) (d : Nat) (fault : Option Nat) (hl : ∀ p ∈ reports ++ [.ports, .epochs, .tiles, .fabric, .acct, .queues, .pgs, .time, .phases, .refs, .fences, .fw, .quench, .temper, .free], p ∈ ps)
    (h : s0.Kept ps s) : s0.Kept ps (State.fenceAsk s who d fault) := by
  unfold State.fenceAsk
  repeat' (first
    | with_reducible assumption | with_reducible exact Part.sub_trans hl (by decide)
    | (with_reducible refine (?_ : s0.Kept ps _); fail_if_no_progress extract_lets +onlyGivenNames x
       refine (fun (_ : s0.Kept ps x) => ?_) ?_
       (on_goal 1 => clear_value x); (on_goal 2 => unfold x; clear x))
    | (with_reducible refine (?_ : s0.Kept ps _); fail_if_no_progress extract_lets +onlyGivenNames y
       clear_value (hy : y = _))
    | with_reducible apply State.setF_kept | with_reducible apply State.fenceAccept_kept | split)

theorem State.notePins_kept {ps : List Part} {s0 s : State} (old : State) (hl : ∀ p ∈ ([.pinRel] : List Part), p ∈ ps)
    (h : s0.Kept ps s) : s0.Kept ps (State.notePins s old) := by
  unfold State.notePins
  repeat' (first
    | with_reducible assumption | with_reducible exact Part.sub_trans hl (by decide)
    | (with_reducible refine (?_ : s0.Kept ps _); fail_if_no_progress extract_lets +onlyGivenNames y
       clear_value (hy : y = _))
    | (intro t a ht; with_reducible refine (?_ : s0.Kept ps _)) | with_reducible apply State.Kept.foldl
    | (intro p hp; cases p <;>
       first | exact absurd (hl _ (by decide)) hp | rfl)
    | with_reducible exact id | split | dsimp -zeta only
    | with_reducible refine State.Kept.lit ?_ ?_ ?_ ?_ ?_ ?_ ?_ ?_)

theorem State.cutPins_kept {ps : List Part} {s0 s : State} (old : State) (hl : ∀ p ∈ ([.pinMsg, .out] : List Part), p ∈ ps)
    (h : s0.Kept ps s) : s0.Kept ps (State.cutPins s old) := by
  unfold State.cutPins
  repeat' (first
    | with_reducible assumption | with_reducible exact Part.sub_trans hl (by decide)
    | (with_reducible refine (?_ : s0.Kept ps _); fail_if_no_progress extract_lets +onlyGivenNames x
       refine (fun (_ : s0.Kept ps x) => ?_) ?_
       (on_goal 1 => clear_value x); (on_goal 2 => unfold x; clear x))
    | (with_reducible refine (?_ : s0.Kept ps _); fail_if_no_progress extract_lets +onlyGivenNames y
       clear_value (hy : y = _))
    | with_reducible apply State.emit_kept | (intro t a ht; with_reducible refine (?_ : s0.Kept ps _))
    | with_reducible apply State.Kept.foldl
    | (intro p hp; cases p <;>
       first | exact absurd (hl _ (by decide)) hp | rfl)
    | with_reducible exact id | split | dsimp -zeta only
    | with_reducible refine State.Kept.lit ?_ ?_ ?_ ?_ ?_ ?_ ?_ ?_)

theorem State.faultEvent_kept {ps : List Part} {s0 s : State} (id : Nat) (hl : ∀ p ∈ reports, p ∈ ps)
    (h : s0.Kept ps s) : s0.Kept ps (State.faultEvent s id) := by
  unfold State.faultEvent
  repeat' (first
    | with_reducible assumption | with_reducible exact Part.sub_trans hl (by decide)
    | (with_reducible refine (?_ : s0.Kept ps _); fail_if_no_progress extract_lets +onlyGivenNames x
       refine (fun (_ : s0.Kept ps x) => ?_) ?_
       (on_goal 1 => clear_value x); (on_goal 2 => unfold x; clear x))
    | (with_reducible refine (?_ : s0.Kept ps _); fail_if_no_progress extract_lets +onlyGivenNames y
       clear_value (hy : y = _))
    | with_reducible apply State.event_kept
    | (intro p hp; cases p <;>
       first | exact absurd (hl _ (by decide)) hp | rfl)
    | with_reducible exact id | split | with_reducible refine State.Kept.lit ?_ ?_ ?_ ?_ ?_ ?_ ?_ ?_)

theorem State.isolateFence_kept {ps : List Part} {s0 s : State} (id : Nat) (hl : ∀ p ∈ reports ++ [.ports, .epochs, .tiles, .fabric, .acct, .queues, .pgs, .time, .phases, .refs, .fences, .fw, .quench, .temper, .free], p ∈ ps)
    (h : s0.Kept ps s) : s0.Kept ps (State.isolateFence s id) := by
  unfold State.isolateFence
  repeat' (first
    | with_reducible assumption | with_reducible exact Part.sub_trans hl (by decide)
    | with_reducible apply State.fenceAsk_kept | split
    | with_reducible refine State.Kept.lit ?_ ?_ ?_ ?_ ?_ ?_ ?_ ?_)

theorem State.latchNew_kept {ps : List Part} {s0 s : State} (o : FaultOcc) (same : Bool) (hl : ∀ p ∈ reports ++ [.ports, .epochs, .tiles, .fabric, .acct, .queues, .pgs, .time, .phases, .refs, .fences, .fw, .quench, .temper, .free], p ∈ ps)
    (h : s0.Kept ps s) : s0.Kept ps (State.latchNew s o same) := by
  unfold State.latchNew
  repeat' (first
    | with_reducible assumption | with_reducible exact Part.sub_trans hl (by decide)
    | (with_reducible refine (?_ : s0.Kept ps _); fail_if_no_progress extract_lets +onlyGivenNames x
       refine (fun (_ : s0.Kept ps x) => ?_) ?_
       (on_goal 1 => clear_value x); (on_goal 2 => unfold x; clear x))
    | (with_reducible refine (?_ : s0.Kept ps _); fail_if_no_progress extract_lets +onlyGivenNames x
       refine (fun (_ : s0.Kept ps x.1) => ?_) ?_
       (on_goal 1 => clear_value x); (on_goal 2 => unfold x; clear x))
    | (with_reducible refine (?_ : s0.Kept ps _); fail_if_no_progress extract_lets +onlyGivenNames x
       refine (fun (_ : s0.Kept ps x.2) => ?_) ?_
       (on_goal 1 => clear_value x); (on_goal 2 => unfold x; clear x))
    | (with_reducible refine (?_ : s0.Kept ps _); fail_if_no_progress extract_lets +onlyGivenNames y
       clear_value (hy : y = _))
    | with_reducible apply State.setF_kept | with_reducible apply State.isolateFence_kept
    | with_reducible apply State.faultEvent_kept
    | (intro p hp; cases p <;>
       first | exact absurd (hl _ (by decide)) hp | rfl)
    | with_reducible exact id | split | dsimp -zeta only
    | with_reducible refine State.Kept.lit ?_ ?_ ?_ ?_ ?_ ?_ ?_ ?_)

theorem State.latchAgain_kept {ps : List Part} {s0 s : State} (o : FaultOcc) (hl : ∀ p ∈ reports ++ [.ports, .epochs, .tiles, .fabric, .acct, .queues, .pgs, .time, .phases, .refs, .fences, .fw, .quench, .temper, .free], p ∈ ps)
    (h : s0.Kept ps s) : s0.Kept ps (State.latchAgain s o) := by
  unfold State.latchAgain
  repeat' (first
    | with_reducible assumption | with_reducible exact Part.sub_trans hl (by decide)
    | (with_reducible refine (?_ : s0.Kept ps _); fail_if_no_progress extract_lets +onlyGivenNames x
       refine (fun (_ : s0.Kept ps x) => ?_) ?_
       (on_goal 1 => clear_value x); (on_goal 2 => unfold x; clear x))
    | (with_reducible refine (?_ : s0.Kept ps _); fail_if_no_progress extract_lets +onlyGivenNames y
       clear_value (hy : y = _))
    | with_reducible apply State.isolateFence_kept | with_reducible apply State.faultEvent_kept
    | with_reducible apply State.setF_kept
    | (intro p hp; cases p <;>
       first | exact absurd (hl _ (by decide)) hp | rfl)
    | with_reducible exact id | split | dsimp -zeta only
    | with_reducible refine State.Kept.lit ?_ ?_ ?_ ?_ ?_ ?_ ?_ ?_)

theorem State.occur_kept {ps : List Part} {s0 s : State} (o : FaultOcc) (same : Bool) (hl : ∀ p ∈ reports ++ [.ports, .epochs, .tiles, .fabric, .acct, .queues, .pgs, .time, .phases, .refs, .fences, .fw, .quench, .temper, .free], p ∈ ps)
    (h : s0.Kept ps s) : s0.Kept ps (State.occur s o same) := by
  unfold State.occur
  repeat' (first
    | with_reducible assumption | with_reducible exact Part.sub_trans hl (by decide)
    | with_reducible apply State.latchAgain_kept | with_reducible apply State.latchNew_kept | split)

theorem State.raiseCycle_kept {ps : List Part} {s0 s : State} (l : List FaultOcc) (hl : ∀ p ∈ faulting, p ∈ ps)
    (h : s0.Kept ps s) : s0.Kept ps (State.raiseCycle s l) := by
  unfold State.raiseCycle
  repeat' (first
    | with_reducible assumption | with_reducible exact Part.sub_trans hl (by decide)
    | (with_reducible refine (?_ : s0.Kept ps _); fail_if_no_progress extract_lets +onlyGivenNames x
       refine (fun (_ : s0.Kept ps x) => ?_) ?_
       (on_goal 1 => clear_value x); (on_goal 2 => unfold x; clear x))
    | (with_reducible refine (?_ : s0.Kept ps _); fail_if_no_progress extract_lets +onlyGivenNames x
       refine (fun (_ : s0.Kept ps x.1) => ?_) ?_
       (on_goal 1 => clear_value x); (on_goal 2 => unfold x; clear x))
    | (with_reducible refine (?_ : s0.Kept ps _); fail_if_no_progress extract_lets +onlyGivenNames x
       refine (fun (_ : s0.Kept ps x.2) => ?_) ?_
       (on_goal 1 => clear_value x); (on_goal 2 => unfold x; clear x))
    | (with_reducible refine (?_ : s0.Kept ps _); fail_if_no_progress extract_lets +onlyGivenNames y
       clear_value (hy : y = _))
    | with_reducible apply State.cutPins_kept | with_reducible apply State.occur_kept
    | with_reducible apply State.setF_kept | (intro t a ht; with_reducible refine (?_ : s0.Kept ps _))
    | with_reducible apply State.Kept.foldl | with_reducible apply State.Kept.foldlFst
    | with_reducible apply State.Kept.foldlSnd | split | dsimp -zeta only)

theorem State.raise_kept {ps : List Part} {s0 s : State} (id : Nat) (detail : Nat) (kind : Nat) (mid : Nat) (hl : ∀ p ∈ faulting, p ∈ ps)
    (h : s0.Kept ps s) : s0.Kept ps (State.raise s id detail kind mid) := by
  unfold State.raise
  repeat' (first
    | with_reducible assumption | with_reducible exact Part.sub_trans hl (by decide)
    | with_reducible apply State.raiseCycle_kept)

theorem State.raiseOnce_kept {ps : List Part} {s0 s : State} (id : Nat) (detail : Nat) (kind : Nat) (mid : Nat) (hl : ∀ p ∈ faulting, p ∈ ps)
    (h : s0.Kept ps s) : s0.Kept ps (State.raiseOnce s id detail kind mid) := by
  unfold State.raiseOnce
  repeat' (first
    | with_reducible assumption | with_reducible exact Part.sub_trans hl (by decide)
    | with_reducible apply State.raiseCycle_kept)

theorem State.portNotice_kept {ps : List Part} {s0 s : State} (p : Nat) (hl : ∀ p ∈ faulting, p ∈ ps)
    (h : s0.Kept ps s) : s0.Kept ps (State.portNotice s p) := by
  unfold State.portNotice
  repeat' (first
    | with_reducible assumption | with_reducible exact Part.sub_trans hl (by decide)
    | (with_reducible refine (?_ : s0.Kept ps _); fail_if_no_progress extract_lets +onlyGivenNames y
       clear_value (hy : y = _))
    | with_reducible apply State.raiseOnce_kept
    | (intro p hp; cases p <;>
       first | exact absurd (hl _ (by decide)) hp | rfl)
    | with_reducible exact id | with_reducible refine State.Kept.lit ?_ ?_ ?_ ?_ ?_ ?_ ?_ ?_)

theorem State.unlatch_kept {ps : List Part} {s0 s : State} (id : Nat) (hl : ∀ p ∈ ([.regs, .pinRel, .quench] : List Part), p ∈ ps)
    (h : s0.Kept ps s) : s0.Kept ps (State.unlatch s id) := by
  unfold State.unlatch
  repeat' (first
    | with_reducible assumption | with_reducible exact Part.sub_trans hl (by decide)
    | (with_reducible refine (?_ : s0.Kept ps _); fail_if_no_progress extract_lets +onlyGivenNames x
       refine (fun (_ : s0.Kept ps x) => ?_) ?_
       (on_goal 1 => clear_value x); (on_goal 2 => unfold x; clear x))
    | (with_reducible refine (?_ : s0.Kept ps _); fail_if_no_progress extract_lets +onlyGivenNames x
       refine (fun (_ : s0.Kept ps x.1) => ?_) ?_
       (on_goal 1 => clear_value x); (on_goal 2 => unfold x; clear x))
    | (with_reducible refine (?_ : s0.Kept ps _); fail_if_no_progress extract_lets +onlyGivenNames x
       refine (fun (_ : s0.Kept ps x.2) => ?_) ?_
       (on_goal 1 => clear_value x); (on_goal 2 => unfold x; clear x))
    | (with_reducible refine (?_ : s0.Kept ps _); fail_if_no_progress extract_lets +onlyGivenNames x
       refine State.Kept.cutMap (l := ps) (s0 := s0) x (fun hmap => ?_) ?_
       (on_goal 1 => clear_value x); (on_goal 2 => intro r hr; unfold x; clear x; try beta_reduce))
    | with_reducible apply hmap
    | (with_reducible refine (?_ : s0.Kept ps _); fail_if_no_progress extract_lets +onlyGivenNames x
       refine State.Kept.cutFun (l := ps) (s0 := s0) x (fun hfun => ?_) ?_
       (on_goal 1 => clear_value x); (on_goal 2 => intro r; unfold x; clear x; try beta_reduce))
    | with_reducible apply hfun
    | (with_reducible refine (?_ : s0.Kept ps _); fail_if_no_progress extract_lets +onlyGivenNames y
       clear_value (hy : y = _))
    | with_reducible apply State.setF_kept | with_reducible apply State.notePins_kept
    | (intro t a ht; with_reducible refine (?_ : s0.Kept ps _))
    | (intro t ht; with_reducible refine (?_ : s0.Kept ps _)) | with_reducible apply State.Kept.foldl
    | with_reducible apply State.Kept.foldlFst | with_reducible apply State.Kept.foldlSnd
    | (intro p hp; cases p <;>
       first | exact absurd (hl _ (by decide)) hp | rfl)
    | with_reducible exact id | (intro hv; first | exact hv | (subst_vars; first | exact hv | omega))
    | (intro r hr; first | exact hr | (revert hr; simp only [Ring.ok] <;> omega))
    | with_reducible exact Tab.rising_filter _ _
    | (intro hv; refine Tab.all_set (P := Ring.ok) _ _ _ hv ?_; simp [Ring.ok]) | split
    | dsimp -zeta only | with_reducible refine State.Kept.lit ?_ ?_ ?_ ?_ ?_ ?_ ?_ ?_)

theorem State.clearFault_kept {ps : List Part} {s0 s : State} (id : Nat) (hl : ∀ p ∈ ([.regs, .pinRel, .quench] : List Part), p ∈ ps)
    (h : s0.Kept ps s) : s0.Kept ps (State.clearFault s id) := by
  unfold State.clearFault
  repeat' (first
    | with_reducible assumption | with_reducible exact Part.sub_trans hl (by decide)
    | with_reducible apply State.unlatch_kept | with_reducible apply State.endCondition_kept | split)

end Sys2Proof.Machine
end

