-- ==== Sys2Proof/Laws/KeptFlows.lean ====
section
/-!
SUPPORT. What the operations and meanings of Machine/Flows.lean keep (`State.Kept`).
-/

set_option linter.all false
set_option linter.unusedTactic false
set_option linter.unreachableTactic false

namespace Sys2Proof.Machine

theorem State.judgeOverbooked_kept {ps : List Part} {s0 s : State} (old : State) (p : Nat) (hl : ∀ p ∈ faulting, p ∈ ps)
    (h : s0.Kept ps s) : s0.Kept ps (State.judgeOverbooked s old p) := by
  unfold State.judgeOverbooked
  repeat' (first
    | with_reducible assumption | with_reducible exact Part.sub_trans hl (by decide)
    | with_reducible apply State.raiseOnce_kept | with_reducible apply State.setF_kept | split)

theorem State.countFlow_kept {ps : List Part} {s0 s : State} (h' : Nat) (j : Nat) (n : Nat) (hl : ∀ p ∈ ([.regs, .counters] : List Part), p ∈ ps)
    (h : s0.Kept ps s) : s0.Kept ps (State.countFlow s h' j n) := by
  unfold State.countFlow
  repeat' (first
    | with_reducible assumption | with_reducible exact Part.sub_trans hl (by decide)
    | with_reducible apply State.countS_kept | split | dsimp -zeta only)

theorem State.countFlowE_kept {ps : List Part} {s0 s : State} (h' : Nat) (j : Nat) (hl : ∀ p ∈ reports, p ∈ ps)
    (h : s0.Kept ps s) : s0.Kept ps (State.countFlowE s h' j) := by
  unfold State.countFlowE
  repeat' (first
    | with_reducible assumption | with_reducible exact Part.sub_trans hl (by decide)
    | with_reducible apply State.countE_kept | split | dsimp -zeta only)

end Sys2Proof.Machine
end

