-- ==== Sys2Proof/Laws/KeptQueues.lean ====
section
/-!
SUPPORT. What the operations and meanings of Machine/Queues.lean keep (`State.Kept`).
-/

set_option linter.all false
set_option linter.unusedTactic false
set_option linter.unreachableTactic false

namespace Sys2Proof.Machine

theorem State.sampleHdr_kept {ps : List Part} {s0 s : State} (point : Nat) (p : Nat) (qid : Nat) (f : Frame) (hl : ∀ p ∈ ([.regs, .hmk] : List Part), p ∈ ps)
    (h : s0.Kept ps s) : s0.Kept ps (State.sampleHdr s point p qid f) := by
  unfold State.sampleHdr
  repeat' (first
    | with_reducible assumption | with_reducible exact Part.sub_trans hl (by decide)
    | (with_reducible refine (?_ : s0.Kept ps _); fail_if_no_progress extract_lets +onlyGivenNames x
       refine (fun (_ : s0.Kept ps x) => ?_) ?_
       (on_goal 1 => clear_value x); (on_goal 2 => unfold x; clear x))
    | (with_reducible refine (?_ : s0.Kept ps _); fail_if_no_progress extract_lets +onlyGivenNames y
       clear_value (hy : y = _))
    | with_reducible apply State.trace_kept
    | (intro p hp; cases p <;>
       first | exact absurd (hl _ (by decide)) hp | rfl)
    | with_reducible exact id | (intro hv; first | exact hv | (subst_vars; first | exact hv | omega))
    | split | with_reducible refine State.Kept.lit ?_ ?_ ?_ ?_ ?_ ?_ ?_ ?_)

theorem State.append_kept {ps : List Part} {s0 s : State} (p : Nat) (slot : Nat) (f : Frame) (hl : ∀ p ∈ ([.regs, .queues] : List Part), p ∈ ps)
    (h : s0.Kept ps s) : s0.Kept ps (State.append s p slot f) := by
  unfold State.append
  repeat' (first
    | with_reducible assumption | with_reducible exact Part.sub_trans hl (by decide)
    | (with_reducible refine (?_ : s0.Kept ps _); fail_if_no_progress extract_lets +onlyGivenNames x
       refine (fun (_ : s0.Kept ps x) => ?_) ?_
       (on_goal 1 => clear_value x); (on_goal 2 => unfold x; clear x))
    | (with_reducible refine (?_ : s0.Kept ps _); fail_if_no_progress extract_lets +onlyGivenNames y
       clear_value (hy : y = _))
    | with_reducible apply State.setF_kept | with_reducible apply State.upQueue_kept
    | (intro p hp; cases p <;>
       first | exact absurd (hl _ (by decide)) hp | rfl)
    | with_reducible exact id | split | dsimp -zeta only
    | with_reducible refine State.Kept.lit ?_ ?_ ?_ ?_ ?_ ?_ ?_ ?_)

theorem State.enqueueLo_kept {ps : List Part} {s0 s : State} (p : Nat) (c : Nat) (f : Frame) (hl : ∀ p ∈ reports ++ [.ports, .epochs, .acct, .queues], p ∈ ps)
    (h : s0.Kept ps s) : s0.Kept ps (State.enqueueLo s p c f) := by
  unfold State.enqueueLo
  repeat' (first
    | with_reducible assumption | with_reducible exact Part.sub_trans hl (by decide)
    | (with_reducible refine (?_ : s0.Kept ps _); fail_if_no_progress extract_lets +onlyGivenNames x
       refine (fun (_ : s0.Kept ps x) => ?_) ?_
       (on_goal 1 => clear_value x); (on_goal 2 => unfold x; clear x))
    | (with_reducible refine (?_ : s0.Kept ps _); fail_if_no_progress extract_lets +onlyGivenNames y
       clear_value (hy : y = _))
    | with_reducible apply State.dropEgress_kept | with_reducible apply State.setF_kept
    | with_reducible apply State.upQueue_kept | with_reducible apply State.append_kept
    | (intro p hp; cases p <;>
       first | exact absurd (hl _ (by decide)) hp | rfl)
    | with_reducible exact id | split | dsimp -zeta only
    | with_reducible refine State.Kept.lit ?_ ?_ ?_ ?_ ?_ ?_ ?_ ?_)

theorem State.enqueue_kept {ps : List Part} {s0 s : State} (p : Nat) (c : Nat) (f : Frame) (hl : ∀ p ∈ reports ++ [.ports, .epochs, .acct, .queues], p ∈ ps)
    (h : s0.Kept ps s) : s0.Kept ps (State.enqueue s p c f) := by
  unfold State.enqueue
  repeat' (first
    | with_reducible assumption | with_reducible exact Part.sub_trans hl (by decide)
    | (with_reducible refine (?_ : s0.Kept ps _); fail_if_no_progress extract_lets +onlyGivenNames x
       refine (fun (_ : s0.Kept ps x) => ?_) ?_
       (on_goal 1 => clear_value x); (on_goal 2 => unfold x; clear x))
    | (with_reducible refine (?_ : s0.Kept ps _); fail_if_no_progress extract_lets +onlyGivenNames y
       clear_value (hy : y = _))
    | with_reducible apply State.dropEgress_kept | with_reducible apply State.enqueueLo_kept
    | with_reducible apply State.append_kept | split)

theorem State.enqueueLogical_kept {ps : List Part} {s0 s : State} (p : Nat) (c : Nat) (f : Frame) (hl : ∀ p ∈ reports ++ [.ports, .epochs, .acct, .queues], p ∈ ps)
    (h : s0.Kept ps s) : s0.Kept ps (State.enqueueLogical s p c f) := by
  unfold State.enqueueLogical
  repeat' (first
    | with_reducible assumption | with_reducible exact Part.sub_trans hl (by decide)
    | with_reducible apply State.dropEgress_kept | with_reducible apply State.append_kept | split)

theorem State.enqueueLaunch_kept {ps : List Part} {s0 s : State} (p : Nat) (q : Nat) (f : Frame) (hl : ∀ p ∈ reports ++ [.ports, .epochs, .acct, .queues], p ∈ ps)
    (h : s0.Kept ps s) : s0.Kept ps (State.enqueueLaunch s p q f) := by
  unfold State.enqueueLaunch
  repeat' (first
    | with_reducible assumption | with_reducible exact Part.sub_trans hl (by decide)
    | (with_reducible refine (?_ : s0.Kept ps _); fail_if_no_progress extract_lets +onlyGivenNames x
       refine (fun (_ : s0.Kept ps x) => ?_) ?_
       (on_goal 1 => clear_value x); (on_goal 2 => unfold x; clear x))
    | (with_reducible refine (?_ : s0.Kept ps _); fail_if_no_progress extract_lets +onlyGivenNames y
       clear_value (hy : y = _))
    | with_reducible apply State.append_kept | with_reducible apply State.dropEgress_kept | split)

theorem State.arrive_kept {ps : List Part} {s0 s : State} (p : Nat) (f : Frame) (hl : ∀ p ∈ reports ++ [.ports, .epochs, .acct, .queues], p ∈ ps)
    (h : s0.Kept ps s) : s0.Kept ps (State.arrive s p f) := by
  unfold State.arrive
  repeat' (first
    | with_reducible assumption | with_reducible exact Part.sub_trans hl (by decide)
    | (with_reducible refine (?_ : s0.Kept ps _); fail_if_no_progress extract_lets +onlyGivenNames x
       refine (fun (_ : s0.Kept ps x) => ?_) ?_
       (on_goal 1 => clear_value x); (on_goal 2 => unfold x; clear x))
    | (with_reducible refine (?_ : s0.Kept ps _); fail_if_no_progress extract_lets +onlyGivenNames y
       clear_value (hy : y = _))
    | with_reducible apply State.enqueueLogical_kept | with_reducible apply State.dropEgress_kept
    | with_reducible apply State.enqueue_kept | with_reducible apply State.countFlow_kept | split
    | with_reducible refine State.Kept.lit ?_ ?_ ?_ ?_ ?_ ?_ ?_ ?_)

theorem State.recallIn_kept {ps : List Part} {s0 : State} (hl : ∀ p ∈ reports ++ [.ports, .epochs, .acct, .queues], p ∈ ps)
    (fuel : Nat) : ∀ {s : State} (p : Nat) (slot : Nat) (_ : s0.Kept ps s),
    s0.Kept ps (State.recallIn s p slot fuel) := by
  induction fuel with
  | zero => intros; assumption
  | succ fuel ih =>
    intros
    rw [State.recallIn]
    repeat' (first
      | with_reducible assumption | with_reducible exact Part.sub_trans hl (by decide)
      | (with_reducible refine (?_ : s0.Kept ps _); fail_if_no_progress extract_lets +onlyGivenNames x
         refine (fun (_ : s0.Kept ps x) => ?_) ?_
         (on_goal 1 => clear_value x); (on_goal 2 => unfold x; clear x))
      | (with_reducible refine (?_ : s0.Kept ps _); fail_if_no_progress extract_lets +onlyGivenNames y
         clear_value (hy : y = _))
      | with_reducible apply ih | with_reducible apply State.upQueue_kept
      | with_reducible apply State.dropEgress_kept
      | (intro p hp; cases p <;>
         first | exact absurd (hl _ (by decide)) hp | rfl)
      | with_reducible exact id | split | dsimp -zeta only
      | with_reducible refine State.Kept.lit ?_ ?_ ?_ ?_ ?_ ?_ ?_ ?_)

theorem State.popHead_kept {ps : List Part} {s0 s : State} (p : Nat) (slot : Nat) (hl : ∀ p ∈ reports ++ [.ports, .epochs, .acct, .queues], p ∈ ps)
    (h : s0.Kept ps s) : s0.Kept ps (State.popHead s p slot) := by
  unfold State.popHead
  repeat' (first
    | with_reducible assumption | with_reducible exact Part.sub_trans hl (by decide)
    | (with_reducible refine (?_ : s0.Kept ps _); fail_if_no_progress extract_lets +onlyGivenNames x
       refine (fun (_ : s0.Kept ps x) => ?_) ?_
       (on_goal 1 => clear_value x); (on_goal 2 => unfold x; clear x))
    | (with_reducible refine (?_ : s0.Kept ps _); fail_if_no_progress extract_lets +onlyGivenNames y
       clear_value (hy : y = _))
    | with_reducible apply State.upQueue_kept | with_reducible apply State.recallIn_kept
    | (intro p hp; cases p <;>
       first | exact absurd (hl _ (by decide)) hp | rfl)
    | with_reducible exact id | split | dsimp -zeta only
    | with_reducible refine State.Kept.lit ?_ ?_ ?_ ?_ ?_ ?_ ?_ ?_)

theorem State.drainStamps_kept {ps : List Part} {s0 s : State} (p : Nat) (hl : ∀ p ∈ reports ++ [.ports], p ∈ ps)
    (h : s0.Kept ps s) : s0.Kept ps (State.drainStamps s p) := by
  unfold State.drainStamps
  repeat' (first
    | with_reducible assumption | with_reducible exact Part.sub_trans hl (by decide)
    | (with_reducible refine (?_ : s0.Kept ps _); fail_if_no_progress extract_lets +onlyGivenNames x
       refine (fun (_ : s0.Kept ps x) => ?_) ?_
       (on_goal 1 => clear_value x); (on_goal 2 => unfold x; clear x))
    | (with_reducible refine (?_ : s0.Kept ps _); fail_if_no_progress extract_lets +onlyGivenNames y
       clear_value (hy : y = _))
    | with_reducible apply State.upPort_kept | with_reducible apply State.emit_kept
    | with_reducible apply State.pushEntry_kept
    | (intro t a ht; with_reducible refine (?_ : s0.Kept ps _)) | with_reducible apply State.Kept.foldl
    | (intro p hp; cases p <;>
       first | exact absurd (hl _ (by decide)) hp | rfl)
    | with_reducible exact id | split | dsimp -zeta only
    | with_reducible refine State.Kept.lit ?_ ?_ ?_ ?_ ?_ ?_ ?_ ?_)

theorem State.takeStamp_kept {ps : List Part} {s0 s : State} (p : Nat) (d : Direct) (g : Nat) (hl : ∀ p ∈ reports ++ [.ports], p ∈ ps)
    (h : s0.Kept ps s) : s0.Kept ps (State.takeStamp s p d g).1 := by
  unfold State.takeStamp
  repeat' (first
    | with_reducible assumption | with_reducible exact Part.sub_trans hl (by decide)
    | (with_reducible refine (?_ : s0.Kept ps _); fail_if_no_progress extract_lets +onlyGivenNames x
       refine (fun (_ : s0.Kept ps x) => ?_) ?_
       (on_goal 1 => clear_value x); (on_goal 2 => unfold x; clear x))
    | (with_reducible refine (?_ : s0.Kept ps _); fail_if_no_progress extract_lets +onlyGivenNames x
       refine State.Kept.cutFun (l := ps) (s0 := s0) x (fun hfun => ?_) ?_
       (on_goal 1 => clear_value x); (on_goal 2 => intro r; unfold x; clear x; try beta_reduce))
    | with_reducible apply hfun
    | (with_reducible refine (?_ : s0.Kept ps _); fail_if_no_progress extract_lets +onlyGivenNames y
       clear_value (hy : y = _))
    | with_reducible apply State.drainStamps_kept | with_reducible apply State.upPort_kept
    | with_reducible apply State.setF_kept | with_reducible apply State.countE_kept
    | with_reducible apply State.upRing_kept
    | (intro p hp; cases p <;>
       first | exact absurd (hl _ (by decide)) hp | rfl)
    | with_reducible exact id
    | (intro r hr; first | exact hr | (revert hr; simp only [Ring.ok] <;> omega)) | split
    | dsimp -zeta only | with_reducible refine State.Kept.lit ?_ ?_ ?_ ?_ ?_ ?_ ?_ ?_)

theorem State.takeStamp_kept_eq {ps : List Part} {s0 s : State} {p : Nat} {d : Direct} {g : Nat} {pp : State × Bool} (hp : State.takeStamp s p d g = pp) (hl : ∀ p ∈ reports ++ [.ports], p ∈ ps)
    (h : s0.Kept ps s) : s0.Kept ps pp.1 := by
  subst hp; apply State.takeStamp_kept <;> assumption

theorem State.installAllow_kept {ps : List Part} {s0 s : State} (p : Nat) (hl : ∀ p ∈ ([.quench] : List Part), p ∈ ps)
    (h : s0.Kept ps s) : s0.Kept ps (State.installAllow s p) := by
  unfold State.installAllow
  repeat' (first
    | with_reducible assumption | with_reducible exact Part.sub_trans hl (by decide)
    | (with_reducible refine (?_ : s0.Kept ps _); fail_if_no_progress extract_lets +onlyGivenNames y
       clear_value (hy : y = _))
    | (intro p hp; cases p <;>
       first | exact absurd (hl _ (by decide)) hp | rfl)
    | with_reducible exact id | split | dsimp -zeta only
    | with_reducible refine State.Kept.lit ?_ ?_ ?_ ?_ ?_ ?_ ?_ ?_)

theorem State.transmit_kept {ps : List Part} {s0 s : State} (p : Nat) (slot : Nat) (f : Frame) (late : Bool) (phase : Nat) (dTx : Int) (hl : ∀ p ∈ reports ++ [.ports, .epochs, .acct], p ∈ ps)
    (h : s0.Kept ps s) : s0.Kept ps (State.transmit s p slot f late phase dTx) := by
  unfold State.transmit
  repeat' (first
    | with_reducible assumption | with_reducible exact Part.sub_trans hl (by decide)
    | (with_reducible refine (?_ : s0.Kept ps _); fail_if_no_progress extract_lets +onlyGivenNames x
       refine (fun (_ : s0.Kept ps x) => ?_) ?_
       (on_goal 1 => clear_value x); (on_goal 2 => unfold x; clear x))
    | (with_reducible refine (?_ : s0.Kept ps _); fail_if_no_progress extract_lets +onlyGivenNames x
       refine (fun (_ : s0.Kept ps x.1) => ?_) ?_
       (on_goal 1 => clear_value x); (on_goal 2 => unfold x; clear x))
    | (with_reducible refine (?_ : s0.Kept ps _); fail_if_no_progress extract_lets +onlyGivenNames x
       refine (fun (_ : s0.Kept ps x.2) => ?_) ?_
       (on_goal 1 => clear_value x); (on_goal 2 => unfold x; clear x))
    | (with_reducible refine (?_ : s0.Kept ps _); fail_if_no_progress extract_lets +onlyGivenNames y
       clear_value (hy : y = _))
    | with_reducible apply State.sampleHdr_kept | with_reducible apply State.perf_kept
    | with_reducible apply State.setF_kept | with_reducible apply State.upPort_kept
    | with_reducible apply State.emit_kept | with_reducible apply State.countS_kept
    | with_reducible apply State.finish_kept | with_reducible apply State.takeStamp_kept
    | with_reducible refine State.takeStamp_kept_eq (pp := (_, _)) (by assumption) ?_ ?_
    | with_reducible apply State.txComplete_kept
    | (intro p hp; cases p <;>
       first | exact absurd (hl _ (by decide)) hp | rfl)
    | with_reducible exact id | split | dsimp -zeta only
    | with_reducible refine State.Kept.lit ?_ ?_ ?_ ?_ ?_ ?_ ?_ ?_)

theorem State.startFrame_kept {ps : List Part} {s0 s : State} (p : Nat) (slot : Nat) (f : Frame) (late : Bool) (phase : Nat) (dTx : Int) (hl : ∀ p ∈ reports ++ [.ports, .epochs, .acct, .quench], p ∈ ps)
    (h : s0.Kept ps s) : s0.Kept ps (State.startFrame s p slot f late phase dTx).1 := by
  unfold State.startFrame
  repeat' (first
    | with_reducible assumption | with_reducible exact Part.sub_trans hl (by decide)
    | (with_reducible refine (?_ : s0.Kept ps _); fail_if_no_progress extract_lets +onlyGivenNames x
       refine (fun (_ : s0.Kept ps x) => ?_) ?_
       (on_goal 1 => clear_value x); (on_goal 2 => unfold x; clear x))
    | (with_reducible refine (?_ : s0.Kept ps _); fail_if_no_progress extract_lets +onlyGivenNames y
       clear_value (hy : y = _))
    | with_reducible apply State.installAllow_kept | with_reducible apply State.dropEgress_kept
    | with_reducible apply State.finish_kept | with_reducible apply State.countS_kept
    | with_reducible apply State.transmit_kept | split)

theorem State.startFrame_kept_eq {ps : List Part} {s0 s : State} {p : Nat} {slot : Nat} {f : Frame} {late : Bool} {phase : Nat} {dTx : Int} {pp : State × Bool} (hp : State.startFrame s p slot f late phase dTx = pp) (hl : ∀ p ∈ reports ++ [.ports, .epochs, .acct, .quench], p ∈ ps)
    (h : s0.Kept ps s) : s0.Kept ps pp.1 := by
  subst hp; apply State.startFrame_kept <;> assumption

theorem State.fillBuckets_kept {ps : List Part} {s0 s : State} (p : Nat) (hl : ∀ p ∈ ([.ports] : List Part), p ∈ ps)
    (h : s0.Kept ps s) : s0.Kept ps (State.fillBuckets s p) := by
  unfold State.fillBuckets
  repeat' (first
    | with_reducible assumption | with_reducible exact Part.sub_trans hl (by decide)
    | (with_reducible refine (?_ : s0.Kept ps _); fail_if_no_progress extract_lets +onlyGivenNames x
       refine (fun (_ : s0.Kept ps x) => ?_) ?_
       (on_goal 1 => clear_value x); (on_goal 2 => unfold x; clear x))
    | (with_reducible refine (?_ : s0.Kept ps _); fail_if_no_progress extract_lets +onlyGivenNames y
       clear_value (hy : y = _))
    | with_reducible apply State.upPort_kept
    | (intro p hp; cases p <;>
       first | exact absurd (hl _ (by decide)) hp | rfl)
    | with_reducible exact id | split | dsimp -zeta only
    | with_reducible refine State.Kept.lit ?_ ?_ ?_ ?_ ?_ ?_ ?_ ?_)

theorem State.renewRates_kept {ps : List Part} {s0 s : State} (p : Nat) (hl : ∀ p ∈ ([.ports] : List Part), p ∈ ps)
    (h : s0.Kept ps s) : s0.Kept ps (State.renewRates s p) := by
  unfold State.renewRates
  repeat' (first
    | with_reducible assumption | with_reducible exact Part.sub_trans hl (by decide)
    | with_reducible apply State.upPort_kept | dsimp -zeta only
    | with_reducible refine State.Kept.lit ?_ ?_ ?_ ?_ ?_ ?_ ?_ ?_)

theorem State.pick_kept {ps : List Part} {s0 s : State} (p : Nat) (hl : ∀ p ∈ ([.ports] : List Part), p ∈ ps)
    (h : s0.Kept ps s) : s0.Kept ps (State.pick s p).1 := by
  unfold State.pick
  repeat' (first
    | with_reducible assumption | with_reducible exact Part.sub_trans hl (by decide)
    | (with_reducible refine (?_ : s0.Kept ps _); fail_if_no_progress extract_lets +onlyGivenNames x
       refine (fun (_ : s0.Kept ps x) => ?_) ?_
       (on_goal 1 => clear_value x); (on_goal 2 => unfold x; clear x))
    | (with_reducible refine (?_ : s0.Kept ps _); fail_if_no_progress extract_lets +onlyGivenNames x
       refine (fun (_ : s0.Kept ps x.1) => ?_) ?_
       (on_goal 1 => clear_value x); (on_goal 2 => unfold x; clear x))
    | (with_reducible refine (?_ : s0.Kept ps _); fail_if_no_progress extract_lets +onlyGivenNames x
       refine (fun (_ : s0.Kept ps x.2) => ?_) ?_
       (on_goal 1 => clear_value x); (on_goal 2 => unfold x; clear x))
    | (with_reducible refine (?_ : s0.Kept ps _); fail_if_no_progress extract_lets +onlyGivenNames y
       clear_value (hy : y = _))
    | with_reducible apply State.upPort_kept
    | (intro p hp; cases p <;>
       first | exact absurd (hl _ (by decide)) hp | rfl)
    | with_reducible exact id | split | dsimp -zeta only
    | with_reducible refine State.Kept.lit ?_ ?_ ?_ ?_ ?_ ?_ ?_ ?_)

theorem State.pick_kept_eq {ps : List Part} {s0 s : State} {p : Nat} {pp : State × Option Nat} (hp : State.pick s p = pp) (hl : ∀ p ∈ ([.ports] : List Part), p ∈ ps)
    (h : s0.Kept ps s) : s0.Kept ps pp.1 := by
  subst hp; apply State.pick_kept <;> assumption

theorem State.chargeStart_kept {ps : List Part} {s0 s : State} (p : Nat) (slot : Nat) (f : Frame) (hl : ∀ p ∈ ([.ports] : List Part), p ∈ ps)
    (h : s0.Kept ps s) : s0.Kept ps (State.chargeStart s p slot f) := by
  unfold State.chargeStart
  repeat' (first
    | with_reducible assumption | with_reducible exact Part.sub_trans hl (by decide)
    | (with_reducible refine (?_ : s0.Kept ps _); fail_if_no_progress extract_lets +onlyGivenNames x
       refine (fun (_ : s0.Kept ps x) => ?_) ?_
       (on_goal 1 => clear_value x); (on_goal 2 => unfold x; clear x))
    | (with_reducible refine (?_ : s0.Kept ps _); fail_if_no_progress extract_lets +onlyGivenNames y
       clear_value (hy : y = _))
    | with_reducible apply State.upPort_kept
    | (intro p hp; cases p <;>
       first | exact absurd (hl _ (by decide)) hp | rfl)
    | with_reducible exact id | split | dsimp -zeta only
    | with_reducible refine State.Kept.lit ?_ ?_ ?_ ?_ ?_ ?_ ?_ ?_)

theorem State.drrEmptied_kept {ps : List Part} {s0 s : State} (p : Nat) (slot : Nat) (hl : ∀ p ∈ ([.ports] : List Part), p ∈ ps)
    (h : s0.Kept ps s) : s0.Kept ps (State.drrEmptied s p slot) := by
  unfold State.drrEmptied
  repeat' (first
    | with_reducible assumption | with_reducible exact Part.sub_trans hl (by decide)
    | with_reducible apply State.upPort_kept | split | dsimp -zeta only
    | with_reducible refine State.Kept.lit ?_ ?_ ?_ ?_ ?_ ?_ ?_ ?_)

theorem State.serve_kept {ps : List Part} {s0 s : State} (p : Nat) (slot : Nat) (phase : Nat) (dTx : Int) (hl : ∀ p ∈ reports ++ [.ports, .epochs, .acct, .queues, .quench], p ∈ ps)
    (h : s0.Kept ps s) : s0.Kept ps (State.serve s p slot phase dTx).1 := by
  unfold State.serve
  repeat' (first
    | with_reducible assumption | with_reducible exact Part.sub_trans hl (by decide)
    | (with_reducible refine (?_ : s0.Kept ps _); fail_if_no_progress extract_lets +onlyGivenNames x
       refine (fun (_ : s0.Kept ps x) => ?_) ?_
       (on_goal 1 => clear_value x); (on_goal 2 => unfold x; clear x))
    | (with_reducible refine (?_ : s0.Kept ps _); fail_if_no_progress extract_lets +onlyGivenNames x
       refine (fun (_ : s0.Kept ps x.1) => ?_) ?_
       (on_goal 1 => clear_value x); (on_goal 2 => unfold x; clear x))
    | (with_reducible refine (?_ : s0.Kept ps _); fail_if_no_progress extract_lets +onlyGivenNames x
       refine (fun (_ : s0.Kept ps x.2) => ?_) ?_
       (on_goal 1 => clear_value x); (on_goal 2 => unfold x; clear x))
    | (with_reducible refine (?_ : s0.Kept ps _); fail_if_no_progress extract_lets +onlyGivenNames y
       clear_value (hy : y = _))
    | with_reducible apply State.popHead_kept | with_reducible apply State.dropEgress_kept
    | with_reducible apply State.startFrame_kept
    | with_reducible refine State.startFrame_kept_eq (pp := (_, _)) (by assumption) ?_ ?_
    | with_reducible apply State.drrEmptied_kept | with_reducible apply State.chargeStart_kept | split
    | dsimp -zeta only | with_reducible refine State.Kept.lit ?_ ?_ ?_ ?_ ?_ ?_ ?_ ?_)

theorem State.serve_kept_eq {ps : List Part} {s0 s : State} {p : Nat} {slot : Nat} {phase : Nat} {dTx : Int} {pp : State × Bool} (hp : State.serve s p slot phase dTx = pp) (hl : ∀ p ∈ reports ++ [.ports, .epochs, .acct, .queues, .quench], p ∈ ps)
    (h : s0.Kept ps s) : s0.Kept ps pp.1 := by
  subst hp; apply State.serve_kept <;> assumption

theorem State.schedule_kept {ps : List Part} {s0 : State} (hl : ∀ p ∈ reports ++ [.ports, .epochs, .acct, .queues, .quench], p ∈ ps)
    (fuel : Nat) : ∀ {s : State} (p : Nat) (phase : Nat) (dTx : Int) (_ : s0.Kept ps s),
    s0.Kept ps (State.schedule s p phase dTx fuel) := by
  induction fuel with
  | zero => intros; assumption
  | succ fuel ih =>
    intros
    rw [State.schedule]
    repeat' (first
      | with_reducible assumption | with_reducible exact Part.sub_trans hl (by decide)
      | (with_reducible refine (?_ : s0.Kept ps _); fail_if_no_progress extract_lets +onlyGivenNames x
         refine (fun (_ : s0.Kept ps x) => ?_) ?_
         (on_goal 1 => clear_value x); (on_goal 2 => unfold x; clear x))
      | (with_reducible refine (?_ : s0.Kept ps _); fail_if_no_progress extract_lets +onlyGivenNames x
         refine (fun (_ : s0.Kept ps x.1) => ?_) ?_
         (on_goal 1 => clear_value x); (on_goal 2 => unfold x; clear x))
      | (with_reducible refine (?_ : s0.Kept ps _); fail_if_no_progress extract_lets +onlyGivenNames x
         refine (fun (_ : s0.Kept ps x.2) => ?_) ?_
         (on_goal 1 => clear_value x); (on_goal 2 => unfold x; clear x))
      | (with_reducible refine (?_ : s0.Kept ps _); fail_if_no_progress extract_lets +onlyGivenNames y
         clear_value (hy : y = _))
      | with_reducible apply ih | with_reducible apply State.pick_kept
      | with_reducible refine State.pick_kept_eq (pp := (_, _)) (by assumption) ?_ ?_
      | with_reducible apply State.serve_kept
      | with_reducible refine State.serve_kept_eq (pp := (_, _)) (by assumption) ?_ ?_ | split
      | dsimp -zeta only | with_reducible refine State.Kept.lit ?_ ?_ ?_ ?_ ?_ ?_ ?_ ?_)

theorem State.sendFc_kept {ps : List Part} {s0 s : State} (p : Nat) (f : FcFrame) (hl : ∀ p ∈ ([.regs, .quench, .counters, .out] : List Part), p ∈ ps)
    (h : s0.Kept ps s) : s0.Kept ps (State.sendFc s p f) := by
  unfold State.sendFc
  repeat' (first
    | with_reducible assumption | with_reducible exact Part.sub_trans hl (by decide)
    | (with_reducible refine (?_ : s0.Kept ps _); fail_if_no_progress extract_lets +onlyGivenNames x
       refine (fun (_ : s0.Kept ps x) => ?_) ?_
       (on_goal 1 => clear_value x); (on_goal 2 => unfold x; clear x))
    | (with_reducible refine (?_ : s0.Kept ps _); fail_if_no_progress extract_lets +onlyGivenNames y
       clear_value (hy : y = _))
    | with_reducible apply State.emit_kept | with_reducible apply State.setF_kept
    | with_reducible apply State.installAllow_kept | with_reducible apply State.countS_kept
    | (intro t a ht; with_reducible refine (?_ : s0.Kept ps _)) | with_reducible apply State.Kept.foldl
    | split | dsimp -zeta only | with_reducible refine State.Kept.lit ?_ ?_ ?_ ?_ ?_ ?_ ?_ ?_)

theorem State.blockFlush_kept {ps : List Part} {s0 s : State} (p : Nat) (hl : ∀ p ∈ reports ++ [.ports, .epochs, .fabric, .acct, .queues], p ∈ ps)
    (h : s0.Kept ps s) : s0.Kept ps (State.blockFlush s p) := by
  unfold State.blockFlush
  repeat' (first
    | with_reducible assumption | with_reducible exact Part.sub_trans hl (by decide)
    | with_reducible apply State.flushQueue_kept
    | (intro t a ht; with_reducible refine (?_ : s0.Kept ps _)) | with_reducible apply State.Kept.foldl
    | dsimp -zeta only)

end Sys2Proof.Machine
end

