-- ==== Sys2Proof/Laws/KeptFabric.lean ====
section
/-!
SUPPORT. What the operations and meanings of Machine/Fabric.lean keep (`State.Kept`).
-/

set_option linter.all false
set_option linter.unusedTactic false
set_option linter.unreachableTactic false

namespace Sys2Proof.Machine

theorem State.upStream_kept {ps : List Part} {s0 s : State} (i : Nat) (x : Nat) (f : Stream → Stream) (hl : ∀ p ∈ ([.tiles] : List Part), p ∈ ps)
    (h : s0.Kept ps s) : s0.Kept ps (State.upStream s i x f) := by
  unfold State.upStream
  repeat' (first
    | with_reducible assumption | with_reducible exact Part.sub_trans hl (by decide)
    | (with_reducible refine (?_ : s0.Kept ps _); fail_if_no_progress extract_lets +onlyGivenNames y
       clear_value (hy : y = _))
    | with_reducible apply State.upTile_kept
    | (intro p hp; cases p <;>
       first | exact absurd (hl _ (by decide)) hp | rfl)
    | with_reducible exact fun hv => hv | dsimp -zeta only
    | with_reducible refine State.Kept.lit ?_ ?_ ?_ ?_ ?_ ?_ ?_ ?_)

theorem State.closeCell_kept {ps : List Part} {s0 s : State} (i : Nat) (x : Nat) (hl : ∀ p ∈ ([.tiles] : List Part), p ∈ ps)
    (h : s0.Kept ps s) : s0.Kept ps (State.closeCell s i x) := by
  unfold State.closeCell
  repeat' (first
    | with_reducible assumption | with_reducible exact Part.sub_trans hl (by decide)
    | (with_reducible refine (?_ : s0.Kept ps _); fail_if_no_progress extract_lets +onlyGivenNames x
       refine (fun (_ : s0.Kept ps x) => ?_) ?_
       (on_goal 1 => clear_value x); (on_goal 2 => unfold x; clear x))
    | (with_reducible refine (?_ : s0.Kept ps _); fail_if_no_progress extract_lets +onlyGivenNames y
       clear_value (hy : y = _))
    | with_reducible apply State.upStream_kept
    | (intro p hp; cases p <;>
       first | exact absurd (hl _ (by decide)) hp | rfl)
    | with_reducible exact fun hv => hv | split | dsimp -zeta only
    | with_reducible refine State.Kept.lit ?_ ?_ ?_ ?_ ?_ ?_ ?_ ?_)

theorem State.packFrom_kept {ps : List Part} {s0 : State} (hl : ∀ p ∈ ([.tiles] : List Part), p ∈ ps)
    (fuel : Nat) : ∀ {s : State} (i : Nat) (x : Nat) (tiles : Nat) (f : Frame) (total : Nat) (a1 : Nat) (_ : s0.Kept ps s),
    s0.Kept ps (State.packFrom s i x tiles f total fuel a1) := by
  induction fuel with
  | zero => intros; assumption
  | succ fuel ih =>
    intros
    rw [State.packFrom]
    repeat' (first
      | with_reducible assumption | with_reducible exact Part.sub_trans hl (by decide)
      | (with_reducible refine (?_ : s0.Kept ps _); fail_if_no_progress extract_lets +onlyGivenNames x
         refine (fun (_ : s0.Kept ps x) => ?_) ?_
         (on_goal 1 => clear_value x); (on_goal 2 => unfold x; clear x))
      | (with_reducible refine (?_ : s0.Kept ps _); fail_if_no_progress extract_lets +onlyGivenNames y
         clear_value (hy : y = _))
      | with_reducible apply ih | with_reducible apply State.upStream_kept
      | with_reducible apply State.closeCell_kept | split | dsimp -zeta only
      | with_reducible refine State.Kept.lit ?_ ?_ ?_ ?_ ?_ ?_ ?_ ?_)

theorem State.pack_kept {ps : List Part} {s0 s : State} (i : Nat) (x : Nat) (tiles : Nat) (f : Frame) (hl : ∀ p ∈ ([.tiles] : List Part), p ∈ ps)
    (h : s0.Kept ps s) : s0.Kept ps (State.pack s i x tiles f) := by
  unfold State.pack
  repeat' (first
    | with_reducible assumption | with_reducible exact Part.sub_trans hl (by decide)
    | with_reducible apply State.packFrom_kept)

theorem execCellClose_kept {ps : List Part} {s0 s : State} (tile : Nat) (stream : Nat) (hl : ∀ p ∈ ([.tiles] : List Part), p ∈ ps)
    (h : s0.Kept ps s) : ∃ t, execCellClose tile stream s = .next t ∧ s0.Kept ps t := by
  refine ⟨_, rfl, ?_⟩
  repeat' (first
    | with_reducible assumption | with_reducible exact Part.sub_trans hl (by decide)
    | with_reducible apply State.closeCell_kept | split)

theorem State.creditReturn_kept {ps : List Part} {s0 s : State} (i : Nat) (m : Nat) (hl : ∀ p ∈ ([.fabric] : List Part), p ∈ ps)
    (h : s0.Kept ps s) : s0.Kept ps (State.creditReturn s i m) := by
  unfold State.creditReturn
  repeat' (first
    | with_reducible assumption | with_reducible exact Part.sub_trans hl (by decide)
    | (with_reducible refine (?_ : s0.Kept ps _); fail_if_no_progress extract_lets +onlyGivenNames x
       refine (fun (_ : s0.Kept ps x) => ?_) ?_
       (on_goal 1 => clear_value x); (on_goal 2 => unfold x; clear x))
    | (with_reducible refine (?_ : s0.Kept ps _); fail_if_no_progress extract_lets +onlyGivenNames x
       refine (fun (_ : s0.Kept ps x.1) => ?_) ?_
       (on_goal 1 => clear_value x); (on_goal 2 => unfold x; clear x))
    | (with_reducible refine (?_ : s0.Kept ps _); fail_if_no_progress extract_lets +onlyGivenNames x
       refine (fun (_ : s0.Kept ps x.2) => ?_) ?_
       (on_goal 1 => clear_value x); (on_goal 2 => unfold x; clear x))
    | (with_reducible refine (?_ : s0.Kept ps _); fail_if_no_progress extract_lets +onlyGivenNames y
       clear_value (hy : y = _))
    | (intro t a ht; with_reducible refine (?_ : s0.Kept ps _)) | with_reducible apply State.Kept.foldl
    | with_reducible apply State.Kept.foldlFst | with_reducible apply State.Kept.foldlSnd
    | (intro p hp; cases p <;>
       first | exact absurd (hl _ (by decide)) hp | rfl)
    | with_reducible exact fun hv => hv | dsimp -zeta only
    | with_reducible refine State.Kept.lit ?_ ?_ ?_ ?_ ?_ ?_ ?_ ?_)

theorem State.sendCell_kept {ps : List Part} {s0 s : State} (i : Nat) (m : Nat) (hl : ∀ p ∈ ([.regs, .tiles, .fabric, .hmk] : List Part), p ∈ ps)
    (h : s0.Kept ps s) : s0.Kept ps (State.sendCell s i m) := by
  unfold State.sendCell
  repeat' (first
    | with_reducible assumption | with_reducible exact Part.sub_trans hl (by decide)
    | (with_reducible refine (?_ : s0.Kept ps _); fail_if_no_progress extract_lets +onlyGivenNames x
       refine (fun (_ : s0.Kept ps x) => ?_) ?_
       (on_goal 1 => clear_value x); (on_goal 2 => unfold x; clear x))
    | (with_reducible refine (?_ : s0.Kept ps _); fail_if_no_progress extract_lets +onlyGivenNames x
       refine State.Kept.cutFun (l := ps) (s0 := s0) x (fun hfun => ?_) ?_
       (on_goal 1 => clear_value x); (on_goal 2 => intro r; unfold x; clear x; try beta_reduce))
    | with_reducible apply hfun
    | (with_reducible refine (?_ : s0.Kept ps _); fail_if_no_progress extract_lets +onlyGivenNames y
       clear_value (hy : y = _))
    | with_reducible apply State.upStream_kept | with_reducible apply State.upTile_kept
    | with_reducible apply State.perf_kept
    | (intro p hp; cases p <;>
       first | exact absurd (hl _ (by decide)) hp | rfl)
    | with_reducible exact fun hv => hv | split | dsimp -zeta only
    | with_reducible refine State.Kept.lit ?_ ?_ ?_ ?_ ?_ ?_ ?_ ?_)

theorem State.stageOne_kept {ps : List Part} {s0 s : State} (t : Nat) (i : Nat) (hl : ∀ p ∈ ([.regs, .tiles, .fabric, .hmk] : List Part), p ∈ ps)
    (h : s0.Kept ps s) : s0.Kept ps (State.stageOne s t i) := by
  unfold State.stageOne
  repeat' (first
    | with_reducible assumption | with_reducible exact Part.sub_trans hl (by decide)
    | (with_reducible refine (?_ : s0.Kept ps _); fail_if_no_progress extract_lets +onlyGivenNames x
       refine (fun (_ : s0.Kept ps x) => ?_) ?_
       (on_goal 1 => clear_value x); (on_goal 2 => unfold x; clear x))
    | (with_reducible refine (?_ : s0.Kept ps _); fail_if_no_progress extract_lets +onlyGivenNames y
       clear_value (hy : y = _))
    | with_reducible apply State.creditReturn_kept | with_reducible apply State.sendCell_kept | split)

theorem State.sixteenth_kept {ps : List Part} {s0 s : State} (k : Nat) (id : Nat) (detail : Nat) (hl : ∀ p ∈ faulting, p ∈ ps)
    (h : s0.Kept ps s) : s0.Kept ps (State.sixteenth s k id detail) := by
  unfold State.sixteenth
  repeat' (first
    | with_reducible assumption | with_reducible exact Part.sub_trans hl (by decide)
    | (with_reducible refine (?_ : s0.Kept ps _); fail_if_no_progress extract_lets +onlyGivenNames x
       refine (fun (_ : s0.Kept ps x) => ?_) ?_
       (on_goal 1 => clear_value x); (on_goal 2 => unfold x; clear x))
    | (with_reducible refine (?_ : s0.Kept ps _); fail_if_no_progress extract_lets +onlyGivenNames y
       clear_value (hy : y = _))
    | with_reducible apply State.raiseOnce_kept
    | (intro p hp; cases p <;>
       first | exact absurd (hl _ (by decide)) hp | rfl)
    | with_reducible exact fun hv => hv | split
    | with_reducible refine State.Kept.lit ?_ ?_ ?_ ?_ ?_ ?_ ?_ ?_)

theorem State.cellEvent_kept {ps : List Part} {s0 s : State} (counter : Nat) (tile : Nat) (hl : ∀ p ∈ faulting, p ∈ ps)
    (h : s0.Kept ps s) : s0.Kept ps (State.cellEvent s counter tile) := by
  unfold State.cellEvent
  repeat' (first
    | with_reducible assumption | with_reducible exact Part.sub_trans hl (by decide)
    | with_reducible apply State.sixteenth_kept | with_reducible apply State.raiseOnce_kept
    | with_reducible apply State.orF_kept | with_reducible apply State.countE_kept)

theorem State.eccEvent_kept {ps : List Part} {s0 s : State} (m : Nat) (hl : ∀ p ∈ faulting, p ∈ ps)
    (h : s0.Kept ps s) : s0.Kept ps (State.eccEvent s m) := by
  unfold State.eccEvent
  repeat' (first
    | with_reducible assumption | with_reducible exact Part.sub_trans hl (by decide)
    | with_reducible apply State.sixteenth_kept | with_reducible apply State.raiseOnce_kept
    | with_reducible apply State.orF_kept | with_reducible apply State.countE_kept)

theorem State.takeUnicast_kept {ps : List Part} {s0 s : State} (m : Nat) (q : Nat) (hl : ∀ p ∈ ([.fabric] : List Part), p ∈ ps)
    (h : s0.Kept ps s) : s0.Kept ps (State.takeUnicast s m q).1 := by
  unfold State.takeUnicast
  repeat' (first
    | with_reducible assumption | with_reducible exact Part.sub_trans hl (by decide)
    | (with_reducible refine (?_ : s0.Kept ps _); fail_if_no_progress extract_lets +onlyGivenNames y
       clear_value (hy : y = _))
    | with_reducible apply State.creditBack_kept | with_reducible apply State.upBank_kept
    | (intro p hp; cases p <;>
       first | exact absurd (hl _ (by decide)) hp | rfl)
    | with_reducible exact fun hv => hv | split | dsimp -zeta only
    | with_reducible refine State.Kept.lit ?_ ?_ ?_ ?_ ?_ ?_ ?_ ?_)

theorem State.takeUnicast_kept_eq {ps : List Part} {s0 s : State} {m : Nat} {q : Nat} {pp : State × Option Cell} (hp : State.takeUnicast s m q = pp) (hl : ∀ p ∈ ([.fabric] : List Part), p ∈ ps)
    (h : s0.Kept ps s) : s0.Kept ps pp.1 := by
  subst hp; apply State.takeUnicast_kept <;> assumption

theorem State.takeMulticast_kept {ps : List Part} {s0 s : State} (m : Nat) (q : Nat) (j : Nat) (hl : ∀ p ∈ ([.fabric] : List Part), p ∈ ps)
    (h : s0.Kept ps s) : s0.Kept ps (State.takeMulticast s m q j).1 := by
  unfold State.takeMulticast
  repeat' (first
    | with_reducible assumption | with_reducible exact Part.sub_trans hl (by decide)
    | (with_reducible refine (?_ : s0.Kept ps _); fail_if_no_progress extract_lets +onlyGivenNames x
       refine (fun (_ : s0.Kept ps x) => ?_) ?_
       (on_goal 1 => clear_value x); (on_goal 2 => unfold x; clear x))
    | (with_reducible refine (?_ : s0.Kept ps _); fail_if_no_progress extract_lets +onlyGivenNames x
       refine (fun (_ : s0.Kept ps x.1) => ?_) ?_
       (on_goal 1 => clear_value x); (on_goal 2 => unfold x; clear x))
    | (with_reducible refine (?_ : s0.Kept ps _); fail_if_no_progress extract_lets +onlyGivenNames x
       refine (fun (_ : s0.Kept ps x.2) => ?_) ?_
       (on_goal 1 => clear_value x); (on_goal 2 => unfold x; clear x))
    | (with_reducible refine (?_ : s0.Kept ps _); fail_if_no_progress extract_lets +onlyGivenNames y
       clear_value (hy : y = _))
    | with_reducible apply State.upBank_kept | with_reducible apply State.creditBack_kept
    | (intro p hp; cases p <;>
       first | exact absurd (hl _ (by decide)) hp | rfl)
    | with_reducible exact fun hv => hv | split | dsimp -zeta only
    | with_reducible refine State.Kept.lit ?_ ?_ ?_ ?_ ?_ ?_ ?_ ?_)

theorem State.takeMulticast_kept_eq {ps : List Part} {s0 s : State} {m : Nat} {q : Nat} {j : Nat} {pp : State × Option Cell} (hp : State.takeMulticast s m q j = pp) (hl : ∀ p ∈ ([.fabric] : List Part), p ∈ ps)
    (h : s0.Kept ps s) : s0.Kept ps pp.1 := by
  subst hp; apply State.takeMulticast_kept <;> assumption

theorem State.takeRecall_kept {ps : List Part} {s0 s : State} (m : Nat) (j : Nat) (hl : ∀ p ∈ ([.fabric] : List Part), p ∈ ps)
    (h : s0.Kept ps s) : s0.Kept ps (State.takeRecall s m j).1 := by
  unfold State.takeRecall
  repeat' (first
    | with_reducible assumption | with_reducible exact Part.sub_trans hl (by decide)
    | (with_reducible refine (?_ : s0.Kept ps _); fail_if_no_progress extract_lets +onlyGivenNames y
       clear_value (hy : y = _))
    | with_reducible apply State.upBank_kept
    | (intro p hp; cases p <;>
       first | exact absurd (hl _ (by decide)) hp | rfl)
    | with_reducible exact fun hv => hv | split | dsimp -zeta only
    | with_reducible refine State.Kept.lit ?_ ?_ ?_ ?_ ?_ ?_ ?_ ?_)

theorem State.takeRecall_kept_eq {ps : List Part} {s0 s : State} {m : Nat} {j : Nat} {pp : State × Option Cell} (hp : State.takeRecall s m j = pp) (hl : ∀ p ∈ ([.fabric] : List Part), p ∈ ps)
    (h : s0.Kept ps s) : s0.Kept ps pp.1 := by
  subst hp; apply State.takeRecall_kept <;> assumption

theorem State.takeHp_kept {ps : List Part} {s0 s : State} (m : Nat) (j : Nat) (mcFirst : Bool) (hl : ∀ p ∈ ([.fabric] : List Part), p ∈ ps)
    (h : s0.Kept ps s) : s0.Kept ps (State.takeHp s m j mcFirst).1 := by
  unfold State.takeHp
  repeat' (first
    | with_reducible assumption | with_reducible exact Part.sub_trans hl (by decide)
    | with_reducible apply State.takeMulticast_kept
    | with_reducible refine State.takeMulticast_kept_eq (pp := (_, _)) (by assumption) ?_ ?_
    | with_reducible apply State.takeUnicast_kept
    | with_reducible refine State.takeUnicast_kept_eq (pp := (_, _)) (by assumption) ?_ ?_ | split
    | dsimp -zeta only | with_reducible refine State.Kept.lit ?_ ?_ ?_ ?_ ?_ ?_ ?_ ?_)

theorem State.takeHp_kept_eq {ps : List Part} {s0 s : State} {m : Nat} {j : Nat} {mcFirst : Bool} {pp : State × Option Cell} (hp : State.takeHp s m j mcFirst = pp) (hl : ∀ p ∈ ([.fabric] : List Part), p ∈ ps)
    (h : s0.Kept ps s) : s0.Kept ps pp.1 := by
  subst hp; apply State.takeHp_kept <;> assumption

theorem State.takeLoFrom_kept {ps : List Part} {s0 s : State} (m : Nat) (j : Nat) (x : Nat) (credit : Bool) (hl : ∀ p ∈ ([.fabric] : List Part), p ∈ ps)
    (h : s0.Kept ps s) : s0.Kept ps (State.takeLoFrom s m j x credit).1 := by
  unfold State.takeLoFrom
  repeat' (first
    | with_reducible assumption | with_reducible exact Part.sub_trans hl (by decide)
    | with_reducible apply State.takeRecall_kept
    | with_reducible refine State.takeRecall_kept_eq (pp := (_, _)) (by assumption) ?_ ?_
    | with_reducible apply State.takeUnicast_kept
    | with_reducible refine State.takeUnicast_kept_eq (pp := (_, _)) (by assumption) ?_ ?_
    | with_reducible apply State.takeMulticast_kept
    | with_reducible refine State.takeMulticast_kept_eq (pp := (_, _)) (by assumption) ?_ ?_ | split
    | dsimp -zeta only)

theorem State.takeLoFrom_kept_eq {ps : List Part} {s0 s : State} {m : Nat} {j : Nat} {x : Nat} {credit : Bool} {pp : State × Option Cell} (hp : State.takeLoFrom s m j x credit = pp) (hl : ∀ p ∈ ([.fabric] : List Part), p ∈ ps)
    (h : s0.Kept ps s) : s0.Kept ps pp.1 := by
  subst hp; apply State.takeLoFrom_kept <;> assumption

theorem State.takeLo_kept {ps : List Part} {s0 s : State} (m j : Nat) (credit : Bool)
    (hl : ∀ p ∈ ([.fabric] : List Part), p ∈ ps) (h : s0.Kept ps s) : s0.Kept ps (s.takeLo m j credit).1 := by
  have hf : ∀ (s : State) (k : Nat), s0.Kept ps s → ∀ last,
      s0.Kept ps (match s.takeLoFrom m j ((last + 1 + k) % 3) credit with
      | (s, some c) => (s.upBank m (fun b => { b with loTurn := Tab.set b.loTurn j ((last + 1 + k) % 3) }), some c)
      | (s, none) => ((s, none) : State × Option Cell)).1 := by
    intro s k hs last
    split <;> rename_i heq
    · exact State.upBank_kept _ _ (Part.sub_trans hl (by decide)) (State.takeLoFrom_kept_eq heq (Part.sub_trans hl (by decide)) hs)
    · exact State.takeLoFrom_kept_eq heq (Part.sub_trans hl (by decide)) hs
  unfold State.takeLo
  dsimp only
  split
  · rename_i heq; rw [← heq]; exact hf s 0 h _
  · rename_i s1 heq
    have h1 : s0.Kept ps (s1, (none : Option Cell)).1 := by rw [← heq]; exact hf s 0 h _
    split
    · rename_i heq2; rw [← heq2]; exact hf s1 1 h1 _
    · rename_i s2 heq2
      have h2 : s0.Kept ps (s2, (none : Option Cell)).1 := by rw [← heq2]; exact hf s1 1 h1 _
      exact hf s2 2 h2 _

theorem State.takeLo_kept_eq {ps : List Part} {s0 s : State} {m j : Nat} {credit : Bool} {pp : State × Option Cell}
    (hp : s.takeLo m j credit = pp) (hl : ∀ p ∈ ([.fabric] : List Part), p ∈ ps) (h : s0.Kept ps s) : s0.Kept ps pp.1 := by
  subst hp; exact State.takeLo_kept _ _ _ hl h

theorem State.takeCell_kept {ps : List Part} {s0 s : State} (m j : Nat) (hp lo mcFirst : Bool)
    (hl : ∀ p ∈ ([.fabric] : List Part), p ∈ ps) (h : s0.Kept ps s) : s0.Kept ps (s.takeCell m j hp lo mcFirst).1 := by
  have h1 : s0.Kept ps (if hp then s.takeHp m j mcFirst else (s, none)).1 := by
    split
    · exact State.takeHp_kept _ _ _ (Part.sub_trans hl (by decide)) h
    · exact h
  unfold State.takeCell
  split <;> rename_i heq <;> rw [heq] at h1
  · exact h1
  · exact State.takeLo_kept _ _ _ (Part.sub_trans hl (by decide)) h1

theorem State.takeCell_kept_eq {ps : List Part} {s0 s : State} {m j : Nat} {hp lo mcFirst : Bool}
    {pp : State × Option Cell} (he : s.takeCell m j hp lo mcFirst = pp) (hl : ∀ p ∈ ([.fabric] : List Part), p ∈ ps)
    (h : s0.Kept ps s) : s0.Kept ps pp.1 := by
  subst he; exact State.takeCell_kept _ _ _ _ _ hl h

theorem State.spillOne_kept {ps : List Part} {s0 s : State} (m : Nat) (j : Nat) (hl : ∀ p ∈ ([.regs, .fabric, .queues, .hmk] : List Part), p ∈ ps)
    (h : s0.Kept ps s) : s0.Kept ps (State.spillOne s m j) := by
  unfold State.spillOne
  repeat' (first
    | with_reducible assumption | with_reducible exact Part.sub_trans hl (by decide)
    | (with_reducible refine (?_ : s0.Kept ps _); fail_if_no_progress extract_lets +onlyGivenNames x
       refine (fun (_ : s0.Kept ps x) => ?_) ?_
       (on_goal 1 => clear_value x); (on_goal 2 => unfold x; clear x))
    | (with_reducible refine (?_ : s0.Kept ps _); fail_if_no_progress extract_lets +onlyGivenNames x
       refine (fun (_ : s0.Kept ps x.1) => ?_) ?_
       (on_goal 1 => clear_value x); (on_goal 2 => unfold x; clear x))
    | (with_reducible refine (?_ : s0.Kept ps _); fail_if_no_progress extract_lets +onlyGivenNames x
       refine (fun (_ : s0.Kept ps x.2) => ?_) ?_
       (on_goal 1 => clear_value x); (on_goal 2 => unfold x; clear x))
    | (with_reducible refine (?_ : s0.Kept ps _); fail_if_no_progress extract_lets +onlyGivenNames y
       clear_value (hy : y = _))
    | with_reducible apply State.upBank_kept | with_reducible apply State.perf_kept
    | with_reducible apply State.upQueue_kept
    | (intro p hp; cases p <;>
       first | exact absurd (hl _ (by decide)) hp | rfl)
    | with_reducible exact fun hv => hv | split | dsimp -zeta only
    | with_reducible refine State.Kept.lit ?_ ?_ ?_ ?_ ?_ ?_ ?_ ?_)

theorem State.recallReady_kept {ps : List Part} {s0 s : State} (j : Nat) (hl : ∀ p ∈ reports ++ [.ports, .epochs, .acct, .queues], p ∈ ps)
    (h : s0.Kept ps s) : s0.Kept ps (State.recallReady s j) := by
  unfold State.recallReady
  repeat' (first
    | with_reducible assumption | with_reducible exact Part.sub_trans hl (by decide)
    | (with_reducible refine (?_ : s0.Kept ps _); fail_if_no_progress extract_lets +onlyGivenNames y
       clear_value (hy : y = _))
    | with_reducible apply State.recallIn_kept
    | (intro p hp; cases p <;>
       first | exact absurd (hl _ (by decide)) hp | rfl)
    | with_reducible exact fun hv => hv | split | dsimp -zeta only
    | with_reducible refine State.Kept.lit ?_ ?_ ?_ ?_ ?_ ?_ ?_ ?_)

theorem State.recallOne_kept {ps : List Part} {s0 s : State} (m : Nat) (j : Nat) (hl : ∀ p ∈ reports ++ [.ports, .epochs, .fabric, .acct, .queues], p ∈ ps)
    (h : s0.Kept ps s) : s0.Kept ps (State.recallOne s m j) := by
  unfold State.recallOne
  repeat' (first
    | with_reducible assumption | with_reducible exact Part.sub_trans hl (by decide)
    | (with_reducible refine (?_ : s0.Kept ps _); fail_if_no_progress extract_lets +onlyGivenNames x
       refine (fun (_ : s0.Kept ps x) => ?_) ?_
       (on_goal 1 => clear_value x); (on_goal 2 => unfold x; clear x))
    | (with_reducible refine (?_ : s0.Kept ps _); fail_if_no_progress extract_lets +onlyGivenNames x
       refine (fun (_ : s0.Kept ps x.1) => ?_) ?_
       (on_goal 1 => clear_value x); (on_goal 2 => unfold x; clear x))
    | (with_reducible refine (?_ : s0.Kept ps _); fail_if_no_progress extract_lets +onlyGivenNames x
       refine (fun (_ : s0.Kept ps x.2) => ?_) ?_
       (on_goal 1 => clear_value x); (on_goal 2 => unfold x; clear x))
    | (with_reducible refine (?_ : s0.Kept ps _); fail_if_no_progress extract_lets +onlyGivenNames y
       clear_value (hy : y = _))
    | with_reducible apply State.upQueue_kept | with_reducible apply State.recallIn_kept
    | with_reducible apply State.upBank_kept
    | (intro p hp; cases p <;>
       first | exact absurd (hl _ (by decide)) hp | rfl)
    | with_reducible exact fun hv => hv | split | dsimp -zeta only
    | with_reducible refine State.Kept.lit ?_ ?_ ?_ ?_ ?_ ?_ ?_ ?_)

theorem State.voided_kept {ps : List Part} {s0 s : State} (m : Nat) (c : Cell) (hl : ∀ p ∈ faulting, p ∈ ps)
    (h : s0.Kept ps s) : s0.Kept ps (State.voided s m c).1 := by
  unfold State.voided
  repeat' (first
    | with_reducible assumption | with_reducible exact Part.sub_trans hl (by decide)
    | (with_reducible refine (?_ : s0.Kept ps _); fail_if_no_progress extract_lets +onlyGivenNames x
       refine (fun (_ : s0.Kept ps x) => ?_) ?_
       (on_goal 1 => clear_value x); (on_goal 2 => unfold x; clear x))
    | (with_reducible refine (?_ : s0.Kept ps _); fail_if_no_progress extract_lets +onlyGivenNames x
       refine (fun (_ : s0.Kept ps x.1) => ?_) ?_
       (on_goal 1 => clear_value x); (on_goal 2 => unfold x; clear x))
    | (with_reducible refine (?_ : s0.Kept ps _); fail_if_no_progress extract_lets +onlyGivenNames x
       refine (fun (_ : s0.Kept ps x.2) => ?_) ?_
       (on_goal 1 => clear_value x); (on_goal 2 => unfold x; clear x))
    | (with_reducible refine (?_ : s0.Kept ps _); fail_if_no_progress extract_lets +onlyGivenNames y
       clear_value (hy : y = _))
    | with_reducible apply State.eccEvent_kept | with_reducible apply State.upBank_kept | split
    | dsimp -zeta only | with_reducible refine State.Kept.lit ?_ ?_ ?_ ?_ ?_ ?_ ?_ ?_)

theorem State.voided_kept_eq {ps : List Part} {s0 s : State} {m : Nat} {c : Cell} {pp : State × Cell} (hp : State.voided s m c = pp) (hl : ∀ p ∈ faulting, p ∈ ps)
    (h : s0.Kept ps s) : s0.Kept ps pp.1 := by
  subst hp; apply State.voided_kept <;> assumption

theorem State.stageTwo_kept {ps : List Part} {s0 s : State} (t : Nat) (m : Nat) (ecc1 : Bool) (ecc2 : Bool) (hl : ∀ p ∈ faulting, p ∈ ps)
    (h : s0.Kept ps s) : s0.Kept ps (State.stageTwo s t m ecc1 ecc2) := by
  unfold State.stageTwo
  repeat' (first
    | with_reducible assumption | with_reducible exact Part.sub_trans hl (by decide)
    | (with_reducible refine (?_ : s0.Kept ps _); fail_if_no_progress extract_lets +onlyGivenNames x
       refine (fun (_ : s0.Kept ps x) => ?_) ?_
       (on_goal 1 => clear_value x); (on_goal 2 => unfold x; clear x))
    | (with_reducible refine (?_ : s0.Kept ps _); fail_if_no_progress extract_lets +onlyGivenNames x
       refine (fun (_ : s0.Kept ps x.1) => ?_) ?_
       (on_goal 1 => clear_value x); (on_goal 2 => unfold x; clear x))
    | (with_reducible refine (?_ : s0.Kept ps _); fail_if_no_progress extract_lets +onlyGivenNames x
       refine (fun (_ : s0.Kept ps x.2) => ?_) ?_
       (on_goal 1 => clear_value x); (on_goal 2 => unfold x; clear x))
    | (with_reducible refine (?_ : s0.Kept ps _); fail_if_no_progress extract_lets +onlyGivenNames y
       clear_value (hy : y = _))
    | with_reducible apply State.takeCell_kept
    | with_reducible refine State.takeCell_kept_eq (pp := (_, _)) (by assumption) ?_ ?_
    | with_reducible apply State.upBank_kept | with_reducible apply State.perf_kept
    | with_reducible apply State.voided_kept
    | with_reducible refine State.voided_kept_eq (pp := (_, _)) (by assumption) ?_ ?_
    | with_reducible apply State.recallOne_kept | with_reducible apply State.recallReady_kept
    | with_reducible apply State.spillOne_kept
    | (intro t a ht; with_reducible refine (?_ : s0.Kept ps _)) | with_reducible apply State.Kept.foldl
    | with_reducible apply State.Kept.foldlFst | with_reducible apply State.Kept.foldlSnd
    | (intro p hp; cases p <;>
       first | exact absurd (hl _ (by decide)) hp | rfl)
    | with_reducible exact fun hv => hv | split | dsimp -zeta only
    | with_reducible refine State.Kept.lit ?_ ?_ ?_ ?_ ?_ ?_ ?_ ?_)

theorem State.fabricSlot_kept {ps : List Part} {s0 s : State} (ecc : SlotEcc) (hl : ∀ p ∈ faulting, p ∈ ps)
    (h : s0.Kept ps s) : s0.Kept ps (State.fabricSlot s ecc) := by
  unfold State.fabricSlot
  repeat' (first
    | with_reducible assumption | with_reducible exact Part.sub_trans hl (by decide)
    | (with_reducible refine (?_ : s0.Kept ps _); fail_if_no_progress extract_lets +onlyGivenNames x
       refine (fun (_ : s0.Kept ps x) => ?_) ?_
       (on_goal 1 => clear_value x); (on_goal 2 => unfold x; clear x))
    | (with_reducible refine (?_ : s0.Kept ps _); fail_if_no_progress extract_lets +onlyGivenNames y
       clear_value (hy : y = _))
    | with_reducible apply State.stageOne_kept | with_reducible apply State.stageTwo_kept
    | with_reducible apply State.countE_kept | (intro t a ht; with_reducible refine (?_ : s0.Kept ps _))
    | with_reducible apply State.Kept.foldl
    | (intro p hp; cases p <;>
       first | exact absurd (hl _ (by decide)) hp | rfl)
    | with_reducible exact fun hv => hv | dsimp -zeta only
    | with_reducible refine State.Kept.lit ?_ ?_ ?_ ?_ ?_ ?_ ?_ ?_)

theorem execFabricSlot_kept {ps : List Part} {s0 s : State} (ecc : SlotEcc) (hl : ∀ p ∈ faulting, p ∈ ps)
    (h : s0.Kept ps s) : ∃ t, execFabricSlot ecc s = .next t ∧ s0.Kept ps t := by
  refine ⟨_, rfl, ?_⟩
  repeat' (first
    | with_reducible assumption | with_reducible exact Part.sub_trans hl (by decide)
    | with_reducible apply State.fabricSlot_kept | split)

theorem State.land_kept {ps : List Part} {s0 s : State} (m : Nat) (c : Cell) (crcOk : Bool) (hl : ∀ p ∈ faulting, p ∈ ps)
    (h : s0.Kept ps s) : s0.Kept ps (State.land s m c crcOk) := by
  unfold State.land
  repeat' (first
    | with_reducible assumption | with_reducible exact Part.sub_trans hl (by decide)
    | (with_reducible refine (?_ : s0.Kept ps _); fail_if_no_progress extract_lets +onlyGivenNames x
       refine (fun (_ : s0.Kept ps x) => ?_) ?_
       (on_goal 1 => clear_value x); (on_goal 2 => unfold x; clear x))
    | (with_reducible refine (?_ : s0.Kept ps _); fail_if_no_progress extract_lets +onlyGivenNames y
       clear_value (hy : y = _))
    | with_reducible apply State.creditBack_kept | with_reducible apply State.cellEvent_kept
    | with_reducible apply State.loseCell_kept | with_reducible apply State.upBank_kept
    | (intro t a ht; with_reducible refine (?_ : s0.Kept ps _)) | with_reducible apply State.Kept.foldl
    | (intro p hp; cases p <;>
       first | exact absurd (hl _ (by decide)) hp | rfl)
    | with_reducible exact fun hv => hv | split | dsimp -zeta only
    | with_reducible refine State.Kept.lit ?_ ?_ ?_ ?_ ?_ ?_ ?_ ?_)

theorem State.landNext_kept {ps : List Part} {s0 s : State} (m : Nat) (crcOk : Bool) (hl : ∀ p ∈ faulting, p ∈ ps)
    (h : s0.Kept ps s) : s0.Kept ps (State.landNext s m crcOk) := by
  unfold State.landNext
  repeat' (first
    | with_reducible assumption | with_reducible exact Part.sub_trans hl (by decide)
    | (with_reducible refine (?_ : s0.Kept ps _); fail_if_no_progress extract_lets +onlyGivenNames x
       refine (fun (_ : s0.Kept ps x) => ?_) ?_
       (on_goal 1 => clear_value x); (on_goal 2 => unfold x; clear x))
    | (with_reducible refine (?_ : s0.Kept ps _); fail_if_no_progress extract_lets +onlyGivenNames x
       refine (fun (_ : s0.Kept ps x.1) => ?_) ?_
       (on_goal 1 => clear_value x); (on_goal 2 => unfold x; clear x))
    | (with_reducible refine (?_ : s0.Kept ps _); fail_if_no_progress extract_lets +onlyGivenNames x
       refine (fun (_ : s0.Kept ps x.2) => ?_) ?_
       (on_goal 1 => clear_value x); (on_goal 2 => unfold x; clear x))
    | (with_reducible refine (?_ : s0.Kept ps _); fail_if_no_progress extract_lets +onlyGivenNames y
       clear_value (hy : y = _))
    | with_reducible apply State.land_kept
    | (intro p hp; cases p <;>
       first | exact absurd (hl _ (by decide)) hp | rfl)
    | with_reducible exact fun hv => hv | split | dsimp -zeta only
    | with_reducible refine State.Kept.lit ?_ ?_ ?_ ?_ ?_ ?_ ?_ ?_)

theorem execCellLand_kept {ps : List Part} {s0 s : State} (bank : Nat) (crcOk : Bool) (hl : ∀ p ∈ faulting, p ∈ ps)
    (h : s0.Kept ps s) : ∃ t, execCellLand bank crcOk s = .next t ∧ s0.Kept ps t := by
  refine ⟨_, rfl, ?_⟩
  repeat' (first
    | with_reducible assumption | with_reducible exact Part.sub_trans hl (by decide)
    | with_reducible apply State.landNext_kept | split)

theorem State.copyTo_kept {ps : List Part} {s0 s : State} (p : Nat) (f : Frame) (hl : ∀ p ∈ reports ++ [.ports, .epochs, .fabric, .acct, .queues], p ∈ ps)
    (h : s0.Kept ps s) : s0.Kept ps (State.copyTo s p f) := by
  unfold State.copyTo
  repeat' (first
    | with_reducible assumption | with_reducible exact Part.sub_trans hl (by decide)
    | (with_reducible refine (?_ : s0.Kept ps _); fail_if_no_progress extract_lets +onlyGivenNames x
       refine (fun (_ : s0.Kept ps x) => ?_) ?_
       (on_goal 1 => clear_value x); (on_goal 2 => unfold x; clear x))
    | (with_reducible refine (?_ : s0.Kept ps _); fail_if_no_progress extract_lets +onlyGivenNames x
       refine (fun (_ : s0.Kept ps x.1) => ?_) ?_
       (on_goal 1 => clear_value x); (on_goal 2 => unfold x; clear x))
    | (with_reducible refine (?_ : s0.Kept ps _); fail_if_no_progress extract_lets +onlyGivenNames x
       refine (fun (_ : s0.Kept ps x.2) => ?_) ?_
       (on_goal 1 => clear_value x); (on_goal 2 => unfold x; clear x))
    | (with_reducible refine (?_ : s0.Kept ps _); fail_if_no_progress extract_lets +onlyGivenNames y
       clear_value (hy : y = _))
    | with_reducible apply State.epochIn_kept | with_reducible apply State.arrive_kept
    | with_reducible apply State.admitCells_kept
    | with_reducible refine State.admitCells_kept_eq (pp := (_, _)) (by assumption) ?_ ?_
    | with_reducible apply State.dropIngress_kept
    | (intro p hp; cases p <;>
       first | exact absurd (hl _ (by decide)) hp | rfl)
    | with_reducible exact fun hv => hv | split | dsimp -zeta only
    | with_reducible refine State.Kept.lit ?_ ?_ ?_ ?_ ?_ ?_ ?_ ?_)

theorem State.deliverDirect_kept {ps : List Part} {s0 s : State} (d : Direct) (f : Frame) (hl : ∀ p ∈ reports ++ [.ports, .epochs, .acct, .queues], p ∈ ps)
    (h : s0.Kept ps s) : s0.Kept ps (State.deliverDirect s d f) := by
  unfold State.deliverDirect
  repeat' (first
    | with_reducible assumption | with_reducible exact Part.sub_trans hl (by decide)
    | with_reducible apply State.arrive_kept | with_reducible apply State.enqueue_kept
    | with_reducible apply State.enqueueLaunch_kept | with_reducible apply State.finish_kept | split)

theorem State.deliver_kept {ps : List Part} {s0 s : State} (j : Nat) (mc : Bool) (f : Frame) (hl : ∀ p ∈ reports ++ [.ports, .epochs, .fabric, .acct, .queues], p ∈ ps)
    (h : s0.Kept ps s) : s0.Kept ps (State.deliver s j mc f) := by
  unfold State.deliver
  repeat' (first
    | with_reducible assumption | with_reducible exact Part.sub_trans hl (by decide)
    | (with_reducible refine (?_ : s0.Kept ps _); fail_if_no_progress extract_lets +onlyGivenNames x
       refine (fun (_ : s0.Kept ps x) => ?_) ?_
       (on_goal 1 => clear_value x); (on_goal 2 => unfold x; clear x))
    | (with_reducible refine (?_ : s0.Kept ps _); fail_if_no_progress extract_lets +onlyGivenNames y
       clear_value (hy : y = _))
    | with_reducible apply State.deliverDirect_kept | with_reducible apply State.arrive_kept
    | with_reducible apply State.copyTo_kept | with_reducible apply State.mcDone_kept
    | (intro t a ht; with_reducible refine (?_ : s0.Kept ps _)) | with_reducible apply State.Kept.foldl
    | (intro p hp; cases p <;>
       first | exact absurd (hl _ (by decide)) hp | rfl)
    | with_reducible exact fun hv => hv | split | dsimp -zeta only
    | with_reducible refine State.Kept.lit ?_ ?_ ?_ ?_ ?_ ?_ ?_ ?_)

theorem State.feedFrag_kept {ps : List Part} {s0 s : State} (j : Nat) (mc : Bool) (void : Bool) (part : Option (Frame × Nat)) (f : Frag) (hl : ∀ p ∈ reports ++ [.ports, .epochs, .fabric, .acct, .queues], p ∈ ps)
    (h : s0.Kept ps s) : s0.Kept ps (State.feedFrag s j mc void part f).1 := by
  unfold State.feedFrag
  repeat' (first
    | with_reducible assumption | with_reducible exact Part.sub_trans hl (by decide)
    | (with_reducible refine (?_ : s0.Kept ps _); fail_if_no_progress extract_lets +onlyGivenNames x
       refine (fun (_ : s0.Kept ps x) => ?_) ?_
       (on_goal 1 => clear_value x); (on_goal 2 => unfold x; clear x))
    | (with_reducible refine (?_ : s0.Kept ps _); fail_if_no_progress extract_lets +onlyGivenNames x
       refine (fun (_ : s0.Kept ps x.1) => ?_) ?_
       (on_goal 1 => clear_value x); (on_goal 2 => unfold x; clear x))
    | (with_reducible refine (?_ : s0.Kept ps _); fail_if_no_progress extract_lets +onlyGivenNames x
       refine (fun (_ : s0.Kept ps x.2) => ?_) ?_
       (on_goal 1 => clear_value x); (on_goal 2 => unfold x; clear x))
    | (with_reducible refine (?_ : s0.Kept ps _); fail_if_no_progress extract_lets +onlyGivenNames y
       clear_value (hy : y = _))
    | with_reducible apply State.loseFrag_kept | with_reducible apply State.deliver_kept | split
    | dsimp -zeta only | with_reducible refine State.Kept.lit ?_ ?_ ?_ ?_ ?_ ?_ ?_ ?_)

theorem State.feedFrag_kept_eq {ps : List Part} {s0 s : State} {j : Nat} {mc : Bool} {void : Bool} {part : Option (Frame × Nat)} {f : Frag} {pp : State × Option (Frame × Nat)} (hp : State.feedFrag s j mc void part f = pp) (hl : ∀ p ∈ reports ++ [.ports, .epochs, .fabric, .acct, .queues], p ∈ ps)
    (h : s0.Kept ps s) : s0.Kept ps pp.1 := by
  subst hp; apply State.feedFrag_kept <;> assumption

theorem State.feedCell_kept {ps : List Part} {s0 s : State} (j : Nat) (part : Option (Frame × Nat)) (c : Cell) (hl : ∀ p ∈ reports ++ [.ports, .epochs, .fabric, .acct, .queues], p ∈ ps)
    (h : s0.Kept ps s) : s0.Kept ps (State.feedCell s j part c).1 := by
  unfold State.feedCell
  repeat' (first
    | with_reducible assumption | with_reducible exact Part.sub_trans hl (by decide)
    | (with_reducible refine (?_ : s0.Kept ps _); fail_if_no_progress extract_lets +onlyGivenNames x
       refine (fun (_ : s0.Kept ps x) => ?_) ?_
       (on_goal 1 => clear_value x); (on_goal 2 => unfold x; clear x))
    | (with_reducible refine (?_ : s0.Kept ps _); fail_if_no_progress extract_lets +onlyGivenNames x
       refine (fun (_ : s0.Kept ps x.1) => ?_) ?_
       (on_goal 1 => clear_value x); (on_goal 2 => unfold x; clear x))
    | (with_reducible refine (?_ : s0.Kept ps _); fail_if_no_progress extract_lets +onlyGivenNames x
       refine (fun (_ : s0.Kept ps x.2) => ?_) ?_
       (on_goal 1 => clear_value x); (on_goal 2 => unfold x; clear x))
    | (with_reducible refine (?_ : s0.Kept ps _); fail_if_no_progress extract_lets +onlyGivenNames y
       clear_value (hy : y = _))
    | with_reducible apply State.perf_kept | with_reducible apply State.feedFrag_kept
    | with_reducible refine State.feedFrag_kept_eq (pp := (_, _)) (by assumption) ?_ ?_
    | (intro t a ht; with_reducible refine (?_ : s0.Kept ps _)) | with_reducible apply State.Kept.foldl
    | with_reducible apply State.Kept.foldlFst | with_reducible apply State.Kept.foldlSnd | split
    | dsimp -zeta only)

theorem State.feedCell_kept_eq {ps : List Part} {s0 s : State} {j : Nat} {part : Option (Frame × Nat)} {c : Cell} {pp : State × Option (Frame × Nat)} (hp : State.feedCell s j part c = pp) (hl : ∀ p ∈ reports ++ [.ports, .epochs, .fabric, .acct, .queues], p ∈ ps)
    (h : s0.Kept ps s) : s0.Kept ps pp.1 := by
  subst hp; apply State.feedCell_kept <;> assumption

theorem State.upUni_kept {ps : List Part} {s0 s : State} (k : Nat) (r : Reseq) (hl : ∀ p ∈ ([.fabric] : List Part), p ∈ ps)
    (h : s0.Kept ps s) : s0.Kept ps (State.upUni s k r) := by
  unfold State.upUni
  repeat' (first
    | with_reducible assumption | with_reducible exact Part.sub_trans hl (by decide)
    | (with_reducible refine (?_ : s0.Kept ps _); fail_if_no_progress extract_lets +onlyGivenNames y
       clear_value (hy : y = _))
    | (intro p hp; cases p <;>
       first | exact absurd (hl _ (by decide)) hp | rfl)
    | with_reducible exact fun hv => hv | with_reducible refine State.Kept.lit ?_ ?_ ?_ ?_ ?_ ?_ ?_ ?_)

theorem State.upMc_kept {ps : List Part} {s0 s : State} (k : Nat) (r : Reseq) (hl : ∀ p ∈ ([.fabric] : List Part), p ∈ ps)
    (h : s0.Kept ps s) : s0.Kept ps (State.upMc s k r) := by
  unfold State.upMc
  repeat' (first
    | with_reducible assumption | with_reducible exact Part.sub_trans hl (by decide)
    | (with_reducible refine (?_ : s0.Kept ps _); fail_if_no_progress extract_lets +onlyGivenNames y
       clear_value (hy : y = _))
    | (intro p hp; cases p <;>
       first | exact absurd (hl _ (by decide)) hp | rfl)
    | with_reducible exact fun hv => hv | with_reducible refine State.Kept.lit ?_ ?_ ?_ ?_ ?_ ?_ ?_ ?_)

theorem State.releaseUni_kept {ps : List Part} {s0 : State} (hl : ∀ p ∈ reports ++ [.ports, .epochs, .fabric, .acct, .queues], p ∈ ps)
    (fuel : Nat) : ∀ {s : State} (j : Nat) (k : Nat) (_ : s0.Kept ps s),
    s0.Kept ps (State.releaseUni s j k fuel) := by
  induction fuel with
  | zero => intros; assumption
  | succ fuel ih =>
    intros
    rw [State.releaseUni]
    repeat' (first
      | with_reducible assumption | with_reducible exact Part.sub_trans hl (by decide)
      | (with_reducible refine (?_ : s0.Kept ps _); fail_if_no_progress extract_lets +onlyGivenNames x
         refine (fun (_ : s0.Kept ps x) => ?_) ?_
         (on_goal 1 => clear_value x); (on_goal 2 => unfold x; clear x))
      | (with_reducible refine (?_ : s0.Kept ps _); fail_if_no_progress extract_lets +onlyGivenNames x
         refine (fun (_ : s0.Kept ps x.1) => ?_) ?_
         (on_goal 1 => clear_value x); (on_goal 2 => unfold x; clear x))
      | (with_reducible refine (?_ : s0.Kept ps _); fail_if_no_progress extract_lets +onlyGivenNames x
         refine (fun (_ : s0.Kept ps x.2) => ?_) ?_
         (on_goal 1 => clear_value x); (on_goal 2 => unfold x; clear x))
      | (with_reducible refine (?_ : s0.Kept ps _); fail_if_no_progress extract_lets +onlyGivenNames y
         clear_value (hy : y = _))
      | with_reducible apply ih | with_reducible apply State.feedCell_kept
      | with_reducible refine State.feedCell_kept_eq (pp := (_, _)) (by assumption) ?_ ?_
      | with_reducible apply State.upUni_kept | split | dsimp -zeta only
      | with_reducible refine State.Kept.lit ?_ ?_ ?_ ?_ ?_ ?_ ?_ ?_)

theorem State.takeUni_kept {ps : List Part} {s0 s : State} (j : Nat) (c : Cell) (hl : ∀ p ∈ reports ++ [.ports, .epochs, .fabric, .acct, .queues], p ∈ ps)
    (h : s0.Kept ps s) : s0.Kept ps (State.takeUni s j c) := by
  unfold State.takeUni
  repeat' (first
    | with_reducible assumption | with_reducible exact Part.sub_trans hl (by decide)
    | (with_reducible refine (?_ : s0.Kept ps _); fail_if_no_progress extract_lets +onlyGivenNames x
       refine (fun (_ : s0.Kept ps x) => ?_) ?_
       (on_goal 1 => clear_value x); (on_goal 2 => unfold x; clear x))
    | (with_reducible refine (?_ : s0.Kept ps _); fail_if_no_progress extract_lets +onlyGivenNames y
       clear_value (hy : y = _))
    | with_reducible apply State.loseCell_kept | with_reducible apply State.countS_kept
    | with_reducible apply State.releaseUni_kept | with_reducible apply State.upUni_kept
    | (intro p hp; cases p <;>
       first | exact absurd (hl _ (by decide)) hp | rfl)
    | with_reducible exact fun hv => hv | split
    | with_reducible refine State.Kept.lit ?_ ?_ ?_ ?_ ?_ ?_ ?_ ?_)

theorem State.releaseMc_kept {ps : List Part} {s0 : State} (hl : ∀ p ∈ reports ++ [.ports, .epochs, .fabric, .acct, .queues], p ∈ ps)
    (fuel : Nat) : ∀ {s : State} (j : Nat) (k : Nat) (_ : s0.Kept ps s),
    s0.Kept ps (State.releaseMc s j k fuel) := by
  induction fuel with
  | zero => intros; assumption
  | succ fuel ih =>
    intros
    rw [State.releaseMc]
    repeat' (first
      | with_reducible assumption | with_reducible exact Part.sub_trans hl (by decide)
      | (with_reducible refine (?_ : s0.Kept ps _); fail_if_no_progress extract_lets +onlyGivenNames x
         refine (fun (_ : s0.Kept ps x) => ?_) ?_
         (on_goal 1 => clear_value x); (on_goal 2 => unfold x; clear x))
      | (with_reducible refine (?_ : s0.Kept ps _); fail_if_no_progress extract_lets +onlyGivenNames x
         refine (fun (_ : s0.Kept ps x.1) => ?_) ?_
         (on_goal 1 => clear_value x); (on_goal 2 => unfold x; clear x))
      | (with_reducible refine (?_ : s0.Kept ps _); fail_if_no_progress extract_lets +onlyGivenNames x
         refine (fun (_ : s0.Kept ps x.2) => ?_) ?_
         (on_goal 1 => clear_value x); (on_goal 2 => unfold x; clear x))
      | (with_reducible refine (?_ : s0.Kept ps _); fail_if_no_progress extract_lets +onlyGivenNames y
         clear_value (hy : y = _))
      | with_reducible apply ih | with_reducible apply State.feedCell_kept
      | with_reducible refine State.feedCell_kept_eq (pp := (_, _)) (by assumption) ?_ ?_
      | with_reducible apply State.upMc_kept
      | (intro p hp; cases p <;>
         first | exact absurd (hl _ (by decide)) hp | rfl)
      | with_reducible exact fun hv => hv | split | dsimp -zeta only
      | with_reducible refine State.Kept.lit ?_ ?_ ?_ ?_ ?_ ?_ ?_ ?_)

theorem State.takeWord_kept {ps : List Part} {s0 s : State} (j : Nat) (v : Visit) (hl : ∀ p ∈ reports ++ [.ports, .epochs, .fabric, .acct, .queues], p ∈ ps)
    (h : s0.Kept ps s) : s0.Kept ps (State.takeWord s j v) := by
  unfold State.takeWord
  repeat' (first
    | with_reducible assumption | with_reducible exact Part.sub_trans hl (by decide)
    | (with_reducible refine (?_ : s0.Kept ps _); fail_if_no_progress extract_lets +onlyGivenNames x
       refine (fun (_ : s0.Kept ps x) => ?_) ?_
       (on_goal 1 => clear_value x); (on_goal 2 => unfold x; clear x))
    | (with_reducible refine (?_ : s0.Kept ps _); fail_if_no_progress extract_lets +onlyGivenNames y
       clear_value (hy : y = _))
    | with_reducible apply State.releaseMc_kept | with_reducible apply State.upMc_kept
    | (intro t a ht; with_reducible refine (?_ : s0.Kept ps _)) | with_reducible apply State.Kept.foldl
    | (intro p hp; cases p <;>
       first | exact absurd (hl _ (by decide)) hp | rfl)
    | with_reducible exact fun hv => hv | split | dsimp -zeta only
    | with_reducible refine State.Kept.lit ?_ ?_ ?_ ?_ ?_ ?_ ?_ ?_)

theorem State.takeSpill_kept {ps : List Part} {s0 s : State} (j : Nat) (c : Cell) (ok : Bool) (hl : ∀ p ∈ reports ++ [.ports, .epochs, .acct, .queues], p ∈ ps)
    (h : s0.Kept ps s) : s0.Kept ps (State.takeSpill s j c ok) := by
  unfold State.takeSpill
  repeat' (first
    | with_reducible assumption | with_reducible exact Part.sub_trans hl (by decide)
    | (with_reducible refine (?_ : s0.Kept ps _); fail_if_no_progress extract_lets +onlyGivenNames x
       refine (fun (_ : s0.Kept ps x) => ?_) ?_
       (on_goal 1 => clear_value x); (on_goal 2 => unfold x; clear x))
    | (with_reducible refine (?_ : s0.Kept ps _); fail_if_no_progress extract_lets +onlyGivenNames y
       clear_value (hy : y = _))
    | with_reducible apply State.perf_kept | with_reducible apply State.upQueue_kept
    | with_reducible apply State.recallIn_kept | with_reducible apply State.dropIngress_kept
    | (intro t a ht; with_reducible refine (?_ : s0.Kept ps _)) | with_reducible apply State.Kept.foldl
    | (intro p hp; cases p <;>
       first | exact absurd (hl _ (by decide)) hp | rfl)
    | with_reducible exact fun hv => hv | split | dsimp -zeta only
    | with_reducible refine State.Kept.lit ?_ ?_ ?_ ?_ ?_ ?_ ?_ ?_)

theorem State.takeArrived_kept {ps : List Part} {s0 s : State} (j : Nat) (c : Cell) (ok : Bool) (hl : ∀ p ∈ faulting, p ∈ ps)
    (h : s0.Kept ps s) : s0.Kept ps (State.takeArrived s j c ok) := by
  unfold State.takeArrived
  repeat' (first
    | with_reducible assumption | with_reducible exact Part.sub_trans hl (by decide)
    | (with_reducible refine (?_ : s0.Kept ps _); fail_if_no_progress extract_lets +onlyGivenNames x
       refine (fun (_ : s0.Kept ps x) => ?_) ?_
       (on_goal 1 => clear_value x); (on_goal 2 => unfold x; clear x))
    | (with_reducible refine (?_ : s0.Kept ps _); fail_if_no_progress extract_lets +onlyGivenNames y
       clear_value (hy : y = _))
    | with_reducible apply State.cellEvent_kept | with_reducible apply State.takeSpill_kept
    | with_reducible apply State.upMc_kept | with_reducible apply State.loseCell_kept
    | with_reducible apply State.takeUni_kept
    | (intro p hp; cases p <;>
       first | exact absurd (hl _ (by decide)) hp | rfl)
    | with_reducible exact fun hv => hv | split
    | with_reducible refine State.Kept.lit ?_ ?_ ?_ ?_ ?_ ?_ ?_ ?_)

theorem State.visit_kept {ps : List Part} {s0 s : State} (j : Nat) (crcOk : List Bool) (hl : ∀ p ∈ faulting, p ∈ ps)
    (h : s0.Kept ps s) : s0.Kept ps (State.visit s j crcOk) := by
  unfold State.visit
  repeat' (first
    | with_reducible assumption | with_reducible exact Part.sub_trans hl (by decide)
    | (with_reducible refine (?_ : s0.Kept ps _); fail_if_no_progress extract_lets +onlyGivenNames x
       refine (fun (_ : s0.Kept ps x) => ?_) ?_
       (on_goal 1 => clear_value x); (on_goal 2 => unfold x; clear x))
    | (with_reducible refine (?_ : s0.Kept ps _); fail_if_no_progress extract_lets +onlyGivenNames x
       refine (fun (_ : s0.Kept ps x.1) => ?_) ?_
       (on_goal 1 => clear_value x); (on_goal 2 => unfold x; clear x))
    | (with_reducible refine (?_ : s0.Kept ps _); fail_if_no_progress extract_lets +onlyGivenNames x
       refine (fun (_ : s0.Kept ps x.2) => ?_) ?_
       (on_goal 1 => clear_value x); (on_goal 2 => unfold x; clear x))
    | (with_reducible refine (?_ : s0.Kept ps _); fail_if_no_progress extract_lets +onlyGivenNames y
       clear_value (hy : y = _))
    | with_reducible apply State.takeArrived_kept | with_reducible apply State.takeWord_kept
    | (intro t a ht; with_reducible refine (?_ : s0.Kept ps _)) | with_reducible apply State.Kept.foldl
    | with_reducible apply State.Kept.foldlFst | with_reducible apply State.Kept.foldlSnd
    | (intro p hp; cases p <;>
       first | exact absurd (hl _ (by decide)) hp | rfl)
    | with_reducible exact fun hv => hv | split | dsimp -zeta only
    | with_reducible refine State.Kept.lit ?_ ?_ ?_ ?_ ?_ ?_ ?_ ?_)

theorem execVisitReceive_kept {ps : List Part} {s0 s : State} (tile : Nat) (crcOk : List Bool) (hl : ∀ p ∈ faulting, p ∈ ps)
    (h : s0.Kept ps s) : ∃ t, execVisitReceive tile crcOk s = .next t ∧ s0.Kept ps t := by
  refine ⟨_, rfl, ?_⟩
  repeat' (first
    | with_reducible assumption | with_reducible exact Part.sub_trans hl (by decide)
    | with_reducible apply State.visit_kept | split)

theorem State.losePart_kept {ps : List Part} {s0 s : State} (lost : List Cell) (r : Reseq) (hl : ∀ p ∈ reports ++ [.ports, .epochs, .fabric, .acct], p ∈ ps)
    (h : s0.Kept ps s) : s0.Kept ps (State.losePart s lost r) := by
  unfold State.losePart
  repeat' (first
    | with_reducible assumption | with_reducible exact Part.sub_trans hl (by decide)
    | (with_reducible refine (?_ : s0.Kept ps _); fail_if_no_progress extract_lets +onlyGivenNames x
       refine (fun (_ : s0.Kept ps x) => ?_) ?_
       (on_goal 1 => clear_value x); (on_goal 2 => unfold x; clear x))
    | (with_reducible refine (?_ : s0.Kept ps _); fail_if_no_progress extract_lets +onlyGivenNames y
       clear_value (hy : y = _))
    | with_reducible apply State.dropIngress_kept
    | (intro p hp; cases p <;>
       first | exact absurd (hl _ (by decide)) hp | rfl)
    | with_reducible exact fun hv => hv | split | dsimp -zeta only
    | with_reducible refine State.Kept.lit ?_ ?_ ?_ ?_ ?_ ?_ ?_ ?_)

theorem State.skipGap_kept {ps : List Part} {s0 s : State} (i : Nat) (j : Nat) (hp : Bool) (hl : ∀ p ∈ reports ++ [.ports, .epochs, .fabric, .acct, .queues], p ∈ ps)
    (h : s0.Kept ps s) : s0.Kept ps (State.skipGap s i j hp) := by
  unfold State.skipGap
  repeat' (first
    | with_reducible assumption | with_reducible exact Part.sub_trans hl (by decide)
    | (with_reducible refine (?_ : s0.Kept ps _); fail_if_no_progress extract_lets +onlyGivenNames x
       refine (fun (_ : s0.Kept ps x) => ?_) ?_
       (on_goal 1 => clear_value x); (on_goal 2 => unfold x; clear x))
    | (with_reducible refine (?_ : s0.Kept ps _); fail_if_no_progress extract_lets +onlyGivenNames y
       clear_value (hy : y = _))
    | with_reducible apply State.countS_kept | with_reducible apply State.losePart_kept
    | with_reducible apply State.loseCell_kept | with_reducible apply State.releaseUni_kept
    | with_reducible apply State.upUni_kept | (intro t a ht; with_reducible refine (?_ : s0.Kept ps _))
    | with_reducible apply State.Kept.foldl
    | (intro p hp; cases p <;>
       first | exact absurd (hl _ (by decide)) hp | rfl)
    | with_reducible exact fun hv => hv | split | dsimp -zeta only
    | with_reducible refine State.Kept.lit ?_ ?_ ?_ ?_ ?_ ?_ ?_ ?_)

theorem execReseqTimeout_kept {ps : List Part} {s0 s : State} (src : Nat) (dst : Nat) (hp : Bool) (hl : ∀ p ∈ reports ++ [.ports, .epochs, .fabric, .acct, .queues], p ∈ ps)
    (h : s0.Kept ps s) : ∃ t, execReseqTimeout src dst hp s = .next t ∧ s0.Kept ps t := by
  refine ⟨_, rfl, ?_⟩
  repeat' (first
    | with_reducible assumption | with_reducible exact Part.sub_trans hl (by decide)
    | with_reducible apply State.skipGap_kept | split)

end Sys2Proof.Machine
end

