-- ==== Sys2Proof/Laws/KeptMedia.lean ====
section
/-!
SUPPORT. What the operations and meanings of Machine/Media.lean keep (`State.Kept`).
-/

set_option linter.all false
set_option linter.unusedTactic false
set_option linter.unreachableTactic false

namespace Sys2Proof.Machine

theorem State.inspect_kept {ps : List Part} {s0 s : State} (f : Flow) (r : Option Rtp) (t : Int) (hl : ∀ p ∈ reports ++ [.flowRt], p ∈ ps)
    (h : s0.Kept ps s) : s0.Kept ps (State.inspect s f r t).1 := by
  unfold State.inspect
  repeat' (first
    | with_reducible assumption | with_reducible exact Part.sub_trans hl (by decide)
    | (with_reducible refine (?_ : s0.Kept ps _); fail_if_no_progress extract_lets +onlyGivenNames x
       refine (fun (_ : s0.Kept ps x) => ?_) ?_
       (on_goal 1 => clear_value x); (on_goal 2 => unfold x; clear x))
    | (with_reducible refine (?_ : s0.Kept ps _); fail_if_no_progress extract_lets +onlyGivenNames x
       refine (fun (_ : s0.Kept ps x.1) => ?_) ?_
       (on_goal 1 => clear_value x); (on_goal 2 => unfold x; clear x))
    | (with_reducible refine (?_ : s0.Kept ps _); fail_if_no_progress extract_lets +onlyGivenNames x
       refine (fun (_ : s0.Kept ps x.2) => ?_) ?_
       (on_goal 1 => clear_value x); (on_goal 2 => unfold x; clear x))
    | (with_reducible refine (?_ : s0.Kept ps _); fail_if_no_progress extract_lets +onlyGivenNames y
       clear_value (hy : y = _))
    | with_reducible apply State.countFlowE_kept | with_reducible apply State.upFlow_kept
    | with_reducible apply State.countFlow_kept
    | (intro p hp; cases p <;>
       first | exact absurd (hl _ (by decide)) hp | rfl)
    | with_reducible exact fun hv => hv | split | dsimp -zeta only
    | with_reducible refine State.Kept.lit ?_ ?_ ?_ ?_ ?_ ?_ ?_ ?_)

theorem State.inspect_kept_eq {ps : List Part} {s0 s : State} {f : Flow} {r : Option Rtp} {t : Int} {pp : State × SrcEvt} (hp : State.inspect s f r t = pp) (hl : ∀ p ∈ reports ++ [.flowRt], p ∈ ps)
    (h : s0.Kept ps s) : s0.Kept ps pp.1 := by
  subst hp; apply State.inspect_kept <;> assumption

theorem State.police_kept {ps : List Part} {s0 s : State} (f : Flow) (t : Int) (occ : Nat) (hl : ∀ p ∈ ([.flowRt] : List Part), p ∈ ps)
    (h : s0.Kept ps s) : s0.Kept ps (State.police s f t occ).1 := by
  unfold State.police
  repeat' (first
    | with_reducible assumption | with_reducible exact Part.sub_trans hl (by decide)
    | (with_reducible refine (?_ : s0.Kept ps _); fail_if_no_progress extract_lets +onlyGivenNames x
       refine (fun (_ : s0.Kept ps x) => ?_) ?_
       (on_goal 1 => clear_value x); (on_goal 2 => unfold x; clear x))
    | (with_reducible refine (?_ : s0.Kept ps _); fail_if_no_progress extract_lets +onlyGivenNames x
       refine (fun (_ : s0.Kept ps x.1) => ?_) ?_
       (on_goal 1 => clear_value x); (on_goal 2 => unfold x; clear x))
    | (with_reducible refine (?_ : s0.Kept ps _); fail_if_no_progress extract_lets +onlyGivenNames x
       refine (fun (_ : s0.Kept ps x.2) => ?_) ?_
       (on_goal 1 => clear_value x); (on_goal 2 => unfold x; clear x))
    | (with_reducible refine (?_ : s0.Kept ps _); fail_if_no_progress extract_lets +onlyGivenNames y
       clear_value (hy : y = _))
    | with_reducible apply State.upFlow_kept | split | dsimp -zeta only
    | with_reducible refine State.Kept.lit ?_ ?_ ?_ ?_ ?_ ?_ ?_ ?_)

theorem State.police_kept_eq {ps : List Part} {s0 s : State} {f : Flow} {t : Int} {occ : Nat} {pp : State × Policed} (hp : State.police s f t occ = pp) (hl : ∀ p ∈ ([.flowRt] : List Part), p ∈ ps)
    (h : s0.Kept ps s) : s0.Kept ps pp.1 := by
  subst hp; apply State.police_kept <;> assumption

theorem State.startBuckets_kept {ps : List Part} {s0 s : State}  (hl : ∀ p ∈ ([.flowRt] : List Part), p ∈ ps)
    (h : s0.Kept ps s) : s0.Kept ps (State.startBuckets s) := by
  unfold State.startBuckets
  repeat' (first
    | with_reducible assumption | with_reducible exact Part.sub_trans hl (by decide)
    | (with_reducible refine (?_ : s0.Kept ps _); fail_if_no_progress extract_lets +onlyGivenNames y
       clear_value (hy : y = _))
    | with_reducible apply State.upFlow_kept | (intro t a ht; with_reducible refine (?_ : s0.Kept ps _))
    | with_reducible apply State.Kept.foldl
    | (intro p hp; cases p <;>
       first | exact absurd (hl _ (by decide)) hp | rfl)
    | with_reducible exact fun hv => hv | split | dsimp -zeta only
    | with_reducible refine State.Kept.lit ?_ ?_ ?_ ?_ ?_ ?_ ?_ ?_)

theorem State.clipBuckets_kept {ps : List Part} {s0 s : State}  (hl : ∀ p ∈ ([.flowRt] : List Part), p ∈ ps)
    (h : s0.Kept ps s) : s0.Kept ps (State.clipBuckets s) := by
  unfold State.clipBuckets
  repeat' (first
    | with_reducible assumption | with_reducible exact Part.sub_trans hl (by decide)
    | (with_reducible refine (?_ : s0.Kept ps _); fail_if_no_progress extract_lets +onlyGivenNames y
       clear_value (hy : y = _))
    | with_reducible apply State.upFlow_kept | (intro t a ht; with_reducible refine (?_ : s0.Kept ps _))
    | with_reducible apply State.Kept.foldl
    | (intro p hp; cases p <;>
       first | exact absurd (hl _ (by decide)) hp | rfl)
    | with_reducible exact fun hv => hv | split | dsimp -zeta only
    | with_reducible refine State.Kept.lit ?_ ?_ ?_ ?_ ?_ ?_ ?_ ?_)

theorem State.mergeStep_kept {ps : List Part} {s0 s : State} (m : Nat) (f : Flow) (r : Option Rtp) (t : Int) (hl : ∀ p ∈ ([.regs, .merges, .counters] : List Part), p ∈ ps)
    (h : s0.Kept ps s) : s0.Kept ps (State.mergeStep s m f r t).1 := by
  unfold State.mergeStep
  repeat' (first
    | with_reducible assumption | with_reducible exact Part.sub_trans hl (by decide)
    | (with_reducible refine (?_ : s0.Kept ps _); fail_if_no_progress extract_lets +onlyGivenNames x
       refine (fun (_ : s0.Kept ps x) => ?_) ?_
       (on_goal 1 => clear_value x); (on_goal 2 => unfold x; clear x))
    | (with_reducible refine (?_ : s0.Kept ps _); fail_if_no_progress extract_lets +onlyGivenNames x
       refine (fun (_ : s0.Kept ps x.1) => ?_) ?_
       (on_goal 1 => clear_value x); (on_goal 2 => unfold x; clear x))
    | (with_reducible refine (?_ : s0.Kept ps _); fail_if_no_progress extract_lets +onlyGivenNames x
       refine (fun (_ : s0.Kept ps x.2) => ?_) ?_
       (on_goal 1 => clear_value x); (on_goal 2 => unfold x; clear x))
    | (with_reducible refine (?_ : s0.Kept ps _); fail_if_no_progress extract_lets +onlyGivenNames y
       clear_value (hy : y = _))
    | with_reducible apply State.countFlow_kept | with_reducible apply State.upMerge_kept
    | with_reducible apply State.setF_kept
    | (intro p hp; cases p <;>
       first | exact absurd (hl _ (by decide)) hp | rfl)
    | with_reducible exact fun hv => hv | split | dsimp -zeta only
    | with_reducible refine State.Kept.lit ?_ ?_ ?_ ?_ ?_ ?_ ?_ ?_)

theorem State.mergeStep_kept_eq {ps : List Part} {s0 s : State} {m : Nat} {f : Flow} {r : Option Rtp} {t : Int} {pp : State × Merged × SrcEvt} (hp : State.mergeStep s m f r t = pp) (hl : ∀ p ∈ ([.regs, .merges, .counters] : List Part), p ∈ ps)
    (h : s0.Kept ps s) : s0.Kept ps pp.1 := by
  subst hp; apply State.mergeStep_kept <;> assumption

theorem execMergeIdleExpiry_kept {ps : List Part} {s0 s : State} (group : Nat) (hl : ∀ p ∈ ([.merges] : List Part), p ∈ ps)
    (h : s0.Kept ps s) : ∃ t, execMergeIdleExpiry group s = .next t ∧ s0.Kept ps t := by
  refine ⟨_, rfl, ?_⟩
  repeat' (first
    | with_reducible assumption | with_reducible exact Part.sub_trans hl (by decide)
    | (with_reducible refine (?_ : s0.Kept ps _); fail_if_no_progress extract_lets +onlyGivenNames y
       clear_value (hy : y = _))
    | (intro p hp; cases p <;>
       first | exact absurd (hl _ (by decide)) hp | rfl)
    | with_reducible exact fun hv => hv | split
    | with_reducible refine State.Kept.lit ?_ ?_ ?_ ?_ ?_ ?_ ?_ ?_)

theorem State.cutDone_kept {ps : List Part} {s0 s : State} (g : Nat) (k : Nat) (hl : ∀ p ∈ reports, p ∈ ps)
    (h : s0.Kept ps s) : s0.Kept ps (State.cutDone s g k) := by
  unfold State.cutDone
  repeat' (first
    | with_reducible assumption | with_reducible exact Part.sub_trans hl (by decide)
    | with_reducible apply State.event_kept | dsimp -zeta only)

theorem State.cutFail_kept {ps : List Part} {s0 s : State} (g : Nat) (code : Nat) (hl : ∀ p ∈ reports, p ∈ ps)
    (h : s0.Kept ps s) : s0.Kept ps (State.cutFail s g code) := by
  unfold State.cutFail
  repeat' (first
    | with_reducible assumption | with_reducible exact Part.sub_trans hl (by decide)
    | with_reducible apply State.event_kept | with_reducible apply State.setF_kept | dsimp -zeta only)

theorem State.cutEnd_kept {ps : List Part} {s0 s : State} (g : Nat) (e : Int) (hl : ∀ p ∈ reports ++ [.cuts], p ∈ ps)
    (h : s0.Kept ps s) : s0.Kept ps (State.cutEnd s g e) := by
  unfold State.cutEnd
  repeat' (first
    | with_reducible assumption | with_reducible exact Part.sub_trans hl (by decide)
    | (with_reducible refine (?_ : s0.Kept ps _); fail_if_no_progress extract_lets +onlyGivenNames x
       refine (fun (_ : s0.Kept ps x) => ?_) ?_
       (on_goal 1 => clear_value x); (on_goal 2 => unfold x; clear x))
    | (with_reducible refine (?_ : s0.Kept ps _); fail_if_no_progress extract_lets +onlyGivenNames y
       clear_value (hy : y = _))
    | with_reducible apply State.cutDone_kept | with_reducible apply State.upCut_kept
    | (intro p hp; cases p <;>
       first | exact absurd (hl _ (by decide)) hp | rfl)
    | with_reducible exact fun hv => hv | split | dsimp -zeta only
    | with_reducible refine State.Kept.lit ?_ ?_ ?_ ?_ ?_ ?_ ?_ ?_)

theorem State.cutExpire_kept {ps : List Part} {s0 s : State} (g : Nat) (t : Int) (hl : ∀ p ∈ reports ++ [.cuts], p ∈ ps)
    (h : s0.Kept ps s) : s0.Kept ps (State.cutExpire s g t) := by
  unfold State.cutExpire
  repeat' (first
    | with_reducible assumption | with_reducible exact Part.sub_trans hl (by decide)
    | (with_reducible refine (?_ : s0.Kept ps _); fail_if_no_progress extract_lets +onlyGivenNames x
       refine (fun (_ : s0.Kept ps x) => ?_) ?_
       (on_goal 1 => clear_value x); (on_goal 2 => unfold x; clear x))
    | (with_reducible refine (?_ : s0.Kept ps _); fail_if_no_progress extract_lets +onlyGivenNames y
       clear_value (hy : y = _))
    | with_reducible apply State.cutEnd_kept | with_reducible apply State.upCut_kept
    | with_reducible apply State.cutFail_kept
    | (intro p hp; cases p <;>
       first | exact absurd (hl _ (by decide)) hp | rfl)
    | with_reducible exact fun hv => hv | split | dsimp -zeta only
    | with_reducible refine State.Kept.lit ?_ ?_ ?_ ?_ ?_ ?_ ?_ ?_)

theorem State.cutEnter_kept {ps : List Part} {s0 s : State} (g : Nat) (k : Nat) (hl : ∀ p ∈ reports ++ [.cuts], p ∈ ps)
    (h : s0.Kept ps s) : s0.Kept ps (State.cutEnter s g k) := by
  unfold State.cutEnter
  repeat' (first
    | with_reducible assumption | with_reducible exact Part.sub_trans hl (by decide)
    | (with_reducible refine (?_ : s0.Kept ps _); fail_if_no_progress extract_lets +onlyGivenNames y
       clear_value (hy : y = _))
    | with_reducible apply State.cutDone_kept | with_reducible apply State.upCut_kept
    | (intro p hp; cases p <;>
       first | exact absurd (hl _ (by decide)) hp | rfl)
    | with_reducible exact fun hv => hv | dsimp -zeta only
    | with_reducible refine State.Kept.lit ?_ ?_ ?_ ?_ ?_ ?_ ?_ ?_)

theorem State.cutFrame_kept {ps : List Part} {s0 s : State} (g : Nat) (k : Nat) (v : SrcEvt) (t : Int) (hl : ∀ p ∈ reports ++ [.cuts], p ∈ ps)
    (h : s0.Kept ps s) : s0.Kept ps (State.cutFrame s g k v t).1 := by
  unfold State.cutFrame
  repeat' (first
    | with_reducible assumption | with_reducible exact Part.sub_trans hl (by decide)
    | (with_reducible refine (?_ : s0.Kept ps _); fail_if_no_progress extract_lets +onlyGivenNames x
       refine (fun (_ : s0.Kept ps x) => ?_) ?_
       (on_goal 1 => clear_value x); (on_goal 2 => unfold x; clear x))
    | (with_reducible refine (?_ : s0.Kept ps _); fail_if_no_progress extract_lets +onlyGivenNames x
       refine (fun (_ : s0.Kept ps x.1) => ?_) ?_
       (on_goal 1 => clear_value x); (on_goal 2 => unfold x; clear x))
    | (with_reducible refine (?_ : s0.Kept ps _); fail_if_no_progress extract_lets +onlyGivenNames x
       refine (fun (_ : s0.Kept ps x.2) => ?_) ?_
       (on_goal 1 => clear_value x); (on_goal 2 => unfold x; clear x))
    | (with_reducible refine (?_ : s0.Kept ps _); fail_if_no_progress extract_lets +onlyGivenNames y
       clear_value (hy : y = _))
    | with_reducible apply State.cutExpire_kept | with_reducible apply State.cutEnd_kept
    | with_reducible apply State.cutEnter_kept | with_reducible apply State.upCut_kept
    | (intro p hp; cases p <;>
       first | exact absurd (hl _ (by decide)) hp | rfl)
    | with_reducible exact fun hv => hv | split | dsimp -zeta only
    | with_reducible refine State.Kept.lit ?_ ?_ ?_ ?_ ?_ ?_ ?_ ?_)

theorem State.cutFrame_kept_eq {ps : List Part} {s0 s : State} {g : Nat} {k : Nat} {v : SrcEvt} {t : Int} {pp : State × Bool} (hp : State.cutFrame s g k v t = pp) (hl : ∀ p ∈ reports ++ [.cuts], p ∈ ps)
    (h : s0.Kept ps s) : s0.Kept ps pp.1 := by
  subst hp; apply State.cutFrame_kept <;> assumption

theorem State.cutArm_kept {ps : List Part} {s0 s : State} (g : Nat) (n : Nat) (t : Int) (hl : ∀ p ∈ reports ++ [.cuts], p ∈ ps)
    (h : s0.Kept ps s) : s0.Kept ps (State.cutArm s g n t) := by
  unfold State.cutArm
  repeat' (first
    | with_reducible assumption | with_reducible exact Part.sub_trans hl (by decide)
    | (with_reducible refine (?_ : s0.Kept ps _); fail_if_no_progress extract_lets +onlyGivenNames x
       refine (fun (_ : s0.Kept ps x) => ?_) ?_
       (on_goal 1 => clear_value x); (on_goal 2 => unfold x; clear x))
    | (with_reducible refine (?_ : s0.Kept ps _); fail_if_no_progress extract_lets +onlyGivenNames y
       clear_value (hy : y = _))
    | with_reducible apply State.upCut_kept | with_reducible apply State.cutDone_kept
    | with_reducible apply State.cutFail_kept
    | (intro p hp; cases p <;>
       first | exact absurd (hl _ (by decide)) hp | rfl)
    | with_reducible exact fun hv => hv | split | dsimp -zeta only
    | with_reducible refine State.Kept.lit ?_ ?_ ?_ ?_ ?_ ?_ ?_ ?_)

theorem State.renumber_kept {ps : List Part} {s0 s : State} (g : Nat) (k : Nat) (r : Option Rtp) (hl : ∀ p ∈ ([.cuts] : List Part), p ∈ ps)
    (h : s0.Kept ps s) : s0.Kept ps (State.renumber s g k r).1 := by
  unfold State.renumber
  repeat' (first
    | with_reducible assumption | with_reducible exact Part.sub_trans hl (by decide)
    | (with_reducible refine (?_ : s0.Kept ps _); fail_if_no_progress extract_lets +onlyGivenNames x
       refine (fun (_ : s0.Kept ps x) => ?_) ?_
       (on_goal 1 => clear_value x); (on_goal 2 => unfold x; clear x))
    | (with_reducible refine (?_ : s0.Kept ps _); fail_if_no_progress extract_lets +onlyGivenNames x
       refine (fun (_ : s0.Kept ps x.1) => ?_) ?_
       (on_goal 1 => clear_value x); (on_goal 2 => unfold x; clear x))
    | (with_reducible refine (?_ : s0.Kept ps _); fail_if_no_progress extract_lets +onlyGivenNames x
       refine (fun (_ : s0.Kept ps x.2) => ?_) ?_
       (on_goal 1 => clear_value x); (on_goal 2 => unfold x; clear x))
    | (with_reducible refine (?_ : s0.Kept ps _); fail_if_no_progress extract_lets +onlyGivenNames y
       clear_value (hy : y = _))
    | with_reducible apply State.upCut_kept
    | (intro p hp; cases p <;>
       first | exact absurd (hl _ (by decide)) hp | rfl)
    | with_reducible exact fun hv => hv | split | dsimp -zeta only
    | with_reducible refine State.Kept.lit ?_ ?_ ?_ ?_ ?_ ?_ ?_ ?_)

theorem State.renumber_kept_eq {ps : List Part} {s0 s : State} {g : Nat} {k : Nat} {r : Option Rtp} {pp : State × Option Nat} (hp : State.renumber s g k r = pp) (hl : ∀ p ∈ ([.cuts] : List Part), p ∈ ps)
    (h : s0.Kept ps s) : s0.Kept ps pp.1 := by
  subst hp; apply State.renumber_kept <;> assumption

theorem State.sweepCuts_kept {ps : List Part} {s0 s : State}  (hl : ∀ p ∈ reports ++ [.cuts], p ∈ ps)
    (h : s0.Kept ps s) : s0.Kept ps (State.sweepCuts s) := by
  unfold State.sweepCuts
  repeat' (first
    | with_reducible assumption | with_reducible exact Part.sub_trans hl (by decide)
    | with_reducible apply State.cutExpire_kept
    | (intro t a ht; with_reducible refine (?_ : s0.Kept ps _)) | with_reducible apply State.Kept.foldl
    | dsimp -zeta only)

theorem execCutSweep_kept {ps : List Part} {s0 s : State}  (hl : ∀ p ∈ reports ++ [.cuts], p ∈ ps)
    (h : s0.Kept ps s) : ∃ t, execCutSweep s = .next t ∧ s0.Kept ps t := by
  refine ⟨_, rfl, ?_⟩
  repeat' (first
    | with_reducible assumption | with_reducible exact Part.sub_trans hl (by decide)
    | with_reducible apply State.sweepCuts_kept | split)

theorem State.media_kept {ps : List Part} {s0 s : State} (f : Flow) (h' : Hdr) (b : Bytes) (stamp : Nat) (hl : ∀ p ∈ reports ++ [.flowRt, .merges, .cuts], p ∈ ps)
    (h : s0.Kept ps s) : s0.Kept ps (State.media s f h' b stamp).1 := by
  unfold State.media
  repeat' (first
    | with_reducible assumption | with_reducible exact Part.sub_trans hl (by decide)
    | (with_reducible refine (?_ : s0.Kept ps _); fail_if_no_progress extract_lets +onlyGivenNames x
       refine (fun (_ : s0.Kept ps x) => ?_) ?_
       (on_goal 1 => clear_value x); (on_goal 2 => unfold x; clear x))
    | (with_reducible refine (?_ : s0.Kept ps _); fail_if_no_progress extract_lets +onlyGivenNames x
       refine (fun (_ : s0.Kept ps x.1) => ?_) ?_
       (on_goal 1 => clear_value x); (on_goal 2 => unfold x; clear x))
    | (with_reducible refine (?_ : s0.Kept ps _); fail_if_no_progress extract_lets +onlyGivenNames x
       refine (fun (_ : s0.Kept ps x.2) => ?_) ?_
       (on_goal 1 => clear_value x); (on_goal 2 => unfold x; clear x))
    | (with_reducible refine (?_ : s0.Kept ps _); fail_if_no_progress extract_lets +onlyGivenNames y
       clear_value (hy : y = _))
    | with_reducible apply State.cutExpire_kept | with_reducible apply State.countFlow_kept
    | with_reducible apply State.inspect_kept
    | with_reducible refine State.inspect_kept_eq (pp := (_, _)) (by assumption) ?_ ?_
    | with_reducible apply State.police_kept
    | with_reducible refine State.police_kept_eq (pp := (_, _)) (by assumption) ?_ ?_
    | with_reducible apply State.mergeStep_kept
    | with_reducible refine State.mergeStep_kept_eq (pp := (_, _)) (by assumption) ?_ ?_
    | with_reducible apply State.cutFrame_kept
    | with_reducible refine State.cutFrame_kept_eq (pp := (_, _)) (by assumption) ?_ ?_
    | with_reducible apply State.renumber_kept
    | with_reducible refine State.renumber_kept_eq (pp := (_, _)) (by assumption) ?_ ?_
    | (intro p hp; cases p <;>
       first | exact absurd (hl _ (by decide)) hp | rfl)
    | with_reducible exact fun hv => hv | split | dsimp -zeta only
    | with_reducible refine State.Kept.lit ?_ ?_ ?_ ?_ ?_ ?_ ?_ ?_)

theorem State.media_kept_eq {ps : List Part} {s0 s : State} {f : Flow} {h' : Hdr} {b : Bytes} {stamp : Nat} {pp : State × MediaOut} (hp : State.media s f h' b stamp = pp) (hl : ∀ p ∈ reports ++ [.flowRt, .merges, .cuts], p ∈ ps)
    (h : s0.Kept ps s) : s0.Kept ps pp.1 := by
  subst hp; apply State.media_kept <;> assumption

end Sys2Proof.Machine
end

