-- ==== Sys2Proof/Laws/KeptLookup.lean ====
section
/-!
SUPPORT. What the operations and meanings of Machine/Lookup.lean keep (`State.Kept`).
-/

set_option linter.all false
set_option linter.unusedTactic false
set_option linter.unreachableTactic false

namespace Sys2Proof.Machine

theorem State.stageMedia_kept {ps : List Part} {s0 s : State} (r : LkpResult) (f : Flow) (h' : Hdr) (b : Bytes) (stamp : Nat) (hl : ∀ p ∈ reports ++ [.flowRt, .merges, .cuts], p ∈ ps)
    (h : s0.Kept ps s) : s0.Kept ps (State.stageMedia s r f h' b stamp).1 := by
  unfold State.stageMedia
  repeat' (first
    | with_reducible assumption | with_reducible exact Part.sub_trans hl (by decide)
    | (with_reducible refine (?_ : s0.Kept ps _); fail_if_no_progress extract_lets +onlyGivenNames x
       refine (fun (_ : s0.Kept ps x) => ?_) ?_
       (on_goal 1 => clear_value x); (on_goal 2 => unfold x; clear x))
    | (with_reducible refine (?_ : s0.Kept ps _); fail_if_no_progress extract_lets +onlyGivenNames x
       refine (fun (_ : s0.Kept ps x.1) => ?_) ?_
       (on_goal 1 => clear_value x); (on_goal 2 => unfold x; clear x))
    | (with_reducible refine (?_ : s0.Kept ps _); fail_if_no_progress extract_lets +onlyGivenNames x
       refine (fun (_ : s0.Kept ps x.2) => ?_) ?_
       (on_goal 1 => clear_value x); (on_goal 2 => unfold x; clear x))
    | (with_reducible refine (?_ : s0.Kept ps _); fail_if_no_progress extract_lets +onlyGivenNames y
       clear_value (hy : y = _))
    | with_reducible apply State.media_kept
    | with_reducible refine State.media_kept_eq (pp := (_, _)) (by assumption) ?_ ?_
    | (intro p hp; cases p <;>
       first | exact absurd (hl _ (by decide)) hp | rfl)
    | with_reducible exact fun hv => hv | split | dsimp -zeta only
    | with_reducible refine State.Kept.lit ?_ ?_ ?_ ?_ ?_ ?_ ?_ ?_)

theorem State.stageMedia_kept_eq {ps : List Part} {s0 s : State} {r : LkpResult} {f : Flow} {h' : Hdr} {b : Bytes} {stamp : Nat} {pp : State × LkpResult × Bytes} (hp : State.stageMedia s r f h' b stamp = pp) (hl : ∀ p ∈ reports ++ [.flowRt, .merges, .cuts], p ∈ ps)
    (h : s0.Kept ps s) : s0.Kept ps pp.1 := by
  subst hp; apply State.stageMedia_kept <;> assumption

theorem State.decideFrame_kept {ps : List Part} {s0 s : State} (t : Nat) (p : Nat) (b : Bytes) (stamp : Nat) (hl : ∀ p ∈ reports ++ [.flowRt, .merges, .cuts], p ∈ ps)
    (h : s0.Kept ps s) : s0.Kept ps (State.decideFrame s t p b stamp).1 := by
  unfold State.decideFrame
  repeat' (first
    | with_reducible assumption | with_reducible exact Part.sub_trans hl (by decide)
    | (with_reducible refine (?_ : s0.Kept ps _); fail_if_no_progress extract_lets +onlyGivenNames x
       refine (fun (_ : s0.Kept ps x) => ?_) ?_
       (on_goal 1 => clear_value x); (on_goal 2 => unfold x; clear x))
    | (with_reducible refine (?_ : s0.Kept ps _); fail_if_no_progress extract_lets +onlyGivenNames x
       refine (fun (_ : s0.Kept ps x.1) => ?_) ?_
       (on_goal 1 => clear_value x); (on_goal 2 => unfold x; clear x))
    | (with_reducible refine (?_ : s0.Kept ps _); fail_if_no_progress extract_lets +onlyGivenNames x
       refine (fun (_ : s0.Kept ps x.2) => ?_) ?_
       (on_goal 1 => clear_value x); (on_goal 2 => unfold x; clear x))
    | (with_reducible refine (?_ : s0.Kept ps _); fail_if_no_progress extract_lets +onlyGivenNames y
       clear_value (hy : y = _))
    | with_reducible apply State.countS_kept | with_reducible apply State.stageMedia_kept
    | with_reducible refine State.stageMedia_kept_eq (pp := (_, _)) (by assumption) ?_ ?_
    | (intro p hp; cases p <;>
       first | exact absurd (hl _ (by decide)) hp | rfl)
    | with_reducible exact fun hv => hv | split | dsimp -zeta only
    | with_reducible refine State.Kept.lit ?_ ?_ ?_ ?_ ?_ ?_ ?_ ?_)

theorem State.decideFrame_kept_eq {ps : List Part} {s0 s : State} {t : Nat} {p : Nat} {b : Bytes} {stamp : Nat} {pp : State × LkpResult × Bytes} (hp : State.decideFrame s t p b stamp = pp) (hl : ∀ p ∈ reports ++ [.flowRt, .merges, .cuts], p ∈ ps)
    (h : s0.Kept ps s) : s0.Kept ps pp.1 := by
  subst hp; apply State.decideFrame_kept <;> assumption

theorem State.sendUnicast_kept {ps : List Part} {s0 s : State} (t : Nat) (j : Nat) (f : Frame) (hl : ∀ p ∈ ([.regs, .ports, .epochs, .tiles, .fabric, .acct, .counters] : List Part), p ∈ ps)
    (h : s0.Kept ps s) : s0.Kept ps (State.sendUnicast s t j f).1 := by
  unfold State.sendUnicast
  repeat' (first
    | with_reducible assumption | with_reducible exact Part.sub_trans hl (by decide)
    | (with_reducible refine (?_ : s0.Kept ps _); fail_if_no_progress extract_lets +onlyGivenNames x
       refine (fun (_ : s0.Kept ps x) => ?_) ?_
       (on_goal 1 => clear_value x); (on_goal 2 => unfold x; clear x))
    | (with_reducible refine (?_ : s0.Kept ps _); fail_if_no_progress extract_lets +onlyGivenNames x
       refine (fun (_ : s0.Kept ps x.1) => ?_) ?_
       (on_goal 1 => clear_value x); (on_goal 2 => unfold x; clear x))
    | (with_reducible refine (?_ : s0.Kept ps _); fail_if_no_progress extract_lets +onlyGivenNames x
       refine (fun (_ : s0.Kept ps x.2) => ?_) ?_
       (on_goal 1 => clear_value x); (on_goal 2 => unfold x; clear x))
    | (with_reducible refine (?_ : s0.Kept ps _); fail_if_no_progress extract_lets +onlyGivenNames y
       clear_value (hy : y = _))
    | with_reducible apply State.countIngress_kept | with_reducible apply State.admitCells_kept
    | with_reducible refine State.admitCells_kept_eq (pp := (_, _)) (by assumption) ?_ ?_
    | with_reducible apply State.pack_kept | with_reducible apply State.epochIn_kept
    | (intro p hp; cases p <;>
       first | exact absurd (hl _ (by decide)) hp | rfl)
    | with_reducible exact fun hv => hv | split | dsimp -zeta only
    | with_reducible refine State.Kept.lit ?_ ?_ ?_ ?_ ?_ ?_ ?_ ?_)

theorem State.sendUnicast_kept_eq {ps : List Part} {s0 s : State} {t : Nat} {j : Nat} {f : Frame} {pp : State × Nat} (hp : State.sendUnicast s t j f = pp) (hl : ∀ p ∈ ([.regs, .ports, .epochs, .tiles, .fabric, .acct, .counters] : List Part), p ∈ ps)
    (h : s0.Kept ps s) : s0.Kept ps pp.1 := by
  subst hp; apply State.sendUnicast_kept <;> assumption

theorem State.sendMulticast_kept {ps : List Part} {s0 s : State} (t : Nat) (f : Frame) (hl : ∀ p ∈ ([.regs, .ports, .epochs, .tiles, .fabric, .acct, .counters] : List Part), p ∈ ps)
    (h : s0.Kept ps s) : s0.Kept ps (State.sendMulticast s t f).1 := by
  unfold State.sendMulticast
  repeat' (first
    | with_reducible assumption | with_reducible exact Part.sub_trans hl (by decide)
    | (with_reducible refine (?_ : s0.Kept ps _); fail_if_no_progress extract_lets +onlyGivenNames x
       refine (fun (_ : s0.Kept ps x) => ?_) ?_
       (on_goal 1 => clear_value x); (on_goal 2 => unfold x; clear x))
    | (with_reducible refine (?_ : s0.Kept ps _); fail_if_no_progress extract_lets +onlyGivenNames x
       refine (fun (_ : s0.Kept ps x.1) => ?_) ?_
       (on_goal 1 => clear_value x); (on_goal 2 => unfold x; clear x))
    | (with_reducible refine (?_ : s0.Kept ps _); fail_if_no_progress extract_lets +onlyGivenNames x
       refine (fun (_ : s0.Kept ps x.2) => ?_) ?_
       (on_goal 1 => clear_value x); (on_goal 2 => unfold x; clear x))
    | (with_reducible refine (?_ : s0.Kept ps _); fail_if_no_progress extract_lets +onlyGivenNames y
       clear_value (hy : y = _))
    | with_reducible apply State.countIngress_kept | with_reducible apply State.admitCells_kept
    | with_reducible refine State.admitCells_kept_eq (pp := (_, _)) (by assumption) ?_ ?_
    | with_reducible apply State.pack_kept | with_reducible apply State.epochIn_kept
    | (intro p hp; cases p <;>
       first | exact absurd (hl _ (by decide)) hp | rfl)
    | with_reducible exact fun hv => hv | split | dsimp -zeta only
    | with_reducible refine State.Kept.lit ?_ ?_ ?_ ?_ ?_ ?_ ?_ ?_)

theorem State.sendMulticast_kept_eq {ps : List Part} {s0 s : State} {t : Nat} {f : Frame} {pp : State × Nat} (hp : State.sendMulticast s t f = pp) (hl : ∀ p ∈ ([.regs, .ports, .epochs, .tiles, .fabric, .acct, .counters] : List Part), p ∈ ps)
    (h : s0.Kept ps s) : s0.Kept ps pp.1 := by
  subst hp; apply State.sendMulticast_kept <;> assumption

theorem State.sampleIngress_kept {ps : List Part} {s0 s : State} (f : Frame) (hl : ∀ p ∈ ([.regs, .hmk, .free] : List Part), p ∈ ps)
    (h : s0.Kept ps s) : s0.Kept ps (State.sampleIngress s f) := by
  unfold State.sampleIngress
  repeat' (first
    | with_reducible assumption | with_reducible exact Part.sub_trans hl (by decide)
    | (with_reducible refine (?_ : s0.Kept ps _); fail_if_no_progress extract_lets +onlyGivenNames x
       refine (fun (_ : s0.Kept ps x) => ?_) ?_
       (on_goal 1 => clear_value x); (on_goal 2 => unfold x; clear x))
    | (with_reducible refine (?_ : s0.Kept ps _); fail_if_no_progress extract_lets +onlyGivenNames x
       refine (fun (_ : s0.Kept ps x.1) => ?_) ?_
       (on_goal 1 => clear_value x); (on_goal 2 => unfold x; clear x))
    | (with_reducible refine (?_ : s0.Kept ps _); fail_if_no_progress extract_lets +onlyGivenNames x
       refine (fun (_ : s0.Kept ps x.2) => ?_) ?_
       (on_goal 1 => clear_value x); (on_goal 2 => unfold x; clear x))
    | (with_reducible refine (?_ : s0.Kept ps _); fail_if_no_progress extract_lets +onlyGivenNames y
       clear_value (hy : y = _))
    | with_reducible apply State.draw_kept
    | with_reducible refine State.draw_kept_eq (pp := (_, _)) (by assumption) ?_ ?_
    | with_reducible apply State.sampleHdr_kept | split | dsimp -zeta only)

theorem State.stageSeven_kept {ps : List Part} {s0 s : State} (t : Nat) (f : Frame) (hl : ∀ p ∈ ([.regs, .ports, .epochs, .tiles, .fabric, .acct, .counters, .hmk, .free] : List Part), p ∈ ps)
    (h : s0.Kept ps s) : s0.Kept ps (State.stageSeven s t f).1 := by
  unfold State.stageSeven
  repeat' (first
    | with_reducible assumption | with_reducible exact Part.sub_trans hl (by decide)
    | (with_reducible refine (?_ : s0.Kept ps _); fail_if_no_progress extract_lets +onlyGivenNames x
       refine (fun (_ : s0.Kept ps x) => ?_) ?_
       (on_goal 1 => clear_value x); (on_goal 2 => unfold x; clear x))
    | (with_reducible refine (?_ : s0.Kept ps _); fail_if_no_progress extract_lets +onlyGivenNames x
       refine (fun (_ : s0.Kept ps x.1) => ?_) ?_
       (on_goal 1 => clear_value x); (on_goal 2 => unfold x; clear x))
    | (with_reducible refine (?_ : s0.Kept ps _); fail_if_no_progress extract_lets +onlyGivenNames x
       refine (fun (_ : s0.Kept ps x.2) => ?_) ?_
       (on_goal 1 => clear_value x); (on_goal 2 => unfold x; clear x))
    | (with_reducible refine (?_ : s0.Kept ps _); fail_if_no_progress extract_lets +onlyGivenNames y
       clear_value (hy : y = _))
    | with_reducible apply State.perf_kept | with_reducible apply State.sampleIngress_kept
    | with_reducible apply State.sendUnicast_kept
    | with_reducible refine State.sendUnicast_kept_eq (pp := (_, _)) (by assumption) ?_ ?_
    | with_reducible apply State.sendMulticast_kept
    | with_reducible refine State.sendMulticast_kept_eq (pp := (_, _)) (by assumption) ?_ ?_
    | with_reducible apply State.countIngress_kept
    | (intro p hp; cases p <;>
       first | exact absurd (hl _ (by decide)) hp | rfl)
    | with_reducible exact fun hv => hv | split | dsimp -zeta only
    | with_reducible refine State.Kept.lit ?_ ?_ ?_ ?_ ?_ ?_ ?_ ?_)

theorem State.stageSeven_kept_eq {ps : List Part} {s0 s : State} {t : Nat} {f : Frame} {pp : State × Nat} (hp : State.stageSeven s t f = pp) (hl : ∀ p ∈ ([.regs, .ports, .epochs, .tiles, .fabric, .acct, .counters, .hmk, .free] : List Part), p ∈ ps)
    (h : s0.Kept ps s) : s0.Kept ps pp.1 := by
  subst hp; apply State.stageSeven_kept <;> assumption

theorem State.lookupNext_kept {ps : List Part} {s0 s : State} (t : Nat) (hl : ∀ p ∈ reports ++ [.ports, .epochs, .tiles, .fabric, .acct, .flowRt, .merges, .cuts, .free], p ∈ ps)
    (h : s0.Kept ps s) : s0.Kept ps (State.lookupNext s t) := by
  unfold State.lookupNext
  repeat' (first
    | with_reducible assumption | with_reducible exact Part.sub_trans hl (by decide)
    | (with_reducible refine (?_ : s0.Kept ps _); fail_if_no_progress extract_lets +onlyGivenNames x
       refine (fun (_ : s0.Kept ps x) => ?_) ?_
       (on_goal 1 => clear_value x); (on_goal 2 => unfold x; clear x))
    | (with_reducible refine (?_ : s0.Kept ps _); fail_if_no_progress extract_lets +onlyGivenNames x
       refine (fun (_ : s0.Kept ps x.1) => ?_) ?_
       (on_goal 1 => clear_value x); (on_goal 2 => unfold x; clear x))
    | (with_reducible refine (?_ : s0.Kept ps _); fail_if_no_progress extract_lets +onlyGivenNames x
       refine (fun (_ : s0.Kept ps x.2) => ?_) ?_
       (on_goal 1 => clear_value x); (on_goal 2 => unfold x; clear x))
    | (with_reducible refine (?_ : s0.Kept ps _); fail_if_no_progress extract_lets +onlyGivenNames y
       clear_value (hy : y = _))
    | with_reducible apply State.upTile_kept | with_reducible apply State.decideFrame_kept
    | with_reducible refine State.decideFrame_kept_eq (pp := (_, _)) (by assumption) ?_ ?_
    | with_reducible apply State.stageSeven_kept
    | with_reducible refine State.stageSeven_kept_eq (pp := (_, _)) (by assumption) ?_ ?_
    | with_reducible apply State.txComplete_kept
    | (intro p hp; cases p <;>
       first | exact absurd (hl _ (by decide)) hp | rfl)
    | with_reducible exact fun hv => hv | split | dsimp -zeta only
    | with_reducible refine State.Kept.lit ?_ ?_ ?_ ?_ ?_ ?_ ?_ ?_)

theorem execLookup_kept {ps : List Part} {s0 s : State} (tile : Nat) (hl : ∀ p ∈ reports ++ [.ports, .epochs, .tiles, .fabric, .acct, .flowRt, .merges, .cuts, .free], p ∈ ps)
    (h : s0.Kept ps s) : ∃ t, execLookup tile s = .next t ∧ s0.Kept ps t := by
  refine ⟨_, rfl, ?_⟩
  repeat' (first
    | with_reducible assumption | with_reducible exact Part.sub_trans hl (by decide)
    | with_reducible apply State.lookupNext_kept | split)

end Sys2Proof.Machine
end

