-- ==== Sys2Proof/Laws/KeptHostIf.lean ====
section
/-!
SUPPORT. What the operations and meanings of Machine/HostIf.lean keep (`State.Kept`).
-/

set_option linter.all false
set_option linter.unusedTactic false
set_option linter.unreachableTactic false

namespace Sys2Proof.Machine

theorem leNat_lt (b : Bytes) : leNat b < 256 ^ b.length := by
  induction b with
  | nil => decide
  | cons x t ih =>
    have := x.isLt
    simp only [leNat, List.length_cons, Nat.pow_succ]
    omega

/-- A number in four bytes is a doubleword. -/
theorem leAt_lt (b : Bytes) (off : Nat) : leAt b off 4 < 4294967296 := by
  have h := leNat_lt (slice b off 4)
  have hl : (slice b off 4).length ≤ 4 := by simp [slice]
  exact Nat.lt_of_lt_of_le h (Nat.pow_le_pow_right (by decide) hl)

theorem State.orphanCmds_kept {ps : List Part} {s0 s : State} (n : Nat) (hl : ∀ p ∈ ([.fw] : List Part), p ∈ ps)
    (h : s0.Kept ps s) : s0.Kept ps (State.orphanCmds s n) := by
  unfold State.orphanCmds
  repeat' (first
    | with_reducible assumption | with_reducible exact Part.sub_trans hl (by decide)
    | (with_reducible refine (?_ : s0.Kept ps _); fail_if_no_progress extract_lets +onlyGivenNames x
       refine (fun (_ : s0.Kept ps x) => ?_) ?_
       (on_goal 1 => clear_value x); (on_goal 2 => unfold x; clear x))
    | (with_reducible refine (?_ : s0.Kept ps _); fail_if_no_progress extract_lets +onlyGivenNames y
       clear_value (hy : y = _))
    | (intro p hp; cases p <;>
       first | exact absurd (hl _ (by decide)) hp | rfl)
    | with_reducible exact fun hv => hv | split | dsimp -zeta only
    | with_reducible refine State.Kept.lit ?_ ?_ ?_ ?_ ?_ ?_ ?_ ?_)

theorem State.enableRing_kept {ps : List Part} {s0 s : State} (n : Nat) (hl : ∀ p ∈ ([.regs, .rings, .fw] : List Part), p ∈ ps)
    (h : s0.Kept ps s) : s0.Kept ps (State.enableRing s n) := by
  unfold State.enableRing
  repeat' (first
    | with_reducible assumption | with_reducible exact Part.sub_trans hl (by decide)
    | (with_reducible refine (?_ : s0.Kept ps _); fail_if_no_progress extract_lets +onlyGivenNames x
       refine (fun (_ : s0.Kept ps x) => ?_) ?_
       (on_goal 1 => clear_value x); (on_goal 2 => unfold x; clear x))
    | (with_reducible refine (?_ : s0.Kept ps _); fail_if_no_progress extract_lets +onlyGivenNames y
       clear_value (hy : y = _))
    | with_reducible apply State.setF_kept | with_reducible apply State.orphanCmds_kept
    | with_reducible apply State.ringFail_kept
    | (intro p hp; cases p <;>
       first | exact absurd (hl _ (by decide)) hp | rfl)
    | with_reducible exact fun hv => hv
    | (intro hv; refine Tab.all_set (P := Ring.ok) _ _ _ hv ?_; simp [Ring.ok]) | split
    | with_reducible refine State.Kept.lit ?_ ?_ ?_ ?_ ?_ ?_ ?_ ?_)

theorem execRingEnable_kept {ps : List Part} {s0 s : State} (path : Path) (ring : Nat) (hl : ∀ p ∈ ([.regs, .rings, .fw] : List Part), p ∈ ps)
    (h : s0.Kept ps s) : ∃ t, execRingEnable path ring s = .next t ∧ s0.Kept ps t := by
  refine ⟨_, rfl, ?_⟩
  repeat' (first
    | with_reducible assumption | with_reducible exact Part.sub_trans hl (by decide)
    | with_reducible apply State.enableRing_kept | split)

theorem State.settleBufs_kept {ps : List Part} {s0 : State} (hl : ∀ p ∈ reports, p ∈ ps)
    (fuel : Nat) : ∀ {s : State} (n : Nat) (_ : s0.Kept ps s),
    s0.Kept ps (State.settleBufs s n fuel) := by
  induction fuel with
  | zero => intros; assumption
  | succ fuel ih =>
    intros
    rw [State.settleBufs]
    repeat' (first
      | with_reducible assumption | with_reducible exact Part.sub_trans hl (by decide)
      | (with_reducible refine (?_ : s0.Kept ps _); fail_if_no_progress extract_lets +onlyGivenNames y
         clear_value (hy : y = _))
      | with_reducible apply ih | with_reducible apply State.complete_kept
      | with_reducible apply State.upRing_kept
      | (intro p hp; cases p <;>
         first | exact absurd (hl _ (by decide)) hp | rfl)
      | with_reducible exact fun hv => hv
      | (intro r hr; first | exact hr | (revert hr; simp only [Ring.ok] <;> omega)) | split
      | dsimp -zeta only | with_reducible refine State.Kept.lit ?_ ?_ ?_ ?_ ?_ ?_ ?_ ?_)

theorem State.rxTruncate_kept {ps : List Part} {s0 s : State} (n : Nat) (hl : ∀ p ∈ ([.regs, .rings, .ports, .epochs, .acct, .counters, .out] : List Part), p ∈ ps)
    (h : s0.Kept ps s) : s0.Kept ps (State.rxTruncate s n) := by
  unfold State.rxTruncate
  repeat' (first
    | with_reducible assumption | with_reducible exact Part.sub_trans hl (by decide)
    | (with_reducible refine (?_ : s0.Kept ps _); fail_if_no_progress extract_lets +onlyGivenNames x
       refine (fun (_ : s0.Kept ps x) => ?_) ?_
       (on_goal 1 => clear_value x); (on_goal 2 => unfold x; clear x))
    | (with_reducible refine (?_ : s0.Kept ps _); fail_if_no_progress extract_lets +onlyGivenNames y
       clear_value (hy : y = _))
    | with_reducible apply State.upRing_kept | with_reducible apply State.emit_kept
    | with_reducible apply State.countS_kept | with_reducible apply State.finish_kept
    | (intro p hp; cases p <;>
       first | exact absurd (hl _ (by decide)) hp | rfl)
    | with_reducible exact fun hv => hv
    | (intro r hr; first | exact hr | (revert hr; simp only [Ring.ok] <;> omega)) | split
    | dsimp -zeta only | with_reducible refine State.Kept.lit ?_ ?_ ?_ ?_ ?_ ?_ ?_ ?_)

theorem State.rxFill_kept {ps : List Part} {s0 : State} (hl : ∀ p ∈ reports ++ [.ports, .epochs, .acct], p ∈ ps)
    (fuel : Nat) : ∀ {s : State} (n : Nat) (f : Frame) (got : Nat) (_ : s0.Kept ps s),
    s0.Kept ps (State.rxFill s n f got fuel) := by
  induction fuel with
  | zero => intros; assumption
  | succ fuel ih =>
    intros
    rw [State.rxFill]
    repeat' (first
      | with_reducible assumption | with_reducible exact Part.sub_trans hl (by decide)
      | (with_reducible refine (?_ : s0.Kept ps _); fail_if_no_progress extract_lets +onlyGivenNames x
         refine (fun (_ : s0.Kept ps x) => ?_) ?_
         (on_goal 1 => clear_value x); (on_goal 2 => unfold x; clear x))
      | (with_reducible refine (?_ : s0.Kept ps _); fail_if_no_progress extract_lets +onlyGivenNames y
         clear_value (hy : y = _))
      | with_reducible apply ih | with_reducible apply State.settleBufs_kept
      | with_reducible apply State.upRing_kept | with_reducible apply State.dmaWrite_kept
      | with_reducible apply State.emit_kept | with_reducible apply State.complete_kept
      | with_reducible apply State.finish_kept
      | (intro p hp; cases p <;>
         first | exact absurd (hl _ (by decide)) hp | rfl)
      | with_reducible exact fun hv => hv
      | (intro r hr; first | exact hr | (revert hr; simp only [Ring.ok] <;> omega)) | split
      | dsimp -zeta only | with_reducible refine State.Kept.lit ?_ ?_ ?_ ?_ ?_ ?_ ?_ ?_)

theorem State.rxHold_kept {ps : List Part} {s0 s : State} (n : Nat) (hl : ∀ p ∈ ([.regs, .rings, .ports, .epochs, .acct, .counters, .out] : List Part), p ∈ ps)
    (h : s0.Kept ps s) : s0.Kept ps (State.rxHold s n) := by
  unfold State.rxHold
  repeat' (first
    | with_reducible assumption | with_reducible exact Part.sub_trans hl (by decide)
    | with_reducible apply State.rxTruncate_kept | split)

theorem State.rxServe_kept {ps : List Part} {s0 : State} (hl : ∀ p ∈ reports ++ [.ports, .epochs, .acct, .queues], p ∈ ps)
    (fuel : Nat) : ∀ {s : State}  (_ : s0.Kept ps s),
    s0.Kept ps (State.rxServe s fuel) := by
  induction fuel with
  | zero => intros; assumption
  | succ fuel ih =>
    intros
    rw [State.rxServe]
    repeat' (first
      | with_reducible assumption | with_reducible exact Part.sub_trans hl (by decide)
      | (with_reducible refine (?_ : s0.Kept ps _); fail_if_no_progress extract_lets +onlyGivenNames x
         refine (fun (_ : s0.Kept ps x) => ?_) ?_
         (on_goal 1 => clear_value x); (on_goal 2 => unfold x; clear x))
      | (with_reducible refine (?_ : s0.Kept ps _); fail_if_no_progress extract_lets +onlyGivenNames y
         clear_value (hy : y = _))
      | with_reducible apply ih | with_reducible apply State.upQueue_kept
      | with_reducible apply State.dropEgress_kept | with_reducible apply State.countS_kept
      | with_reducible apply State.rxHold_kept | with_reducible apply State.rxFill_kept
      | (intro p hp; cases p <;>
         first | exact absurd (hl _ (by decide)) hp | rfl)
      | with_reducible exact fun hv => hv | split | dsimp -zeta only
      | with_reducible refine State.Kept.lit ?_ ?_ ?_ ?_ ?_ ?_ ?_ ?_)

theorem execRxFrameWrite_kept {ps : List Part} {s0 s : State}  (hl : ∀ p ∈ reports ++ [.ports, .epochs, .acct, .queues], p ∈ ps)
    (h : s0.Kept ps s) : ∃ t, execRxFrameWrite s = .next t ∧ s0.Kept ps t := by
  refine ⟨_, rfl, ?_⟩
  repeat' (first
    | with_reducible assumption | with_reducible exact Part.sub_trans hl (by decide)
    | with_reducible apply State.rxServe_kept | split)

theorem execRxHoldExpiry_kept {ps : List Part} {s0 s : State} (ring : Nat) (hl : ∀ p ∈ ([.regs, .rings, .ports, .epochs, .acct, .counters, .out] : List Part), p ∈ ps)
    (h : s0.Kept ps s) : ∃ t, execRxHoldExpiry ring s = .next t ∧ s0.Kept ps t := by
  refine ⟨_, rfl, ?_⟩
  repeat' (first
    | with_reducible assumption | with_reducible exact Part.sub_trans hl (by decide)
    | with_reducible apply State.rxTruncate_kept)

theorem State.txRefuse_kept {ps : List Part} {s0 s : State} (n : Nat) (ds : List Desc) (status : Nat) (hl : ∀ p ∈ reports, p ∈ ps)
    (h : s0.Kept ps s) : s0.Kept ps (State.txRefuse s n ds status) := by
  unfold State.txRefuse
  repeat' (first
    | with_reducible assumption | with_reducible exact Part.sub_trans hl (by decide)
    | with_reducible apply State.complete_kept
    | (intro t a ht; with_reducible refine (?_ : s0.Kept ps _)) | with_reducible apply State.Kept.foldl
    | dsimp -zeta only)

theorem State.settleTx_kept {ps : List Part} {s0 : State} (hl : ∀ p ∈ reports, p ∈ ps)
    (fuel : Nat) : ∀ {s : State} (n : Nat) (_ : s0.Kept ps s),
    s0.Kept ps (State.settleTx s n fuel) := by
  induction fuel with
  | zero => intros; assumption
  | succ fuel ih =>
    intros
    rw [State.settleTx]
    repeat' (first
      | with_reducible assumption | with_reducible exact Part.sub_trans hl (by decide)
      | (with_reducible refine (?_ : s0.Kept ps _); fail_if_no_progress extract_lets +onlyGivenNames x
         refine (fun (_ : s0.Kept ps x) => ?_) ?_
         (on_goal 1 => clear_value x); (on_goal 2 => unfold x; clear x))
      | (with_reducible refine (?_ : s0.Kept ps _); fail_if_no_progress extract_lets +onlyGivenNames y
         clear_value (hy : y = _))
      | with_reducible apply ih | with_reducible apply State.upRing_kept
      | with_reducible apply State.txRefuse_kept
      | (intro p hp; cases p <;>
         first | exact absurd (hl _ (by decide)) hp | rfl)
      | with_reducible exact fun hv => hv
      | (intro r hr; first | exact hr | (revert hr; simp only [Ring.ok] <;> omega)) | split
      | dsimp -zeta only | with_reducible refine State.Kept.lit ?_ ?_ ?_ ?_ ?_ ?_ ?_ ?_)

theorem State.settleRing_kept {ps : List Part} {s0 s : State} (n : Nat) (hl : ∀ p ∈ reports ++ [.ports, .epochs, .acct], p ∈ ps)
    (h : s0.Kept ps s) : s0.Kept ps (State.settleRing s n) := by
  unfold State.settleRing
  repeat' (first
    | with_reducible assumption | with_reducible exact Part.sub_trans hl (by decide)
    | (with_reducible refine (?_ : s0.Kept ps _); fail_if_no_progress extract_lets +onlyGivenNames x
       refine (fun (_ : s0.Kept ps x) => ?_) ?_
       (on_goal 1 => clear_value x); (on_goal 2 => unfold x; clear x))
    | (with_reducible refine (?_ : s0.Kept ps _); fail_if_no_progress extract_lets +onlyGivenNames y
       clear_value (hy : y = _))
    | with_reducible apply State.settleTx_kept | with_reducible apply State.settleBufs_kept
    | with_reducible apply State.rxHold_kept | with_reducible apply State.rxFill_kept
    | with_reducible apply State.settleCmds_kept | split
    | with_reducible refine State.Kept.lit ?_ ?_ ?_ ?_ ?_ ?_ ?_ ?_)

theorem State.fetchDescs_kept {ps : List Part} {s0 s : State} (n : Nat) (descs : List Bytes)
    (hl : ∀ p ∈ reports ++ [.ports, .epochs, .acct], p ∈ ps) (h : s0.Kept ps s) : s0.Kept ps (s.fetchDescs n descs) := by
  unfold State.fetchDescs
  split
  · extract_lets avail new x
    refine State.settleRing_kept _ (Part.sub_trans hl (by decide)) ?_
    refine State.Kept.foldl _ _ h (fun t i ht => ?_)
    refine State.upRing_kept _ _ (Part.sub_trans hl (by decide)) (State.dmaRead_kept _ _ (Part.sub_trans hl (by decide)) (State.perf_kept _ _ (Part.sub_trans hl (by decide)) ht)) (fun r hr => ?_)
    exact ⟨hr.1, hr.2.1, Nat.mod_lt _ (by decide)⟩
  · exact h

theorem execDescriptorFetch_kept {ps : List Part} {s0 s : State} (ring : Nat) (descs : List Bytes) (hl : ∀ p ∈ reports ++ [.ports, .epochs, .acct], p ∈ ps)
    (h : s0.Kept ps s) : ∃ t, execDescriptorFetch ring descs s = .next t ∧ s0.Kept ps t := by
  refine ⟨_, rfl, ?_⟩
  repeat' (first
    | with_reducible assumption | with_reducible exact Part.sub_trans hl (by decide)
    | with_reducible apply State.fetchDescs_kept)

theorem State.preAdd_kept {ps : List Part} {s0 s : State} (t : Nat) (x : PreFrame) (hl : ∀ p ∈ ([.tiles] : List Part), p ∈ ps)
    (h : s0.Kept ps s) : s0.Kept ps (State.preAdd s t x) := by
  unfold State.preAdd
  repeat' (first
    | with_reducible assumption | with_reducible exact Part.sub_trans hl (by decide)
    | (with_reducible refine (?_ : s0.Kept ps _); fail_if_no_progress extract_lets +onlyGivenNames y
       clear_value (hy : y = _))
    | with_reducible apply State.upTile_kept
    | (intro p hp; cases p <;>
       first | exact absurd (hl _ (by decide)) hp | rfl)
    | with_reducible exact fun hv => hv | dsimp -zeta only
    | with_reducible refine State.Kept.lit ?_ ?_ ?_ ?_ ?_ ?_ ?_ ?_)

theorem State.dmaReads_kept {ps : List Part} {s0 s : State} (f : Nat) (addr : Nat) (len : Nat) (hl : ∀ p ∈ ([.regs, .hmk] : List Part), p ∈ ps)
    (h : s0.Kept ps s) : s0.Kept ps (State.dmaReads s f addr len) := by
  unfold State.dmaReads
  repeat' (first
    | with_reducible assumption | with_reducible exact Part.sub_trans hl (by decide)
    | with_reducible apply State.dmaRead_kept
    | (intro t a ht; with_reducible refine (?_ : s0.Kept ps _)) | with_reducible apply State.Kept.foldl
    | dsimp -zeta only)

theorem State.txData_kept {ps : List Part} {s0 s : State} (n : Nat) (data : Bytes)
    (hl : ∀ p ∈ reports ++ [.ports, .epochs, .tiles, .acct, .queues, .free], p ∈ ps) (h : s0.Kept ps s) : s0.Kept ps (s.txData n data) := by
  unfold State.txData
  split
  · split
    · exact h
    · split
      · exact h
      · extract_lets b fn tx take next x
        have htake : ∀ t, s0.Kept ps t → s0.Kept ps (take t) :=
          fun t ht => State.upRing_kept _ _ (Part.sub_trans hl (by decide)) ht (fun r hr => hr)
        have hnext : ∀ t, s0.Kept ps t → s0.Kept ps (next t) := fun t ht => by
          apply State.settleTx_kept
          · exact (Part.sub_trans hl (by decide))
          · exact ht
        have hx : s0.Kept ps x := State.Kept.foldl _ _ h (fun t a ht => State.dmaReads_kept _ _ _ (Part.sub_trans hl (by decide)) ht)
        clear_value take next x
        repeat' (first
          | with_reducible assumption | with_reducible exact Part.sub_trans hl (by decide)
          | (with_reducible refine (?_ : s0.Kept ps _); fail_if_no_progress extract_lets +onlyGivenNames x
             refine (fun (_ : s0.Kept ps x) => ?_) ?_
             (on_goal 1 => clear_value x); (on_goal 2 => unfold x; clear x))
          | (with_reducible refine (?_ : s0.Kept ps _); fail_if_no_progress extract_lets +onlyGivenNames x
             refine (fun (_ : s0.Kept ps x.1) => ?_) ?_
             (on_goal 1 => clear_value x); (on_goal 2 => unfold x; clear x))
          | (with_reducible refine (?_ : s0.Kept ps _); fail_if_no_progress extract_lets +onlyGivenNames x
             refine (fun (_ : s0.Kept ps x.2) => ?_) ?_
             (on_goal 1 => clear_value x); (on_goal 2 => unfold x; clear x))
          | (with_reducible refine (?_ : s0.Kept ps _); fail_if_no_progress extract_lets +onlyGivenNames x
             refine State.Kept.cutMap (l := ps) (s0 := s0) x (fun hmap => ?_) ?_
             (on_goal 1 => clear_value x); (on_goal 2 => intro r hr; unfold x; clear x; try beta_reduce))
          | with_reducible apply hmap
          | (with_reducible refine (?_ : s0.Kept ps _); fail_if_no_progress extract_lets +onlyGivenNames x
             refine State.Kept.cutFun (l := ps) (s0 := s0) x (fun hfun => ?_) ?_
             (on_goal 1 => clear_value x); (on_goal 2 => intro r; unfold x; clear x; try beta_reduce))
          | with_reducible apply hfun
          | (with_reducible refine (?_ : s0.Kept ps _); fail_if_no_progress extract_lets +onlyGivenNames y
             clear_value (hy : y = _))
          | with_reducible apply htake | with_reducible apply hnext | with_reducible apply State.upRing_kept
          | with_reducible apply State.settleTx_kept | with_reducible apply State.dmaReads_kept
          | with_reducible apply State.txRefuse_kept | with_reducible apply State.draw_kept
          | with_reducible refine State.draw_kept_eq (pp := (_, _)) (by assumption) ?_ ?_
          | with_reducible apply State.preAdd_kept | with_reducible apply State.enqueueLaunch_kept
          | with_reducible apply State.enqueue_kept
          | (intro t a ht; with_reducible refine (?_ : s0.Kept ps _)) | with_reducible apply State.Kept.foldl
          | with_reducible apply State.Kept.foldlFst | with_reducible apply State.Kept.foldlSnd
          | (intro p hp; cases p <;>
             first | exact absurd (hl _ (by decide)) hp | rfl)
          | with_reducible exact fun hv => hv
          | (intro r hr; first | exact hr | (revert hr; simp only [Ring.ok] <;> omega)) | split
          | dsimp -zeta only | with_reducible refine State.Kept.lit ?_ ?_ ?_ ?_ ?_ ?_ ?_ ?_)
  · exact h

theorem execTxFrameDataRead_kept {ps : List Part} {s0 s : State} (ring : Nat) (data : Bytes) (hl : ∀ p ∈ reports ++ [.ports, .epochs, .tiles, .acct, .queues, .free], p ∈ ps)
    (h : s0.Kept ps s) : ∃ t, execTxFrameDataRead ring data s = .next t ∧ s0.Kept ps t := by
  refine ⟨_, rfl, ?_⟩
  repeat' (first
    | with_reducible assumption | with_reducible exact Part.sub_trans hl (by decide)
    | with_reducible apply State.txData_kept | split)

theorem State.disableRing_kept {ps : List Part} {s0 s : State} (n : Nat) (hl : ∀ p ∈ reports ++ [.ports, .epochs, .acct], p ∈ ps)
    (h : s0.Kept ps s) : s0.Kept ps (State.disableRing s n) := by
  unfold State.disableRing
  repeat' (first
    | with_reducible assumption | with_reducible exact Part.sub_trans hl (by decide)
    | (with_reducible refine (?_ : s0.Kept ps _); fail_if_no_progress extract_lets +onlyGivenNames x
       refine (fun (_ : s0.Kept ps x) => ?_) ?_
       (on_goal 1 => clear_value x); (on_goal 2 => unfold x; clear x))
    | (with_reducible refine (?_ : s0.Kept ps _); fail_if_no_progress extract_lets +onlyGivenNames y
       clear_value (hy : y = _))
    | with_reducible apply State.setF_kept | with_reducible apply State.upRing_kept
    | with_reducible apply State.txRefuse_kept | with_reducible apply State.rxTruncate_kept
    | with_reducible apply State.complete_kept
    | (intro t a ht; with_reducible refine (?_ : s0.Kept ps _)) | with_reducible apply State.Kept.foldl
    | (intro p hp; cases p <;>
       first | exact absurd (hl _ (by decide)) hp | rfl)
    | with_reducible exact fun hv => hv
    | (intro r hr; first | exact hr | (revert hr; simp only [Ring.ok] <;> omega)) | split
    | dsimp -zeta only | with_reducible refine State.Kept.lit ?_ ?_ ?_ ?_ ?_ ?_ ?_ ?_)

theorem execRingDisable_kept {ps : List Part} {s0 s : State} (path : Path) (ring : Nat) (hl : ∀ p ∈ reports ++ [.ports, .epochs, .acct], p ∈ ps)
    (h : s0.Kept ps s) : ∃ t, execRingDisable path ring s = .next t ∧ s0.Kept ps t := by
  refine ⟨_, rfl, ?_⟩
  repeat' (first
    | with_reducible assumption | with_reducible exact Part.sub_trans hl (by decide)
    | with_reducible apply State.disableRing_kept | split)

theorem State.stopRing_kept {ps : List Part} {s0 s : State} (n : Nat) (hl : ∀ p ∈ ([.regs, .rings, .fns] : List Part), p ∈ ps)
    (h : s0.Kept ps s) : s0.Kept ps (State.stopRing s n) := by
  unfold State.stopRing
  repeat' (first
    | with_reducible assumption | with_reducible exact Part.sub_trans hl (by decide)
    | (with_reducible refine (?_ : s0.Kept ps _); fail_if_no_progress extract_lets +onlyGivenNames x
       refine (fun (_ : s0.Kept ps x) => ?_) ?_
       (on_goal 1 => clear_value x); (on_goal 2 => unfold x; clear x))
    | (with_reducible refine (?_ : s0.Kept ps _); fail_if_no_progress extract_lets +onlyGivenNames y
       clear_value (hy : y = _))
    | with_reducible apply State.upRing_kept | with_reducible apply State.setF_kept
    | with_reducible apply State.upFn_kept
    | (intro p hp; cases p <;>
       first | exact absurd (hl _ (by decide)) hp | rfl)
    | with_reducible exact fun hv => hv
    | (intro r hr; first | exact hr | (revert hr; simp only [Ring.ok] <;> omega)) | split
    | dsimp -zeta only | with_reducible refine State.Kept.lit ?_ ?_ ?_ ?_ ?_ ?_ ?_ ?_)

theorem execRingStopped_kept {ps : List Part} {s0 s : State} (ring : Nat) (hl : ∀ p ∈ ([.regs, .rings, .fns] : List Part), p ∈ ps)
    (h : s0.Kept ps s) : ∃ t, execRingStopped ring s = .next t ∧ s0.Kept ps t := by
  refine ⟨_, rfl, ?_⟩
  repeat' (first
    | with_reducible assumption | with_reducible exact Part.sub_trans hl (by decide)
    | with_reducible apply State.stopRing_kept)

theorem State.skipScan_kept {ps : List Part} {s0 s : State}  (hl : ∀ p ∈ ([.regs] : List Part), p ∈ ps)
    (h : s0.Kept ps s) : s0.Kept ps (State.skipScan s) := by
  unfold State.skipScan
  repeat' (first
    | with_reducible assumption | with_reducible exact Part.sub_trans hl (by decide)
    | with_reducible apply State.addF_kept)

theorem State.scan_kept {ps : List Part} {s0 s : State} (f : Nat) (hl : ∀ p ∈ ([.regs, .fns, .hmk, .out] : List Part), p ∈ ps)
    (h : s0.Kept ps s) : s0.Kept ps (State.scan s f) := by
  unfold State.scan
  repeat' (first
    | with_reducible assumption | with_reducible exact Part.sub_trans hl (by decide)
    | (with_reducible refine (?_ : s0.Kept ps _); fail_if_no_progress extract_lets +onlyGivenNames x
       refine (fun (_ : s0.Kept ps x) => ?_) ?_
       (on_goal 1 => clear_value x); (on_goal 2 => unfold x; clear x))
    | (with_reducible refine (?_ : s0.Kept ps _); fail_if_no_progress extract_lets +onlyGivenNames y
       clear_value (hy : y = _))
    | with_reducible apply State.skipScan_kept | with_reducible apply State.emit_kept
    | with_reducible apply State.upFn_kept | with_reducible apply State.perf_kept
    | with_reducible apply State.dmaRead_kept
    | (intro t a ht; with_reducible refine (?_ : s0.Kept ps _)) | with_reducible apply State.Kept.foldl
    | (intro p hp; cases p <;>
       first | exact absurd (hl _ (by decide)) hp | rfl)
    | with_reducible exact fun hv => hv | split | dsimp -zeta only
    | with_reducible refine State.Kept.lit ?_ ?_ ?_ ?_ ?_ ?_ ?_ ?_)

theorem execDoorbellScan_kept {ps : List Part} {s0 s : State} (fn : Nat) (hl : ∀ p ∈ ([.regs, .fns, .hmk, .out] : List Part), p ∈ ps)
    (h : s0.Kept ps s) : ∃ t, execDoorbellScan fn s = .next t ∧ s0.Kept ps t := by
  refine ⟨_, rfl, ?_⟩
  repeat' (first
    | with_reducible assumption | with_reducible exact Part.sub_trans hl (by decide)
    | with_reducible apply State.scan_kept)

theorem State.doorbell_kept {ps : List Part} {s0 s : State} (f n index gen : Nat) (hi : index < 4294967296)
    (hl : ∀ p ∈ reports ++ [.free], p ∈ ps) (h : s0.Kept ps s) : s0.Kept ps (s.doorbell f n index gen) := by
  unfold State.doorbell
  split
  · exact h
  split
  · exact State.countS_kept _ _ _ (Part.sub_trans hl (by decide)) h
  split
  · split
    · exact State.ringErr_kept _ _ _ (Part.sub_trans hl (by decide)) (State.draw_kept (Part.sub_trans hl (by decide)) h)
    · exact State.upRing_kept _ _ (Part.sub_trans hl (by decide)) h (fun r hr => ⟨hi, hr.2⟩)
  · exact State.upRing_kept _ _ (Part.sub_trans hl (by decide)) h (fun r hr => ⟨hr.1, hi, hr.2.2⟩)

theorem execDoorbellReadComplete_kept {ps : List Part} {s0 s : State} (fn : Nat)
    (entries : List (Nat × Bytes)) (hl : ∀ p ∈ reports ++ [.free], p ∈ ps) (h : s0.Kept ps s) :
    ∃ t, execDoorbellReadComplete fn entries s = .next t ∧ s0.Kept ps t := by
  refine ⟨_, rfl, ?_⟩
  split
  · exact State.Kept.foldl _ _ (State.upFn_kept _ _ (Part.sub_trans hl (by decide)) h)
      (fun t e ht => State.doorbell_kept _ _ _ _ (leAt_lt _ _) (Part.sub_trans hl (by decide)) ht)
  · exact h

theorem State.dataReadFails_kept {ps : List Part} {s0 s : State} (n : Nat) (hl : ∀ p ∈ reports ++ [.free], p ∈ ps)
    (h : s0.Kept ps s) : s0.Kept ps (State.dataReadFails s n) := by
  unfold State.dataReadFails
  repeat' (first
    | with_reducible assumption | with_reducible exact Part.sub_trans hl (by decide)
    | (with_reducible refine (?_ : s0.Kept ps _); fail_if_no_progress extract_lets +onlyGivenNames x
       refine (fun (_ : s0.Kept ps x) => ?_) ?_
       (on_goal 1 => clear_value x); (on_goal 2 => unfold x; clear x))
    | (with_reducible refine (?_ : s0.Kept ps _); fail_if_no_progress extract_lets +onlyGivenNames x
       refine (fun (_ : s0.Kept ps x.1) => ?_) ?_
       (on_goal 1 => clear_value x); (on_goal 2 => unfold x; clear x))
    | (with_reducible refine (?_ : s0.Kept ps _); fail_if_no_progress extract_lets +onlyGivenNames x
       refine (fun (_ : s0.Kept ps x.2) => ?_) ?_
       (on_goal 1 => clear_value x); (on_goal 2 => unfold x; clear x))
    | (with_reducible refine (?_ : s0.Kept ps _); fail_if_no_progress extract_lets +onlyGivenNames x
       refine State.Kept.cutMap (l := ps) (s0 := s0) x (fun hmap => ?_) ?_
       (on_goal 1 => clear_value x); (on_goal 2 => intro r hr; unfold x; clear x; try beta_reduce))
    | with_reducible apply hmap
    | (with_reducible refine (?_ : s0.Kept ps _); fail_if_no_progress extract_lets +onlyGivenNames x
       refine State.Kept.cutFun (l := ps) (s0 := s0) x (fun hfun => ?_) ?_
       (on_goal 1 => clear_value x); (on_goal 2 => intro r; unfold x; clear x; try beta_reduce))
    | with_reducible apply hfun
    | (with_reducible refine (?_ : s0.Kept ps _); fail_if_no_progress extract_lets +onlyGivenNames y
       clear_value (hy : y = _))
    | with_reducible apply State.draw_kept
    | with_reducible refine State.draw_kept_eq (pp := (_, _)) (by assumption) ?_ ?_
    | with_reducible apply State.ringErr_kept | with_reducible apply State.upRing_kept
    | with_reducible apply State.txRefuse_kept | with_reducible apply State.settleTx_kept
    | with_reducible apply State.settleCmds_kept | with_reducible apply State.complete_kept
    | (intro p hp; cases p <;>
       first | exact absurd (hl _ (by decide)) hp | rfl)
    | with_reducible exact fun hv => hv
    | (intro r hr; first | exact hr | (revert hr; simp only [Ring.ok] <;> omega)) | split
    | dsimp -zeta only | with_reducible refine State.Kept.lit ?_ ?_ ?_ ?_ ?_ ?_ ?_ ?_)

theorem execDmaReadError_kept {ps : List Part} {s0 s : State} (e : DmaError) (hl : ∀ p ∈ reports ++ [.free], p ∈ ps)
    (h : s0.Kept ps s) : ∃ t, execDmaReadError e s = .next t ∧ s0.Kept ps t := by
  refine ⟨_, rfl, ?_⟩
  repeat' (first
    | with_reducible assumption | with_reducible exact Part.sub_trans hl (by decide)
    | (with_reducible refine (?_ : s0.Kept ps _); fail_if_no_progress extract_lets +onlyGivenNames y
       clear_value (hy : y = _))
    | with_reducible apply State.skipScan_kept | with_reducible apply State.upFn_kept
    | with_reducible apply State.emit_kept | with_reducible apply State.ringErr_kept
    | with_reducible apply State.dataReadFails_kept
    | (intro p hp; cases p <;>
       first | exact absurd (hl _ (by decide)) hp | rfl)
    | with_reducible exact fun hv => hv | split | dsimp -zeta only
    | with_reducible refine State.Kept.lit ?_ ?_ ?_ ?_ ?_ ?_ ?_ ?_)

theorem execInterruptTimer_kept {ps : List Part} {s0 s : State} (ring : Nat) (hl : ∀ p ∈ ([.regs, .rings, .fns, .hmk, .out] : List Part), p ∈ ps)
    (h : s0.Kept ps s) : ∃ t, execInterruptTimer ring s = .next t ∧ s0.Kept ps t := by
  refine ⟨_, rfl, ?_⟩
  repeat' (first
    | with_reducible assumption | with_reducible exact Part.sub_trans hl (by decide)
    | with_reducible apply State.ringSignal_kept | split)

theorem State.drainHold_kept {ps : List Part} {s0 : State} (hl : ∀ p ∈ reports, p ∈ ps)
    (fuel : Nat) : ∀ {s : State} (n : Nat) (_ : s0.Kept ps s),
    s0.Kept ps (State.drainHold s n fuel) := by
  induction fuel with
  | zero => intros; assumption
  | succ fuel ih =>
    intros
    rw [State.drainHold]
    repeat' (first
      | with_reducible assumption | with_reducible exact Part.sub_trans hl (by decide)
      | (with_reducible refine (?_ : s0.Kept ps _); fail_if_no_progress extract_lets +onlyGivenNames x
         refine (fun (_ : s0.Kept ps x) => ?_) ?_
         (on_goal 1 => clear_value x); (on_goal 2 => unfold x; clear x))
      | (with_reducible refine (?_ : s0.Kept ps _); fail_if_no_progress extract_lets +onlyGivenNames y
         clear_value (hy : y = _))
      | with_reducible apply ih | with_reducible apply State.writeEntry_kept
      | with_reducible apply State.upRing_kept
      | (intro p hp; cases p <;>
         first | exact absurd (hl _ (by decide)) hp | rfl)
      | with_reducible exact fun hv => hv
      | (intro r hr; first | exact hr | (revert hr; simp only [Ring.ok] <;> omega)) | split
      | dsimp -zeta only | with_reducible refine State.Kept.lit ?_ ?_ ?_ ?_ ?_ ?_ ?_ ?_)

theorem execEntryHoldDrain_kept {ps : List Part} {s0 s : State} (ring : Nat) (hl : ∀ p ∈ reports ++ [.ports], p ∈ ps)
    (h : s0.Kept ps s) : ∃ t, execEntryHoldDrain ring s = .next t ∧ s0.Kept ps t := by
  refine ⟨_, rfl, ?_⟩
  repeat' (first
    | with_reducible assumption | with_reducible exact Part.sub_trans hl (by decide)
    | (with_reducible refine (?_ : s0.Kept ps _); fail_if_no_progress extract_lets +onlyGivenNames x
       refine (fun (_ : s0.Kept ps x) => ?_) ?_
       (on_goal 1 => clear_value x); (on_goal 2 => unfold x; clear x))
    | (with_reducible refine (?_ : s0.Kept ps _); fail_if_no_progress extract_lets +onlyGivenNames y
       clear_value (hy : y = _))
    | with_reducible apply State.drainHold_kept | with_reducible apply State.drainStamps_kept
    | (intro t a ht; with_reducible refine (?_ : s0.Kept ps _)) | with_reducible apply State.Kept.foldl
    | split | dsimp -zeta only)

theorem State.discardRing_kept {ps : List Part} {s0 s : State} (n : Nat) (hl : ∀ p ∈ ([.regs, .rings, .ports, .epochs, .acct, .fw] : List Part), p ∈ ps)
    (h : s0.Kept ps s) : s0.Kept ps (State.discardRing s n) := by
  unfold State.discardRing
  repeat' (first
    | with_reducible assumption | with_reducible exact Part.sub_trans hl (by decide)
    | (with_reducible refine (?_ : s0.Kept ps _); fail_if_no_progress extract_lets +onlyGivenNames x
       refine (fun (_ : s0.Kept ps x) => ?_) ?_
       (on_goal 1 => clear_value x); (on_goal 2 => unfold x; clear x))
    | (with_reducible refine (?_ : s0.Kept ps _); fail_if_no_progress extract_lets +onlyGivenNames y
       clear_value (hy : y = _))
    | with_reducible apply State.finish_kept | with_reducible apply State.orphanCmds_kept
    | (intro p hp; cases p <;>
       first | exact absurd (hl _ (by decide)) hp | rfl)
    | with_reducible exact fun hv => hv
    | (intro hv; refine Tab.all_set (P := Ring.ok) _ _ _ hv ?_; simp [Ring.ok]) | split
    | with_reducible refine State.Kept.lit ?_ ?_ ?_ ?_ ?_ ?_ ?_ ?_)

theorem State.resetVf_kept {ps : List Part} {s0 s : State} (k : Nat) (hl : ∀ p ∈ ([.regs, .rings, .fns, .ports, .epochs, .acct, .fw] : List Part), p ∈ ps)
    (h : s0.Kept ps s) : s0.Kept ps (State.resetVf s k) := by
  unfold State.resetVf
  repeat' (first
    | with_reducible assumption | with_reducible exact Part.sub_trans hl (by decide)
    | (with_reducible refine (?_ : s0.Kept ps _); fail_if_no_progress extract_lets +onlyGivenNames x
       refine (fun (_ : s0.Kept ps x) => ?_) ?_
       (on_goal 1 => clear_value x); (on_goal 2 => unfold x; clear x))
    | (with_reducible refine (?_ : s0.Kept ps _); fail_if_no_progress extract_lets +onlyGivenNames y
       clear_value (hy : y = _))
    | with_reducible apply State.setF_kept | with_reducible apply State.discardRing_kept
    | with_reducible apply State.upFn_kept | (intro t a ht; with_reducible refine (?_ : s0.Kept ps _))
    | with_reducible apply State.Kept.foldl
    | (intro p hp; cases p <;>
       first | exact absurd (hl _ (by decide)) hp | rfl)
    | with_reducible exact fun hv => hv | dsimp -zeta only
    | with_reducible refine State.Kept.lit ?_ ?_ ?_ ?_ ?_ ?_ ?_ ?_)

theorem execVfFunctionLevelReset_kept {ps : List Part} {s0 s : State} (vf : Nat) (hl : ∀ p ∈ ([.regs, .rings, .fns, .ports, .epochs, .acct, .fw] : List Part), p ∈ ps)
    (h : s0.Kept ps s) : ∃ t, execVfFunctionLevelReset vf s = .next t ∧ s0.Kept ps t := by
  refine ⟨_, rfl, ?_⟩
  repeat' (first
    | with_reducible assumption | with_reducible exact Part.sub_trans hl (by decide)
    | with_reducible apply State.resetVf_kept | split)

theorem State.stopRings_kept {ps : List Part} {s0 s : State}  (hl : ∀ p ∈ ([.regs, .rings, .fns, .ports, .epochs, .acct, .fw] : List Part), p ∈ ps)
    (h : s0.Kept ps s) : s0.Kept ps (State.stopRings s) := by
  unfold State.stopRings
  repeat' (first
    | with_reducible assumption | with_reducible exact Part.sub_trans hl (by decide)
    | (with_reducible refine (?_ : s0.Kept ps _); fail_if_no_progress extract_lets +onlyGivenNames x
       refine (fun (_ : s0.Kept ps x) => ?_) ?_
       (on_goal 1 => clear_value x); (on_goal 2 => unfold x; clear x))
    | (with_reducible refine (?_ : s0.Kept ps _); fail_if_no_progress extract_lets +onlyGivenNames x
       refine (fun (_ : s0.Kept ps x.1) => ?_) ?_
       (on_goal 1 => clear_value x); (on_goal 2 => unfold x; clear x))
    | (with_reducible refine (?_ : s0.Kept ps _); fail_if_no_progress extract_lets +onlyGivenNames x
       refine (fun (_ : s0.Kept ps x.2) => ?_) ?_
       (on_goal 1 => clear_value x); (on_goal 2 => unfold x; clear x))
    | (with_reducible refine (?_ : s0.Kept ps _); fail_if_no_progress extract_lets +onlyGivenNames y
       clear_value (hy : y = _))
    | with_reducible apply State.setF_kept | with_reducible apply State.discardRing_kept
    | (intro t a ht; with_reducible refine (?_ : s0.Kept ps _)) | with_reducible apply State.Kept.foldl
    | with_reducible apply State.Kept.foldlFst | with_reducible apply State.Kept.foldlSnd
    | (intro p hp; cases p <;>
       first | exact absurd (hl _ (by decide)) hp | rfl)
    | with_reducible exact fun hv => hv | dsimp -zeta only
    | with_reducible refine State.Kept.lit ?_ ?_ ?_ ?_ ?_ ?_ ?_ ?_)

theorem State.resetHif_kept {ps : List Part} {s0 s : State}  (hl : ∀ p ∈ ([.regs] : List Part), p ∈ ps)
    (h : s0.Kept ps s) : s0.Kept ps (State.resetHif s) := by
  unfold State.resetHif
  repeat' (first
    | with_reducible assumption | with_reducible exact Part.sub_trans hl (by decide)
    | (with_reducible refine (?_ : s0.Kept ps _); fail_if_no_progress extract_lets +onlyGivenNames y
       clear_value (hy : y = _))
    | (intro p hp; cases p <;>
       first | exact absurd (hl _ (by decide)) hp | rfl)
    | with_reducible exact fun hv => hv | with_reducible exact Tab.rising_filter _ _ | dsimp -zeta only
    | with_reducible refine State.Kept.lit ?_ ?_ ?_ ?_ ?_ ?_ ?_ ?_)

theorem State.resetPf_kept {ps : List Part} {s0 s : State}  (hl : ∀ p ∈ ([.regs, .rings, .fns, .ports, .epochs, .acct, .fw] : List Part), p ∈ ps)
    (h : s0.Kept ps s) : s0.Kept ps (State.resetPf s) := by
  unfold State.resetPf
  repeat' (first
    | with_reducible assumption | with_reducible exact Part.sub_trans hl (by decide)
    | (with_reducible refine (?_ : s0.Kept ps _); fail_if_no_progress extract_lets +onlyGivenNames x
       refine (fun (_ : s0.Kept ps x) => ?_) ?_
       (on_goal 1 => clear_value x); (on_goal 2 => unfold x; clear x))
    | (with_reducible refine (?_ : s0.Kept ps _); fail_if_no_progress extract_lets +onlyGivenNames y
       clear_value (hy : y = _))
    | with_reducible apply State.stopRings_kept | with_reducible apply State.resetHif_kept
    | (intro p hp; cases p <;>
       first | exact absurd (hl _ (by decide)) hp | rfl)
    | with_reducible exact fun hv => hv | with_reducible refine State.Kept.lit ?_ ?_ ?_ ?_ ?_ ?_ ?_ ?_)

theorem execPfFunctionLevelReset_kept {ps : List Part} {s0 s : State}  (hl : ∀ p ∈ ([.regs, .rings, .fns, .ports, .epochs, .acct, .fw] : List Part), p ∈ ps)
    (h : s0.Kept ps s) : ∃ t, execPfFunctionLevelReset s = .next t ∧ s0.Kept ps t := by
  refine ⟨_, rfl, ?_⟩
  repeat' (first
    | with_reducible assumption | with_reducible exact Part.sub_trans hl (by decide)
    | with_reducible apply State.resetPf_kept | split)

theorem execPeRstNAssert_kept {ps : List Part} {s0 s : State}  (hl : ∀ p ∈ ([.regs, .boot, .rings, .fns, .ports, .epochs, .acct, .fw] : List Part), p ∈ ps)
    (h : s0.Kept ps s) : ∃ t, execPeRstNAssert s = .next t ∧ s0.Kept ps t := by
  refine ⟨_, rfl, ?_⟩
  repeat' (first
    | with_reducible assumption | with_reducible exact Part.sub_trans hl (by decide)
    | (with_reducible refine (?_ : s0.Kept ps _); fail_if_no_progress extract_lets +onlyGivenNames x
       refine (fun (_ : s0.Kept ps x) => ?_) ?_
       (on_goal 1 => clear_value x); (on_goal 2 => unfold x; clear x))
    | (with_reducible refine (?_ : s0.Kept ps _); fail_if_no_progress extract_lets +onlyGivenNames y
       clear_value (hy : y = _))
    | with_reducible apply State.resetPf_kept
    | (intro p hp; cases p <;>
       first | exact absurd (hl _ (by decide)) hp | rfl)
    | with_reducible exact fun hv => hv | with_reducible refine State.Kept.lit ?_ ?_ ?_ ?_ ?_ ?_ ?_ ?_)

theorem execPeRstNDeassert_kept {ps : List Part} {s0 s : State}  (hl : ∀ p ∈ ([.boot] : List Part), p ∈ ps)
    (h : s0.Kept ps s) : ∃ t, execPeRstNDeassert s = .next t ∧ s0.Kept ps t := by
  refine ⟨_, rfl, ?_⟩
  repeat' (first
    | with_reducible assumption | with_reducible exact Part.sub_trans hl (by decide)
    | (with_reducible refine (?_ : s0.Kept ps _); fail_if_no_progress extract_lets +onlyGivenNames y
       clear_value (hy : y = _))
    | (intro p hp; cases p <;>
       first | exact absurd (hl _ (by decide)) hp | rfl)
    | with_reducible exact fun hv => hv | with_reducible refine State.Kept.lit ?_ ?_ ?_ ?_ ?_ ?_ ?_ ?_)

theorem execPcieLinkLoss_kept {ps : List Part} {s0 s : State}  (hl : ∀ p ∈ ([.regs, .boot, .rings, .fns, .ports, .epochs, .acct, .fw, .free] : List Part), p ∈ ps)
    (h : s0.Kept ps s) : ∃ t, execPcieLinkLoss s = .next t ∧ s0.Kept ps t := by
  refine ⟨_, rfl, ?_⟩
  repeat' (first
    | with_reducible assumption | with_reducible exact Part.sub_trans hl (by decide)
    | (with_reducible refine (?_ : s0.Kept ps _); fail_if_no_progress extract_lets +onlyGivenNames x
       refine (fun (_ : s0.Kept ps x) => ?_) ?_
       (on_goal 1 => clear_value x); (on_goal 2 => unfold x; clear x))
    | (with_reducible refine (?_ : s0.Kept ps _); fail_if_no_progress extract_lets +onlyGivenNames y
       clear_value (hy : y = _))
    | with_reducible apply State.countDrops_kept | with_reducible apply State.stopRings_kept
    | (intro p hp; cases p <;>
       first | exact absurd (hl _ (by decide)) hp | rfl)
    | with_reducible exact fun hv => hv | split
    | with_reducible refine State.Kept.lit ?_ ?_ ?_ ?_ ?_ ?_ ?_ ?_)

theorem execPcieLinkUp_kept {ps : List Part} {s0 s : State}  (hl : ∀ p ∈ ([.boot] : List Part), p ∈ ps)
    (h : s0.Kept ps s) : ∃ t, execPcieLinkUp s = .next t ∧ s0.Kept ps t := by
  refine ⟨_, rfl, ?_⟩
  repeat' (first
    | with_reducible assumption | with_reducible exact Part.sub_trans hl (by decide)
    | (with_reducible refine (?_ : s0.Kept ps _); fail_if_no_progress extract_lets +onlyGivenNames y
       clear_value (hy : y = _))
    | (intro p hp; cases p <;>
       first | exact absurd (hl _ (by decide)) hp | rfl)
    | with_reducible exact fun hv => hv | split
    | with_reducible refine State.Kept.lit ?_ ?_ ?_ ?_ ?_ ?_ ?_ ?_)

theorem State.ctrlSend_kept {ps : List Part} {s0 s : State} (f : CtrlFrame) (hl : ∀ p ∈ ([.regs, .ports, .epochs, .tiles, .fabric, .acct, .counters, .free, .out] : List Part), p ∈ ps)
    (h : s0.Kept ps s) : s0.Kept ps (State.ctrlSend s f) := by
  unfold State.ctrlSend
  repeat' (first
    | with_reducible assumption | with_reducible exact Part.sub_trans hl (by decide)
    | (with_reducible refine (?_ : s0.Kept ps _); fail_if_no_progress extract_lets +onlyGivenNames x
       refine (fun (_ : s0.Kept ps x) => ?_) ?_
       (on_goal 1 => clear_value x); (on_goal 2 => unfold x; clear x))
    | (with_reducible refine (?_ : s0.Kept ps _); fail_if_no_progress extract_lets +onlyGivenNames x
       refine (fun (_ : s0.Kept ps x.1) => ?_) ?_
       (on_goal 1 => clear_value x); (on_goal 2 => unfold x; clear x))
    | (with_reducible refine (?_ : s0.Kept ps _); fail_if_no_progress extract_lets +onlyGivenNames x
       refine (fun (_ : s0.Kept ps x.2) => ?_) ?_
       (on_goal 1 => clear_value x); (on_goal 2 => unfold x; clear x))
    | (with_reducible refine (?_ : s0.Kept ps _); fail_if_no_progress extract_lets +onlyGivenNames y
       clear_value (hy : y = _))
    | with_reducible apply State.countIngress_kept | with_reducible apply State.draw_kept
    | with_reducible refine State.draw_kept_eq (pp := (_, _)) (by assumption) ?_ ?_
    | with_reducible apply State.preAdd_kept | with_reducible apply State.emit_kept
    | with_reducible apply State.sendUnicast_kept
    | with_reducible refine State.sendUnicast_kept_eq (pp := (_, _)) (by assumption) ?_ ?_ | split
    | dsimp -zeta only | with_reducible refine State.Kept.lit ?_ ?_ ?_ ?_ ?_ ?_ ?_ ?_)

theorem execControlFrameSend_kept {ps : List Part} {s0 s : State} (f : CtrlFrame) (hl : ∀ p ∈ ([.regs, .ports, .epochs, .tiles, .fabric, .acct, .counters, .free, .out] : List Part), p ∈ ps)
    (h : s0.Kept ps s) : ∃ t, execControlFrameSend f s = .next t ∧ s0.Kept ps t := by
  refine ⟨_, rfl, ?_⟩
  repeat' (first
    | with_reducible assumption | with_reducible exact Part.sub_trans hl (by decide)
    | (with_reducible refine (?_ : s0.Kept ps _); fail_if_no_progress extract_lets +onlyGivenNames y
       clear_value (hy : y = _))
    | with_reducible apply State.ctrlSend_kept
    | (intro p hp; cases p <;>
       first | exact absurd (hl _ (by decide)) hp | rfl)
    | with_reducible exact fun hv => hv | split
    | with_reducible refine State.Kept.lit ?_ ?_ ?_ ?_ ?_ ?_ ?_ ?_)

theorem State.ctrlTake_kept {ps : List Part} {s0 s : State}  (hl : ∀ p ∈ reports ++ [.ports, .epochs, .acct, .queues], p ∈ ps)
    (h : s0.Kept ps s) : s0.Kept ps (State.ctrlTake s) := by
  unfold State.ctrlTake
  repeat' (first
    | with_reducible assumption | with_reducible exact Part.sub_trans hl (by decide)
    | (with_reducible refine (?_ : s0.Kept ps _); fail_if_no_progress extract_lets +onlyGivenNames x
       refine (fun (_ : s0.Kept ps x) => ?_) ?_
       (on_goal 1 => clear_value x); (on_goal 2 => unfold x; clear x))
    | (with_reducible refine (?_ : s0.Kept ps _); fail_if_no_progress extract_lets +onlyGivenNames y
       clear_value (hy : y = _))
    | with_reducible apply State.popHead_kept | with_reducible apply State.dropEgress_kept
    | with_reducible apply State.countS_kept | with_reducible apply State.finish_kept
    | with_reducible apply State.emit_kept | split | dsimp -zeta only
    | with_reducible refine State.Kept.lit ?_ ?_ ?_ ?_ ?_ ?_ ?_ ?_)

theorem execControlComplexDelivery_kept {ps : List Part} {s0 s : State}  (hl : ∀ p ∈ reports ++ [.ports, .epochs, .acct, .queues], p ∈ ps)
    (h : s0.Kept ps s) : ∃ t, execControlComplexDelivery s = .next t ∧ s0.Kept ps t := by
  refine ⟨_, rfl, ?_⟩
  repeat' (first
    | with_reducible assumption | with_reducible exact Part.sub_trans hl (by decide)
    | with_reducible apply State.ctrlTake_kept | split)

end Sys2Proof.Machine
end

