-- ==== Sys2Proof/Laws/KeptEgress.lean ====
section
/-!
SUPPORT. What the operations and meanings of Machine/Egress.lean keep (`State.Kept`).
-/

set_option linter.all false
set_option linter.unusedTactic false
set_option linter.unreachableTactic false

namespace Sys2Proof.Machine

theorem State.pickOnPort_kept {ps : List Part} {s0 s : State} (p : Nat) (phase : Nat) (dTx : Int) (hl : ∀ p ∈ reports ++ [.ports, .epochs, .fabric, .acct, .queues, .quench], p ∈ ps)
    (h : s0.Kept ps s) : s0.Kept ps (State.pickOnPort s p phase dTx) := by
  unfold State.pickOnPort
  repeat' (first
    | with_reducible assumption | with_reducible exact Part.sub_trans hl (by decide)
    | (with_reducible refine (?_ : s0.Kept ps _); fail_if_no_progress extract_lets +onlyGivenNames x
       refine (fun (_ : s0.Kept ps x) => ?_) ?_
       (on_goal 1 => clear_value x); (on_goal 2 => unfold x; clear x))
    | (with_reducible refine (?_ : s0.Kept ps _); fail_if_no_progress extract_lets +onlyGivenNames y
       clear_value (hy : y = _))
    | with_reducible apply State.renewRates_kept | with_reducible apply State.fillBuckets_kept
    | with_reducible apply State.sendFc_kept | with_reducible apply State.upPort_kept
    | with_reducible apply State.blockFlush_kept | with_reducible apply State.schedule_kept
    | (intro p hp; cases p <;>
       first | exact absurd (hl _ (by decide)) hp | rfl)
    | with_reducible exact fun hv => hv | split | dsimp -zeta only
    | with_reducible refine State.Kept.lit ?_ ?_ ?_ ?_ ?_ ?_ ?_ ?_)

theorem execSchedulerPick_kept {ps : List Part} {s0 s : State} (port : Nat) (phase : Nat) (dTx : Int) (hl : ∀ p ∈ reports ++ [.ports, .epochs, .fabric, .acct, .queues, .quench], p ∈ ps)
    (h : s0.Kept ps s) : ∃ t, execSchedulerPick port phase dTx s = .next t ∧ s0.Kept ps t := by
  refine ⟨_, rfl, ?_⟩
  repeat' (first
    | with_reducible assumption | with_reducible exact Part.sub_trans hl (by decide)
    | (with_reducible refine (?_ : s0.Kept ps _); fail_if_no_progress extract_lets +onlyGivenNames y
       clear_value (hy : y = _))
    | with_reducible apply State.pickOnPort_kept
    | (intro p hp; cases p <;>
       first | exact absurd (hl _ (by decide)) hp | rfl)
    | with_reducible exact fun hv => hv | with_reducible refine State.Kept.lit ?_ ?_ ?_ ?_ ?_ ?_ ?_ ?_)

theorem State.launchNow_kept {ps : List Part} {s0 s : State} (p : Nat) (q : Nat) (phase : Nat) (dTx : Int) (hl : ∀ p ∈ reports ++ [.ports, .epochs, .fabric, .acct, .queues, .time, .quench], p ∈ ps)
    (h : s0.Kept ps s) : s0.Kept ps (State.launchNow s p q phase dTx) := by
  unfold State.launchNow
  repeat' (first
    | with_reducible assumption | with_reducible exact Part.sub_trans hl (by decide)
    | (with_reducible refine (?_ : s0.Kept ps _); fail_if_no_progress extract_lets +onlyGivenNames x
       refine (fun (_ : s0.Kept ps x) => ?_) ?_
       (on_goal 1 => clear_value x); (on_goal 2 => unfold x; clear x))
    | (with_reducible refine (?_ : s0.Kept ps _); fail_if_no_progress extract_lets +onlyGivenNames x
       refine (fun (_ : s0.Kept ps x.1) => ?_) ?_
       (on_goal 1 => clear_value x); (on_goal 2 => unfold x; clear x))
    | (with_reducible refine (?_ : s0.Kept ps _); fail_if_no_progress extract_lets +onlyGivenNames x
       refine (fun (_ : s0.Kept ps x.2) => ?_) ?_
       (on_goal 1 => clear_value x); (on_goal 2 => unfold x; clear x))
    | (with_reducible refine (?_ : s0.Kept ps _); fail_if_no_progress extract_lets +onlyGivenNames y
       clear_value (hy : y = _))
    | with_reducible apply State.advanceTo_kept | with_reducible apply State.renewRates_kept
    | with_reducible apply State.fillBuckets_kept | with_reducible apply State.sendFc_kept
    | with_reducible apply State.upPort_kept | with_reducible apply State.blockFlush_kept
    | with_reducible apply State.serve_kept
    | with_reducible refine State.serve_kept_eq (pp := (_, _)) (by assumption) ?_ ?_
    | (intro p hp; cases p <;>
       first | exact absurd (hl _ (by decide)) hp | rfl)
    | with_reducible exact fun hv => hv | split | dsimp -zeta only
    | with_reducible refine State.Kept.lit ?_ ?_ ?_ ?_ ?_ ?_ ?_ ?_)

theorem execLaunchDue_kept {ps : List Part} {s0 s : State} (port : Nat) (q : Nat) (phase : Nat) (dTx : Int) (hl : ∀ p ∈ reports ++ [.ports, .epochs, .fabric, .acct, .queues, .time, .quench], p ∈ ps)
    (h : s0.Kept ps s) : ∃ t, execLaunchDue port q phase dTx s = .next t ∧ s0.Kept ps t := by
  refine ⟨_, rfl, ?_⟩
  repeat' (first
    | with_reducible assumption | with_reducible exact Part.sub_trans hl (by decide)
    | with_reducible apply State.launchNow_kept)

theorem State.checkAge_kept {ps : List Part} {s0 s : State} (p : Nat) (slot : Nat) (hl : ∀ p ∈ reports ++ [.ports, .epochs, .acct, .queues], p ∈ ps)
    (h : s0.Kept ps s) : s0.Kept ps (State.checkAge s p slot) := by
  unfold State.checkAge
  repeat' (first
    | with_reducible assumption | with_reducible exact Part.sub_trans hl (by decide)
    | with_reducible apply State.dropEgress_kept | with_reducible apply State.popHead_kept | split
    | with_reducible refine State.Kept.lit ?_ ?_ ?_ ?_ ?_ ?_ ?_ ?_)

theorem execAgeCheck_kept {ps : List Part} {s0 s : State} (q : QueueRef) (hl : ∀ p ∈ reports ++ [.ports, .epochs, .acct, .queues], p ∈ ps)
    (h : s0.Kept ps s) : ∃ t, execAgeCheck q s = .next t ∧ s0.Kept ps t := by
  refine ⟨_, rfl, ?_⟩
  repeat' (first
    | with_reducible assumption | with_reducible exact Part.sub_trans hl (by decide)
    | with_reducible apply State.checkAge_kept | split)

end Sys2Proof.Machine
end

