-- ==== Sys2Proof/Laws/KeptCommands.lean ====
section
/-!
SUPPORT. What the operations and meanings of Machine/Commands.lean keep (`State.Kept`).
-/

set_option linter.all false
set_option linter.unusedTactic false
set_option linter.unreachableTactic false

namespace Sys2Proof.Machine

theorem State.command_kept {ps : List Part} {s0 s : State} (op : Nat) (vfOk : Bool) (c : Cmd) (run : State → State) (hrun : ∀ t, s0.Kept ps t → s0.Kept ps (run t)) (hl : ∀ p ∈ reports, p ∈ ps)
    (h : s0.Kept ps s) : s0.Kept ps (State.command s op vfOk c run) := by
  unfold State.command
  repeat' (first
    | with_reducible assumption | with_reducible exact Part.sub_trans hl (by decide)
    | (with_reducible refine (?_ : s0.Kept ps _); fail_if_no_progress extract_lets +onlyGivenNames x
       refine (fun (_ : s0.Kept ps x) => ?_) ?_
       (on_goal 1 => clear_value x); (on_goal 2 => unfold x; clear x))
    | (with_reducible refine (?_ : s0.Kept ps _); fail_if_no_progress extract_lets +onlyGivenNames y
       clear_value (hy : y = _))
    | with_reducible apply hrun | with_reducible apply State.perf_kept
    | with_reducible apply State.done_kept | with_reducible apply State.dmaReads_kept
    | (intro t ht; with_reducible refine (?_ : s0.Kept ps _))
    | (intro p hp; cases p <;>
       first | exact absurd (hl _ (by decide)) hp | rfl)
    | with_reducible exact fun hv => hv | split
    | with_reducible refine State.Kept.lit ?_ ?_ ?_ ?_ ?_ ?_ ?_ ?_)

theorem State.fwCommand_kept {ps : List Part} {s0 s : State} (op : Nat) (c : Cmd) (run : State → State) (hrun : ∀ t, s0.Kept ps t → s0.Kept ps (run t)) (hl : ∀ p ∈ reports, p ∈ ps)
    (h : s0.Kept ps s) : s0.Kept ps (State.fwCommand s op c run) := by
  unfold State.fwCommand
  repeat' (first
    | with_reducible assumption | with_reducible exact Part.sub_trans hl (by decide)
    | with_reducible apply hrun | with_reducible apply State.command_kept
    | with_reducible apply State.done_kept | (intro t ht; with_reducible refine (?_ : s0.Kept ps _))
    | split | dsimp -zeta only)

theorem State.writeResult_kept {ps : List Part} {s0 s : State} (c : Cmd) (data : Bytes) (hl : ∀ p ∈ ([.regs, .hmk, .out] : List Part), p ∈ ps)
    (h : s0.Kept ps s) : s0.Kept ps (State.writeResult s c data) := by
  unfold State.writeResult
  repeat' (first
    | with_reducible assumption | with_reducible exact Part.sub_trans hl (by decide)
    | with_reducible apply State.emit_kept | with_reducible apply State.dmaWrite_kept | split
    | with_reducible refine State.Kept.lit ?_ ?_ ?_ ?_ ?_ ?_ ?_ ?_)

end Sys2Proof.Machine
end

