-- ==== Sys2Proof/Laws/KeptTableCmd.lean ====
section
/-!
SUPPORT. What the operations and meanings of Machine/TableCmd.lean keep (`State.Kept`).
-/

set_option linter.all false
set_option linter.unusedTactic false
set_option linter.unreachableTactic false

namespace Sys2Proof.Machine

theorem State.setShadow_kept {ps : List Part} {s0 s : State} (t : Nat) (l : List Rec) (hl : ∀ p ∈ ([.tables] : List Part), p ∈ ps)
    (h : s0.Kept ps s) : s0.Kept ps (State.setShadow s t l) := by
  unfold State.setShadow
  repeat' (first
    | with_reducible assumption | with_reducible exact Part.sub_trans hl (by decide)
    | (with_reducible refine (?_ : s0.Kept ps _); fail_if_no_progress extract_lets +onlyGivenNames y
       clear_value (hy : y = _))
    | (intro p hp; cases p <;>
       first | exact absurd (hl _ (by decide)) hp | rfl)
    | with_reducible exact fun hv => hv | with_reducible refine State.Kept.lit ?_ ?_ ?_ ?_ ?_ ?_ ?_ ?_)

theorem State.tblPut_kept {ps : List Part} {s0 s : State} (t : Nat) (w : List Word) (hl : ∀ p ∈ ([.tables] : List Part), p ∈ ps)
    (h : s0.Kept ps s) : s0.Kept ps (State.tblPut s t w).1 := by
  unfold State.tblPut
  repeat' (first
    | with_reducible assumption | with_reducible exact Part.sub_trans hl (by decide)
    | (with_reducible refine (?_ : s0.Kept ps _); fail_if_no_progress extract_lets +onlyGivenNames x
       refine (fun (_ : s0.Kept ps x) => ?_) ?_
       (on_goal 1 => clear_value x); (on_goal 2 => unfold x; clear x))
    | (with_reducible refine (?_ : s0.Kept ps _); fail_if_no_progress extract_lets +onlyGivenNames x
       refine (fun (_ : s0.Kept ps x.1) => ?_) ?_
       (on_goal 1 => clear_value x); (on_goal 2 => unfold x; clear x))
    | (with_reducible refine (?_ : s0.Kept ps _); fail_if_no_progress extract_lets +onlyGivenNames x
       refine (fun (_ : s0.Kept ps x.2) => ?_) ?_
       (on_goal 1 => clear_value x); (on_goal 2 => unfold x; clear x))
    | (with_reducible refine (?_ : s0.Kept ps _); fail_if_no_progress extract_lets +onlyGivenNames y
       clear_value (hy : y = _))
    | with_reducible apply State.setShadow_kept
    | (intro p hp; cases p <;>
       first | exact absurd (hl _ (by decide)) hp | rfl)
    | with_reducible exact fun hv => hv | split | dsimp -zeta only
    | with_reducible refine State.Kept.lit ?_ ?_ ?_ ?_ ?_ ?_ ?_ ?_)

theorem State.tblPut_kept_eq {ps : List Part} {s0 s : State} {t : Nat} {w : List Word} {pp : State × Nat × Nat} (hp : State.tblPut s t w = pp) (hl : ∀ p ∈ ([.tables] : List Part), p ∈ ps)
    (h : s0.Kept ps s) : s0.Kept ps pp.1 := by
  subst hp; apply State.tblPut_kept <;> assumption

theorem execTblWrite_kept {ps : List Part} {s0 s : State} (c : Cmd) (hl : ∀ p ∈ reports ++ [.tables], p ∈ ps)
    (h : s0.Kept ps s) : ∃ t, execTblWrite c s = .next t ∧ s0.Kept ps t := by
  refine ⟨_, rfl, ?_⟩
  repeat' (first
    | with_reducible assumption | with_reducible exact Part.sub_trans hl (by decide)
    | (with_reducible refine (?_ : s0.Kept ps _); fail_if_no_progress extract_lets +onlyGivenNames x
       refine (fun (_ : s0.Kept ps x) => ?_) ?_
       (on_goal 1 => clear_value x); (on_goal 2 => unfold x; clear x))
    | (with_reducible refine (?_ : s0.Kept ps _); fail_if_no_progress extract_lets +onlyGivenNames x
       refine (fun (_ : s0.Kept ps x.1) => ?_) ?_
       (on_goal 1 => clear_value x); (on_goal 2 => unfold x; clear x))
    | (with_reducible refine (?_ : s0.Kept ps _); fail_if_no_progress extract_lets +onlyGivenNames x
       refine (fun (_ : s0.Kept ps x.2) => ?_) ?_
       (on_goal 1 => clear_value x); (on_goal 2 => unfold x; clear x))
    | (with_reducible refine (?_ : s0.Kept ps _); fail_if_no_progress extract_lets +onlyGivenNames y
       clear_value (hy : y = _))
    | with_reducible apply State.command_kept | with_reducible apply State.done_kept
    | with_reducible apply State.tblPut_kept
    | with_reducible refine State.tblPut_kept_eq (pp := (_, _)) (by assumption) ?_ ?_
    | (intro t ht; with_reducible refine (?_ : s0.Kept ps _)) | split | dsimp -zeta only)

theorem execTblDelete_kept {ps : List Part} {s0 s : State} (c : Cmd) (hl : ∀ p ∈ reports ++ [.tables], p ∈ ps)
    (h : s0.Kept ps s) : ∃ t, execTblDelete c s = .next t ∧ s0.Kept ps t := by
  refine ⟨_, rfl, ?_⟩
  repeat' (first
    | with_reducible assumption | with_reducible exact Part.sub_trans hl (by decide)
    | (with_reducible refine (?_ : s0.Kept ps _); fail_if_no_progress extract_lets +onlyGivenNames x
       refine (fun (_ : s0.Kept ps x) => ?_) ?_
       (on_goal 1 => clear_value x); (on_goal 2 => unfold x; clear x))
    | (with_reducible refine (?_ : s0.Kept ps _); fail_if_no_progress extract_lets +onlyGivenNames y
       clear_value (hy : y = _))
    | with_reducible apply State.command_kept | with_reducible apply State.done_kept
    | with_reducible apply State.setShadow_kept
    | (intro t ht; with_reducible refine (?_ : s0.Kept ps _)) | split | dsimp -zeta only
    | with_reducible refine State.Kept.lit ?_ ?_ ?_ ?_ ?_ ?_ ?_ ?_)

theorem State.tblPutAll_kept {ps : List Part} {s0 : State} (hl : ∀ p ∈ ([.tables] : List Part), p ∈ ps) (t : Nat)
    (l : List (List Word)) : ∀ {s : State} (n : Nat) (_ : s0.Kept ps s), s0.Kept ps (s.tblPutAll t l n).1 := by
  induction l with
  | nil => intro s n h; simpa only [State.tblPutAll] using h
  | cons w l ih =>
    intro s n h
    rw [State.tblPutAll]
    split
    · exact ih _ (State.tblPut_kept _ _ (Part.sub_trans hl (by decide)) h)
    · exact h

theorem State.tblPutAll_kept_eq {ps : List Part} {s0 s : State} {t : Nat} {l : List (List Word)} {n : Nat}
    {pp : State × Nat × Nat} (hp : s.tblPutAll t l n = pp) (hl : ∀ p ∈ ([.tables] : List Part), p ∈ ps) (h : s0.Kept ps s) :
    s0.Kept ps pp.1 := by
  subst hp; exact State.tblPutAll_kept hl _ _ _ h

theorem execTblBulk_kept {ps : List Part} {s0 s : State} (c : Cmd) (hl : ∀ p ∈ reports ++ [.tables], p ∈ ps)
    (h : s0.Kept ps s) : ∃ t, execTblBulk c s = .next t ∧ s0.Kept ps t := by
  refine ⟨_, rfl, ?_⟩
  repeat' (first
    | with_reducible assumption | with_reducible exact Part.sub_trans hl (by decide)
    | (with_reducible refine (?_ : s0.Kept ps _); fail_if_no_progress extract_lets +onlyGivenNames x
       refine (fun (_ : s0.Kept ps x) => ?_) ?_
       (on_goal 1 => clear_value x); (on_goal 2 => unfold x; clear x))
    | (with_reducible refine (?_ : s0.Kept ps _); fail_if_no_progress extract_lets +onlyGivenNames x
       refine (fun (_ : s0.Kept ps x.1) => ?_) ?_
       (on_goal 1 => clear_value x); (on_goal 2 => unfold x; clear x))
    | (with_reducible refine (?_ : s0.Kept ps _); fail_if_no_progress extract_lets +onlyGivenNames x
       refine (fun (_ : s0.Kept ps x.2) => ?_) ?_
       (on_goal 1 => clear_value x); (on_goal 2 => unfold x; clear x))
    | (with_reducible refine (?_ : s0.Kept ps _); fail_if_no_progress extract_lets +onlyGivenNames y
       clear_value (hy : y = _))
    | with_reducible apply State.command_kept | with_reducible apply State.done_kept
    | with_reducible apply State.tblPutAll_kept
    | with_reducible refine State.tblPutAll_kept_eq (pp := (_, _)) (by assumption) ?_ ?_
    | (intro t ht; with_reducible refine (?_ : s0.Kept ps _)) | split | dsimp -zeta only
    | with_reducible refine State.Kept.lit ?_ ?_ ?_ ?_ ?_ ?_ ?_ ?_)

theorem State.syncTable_kept {ps : List Part} {s0 s : State} (t : Nat) (hl : ∀ p ∈ ([.tables] : List Part), p ∈ ps)
    (h : s0.Kept ps s) : s0.Kept ps (State.syncTable s t) := by
  unfold State.syncTable
  repeat' (first
    | with_reducible assumption | with_reducible exact Part.sub_trans hl (by decide)
    | (with_reducible refine (?_ : s0.Kept ps _); fail_if_no_progress extract_lets +onlyGivenNames y
       clear_value (hy : y = _))
    | with_reducible apply State.setShadow_kept
    | (intro p hp; cases p <;>
       first | exact absurd (hl _ (by decide)) hp | rfl)
    | with_reducible exact fun hv => hv | split
    | with_reducible refine State.Kept.lit ?_ ?_ ?_ ?_ ?_ ?_ ?_ ?_)

theorem execTblSync_kept {ps : List Part} {s0 s : State} (c : Cmd) (hl : ∀ p ∈ reports ++ [.tables], p ∈ ps)
    (h : s0.Kept ps s) : ∃ t, execTblSync c s = .next t ∧ s0.Kept ps t := by
  refine ⟨_, rfl, ?_⟩
  repeat' (first
    | with_reducible assumption | with_reducible exact Part.sub_trans hl (by decide)
    | (with_reducible refine (?_ : s0.Kept ps _); fail_if_no_progress extract_lets +onlyGivenNames x
       refine (fun (_ : s0.Kept ps x) => ?_) ?_
       (on_goal 1 => clear_value x); (on_goal 2 => unfold x; clear x))
    | (with_reducible refine (?_ : s0.Kept ps _); fail_if_no_progress extract_lets +onlyGivenNames y
       clear_value (hy : y = _))
    | with_reducible apply State.command_kept | with_reducible apply State.done_kept
    | with_reducible apply State.syncTable_kept
    | (intro t a ht; with_reducible refine (?_ : s0.Kept ps _))
    | (intro t ht; with_reducible refine (?_ : s0.Kept ps _)) | with_reducible apply State.Kept.foldl
    | split | dsimp -zeta only)

theorem execTblCommit_kept {ps : List Part} {s0 s : State} (c : Cmd) (hl : ∀ p ∈ reports ++ [.epochs], p ∈ ps)
    (h : s0.Kept ps s) : ∃ t, execTblCommit c s = .next t ∧ s0.Kept ps t := by
  refine ⟨_, rfl, ?_⟩
  repeat' (first
    | with_reducible assumption | with_reducible exact Part.sub_trans hl (by decide)
    | (with_reducible refine (?_ : s0.Kept ps _); fail_if_no_progress extract_lets +onlyGivenNames x
       refine (fun (_ : s0.Kept ps x) => ?_) ?_
       (on_goal 1 => clear_value x); (on_goal 2 => unfold x; clear x))
    | (with_reducible refine (?_ : s0.Kept ps _); fail_if_no_progress extract_lets +onlyGivenNames y
       clear_value (hy : y = _))
    | with_reducible apply State.command_kept | with_reducible apply State.done_kept
    | (intro t ht; with_reducible refine (?_ : s0.Kept ps _))
    | (intro p hp; cases p <;>
       first | exact absurd (hl _ (by decide)) hp | rfl)
    | with_reducible exact fun hv => hv
    | (intro hv; first | exact hv | (subst_vars; first | exact hv | omega)) | split | dsimp -zeta only
    | with_reducible refine State.Kept.lit ?_ ?_ ?_ ?_ ?_ ?_ ?_ ?_)

theorem execTblCancel_kept {ps : List Part} {s0 s : State} (c : Cmd) (hl : ∀ p ∈ reports ++ [.epochs], p ∈ ps)
    (h : s0.Kept ps s) : ∃ t, execTblCancel c s = .next t ∧ s0.Kept ps t := by
  refine ⟨_, rfl, ?_⟩
  repeat' (first
    | with_reducible assumption | with_reducible exact Part.sub_trans hl (by decide)
    | (with_reducible refine (?_ : s0.Kept ps _); fail_if_no_progress extract_lets +onlyGivenNames x
       refine (fun (_ : s0.Kept ps x) => ?_) ?_
       (on_goal 1 => clear_value x); (on_goal 2 => unfold x; clear x))
    | (with_reducible refine (?_ : s0.Kept ps _); fail_if_no_progress extract_lets +onlyGivenNames x
       refine (fun (_ : s0.Kept ps x.1) => ?_) ?_
       (on_goal 1 => clear_value x); (on_goal 2 => unfold x; clear x))
    | (with_reducible refine (?_ : s0.Kept ps _); fail_if_no_progress extract_lets +onlyGivenNames x
       refine (fun (_ : s0.Kept ps x.2) => ?_) ?_
       (on_goal 1 => clear_value x); (on_goal 2 => unfold x; clear x))
    | (with_reducible refine (?_ : s0.Kept ps _); fail_if_no_progress extract_lets +onlyGivenNames y
       clear_value (hy : y = _))
    | with_reducible apply State.command_kept | with_reducible apply State.done_kept
    | (intro t ht; with_reducible refine (?_ : s0.Kept ps _))
    | (intro p hp; cases p <;>
       first | exact absurd (hl _ (by decide)) hp | rfl)
    | with_reducible exact fun hv => hv
    | (intro hv; first | exact hv | (subst_vars; first | exact hv | omega)) | split | dsimp -zeta only
    | with_reducible refine State.Kept.lit ?_ ?_ ?_ ?_ ?_ ?_ ?_ ?_)

theorem State.tblAnswer_kept {ps : List Part} {s0 s : State} (c : Cmd) (idx : Nat) (w : List Word) (hl : ∀ p ∈ reports, p ∈ ps)
    (h : s0.Kept ps s) : s0.Kept ps (State.tblAnswer s c idx w) := by
  unfold State.tblAnswer
  repeat' (first
    | with_reducible assumption | with_reducible exact Part.sub_trans hl (by decide)
    | with_reducible apply State.done_kept | with_reducible apply State.writeResult_kept | split)

theorem execTblRead_kept {ps : List Part} {s0 s : State} (c : Cmd) (hl : ∀ p ∈ reports, p ∈ ps)
    (h : s0.Kept ps s) : ∃ t, execTblRead c s = .next t ∧ s0.Kept ps t := by
  refine ⟨_, rfl, ?_⟩
  repeat' (first
    | with_reducible assumption | with_reducible exact Part.sub_trans hl (by decide)
    | (with_reducible refine (?_ : s0.Kept ps _); fail_if_no_progress extract_lets +onlyGivenNames x
       refine (fun (_ : s0.Kept ps x) => ?_) ?_
       (on_goal 1 => clear_value x); (on_goal 2 => unfold x; clear x))
    | (with_reducible refine (?_ : s0.Kept ps _); fail_if_no_progress extract_lets +onlyGivenNames y
       clear_value (hy : y = _))
    | with_reducible apply State.command_kept | with_reducible apply State.done_kept
    | with_reducible apply State.tblAnswer_kept
    | (intro t ht; with_reducible refine (?_ : s0.Kept ps _)) | split | dsimp -zeta only
    | with_reducible refine State.Kept.lit ?_ ?_ ?_ ?_ ?_ ?_ ?_ ?_)

theorem execNop_kept {ps : List Part} {s0 s : State} (c : Cmd) (hl : ∀ p ∈ reports, p ∈ ps)
    (h : s0.Kept ps s) : ∃ t, execNop c s = .next t ∧ s0.Kept ps t := by
  refine ⟨_, rfl, ?_⟩
  repeat' (first
    | with_reducible assumption | with_reducible exact Part.sub_trans hl (by decide)
    | with_reducible apply State.command_kept | with_reducible apply State.done_kept
    | (intro t ht; with_reducible refine (?_ : s0.Kept ps _)) | dsimp -zeta only)

theorem State.pauseRing_kept {ps : List Part} {s0 s : State} (c : Cmd) (v : Nat) (hl : ∀ p ∈ reports, p ∈ ps)
    (h : s0.Kept ps s) : s0.Kept ps (State.pauseRing s c v) := by
  unfold State.pauseRing
  repeat' (first
    | with_reducible assumption | with_reducible exact Part.sub_trans hl (by decide)
    | with_reducible apply State.done_kept | with_reducible apply State.setF_kept | split)

theorem execRingPause_kept {ps : List Part} {s0 s : State} (c : Cmd) (hl : ∀ p ∈ reports, p ∈ ps)
    (h : s0.Kept ps s) : ∃ t, execRingPause c s = .next t ∧ s0.Kept ps t := by
  refine ⟨_, rfl, ?_⟩
  repeat' (first
    | with_reducible assumption | with_reducible exact Part.sub_trans hl (by decide)
    | with_reducible apply State.command_kept | with_reducible apply State.pauseRing_kept
    | (intro t ht; with_reducible refine (?_ : s0.Kept ps _)) | dsimp -zeta only)

theorem execRingResume_kept {ps : List Part} {s0 s : State} (c : Cmd) (hl : ∀ p ∈ reports, p ∈ ps)
    (h : s0.Kept ps s) : ∃ t, execRingResume c s = .next t ∧ s0.Kept ps t := by
  refine ⟨_, rfl, ?_⟩
  repeat' (first
    | with_reducible assumption | with_reducible exact Part.sub_trans hl (by decide)
    | with_reducible apply State.command_kept | with_reducible apply State.pauseRing_kept
    | (intro t ht; with_reducible refine (?_ : s0.Kept ps _)) | dsimp -zeta only)

theorem execCntRead_kept {ps : List Part} {s0 s : State} (c : Cmd) (hl : ∀ p ∈ reports, p ∈ ps)
    (h : s0.Kept ps s) : ∃ t, execCntRead c s = .next t ∧ s0.Kept ps t := by
  refine ⟨_, rfl, ?_⟩
  repeat' (first
    | with_reducible assumption | with_reducible exact Part.sub_trans hl (by decide)
    | (with_reducible refine (?_ : s0.Kept ps _); fail_if_no_progress extract_lets +onlyGivenNames x
       refine (fun (_ : s0.Kept ps x) => ?_) ?_
       (on_goal 1 => clear_value x); (on_goal 2 => unfold x; clear x))
    | (with_reducible refine (?_ : s0.Kept ps _); fail_if_no_progress extract_lets +onlyGivenNames y
       clear_value (hy : y = _))
    | with_reducible apply State.command_kept | with_reducible apply State.done_kept
    | with_reducible apply State.writeResult_kept
    | (intro t ht; with_reducible refine (?_ : s0.Kept ps _)) | split | dsimp -zeta only)

theorem execCntClear_kept {ps : List Part} {s0 s : State} (c : Cmd) (hl : ∀ p ∈ reports, p ∈ ps)
    (h : s0.Kept ps s) : ∃ t, execCntClear c s = .next t ∧ s0.Kept ps t := by
  refine ⟨_, rfl, ?_⟩
  repeat' (first
    | with_reducible assumption | with_reducible exact Part.sub_trans hl (by decide)
    | with_reducible apply State.command_kept | with_reducible apply State.done_kept
    | with_reducible apply State.clearGroup_kept
    | (intro t ht; with_reducible refine (?_ : s0.Kept ps _)) | split | dsimp -zeta only)

theorem State.pgErase_kept {ps : List Part} {s0 s : State} (g : Nat) (hl : ∀ p ∈ ([.regs, .pgs] : List Part), p ∈ ps)
    (h : s0.Kept ps s) : s0.Kept ps (State.pgErase s g) := by
  unfold State.pgErase
  repeat' (first
    | with_reducible assumption | with_reducible exact Part.sub_trans hl (by decide)
    | (with_reducible refine (?_ : s0.Kept ps _); fail_if_no_progress extract_lets +onlyGivenNames y
       clear_value (hy : y = _))
    | with_reducible apply State.clrF_kept
    | (intro p hp; cases p <;>
       first | exact absurd (hl _ (by decide)) hp | rfl)
    | with_reducible exact fun hv => hv | with_reducible refine State.Kept.lit ?_ ?_ ?_ ?_ ?_ ?_ ?_ ?_)

theorem State.pgDefine_kept {ps : List Part} {s0 s : State} (g : Nat) (a : Nat) (b : Nat) (hl : ∀ p ∈ ([.regs, .pgs, .free] : List Part), p ∈ ps)
    (h : s0.Kept ps s) : s0.Kept ps (State.pgDefine s g a b) := by
  unfold State.pgDefine
  repeat' (first
    | with_reducible assumption | with_reducible exact Part.sub_trans hl (by decide)
    | (with_reducible refine (?_ : s0.Kept ps _); fail_if_no_progress extract_lets +onlyGivenNames x
       refine (fun (_ : s0.Kept ps x) => ?_) ?_
       (on_goal 1 => clear_value x); (on_goal 2 => unfold x; clear x))
    | (with_reducible refine (?_ : s0.Kept ps _); fail_if_no_progress extract_lets +onlyGivenNames y
       clear_value (hy : y = _))
    | with_reducible apply State.pgErase_kept | with_reducible apply State.pgMove_kept
    | (intro p hp; cases p <;>
       first | exact absurd (hl _ (by decide)) hp | rfl)
    | with_reducible exact fun hv => hv | split
    | with_reducible refine State.Kept.lit ?_ ?_ ?_ ?_ ?_ ?_ ?_ ?_)

theorem execPgSet_kept {ps : List Part} {s0 s : State} (c : Cmd) (hl : ∀ p ∈ faulting, p ∈ ps)
    (h : s0.Kept ps s) : ∃ t, execPgSet c s = .next t ∧ s0.Kept ps t := by
  refine ⟨_, rfl, ?_⟩
  repeat' (first
    | with_reducible assumption | with_reducible exact Part.sub_trans hl (by decide)
    | (with_reducible refine (?_ : s0.Kept ps _); fail_if_no_progress extract_lets +onlyGivenNames x
       refine (fun (_ : s0.Kept ps x) => ?_) ?_
       (on_goal 1 => clear_value x); (on_goal 2 => unfold x; clear x))
    | (with_reducible refine (?_ : s0.Kept ps _); fail_if_no_progress extract_lets +onlyGivenNames x
       refine (fun (_ : s0.Kept ps x.1) => ?_) ?_
       (on_goal 1 => clear_value x); (on_goal 2 => unfold x; clear x))
    | (with_reducible refine (?_ : s0.Kept ps _); fail_if_no_progress extract_lets +onlyGivenNames x
       refine (fun (_ : s0.Kept ps x.2) => ?_) ?_
       (on_goal 1 => clear_value x); (on_goal 2 => unfold x; clear x))
    | (with_reducible refine (?_ : s0.Kept ps _); fail_if_no_progress extract_lets +onlyGivenNames y
       clear_value (hy : y = _))
    | with_reducible apply State.command_kept | with_reducible apply State.done_kept
    | with_reducible apply State.pgErase_kept | with_reducible apply State.pgDefine_kept
    | with_reducible apply State.judgeOverbooked_kept
    | (intro t ht; with_reducible refine (?_ : s0.Kept ps _)) | split | dsimp -zeta only)

theorem execPgForce_kept {ps : List Part} {s0 s : State} (c : Cmd) (hl : ∀ p ∈ reports ++ [.pgs, .free], p ∈ ps)
    (h : s0.Kept ps s) : ∃ t, execPgForce c s = .next t ∧ s0.Kept ps t := by
  refine ⟨_, rfl, ?_⟩
  repeat' (first
    | with_reducible assumption | with_reducible exact Part.sub_trans hl (by decide)
    | (with_reducible refine (?_ : s0.Kept ps _); fail_if_no_progress extract_lets +onlyGivenNames x
       refine (fun (_ : s0.Kept ps x) => ?_) ?_
       (on_goal 1 => clear_value x); (on_goal 2 => unfold x; clear x))
    | (with_reducible refine (?_ : s0.Kept ps _); fail_if_no_progress extract_lets +onlyGivenNames y
       clear_value (hy : y = _))
    | with_reducible apply State.command_kept | with_reducible apply State.done_kept
    | with_reducible apply State.pgEval_kept | with_reducible apply State.pgMove_kept
    | (intro t ht; with_reducible refine (?_ : s0.Kept ps _))
    | (intro p hp; cases p <;>
       first | exact absurd (hl _ (by decide)) hp | rfl)
    | with_reducible exact fun hv => hv | split | dsimp -zeta only
    | with_reducible refine State.Kept.lit ?_ ?_ ?_ ?_ ?_ ?_ ?_ ?_)

theorem execVfGrant_kept {ps : List Part} {s0 s : State} (c : Cmd) (hl : ∀ p ∈ reports, p ∈ ps)
    (h : s0.Kept ps s) : ∃ t, execVfGrant c s = .next t ∧ s0.Kept ps t := by
  refine ⟨_, rfl, ?_⟩
  repeat' (first
    | with_reducible assumption | with_reducible exact Part.sub_trans hl (by decide)
    | (with_reducible refine (?_ : s0.Kept ps _); fail_if_no_progress extract_lets +onlyGivenNames y
       clear_value (hy : y = _))
    | with_reducible apply State.command_kept | with_reducible apply State.done_kept
    | with_reducible apply State.upFn_kept | (intro t ht; with_reducible refine (?_ : s0.Kept ps _))
    | (intro p hp; cases p <;>
       first | exact absurd (hl _ (by decide)) hp | rfl)
    | with_reducible exact fun hv => hv | split | dsimp -zeta only
    | with_reducible refine State.Kept.lit ?_ ?_ ?_ ?_ ?_ ?_ ?_ ?_)

theorem execFaultAck_kept {ps : List Part} {s0 s : State} (c : Cmd) (hl : ∀ p ∈ reports ++ [.pinRel, .fences, .quench], p ∈ ps)
    (h : s0.Kept ps s) : ∃ t, execFaultAck c s = .next t ∧ s0.Kept ps t := by
  refine ⟨_, rfl, ?_⟩
  repeat' (first
    | with_reducible assumption | with_reducible exact Part.sub_trans hl (by decide)
    | (with_reducible refine (?_ : s0.Kept ps _); fail_if_no_progress extract_lets +onlyGivenNames x
       refine (fun (_ : s0.Kept ps x) => ?_) ?_
       (on_goal 1 => clear_value x); (on_goal 2 => unfold x; clear x))
    | (with_reducible refine (?_ : s0.Kept ps _); fail_if_no_progress extract_lets +onlyGivenNames x
       refine (fun (_ : s0.Kept ps x.1) => ?_) ?_
       (on_goal 1 => clear_value x); (on_goal 2 => unfold x; clear x))
    | (with_reducible refine (?_ : s0.Kept ps _); fail_if_no_progress extract_lets +onlyGivenNames x
       refine (fun (_ : s0.Kept ps x.2) => ?_) ?_
       (on_goal 1 => clear_value x); (on_goal 2 => unfold x; clear x))
    | (with_reducible refine (?_ : s0.Kept ps _); fail_if_no_progress extract_lets +onlyGivenNames y
       clear_value (hy : y = _))
    | with_reducible apply State.command_kept | with_reducible apply State.done_kept
    | with_reducible apply State.unlatch_kept | (intro t ht; with_reducible refine (?_ : s0.Kept ps _))
    | (intro hv e he; obtain ⟨x, hx, rfl⟩ := List.mem_map.1 he; have := hv x hx
       dsimp only; split <;> exact this)
    | (intro p hp; cases p <;>
       first | exact absurd (hl _ (by decide)) hp | rfl)
    | with_reducible exact fun hv => hv | split | dsimp -zeta only
    | with_reducible refine State.Kept.lit ?_ ?_ ?_ ?_ ?_ ?_ ?_ ?_)

end Sys2Proof.Machine
end

