-- ==== Sys2Proof/Laws/KeptEpoch.lean ====
section
/-!
SUPPORT. What the operations and meanings of Machine/Epoch.lean keep (`State.Kept`).
-/

set_option linter.all false
set_option linter.unusedTactic false
set_option linter.unreachableTactic false

namespace Sys2Proof.Machine

/-- The oldest live epoch is not younger than the device epoch (R179). -/
theorem State.oldestEpoch_le (s : State) : s.oldestEpoch ≤ s.epochs.serial := by
  unfold State.oldestEpoch
  generalize s.epochs.serial = m
  suffices h : ∀ (l : Tab Nat) (a : Nat), a ≤ m →
      l.foldl (fun m e => if e.2 != 0 && decide (e.1 < m) then e.1 else m) a ≤ m from h _ _ (Nat.le_refl _)
  intro l
  induction l with
  | nil => intro a ha; exact ha
  | cons e l ih =>
    intro a ha
    refine ih _ ?_
    dsimp only
    split
    · rename_i hc
      simp only [Bool.and_eq_true, decide_eq_true_eq] at hc
      omega
    · exact ha

theorem State.swapTable_kept {ps : List Part} {s0 s : State} (t : Nat) (hl : ∀ p ∈ ([.tables] : List Part), p ∈ ps)
    (h : s0.Kept ps s) : s0.Kept ps (State.swapTable s t) := by
  unfold State.swapTable
  repeat' (first
    | with_reducible assumption | with_reducible exact Part.sub_trans hl (by decide)
    | (with_reducible refine (?_ : s0.Kept ps _); fail_if_no_progress extract_lets +onlyGivenNames x
       refine (fun (_ : s0.Kept ps x) => ?_) ?_
       (on_goal 1 => clear_value x); (on_goal 2 => unfold x; clear x))
    | (with_reducible refine (?_ : s0.Kept ps _); fail_if_no_progress extract_lets +onlyGivenNames y
       clear_value (hy : y = _))
    | (intro p hp; cases p <;>
       first | exact absurd (hl _ (by decide)) hp | rfl)
    | with_reducible exact fun hv => hv | split
    | with_reducible refine State.Kept.lit ?_ ?_ ?_ ?_ ?_ ?_ ?_ ?_)

theorem State.commitTables_kept {ps : List Part} {s0 s : State} (n : Nat) (hl : ∀ p ∈ reports ++ [.tables, .epochs, .flowRt], p ∈ ps)
    (h : s0.Kept ps s) : s0.Kept ps (State.commitTables s n) := by
  unfold State.commitTables
  repeat' (first
    | with_reducible assumption | with_reducible exact Part.sub_trans hl (by decide)
    | (with_reducible refine (?_ : s0.Kept ps _); fail_if_no_progress extract_lets +onlyGivenNames x
       refine (fun (_ : s0.Kept ps x) => ?_) ?_
       (on_goal 1 => clear_value x); (on_goal 2 => unfold x; clear x))
    | (with_reducible refine (?_ : s0.Kept ps _); fail_if_no_progress extract_lets +onlyGivenNames x
       refine (fun (_ : s0.Kept ps x.1) => ?_) ?_
       (on_goal 1 => clear_value x); (on_goal 2 => unfold x; clear x))
    | (with_reducible refine (?_ : s0.Kept ps _); fail_if_no_progress extract_lets +onlyGivenNames x
       refine (fun (_ : s0.Kept ps x.2) => ?_) ?_
       (on_goal 1 => clear_value x); (on_goal 2 => unfold x; clear x))
    | (with_reducible refine (?_ : s0.Kept ps _); fail_if_no_progress extract_lets +onlyGivenNames y
       clear_value (hy : y = _))
    | with_reducible apply State.swapTable_kept | with_reducible apply State.startBuckets_kept
    | with_reducible apply State.clipBuckets_kept | with_reducible apply State.event_kept
    | (intro t a ht; with_reducible refine (?_ : s0.Kept ps _)) | with_reducible apply State.Kept.foldl
    | with_reducible apply State.Kept.foldlFst | with_reducible apply State.Kept.foldlSnd
    | (intro p hp; cases p <;>
       first | exact absurd (hl _ (by decide)) hp | rfl)
    | with_reducible exact fun hv => hv
    | (intro hv; first | exact hv | (subst_vars; first | exact hv | omega)) | split | dsimp -zeta only
    | with_reducible refine State.Kept.lit ?_ ?_ ?_ ?_ ?_ ?_ ?_ ?_)

theorem State.drainEpoch_kept {ps : List Part} {s0 s : State} (hl : ∀ p ∈ reports ++ [.tables, .epochs], p ∈ ps) (h : s0.Kept ps s) :
    s0.Kept ps s.drainEpoch := by
  unfold State.drainEpoch
  split
  · exact h
  · rename_i e m hd
    have he : e + 1 ≤ s.epochs.serial := by
      unfold State.drainedEpoch at hd
      split at hd
      · split at hd
        · cases hd
        · cases hd
          have := s.oldestEpoch_le
          omega
      · cases hd
    exact State.event_kept _ _ _ _ _ _ (Part.sub_trans hl (by decide)) (State.Kept.lit h (by
      intro p hp; cases p <;> first | exact absurd (hl _ (by decide)) hp | rfl) id id id id (fun _ => he) id)

theorem execEpochDrained_kept {ps : List Part} {s0 s : State}  (hl : ∀ p ∈ reports ++ [.tables, .epochs], p ∈ ps)
    (h : s0.Kept ps s) : ∃ t, execEpochDrained s = .next t ∧ s0.Kept ps t := by
  refine ⟨_, rfl, ?_⟩
  repeat' (first
    | with_reducible assumption | with_reducible exact Part.sub_trans hl (by decide)
    | with_reducible apply State.drainEpoch_kept)

theorem execPgWtrExpiry_kept {ps : List Part} {s0 s : State} (group : Nat) (hl : ∀ p ∈ ([.regs, .pgs, .free] : List Part), p ∈ ps)
    (h : s0.Kept ps s) : ∃ t, execPgWtrExpiry group s = .next t ∧ s0.Kept ps t := by
  refine ⟨_, rfl, ?_⟩
  repeat' (first
    | with_reducible assumption | with_reducible exact Part.sub_trans hl (by decide)
    | with_reducible apply State.pgMove_kept | split
    | with_reducible refine State.Kept.lit ?_ ?_ ?_ ?_ ?_ ?_ ?_ ?_)

theorem State.latchDump_kept {ps : List Part} {s0 s : State} (fc : Nat) (hl : ∀ p ∈ reports, p ∈ ps)
    (h : s0.Kept ps s) : s0.Kept ps (State.latchDump s fc) := by
  unfold State.latchDump
  repeat' (first
    | with_reducible assumption | with_reducible exact Part.sub_trans hl (by decide)
    | (with_reducible refine (?_ : s0.Kept ps _); fail_if_no_progress extract_lets +onlyGivenNames y
       clear_value (hy : y = _))
    | with_reducible apply State.event_kept
    | (intro p hp; cases p <;>
       first | exact absurd (hl _ (by decide)) hp | rfl)
    | with_reducible exact fun hv => hv | split | dsimp -zeta only
    | with_reducible refine State.Kept.lit ?_ ?_ ?_ ?_ ?_ ?_ ?_ ?_)

theorem State.writeDump_kept {ps : List Part} {s0 s : State}  (hl : ∀ p ∈ reports, p ∈ ps)
    (h : s0.Kept ps s) : s0.Kept ps (State.writeDump s) := by
  unfold State.writeDump
  repeat' (first
    | with_reducible assumption | with_reducible exact Part.sub_trans hl (by decide)
    | (with_reducible refine (?_ : s0.Kept ps _); fail_if_no_progress extract_lets +onlyGivenNames x
       refine (fun (_ : s0.Kept ps x) => ?_) ?_
       (on_goal 1 => clear_value x); (on_goal 2 => unfold x; clear x))
    | (with_reducible refine (?_ : s0.Kept ps _); fail_if_no_progress extract_lets +onlyGivenNames y
       clear_value (hy : y = _))
    | with_reducible apply State.settleBufs_kept | with_reducible apply State.upRing_kept
    | with_reducible apply State.emit_kept | with_reducible apply State.dmaWrite_kept
    | with_reducible apply State.complete_kept | with_reducible apply State.orF_kept
    | (intro p hp; cases p <;>
       first | exact absurd (hl _ (by decide)) hp | rfl)
    | with_reducible exact fun hv => hv
    | (intro r hr; first | exact hr | (revert hr; simp only [Ring.ok] <;> omega)) | split
    | dsimp -zeta only | with_reducible refine State.Kept.lit ?_ ?_ ?_ ?_ ?_ ?_ ?_ ?_)

theorem execDumpWrite_kept {ps : List Part} {s0 s : State}  (hl : ∀ p ∈ reports, p ∈ ps)
    (h : s0.Kept ps s) : ∃ t, execDumpWrite s = .next t ∧ s0.Kept ps t := by
  refine ⟨_, rfl, ?_⟩
  repeat' (first
    | with_reducible assumption | with_reducible exact Part.sub_trans hl (by decide)
    | with_reducible apply State.writeDump_kept)

theorem State.tookRecs_kept {ps : List Part} {s0 s : State} (lanes : Bool) (n : Nat) (hl : ∀ p ∈ ([.hmk] : List Part), p ∈ ps)
    (h : s0.Kept ps s) : s0.Kept ps (State.tookRecs s lanes n) := by
  unfold State.tookRecs
  repeat' (first
    | with_reducible assumption | with_reducible exact Part.sub_trans hl (by decide)
    | (with_reducible refine (?_ : s0.Kept ps _); fail_if_no_progress extract_lets +onlyGivenNames x
       refine (fun (_ : s0.Kept ps x) => ?_) ?_
       (on_goal 1 => clear_value x); (on_goal 2 => unfold x; clear x))
    | (with_reducible refine (?_ : s0.Kept ps _); fail_if_no_progress extract_lets +onlyGivenNames y
       clear_value (hy : y = _))
    | (intro p hp; cases p <;>
       first | exact absurd (hl _ (by decide)) hp | rfl)
    | with_reducible exact fun hv => hv
    | (intro hv; first | exact hv | (subst_vars; first | exact hv | omega)) | split
    | with_reducible refine State.Kept.lit ?_ ?_ ?_ ?_ ?_ ?_ ?_ ?_)

theorem State.writeTrace_kept {ps : List Part} {s0 s : State}  (hl : ∀ p ∈ reports, p ∈ ps)
    (h : s0.Kept ps s) : s0.Kept ps (State.writeTrace s) := by
  unfold State.writeTrace
  repeat' (first
    | with_reducible assumption | with_reducible exact Part.sub_trans hl (by decide)
    | (with_reducible refine (?_ : s0.Kept ps _); fail_if_no_progress extract_lets +onlyGivenNames x
       refine (fun (_ : s0.Kept ps x) => ?_) ?_
       (on_goal 1 => clear_value x); (on_goal 2 => unfold x; clear x))
    | (with_reducible refine (?_ : s0.Kept ps _); fail_if_no_progress extract_lets +onlyGivenNames y
       clear_value (hy : y = _))
    | with_reducible apply State.settleBufs_kept | with_reducible apply State.tookRecs_kept
    | with_reducible apply State.upRing_kept | with_reducible apply State.emit_kept
    | with_reducible apply State.dmaWrite_kept | with_reducible apply State.complete_kept
    | (intro p hp; cases p <;>
       first | exact absurd (hl _ (by decide)) hp | rfl)
    | with_reducible exact fun hv => hv
    | (intro r hr; first | exact hr | (revert hr; simp only [Ring.ok] <;> omega)) | split
    | dsimp -zeta only | with_reducible refine State.Kept.lit ?_ ?_ ?_ ?_ ?_ ?_ ?_ ?_)

theorem execTraceRingWrite_kept {ps : List Part} {s0 s : State}  (hl : ∀ p ∈ reports, p ∈ ps)
    (h : s0.Kept ps s) : ∃ t, execTraceRingWrite s = .next t ∧ s0.Kept ps t := by
  refine ⟨_, rfl, ?_⟩
  repeat' (first
    | with_reducible assumption | with_reducible exact Part.sub_trans hl (by decide)
    | with_reducible apply State.writeTrace_kept)

end Sys2Proof.Machine
end

