-- ==== Sys2Proof/Laws/KeptRivet.lean ====
section
/-!
SUPPORT. What the operations and meanings of Machine/Rivet.lean keep (`State.Kept`).
-/

set_option linter.all false
set_option linter.unusedTactic false
set_option linter.unreachableTactic false

namespace Sys2Proof.Machine

theorem State.pairEvent_kept {ps : List Part} {s0 s : State} (reason : Nat) (hl : ∀ p ∈ reports, p ∈ ps)
    (h : s0.Kept ps s) : s0.Kept ps (State.pairEvent s reason) := by
  unfold State.pairEvent
  repeat' (first
    | with_reducible assumption | with_reducible exact Part.sub_trans hl (by decide)
    | with_reducible apply State.event_kept)

theorem State.pairNote_kept {ps : List Part} {s0 s : State}  (hl : ∀ p ∈ reports ++ [.free], p ∈ ps)
    (h : s0.Kept ps s) : s0.Kept ps (State.pairNote s) := by
  unfold State.pairNote
  repeat' (first
    | with_reducible assumption | with_reducible exact Part.sub_trans hl (by decide)
    | (with_reducible refine (?_ : s0.Kept ps _); fail_if_no_progress extract_lets +onlyGivenNames x
       refine (fun (_ : s0.Kept ps x) => ?_) ?_
       (on_goal 1 => clear_value x); (on_goal 2 => unfold x; clear x))
    | (with_reducible refine (?_ : s0.Kept ps _); fail_if_no_progress extract_lets +onlyGivenNames x
       refine (fun (_ : s0.Kept ps x.1) => ?_) ?_
       (on_goal 1 => clear_value x); (on_goal 2 => unfold x; clear x))
    | (with_reducible refine (?_ : s0.Kept ps _); fail_if_no_progress extract_lets +onlyGivenNames x
       refine (fun (_ : s0.Kept ps x.2) => ?_) ?_
       (on_goal 1 => clear_value x); (on_goal 2 => unfold x; clear x))
    | (with_reducible refine (?_ : s0.Kept ps _); fail_if_no_progress extract_lets +onlyGivenNames y
       clear_value (hy : y = _))
    | with_reducible apply State.draw_kept
    | with_reducible refine State.draw_kept_eq (pp := (_, _)) (by assumption) ?_ ?_
    | with_reducible apply State.pairEvent_kept | dsimp -zeta only)

theorem State.setPair_kept {ps : List Part} {s0 s : State} (st : Nat) (hl : ∀ p ∈ ([.regs] : List Part), p ∈ ps)
    (h : s0.Kept ps s) : s0.Kept ps (State.setPair s st) := by
  unfold State.setPair
  repeat' (first
    | with_reducible assumption | with_reducible exact Part.sub_trans hl (by decide)
    | with_reducible apply State.setF_kept)

theorem State.setProven_kept {ps : List Part} {s0 s : State} (b : Bool) (hl : ∀ p ∈ ([.regs, .pair] : List Part), p ∈ ps)
    (h : s0.Kept ps s) : s0.Kept ps (State.setProven s b) := by
  unfold State.setProven
  repeat' (first
    | with_reducible assumption | with_reducible exact Part.sub_trans hl (by decide)
    | (with_reducible refine (?_ : s0.Kept ps _); fail_if_no_progress extract_lets +onlyGivenNames x
       refine (fun (_ : s0.Kept ps x) => ?_) ?_
       (on_goal 1 => clear_value x); (on_goal 2 => unfold x; clear x))
    | (with_reducible refine (?_ : s0.Kept ps _); fail_if_no_progress extract_lets +onlyGivenNames y
       clear_value (hy : y = _))
    | with_reducible apply State.setF_kept
    | (intro p hp; cases p <;>
       first | exact absurd (hl _ (by decide)) hp | rfl)
    | with_reducible exact fun hv => hv | with_reducible refine State.Kept.lit ?_ ?_ ?_ ?_ ?_ ?_ ?_ ?_)

theorem State.latchSnapshot_kept {ps : List Part} {s0 s : State}  (hl : ∀ p ∈ ([.pair, .out] : List Part), p ∈ ps)
    (h : s0.Kept ps s) : s0.Kept ps (State.latchSnapshot s) := by
  unfold State.latchSnapshot
  repeat' (first
    | with_reducible assumption | with_reducible exact Part.sub_trans hl (by decide)
    | (with_reducible refine (?_ : s0.Kept ps _); fail_if_no_progress extract_lets +onlyGivenNames x
       refine (fun (_ : s0.Kept ps x) => ?_) ?_
       (on_goal 1 => clear_value x); (on_goal 2 => unfold x; clear x))
    | (with_reducible refine (?_ : s0.Kept ps _); fail_if_no_progress extract_lets +onlyGivenNames y
       clear_value (hy : y = _))
    | with_reducible apply State.emit_kept
    | (intro p hp; cases p <;>
       first | exact absurd (hl _ (by decide)) hp | rfl)
    | with_reducible exact fun hv => hv | split
    | with_reducible refine State.Kept.lit ?_ ?_ ?_ ?_ ?_ ?_ ?_ ?_)

theorem State.proofTick_kept {ps : List Part} {s0 s : State} (fails : Bool) (hl : ∀ p ∈ faulting ++ [.pair], p ∈ ps)
    (h : s0.Kept ps s) : s0.Kept ps (State.proofTick s fails) := by
  unfold State.proofTick
  repeat' (first
    | with_reducible assumption | with_reducible exact Part.sub_trans hl (by decide)
    | (with_reducible refine (?_ : s0.Kept ps _); fail_if_no_progress extract_lets +onlyGivenNames x
       refine (fun (_ : s0.Kept ps x) => ?_) ?_
       (on_goal 1 => clear_value x); (on_goal 2 => unfold x; clear x))
    | (with_reducible refine (?_ : s0.Kept ps _); fail_if_no_progress extract_lets +onlyGivenNames y
       clear_value (hy : y = _))
    | with_reducible apply State.raiseOnce_kept | with_reducible apply State.setProven_kept
    | with_reducible apply State.setF_kept | with_reducible apply State.pairNote_kept
    | (intro p hp; cases p <;>
       first | exact absurd (hl _ (by decide)) hp | rfl)
    | with_reducible exact fun hv => hv | split
    | with_reducible refine State.Kept.lit ?_ ?_ ?_ ?_ ?_ ?_ ?_ ?_)

theorem State.prove_kept {ps : List Part} {s0 s : State} (x : Snapshot) (y : Snapshot) (hl : ∀ p ∈ faulting ++ [.pair], p ∈ ps)
    (h : s0.Kept ps s) : s0.Kept ps (State.prove s x y) := by
  unfold State.prove
  repeat' (first
    | with_reducible assumption | with_reducible exact Part.sub_trans hl (by decide)
    | (with_reducible refine (?_ : s0.Kept ps _); fail_if_no_progress extract_lets +onlyGivenNames x
       refine (fun (_ : s0.Kept ps x) => ?_) ?_
       (on_goal 1 => clear_value x); (on_goal 2 => unfold x; clear x))
    | (with_reducible refine (?_ : s0.Kept ps _); fail_if_no_progress extract_lets +onlyGivenNames x
       refine (fun (_ : s0.Kept ps x.1) => ?_) ?_
       (on_goal 1 => clear_value x); (on_goal 2 => unfold x; clear x))
    | (with_reducible refine (?_ : s0.Kept ps _); fail_if_no_progress extract_lets +onlyGivenNames x
       refine (fun (_ : s0.Kept ps x.2) => ?_) ?_
       (on_goal 1 => clear_value x); (on_goal 2 => unfold x; clear x))
    | (with_reducible refine (?_ : s0.Kept ps _); fail_if_no_progress extract_lets +onlyGivenNames y
       clear_value (hy : y = _))
    | with_reducible apply State.draw_kept
    | with_reducible refine State.draw_kept_eq (pp := (_, _)) (by assumption) ?_ ?_
    | with_reducible apply State.raiseOnce_kept | with_reducible apply State.setF_kept
    | with_reducible apply State.proofTick_kept | split | dsimp -zeta only)

theorem State.proveTick_kept {ps : List Part} {s0 s : State}  (hl : ∀ p ∈ faulting ++ [.pair], p ∈ ps)
    (h : s0.Kept ps s) : s0.Kept ps (State.proveTick s) := by
  unfold State.proveTick
  repeat' (first
    | with_reducible assumption | with_reducible exact Part.sub_trans hl (by decide)
    | (with_reducible refine (?_ : s0.Kept ps _); fail_if_no_progress extract_lets +onlyGivenNames x
       refine (fun (_ : s0.Kept ps x) => ?_) ?_
       (on_goal 1 => clear_value x); (on_goal 2 => unfold x; clear x))
    | (with_reducible refine (?_ : s0.Kept ps _); fail_if_no_progress extract_lets +onlyGivenNames y
       clear_value (hy : y = _))
    | with_reducible apply State.prove_kept
    | (intro p hp; cases p <;>
       first | exact absurd (hl _ (by decide)) hp | rfl)
    | with_reducible exact fun hv => hv | split
    | with_reducible refine State.Kept.lit ?_ ?_ ?_ ?_ ?_ ?_ ?_ ?_)

theorem State.setEpoch_kept {ps : List Part} {s0 s : State} (e : Nat) (hl : ∀ p ∈ ([.epochs] : List Part), p ∈ ps)
    (h : s0.Kept ps s) : s0.Kept ps (State.setEpoch s e) := by
  unfold State.setEpoch
  repeat' (first
    | with_reducible assumption | with_reducible exact Part.sub_trans hl (by decide)
    | (with_reducible refine (?_ : s0.Kept ps _); fail_if_no_progress extract_lets +onlyGivenNames x
       refine (fun (_ : s0.Kept ps x) => ?_) ?_
       (on_goal 1 => clear_value x); (on_goal 2 => unfold x; clear x))
    | (with_reducible refine (?_ : s0.Kept ps _); fail_if_no_progress extract_lets +onlyGivenNames x
       refine (fun (_ : s0.Kept ps x.1) => ?_) ?_
       (on_goal 1 => clear_value x); (on_goal 2 => unfold x; clear x))
    | (with_reducible refine (?_ : s0.Kept ps _); fail_if_no_progress extract_lets +onlyGivenNames x
       refine (fun (_ : s0.Kept ps x.2) => ?_) ?_
       (on_goal 1 => clear_value x); (on_goal 2 => unfold x; clear x))
    | (with_reducible refine (?_ : s0.Kept ps _); fail_if_no_progress extract_lets +onlyGivenNames x
       refine State.Kept.cutMap (l := ps) (s0 := s0) x (fun hmap => ?_) ?_
       (on_goal 1 => clear_value x); (on_goal 2 => intro r hr; unfold x; clear x; try beta_reduce))
    | with_reducible apply hmap
    | (with_reducible refine (?_ : s0.Kept ps _); fail_if_no_progress extract_lets +onlyGivenNames x
       refine State.Kept.cutFun (l := ps) (s0 := s0) x (fun hfun => ?_) ?_
       (on_goal 1 => clear_value x); (on_goal 2 => intro r; unfold x; clear x; try beta_reduce))
    | with_reducible apply hfun
    | (with_reducible refine (?_ : s0.Kept ps _); fail_if_no_progress extract_lets +onlyGivenNames y
       clear_value (hy : y = _))
    | (intro t a ht; with_reducible refine (?_ : s0.Kept ps _))
    | (intro t ht; with_reducible refine (?_ : s0.Kept ps _)) | with_reducible apply State.Kept.foldl
    | with_reducible apply State.Kept.foldlFst | with_reducible apply State.Kept.foldlSnd
    | (intro p hp; cases p <;>
       first | exact absurd (hl _ (by decide)) hp | rfl)
    | with_reducible exact fun hv => hv
    | (intro hv; first | exact hv | (subst_vars; first | exact hv | omega))
    | (intro r hr; first | exact hr | (revert hr; simp only [Ring.ok] <;> omega))
    | with_reducible exact Tab.rising_filter _ _
    | (intro hv; refine Tab.all_set (P := Ring.ok) _ _ _ hv ?_; simp [Ring.ok]) | split
    | dsimp -zeta only | with_reducible refine State.Kept.lit ?_ ?_ ?_ ?_ ?_ ?_ ?_ ?_)

theorem State.refuseJoin_kept {ps : List Part} {s0 s : State}  (hl : ∀ p ∈ reports, p ∈ ps)
    (h : s0.Kept ps s) : s0.Kept ps (State.refuseJoin s) := by
  unfold State.refuseJoin
  repeat' (first
    | with_reducible assumption | with_reducible exact Part.sub_trans hl (by decide)
    | with_reducible apply State.pairEvent_kept | with_reducible apply State.setF_kept)

theorem State.joinTick_kept {ps : List Part} {s0 s : State}  (hl : ∀ p ∈ reports ++ [.epochs, .gens, .pair, .free], p ∈ ps)
    (h : s0.Kept ps s) : s0.Kept ps (State.joinTick s) := by
  unfold State.joinTick
  repeat' (first
    | with_reducible assumption | with_reducible exact Part.sub_trans hl (by decide)
    | (with_reducible refine (?_ : s0.Kept ps _); fail_if_no_progress extract_lets +onlyGivenNames x
       refine (fun (_ : s0.Kept ps x) => ?_) ?_
       (on_goal 1 => clear_value x); (on_goal 2 => unfold x; clear x))
    | (with_reducible refine (?_ : s0.Kept ps _); fail_if_no_progress extract_lets +onlyGivenNames y
       clear_value (hy : y = _))
    | with_reducible apply State.refuseJoin_kept | with_reducible apply State.upGen_kept
    | with_reducible apply State.setPair_kept | with_reducible apply State.setEpoch_kept
    | with_reducible apply State.setProven_kept | with_reducible apply State.pairNote_kept
    | (intro t a ht; with_reducible refine (?_ : s0.Kept ps _)) | with_reducible apply State.Kept.foldl
    | (intro p hp; cases p <;>
       first | exact absurd (hl _ (by decide)) hp | rfl)
    | with_reducible exact fun hv => hv | split | dsimp -zeta only
    | with_reducible refine State.Kept.lit ?_ ?_ ?_ ?_ ?_ ?_ ?_ ?_)

theorem State.endPairSwitch_kept {ps : List Part} {s0 s : State} (status : Nat) (hl : ∀ p ∈ reports ++ [.fw], p ∈ ps)
    (h : s0.Kept ps s) : s0.Kept ps (State.endPairSwitch s status) := by
  unfold State.endPairSwitch
  repeat' (first
    | with_reducible assumption | with_reducible exact Part.sub_trans hl (by decide)
    | (with_reducible refine (?_ : s0.Kept ps _); fail_if_no_progress extract_lets +onlyGivenNames y
       clear_value (hy : y = _))
    | with_reducible apply State.done_kept
    | (intro p hp; cases p <;>
       first | exact absurd (hl _ (by decide)) hp | rfl)
    | with_reducible exact fun hv => hv | split
    | with_reducible refine State.Kept.lit ?_ ?_ ?_ ?_ ?_ ?_ ?_ ?_)

theorem State.switchTick_kept {ps : List Part} {s0 s : State} (n : Nat) (hl : ∀ p ∈ reports ++ [.fw, .pair], p ∈ ps)
    (h : s0.Kept ps s) : s0.Kept ps (State.switchTick s n) := by
  unfold State.switchTick
  repeat' (first
    | with_reducible assumption | with_reducible exact Part.sub_trans hl (by decide)
    | (with_reducible refine (?_ : s0.Kept ps _); fail_if_no_progress extract_lets +onlyGivenNames x
       refine (fun (_ : s0.Kept ps x) => ?_) ?_
       (on_goal 1 => clear_value x); (on_goal 2 => unfold x; clear x))
    | (with_reducible refine (?_ : s0.Kept ps _); fail_if_no_progress extract_lets +onlyGivenNames y
       clear_value (hy : y = _))
    | with_reducible apply State.setF_kept | with_reducible apply State.setProven_kept
    | with_reducible apply State.setPair_kept | with_reducible apply State.pairEvent_kept
    | with_reducible apply State.endPairSwitch_kept
    | (intro p hp; cases p <;>
       first | exact absurd (hl _ (by decide)) hp | rfl)
    | with_reducible exact fun hv => hv | split
    | with_reducible refine State.Kept.lit ?_ ?_ ?_ ?_ ?_ ?_ ?_ ?_)

theorem State.pairTick_kept {ps : List Part} {s0 s : State} (n : Nat) (hl : ∀ p ∈ faulting ++ [.gens, .pair], p ∈ ps)
    (h : s0.Kept ps s) : s0.Kept ps (State.pairTick s n) := by
  unfold State.pairTick
  repeat' (first
    | with_reducible assumption | with_reducible exact Part.sub_trans hl (by decide)
    | (with_reducible refine (?_ : s0.Kept ps _); fail_if_no_progress extract_lets +onlyGivenNames x
       refine (fun (_ : s0.Kept ps x) => ?_) ?_
       (on_goal 1 => clear_value x); (on_goal 2 => unfold x; clear x))
    | (with_reducible refine (?_ : s0.Kept ps _); fail_if_no_progress extract_lets +onlyGivenNames y
       clear_value (hy : y = _))
    | with_reducible apply State.proveTick_kept | with_reducible apply State.joinTick_kept
    | with_reducible apply State.latchSnapshot_kept | with_reducible apply State.switchTick_kept | split)

end Sys2Proof.Machine
end

