-- ==== Sys2Proof/Laws/KeptFlash.lean ====
section
/-!
SUPPORT. What the operations and meanings of Machine/Flash.lean keep (`State.Kept`).
-/

set_option linter.all false
set_option linter.unusedTactic false
set_option linter.unreachableTactic false

namespace Sys2Proof.Machine

theorem Flash.rewriteRecord_bootable (f : Flash) (slot : Nat) (_ : f.bootable = true) :
    (f.rewriteRecord slot).bootable = true := by
  unfold Flash.rewriteRecord Flash.bootable
  split <;> simp

theorem State.commitSvn_kept {ps : List Part} {s0 s : State} (hl : ∀ p ∈ ([.fuses] : List Part), p ∈ ps) (h : s0.Kept ps s) :
    s0.Kept ps s.commitSvn := by
  unfold State.commitSvn
  split
  · rename_i i _
    split
    · rename_i hc
      simp only [Bool.and_eq_true, decide_eq_true_eq] at hc
      exact h.setFuses (Part.sub_trans hl (by decide)) ⟨Nat.le_of_lt hc.2, rfl, id, id⟩
    · exact h
  · exact h

theorem State.hostReady_kept {ps : List Part} {s0 s : State}  (hl : ∀ p ∈ ([.regs, .boot, .flash, .free] : List Part), p ∈ ps)
    (h : s0.Kept ps s) : s0.Kept ps (State.hostReady s) := by
  unfold State.hostReady
  repeat' (first
    | with_reducible assumption | with_reducible exact Part.sub_trans hl (by decide)
    | (with_reducible refine (?_ : s0.Kept ps _); fail_if_no_progress extract_lets +onlyGivenNames x
       refine (fun (_ : s0.Kept ps x) => ?_) ?_
       (on_goal 1 => clear_value x); (on_goal 2 => unfold x; clear x))
    | (with_reducible refine (?_ : s0.Kept ps _); fail_if_no_progress extract_lets +onlyGivenNames x
       refine (fun (_ : s0.Kept ps x.1) => ?_) ?_
       (on_goal 1 => clear_value x); (on_goal 2 => unfold x; clear x))
    | (with_reducible refine (?_ : s0.Kept ps _); fail_if_no_progress extract_lets +onlyGivenNames x
       refine (fun (_ : s0.Kept ps x.2) => ?_) ?_
       (on_goal 1 => clear_value x); (on_goal 2 => unfold x; clear x))
    | (with_reducible refine (?_ : s0.Kept ps _); fail_if_no_progress extract_lets +onlyGivenNames y
       clear_value (hy : y = _))
    | with_reducible apply State.setF_kept | with_reducible apply State.draw_kept
    | with_reducible refine State.draw_kept_eq (pp := (_, _)) (by assumption) ?_ ?_
    | with_reducible exact Flash.rewriteRecord_bootable _ _
    | (intro p hp; cases p <;>
       first | exact absurd (hl _ (by decide)) hp | rfl)
    | with_reducible exact fun hv => hv
    | (intro hv; first | exact hv | (subst_vars; first | exact hv | omega)) | split | dsimp -zeta only
    | with_reducible refine State.Kept.lit ?_ ?_ ?_ ?_ ?_ ?_ ?_ ?_)

theorem State.activateDone_kept {ps : List Part} {s0 s : State}  (hl : ∀ p ∈ reports ++ [.flash, .fw], p ∈ ps)
    (h : s0.Kept ps s) : s0.Kept ps (State.activateDone s) := by
  unfold State.activateDone
  repeat' (first
    | with_reducible assumption | with_reducible exact Part.sub_trans hl (by decide)
    | (with_reducible refine (?_ : s0.Kept ps _); fail_if_no_progress extract_lets +onlyGivenNames y
       clear_value (hy : y = _))
    | with_reducible apply State.done_kept | with_reducible exact Flash.rewriteRecord_bootable _ _
    | (intro p hp; cases p <;>
       first | exact absurd (hl _ (by decide)) hp | rfl)
    | with_reducible exact fun hv => hv
    | (intro hv; first | exact hv | (subst_vars; first | exact hv | omega)) | split
    | with_reducible refine State.Kept.lit ?_ ?_ ?_ ?_ ?_ ?_ ?_ ?_)

theorem State.firstDone_kept {ps : List Part} {s0 s : State}  (hl : ∀ p ∈ reports ++ [.boot, .flash, .fuses, .fw, .free], p ∈ ps)
    (h : s0.Kept ps s) : s0.Kept ps (State.firstDone s) := by
  unfold State.firstDone
  repeat' (first
    | with_reducible assumption | with_reducible exact Part.sub_trans hl (by decide)
    | (with_reducible refine (?_ : s0.Kept ps _); fail_if_no_progress extract_lets +onlyGivenNames x
       refine (fun (_ : s0.Kept ps x) => ?_) ?_
       (on_goal 1 => clear_value x); (on_goal 2 => unfold x; clear x))
    | (with_reducible refine (?_ : s0.Kept ps _); fail_if_no_progress extract_lets +onlyGivenNames y
       clear_value (hy : y = _))
    | with_reducible apply State.setF_kept | with_reducible apply State.activateDone_kept
    | with_reducible apply State.commitSvn_kept | with_reducible apply State.hostReady_kept
    | (intro p hp; cases p <;>
       first | exact absurd (hl _ (by decide)) hp | rfl)
    | with_reducible exact fun hv => hv | split
    | with_reducible refine State.Kept.lit ?_ ?_ ?_ ?_ ?_ ?_ ?_ ?_)

end Sys2Proof.Machine
end

