-- ==== Sys2Proof/Laws/KeptPair.lean ====
section
/-!
SUPPORT. What the operations and meanings of Machine/Pair.lean keep (`State.Kept`).
-/

set_option linter.all false
set_option linter.unusedTactic false
set_option linter.unreachableTactic false

namespace Sys2Proof.Machine

theorem State.heartbeatNow_kept {ps : List Part} {s0 s : State} (k : Nat) (hl : ∀ p ∈ ([.pair, .free] : List Part), p ∈ ps)
    (h : s0.Kept ps s) : s0.Kept ps (State.heartbeatNow s k).2 := by
  unfold State.heartbeatNow
  repeat' (first
    | with_reducible assumption | with_reducible exact Part.sub_trans hl (by decide)
    | (with_reducible refine (?_ : s0.Kept ps _); fail_if_no_progress extract_lets +onlyGivenNames x
       refine (fun (_ : s0.Kept ps x) => ?_) ?_
       (on_goal 1 => clear_value x); (on_goal 2 => unfold x; clear x))
    | (with_reducible refine (?_ : s0.Kept ps _); fail_if_no_progress extract_lets +onlyGivenNames x
       refine (fun (_ : s0.Kept ps x.1) => ?_) ?_
       (on_goal 1 => clear_value x); (on_goal 2 => unfold x; clear x))
    | (with_reducible refine (?_ : s0.Kept ps _); fail_if_no_progress extract_lets +onlyGivenNames x
       refine (fun (_ : s0.Kept ps x.2) => ?_) ?_
       (on_goal 1 => clear_value x); (on_goal 2 => unfold x; clear x))
    | (with_reducible refine (?_ : s0.Kept ps _); fail_if_no_progress extract_lets +onlyGivenNames y
       clear_value (hy : y = _))
    | with_reducible apply State.draw_kept
    | with_reducible refine State.draw_kept_eq (pp := (_, _)) (by assumption) ?_ ?_
    | (intro p hp; cases p <;>
       first | exact absurd (hl _ (by decide)) hp | rfl)
    | with_reducible exact fun hv => hv | split | dsimp -zeta only
    | with_reducible refine State.Kept.lit ?_ ?_ ?_ ?_ ?_ ?_ ?_ ?_)

theorem State.heartbeatNow_kept_eq {ps : List Part} {s0 s : State} {k : Nat} {pp : Heartbeat × State} (hp : State.heartbeatNow s k = pp) (hl : ∀ p ∈ ([.pair, .free] : List Part), p ∈ ps)
    (h : s0.Kept ps s) : s0.Kept ps pp.2 := by
  subst hp; apply State.heartbeatNow_kept <;> assumption

theorem State.sendHeartbeat_kept {ps : List Part} {s0 s : State} (k : Nat) (hl : ∀ p ∈ ([.pair, .free, .out] : List Part), p ∈ ps)
    (h : s0.Kept ps s) : s0.Kept ps (State.sendHeartbeat s k) := by
  unfold State.sendHeartbeat
  repeat' (first
    | with_reducible assumption | with_reducible exact Part.sub_trans hl (by decide)
    | (with_reducible refine (?_ : s0.Kept ps _); fail_if_no_progress extract_lets +onlyGivenNames x
       refine (fun (_ : s0.Kept ps x) => ?_) ?_
       (on_goal 1 => clear_value x); (on_goal 2 => unfold x; clear x))
    | (with_reducible refine (?_ : s0.Kept ps _); fail_if_no_progress extract_lets +onlyGivenNames x
       refine (fun (_ : s0.Kept ps x.1) => ?_) ?_
       (on_goal 1 => clear_value x); (on_goal 2 => unfold x; clear x))
    | (with_reducible refine (?_ : s0.Kept ps _); fail_if_no_progress extract_lets +onlyGivenNames x
       refine (fun (_ : s0.Kept ps x.2) => ?_) ?_
       (on_goal 1 => clear_value x); (on_goal 2 => unfold x; clear x))
    | (with_reducible refine (?_ : s0.Kept ps _); fail_if_no_progress extract_lets +onlyGivenNames y
       clear_value (hy : y = _))
    | with_reducible apply State.heartbeatNow_kept
    | with_reducible refine State.heartbeatNow_kept_eq (pp := (_, _)) (by assumption) ?_ ?_
    | with_reducible apply State.emit_kept | dsimp -zeta only)

theorem execHeartbeatSend_kept {ps : List Part} {s0 s : State} (sub : Nat) (hl : ∀ p ∈ ([.pair, .free, .out] : List Part), p ∈ ps)
    (h : s0.Kept ps s) : ∃ t, execHeartbeatSend sub s = .next t ∧ s0.Kept ps t := by
  refine ⟨_, rfl, ?_⟩
  repeat' (first
    | with_reducible assumption | with_reducible exact Part.sub_trans hl (by decide)
    | with_reducible apply State.sendHeartbeat_kept | split)

theorem State.offsetSample_kept {ps : List Part} {s0 s : State} (hb : Heartbeat) (t4 : Nat) (hl : ∀ p ∈ ([.pair] : List Part), p ∈ ps)
    (h : s0.Kept ps s) : s0.Kept ps (State.offsetSample s hb t4) := by
  unfold State.offsetSample
  repeat' (first
    | with_reducible assumption | with_reducible exact Part.sub_trans hl (by decide)
    | (with_reducible refine (?_ : s0.Kept ps _); fail_if_no_progress extract_lets +onlyGivenNames x
       refine (fun (_ : s0.Kept ps x) => ?_) ?_
       (on_goal 1 => clear_value x); (on_goal 2 => unfold x; clear x))
    | (with_reducible refine (?_ : s0.Kept ps _); fail_if_no_progress extract_lets +onlyGivenNames y
       clear_value (hy : y = _))
    | (intro p hp; cases p <;>
       first | exact absurd (hl _ (by decide)) hp | rfl)
    | with_reducible exact fun hv => hv | split
    | with_reducible refine State.Kept.lit ?_ ?_ ?_ ?_ ?_ ?_ ?_ ?_)

theorem State.takeover_kept {ps : List Part} {s0 s : State} (reason : Nat) (hl : ∀ p ∈ reports ++ [.fw, .pair], p ∈ ps)
    (h : s0.Kept ps s) : s0.Kept ps (State.takeover s reason) := by
  unfold State.takeover
  repeat' (first
    | with_reducible assumption | with_reducible exact Part.sub_trans hl (by decide)
    | (with_reducible refine (?_ : s0.Kept ps _); fail_if_no_progress extract_lets +onlyGivenNames x
       refine (fun (_ : s0.Kept ps x) => ?_) ?_
       (on_goal 1 => clear_value x); (on_goal 2 => unfold x; clear x))
    | (with_reducible refine (?_ : s0.Kept ps _); fail_if_no_progress extract_lets +onlyGivenNames y
       clear_value (hy : y = _))
    | with_reducible apply State.setF_kept | with_reducible apply State.setPair_kept
    | with_reducible apply State.endPairSwitch_kept | with_reducible apply State.pairEvent_kept
    | (intro p hp; cases p <;>
       first | exact absurd (hl _ (by decide)) hp | rfl)
    | with_reducible exact fun hv => hv | split
    | with_reducible refine State.Kept.lit ?_ ?_ ?_ ?_ ?_ ?_ ?_ ?_)

theorem State.rivetCrc_kept {ps : List Part} {s0 s : State}  (hl : ∀ p ∈ ([.pair] : List Part), p ∈ ps)
    (h : s0.Kept ps s) : s0.Kept ps (State.rivetCrc s) := by
  unfold State.rivetCrc
  repeat' (first
    | with_reducible assumption | with_reducible exact Part.sub_trans hl (by decide)
    | (with_reducible refine (?_ : s0.Kept ps _); fail_if_no_progress extract_lets +onlyGivenNames y
       clear_value (hy : y = _))
    | (intro p hp; cases p <;>
       first | exact absurd (hl _ (by decide)) hp | rfl)
    | with_reducible exact fun hv => hv | with_reducible refine State.Kept.lit ?_ ?_ ?_ ?_ ?_ ?_ ?_ ?_)

theorem execHeartbeatReceive_kept {ps : List Part} {s0 s : State} (lane : Nat) (m : HeartbeatIn) (t4 : Nat) (hl : ∀ p ∈ reports ++ [.pinRel, .fw, .quench, .pair, .free], p ∈ ps)
    (h : s0.Kept ps s) : ∃ t, execHeartbeatReceive lane m t4 s = .next t ∧ s0.Kept ps t := by
  refine ⟨_, rfl, ?_⟩
  repeat' (first
    | with_reducible assumption | with_reducible exact Part.sub_trans hl (by decide)
    | (with_reducible refine (?_ : s0.Kept ps _); fail_if_no_progress extract_lets +onlyGivenNames x
       refine (fun (_ : s0.Kept ps x) => ?_) ?_
       (on_goal 1 => clear_value x); (on_goal 2 => unfold x; clear x))
    | (with_reducible refine (?_ : s0.Kept ps _); fail_if_no_progress extract_lets +onlyGivenNames y
       clear_value (hy : y = _))
    | with_reducible apply State.rivetCrc_kept | with_reducible apply State.orF_kept
    | with_reducible apply State.clearFault_kept | with_reducible apply State.offsetSample_kept
    | with_reducible apply State.setF_kept | with_reducible apply State.pairEvent_kept
    | with_reducible apply State.pairNote_kept | with_reducible apply State.setProven_kept
    | with_reducible apply State.setPair_kept | with_reducible apply State.takeover_kept
    | (intro p hp; cases p <;>
       first | exact absurd (hl _ (by decide)) hp | rfl)
    | with_reducible exact fun hv => hv | split
    | with_reducible refine State.Kept.lit ?_ ?_ ?_ ?_ ?_ ?_ ?_ ?_)

theorem execHeartbeatLoss_kept {ps : List Part} {s0 s : State} (lanes : Nat) (peerAct : Bool) (hl : ∀ p ∈ faulting ++ [.pair], p ∈ ps)
    (h : s0.Kept ps s) : ∃ t, execHeartbeatLoss lanes peerAct s = .next t ∧ s0.Kept ps t := by
  refine ⟨_, rfl, ?_⟩
  repeat' (first
    | with_reducible assumption | with_reducible exact Part.sub_trans hl (by decide)
    | (with_reducible refine (?_ : s0.Kept ps _); fail_if_no_progress extract_lets +onlyGivenNames x
       refine (fun (_ : s0.Kept ps x) => ?_) ?_
       (on_goal 1 => clear_value x); (on_goal 2 => unfold x; clear x))
    | (with_reducible refine (?_ : s0.Kept ps _); fail_if_no_progress extract_lets +onlyGivenNames y
       clear_value (hy : y = _))
    | with_reducible apply State.setF_kept | with_reducible apply State.clrF_kept
    | with_reducible apply State.raiseOnce_kept | with_reducible apply State.raise_kept
    | with_reducible apply State.pairEvent_kept | with_reducible apply State.takeover_kept | split)

theorem execPeerActLow_kept {ps : List Part} {s0 s : State}  (hl : ∀ p ∈ reports ++ [.fw, .pair], p ∈ ps)
    (h : s0.Kept ps s) : ∃ t, execPeerActLow s = .next t ∧ s0.Kept ps t := by
  refine ⟨_, rfl, ?_⟩
  repeat' (first
    | with_reducible assumption | with_reducible exact Part.sub_trans hl (by decide)
    | with_reducible apply State.takeover_kept | with_reducible apply State.setF_kept | split)

theorem execSnapshotReceive_kept {ps : List Part} {s0 s : State} (m : SnapshotIn) (hl : ∀ p ∈ reports ++ [.pair], p ∈ ps)
    (h : s0.Kept ps s) : ∃ t, execSnapshotReceive m s = .next t ∧ s0.Kept ps t := by
  refine ⟨_, rfl, ?_⟩
  repeat' (first
    | with_reducible assumption | with_reducible exact Part.sub_trans hl (by decide)
    | (with_reducible refine (?_ : s0.Kept ps _); fail_if_no_progress extract_lets +onlyGivenNames y
       clear_value (hy : y = _))
    | with_reducible apply State.rivetCrc_kept | with_reducible apply State.refuseJoin_kept
    | (intro p hp; cases p <;>
       first | exact absurd (hl _ (by decide)) hp | rfl)
    | with_reducible exact fun hv => hv | split
    | with_reducible refine State.Kept.lit ?_ ?_ ?_ ?_ ?_ ?_ ?_ ?_)

theorem execPairControlMessage_kept {ps : List Part} {s0 s : State} (group : Nat) (cand : Nat) (m : PairMark) (hl : ∀ p ∈ ([.cuts, .pair] : List Part), p ∈ ps)
    (h : s0.Kept ps s) : ∃ t, execPairControlMessage group cand m s = .next t ∧ s0.Kept ps t := by
  refine ⟨_, rfl, ?_⟩
  repeat' (first
    | with_reducible assumption | with_reducible exact Part.sub_trans hl (by decide)
    | (with_reducible refine (?_ : s0.Kept ps _); fail_if_no_progress extract_lets +onlyGivenNames x
       refine (fun (_ : s0.Kept ps x) => ?_) ?_
       (on_goal 1 => clear_value x); (on_goal 2 => unfold x; clear x))
    | (with_reducible refine (?_ : s0.Kept ps _); fail_if_no_progress extract_lets +onlyGivenNames y
       clear_value (hy : y = _))
    | with_reducible apply State.rivetCrc_kept | with_reducible apply State.upCut_kept
    | (intro p hp; cases p <;>
       first | exact absurd (hl _ (by decide)) hp | rfl)
    | with_reducible exact fun hv => hv | split | dsimp -zeta only
    | with_reducible refine State.Kept.lit ?_ ?_ ?_ ?_ ?_ ?_ ?_ ?_)

theorem State.scheduleSwitch_kept {ps : List Part} {s0 s : State} (reason : Nat) (hl : ∀ p ∈ ([.pair, .out] : List Part), p ∈ ps)
    (h : s0.Kept ps s) : s0.Kept ps (State.scheduleSwitch s reason) := by
  unfold State.scheduleSwitch
  repeat' (first
    | with_reducible assumption | with_reducible exact Part.sub_trans hl (by decide)
    | (with_reducible refine (?_ : s0.Kept ps _); fail_if_no_progress extract_lets +onlyGivenNames y
       clear_value (hy : y = _))
    | with_reducible apply State.emit_kept
    | (intro p hp; cases p <;>
       first | exact absurd (hl _ (by decide)) hp | rfl)
    | with_reducible exact fun hv => hv | with_reducible refine State.Kept.lit ?_ ?_ ?_ ?_ ?_ ?_ ?_ ?_)

theorem execPairReturn_kept {ps : List Part} {s0 s : State}  (hl : ∀ p ∈ ([.pair, .out] : List Part), p ∈ ps)
    (h : s0.Kept ps s) : ∃ t, execPairReturn s = .next t ∧ s0.Kept ps t := by
  refine ⟨_, rfl, ?_⟩
  repeat' (first
    | with_reducible assumption | with_reducible exact Part.sub_trans hl (by decide)
    | (with_reducible refine (?_ : s0.Kept ps _); fail_if_no_progress extract_lets +onlyGivenNames y
       clear_value (hy : y = _))
    | with_reducible apply State.scheduleSwitch_kept
    | (intro p hp; cases p <;>
       first | exact absurd (hl _ (by decide)) hp | rfl)
    | with_reducible exact fun hv => hv | split
    | with_reducible refine State.Kept.lit ?_ ?_ ?_ ?_ ?_ ?_ ?_ ?_)

theorem execJoinTimeout_kept {ps : List Part} {s0 s : State}  (hl : ∀ p ∈ reports ++ [.pair, .free], p ∈ ps)
    (h : s0.Kept ps s) : ∃ t, execJoinTimeout s = .next t ∧ s0.Kept ps t := by
  refine ⟨_, rfl, ?_⟩
  repeat' (first
    | with_reducible assumption | with_reducible exact Part.sub_trans hl (by decide)
    | with_reducible apply State.pairNote_kept | with_reducible apply State.setPair_kept
    | (intro p hp; cases p <;>
       first | exact absurd (hl _ (by decide)) hp | rfl)
    | with_reducible exact fun hv => hv | split
    | with_reducible refine State.Kept.lit ?_ ?_ ?_ ?_ ?_ ?_ ?_ ?_)

theorem State.loadPair_kept {ps : List Part} {s0 s : State} (cfg : Nat) (proof : Nat) (link : Nat) (hl : ∀ p ∈ ([.regs] : List Part), p ∈ ps)
    (h : s0.Kept ps s) : s0.Kept ps (State.loadPair s cfg proof link) := by
  unfold State.loadPair
  repeat' (first
    | with_reducible assumption | with_reducible exact Part.sub_trans hl (by decide)
    | (with_reducible refine (?_ : s0.Kept ps _); fail_if_no_progress extract_lets +onlyGivenNames x
       refine (fun (_ : s0.Kept ps x) => ?_) ?_
       (on_goal 1 => clear_value x); (on_goal 2 => unfold x; clear x))
    | (with_reducible refine (?_ : s0.Kept ps _); fail_if_no_progress extract_lets +onlyGivenNames y
       clear_value (hy : y = _))
    | with_reducible apply State.setF_kept)

theorem State.leavePair_kept {ps : List Part} {s0 s : State}  (hl : ∀ p ∈ reports ++ [.pair, .free], p ∈ ps)
    (h : s0.Kept ps s) : s0.Kept ps (State.leavePair s) := by
  unfold State.leavePair
  repeat' (first
    | with_reducible assumption | with_reducible exact Part.sub_trans hl (by decide)
    | (with_reducible refine (?_ : s0.Kept ps _); fail_if_no_progress extract_lets +onlyGivenNames x
       refine (fun (_ : s0.Kept ps x) => ?_) ?_
       (on_goal 1 => clear_value x); (on_goal 2 => unfold x; clear x))
    | (with_reducible refine (?_ : s0.Kept ps _); fail_if_no_progress extract_lets +onlyGivenNames y
       clear_value (hy : y = _))
    | with_reducible apply State.setF_kept | with_reducible apply State.setProven_kept
    | with_reducible apply State.setPair_kept | with_reducible apply State.pairNote_kept
    | with_reducible apply State.sendHeartbeat_kept
    | (intro p hp; cases p <;>
       first | exact absurd (hl _ (by decide)) hp | rfl)
    | with_reducible exact fun hv => hv | with_reducible refine State.Kept.lit ?_ ?_ ?_ ?_ ?_ ?_ ?_ ?_)

theorem State.enterPair_kept {ps : List Part} {s0 s : State}  (hl : ∀ p ∈ reports ++ [.pair, .free], p ∈ ps)
    (h : s0.Kept ps s) : s0.Kept ps (State.enterPair s) := by
  unfold State.enterPair
  repeat' (first
    | with_reducible assumption | with_reducible exact Part.sub_trans hl (by decide)
    | (with_reducible refine (?_ : s0.Kept ps _); fail_if_no_progress extract_lets +onlyGivenNames y
       clear_value (hy : y = _))
    | with_reducible apply State.pairNote_kept | with_reducible apply State.setPair_kept
    | (intro p hp; cases p <;>
       first | exact absurd (hl _ (by decide)) hp | rfl)
    | with_reducible exact fun hv => hv | with_reducible refine State.Kept.lit ?_ ?_ ?_ ?_ ?_ ?_ ?_ ?_)

theorem execPairCfg_kept {ps : List Part} {s0 s : State} (c : Cmd) (hl : ∀ p ∈ reports ++ [.pair, .free], p ∈ ps)
    (h : s0.Kept ps s) : ∃ t, execPairCfg c s = .next t ∧ s0.Kept ps t := by
  refine ⟨_, rfl, ?_⟩
  repeat' (first
    | with_reducible assumption | with_reducible exact Part.sub_trans hl (by decide)
    | (with_reducible refine (?_ : s0.Kept ps _); fail_if_no_progress extract_lets +onlyGivenNames x
       refine (fun (_ : s0.Kept ps x) => ?_) ?_
       (on_goal 1 => clear_value x); (on_goal 2 => unfold x; clear x))
    | (with_reducible refine (?_ : s0.Kept ps _); fail_if_no_progress extract_lets +onlyGivenNames y
       clear_value (hy : y = _))
    | with_reducible apply State.fwCommand_kept | with_reducible apply State.done_kept
    | with_reducible apply State.loadPair_kept | with_reducible apply State.enterPair_kept
    | with_reducible apply State.leavePair_kept
    | (intro t ht; with_reducible refine (?_ : s0.Kept ps _)) | split | dsimp -zeta only)

theorem execPairSwitch_kept {ps : List Part} {s0 s : State} (c : Cmd) (hl : ∀ p ∈ reports ++ [.fw, .pair], p ∈ ps)
    (h : s0.Kept ps s) : ∃ t, execPairSwitch c s = .next t ∧ s0.Kept ps t := by
  refine ⟨_, rfl, ?_⟩
  repeat' (first
    | with_reducible assumption | with_reducible exact Part.sub_trans hl (by decide)
    | (with_reducible refine (?_ : s0.Kept ps _); fail_if_no_progress extract_lets +onlyGivenNames x
       refine (fun (_ : s0.Kept ps x) => ?_) ?_
       (on_goal 1 => clear_value x); (on_goal 2 => unfold x; clear x))
    | (with_reducible refine (?_ : s0.Kept ps _); fail_if_no_progress extract_lets +onlyGivenNames y
       clear_value (hy : y = _))
    | with_reducible apply State.fwCommand_kept | with_reducible apply State.done_kept
    | with_reducible apply State.scheduleSwitch_kept
    | (intro t ht; with_reducible refine (?_ : s0.Kept ps _))
    | (intro p hp; cases p <;>
       first | exact absurd (hl _ (by decide)) hp | rfl)
    | with_reducible exact fun hv => hv | split | dsimp -zeta only
    | with_reducible refine State.Kept.lit ?_ ?_ ?_ ?_ ?_ ?_ ?_ ?_)

end Sys2Proof.Machine
end

