-- ==== Sys2Proof/Laws/KeptDpll.lean ====
section
/-!
SUPPORT. What the operations and meanings of Machine/Dpll.lean keep (`State.Kept`).
-/

set_option linter.all false
set_option linter.unusedTactic false
set_option linter.unreachableTactic false

namespace Sys2Proof.Machine

theorem State.timePending_kept {ps : List Part} {s0 s : State} (id : Nat) (d : Int) (hl : ∀ p ∈ reports, p ∈ ps)
    (h : s0.Kept ps s) : s0.Kept ps (State.timePending s id d) := by
  unfold State.timePending
  repeat' (first
    | with_reducible assumption | with_reducible exact Part.sub_trans hl (by decide)
    | (with_reducible refine (?_ : s0.Kept ps _); fail_if_no_progress extract_lets +onlyGivenNames y
       clear_value (hy : y = _))
    | with_reducible apply State.event_kept
    | (intro p hp; cases p <;>
       first | exact absurd (hl _ (by decide)) hp | rfl)
    | with_reducible exact fun hv => hv | with_reducible refine State.Kept.lit ?_ ?_ ?_ ?_ ?_ ?_ ?_ ?_)

theorem State.openDisc_kept {ps : List Part} {s0 s : State} (d : Int) (hl : ∀ p ∈ reports ++ [.time], p ∈ ps)
    (h : s0.Kept ps s) : s0.Kept ps (State.openDisc s d) := by
  unfold State.openDisc
  repeat' (first
    | with_reducible assumption | with_reducible exact Part.sub_trans hl (by decide)
    | (with_reducible refine (?_ : s0.Kept ps _); fail_if_no_progress extract_lets +onlyGivenNames x
       refine (fun (_ : s0.Kept ps x) => ?_) ?_
       (on_goal 1 => clear_value x); (on_goal 2 => unfold x; clear x))
    | (with_reducible refine (?_ : s0.Kept ps _); fail_if_no_progress extract_lets +onlyGivenNames y
       clear_value (hy : y = _))
    | with_reducible apply State.timePending_kept | with_reducible apply State.setF_kept
    | (intro p hp; cases p <;>
       first | exact absurd (hl _ (by decide)) hp | rfl)
    | with_reducible exact fun hv => hv | split
    | with_reducible refine State.Kept.lit ?_ ?_ ?_ ?_ ?_ ?_ ?_ ?_)

theorem State.closeDisc_kept {ps : List Part} {s0 s : State} (status : Nat) (hl : ∀ p ∈ reports ++ [.time, .fw], p ∈ ps)
    (h : s0.Kept ps s) : s0.Kept ps (State.closeDisc s status) := by
  unfold State.closeDisc
  repeat' (first
    | with_reducible assumption | with_reducible exact Part.sub_trans hl (by decide)
    | (with_reducible refine (?_ : s0.Kept ps _); fail_if_no_progress extract_lets +onlyGivenNames x
       refine (fun (_ : s0.Kept ps x) => ?_) ?_
       (on_goal 1 => clear_value x); (on_goal 2 => unfold x; clear x))
    | (with_reducible refine (?_ : s0.Kept ps _); fail_if_no_progress extract_lets +onlyGivenNames y
       clear_value (hy : y = _))
    | with_reducible apply State.endTimeAuth_kept | with_reducible apply State.setF_kept
    | (intro p hp; cases p <;>
       first | exact absurd (hl _ (by decide)) hp | rfl)
    | with_reducible exact fun hv => hv | with_reducible refine State.Kept.lit ?_ ?_ ?_ ?_ ?_ ?_ ?_ ?_)

theorem State.confirmDisc_kept {ps : List Part} {s0 s : State} (r : Disc) (d : Int) (hl : ∀ p ∈ ([.time] : List Part), p ∈ ps)
    (h : s0.Kept ps s) : s0.Kept ps (State.confirmDisc s r d) := by
  unfold State.confirmDisc
  repeat' (first
    | with_reducible assumption | with_reducible exact Part.sub_trans hl (by decide)
    | (with_reducible refine (?_ : s0.Kept ps _); fail_if_no_progress extract_lets +onlyGivenNames x
       refine (fun (_ : s0.Kept ps x) => ?_) ?_
       (on_goal 1 => clear_value x); (on_goal 2 => unfold x; clear x))
    | (with_reducible refine (?_ : s0.Kept ps _); fail_if_no_progress extract_lets +onlyGivenNames y
       clear_value (hy : y = _))
    | (intro p hp; cases p <;>
       first | exact absurd (hl _ (by decide)) hp | rfl)
    | with_reducible exact fun hv => hv | with_reducible refine State.Kept.lit ?_ ?_ ?_ ?_ ?_ ?_ ?_ ?_)

theorem State.applyPolicy_kept {ps : List Part} {s0 s : State} (d : Int) (hl : ∀ p ∈ reports ++ [.time, .fw], p ∈ ps)
    (h : s0.Kept ps s) : s0.Kept ps (State.applyPolicy s d) := by
  unfold State.applyPolicy
  repeat' (first
    | with_reducible assumption | with_reducible exact Part.sub_trans hl (by decide)
    | (with_reducible refine (?_ : s0.Kept ps _); fail_if_no_progress extract_lets +onlyGivenNames x
       refine (fun (_ : s0.Kept ps x) => ?_) ?_
       (on_goal 1 => clear_value x); (on_goal 2 => unfold x; clear x))
    | (with_reducible refine (?_ : s0.Kept ps _); fail_if_no_progress extract_lets +onlyGivenNames y
       clear_value (hy : y = _))
    | with_reducible apply State.closeDisc_kept | with_reducible apply State.timePending_kept
    | with_reducible apply State.confirmDisc_kept | with_reducible apply State.openDisc_kept
    | (intro p hp; cases p <;>
       first | exact absurd (hl _ (by decide)) hp | rfl)
    | with_reducible exact fun hv => hv | split
    | with_reducible refine State.Kept.lit ?_ ?_ ?_ ?_ ?_ ?_ ?_ ?_)

theorem State.gateQualifies_kept {ps : List Part} {s0 s : State} (i : Nat) (hl : ∀ p ∈ reports ++ [.refs], p ∈ ps)
    (h : s0.Kept ps s) : s0.Kept ps (State.gateQualifies s i) := by
  unfold State.gateQualifies
  repeat' (first
    | with_reducible assumption | with_reducible exact Part.sub_trans hl (by decide)
    | (with_reducible refine (?_ : s0.Kept ps _); fail_if_no_progress extract_lets +onlyGivenNames x
       refine (fun (_ : s0.Kept ps x) => ?_) ?_
       (on_goal 1 => clear_value x); (on_goal 2 => unfold x; clear x))
    | (with_reducible refine (?_ : s0.Kept ps _); fail_if_no_progress extract_lets +onlyGivenNames y
       clear_value (hy : y = _))
    | with_reducible apply State.setRef_kept | with_reducible apply State.upRef_kept
    | (intro p hp; cases p <;>
       first | exact absurd (hl _ (by decide)) hp | rfl)
    | with_reducible exact fun hv => hv | split | dsimp -zeta only
    | with_reducible refine State.Kept.lit ?_ ?_ ?_ ?_ ?_ ?_ ?_ ?_)

theorem execRefGateEnd_kept {ps : List Part} {s0 s : State} (i : Nat) (foff : Int) (hl : ∀ p ∈ reports ++ [.refs], p ∈ ps)
    (h : s0.Kept ps s) : ∃ t, execRefGateEnd i foff s = .next t ∧ s0.Kept ps t := by
  refine ⟨_, rfl, ?_⟩
  repeat' (first
    | with_reducible assumption | with_reducible exact Part.sub_trans hl (by decide)
    | (with_reducible refine (?_ : s0.Kept ps _); fail_if_no_progress extract_lets +onlyGivenNames x
       refine (fun (_ : s0.Kept ps x) => ?_) ?_
       (on_goal 1 => clear_value x); (on_goal 2 => unfold x; clear x))
    | (with_reducible refine (?_ : s0.Kept ps _); fail_if_no_progress extract_lets +onlyGivenNames y
       clear_value (hy : y = _))
    | with_reducible apply State.setF_kept | with_reducible apply State.upRef_kept
    | with_reducible apply State.failRef_kept | with_reducible apply State.gateQualifies_kept
    | with_reducible apply State.setRef_kept
    | (intro p hp; cases p <;>
       first | exact absurd (hl _ (by decide)) hp | rfl)
    | with_reducible exact fun hv => hv | split | dsimp -zeta only
    | with_reducible refine State.Kept.lit ?_ ?_ ?_ ?_ ?_ ?_ ?_ ?_)

theorem State.dropTrace_kept {ps : List Part} {s0 s : State}  (hl : ∀ p ∈ faulting, p ∈ ps)
    (h : s0.Kept ps s) : s0.Kept ps (State.dropTrace s) := by
  unfold State.dropTrace
  repeat' (first
    | with_reducible assumption | with_reducible exact Part.sub_trans hl (by decide)
    | (with_reducible refine (?_ : s0.Kept ps _); fail_if_no_progress extract_lets +onlyGivenNames x
       refine (fun (_ : s0.Kept ps x) => ?_) ?_
       (on_goal 1 => clear_value x); (on_goal 2 => unfold x; clear x))
    | (with_reducible refine (?_ : s0.Kept ps _); fail_if_no_progress extract_lets +onlyGivenNames y
       clear_value (hy : y = _))
    | with_reducible apply State.setF_kept | with_reducible apply State.raiseOnce_kept
    | with_reducible apply State.endTemperRun_kept
    | (intro p hp; cases p <;>
       first | exact absurd (hl _ (by decide)) hp | rfl)
    | with_reducible exact fun hv => hv | with_reducible refine State.Kept.lit ?_ ?_ ?_ ?_ ?_ ?_ ?_ ?_)

theorem State.traceWatch_kept {ps : List Part} {s0 s : State}  (hl : ∀ p ∈ faulting, p ∈ ps)
    (h : s0.Kept ps s) : s0.Kept ps (State.traceWatch s) := by
  unfold State.traceWatch
  repeat' (first
    | with_reducible assumption | with_reducible exact Part.sub_trans hl (by decide)
    | with_reducible apply State.dropTrace_kept | split)

theorem execRefActivityLoss_kept {ps : List Part} {s0 s : State} (i : Nat) (hl : ∀ p ∈ faulting, p ∈ ps)
    (h : s0.Kept ps s) : ∃ t, execRefActivityLoss i s = .next t ∧ s0.Kept ps t := by
  refine ⟨_, rfl, ?_⟩
  repeat' (first
    | with_reducible assumption | with_reducible exact Part.sub_trans hl (by decide)
    | with_reducible apply State.traceWatch_kept | with_reducible apply State.failRef_kept
    | with_reducible apply State.setF_kept | split)

theorem execRefFastFrequencyFail_kept {ps : List Part} {s0 s : State} (i : Nat) (hl : ∀ p ∈ faulting, p ∈ ps)
    (h : s0.Kept ps s) : ∃ t, execRefFastFrequencyFail i s = .next t ∧ s0.Kept ps t := by
  refine ⟨_, rfl, ?_⟩
  repeat' (first
    | with_reducible assumption | with_reducible exact Part.sub_trans hl (by decide)
    | with_reducible apply State.traceWatch_kept | with_reducible apply State.failRef_kept
    | with_reducible apply State.setF_kept | split)

theorem execQualMsExpiry_kept {ps : List Part} {s0 s : State} (i : Nat) (hl : ∀ p ∈ reports ++ [.refs], p ∈ ps)
    (h : s0.Kept ps s) : ∃ t, execQualMsExpiry i s = .next t ∧ s0.Kept ps t := by
  refine ⟨_, rfl, ?_⟩
  repeat' (first
    | with_reducible assumption | with_reducible exact Part.sub_trans hl (by decide)
    | (with_reducible refine (?_ : s0.Kept ps _); fail_if_no_progress extract_lets +onlyGivenNames x
       refine (fun (_ : s0.Kept ps x) => ?_) ?_
       (on_goal 1 => clear_value x); (on_goal 2 => unfold x; clear x))
    | (with_reducible refine (?_ : s0.Kept ps _); fail_if_no_progress extract_lets +onlyGivenNames y
       clear_value (hy : y = _))
    | with_reducible apply State.upRef_kept | with_reducible apply State.setRef_kept
    | (intro p hp; cases p <;>
       first | exact absurd (hl _ (by decide)) hp | rfl)
    | with_reducible exact fun hv => hv | split | dsimp -zeta only
    | with_reducible refine State.Kept.lit ?_ ?_ ?_ ?_ ?_ ?_ ?_ ?_)

theorem execRef25AgeOut_kept {ps : List Part} {s0 s : State}  (hl : ∀ p ∈ reports ++ [.refs], p ∈ ps)
    (h : s0.Kept ps s) : ∃ t, execRef25AgeOut s = .next t ∧ s0.Kept ps t := by
  refine ⟨_, rfl, ?_⟩
  repeat' (first
    | with_reducible assumption | with_reducible exact Part.sub_trans hl (by decide)
    | with_reducible apply State.setRef_kept | with_reducible apply State.setF_kept | split)

theorem State.deliverOffset_kept {ps : List Part} {s0 s : State} (d : Int) (hl : ∀ p ∈ reports ++ [.time, .refs], p ∈ ps)
    (h : s0.Kept ps s) : s0.Kept ps (State.deliverOffset s d) := by
  unfold State.deliverOffset
  repeat' (first
    | with_reducible assumption | with_reducible exact Part.sub_trans hl (by decide)
    | (with_reducible refine (?_ : s0.Kept ps _); fail_if_no_progress extract_lets +onlyGivenNames x
       refine (fun (_ : s0.Kept ps x) => ?_) ?_
       (on_goal 1 => clear_value x); (on_goal 2 => unfold x; clear x))
    | (with_reducible refine (?_ : s0.Kept ps _); fail_if_no_progress extract_lets +onlyGivenNames y
       clear_value (hy : y = _))
    | with_reducible apply State.setRef_kept
    | (intro p hp; cases p <;>
       first | exact absurd (hl _ (by decide)) hp | rfl)
    | with_reducible exact fun hv => hv | split
    | with_reducible refine State.Kept.lit ?_ ?_ ?_ ?_ ?_ ?_ ?_ ?_)

theorem State.settleRef_kept {ps : List Part} {s0 s : State} (i : Nat) (dnuWas : Bool) (hl : ∀ p ∈ reports ++ [.refs], p ∈ ps)
    (h : s0.Kept ps s) : s0.Kept ps (State.settleRef s i dnuWas) := by
  unfold State.settleRef
  repeat' (first
    | with_reducible assumption | with_reducible exact Part.sub_trans hl (by decide)
    | (with_reducible refine (?_ : s0.Kept ps _); fail_if_no_progress extract_lets +onlyGivenNames x
       refine (fun (_ : s0.Kept ps x) => ?_) ?_
       (on_goal 1 => clear_value x); (on_goal 2 => unfold x; clear x))
    | (with_reducible refine (?_ : s0.Kept ps _); fail_if_no_progress extract_lets +onlyGivenNames y
       clear_value (hy : y = _))
    | with_reducible apply State.setF_kept | with_reducible apply State.setRef_kept
    | with_reducible apply State.upRef_kept | with_reducible apply State.failRef_kept
    | with_reducible apply State.requalifySlot_kept
    | (intro p hp; cases p <;>
       first | exact absurd (hl _ (by decide)) hp | rfl)
    | with_reducible exact fun hv => hv | split | dsimp -zeta only
    | with_reducible refine State.Kept.lit ?_ ?_ ?_ ?_ ?_ ?_ ?_ ?_)

theorem State.loadRef_kept {ps : List Part} {s0 s : State} (i : Nat) (w : List Word) (hl : ∀ p ∈ reports ++ [.refs], p ∈ ps)
    (h : s0.Kept ps s) : s0.Kept ps (State.loadRef s i w) := by
  unfold State.loadRef
  repeat' (first
    | with_reducible assumption | with_reducible exact Part.sub_trans hl (by decide)
    | (with_reducible refine (?_ : s0.Kept ps _); fail_if_no_progress extract_lets +onlyGivenNames x
       refine (fun (_ : s0.Kept ps x) => ?_) ?_
       (on_goal 1 => clear_value x); (on_goal 2 => unfold x; clear x))
    | (with_reducible refine (?_ : s0.Kept ps _); fail_if_no_progress extract_lets +onlyGivenNames y
       clear_value (hy : y = _))
    | with_reducible apply State.setF_kept | with_reducible apply State.settleRef_kept | split)

theorem State.loadRefs_kept {ps : List Part} {s0 s : State}  (hl : ∀ p ∈ reports ++ [.refs], p ∈ ps)
    (h : s0.Kept ps s) : s0.Kept ps (State.loadRefs s) := by
  unfold State.loadRefs
  repeat' (first
    | with_reducible assumption | with_reducible exact Part.sub_trans hl (by decide)
    | (with_reducible refine (?_ : s0.Kept ps _); fail_if_no_progress extract_lets +onlyGivenNames y
       clear_value (hy : y = _))
    | with_reducible apply State.loadRef_kept | with_reducible apply State.upRef_kept
    | (intro t a ht; with_reducible refine (?_ : s0.Kept ps _)) | with_reducible apply State.Kept.foldl
    | (intro p hp; cases p <;>
       first | exact absurd (hl _ (by decide)) hp | rfl)
    | with_reducible exact fun hv => hv | split | dsimp -zeta only
    | with_reducible refine State.Kept.lit ?_ ?_ ?_ ?_ ?_ ?_ ?_ ?_)

theorem execRefCfg_kept {ps : List Part} {s0 s : State} (c : Cmd) (hl : ∀ p ∈ reports ++ [.refs], p ∈ ps)
    (h : s0.Kept ps s) : ∃ t, execRefCfg c s = .next t ∧ s0.Kept ps t := by
  refine ⟨_, rfl, ?_⟩
  repeat' (first
    | with_reducible assumption | with_reducible exact Part.sub_trans hl (by decide)
    | (with_reducible refine (?_ : s0.Kept ps _); fail_if_no_progress extract_lets +onlyGivenNames y
       clear_value (hy : y = _))
    | with_reducible apply State.fwCommand_kept | with_reducible apply State.done_kept
    | with_reducible apply State.upRef_kept | (intro t ht; with_reducible refine (?_ : s0.Kept ps _))
    | (intro p hp; cases p <;>
       first | exact absurd (hl _ (by decide)) hp | rfl)
    | with_reducible exact fun hv => hv | split | dsimp -zeta only
    | with_reducible refine State.Kept.lit ?_ ?_ ?_ ?_ ?_ ?_ ?_ ?_)

theorem State.setDpll_kept {ps : List Part} {s0 s : State} (k : Nat) (st : Nat) (hl : ∀ p ∈ faulting ++ [.pinRel], p ∈ ps)
    (h : s0.Kept ps s) : s0.Kept ps (State.setDpll s k st) := by
  unfold State.setDpll
  repeat' (first
    | with_reducible assumption | with_reducible exact Part.sub_trans hl (by decide)
    | (with_reducible refine (?_ : s0.Kept ps _); fail_if_no_progress extract_lets +onlyGivenNames x
       refine (fun (_ : s0.Kept ps x) => ?_) ?_
       (on_goal 1 => clear_value x); (on_goal 2 => unfold x; clear x))
    | (with_reducible refine (?_ : s0.Kept ps _); fail_if_no_progress extract_lets +onlyGivenNames y
       clear_value (hy : y = _))
    | with_reducible apply State.orF_kept | with_reducible apply State.setF_kept
    | with_reducible apply State.event_kept | with_reducible apply State.raise_kept
    | with_reducible apply State.clearFault_kept | with_reducible apply State.settleRef_kept | split)

theorem State.clearHistory_kept {ps : List Part} {s0 s : State} (k : Nat) (hl : ∀ p ∈ ([.dplls] : List Part), p ∈ ps)
    (h : s0.Kept ps s) : s0.Kept ps (State.clearHistory s k) := by
  unfold State.clearHistory
  repeat' (first
    | with_reducible assumption | with_reducible exact Part.sub_trans hl (by decide)
    | (with_reducible refine (?_ : s0.Kept ps _); fail_if_no_progress extract_lets +onlyGivenNames y
       clear_value (hy : y = _))
    | with_reducible apply State.upDpll_kept
    | (intro p hp; cases p <;>
       first | exact absurd (hl _ (by decide)) hp | rfl)
    | with_reducible exact fun hv => hv | dsimp -zeta only
    | with_reducible refine State.Kept.lit ?_ ?_ ?_ ?_ ?_ ?_ ?_ ?_)

theorem State.acquire_kept {ps : List Part} {s0 s : State} (k : Nat) (e : Nat) (hl : ∀ p ∈ faulting ++ [.pinRel, .dplls], p ∈ ps)
    (h : s0.Kept ps s) : s0.Kept ps (State.acquire s k e) := by
  unfold State.acquire
  repeat' (first
    | with_reducible assumption | with_reducible exact Part.sub_trans hl (by decide)
    | with_reducible apply State.setDpll_kept | with_reducible apply State.setF_kept
    | with_reducible apply State.upDpll_kept | split | dsimp -zeta only
    | with_reducible refine State.Kept.lit ?_ ?_ ?_ ?_ ?_ ?_ ?_ ?_)

theorem State.switchTo_kept {ps : List Part} {s0 s : State} (k : Nat) (e : Nat) (hl : ∀ p ∈ faulting ++ [.pinRel, .dplls], p ∈ ps)
    (h : s0.Kept ps s) : s0.Kept ps (State.switchTo s k e) := by
  unfold State.switchTo
  repeat' (first
    | with_reducible assumption | with_reducible exact Part.sub_trans hl (by decide)
    | (with_reducible refine (?_ : s0.Kept ps _); fail_if_no_progress extract_lets +onlyGivenNames y
       clear_value (hy : y = _))
    | with_reducible apply State.upDpll_kept | with_reducible apply State.acquire_kept
    | with_reducible apply State.setF_kept
    | (intro p hp; cases p <;>
       first | exact absurd (hl _ (by decide)) hp | rfl)
    | with_reducible exact fun hv => hv | dsimp -zeta only
    | with_reducible refine State.Kept.lit ?_ ?_ ?_ ?_ ?_ ?_ ?_ ?_)

theorem State.holdAt_kept {ps : List Part} {s0 s : State} (k : Nat) (st : Nat) (f : Int) (keep : Bool) (hl : ∀ p ∈ faulting ++ [.pinRel, .dplls], p ∈ ps)
    (h : s0.Kept ps s) : s0.Kept ps (State.holdAt s k st f keep) := by
  unfold State.holdAt
  repeat' (first
    | with_reducible assumption | with_reducible exact Part.sub_trans hl (by decide)
    | (with_reducible refine (?_ : s0.Kept ps _); fail_if_no_progress extract_lets +onlyGivenNames y
       clear_value (hy : y = _))
    | with_reducible apply State.setDpll_kept | with_reducible apply State.upDpll_kept
    | (intro p hp; cases p <;>
       first | exact absurd (hl _ (by decide)) hp | rfl)
    | with_reducible exact fun hv => hv | split | dsimp -zeta only
    | with_reducible refine State.Kept.lit ?_ ?_ ?_ ?_ ?_ ?_ ?_ ?_)

theorem State.loadDpll_kept {ps : List Part} {s0 s : State} (k : Nat) (w : List Word) (hl : ∀ p ∈ ([.regs] : List Part), p ∈ ps)
    (h : s0.Kept ps s) : s0.Kept ps (State.loadDpll s k w) := by
  unfold State.loadDpll
  repeat' (first
    | with_reducible assumption | with_reducible exact Part.sub_trans hl (by decide)
    | (with_reducible refine (?_ : s0.Kept ps _); fail_if_no_progress extract_lets +onlyGivenNames x
       refine (fun (_ : s0.Kept ps x) => ?_) ?_
       (on_goal 1 => clear_value x); (on_goal 2 => unfold x; clear x))
    | (with_reducible refine (?_ : s0.Kept ps _); fail_if_no_progress extract_lets +onlyGivenNames y
       clear_value (hy : y = _))
    | with_reducible apply State.setF_kept | (intro t a ht; with_reducible refine (?_ : s0.Kept ps _))
    | with_reducible apply State.Kept.foldl | dsimp -zeta only)

theorem State.takeDpllCfg_kept {ps : List Part} {s0 s : State} (k : Nat) (hl : ∀ p ∈ ([.regs, .dplls] : List Part), p ∈ ps)
    (h : s0.Kept ps s) : s0.Kept ps (State.takeDpllCfg s k).1 := by
  unfold State.takeDpllCfg
  repeat' (first
    | with_reducible assumption | with_reducible exact Part.sub_trans hl (by decide)
    | (with_reducible refine (?_ : s0.Kept ps _); fail_if_no_progress extract_lets +onlyGivenNames y
       clear_value (hy : y = _))
    | with_reducible apply State.loadDpll_kept | with_reducible apply State.upDpll_kept
    | (intro p hp; cases p <;>
       first | exact absurd (hl _ (by decide)) hp | rfl)
    | with_reducible exact fun hv => hv | split | dsimp -zeta only
    | with_reducible refine State.Kept.lit ?_ ?_ ?_ ?_ ?_ ?_ ?_ ?_)

theorem State.takeDpllCfg_kept_eq {ps : List Part} {s0 s : State} {k : Nat} {pp : State × Option (List Nat)} (hp : State.takeDpllCfg s k = pp) (hl : ∀ p ∈ ([.regs, .dplls] : List Part), p ∈ ps)
    (h : s0.Kept ps s) : s0.Kept ps pp.1 := by
  subst hp; apply State.takeDpllCfg_kept <;> assumption

theorem State.reportPps_kept {ps : List Part} {s0 s : State} (k : Nat) (e : Option Nat) (pulse : Bool) (perr : Int) (hl : ∀ p ∈ reports ++ [.time, .fw], p ∈ ps)
    (h : s0.Kept ps s) : s0.Kept ps (State.reportPps s k e pulse perr) := by
  unfold State.reportPps
  repeat' (first
    | with_reducible assumption | with_reducible exact Part.sub_trans hl (by decide)
    | (with_reducible refine (?_ : s0.Kept ps _); fail_if_no_progress extract_lets +onlyGivenNames y
       clear_value (hy : y = _))
    | with_reducible apply State.applyPolicy_kept
    | (intro p hp; cases p <;>
       first | exact absurd (hl _ (by decide)) hp | rfl)
    | with_reducible exact fun hv => hv | split
    | with_reducible refine State.Kept.lit ?_ ?_ ?_ ?_ ?_ ?_ ?_ ?_)

theorem State.slewOffset_kept {ps : List Part} {s0 s : State} (was : Nat) (k : Nat) (perr : Int) (hl : ∀ p ∈ ([.time] : List Part), p ∈ ps)
    (h : s0.Kept ps s) : s0.Kept ps (State.slewOffset s was k perr) := by
  unfold State.slewOffset
  repeat' (first
    | with_reducible assumption | with_reducible exact Part.sub_trans hl (by decide)
    | (with_reducible refine (?_ : s0.Kept ps _); fail_if_no_progress extract_lets +onlyGivenNames y
       clear_value (hy : y = _))
    | (intro p hp; cases p <;>
       first | exact absurd (hl _ (by decide)) hp | rfl)
    | with_reducible exact fun hv => hv | split
    | with_reducible refine State.Kept.lit ?_ ?_ ?_ ?_ ?_ ?_ ?_ ?_)

theorem State.tryAcquire_kept {ps : List Part} {s0 s : State} (k : Nat) (perr : Int) (pulse : Bool) (hl : ∀ p ∈ faulting ++ [.pinRel, .dplls], p ∈ ps)
    (h : s0.Kept ps s) : s0.Kept ps (State.tryAcquire s k perr pulse) := by
  unfold State.tryAcquire
  repeat' (first
    | with_reducible assumption | with_reducible exact Part.sub_trans hl (by decide)
    | (with_reducible refine (?_ : s0.Kept ps _); fail_if_no_progress extract_lets +onlyGivenNames x
       refine (fun (_ : s0.Kept ps x) => ?_) ?_
       (on_goal 1 => clear_value x); (on_goal 2 => unfold x; clear x))
    | (with_reducible refine (?_ : s0.Kept ps _); fail_if_no_progress extract_lets +onlyGivenNames y
       clear_value (hy : y = _))
    | with_reducible apply State.reportPps_kept | with_reducible apply State.acquire_kept | split
    | with_reducible refine State.Kept.lit ?_ ?_ ?_ ?_ ?_ ?_ ?_ ?_)

theorem State.tryHold_kept {ps : List Part} {s0 s : State} (k : Nat) (perr : Int) (pulse : Bool) (old : Option (List Nat)) (hl : ∀ p ∈ faulting ++ [.pinRel, .dplls], p ∈ ps)
    (h : s0.Kept ps s) : s0.Kept ps (State.tryHold s k perr pulse old) := by
  unfold State.tryHold
  repeat' (first
    | with_reducible assumption | with_reducible exact Part.sub_trans hl (by decide)
    | (with_reducible refine (?_ : s0.Kept ps _); fail_if_no_progress extract_lets +onlyGivenNames x
       refine (fun (_ : s0.Kept ps x) => ?_) ?_
       (on_goal 1 => clear_value x); (on_goal 2 => unfold x; clear x))
    | (with_reducible refine (?_ : s0.Kept ps _); fail_if_no_progress extract_lets +onlyGivenNames y
       clear_value (hy : y = _))
    | with_reducible apply State.reportPps_kept | with_reducible apply State.holdAt_kept
    | with_reducible apply State.switchTo_kept | with_reducible apply State.setF_kept
    | with_reducible apply State.setDpll_kept | split
    | with_reducible refine State.Kept.lit ?_ ?_ ?_ ?_ ?_ ?_ ?_ ?_)

theorem State.dpllSelect_kept {ps : List Part} {s0 s : State} (k : Nat) (perr : Int) (pulse : Bool) (old : Option (List Nat)) (hl : ∀ p ∈ faulting ++ [.pinRel, .dplls], p ∈ ps)
    (h : s0.Kept ps s) : s0.Kept ps (State.dpllSelect s k perr pulse old) := by
  unfold State.dpllSelect
  repeat' (first
    | with_reducible assumption | with_reducible exact Part.sub_trans hl (by decide)
    | (with_reducible refine (?_ : s0.Kept ps _); fail_if_no_progress extract_lets +onlyGivenNames x
       refine (fun (_ : s0.Kept ps x) => ?_) ?_
       (on_goal 1 => clear_value x); (on_goal 2 => unfold x; clear x))
    | (with_reducible refine (?_ : s0.Kept ps _); fail_if_no_progress extract_lets +onlyGivenNames y
       clear_value (hy : y = _))
    | with_reducible apply State.setDpll_kept | with_reducible apply State.upDpll_kept
    | with_reducible apply State.clearHistory_kept | with_reducible apply State.tryHold_kept
    | with_reducible apply State.tryAcquire_kept
    | (intro p hp; cases p <;>
       first | exact absurd (hl _ (by decide)) hp | rfl)
    | with_reducible exact fun hv => hv | split | dsimp -zeta only
    | with_reducible refine State.Kept.lit ?_ ?_ ?_ ?_ ?_ ?_ ?_ ?_)

theorem State.takeZero_kept {ps : List Part} {s0 s : State} (k : Nat) (err : Int) (hl : ∀ p ∈ ([.regs, .dplls] : List Part), p ∈ ps)
    (h : s0.Kept ps s) : s0.Kept ps (State.takeZero s k err) := by
  unfold State.takeZero
  repeat' (first
    | with_reducible assumption | with_reducible exact Part.sub_trans hl (by decide)
    | (with_reducible refine (?_ : s0.Kept ps _); fail_if_no_progress extract_lets +onlyGivenNames x
       refine (fun (_ : s0.Kept ps x) => ?_) ?_
       (on_goal 1 => clear_value x); (on_goal 2 => unfold x; clear x))
    | (with_reducible refine (?_ : s0.Kept ps _); fail_if_no_progress extract_lets +onlyGivenNames y
       clear_value (hy : y = _))
    | with_reducible apply State.upDpll_kept | with_reducible apply State.setF_kept
    | (intro p hp; cases p <;>
       first | exact absurd (hl _ (by decide)) hp | rfl)
    | with_reducible exact fun hv => hv | split | dsimp -zeta only
    | with_reducible refine State.Kept.lit ?_ ?_ ?_ ?_ ?_ ?_ ?_ ?_)

theorem State.loopGoal_kept {ps : List Part} {s0 s : State} (k : Nat) (hl : ∀ p ∈ ([.free] : List Part), p ∈ ps)
    (h : s0.Kept ps s) : s0.Kept ps (State.loopGoal s k).1 := by
  unfold State.loopGoal
  repeat' (first
    | with_reducible assumption | with_reducible exact Part.sub_trans hl (by decide)
    | (with_reducible refine (?_ : s0.Kept ps _); fail_if_no_progress extract_lets +onlyGivenNames x
       refine (fun (_ : s0.Kept ps x) => ?_) ?_
       (on_goal 1 => clear_value x); (on_goal 2 => unfold x; clear x))
    | (with_reducible refine (?_ : s0.Kept ps _); fail_if_no_progress extract_lets +onlyGivenNames x
       refine (fun (_ : s0.Kept ps x.1) => ?_) ?_
       (on_goal 1 => clear_value x); (on_goal 2 => unfold x; clear x))
    | (with_reducible refine (?_ : s0.Kept ps _); fail_if_no_progress extract_lets +onlyGivenNames x
       refine (fun (_ : s0.Kept ps x.2) => ?_) ?_
       (on_goal 1 => clear_value x); (on_goal 2 => unfold x; clear x))
    | (with_reducible refine (?_ : s0.Kept ps _); fail_if_no_progress extract_lets +onlyGivenNames y
       clear_value (hy : y = _))
    | with_reducible apply State.drawInt_kept
    | with_reducible refine State.drawInt_kept_eq (pp := (_, _)) (by assumption) ?_ ?_
    | dsimp -zeta only)

theorem State.loopGoal_kept_eq {ps : List Part} {s0 s : State} {k : Nat} {pp : State × Int} (hp : State.loopGoal s k = pp) (hl : ∀ p ∈ ([.free] : List Part), p ∈ ps)
    (h : s0.Kept ps s) : s0.Kept ps pp.1 := by
  subst hp; apply State.loopGoal_kept <;> assumption

theorem State.dpllMove_kept {ps : List Part} {s0 s : State} (k : Nat) (hl : ∀ p ∈ ([.regs, .dplls, .free] : List Part), p ∈ ps)
    (h : s0.Kept ps s) : s0.Kept ps (State.dpllMove s k) := by
  unfold State.dpllMove
  repeat' (first
    | with_reducible assumption | with_reducible exact Part.sub_trans hl (by decide)
    | (with_reducible refine (?_ : s0.Kept ps _); fail_if_no_progress extract_lets +onlyGivenNames x
       refine (fun (_ : s0.Kept ps x) => ?_) ?_
       (on_goal 1 => clear_value x); (on_goal 2 => unfold x; clear x))
    | (with_reducible refine (?_ : s0.Kept ps _); fail_if_no_progress extract_lets +onlyGivenNames x
       refine (fun (_ : s0.Kept ps x.1) => ?_) ?_
       (on_goal 1 => clear_value x); (on_goal 2 => unfold x; clear x))
    | (with_reducible refine (?_ : s0.Kept ps _); fail_if_no_progress extract_lets +onlyGivenNames x
       refine (fun (_ : s0.Kept ps x.2) => ?_) ?_
       (on_goal 1 => clear_value x); (on_goal 2 => unfold x; clear x))
    | (with_reducible refine (?_ : s0.Kept ps _); fail_if_no_progress extract_lets +onlyGivenNames y
       clear_value (hy : y = _))
    | with_reducible apply State.loopGoal_kept
    | with_reducible refine State.loopGoal_kept_eq (pp := (_, _)) (by assumption) ?_ ?_
    | with_reducible apply State.setF_kept | with_reducible apply State.upDpll_kept
    | (intro p hp; cases p <;>
       first | exact absurd (hl _ (by decide)) hp | rfl)
    | with_reducible exact fun hv => hv | split | dsimp -zeta only
    | with_reducible refine State.Kept.lit ?_ ?_ ?_ ?_ ?_ ?_ ?_ ?_)

theorem execDpllLoopUpdate_kept {ps : List Part} {s0 s : State} (k : Nat) (x : LoopIn) (hl : ∀ p ∈ faulting ++ [.pinRel, .dplls], p ∈ ps)
    (h : s0.Kept ps s) : ∃ t, execDpllLoopUpdate k x s = .next t ∧ s0.Kept ps t := by
  refine ⟨_, rfl, ?_⟩
  repeat' (first
    | with_reducible assumption | with_reducible exact Part.sub_trans hl (by decide)
    | (with_reducible refine (?_ : s0.Kept ps _); fail_if_no_progress extract_lets +onlyGivenNames x
       refine (fun (_ : s0.Kept ps x) => ?_) ?_
       (on_goal 1 => clear_value x); (on_goal 2 => unfold x; clear x))
    | (with_reducible refine (?_ : s0.Kept ps _); fail_if_no_progress extract_lets +onlyGivenNames x
       refine (fun (_ : s0.Kept ps x.1) => ?_) ?_
       (on_goal 1 => clear_value x); (on_goal 2 => unfold x; clear x))
    | (with_reducible refine (?_ : s0.Kept ps _); fail_if_no_progress extract_lets +onlyGivenNames x
       refine (fun (_ : s0.Kept ps x.2) => ?_) ?_
       (on_goal 1 => clear_value x); (on_goal 2 => unfold x; clear x))
    | (with_reducible refine (?_ : s0.Kept ps _); fail_if_no_progress extract_lets +onlyGivenNames y
       clear_value (hy : y = _))
    | with_reducible apply State.takeDpllCfg_kept
    | with_reducible refine State.takeDpllCfg_kept_eq (pp := (_, _)) (by assumption) ?_ ?_
    | with_reducible apply State.loadRefs_kept | with_reducible apply State.setF_kept
    | with_reducible apply State.dpllMove_kept | with_reducible apply State.takeZero_kept
    | with_reducible apply State.slewOffset_kept | with_reducible apply State.dpllSelect_kept
    | (intro p hp; cases p <;>
       first | exact absurd (hl _ (by decide)) hp | rfl)
    | with_reducible exact fun hv => hv | split | dsimp -zeta only
    | with_reducible refine State.Kept.lit ?_ ?_ ?_ ?_ ?_ ?_ ?_ ?_)

theorem execDpllLockTime_kept {ps : List Part} {s0 s : State} (k : Nat) (hl : ∀ p ∈ faulting ++ [.pinRel], p ∈ ps)
    (h : s0.Kept ps s) : ∃ t, execDpllLockTime k s = .next t ∧ s0.Kept ps t := by
  refine ⟨_, rfl, ?_⟩
  repeat' (first
    | with_reducible assumption | with_reducible exact Part.sub_trans hl (by decide)
    | with_reducible apply State.setDpll_kept | split)

theorem execDpllWtrExpiry_kept {ps : List Part} {s0 s : State} (k : Nat) (hl : ∀ p ∈ faulting ++ [.pinRel, .dplls], p ∈ ps)
    (h : s0.Kept ps s) : ∃ t, execDpllWtrExpiry k s = .next t ∧ s0.Kept ps t := by
  refine ⟨_, rfl, ?_⟩
  repeat' (first
    | with_reducible assumption | with_reducible exact Part.sub_trans hl (by decide)
    | with_reducible apply State.switchTo_kept | split
    | with_reducible refine State.Kept.lit ?_ ?_ ?_ ?_ ?_ ?_ ?_ ?_)

theorem execHoldoverLimitExpiry_kept {ps : List Part} {s0 s : State} (k : Nat) (hl : ∀ p ∈ faulting ++ [.pinRel], p ∈ ps)
    (h : s0.Kept ps s) : ∃ t, execHoldoverLimitExpiry k s = .next t ∧ s0.Kept ps t := by
  refine ⟨_, rfl, ?_⟩
  repeat' (first
    | with_reducible assumption | with_reducible exact Part.sub_trans hl (by decide)
    | with_reducible apply State.setDpll_kept | split)

theorem execDpllCfg_kept {ps : List Part} {s0 s : State} (c : Cmd) (hl : ∀ p ∈ reports ++ [.dplls], p ∈ ps)
    (h : s0.Kept ps s) : ∃ t, execDpllCfg c s = .next t ∧ s0.Kept ps t := by
  refine ⟨_, rfl, ?_⟩
  repeat' (first
    | with_reducible assumption | with_reducible exact Part.sub_trans hl (by decide)
    | (with_reducible refine (?_ : s0.Kept ps _); fail_if_no_progress extract_lets +onlyGivenNames x
       refine (fun (_ : s0.Kept ps x) => ?_) ?_
       (on_goal 1 => clear_value x); (on_goal 2 => unfold x; clear x))
    | (with_reducible refine (?_ : s0.Kept ps _); fail_if_no_progress extract_lets +onlyGivenNames y
       clear_value (hy : y = _))
    | with_reducible apply State.fwCommand_kept | with_reducible apply State.done_kept
    | with_reducible apply State.upDpll_kept | (intro t ht; with_reducible refine (?_ : s0.Kept ps _))
    | (intro p hp; cases p <;>
       first | exact absurd (hl _ (by decide)) hp | rfl)
    | with_reducible exact fun hv => hv | split | dsimp -zeta only
    | with_reducible refine State.Kept.lit ?_ ?_ ?_ ?_ ?_ ?_ ?_ ?_)

end Sys2Proof.Machine
end

