-- ==== Sys2Proof/Laws/KeptPhase.lean ====
section
/-!
SUPPORT. What the operations and meanings of Machine/Phase.lean keep (`State.Kept`).
-/

set_option linter.all false
set_option linter.unusedTactic false
set_option linter.unreachableTactic false

namespace Sys2Proof.Machine

theorem State.startWindow_kept {ps : List Part} {s0 s : State} (p : Nat) (hl : ∀ p ∈ ([.phases] : List Part), p ∈ ps)
    (h : s0.Kept ps s) : s0.Kept ps (State.startWindow s p) := by
  unfold State.startWindow
  repeat' (first
    | with_reducible assumption | with_reducible exact Part.sub_trans hl (by decide)
    | with_reducible apply State.upPhase_kept | dsimp -zeta only
    | with_reducible refine State.Kept.lit ?_ ?_ ?_ ?_ ?_ ?_ ?_ ?_)

theorem State.awaitWindow_kept {ps : List Part} {s0 s : State} (p : Nat) (hl : ∀ p ∈ ([.phases] : List Part), p ∈ ps)
    (h : s0.Kept ps s) : s0.Kept ps (State.awaitWindow s p) := by
  unfold State.awaitWindow
  repeat' (first
    | with_reducible assumption | with_reducible exact Part.sub_trans hl (by decide)
    | (with_reducible refine (?_ : s0.Kept ps _); fail_if_no_progress extract_lets +onlyGivenNames y
       clear_value (hy : y = _))
    | with_reducible apply State.upPhase_kept
    | (intro p hp; cases p <;>
       first | exact absurd (hl _ (by decide)) hp | rfl)
    | with_reducible exact fun hv => hv | split | dsimp -zeta only
    | with_reducible refine State.Kept.lit ?_ ?_ ?_ ?_ ?_ ?_ ?_ ?_)

theorem State.phaseServo_kept {ps : List Part} {s0 s : State} (stepped : Bool) (hl : ∀ p ∈ ([.phases] : List Part), p ∈ ps)
    (h : s0.Kept ps s) : s0.Kept ps (State.phaseServo s stepped) := by
  unfold State.phaseServo
  repeat' (first
    | with_reducible assumption | with_reducible exact Part.sub_trans hl (by decide)
    | (with_reducible refine (?_ : s0.Kept ps _); fail_if_no_progress extract_lets +onlyGivenNames x
       refine (fun (_ : s0.Kept ps x) => ?_) ?_
       (on_goal 1 => clear_value x); (on_goal 2 => unfold x; clear x))
    | (with_reducible refine (?_ : s0.Kept ps _); fail_if_no_progress extract_lets +onlyGivenNames y
       clear_value (hy : y = _))
    | with_reducible apply State.startWindow_kept | with_reducible apply State.upPhase_kept
    | (intro t a ht; with_reducible refine (?_ : s0.Kept ps _)) | with_reducible apply State.Kept.foldl
    | (intro p hp; cases p <;>
       first | exact absurd (hl _ (by decide)) hp | rfl)
    | with_reducible exact fun hv => hv | split | dsimp -zeta only
    | with_reducible refine State.Kept.lit ?_ ?_ ?_ ?_ ?_ ?_ ?_ ?_)

theorem State.addBeat_kept {ps : List Part} {s0 s : State} (port : Nat) (phi : Int) (edge : Nat) (slip : Bool) (hl : ∀ p ∈ ([.time, .phases] : List Part), p ∈ ps)
    (h : s0.Kept ps s) : s0.Kept ps (State.addBeat s port phi edge slip) := by
  unfold State.addBeat
  repeat' (first
    | with_reducible assumption | with_reducible exact Part.sub_trans hl (by decide)
    | with_reducible apply State.upPhase_kept | dsimp -zeta only
    | with_reducible refine State.Kept.lit ?_ ?_ ?_ ?_ ?_ ?_ ?_ ?_)

theorem execPhaseBeat_kept {ps : List Part} {s0 s : State} (port : Nat) (rx : Sampled) (tx : Sampled) (edge : Nat) (hl : ∀ p ∈ faulting, p ∈ ps)
    (h : s0.Kept ps s) : ∃ t, execPhaseBeat port rx tx edge s = .next t ∧ s0.Kept ps t := by
  refine ⟨_, rfl, ?_⟩
  repeat' (first
    | with_reducible assumption | with_reducible exact Part.sub_trans hl (by decide)
    | with_reducible apply State.portNotice_kept | with_reducible apply State.countE_kept
    | with_reducible apply State.addBeat_kept | split)

theorem State.setService_kept {ps : List Part} {s0 s : State} (p : Nat) (v : Nat) (hl : ∀ p ∈ ([.regs] : List Part), p ∈ ps)
    (h : s0.Kept ps s) : s0.Kept ps (State.setService s p v) := by
  unfold State.setService
  repeat' (first
    | with_reducible assumption | with_reducible exact Part.sub_trans hl (by decide)
    | with_reducible apply State.setF_kept)

theorem State.showService_kept {ps : List Part} {s0 s : State} (p : Nat) (hl : ∀ p ∈ ([.regs] : List Part), p ∈ ps)
    (h : s0.Kept ps s) : s0.Kept ps (State.showService s p) := by
  unfold State.showService
  repeat' (first
    | with_reducible assumption | with_reducible exact Part.sub_trans hl (by decide)
    | with_reducible apply State.setService_kept | split)

theorem State.resolve_kept {ps : List Part} {s0 s : State} (p : Nat) (mus : List Int) (hl : ∀ p ∈ ([.regs, .phases] : List Part), p ∈ ps)
    (h : s0.Kept ps s) : s0.Kept ps (State.resolve s p mus) := by
  unfold State.resolve
  repeat' (first
    | with_reducible assumption | with_reducible exact Part.sub_trans hl (by decide)
    | (with_reducible refine (?_ : s0.Kept ps _); fail_if_no_progress extract_lets +onlyGivenNames y
       clear_value (hy : y = _))
    | with_reducible apply State.setService_kept | with_reducible apply State.upPhase_kept
    | (intro p hp; cases p <;>
       first | exact absurd (hl _ (by decide)) hp | rfl)
    | with_reducible exact fun hv => hv | dsimp -zeta only
    | with_reducible refine State.Kept.lit ?_ ?_ ?_ ?_ ?_ ?_ ?_ ?_)

theorem State.fineResult_kept {ps : List Part} {s0 s : State} (p : Nat) (r : Int × Int × Int) (slave : Bool) (hl : ∀ p ∈ reports ++ [.time, .phases, .refs], p ∈ ps)
    (h : s0.Kept ps s) : s0.Kept ps (State.fineResult s p r slave) := by
  unfold State.fineResult
  repeat' (first
    | with_reducible assumption | with_reducible exact Part.sub_trans hl (by decide)
    | (with_reducible refine (?_ : s0.Kept ps _); fail_if_no_progress extract_lets +onlyGivenNames x
       refine (fun (_ : s0.Kept ps x) => ?_) ?_
       (on_goal 1 => clear_value x); (on_goal 2 => unfold x; clear x))
    | (with_reducible refine (?_ : s0.Kept ps _); fail_if_no_progress extract_lets +onlyGivenNames x
       refine (fun (_ : s0.Kept ps x.1) => ?_) ?_
       (on_goal 1 => clear_value x); (on_goal 2 => unfold x; clear x))
    | (with_reducible refine (?_ : s0.Kept ps _); fail_if_no_progress extract_lets +onlyGivenNames x
       refine (fun (_ : s0.Kept ps x.2) => ?_) ?_
       (on_goal 1 => clear_value x); (on_goal 2 => unfold x; clear x))
    | (with_reducible refine (?_ : s0.Kept ps _); fail_if_no_progress extract_lets +onlyGivenNames y
       clear_value (hy : y = _))
    | with_reducible apply State.upPhase_kept | with_reducible apply State.resolve_kept
    | with_reducible apply State.setService_kept | with_reducible apply State.deliverOffset_kept
    | (intro p hp; cases p <;>
       first | exact absurd (hl _ (by decide)) hp | rfl)
    | with_reducible exact fun hv => hv | split | dsimp -zeta only
    | with_reducible refine State.Kept.lit ?_ ?_ ?_ ?_ ?_ ?_ ?_ ?_)

theorem State.ambigResult_kept {ps : List Part} {s0 s : State} (p : Nat) (hl : ∀ p ∈ ([.regs, .phases, .counters] : List Part), p ∈ ps)
    (h : s0.Kept ps s) : s0.Kept ps (State.ambigResult s p) := by
  unfold State.ambigResult
  repeat' (first
    | with_reducible assumption | with_reducible exact Part.sub_trans hl (by decide)
    | (with_reducible refine (?_ : s0.Kept ps _); fail_if_no_progress extract_lets +onlyGivenNames x
       refine (fun (_ : s0.Kept ps x) => ?_) ?_
       (on_goal 1 => clear_value x); (on_goal 2 => unfold x; clear x))
    | (with_reducible refine (?_ : s0.Kept ps _); fail_if_no_progress extract_lets +onlyGivenNames y
       clear_value (hy : y = _))
    | with_reducible apply State.countS_kept | with_reducible apply State.upPhase_kept
    | with_reducible apply State.resolve_kept
    | (intro p hp; cases p <;>
       first | exact absurd (hl _ (by decide)) hp | rfl)
    | with_reducible exact fun hv => hv | split | dsimp -zeta only
    | with_reducible refine State.Kept.lit ?_ ?_ ?_ ?_ ?_ ?_ ?_ ?_)

theorem State.stampsAlone_kept {ps : List Part} {s0 s : State} (p : Nat) (why : Nat) (hl : ∀ p ∈ ([.regs, .phases] : List Part), p ∈ ps)
    (h : s0.Kept ps s) : s0.Kept ps (State.stampsAlone s p why) := by
  unfold State.stampsAlone
  repeat' (first
    | with_reducible assumption | with_reducible exact Part.sub_trans hl (by decide)
    | (with_reducible refine (?_ : s0.Kept ps _); fail_if_no_progress extract_lets +onlyGivenNames y
       clear_value (hy : y = _))
    | with_reducible apply State.setService_kept | with_reducible apply State.upPhase_kept
    | (intro p hp; cases p <;>
       first | exact absurd (hl _ (by decide)) hp | rfl)
    | with_reducible exact fun hv => hv | dsimp -zeta only
    | with_reducible refine State.Kept.lit ?_ ?_ ?_ ?_ ?_ ?_ ?_ ?_)

theorem State.invalidWindow_kept {ps : List Part} {s0 s : State} (p : Nat) (align : Bool) (hl : ∀ p ∈ ([.regs, .phases] : List Part), p ∈ ps)
    (h : s0.Kept ps s) : s0.Kept ps (State.invalidWindow s p align) := by
  unfold State.invalidWindow
  repeat' (first
    | with_reducible assumption | with_reducible exact Part.sub_trans hl (by decide)
    | (with_reducible refine (?_ : s0.Kept ps _); fail_if_no_progress extract_lets +onlyGivenNames x
       refine (fun (_ : s0.Kept ps x) => ?_) ?_
       (on_goal 1 => clear_value x); (on_goal 2 => unfold x; clear x))
    | (with_reducible refine (?_ : s0.Kept ps _); fail_if_no_progress extract_lets +onlyGivenNames y
       clear_value (hy : y = _))
    | with_reducible apply State.setService_kept | with_reducible apply State.upPhase_kept
    | (intro p hp; cases p <;>
       first | exact absurd (hl _ (by decide)) hp | rfl)
    | with_reducible exact fun hv => hv | split | dsimp -zeta only
    | with_reducible refine State.Kept.lit ?_ ?_ ?_ ?_ ?_ ?_ ?_ ?_)

theorem State.validWindow_kept {ps : List Part} {s0 s : State} (p : Nat) (hl : ∀ p ∈ ([.regs, .phases] : List Part), p ∈ ps)
    (h : s0.Kept ps s) : s0.Kept ps (State.validWindow s p) := by
  unfold State.validWindow
  repeat' (first
    | with_reducible assumption | with_reducible exact Part.sub_trans hl (by decide)
    | (with_reducible refine (?_ : s0.Kept ps _); fail_if_no_progress extract_lets +onlyGivenNames x
       refine (fun (_ : s0.Kept ps x) => ?_) ?_
       (on_goal 1 => clear_value x); (on_goal 2 => unfold x; clear x))
    | (with_reducible refine (?_ : s0.Kept ps _); fail_if_no_progress extract_lets +onlyGivenNames y
       clear_value (hy : y = _))
    | with_reducible apply State.setService_kept | with_reducible apply State.upPhase_kept
    | with_reducible apply State.resolve_kept
    | (intro p hp; cases p <;>
       first | exact absurd (hl _ (by decide)) hp | rfl)
    | with_reducible exact fun hv => hv | split | dsimp -zeta only
    | with_reducible refine State.Kept.lit ?_ ?_ ?_ ?_ ?_ ?_ ?_ ?_)

theorem State.fwWindow_kept {ps : List Part} {s0 s : State} (p : Nat) (valid : Bool) (align : Bool) (w : WindowIn) (hl : ∀ p ∈ reports ++ [.time, .phases, .refs], p ∈ ps)
    (h : s0.Kept ps s) : s0.Kept ps (State.fwWindow s p valid align w) := by
  unfold State.fwWindow
  repeat' (first
    | with_reducible assumption | with_reducible exact Part.sub_trans hl (by decide)
    | (with_reducible refine (?_ : s0.Kept ps _); fail_if_no_progress extract_lets +onlyGivenNames x
       refine (fun (_ : s0.Kept ps x) => ?_) ?_
       (on_goal 1 => clear_value x); (on_goal 2 => unfold x; clear x))
    | (with_reducible refine (?_ : s0.Kept ps _); fail_if_no_progress extract_lets +onlyGivenNames y
       clear_value (hy : y = _))
    | with_reducible apply State.upPhase_kept | with_reducible apply State.stampsAlone_kept
    | with_reducible apply State.invalidWindow_kept | with_reducible apply State.validWindow_kept
    | with_reducible apply State.fineResult_kept | with_reducible apply State.ambigResult_kept
    | (intro p hp; cases p <;>
       first | exact absurd (hl _ (by decide)) hp | rfl)
    | with_reducible exact fun hv => hv | split | dsimp -zeta only
    | with_reducible refine State.Kept.lit ?_ ?_ ?_ ?_ ?_ ?_ ?_ ?_)

theorem State.sendTlv_kept {ps : List Part} {s0 s : State} (p : Nat) (valid : Bool) (hl : ∀ p ∈ ([.out] : List Part), p ∈ ps)
    (h : s0.Kept ps s) : s0.Kept ps (State.sendTlv s p valid) := by
  unfold State.sendTlv
  repeat' (first
    | with_reducible assumption | with_reducible exact Part.sub_trans hl (by decide)
    | with_reducible apply State.emit_kept | split)

theorem execPhaseWindowEnd_kept {ps : List Part} {s0 s : State} (port : Nat) (w : WindowIn) (hl : ∀ p ∈ reports ++ [.time, .phases, .refs], p ∈ ps)
    (h : s0.Kept ps s) : ∃ t, execPhaseWindowEnd port w s = .next t ∧ s0.Kept ps t := by
  refine ⟨_, rfl, ?_⟩
  repeat' (first
    | with_reducible assumption | with_reducible exact Part.sub_trans hl (by decide)
    | (with_reducible refine (?_ : s0.Kept ps _); fail_if_no_progress extract_lets +onlyGivenNames x
       refine (fun (_ : s0.Kept ps x) => ?_) ?_
       (on_goal 1 => clear_value x); (on_goal 2 => unfold x; clear x))
    | (with_reducible refine (?_ : s0.Kept ps _); fail_if_no_progress extract_lets +onlyGivenNames x
       refine (fun (_ : s0.Kept ps x.1) => ?_) ?_
       (on_goal 1 => clear_value x); (on_goal 2 => unfold x; clear x))
    | (with_reducible refine (?_ : s0.Kept ps _); fail_if_no_progress extract_lets +onlyGivenNames x
       refine (fun (_ : s0.Kept ps x.2) => ?_) ?_
       (on_goal 1 => clear_value x); (on_goal 2 => unfold x; clear x))
    | (with_reducible refine (?_ : s0.Kept ps _); fail_if_no_progress extract_lets +onlyGivenNames y
       clear_value (hy : y = _))
    | with_reducible apply State.setF_kept | with_reducible apply State.countS_kept
    | with_reducible apply State.startWindow_kept | with_reducible apply State.fwWindow_kept
    | with_reducible apply State.sendTlv_kept | split | dsimp -zeta only)

theorem State.alignResolve_kept {ps : List Part} {s0 s : State} (p : Nat) (hl : ∀ p ∈ ([.regs, .phases] : List Part), p ∈ ps)
    (h : s0.Kept ps s) : s0.Kept ps (State.alignResolve s p) := by
  unfold State.alignResolve
  repeat' (first
    | with_reducible assumption | with_reducible exact Part.sub_trans hl (by decide)
    | (with_reducible refine (?_ : s0.Kept ps _); fail_if_no_progress extract_lets +onlyGivenNames x
       refine (fun (_ : s0.Kept ps x) => ?_) ?_
       (on_goal 1 => clear_value x); (on_goal 2 => unfold x; clear x))
    | (with_reducible refine (?_ : s0.Kept ps _); fail_if_no_progress extract_lets +onlyGivenNames y
       clear_value (hy : y = _))
    | with_reducible apply State.resolve_kept | with_reducible apply State.upPhase_kept
    | (intro p hp; cases p <;>
       first | exact absurd (hl _ (by decide)) hp | rfl)
    | with_reducible exact fun hv => hv | split | dsimp -zeta only
    | with_reducible refine State.Kept.lit ?_ ?_ ?_ ?_ ?_ ?_ ?_ ?_)

theorem execAlignmentLoss_kept {ps : List Part} {s0 s : State} (port : Nat) (hl : ∀ p ∈ faulting, p ∈ ps)
    (h : s0.Kept ps s) : ∃ t, execAlignmentLoss port s = .next t ∧ s0.Kept ps t := by
  refine ⟨_, rfl, ?_⟩
  repeat' (first
    | with_reducible assumption | with_reducible exact Part.sub_trans hl (by decide)
    | (with_reducible refine (?_ : s0.Kept ps _); fail_if_no_progress extract_lets +onlyGivenNames x
       refine (fun (_ : s0.Kept ps x) => ?_) ?_
       (on_goal 1 => clear_value x); (on_goal 2 => unfold x; clear x))
    | (with_reducible refine (?_ : s0.Kept ps _); fail_if_no_progress extract_lets +onlyGivenNames y
       clear_value (hy : y = _))
    | with_reducible apply State.setF_kept | with_reducible apply State.upPhase_kept
    | with_reducible apply State.alignResolve_kept | with_reducible apply State.portNotice_kept
    | with_reducible apply State.countE_kept
    | (intro p hp; cases p <;>
       first | exact absurd (hl _ (by decide)) hp | rfl)
    | with_reducible exact fun hv => hv | split | dsimp -zeta only
    | with_reducible refine State.Kept.lit ?_ ?_ ?_ ?_ ?_ ?_ ?_ ?_)

theorem execPhEnSet_kept {ps : List Part} {s0 s : State} (path : Path) (port : Nat) (hl : ∀ p ∈ ([.regs, .phases] : List Part), p ∈ ps)
    (h : s0.Kept ps s) : ∃ t, execPhEnSet path port s = .next t ∧ s0.Kept ps t := by
  refine ⟨_, rfl, ?_⟩
  repeat' (first
    | with_reducible assumption | with_reducible exact Part.sub_trans hl (by decide)
    | (with_reducible refine (?_ : s0.Kept ps _); fail_if_no_progress extract_lets +onlyGivenNames x
       refine (fun (_ : s0.Kept ps x) => ?_) ?_
       (on_goal 1 => clear_value x); (on_goal 2 => unfold x; clear x))
    | (with_reducible refine (?_ : s0.Kept ps _); fail_if_no_progress extract_lets +onlyGivenNames y
       clear_value (hy : y = _))
    | with_reducible apply State.awaitWindow_kept | with_reducible apply State.setF_kept
    | with_reducible apply State.showService_kept | split)

theorem execPhEnClear_kept {ps : List Part} {s0 s : State} (path : Path) (port : Nat) (hl : ∀ p ∈ ([.regs, .phases] : List Part), p ∈ ps)
    (h : s0.Kept ps s) : ∃ t, execPhEnClear path port s = .next t ∧ s0.Kept ps t := by
  refine ⟨_, rfl, ?_⟩
  repeat' (first
    | with_reducible assumption | with_reducible exact Part.sub_trans hl (by decide)
    | (with_reducible refine (?_ : s0.Kept ps _); fail_if_no_progress extract_lets +onlyGivenNames x
       refine (fun (_ : s0.Kept ps x) => ?_) ?_
       (on_goal 1 => clear_value x); (on_goal 2 => unfold x; clear x))
    | (with_reducible refine (?_ : s0.Kept ps _); fail_if_no_progress extract_lets +onlyGivenNames y
       clear_value (hy : y = _))
    | with_reducible apply State.setF_kept | with_reducible apply State.setService_kept
    | with_reducible apply State.upPhase_kept | split | dsimp -zeta only)

end Sys2Proof.Machine
end

