-- ==== Sys2Proof/Laws/KeptTiu.lean ====
section
/-!
SUPPORT. What the operations and meanings of Machine/Tiu.lean keep (`State.Kept`).
-/

set_option linter.all false
set_option linter.unusedTactic false
set_option linter.unreachableTactic false

namespace Sys2Proof.Machine

theorem State.drawBelow_kept {ps : List Part} {s0 s : State} (n : Nat) (hl : ∀ p ∈ ([.free] : List Part), p ∈ ps)
    (h : s0.Kept ps s) : s0.Kept ps (State.drawBelow s n).2 := by
  unfold State.drawBelow
  repeat' (first
    | with_reducible assumption | with_reducible exact Part.sub_trans hl (by decide)
    | with_reducible apply State.draw_kept
    | with_reducible refine State.draw_kept_eq (pp := (_, _)) (by assumption) ?_ ?_ | split
    | dsimp -zeta only)

theorem State.drawBelow_kept_eq {ps : List Part} {s0 s : State} {n : Nat} {pp : Nat × State} (hp : State.drawBelow s n = pp) (hl : ∀ p ∈ ([.free] : List Part), p ∈ ps)
    (h : s0.Kept ps s) : s0.Kept ps pp.2 := by
  subst hp; apply State.drawBelow_kept <;> assumption

theorem State.tiuStart_kept {ps : List Part} {s0 s : State} (c : Nat) (hl : ∀ p ∈ ([.tius, .free] : List Part), p ∈ ps)
    (h : s0.Kept ps s) : s0.Kept ps (State.tiuStart s c) := by
  unfold State.tiuStart
  repeat' (first
    | with_reducible assumption | with_reducible exact Part.sub_trans hl (by decide)
    | (with_reducible refine (?_ : s0.Kept ps _); fail_if_no_progress extract_lets +onlyGivenNames x
       refine (fun (_ : s0.Kept ps x) => ?_) ?_
       (on_goal 1 => clear_value x); (on_goal 2 => unfold x; clear x))
    | (with_reducible refine (?_ : s0.Kept ps _); fail_if_no_progress extract_lets +onlyGivenNames x
       refine (fun (_ : s0.Kept ps x.1) => ?_) ?_
       (on_goal 1 => clear_value x); (on_goal 2 => unfold x; clear x))
    | (with_reducible refine (?_ : s0.Kept ps _); fail_if_no_progress extract_lets +onlyGivenNames x
       refine (fun (_ : s0.Kept ps x.2) => ?_) ?_
       (on_goal 1 => clear_value x); (on_goal 2 => unfold x; clear x))
    | (with_reducible refine (?_ : s0.Kept ps _); fail_if_no_progress extract_lets +onlyGivenNames y
       clear_value (hy : y = _))
    | with_reducible apply State.drawBelow_kept
    | with_reducible refine State.drawBelow_kept_eq (pp := (_, _)) (by assumption) ?_ ?_
    | with_reducible apply State.upTiu_kept | dsimp -zeta only)

theorem execGo_kept {ps : List Part} {s0 s : State} (path : Path) (ch : Nat) (hl : ∀ p ∈ ([.regs, .tius, .free] : List Part), p ∈ ps)
    (h : s0.Kept ps s) : ∃ t, execGo path ch s = .next t ∧ s0.Kept ps t := by
  refine ⟨_, rfl, ?_⟩
  repeat' (first
    | with_reducible assumption | with_reducible exact Part.sub_trans hl (by decide)
    | (with_reducible refine (?_ : s0.Kept ps _); fail_if_no_progress extract_lets +onlyGivenNames x
       refine (fun (_ : s0.Kept ps x) => ?_) ?_
       (on_goal 1 => clear_value x); (on_goal 2 => unfold x; clear x))
    | (with_reducible refine (?_ : s0.Kept ps _); fail_if_no_progress extract_lets +onlyGivenNames y
       clear_value (hy : y = _))
    | with_reducible apply State.setF_kept | with_reducible apply State.tiuStart_kept | split)

theorem execAbort_kept {ps : List Part} {s0 s : State} (path : Path) (ch : Nat) (hl : ∀ p ∈ ([.regs] : List Part), p ∈ ps)
    (h : s0.Kept ps s) : ∃ t, execAbort path ch s = .next t ∧ s0.Kept ps t := by
  refine ⟨_, rfl, ?_⟩
  repeat' (first
    | with_reducible assumption | with_reducible exact Part.sub_trans hl (by decide)
    | with_reducible apply State.setF_kept | split)

theorem State.tiuDone_kept {ps : List Part} {s0 s : State} (c : Nat) (hl : ∀ p ∈ ([.regs] : List Part), p ∈ ps)
    (h : s0.Kept ps s) : s0.Kept ps (State.tiuDone s c) := by
  unfold State.tiuDone
  repeat' (first
    | with_reducible assumption | with_reducible exact Part.sub_trans hl (by decide)
    | (with_reducible refine (?_ : s0.Kept ps _); fail_if_no_progress extract_lets +onlyGivenNames x
       refine (fun (_ : s0.Kept ps x) => ?_) ?_
       (on_goal 1 => clear_value x); (on_goal 2 => unfold x; clear x))
    | (with_reducible refine (?_ : s0.Kept ps _); fail_if_no_progress extract_lets +onlyGivenNames y
       clear_value (hy : y = _))
    | with_reducible apply State.setF_kept | split)

theorem State.tiuResult_kept {ps : List Part} {s0 s : State} (c : Nat) (v : Int) (hl : ∀ p ∈ ([.regs, .tius] : List Part), p ∈ ps)
    (h : s0.Kept ps s) : s0.Kept ps (State.tiuResult s c v) := by
  unfold State.tiuResult
  repeat' (first
    | with_reducible assumption | with_reducible exact Part.sub_trans hl (by decide)
    | (with_reducible refine (?_ : s0.Kept ps _); fail_if_no_progress extract_lets +onlyGivenNames x
       refine (fun (_ : s0.Kept ps x) => ?_) ?_
       (on_goal 1 => clear_value x); (on_goal 2 => unfold x; clear x))
    | (with_reducible refine (?_ : s0.Kept ps _); fail_if_no_progress extract_lets +onlyGivenNames y
       clear_value (hy : y = _))
    | with_reducible apply State.upTiu_kept | with_reducible apply State.setF_kept
    | with_reducible apply State.tiuDone_kept | split | dsimp -zeta only
    | with_reducible refine State.Kept.lit ?_ ?_ ?_ ?_ ?_ ?_ ?_ ?_)

theorem State.tiuStopEdge_kept {ps : List Part} {s0 s : State} (c : Nat) (t : Int) (hl : ∀ p ∈ ([.regs, .tius] : List Part), p ∈ ps)
    (h : s0.Kept ps s) : s0.Kept ps (State.tiuStopEdge s c t) := by
  unfold State.tiuStopEdge
  repeat' (first
    | with_reducible assumption | with_reducible exact Part.sub_trans hl (by decide)
    | (with_reducible refine (?_ : s0.Kept ps _); fail_if_no_progress extract_lets +onlyGivenNames x
       refine (fun (_ : s0.Kept ps x) => ?_) ?_
       (on_goal 1 => clear_value x); (on_goal 2 => unfold x; clear x))
    | (with_reducible refine (?_ : s0.Kept ps _); fail_if_no_progress extract_lets +onlyGivenNames y
       clear_value (hy : y = _))
    | with_reducible apply State.addF_kept | with_reducible apply State.tiuResult_kept
    | with_reducible apply State.upTiu_kept
    | (intro p hp; cases p <;>
       first | exact absurd (hl _ (by decide)) hp | rfl)
    | with_reducible exact fun hv => hv | split | dsimp -zeta only
    | with_reducible refine State.Kept.lit ?_ ?_ ?_ ?_ ?_ ?_ ?_ ?_)

theorem State.tiuStartEdge_kept {ps : List Part} {s0 s : State} (c : Nat) (tclk : Nat) (bins : Nat) (sub : Nat) (hl : ∀ p ∈ ([.regs, .time, .tius] : List Part), p ∈ ps)
    (h : s0.Kept ps s) : s0.Kept ps (State.tiuStartEdge s c tclk bins sub) := by
  unfold State.tiuStartEdge
  repeat' (first
    | with_reducible assumption | with_reducible exact Part.sub_trans hl (by decide)
    | (with_reducible refine (?_ : s0.Kept ps _); fail_if_no_progress extract_lets +onlyGivenNames x
       refine (fun (_ : s0.Kept ps x) => ?_) ?_
       (on_goal 1 => clear_value x); (on_goal 2 => unfold x; clear x))
    | (with_reducible refine (?_ : s0.Kept ps _); fail_if_no_progress extract_lets +onlyGivenNames y
       clear_value (hy : y = _))
    | with_reducible apply State.addF_kept | with_reducible apply State.tiuResult_kept
    | with_reducible apply State.upTiu_kept
    | (intro p hp; cases p <;>
       first | exact absurd (hl _ (by decide)) hp | rfl)
    | with_reducible exact fun hv => hv | split | dsimp -zeta only
    | with_reducible refine State.Kept.lit ?_ ?_ ?_ ?_ ?_ ?_ ?_ ?_)

theorem execTiuEdge_kept {ps : List Part} {s0 s : State} (ch : Nat) (stop : Bool) (tclk : Nat) (e : BinEdge) (hl : ∀ p ∈ ([.regs, .time, .tius] : List Part), p ∈ ps)
    (h : s0.Kept ps s) : ∃ t, execTiuEdge ch stop tclk e s = .next t ∧ s0.Kept ps t := by
  refine ⟨_, rfl, ?_⟩
  repeat' (first
    | with_reducible assumption | with_reducible exact Part.sub_trans hl (by decide)
    | (with_reducible refine (?_ : s0.Kept ps _); fail_if_no_progress extract_lets +onlyGivenNames x
       refine (fun (_ : s0.Kept ps x) => ?_) ?_
       (on_goal 1 => clear_value x); (on_goal 2 => unfold x; clear x))
    | (with_reducible refine (?_ : s0.Kept ps _); fail_if_no_progress extract_lets +onlyGivenNames y
       clear_value (hy : y = _))
    | with_reducible apply State.edges_kept | with_reducible apply State.upTiu_kept
    | with_reducible apply State.tiuStopEdge_kept | with_reducible apply State.tiuStartEdge_kept
    | (intro p hp; cases p <;>
       first | exact absurd (hl _ (by decide)) hp | rfl)
    | with_reducible exact fun hv => hv | split | dsimp -zeta only
    | with_reducible refine State.Kept.lit ?_ ?_ ?_ ?_ ?_ ?_ ?_ ?_)

theorem execTiuTimeout_kept {ps : List Part} {s0 s : State} (ch : Nat) (hl : ∀ p ∈ ([.regs, .tius] : List Part), p ∈ ps)
    (h : s0.Kept ps s) : ∃ t, execTiuTimeout ch s = .next t ∧ s0.Kept ps t := by
  refine ⟨_, rfl, ?_⟩
  repeat' (first
    | with_reducible assumption | with_reducible exact Part.sub_trans hl (by decide)
    | (with_reducible refine (?_ : s0.Kept ps _); fail_if_no_progress extract_lets +onlyGivenNames y
       clear_value (hy : y = _))
    | with_reducible apply State.addF_kept | with_reducible apply State.upTiu_kept
    | (intro p hp; cases p <;>
       first | exact absurd (hl _ (by decide)) hp | rfl)
    | with_reducible exact fun hv => hv | split | dsimp -zeta only
    | with_reducible refine State.Kept.lit ?_ ?_ ?_ ?_ ?_ ?_ ?_ ?_)

theorem State.tiuStep_kept {ps : List Part} {s0 s : State}  (hl : ∀ p ∈ ([.regs] : List Part), p ∈ ps)
    (h : s0.Kept ps s) : s0.Kept ps (State.tiuStep s) := by
  unfold State.tiuStep
  repeat' (first
    | with_reducible assumption | with_reducible exact Part.sub_trans hl (by decide)
    | with_reducible apply State.setF_kept | (intro t a ht; with_reducible refine (?_ : s0.Kept ps _))
    | with_reducible apply State.Kept.foldl | split | dsimp -zeta only)

end Sys2Proof.Machine
end

