-- ==== Sys2Proof/Laws/KeptPorts.lean ====
section
/-!
SUPPORT. What the operations and meanings of Machine/Ports.lean keep (`State.Kept`).
-/

set_option linter.all false
set_option linter.unusedTactic false
set_option linter.unreachableTactic false

namespace Sys2Proof.Machine

theorem execPortEnable_kept {ps : List Part} {s0 s : State} (path : Path) (port : Nat) (hl : ∀ p ∈ faulting ++ [.lanes], p ∈ ps)
    (h : s0.Kept ps s) : ∃ t, execPortEnable path port s = .next t ∧ s0.Kept ps t := by
  refine ⟨_, rfl, ?_⟩
  repeat' (first
    | with_reducible assumption | with_reducible exact Part.sub_trans hl (by decide)
    | (with_reducible refine (?_ : s0.Kept ps _); fail_if_no_progress extract_lets +onlyGivenNames x
       refine (fun (_ : s0.Kept ps x) => ?_) ?_
       (on_goal 1 => clear_value x); (on_goal 2 => unfold x; clear x))
    | (with_reducible refine (?_ : s0.Kept ps _); fail_if_no_progress extract_lets +onlyGivenNames y
       clear_value (hy : y = _))
    | with_reducible apply State.setF_kept | with_reducible apply State.upLane_kept
    | with_reducible apply State.linkChange_kept | with_reducible apply State.showService_kept
    | with_reducible apply State.judgeOverbooked_kept | with_reducible apply State.freezeLanes_kept
    | with_reducible apply State.upPort_kept | with_reducible apply State.setPortState_kept
    | (intro t a ht; with_reducible refine (?_ : s0.Kept ps _)) | with_reducible apply State.Kept.foldl
    | (intro p hp; cases p <;>
       first | exact absurd (hl _ (by decide)) hp | rfl)
    | with_reducible exact fun hv => hv | split | dsimp -zeta only
    | with_reducible refine State.Kept.lit ?_ ?_ ?_ ?_ ?_ ?_ ?_ ?_)

theorem execPortDisable_kept {ps : List Part} {s0 s : State} (path : Path) (port : Nat) (hl : ∀ p ∈ reports ++ [.ports, .epochs, .fabric, .acct, .queues, .pgs, .phases, .refs, .free], p ∈ ps)
    (h : s0.Kept ps s) : ∃ t, execPortDisable path port s = .next t ∧ s0.Kept ps t := by
  refine ⟨_, rfl, ?_⟩
  repeat' (first
    | with_reducible assumption | with_reducible exact Part.sub_trans hl (by decide)
    | (with_reducible refine (?_ : s0.Kept ps _); fail_if_no_progress extract_lets +onlyGivenNames x
       refine (fun (_ : s0.Kept ps x) => ?_) ?_
       (on_goal 1 => clear_value x); (on_goal 2 => unfold x; clear x))
    | (with_reducible refine (?_ : s0.Kept ps _); fail_if_no_progress extract_lets +onlyGivenNames y
       clear_value (hy : y = _))
    | with_reducible apply State.portDown_kept | with_reducible apply State.setF_kept
    | (intro p hp; cases p <;>
       first | exact absurd (hl _ (by decide)) hp | rfl)
    | with_reducible exact fun hv => hv | split
    | with_reducible refine State.Kept.lit ?_ ?_ ?_ ?_ ?_ ?_ ?_ ?_)

theorem State.abortTransmit_kept {ps : List Part} {s0 s : State} (p : Nat) (hl : ∀ p ∈ reports ++ [.ports, .epochs, .acct, .queues], p ∈ ps)
    (h : s0.Kept ps s) : s0.Kept ps (State.abortTransmit s p) := by
  unfold State.abortTransmit
  repeat' (first
    | with_reducible assumption | with_reducible exact Part.sub_trans hl (by decide)
    | (with_reducible refine (?_ : s0.Kept ps _); fail_if_no_progress extract_lets +onlyGivenNames x
       refine (fun (_ : s0.Kept ps x) => ?_) ?_
       (on_goal 1 => clear_value x); (on_goal 2 => unfold x; clear x))
    | (with_reducible refine (?_ : s0.Kept ps _); fail_if_no_progress extract_lets +onlyGivenNames x
       refine (fun (_ : s0.Kept ps x.1) => ?_) ?_
       (on_goal 1 => clear_value x); (on_goal 2 => unfold x; clear x))
    | (with_reducible refine (?_ : s0.Kept ps _); fail_if_no_progress extract_lets +onlyGivenNames x
       refine (fun (_ : s0.Kept ps x.2) => ?_) ?_
       (on_goal 1 => clear_value x); (on_goal 2 => unfold x; clear x))
    | (with_reducible refine (?_ : s0.Kept ps _); fail_if_no_progress extract_lets +onlyGivenNames y
       clear_value (hy : y = _))
    | with_reducible apply State.pick_kept
    | with_reducible refine State.pick_kept_eq (pp := (_, _)) (by assumption) ?_ ?_
    | with_reducible apply State.emit_kept | with_reducible apply State.popHead_kept
    | with_reducible apply State.countS_kept | with_reducible apply State.dropEgress_kept | split
    | dsimp -zeta only | with_reducible refine State.Kept.lit ?_ ?_ ?_ ?_ ?_ ?_ ?_ ?_)

theorem State.lanesLost_kept {ps : List Part} {s0 s : State} (p : Nat) (cause : Nat) (noSignal : Nat) (noCdr : Nat) (noLock : Nat) (hl : ∀ p ∈ reports, p ∈ ps)
    (h : s0.Kept ps s) : s0.Kept ps (State.lanesLost s p cause noSignal noCdr noLock) := by
  unfold State.lanesLost
  repeat' (first
    | with_reducible assumption | with_reducible exact Part.sub_trans hl (by decide)
    | (with_reducible refine (?_ : s0.Kept ps _); fail_if_no_progress extract_lets +onlyGivenNames x
       refine (fun (_ : s0.Kept ps x) => ?_) ?_
       (on_goal 1 => clear_value x); (on_goal 2 => unfold x; clear x))
    | (with_reducible refine (?_ : s0.Kept ps _); fail_if_no_progress extract_lets +onlyGivenNames y
       clear_value (hy : y = _))
    | with_reducible apply State.setF_kept | with_reducible apply State.countE_kept
    | (intro t a ht; with_reducible refine (?_ : s0.Kept ps _)) | with_reducible apply State.Kept.foldl
    | split | dsimp -zeta only)

theorem State.laneHeader_kept {ps : List Part} {s0 s : State} (l : Nat) (ok : Bool) (hl : ∀ p ∈ ([.regs, .lanes] : List Part), p ∈ ps)
    (h : s0.Kept ps s) : s0.Kept ps (State.laneHeader s l ok) := by
  unfold State.laneHeader
  repeat' (first
    | with_reducible assumption | with_reducible exact Part.sub_trans hl (by decide)
    | (with_reducible refine (?_ : s0.Kept ps _); fail_if_no_progress extract_lets +onlyGivenNames x
       refine (fun (_ : s0.Kept ps x) => ?_) ?_
       (on_goal 1 => clear_value x); (on_goal 2 => unfold x; clear x))
    | (with_reducible refine (?_ : s0.Kept ps _); fail_if_no_progress extract_lets +onlyGivenNames y
       clear_value (hy : y = _))
    | with_reducible apply State.upLane_kept | with_reducible apply State.setF_kept
    | (intro p hp; cases p <;>
       first | exact absurd (hl _ (by decide)) hp | rfl)
    | with_reducible exact fun hv => hv | split | dsimp -zeta only
    | with_reducible refine State.Kept.lit ?_ ?_ ?_ ?_ ?_ ?_ ?_ ?_)

theorem State.laneHeaders_kept {ps : List Part} {s0 s : State} (p : Nat) (l : Nat) (hs : List Bool) (hl : ∀ p ∈ ([.regs, .lanes] : List Part), p ∈ ps)
    (h : s0.Kept ps s) : s0.Kept ps (State.laneHeaders s p l hs) := by
  unfold State.laneHeaders
  repeat' (first
    | with_reducible assumption | with_reducible exact Part.sub_trans hl (by decide)
    | with_reducible apply State.laneHeader_kept
    | (intro t a ht; with_reducible refine (?_ : s0.Kept ps _)) | with_reducible apply State.Kept.foldl
    | split | dsimp -zeta only)

theorem State.headersLost_kept {ps : List Part} {s0 s : State} (p : Nat) (hs : List (Nat × List Bool)) (hl : ∀ p ∈ ([.regs, .lanes] : List Part), p ∈ ps)
    (h : s0.Kept ps s) : s0.Kept ps (State.headersLost s p hs).2 := by
  unfold State.headersLost
  repeat' (first
    | with_reducible assumption | with_reducible exact Part.sub_trans hl (by decide)
    | (with_reducible refine (?_ : s0.Kept ps _); fail_if_no_progress extract_lets +onlyGivenNames x
       refine (fun (_ : s0.Kept ps x) => ?_) ?_
       (on_goal 1 => clear_value x); (on_goal 2 => unfold x; clear x))
    | (with_reducible refine (?_ : s0.Kept ps _); fail_if_no_progress extract_lets +onlyGivenNames x
       refine (fun (_ : s0.Kept ps x.1) => ?_) ?_
       (on_goal 1 => clear_value x); (on_goal 2 => unfold x; clear x))
    | (with_reducible refine (?_ : s0.Kept ps _); fail_if_no_progress extract_lets +onlyGivenNames x
       refine (fun (_ : s0.Kept ps x.2) => ?_) ?_
       (on_goal 1 => clear_value x); (on_goal 2 => unfold x; clear x))
    | (with_reducible refine (?_ : s0.Kept ps _); fail_if_no_progress extract_lets +onlyGivenNames y
       clear_value (hy : y = _))
    | with_reducible apply State.laneHeaders_kept
    | (intro t a ht; with_reducible refine (?_ : s0.Kept ps _)) | with_reducible apply State.Kept.foldl
    | with_reducible apply State.Kept.foldlFst | with_reducible apply State.Kept.foldlSnd
    | dsimp -zeta only)

theorem State.headersLost_kept_eq {ps : List Part} {s0 s : State} {p : Nat} {hs : List (Nat × List Bool)} {pp : Nat × State} (hp : State.headersLost s p hs = pp) (hl : ∀ p ∈ ([.regs, .lanes] : List Part), p ∈ ps)
    (h : s0.Kept ps s) : s0.Kept ps pp.2 := by
  subst hp; apply State.headersLost_kept <;> assumption

theorem execLinkLoss_kept {ps : List Part} {s0 s : State} (port : Nat) (cause : Nat) (noSignal : Nat) (noCdr : Nat) (lockLoss : LockLoss) (rxBusy : Bool) (txBusy : Bool) (hl : ∀ p ∈ reports ++ [.ports, .lanes, .epochs, .fabric, .acct, .queues, .pgs, .phases, .refs, .free], p ∈ ps)
    (h : s0.Kept ps s) : ∃ t, execLinkLoss port cause noSignal noCdr lockLoss rxBusy txBusy s = .next t ∧ s0.Kept ps t := by
  refine ⟨_, rfl, ?_⟩
  repeat' (first
    | with_reducible assumption | with_reducible exact Part.sub_trans hl (by decide)
    | (with_reducible refine (?_ : s0.Kept ps _); fail_if_no_progress extract_lets +onlyGivenNames x
       refine (fun (_ : s0.Kept ps x) => ?_) ?_
       (on_goal 1 => clear_value x); (on_goal 2 => unfold x; clear x))
    | (with_reducible refine (?_ : s0.Kept ps _); fail_if_no_progress extract_lets +onlyGivenNames x
       refine (fun (_ : s0.Kept ps x.1) => ?_) ?_
       (on_goal 1 => clear_value x); (on_goal 2 => unfold x; clear x))
    | (with_reducible refine (?_ : s0.Kept ps _); fail_if_no_progress extract_lets +onlyGivenNames x
       refine (fun (_ : s0.Kept ps x.2) => ?_) ?_
       (on_goal 1 => clear_value x); (on_goal 2 => unfold x; clear x))
    | (with_reducible refine (?_ : s0.Kept ps _); fail_if_no_progress extract_lets +onlyGivenNames y
       clear_value (hy : y = _))
    | with_reducible apply State.headersLost_kept
    | with_reducible refine State.headersLost_kept_eq (pp := (_, _)) (by assumption) ?_ ?_
    | with_reducible apply State.countE_kept | with_reducible apply State.lanesLost_kept
    | with_reducible apply State.abortTransmit_kept | with_reducible apply State.portDown_kept | split
    | dsimp -zeta only)

theorem execSignalDetect_kept {ps : List Part} {s0 s : State} (port : Nat) (hl : ∀ p ∈ ([.regs] : List Part), p ∈ ps)
    (h : s0.Kept ps s) : ∃ t, execSignalDetect port s = .next t ∧ s0.Kept ps t := by
  refine ⟨_, rfl, ?_⟩
  repeat' (first
    | with_reducible assumption | with_reducible exact Part.sub_trans hl (by decide)
    | (with_reducible refine (?_ : s0.Kept ps _); fail_if_no_progress extract_lets +onlyGivenNames y
       clear_value (hy : y = _))
    | with_reducible apply State.setF_kept | (intro t a ht; with_reducible refine (?_ : s0.Kept ps _))
    | with_reducible apply State.Kept.foldl
    | (intro p hp; cases p <;>
       first | exact absurd (hl _ (by decide)) hp | rfl)
    | with_reducible exact fun hv => hv | split | dsimp -zeta only
    | with_reducible refine State.Kept.lit ?_ ?_ ?_ ?_ ?_ ?_ ?_ ?_)

theorem execCdrLock_kept {ps : List Part} {s0 s : State} (port : Nat) (lock : LaneLock) (hl : ∀ p ∈ reports ++ [.lanes], p ∈ ps)
    (h : s0.Kept ps s) : ∃ t, execCdrLock port lock s = .next t ∧ s0.Kept ps t := by
  refine ⟨_, rfl, ?_⟩
  repeat' (first
    | with_reducible assumption | with_reducible exact Part.sub_trans hl (by decide)
    | (with_reducible refine (?_ : s0.Kept ps _); fail_if_no_progress extract_lets +onlyGivenNames x
       refine (fun (_ : s0.Kept ps x) => ?_) ?_
       (on_goal 1 => clear_value x); (on_goal 2 => unfold x; clear x))
    | (with_reducible refine (?_ : s0.Kept ps _); fail_if_no_progress extract_lets +onlyGivenNames y
       clear_value (hy : y = _))
    | with_reducible apply State.laneHeaders_kept | with_reducible apply State.setF_kept
    | with_reducible apply State.linkChange_kept | with_reducible apply State.setPortState_kept | split)

theorem execTrainingStart_kept {ps : List Part} {s0 s : State} (port : Nat) (hl : ∀ p ∈ reports ++ [.ports], p ∈ ps)
    (h : s0.Kept ps s) : ∃ t, execTrainingStart port s = .next t ∧ s0.Kept ps t := by
  refine ⟨_, rfl, ?_⟩
  repeat' (first
    | with_reducible assumption | with_reducible exact Part.sub_trans hl (by decide)
    | (with_reducible refine (?_ : s0.Kept ps _); fail_if_no_progress extract_lets +onlyGivenNames y
       clear_value (hy : y = _))
    | with_reducible apply State.linkChange_kept | with_reducible apply State.setPortState_kept
    | with_reducible apply State.upPort_kept
    | (intro p hp; cases p <;>
       first | exact absurd (hl _ (by decide)) hp | rfl)
    | with_reducible exact fun hv => hv | split | dsimp -zeta only
    | with_reducible refine State.Kept.lit ?_ ?_ ?_ ?_ ?_ ?_ ?_ ?_)

theorem execTrainingComplete_kept {ps : List Part} {s0 s : State} (port : Nat) (hl : ∀ p ∈ ([.ports] : List Part), p ∈ ps)
    (h : s0.Kept ps s) : ∃ t, execTrainingComplete port s = .next t ∧ s0.Kept ps t := by
  refine ⟨_, rfl, ?_⟩
  repeat' (first
    | with_reducible assumption | with_reducible exact Part.sub_trans hl (by decide)
    | (with_reducible refine (?_ : s0.Kept ps _); fail_if_no_progress extract_lets +onlyGivenNames y
       clear_value (hy : y = _))
    | with_reducible apply State.upPort_kept
    | (intro p hp; cases p <;>
       first | exact absurd (hl _ (by decide)) hp | rfl)
    | with_reducible exact fun hv => hv | split | dsimp -zeta only
    | with_reducible refine State.Kept.lit ?_ ?_ ?_ ?_ ?_ ?_ ?_ ?_)

theorem State.setCoeffs_kept {ps : List Part} {s0 s : State} (p : Nat) (l : List (Nat × Nat × Int)) (hl : ∀ p ∈ ([.lanes] : List Part), p ∈ ps)
    (h : s0.Kept ps s) : s0.Kept ps (State.setCoeffs s p l) := by
  unfold State.setCoeffs
  repeat' (first
    | with_reducible assumption | with_reducible exact Part.sub_trans hl (by decide)
    | (with_reducible refine (?_ : s0.Kept ps _); fail_if_no_progress extract_lets +onlyGivenNames y
       clear_value (hy : y = _))
    | with_reducible apply State.upLane_kept | (intro t a ht; with_reducible refine (?_ : s0.Kept ps _))
    | with_reducible apply State.Kept.foldl | with_reducible apply State.Kept.foldlFst
    | with_reducible apply State.Kept.foldlSnd
    | (intro p hp; cases p <;>
       first | exact absurd (hl _ (by decide)) hp | rfl)
    | with_reducible exact fun hv => hv | split | dsimp -zeta only
    | with_reducible refine State.Kept.lit ?_ ?_ ?_ ?_ ?_ ?_ ?_ ?_)

theorem State.takeRefs_kept {ps : List Part} {s0 s : State} (p : Nat) (hl : ∀ p ∈ ([.lanes] : List Part), p ∈ ps)
    (h : s0.Kept ps s) : s0.Kept ps (State.takeRefs s p) := by
  unfold State.takeRefs
  repeat' (first
    | with_reducible assumption | with_reducible exact Part.sub_trans hl (by decide)
    | (with_reducible refine (?_ : s0.Kept ps _); fail_if_no_progress extract_lets +onlyGivenNames y
       clear_value (hy : y = _))
    | with_reducible apply State.upLane_kept | (intro t a ht; with_reducible refine (?_ : s0.Kept ps _))
    | with_reducible apply State.Kept.foldl
    | (intro p hp; cases p <;>
       first | exact absurd (hl _ (by decide)) hp | rfl)
    | with_reducible exact fun hv => hv | dsimp -zeta only
    | with_reducible refine State.Kept.lit ?_ ?_ ?_ ?_ ?_ ?_ ?_ ?_)

theorem execHoldoffEntry_kept {ps : List Part} {s0 s : State} (port : Nat) (coeffs : List (Nat × Nat × Int)) (hl : ∀ p ∈ reports ++ [.ports, .lanes, .phases, .fw, .temper, .free], p ∈ ps)
    (h : s0.Kept ps s) : ∃ t, execHoldoffEntry port coeffs s = .next t ∧ s0.Kept ps t := by
  refine ⟨_, rfl, ?_⟩
  repeat' (first
    | with_reducible assumption | with_reducible exact Part.sub_trans hl (by decide)
    | (with_reducible refine (?_ : s0.Kept ps _); fail_if_no_progress extract_lets +onlyGivenNames x
       refine (fun (_ : s0.Kept ps x) => ?_) ?_
       (on_goal 1 => clear_value x); (on_goal 2 => unfold x; clear x))
    | (with_reducible refine (?_ : s0.Kept ps _); fail_if_no_progress extract_lets +onlyGivenNames y
       clear_value (hy : y = _))
    | with_reducible apply State.setF_kept | with_reducible apply State.setCoeffs_kept
    | with_reducible apply State.upPort_kept | with_reducible apply State.setPortState_kept
    | with_reducible apply State.holdoffTrigger_kept | with_reducible apply State.awaitWindow_kept
    | with_reducible apply State.linkChange_kept | with_reducible apply State.takeRefs_kept
    | (intro t a ht; with_reducible refine (?_ : s0.Kept ps _)) | with_reducible apply State.Kept.foldl
    | (intro p hp; cases p <;>
       first | exact absurd (hl _ (by decide)) hp | rfl)
    | with_reducible exact fun hv => hv | split | dsimp -zeta only
    | with_reducible refine State.Kept.lit ?_ ?_ ?_ ?_ ?_ ?_ ?_ ?_)

theorem execHoldoffExpiry_kept {ps : List Part} {s0 s : State} (port : Nat) (hl : ∀ p ∈ reports ++ [.pgs, .refs, .free], p ∈ ps)
    (h : s0.Kept ps s) : ∃ t, execHoldoffExpiry port s = .next t ∧ s0.Kept ps t := by
  refine ⟨_, rfl, ?_⟩
  repeat' (first
    | with_reducible assumption | with_reducible exact Part.sub_trans hl (by decide)
    | with_reducible apply State.slotsBack_kept | with_reducible apply State.linkChange_kept
    | with_reducible apply State.pgPort_kept | with_reducible apply State.setPortState_kept | split)

theorem State.countSymbols_kept {ps : List Part} {s0 : State} (hl : ∀ p ∈ reports ++ [.free], p ∈ ps) (l : List Nat) :
    ∀ {s : State} (n : Nat) (_ : s0.Kept ps s), s0.Kept ps (s.countSymbols n l) := by
  induction l with
  | nil => intro s n h; simpa only [State.countSymbols] using h
  | cons a l ih =>
    intro s n h
    cases l with
    | nil => simpa only [State.countSymbols] using State.countE_kept _ _ _ (Part.sub_trans hl (by decide)) h
    | cons b l =>
      simp only [State.countSymbols]
      exact ih _ (State.countE_kept _ _ _ (Part.sub_trans hl (by decide)) (State.draw_kept (Part.sub_trans hl (by decide)) h))

theorem execFecDegradeWindow_kept {ps : List Part} {s0 s : State} (port : Nat) (counts : FecCounts) (hl : ∀ p ∈ faulting, p ∈ ps)
    (h : s0.Kept ps s) : ∃ t, execFecDegradeWindow port counts s = .next t ∧ s0.Kept ps t := by
  refine ⟨_, rfl, ?_⟩
  repeat' (first
    | with_reducible assumption | with_reducible exact Part.sub_trans hl (by decide)
    | (with_reducible refine (?_ : s0.Kept ps _); fail_if_no_progress extract_lets +onlyGivenNames x
       refine (fun (_ : s0.Kept ps x) => ?_) ?_
       (on_goal 1 => clear_value x); (on_goal 2 => unfold x; clear x))
    | (with_reducible refine (?_ : s0.Kept ps _); fail_if_no_progress extract_lets +onlyGivenNames y
       clear_value (hy : y = _))
    | with_reducible apply State.countS_kept | with_reducible apply State.countE_kept
    | with_reducible apply State.countSymbols_kept | with_reducible apply State.portNotice_kept
    | with_reducible apply State.setF_kept | split)

theorem execAdaptGuardHit_kept {ps : List Part} {s0 s : State} (port : Nat) (lane : Nat) (coeff : Nat) (want : Int) (hl : ∀ p ∈ faulting ++ [.lanes], p ∈ ps)
    (h : s0.Kept ps s) : ∃ t, execAdaptGuardHit port lane coeff want s = .next t ∧ s0.Kept ps t := by
  refine ⟨_, rfl, ?_⟩
  repeat' (first
    | with_reducible assumption | with_reducible exact Part.sub_trans hl (by decide)
    | (with_reducible refine (?_ : s0.Kept ps _); fail_if_no_progress extract_lets +onlyGivenNames x
       refine (fun (_ : s0.Kept ps x) => ?_) ?_
       (on_goal 1 => clear_value x); (on_goal 2 => unfold x; clear x))
    | (with_reducible refine (?_ : s0.Kept ps _); fail_if_no_progress extract_lets +onlyGivenNames y
       clear_value (hy : y = _))
    | with_reducible apply State.upLane_kept | with_reducible apply State.setF_kept
    | with_reducible apply State.portNotice_kept | with_reducible apply State.countS_kept | split
    | dsimp -zeta only | with_reducible refine State.Kept.lit ?_ ?_ ?_ ?_ ?_ ?_ ?_ ?_)

theorem State.clampGuard_kept {ps : List Part} {s0 s : State} (p : Nat) (hl : ∀ p ∈ faulting ++ [.lanes], p ∈ ps)
    (h : s0.Kept ps s) : s0.Kept ps (State.clampGuard s p) := by
  unfold State.clampGuard
  repeat' (first
    | with_reducible assumption | with_reducible exact Part.sub_trans hl (by decide)
    | (with_reducible refine (?_ : s0.Kept ps _); fail_if_no_progress extract_lets +onlyGivenNames x
       refine (fun (_ : s0.Kept ps x) => ?_) ?_
       (on_goal 1 => clear_value x); (on_goal 2 => unfold x; clear x))
    | (with_reducible refine (?_ : s0.Kept ps _); fail_if_no_progress extract_lets +onlyGivenNames x
       refine (fun (_ : s0.Kept ps x.1) => ?_) ?_
       (on_goal 1 => clear_value x); (on_goal 2 => unfold x; clear x))
    | (with_reducible refine (?_ : s0.Kept ps _); fail_if_no_progress extract_lets +onlyGivenNames x
       refine (fun (_ : s0.Kept ps x.2) => ?_) ?_
       (on_goal 1 => clear_value x); (on_goal 2 => unfold x; clear x))
    | (with_reducible refine (?_ : s0.Kept ps _); fail_if_no_progress extract_lets +onlyGivenNames y
       clear_value (hy : y = _))
    | with_reducible apply State.upLane_kept | with_reducible apply State.setF_kept
    | with_reducible apply State.portNotice_kept | with_reducible apply State.countS_kept
    | (intro t a ht; with_reducible refine (?_ : s0.Kept ps _)) | with_reducible apply State.Kept.foldl
    | with_reducible apply State.Kept.foldlFst | with_reducible apply State.Kept.foldlSnd | split
    | dsimp -zeta only | with_reducible refine State.Kept.lit ?_ ?_ ?_ ?_ ?_ ?_ ?_ ?_)

theorem execAdaptFreeze_kept {ps : List Part} {s0 s : State} (port : Nat) (lane : Nat) (hl : ∀ p ∈ ([.regs, .lanes] : List Part), p ∈ ps)
    (h : s0.Kept ps s) : ∃ t, execAdaptFreeze port lane s = .next t ∧ s0.Kept ps t := by
  refine ⟨_, rfl, ?_⟩
  repeat' (first
    | with_reducible assumption | with_reducible exact Part.sub_trans hl (by decide)
    | (with_reducible refine (?_ : s0.Kept ps _); fail_if_no_progress extract_lets +onlyGivenNames y
       clear_value (hy : y = _))
    | with_reducible apply State.setF_kept | with_reducible apply State.upLane_kept
    | (intro p hp; cases p <;>
       first | exact absurd (hl _ (by decide)) hp | rfl)
    | with_reducible exact fun hv => hv | split | dsimp -zeta only
    | with_reducible refine State.Kept.lit ?_ ?_ ?_ ?_ ?_ ?_ ?_ ?_)

theorem execAdaptResume_kept {ps : List Part} {s0 s : State} (port : Nat) (lane : Nat) (hl : ∀ p ∈ ([.regs, .lanes] : List Part), p ∈ ps)
    (h : s0.Kept ps s) : ∃ t, execAdaptResume port lane s = .next t ∧ s0.Kept ps t := by
  refine ⟨_, rfl, ?_⟩
  repeat' (first
    | with_reducible assumption | with_reducible exact Part.sub_trans hl (by decide)
    | (with_reducible refine (?_ : s0.Kept ps _); fail_if_no_progress extract_lets +onlyGivenNames x
       refine (fun (_ : s0.Kept ps x) => ?_) ?_
       (on_goal 1 => clear_value x); (on_goal 2 => unfold x; clear x))
    | (with_reducible refine (?_ : s0.Kept ps _); fail_if_no_progress extract_lets +onlyGivenNames y
       clear_value (hy : y = _))
    | with_reducible apply State.upLane_kept | with_reducible apply State.setF_kept
    | (intro p hp; cases p <;>
       first | exact absurd (hl _ (by decide)) hp | rfl)
    | with_reducible exact fun hv => hv | split | dsimp -zeta only
    | with_reducible refine State.Kept.lit ?_ ?_ ?_ ?_ ?_ ?_ ?_ ?_)

theorem execRecapture_kept {ps : List Part} {s0 s : State} (path : Path) (port : Nat) (coeffs : List (Nat × Nat × Int)) (hl : ∀ p ∈ ([.regs, .lanes] : List Part), p ∈ ps)
    (h : s0.Kept ps s) : ∃ t, execRecapture path port coeffs s = .next t ∧ s0.Kept ps t := by
  refine ⟨_, rfl, ?_⟩
  repeat' (first
    | with_reducible assumption | with_reducible exact Part.sub_trans hl (by decide)
    | (with_reducible refine (?_ : s0.Kept ps _); fail_if_no_progress extract_lets +onlyGivenNames x
       refine (fun (_ : s0.Kept ps x) => ?_) ?_
       (on_goal 1 => clear_value x); (on_goal 2 => unfold x; clear x))
    | (with_reducible refine (?_ : s0.Kept ps _); fail_if_no_progress extract_lets +onlyGivenNames y
       clear_value (hy : y = _))
    | with_reducible apply State.takeRefs_kept | with_reducible apply State.setCoeffs_kept
    | with_reducible apply State.setF_kept | (intro t a ht; with_reducible refine (?_ : s0.Kept ps _))
    | with_reducible apply State.Kept.foldl | split | dsimp -zeta only)

theorem execTxLpiEnter_kept {ps : List Part} {s0 s : State} (port : Nat) (hl : ∀ p ∈ ([.regs] : List Part), p ∈ ps)
    (h : s0.Kept ps s) : ∃ t, execTxLpiEnter port s = .next t ∧ s0.Kept ps t := by
  refine ⟨_, rfl, ?_⟩
  repeat' (first
    | with_reducible assumption | with_reducible exact Part.sub_trans hl (by decide)
    | with_reducible apply State.setF_kept | split)

theorem execTxLpiWake_kept {ps : List Part} {s0 s : State} (port : Nat) (hl : ∀ p ∈ ([.regs] : List Part), p ∈ ps)
    (h : s0.Kept ps s) : ∃ t, execTxLpiWake port s = .next t ∧ s0.Kept ps t := by
  refine ⟨_, rfl, ?_⟩
  repeat' (first
    | with_reducible assumption | with_reducible exact Part.sub_trans hl (by decide)
    | with_reducible apply State.setF_kept | split)

theorem execRxLpiEnter_kept {ps : List Part} {s0 s : State} (port : Nat) (hl : ∀ p ∈ ([.regs] : List Part), p ∈ ps)
    (h : s0.Kept ps s) : ∃ t, execRxLpiEnter port s = .next t ∧ s0.Kept ps t := by
  refine ⟨_, rfl, ?_⟩
  repeat' (first
    | with_reducible assumption | with_reducible exact Part.sub_trans hl (by decide)
    | with_reducible apply State.freezeLanes_kept | with_reducible apply State.setF_kept | split)

theorem execRxLpiExit_kept {ps : List Part} {s0 s : State} (port : Nat) (hl : ∀ p ∈ ([.regs] : List Part), p ∈ ps)
    (h : s0.Kept ps s) : ∃ t, execRxLpiExit port s = .next t ∧ s0.Kept ps t := by
  refine ⟨_, rfl, ?_⟩
  repeat' (first
    | with_reducible assumption | with_reducible exact Part.sub_trans hl (by decide)
    | with_reducible apply State.setF_kept)

end Sys2Proof.Machine
end

