-- ==== Sys2Proof/Laws/KeptQuench.lean ====
section
/-!
SUPPORT. What the operations and meanings of Machine/Quench.lean keep (`State.Kept`).
-/

set_option linter.all false
set_option linter.unusedTactic false
set_option linter.unreachableTactic false

namespace Sys2Proof.Machine

theorem State.tbMismatch_kept {ps : List Part} {s0 s : State} (verdict : Nat) (psec : Nat) (hl : ∀ p ∈ ([.regs, .time] : List Part), p ∈ ps)
    (h : s0.Kept ps s) : s0.Kept ps (State.tbMismatch s verdict psec) := by
  unfold State.tbMismatch
  repeat' (first
    | with_reducible assumption | with_reducible exact Part.sub_trans hl (by decide)
    | (with_reducible refine (?_ : s0.Kept ps _); fail_if_no_progress extract_lets +onlyGivenNames x
       refine (fun (_ : s0.Kept ps x) => ?_) ?_
       (on_goal 1 => clear_value x); (on_goal 2 => unfold x; clear x))
    | (with_reducible refine (?_ : s0.Kept ps _); fail_if_no_progress extract_lets +onlyGivenNames y
       clear_value (hy : y = _))
    | with_reducible apply State.setF_kept
    | (intro p hp; cases p <;>
       first | exact absurd (hl _ (by decide)) hp | rfl)
    | with_reducible exact fun hv => hv | split
    | with_reducible refine State.Kept.lit ?_ ?_ ?_ ?_ ?_ ?_ ?_ ?_)

theorem State.sourceAction_kept {ps : List Part} {s0 s : State} (o : FaultOcc) (hl : ∀ p ∈ ([.regs, .time] : List Part), p ∈ ps)
    (h : s0.Kept ps s) : s0.Kept ps (State.sourceAction s o) := by
  unfold State.sourceAction
  repeat' (first
    | with_reducible assumption | with_reducible exact Part.sub_trans hl (by decide)
    | with_reducible apply State.tbMismatch_kept | with_reducible apply State.setF_kept
    | with_reducible apply State.orF_kept | split)

theorem execFaultPresent_kept {ps : List Part} {s0 s : State} (occs : List FaultOcc) (hl : ∀ p ∈ faulting, p ∈ ps)
    (h : s0.Kept ps s) : ∃ t, execFaultPresent occs s = .next t ∧ s0.Kept ps t := by
  refine ⟨_, rfl, ?_⟩
  repeat' (first
    | with_reducible assumption | with_reducible exact Part.sub_trans hl (by decide)
    | (with_reducible refine (?_ : s0.Kept ps _); fail_if_no_progress extract_lets +onlyGivenNames x
       refine (fun (_ : s0.Kept ps x) => ?_) ?_
       (on_goal 1 => clear_value x); (on_goal 2 => unfold x; clear x))
    | (with_reducible refine (?_ : s0.Kept ps _); fail_if_no_progress extract_lets +onlyGivenNames y
       clear_value (hy : y = _))
    | with_reducible apply State.raiseCycle_kept | with_reducible apply State.sourceAction_kept
    | (intro t a ht; with_reducible refine (?_ : s0.Kept ps _)) | with_reducible apply State.Kept.foldl
    | dsimp -zeta only)

theorem execFaultClear_kept {ps : List Part} {s0 s : State} (id : Nat) (hl : ∀ p ∈ ([.regs, .pinRel, .quench] : List Part), p ∈ ps)
    (h : s0.Kept ps s) : ∃ t, execFaultClear id s = .next t ∧ s0.Kept ps t := by
  refine ⟨_, rfl, ?_⟩
  repeat' (first
    | with_reducible assumption | with_reducible exact Part.sub_trans hl (by decide)
    | with_reducible apply State.clearFault_kept | split)

theorem execQuenchSideCompare_kept {ps : List Part} {s0 s : State} (a : SideAnswer) (hl : ∀ p ∈ faulting ++ [.pinRel], p ∈ ps)
    (h : s0.Kept ps s) : ∃ t, execQuenchSideCompare a s = .next t ∧ s0.Kept ps t := by
  refine ⟨_, rfl, ?_⟩
  repeat' (first
    | with_reducible assumption | with_reducible exact Part.sub_trans hl (by decide)
    | (with_reducible refine (?_ : s0.Kept ps _); fail_if_no_progress extract_lets +onlyGivenNames x
       refine (fun (_ : s0.Kept ps x) => ?_) ?_
       (on_goal 1 => clear_value x); (on_goal 2 => unfold x; clear x))
    | (with_reducible refine (?_ : s0.Kept ps _); fail_if_no_progress extract_lets +onlyGivenNames y
       clear_value (hy : y = _))
    | with_reducible apply State.clearFault_kept | with_reducible apply State.raise_kept
    | (intro p hp; cases p <;>
       first | exact absurd (hl _ (by decide)) hp | rfl)
    | with_reducible exact fun hv => hv | split
    | with_reducible refine State.Kept.lit ?_ ?_ ?_ ?_ ?_ ?_ ?_ ?_)

theorem execQchAssure_kept {ps : List Part} {s0 s : State} (eNs : Nat) (hl : ∀ p ∈ faulting ++ [.pinRel, .window], p ∈ ps)
    (h : s0.Kept ps s) : ∃ t, execQchAssure eNs s = .next t ∧ s0.Kept ps t := by
  refine ⟨_, rfl, ?_⟩
  repeat' (first
    | with_reducible assumption | with_reducible exact Part.sub_trans hl (by decide)
    | (with_reducible refine (?_ : s0.Kept ps _); fail_if_no_progress extract_lets +onlyGivenNames x
       refine (fun (_ : s0.Kept ps x) => ?_) ?_
       (on_goal 1 => clear_value x); (on_goal 2 => unfold x; clear x))
    | (with_reducible refine (?_ : s0.Kept ps _); fail_if_no_progress extract_lets +onlyGivenNames x
       refine (fun (_ : s0.Kept ps x.1) => ?_) ?_
       (on_goal 1 => clear_value x); (on_goal 2 => unfold x; clear x))
    | (with_reducible refine (?_ : s0.Kept ps _); fail_if_no_progress extract_lets +onlyGivenNames x
       refine (fun (_ : s0.Kept ps x.2) => ?_) ?_
       (on_goal 1 => clear_value x); (on_goal 2 => unfold x; clear x))
    | (with_reducible refine (?_ : s0.Kept ps _); fail_if_no_progress extract_lets +onlyGivenNames y
       clear_value (hy : y = _))
    | with_reducible apply State.notePins_kept | with_reducible apply State.setF_kept
    | with_reducible apply State.raise_kept | with_reducible apply State.clearFault_kept
    | (intro p hp; cases p <;>
       first | exact absurd (hl _ (by decide)) hp | rfl)
    | with_reducible exact fun hv => hv | split | dsimp -zeta only
    | with_reducible refine State.Kept.lit ?_ ?_ ?_ ?_ ?_ ?_ ?_ ?_)

theorem execTimeBound_kept {ps : List Part} {s0 s : State} (aonCycles : Nat) (hl : ∀ p ∈ faulting, p ∈ ps)
    (h : s0.Kept ps s) : ∃ t, execTimeBound aonCycles s = .next t ∧ s0.Kept ps t := by
  refine ⟨_, rfl, ?_⟩
  have hx := State.Kept.same (t := { s with quench := { s.quench with bound := s.quench.bound + s.hoRate * 422 * aonCycles } })
    h (by
      intro p hp; cases p <;> first | exact absurd (hl _ (by decide)) hp | rfl) rfl rfl rfl rfl rfl rfl rfl rfl rfl rfl
  generalize { s with quench := { s.quench with bound := s.quench.bound + s.hoRate * 422 * aonCycles } } = x at hx ⊢
  split
  · exact h
  · dsimp only
    split
    · apply State.raise_kept
      · exact (Part.sub_trans hl (by decide))
      · exact hx
    · exact hx

theorem execLock_kept {ps : List Part} {s0 s : State} (path : Path) (hl : ∀ p ∈ ([.regs] : List Part), p ∈ ps)
    (h : s0.Kept ps s) : ∃ t, execLock path s = .next t ∧ s0.Kept ps t := by
  refine ⟨_, rfl, ?_⟩
  repeat' (first
    | with_reducible assumption | with_reducible exact Part.sub_trans hl (by decide)
    | with_reducible apply State.setF_kept | split)

theorem execClkoutMonitor_kept {ps : List Part} {s0 s : State} (n : Nat) (devPpm : Int) (active : Bool) (hl : ∀ p ∈ faulting ++ [.pinRel], p ∈ ps)
    (h : s0.Kept ps s) : ∃ t, execClkoutMonitor n devPpm active s = .next t ∧ s0.Kept ps t := by
  refine ⟨_, rfl, ?_⟩
  repeat' (first
    | with_reducible assumption | with_reducible exact Part.sub_trans hl (by decide)
    | (with_reducible refine (?_ : s0.Kept ps _); fail_if_no_progress extract_lets +onlyGivenNames x
       refine (fun (_ : s0.Kept ps x) => ?_) ?_
       (on_goal 1 => clear_value x); (on_goal 2 => unfold x; clear x))
    | (with_reducible refine (?_ : s0.Kept ps _); fail_if_no_progress extract_lets +onlyGivenNames y
       clear_value (hy : y = _))
    | with_reducible apply State.raise_kept | with_reducible apply State.clearFault_kept | split)

theorem State.upAllow_kept {ps : List Part} {s0 s : State} (p : Nat) (f : Allow → Allow) (hl : ∀ p ∈ ([.quench] : List Part), p ∈ ps)
    (h : s0.Kept ps s) : s0.Kept ps (State.upAllow s p f) := by
  unfold State.upAllow
  repeat' (first
    | with_reducible assumption | with_reducible exact Part.sub_trans hl (by decide)
    | (with_reducible refine (?_ : s0.Kept ps _); fail_if_no_progress extract_lets +onlyGivenNames y
       clear_value (hy : y = _))
    | (intro p hp; cases p <;>
       first | exact absurd (hl _ (by decide)) hp | rfl)
    | with_reducible exact fun hv => hv | with_reducible refine State.Kept.lit ?_ ?_ ?_ ?_ ?_ ?_ ?_ ?_)

theorem execGuardScrub_kept {ps : List Part} {s0 s : State} (bad : List Nat) (hl : ∀ p ∈ faulting ++ [.pinRel], p ∈ ps)
    (h : s0.Kept ps s) : ∃ t, execGuardScrub bad s = .next t ∧ s0.Kept ps t := by
  refine ⟨_, rfl, ?_⟩
  repeat' (first
    | with_reducible assumption | with_reducible exact Part.sub_trans hl (by decide)
    | (with_reducible refine (?_ : s0.Kept ps _); fail_if_no_progress extract_lets +onlyGivenNames x
       refine (fun (_ : s0.Kept ps x) => ?_) ?_
       (on_goal 1 => clear_value x); (on_goal 2 => unfold x; clear x))
    | (with_reducible refine (?_ : s0.Kept ps _); fail_if_no_progress extract_lets +onlyGivenNames y
       clear_value (hy : y = _))
    | with_reducible apply State.upAllow_kept | with_reducible apply State.clearFault_kept
    | with_reducible apply State.raiseCycle_kept
    | (intro t a ht; with_reducible refine (?_ : s0.Kept ps _)) | with_reducible apply State.Kept.foldl
    | (intro p hp; cases p <;>
       first | exact absurd (hl _ (by decide)) hp | rfl)
    | with_reducible exact fun hv => hv | split | dsimp -zeta only
    | with_reducible refine State.Kept.lit ?_ ?_ ?_ ?_ ?_ ?_ ?_ ?_)

theorem execAllowSet_kept {ps : List Part} {s0 s : State} (c : Cmd) (sigOk : Bool) (hl : ∀ p ∈ reports ++ [.quench], p ∈ ps)
    (h : s0.Kept ps s) : ∃ t, execAllowSet c sigOk s = .next t ∧ s0.Kept ps t := by
  refine ⟨_, rfl, ?_⟩
  repeat' (first
    | with_reducible assumption | with_reducible exact Part.sub_trans hl (by decide)
    | (with_reducible refine (?_ : s0.Kept ps _); fail_if_no_progress extract_lets +onlyGivenNames x
       refine (fun (_ : s0.Kept ps x) => ?_) ?_
       (on_goal 1 => clear_value x); (on_goal 2 => unfold x; clear x))
    | (with_reducible refine (?_ : s0.Kept ps _); fail_if_no_progress extract_lets +onlyGivenNames y
       clear_value (hy : y = _))
    | with_reducible apply State.fwCommand_kept | with_reducible apply State.done_kept
    | with_reducible apply State.upAllow_kept | with_reducible apply State.orF_kept
    | with_reducible apply State.clrF_kept | (intro t ht; with_reducible refine (?_ : s0.Kept ps _))
    | (intro p hp; cases p <;>
       first | exact absurd (hl _ (by decide)) hp | rfl)
    | with_reducible exact fun hv => hv | split | dsimp -zeta only
    | with_reducible refine State.Kept.lit ?_ ?_ ?_ ?_ ?_ ?_ ?_ ?_)

end Sys2Proof.Machine
end

