-- ==== Sys2Proof/Laws/KeptStartUp.lean ====
section
/-!
SUPPORT. What the operations and meanings of Machine/StartUp.lean keep (`State.Kept`).
-/

set_option linter.all false
set_option linter.unusedTactic false
set_option linter.unreachableTactic false

namespace Sys2Proof.Machine

theorem State.showFuses_kept {ps : List Part} {s0 s : State}  (hl : ∀ p ∈ ([.regs] : List Part), p ∈ ps)
    (h : s0.Kept ps s) : s0.Kept ps (State.showFuses s) := by
  unfold State.showFuses
  repeat' (first
    | with_reducible assumption | with_reducible exact Part.sub_trans hl (by decide)
    | (with_reducible refine (?_ : s0.Kept ps _); fail_if_no_progress extract_lets +onlyGivenNames y
       clear_value (hy : y = _))
    | with_reducible apply State.setF_kept
    | (intro p hp; cases p <;>
       first | exact absurd (hl _ (by decide)) hp | rfl)
    | with_reducible exact fun hv => hv | with_reducible refine State.Kept.lit ?_ ?_ ?_ ?_ ?_ ?_ ?_ ?_)

theorem execPowerOn_kept {ps : List Part} {s0 s : State} (straps : Nat) (hl : ∀ p ∈ ([.regs, .boot] : List Part), p ∈ ps)
    (h : s0.Kept ps s) : ∃ t, execPowerOn straps s = .next t ∧ s0.Kept ps t := by
  refine ⟨_, rfl, ?_⟩
  repeat' (first
    | with_reducible assumption | with_reducible exact Part.sub_trans hl (by decide)
    | (with_reducible refine (?_ : s0.Kept ps _); fail_if_no_progress extract_lets +onlyGivenNames x
       refine (fun (_ : s0.Kept ps x) => ?_) ?_
       (on_goal 1 => clear_value x); (on_goal 2 => unfold x; clear x))
    | (with_reducible refine (?_ : s0.Kept ps _); fail_if_no_progress extract_lets +onlyGivenNames y
       clear_value (hy : y = _))
    | with_reducible apply State.showFuses_kept | with_reducible apply State.setF_kept
    | (intro p hp; cases p <;>
       first | exact absurd (hl _ (by decide)) hp | rfl)
    | with_reducible exact fun hv => hv | split
    | with_reducible refine State.Kept.lit ?_ ?_ ?_ ?_ ?_ ?_ ?_ ?_)

theorem execVdd1v8SafeHold_kept {ps : List Part} {s0 s : State}  (hl : ∀ p ∈ ([.boot] : List Part), p ∈ ps)
    (h : s0.Kept ps s) : ∃ t, execVdd1v8SafeHold s = .next t ∧ s0.Kept ps t := by
  refine ⟨_, rfl, ?_⟩
  repeat' (first
    | with_reducible assumption | with_reducible exact Part.sub_trans hl (by decide)
    | (with_reducible refine (?_ : s0.Kept ps _); fail_if_no_progress extract_lets +onlyGivenNames y
       clear_value (hy : y = _))
    | (intro p hp; cases p <;>
       first | exact absurd (hl _ (by decide)) hp | rfl)
    | with_reducible exact fun hv => hv | with_reducible refine State.Kept.lit ?_ ?_ ?_ ?_ ?_ ?_ ?_ ?_)

theorem execRailInWindow_kept {ps : List Part} {s0 s : State} (rail : Nat) (hl : ∀ p ∈ ([.regs, .boot, .free] : List Part), p ∈ ps)
    (h : s0.Kept ps s) : ∃ t, execRailInWindow rail s = .next t ∧ s0.Kept ps t := by
  refine ⟨_, rfl, ?_⟩
  repeat' (first
    | with_reducible assumption | with_reducible exact Part.sub_trans hl (by decide)
    | (with_reducible refine (?_ : s0.Kept ps _); fail_if_no_progress extract_lets +onlyGivenNames x
       refine (fun (_ : s0.Kept ps x) => ?_) ?_
       (on_goal 1 => clear_value x); (on_goal 2 => unfold x; clear x))
    | (with_reducible refine (?_ : s0.Kept ps _); fail_if_no_progress extract_lets +onlyGivenNames x
       refine (fun (_ : s0.Kept ps x.1) => ?_) ?_
       (on_goal 1 => clear_value x); (on_goal 2 => unfold x; clear x))
    | (with_reducible refine (?_ : s0.Kept ps _); fail_if_no_progress extract_lets +onlyGivenNames x
       refine (fun (_ : s0.Kept ps x.2) => ?_) ?_
       (on_goal 1 => clear_value x); (on_goal 2 => unfold x; clear x))
    | (with_reducible refine (?_ : s0.Kept ps _); fail_if_no_progress extract_lets +onlyGivenNames y
       clear_value (hy : y = _))
    | with_reducible apply State.draw_kept
    | with_reducible refine State.draw_kept_eq (pp := (_, _)) (by assumption) ?_ ?_
    | with_reducible apply State.setF_kept | with_reducible apply State.orF_kept
    | (intro p hp; cases p <;>
       first | exact absurd (hl _ (by decide)) hp | rfl)
    | with_reducible exact fun hv => hv | split | dsimp -zeta only
    | with_reducible refine State.Kept.lit ?_ ?_ ?_ ?_ ?_ ?_ ?_ ?_)

theorem execRailSeqFail_kept {ps : List Part} {s0 s : State} (rail : Nat) (hl : ∀ p ∈ ([.regs, .boot] : List Part), p ∈ ps)
    (h : s0.Kept ps s) : ∃ t, execRailSeqFail rail s = .next t ∧ s0.Kept ps t := by
  refine ⟨_, rfl, ?_⟩
  repeat' (first
    | with_reducible assumption | with_reducible exact Part.sub_trans hl (by decide)
    | (with_reducible refine (?_ : s0.Kept ps _); fail_if_no_progress extract_lets +onlyGivenNames x
       refine (fun (_ : s0.Kept ps x) => ?_) ?_
       (on_goal 1 => clear_value x); (on_goal 2 => unfold x; clear x))
    | (with_reducible refine (?_ : s0.Kept ps _); fail_if_no_progress extract_lets +onlyGivenNames y
       clear_value (hy : y = _))
    | with_reducible apply State.resetF_kept | with_reducible apply State.setF_kept
    | (intro p hp; cases p <;>
       first | exact absurd (hl _ (by decide)) hp | rfl)
    | with_reducible exact fun hv => hv | split
    | with_reducible refine State.Kept.lit ?_ ?_ ?_ ?_ ?_ ?_ ?_ ?_)

theorem execRailSeqRetry_kept {ps : List Part} {s0 s : State}  (hl : ∀ p ∈ ([.regs, .boot] : List Part), p ∈ ps)
    (h : s0.Kept ps s) : ∃ t, execRailSeqRetry s = .next t ∧ s0.Kept ps t := by
  refine ⟨_, rfl, ?_⟩
  repeat' (first
    | with_reducible assumption | with_reducible exact Part.sub_trans hl (by decide)
    | (with_reducible refine (?_ : s0.Kept ps _); fail_if_no_progress extract_lets +onlyGivenNames x
       refine (fun (_ : s0.Kept ps x) => ?_) ?_
       (on_goal 1 => clear_value x); (on_goal 2 => unfold x; clear x))
    | (with_reducible refine (?_ : s0.Kept ps _); fail_if_no_progress extract_lets +onlyGivenNames y
       clear_value (hy : y = _))
    | with_reducible apply State.setF_kept
    | (intro p hp; cases p <;>
       first | exact absurd (hl _ (by decide)) hp | rfl)
    | with_reducible exact fun hv => hv | split
    | with_reducible refine State.Kept.lit ?_ ?_ ?_ ?_ ?_ ?_ ?_ ?_)

theorem State.leaveFenced_kept {ps : List Part} {s0 s : State} (d : Nat) (hl : ∀ p ∈ ([.regs, .fences] : List Part), p ∈ ps)
    (h : s0.Kept ps s) : s0.Kept ps (State.leaveFenced s d) := by
  unfold State.leaveFenced
  repeat' (first
    | with_reducible assumption | with_reducible exact Part.sub_trans hl (by decide)
    | (with_reducible refine (?_ : s0.Kept ps _); fail_if_no_progress extract_lets +onlyGivenNames x
       refine (fun (_ : s0.Kept ps x) => ?_) ?_
       (on_goal 1 => clear_value x); (on_goal 2 => unfold x; clear x))
    | (with_reducible refine (?_ : s0.Kept ps _); fail_if_no_progress extract_lets +onlyGivenNames y
       clear_value (hy : y = _))
    | with_reducible apply State.upFence_kept | with_reducible apply State.orF_kept
    | (intro r hr; first | exact hr | (revert hr; simp only [Ring.ok] <;> omega)) | split
    | dsimp -zeta only)

theorem execSelftestComplete_kept {ps : List Part} {s0 s : State} (tileFail : Nat) (blockFail : Nat) (fatal : Nat) (hl : ∀ p ∈ ([.regs, .fences] : List Part), p ∈ ps)
    (h : s0.Kept ps s) : ∃ t, execSelftestComplete tileFail blockFail fatal s = .next t ∧ s0.Kept ps t := by
  refine ⟨_, rfl, ?_⟩
  repeat' (first
    | with_reducible assumption | with_reducible exact Part.sub_trans hl (by decide)
    | (with_reducible refine (?_ : s0.Kept ps _); fail_if_no_progress extract_lets +onlyGivenNames x
       refine (fun (_ : s0.Kept ps x) => ?_) ?_
       (on_goal 1 => clear_value x); (on_goal 2 => unfold x; clear x))
    | (with_reducible refine (?_ : s0.Kept ps _); fail_if_no_progress extract_lets +onlyGivenNames y
       clear_value (hy : y = _))
    | with_reducible apply State.setF_kept | with_reducible apply State.leaveFenced_kept
    | (intro t a ht; with_reducible refine (?_ : s0.Kept ps _)) | with_reducible apply State.Kept.foldl
    | split | dsimp -zeta only)

theorem execHifReady_kept {ps : List Part} {s0 s : State}  (hl : ∀ p ∈ ([.regs, .boot] : List Part), p ∈ ps)
    (h : s0.Kept ps s) : ∃ t, execHifReady s = .next t ∧ s0.Kept ps t := by
  refine ⟨_, rfl, ?_⟩
  repeat' (first
    | with_reducible assumption | with_reducible exact Part.sub_trans hl (by decide)
    | (with_reducible refine (?_ : s0.Kept ps _); fail_if_no_progress extract_lets +onlyGivenNames x
       refine (fun (_ : s0.Kept ps x) => ?_) ?_
       (on_goal 1 => clear_value x); (on_goal 2 => unfold x; clear x))
    | (with_reducible refine (?_ : s0.Kept ps _); fail_if_no_progress extract_lets +onlyGivenNames y
       clear_value (hy : y = _))
    | with_reducible apply State.setF_kept
    | (intro p hp; cases p <;>
       first | exact absurd (hl _ (by decide)) hp | rfl)
    | with_reducible exact fun hv => hv | split
    | with_reducible refine State.Kept.lit ?_ ?_ ?_ ?_ ?_ ?_ ?_ ?_)

theorem State.startSlot_kept {ps : List Part} {s0 s : State} (slot : Nat) (fallback : Bool) (hl : ∀ p ∈ ([.regs, .fw] : List Part), p ∈ ps)
    (h : s0.Kept ps s) : s0.Kept ps (State.startSlot s slot fallback) := by
  unfold State.startSlot
  repeat' (first
    | with_reducible assumption | with_reducible exact Part.sub_trans hl (by decide)
    | (with_reducible refine (?_ : s0.Kept ps _); fail_if_no_progress extract_lets +onlyGivenNames x
       refine (fun (_ : s0.Kept ps x) => ?_) ?_
       (on_goal 1 => clear_value x); (on_goal 2 => unfold x; clear x))
    | (with_reducible refine (?_ : s0.Kept ps _); fail_if_no_progress extract_lets +onlyGivenNames y
       clear_value (hy : y = _))
    | with_reducible apply State.setF_kept
    | (intro p hp; cases p <;>
       first | exact absurd (hl _ (by decide)) hp | rfl)
    | with_reducible exact fun hv => hv | with_reducible refine State.Kept.lit ?_ ?_ ?_ ?_ ?_ ?_ ?_ ?_)

theorem State.showVersion_kept {ps : List Part} {s0 s : State} (slot : Nat) (hl : ∀ p ∈ ([.regs] : List Part), p ∈ ps)
    (h : s0.Kept ps s) : s0.Kept ps (State.showVersion s slot) := by
  unfold State.showVersion
  repeat' (first
    | with_reducible assumption | with_reducible exact Part.sub_trans hl (by decide)
    | with_reducible apply State.setF_kept | split
    | with_reducible refine State.Kept.lit ?_ ?_ ?_ ?_ ?_ ?_ ?_ ?_)

theorem State.bootFails_kept {ps : List Part} {s0 s : State}  (hl : ∀ p ∈ ([.regs, .boot] : List Part), p ∈ ps)
    (h : s0.Kept ps s) : s0.Kept ps (State.bootFails s) := by
  unfold State.bootFails
  repeat' (first
    | with_reducible assumption | with_reducible exact Part.sub_trans hl (by decide)
    | (with_reducible refine (?_ : s0.Kept ps _); fail_if_no_progress extract_lets +onlyGivenNames x
       refine (fun (_ : s0.Kept ps x) => ?_) ?_
       (on_goal 1 => clear_value x); (on_goal 2 => unfold x; clear x))
    | (with_reducible refine (?_ : s0.Kept ps _); fail_if_no_progress extract_lets +onlyGivenNames y
       clear_value (hy : y = _))
    | with_reducible apply State.setF_kept
    | (intro p hp; cases p <;>
       first | exact absurd (hl _ (by decide)) hp | rfl)
    | with_reducible exact fun hv => hv | with_reducible refine State.Kept.lit ?_ ?_ ?_ ?_ ?_ ?_ ?_ ?_)

theorem State.bootStart_kept {ps : List Part} {s0 s : State}  (hl : ∀ p ∈ faulting ++ [.boot, .pinRel], p ∈ ps)
    (h : s0.Kept ps s) : s0.Kept ps (State.bootStart s) := by
  unfold State.bootStart
  repeat' (first
    | with_reducible assumption | with_reducible exact Part.sub_trans hl (by decide)
    | (with_reducible refine (?_ : s0.Kept ps _); fail_if_no_progress extract_lets +onlyGivenNames x
       refine (fun (_ : s0.Kept ps x) => ?_) ?_
       (on_goal 1 => clear_value x); (on_goal 2 => unfold x; clear x))
    | (with_reducible refine (?_ : s0.Kept ps _); fail_if_no_progress extract_lets +onlyGivenNames y
       clear_value (hy : y = _))
    | with_reducible apply State.bootFails_kept | with_reducible apply State.clearFault_kept
    | with_reducible apply State.startSlot_kept | with_reducible apply State.showVersion_kept
    | with_reducible apply State.raiseOnce_kept
    | (intro t ht; with_reducible refine (?_ : s0.Kept ps _))
    | (intro p hp; cases p <;>
       first | exact absurd (hl _ (by decide)) hp | rfl)
    | with_reducible exact fun hv => hv | split | dsimp -zeta only
    | with_reducible refine State.Kept.lit ?_ ?_ ?_ ?_ ?_ ?_ ?_ ?_)

theorem State.activateBack_kept {ps : List Part} {s0 s : State} (a : Activate) (status : Nat) (hl : ∀ p ∈ reports ++ [.boot, .fw], p ∈ ps)
    (h : s0.Kept ps s) : s0.Kept ps (State.activateBack s a status) := by
  unfold State.activateBack
  repeat' (first
    | with_reducible assumption | with_reducible exact Part.sub_trans hl (by decide)
    | (with_reducible refine (?_ : s0.Kept ps _); fail_if_no_progress extract_lets +onlyGivenNames x
       refine (fun (_ : s0.Kept ps x) => ?_) ?_
       (on_goal 1 => clear_value x); (on_goal 2 => unfold x; clear x))
    | (with_reducible refine (?_ : s0.Kept ps _); fail_if_no_progress extract_lets +onlyGivenNames y
       clear_value (hy : y = _))
    | with_reducible apply State.done_kept | with_reducible apply State.startSlot_kept
    | with_reducible apply State.bootFails_kept
    | (intro p hp; cases p <;>
       first | exact absurd (hl _ (by decide)) hp | rfl)
    | with_reducible exact fun hv => hv | split
    | with_reducible refine State.Kept.lit ?_ ?_ ?_ ?_ ?_ ?_ ?_ ?_)

theorem State.activateBoot_kept {ps : List Part} {s0 s : State} (a : Activate) (hl : ∀ p ∈ reports ++ [.boot, .fw], p ∈ ps)
    (h : s0.Kept ps s) : s0.Kept ps (State.activateBoot s a) := by
  unfold State.activateBoot
  repeat' (first
    | with_reducible assumption | with_reducible exact Part.sub_trans hl (by decide)
    | (with_reducible refine (?_ : s0.Kept ps _); fail_if_no_progress extract_lets +onlyGivenNames x
       refine (fun (_ : s0.Kept ps x) => ?_) ?_
       (on_goal 1 => clear_value x); (on_goal 2 => unfold x; clear x))
    | (with_reducible refine (?_ : s0.Kept ps _); fail_if_no_progress extract_lets +onlyGivenNames y
       clear_value (hy : y = _))
    | with_reducible apply State.startSlot_kept | with_reducible apply State.activateBack_kept
    | (intro p hp; cases p <;>
       first | exact absurd (hl _ (by decide)) hp | rfl)
    | with_reducible exact fun hv => hv | split
    | with_reducible refine State.Kept.lit ?_ ?_ ?_ ?_ ?_ ?_ ?_ ?_)

theorem execBoot_kept {ps : List Part} {s0 s : State}  (hl : ∀ p ∈ faulting ++ [.boot, .pinRel], p ∈ ps)
    (h : s0.Kept ps s) : ∃ t, execBoot s = .next t ∧ s0.Kept ps t := by
  refine ⟨_, rfl, ?_⟩
  repeat' (first
    | with_reducible assumption | with_reducible exact Part.sub_trans hl (by decide)
    | (with_reducible refine (?_ : s0.Kept ps _); fail_if_no_progress extract_lets +onlyGivenNames y
       clear_value (hy : y = _))
    | with_reducible apply State.activateBoot_kept | with_reducible apply State.bootStart_kept
    | (intro p hp; cases p <;>
       first | exact absurd (hl _ (by decide)) hp | rfl)
    | with_reducible exact fun hv => hv | split
    | with_reducible refine State.Kept.lit ?_ ?_ ?_ ?_ ?_ ?_ ?_ ?_)

theorem execBootDoneTimeout_kept {ps : List Part} {s0 s : State}  (hl : ∀ p ∈ faulting ++ [.boot], p ∈ ps)
    (h : s0.Kept ps s) : ∃ t, execBootDoneTimeout s = .next t ∧ s0.Kept ps t := by
  refine ⟨_, rfl, ?_⟩
  repeat' (first
    | with_reducible assumption | with_reducible exact Part.sub_trans hl (by decide)
    | (with_reducible refine (?_ : s0.Kept ps _); fail_if_no_progress extract_lets +onlyGivenNames x
       refine (fun (_ : s0.Kept ps x) => ?_) ?_
       (on_goal 1 => clear_value x); (on_goal 2 => unfold x; clear x))
    | (with_reducible refine (?_ : s0.Kept ps _); fail_if_no_progress extract_lets +onlyGivenNames y
       clear_value (hy : y = _))
    | with_reducible apply State.raise_kept | with_reducible apply State.fwStops_kept
    | with_reducible apply State.setF_kept
    | (intro p hp; cases p <;>
       first | exact absurd (hl _ (by decide)) hp | rfl)
    | with_reducible exact fun hv => hv | split
    | with_reducible refine State.Kept.lit ?_ ?_ ?_ ?_ ?_ ?_ ?_ ?_)

theorem State.applyBcr_kept {ps : List Part} {s0 s : State}  (hl : ∀ p ∈ faulting, p ∈ ps)
    (h : s0.Kept ps s) : s0.Kept ps (State.applyBcr s) := by
  unfold State.applyBcr
  repeat' (first
    | with_reducible assumption | with_reducible exact Part.sub_trans hl (by decide)
    | (with_reducible refine (?_ : s0.Kept ps _); fail_if_no_progress extract_lets +onlyGivenNames x
       refine (fun (_ : s0.Kept ps x) => ?_) ?_
       (on_goal 1 => clear_value x); (on_goal 2 => unfold x; clear x))
    | (with_reducible refine (?_ : s0.Kept ps _); fail_if_no_progress extract_lets +onlyGivenNames x
       refine (fun (_ : s0.Kept ps x.1) => ?_) ?_
       (on_goal 1 => clear_value x); (on_goal 2 => unfold x; clear x))
    | (with_reducible refine (?_ : s0.Kept ps _); fail_if_no_progress extract_lets +onlyGivenNames x
       refine (fun (_ : s0.Kept ps x.2) => ?_) ?_
       (on_goal 1 => clear_value x); (on_goal 2 => unfold x; clear x))
    | (with_reducible refine (?_ : s0.Kept ps _); fail_if_no_progress extract_lets +onlyGivenNames y
       clear_value (hy : y = _))
    | with_reducible apply State.setF_kept | with_reducible apply State.raiseOnce_kept
    | (intro t a ht; with_reducible refine (?_ : s0.Kept ps _)) | with_reducible apply State.Kept.foldl
    | with_reducible apply State.Kept.foldlFst | with_reducible apply State.Kept.foldlSnd | split
    | dsimp -zeta only | with_reducible refine State.Kept.lit ?_ ?_ ?_ ?_ ?_ ?_ ?_ ?_)

theorem State.provision_kept {ps : List Part} {s0 s : State} (hl : ∀ p ∈ ([.regs, .fuses] : List Part), p ∈ ps) (h : s0.Kept ps s) :
    s0.Kept ps s.provision := by
  unfold State.provision
  split
  · exact h
  · refine State.setF_kept _ _ _ (Part.sub_trans hl (by decide)) (h.setFuses (Part.sub_trans hl (by decide)) ?_)
    split
    · exact ⟨Nat.le_refl _, rfl, fun _ => rfl, id⟩
    · split
      · exact ⟨Nat.le_refl _, rfl, id, fun _ => rfl⟩
      · exact .refl _

theorem State.restoreLife_kept {ps : List Part} {s0 s : State}  (hl : ∀ p ∈ ([.regs, .temper] : List Part), p ∈ ps)
    (h : s0.Kept ps s) : s0.Kept ps (State.restoreLife s) := by
  unfold State.restoreLife
  repeat' (first
    | with_reducible assumption | with_reducible exact Part.sub_trans hl (by decide)
    | (with_reducible refine (?_ : s0.Kept ps _); fail_if_no_progress extract_lets +onlyGivenNames x
       refine (fun (_ : s0.Kept ps x) => ?_) ?_
       (on_goal 1 => clear_value x); (on_goal 2 => unfold x; clear x))
    | (with_reducible refine (?_ : s0.Kept ps _); fail_if_no_progress extract_lets +onlyGivenNames y
       clear_value (hy : y = _))
    | with_reducible apply State.setF_kept
    | (intro p hp; cases p <;>
       first | exact absurd (hl _ (by decide)) hp | rfl)
    | with_reducible exact fun hv => hv | split
    | with_reducible refine State.Kept.lit ?_ ?_ ?_ ?_ ?_ ?_ ?_ ?_)

theorem State.loadBand_kept {ps : List Part} {s0 s : State} (b : Nat × Nat × Nat × Nat × Nat) (hl : ∀ p ∈ ([.regs] : List Part), p ∈ ps)
    (h : s0.Kept ps s) : s0.Kept ps (State.loadBand s b) := by
  unfold State.loadBand
  repeat' (first
    | with_reducible assumption | with_reducible exact Part.sub_trans hl (by decide)
    | (with_reducible refine (?_ : s0.Kept ps _); fail_if_no_progress extract_lets +onlyGivenNames x
       refine (fun (_ : s0.Kept ps x) => ?_) ?_
       (on_goal 1 => clear_value x); (on_goal 2 => unfold x; clear x))
    | (with_reducible refine (?_ : s0.Kept ps _); fail_if_no_progress extract_lets +onlyGivenNames x
       refine (fun (_ : s0.Kept ps x.1) => ?_) ?_
       (on_goal 1 => clear_value x); (on_goal 2 => unfold x; clear x))
    | (with_reducible refine (?_ : s0.Kept ps _); fail_if_no_progress extract_lets +onlyGivenNames x
       refine (fun (_ : s0.Kept ps x.2) => ?_) ?_
       (on_goal 1 => clear_value x); (on_goal 2 => unfold x; clear x))
    | (with_reducible refine (?_ : s0.Kept ps _); fail_if_no_progress extract_lets +onlyGivenNames y
       clear_value (hy : y = _))
    | with_reducible apply State.setF_kept | split | dsimp -zeta only)

theorem State.holdCorr_kept {ps : List Part} {s0 s : State} (dir : Nat) (i : Nat) (hl : ∀ p ∈ ([.time] : List Part), p ∈ ps)
    (h : s0.Kept ps s) : s0.Kept ps (State.holdCorr s dir i) := by
  unfold State.holdCorr
  repeat' (first
    | with_reducible assumption | with_reducible exact Part.sub_trans hl (by decide)
    | (with_reducible refine (?_ : s0.Kept ps _); fail_if_no_progress extract_lets +onlyGivenNames x
       refine (fun (_ : s0.Kept ps x) => ?_) ?_
       (on_goal 1 => clear_value x); (on_goal 2 => unfold x; clear x))
    | (with_reducible refine (?_ : s0.Kept ps _); fail_if_no_progress extract_lets +onlyGivenNames y
       clear_value (hy : y = _))
    | (intro p hp; cases p <;>
       first | exact absurd (hl _ (by decide)) hp | rfl)
    | with_reducible exact fun hv => hv | split
    | with_reducible refine State.Kept.lit ?_ ?_ ?_ ?_ ?_ ?_ ?_ ?_)

theorem State.loadCorr_kept {ps : List Part} {s0 s : State} (c : Nat × Nat × Int × Int) (hl : ∀ p ∈ ([.regs, .time] : List Part), p ∈ ps)
    (h : s0.Kept ps s) : s0.Kept ps (State.loadCorr s c) := by
  unfold State.loadCorr
  repeat' (first
    | with_reducible assumption | with_reducible exact Part.sub_trans hl (by decide)
    | (with_reducible refine (?_ : s0.Kept ps _); fail_if_no_progress extract_lets +onlyGivenNames x
       refine (fun (_ : s0.Kept ps x) => ?_) ?_
       (on_goal 1 => clear_value x); (on_goal 2 => unfold x; clear x))
    | (with_reducible refine (?_ : s0.Kept ps _); fail_if_no_progress extract_lets +onlyGivenNames x
       refine (fun (_ : s0.Kept ps x.1) => ?_) ?_
       (on_goal 1 => clear_value x); (on_goal 2 => unfold x; clear x))
    | (with_reducible refine (?_ : s0.Kept ps _); fail_if_no_progress extract_lets +onlyGivenNames x
       refine (fun (_ : s0.Kept ps x.2) => ?_) ?_
       (on_goal 1 => clear_value x); (on_goal 2 => unfold x; clear x))
    | (with_reducible refine (?_ : s0.Kept ps _); fail_if_no_progress extract_lets +onlyGivenNames y
       clear_value (hy : y = _))
    | with_reducible apply State.holdCorr_kept | with_reducible apply State.setF_kept | split
    | dsimp -zeta only)

theorem State.enableRef25_kept {ps : List Part} {s0 s : State}  (hl : ∀ p ∈ reports ++ [.refs], p ∈ ps)
    (h : s0.Kept ps s) : s0.Kept ps (State.enableRef25 s) := by
  unfold State.enableRef25
  repeat' (first
    | with_reducible assumption | with_reducible exact Part.sub_trans hl (by decide)
    | (with_reducible refine (?_ : s0.Kept ps _); fail_if_no_progress extract_lets +onlyGivenNames x
       refine (fun (_ : s0.Kept ps x) => ?_) ?_
       (on_goal 1 => clear_value x); (on_goal 2 => unfold x; clear x))
    | (with_reducible refine (?_ : s0.Kept ps _); fail_if_no_progress extract_lets +onlyGivenNames y
       clear_value (hy : y = _))
    | with_reducible apply State.settleRef_kept | with_reducible apply State.setF_kept | split
    | dsimp -zeta only)

theorem State.fillTables_kept {ps : List Part} {s0 s : State} (l : FwLoad) (hl : ∀ p ∈ faulting ++ [.plls], p ∈ ps)
    (h : s0.Kept ps s) : s0.Kept ps (State.fillTables s l) := by
  unfold State.fillTables
  repeat' (first
    | with_reducible assumption | with_reducible exact Part.sub_trans hl (by decide)
    | (with_reducible refine (?_ : s0.Kept ps _); fail_if_no_progress extract_lets +onlyGivenNames x
       refine (fun (_ : s0.Kept ps x) => ?_) ?_
       (on_goal 1 => clear_value x); (on_goal 2 => unfold x; clear x))
    | (with_reducible refine (?_ : s0.Kept ps _); fail_if_no_progress extract_lets +onlyGivenNames y
       clear_value (hy : y = _))
    | with_reducible apply State.loadCorr_kept | with_reducible apply State.loadBand_kept
    | with_reducible apply State.apllStart_kept | with_reducible apply State.enableRef25_kept
    | (intro t a ht; with_reducible refine (?_ : s0.Kept ps _)) | with_reducible apply State.Kept.foldl
    | split | dsimp -zeta only)

theorem State.loadUcode_kept {ps : List Part} {s0 s : State} (ok : Nat) (hl : ∀ p ∈ ([.regs] : List Part), p ∈ ps)
    (h : s0.Kept ps s) : s0.Kept ps (State.loadUcode s ok) := by
  unfold State.loadUcode
  repeat' (first
    | with_reducible assumption | with_reducible exact Part.sub_trans hl (by decide)
    | with_reducible apply State.orF_kept | (intro t a ht; with_reducible refine (?_ : s0.Kept ps _))
    | with_reducible apply State.Kept.foldl | split | dsimp -zeta only)

theorem State.liftFence_kept {ps : List Part} {s0 s : State}  (hl : ∀ p ∈ faulting, p ∈ ps)
    (h : s0.Kept ps s) : s0.Kept ps (State.liftFence s) := by
  unfold State.liftFence
  repeat' (first
    | with_reducible assumption | with_reducible exact Part.sub_trans hl (by decide)
    | (with_reducible refine (?_ : s0.Kept ps _); fail_if_no_progress extract_lets +onlyGivenNames x
       refine (fun (_ : s0.Kept ps x) => ?_) ?_
       (on_goal 1 => clear_value x); (on_goal 2 => unfold x; clear x))
    | (with_reducible refine (?_ : s0.Kept ps _); fail_if_no_progress extract_lets +onlyGivenNames y
       clear_value (hy : y = _))
    | with_reducible apply State.upFence_kept | with_reducible apply State.raiseOnce_kept
    | (intro p hp; cases p <;>
       first | exact absurd (hl _ (by decide)) hp | rfl)
    | with_reducible exact fun hv => hv
    | (intro r hr; first | exact hr | (revert hr; simp only [Ring.ok] <;> omega)) | split
    | dsimp -zeta only | with_reducible refine State.Kept.lit ?_ ?_ ?_ ?_ ?_ ?_ ?_ ?_)

theorem State.startTemper_kept {ps : List Part} {s0 s : State}  (hl : ∀ p ∈ reports ++ [.fw, .temper, .free], p ∈ ps)
    (h : s0.Kept ps s) : s0.Kept ps (State.startTemper s) := by
  unfold State.startTemper
  repeat' (first
    | with_reducible assumption | with_reducible exact Part.sub_trans hl (by decide)
    | with_reducible apply State.temperResume_kept | with_reducible apply State.trigger_kept
    | (intro t a ht; with_reducible refine (?_ : s0.Kept ps _)) | with_reducible apply State.Kept.foldl
    | dsimp -zeta only)

theorem execFwRun_kept {ps : List Part} {s0 s : State} (load : FwLoad) (hl : ∀ p ∈ faulting ++ [.fuses, .plls], p ∈ ps)
    (h : s0.Kept ps s) : ∃ t, execFwRun load s = .next t ∧ s0.Kept ps t := by
  refine ⟨_, rfl, ?_⟩
  repeat' (first
    | with_reducible assumption | with_reducible exact Part.sub_trans hl (by decide)
    | (with_reducible refine (?_ : s0.Kept ps _); fail_if_no_progress extract_lets +onlyGivenNames x
       refine (fun (_ : s0.Kept ps x) => ?_) ?_
       (on_goal 1 => clear_value x); (on_goal 2 => unfold x; clear x))
    | (with_reducible refine (?_ : s0.Kept ps _); fail_if_no_progress extract_lets +onlyGivenNames y
       clear_value (hy : y = _))
    | with_reducible apply State.liftFence_kept | with_reducible apply State.provision_kept
    | with_reducible apply State.applyBcr_kept | with_reducible apply State.setF_kept
    | with_reducible apply State.loadUcode_kept | with_reducible apply State.fillTables_kept
    | with_reducible apply State.restoreLife_kept | with_reducible apply State.startTemper_kept
    | (intro p hp; cases p <;>
       first | exact absurd (hl _ (by decide)) hp | rfl)
    | with_reducible exact fun hv => hv | split
    | with_reducible refine State.Kept.lit ?_ ?_ ?_ ?_ ?_ ?_ ?_ ?_)

theorem State.wholeReset_kept {ps : List Part} {s0 s : State} (held : Bool) (hl : ∀ p ∈ ([.regs, .latch, .boot, .rings, .fns, .ports, .lanes, .tables, .epochs, .tiles, .fabric, .acct, .pinCfg, .pinRel, .pinMsg, .queues, .pgs, .flowRt, .merges, .cuts, .time, .phases, .tius, .refs, .dplls, .plls, .outs, .gens, .window, .fences, .fw, .quench, .pair, .temper, .pwr, .counters, .hmk, .jtag, .stalled] : List Part), p ∈ ps)
    (h : s0.Kept ps s) : s0.Kept ps (s.wholeReset held) := by
  obtain ⟨h1, h2, h3, h4, h5, h6, h7⟩ := h
  refine ⟨h1, h2, h3, h4, h5, fun _ => ⟨rfl, ?_, ?_, ?_, ?_, Nat.le_refl _⟩, fun p hp => State.keeps_trans (h7 p hp) ?_⟩
  · intro e he; cases he
  · intro e he; cases he
  · show (0 : Nat) < 256; decide
  · show (0 : Nat) < 4294967296; decide
  · cases p <;> first | exact absurd (hl _ (by decide)) hp | rfl

theorem execDeviceReset_kept {ps : List Part} {s0 s : State} (lowNs : Nat) (hl : ∀ p ∈ ([.regs, .latch, .boot, .rings, .fns, .ports, .lanes, .tables, .epochs, .tiles, .fabric, .acct, .pinCfg, .pinRel, .pinMsg, .queues, .pgs, .flowRt, .merges, .cuts, .time, .phases, .tius, .refs, .dplls, .plls, .outs, .gens, .window, .fences, .fw, .quench, .pair, .temper, .pwr, .counters, .hmk, .jtag, .stalled, .free] : List Part), p ∈ ps)
    (h : s0.Kept ps s) : ∃ t, execDeviceReset lowNs s = .next t ∧ s0.Kept ps t := by
  refine ⟨_, rfl, ?_⟩
  have hd := h.drawn (Part.sub_trans hl (by decide)) (Nat.le_succ s.free)
  split
  · exact h
  · split
    · exact State.wholeReset_kept _ (Part.sub_trans hl (by decide)) h
    · dsimp only
      split
      · exact State.wholeReset_kept _ (Part.sub_trans hl (by decide)) hd
      · exact hd

theorem execAonRailFail_kept {ps : List Part} {s0 s : State}  (hl : ∀ p ∈ ([.regs, .latch, .boot, .rings, .fns, .ports, .lanes, .tables, .epochs, .tiles, .fabric, .acct, .pinCfg, .pinRel, .pinMsg, .queues, .pgs, .flowRt, .merges, .cuts, .time, .phases, .tius, .refs, .dplls, .plls, .outs, .gens, .window, .fences, .fw, .quench, .pair, .temper, .pwr, .counters, .hmk, .jtag, .stalled] : List Part), p ∈ ps)
    (h : s0.Kept ps s) : ∃ t, execAonRailFail s = .next t ∧ s0.Kept ps t := by
  refine ⟨_, rfl, ?_⟩
  repeat' (first
    | with_reducible assumption | with_reducible exact Part.sub_trans hl (by decide)
    | with_reducible apply State.wholeReset_kept)

theorem execFwStage_kept {ps : List Part} {s0 s : State} (c : Cmd) (img : Image) (hl : ∀ p ∈ reports ++ [.flash], p ∈ ps)
    (h : s0.Kept ps s) : ∃ t, execFwStage c img s = .next t ∧ s0.Kept ps t := by
  refine ⟨_, rfl, ?_⟩
  repeat' (first
    | with_reducible assumption | with_reducible exact Part.sub_trans hl (by decide)
    | (with_reducible refine (?_ : s0.Kept ps _); fail_if_no_progress extract_lets +onlyGivenNames x
       refine (fun (_ : s0.Kept ps x) => ?_) ?_
       (on_goal 1 => clear_value x); (on_goal 2 => unfold x; clear x))
    | (with_reducible refine (?_ : s0.Kept ps _); fail_if_no_progress extract_lets +onlyGivenNames y
       clear_value (hy : y = _))
    | with_reducible apply State.fwCommand_kept | with_reducible apply State.done_kept
    | (intro t ht; with_reducible refine (?_ : s0.Kept ps _))
    | (intro p hp; cases p <;>
       first | exact absurd (hl _ (by decide)) hp | rfl)
    | with_reducible exact fun hv => hv
    | (intro hv; first | exact hv | (subst_vars; first | exact hv | omega)) | split | dsimp -zeta only
    | with_reducible refine State.Kept.lit ?_ ?_ ?_ ?_ ?_ ?_ ?_ ?_)

theorem execFwActivate_kept {ps : List Part} {s0 s : State} (c : Cmd) (hl : ∀ p ∈ reports ++ [.fw], p ∈ ps)
    (h : s0.Kept ps s) : ∃ t, execFwActivate c s = .next t ∧ s0.Kept ps t := by
  refine ⟨_, rfl, ?_⟩
  repeat' (first
    | with_reducible assumption | with_reducible exact Part.sub_trans hl (by decide)
    | (with_reducible refine (?_ : s0.Kept ps _); fail_if_no_progress extract_lets +onlyGivenNames x
       refine (fun (_ : s0.Kept ps x) => ?_) ?_
       (on_goal 1 => clear_value x); (on_goal 2 => unfold x; clear x))
    | (with_reducible refine (?_ : s0.Kept ps _); fail_if_no_progress extract_lets +onlyGivenNames y
       clear_value (hy : y = _))
    | with_reducible apply State.fwCommand_kept | with_reducible apply State.done_kept
    | (intro t ht; with_reducible refine (?_ : s0.Kept ps _))
    | (intro p hp; cases p <;>
       first | exact absurd (hl _ (by decide)) hp | rfl)
    | with_reducible exact fun hv => hv | split | dsimp -zeta only
    | with_reducible refine State.Kept.lit ?_ ?_ ?_ ?_ ?_ ?_ ?_ ?_)

theorem execFwActivateFence_kept {ps : List Part} {s0 s : State}  (hl : ∀ p ∈ reports ++ [.boot, .ports, .epochs, .tiles, .fabric, .acct, .pinRel, .queues, .pgs, .time, .phases, .refs, .window, .fences, .fw, .quench, .temper, .free], p ∈ ps)
    (h : s0.Kept ps s) : ∃ t, execFwActivateFence s = .next t ∧ s0.Kept ps t := by
  refine ⟨_, rfl, ?_⟩
  repeat' (first
    | with_reducible assumption | with_reducible exact Part.sub_trans hl (by decide)
    | (with_reducible refine (?_ : s0.Kept ps _); fail_if_no_progress extract_lets +onlyGivenNames x
       refine (fun (_ : s0.Kept ps x) => ?_) ?_
       (on_goal 1 => clear_value x); (on_goal 2 => unfold x; clear x))
    | (with_reducible refine (?_ : s0.Kept ps _); fail_if_no_progress extract_lets +onlyGivenNames y
       clear_value (hy : y = _))
    | with_reducible apply State.activateBoot_kept | with_reducible apply State.activateFence_kept
    | (intro p hp; cases p <;>
       first | exact absurd (hl _ (by decide)) hp | rfl)
    | with_reducible exact fun hv => hv | split
    | with_reducible refine State.Kept.lit ?_ ?_ ?_ ?_ ?_ ?_ ?_ ?_)

theorem execFwActivateTimeout_kept {ps : List Part} {s0 s : State} (hl : ∀ p ∈ reports ++ [.boot, .ports, .epochs, .tiles, .fabric, .acct, .queues, .pgs, .time, .phases, .refs, .fences, .fw, .quench, .temper, .free], p ∈ ps)
    (h : s0.Kept ps s) : ∃ t, execFwActivateTimeout s = .next t ∧ s0.Kept ps t := by
  refine ⟨_, rfl, ?_⟩
  split
  · rename_i a _
    split
    · exact h
    · extract_lets s0f s1 s2 s3 s3f s4
      have h1 : s0.Kept ps s1 := h.same (by
      intro p hp; cases p <;> first | exact absurd (hl _ (by decide)) hp | rfl) rfl rfl rfl rfl rfl rfl rfl rfl rfl rfl
      have h2 : s0.Kept ps s2 := by
        unfold s2
        split
        · apply State.fenceAccept_kept
          · exact (Part.sub_trans hl (by decide))
          · exact h1
        · exact h1
      have h3 : s0.Kept ps s3 := State.upFence_kept _ _ (Part.sub_trans hl (by decide)) h2 (fun _ _ => Nat.le_succ 2)
      have h4 : s0.Kept ps s4 := h3.same (by
      intro p hp; cases p <;> first | exact absurd (hl _ (by decide)) hp | rfl) rfl rfl rfl rfl rfl rfl rfl rfl rfl rfl
      apply State.activateBack_kept
      · exact (Part.sub_trans hl (by decide))
      · exact h4
  · exact h

end Sys2Proof.Machine
end

