-- ==== Sys2Proof/Laws/KeptJtag.lean ====
section
/-!
SUPPORT. What the operations and meanings of Machine/Jtag.lean keep (`State.Kept`).
-/

set_option linter.all false
set_option linter.unusedTactic false
set_option linter.unreachableTactic false

namespace Sys2Proof.Machine

theorem State.tap_kept {ps : List Part} {s0 s : State} (ir : Nat) (drive : Nat) (hl : ∀ p ∈ ([.jtag] : List Part), p ∈ ps)
    (h : s0.Kept ps s) : s0.Kept ps (State.tap s ir drive) := by
  unfold State.tap
  repeat' (first
    | with_reducible assumption | with_reducible exact Part.sub_trans hl (by decide)
    | (with_reducible refine (?_ : s0.Kept ps _); fail_if_no_progress extract_lets +onlyGivenNames y
       clear_value (hy : y = _))
    | (intro p hp; cases p <;>
       first | exact absurd (hl _ (by decide)) hp | rfl)
    | with_reducible exact fun hv => hv | with_reducible refine State.Kept.lit ?_ ?_ ?_ ?_ ?_ ?_ ?_ ?_)

theorem State.testOp_kept {ps : List Part} {s0 s : State} (ir : Nat) (drive : Nat) (hl : ∀ p ∈ ([.jtag] : List Part), p ∈ ps)
    (h : s0.Kept ps s) : s0.Kept ps (State.testOp s ir drive) := by
  unfold State.testOp
  repeat' (first
    | with_reducible assumption | with_reducible exact Part.sub_trans hl (by decide)
    | with_reducible apply State.tap_kept | split)

theorem execIdcode_kept {ps : List Part} {s0 s : State}  (hl : ∀ p ∈ ([.jtag, .out] : List Part), p ∈ ps)
    (h : s0.Kept ps s) : ∃ t, execIdcode s = .next t ∧ s0.Kept ps t := by
  refine ⟨_, rfl, ?_⟩
  repeat' (first
    | with_reducible assumption | with_reducible exact Part.sub_trans hl (by decide)
    | with_reducible apply State.emit_kept | with_reducible apply State.tap_kept)

theorem execSample_kept {ps : List Part} {s0 s : State} (cells : List Bool) (hl : ∀ p ∈ ([.jtag, .out] : List Part), p ∈ ps)
    (h : s0.Kept ps s) : ∃ t, execSample cells s = .next t ∧ s0.Kept ps t := by
  refine ⟨_, rfl, ?_⟩
  repeat' (first
    | with_reducible assumption | with_reducible exact Part.sub_trans hl (by decide)
    | (with_reducible refine (?_ : s0.Kept ps _); fail_if_no_progress extract_lets +onlyGivenNames x
       refine (fun (_ : s0.Kept ps x) => ?_) ?_
       (on_goal 1 => clear_value x); (on_goal 2 => unfold x; clear x))
    | (with_reducible refine (?_ : s0.Kept ps _); fail_if_no_progress extract_lets +onlyGivenNames y
       clear_value (hy : y = _))
    | with_reducible apply State.emit_kept | with_reducible apply State.tap_kept
    | (intro p hp; cases p <;>
       first | exact absurd (hl _ (by decide)) hp | rfl)
    | with_reducible exact fun hv => hv | with_reducible refine State.Kept.lit ?_ ?_ ?_ ?_ ?_ ?_ ?_ ?_)

theorem execBypass_kept {ps : List Part} {s0 s : State}  (hl : ∀ p ∈ ([.jtag, .out] : List Part), p ∈ ps)
    (h : s0.Kept ps s) : ∃ t, execBypass s = .next t ∧ s0.Kept ps t := by
  refine ⟨_, rfl, ?_⟩
  repeat' (first
    | with_reducible assumption | with_reducible exact Part.sub_trans hl (by decide)
    | with_reducible apply State.emit_kept | with_reducible apply State.tap_kept)

theorem execExtest_kept {ps : List Part} {s0 s : State}  (hl : ∀ p ∈ ([.jtag] : List Part), p ∈ ps)
    (h : s0.Kept ps s) : ∃ t, execExtest s = .next t ∧ s0.Kept ps t := by
  refine ⟨_, rfl, ?_⟩
  repeat' (first
    | with_reducible assumption | with_reducible exact Part.sub_trans hl (by decide)
    | with_reducible apply State.testOp_kept)

theorem execPreload_kept {ps : List Part} {s0 s : State} (cells : List Bool) (hl : ∀ p ∈ ([.jtag] : List Part), p ∈ ps)
    (h : s0.Kept ps s) : ∃ t, execPreload cells s = .next t ∧ s0.Kept ps t := by
  refine ⟨_, rfl, ?_⟩
  repeat' (first
    | with_reducible assumption | with_reducible exact Part.sub_trans hl (by decide)
    | (with_reducible refine (?_ : s0.Kept ps _); fail_if_no_progress extract_lets +onlyGivenNames x
       refine (fun (_ : s0.Kept ps x) => ?_) ?_
       (on_goal 1 => clear_value x); (on_goal 2 => unfold x; clear x))
    | (with_reducible refine (?_ : s0.Kept ps _); fail_if_no_progress extract_lets +onlyGivenNames y
       clear_value (hy : y = _))
    | with_reducible apply State.testOp_kept
    | (intro p hp; cases p <;>
       first | exact absurd (hl _ (by decide)) hp | rfl)
    | with_reducible exact fun hv => hv | split
    | with_reducible refine State.Kept.lit ?_ ?_ ?_ ?_ ?_ ?_ ?_ ?_)

theorem execClamp_kept {ps : List Part} {s0 s : State}  (hl : ∀ p ∈ ([.jtag] : List Part), p ∈ ps)
    (h : s0.Kept ps s) : ∃ t, execClamp s = .next t ∧ s0.Kept ps t := by
  refine ⟨_, rfl, ?_⟩
  repeat' (first
    | with_reducible assumption | with_reducible exact Part.sub_trans hl (by decide)
    | with_reducible apply State.testOp_kept)

theorem execHighz_kept {ps : List Part} {s0 s : State}  (hl : ∀ p ∈ ([.jtag] : List Part), p ∈ ps)
    (h : s0.Kept ps s) : ∃ t, execHighz s = .next t ∧ s0.Kept ps t := by
  refine ⟨_, rfl, ?_⟩
  repeat' (first
    | with_reducible assumption | with_reducible exact Part.sub_trans hl (by decide)
    | with_reducible apply State.testOp_kept)

theorem execExtestPulse_kept {ps : List Part} {s0 s : State}  (hl : ∀ p ∈ ([.jtag] : List Part), p ∈ ps)
    (h : s0.Kept ps s) : ∃ t, execExtestPulse s = .next t ∧ s0.Kept ps t := by
  refine ⟨_, rfl, ?_⟩
  repeat' (first
    | with_reducible assumption | with_reducible exact Part.sub_trans hl (by decide)
    | with_reducible apply State.testOp_kept)

theorem execExtestTrain_kept {ps : List Part} {s0 s : State}  (hl : ∀ p ∈ ([.jtag] : List Part), p ∈ ps)
    (h : s0.Kept ps s) : ∃ t, execExtestTrain s = .next t ∧ s0.Kept ps t := by
  refine ⟨_, rfl, ?_⟩
  repeat' (first
    | with_reducible assumption | with_reducible exact Part.sub_trans hl (by decide)
    | with_reducible apply State.testOp_kept)

end Sys2Proof.Machine
end

