-- ==== Sys2Proof/Laws/KeptAccess.lean ====
section
/-!
SUPPORT. What the operations and meanings of Machine/Access.lean keep (`State.Kept`).
-/

set_option linter.all false
set_option linter.unusedTactic false
set_option linter.unreachableTactic false

namespace Sys2Proof.Machine

theorem State.accessPerf_kept {ps : List Part} {s0 s : State} (p : Path) (addr : Nat) (hl : ∀ p ∈ ([.regs, .hmk] : List Part), p ∈ ps)
    (h : s0.Kept ps s) : s0.Kept ps (State.accessPerf s p addr) := by
  unfold State.accessPerf
  repeat' (first
    | with_reducible assumption | with_reducible exact Part.sub_trans hl (by decide)
    | with_reducible apply State.perf_kept | split)

theorem State.setLatch_kept {ps : List Part} {s0 s : State} (p : Path) (a : Nat) (v : Nat) (hl : ∀ p ∈ ([.latch] : List Part), p ∈ ps)
    (h : s0.Kept ps s) : s0.Kept ps (State.setLatch s p a v) := by
  unfold State.setLatch
  repeat' (first
    | with_reducible assumption | with_reducible exact Part.sub_trans hl (by decide)
    | (with_reducible refine (?_ : s0.Kept ps _); fail_if_no_progress extract_lets +onlyGivenNames y
       clear_value (hy : y = _))
    | (intro p hp; cases p <;>
       first | exact absurd (hl _ (by decide)) hp | rfl)
    | with_reducible exact fun hv => hv | with_reducible refine State.Kept.lit ?_ ?_ ?_ ?_ ?_ ?_ ?_ ?_)

theorem State.readWide_kept {ps : List Part} {s0 s : State} (p : Path) (addr : Nat) (hl : ∀ p ∈ ([.regs, .hmk, .out] : List Part), p ∈ ps)
    (h : s0.Kept ps s) : s0.Kept ps (State.readWide s p addr) := by
  unfold State.readWide
  repeat' (first
    | with_reducible assumption | with_reducible exact Part.sub_trans hl (by decide)
    | (with_reducible refine (?_ : s0.Kept ps _); fail_if_no_progress extract_lets +onlyGivenNames y
       clear_value (hy : y = _))
    | with_reducible apply State.emit_kept | with_reducible apply State.accessPerf_kept
    | (intro p hp; cases p <;>
       first | exact absurd (hl _ (by decide)) hp | rfl)
    | with_reducible exact fun hv => hv | with_reducible refine State.Kept.lit ?_ ?_ ?_ ?_ ?_ ?_ ?_ ?_)

theorem State.readAccess_kept {ps : List Part} {s0 s : State} (path : Path) (addr : Nat) (wide : Bool) (hl : ∀ p ∈ ([.regs, .latch, .hmk, .out] : List Part), p ∈ ps)
    (h : s0.Kept ps s) : s0.Kept ps (State.readAccess s path addr wide) := by
  unfold State.readAccess
  repeat' (first
    | with_reducible assumption | with_reducible exact Part.sub_trans hl (by decide)
    | (with_reducible refine (?_ : s0.Kept ps _); fail_if_no_progress extract_lets +onlyGivenNames x
       refine (fun (_ : s0.Kept ps x) => ?_) ?_
       (on_goal 1 => clear_value x); (on_goal 2 => unfold x; clear x))
    | (with_reducible refine (?_ : s0.Kept ps _); fail_if_no_progress extract_lets +onlyGivenNames y
       clear_value (hy : y = _))
    | with_reducible apply State.readWide_kept | with_reducible apply State.setLatch_kept
    | with_reducible apply State.emit_kept | with_reducible apply State.accessPerf_kept | split
    | with_reducible refine State.Kept.lit ?_ ?_ ?_ ?_ ?_ ?_ ?_ ?_)

theorem State.phStatRead_kept {ps : List Part} {s0 s : State} (path : Path) (port : Nat) (hl : ∀ p ∈ ([.regs, .latch, .hmk, .out] : List Part), p ∈ ps)
    (h : s0.Kept ps s) : s0.Kept ps (State.phStatRead s path port) := by
  unfold State.phStatRead
  repeat' (first
    | with_reducible assumption | with_reducible exact Part.sub_trans hl (by decide)
    | (with_reducible refine (?_ : s0.Kept ps _); fail_if_no_progress extract_lets +onlyGivenNames x
       refine (fun (_ : s0.Kept ps x) => ?_) ?_
       (on_goal 1 => clear_value x); (on_goal 2 => unfold x; clear x))
    | (with_reducible refine (?_ : s0.Kept ps _); fail_if_no_progress extract_lets +onlyGivenNames y
       clear_value (hy : y = _))
    | with_reducible apply State.setLatch_kept | with_reducible apply State.emit_kept
    | with_reducible apply State.accessPerf_kept | split)

theorem State.written_kept {ps : List Part} {s0 s : State} (old : State) (f : Fld) (i : Nat)
    (hl : ∀ p ∈ faulting ++ [.lanes, .plls], p ∈ ps) (h : s0.Kept ps s) : s0.Kept ps (s.written old f i) := by
  unfold State.written
  extract_lets id
  clear_value id
  repeat' (with_reducible refine State.Kept.ite ?_ ?_)
  repeat' (first
    | with_reducible assumption | with_reducible exact Part.sub_trans hl (by decide)
    | (with_reducible refine (?_ : s0.Kept ps _); fail_if_no_progress extract_lets +onlyGivenNames x
       refine (fun (_ : s0.Kept ps x) => ?_) ?_
       (on_goal 1 => clear_value x); (on_goal 2 => unfold x; clear x))
    | (with_reducible refine (?_ : s0.Kept ps _); fail_if_no_progress extract_lets +onlyGivenNames y
       clear_value (hy : y = _))
    | with_reducible apply State.freezeLanes_kept | with_reducible apply State.clampGuard_kept
    | with_reducible apply State.judgeOverbooked_kept | with_reducible apply State.setF_kept
    | with_reducible apply State.loadSsc_kept | with_reducible apply State.xonAll_kept
    | with_reducible apply State.temperCheck_kept | with_reducible apply State.ringFail_kept
    | with_reducible apply State.msix_kept | with_reducible apply State.upFn_kept
    | (intro p hp; cases p <;>
       first | exact absurd (hl _ (by decide)) hp | rfl)
    | with_reducible exact fun hv => hv | split | dsimp -zeta only
    | with_reducible refine State.Kept.lit ?_ ?_ ?_ ?_ ?_ ?_ ?_ ?_)

theorem State.writeSlot_kept {ps : List Part} {s0 s : State} (p : Path) (i : Nat) (v : Nat) (x : Slot) (hl : ∀ p ∈ faulting ++ [.lanes, .plls], p ∈ ps)
    (h : s0.Kept ps s) : s0.Kept ps (State.writeSlot s p i v x) := by
  unfold State.writeSlot
  repeat' (first
    | with_reducible assumption | with_reducible exact Part.sub_trans hl (by decide)
    | (with_reducible refine (?_ : s0.Kept ps _); fail_if_no_progress extract_lets +onlyGivenNames x
       refine (fun (_ : s0.Kept ps x) => ?_) ?_
       (on_goal 1 => clear_value x); (on_goal 2 => unfold x; clear x))
    | (with_reducible refine (?_ : s0.Kept ps _); fail_if_no_progress extract_lets +onlyGivenNames y
       clear_value (hy : y = _))
    | with_reducible apply State.holdCorr_kept | with_reducible apply State.written_kept
    | with_reducible apply State.setF_kept | split)

theorem State.writeReg_kept {ps : List Part} {s0 s : State} (p : Path) (addr : Nat) (v : Nat) (hl : ∀ p ∈ faulting ++ [.lanes, .plls], p ∈ ps)
    (h : s0.Kept ps s) : s0.Kept ps (State.writeReg s p addr v) := by
  unfold State.writeReg
  repeat' (first
    | with_reducible assumption | with_reducible exact Part.sub_trans hl (by decide)
    | (with_reducible refine (?_ : s0.Kept ps _); fail_if_no_progress extract_lets +onlyGivenNames x
       refine (fun (_ : s0.Kept ps x) => ?_) ?_
       (on_goal 1 => clear_value x); (on_goal 2 => unfold x; clear x))
    | (with_reducible refine (?_ : s0.Kept ps _); fail_if_no_progress extract_lets +onlyGivenNames x
       refine (fun (_ : s0.Kept ps x.1) => ?_) ?_
       (on_goal 1 => clear_value x); (on_goal 2 => unfold x; clear x))
    | (with_reducible refine (?_ : s0.Kept ps _); fail_if_no_progress extract_lets +onlyGivenNames x
       refine (fun (_ : s0.Kept ps x.2) => ?_) ?_
       (on_goal 1 => clear_value x); (on_goal 2 => unfold x; clear x))
    | (with_reducible refine (?_ : s0.Kept ps _); fail_if_no_progress extract_lets +onlyGivenNames y
       clear_value (hy : y = _))
    | with_reducible apply State.writeSlot_kept | with_reducible apply State.setF_kept
    | (intro t a ht; with_reducible refine (?_ : s0.Kept ps _)) | with_reducible apply State.Kept.foldl
    | with_reducible apply State.Kept.foldlFst | with_reducible apply State.Kept.foldlSnd | split
    | dsimp -zeta only | with_reducible refine State.Kept.lit ?_ ?_ ?_ ?_ ?_ ?_ ?_ ?_)

theorem State.writeAccess_kept {ps : List Part} {s0 s : State} (path : Path) (addr : Nat) (value : Word) (high : Option Word) (hl : ∀ p ∈ faulting ++ [.lanes, .plls], p ∈ ps)
    (h : s0.Kept ps s) : s0.Kept ps (State.writeAccess s path addr value high) := by
  unfold State.writeAccess
  repeat' (first
    | with_reducible assumption | with_reducible exact Part.sub_trans hl (by decide)
    | (with_reducible refine (?_ : s0.Kept ps _); fail_if_no_progress extract_lets +onlyGivenNames x
       refine (fun (_ : s0.Kept ps x) => ?_) ?_
       (on_goal 1 => clear_value x); (on_goal 2 => unfold x; clear x))
    | (with_reducible refine (?_ : s0.Kept ps _); fail_if_no_progress extract_lets +onlyGivenNames y
       clear_value (hy : y = _))
    | with_reducible apply State.accessPerf_kept | with_reducible apply State.writeReg_kept | split
    | with_reducible refine State.Kept.lit ?_ ?_ ?_ ?_ ?_ ?_ ?_ ?_)

theorem State.carryOut_kept {ps : List Part} {s0 s : State} (x : Stalled) (hl : ∀ p ∈ faulting ++ [.latch, .lanes, .plls], p ∈ ps)
    (h : s0.Kept ps s) : s0.Kept ps (State.carryOut s x) := by
  unfold State.carryOut
  repeat' (first
    | with_reducible assumption | with_reducible exact Part.sub_trans hl (by decide)
    | with_reducible apply State.readAccess_kept | with_reducible apply State.writeAccess_kept
    | with_reducible apply State.phStatRead_kept | split
    | with_reducible refine State.Kept.lit ?_ ?_ ?_ ?_ ?_ ?_ ?_ ?_)

theorem State.access_kept {ps : List Part} {s0 s : State} (x : Stalled) (hl : ∀ p ∈ faulting ++ [.latch, .lanes, .plls, .stalled], p ∈ ps)
    (h : s0.Kept ps s) : s0.Kept ps (State.access s x) := by
  unfold State.access
  repeat' (first
    | with_reducible assumption | with_reducible exact Part.sub_trans hl (by decide)
    | (with_reducible refine (?_ : s0.Kept ps _); fail_if_no_progress extract_lets +onlyGivenNames y
       clear_value (hy : y = _))
    | with_reducible apply State.carryOut_kept
    | (intro p hp; cases p <;>
       first | exact absurd (hl _ (by decide)) hp | rfl)
    | with_reducible exact fun hv => hv | split
    | with_reducible refine State.Kept.lit ?_ ?_ ?_ ?_ ?_ ?_ ?_ ?_)

theorem State.resume_kept {ps : List Part} {s0 s : State}  (hl : ∀ p ∈ faulting ++ [.latch, .lanes, .plls, .stalled], p ∈ ps)
    (h : s0.Kept ps s) : s0.Kept ps (State.resume s) := by
  unfold State.resume
  repeat' (first
    | with_reducible assumption | with_reducible exact Part.sub_trans hl (by decide)
    | (with_reducible refine (?_ : s0.Kept ps _); fail_if_no_progress extract_lets +onlyGivenNames y
       clear_value (hy : y = _))
    | with_reducible apply State.access_kept | (intro t a ht; with_reducible refine (?_ : s0.Kept ps _))
    | with_reducible apply State.Kept.foldl
    | (intro p hp; cases p <;>
       first | exact absurd (hl _ (by decide)) hp | rfl)
    | with_reducible exact fun hv => hv | dsimp -zeta only
    | with_reducible refine State.Kept.lit ?_ ?_ ?_ ?_ ?_ ?_ ?_ ?_)

theorem execRegisterLowerHalfRead_kept {ps : List Part} {s0 s : State} (path : Path) (at_ : ReadAddr) (hl : ∀ p ∈ faulting ++ [.latch, .lanes, .plls, .stalled], p ∈ ps)
    (h : s0.Kept ps s) : ∃ t, execRegisterLowerHalfRead path at_ s = .next t ∧ s0.Kept ps t := by
  refine ⟨_, rfl, ?_⟩
  repeat' (first
    | with_reducible assumption | with_reducible exact Part.sub_trans hl (by decide)
    | with_reducible apply State.access_kept)

theorem execTplPhStatRead_kept {ps : List Part} {s0 s : State} (path : Path) (port : Nat) (hl : ∀ p ∈ faulting ++ [.latch, .lanes, .plls, .stalled], p ∈ ps)
    (h : s0.Kept ps s) : ∃ t, execTplPhStatRead path port s = .next t ∧ s0.Kept ps t := by
  refine ⟨_, rfl, ?_⟩
  repeat' (first
    | with_reducible assumption | with_reducible exact Part.sub_trans hl (by decide)
    | with_reducible apply State.access_kept | split
    | with_reducible refine State.Kept.lit ?_ ?_ ?_ ?_ ?_ ?_ ?_ ?_)

theorem execRegisterWrite_kept {ps : List Part} {s0 s : State} (path : Path) (addr : Nat) (value : WriteData) (hl : ∀ p ∈ faulting ++ [.latch, .lanes, .plls, .stalled], p ∈ ps)
    (h : s0.Kept ps s) : ∃ t, execRegisterWrite path addr value s = .next t ∧ s0.Kept ps t := by
  refine ⟨_, rfl, ?_⟩
  repeat' (first
    | with_reducible assumption | with_reducible exact Part.sub_trans hl (by decide)
    | with_reducible apply State.access_kept)

theorem execDomainResetEnd_kept {ps : List Part} {s0 s : State} (domain : Nat) (hl : ∀ p ∈ faulting ++ [.latch, .lanes, .plls, .stalled], p ∈ ps)
    (h : s0.Kept ps s) : ∃ t, execDomainResetEnd domain s = .next t ∧ s0.Kept ps t := by
  refine ⟨_, rfl, ?_⟩
  repeat' (first
    | with_reducible assumption | with_reducible exact Part.sub_trans hl (by decide)
    | with_reducible apply State.resume_kept | with_reducible apply State.resetEnd_kept)

theorem execPllLock_kept {ps : List Part} {s0 s : State} (j : Nat) (hl : ∀ p ∈ faulting ++ [.latch, .lanes, .pinRel, .plls, .stalled], p ∈ ps)
    (h : s0.Kept ps s) : ∃ t, execPllLock j s = .next t ∧ s0.Kept ps t := by
  refine ⟨_, rfl, ?_⟩
  repeat' (first
    | with_reducible assumption | with_reducible exact Part.sub_trans hl (by decide)
    | with_reducible apply State.resume_kept | with_reducible apply State.pllLock_kept)

theorem execTileGateClear_kept {ps : List Part} {s0 s : State} (path : Path) (tile : Nat) (hl : ∀ p ∈ faulting ++ [.latch, .lanes, .plls, .stalled], p ∈ ps)
    (h : s0.Kept ps s) : ∃ t, execTileGateClear path tile s = .next t ∧ s0.Kept ps t := by
  refine ⟨_, rfl, ?_⟩
  repeat' (first
    | with_reducible assumption | with_reducible exact Part.sub_trans hl (by decide)
    | (with_reducible refine (?_ : s0.Kept ps _); fail_if_no_progress extract_lets +onlyGivenNames y
       clear_value (hy : y = _))
    | with_reducible apply State.resume_kept | with_reducible apply State.ungateTile_kept
    | (intro t ht; with_reducible refine (?_ : s0.Kept ps _))
    | (intro p hp; cases p <;>
       first | exact absurd (hl _ (by decide)) hp | rfl)
    | with_reducible exact fun hv => hv | with_reducible refine State.Kept.lit ?_ ?_ ?_ ?_ ?_ ?_ ?_ ?_)

theorem execUnsupportedRequest_kept {ps : List Part} {s0 s : State} (path : Path) (addr : Nat) (bytes : Nat) (write : Bool) (hl : ∀ p ∈ ([.out] : List Part), p ∈ ps)
    (h : s0.Kept ps s) : ∃ t, execUnsupportedRequest path addr bytes write s = .next t ∧ s0.Kept ps t := by
  refine ⟨_, rfl, ?_⟩
  repeat' (first
    | with_reducible assumption | with_reducible exact Part.sub_trans hl (by decide)
    | with_reducible apply State.emit_kept | split
    | with_reducible refine State.Kept.lit ?_ ?_ ?_ ?_ ?_ ?_ ?_ ?_)

theorem State.stallOcc_kept {ps : List Part} {s0 s : State} (kind : StallKind) (p : Path) (addr : Nat) (hl : ∀ p ∈ ([.free] : List Part), p ∈ ps)
    (h : s0.Kept ps s) : s0.Kept ps (State.stallOcc s kind p addr).2 := by
  unfold State.stallOcc
  repeat' (first
    | with_reducible assumption | with_reducible exact Part.sub_trans hl (by decide)
    | (with_reducible refine (?_ : s0.Kept ps _); fail_if_no_progress extract_lets +onlyGivenNames x
       refine (fun (_ : s0.Kept ps x) => ?_) ?_
       (on_goal 1 => clear_value x); (on_goal 2 => unfold x; clear x))
    | (with_reducible refine (?_ : s0.Kept ps _); fail_if_no_progress extract_lets +onlyGivenNames x
       refine (fun (_ : s0.Kept ps x.1) => ?_) ?_
       (on_goal 1 => clear_value x); (on_goal 2 => unfold x; clear x))
    | (with_reducible refine (?_ : s0.Kept ps _); fail_if_no_progress extract_lets +onlyGivenNames x
       refine (fun (_ : s0.Kept ps x.2) => ?_) ?_
       (on_goal 1 => clear_value x); (on_goal 2 => unfold x; clear x))
    | (with_reducible refine (?_ : s0.Kept ps _); fail_if_no_progress extract_lets +onlyGivenNames y
       clear_value (hy : y = _))
    | with_reducible apply State.draw_kept
    | with_reducible refine State.draw_kept_eq (pp := (_, _)) (by assumption) ?_ ?_ | split
    | dsimp -zeta only | with_reducible refine State.Kept.lit ?_ ?_ ?_ ?_ ?_ ?_ ?_ ?_)

theorem State.stallOcc_kept_eq {ps : List Part} {s0 s : State} {kind : StallKind} {p : Path} {addr : Nat} {pp : FaultOcc × State} (hp : State.stallOcc s kind p addr = pp) (hl : ∀ p ∈ ([.free] : List Part), p ∈ ps)
    (h : s0.Kept ps s) : s0.Kept ps pp.2 := by
  subst hp; apply State.stallOcc_kept <;> assumption

theorem State.dropStalled_kept {ps : List Part} {s0 s : State} (kind : StallKind) (path : Path) (addr : Nat) (hl : ∀ p ∈ ([.stalled] : List Part), p ∈ ps)
    (h : s0.Kept ps s) : s0.Kept ps (State.dropStalled s kind path addr) := by
  unfold State.dropStalled
  repeat' (first
    | with_reducible assumption | with_reducible exact Part.sub_trans hl (by decide)
    | (with_reducible refine (?_ : s0.Kept ps _); fail_if_no_progress extract_lets +onlyGivenNames y
       clear_value (hy : y = _))
    | (intro p hp; cases p <;>
       first | exact absurd (hl _ (by decide)) hp | rfl)
    | with_reducible exact fun hv => hv | split | dsimp -zeta only
    | with_reducible refine State.Kept.lit ?_ ?_ ?_ ?_ ?_ ?_ ?_ ?_)

theorem execAccessStallTimeout_kept {ps : List Part} {s0 s : State} (kind : StallKind) (path : Path) (addr : Nat) (hl : ∀ p ∈ faulting ++ [.latch, .lanes, .plls, .stalled], p ∈ ps)
    (h : s0.Kept ps s) : ∃ t, execAccessStallTimeout kind path addr s = .next t ∧ s0.Kept ps t := by
  refine ⟨_, rfl, ?_⟩
  repeat' (first
    | with_reducible assumption | with_reducible exact Part.sub_trans hl (by decide)
    | (with_reducible refine (?_ : s0.Kept ps _); fail_if_no_progress extract_lets +onlyGivenNames x
       refine (fun (_ : s0.Kept ps x) => ?_) ?_
       (on_goal 1 => clear_value x); (on_goal 2 => unfold x; clear x))
    | (with_reducible refine (?_ : s0.Kept ps _); fail_if_no_progress extract_lets +onlyGivenNames x
       refine (fun (_ : s0.Kept ps x.1) => ?_) ?_
       (on_goal 1 => clear_value x); (on_goal 2 => unfold x; clear x))
    | (with_reducible refine (?_ : s0.Kept ps _); fail_if_no_progress extract_lets +onlyGivenNames x
       refine (fun (_ : s0.Kept ps x.2) => ?_) ?_
       (on_goal 1 => clear_value x); (on_goal 2 => unfold x; clear x))
    | (with_reducible refine (?_ : s0.Kept ps _); fail_if_no_progress extract_lets +onlyGivenNames y
       clear_value (hy : y = _))
    | with_reducible apply State.dropStalled_kept | with_reducible apply State.stallOcc_kept
    | with_reducible refine State.stallOcc_kept_eq (pp := (_, _)) (by assumption) ?_ ?_
    | with_reducible apply State.emit_kept | with_reducible apply State.setF_kept
    | with_reducible apply State.resume_kept | with_reducible apply State.raiseCycle_kept | split
    | dsimp -zeta only)

end Sys2Proof.Machine
end

