-- ==== Sys2Proof/Laws/Exec.lean ====
section
/-!
SUPPORT. What every command keeps, by cases over the commands.
-/

namespace Sys2Proof.Machine

theorem exec_kept (i : Instr) (s : State) : ∃ t, exec i s = .next t ∧ s.Kept (instrParts i) t := by
  have h0 : ∀ ps, s.Kept ps s := fun ps => State.Kept.refl ps s
  cases i with
  | registerWrite path addr value => exact execRegisterWrite_kept _ _ _ (fun _ h => h) (h0 _)
  | registerLowerHalfRead path at_ => exact execRegisterLowerHalfRead_kept _ _ (fun _ h => h) (h0 _)
  | unsupportedRequest path addr bytes write => exact execUnsupportedRequest_kept _ _ _ _ (fun _ h => h) (h0 _)
  | tplPhStatRead path port => exact execTplPhStatRead_kept _ _ (fun _ h => h) (h0 _)
  | accessStallTimeout kind path addr => exact execAccessStallTimeout_kept _ _ _ (fun _ h => h) (h0 _)
  | powerOn straps => exact execPowerOn_kept _ (fun _ h => h) (h0 _)
  | vdd1v8SafeHold => exact execVdd1v8SafeHold_kept (fun _ h => h) (h0 _)
  | railInWindow rail => exact execRailInWindow_kept _ (fun _ h => h) (h0 _)
  | railSeqFail rail => exact execRailSeqFail_kept _ (fun _ h => h) (h0 _)
  | railSeqRetry => exact execRailSeqRetry_kept (fun _ h => h) (h0 _)
  | selftestComplete tileFail blockFail fatal => exact execSelftestComplete_kept _ _ _ (fun _ h => h) (h0 _)
  | hifReady => exact execHifReady_kept (fun _ h => h) (h0 _)
  | boot => exact execBoot_kept (fun _ h => h) (h0 _)
  | fwRun load => exact execFwRun_kept _ (fun _ h => h) (h0 _)
  | bootDoneTimeout => exact execBootDoneTimeout_kept (fun _ h => h) (h0 _)
  | deviceReset lowNs => exact execDeviceReset_kept _ (fun _ h => h) (h0 _)
  | aonRailFail => exact execAonRailFail_kept (fun _ h => h) (h0 _)
  | peRstNAssert => exact execPeRstNAssert_kept (fun _ h => h) (h0 _)
  | peRstNDeassert => exact execPeRstNDeassert_kept (fun _ h => h) (h0 _)
  | pcieLinkLoss => exact execPcieLinkLoss_kept (fun _ h => h) (h0 _)
  | vfFunctionLevelReset vf => exact execVfFunctionLevelReset_kept _ (fun _ h => h) (h0 _)
  | pfFunctionLevelReset => exact execPfFunctionLevelReset_kept (fun _ h => h) (h0 _)
  | ringEnable path ring => exact execRingEnable_kept _ _ (fun _ h => h) (h0 _)
  | ringDisable path ring => exact execRingDisable_kept _ _ (fun _ h => h) (h0 _)
  | ringStopped ring => exact execRingStopped_kept _ (fun _ h => h) (h0 _)
  | doorbellScan fn => exact execDoorbellScan_kept _ (fun _ h => h) (h0 _)
  | doorbellReadComplete fn entries => exact execDoorbellReadComplete_kept _ _ (fun _ h => h) (h0 _)
  | descriptorFetch ring descs => exact execDescriptorFetch_kept _ _ (fun _ h => h) (h0 _)
  | dmaReadError e => exact execDmaReadError_kept _ (fun _ h => h) (h0 _)
  | txFrameDataRead ring data => exact execTxFrameDataRead_kept _ _ (fun _ h => h) (h0 _)
  | interruptTimer ring => exact execInterruptTimer_kept _ (fun _ h => h) (h0 _)
  | entryHoldDrain ring => exact execEntryHoldDrain_kept _ (fun _ h => h) (h0 _)
  | rxFrameWrite => exact execRxFrameWrite_kept (fun _ h => h) (h0 _)
  | rxHoldExpiry ring => exact execRxHoldExpiry_kept _ (fun _ h => h) (h0 _)
  | nop c => exact execNop_kept _ (fun _ h => h) (h0 _)
  | tblWrite c => exact execTblWrite_kept _ (fun _ h => h) (h0 _)
  | tblDelete c => exact execTblDelete_kept _ (fun _ h => h) (h0 _)
  | tblBulk c => exact execTblBulk_kept _ (fun _ h => h) (h0 _)
  | tblSync c => exact execTblSync_kept _ (fun _ h => h) (h0 _)
  | tblCommit c => exact execTblCommit_kept _ (fun _ h => h) (h0 _)
  | tblCancel c => exact execTblCancel_kept _ (fun _ h => h) (h0 _)
  | tblRead c => exact execTblRead_kept _ (fun _ h => h) (h0 _)
  | flowAdd c => exact execFlowAdd_kept _ (fun _ h => h) (h0 _)
  | flowModify c => exact execFlowModify_kept _ (fun _ h => h) (h0 _)
  | flowDelete c => exact execFlowDelete_kept _ (fun _ h => h) (h0 _)
  | mergeSet c => exact execMergeSet_kept _ (fun _ h => h) (h0 _)
  | cutGroupSet c => exact execCutGroupSet_kept _ (fun _ h => h) (h0 _)
  | cutSelect c => exact execCutSelect_kept _ (fun _ h => h) (h0 _)
  | ringPause c => exact execRingPause_kept _ (fun _ h => h) (h0 _)
  | ringResume c => exact execRingResume_kept _ (fun _ h => h) (h0 _)
  | cntRead c => exact execCntRead_kept _ (fun _ h => h) (h0 _)
  | cntClear c => exact execCntClear_kept _ (fun _ h => h) (h0 _)
  | pgSet c => exact execPgSet_kept _ (fun _ h => h) (h0 _)
  | pgForce c => exact execPgForce_kept _ (fun _ h => h) (h0 _)
  | vfGrant c => exact execVfGrant_kept _ (fun _ h => h) (h0 _)
  | faultAck c => exact execFaultAck_kept _ (fun _ h => h) (h0 _)
  | ptpPortCfg c => exact execPtpPortCfg_kept _ (fun _ h => h) (h0 _)
  | timeCfg c => exact execTimeCfg_kept _ (fun _ h => h) (h0 _)
  | timeAuth c => exact execTimeAuth_kept _ (fun _ h => h) (h0 _)
  | dpllCfg c => exact execDpllCfg_kept _ (fun _ h => h) (h0 _)
  | refCfg c => exact execRefCfg_kept _ (fun _ h => h) (h0 _)
  | temperRun c => exact execTemperRun_kept _ (fun _ h => h) (h0 _)
  | pairCfg c => exact execPairCfg_kept _ (fun _ h => h) (h0 _)
  | pairSwitch c => exact execPairSwitch_kept _ (fun _ h => h) (h0 _)
  | fwStage c img => exact execFwStage_kept _ _ (fun _ h => h) (h0 _)
  | fwActivate c => exact execFwActivate_kept _ (fun _ h => h) (h0 _)
  | fwActivateFence => exact execFwActivateFence_kept (fun _ h => h) (h0 _)
  | fwActivateTimeout => exact execFwActivateTimeout_kept (fun _ h => h) (h0 _)
  | allowSet c sigOk => exact execAllowSet_kept _ _ (fun _ h => h) (h0 _)
  | portEnable path port => exact execPortEnable_kept _ _ (fun _ h => h) (h0 _)
  | portDisable path port => exact execPortDisable_kept _ _ (fun _ h => h) (h0 _)
  | linkLoss port cause noSignal noCdr lockLoss rxBusy txBusy => exact execLinkLoss_kept _ _ _ _ _ _ _ (fun _ h => h) (h0 _)
  | signalDetect port => exact execSignalDetect_kept _ (fun _ h => h) (h0 _)
  | cdrLock port lock => exact execCdrLock_kept _ _ (fun _ h => h) (h0 _)
  | trainingStart port => exact execTrainingStart_kept _ (fun _ h => h) (h0 _)
  | trainingComplete port => exact execTrainingComplete_kept _ (fun _ h => h) (h0 _)
  | holdoffEntry port coeffs => exact execHoldoffEntry_kept _ _ (fun _ h => h) (h0 _)
  | holdoffExpiry port => exact execHoldoffExpiry_kept _ (fun _ h => h) (h0 _)
  | fecDegradeWindow port counts => exact execFecDegradeWindow_kept _ _ (fun _ h => h) (h0 _)
  | adaptGuardHit port lane coeff want => exact execAdaptGuardHit_kept _ _ _ _ (fun _ h => h) (h0 _)
  | adaptResume port lane => exact execAdaptResume_kept _ _ (fun _ h => h) (h0 _)
  | recapture path port coeffs => exact execRecapture_kept _ _ _ (fun _ h => h) (h0 _)
  | txLpiEnter port => exact execTxLpiEnter_kept _ (fun _ h => h) (h0 _)
  | rxLpiEnter port => exact execRxLpiEnter_kept _ (fun _ h => h) (h0 _)
  | frameReceive f => exact execFrameReceive_kept _ (fun _ h => h) (h0 _)
  | flowControlFrameReceive port f => exact execFlowControlFrameReceive_kept _ _ (fun _ h => h) (h0 _)
  | pauseTimeExpiry port cls => exact execPauseTimeExpiry_kept _ _ (fun _ h => h) (h0 _)
  | pfcRefresh port => exact execPfcRefresh_kept _ (fun _ h => h) (h0 _)
  | pauseWatchdog port cls => exact execPauseWatchdog_kept _ _ (fun _ h => h) (h0 _)
  | pauseRecoverEnd port cls => exact execPauseRecoverEnd_kept _ _ (fun _ h => h) (h0 _)
  | lookup tile => exact execLookup_kept _ (fun _ h => h) (h0 _)
  | cellClose tile stream => exact execCellClose_kept _ _ (fun _ h => h) (h0 _)
  | fabricSlot ecc => exact execFabricSlot_kept _ (fun _ h => h) (h0 _)
  | cellLand bank crcOk => exact execCellLand_kept _ _ (fun _ h => h) (h0 _)
  | visitReceive tile crcOk => exact execVisitReceive_kept _ _ (fun _ h => h) (h0 _)
  | reseqTimeout src dst hp => exact execReseqTimeout_kept _ _ _ (fun _ h => h) (h0 _)
  | schedulerPick port phase dTx => exact execSchedulerPick_kept _ _ _ (fun _ h => h) (h0 _)
  | launchDue port q phase dTx => exact execLaunchDue_kept _ _ _ _ (fun _ h => h) (h0 _)
  | ageCheck q => exact execAgeCheck_kept _ (fun _ h => h) (h0 _)
  | epochDrained => exact execEpochDrained_kept (fun _ h => h) (h0 _)
  | pgWtrExpiry group => exact execPgWtrExpiry_kept _ (fun _ h => h) (h0 _)
  | cutSweep => exact execCutSweep_kept (fun _ h => h) (h0 _)
  | mergeIdleExpiry group => exact execMergeIdleExpiry_kept _ (fun _ h => h) (h0 _)
  | tickEdge gen => exact execTickEdge_kept _ (fun _ h => h) (h0 _)
  | commitCycle => exact execCommitCycle_kept (fun _ h => h) (h0 _)
  | budgetEnd => exact execBudgetEnd_kept (fun _ h => h) (h0 _)
  | merDone mark => exact execMerDone_kept _ (fun _ h => h) (h0 _)
  | rateGo path gen => exact execRateGo_kept _ _ (fun _ h => h) (h0 _)
  | generatorEnable path gen => exact execGeneratorEnable_kept _ _ (fun _ h => h) (h0 _)
  | servoUpdate badCopies => exact execServoUpdate_kept _ (fun _ h => h) (h0 _)
  | offsetMeasurement delta => exact execOffsetMeasurement_kept _ (fun _ h => h) (h0 _)
  | incNsWrite path value => exact execIncNsWrite_kept _ _ (fun _ h => h) (h0 _)
  | tplTbAdjWrite path value => exact execTplTbAdjWrite_kept _ _ (fun _ h => h) (h0 _)
  | stepGo path => exact execStepGo_kept _ (fun _ h => h) (h0 _)
  | capture path => exact execCapture_kept _ (fun _ h => h) (h0 _)
  | phaseBeat port rx tx edge => exact execPhaseBeat_kept _ _ _ _ (fun _ h => h) (h0 _)
  | phaseWindowEnd port w => exact execPhaseWindowEnd_kept _ _ (fun _ h => h) (h0 _)
  | alignmentLoss port => exact execAlignmentLoss_kept _ (fun _ h => h) (h0 _)
  | phEnSet path port => exact execPhEnSet_kept _ _ (fun _ h => h) (h0 _)
  | phEnClear path port => exact execPhEnClear_kept _ _ (fun _ h => h) (h0 _)
  | go path ch => exact execGo_kept _ _ (fun _ h => h) (h0 _)
  | abort path ch => exact execAbort_kept _ _ (fun _ h => h) (h0 _)
  | tiuEdge ch stop tclk e => exact execTiuEdge_kept _ _ _ _ (fun _ h => h) (h0 _)
  | tiuTimeout ch => exact execTiuTimeout_kept _ (fun _ h => h) (h0 _)
  | dpllLoopUpdate k x => exact execDpllLoopUpdate_kept _ _ (fun _ h => h) (h0 _)
  | dpllLockTime k => exact execDpllLockTime_kept _ (fun _ h => h) (h0 _)
  | dpllWtrExpiry k => exact execDpllWtrExpiry_kept _ (fun _ h => h) (h0 _)
  | holdoverLimitExpiry k => exact execHoldoverLimitExpiry_kept _ (fun _ h => h) (h0 _)
  | refActivityLoss n => exact execRefActivityLoss_kept _ (fun _ h => h) (h0 _)
  | refFastFrequencyFail n => exact execRefFastFrequencyFail_kept _ (fun _ h => h) (h0 _)
  | refGateEnd n foff => exact execRefGateEnd_kept _ _ (fun _ h => h) (h0 _)
  | qualMsExpiry n => exact execQualMsExpiry_kept _ (fun _ h => h) (h0 _)
  | ref25AgeOut => exact execRef25AgeOut_kept (fun _ h => h) (h0 _)
  | pllLock j => exact execPllLock_kept _ (fun _ h => h) (h0 _)
  | pllLossOfLock j => exact execPllLossOfLock_kept _ (fun _ h => h) (h0 _)
  | divGo path => exact execDivGo_kept _ (fun _ h => h) (h0 _)
  | syncArm path => exact execSyncArm_kept _ (fun _ h => h) (h0 _)
  | syncinEdge sincePrevNs => exact execSyncinEdge_kept _ (fun _ h => h) (h0 _)
  | fenceRequest by_ domain => exact execFenceRequest_kept _ _ (fun _ h => h) (h0 _)
  | fenceComplete domain => exact execFenceComplete_kept _ (fun _ h => h) (h0 _)
  | domainReset path domain => exact execDomainReset_kept _ _ (fun _ h => h) (h0 _)
  | domainResetEnd domain => exact execDomainResetEnd_kept _ (fun _ h => h) (h0 _)
  | fenceRelease by_ domain => exact execFenceRelease_kept _ _ (fun _ h => h) (h0 _)
  | unfenceComplete domain => exact execUnfenceComplete_kept _ (fun _ h => h) (h0 _)
  | ucodeLoadComplete tile ok => exact execUcodeLoadComplete_kept _ _ (fun _ h => h) (h0 _)
  | faultPresent occs => exact execFaultPresent_kept _ (fun _ h => h) (h0 _)
  | faultClear id => exact execFaultClear_kept _ (fun _ h => h) (h0 _)
  | quenchSideCompare a => exact execQuenchSideCompare_kept _ (fun _ h => h) (h0 _)
  | qchAssure eNs => exact execQchAssure_kept _ (fun _ h => h) (h0 _)
  | timeBound aonCycles => exact execTimeBound_kept _ (fun _ h => h) (h0 _)
  | lock path => exact execLock_kept _ (fun _ h => h) (h0 _)
  | clkoutMonitor n devPpm active => exact execClkoutMonitor_kept _ _ _ (fun _ h => h) (h0 _)
  | guardScrub bad => exact execGuardScrub_kept _ (fun _ h => h) (h0 _)
  | heartbeatSend sub => exact execHeartbeatSend_kept _ (fun _ h => h) (h0 _)
  | heartbeatReceive lane m t4 => exact execHeartbeatReceive_kept _ _ _ (fun _ h => h) (h0 _)
  | heartbeatLoss lanes peerAct => exact execHeartbeatLoss_kept _ _ (fun _ h => h) (h0 _)
  | peerActLow => exact execPeerActLow_kept (fun _ h => h) (h0 _)
  | snapshotReceive m => exact execSnapshotReceive_kept _ (fun _ h => h) (h0 _)
  | pairControlMessage group cand m => exact execPairControlMessage_kept _ _ _ (fun _ h => h) (h0 _)
  | pairReturn => exact execPairReturn_kept (fun _ h => h) (h0 _)
  | joinTimeout => exact execJoinTimeout_kept (fun _ h => h) (h0 _)
  | temperRetry unit => exact execTemperRetry_kept _ (fun _ h => h) (h0 _)
  | pathStep tile m => exact execPathStep_kept _ _ (fun _ h => h) (h0 _)
  | traceRunEnd ok => exact execTraceRunEnd_kept _ (fun _ h => h) (h0 _)
  | temperOverdue unit => exact execTemperOverdue_kept _ (fun _ h => h) (h0 _)
  | railPoll readings => exact execRailPoll_kept _ (fun _ h => h) (h0 _)
  | avsPeriod margins => exact execAvsPeriod_kept _ (fun _ h => h) (h0 _)
  | marginEmergency margin => exact execMarginEmergency_kept _ (fun _ h => h) (h0 _)
  | tileGateSet path tile => exact execTileGateSet_kept _ _ (fun _ h => h) (h0 _)
  | tileGateClear path tile => exact execTileGateClear_kept _ _ (fun _ h => h) (h0 _)
  | laneGate tile lane => exact execLaneGate_kept _ _ (fun _ h => h) (h0 _)
  | sensorRead temps => exact execSensorRead_kept _ (fun _ h => h) (h0 _)
  | agingMeasure ageMv meanMv => exact execAgingMeasure_kept _ _ (fun _ h => h) (h0 _)
  | hourTick => exact execHourTick_kept (fun _ h => h) (h0 _)
  | perfCounterWrap n pc => exact execPerfCounterWrap_kept _ _ (fun _ h => h) (h0 _)
  | hmkPcCfgWrite path n value => exact execHmkPcCfgWrite_kept _ _ _ (fun _ h => h) (h0 _)
  | hmkFrameSend => exact execHmkFrameSend_kept (fun _ h => h) (h0 _)
  | idcode => exact execIdcode_kept (fun _ h => h) (h0 _)
  | sample cells => exact execSample_kept _ (fun _ h => h) (h0 _)
  | bypass => exact execBypass_kept (fun _ h => h) (h0 _)
  | extest => exact execExtest_kept (fun _ h => h) (h0 _)
  | preload cells => exact execPreload_kept _ (fun _ h => h) (h0 _)
  | clamp => exact execClamp_kept (fun _ h => h) (h0 _)
  | highz => exact execHighz_kept (fun _ h => h) (h0 _)
  | extestPulse => exact execExtestPulse_kept (fun _ h => h) (h0 _)
  | extestTrain => exact execExtestTrain_kept (fun _ h => h) (h0 _)
  | pcieLinkUp => exact execPcieLinkUp_kept (fun _ h => h) (h0 _)
  | controlFrameSend f => exact execControlFrameSend_kept _ (fun _ h => h) (h0 _)
  | controlComplexDelivery => exact execControlComplexDelivery_kept (fun _ h => h) (h0 _)
  | rxLpiExit port => exact execRxLpiExit_kept _ (fun _ h => h) (h0 _)
  | txLpiWake port => exact execTxLpiWake_kept _ (fun _ h => h) (h0 _)
  | adaptFreeze port lane => exact execAdaptFreeze_kept _ _ (fun _ h => h) (h0 _)
  | dumpWrite => exact execDumpWrite_kept (fun _ h => h) (h0 _)
  | traceRingWrite => exact execTraceRingWrite_kept (fun _ h => h) (h0 _)
  | slewEnd => exact execSlewEnd_kept (fun _ h => h) (h0 _)

end Sys2Proof.Machine
end

