-- ==== Sys2Proof/Laws/State.lean ====
section
/-!
SUPPORT. What each update of State leaves in each of its fields, and what reading a part of it gives afterwards: one lemma
for each field of each update, so that no proof unfolds a record update.
-/

namespace Sys2Proof.Machine

/-! ### A register field written -/

section
variable (s : State) (f : Fld) (v i : Nat)

@[simp] theorem State.setF_latch : (s.setF f v i).latch = s.latch := rfl
@[simp] theorem State.setF_boot : (s.setF f v i).boot = s.boot := rfl
@[simp] theorem State.setF_flash : (s.setF f v i).flash = s.flash := rfl
@[simp] theorem State.setF_fuses : (s.setF f v i).fuses = s.fuses := rfl
@[simp] theorem State.setF_ports : (s.setF f v i).ports = s.ports := rfl
@[simp] theorem State.setF_lanes : (s.setF f v i).lanes = s.lanes := rfl
@[simp] theorem State.setF_tables : (s.setF f v i).tables = s.tables := rfl
@[simp] theorem State.setF_epochs : (s.setF f v i).epochs = s.epochs := rfl
@[simp] theorem State.setF_tiles : (s.setF f v i).tiles = s.tiles := rfl
@[simp] theorem State.setF_fabric : (s.setF f v i).fabric = s.fabric := rfl
@[simp] theorem State.setF_acct : (s.setF f v i).acct = s.acct := rfl
@[simp] theorem State.setF_pinCfg : (s.setF f v i).pinCfg = s.pinCfg := rfl
@[simp] theorem State.setF_pinRel : (s.setF f v i).pinRel = s.pinRel := rfl
@[simp] theorem State.setF_pinMsg : (s.setF f v i).pinMsg = s.pinMsg := rfl
@[simp] theorem State.setF_queues : (s.setF f v i).queues = s.queues := rfl
@[simp] theorem State.setF_pgs : (s.setF f v i).pgs = s.pgs := rfl
@[simp] theorem State.setF_flowRt : (s.setF f v i).flowRt = s.flowRt := rfl
@[simp] theorem State.setF_merges : (s.setF f v i).merges = s.merges := rfl
@[simp] theorem State.setF_cuts : (s.setF f v i).cuts = s.cuts := rfl
@[simp] theorem State.setF_time : (s.setF f v i).time = s.time := rfl
@[simp] theorem State.setF_phases : (s.setF f v i).phases = s.phases := rfl
@[simp] theorem State.setF_tius : (s.setF f v i).tius = s.tius := rfl
@[simp] theorem State.setF_refs : (s.setF f v i).refs = s.refs := rfl
@[simp] theorem State.setF_dplls : (s.setF f v i).dplls = s.dplls := rfl
@[simp] theorem State.setF_plls : (s.setF f v i).plls = s.plls := rfl
@[simp] theorem State.setF_outs : (s.setF f v i).outs = s.outs := rfl
@[simp] theorem State.setF_gens : (s.setF f v i).gens = s.gens := rfl
@[simp] theorem State.setF_window : (s.setF f v i).window = s.window := rfl
@[simp] theorem State.setF_fences : (s.setF f v i).fences = s.fences := rfl
@[simp] theorem State.setF_fw : (s.setF f v i).fw = s.fw := rfl
@[simp] theorem State.setF_quench : (s.setF f v i).quench = s.quench := rfl
@[simp] theorem State.setF_pair : (s.setF f v i).pair = s.pair := rfl
@[simp] theorem State.setF_temper : (s.setF f v i).temper = s.temper := rfl
@[simp] theorem State.setF_pwr : (s.setF f v i).pwr = s.pwr := rfl
@[simp] theorem State.setF_counters : (s.setF f v i).counters = s.counters := rfl
@[simp] theorem State.setF_hmk : (s.setF f v i).hmk = s.hmk := rfl
@[simp] theorem State.setF_jtag : (s.setF f v i).jtag = s.jtag := rfl
@[simp] theorem State.setF_stalled : (s.setF f v i).stalled = s.stalled := rfl
@[simp] theorem State.setF_free : (s.setF f v i).free = s.free := rfl
@[simp] theorem State.setF_pending : (s.setF f v i).pending = s.pending := rfl
@[simp] theorem State.setF_ring (k : Nat) : (s.setF f v i).ring k = s.ring k := rfl
@[simp] theorem State.setF_fn (k : Nat) : (s.setF f v i).fn k = s.fn k := rfl
@[simp] theorem State.setF_port (k : Nat) : (s.setF f v i).port k = s.port k := rfl
@[simp] theorem State.setF_lane (k : Nat) : (s.setF f v i).lane k = s.lane k := rfl
@[simp] theorem State.setF_tile (k : Nat) : (s.setF f v i).tile k = s.tile k := rfl
@[simp] theorem State.setF_queue (k : Nat) : (s.setF f v i).queue k = s.queue k := rfl
@[simp] theorem State.setF_flow (k : Nat) : (s.setF f v i).flow k = s.flow k := rfl
@[simp] theorem State.setF_merge (k : Nat) : (s.setF f v i).merge k = s.merge k := rfl
@[simp] theorem State.setF_cut (k : Nat) : (s.setF f v i).cut k = s.cut k := rfl
@[simp] theorem State.setF_phase (k : Nat) : (s.setF f v i).phase k = s.phase k := rfl
@[simp] theorem State.setF_tiu (k : Nat) : (s.setF f v i).tiu k = s.tiu k := rfl
@[simp] theorem State.setF_refr (k : Nat) : (s.setF f v i).refr k = s.refr k := rfl
@[simp] theorem State.setF_dpll (k : Nat) : (s.setF f v i).dpll k = s.dpll k := rfl
@[simp] theorem State.setF_pll (k : Nat) : (s.setF f v i).pll k = s.pll k := rfl
@[simp] theorem State.setF_outp (k : Nat) : (s.setF f v i).outp k = s.outp k := rfl
@[simp] theorem State.setF_gen (k : Nat) : (s.setF f v i).gen k = s.gen k := rfl
@[simp] theorem State.setF_fence (k : Nat) : (s.setF f v i).fence k = s.fence k := rfl

end

/-! ### Bits set in a register field -/

section
variable (s : State) (f : Fld) (v i : Nat)

@[simp] theorem State.orF_latch : (s.orF f v i).latch = s.latch := rfl
@[simp] theorem State.orF_boot : (s.orF f v i).boot = s.boot := rfl
@[simp] theorem State.orF_flash : (s.orF f v i).flash = s.flash := rfl
@[simp] theorem State.orF_fuses : (s.orF f v i).fuses = s.fuses := rfl
@[simp] theorem State.orF_rings : (s.orF f v i).rings = s.rings := rfl
@[simp] theorem State.orF_fns : (s.orF f v i).fns = s.fns := rfl
@[simp] theorem State.orF_ports : (s.orF f v i).ports = s.ports := rfl
@[simp] theorem State.orF_lanes : (s.orF f v i).lanes = s.lanes := rfl
@[simp] theorem State.orF_tables : (s.orF f v i).tables = s.tables := rfl
@[simp] theorem State.orF_epochs : (s.orF f v i).epochs = s.epochs := rfl
@[simp] theorem State.orF_tiles : (s.orF f v i).tiles = s.tiles := rfl
@[simp] theorem State.orF_fabric : (s.orF f v i).fabric = s.fabric := rfl
@[simp] theorem State.orF_acct : (s.orF f v i).acct = s.acct := rfl
@[simp] theorem State.orF_pinCfg : (s.orF f v i).pinCfg = s.pinCfg := rfl
@[simp] theorem State.orF_pinRel : (s.orF f v i).pinRel = s.pinRel := rfl
@[simp] theorem State.orF_pinMsg : (s.orF f v i).pinMsg = s.pinMsg := rfl
@[simp] theorem State.orF_queues : (s.orF f v i).queues = s.queues := rfl
@[simp] theorem State.orF_pgs : (s.orF f v i).pgs = s.pgs := rfl
@[simp] theorem State.orF_flowRt : (s.orF f v i).flowRt = s.flowRt := rfl
@[simp] theorem State.orF_merges : (s.orF f v i).merges = s.merges := rfl
@[simp] theorem State.orF_cuts : (s.orF f v i).cuts = s.cuts := rfl
@[simp] theorem State.orF_time : (s.orF f v i).time = s.time := rfl
@[simp] theorem State.orF_phases : (s.orF f v i).phases = s.phases := rfl
@[simp] theorem State.orF_tius : (s.orF f v i).tius = s.tius := rfl
@[simp] theorem State.orF_refs : (s.orF f v i).refs = s.refs := rfl
@[simp] theorem State.orF_dplls : (s.orF f v i).dplls = s.dplls := rfl
@[simp] theorem State.orF_plls : (s.orF f v i).plls = s.plls := rfl
@[simp] theorem State.orF_outs : (s.orF f v i).outs = s.outs := rfl
@[simp] theorem State.orF_gens : (s.orF f v i).gens = s.gens := rfl
@[simp] theorem State.orF_window : (s.orF f v i).window = s.window := rfl
@[simp] theorem State.orF_fences : (s.orF f v i).fences = s.fences := rfl
@[simp] theorem State.orF_fw : (s.orF f v i).fw = s.fw := rfl
@[simp] theorem State.orF_quench : (s.orF f v i).quench = s.quench := rfl
@[simp] theorem State.orF_pair : (s.orF f v i).pair = s.pair := rfl
@[simp] theorem State.orF_temper : (s.orF f v i).temper = s.temper := rfl
@[simp] theorem State.orF_pwr : (s.orF f v i).pwr = s.pwr := rfl
@[simp] theorem State.orF_counters : (s.orF f v i).counters = s.counters := rfl
@[simp] theorem State.orF_hmk : (s.orF f v i).hmk = s.hmk := rfl
@[simp] theorem State.orF_jtag : (s.orF f v i).jtag = s.jtag := rfl
@[simp] theorem State.orF_stalled : (s.orF f v i).stalled = s.stalled := rfl
@[simp] theorem State.orF_free : (s.orF f v i).free = s.free := rfl
@[simp] theorem State.orF_out : (s.orF f v i).out = s.out := rfl
@[simp] theorem State.orF_pending : (s.orF f v i).pending = s.pending := rfl
@[simp] theorem State.orF_ring (k : Nat) : (s.orF f v i).ring k = s.ring k := rfl
@[simp] theorem State.orF_fn (k : Nat) : (s.orF f v i).fn k = s.fn k := rfl
@[simp] theorem State.orF_port (k : Nat) : (s.orF f v i).port k = s.port k := rfl
@[simp] theorem State.orF_lane (k : Nat) : (s.orF f v i).lane k = s.lane k := rfl
@[simp] theorem State.orF_tile (k : Nat) : (s.orF f v i).tile k = s.tile k := rfl
@[simp] theorem State.orF_queue (k : Nat) : (s.orF f v i).queue k = s.queue k := rfl
@[simp] theorem State.orF_flow (k : Nat) : (s.orF f v i).flow k = s.flow k := rfl
@[simp] theorem State.orF_merge (k : Nat) : (s.orF f v i).merge k = s.merge k := rfl
@[simp] theorem State.orF_cut (k : Nat) : (s.orF f v i).cut k = s.cut k := rfl
@[simp] theorem State.orF_phase (k : Nat) : (s.orF f v i).phase k = s.phase k := rfl
@[simp] theorem State.orF_tiu (k : Nat) : (s.orF f v i).tiu k = s.tiu k := rfl
@[simp] theorem State.orF_refr (k : Nat) : (s.orF f v i).refr k = s.refr k := rfl
@[simp] theorem State.orF_dpll (k : Nat) : (s.orF f v i).dpll k = s.dpll k := rfl
@[simp] theorem State.orF_pll (k : Nat) : (s.orF f v i).pll k = s.pll k := rfl
@[simp] theorem State.orF_outp (k : Nat) : (s.orF f v i).outp k = s.outp k := rfl
@[simp] theorem State.orF_gen (k : Nat) : (s.orF f v i).gen k = s.gen k := rfl
@[simp] theorem State.orF_fence (k : Nat) : (s.orF f v i).fence k = s.fence k := rfl

end

/-! ### Bits cleared in a register field -/

section
variable (s : State) (f : Fld) (v i : Nat)

@[simp] theorem State.clrF_latch : (s.clrF f v i).latch = s.latch := rfl
@[simp] theorem State.clrF_boot : (s.clrF f v i).boot = s.boot := rfl
@[simp] theorem State.clrF_flash : (s.clrF f v i).flash = s.flash := rfl
@[simp] theorem State.clrF_fuses : (s.clrF f v i).fuses = s.fuses := rfl
@[simp] theorem State.clrF_rings : (s.clrF f v i).rings = s.rings := rfl
@[simp] theorem State.clrF_fns : (s.clrF f v i).fns = s.fns := rfl
@[simp] theorem State.clrF_ports : (s.clrF f v i).ports = s.ports := rfl
@[simp] theorem State.clrF_lanes : (s.clrF f v i).lanes = s.lanes := rfl
@[simp] theorem State.clrF_tables : (s.clrF f v i).tables = s.tables := rfl
@[simp] theorem State.clrF_epochs : (s.clrF f v i).epochs = s.epochs := rfl
@[simp] theorem State.clrF_tiles : (s.clrF f v i).tiles = s.tiles := rfl
@[simp] theorem State.clrF_fabric : (s.clrF f v i).fabric = s.fabric := rfl
@[simp] theorem State.clrF_acct : (s.clrF f v i).acct = s.acct := rfl
@[simp] theorem State.clrF_pinCfg : (s.clrF f v i).pinCfg = s.pinCfg := rfl
@[simp] theorem State.clrF_pinRel : (s.clrF f v i).pinRel = s.pinRel := rfl
@[simp] theorem State.clrF_pinMsg : (s.clrF f v i).pinMsg = s.pinMsg := rfl
@[simp] theorem State.clrF_queues : (s.clrF f v i).queues = s.queues := rfl
@[simp] theorem State.clrF_pgs : (s.clrF f v i).pgs = s.pgs := rfl
@[simp] theorem State.clrF_flowRt : (s.clrF f v i).flowRt = s.flowRt := rfl
@[simp] theorem State.clrF_merges : (s.clrF f v i).merges = s.merges := rfl
@[simp] theorem State.clrF_cuts : (s.clrF f v i).cuts = s.cuts := rfl
@[simp] theorem State.clrF_time : (s.clrF f v i).time = s.time := rfl
@[simp] theorem State.clrF_phases : (s.clrF f v i).phases = s.phases := rfl
@[simp] theorem State.clrF_tius : (s.clrF f v i).tius = s.tius := rfl
@[simp] theorem State.clrF_refs : (s.clrF f v i).refs = s.refs := rfl
@[simp] theorem State.clrF_dplls : (s.clrF f v i).dplls = s.dplls := rfl
@[simp] theorem State.clrF_plls : (s.clrF f v i).plls = s.plls := rfl
@[simp] theorem State.clrF_outs : (s.clrF f v i).outs = s.outs := rfl
@[simp] theorem State.clrF_gens : (s.clrF f v i).gens = s.gens := rfl
@[simp] theorem State.clrF_window : (s.clrF f v i).window = s.window := rfl
@[simp] theorem State.clrF_fences : (s.clrF f v i).fences = s.fences := rfl
@[simp] theorem State.clrF_fw : (s.clrF f v i).fw = s.fw := rfl
@[simp] theorem State.clrF_quench : (s.clrF f v i).quench = s.quench := rfl
@[simp] theorem State.clrF_pair : (s.clrF f v i).pair = s.pair := rfl
@[simp] theorem State.clrF_temper : (s.clrF f v i).temper = s.temper := rfl
@[simp] theorem State.clrF_pwr : (s.clrF f v i).pwr = s.pwr := rfl
@[simp] theorem State.clrF_counters : (s.clrF f v i).counters = s.counters := rfl
@[simp] theorem State.clrF_hmk : (s.clrF f v i).hmk = s.hmk := rfl
@[simp] theorem State.clrF_jtag : (s.clrF f v i).jtag = s.jtag := rfl
@[simp] theorem State.clrF_stalled : (s.clrF f v i).stalled = s.stalled := rfl
@[simp] theorem State.clrF_free : (s.clrF f v i).free = s.free := rfl
@[simp] theorem State.clrF_out : (s.clrF f v i).out = s.out := rfl
@[simp] theorem State.clrF_pending : (s.clrF f v i).pending = s.pending := rfl
@[simp] theorem State.clrF_ring (k : Nat) : (s.clrF f v i).ring k = s.ring k := rfl
@[simp] theorem State.clrF_fn (k : Nat) : (s.clrF f v i).fn k = s.fn k := rfl
@[simp] theorem State.clrF_port (k : Nat) : (s.clrF f v i).port k = s.port k := rfl
@[simp] theorem State.clrF_lane (k : Nat) : (s.clrF f v i).lane k = s.lane k := rfl
@[simp] theorem State.clrF_tile (k : Nat) : (s.clrF f v i).tile k = s.tile k := rfl
@[simp] theorem State.clrF_queue (k : Nat) : (s.clrF f v i).queue k = s.queue k := rfl
@[simp] theorem State.clrF_flow (k : Nat) : (s.clrF f v i).flow k = s.flow k := rfl
@[simp] theorem State.clrF_merge (k : Nat) : (s.clrF f v i).merge k = s.merge k := rfl
@[simp] theorem State.clrF_cut (k : Nat) : (s.clrF f v i).cut k = s.cut k := rfl
@[simp] theorem State.clrF_phase (k : Nat) : (s.clrF f v i).phase k = s.phase k := rfl
@[simp] theorem State.clrF_tiu (k : Nat) : (s.clrF f v i).tiu k = s.tiu k := rfl
@[simp] theorem State.clrF_refr (k : Nat) : (s.clrF f v i).refr k = s.refr k := rfl
@[simp] theorem State.clrF_dpll (k : Nat) : (s.clrF f v i).dpll k = s.dpll k := rfl
@[simp] theorem State.clrF_pll (k : Nat) : (s.clrF f v i).pll k = s.pll k := rfl
@[simp] theorem State.clrF_outp (k : Nat) : (s.clrF f v i).outp k = s.outp k := rfl
@[simp] theorem State.clrF_gen (k : Nat) : (s.clrF f v i).gen k = s.gen k := rfl
@[simp] theorem State.clrF_fence (k : Nat) : (s.clrF f v i).fence k = s.fence k := rfl

end

/-! ### A register field raised -/

section
variable (s : State) (f : Fld) (v i : Nat)

@[simp] theorem State.addF_latch : (s.addF f v i).latch = s.latch := rfl
@[simp] theorem State.addF_boot : (s.addF f v i).boot = s.boot := rfl
@[simp] theorem State.addF_flash : (s.addF f v i).flash = s.flash := rfl
@[simp] theorem State.addF_fuses : (s.addF f v i).fuses = s.fuses := rfl
@[simp] theorem State.addF_rings : (s.addF f v i).rings = s.rings := rfl
@[simp] theorem State.addF_fns : (s.addF f v i).fns = s.fns := rfl
@[simp] theorem State.addF_ports : (s.addF f v i).ports = s.ports := rfl
@[simp] theorem State.addF_lanes : (s.addF f v i).lanes = s.lanes := rfl
@[simp] theorem State.addF_tables : (s.addF f v i).tables = s.tables := rfl
@[simp] theorem State.addF_epochs : (s.addF f v i).epochs = s.epochs := rfl
@[simp] theorem State.addF_tiles : (s.addF f v i).tiles = s.tiles := rfl
@[simp] theorem State.addF_fabric : (s.addF f v i).fabric = s.fabric := rfl
@[simp] theorem State.addF_acct : (s.addF f v i).acct = s.acct := rfl
@[simp] theorem State.addF_pinCfg : (s.addF f v i).pinCfg = s.pinCfg := rfl
@[simp] theorem State.addF_pinRel : (s.addF f v i).pinRel = s.pinRel := rfl
@[simp] theorem State.addF_pinMsg : (s.addF f v i).pinMsg = s.pinMsg := rfl
@[simp] theorem State.addF_queues : (s.addF f v i).queues = s.queues := rfl
@[simp] theorem State.addF_pgs : (s.addF f v i).pgs = s.pgs := rfl
@[simp] theorem State.addF_flowRt : (s.addF f v i).flowRt = s.flowRt := rfl
@[simp] theorem State.addF_merges : (s.addF f v i).merges = s.merges := rfl
@[simp] theorem State.addF_cuts : (s.addF f v i).cuts = s.cuts := rfl
@[simp] theorem State.addF_time : (s.addF f v i).time = s.time := rfl
@[simp] theorem State.addF_phases : (s.addF f v i).phases = s.phases := rfl
@[simp] theorem State.addF_tius : (s.addF f v i).tius = s.tius := rfl
@[simp] theorem State.addF_refs : (s.addF f v i).refs = s.refs := rfl
@[simp] theorem State.addF_dplls : (s.addF f v i).dplls = s.dplls := rfl
@[simp] theorem State.addF_plls : (s.addF f v i).plls = s.plls := rfl
@[simp] theorem State.addF_outs : (s.addF f v i).outs = s.outs := rfl
@[simp] theorem State.addF_gens : (s.addF f v i).gens = s.gens := rfl
@[simp] theorem State.addF_window : (s.addF f v i).window = s.window := rfl
@[simp] theorem State.addF_fences : (s.addF f v i).fences = s.fences := rfl
@[simp] theorem State.addF_fw : (s.addF f v i).fw = s.fw := rfl
@[simp] theorem State.addF_quench : (s.addF f v i).quench = s.quench := rfl
@[simp] theorem State.addF_pair : (s.addF f v i).pair = s.pair := rfl
@[simp] theorem State.addF_temper : (s.addF f v i).temper = s.temper := rfl
@[simp] theorem State.addF_pwr : (s.addF f v i).pwr = s.pwr := rfl
@[simp] theorem State.addF_counters : (s.addF f v i).counters = s.counters := rfl
@[simp] theorem State.addF_hmk : (s.addF f v i).hmk = s.hmk := rfl
@[simp] theorem State.addF_jtag : (s.addF f v i).jtag = s.jtag := rfl
@[simp] theorem State.addF_stalled : (s.addF f v i).stalled = s.stalled := rfl
@[simp] theorem State.addF_free : (s.addF f v i).free = s.free := rfl
@[simp] theorem State.addF_out : (s.addF f v i).out = s.out := rfl
@[simp] theorem State.addF_pending : (s.addF f v i).pending = s.pending := rfl
@[simp] theorem State.addF_ring (k : Nat) : (s.addF f v i).ring k = s.ring k := rfl
@[simp] theorem State.addF_fn (k : Nat) : (s.addF f v i).fn k = s.fn k := rfl
@[simp] theorem State.addF_port (k : Nat) : (s.addF f v i).port k = s.port k := rfl
@[simp] theorem State.addF_lane (k : Nat) : (s.addF f v i).lane k = s.lane k := rfl
@[simp] theorem State.addF_tile (k : Nat) : (s.addF f v i).tile k = s.tile k := rfl
@[simp] theorem State.addF_queue (k : Nat) : (s.addF f v i).queue k = s.queue k := rfl
@[simp] theorem State.addF_flow (k : Nat) : (s.addF f v i).flow k = s.flow k := rfl
@[simp] theorem State.addF_merge (k : Nat) : (s.addF f v i).merge k = s.merge k := rfl
@[simp] theorem State.addF_cut (k : Nat) : (s.addF f v i).cut k = s.cut k := rfl
@[simp] theorem State.addF_phase (k : Nat) : (s.addF f v i).phase k = s.phase k := rfl
@[simp] theorem State.addF_tiu (k : Nat) : (s.addF f v i).tiu k = s.tiu k := rfl
@[simp] theorem State.addF_refr (k : Nat) : (s.addF f v i).refr k = s.refr k := rfl
@[simp] theorem State.addF_dpll (k : Nat) : (s.addF f v i).dpll k = s.dpll k := rfl
@[simp] theorem State.addF_pll (k : Nat) : (s.addF f v i).pll k = s.pll k := rfl
@[simp] theorem State.addF_outp (k : Nat) : (s.addF f v i).outp k = s.outp k := rfl
@[simp] theorem State.addF_gen (k : Nat) : (s.addF f v i).gen k = s.gen k := rfl
@[simp] theorem State.addF_fence (k : Nat) : (s.addF f v i).fence k = s.fence k := rfl

end

/-! ### A register field at its reset value -/

section
variable (s : State) (f : Fld)

@[simp] theorem State.resetF_latch : (s.resetF f).latch = s.latch := rfl
@[simp] theorem State.resetF_boot : (s.resetF f).boot = s.boot := rfl
@[simp] theorem State.resetF_flash : (s.resetF f).flash = s.flash := rfl
@[simp] theorem State.resetF_fuses : (s.resetF f).fuses = s.fuses := rfl
@[simp] theorem State.resetF_rings : (s.resetF f).rings = s.rings := rfl
@[simp] theorem State.resetF_fns : (s.resetF f).fns = s.fns := rfl
@[simp] theorem State.resetF_ports : (s.resetF f).ports = s.ports := rfl
@[simp] theorem State.resetF_lanes : (s.resetF f).lanes = s.lanes := rfl
@[simp] theorem State.resetF_tables : (s.resetF f).tables = s.tables := rfl
@[simp] theorem State.resetF_epochs : (s.resetF f).epochs = s.epochs := rfl
@[simp] theorem State.resetF_tiles : (s.resetF f).tiles = s.tiles := rfl
@[simp] theorem State.resetF_fabric : (s.resetF f).fabric = s.fabric := rfl
@[simp] theorem State.resetF_acct : (s.resetF f).acct = s.acct := rfl
@[simp] theorem State.resetF_pinCfg : (s.resetF f).pinCfg = s.pinCfg := rfl
@[simp] theorem State.resetF_pinRel : (s.resetF f).pinRel = s.pinRel := rfl
@[simp] theorem State.resetF_pinMsg : (s.resetF f).pinMsg = s.pinMsg := rfl
@[simp] theorem State.resetF_queues : (s.resetF f).queues = s.queues := rfl
@[simp] theorem State.resetF_pgs : (s.resetF f).pgs = s.pgs := rfl
@[simp] theorem State.resetF_flowRt : (s.resetF f).flowRt = s.flowRt := rfl
@[simp] theorem State.resetF_merges : (s.resetF f).merges = s.merges := rfl
@[simp] theorem State.resetF_cuts : (s.resetF f).cuts = s.cuts := rfl
@[simp] theorem State.resetF_time : (s.resetF f).time = s.time := rfl
@[simp] theorem State.resetF_phases : (s.resetF f).phases = s.phases := rfl
@[simp] theorem State.resetF_tius : (s.resetF f).tius = s.tius := rfl
@[simp] theorem State.resetF_refs : (s.resetF f).refs = s.refs := rfl
@[simp] theorem State.resetF_dplls : (s.resetF f).dplls = s.dplls := rfl
@[simp] theorem State.resetF_plls : (s.resetF f).plls = s.plls := rfl
@[simp] theorem State.resetF_outs : (s.resetF f).outs = s.outs := rfl
@[simp] theorem State.resetF_gens : (s.resetF f).gens = s.gens := rfl
@[simp] theorem State.resetF_window : (s.resetF f).window = s.window := rfl
@[simp] theorem State.resetF_fences : (s.resetF f).fences = s.fences := rfl
@[simp] theorem State.resetF_fw : (s.resetF f).fw = s.fw := rfl
@[simp] theorem State.resetF_quench : (s.resetF f).quench = s.quench := rfl
@[simp] theorem State.resetF_pair : (s.resetF f).pair = s.pair := rfl
@[simp] theorem State.resetF_temper : (s.resetF f).temper = s.temper := rfl
@[simp] theorem State.resetF_pwr : (s.resetF f).pwr = s.pwr := rfl
@[simp] theorem State.resetF_counters : (s.resetF f).counters = s.counters := rfl
@[simp] theorem State.resetF_hmk : (s.resetF f).hmk = s.hmk := rfl
@[simp] theorem State.resetF_jtag : (s.resetF f).jtag = s.jtag := rfl
@[simp] theorem State.resetF_stalled : (s.resetF f).stalled = s.stalled := rfl
@[simp] theorem State.resetF_free : (s.resetF f).free = s.free := rfl
@[simp] theorem State.resetF_out : (s.resetF f).out = s.out := rfl
@[simp] theorem State.resetF_pending : (s.resetF f).pending = s.pending := rfl
@[simp] theorem State.resetF_ring (k : Nat) : (s.resetF f).ring k = s.ring k := rfl
@[simp] theorem State.resetF_fn (k : Nat) : (s.resetF f).fn k = s.fn k := rfl
@[simp] theorem State.resetF_port (k : Nat) : (s.resetF f).port k = s.port k := rfl
@[simp] theorem State.resetF_lane (k : Nat) : (s.resetF f).lane k = s.lane k := rfl
@[simp] theorem State.resetF_tile (k : Nat) : (s.resetF f).tile k = s.tile k := rfl
@[simp] theorem State.resetF_queue (k : Nat) : (s.resetF f).queue k = s.queue k := rfl
@[simp] theorem State.resetF_flow (k : Nat) : (s.resetF f).flow k = s.flow k := rfl
@[simp] theorem State.resetF_merge (k : Nat) : (s.resetF f).merge k = s.merge k := rfl
@[simp] theorem State.resetF_cut (k : Nat) : (s.resetF f).cut k = s.cut k := rfl
@[simp] theorem State.resetF_phase (k : Nat) : (s.resetF f).phase k = s.phase k := rfl
@[simp] theorem State.resetF_tiu (k : Nat) : (s.resetF f).tiu k = s.tiu k := rfl
@[simp] theorem State.resetF_refr (k : Nat) : (s.resetF f).refr k = s.refr k := rfl
@[simp] theorem State.resetF_dpll (k : Nat) : (s.resetF f).dpll k = s.dpll k := rfl
@[simp] theorem State.resetF_pll (k : Nat) : (s.resetF f).pll k = s.pll k := rfl
@[simp] theorem State.resetF_outp (k : Nat) : (s.resetF f).outp k = s.outp k := rfl
@[simp] theorem State.resetF_gen (k : Nat) : (s.resetF f).gen k = s.gen k := rfl
@[simp] theorem State.resetF_fence (k : Nat) : (s.resetF f).fence k = s.fence k := rfl

end

/-! ### Something sent -/

section
variable (s : State) (x : Out)

@[simp] theorem State.emit_regs : (s.emit x).regs = s.regs := rfl
@[simp] theorem State.emit_latch : (s.emit x).latch = s.latch := rfl
@[simp] theorem State.emit_boot : (s.emit x).boot = s.boot := rfl
@[simp] theorem State.emit_flash : (s.emit x).flash = s.flash := rfl
@[simp] theorem State.emit_fuses : (s.emit x).fuses = s.fuses := rfl
@[simp] theorem State.emit_rings : (s.emit x).rings = s.rings := rfl
@[simp] theorem State.emit_fns : (s.emit x).fns = s.fns := rfl
@[simp] theorem State.emit_ports : (s.emit x).ports = s.ports := rfl
@[simp] theorem State.emit_lanes : (s.emit x).lanes = s.lanes := rfl
@[simp] theorem State.emit_tables : (s.emit x).tables = s.tables := rfl
@[simp] theorem State.emit_epochs : (s.emit x).epochs = s.epochs := rfl
@[simp] theorem State.emit_tiles : (s.emit x).tiles = s.tiles := rfl
@[simp] theorem State.emit_fabric : (s.emit x).fabric = s.fabric := rfl
@[simp] theorem State.emit_acct : (s.emit x).acct = s.acct := rfl
@[simp] theorem State.emit_pinCfg : (s.emit x).pinCfg = s.pinCfg := rfl
@[simp] theorem State.emit_pinRel : (s.emit x).pinRel = s.pinRel := rfl
@[simp] theorem State.emit_pinMsg : (s.emit x).pinMsg = s.pinMsg := rfl
@[simp] theorem State.emit_queues : (s.emit x).queues = s.queues := rfl
@[simp] theorem State.emit_pgs : (s.emit x).pgs = s.pgs := rfl
@[simp] theorem State.emit_flowRt : (s.emit x).flowRt = s.flowRt := rfl
@[simp] theorem State.emit_merges : (s.emit x).merges = s.merges := rfl
@[simp] theorem State.emit_cuts : (s.emit x).cuts = s.cuts := rfl
@[simp] theorem State.emit_time : (s.emit x).time = s.time := rfl
@[simp] theorem State.emit_phases : (s.emit x).phases = s.phases := rfl
@[simp] theorem State.emit_tius : (s.emit x).tius = s.tius := rfl
@[simp] theorem State.emit_refs : (s.emit x).refs = s.refs := rfl
@[simp] theorem State.emit_dplls : (s.emit x).dplls = s.dplls := rfl
@[simp] theorem State.emit_plls : (s.emit x).plls = s.plls := rfl
@[simp] theorem State.emit_outs : (s.emit x).outs = s.outs := rfl
@[simp] theorem State.emit_gens : (s.emit x).gens = s.gens := rfl
@[simp] theorem State.emit_window : (s.emit x).window = s.window := rfl
@[simp] theorem State.emit_fences : (s.emit x).fences = s.fences := rfl
@[simp] theorem State.emit_fw : (s.emit x).fw = s.fw := rfl
@[simp] theorem State.emit_quench : (s.emit x).quench = s.quench := rfl
@[simp] theorem State.emit_pair : (s.emit x).pair = s.pair := rfl
@[simp] theorem State.emit_temper : (s.emit x).temper = s.temper := rfl
@[simp] theorem State.emit_pwr : (s.emit x).pwr = s.pwr := rfl
@[simp] theorem State.emit_counters : (s.emit x).counters = s.counters := rfl
@[simp] theorem State.emit_hmk : (s.emit x).hmk = s.hmk := rfl
@[simp] theorem State.emit_jtag : (s.emit x).jtag = s.jtag := rfl
@[simp] theorem State.emit_stalled : (s.emit x).stalled = s.stalled := rfl
@[simp] theorem State.emit_free : (s.emit x).free = s.free := rfl
@[simp] theorem State.emit_pending : (s.emit x).pending = s.pending := rfl
@[simp] theorem State.emit_getF (g : Fld) (j : Nat) : (s.emit x).getF g j = s.getF g j := rfl
@[simp] theorem State.emit_isF (g : Fld) (j : Nat) : (s.emit x).isF g j = s.isF g j := rfl
@[simp] theorem State.emit_ring (k : Nat) : (s.emit x).ring k = s.ring k := rfl
@[simp] theorem State.emit_fn (k : Nat) : (s.emit x).fn k = s.fn k := rfl
@[simp] theorem State.emit_port (k : Nat) : (s.emit x).port k = s.port k := rfl
@[simp] theorem State.emit_lane (k : Nat) : (s.emit x).lane k = s.lane k := rfl
@[simp] theorem State.emit_tile (k : Nat) : (s.emit x).tile k = s.tile k := rfl
@[simp] theorem State.emit_queue (k : Nat) : (s.emit x).queue k = s.queue k := rfl
@[simp] theorem State.emit_flow (k : Nat) : (s.emit x).flow k = s.flow k := rfl
@[simp] theorem State.emit_merge (k : Nat) : (s.emit x).merge k = s.merge k := rfl
@[simp] theorem State.emit_cut (k : Nat) : (s.emit x).cut k = s.cut k := rfl
@[simp] theorem State.emit_phase (k : Nat) : (s.emit x).phase k = s.phase k := rfl
@[simp] theorem State.emit_tiu (k : Nat) : (s.emit x).tiu k = s.tiu k := rfl
@[simp] theorem State.emit_refr (k : Nat) : (s.emit x).refr k = s.refr k := rfl
@[simp] theorem State.emit_dpll (k : Nat) : (s.emit x).dpll k = s.dpll k := rfl
@[simp] theorem State.emit_pll (k : Nat) : (s.emit x).pll k = s.pll k := rfl
@[simp] theorem State.emit_outp (k : Nat) : (s.emit x).outp k = s.outp k := rfl
@[simp] theorem State.emit_gen (k : Nat) : (s.emit x).gen k = s.gen k := rfl
@[simp] theorem State.emit_fence (k : Nat) : (s.emit x).fence k = s.fence k := rfl

end

@[simp] theorem State.emit_out (s : State) (x : Out) : (s.emit x).out = s.out ++ [x] := rfl

/-! ### A free value drawn -/

section
variable (s : State)

@[simp] theorem State.draw_regs : s.draw.2.regs = s.regs := rfl
@[simp] theorem State.draw_latch : s.draw.2.latch = s.latch := rfl
@[simp] theorem State.draw_boot : s.draw.2.boot = s.boot := rfl
@[simp] theorem State.draw_flash : s.draw.2.flash = s.flash := rfl
@[simp] theorem State.draw_fuses : s.draw.2.fuses = s.fuses := rfl
@[simp] theorem State.draw_rings : s.draw.2.rings = s.rings := rfl
@[simp] theorem State.draw_fns : s.draw.2.fns = s.fns := rfl
@[simp] theorem State.draw_ports : s.draw.2.ports = s.ports := rfl
@[simp] theorem State.draw_lanes : s.draw.2.lanes = s.lanes := rfl
@[simp] theorem State.draw_tables : s.draw.2.tables = s.tables := rfl
@[simp] theorem State.draw_epochs : s.draw.2.epochs = s.epochs := rfl
@[simp] theorem State.draw_tiles : s.draw.2.tiles = s.tiles := rfl
@[simp] theorem State.draw_fabric : s.draw.2.fabric = s.fabric := rfl
@[simp] theorem State.draw_acct : s.draw.2.acct = s.acct := rfl
@[simp] theorem State.draw_pinCfg : s.draw.2.pinCfg = s.pinCfg := rfl
@[simp] theorem State.draw_pinRel : s.draw.2.pinRel = s.pinRel := rfl
@[simp] theorem State.draw_pinMsg : s.draw.2.pinMsg = s.pinMsg := rfl
@[simp] theorem State.draw_queues : s.draw.2.queues = s.queues := rfl
@[simp] theorem State.draw_pgs : s.draw.2.pgs = s.pgs := rfl
@[simp] theorem State.draw_flowRt : s.draw.2.flowRt = s.flowRt := rfl
@[simp] theorem State.draw_merges : s.draw.2.merges = s.merges := rfl
@[simp] theorem State.draw_cuts : s.draw.2.cuts = s.cuts := rfl
@[simp] theorem State.draw_time : s.draw.2.time = s.time := rfl
@[simp] theorem State.draw_phases : s.draw.2.phases = s.phases := rfl
@[simp] theorem State.draw_tius : s.draw.2.tius = s.tius := rfl
@[simp] theorem State.draw_refs : s.draw.2.refs = s.refs := rfl
@[simp] theorem State.draw_dplls : s.draw.2.dplls = s.dplls := rfl
@[simp] theorem State.draw_plls : s.draw.2.plls = s.plls := rfl
@[simp] theorem State.draw_outs : s.draw.2.outs = s.outs := rfl
@[simp] theorem State.draw_gens : s.draw.2.gens = s.gens := rfl
@[simp] theorem State.draw_window : s.draw.2.window = s.window := rfl
@[simp] theorem State.draw_fences : s.draw.2.fences = s.fences := rfl
@[simp] theorem State.draw_fw : s.draw.2.fw = s.fw := rfl
@[simp] theorem State.draw_quench : s.draw.2.quench = s.quench := rfl
@[simp] theorem State.draw_pair : s.draw.2.pair = s.pair := rfl
@[simp] theorem State.draw_temper : s.draw.2.temper = s.temper := rfl
@[simp] theorem State.draw_pwr : s.draw.2.pwr = s.pwr := rfl
@[simp] theorem State.draw_counters : s.draw.2.counters = s.counters := rfl
@[simp] theorem State.draw_hmk : s.draw.2.hmk = s.hmk := rfl
@[simp] theorem State.draw_jtag : s.draw.2.jtag = s.jtag := rfl
@[simp] theorem State.draw_stalled : s.draw.2.stalled = s.stalled := rfl
@[simp] theorem State.draw_out : s.draw.2.out = s.out := rfl
@[simp] theorem State.draw_pending : s.draw.2.pending = s.pending := rfl
@[simp] theorem State.draw_getF (g : Fld) (j : Nat) : s.draw.2.getF g j = s.getF g j := rfl
@[simp] theorem State.draw_isF (g : Fld) (j : Nat) : s.draw.2.isF g j = s.isF g j := rfl
@[simp] theorem State.draw_ring (k : Nat) : s.draw.2.ring k = s.ring k := rfl
@[simp] theorem State.draw_fn (k : Nat) : s.draw.2.fn k = s.fn k := rfl
@[simp] theorem State.draw_port (k : Nat) : s.draw.2.port k = s.port k := rfl
@[simp] theorem State.draw_lane (k : Nat) : s.draw.2.lane k = s.lane k := rfl
@[simp] theorem State.draw_tile (k : Nat) : s.draw.2.tile k = s.tile k := rfl
@[simp] theorem State.draw_queue (k : Nat) : s.draw.2.queue k = s.queue k := rfl
@[simp] theorem State.draw_flow (k : Nat) : s.draw.2.flow k = s.flow k := rfl
@[simp] theorem State.draw_merge (k : Nat) : s.draw.2.merge k = s.merge k := rfl
@[simp] theorem State.draw_cut (k : Nat) : s.draw.2.cut k = s.cut k := rfl
@[simp] theorem State.draw_phase (k : Nat) : s.draw.2.phase k = s.phase k := rfl
@[simp] theorem State.draw_tiu (k : Nat) : s.draw.2.tiu k = s.tiu k := rfl
@[simp] theorem State.draw_refr (k : Nat) : s.draw.2.refr k = s.refr k := rfl
@[simp] theorem State.draw_dpll (k : Nat) : s.draw.2.dpll k = s.dpll k := rfl
@[simp] theorem State.draw_pll (k : Nat) : s.draw.2.pll k = s.pll k := rfl
@[simp] theorem State.draw_outp (k : Nat) : s.draw.2.outp k = s.outp k := rfl
@[simp] theorem State.draw_gen (k : Nat) : s.draw.2.gen k = s.gen k := rfl
@[simp] theorem State.draw_fence (k : Nat) : s.draw.2.fence k = s.fence k := rfl

end

@[simp] theorem State.draw_free (s : State) : s.draw.2.free = s.free + 1 := rfl

/-! ### A signed free value drawn -/

section
variable (s : State)

@[simp] theorem State.drawInt_regs : s.drawInt.2.regs = s.regs := rfl
@[simp] theorem State.drawInt_latch : s.drawInt.2.latch = s.latch := rfl
@[simp] theorem State.drawInt_boot : s.drawInt.2.boot = s.boot := rfl
@[simp] theorem State.drawInt_flash : s.drawInt.2.flash = s.flash := rfl
@[simp] theorem State.drawInt_fuses : s.drawInt.2.fuses = s.fuses := rfl
@[simp] theorem State.drawInt_rings : s.drawInt.2.rings = s.rings := rfl
@[simp] theorem State.drawInt_fns : s.drawInt.2.fns = s.fns := rfl
@[simp] theorem State.drawInt_ports : s.drawInt.2.ports = s.ports := rfl
@[simp] theorem State.drawInt_lanes : s.drawInt.2.lanes = s.lanes := rfl
@[simp] theorem State.drawInt_tables : s.drawInt.2.tables = s.tables := rfl
@[simp] theorem State.drawInt_epochs : s.drawInt.2.epochs = s.epochs := rfl
@[simp] theorem State.drawInt_tiles : s.drawInt.2.tiles = s.tiles := rfl
@[simp] theorem State.drawInt_fabric : s.drawInt.2.fabric = s.fabric := rfl
@[simp] theorem State.drawInt_acct : s.drawInt.2.acct = s.acct := rfl
@[simp] theorem State.drawInt_pinCfg : s.drawInt.2.pinCfg = s.pinCfg := rfl
@[simp] theorem State.drawInt_pinRel : s.drawInt.2.pinRel = s.pinRel := rfl
@[simp] theorem State.drawInt_pinMsg : s.drawInt.2.pinMsg = s.pinMsg := rfl
@[simp] theorem State.drawInt_queues : s.drawInt.2.queues = s.queues := rfl
@[simp] theorem State.drawInt_pgs : s.drawInt.2.pgs = s.pgs := rfl
@[simp] theorem State.drawInt_flowRt : s.drawInt.2.flowRt = s.flowRt := rfl
@[simp] theorem State.drawInt_merges : s.drawInt.2.merges = s.merges := rfl
@[simp] theorem State.drawInt_cuts : s.drawInt.2.cuts = s.cuts := rfl
@[simp] theorem State.drawInt_time : s.drawInt.2.time = s.time := rfl
@[simp] theorem State.drawInt_phases : s.drawInt.2.phases = s.phases := rfl
@[simp] theorem State.drawInt_tius : s.drawInt.2.tius = s.tius := rfl
@[simp] theorem State.drawInt_refs : s.drawInt.2.refs = s.refs := rfl
@[simp] theorem State.drawInt_dplls : s.drawInt.2.dplls = s.dplls := rfl
@[simp] theorem State.drawInt_plls : s.drawInt.2.plls = s.plls := rfl
@[simp] theorem State.drawInt_outs : s.drawInt.2.outs = s.outs := rfl
@[simp] theorem State.drawInt_gens : s.drawInt.2.gens = s.gens := rfl
@[simp] theorem State.drawInt_window : s.drawInt.2.window = s.window := rfl
@[simp] theorem State.drawInt_fences : s.drawInt.2.fences = s.fences := rfl
@[simp] theorem State.drawInt_fw : s.drawInt.2.fw = s.fw := rfl
@[simp] theorem State.drawInt_quench : s.drawInt.2.quench = s.quench := rfl
@[simp] theorem State.drawInt_pair : s.drawInt.2.pair = s.pair := rfl
@[simp] theorem State.drawInt_temper : s.drawInt.2.temper = s.temper := rfl
@[simp] theorem State.drawInt_pwr : s.drawInt.2.pwr = s.pwr := rfl
@[simp] theorem State.drawInt_counters : s.drawInt.2.counters = s.counters := rfl
@[simp] theorem State.drawInt_hmk : s.drawInt.2.hmk = s.hmk := rfl
@[simp] theorem State.drawInt_jtag : s.drawInt.2.jtag = s.jtag := rfl
@[simp] theorem State.drawInt_stalled : s.drawInt.2.stalled = s.stalled := rfl
@[simp] theorem State.drawInt_out : s.drawInt.2.out = s.out := rfl
@[simp] theorem State.drawInt_pending : s.drawInt.2.pending = s.pending := rfl
@[simp] theorem State.drawInt_getF (g : Fld) (j : Nat) : s.drawInt.2.getF g j = s.getF g j := rfl
@[simp] theorem State.drawInt_isF (g : Fld) (j : Nat) : s.drawInt.2.isF g j = s.isF g j := rfl
@[simp] theorem State.drawInt_ring (k : Nat) : s.drawInt.2.ring k = s.ring k := rfl
@[simp] theorem State.drawInt_fn (k : Nat) : s.drawInt.2.fn k = s.fn k := rfl
@[simp] theorem State.drawInt_port (k : Nat) : s.drawInt.2.port k = s.port k := rfl
@[simp] theorem State.drawInt_lane (k : Nat) : s.drawInt.2.lane k = s.lane k := rfl
@[simp] theorem State.drawInt_tile (k : Nat) : s.drawInt.2.tile k = s.tile k := rfl
@[simp] theorem State.drawInt_queue (k : Nat) : s.drawInt.2.queue k = s.queue k := rfl
@[simp] theorem State.drawInt_flow (k : Nat) : s.drawInt.2.flow k = s.flow k := rfl
@[simp] theorem State.drawInt_merge (k : Nat) : s.drawInt.2.merge k = s.merge k := rfl
@[simp] theorem State.drawInt_cut (k : Nat) : s.drawInt.2.cut k = s.cut k := rfl
@[simp] theorem State.drawInt_phase (k : Nat) : s.drawInt.2.phase k = s.phase k := rfl
@[simp] theorem State.drawInt_tiu (k : Nat) : s.drawInt.2.tiu k = s.tiu k := rfl
@[simp] theorem State.drawInt_refr (k : Nat) : s.drawInt.2.refr k = s.refr k := rfl
@[simp] theorem State.drawInt_dpll (k : Nat) : s.drawInt.2.dpll k = s.dpll k := rfl
@[simp] theorem State.drawInt_pll (k : Nat) : s.drawInt.2.pll k = s.pll k := rfl
@[simp] theorem State.drawInt_outp (k : Nat) : s.drawInt.2.outp k = s.outp k := rfl
@[simp] theorem State.drawInt_gen (k : Nat) : s.drawInt.2.gen k = s.gen k := rfl
@[simp] theorem State.drawInt_fence (k : Nat) : s.drawInt.2.fence k = s.fence k := rfl

end

@[simp] theorem State.drawInt_free (s : State) : s.drawInt.2.free = s.free + 1 := rfl

/-! ### A counter set -/

section
variable (s : State) (a b v : Nat)

@[simp] theorem State.setCounter_regs : (s.setCounter a b v).regs = s.regs := rfl
@[simp] theorem State.setCounter_latch : (s.setCounter a b v).latch = s.latch := rfl
@[simp] theorem State.setCounter_boot : (s.setCounter a b v).boot = s.boot := rfl
@[simp] theorem State.setCounter_flash : (s.setCounter a b v).flash = s.flash := rfl
@[simp] theorem State.setCounter_fuses : (s.setCounter a b v).fuses = s.fuses := rfl
@[simp] theorem State.setCounter_rings : (s.setCounter a b v).rings = s.rings := rfl
@[simp] theorem State.setCounter_fns : (s.setCounter a b v).fns = s.fns := rfl
@[simp] theorem State.setCounter_ports : (s.setCounter a b v).ports = s.ports := rfl
@[simp] theorem State.setCounter_lanes : (s.setCounter a b v).lanes = s.lanes := rfl
@[simp] theorem State.setCounter_tables : (s.setCounter a b v).tables = s.tables := rfl
@[simp] theorem State.setCounter_epochs : (s.setCounter a b v).epochs = s.epochs := rfl
@[simp] theorem State.setCounter_tiles : (s.setCounter a b v).tiles = s.tiles := rfl
@[simp] theorem State.setCounter_fabric : (s.setCounter a b v).fabric = s.fabric := rfl
@[simp] theorem State.setCounter_acct : (s.setCounter a b v).acct = s.acct := rfl
@[simp] theorem State.setCounter_pinCfg : (s.setCounter a b v).pinCfg = s.pinCfg := rfl
@[simp] theorem State.setCounter_pinRel : (s.setCounter a b v).pinRel = s.pinRel := rfl
@[simp] theorem State.setCounter_pinMsg : (s.setCounter a b v).pinMsg = s.pinMsg := rfl
@[simp] theorem State.setCounter_queues : (s.setCounter a b v).queues = s.queues := rfl
@[simp] theorem State.setCounter_pgs : (s.setCounter a b v).pgs = s.pgs := rfl
@[simp] theorem State.setCounter_flowRt : (s.setCounter a b v).flowRt = s.flowRt := rfl
@[simp] theorem State.setCounter_merges : (s.setCounter a b v).merges = s.merges := rfl
@[simp] theorem State.setCounter_cuts : (s.setCounter a b v).cuts = s.cuts := rfl
@[simp] theorem State.setCounter_time : (s.setCounter a b v).time = s.time := rfl
@[simp] theorem State.setCounter_phases : (s.setCounter a b v).phases = s.phases := rfl
@[simp] theorem State.setCounter_tius : (s.setCounter a b v).tius = s.tius := rfl
@[simp] theorem State.setCounter_refs : (s.setCounter a b v).refs = s.refs := rfl
@[simp] theorem State.setCounter_dplls : (s.setCounter a b v).dplls = s.dplls := rfl
@[simp] theorem State.setCounter_plls : (s.setCounter a b v).plls = s.plls := rfl
@[simp] theorem State.setCounter_outs : (s.setCounter a b v).outs = s.outs := rfl
@[simp] theorem State.setCounter_gens : (s.setCounter a b v).gens = s.gens := rfl
@[simp] theorem State.setCounter_window : (s.setCounter a b v).window = s.window := rfl
@[simp] theorem State.setCounter_fences : (s.setCounter a b v).fences = s.fences := rfl
@[simp] theorem State.setCounter_fw : (s.setCounter a b v).fw = s.fw := rfl
@[simp] theorem State.setCounter_quench : (s.setCounter a b v).quench = s.quench := rfl
@[simp] theorem State.setCounter_pair : (s.setCounter a b v).pair = s.pair := rfl
@[simp] theorem State.setCounter_temper : (s.setCounter a b v).temper = s.temper := rfl
@[simp] theorem State.setCounter_pwr : (s.setCounter a b v).pwr = s.pwr := rfl
@[simp] theorem State.setCounter_hmk : (s.setCounter a b v).hmk = s.hmk := rfl
@[simp] theorem State.setCounter_jtag : (s.setCounter a b v).jtag = s.jtag := rfl
@[simp] theorem State.setCounter_stalled : (s.setCounter a b v).stalled = s.stalled := rfl
@[simp] theorem State.setCounter_free : (s.setCounter a b v).free = s.free := rfl
@[simp] theorem State.setCounter_out : (s.setCounter a b v).out = s.out := rfl
@[simp] theorem State.setCounter_pending : (s.setCounter a b v).pending = s.pending := rfl
@[simp] theorem State.setCounter_getF (g : Fld) (j : Nat) : (s.setCounter a b v).getF g j = s.getF g j := rfl
@[simp] theorem State.setCounter_isF (g : Fld) (j : Nat) : (s.setCounter a b v).isF g j = s.isF g j := rfl
@[simp] theorem State.setCounter_ring (k : Nat) : (s.setCounter a b v).ring k = s.ring k := rfl
@[simp] theorem State.setCounter_fn (k : Nat) : (s.setCounter a b v).fn k = s.fn k := rfl
@[simp] theorem State.setCounter_port (k : Nat) : (s.setCounter a b v).port k = s.port k := rfl
@[simp] theorem State.setCounter_lane (k : Nat) : (s.setCounter a b v).lane k = s.lane k := rfl
@[simp] theorem State.setCounter_tile (k : Nat) : (s.setCounter a b v).tile k = s.tile k := rfl
@[simp] theorem State.setCounter_queue (k : Nat) : (s.setCounter a b v).queue k = s.queue k := rfl
@[simp] theorem State.setCounter_flow (k : Nat) : (s.setCounter a b v).flow k = s.flow k := rfl
@[simp] theorem State.setCounter_merge (k : Nat) : (s.setCounter a b v).merge k = s.merge k := rfl
@[simp] theorem State.setCounter_cut (k : Nat) : (s.setCounter a b v).cut k = s.cut k := rfl
@[simp] theorem State.setCounter_phase (k : Nat) : (s.setCounter a b v).phase k = s.phase k := rfl
@[simp] theorem State.setCounter_tiu (k : Nat) : (s.setCounter a b v).tiu k = s.tiu k := rfl
@[simp] theorem State.setCounter_refr (k : Nat) : (s.setCounter a b v).refr k = s.refr k := rfl
@[simp] theorem State.setCounter_dpll (k : Nat) : (s.setCounter a b v).dpll k = s.dpll k := rfl
@[simp] theorem State.setCounter_pll (k : Nat) : (s.setCounter a b v).pll k = s.pll k := rfl
@[simp] theorem State.setCounter_outp (k : Nat) : (s.setCounter a b v).outp k = s.outp k := rfl
@[simp] theorem State.setCounter_gen (k : Nat) : (s.setCounter a b v).gen k = s.gen k := rfl
@[simp] theorem State.setCounter_fence (k : Nat) : (s.setCounter a b v).fence k = s.fence k := rfl

end

/-! ### Cells charged -/

section
variable (s : State) (r p c n : Nat)

@[simp] theorem State.setAcct_regs : (s.setAcct r p c n).regs = s.regs := rfl
@[simp] theorem State.setAcct_latch : (s.setAcct r p c n).latch = s.latch := rfl
@[simp] theorem State.setAcct_boot : (s.setAcct r p c n).boot = s.boot := rfl
@[simp] theorem State.setAcct_flash : (s.setAcct r p c n).flash = s.flash := rfl
@[simp] theorem State.setAcct_fuses : (s.setAcct r p c n).fuses = s.fuses := rfl
@[simp] theorem State.setAcct_rings : (s.setAcct r p c n).rings = s.rings := rfl
@[simp] theorem State.setAcct_fns : (s.setAcct r p c n).fns = s.fns := rfl
@[simp] theorem State.setAcct_ports : (s.setAcct r p c n).ports = s.ports := rfl
@[simp] theorem State.setAcct_lanes : (s.setAcct r p c n).lanes = s.lanes := rfl
@[simp] theorem State.setAcct_tables : (s.setAcct r p c n).tables = s.tables := rfl
@[simp] theorem State.setAcct_epochs : (s.setAcct r p c n).epochs = s.epochs := rfl
@[simp] theorem State.setAcct_tiles : (s.setAcct r p c n).tiles = s.tiles := rfl
@[simp] theorem State.setAcct_fabric : (s.setAcct r p c n).fabric = s.fabric := rfl
@[simp] theorem State.setAcct_pinCfg : (s.setAcct r p c n).pinCfg = s.pinCfg := rfl
@[simp] theorem State.setAcct_pinRel : (s.setAcct r p c n).pinRel = s.pinRel := rfl
@[simp] theorem State.setAcct_pinMsg : (s.setAcct r p c n).pinMsg = s.pinMsg := rfl
@[simp] theorem State.setAcct_queues : (s.setAcct r p c n).queues = s.queues := rfl
@[simp] theorem State.setAcct_pgs : (s.setAcct r p c n).pgs = s.pgs := rfl
@[simp] theorem State.setAcct_flowRt : (s.setAcct r p c n).flowRt = s.flowRt := rfl
@[simp] theorem State.setAcct_merges : (s.setAcct r p c n).merges = s.merges := rfl
@[simp] theorem State.setAcct_cuts : (s.setAcct r p c n).cuts = s.cuts := rfl
@[simp] theorem State.setAcct_time : (s.setAcct r p c n).time = s.time := rfl
@[simp] theorem State.setAcct_phases : (s.setAcct r p c n).phases = s.phases := rfl
@[simp] theorem State.setAcct_tius : (s.setAcct r p c n).tius = s.tius := rfl
@[simp] theorem State.setAcct_refs : (s.setAcct r p c n).refs = s.refs := rfl
@[simp] theorem State.setAcct_dplls : (s.setAcct r p c n).dplls = s.dplls := rfl
@[simp] theorem State.setAcct_plls : (s.setAcct r p c n).plls = s.plls := rfl
@[simp] theorem State.setAcct_outs : (s.setAcct r p c n).outs = s.outs := rfl
@[simp] theorem State.setAcct_gens : (s.setAcct r p c n).gens = s.gens := rfl
@[simp] theorem State.setAcct_window : (s.setAcct r p c n).window = s.window := rfl
@[simp] theorem State.setAcct_fences : (s.setAcct r p c n).fences = s.fences := rfl
@[simp] theorem State.setAcct_fw : (s.setAcct r p c n).fw = s.fw := rfl
@[simp] theorem State.setAcct_quench : (s.setAcct r p c n).quench = s.quench := rfl
@[simp] theorem State.setAcct_pair : (s.setAcct r p c n).pair = s.pair := rfl
@[simp] theorem State.setAcct_temper : (s.setAcct r p c n).temper = s.temper := rfl
@[simp] theorem State.setAcct_pwr : (s.setAcct r p c n).pwr = s.pwr := rfl
@[simp] theorem State.setAcct_counters : (s.setAcct r p c n).counters = s.counters := rfl
@[simp] theorem State.setAcct_hmk : (s.setAcct r p c n).hmk = s.hmk := rfl
@[simp] theorem State.setAcct_jtag : (s.setAcct r p c n).jtag = s.jtag := rfl
@[simp] theorem State.setAcct_stalled : (s.setAcct r p c n).stalled = s.stalled := rfl
@[simp] theorem State.setAcct_free : (s.setAcct r p c n).free = s.free := rfl
@[simp] theorem State.setAcct_out : (s.setAcct r p c n).out = s.out := rfl
@[simp] theorem State.setAcct_pending : (s.setAcct r p c n).pending = s.pending := rfl
@[simp] theorem State.setAcct_getF (g : Fld) (j : Nat) : (s.setAcct r p c n).getF g j = s.getF g j := rfl
@[simp] theorem State.setAcct_isF (g : Fld) (j : Nat) : (s.setAcct r p c n).isF g j = s.isF g j := rfl
@[simp] theorem State.setAcct_ring (k : Nat) : (s.setAcct r p c n).ring k = s.ring k := rfl
@[simp] theorem State.setAcct_fn (k : Nat) : (s.setAcct r p c n).fn k = s.fn k := rfl
@[simp] theorem State.setAcct_port (k : Nat) : (s.setAcct r p c n).port k = s.port k := rfl
@[simp] theorem State.setAcct_lane (k : Nat) : (s.setAcct r p c n).lane k = s.lane k := rfl
@[simp] theorem State.setAcct_tile (k : Nat) : (s.setAcct r p c n).tile k = s.tile k := rfl
@[simp] theorem State.setAcct_queue (k : Nat) : (s.setAcct r p c n).queue k = s.queue k := rfl
@[simp] theorem State.setAcct_flow (k : Nat) : (s.setAcct r p c n).flow k = s.flow k := rfl
@[simp] theorem State.setAcct_merge (k : Nat) : (s.setAcct r p c n).merge k = s.merge k := rfl
@[simp] theorem State.setAcct_cut (k : Nat) : (s.setAcct r p c n).cut k = s.cut k := rfl
@[simp] theorem State.setAcct_phase (k : Nat) : (s.setAcct r p c n).phase k = s.phase k := rfl
@[simp] theorem State.setAcct_tiu (k : Nat) : (s.setAcct r p c n).tiu k = s.tiu k := rfl
@[simp] theorem State.setAcct_refr (k : Nat) : (s.setAcct r p c n).refr k = s.refr k := rfl
@[simp] theorem State.setAcct_dpll (k : Nat) : (s.setAcct r p c n).dpll k = s.dpll k := rfl
@[simp] theorem State.setAcct_pll (k : Nat) : (s.setAcct r p c n).pll k = s.pll k := rfl
@[simp] theorem State.setAcct_outp (k : Nat) : (s.setAcct r p c n).outp k = s.outp k := rfl
@[simp] theorem State.setAcct_gen (k : Nat) : (s.setAcct r p c n).gen k = s.gen k := rfl
@[simp] theorem State.setAcct_fence (k : Nat) : (s.setAcct r p c n).fence k = s.fence k := rfl

end

/-! ### `rings` updated at one index -/

section
variable (s : State) (n : Nat) (f : Ring → Ring)

@[simp] theorem State.upRing_regs : (s.upRing n f).regs = s.regs := rfl
@[simp] theorem State.upRing_latch : (s.upRing n f).latch = s.latch := rfl
@[simp] theorem State.upRing_boot : (s.upRing n f).boot = s.boot := rfl
@[simp] theorem State.upRing_flash : (s.upRing n f).flash = s.flash := rfl
@[simp] theorem State.upRing_fuses : (s.upRing n f).fuses = s.fuses := rfl
@[simp] theorem State.upRing_fns : (s.upRing n f).fns = s.fns := rfl
@[simp] theorem State.upRing_ports : (s.upRing n f).ports = s.ports := rfl
@[simp] theorem State.upRing_lanes : (s.upRing n f).lanes = s.lanes := rfl
@[simp] theorem State.upRing_tables : (s.upRing n f).tables = s.tables := rfl
@[simp] theorem State.upRing_epochs : (s.upRing n f).epochs = s.epochs := rfl
@[simp] theorem State.upRing_tiles : (s.upRing n f).tiles = s.tiles := rfl
@[simp] theorem State.upRing_fabric : (s.upRing n f).fabric = s.fabric := rfl
@[simp] theorem State.upRing_acct : (s.upRing n f).acct = s.acct := rfl
@[simp] theorem State.upRing_pinCfg : (s.upRing n f).pinCfg = s.pinCfg := rfl
@[simp] theorem State.upRing_pinRel : (s.upRing n f).pinRel = s.pinRel := rfl
@[simp] theorem State.upRing_pinMsg : (s.upRing n f).pinMsg = s.pinMsg := rfl
@[simp] theorem State.upRing_queues : (s.upRing n f).queues = s.queues := rfl
@[simp] theorem State.upRing_pgs : (s.upRing n f).pgs = s.pgs := rfl
@[simp] theorem State.upRing_flowRt : (s.upRing n f).flowRt = s.flowRt := rfl
@[simp] theorem State.upRing_merges : (s.upRing n f).merges = s.merges := rfl
@[simp] theorem State.upRing_cuts : (s.upRing n f).cuts = s.cuts := rfl
@[simp] theorem State.upRing_time : (s.upRing n f).time = s.time := rfl
@[simp] theorem State.upRing_phases : (s.upRing n f).phases = s.phases := rfl
@[simp] theorem State.upRing_tius : (s.upRing n f).tius = s.tius := rfl
@[simp] theorem State.upRing_refs : (s.upRing n f).refs = s.refs := rfl
@[simp] theorem State.upRing_dplls : (s.upRing n f).dplls = s.dplls := rfl
@[simp] theorem State.upRing_plls : (s.upRing n f).plls = s.plls := rfl
@[simp] theorem State.upRing_outs : (s.upRing n f).outs = s.outs := rfl
@[simp] theorem State.upRing_gens : (s.upRing n f).gens = s.gens := rfl
@[simp] theorem State.upRing_window : (s.upRing n f).window = s.window := rfl
@[simp] theorem State.upRing_fences : (s.upRing n f).fences = s.fences := rfl
@[simp] theorem State.upRing_fw : (s.upRing n f).fw = s.fw := rfl
@[simp] theorem State.upRing_quench : (s.upRing n f).quench = s.quench := rfl
@[simp] theorem State.upRing_pair : (s.upRing n f).pair = s.pair := rfl
@[simp] theorem State.upRing_temper : (s.upRing n f).temper = s.temper := rfl
@[simp] theorem State.upRing_pwr : (s.upRing n f).pwr = s.pwr := rfl
@[simp] theorem State.upRing_counters : (s.upRing n f).counters = s.counters := rfl
@[simp] theorem State.upRing_hmk : (s.upRing n f).hmk = s.hmk := rfl
@[simp] theorem State.upRing_jtag : (s.upRing n f).jtag = s.jtag := rfl
@[simp] theorem State.upRing_stalled : (s.upRing n f).stalled = s.stalled := rfl
@[simp] theorem State.upRing_free : (s.upRing n f).free = s.free := rfl
@[simp] theorem State.upRing_out : (s.upRing n f).out = s.out := rfl
@[simp] theorem State.upRing_pending : (s.upRing n f).pending = s.pending := rfl
@[simp] theorem State.upRing_getF (g : Fld) (j : Nat) : (s.upRing n f).getF g j = s.getF g j := rfl
@[simp] theorem State.upRing_isF (g : Fld) (j : Nat) : (s.upRing n f).isF g j = s.isF g j := rfl
@[simp] theorem State.upRing_fn (k : Nat) : (s.upRing n f).fn k = s.fn k := rfl
@[simp] theorem State.upRing_port (k : Nat) : (s.upRing n f).port k = s.port k := rfl
@[simp] theorem State.upRing_lane (k : Nat) : (s.upRing n f).lane k = s.lane k := rfl
@[simp] theorem State.upRing_tile (k : Nat) : (s.upRing n f).tile k = s.tile k := rfl
@[simp] theorem State.upRing_queue (k : Nat) : (s.upRing n f).queue k = s.queue k := rfl
@[simp] theorem State.upRing_flow (k : Nat) : (s.upRing n f).flow k = s.flow k := rfl
@[simp] theorem State.upRing_merge (k : Nat) : (s.upRing n f).merge k = s.merge k := rfl
@[simp] theorem State.upRing_cut (k : Nat) : (s.upRing n f).cut k = s.cut k := rfl
@[simp] theorem State.upRing_phase (k : Nat) : (s.upRing n f).phase k = s.phase k := rfl
@[simp] theorem State.upRing_tiu (k : Nat) : (s.upRing n f).tiu k = s.tiu k := rfl
@[simp] theorem State.upRing_refr (k : Nat) : (s.upRing n f).refr k = s.refr k := rfl
@[simp] theorem State.upRing_dpll (k : Nat) : (s.upRing n f).dpll k = s.dpll k := rfl
@[simp] theorem State.upRing_pll (k : Nat) : (s.upRing n f).pll k = s.pll k := rfl
@[simp] theorem State.upRing_outp (k : Nat) : (s.upRing n f).outp k = s.outp k := rfl
@[simp] theorem State.upRing_gen (k : Nat) : (s.upRing n f).gen k = s.gen k := rfl
@[simp] theorem State.upRing_fence (k : Nat) : (s.upRing n f).fence k = s.fence k := rfl

end

@[simp] theorem State.ring_upRing_same (s : State) (n : Nat) (f : Ring → Ring) :
    (s.upRing n f).ring n = f (s.ring n) := by
  simp [State.ring_upRing]

theorem State.ring_upRing_other (s : State) {n k : Nat} (f : Ring → Ring) (h : k ≠ n) :
    (s.upRing n f).ring k = s.ring k := by
  simp [State.ring_upRing, h]

/-! ### `fns` updated at one index -/

section
variable (s : State) (n : Nat) (f : Fn → Fn)

@[simp] theorem State.upFn_regs : (s.upFn n f).regs = s.regs := rfl
@[simp] theorem State.upFn_latch : (s.upFn n f).latch = s.latch := rfl
@[simp] theorem State.upFn_boot : (s.upFn n f).boot = s.boot := rfl
@[simp] theorem State.upFn_flash : (s.upFn n f).flash = s.flash := rfl
@[simp] theorem State.upFn_fuses : (s.upFn n f).fuses = s.fuses := rfl
@[simp] theorem State.upFn_rings : (s.upFn n f).rings = s.rings := rfl
@[simp] theorem State.upFn_ports : (s.upFn n f).ports = s.ports := rfl
@[simp] theorem State.upFn_lanes : (s.upFn n f).lanes = s.lanes := rfl
@[simp] theorem State.upFn_tables : (s.upFn n f).tables = s.tables := rfl
@[simp] theorem State.upFn_epochs : (s.upFn n f).epochs = s.epochs := rfl
@[simp] theorem State.upFn_tiles : (s.upFn n f).tiles = s.tiles := rfl
@[simp] theorem State.upFn_fabric : (s.upFn n f).fabric = s.fabric := rfl
@[simp] theorem State.upFn_acct : (s.upFn n f).acct = s.acct := rfl
@[simp] theorem State.upFn_pinCfg : (s.upFn n f).pinCfg = s.pinCfg := rfl
@[simp] theorem State.upFn_pinRel : (s.upFn n f).pinRel = s.pinRel := rfl
@[simp] theorem State.upFn_pinMsg : (s.upFn n f).pinMsg = s.pinMsg := rfl
@[simp] theorem State.upFn_queues : (s.upFn n f).queues = s.queues := rfl
@[simp] theorem State.upFn_pgs : (s.upFn n f).pgs = s.pgs := rfl
@[simp] theorem State.upFn_flowRt : (s.upFn n f).flowRt = s.flowRt := rfl
@[simp] theorem State.upFn_merges : (s.upFn n f).merges = s.merges := rfl
@[simp] theorem State.upFn_cuts : (s.upFn n f).cuts = s.cuts := rfl
@[simp] theorem State.upFn_time : (s.upFn n f).time = s.time := rfl
@[simp] theorem State.upFn_phases : (s.upFn n f).phases = s.phases := rfl
@[simp] theorem State.upFn_tius : (s.upFn n f).tius = s.tius := rfl
@[simp] theorem State.upFn_refs : (s.upFn n f).refs = s.refs := rfl
@[simp] theorem State.upFn_dplls : (s.upFn n f).dplls = s.dplls := rfl
@[simp] theorem State.upFn_plls : (s.upFn n f).plls = s.plls := rfl
@[simp] theorem State.upFn_outs : (s.upFn n f).outs = s.outs := rfl
@[simp] theorem State.upFn_gens : (s.upFn n f).gens = s.gens := rfl
@[simp] theorem State.upFn_window : (s.upFn n f).window = s.window := rfl
@[simp] theorem State.upFn_fences : (s.upFn n f).fences = s.fences := rfl
@[simp] theorem State.upFn_fw : (s.upFn n f).fw = s.fw := rfl
@[simp] theorem State.upFn_quench : (s.upFn n f).quench = s.quench := rfl
@[simp] theorem State.upFn_pair : (s.upFn n f).pair = s.pair := rfl
@[simp] theorem State.upFn_temper : (s.upFn n f).temper = s.temper := rfl
@[simp] theorem State.upFn_pwr : (s.upFn n f).pwr = s.pwr := rfl
@[simp] theorem State.upFn_counters : (s.upFn n f).counters = s.counters := rfl
@[simp] theorem State.upFn_hmk : (s.upFn n f).hmk = s.hmk := rfl
@[simp] theorem State.upFn_jtag : (s.upFn n f).jtag = s.jtag := rfl
@[simp] theorem State.upFn_stalled : (s.upFn n f).stalled = s.stalled := rfl
@[simp] theorem State.upFn_free : (s.upFn n f).free = s.free := rfl
@[simp] theorem State.upFn_out : (s.upFn n f).out = s.out := rfl
@[simp] theorem State.upFn_pending : (s.upFn n f).pending = s.pending := rfl
@[simp] theorem State.upFn_getF (g : Fld) (j : Nat) : (s.upFn n f).getF g j = s.getF g j := rfl
@[simp] theorem State.upFn_isF (g : Fld) (j : Nat) : (s.upFn n f).isF g j = s.isF g j := rfl
@[simp] theorem State.upFn_ring (k : Nat) : (s.upFn n f).ring k = s.ring k := rfl
@[simp] theorem State.upFn_port (k : Nat) : (s.upFn n f).port k = s.port k := rfl
@[simp] theorem State.upFn_lane (k : Nat) : (s.upFn n f).lane k = s.lane k := rfl
@[simp] theorem State.upFn_tile (k : Nat) : (s.upFn n f).tile k = s.tile k := rfl
@[simp] theorem State.upFn_queue (k : Nat) : (s.upFn n f).queue k = s.queue k := rfl
@[simp] theorem State.upFn_flow (k : Nat) : (s.upFn n f).flow k = s.flow k := rfl
@[simp] theorem State.upFn_merge (k : Nat) : (s.upFn n f).merge k = s.merge k := rfl
@[simp] theorem State.upFn_cut (k : Nat) : (s.upFn n f).cut k = s.cut k := rfl
@[simp] theorem State.upFn_phase (k : Nat) : (s.upFn n f).phase k = s.phase k := rfl
@[simp] theorem State.upFn_tiu (k : Nat) : (s.upFn n f).tiu k = s.tiu k := rfl
@[simp] theorem State.upFn_refr (k : Nat) : (s.upFn n f).refr k = s.refr k := rfl
@[simp] theorem State.upFn_dpll (k : Nat) : (s.upFn n f).dpll k = s.dpll k := rfl
@[simp] theorem State.upFn_pll (k : Nat) : (s.upFn n f).pll k = s.pll k := rfl
@[simp] theorem State.upFn_outp (k : Nat) : (s.upFn n f).outp k = s.outp k := rfl
@[simp] theorem State.upFn_gen (k : Nat) : (s.upFn n f).gen k = s.gen k := rfl
@[simp] theorem State.upFn_fence (k : Nat) : (s.upFn n f).fence k = s.fence k := rfl

end

@[simp] theorem State.fn_upFn_same (s : State) (n : Nat) (f : Fn → Fn) :
    (s.upFn n f).fn n = f (s.fn n) := by
  simp [State.fn_upFn]

theorem State.fn_upFn_other (s : State) {n k : Nat} (f : Fn → Fn) (h : k ≠ n) :
    (s.upFn n f).fn k = s.fn k := by
  simp [State.fn_upFn, h]

/-! ### `ports` updated at one index -/

section
variable (s : State) (n : Nat) (f : Port → Port)

@[simp] theorem State.upPort_regs : (s.upPort n f).regs = s.regs := rfl
@[simp] theorem State.upPort_latch : (s.upPort n f).latch = s.latch := rfl
@[simp] theorem State.upPort_boot : (s.upPort n f).boot = s.boot := rfl
@[simp] theorem State.upPort_flash : (s.upPort n f).flash = s.flash := rfl
@[simp] theorem State.upPort_fuses : (s.upPort n f).fuses = s.fuses := rfl
@[simp] theorem State.upPort_rings : (s.upPort n f).rings = s.rings := rfl
@[simp] theorem State.upPort_fns : (s.upPort n f).fns = s.fns := rfl
@[simp] theorem State.upPort_lanes : (s.upPort n f).lanes = s.lanes := rfl
@[simp] theorem State.upPort_tables : (s.upPort n f).tables = s.tables := rfl
@[simp] theorem State.upPort_epochs : (s.upPort n f).epochs = s.epochs := rfl
@[simp] theorem State.upPort_tiles : (s.upPort n f).tiles = s.tiles := rfl
@[simp] theorem State.upPort_fabric : (s.upPort n f).fabric = s.fabric := rfl
@[simp] theorem State.upPort_acct : (s.upPort n f).acct = s.acct := rfl
@[simp] theorem State.upPort_pinCfg : (s.upPort n f).pinCfg = s.pinCfg := rfl
@[simp] theorem State.upPort_pinRel : (s.upPort n f).pinRel = s.pinRel := rfl
@[simp] theorem State.upPort_pinMsg : (s.upPort n f).pinMsg = s.pinMsg := rfl
@[simp] theorem State.upPort_queues : (s.upPort n f).queues = s.queues := rfl
@[simp] theorem State.upPort_pgs : (s.upPort n f).pgs = s.pgs := rfl
@[simp] theorem State.upPort_flowRt : (s.upPort n f).flowRt = s.flowRt := rfl
@[simp] theorem State.upPort_merges : (s.upPort n f).merges = s.merges := rfl
@[simp] theorem State.upPort_cuts : (s.upPort n f).cuts = s.cuts := rfl
@[simp] theorem State.upPort_time : (s.upPort n f).time = s.time := rfl
@[simp] theorem State.upPort_phases : (s.upPort n f).phases = s.phases := rfl
@[simp] theorem State.upPort_tius : (s.upPort n f).tius = s.tius := rfl
@[simp] theorem State.upPort_refs : (s.upPort n f).refs = s.refs := rfl
@[simp] theorem State.upPort_dplls : (s.upPort n f).dplls = s.dplls := rfl
@[simp] theorem State.upPort_plls : (s.upPort n f).plls = s.plls := rfl
@[simp] theorem State.upPort_outs : (s.upPort n f).outs = s.outs := rfl
@[simp] theorem State.upPort_gens : (s.upPort n f).gens = s.gens := rfl
@[simp] theorem State.upPort_window : (s.upPort n f).window = s.window := rfl
@[simp] theorem State.upPort_fences : (s.upPort n f).fences = s.fences := rfl
@[simp] theorem State.upPort_fw : (s.upPort n f).fw = s.fw := rfl
@[simp] theorem State.upPort_quench : (s.upPort n f).quench = s.quench := rfl
@[simp] theorem State.upPort_pair : (s.upPort n f).pair = s.pair := rfl
@[simp] theorem State.upPort_temper : (s.upPort n f).temper = s.temper := rfl
@[simp] theorem State.upPort_pwr : (s.upPort n f).pwr = s.pwr := rfl
@[simp] theorem State.upPort_counters : (s.upPort n f).counters = s.counters := rfl
@[simp] theorem State.upPort_hmk : (s.upPort n f).hmk = s.hmk := rfl
@[simp] theorem State.upPort_jtag : (s.upPort n f).jtag = s.jtag := rfl
@[simp] theorem State.upPort_stalled : (s.upPort n f).stalled = s.stalled := rfl
@[simp] theorem State.upPort_free : (s.upPort n f).free = s.free := rfl
@[simp] theorem State.upPort_out : (s.upPort n f).out = s.out := rfl
@[simp] theorem State.upPort_pending : (s.upPort n f).pending = s.pending := rfl
@[simp] theorem State.upPort_getF (g : Fld) (j : Nat) : (s.upPort n f).getF g j = s.getF g j := rfl
@[simp] theorem State.upPort_isF (g : Fld) (j : Nat) : (s.upPort n f).isF g j = s.isF g j := rfl
@[simp] theorem State.upPort_ring (k : Nat) : (s.upPort n f).ring k = s.ring k := rfl
@[simp] theorem State.upPort_fn (k : Nat) : (s.upPort n f).fn k = s.fn k := rfl
@[simp] theorem State.upPort_lane (k : Nat) : (s.upPort n f).lane k = s.lane k := rfl
@[simp] theorem State.upPort_tile (k : Nat) : (s.upPort n f).tile k = s.tile k := rfl
@[simp] theorem State.upPort_queue (k : Nat) : (s.upPort n f).queue k = s.queue k := rfl
@[simp] theorem State.upPort_flow (k : Nat) : (s.upPort n f).flow k = s.flow k := rfl
@[simp] theorem State.upPort_merge (k : Nat) : (s.upPort n f).merge k = s.merge k := rfl
@[simp] theorem State.upPort_cut (k : Nat) : (s.upPort n f).cut k = s.cut k := rfl
@[simp] theorem State.upPort_phase (k : Nat) : (s.upPort n f).phase k = s.phase k := rfl
@[simp] theorem State.upPort_tiu (k : Nat) : (s.upPort n f).tiu k = s.tiu k := rfl
@[simp] theorem State.upPort_refr (k : Nat) : (s.upPort n f).refr k = s.refr k := rfl
@[simp] theorem State.upPort_dpll (k : Nat) : (s.upPort n f).dpll k = s.dpll k := rfl
@[simp] theorem State.upPort_pll (k : Nat) : (s.upPort n f).pll k = s.pll k := rfl
@[simp] theorem State.upPort_outp (k : Nat) : (s.upPort n f).outp k = s.outp k := rfl
@[simp] theorem State.upPort_gen (k : Nat) : (s.upPort n f).gen k = s.gen k := rfl
@[simp] theorem State.upPort_fence (k : Nat) : (s.upPort n f).fence k = s.fence k := rfl

end

theorem State.port_upPort (s : State) (n k : Nat) (f : Port → Port) :
    (s.upPort n f).port k = if k = n then f (s.port n) else s.port k := by
  simp [State.port, State.upPort, Tab.getD_update]

@[simp] theorem State.port_upPort_same (s : State) (n : Nat) (f : Port → Port) :
    (s.upPort n f).port n = f (s.port n) := by
  simp [State.port_upPort]

theorem State.port_upPort_other (s : State) {n k : Nat} (f : Port → Port) (h : k ≠ n) :
    (s.upPort n f).port k = s.port k := by
  simp [State.port_upPort, h]

/-! ### `lanes` updated at one index -/

section
variable (s : State) (n : Nat) (f : Lane → Lane)

@[simp] theorem State.upLane_regs : (s.upLane n f).regs = s.regs := rfl
@[simp] theorem State.upLane_latch : (s.upLane n f).latch = s.latch := rfl
@[simp] theorem State.upLane_boot : (s.upLane n f).boot = s.boot := rfl
@[simp] theorem State.upLane_flash : (s.upLane n f).flash = s.flash := rfl
@[simp] theorem State.upLane_fuses : (s.upLane n f).fuses = s.fuses := rfl
@[simp] theorem State.upLane_rings : (s.upLane n f).rings = s.rings := rfl
@[simp] theorem State.upLane_fns : (s.upLane n f).fns = s.fns := rfl
@[simp] theorem State.upLane_ports : (s.upLane n f).ports = s.ports := rfl
@[simp] theorem State.upLane_tables : (s.upLane n f).tables = s.tables := rfl
@[simp] theorem State.upLane_epochs : (s.upLane n f).epochs = s.epochs := rfl
@[simp] theorem State.upLane_tiles : (s.upLane n f).tiles = s.tiles := rfl
@[simp] theorem State.upLane_fabric : (s.upLane n f).fabric = s.fabric := rfl
@[simp] theorem State.upLane_acct : (s.upLane n f).acct = s.acct := rfl
@[simp] theorem State.upLane_pinCfg : (s.upLane n f).pinCfg = s.pinCfg := rfl
@[simp] theorem State.upLane_pinRel : (s.upLane n f).pinRel = s.pinRel := rfl
@[simp] theorem State.upLane_pinMsg : (s.upLane n f).pinMsg = s.pinMsg := rfl
@[simp] theorem State.upLane_queues : (s.upLane n f).queues = s.queues := rfl
@[simp] theorem State.upLane_pgs : (s.upLane n f).pgs = s.pgs := rfl
@[simp] theorem State.upLane_flowRt : (s.upLane n f).flowRt = s.flowRt := rfl
@[simp] theorem State.upLane_merges : (s.upLane n f).merges = s.merges := rfl
@[simp] theorem State.upLane_cuts : (s.upLane n f).cuts = s.cuts := rfl
@[simp] theorem State.upLane_time : (s.upLane n f).time = s.time := rfl
@[simp] theorem State.upLane_phases : (s.upLane n f).phases = s.phases := rfl
@[simp] theorem State.upLane_tius : (s.upLane n f).tius = s.tius := rfl
@[simp] theorem State.upLane_refs : (s.upLane n f).refs = s.refs := rfl
@[simp] theorem State.upLane_dplls : (s.upLane n f).dplls = s.dplls := rfl
@[simp] theorem State.upLane_plls : (s.upLane n f).plls = s.plls := rfl
@[simp] theorem State.upLane_outs : (s.upLane n f).outs = s.outs := rfl
@[simp] theorem State.upLane_gens : (s.upLane n f).gens = s.gens := rfl
@[simp] theorem State.upLane_window : (s.upLane n f).window = s.window := rfl
@[simp] theorem State.upLane_fences : (s.upLane n f).fences = s.fences := rfl
@[simp] theorem State.upLane_fw : (s.upLane n f).fw = s.fw := rfl
@[simp] theorem State.upLane_quench : (s.upLane n f).quench = s.quench := rfl
@[simp] theorem State.upLane_pair : (s.upLane n f).pair = s.pair := rfl
@[simp] theorem State.upLane_temper : (s.upLane n f).temper = s.temper := rfl
@[simp] theorem State.upLane_pwr : (s.upLane n f).pwr = s.pwr := rfl
@[simp] theorem State.upLane_counters : (s.upLane n f).counters = s.counters := rfl
@[simp] theorem State.upLane_hmk : (s.upLane n f).hmk = s.hmk := rfl
@[simp] theorem State.upLane_jtag : (s.upLane n f).jtag = s.jtag := rfl
@[simp] theorem State.upLane_stalled : (s.upLane n f).stalled = s.stalled := rfl
@[simp] theorem State.upLane_free : (s.upLane n f).free = s.free := rfl
@[simp] theorem State.upLane_out : (s.upLane n f).out = s.out := rfl
@[simp] theorem State.upLane_pending : (s.upLane n f).pending = s.pending := rfl
@[simp] theorem State.upLane_getF (g : Fld) (j : Nat) : (s.upLane n f).getF g j = s.getF g j := rfl
@[simp] theorem State.upLane_isF (g : Fld) (j : Nat) : (s.upLane n f).isF g j = s.isF g j := rfl
@[simp] theorem State.upLane_ring (k : Nat) : (s.upLane n f).ring k = s.ring k := rfl
@[simp] theorem State.upLane_fn (k : Nat) : (s.upLane n f).fn k = s.fn k := rfl
@[simp] theorem State.upLane_port (k : Nat) : (s.upLane n f).port k = s.port k := rfl
@[simp] theorem State.upLane_tile (k : Nat) : (s.upLane n f).tile k = s.tile k := rfl
@[simp] theorem State.upLane_queue (k : Nat) : (s.upLane n f).queue k = s.queue k := rfl
@[simp] theorem State.upLane_flow (k : Nat) : (s.upLane n f).flow k = s.flow k := rfl
@[simp] theorem State.upLane_merge (k : Nat) : (s.upLane n f).merge k = s.merge k := rfl
@[simp] theorem State.upLane_cut (k : Nat) : (s.upLane n f).cut k = s.cut k := rfl
@[simp] theorem State.upLane_phase (k : Nat) : (s.upLane n f).phase k = s.phase k := rfl
@[simp] theorem State.upLane_tiu (k : Nat) : (s.upLane n f).tiu k = s.tiu k := rfl
@[simp] theorem State.upLane_refr (k : Nat) : (s.upLane n f).refr k = s.refr k := rfl
@[simp] theorem State.upLane_dpll (k : Nat) : (s.upLane n f).dpll k = s.dpll k := rfl
@[simp] theorem State.upLane_pll (k : Nat) : (s.upLane n f).pll k = s.pll k := rfl
@[simp] theorem State.upLane_outp (k : Nat) : (s.upLane n f).outp k = s.outp k := rfl
@[simp] theorem State.upLane_gen (k : Nat) : (s.upLane n f).gen k = s.gen k := rfl
@[simp] theorem State.upLane_fence (k : Nat) : (s.upLane n f).fence k = s.fence k := rfl

end

theorem State.lane_upLane (s : State) (n k : Nat) (f : Lane → Lane) :
    (s.upLane n f).lane k = if k = n then f (s.lane n) else s.lane k := by
  simp [State.lane, State.upLane, Tab.getD_update]

@[simp] theorem State.lane_upLane_same (s : State) (n : Nat) (f : Lane → Lane) :
    (s.upLane n f).lane n = f (s.lane n) := by
  simp [State.lane_upLane]

theorem State.lane_upLane_other (s : State) {n k : Nat} (f : Lane → Lane) (h : k ≠ n) :
    (s.upLane n f).lane k = s.lane k := by
  simp [State.lane_upLane, h]

/-! ### `tiles` updated at one index -/

section
variable (s : State) (n : Nat) (f : Tile → Tile)

@[simp] theorem State.upTile_regs : (s.upTile n f).regs = s.regs := rfl
@[simp] theorem State.upTile_latch : (s.upTile n f).latch = s.latch := rfl
@[simp] theorem State.upTile_boot : (s.upTile n f).boot = s.boot := rfl
@[simp] theorem State.upTile_flash : (s.upTile n f).flash = s.flash := rfl
@[simp] theorem State.upTile_fuses : (s.upTile n f).fuses = s.fuses := rfl
@[simp] theorem State.upTile_rings : (s.upTile n f).rings = s.rings := rfl
@[simp] theorem State.upTile_fns : (s.upTile n f).fns = s.fns := rfl
@[simp] theorem State.upTile_ports : (s.upTile n f).ports = s.ports := rfl
@[simp] theorem State.upTile_lanes : (s.upTile n f).lanes = s.lanes := rfl
@[simp] theorem State.upTile_tables : (s.upTile n f).tables = s.tables := rfl
@[simp] theorem State.upTile_epochs : (s.upTile n f).epochs = s.epochs := rfl
@[simp] theorem State.upTile_fabric : (s.upTile n f).fabric = s.fabric := rfl
@[simp] theorem State.upTile_acct : (s.upTile n f).acct = s.acct := rfl
@[simp] theorem State.upTile_pinCfg : (s.upTile n f).pinCfg = s.pinCfg := rfl
@[simp] theorem State.upTile_pinRel : (s.upTile n f).pinRel = s.pinRel := rfl
@[simp] theorem State.upTile_pinMsg : (s.upTile n f).pinMsg = s.pinMsg := rfl
@[simp] theorem State.upTile_queues : (s.upTile n f).queues = s.queues := rfl
@[simp] theorem State.upTile_pgs : (s.upTile n f).pgs = s.pgs := rfl
@[simp] theorem State.upTile_flowRt : (s.upTile n f).flowRt = s.flowRt := rfl
@[simp] theorem State.upTile_merges : (s.upTile n f).merges = s.merges := rfl
@[simp] theorem State.upTile_cuts : (s.upTile n f).cuts = s.cuts := rfl
@[simp] theorem State.upTile_time : (s.upTile n f).time = s.time := rfl
@[simp] theorem State.upTile_phases : (s.upTile n f).phases = s.phases := rfl
@[simp] theorem State.upTile_tius : (s.upTile n f).tius = s.tius := rfl
@[simp] theorem State.upTile_refs : (s.upTile n f).refs = s.refs := rfl
@[simp] theorem State.upTile_dplls : (s.upTile n f).dplls = s.dplls := rfl
@[simp] theorem State.upTile_plls : (s.upTile n f).plls = s.plls := rfl
@[simp] theorem State.upTile_outs : (s.upTile n f).outs = s.outs := rfl
@[simp] theorem State.upTile_gens : (s.upTile n f).gens = s.gens := rfl
@[simp] theorem State.upTile_window : (s.upTile n f).window = s.window := rfl
@[simp] theorem State.upTile_fences : (s.upTile n f).fences = s.fences := rfl
@[simp] theorem State.upTile_fw : (s.upTile n f).fw = s.fw := rfl
@[simp] theorem State.upTile_quench : (s.upTile n f).quench = s.quench := rfl
@[simp] theorem State.upTile_pair : (s.upTile n f).pair = s.pair := rfl
@[simp] theorem State.upTile_temper : (s.upTile n f).temper = s.temper := rfl
@[simp] theorem State.upTile_pwr : (s.upTile n f).pwr = s.pwr := rfl
@[simp] theorem State.upTile_counters : (s.upTile n f).counters = s.counters := rfl
@[simp] theorem State.upTile_hmk : (s.upTile n f).hmk = s.hmk := rfl
@[simp] theorem State.upTile_jtag : (s.upTile n f).jtag = s.jtag := rfl
@[simp] theorem State.upTile_stalled : (s.upTile n f).stalled = s.stalled := rfl
@[simp] theorem State.upTile_free : (s.upTile n f).free = s.free := rfl
@[simp] theorem State.upTile_out : (s.upTile n f).out = s.out := rfl
@[simp] theorem State.upTile_pending : (s.upTile n f).pending = s.pending := rfl
@[simp] theorem State.upTile_getF (g : Fld) (j : Nat) : (s.upTile n f).getF g j = s.getF g j := rfl
@[simp] theorem State.upTile_isF (g : Fld) (j : Nat) : (s.upTile n f).isF g j = s.isF g j := rfl
@[simp] theorem State.upTile_ring (k : Nat) : (s.upTile n f).ring k = s.ring k := rfl
@[simp] theorem State.upTile_fn (k : Nat) : (s.upTile n f).fn k = s.fn k := rfl
@[simp] theorem State.upTile_port (k : Nat) : (s.upTile n f).port k = s.port k := rfl
@[simp] theorem State.upTile_lane (k : Nat) : (s.upTile n f).lane k = s.lane k := rfl
@[simp] theorem State.upTile_queue (k : Nat) : (s.upTile n f).queue k = s.queue k := rfl
@[simp] theorem State.upTile_flow (k : Nat) : (s.upTile n f).flow k = s.flow k := rfl
@[simp] theorem State.upTile_merge (k : Nat) : (s.upTile n f).merge k = s.merge k := rfl
@[simp] theorem State.upTile_cut (k : Nat) : (s.upTile n f).cut k = s.cut k := rfl
@[simp] theorem State.upTile_phase (k : Nat) : (s.upTile n f).phase k = s.phase k := rfl
@[simp] theorem State.upTile_tiu (k : Nat) : (s.upTile n f).tiu k = s.tiu k := rfl
@[simp] theorem State.upTile_refr (k : Nat) : (s.upTile n f).refr k = s.refr k := rfl
@[simp] theorem State.upTile_dpll (k : Nat) : (s.upTile n f).dpll k = s.dpll k := rfl
@[simp] theorem State.upTile_pll (k : Nat) : (s.upTile n f).pll k = s.pll k := rfl
@[simp] theorem State.upTile_outp (k : Nat) : (s.upTile n f).outp k = s.outp k := rfl
@[simp] theorem State.upTile_gen (k : Nat) : (s.upTile n f).gen k = s.gen k := rfl
@[simp] theorem State.upTile_fence (k : Nat) : (s.upTile n f).fence k = s.fence k := rfl

end

theorem State.tile_upTile (s : State) (n k : Nat) (f : Tile → Tile) :
    (s.upTile n f).tile k = if k = n then f (s.tile n) else s.tile k := by
  simp [State.tile, State.upTile, Tab.getD_update]

@[simp] theorem State.tile_upTile_same (s : State) (n : Nat) (f : Tile → Tile) :
    (s.upTile n f).tile n = f (s.tile n) := by
  simp [State.tile_upTile]

theorem State.tile_upTile_other (s : State) {n k : Nat} (f : Tile → Tile) (h : k ≠ n) :
    (s.upTile n f).tile k = s.tile k := by
  simp [State.tile_upTile, h]

/-! ### `queues` updated at one index -/

section
variable (s : State) (n : Nat) (f : EQueue → EQueue)

@[simp] theorem State.upQueue_regs : (s.upQueue n f).regs = s.regs := rfl
@[simp] theorem State.upQueue_latch : (s.upQueue n f).latch = s.latch := rfl
@[simp] theorem State.upQueue_boot : (s.upQueue n f).boot = s.boot := rfl
@[simp] theorem State.upQueue_flash : (s.upQueue n f).flash = s.flash := rfl
@[simp] theorem State.upQueue_fuses : (s.upQueue n f).fuses = s.fuses := rfl
@[simp] theorem State.upQueue_rings : (s.upQueue n f).rings = s.rings := rfl
@[simp] theorem State.upQueue_fns : (s.upQueue n f).fns = s.fns := rfl
@[simp] theorem State.upQueue_ports : (s.upQueue n f).ports = s.ports := rfl
@[simp] theorem State.upQueue_lanes : (s.upQueue n f).lanes = s.lanes := rfl
@[simp] theorem State.upQueue_tables : (s.upQueue n f).tables = s.tables := rfl
@[simp] theorem State.upQueue_epochs : (s.upQueue n f).epochs = s.epochs := rfl
@[simp] theorem State.upQueue_tiles : (s.upQueue n f).tiles = s.tiles := rfl
@[simp] theorem State.upQueue_fabric : (s.upQueue n f).fabric = s.fabric := rfl
@[simp] theorem State.upQueue_acct : (s.upQueue n f).acct = s.acct := rfl
@[simp] theorem State.upQueue_pinCfg : (s.upQueue n f).pinCfg = s.pinCfg := rfl
@[simp] theorem State.upQueue_pinRel : (s.upQueue n f).pinRel = s.pinRel := rfl
@[simp] theorem State.upQueue_pinMsg : (s.upQueue n f).pinMsg = s.pinMsg := rfl
@[simp] theorem State.upQueue_pgs : (s.upQueue n f).pgs = s.pgs := rfl
@[simp] theorem State.upQueue_flowRt : (s.upQueue n f).flowRt = s.flowRt := rfl
@[simp] theorem State.upQueue_merges : (s.upQueue n f).merges = s.merges := rfl
@[simp] theorem State.upQueue_cuts : (s.upQueue n f).cuts = s.cuts := rfl
@[simp] theorem State.upQueue_time : (s.upQueue n f).time = s.time := rfl
@[simp] theorem State.upQueue_phases : (s.upQueue n f).phases = s.phases := rfl
@[simp] theorem State.upQueue_tius : (s.upQueue n f).tius = s.tius := rfl
@[simp] theorem State.upQueue_refs : (s.upQueue n f).refs = s.refs := rfl
@[simp] theorem State.upQueue_dplls : (s.upQueue n f).dplls = s.dplls := rfl
@[simp] theorem State.upQueue_plls : (s.upQueue n f).plls = s.plls := rfl
@[simp] theorem State.upQueue_outs : (s.upQueue n f).outs = s.outs := rfl
@[simp] theorem State.upQueue_gens : (s.upQueue n f).gens = s.gens := rfl
@[simp] theorem State.upQueue_window : (s.upQueue n f).window = s.window := rfl
@[simp] theorem State.upQueue_fences : (s.upQueue n f).fences = s.fences := rfl
@[simp] theorem State.upQueue_fw : (s.upQueue n f).fw = s.fw := rfl
@[simp] theorem State.upQueue_quench : (s.upQueue n f).quench = s.quench := rfl
@[simp] theorem State.upQueue_pair : (s.upQueue n f).pair = s.pair := rfl
@[simp] theorem State.upQueue_temper : (s.upQueue n f).temper = s.temper := rfl
@[simp] theorem State.upQueue_pwr : (s.upQueue n f).pwr = s.pwr := rfl
@[simp] theorem State.upQueue_counters : (s.upQueue n f).counters = s.counters := rfl
@[simp] theorem State.upQueue_hmk : (s.upQueue n f).hmk = s.hmk := rfl
@[simp] theorem State.upQueue_jtag : (s.upQueue n f).jtag = s.jtag := rfl
@[simp] theorem State.upQueue_stalled : (s.upQueue n f).stalled = s.stalled := rfl
@[simp] theorem State.upQueue_free : (s.upQueue n f).free = s.free := rfl
@[simp] theorem State.upQueue_out : (s.upQueue n f).out = s.out := rfl
@[simp] theorem State.upQueue_pending : (s.upQueue n f).pending = s.pending := rfl
@[simp] theorem State.upQueue_getF (g : Fld) (j : Nat) : (s.upQueue n f).getF g j = s.getF g j := rfl
@[simp] theorem State.upQueue_isF (g : Fld) (j : Nat) : (s.upQueue n f).isF g j = s.isF g j := rfl
@[simp] theorem State.upQueue_ring (k : Nat) : (s.upQueue n f).ring k = s.ring k := rfl
@[simp] theorem State.upQueue_fn (k : Nat) : (s.upQueue n f).fn k = s.fn k := rfl
@[simp] theorem State.upQueue_port (k : Nat) : (s.upQueue n f).port k = s.port k := rfl
@[simp] theorem State.upQueue_lane (k : Nat) : (s.upQueue n f).lane k = s.lane k := rfl
@[simp] theorem State.upQueue_tile (k : Nat) : (s.upQueue n f).tile k = s.tile k := rfl
@[simp] theorem State.upQueue_flow (k : Nat) : (s.upQueue n f).flow k = s.flow k := rfl
@[simp] theorem State.upQueue_merge (k : Nat) : (s.upQueue n f).merge k = s.merge k := rfl
@[simp] theorem State.upQueue_cut (k : Nat) : (s.upQueue n f).cut k = s.cut k := rfl
@[simp] theorem State.upQueue_phase (k : Nat) : (s.upQueue n f).phase k = s.phase k := rfl
@[simp] theorem State.upQueue_tiu (k : Nat) : (s.upQueue n f).tiu k = s.tiu k := rfl
@[simp] theorem State.upQueue_refr (k : Nat) : (s.upQueue n f).refr k = s.refr k := rfl
@[simp] theorem State.upQueue_dpll (k : Nat) : (s.upQueue n f).dpll k = s.dpll k := rfl
@[simp] theorem State.upQueue_pll (k : Nat) : (s.upQueue n f).pll k = s.pll k := rfl
@[simp] theorem State.upQueue_outp (k : Nat) : (s.upQueue n f).outp k = s.outp k := rfl
@[simp] theorem State.upQueue_gen (k : Nat) : (s.upQueue n f).gen k = s.gen k := rfl
@[simp] theorem State.upQueue_fence (k : Nat) : (s.upQueue n f).fence k = s.fence k := rfl

end

theorem State.queue_upQueue (s : State) (n k : Nat) (f : EQueue → EQueue) :
    (s.upQueue n f).queue k = if k = n then f (s.queue n) else s.queue k := by
  simp [State.queue, State.upQueue, Tab.getD_update]

@[simp] theorem State.queue_upQueue_same (s : State) (n : Nat) (f : EQueue → EQueue) :
    (s.upQueue n f).queue n = f (s.queue n) := by
  simp [State.queue_upQueue]

theorem State.queue_upQueue_other (s : State) {n k : Nat} (f : EQueue → EQueue) (h : k ≠ n) :
    (s.upQueue n f).queue k = s.queue k := by
  simp [State.queue_upQueue, h]

/-! ### `flowRt` updated at one index -/

section
variable (s : State) (n : Nat) (f : FlowRt → FlowRt)

@[simp] theorem State.upFlow_regs : (s.upFlow n f).regs = s.regs := rfl
@[simp] theorem State.upFlow_latch : (s.upFlow n f).latch = s.latch := rfl
@[simp] theorem State.upFlow_boot : (s.upFlow n f).boot = s.boot := rfl
@[simp] theorem State.upFlow_flash : (s.upFlow n f).flash = s.flash := rfl
@[simp] theorem State.upFlow_fuses : (s.upFlow n f).fuses = s.fuses := rfl
@[simp] theorem State.upFlow_rings : (s.upFlow n f).rings = s.rings := rfl
@[simp] theorem State.upFlow_fns : (s.upFlow n f).fns = s.fns := rfl
@[simp] theorem State.upFlow_ports : (s.upFlow n f).ports = s.ports := rfl
@[simp] theorem State.upFlow_lanes : (s.upFlow n f).lanes = s.lanes := rfl
@[simp] theorem State.upFlow_tables : (s.upFlow n f).tables = s.tables := rfl
@[simp] theorem State.upFlow_epochs : (s.upFlow n f).epochs = s.epochs := rfl
@[simp] theorem State.upFlow_tiles : (s.upFlow n f).tiles = s.tiles := rfl
@[simp] theorem State.upFlow_fabric : (s.upFlow n f).fabric = s.fabric := rfl
@[simp] theorem State.upFlow_acct : (s.upFlow n f).acct = s.acct := rfl
@[simp] theorem State.upFlow_pinCfg : (s.upFlow n f).pinCfg = s.pinCfg := rfl
@[simp] theorem State.upFlow_pinRel : (s.upFlow n f).pinRel = s.pinRel := rfl
@[simp] theorem State.upFlow_pinMsg : (s.upFlow n f).pinMsg = s.pinMsg := rfl
@[simp] theorem State.upFlow_queues : (s.upFlow n f).queues = s.queues := rfl
@[simp] theorem State.upFlow_pgs : (s.upFlow n f).pgs = s.pgs := rfl
@[simp] theorem State.upFlow_merges : (s.upFlow n f).merges = s.merges := rfl
@[simp] theorem State.upFlow_cuts : (s.upFlow n f).cuts = s.cuts := rfl
@[simp] theorem State.upFlow_time : (s.upFlow n f).time = s.time := rfl
@[simp] theorem State.upFlow_phases : (s.upFlow n f).phases = s.phases := rfl
@[simp] theorem State.upFlow_tius : (s.upFlow n f).tius = s.tius := rfl
@[simp] theorem State.upFlow_refs : (s.upFlow n f).refs = s.refs := rfl
@[simp] theorem State.upFlow_dplls : (s.upFlow n f).dplls = s.dplls := rfl
@[simp] theorem State.upFlow_plls : (s.upFlow n f).plls = s.plls := rfl
@[simp] theorem State.upFlow_outs : (s.upFlow n f).outs = s.outs := rfl
@[simp] theorem State.upFlow_gens : (s.upFlow n f).gens = s.gens := rfl
@[simp] theorem State.upFlow_window : (s.upFlow n f).window = s.window := rfl
@[simp] theorem State.upFlow_fences : (s.upFlow n f).fences = s.fences := rfl
@[simp] theorem State.upFlow_fw : (s.upFlow n f).fw = s.fw := rfl
@[simp] theorem State.upFlow_quench : (s.upFlow n f).quench = s.quench := rfl
@[simp] theorem State.upFlow_pair : (s.upFlow n f).pair = s.pair := rfl
@[simp] theorem State.upFlow_temper : (s.upFlow n f).temper = s.temper := rfl
@[simp] theorem State.upFlow_pwr : (s.upFlow n f).pwr = s.pwr := rfl
@[simp] theorem State.upFlow_counters : (s.upFlow n f).counters = s.counters := rfl
@[simp] theorem State.upFlow_hmk : (s.upFlow n f).hmk = s.hmk := rfl
@[simp] theorem State.upFlow_jtag : (s.upFlow n f).jtag = s.jtag := rfl
@[simp] theorem State.upFlow_stalled : (s.upFlow n f).stalled = s.stalled := rfl
@[simp] theorem State.upFlow_free : (s.upFlow n f).free = s.free := rfl
@[simp] theorem State.upFlow_out : (s.upFlow n f).out = s.out := rfl
@[simp] theorem State.upFlow_pending : (s.upFlow n f).pending = s.pending := rfl
@[simp] theorem State.upFlow_getF (g : Fld) (j : Nat) : (s.upFlow n f).getF g j = s.getF g j := rfl
@[simp] theorem State.upFlow_isF (g : Fld) (j : Nat) : (s.upFlow n f).isF g j = s.isF g j := rfl
@[simp] theorem State.upFlow_ring (k : Nat) : (s.upFlow n f).ring k = s.ring k := rfl
@[simp] theorem State.upFlow_fn (k : Nat) : (s.upFlow n f).fn k = s.fn k := rfl
@[simp] theorem State.upFlow_port (k : Nat) : (s.upFlow n f).port k = s.port k := rfl
@[simp] theorem State.upFlow_lane (k : Nat) : (s.upFlow n f).lane k = s.lane k := rfl
@[simp] theorem State.upFlow_tile (k : Nat) : (s.upFlow n f).tile k = s.tile k := rfl
@[simp] theorem State.upFlow_queue (k : Nat) : (s.upFlow n f).queue k = s.queue k := rfl
@[simp] theorem State.upFlow_merge (k : Nat) : (s.upFlow n f).merge k = s.merge k := rfl
@[simp] theorem State.upFlow_cut (k : Nat) : (s.upFlow n f).cut k = s.cut k := rfl
@[simp] theorem State.upFlow_phase (k : Nat) : (s.upFlow n f).phase k = s.phase k := rfl
@[simp] theorem State.upFlow_tiu (k : Nat) : (s.upFlow n f).tiu k = s.tiu k := rfl
@[simp] theorem State.upFlow_refr (k : Nat) : (s.upFlow n f).refr k = s.refr k := rfl
@[simp] theorem State.upFlow_dpll (k : Nat) : (s.upFlow n f).dpll k = s.dpll k := rfl
@[simp] theorem State.upFlow_pll (k : Nat) : (s.upFlow n f).pll k = s.pll k := rfl
@[simp] theorem State.upFlow_outp (k : Nat) : (s.upFlow n f).outp k = s.outp k := rfl
@[simp] theorem State.upFlow_gen (k : Nat) : (s.upFlow n f).gen k = s.gen k := rfl
@[simp] theorem State.upFlow_fence (k : Nat) : (s.upFlow n f).fence k = s.fence k := rfl

end

theorem State.flow_upFlow (s : State) (n k : Nat) (f : FlowRt → FlowRt) :
    (s.upFlow n f).flow k = if k = n then f (s.flow n) else s.flow k := by
  simp [State.flow, State.upFlow, Tab.getD_update]

@[simp] theorem State.flow_upFlow_same (s : State) (n : Nat) (f : FlowRt → FlowRt) :
    (s.upFlow n f).flow n = f (s.flow n) := by
  simp [State.flow_upFlow]

theorem State.flow_upFlow_other (s : State) {n k : Nat} (f : FlowRt → FlowRt) (h : k ≠ n) :
    (s.upFlow n f).flow k = s.flow k := by
  simp [State.flow_upFlow, h]

/-! ### `merges` updated at one index -/

section
variable (s : State) (n : Nat) (f : Merge → Merge)

@[simp] theorem State.upMerge_regs : (s.upMerge n f).regs = s.regs := rfl
@[simp] theorem State.upMerge_latch : (s.upMerge n f).latch = s.latch := rfl
@[simp] theorem State.upMerge_boot : (s.upMerge n f).boot = s.boot := rfl
@[simp] theorem State.upMerge_flash : (s.upMerge n f).flash = s.flash := rfl
@[simp] theorem State.upMerge_fuses : (s.upMerge n f).fuses = s.fuses := rfl
@[simp] theorem State.upMerge_rings : (s.upMerge n f).rings = s.rings := rfl
@[simp] theorem State.upMerge_fns : (s.upMerge n f).fns = s.fns := rfl
@[simp] theorem State.upMerge_ports : (s.upMerge n f).ports = s.ports := rfl
@[simp] theorem State.upMerge_lanes : (s.upMerge n f).lanes = s.lanes := rfl
@[simp] theorem State.upMerge_tables : (s.upMerge n f).tables = s.tables := rfl
@[simp] theorem State.upMerge_epochs : (s.upMerge n f).epochs = s.epochs := rfl
@[simp] theorem State.upMerge_tiles : (s.upMerge n f).tiles = s.tiles := rfl
@[simp] theorem State.upMerge_fabric : (s.upMerge n f).fabric = s.fabric := rfl
@[simp] theorem State.upMerge_acct : (s.upMerge n f).acct = s.acct := rfl
@[simp] theorem State.upMerge_pinCfg : (s.upMerge n f).pinCfg = s.pinCfg := rfl
@[simp] theorem State.upMerge_pinRel : (s.upMerge n f).pinRel = s.pinRel := rfl
@[simp] theorem State.upMerge_pinMsg : (s.upMerge n f).pinMsg = s.pinMsg := rfl
@[simp] theorem State.upMerge_queues : (s.upMerge n f).queues = s.queues := rfl
@[simp] theorem State.upMerge_pgs : (s.upMerge n f).pgs = s.pgs := rfl
@[simp] theorem State.upMerge_flowRt : (s.upMerge n f).flowRt = s.flowRt := rfl
@[simp] theorem State.upMerge_cuts : (s.upMerge n f).cuts = s.cuts := rfl
@[simp] theorem State.upMerge_time : (s.upMerge n f).time = s.time := rfl
@[simp] theorem State.upMerge_phases : (s.upMerge n f).phases = s.phases := rfl
@[simp] theorem State.upMerge_tius : (s.upMerge n f).tius = s.tius := rfl
@[simp] theorem State.upMerge_refs : (s.upMerge n f).refs = s.refs := rfl
@[simp] theorem State.upMerge_dplls : (s.upMerge n f).dplls = s.dplls := rfl
@[simp] theorem State.upMerge_plls : (s.upMerge n f).plls = s.plls := rfl
@[simp] theorem State.upMerge_outs : (s.upMerge n f).outs = s.outs := rfl
@[simp] theorem State.upMerge_gens : (s.upMerge n f).gens = s.gens := rfl
@[simp] theorem State.upMerge_window : (s.upMerge n f).window = s.window := rfl
@[simp] theorem State.upMerge_fences : (s.upMerge n f).fences = s.fences := rfl
@[simp] theorem State.upMerge_fw : (s.upMerge n f).fw = s.fw := rfl
@[simp] theorem State.upMerge_quench : (s.upMerge n f).quench = s.quench := rfl
@[simp] theorem State.upMerge_pair : (s.upMerge n f).pair = s.pair := rfl
@[simp] theorem State.upMerge_temper : (s.upMerge n f).temper = s.temper := rfl
@[simp] theorem State.upMerge_pwr : (s.upMerge n f).pwr = s.pwr := rfl
@[simp] theorem State.upMerge_counters : (s.upMerge n f).counters = s.counters := rfl
@[simp] theorem State.upMerge_hmk : (s.upMerge n f).hmk = s.hmk := rfl
@[simp] theorem State.upMerge_jtag : (s.upMerge n f).jtag = s.jtag := rfl
@[simp] theorem State.upMerge_stalled : (s.upMerge n f).stalled = s.stalled := rfl
@[simp] theorem State.upMerge_free : (s.upMerge n f).free = s.free := rfl
@[simp] theorem State.upMerge_out : (s.upMerge n f).out = s.out := rfl
@[simp] theorem State.upMerge_pending : (s.upMerge n f).pending = s.pending := rfl
@[simp] theorem State.upMerge_getF (g : Fld) (j : Nat) : (s.upMerge n f).getF g j = s.getF g j := rfl
@[simp] theorem State.upMerge_isF (g : Fld) (j : Nat) : (s.upMerge n f).isF g j = s.isF g j := rfl
@[simp] theorem State.upMerge_ring (k : Nat) : (s.upMerge n f).ring k = s.ring k := rfl
@[simp] theorem State.upMerge_fn (k : Nat) : (s.upMerge n f).fn k = s.fn k := rfl
@[simp] theorem State.upMerge_port (k : Nat) : (s.upMerge n f).port k = s.port k := rfl
@[simp] theorem State.upMerge_lane (k : Nat) : (s.upMerge n f).lane k = s.lane k := rfl
@[simp] theorem State.upMerge_tile (k : Nat) : (s.upMerge n f).tile k = s.tile k := rfl
@[simp] theorem State.upMerge_queue (k : Nat) : (s.upMerge n f).queue k = s.queue k := rfl
@[simp] theorem State.upMerge_flow (k : Nat) : (s.upMerge n f).flow k = s.flow k := rfl
@[simp] theorem State.upMerge_cut (k : Nat) : (s.upMerge n f).cut k = s.cut k := rfl
@[simp] theorem State.upMerge_phase (k : Nat) : (s.upMerge n f).phase k = s.phase k := rfl
@[simp] theorem State.upMerge_tiu (k : Nat) : (s.upMerge n f).tiu k = s.tiu k := rfl
@[simp] theorem State.upMerge_refr (k : Nat) : (s.upMerge n f).refr k = s.refr k := rfl
@[simp] theorem State.upMerge_dpll (k : Nat) : (s.upMerge n f).dpll k = s.dpll k := rfl
@[simp] theorem State.upMerge_pll (k : Nat) : (s.upMerge n f).pll k = s.pll k := rfl
@[simp] theorem State.upMerge_outp (k : Nat) : (s.upMerge n f).outp k = s.outp k := rfl
@[simp] theorem State.upMerge_gen (k : Nat) : (s.upMerge n f).gen k = s.gen k := rfl
@[simp] theorem State.upMerge_fence (k : Nat) : (s.upMerge n f).fence k = s.fence k := rfl

end

theorem State.merge_upMerge (s : State) (n k : Nat) (f : Merge → Merge) :
    (s.upMerge n f).merge k = if k = n then f (s.merge n) else s.merge k := by
  simp [State.merge, State.upMerge, Tab.getD_update]

@[simp] theorem State.merge_upMerge_same (s : State) (n : Nat) (f : Merge → Merge) :
    (s.upMerge n f).merge n = f (s.merge n) := by
  simp [State.merge_upMerge]

theorem State.merge_upMerge_other (s : State) {n k : Nat} (f : Merge → Merge) (h : k ≠ n) :
    (s.upMerge n f).merge k = s.merge k := by
  simp [State.merge_upMerge, h]

/-! ### `cuts` updated at one index -/

section
variable (s : State) (n : Nat) (f : Cut → Cut)

@[simp] theorem State.upCut_regs : (s.upCut n f).regs = s.regs := rfl
@[simp] theorem State.upCut_latch : (s.upCut n f).latch = s.latch := rfl
@[simp] theorem State.upCut_boot : (s.upCut n f).boot = s.boot := rfl
@[simp] theorem State.upCut_flash : (s.upCut n f).flash = s.flash := rfl
@[simp] theorem State.upCut_fuses : (s.upCut n f).fuses = s.fuses := rfl
@[simp] theorem State.upCut_rings : (s.upCut n f).rings = s.rings := rfl
@[simp] theorem State.upCut_fns : (s.upCut n f).fns = s.fns := rfl
@[simp] theorem State.upCut_ports : (s.upCut n f).ports = s.ports := rfl
@[simp] theorem State.upCut_lanes : (s.upCut n f).lanes = s.lanes := rfl
@[simp] theorem State.upCut_tables : (s.upCut n f).tables = s.tables := rfl
@[simp] theorem State.upCut_epochs : (s.upCut n f).epochs = s.epochs := rfl
@[simp] theorem State.upCut_tiles : (s.upCut n f).tiles = s.tiles := rfl
@[simp] theorem State.upCut_fabric : (s.upCut n f).fabric = s.fabric := rfl
@[simp] theorem State.upCut_acct : (s.upCut n f).acct = s.acct := rfl
@[simp] theorem State.upCut_pinCfg : (s.upCut n f).pinCfg = s.pinCfg := rfl
@[simp] theorem State.upCut_pinRel : (s.upCut n f).pinRel = s.pinRel := rfl
@[simp] theorem State.upCut_pinMsg : (s.upCut n f).pinMsg = s.pinMsg := rfl
@[simp] theorem State.upCut_queues : (s.upCut n f).queues = s.queues := rfl
@[simp] theorem State.upCut_pgs : (s.upCut n f).pgs = s.pgs := rfl
@[simp] theorem State.upCut_flowRt : (s.upCut n f).flowRt = s.flowRt := rfl
@[simp] theorem State.upCut_merges : (s.upCut n f).merges = s.merges := rfl
@[simp] theorem State.upCut_time : (s.upCut n f).time = s.time := rfl
@[simp] theorem State.upCut_phases : (s.upCut n f).phases = s.phases := rfl
@[simp] theorem State.upCut_tius : (s.upCut n f).tius = s.tius := rfl
@[simp] theorem State.upCut_refs : (s.upCut n f).refs = s.refs := rfl
@[simp] theorem State.upCut_dplls : (s.upCut n f).dplls = s.dplls := rfl
@[simp] theorem State.upCut_plls : (s.upCut n f).plls = s.plls := rfl
@[simp] theorem State.upCut_outs : (s.upCut n f).outs = s.outs := rfl
@[simp] theorem State.upCut_gens : (s.upCut n f).gens = s.gens := rfl
@[simp] theorem State.upCut_window : (s.upCut n f).window = s.window := rfl
@[simp] theorem State.upCut_fences : (s.upCut n f).fences = s.fences := rfl
@[simp] theorem State.upCut_fw : (s.upCut n f).fw = s.fw := rfl
@[simp] theorem State.upCut_quench : (s.upCut n f).quench = s.quench := rfl
@[simp] theorem State.upCut_pair : (s.upCut n f).pair = s.pair := rfl
@[simp] theorem State.upCut_temper : (s.upCut n f).temper = s.temper := rfl
@[simp] theorem State.upCut_pwr : (s.upCut n f).pwr = s.pwr := rfl
@[simp] theorem State.upCut_counters : (s.upCut n f).counters = s.counters := rfl
@[simp] theorem State.upCut_hmk : (s.upCut n f).hmk = s.hmk := rfl
@[simp] theorem State.upCut_jtag : (s.upCut n f).jtag = s.jtag := rfl
@[simp] theorem State.upCut_stalled : (s.upCut n f).stalled = s.stalled := rfl
@[simp] theorem State.upCut_free : (s.upCut n f).free = s.free := rfl
@[simp] theorem State.upCut_out : (s.upCut n f).out = s.out := rfl
@[simp] theorem State.upCut_pending : (s.upCut n f).pending = s.pending := rfl
@[simp] theorem State.upCut_getF (g : Fld) (j : Nat) : (s.upCut n f).getF g j = s.getF g j := rfl
@[simp] theorem State.upCut_isF (g : Fld) (j : Nat) : (s.upCut n f).isF g j = s.isF g j := rfl
@[simp] theorem State.upCut_ring (k : Nat) : (s.upCut n f).ring k = s.ring k := rfl
@[simp] theorem State.upCut_fn (k : Nat) : (s.upCut n f).fn k = s.fn k := rfl
@[simp] theorem State.upCut_port (k : Nat) : (s.upCut n f).port k = s.port k := rfl
@[simp] theorem State.upCut_lane (k : Nat) : (s.upCut n f).lane k = s.lane k := rfl
@[simp] theorem State.upCut_tile (k : Nat) : (s.upCut n f).tile k = s.tile k := rfl
@[simp] theorem State.upCut_queue (k : Nat) : (s.upCut n f).queue k = s.queue k := rfl
@[simp] theorem State.upCut_flow (k : Nat) : (s.upCut n f).flow k = s.flow k := rfl
@[simp] theorem State.upCut_merge (k : Nat) : (s.upCut n f).merge k = s.merge k := rfl
@[simp] theorem State.upCut_phase (k : Nat) : (s.upCut n f).phase k = s.phase k := rfl
@[simp] theorem State.upCut_tiu (k : Nat) : (s.upCut n f).tiu k = s.tiu k := rfl
@[simp] theorem State.upCut_refr (k : Nat) : (s.upCut n f).refr k = s.refr k := rfl
@[simp] theorem State.upCut_dpll (k : Nat) : (s.upCut n f).dpll k = s.dpll k := rfl
@[simp] theorem State.upCut_pll (k : Nat) : (s.upCut n f).pll k = s.pll k := rfl
@[simp] theorem State.upCut_outp (k : Nat) : (s.upCut n f).outp k = s.outp k := rfl
@[simp] theorem State.upCut_gen (k : Nat) : (s.upCut n f).gen k = s.gen k := rfl
@[simp] theorem State.upCut_fence (k : Nat) : (s.upCut n f).fence k = s.fence k := rfl

end

theorem State.cut_upCut (s : State) (n k : Nat) (f : Cut → Cut) :
    (s.upCut n f).cut k = if k = n then f (s.cut n) else s.cut k := by
  simp [State.cut, State.upCut, Tab.getD_update]

@[simp] theorem State.cut_upCut_same (s : State) (n : Nat) (f : Cut → Cut) :
    (s.upCut n f).cut n = f (s.cut n) := by
  simp [State.cut_upCut]

theorem State.cut_upCut_other (s : State) {n k : Nat} (f : Cut → Cut) (h : k ≠ n) :
    (s.upCut n f).cut k = s.cut k := by
  simp [State.cut_upCut, h]

/-! ### `phases` updated at one index -/

section
variable (s : State) (n : Nat) (f : Phase → Phase)

@[simp] theorem State.upPhase_regs : (s.upPhase n f).regs = s.regs := rfl
@[simp] theorem State.upPhase_latch : (s.upPhase n f).latch = s.latch := rfl
@[simp] theorem State.upPhase_boot : (s.upPhase n f).boot = s.boot := rfl
@[simp] theorem State.upPhase_flash : (s.upPhase n f).flash = s.flash := rfl
@[simp] theorem State.upPhase_fuses : (s.upPhase n f).fuses = s.fuses := rfl
@[simp] theorem State.upPhase_rings : (s.upPhase n f).rings = s.rings := rfl
@[simp] theorem State.upPhase_fns : (s.upPhase n f).fns = s.fns := rfl
@[simp] theorem State.upPhase_ports : (s.upPhase n f).ports = s.ports := rfl
@[simp] theorem State.upPhase_lanes : (s.upPhase n f).lanes = s.lanes := rfl
@[simp] theorem State.upPhase_tables : (s.upPhase n f).tables = s.tables := rfl
@[simp] theorem State.upPhase_epochs : (s.upPhase n f).epochs = s.epochs := rfl
@[simp] theorem State.upPhase_tiles : (s.upPhase n f).tiles = s.tiles := rfl
@[simp] theorem State.upPhase_fabric : (s.upPhase n f).fabric = s.fabric := rfl
@[simp] theorem State.upPhase_acct : (s.upPhase n f).acct = s.acct := rfl
@[simp] theorem State.upPhase_pinCfg : (s.upPhase n f).pinCfg = s.pinCfg := rfl
@[simp] theorem State.upPhase_pinRel : (s.upPhase n f).pinRel = s.pinRel := rfl
@[simp] theorem State.upPhase_pinMsg : (s.upPhase n f).pinMsg = s.pinMsg := rfl
@[simp] theorem State.upPhase_queues : (s.upPhase n f).queues = s.queues := rfl
@[simp] theorem State.upPhase_pgs : (s.upPhase n f).pgs = s.pgs := rfl
@[simp] theorem State.upPhase_flowRt : (s.upPhase n f).flowRt = s.flowRt := rfl
@[simp] theorem State.upPhase_merges : (s.upPhase n f).merges = s.merges := rfl
@[simp] theorem State.upPhase_cuts : (s.upPhase n f).cuts = s.cuts := rfl
@[simp] theorem State.upPhase_time : (s.upPhase n f).time = s.time := rfl
@[simp] theorem State.upPhase_tius : (s.upPhase n f).tius = s.tius := rfl
@[simp] theorem State.upPhase_refs : (s.upPhase n f).refs = s.refs := rfl
@[simp] theorem State.upPhase_dplls : (s.upPhase n f).dplls = s.dplls := rfl
@[simp] theorem State.upPhase_plls : (s.upPhase n f).plls = s.plls := rfl
@[simp] theorem State.upPhase_outs : (s.upPhase n f).outs = s.outs := rfl
@[simp] theorem State.upPhase_gens : (s.upPhase n f).gens = s.gens := rfl
@[simp] theorem State.upPhase_window : (s.upPhase n f).window = s.window := rfl
@[simp] theorem State.upPhase_fences : (s.upPhase n f).fences = s.fences := rfl
@[simp] theorem State.upPhase_fw : (s.upPhase n f).fw = s.fw := rfl
@[simp] theorem State.upPhase_quench : (s.upPhase n f).quench = s.quench := rfl
@[simp] theorem State.upPhase_pair : (s.upPhase n f).pair = s.pair := rfl
@[simp] theorem State.upPhase_temper : (s.upPhase n f).temper = s.temper := rfl
@[simp] theorem State.upPhase_pwr : (s.upPhase n f).pwr = s.pwr := rfl
@[simp] theorem State.upPhase_counters : (s.upPhase n f).counters = s.counters := rfl
@[simp] theorem State.upPhase_hmk : (s.upPhase n f).hmk = s.hmk := rfl
@[simp] theorem State.upPhase_jtag : (s.upPhase n f).jtag = s.jtag := rfl
@[simp] theorem State.upPhase_stalled : (s.upPhase n f).stalled = s.stalled := rfl
@[simp] theorem State.upPhase_free : (s.upPhase n f).free = s.free := rfl
@[simp] theorem State.upPhase_out : (s.upPhase n f).out = s.out := rfl
@[simp] theorem State.upPhase_pending : (s.upPhase n f).pending = s.pending := rfl
@[simp] theorem State.upPhase_getF (g : Fld) (j : Nat) : (s.upPhase n f).getF g j = s.getF g j := rfl
@[simp] theorem State.upPhase_isF (g : Fld) (j : Nat) : (s.upPhase n f).isF g j = s.isF g j := rfl
@[simp] theorem State.upPhase_ring (k : Nat) : (s.upPhase n f).ring k = s.ring k := rfl
@[simp] theorem State.upPhase_fn (k : Nat) : (s.upPhase n f).fn k = s.fn k := rfl
@[simp] theorem State.upPhase_port (k : Nat) : (s.upPhase n f).port k = s.port k := rfl
@[simp] theorem State.upPhase_lane (k : Nat) : (s.upPhase n f).lane k = s.lane k := rfl
@[simp] theorem State.upPhase_tile (k : Nat) : (s.upPhase n f).tile k = s.tile k := rfl
@[simp] theorem State.upPhase_queue (k : Nat) : (s.upPhase n f).queue k = s.queue k := rfl
@[simp] theorem State.upPhase_flow (k : Nat) : (s.upPhase n f).flow k = s.flow k := rfl
@[simp] theorem State.upPhase_merge (k : Nat) : (s.upPhase n f).merge k = s.merge k := rfl
@[simp] theorem State.upPhase_cut (k : Nat) : (s.upPhase n f).cut k = s.cut k := rfl
@[simp] theorem State.upPhase_tiu (k : Nat) : (s.upPhase n f).tiu k = s.tiu k := rfl
@[simp] theorem State.upPhase_refr (k : Nat) : (s.upPhase n f).refr k = s.refr k := rfl
@[simp] theorem State.upPhase_dpll (k : Nat) : (s.upPhase n f).dpll k = s.dpll k := rfl
@[simp] theorem State.upPhase_pll (k : Nat) : (s.upPhase n f).pll k = s.pll k := rfl
@[simp] theorem State.upPhase_outp (k : Nat) : (s.upPhase n f).outp k = s.outp k := rfl
@[simp] theorem State.upPhase_gen (k : Nat) : (s.upPhase n f).gen k = s.gen k := rfl
@[simp] theorem State.upPhase_fence (k : Nat) : (s.upPhase n f).fence k = s.fence k := rfl

end

theorem State.phase_upPhase (s : State) (n k : Nat) (f : Phase → Phase) :
    (s.upPhase n f).phase k = if k = n then f (s.phase n) else s.phase k := by
  simp [State.phase, State.upPhase, Tab.getD_update]

@[simp] theorem State.phase_upPhase_same (s : State) (n : Nat) (f : Phase → Phase) :
    (s.upPhase n f).phase n = f (s.phase n) := by
  simp [State.phase_upPhase]

theorem State.phase_upPhase_other (s : State) {n k : Nat} (f : Phase → Phase) (h : k ≠ n) :
    (s.upPhase n f).phase k = s.phase k := by
  simp [State.phase_upPhase, h]

/-! ### `tius` updated at one index -/

section
variable (s : State) (n : Nat) (f : Tiu → Tiu)

@[simp] theorem State.upTiu_regs : (s.upTiu n f).regs = s.regs := rfl
@[simp] theorem State.upTiu_latch : (s.upTiu n f).latch = s.latch := rfl
@[simp] theorem State.upTiu_boot : (s.upTiu n f).boot = s.boot := rfl
@[simp] theorem State.upTiu_flash : (s.upTiu n f).flash = s.flash := rfl
@[simp] theorem State.upTiu_fuses : (s.upTiu n f).fuses = s.fuses := rfl
@[simp] theorem State.upTiu_rings : (s.upTiu n f).rings = s.rings := rfl
@[simp] theorem State.upTiu_fns : (s.upTiu n f).fns = s.fns := rfl
@[simp] theorem State.upTiu_ports : (s.upTiu n f).ports = s.ports := rfl
@[simp] theorem State.upTiu_lanes : (s.upTiu n f).lanes = s.lanes := rfl
@[simp] theorem State.upTiu_tables : (s.upTiu n f).tables = s.tables := rfl
@[simp] theorem State.upTiu_epochs : (s.upTiu n f).epochs = s.epochs := rfl
@[simp] theorem State.upTiu_tiles : (s.upTiu n f).tiles = s.tiles := rfl
@[simp] theorem State.upTiu_fabric : (s.upTiu n f).fabric = s.fabric := rfl
@[simp] theorem State.upTiu_acct : (s.upTiu n f).acct = s.acct := rfl
@[simp] theorem State.upTiu_pinCfg : (s.upTiu n f).pinCfg = s.pinCfg := rfl
@[simp] theorem State.upTiu_pinRel : (s.upTiu n f).pinRel = s.pinRel := rfl
@[simp] theorem State.upTiu_pinMsg : (s.upTiu n f).pinMsg = s.pinMsg := rfl
@[simp] theorem State.upTiu_queues : (s.upTiu n f).queues = s.queues := rfl
@[simp] theorem State.upTiu_pgs : (s.upTiu n f).pgs = s.pgs := rfl
@[simp] theorem State.upTiu_flowRt : (s.upTiu n f).flowRt = s.flowRt := rfl
@[simp] theorem State.upTiu_merges : (s.upTiu n f).merges = s.merges := rfl
@[simp] theorem State.upTiu_cuts : (s.upTiu n f).cuts = s.cuts := rfl
@[simp] theorem State.upTiu_time : (s.upTiu n f).time = s.time := rfl
@[simp] theorem State.upTiu_phases : (s.upTiu n f).phases = s.phases := rfl
@[simp] theorem State.upTiu_refs : (s.upTiu n f).refs = s.refs := rfl
@[simp] theorem State.upTiu_dplls : (s.upTiu n f).dplls = s.dplls := rfl
@[simp] theorem State.upTiu_plls : (s.upTiu n f).plls = s.plls := rfl
@[simp] theorem State.upTiu_outs : (s.upTiu n f).outs = s.outs := rfl
@[simp] theorem State.upTiu_gens : (s.upTiu n f).gens = s.gens := rfl
@[simp] theorem State.upTiu_window : (s.upTiu n f).window = s.window := rfl
@[simp] theorem State.upTiu_fences : (s.upTiu n f).fences = s.fences := rfl
@[simp] theorem State.upTiu_fw : (s.upTiu n f).fw = s.fw := rfl
@[simp] theorem State.upTiu_quench : (s.upTiu n f).quench = s.quench := rfl
@[simp] theorem State.upTiu_pair : (s.upTiu n f).pair = s.pair := rfl
@[simp] theorem State.upTiu_temper : (s.upTiu n f).temper = s.temper := rfl
@[simp] theorem State.upTiu_pwr : (s.upTiu n f).pwr = s.pwr := rfl
@[simp] theorem State.upTiu_counters : (s.upTiu n f).counters = s.counters := rfl
@[simp] theorem State.upTiu_hmk : (s.upTiu n f).hmk = s.hmk := rfl
@[simp] theorem State.upTiu_jtag : (s.upTiu n f).jtag = s.jtag := rfl
@[simp] theorem State.upTiu_stalled : (s.upTiu n f).stalled = s.stalled := rfl
@[simp] theorem State.upTiu_free : (s.upTiu n f).free = s.free := rfl
@[simp] theorem State.upTiu_out : (s.upTiu n f).out = s.out := rfl
@[simp] theorem State.upTiu_pending : (s.upTiu n f).pending = s.pending := rfl
@[simp] theorem State.upTiu_getF (g : Fld) (j : Nat) : (s.upTiu n f).getF g j = s.getF g j := rfl
@[simp] theorem State.upTiu_isF (g : Fld) (j : Nat) : (s.upTiu n f).isF g j = s.isF g j := rfl
@[simp] theorem State.upTiu_ring (k : Nat) : (s.upTiu n f).ring k = s.ring k := rfl
@[simp] theorem State.upTiu_fn (k : Nat) : (s.upTiu n f).fn k = s.fn k := rfl
@[simp] theorem State.upTiu_port (k : Nat) : (s.upTiu n f).port k = s.port k := rfl
@[simp] theorem State.upTiu_lane (k : Nat) : (s.upTiu n f).lane k = s.lane k := rfl
@[simp] theorem State.upTiu_tile (k : Nat) : (s.upTiu n f).tile k = s.tile k := rfl
@[simp] theorem State.upTiu_queue (k : Nat) : (s.upTiu n f).queue k = s.queue k := rfl
@[simp] theorem State.upTiu_flow (k : Nat) : (s.upTiu n f).flow k = s.flow k := rfl
@[simp] theorem State.upTiu_merge (k : Nat) : (s.upTiu n f).merge k = s.merge k := rfl
@[simp] theorem State.upTiu_cut (k : Nat) : (s.upTiu n f).cut k = s.cut k := rfl
@[simp] theorem State.upTiu_phase (k : Nat) : (s.upTiu n f).phase k = s.phase k := rfl
@[simp] theorem State.upTiu_refr (k : Nat) : (s.upTiu n f).refr k = s.refr k := rfl
@[simp] theorem State.upTiu_dpll (k : Nat) : (s.upTiu n f).dpll k = s.dpll k := rfl
@[simp] theorem State.upTiu_pll (k : Nat) : (s.upTiu n f).pll k = s.pll k := rfl
@[simp] theorem State.upTiu_outp (k : Nat) : (s.upTiu n f).outp k = s.outp k := rfl
@[simp] theorem State.upTiu_gen (k : Nat) : (s.upTiu n f).gen k = s.gen k := rfl
@[simp] theorem State.upTiu_fence (k : Nat) : (s.upTiu n f).fence k = s.fence k := rfl

end

theorem State.tiu_upTiu (s : State) (n k : Nat) (f : Tiu → Tiu) :
    (s.upTiu n f).tiu k = if k = n then f (s.tiu n) else s.tiu k := by
  simp [State.tiu, State.upTiu, Tab.getD_update]

@[simp] theorem State.tiu_upTiu_same (s : State) (n : Nat) (f : Tiu → Tiu) :
    (s.upTiu n f).tiu n = f (s.tiu n) := by
  simp [State.tiu_upTiu]

theorem State.tiu_upTiu_other (s : State) {n k : Nat} (f : Tiu → Tiu) (h : k ≠ n) :
    (s.upTiu n f).tiu k = s.tiu k := by
  simp [State.tiu_upTiu, h]

/-! ### `refs` updated at one index -/

section
variable (s : State) (n : Nat) (f : Ref → Ref)

@[simp] theorem State.upRef_regs : (s.upRef n f).regs = s.regs := rfl
@[simp] theorem State.upRef_latch : (s.upRef n f).latch = s.latch := rfl
@[simp] theorem State.upRef_boot : (s.upRef n f).boot = s.boot := rfl
@[simp] theorem State.upRef_flash : (s.upRef n f).flash = s.flash := rfl
@[simp] theorem State.upRef_fuses : (s.upRef n f).fuses = s.fuses := rfl
@[simp] theorem State.upRef_rings : (s.upRef n f).rings = s.rings := rfl
@[simp] theorem State.upRef_fns : (s.upRef n f).fns = s.fns := rfl
@[simp] theorem State.upRef_ports : (s.upRef n f).ports = s.ports := rfl
@[simp] theorem State.upRef_lanes : (s.upRef n f).lanes = s.lanes := rfl
@[simp] theorem State.upRef_tables : (s.upRef n f).tables = s.tables := rfl
@[simp] theorem State.upRef_epochs : (s.upRef n f).epochs = s.epochs := rfl
@[simp] theorem State.upRef_tiles : (s.upRef n f).tiles = s.tiles := rfl
@[simp] theorem State.upRef_fabric : (s.upRef n f).fabric = s.fabric := rfl
@[simp] theorem State.upRef_acct : (s.upRef n f).acct = s.acct := rfl
@[simp] theorem State.upRef_pinCfg : (s.upRef n f).pinCfg = s.pinCfg := rfl
@[simp] theorem State.upRef_pinRel : (s.upRef n f).pinRel = s.pinRel := rfl
@[simp] theorem State.upRef_pinMsg : (s.upRef n f).pinMsg = s.pinMsg := rfl
@[simp] theorem State.upRef_queues : (s.upRef n f).queues = s.queues := rfl
@[simp] theorem State.upRef_pgs : (s.upRef n f).pgs = s.pgs := rfl
@[simp] theorem State.upRef_flowRt : (s.upRef n f).flowRt = s.flowRt := rfl
@[simp] theorem State.upRef_merges : (s.upRef n f).merges = s.merges := rfl
@[simp] theorem State.upRef_cuts : (s.upRef n f).cuts = s.cuts := rfl
@[simp] theorem State.upRef_time : (s.upRef n f).time = s.time := rfl
@[simp] theorem State.upRef_phases : (s.upRef n f).phases = s.phases := rfl
@[simp] theorem State.upRef_tius : (s.upRef n f).tius = s.tius := rfl
@[simp] theorem State.upRef_dplls : (s.upRef n f).dplls = s.dplls := rfl
@[simp] theorem State.upRef_plls : (s.upRef n f).plls = s.plls := rfl
@[simp] theorem State.upRef_outs : (s.upRef n f).outs = s.outs := rfl
@[simp] theorem State.upRef_gens : (s.upRef n f).gens = s.gens := rfl
@[simp] theorem State.upRef_window : (s.upRef n f).window = s.window := rfl
@[simp] theorem State.upRef_fences : (s.upRef n f).fences = s.fences := rfl
@[simp] theorem State.upRef_fw : (s.upRef n f).fw = s.fw := rfl
@[simp] theorem State.upRef_quench : (s.upRef n f).quench = s.quench := rfl
@[simp] theorem State.upRef_pair : (s.upRef n f).pair = s.pair := rfl
@[simp] theorem State.upRef_temper : (s.upRef n f).temper = s.temper := rfl
@[simp] theorem State.upRef_pwr : (s.upRef n f).pwr = s.pwr := rfl
@[simp] theorem State.upRef_counters : (s.upRef n f).counters = s.counters := rfl
@[simp] theorem State.upRef_hmk : (s.upRef n f).hmk = s.hmk := rfl
@[simp] theorem State.upRef_jtag : (s.upRef n f).jtag = s.jtag := rfl
@[simp] theorem State.upRef_stalled : (s.upRef n f).stalled = s.stalled := rfl
@[simp] theorem State.upRef_free : (s.upRef n f).free = s.free := rfl
@[simp] theorem State.upRef_out : (s.upRef n f).out = s.out := rfl
@[simp] theorem State.upRef_pending : (s.upRef n f).pending = s.pending := rfl
@[simp] theorem State.upRef_getF (g : Fld) (j : Nat) : (s.upRef n f).getF g j = s.getF g j := rfl
@[simp] theorem State.upRef_isF (g : Fld) (j : Nat) : (s.upRef n f).isF g j = s.isF g j := rfl
@[simp] theorem State.upRef_ring (k : Nat) : (s.upRef n f).ring k = s.ring k := rfl
@[simp] theorem State.upRef_fn (k : Nat) : (s.upRef n f).fn k = s.fn k := rfl
@[simp] theorem State.upRef_port (k : Nat) : (s.upRef n f).port k = s.port k := rfl
@[simp] theorem State.upRef_lane (k : Nat) : (s.upRef n f).lane k = s.lane k := rfl
@[simp] theorem State.upRef_tile (k : Nat) : (s.upRef n f).tile k = s.tile k := rfl
@[simp] theorem State.upRef_queue (k : Nat) : (s.upRef n f).queue k = s.queue k := rfl
@[simp] theorem State.upRef_flow (k : Nat) : (s.upRef n f).flow k = s.flow k := rfl
@[simp] theorem State.upRef_merge (k : Nat) : (s.upRef n f).merge k = s.merge k := rfl
@[simp] theorem State.upRef_cut (k : Nat) : (s.upRef n f).cut k = s.cut k := rfl
@[simp] theorem State.upRef_phase (k : Nat) : (s.upRef n f).phase k = s.phase k := rfl
@[simp] theorem State.upRef_tiu (k : Nat) : (s.upRef n f).tiu k = s.tiu k := rfl
@[simp] theorem State.upRef_dpll (k : Nat) : (s.upRef n f).dpll k = s.dpll k := rfl
@[simp] theorem State.upRef_pll (k : Nat) : (s.upRef n f).pll k = s.pll k := rfl
@[simp] theorem State.upRef_outp (k : Nat) : (s.upRef n f).outp k = s.outp k := rfl
@[simp] theorem State.upRef_gen (k : Nat) : (s.upRef n f).gen k = s.gen k := rfl
@[simp] theorem State.upRef_fence (k : Nat) : (s.upRef n f).fence k = s.fence k := rfl

end

theorem State.refr_upRef (s : State) (n k : Nat) (f : Ref → Ref) :
    (s.upRef n f).refr k = if k = n then f (s.refr n) else s.refr k := by
  simp [State.refr, State.upRef, Tab.getD_update]

@[simp] theorem State.refr_upRef_same (s : State) (n : Nat) (f : Ref → Ref) :
    (s.upRef n f).refr n = f (s.refr n) := by
  simp [State.refr_upRef]

theorem State.refr_upRef_other (s : State) {n k : Nat} (f : Ref → Ref) (h : k ≠ n) :
    (s.upRef n f).refr k = s.refr k := by
  simp [State.refr_upRef, h]

/-! ### `dplls` updated at one index -/

section
variable (s : State) (n : Nat) (f : Dpll → Dpll)

@[simp] theorem State.upDpll_regs : (s.upDpll n f).regs = s.regs := rfl
@[simp] theorem State.upDpll_latch : (s.upDpll n f).latch = s.latch := rfl
@[simp] theorem State.upDpll_boot : (s.upDpll n f).boot = s.boot := rfl
@[simp] theorem State.upDpll_flash : (s.upDpll n f).flash = s.flash := rfl
@[simp] theorem State.upDpll_fuses : (s.upDpll n f).fuses = s.fuses := rfl
@[simp] theorem State.upDpll_rings : (s.upDpll n f).rings = s.rings := rfl
@[simp] theorem State.upDpll_fns : (s.upDpll n f).fns = s.fns := rfl
@[simp] theorem State.upDpll_ports : (s.upDpll n f).ports = s.ports := rfl
@[simp] theorem State.upDpll_lanes : (s.upDpll n f).lanes = s.lanes := rfl
@[simp] theorem State.upDpll_tables : (s.upDpll n f).tables = s.tables := rfl
@[simp] theorem State.upDpll_epochs : (s.upDpll n f).epochs = s.epochs := rfl
@[simp] theorem State.upDpll_tiles : (s.upDpll n f).tiles = s.tiles := rfl
@[simp] theorem State.upDpll_fabric : (s.upDpll n f).fabric = s.fabric := rfl
@[simp] theorem State.upDpll_acct : (s.upDpll n f).acct = s.acct := rfl
@[simp] theorem State.upDpll_pinCfg : (s.upDpll n f).pinCfg = s.pinCfg := rfl
@[simp] theorem State.upDpll_pinRel : (s.upDpll n f).pinRel = s.pinRel := rfl
@[simp] theorem State.upDpll_pinMsg : (s.upDpll n f).pinMsg = s.pinMsg := rfl
@[simp] theorem State.upDpll_queues : (s.upDpll n f).queues = s.queues := rfl
@[simp] theorem State.upDpll_pgs : (s.upDpll n f).pgs = s.pgs := rfl
@[simp] theorem State.upDpll_flowRt : (s.upDpll n f).flowRt = s.flowRt := rfl
@[simp] theorem State.upDpll_merges : (s.upDpll n f).merges = s.merges := rfl
@[simp] theorem State.upDpll_cuts : (s.upDpll n f).cuts = s.cuts := rfl
@[simp] theorem State.upDpll_time : (s.upDpll n f).time = s.time := rfl
@[simp] theorem State.upDpll_phases : (s.upDpll n f).phases = s.phases := rfl
@[simp] theorem State.upDpll_tius : (s.upDpll n f).tius = s.tius := rfl
@[simp] theorem State.upDpll_refs : (s.upDpll n f).refs = s.refs := rfl
@[simp] theorem State.upDpll_plls : (s.upDpll n f).plls = s.plls := rfl
@[simp] theorem State.upDpll_outs : (s.upDpll n f).outs = s.outs := rfl
@[simp] theorem State.upDpll_gens : (s.upDpll n f).gens = s.gens := rfl
@[simp] theorem State.upDpll_window : (s.upDpll n f).window = s.window := rfl
@[simp] theorem State.upDpll_fences : (s.upDpll n f).fences = s.fences := rfl
@[simp] theorem State.upDpll_fw : (s.upDpll n f).fw = s.fw := rfl
@[simp] theorem State.upDpll_quench : (s.upDpll n f).quench = s.quench := rfl
@[simp] theorem State.upDpll_pair : (s.upDpll n f).pair = s.pair := rfl
@[simp] theorem State.upDpll_temper : (s.upDpll n f).temper = s.temper := rfl
@[simp] theorem State.upDpll_pwr : (s.upDpll n f).pwr = s.pwr := rfl
@[simp] theorem State.upDpll_counters : (s.upDpll n f).counters = s.counters := rfl
@[simp] theorem State.upDpll_hmk : (s.upDpll n f).hmk = s.hmk := rfl
@[simp] theorem State.upDpll_jtag : (s.upDpll n f).jtag = s.jtag := rfl
@[simp] theorem State.upDpll_stalled : (s.upDpll n f).stalled = s.stalled := rfl
@[simp] theorem State.upDpll_free : (s.upDpll n f).free = s.free := rfl
@[simp] theorem State.upDpll_out : (s.upDpll n f).out = s.out := rfl
@[simp] theorem State.upDpll_pending : (s.upDpll n f).pending = s.pending := rfl
@[simp] theorem State.upDpll_getF (g : Fld) (j : Nat) : (s.upDpll n f).getF g j = s.getF g j := rfl
@[simp] theorem State.upDpll_isF (g : Fld) (j : Nat) : (s.upDpll n f).isF g j = s.isF g j := rfl
@[simp] theorem State.upDpll_ring (k : Nat) : (s.upDpll n f).ring k = s.ring k := rfl
@[simp] theorem State.upDpll_fn (k : Nat) : (s.upDpll n f).fn k = s.fn k := rfl
@[simp] theorem State.upDpll_port (k : Nat) : (s.upDpll n f).port k = s.port k := rfl
@[simp] theorem State.upDpll_lane (k : Nat) : (s.upDpll n f).lane k = s.lane k := rfl
@[simp] theorem State.upDpll_tile (k : Nat) : (s.upDpll n f).tile k = s.tile k := rfl
@[simp] theorem State.upDpll_queue (k : Nat) : (s.upDpll n f).queue k = s.queue k := rfl
@[simp] theorem State.upDpll_flow (k : Nat) : (s.upDpll n f).flow k = s.flow k := rfl
@[simp] theorem State.upDpll_merge (k : Nat) : (s.upDpll n f).merge k = s.merge k := rfl
@[simp] theorem State.upDpll_cut (k : Nat) : (s.upDpll n f).cut k = s.cut k := rfl
@[simp] theorem State.upDpll_phase (k : Nat) : (s.upDpll n f).phase k = s.phase k := rfl
@[simp] theorem State.upDpll_tiu (k : Nat) : (s.upDpll n f).tiu k = s.tiu k := rfl
@[simp] theorem State.upDpll_refr (k : Nat) : (s.upDpll n f).refr k = s.refr k := rfl
@[simp] theorem State.upDpll_pll (k : Nat) : (s.upDpll n f).pll k = s.pll k := rfl
@[simp] theorem State.upDpll_outp (k : Nat) : (s.upDpll n f).outp k = s.outp k := rfl
@[simp] theorem State.upDpll_gen (k : Nat) : (s.upDpll n f).gen k = s.gen k := rfl
@[simp] theorem State.upDpll_fence (k : Nat) : (s.upDpll n f).fence k = s.fence k := rfl

end

theorem State.dpll_upDpll (s : State) (n k : Nat) (f : Dpll → Dpll) :
    (s.upDpll n f).dpll k = if k = n then f (s.dpll n) else s.dpll k := by
  simp [State.dpll, State.upDpll, Tab.getD_update]

@[simp] theorem State.dpll_upDpll_same (s : State) (n : Nat) (f : Dpll → Dpll) :
    (s.upDpll n f).dpll n = f (s.dpll n) := by
  simp [State.dpll_upDpll]

theorem State.dpll_upDpll_other (s : State) {n k : Nat} (f : Dpll → Dpll) (h : k ≠ n) :
    (s.upDpll n f).dpll k = s.dpll k := by
  simp [State.dpll_upDpll, h]

/-! ### `plls` updated at one index -/

section
variable (s : State) (n : Nat) (f : Pll → Pll)

@[simp] theorem State.upPll_regs : (s.upPll n f).regs = s.regs := rfl
@[simp] theorem State.upPll_latch : (s.upPll n f).latch = s.latch := rfl
@[simp] theorem State.upPll_boot : (s.upPll n f).boot = s.boot := rfl
@[simp] theorem State.upPll_flash : (s.upPll n f).flash = s.flash := rfl
@[simp] theorem State.upPll_fuses : (s.upPll n f).fuses = s.fuses := rfl
@[simp] theorem State.upPll_rings : (s.upPll n f).rings = s.rings := rfl
@[simp] theorem State.upPll_fns : (s.upPll n f).fns = s.fns := rfl
@[simp] theorem State.upPll_ports : (s.upPll n f).ports = s.ports := rfl
@[simp] theorem State.upPll_lanes : (s.upPll n f).lanes = s.lanes := rfl
@[simp] theorem State.upPll_tables : (s.upPll n f).tables = s.tables := rfl
@[simp] theorem State.upPll_epochs : (s.upPll n f).epochs = s.epochs := rfl
@[simp] theorem State.upPll_tiles : (s.upPll n f).tiles = s.tiles := rfl
@[simp] theorem State.upPll_fabric : (s.upPll n f).fabric = s.fabric := rfl
@[simp] theorem State.upPll_acct : (s.upPll n f).acct = s.acct := rfl
@[simp] theorem State.upPll_pinCfg : (s.upPll n f).pinCfg = s.pinCfg := rfl
@[simp] theorem State.upPll_pinRel : (s.upPll n f).pinRel = s.pinRel := rfl
@[simp] theorem State.upPll_pinMsg : (s.upPll n f).pinMsg = s.pinMsg := rfl
@[simp] theorem State.upPll_queues : (s.upPll n f).queues = s.queues := rfl
@[simp] theorem State.upPll_pgs : (s.upPll n f).pgs = s.pgs := rfl
@[simp] theorem State.upPll_flowRt : (s.upPll n f).flowRt = s.flowRt := rfl
@[simp] theorem State.upPll_merges : (s.upPll n f).merges = s.merges := rfl
@[simp] theorem State.upPll_cuts : (s.upPll n f).cuts = s.cuts := rfl
@[simp] theorem State.upPll_time : (s.upPll n f).time = s.time := rfl
@[simp] theorem State.upPll_phases : (s.upPll n f).phases = s.phases := rfl
@[simp] theorem State.upPll_tius : (s.upPll n f).tius = s.tius := rfl
@[simp] theorem State.upPll_refs : (s.upPll n f).refs = s.refs := rfl
@[simp] theorem State.upPll_dplls : (s.upPll n f).dplls = s.dplls := rfl
@[simp] theorem State.upPll_outs : (s.upPll n f).outs = s.outs := rfl
@[simp] theorem State.upPll_gens : (s.upPll n f).gens = s.gens := rfl
@[simp] theorem State.upPll_window : (s.upPll n f).window = s.window := rfl
@[simp] theorem State.upPll_fences : (s.upPll n f).fences = s.fences := rfl
@[simp] theorem State.upPll_fw : (s.upPll n f).fw = s.fw := rfl
@[simp] theorem State.upPll_quench : (s.upPll n f).quench = s.quench := rfl
@[simp] theorem State.upPll_pair : (s.upPll n f).pair = s.pair := rfl
@[simp] theorem State.upPll_temper : (s.upPll n f).temper = s.temper := rfl
@[simp] theorem State.upPll_pwr : (s.upPll n f).pwr = s.pwr := rfl
@[simp] theorem State.upPll_counters : (s.upPll n f).counters = s.counters := rfl
@[simp] theorem State.upPll_hmk : (s.upPll n f).hmk = s.hmk := rfl
@[simp] theorem State.upPll_jtag : (s.upPll n f).jtag = s.jtag := rfl
@[simp] theorem State.upPll_stalled : (s.upPll n f).stalled = s.stalled := rfl
@[simp] theorem State.upPll_free : (s.upPll n f).free = s.free := rfl
@[simp] theorem State.upPll_out : (s.upPll n f).out = s.out := rfl
@[simp] theorem State.upPll_pending : (s.upPll n f).pending = s.pending := rfl
@[simp] theorem State.upPll_getF (g : Fld) (j : Nat) : (s.upPll n f).getF g j = s.getF g j := rfl
@[simp] theorem State.upPll_isF (g : Fld) (j : Nat) : (s.upPll n f).isF g j = s.isF g j := rfl
@[simp] theorem State.upPll_ring (k : Nat) : (s.upPll n f).ring k = s.ring k := rfl
@[simp] theorem State.upPll_fn (k : Nat) : (s.upPll n f).fn k = s.fn k := rfl
@[simp] theorem State.upPll_port (k : Nat) : (s.upPll n f).port k = s.port k := rfl
@[simp] theorem State.upPll_lane (k : Nat) : (s.upPll n f).lane k = s.lane k := rfl
@[simp] theorem State.upPll_tile (k : Nat) : (s.upPll n f).tile k = s.tile k := rfl
@[simp] theorem State.upPll_queue (k : Nat) : (s.upPll n f).queue k = s.queue k := rfl
@[simp] theorem State.upPll_flow (k : Nat) : (s.upPll n f).flow k = s.flow k := rfl
@[simp] theorem State.upPll_merge (k : Nat) : (s.upPll n f).merge k = s.merge k := rfl
@[simp] theorem State.upPll_cut (k : Nat) : (s.upPll n f).cut k = s.cut k := rfl
@[simp] theorem State.upPll_phase (k : Nat) : (s.upPll n f).phase k = s.phase k := rfl
@[simp] theorem State.upPll_tiu (k : Nat) : (s.upPll n f).tiu k = s.tiu k := rfl
@[simp] theorem State.upPll_refr (k : Nat) : (s.upPll n f).refr k = s.refr k := rfl
@[simp] theorem State.upPll_dpll (k : Nat) : (s.upPll n f).dpll k = s.dpll k := rfl
@[simp] theorem State.upPll_outp (k : Nat) : (s.upPll n f).outp k = s.outp k := rfl
@[simp] theorem State.upPll_gen (k : Nat) : (s.upPll n f).gen k = s.gen k := rfl
@[simp] theorem State.upPll_fence (k : Nat) : (s.upPll n f).fence k = s.fence k := rfl

end

theorem State.pll_upPll (s : State) (n k : Nat) (f : Pll → Pll) :
    (s.upPll n f).pll k = if k = n then f (s.pll n) else s.pll k := by
  simp [State.pll, State.upPll, Tab.getD_update]

@[simp] theorem State.pll_upPll_same (s : State) (n : Nat) (f : Pll → Pll) :
    (s.upPll n f).pll n = f (s.pll n) := by
  simp [State.pll_upPll]

theorem State.pll_upPll_other (s : State) {n k : Nat} (f : Pll → Pll) (h : k ≠ n) :
    (s.upPll n f).pll k = s.pll k := by
  simp [State.pll_upPll, h]

/-! ### `outs` updated at one index -/

section
variable (s : State) (n : Nat) (f : Pll → Pll)

@[simp] theorem State.upOut_regs : (s.upOut n f).regs = s.regs := rfl
@[simp] theorem State.upOut_latch : (s.upOut n f).latch = s.latch := rfl
@[simp] theorem State.upOut_boot : (s.upOut n f).boot = s.boot := rfl
@[simp] theorem State.upOut_flash : (s.upOut n f).flash = s.flash := rfl
@[simp] theorem State.upOut_fuses : (s.upOut n f).fuses = s.fuses := rfl
@[simp] theorem State.upOut_rings : (s.upOut n f).rings = s.rings := rfl
@[simp] theorem State.upOut_fns : (s.upOut n f).fns = s.fns := rfl
@[simp] theorem State.upOut_ports : (s.upOut n f).ports = s.ports := rfl
@[simp] theorem State.upOut_lanes : (s.upOut n f).lanes = s.lanes := rfl
@[simp] theorem State.upOut_tables : (s.upOut n f).tables = s.tables := rfl
@[simp] theorem State.upOut_epochs : (s.upOut n f).epochs = s.epochs := rfl
@[simp] theorem State.upOut_tiles : (s.upOut n f).tiles = s.tiles := rfl
@[simp] theorem State.upOut_fabric : (s.upOut n f).fabric = s.fabric := rfl
@[simp] theorem State.upOut_acct : (s.upOut n f).acct = s.acct := rfl
@[simp] theorem State.upOut_pinCfg : (s.upOut n f).pinCfg = s.pinCfg := rfl
@[simp] theorem State.upOut_pinRel : (s.upOut n f).pinRel = s.pinRel := rfl
@[simp] theorem State.upOut_pinMsg : (s.upOut n f).pinMsg = s.pinMsg := rfl
@[simp] theorem State.upOut_queues : (s.upOut n f).queues = s.queues := rfl
@[simp] theorem State.upOut_pgs : (s.upOut n f).pgs = s.pgs := rfl
@[simp] theorem State.upOut_flowRt : (s.upOut n f).flowRt = s.flowRt := rfl
@[simp] theorem State.upOut_merges : (s.upOut n f).merges = s.merges := rfl
@[simp] theorem State.upOut_cuts : (s.upOut n f).cuts = s.cuts := rfl
@[simp] theorem State.upOut_time : (s.upOut n f).time = s.time := rfl
@[simp] theorem State.upOut_phases : (s.upOut n f).phases = s.phases := rfl
@[simp] theorem State.upOut_tius : (s.upOut n f).tius = s.tius := rfl
@[simp] theorem State.upOut_refs : (s.upOut n f).refs = s.refs := rfl
@[simp] theorem State.upOut_dplls : (s.upOut n f).dplls = s.dplls := rfl
@[simp] theorem State.upOut_plls : (s.upOut n f).plls = s.plls := rfl
@[simp] theorem State.upOut_gens : (s.upOut n f).gens = s.gens := rfl
@[simp] theorem State.upOut_window : (s.upOut n f).window = s.window := rfl
@[simp] theorem State.upOut_fences : (s.upOut n f).fences = s.fences := rfl
@[simp] theorem State.upOut_fw : (s.upOut n f).fw = s.fw := rfl
@[simp] theorem State.upOut_quench : (s.upOut n f).quench = s.quench := rfl
@[simp] theorem State.upOut_pair : (s.upOut n f).pair = s.pair := rfl
@[simp] theorem State.upOut_temper : (s.upOut n f).temper = s.temper := rfl
@[simp] theorem State.upOut_pwr : (s.upOut n f).pwr = s.pwr := rfl
@[simp] theorem State.upOut_counters : (s.upOut n f).counters = s.counters := rfl
@[simp] theorem State.upOut_hmk : (s.upOut n f).hmk = s.hmk := rfl
@[simp] theorem State.upOut_jtag : (s.upOut n f).jtag = s.jtag := rfl
@[simp] theorem State.upOut_stalled : (s.upOut n f).stalled = s.stalled := rfl
@[simp] theorem State.upOut_free : (s.upOut n f).free = s.free := rfl
@[simp] theorem State.upOut_out : (s.upOut n f).out = s.out := rfl
@[simp] theorem State.upOut_pending : (s.upOut n f).pending = s.pending := rfl
@[simp] theorem State.upOut_getF (g : Fld) (j : Nat) : (s.upOut n f).getF g j = s.getF g j := rfl
@[simp] theorem State.upOut_isF (g : Fld) (j : Nat) : (s.upOut n f).isF g j = s.isF g j := rfl
@[simp] theorem State.upOut_ring (k : Nat) : (s.upOut n f).ring k = s.ring k := rfl
@[simp] theorem State.upOut_fn (k : Nat) : (s.upOut n f).fn k = s.fn k := rfl
@[simp] theorem State.upOut_port (k : Nat) : (s.upOut n f).port k = s.port k := rfl
@[simp] theorem State.upOut_lane (k : Nat) : (s.upOut n f).lane k = s.lane k := rfl
@[simp] theorem State.upOut_tile (k : Nat) : (s.upOut n f).tile k = s.tile k := rfl
@[simp] theorem State.upOut_queue (k : Nat) : (s.upOut n f).queue k = s.queue k := rfl
@[simp] theorem State.upOut_flow (k : Nat) : (s.upOut n f).flow k = s.flow k := rfl
@[simp] theorem State.upOut_merge (k : Nat) : (s.upOut n f).merge k = s.merge k := rfl
@[simp] theorem State.upOut_cut (k : Nat) : (s.upOut n f).cut k = s.cut k := rfl
@[simp] theorem State.upOut_phase (k : Nat) : (s.upOut n f).phase k = s.phase k := rfl
@[simp] theorem State.upOut_tiu (k : Nat) : (s.upOut n f).tiu k = s.tiu k := rfl
@[simp] theorem State.upOut_refr (k : Nat) : (s.upOut n f).refr k = s.refr k := rfl
@[simp] theorem State.upOut_dpll (k : Nat) : (s.upOut n f).dpll k = s.dpll k := rfl
@[simp] theorem State.upOut_pll (k : Nat) : (s.upOut n f).pll k = s.pll k := rfl
@[simp] theorem State.upOut_gen (k : Nat) : (s.upOut n f).gen k = s.gen k := rfl
@[simp] theorem State.upOut_fence (k : Nat) : (s.upOut n f).fence k = s.fence k := rfl

end

theorem State.outp_upOut (s : State) (n k : Nat) (f : Pll → Pll) :
    (s.upOut n f).outp k = if k = n then f (s.outp n) else s.outp k := by
  simp [State.outp, State.upOut, Tab.getD_update]

@[simp] theorem State.outp_upOut_same (s : State) (n : Nat) (f : Pll → Pll) :
    (s.upOut n f).outp n = f (s.outp n) := by
  simp [State.outp_upOut]

theorem State.outp_upOut_other (s : State) {n k : Nat} (f : Pll → Pll) (h : k ≠ n) :
    (s.upOut n f).outp k = s.outp k := by
  simp [State.outp_upOut, h]

/-! ### `gens` updated at one index -/

section
variable (s : State) (n : Nat) (f : Gen → Gen)

@[simp] theorem State.upGen_regs : (s.upGen n f).regs = s.regs := rfl
@[simp] theorem State.upGen_latch : (s.upGen n f).latch = s.latch := rfl
@[simp] theorem State.upGen_boot : (s.upGen n f).boot = s.boot := rfl
@[simp] theorem State.upGen_flash : (s.upGen n f).flash = s.flash := rfl
@[simp] theorem State.upGen_fuses : (s.upGen n f).fuses = s.fuses := rfl
@[simp] theorem State.upGen_rings : (s.upGen n f).rings = s.rings := rfl
@[simp] theorem State.upGen_fns : (s.upGen n f).fns = s.fns := rfl
@[simp] theorem State.upGen_ports : (s.upGen n f).ports = s.ports := rfl
@[simp] theorem State.upGen_lanes : (s.upGen n f).lanes = s.lanes := rfl
@[simp] theorem State.upGen_tables : (s.upGen n f).tables = s.tables := rfl
@[simp] theorem State.upGen_epochs : (s.upGen n f).epochs = s.epochs := rfl
@[simp] theorem State.upGen_tiles : (s.upGen n f).tiles = s.tiles := rfl
@[simp] theorem State.upGen_fabric : (s.upGen n f).fabric = s.fabric := rfl
@[simp] theorem State.upGen_acct : (s.upGen n f).acct = s.acct := rfl
@[simp] theorem State.upGen_pinCfg : (s.upGen n f).pinCfg = s.pinCfg := rfl
@[simp] theorem State.upGen_pinRel : (s.upGen n f).pinRel = s.pinRel := rfl
@[simp] theorem State.upGen_pinMsg : (s.upGen n f).pinMsg = s.pinMsg := rfl
@[simp] theorem State.upGen_queues : (s.upGen n f).queues = s.queues := rfl
@[simp] theorem State.upGen_pgs : (s.upGen n f).pgs = s.pgs := rfl
@[simp] theorem State.upGen_flowRt : (s.upGen n f).flowRt = s.flowRt := rfl
@[simp] theorem State.upGen_merges : (s.upGen n f).merges = s.merges := rfl
@[simp] theorem State.upGen_cuts : (s.upGen n f).cuts = s.cuts := rfl
@[simp] theorem State.upGen_time : (s.upGen n f).time = s.time := rfl
@[simp] theorem State.upGen_phases : (s.upGen n f).phases = s.phases := rfl
@[simp] theorem State.upGen_tius : (s.upGen n f).tius = s.tius := rfl
@[simp] theorem State.upGen_refs : (s.upGen n f).refs = s.refs := rfl
@[simp] theorem State.upGen_dplls : (s.upGen n f).dplls = s.dplls := rfl
@[simp] theorem State.upGen_plls : (s.upGen n f).plls = s.plls := rfl
@[simp] theorem State.upGen_outs : (s.upGen n f).outs = s.outs := rfl
@[simp] theorem State.upGen_window : (s.upGen n f).window = s.window := rfl
@[simp] theorem State.upGen_fences : (s.upGen n f).fences = s.fences := rfl
@[simp] theorem State.upGen_fw : (s.upGen n f).fw = s.fw := rfl
@[simp] theorem State.upGen_quench : (s.upGen n f).quench = s.quench := rfl
@[simp] theorem State.upGen_pair : (s.upGen n f).pair = s.pair := rfl
@[simp] theorem State.upGen_temper : (s.upGen n f).temper = s.temper := rfl
@[simp] theorem State.upGen_pwr : (s.upGen n f).pwr = s.pwr := rfl
@[simp] theorem State.upGen_counters : (s.upGen n f).counters = s.counters := rfl
@[simp] theorem State.upGen_hmk : (s.upGen n f).hmk = s.hmk := rfl
@[simp] theorem State.upGen_jtag : (s.upGen n f).jtag = s.jtag := rfl
@[simp] theorem State.upGen_stalled : (s.upGen n f).stalled = s.stalled := rfl
@[simp] theorem State.upGen_free : (s.upGen n f).free = s.free := rfl
@[simp] theorem State.upGen_out : (s.upGen n f).out = s.out := rfl
@[simp] theorem State.upGen_pending : (s.upGen n f).pending = s.pending := rfl
@[simp] theorem State.upGen_getF (g : Fld) (j : Nat) : (s.upGen n f).getF g j = s.getF g j := rfl
@[simp] theorem State.upGen_isF (g : Fld) (j : Nat) : (s.upGen n f).isF g j = s.isF g j := rfl
@[simp] theorem State.upGen_ring (k : Nat) : (s.upGen n f).ring k = s.ring k := rfl
@[simp] theorem State.upGen_fn (k : Nat) : (s.upGen n f).fn k = s.fn k := rfl
@[simp] theorem State.upGen_port (k : Nat) : (s.upGen n f).port k = s.port k := rfl
@[simp] theorem State.upGen_lane (k : Nat) : (s.upGen n f).lane k = s.lane k := rfl
@[simp] theorem State.upGen_tile (k : Nat) : (s.upGen n f).tile k = s.tile k := rfl
@[simp] theorem State.upGen_queue (k : Nat) : (s.upGen n f).queue k = s.queue k := rfl
@[simp] theorem State.upGen_flow (k : Nat) : (s.upGen n f).flow k = s.flow k := rfl
@[simp] theorem State.upGen_merge (k : Nat) : (s.upGen n f).merge k = s.merge k := rfl
@[simp] theorem State.upGen_cut (k : Nat) : (s.upGen n f).cut k = s.cut k := rfl
@[simp] theorem State.upGen_phase (k : Nat) : (s.upGen n f).phase k = s.phase k := rfl
@[simp] theorem State.upGen_tiu (k : Nat) : (s.upGen n f).tiu k = s.tiu k := rfl
@[simp] theorem State.upGen_refr (k : Nat) : (s.upGen n f).refr k = s.refr k := rfl
@[simp] theorem State.upGen_dpll (k : Nat) : (s.upGen n f).dpll k = s.dpll k := rfl
@[simp] theorem State.upGen_pll (k : Nat) : (s.upGen n f).pll k = s.pll k := rfl
@[simp] theorem State.upGen_outp (k : Nat) : (s.upGen n f).outp k = s.outp k := rfl
@[simp] theorem State.upGen_fence (k : Nat) : (s.upGen n f).fence k = s.fence k := rfl

end

theorem State.gen_upGen (s : State) (n k : Nat) (f : Gen → Gen) :
    (s.upGen n f).gen k = if k = n then f (s.gen n) else s.gen k := by
  simp [State.gen, State.upGen, Tab.getD_update]

@[simp] theorem State.gen_upGen_same (s : State) (n : Nat) (f : Gen → Gen) :
    (s.upGen n f).gen n = f (s.gen n) := by
  simp [State.gen_upGen]

theorem State.gen_upGen_other (s : State) {n k : Nat} (f : Gen → Gen) (h : k ≠ n) :
    (s.upGen n f).gen k = s.gen k := by
  simp [State.gen_upGen, h]

/-! ### `fences` updated at one index -/

section
variable (s : State) (n : Nat) (f : Fence → Fence)

@[simp] theorem State.upFence_regs : (s.upFence n f).regs = s.regs := rfl
@[simp] theorem State.upFence_latch : (s.upFence n f).latch = s.latch := rfl
@[simp] theorem State.upFence_boot : (s.upFence n f).boot = s.boot := rfl
@[simp] theorem State.upFence_flash : (s.upFence n f).flash = s.flash := rfl
@[simp] theorem State.upFence_fuses : (s.upFence n f).fuses = s.fuses := rfl
@[simp] theorem State.upFence_rings : (s.upFence n f).rings = s.rings := rfl
@[simp] theorem State.upFence_fns : (s.upFence n f).fns = s.fns := rfl
@[simp] theorem State.upFence_ports : (s.upFence n f).ports = s.ports := rfl
@[simp] theorem State.upFence_lanes : (s.upFence n f).lanes = s.lanes := rfl
@[simp] theorem State.upFence_tables : (s.upFence n f).tables = s.tables := rfl
@[simp] theorem State.upFence_epochs : (s.upFence n f).epochs = s.epochs := rfl
@[simp] theorem State.upFence_tiles : (s.upFence n f).tiles = s.tiles := rfl
@[simp] theorem State.upFence_fabric : (s.upFence n f).fabric = s.fabric := rfl
@[simp] theorem State.upFence_acct : (s.upFence n f).acct = s.acct := rfl
@[simp] theorem State.upFence_pinCfg : (s.upFence n f).pinCfg = s.pinCfg := rfl
@[simp] theorem State.upFence_pinRel : (s.upFence n f).pinRel = s.pinRel := rfl
@[simp] theorem State.upFence_pinMsg : (s.upFence n f).pinMsg = s.pinMsg := rfl
@[simp] theorem State.upFence_queues : (s.upFence n f).queues = s.queues := rfl
@[simp] theorem State.upFence_pgs : (s.upFence n f).pgs = s.pgs := rfl
@[simp] theorem State.upFence_flowRt : (s.upFence n f).flowRt = s.flowRt := rfl
@[simp] theorem State.upFence_merges : (s.upFence n f).merges = s.merges := rfl
@[simp] theorem State.upFence_cuts : (s.upFence n f).cuts = s.cuts := rfl
@[simp] theorem State.upFence_time : (s.upFence n f).time = s.time := rfl
@[simp] theorem State.upFence_phases : (s.upFence n f).phases = s.phases := rfl
@[simp] theorem State.upFence_tius : (s.upFence n f).tius = s.tius := rfl
@[simp] theorem State.upFence_refs : (s.upFence n f).refs = s.refs := rfl
@[simp] theorem State.upFence_dplls : (s.upFence n f).dplls = s.dplls := rfl
@[simp] theorem State.upFence_plls : (s.upFence n f).plls = s.plls := rfl
@[simp] theorem State.upFence_outs : (s.upFence n f).outs = s.outs := rfl
@[simp] theorem State.upFence_gens : (s.upFence n f).gens = s.gens := rfl
@[simp] theorem State.upFence_window : (s.upFence n f).window = s.window := rfl
@[simp] theorem State.upFence_fw : (s.upFence n f).fw = s.fw := rfl
@[simp] theorem State.upFence_quench : (s.upFence n f).quench = s.quench := rfl
@[simp] theorem State.upFence_pair : (s.upFence n f).pair = s.pair := rfl
@[simp] theorem State.upFence_temper : (s.upFence n f).temper = s.temper := rfl
@[simp] theorem State.upFence_pwr : (s.upFence n f).pwr = s.pwr := rfl
@[simp] theorem State.upFence_counters : (s.upFence n f).counters = s.counters := rfl
@[simp] theorem State.upFence_hmk : (s.upFence n f).hmk = s.hmk := rfl
@[simp] theorem State.upFence_jtag : (s.upFence n f).jtag = s.jtag := rfl
@[simp] theorem State.upFence_stalled : (s.upFence n f).stalled = s.stalled := rfl
@[simp] theorem State.upFence_free : (s.upFence n f).free = s.free := rfl
@[simp] theorem State.upFence_out : (s.upFence n f).out = s.out := rfl
@[simp] theorem State.upFence_pending : (s.upFence n f).pending = s.pending := rfl
@[simp] theorem State.upFence_getF (g : Fld) (j : Nat) : (s.upFence n f).getF g j = s.getF g j := rfl
@[simp] theorem State.upFence_isF (g : Fld) (j : Nat) : (s.upFence n f).isF g j = s.isF g j := rfl
@[simp] theorem State.upFence_ring (k : Nat) : (s.upFence n f).ring k = s.ring k := rfl
@[simp] theorem State.upFence_fn (k : Nat) : (s.upFence n f).fn k = s.fn k := rfl
@[simp] theorem State.upFence_port (k : Nat) : (s.upFence n f).port k = s.port k := rfl
@[simp] theorem State.upFence_lane (k : Nat) : (s.upFence n f).lane k = s.lane k := rfl
@[simp] theorem State.upFence_tile (k : Nat) : (s.upFence n f).tile k = s.tile k := rfl
@[simp] theorem State.upFence_queue (k : Nat) : (s.upFence n f).queue k = s.queue k := rfl
@[simp] theorem State.upFence_flow (k : Nat) : (s.upFence n f).flow k = s.flow k := rfl
@[simp] theorem State.upFence_merge (k : Nat) : (s.upFence n f).merge k = s.merge k := rfl
@[simp] theorem State.upFence_cut (k : Nat) : (s.upFence n f).cut k = s.cut k := rfl
@[simp] theorem State.upFence_phase (k : Nat) : (s.upFence n f).phase k = s.phase k := rfl
@[simp] theorem State.upFence_tiu (k : Nat) : (s.upFence n f).tiu k = s.tiu k := rfl
@[simp] theorem State.upFence_refr (k : Nat) : (s.upFence n f).refr k = s.refr k := rfl
@[simp] theorem State.upFence_dpll (k : Nat) : (s.upFence n f).dpll k = s.dpll k := rfl
@[simp] theorem State.upFence_pll (k : Nat) : (s.upFence n f).pll k = s.pll k := rfl
@[simp] theorem State.upFence_outp (k : Nat) : (s.upFence n f).outp k = s.outp k := rfl
@[simp] theorem State.upFence_gen (k : Nat) : (s.upFence n f).gen k = s.gen k := rfl

end

theorem State.fence_upFence (s : State) (n k : Nat) (f : Fence → Fence) :
    (s.upFence n f).fence k = if k = n then f (s.fence n) else s.fence k := by
  simp [State.fence, State.upFence, Tab.getD_update]

@[simp] theorem State.fence_upFence_same (s : State) (n : Nat) (f : Fence → Fence) :
    (s.upFence n f).fence n = f (s.fence n) := by
  simp [State.fence_upFence]

theorem State.fence_upFence_other (s : State) {n k : Nat} (f : Fence → Fence) (h : k ≠ n) :
    (s.upFence n f).fence k = s.fence k := by
  simp [State.fence_upFence, h]

/-! ### Counters and charges read back -/

theorem State.counter_setCounter_same (s : State) (g k v : Nat) : (s.setCounter g k v).counter g k = v := by
  simp [State.counter, State.setCounter, Tab.getD_setD]

theorem State.counter_setCounter_other (s : State) (g k v g' k' : Nat) (h : g' * 512 + k' ≠ g * 512 + k) :
    (s.setCounter g k v).counter g' k' = s.counter g' k' := by
  simp [State.counter, State.setCounter, Tab.getD_setD, h]

theorem State.acctOf_setAcct_same (s : State) (r p c n : Nat) : (s.setAcct r p c n).acctOf r p c = n := by
  simp [State.acctOf, State.setAcct, Tab.getD_setD]

theorem State.acctOf_setAcct_other (s : State) (r p c n r' p' c' : Nat) (h : acctKey r' p' c' ≠ acctKey r p c) :
    (s.setAcct r p c n).acctOf r' p' c' = s.acctOf r' p' c' := by
  simp [State.acctOf, State.setAcct, Tab.getD_setD, h]

end Sys2Proof.Machine
end

