-- ==== Sys2Proof/WellFormed.lean ====
section
/-!
DEFINITION. Which commands are well formed: every number names a thing the device has (R15, R16, R49, R55, R101, R348,
R361, R368, R383, R384, R385, R390, R421, R442, R504, R527).  `exec` answers on every command; the ranges say which
commands can arise.
-/

namespace Sys2Proof

/-- A requester path: the PF, VF 1–31, or the management port. -/
def Path.wf : Path → Bool
  | .vf k => decide (1 ≤ k ∧ k < 32)
  | _ => true

/-- A 32-bit access address on a path (R5, R48): BAR0 is 64 MiB, a VF window 64 KiB. -/
def addrWf (p : Path) (a : Nat) : Bool :=
  match p with
  | .vf _ => decide (a < 0x10000 ∧ a % 4 = 0)
  | _ => decide (a < 0x4000000 ∧ a % 4 = 0)

/-- A command descriptor: a ring that exists, DATA_LEN up to 64 KiB and the buffer's bytes when INDIRECT (R82). -/
def Cmd.wf (c : Cmd) : Bool :=
  decide (c.ring < 256) && decide (c.target < 65536) && decide (c.dataLen ≤ 65536) &&
  decide (c.data.length = if c.indirect then c.dataLen else 0)

/-- A front-panel port number. -/
def portWf (p : Nat) : Bool := decide (p < 256)

/-- A fault occurrence: a 9-bit ID and the fields of its record (R442, R448). -/
def FaultOcc.wf (o : FaultOcc) : Bool :=
  decide (o.id < 512) && decide (o.masterKind < 6) && decide (o.masterId < 4096) && decide (o.access < 8)

/-- A queue that exists (R225, R242). -/
def QueueRef.wf (q : QueueRef) : Bool :=
  (decide (q.port < 256) && decide (q.slot < 11)) || (decide (q.port < 258) && decide (q.slot < 8))

/-- The well-formed commands. -/
def Instr.wf : Instr → Bool
  | .registerWrite p a v => p.wf && addrWf p a && (v.high.isNone || decide (a % 8 = 0))
  | .registerLowerHalfRead p a => p.wf && addrWf p a.addr && (!a.wide || decide (a.addr % 8 = 0))
  | .unsupportedRequest p a _ _ => p.wf && decide (a < 0x4000000)
  | .tplPhStatRead p n => p.wf && portWf n
  | .accessStallTimeout _ p a => p.wf && addrWf p a
  | .powerOn st => decide (st < 8192)
  | .vdd1v8SafeHold => true
  | .railInWindow r => decide (r < 6)
  | .railSeqFail r => decide (r < 6)
  | .railSeqRetry => true
  | .selftestComplete t b f => decide (t < 256) && decide (b < 8) && decide (f < 128)
  | .hifReady => true
  | .boot => true
  | .fwRun l => decide (l.ucodeOk < 256)
  | .bootDoneTimeout => true
  | .deviceReset _ => true
  | .aonRailFail => true
  | .peRstNAssert => true
  | .peRstNDeassert => true
  | .pcieLinkLoss => true
  | .vfFunctionLevelReset k => decide (1 ≤ k ∧ k < 32)
  | .pfFunctionLevelReset => true
  | .ringEnable p n => p.wf && decide (n < 256)
  | .ringDisable p n => p.wf && decide (n < 256)
  | .ringStopped n => decide (n < 256)
  | .doorbellScan f => decide (f < 32)
  | .doorbellReadComplete f es => decide (f < 32) && es.all (fun e => decide (e.1 < 256) && decide (e.2.length = 8))
  | .descriptorFetch n ds => decide (n < 256) && ds.all (fun d => decide (d.length = 32))
  | .dmaReadError e => (match e.kind with
      | .scan f => decide (f < 32) | .descriptor n => decide (n < 256) | .data n => decide (n < 256))
  | .txFrameDataRead n _ => decide (n < 256)
  | .interruptTimer n => decide (n < 256)
  | .entryHoldDrain n => decide (n < 256)
  | .rxFrameWrite => true
  | .rxHoldExpiry n => decide (n < 256)
  | .nop c => c.wf
  | .tblWrite c => c.wf
  | .tblDelete c => c.wf
  | .tblBulk c => c.wf
  | .tblSync c => c.wf
  | .tblCommit c => c.wf
  | .tblCancel c => c.wf
  | .tblRead c => c.wf
  | .flowAdd c => c.wf
  | .flowModify c => c.wf
  | .flowDelete c => c.wf
  | .mergeSet c => c.wf
  | .cutGroupSet c => c.wf
  | .cutSelect c => c.wf
  | .ringPause c => c.wf
  | .ringResume c => c.wf
  | .cntRead c => c.wf
  | .cntClear c => c.wf
  | .pgSet c => c.wf
  | .pgForce c => c.wf
  | .vfGrant c => c.wf
  | .faultAck c => c.wf
  | .ptpPortCfg c => c.wf
  | .timeCfg c => c.wf
  | .timeAuth c => c.wf
  | .dpllCfg c => c.wf
  | .refCfg c => c.wf
  | .temperRun c => c.wf
  | .pairCfg c => c.wf
  | .pairSwitch c => c.wf
  | .fwStage c _ => c.wf
  | .fwActivate c => c.wf
  | .fwActivateFence => true
  | .fwActivateTimeout => true
  | .allowSet c _ => c.wf
  | .portEnable p n => p.wf && portWf n
  | .portDisable p n => p.wf && portWf n
  | .linkLoss n c _ _ _ _ _ => portWf n && decide (1 ≤ c ∧ c < 8)
  | .signalDetect n => portWf n
  | .cdrLock n l => portWf n && decide (l.lane < 8)
  | .trainingStart n => portWf n
  | .trainingComplete n => portWf n
  | .holdoffEntry n _ => portWf n
  | .holdoffExpiry n => portWf n
  | .fecDegradeWindow n _ => portWf n
  | .adaptGuardHit n l _ _ => portWf n && decide (l < 8)
  | .adaptResume n l => portWf n && decide (l < 8)
  | .recapture p n _ => p.wf && portWf n
  | .txLpiEnter n => portWf n
  | .rxLpiEnter n => portWf n
  | .frameReceive f => portWf f.port && decide (f.phase < 64)
  | .flowControlFrameReceive n _ => portWf n
  | .pauseTimeExpiry n c => portWf n && decide (c < 8)
  | .pfcRefresh n => portWf n
  | .pauseWatchdog n c => portWf n && decide (c < 8)
  | .pauseRecoverEnd n c => portWf n && decide (c < 8)
  | .lookup t => decide (t < 8)
  | .cellClose t x => decide (t < 8) && decide (x < 18)
  | .fabricSlot e => decide (e.first < 256 ∧ e.second < 256 ∧ e.corrected < 256)
  | .cellLand m _ => decide (m < 8)
  | .visitReceive t _ => decide (t < 8)
  | .reseqTimeout i j _ => decide (i < 8) && decide (j < 8)
  | .schedulerPick n k _ => portWf n && decide (k < 64)
  | .launchDue n q k _ => portWf n && decide (q < 2) && decide (k < 64)
  | .ageCheck q => q.wf
  | .epochDrained => true
  | .pgWtrExpiry g => decide (g < 128)
  | .cutSweep => true
  | .mergeIdleExpiry g => decide (g < 8192)
  | .tickEdge g => decide (g < 16)
  | .commitCycle => true
  | .budgetEnd => true
  | .merDone m => decide (m < 65536)
  | .rateGo p g => p.wf && decide (g < 16)
  | .generatorEnable p g => p.wf && decide (g < 16)
  | .servoUpdate b => decide (b < 256)
  | .offsetMeasurement _ => true
  | .incNsWrite p _ => p.wf
  | .tplTbAdjWrite p _ => p.wf
  | .stepGo p => p.wf
  | .capture p => p.wf
  | .phaseBeat n a b _ => portWf n && decide (a.count < 16384) && decide (b.count < 16384) &&
    (a.runs ++ b.runs).all (fun e => decide (e.1 < 16384))
  | .phaseWindowEnd n _ => portWf n
  | .alignmentLoss n => portWf n
  | .phEnSet p n => p.wf && portWf n
  | .phEnClear p n => p.wf && portWf n
  | .go p c => p.wf && decide (c < 16)
  | .abort p c => p.wf && decide (c < 16)
  | .tiuEdge c _ _ e => decide (c < 16) && decide (e.bin < 64) && decide (e.sub < 64)
  | .tiuTimeout c => decide (c < 16)
  | .dpllLoopUpdate k _ => decide (k < 4)
  | .dpllLockTime k => decide (k < 4)
  | .dpllWtrExpiry k => decide (k < 4)
  | .holdoverLimitExpiry k => decide (k < 4)
  | .refActivityLoss i => decide (i < 26)
  | .refFastFrequencyFail i => decide (i < 26)
  | .refGateEnd i _ => decide (i < 26)
  | .qualMsExpiry i => decide (i < 26)
  | .ref25AgeOut => true
  | .pllLock j => decide (j < 7)
  | .pllLossOfLock j => decide (j < 7)
  | .divGo p => p.wf
  | .syncArm p => p.wf
  | .syncinEdge _ => true
  | .fenceRequest _ d => decide (d < 12)
  | .fenceComplete d => decide (d < 12)
  | .domainReset p d => p.wf && decide (d < 12)
  | .domainResetEnd d => decide (d < 12)
  | .fenceRelease _ d => decide (d < 12)
  | .unfenceComplete d => decide (d < 12)
  | .ucodeLoadComplete t _ => decide (t < 8)
  | .faultPresent l => l.all (fun o => o.wf)
  | .faultClear i => decide (i < 512)
  | .quenchSideCompare _ => true
  | .qchAssure e => decide (e < 16777216)
  | .timeBound _ => true
  | .lock p => p.wf
  | .clkoutMonitor n _ _ => decide (n < 8)
  | .guardScrub l => l.all portWf
  | .heartbeatSend u => decide (u < 64)
  | .heartbeatReceive l _ _ => decide (l < 2)
  | .heartbeatLoss l _ => decide (l < 4)
  | .peerActLow => true
  | .snapshotReceive _ => true
  | .pairControlMessage g c _ => decide (g < 4096) && decide (c < 5)
  | .pairReturn => true
  | .joinTimeout => true
  | .temperRetry u => decide (u < 9)
  | .pathStep t _ => decide (t < 8)
  | .traceRunEnd _ => true
  | .temperOverdue u => decide (u < 9)
  | .railPoll l => decide (l.length = 6)
  | .avsPeriod l => decide (l.length ≤ 24)
  | .marginEmergency _ => true
  | .tileGateSet p t => p.wf && decide (t < 8)
  | .tileGateClear p t => p.wf && decide (t < 8)
  | .laneGate t l => decide (t < 8) && decide (l < 32)
  | .sensorRead l => decide (l.length = 64)
  | .agingMeasure _ _ => true
  | .hourTick => true
  | .perfCounterWrap n _ => decide (n < 312)
  | .hmkPcCfgWrite p n _ => p.wf && decide (n < 312)
  | .hmkFrameSend => true
  | .idcode => true
  | .sample _ => true
  | .bypass => true
  | .extest => true
  | .preload _ => true
  | .clamp => true
  | .highz => true
  | .extestPulse => true
  | .extestTrain => true
  | .pcieLinkUp => true
  | .controlFrameSend f => (match f with
      | .lookup t _ => decide (t < 8) | .direct p c _ _ _ _ _ => decide (p ≤ 256) && decide (c < 8)
      | .training p _ => portWf p)
  | .controlComplexDelivery => true
  | .rxLpiExit n => portWf n
  | .txLpiWake n => portWf n
  | .adaptFreeze n l => portWf n && decide (l < 8)
  | .dumpWrite => true
  | .traceRingWrite => true
  | .slewEnd => true

end Sys2Proof
end

