-- ==== Sys2Proof/Tests/Slice0.lean ====
section
/-!
SUPPORT. Tests: for every check of WellFormed a term that it refuses, and for every obligation with hypotheses states and
operands that meet them, beside what the block then answers.  The expected values are the spec's (the rules that the
obligations cite) or computed by hand from them.
-/

namespace Sys2Proof.Tests

set_option maxRecDepth 4000
set_option Elab.async false

open Sys2Proof.Machine

/-! ### States and commands to test with -/

/-- The next state that a command answers. -/
def run (i : Instr) (s : State) : State := match exec i s with | .next t => t | _ => s

/-- What a command sends. -/
def sent (i : Instr) (s : State) : List Out := (run i s).out.drop s.out.length

/-- STATUS, RESULT0 and REASON of the first completion that a command writes. -/
def answer (i : Instr) (s : State) : Option (Nat × Nat × Nat) :=
  (sent i s).findSome? (fun o => match o with
    | .completion _ _ b =>
      let w := toWords 4 b
      some (dw w 3 / 16777216 % 128, dw w 1, dw w 3 % 65536)
    | _ => none)

/-- A device in service: supplies up, the link up, firmware running, the timebases running, BOOT_HOLD over. -/
def live : State :=
  ({ boot := { aonUp := true, safeHeld := false, coreUp := true, linkUp := true, peRst := false },
     fw := { running := true, phase := 3 }, time := { running := true },
     quench := { faults := [] } } : State).setF GLB_BOOT_STAT.HIF_READY 1

/-- The words of a command's descriptor (R82). -/
def cmdWords (op : Nat) (c : Cmd) : List Word :=
  [BitVec.ofNat 32 (op + 256 * flag c.lateOk + 512 * flag c.indirect + 65536 * c.target), c.cookie,
   c.a0, c.a1, c.a2, c.a3, c.a4, c.a5]

/-- `s` with `c` at the front of its COMMAND ring. -/
def posted (s : State) (op : Nat) (c : Cmd) : State :=
  ((s.setF HIF_RING_STAT.STATE 1 c.ring).setF HIF_RING_CFG.TYPE 2 c.ring).upRing c.ring (fun r =>
    { r with prod := 1, fetch := 1, fetched := [{ idx := 0, words := cmdWords op c }] })

/-- Port `p` in state `st`, enabled. -/
def portAt (s : State) (p st : Nat) : State := (s.setF TIL_PORT_CFG.ENABLE 1 p).setF TIL_PORT_STAT.STATE st p

/-- Ring `n` running, of type `t`, with buffers `l` fetched. -/
def ringOf (s : State) (n t : Nat) (l : List Desc) : State :=
  ((s.setF HIF_RING_STAT.STATE 1 n).setF HIF_RING_CFG.TYPE t n).upRing n (fun r =>
    { r with prod := l.length, fetch := l.length, fetched := l })

/-- A buffer descriptor of `len` bytes with cookie `k` (R81). -/
def buf (i len k : Nat) : Desc := { idx := i, words := [4096, 0, BitVec.ofNat 32 len, 0, 0, 0, BitVec.ofNat 32 k, 0] }

/-! ### Well-formedness -/

theorem test_wellFormed_commands :
    (Instr.nop { ring := 256 }).wf = false ∧ (Instr.nop { ring := 0, target := 65536 }).wf = false ∧
    (Instr.nop { ring := 0, dataLen := 65537 }).wf = false ∧
    (Instr.nop { ring := 0, indirect := true, a2 := 4, dataLen := 4 }).wf = false ∧ (Instr.nop { ring := 255 }).wf = true := by
  decide

theorem test_wellFormed_access :
    (Instr.registerWrite .pf 2 ⟨0, none⟩).wf = false ∧ (Instr.registerWrite .pf 0x4000000 ⟨0, none⟩).wf = false ∧
    (Instr.registerWrite (.vf 1) 0x10000 ⟨0, none⟩).wf = false ∧ (Instr.registerWrite (.vf 32) 0 ⟨0, none⟩).wf = false ∧
    (Instr.registerWrite (.vf 0) 0 ⟨0, none⟩).wf = false ∧ (Instr.registerLowerHalfRead .mgmt ⟨1, false⟩).wf = false ∧
    (Instr.unsupportedRequest .pf 0x4000000 4 true).wf = false ∧ (Instr.tplPhStatRead .pf 256).wf = false ∧
    (Instr.accessStallTimeout .firmware .pf 3).wf = false ∧ (Instr.registerWrite (.vf 31) 0xFFFC ⟨0, none⟩).wf = true := by
  decide +kernel

theorem test_wellFormed_startUp :
    (Instr.powerOn 8192).wf = false ∧ (Instr.railInWindow 6).wf = false ∧ (Instr.railSeqFail 6).wf = false ∧
    (Instr.selftestComplete 256 0 0).wf = false ∧ (Instr.selftestComplete 0 8 0).wf = false ∧
    (Instr.selftestComplete 0 0 128).wf = false ∧ (Instr.fwRun { ucodeOk := 256 }).wf = false ∧
    (Instr.vfFunctionLevelReset 0).wf = false ∧ (Instr.vfFunctionLevelReset 32).wf = false := by decide +kernel

theorem test_wellFormed_rings :
    (Instr.ringEnable .pf 256).wf = false ∧ (Instr.ringDisable (.vf 40) 0).wf = false ∧
    (Instr.ringStopped 256).wf = false ∧ (Instr.doorbellScan 32).wf = false ∧
    (Instr.doorbellReadComplete 0 [(256, [])]).wf = false ∧ (Instr.doorbellReadComplete 32 []).wf = false ∧
    (Instr.descriptorFetch 0 [[0]]).wf = false ∧ (Instr.descriptorFetch 256 []).wf = false ∧
    (Instr.dmaReadError { kind := (.scan 32) }).wf = false ∧ (Instr.dmaReadError { kind := (.descriptor 256) }).wf = false ∧
    (Instr.dmaReadError { kind := (.data 256) }).wf = false ∧ (Instr.txFrameDataRead 256 []).wf = false ∧
    (Instr.interruptTimer 256).wf = false ∧ (Instr.entryHoldDrain 256).wf = false ∧ (Instr.rxHoldExpiry 256).wf = false ∧
    (Instr.controlFrameSend (.lookup 8 [])).wf = false ∧
    (Instr.controlFrameSend (.direct 257 0 none false false 0 [])).wf = false := by
  decide +kernel

theorem test_wellFormed_ports :
    (Instr.portEnable .pf 256).wf = false ∧ (Instr.linkLoss 0 0 0 0 { mask := 0 } false false).wf = false ∧
    (Instr.linkLoss 0 8 0 0 { mask := 0 } false false).wf = false ∧ (Instr.cdrLock 0 { lane := 8 }).wf = false ∧
    (Instr.adaptGuardHit 0 8 0 0).wf = false ∧ (Instr.frameReceive { port := 256, bytes := [] }).wf = false ∧
    (Instr.frameReceive { port := 0, bytes := [], phase := 64 }).wf = false ∧ (Instr.pauseTimeExpiry 0 8).wf = false ∧
    (Instr.signalDetect 256).wf = false ∧ (Instr.adaptFreeze 0 8).wf = false ∧ (Instr.recapture .pf 256 []).wf = false := by
  decide +kernel

theorem test_wellFormed_forwarding :
    (Instr.lookup 8).wf = false ∧ (Instr.cellClose 0 18).wf = false ∧ (Instr.fabricSlot { first := 256 }).wf = false ∧
    (Instr.cellLand 8 true).wf = false ∧ (Instr.visitReceive 8 []).wf = false ∧ (Instr.reseqTimeout 0 8 true).wf = false ∧
    (Instr.schedulerPick 0 64 0).wf = false ∧ (Instr.launchDue 0 2 0 0).wf = false ∧ (Instr.ageCheck ⟨256, 8⟩).wf = false ∧
    (Instr.ageCheck ⟨0, 11⟩).wf = false ∧ (Instr.ageCheck ⟨258, 0⟩).wf = false ∧ (Instr.pgWtrExpiry 128).wf = false ∧
    (Instr.mergeIdleExpiry 8192).wf = false ∧ (Instr.ageCheck ⟨255, 10⟩).wf = true := by decide +kernel

theorem test_wellFormed_timing :
    (Instr.tickEdge 16).wf = false ∧ (Instr.merDone 65536).wf = false ∧ (Instr.rateGo .pf 16).wf = false ∧
    (Instr.servoUpdate 256).wf = false ∧ (Instr.phaseBeat 0 { count := 16384 } { count := 0 } 0).wf = false ∧ (Instr.go .pf 16).wf = false ∧
    (Instr.tiuEdge 0 true 0 { bin := 64 }).wf = false ∧ (Instr.dpllLockTime 4).wf = false ∧ (Instr.refGateEnd 26 0).wf = false ∧
    (Instr.pllLock 7).wf = false ∧ (Instr.temperRetry 9).wf = false ∧ (Instr.pathStep 8 0).wf = false ∧
    (Instr.incNsWrite (.vf 0) 0).wf = false := by decide +kernel

theorem test_wellFormed_safety :
    (Instr.fenceRequest .pf 12).wf = false ∧ (Instr.faultClear 512).wf = false ∧
    (Instr.faultPresent [{ id := 512 }]).wf = false ∧ (Instr.faultPresent [{ id := 0, masterKind := 6 }]).wf = false ∧
    (Instr.faultPresent [{ id := 0, masterId := 4096 }]).wf = false ∧
    (Instr.faultPresent [{ id := 0, access := 8 }]).wf = false ∧ (Instr.qchAssure 16777216).wf = false ∧
    (Instr.clkoutMonitor 8 0 false).wf = false ∧ (Instr.guardScrub [256]).wf = false ∧
    (Instr.ucodeLoadComplete 8 true).wf = false ∧ (Instr.heartbeatSend 64).wf = false ∧
    (Instr.pairControlMessage 4096 0 { frameCount := 0 }).wf = false := by decide +kernel

theorem test_wellFormed_power :
    (Instr.railPoll []).wf = false ∧ (Instr.avsPeriod (List.replicate 25 50)).wf = false ∧
    (Instr.tileGateSet .pf 8).wf = false ∧ (Instr.laneGate 0 32).wf = false ∧ (Instr.sensorRead []).wf = false ∧
    (Instr.perfCounterWrap 312 0).wf = false ∧ (Instr.hmkPcCfgWrite .pf 312 0).wf = false := by decide +kernel

/-! ### The queue, the frame, the invariant -/

theorem test_step_takesTheFront :
    step { live with pending := [.bypass, .idcode] } = exec .bypass { live with pending := [.idcode] } := rfl

theorem test_idle_edge : ({ State.reset with time := { running := true } } : State).pending = [] ∧
    ∃ t, step { State.reset with time := { running := true } } = .next t ∧ t.time.tclk = 1 ∧
      t.time.a = 4 * 4294967296 * 1000000000 := ⟨rfl, _, rfl, by decide +kernel⟩

theorem test_live_invariant : live.Inv :=
  ⟨by decide +kernel, by decide +kernel, (by intro e h; cases h), by decide +kernel, by decide +kernel, by decide +kernel⟩

theorem test_live_steps : ∃ t, step { live with pending := [.portEnable .pf 3] } = .next t ∧ t.portState 3 = 1 :=
  ⟨_, rfl, by decide +kernel⟩

/-! ### Register access (O9–O12) -/

/-- HMK_HIST (R10): its fields are W1C, so writing 0b0101 to 0b0111 leaves 0b0010; MAXLEN is RW. -/
theorem test_registerWrite_takesAccessCodes :
    (let s := ((live.setF HMK_HIST.LOSS_SEEN 1).setF HMK_HIST.PERF_WRAP_SEEN 1).setF HMK_HIST.STAT_SAT 1
     live.pathUp .pf = true ∧ live.stoppedAt 0x3E00010 = false ∧ live.writeMay .pf 0x3E00010 = true ∧
     (live.locate .pf 0x3E00010).any (fun x => x.1.all (fun y => !writeActs.contains y.fld.id)) = true ∧
     (run (.registerWrite .pf 0x3E00010 ⟨5, none⟩) s).getF HMK_HIST.LOSS_SEEN = 0 ∧
     (run (.registerWrite .pf 0x3E00010 ⟨5, none⟩) s).getF HMK_HIST.PERF_WRAP_SEEN = 1 ∧
     (run (.registerWrite .pf 0x3E00010 ⟨5, none⟩) s).getF HMK_HIST.STAT_SAT = 0) ∧
    (run (.registerWrite .pf 0x1010044 ⟨1600, none⟩) live).getF TIL_PORT_MAXLEN.MAXLEN 1 = 1600 := by decide

/-- An address where no register lies (R7), and the management port without I2C_WR (R554): nothing changes. -/
theorem test_registerWrite_elsewhere :
    live.locate .pf 0x3FFFFFC = none ∧ run (.registerWrite .pf 0x3FFFFFC ⟨1, none⟩) live = live ∧
    live.pathUp .mgmt = true ∧ live.writeMay .mgmt 0x1010044 = false ∧
    (run (.registerWrite .mgmt 0x1010044 ⟨1600, none⟩) live).getF TIL_PORT_MAXLEN.MAXLEN 1 =
      live.getF TIL_PORT_MAXLEN.MAXLEN 1 := by decide

theorem test_registerWrite_acts :
    live.pcieUp = true ∧
    (run (.registerWrite .pf (0x3060008 + 0x20 * 5) ⟨9, none⟩) live).isF TPL_PLL_STAT.PENDING 5 = true ∧
    (run (.registerWrite .pf (0x3070004 + 0x20 * 7) ⟨10, none⟩) live).getF TPL_OUT_DIV.D 7 = 10 ∧
    (run (.registerWrite .pf (0x3070008 + 0x20 * 7) ⟨3, none⟩) live).isF TPL_OUT_STAT.PENDING 7 = true ∧
    (let s := (live.setF HIF_MSIX_CTRL.MASK 1 255).upFn 0 (fun x => { x with pba := 1 <<< 255 })
     bit (s.fn 0).pba 255 = true ∧ Out.msix 0 255 ∈ sent (.registerWrite .pf (0x10800C + 0x10 * 255) ⟨0, none⟩) s ∧
     ((run (.registerWrite .pf (0x10800C + 0x10 * 255) ⟨0, none⟩) s).fn 0).pba = 0) ∧
    (run (.registerWrite .pf (0x3400000 + 0x20 * 15) ⟨0, none⟩) (live.setF MER_GEN_CFG.EN 1 15)).getF MER_GEN_CFG.EN 15 = 0 := by
  decide

/-- GLB_FENCE_HIST is no lower half; the lower half of a timebase's reading latches the upper (R6). -/
theorem test_lowerHalf_latches :
    live.pathUp (.vf 1) = true ∧ live.pathUp .pf = true ∧ isLower 0x5010 = false ∧
    Tab.get? live.latch (latchKey .pf 0x5010) = none ∧
    Out.readData .pf 0x5010 8 ∈ sent (.registerLowerHalfRead .pf ⟨0x5010, false⟩) (live.setF GLB_FENCE_HIST.STALL_TO 1) ∧
    isLower 0x3400010 = true ∧ (run (.registerLowerHalfRead .pf ⟨0x3400010, false⟩) live).latch.length = 1 ∧
    live.portUnused 0 = false ∧
    (run (.tplPhStatRead .pf 0) live).latch.length = 3 := by decide

theorem test_wide_accesses :
    accessOk .pf 0x108000 8 true = true ∧ live.stoppedAt 0x108000 = false ∧
    (run (.registerWrite .pf 0x108000 ⟨0x1000, some 7⟩) live).getF HIF_MSIX_ADDR_HI.ADDR 0 = 7 ∧
    accessOk .pf 0x108000 8 false = true ∧
    live.waits { path := .pf, addr := 0x108000, op := .read true } = false ∧
    (sent (.registerLowerHalfRead .pf ⟨0x108000, true⟩) live).length = 2 := by decide +kernel

/-- Ring 255 of VF 1, running: VECTOR 8 lies outside the VF's table (R62). -/
theorem test_registerWrite_vector :
    (let s := (((live.setF HIF_RING_CFG.ENABLE 1 255).setF HIF_RING_STAT.STATE 1 255).setF HIF_RING_CFG.FUNC 1 255)
     s.ringState 255 = 1 ∧ s.ringFn 255 ≠ 0 ∧ s.isF HIF_RING_CFG.ENABLE 255 = true ∧ bits 0x20000 14 8 = 8 ∧
     (run (.registerWrite .pf (0x101000 + 0x20 * 255 + 0x10) ⟨0x20000, none⟩) s).ringState 255 = 3) := by decide

/-- A correction entry and XON_GAP (R213, R328). -/
theorem test_registerWrite_correction :
    live.locate .pf 0x3010000 = some ([⟨TPL_STC_TX.TX_CORR, 0, .rw, false⟩], 0) ∧ live.stoppedAt 0x3010000 = false ∧
    live.locate .pf 0x3010004 = some ([⟨TPL_STC_RX.RX_CORR, 0, .rw, false⟩], 0) ∧
    (run (.registerWrite .pf 0x3010000 ⟨5, none⟩) live).getF TPL_STC_TX.TX_CORR = 5 ∧
    (run (.registerWrite .pf 0x3010000 ⟨5, none⟩) live).txCorr 0 = 0 ∧
    live.locate .pf 0x1020010 = some ([⟨TIL_BUF_XON.XON_GAP, 0, .rw, false⟩], 0) ∧
    (run (.registerWrite .pf 0x1020010 ⟨9, none⟩) live).getF TIL_BUF_XON.XON_GAP = 9 := by decide

theorem test_unsupported_and_stalled :
    accessOk .pf 2 4 true = false ∧
    sent (.unsupportedRequest .pf 2 4 true) live = [.unsupported .pf 2, .aer 0 .unsupportedRequest] ∧
    accessOk .mgmt 2 4 false = false ∧ sent (.unsupportedRequest .mgmt 2 4 false) live = [.readData .mgmt 2 0xFFFFFFFF] ∧
    live.pathUp .mgmt = true ∧ run (.unsupportedRequest .mgmt 2 4 true) live = live ∧
    (run (.accessStallTimeout .firmware .pf 0x100) live).getF GLB_STALL_ADDR.ADDR = 0x100 ∧
    (run (.accessStallTimeout .bar0Read .pf 0x100) live).isF GLB_FENCE_HIST.STALL_TO = true ∧ live.stalled = [] ∧
    (let s := { live with time := {} }
     s.pathUp .pf = true ∧ s.stoppedAt 0x3000000 = true ∧
     (run (.registerWrite .pf 0x3000000 ⟨1, none⟩) s).stalled.length = 1 ∧
     (run (.accessStallTimeout .bar0Write .pf 0x3000000) (run (.registerWrite .pf 0x3000000 ⟨1, none⟩) s)).stalled = []) := by decide
/-! ### Start-up (O13–O18) -/

/-- R505, R506: the rails come up in order, and a failed sequence is tried three times. -/
theorem test_railSequence :
    State.reset.boot.aonUp = false ∧ (run (.powerOn 0x201) State.reset).getF GLB_STRAP.STRAPS = 0x201 ∧
    (run (.powerOn 0) State.reset).getF GLB_BOOT_STAT.STAGE = 2 ∧
    (let s := { run (.powerOn 0) State.reset with boot := { aonUp := true, railsOn := 6 } }
     s.sequencing = true ∧
     (run (.railInWindow 5) s).boot.coreUp = true ∧ (run (.railSeqFail 4) s).boot.failures = 1 ∧
     (run (.railSeqFail 4) s).boot.waiting = true) ∧
    (run (.railInWindow 0) (run (.powerOn 0) State.reset)).boot.railsOn = 2 ∧
    (let w := { run (.powerOn 0) State.reset with boot := { aonUp := true, waiting := true, failures := 2, failRail := 5 } }
     (run .railSeqRetry w).getF PWR_SEQ_STAT.ATTEMPT = 2 ∧ (run .railSeqRetry w).boot.railsOn = 1) ∧
    (let w := { run (.powerOn 0) State.reset with boot := { aonUp := true, waiting := true, failures := 3, failRail := 5 } }
     (run .railSeqRetry w).isF PWR_SEQ_STAT.SEQ_FAIL = true ∧ (run .railSeqRetry w).getF PWR_SEQ_STAT.FAIL_RAIL = 5) := by
  decide

theorem test_selftest :
    (let s := live.setF GLB_BOOT_STAT.STAGE 3
     let t := run (.selftestComplete 0x80 4 0) s
     s.stage = 3 ∧ t.getF GLB_BOOT_STAT.BIST_FAIL = 0x80 ∧ (t.fence 7).st = 2 ∧ bit (t.getF PWR_GATE.TILE_GATE) 7 = true ∧
     (t.fence 11).st = 2 ∧ (t.fence 11).bist = true ∧ (t.fence 6).st = 0 ∧ t.getF GLB_BOOT_STAT.STAGE = 4 ∧
     (run (.selftestComplete 0 0 127) s).getF GLB_BOOT_STAT.STAGE = 7 ∧
     (run (.selftestComplete 0 0 127) s).getF GLB_BOOT_FAIL.FATAL_BLOCK = 127) ∧
    bit (live.getF GLB_BOOT_FAIL.FATAL_BLOCK) 2 = false ∧ (run .hifReady live).isF GLB_BOOT_STAT.HIF_READY = true := by
  decide

/-- A device at FW_LOAD whose slot A holds an image that passes. -/
def loading : State :=
  { live with fw := {}, flash := { rec0 := { valid := true, seq := 1, slot := 0 }, slotA := some {}, slotB := some {} },
              quench := State.reset.quench }.setF GLB_BOOT_STAT.STAGE 4

theorem test_boot :
    loading.stage = 4 ∧ loading.bootSlots.find? (fun y => loading.slotBoots y) = some 0 ∧
    (run .boot loading).getF GLB_BOOT_STAT.STAGE = 5 ∧ (run .boot loading).isF GLB_BOOT_STAT.FALLBACK = false ∧
    ((run .boot loading).faultSt 0).latched = false ∧
    (let s := { loading with flash := { loading.flash with slotA := none, slotB := some { keyOk := false } } }
     s.bootSlots.find? (fun y => s.slotBoots y) = none ∧ (run .boot s).getF GLB_BOOT_STAT.FAIL_REASON = 3 ∧
     (run .boot s).boot.spiReleased = true) ∧
    (let s := { loading with flash := { loading.flash with slotA := none } }
     s.bootSlots.find? (fun y => s.slotBoots y) = some 1 ∧ (run .boot s).isF GLB_BOOT_STAT.FALLBACK = true) := by decide

theorem test_bootTimeout :
    (let s := run .boot loading
     s.stage = 5 ∧ s.fw.phase ≠ 0 ∧ s.fw.activate = none ∧ (s.fence 8).st = 0 ∧ s.boot.retried = false ∧
     (run .bootDoneTimeout s).getF GLB_BOOT_STAT.STAGE = 4 ∧ (run .bootDoneTimeout s).boot.retry = some 1) ∧
    (let s := { run .boot loading with boot := { loading.boot with retried := true } }
     (run .bootDoneTimeout s).getF GLB_BOOT_STAT.STAGE = 7 ∧ (run .bootDoneTimeout s).getF GLB_BOOT_STAT.FAIL_REASON = 4) := by
  decide

theorem test_firmwareStart :
    (let s := run .boot loading
     s.fw.phase = 1 ∧ (s.fence 8).st = 0 ∧ s.isF QCH_LOCK.LOCK = false ∧ s.flash.bcr = none ∧
     bit (s.getF PWR_GATE_STAT.TILE_GATED) 7 = false) := by decide

/-- The boot ROM under FW_ACTIVATE's fence, and after a reset of the control complex (R430, R558). -/
theorem test_boot_again :
    (let s := { loading with fw := { activate := some { cmd := { ring := 0 }, slot := 1, prev := 0, fenced := true } } }
     s.slotBoots 1 = true ∧ (run .boot s).getF GLB_BOOT_STAT.SLOT = 1 ∧ (run .boot s).fw.activate.any (fun x => x.booted)) ∧
    (let s := loading.setF GLB_BOOT_STAT.STAGE 6
     s.fw.phase = 0 ∧ (s.fence 8).rst = false ∧ s.slotBoots s.runningSlot = true ∧ (run .boot s).fw.phase = 1) ∧
    (loading.faultSt 0).present = true ∧ loading.boot.retried = false ∧ loading.slotImage 0 = some {} ∧
    (run (.selftestComplete 0 0 0) ((live.setF GLB_BOOT_STAT.STAGE 3).setF GLB_STRAP.STRAPS 1)).getF GLB_BOOT_STAT.TEST_MODE = 1 := by
  decide

/-- FW_RUN with the configuration locked already, under FW_ACTIVATE's fence, and with a configuration record (R430, R561). -/
theorem test_firmwareRuns :
    (let s := (run .boot loading).setF QCH_LOCK.LOCK 1
     s.isF QCH_LOCK.LOCK = true ∧ s.fw.phase = 1 ∧ (s.fence 8).st = 0) ∧
    (let s := (run .boot loading).upFence 8 (fun x => { x with st := 2, by_ := .fwActivate })
     s.isF GLB_BOOT_STAT.FALLBACK = false ∧ s.fw.phase = 1 ∧ (s.fence 8).by_ = .fwActivate ∧ (s.liftFence.fence 8).st = 0) ∧
    (let s := run .boot { loading with flash := { loading.flash with bcr := some { cfg := 0x20003, sev := [] } } }
     s.fw.phase = 1 ∧ s.isF QCH_LOCK.LOCK = false ∧ (s.applyBcr).getF QCH_CFG.TIME_BOUND_NS = 3 ∧
     (s.applyBcr).getF QCH_CFG.HO_RATE_PPB = 2) := by decide +kernel

theorem test_deviceReset :
    (run (.deviceReset 10000) live).boot.aonUp = false ∧ run (.deviceReset 999) live = live ∧
    (run (.deviceReset 10000) live).flash = live.flash ∧ (run .aonRailFail live).boot.safeHeld = false := by decide

/-- A command of firmware's with firmware there. -/
def staging : Cmd := { ring := 255, cookie := 9, indirect := true, a2 := 64, dataLen := 64, data := List.replicate 64 0, a3 := 12582848 }

theorem test_firmwareUpdate :
    (posted live 0xB0 staging).commandReady 0xB0 staging = true ∧ (posted live 0xB0 staging).issuer staging = 0 ∧
    staging.a3.toNat + staging.dataLen = 12582912 ∧
    answer (.fwStage staging {}) (posted live 0xB0 staging) = some (0, 64, 0) ∧
    (run (.fwStage staging {}) (posted live 0xB0 staging)).flash.slotB = some {} ∧
    (let c : Cmd := { ring := 0, a2 := 1 }
     let s := posted { live with flash := { live.flash with slotA := some {}, slotB := some {} } } 0xB1 c
     let a := run (.fwActivate c) s
     s.runningSlot = 0 ∧ signatureOk (s.slotImage 1) = true ∧ a.fw.activate.isSome = true ∧ a.slotBoots 1 = true ∧
     a.fw.activate.any (fun x => !x.booted && !x.fenced && x.cmd == c) = true ∧ a.fw.running = true ∧
     (let b : State := { a with fw := { a.fw with activate := some { cmd := c, slot := 1, prev := 0, booted := true } } }
      b.slotBoots 0 = true)) := by decide

/-! ### Host interface (O19–O24) -/

/-- Ring `n` with ENABLE 1 and a size of 64, running. -/
def ring64 (s : State) (n t : Nat) : State :=
  ((ringOf s n t []).setF HIF_RING_CFG.ENABLE 1 n).setF HIF_RING_CFG.SIZE_LOG2 6 n

theorem test_rings :
    (let s := live.setF HIF_RING_CFG.SIZE_LOG2 6 255
     s.ringMay .pf 255 = true ∧ s.isF HIF_RING_CFG.ENABLE 255 = false ∧ s.ringCfgOk 255 = true ∧
     (run (.ringEnable .pf 255) s).ringState 255 = 1 ∧ (run (.ringEnable .pf 255) s).ring 255 = { era := 1 } ∧
     (s.setF HIF_RING_CFG.TYPE 7 255).ringCfgOk 255 = false ∧
     (run (.ringEnable .pf 255) (s.setF HIF_RING_CFG.TYPE 7 255)).getF HIF_RING_STAT.REASON 255 = 1) ∧
    (let s := ring64 live 0 3
     s.isF HIF_RING_CFG.ENABLE = true ∧ (run (.ringDisable .pf 0) s).ringState 0 = 2 ∧
     (run (.ringDisable .pf 0) s).isF HIF_RING_CFG.ENABLE = false ∧
     (run (.ringStopped 0) (run (.ringDisable .pf 0) s)).ringState 0 = 0) ∧
    (let s := (ring64 live 0 0).setF HIF_RING_STAT.STATE 2 0
     s.descRing 0 = true ∧ (s.ring 0).cons = (s.ring 0).fetch ∧ (run (.ringStopped 0) s).ringState 0 = 0) := by decide

theorem test_doorbellScan :
    (let s := ring64 live 8 0
     s.enabledRings 0 ≠ [] ∧ Out.scanRead 0 [1] ∈ sent (.doorbellScan 0) s ∧
     ((run (.doorbellScan 0) s).fn 0).scanning = true ∧
     (run (.doorbellScan 0) (run (.doorbellScan 0) s)).getF HIF_SCAN_SKIP.COUNT = 1 ∧
     ((run (.dmaReadError { kind := (.scan 0) }) (run (.doorbellScan 0) s)).fn 0).scanning = false) := by decide

/-- A ring of 64 takes an index 64 ahead of its consumer index, and 65 ahead is an error (R57, R58). -/
theorem test_doorbells :
    (let s := (ring64 live 8 0).upFn 0 (fun x => { x with scanning := true })
     s.ringState 8 = 1 ∧ s.ringFn 8 = 0 ∧ s.descRing 8 = true ∧ s.getF HIF_RING_GEN.GEN 8 = 0 ∧
     ((run (.doorbellReadComplete 0 [(8, hostBytes [64, 0])]) s).ring 8).prod = 64 ∧
     (run (.doorbellReadComplete 0 [(8, hostBytes [64, 0])]) s).ringState 8 = 1 ∧
     (run (.doorbellReadComplete 0 [(8, hostBytes [65, 0])]) s).getF HIF_RING_STAT.REASON 8 = 2 ∧
     (run (.doorbellReadComplete 0 [(8, hostBytes [1, 1])]) s).counter (group 6 8) 2 = 1 ∧
     ((run (.doorbellReadComplete 0 [(8, hostBytes [1, 1])]) s).ring 8).prod = 0) ∧
    (let s := (ring64 live 8 3).upFn 0 (fun x => { x with scanning := true })
     s.descRing 8 = false ∧ ((run (.doorbellReadComplete 0 [(8, hostBytes [7, 0])]) s).ring 8).cons = 7) ∧
    (let s := (ring64 live 8 0).upRing 8 (fun r => { r with prod := 1 })
     s.published 8 = 1 ∧ (run (.dmaReadError { kind := (.descriptor 8) }) s).getF HIF_RING_STAT.REASON 8 = 3) ∧
    (let s := posted (ring64 live 3 2) 1 { ring := 3 }
     s.dataReading 3 = true ∧ s.ringState 3 ≠ 0 ∧ (run (.dmaReadError { kind := (.data 3) }) s).getF HIF_RING_STAT.REASON 3 = 3) := by
  decide

/-- A transmit descriptor of one frame of `len` bytes: MODE, destination port, launch bit clear. -/
def txd (len mode dest : Nat) : Desc :=
  { idx := 0, words := [0, 0, BitVec.ofNat 32 (len + 65536 + 131072 + mode * 1048576), BitVec.ofNat 32 dest, 0, 0, 5, 0] }

theorem test_descriptorFetch :
    (let s := (ring64 live 8 1).upRing 8 (fun r => { r with prod := 2 })
     s.isF HIF_RING_STAT.PAUSED 8 = false ∧ s.descRing 8 = true ∧
     ((run (.descriptorFetch 8 [List.replicate 8 0, List.replicate 8 0, List.replicate 8 0]) s).ring 8).fetch = 2 ∧
     ((run (.descriptorFetch 8 []) s).ring 8).fetch = 0) := by decide +kernel

theorem test_transmit :
    (let s := ringOf live 8 0 [txd 20 0 0]
     txHead (s.ring 8).fetched = .whole [txd 20 0 0] ∧ s.txCodes 8 (txd 20 0 0) = [] ∧ txMode (txd 20 0 0) = 0 ∧
     s.preRoom 0 60 false = true ∧
     ((run (.txFrameDataRead 8 (List.replicate 20 1)) s).tile 0).pre.map (fun x => (x.bytes.length, x.inPort)) =
       [(60, 256)]) ∧
    (let s := (ringOf live 8 0 [txd 60 1 3]).setF TIL_SCH_HPQ.HP_QMAX_C7 0 3
     s.txCodes 8 (txd 60 1 3) = [] ∧ txMode (txd 60 1 3) = 1 ∧ txLaunchEn (txd 60 1 3) = false ∧
     txDest (txd 60 1 3) = 3) ∧
    (let d : Desc := { txd 60 1 3 with words := [0, 0, BitVec.ofNat 32 (60 + 196608 + 1048576), 3, 0, 0, 5, 0] }
     let s := (ringOf live 8 0 [d]).upQueue (queueKey 3 0) (fun q => { q with
       onTile := List.replicate 4800 { bytes := [0] } })
     s.directRoom (txDest d) (txClass d) 60 false = false ∧ s.txCodes 8 d = [] ∧
     answer (.txFrameDataRead 8 (List.replicate 60 0)) s = some (3, 0, 0)) := by decide +kernel

/-- A direct frame with LAUNCH_EN for launch-time queue 1 of a port that is UP (R91, R235). -/
theorem test_transmit_launch :
    (let d : Desc := { txd 60 1 3 with words := [0, 0, BitVec.ofNat 32 (60 + 196608 + 0x80000 + 0x100000 + 0x2000000), 3, 0, 0, 5, 0] }
     let s := portAt (ringOf live 8 0 [d]) 3 5
     txHead (s.ring 8).fetched = .whole [d] ∧ s.txCodes 8 d = [] ∧ txMode d = 1 ∧ txLaunchEn d = true ∧ txLaunchQ d = 1 ∧
     s.directRoom 3 9 60 true = true ∧ s.portState 3 = 5 ∧
     ((run (.txFrameDataRead 8 (List.replicate 60 1)) s).queue (queueKey 3 9)).onTile.length = 1) := by decide +kernel

/-- A frame for the host in class 5 at port 256. -/
def hostFrame : Frame := { bytes := List.replicate 60 7, inPort := 2, res := { destKind := 2, dest := 256, cls := 5, ringEn := true, hostRing := 8 } }

theorem test_receive :
    (let s := (ringOf live 8 1 [buf 0 256 77]).upQueue (queueKey 256 5) (fun q => { q with onTile := [hostFrame] })
     s.rxNext = some (5, 0, hostFrame, .write 8) ∧ (s.ring 8).fetched = [buf 0 256 77] ∧ bufOk (buf 0 256 77) = true ∧
     hostFrame.bytes.length ≤ bufLen (buf 0 256 77) ∧
     Out.bufferWrite 8 0 hostFrame.bytes ∈ sent .rxFrameWrite s ∧
     (sent .rxFrameWrite s).any (fun o => match o with | .completion 8 0 b => leAt b 0 4 == 77 | _ => false) = true) ∧
    (let s := (ringOf live 8 1 []).upRing 8 (fun r => { r with rx := some { frame := hostFrame, done := 30, lastIdx := 4, lastCookie := 9, lastLen := 30, used := 1 } })
     ((run (.rxHoldExpiry 8) s).ring 8).rx = none ∧
     (sent (.rxHoldExpiry 8) s).any (fun o => match o with
       | .completion 8 4 b => leAt b 0 4 == 9 && leAt b 12 4 / 16777216 % 128 == 8 | _ => false) = true) ∧
    (live.ring 8).rx = none ∧
    (let s := (ringOf live 8 3 []).upRing 8 (fun r => { r with timer := true, sinceInt := 2 })
     Out.msix 0 0 ∈ sent (.interruptTimer 8) (s.setF HIF_MSIX_CTRL.MASK 0 0) ∧
     ((run (.interruptTimer 8) s).ring 8).timer = false ∧ s.isF HIF_MSIX_CTRL.MASK 0 = true ∧
     ((run (.interruptTimer 8) s).fn 0).pba = 1 ∧ (s.ring 8).sbDue = false ∧
     ((run (.interruptTimer 8) (s.upRing 8 (fun r => { r with sbDue := true }))).ring 8).intDue = true) ∧
    (let s := ((ring64 live 8 3).upRing 8 (fun r => { r with hold := [{ dw0 := 1, dw1 := 2, dw2 := 3, dw3 := 4 }], prod := 63 }))
     ringUsed (s.ring 8) = 63 ∧ s.ringSize 8 = 64 ∧ ((run (.entryHoldDrain 8) s).ring 8).hold = [] ∧
     ((run (.entryHoldDrain 8) s).ring 8).prod = 64) := by decide

theorem test_resets :
    (let s := ((ring64 (ring64 live 8 0) 9 0).setF HIF_RING_CFG.FUNC 1 8).upFn 1 (fun x => { x with scanning := true })
     s.pcieUp = true ∧ s.ringFn 8 = 1 ∧ s.ringState 8 ≠ 0 ∧
     (run (.vfFunctionLevelReset 1) s).ringState 8 = 2 ∧ (run (.vfFunctionLevelReset 1) s).ringState 9 = 1 ∧
     ((run (.vfFunctionLevelReset 1) s).fn 1).scanning = false) ∧
    (run .pfFunctionLevelReset (ring64 live 8 0)).ringState 8 = 0 ∧
    (run .peRstNAssert (ring64 live 8 0)).ringState 8 = 0 ∧ (run .peRstNAssert live).boot.linkUp = false ∧
    (run .peRstNDeassert (run .peRstNAssert live)).boot.training = true ∧
    live.isF GLB_BOOT_STAT.HIF_READY = true ∧ live.boot.peRst = false ∧
    (run .pcieLinkUp { live with boot := { live.boot with linkUp := false } }).boot.linkUp = true ∧
    live.boot.linkUp = true := by decide

/-- A pre-lookup buffer with 65,500 bytes in it has no room for 60 more (R155). -/
theorem test_preLookupFull (b : Bytes) (h : b.length = 65500) :
    (live.upTile 7 (fun x => { x with pre := [{ bytes := b, inPort := 0, stamp := 0, ptp := false }] })).preRoom 7 60 false =
      false := by
  simp [State.preRoom, State.tile, State.upTile, Tab.update, Tab.getD, Tab.get?, Tab.set, live, State.setF, Tile.preBytes, h]

theorem test_control :
    (live.fence 7).st = 0 ∧ live.preRoom 7 60 false = true ∧
    ((run (.controlFrameSend (.lookup 7 (List.replicate 20 1))) live).tile 7).pre.map (fun x => (x.bytes.length, x.inPort)) =
      [(60, 257)] ∧
    (let s := live.upFence 1 (fun x => { x with st := 1 })
     (s.fence (63 / 32)).st ≠ 0 ∧
     (run (.controlFrameSend (.direct 63 5 none false false 0 [])) s).counter (group 2 257) (5 * 64 + 0x26) = 1) ∧
    (let s := live.upQueue (queueKey 257 7) (fun q => { q with onTile := [{ hostFrame with stamp := 5 }] })
     live.fwRuns = true ∧ (portAt live 9 2).portState 9 = 2 ∧
     sent (.controlFrameSend (.training 9 [1])) (portAt live 9 2) = [.txTraining 9 [1]] ∧
     [7, 6, 5, 4, 3, 2, 1, 0].find? (fun c => (s.head 257 c).isSome) = some 7 ∧ s.aged { hostFrame with stamp := 5 } 257 = false ∧
     Out.toControl hostFrame.bytes 2 5 ∈ sent .controlComplexDelivery s) := by decide +kernel

/-! ### Commands of the engine (O25–O29) -/

/-- A MAC entry (R165): VLAN 1, MAC 2 forwards to port 5. -/
def macRec : List Word := [2, BitVec.ofNat 32 65536, 0, BitVec.ofNat 32 (5 * 65536), 0, 0, 0, 0]
def macCmd : Cmd := { ring := 3, indirect := true, a2 := 32, dataLen := 32, data := wordsLE macRec }

theorem test_engine_refuses :
    engineRow (.tblWrite macCmd) = some (0x10, false, macCmd) ∧ live.commandReady 0x10 macCmd = false ∧
    run (.tblWrite macCmd) live = live ∧
    (let s := (posted live 0x10 macCmd).setF HIF_RING_CFG.FUNC 1 3
     s.commandReady 0x10 macCmd = true ∧ s.issuer macCmd ≠ 0 ∧ answer (.tblWrite macCmd) s = some (7, 0, 0)) ∧
    (let c : Cmd := { ring := 3, indirect := true, a2 := 65537, dataLen := 65537 }
     (posted live 0x10 c).commandReady 0x10 c = true ∧ answer (.tblWrite c) (posted live 0x10 c) = some (6, 0, 0)) ∧
    (let c : Cmd := { ring := 3 }
     let s := posted { live with fw := {} } 0x81 c
     firmwareRow (.timeCfg c) = some (0x81, c) ∧ s.kclk = true ∧ s.commandReady 0x81 c = true ∧ answer (.timeCfg c) s = some (5, 0, 0)) := by
  decide +kernel

theorem test_tableWrite :
    (let s := posted live 0x10 macCmd
     s.issuer macCmd = 0 ∧ cmdRecordFits macCmd 0 = true ∧ recOk 0 (cmdRecord macCmd) = true ∧ s.tblBar 0 = stOk ∧
     s.tblRoom 0 (cmdRecord macCmd) = true ∧ (run (.tblWrite macCmd) s).shadow 0 ≠ [] ∧
     (run (.tblWrite macCmd) s).active 0 = [] ∧ (answer (.tblWrite macCmd) s).map (·.1) = some 0) ∧
    (let s := { posted live 0x10 macCmd with epochs := { commits := [(5, 1)] } }
     s.tblBar 0 = stBusy ∧ answer (.tblWrite macCmd) s = some (1, 0, 0)) ∧
    (let c := { macCmd with target := 13 }
     (posted live 0x10 c).commandReady 0x10 c = true ∧ answer (.tblWrite c) (posted live 0x10 c) = some (6, 0, 0)) := by
  decide +kernel

theorem test_tableDelete :
    (let s := run (.tblWrite macCmd) (posted live 0x10 macCmd)
     let c : Cmd := { ring := 4, indirect := true, a2 := 32, dataLen := 32, data := wordsLE macRec }
     let d := posted s 0x11 c
     d.commandReady 0x11 c = true ∧ cmdKeyFits c = true ∧ d.tblBar 0 = stOk ∧ (run (.tblDelete c) d).shadow 0 = [] ∧
     (answer (.tblDelete c) (posted live 0x11 c)) = some (0, 0xFFFFFFFF, 0)) ∧
    (let c : Cmd := { ring := 4, indirect := true, a2 := 32, dataLen := 32, data := wordsLE macRec }
     let s := posted live 0x12 c
     splitRecs 0 8 (toWords 8 c.data) = some [macRec] ∧ s.tblBar 0 = stOk ∧ (s.tblPutAll 0 [macRec] 0).2.1 = stOk ∧
     answer (.tblBulk c) s = some (0, 1, 0)) := by decide +kernel

theorem test_commits :
    (let c : Cmd := { ring := 3, a2 := 1 }
     let s := posted live 0x13 c
     maskOk 1 = true ∧ s.maskBar 1 = stOk ∧ answer (.tblSync c) s = some (0, 0, 0) ∧
     (let d : Cmd := { ring := 3, a3 := 16777215, a2 := 1 }
      let s := posted live 0x14 d
      s.arming (cmdFrameCount d) d.lateOk 0 = .at 16777215 ∧ s.liveEpochs = 1 ∧
      (run (.tblCommit d) s).epochs.commits = [(16777215, 1)]) ∧
     (let s := posted { live with gens := [(0, { started := true, fc := 9 })] } 0x14 c
      s.arming (cmdFrameCount c) c.lateOk 0 = .past ∧ (answer (.tblCommit c) s).map (·.1) = some 2) ∧
     (let s := posted { live with epochs := { commits := [(1000, 3)] } } 0x15 c
      s.cutoffReached 1000 = false ∧ (run (.tblCancel c) s).epochs.commits = [(1000, 2)] ∧
      answer (.tblCancel c) s = some (0, 1, 0))) := by decide +kernel

theorem test_tableRead :
    (let c : Cmd := { ring := 4, indirect := true, a2 := 128, dataLen := 128, data := wordsLE macRec ++ List.replicate 96 0, a5 := 1 }
     let s := posted (run (.tblWrite macCmd) (posted live 0x10 macCmd)) 0x16 c
     s.commandReady 0x16 c = true ∧ keyOk 0 (toWords 32 c.data) = true ∧ s.tblFenced 0 = false ∧
     findKey 0 (recKey 0 (toWords 32 c.data)) (s.shadow 0) ≠ none ∧
     findKey 0 (recKey 0 (toWords 32 c.data)) (s.active 0) = none ∧
     answer (.tblRead { c with a5 := 0 }) (posted live 0x16 { c with a5 := 0 }) = some (0, 0xFFFFFFFF, 0)) := by
  decide +kernel

theorem test_ringAndCounterCommands :
    answer (.nop { ring := 3 }) (posted live 0x01 { ring := 3 }) = some (0, 0, 0) ∧
    (run (.ringPause { ring := 3, target := 255 }) (posted live 0x30 { ring := 3, target := 255 })).isF HIF_RING_STAT.PAUSED 255 =
      true ∧
    (run (.ringResume { ring := 3, target := 255 }) ((posted live 0x31 { ring := 3, target := 255 }).setF HIF_RING_STAT.PAUSED 1 255)).isF
      HIF_RING_STAT.PAUSED 255 = false ∧
    (let c : Cmd := { ring := 3, target := 8192, indirect := true, a2 := 40, dataLen := 40, data := List.replicate 40 0 }
     groupDefined 8192 = true ∧ 16 + 8 * groupCount 8192 = 40 ∧ answer (.cntRead c) (posted live 0x40 c) = some (0, 40, 0) ∧
     (let d : Cmd := { ring := 3, target := 8192 }
      (run (.cntClear d) ((posted live 0x41 d).setCounter 8192 2 7)).counter 8192 2 = 0)) := by decide +kernel

theorem test_grantAndAck :
    (let c : Cmd := { ring := 3, target := 31, indirect := true, a2 := 64, dataLen := 64, data := List.replicate 64 0 }
     (grantOf c.data).isSome = true ∧ (live.fn 31).resetting = false ∧
     (answer (.vfGrant c) (posted live 0x60 c)).map (·.1) = some 0) ∧
    (let c : Cmd := { ring := 3, target := 0x17 }
     let f := run (.faultPresent [{ id := 0x17, momentary := true }]) live
     answer (.faultAck c) (posted live 0x70 c) = some (0, 0, 0) ∧
     (f.faultSt 0x17).latched = true ∧ (f.faultSt 0x17).present = false ∧
     answer (.faultAck c) (posted f 0x70 c) = some (0, 1, 0) ∧
     ((run (.faultAck c) (posted f 0x70 c)).faultSt 0x17).latched = false ∧
     answer (.faultAck c) (posted (run (.faultPresent [{ id := 0x17 }]) live) 0x70 c) = some (0, 2, 0)) := by decide +kernel

theorem test_protection :
    (let c : Cmd := { ring := 3, target := 127, a0 := 4, a1 := 255 }
     let s := posted (portAt live 255 5) 0x50 c
     let d : Cmd := { ring := 4, target := 126, a0 := 4, a1 := 9 }
     let e : Cmd := { ring := 5, target := 127, a2 := 1 }
     s.portFenced 4 = false ∧ s.portFenced 255 = false ∧ s.pgFenced 127 = false ∧
     (answer (.pgSet c) s).map (·.1) = some 0 ∧
     s.pgBusy 127 = false ∧ (Tab.get? (run (.pgSet c) s).pgs 127).map (fun x => (x.primary, x.backup, x.onBackup)) =
       some (4, 255, true) ∧
     (let b := { s with pgs := [(127, { primary := 1, backup := 2, busyTo := 1 })] }
      b.pgBusy 127 = true ∧ answer (.pgSet c) b = some (1, 0, 0)) ∧
     answer (.pgSet d) (posted (run (.pgSet c) s) 0x50 d) = some (3, 0, 0) ∧
     answer (.pgForce e) (posted (run (.pgSet c) s) 0x51 e) = some (0, 4, 0) ∧
     answer (.pgForce e) (posted live 0x51 e) = some (6, 0, 0)) := by decide +kernel

/-! ### Flows, merge groups and cut groups (O30, O31) -/

/-- A media flow of an IPv4 RTP stream to port 5 at `rate` kb/s, on no link (R255, R256). -/
def flowWords (d rate : Nat) : List Word :=
  [0x0A000001, 0, 0, 0, BitVec.ofNat 32 (0xEF000000 + d), 0, 0, 0, 5004, BitVec.ofNat 32 (0x9FF + 0xFFFF0000),
   BitVec.ofNat 32 rate, 0, 0, 0, 0, 0]
def flowData (d rate : Nat) : List Byte :=
  wordsLE (flowWords d rate) ++ [32] ++ List.replicate 31 0
def flowCmd (d rate : Nat) : Cmd := { ring := 3, indirect := true, a2 := 96, dataLen := 96, data := flowData d rate }
/-- Flow `h` of that kind, owned by function `v`, in the shadow table. -/
def flowOf (v h : Nat) : Flow := { handle := h, words := flowWords h 1000, mask := 32, owner := v }
def flowsIn (s : State) (l : List Flow) : State := { s with tables := { s.tables with flowsShd := l } }
def on5 : State := (portAt live 5 5).setF TIL_MED_BUDGET.CL6_PCT 75 5

theorem test_flowAdd :
    (let c := flowCmd 1 1000
     let s := posted on5 0x20 c
     s.commandReady 0x20 c = true ∧ cmdFlowOk c = true ∧ s.tblBusy 13 = false ∧ s.keyTaken (cmdFlow c (s.issuer c) 0) = false ∧
     s.admitFlow (s.issuer c) (s.issuer c) none (cmdFlow c (s.issuer c) 0) = none ∧ s.flowHandles.length < 2047 ∧
     answer (.flowAdd c) { s with epochs := { commits := [(5, 8192)] } } = some (1, 0, 0) ∧
     answer (.flowAdd c) (flowsIn s [flowOf 0 1]) = some (6, 0, 0)) ∧
    (let c := flowCmd 1 0
     cmdFlowOk c = false ∧ answer (.flowAdd c) (posted on5 0x20 c) = some (6, 0, 0)) ∧
    (let c := flowCmd 1 1000
     let s := posted live 0x20 c
     s.admitFlow 0 0 none (cmdFlow c 0 0) = some 0x505 ∧ answer (.flowAdd c) s = some (4, 0, 0x505)) ∧
    (let c := flowCmd 1 4000000000
     answer (.flowAdd c) (posted on5 0x20 c) = some (4, 0, 0x506)) := by decide +kernel

theorem test_flowModify :
    let c := { flowCmd 7 2000 with a0 := 7 }
    let s := posted (flowsIn on5 [flowOf 0 7, flowOf 0 8]) 0x21 c
    s.commandReady 0x21 c = true ∧ cmdFlowOk c = true ∧ s.mayFlow (s.issuer c) 7 = true ∧ s.tblBusy 13 = false ∧
    (cmdFlow c 0 0).rtp = true ∧ s.shadowFlow 7 = some (flowOf 0 7) ∧ (flowOf 0 7).key = (cmdFlow c 0 0).key ∧
    s.admitFlow 0 0 (some 7) (cmdFlow c 0 7) = none ∧
    (run (.flowModify c) s).shadowFlow 7 = some { flowOf 0 7 with words := flowWords 7 2000 } ∧
    (run (.flowModify c) s).shadowFlow 8 = some (flowOf 0 8) ∧
    (let d := { flowCmd 7 4000000000 with a0 := 7 }
     (posted (flowsIn on5 [flowOf 0 7]) 0x21 d).admitFlow 0 0 (some 7) (cmdFlow d 0 7) = some 0x506 ∧
     answer (.flowModify d) (posted (flowsIn on5 [flowOf 0 7]) 0x21 d) = some (4, 0, 0x506)) := by decide +kernel

theorem test_flowDelete :
    (let c : Cmd := { ring := 3, a0 := 7 }
     let s := posted (flowsIn on5 [flowOf 0 7, flowOf 0 8]) 0x22 c
     s.commandReady 0x22 c = true ∧ s.mayFlow (s.issuer c) 7 = true ∧ s.tblBusy 13 = false ∧ s.inGroup 7 = false ∧
     (∀ f ∈ s.allFlows, f.handle ≠ 7 → f.link ≠ 7) ∧ (run (.flowDelete c) s).shadowFlow 7 = none ∧
     (run (.flowDelete c) s).shadowFlow 8 = some (flowOf 0 8) ∧
     (run (.flowDelete c) { s with merges := [(1, { members := [7] })] }).shadowFlow 7 ≠ none) ∧
    (let c : Cmd := { ring := 3, a0 := 7 }
     let s := (posted (flowsIn on5 [flowOf 2 7]) 0x22 c).setF HIF_RING_CFG.FUNC 1 3
     s.commandReady 0x22 c = true ∧ s.mayFlow (s.issuer c) 7 = false ∧ answer (.flowDelete c) s = some (7, 0, 0)) ∧
    (let c := { flowCmd 7 2000 with a0 := 7 }
     let s := (posted (flowsIn on5 [flowOf 2 7]) 0x21 c).setF HIF_RING_CFG.FUNC 1 3
     s.commandReady 0x21 c = true ∧ s.mayFlow (s.issuer c) 7 = false ∧ answer (.flowModify c) s = some (7, 0, 0)) := by
  decide +kernel

theorem test_mergeSet :
    let c : Cmd := { ring := 3, target := 8191, indirect := true, a2 := 8, dataLen := 8, data := wordsLE [7, 8] }
    let s := posted (flowsIn on5 [flowOf 0 7, flowOf 0 8]) 0x23 c
    s.commandReady 0x23 c = true ∧ memberList c = some [7, 8] ∧ s.mayMerge (s.issuer c) 8191 [7, 8] = true ∧
    s.membersOk 0 8191 [7, 8] = true ∧ (s.merge 8191).next = none ∧
    ((run (.mergeSet c) s).merge 8191).next.map (·.1) = some [7, 8] ∧ ((run (.mergeSet c) s).merge 8191).members = [] ∧
    answer (.mergeSet c) { s with merges := [(8191, { next := some ([7], 9) })] } = some (1, 0, 0) ∧
    answer (.mergeSet c) { s with merges := [(2, { members := [7] })] } = some (6, 0, 0) := by decide +kernel

/-- A cut group of two candidates: flows 7 and 8 (R277). -/
def cutWords : List Word := List.replicate 10 0 ++ [0x20007, 0x20008, 0, 0, 0, 0]

theorem test_cutGroupSet :
    let c : Cmd := { ring := 3, target := 4095, indirect := true, a2 := 64, dataLen := 64, data := wordsLE cutWords }
    let s := posted (flowsIn on5 [flowOf 0 7, flowOf 0 8]) 0x24 c
    let pin : Cut := { words := List.replicate 10 0 ++ [0x20009], state := 1, c := 0 }
    s.commandReady 0x24 c = true ∧ toWords 16 c.data = cutWords ∧ s.mayCut (s.issuer c) 4095 cutWords = true ∧
    (∀ k ∈ [0, 1, 2, 3], s.candOk 4095 cutWords k = true) ∧ (s.cut 4095).next = none ∧ s.cutPinned 4095 cutWords = false ∧
    ((run (.cutGroupSet c) s).cut 4095).next.map (·.1) = some cutWords ∧
    answer (.cutGroupSet c) { s with cuts := [(4095, { next := some (cutWords, 9) })] } = some (1, 0, 0) ∧
    ({ s with cuts := [(4095, pin)] } : State).cutPinned 4095 cutWords = true ∧
    answer (.cutGroupSet c) { s with cuts := [(4095, pin)] } = some (1, 0, 0) := by decide +kernel

theorem test_cutSelect :
    let c : Cmd := { ring := 3, target := 4095, a2 := 1, a3 := 16777215 }
    let s : State := { posted (flowsIn on5 [flowOf 0 7, flowOf 0 8]) 0x25 c with cuts := [(4095, { words := cutWords })] }
    s.commandReady 0x25 c = true ∧ cutHasCands (s.cutRecordAt 4095 (cmdFrameCount c)) = true ∧
    candValid (s.cutRecordAt 4095 (cmdFrameCount c)) 1 = true ∧ s.maySelect (s.issuer c) 4095 = true ∧
    s.arming (cmdFrameCount c) c.lateOk (if s.paired then 20 else 0) = .at 16777215 ∧ (s.cut 4095).sel = none ∧
    ((run (.cutSelect c) s).cut 4095).sel = some (1, 16777215) ∧ answer (.cutSelect c) s = some (0, 0, 0) ∧
    answer (.cutSelect c) { s with cuts := [(4095, { words := cutWords, sel := some (0, 5) })] } = some (1, 0, 0) ∧
    (let p := s.setF GLB_PAIR_STAT.STATE 2
     Out.pairControl 4095 1 16777215 ∈ sent (.cutSelect c) p) ∧
    (let d : Cmd := { ring := 3, target := 4095, a2 := 4 }
     let s : State := { posted { live with gens := [(0, { started := true, fc := 9 })] } 0x25 d with
       cuts := [(4095, { words := cutWords })] }
     s.arming (cmdFrameCount d) d.lateOk (if s.paired then 20 else 0) = .past ∧
     (answer (.cutSelect d) s).map (·.1) = some 2) := by decide +kernel

/-! ### Time and frequency (O32–O38) -/

theorem test_firmwareRecords :
    (let c : Cmd := { ring := 3, target := 255, indirect := true, a2 := 16, dataLen := 16, data := [1, 1, 0, 0, 3] ++ List.replicate 11 0 }
     let s := posted live 0x80 c
     s.commandReady 0x80 c = true ∧ ptpCfgOk c = true ∧ ((run (.ptpPortCfg c) s).port 255).ptpNext = some (ptpRec c.data) ∧
     ptpCfgOk { c with target := 256 } = false ∧
     answer (.ptpPortCfg { c with target := 256 }) (posted live 0x80 { c with target := 256 }) = some (6, 0, 0)) ∧
    (let c : Cmd := { ring := 3, indirect := true, a2 := 32, dataLen := 32, data := List.replicate 32 0 }
     let d := { c with data := 2 :: List.replicate 31 0 }
     let s := posted live 0x81 c
     s.commandReady 0x81 c = true ∧ timeCfgOk c = true ∧ (run (.timeCfg c) s).time.cfgNext = some (List.replicate 8 0) ∧
     timeCfgOk d = false ∧ answer (.timeCfg d) (posted live 0x81 d) = some (6, 0, 0)) ∧
    (let c : Cmd := { ring := 3, a0 := 65535 }
     let r : Disc := { id := 65535, off := 2000 }
     let s : State := { posted live 0x82 c with time := { live.time with disc := some r } }
     s.commandReady 0x82 c = true ∧ (run (.timeAuth c) s).time.disc = some { r with auth := true } ∧
     (run (.timeAuth c) s).fw.timeAuth = [c] ∧ (answer (.timeAuth c) (posted live 0x82 c)).map (·.1) = some 2) := by
  decide +kernel

theorem test_dpllAndRefCfg :
    (let c : Cmd := { ring := 3, target := 3, indirect := true, a2 := 64, dataLen := 64, data := List.replicate 64 0 }
     let d := { c with target := 0 }
     let s := posted live 0x83 c
     s.commandReady 0x83 c = true ∧ s.dpllCfgOk 3 (toWords 16 c.data) = true ∧ (s.dpll 3).cfg = none ∧
     ((run (.dpllCfg c) s).dpll 3).cfg = some (List.replicate 16 0) ∧
     answer (.dpllCfg c) { s with dplls := [(3, { cfg := some [] })] } = some (1, 0, 0) ∧
     s.dpllCfgOk 0 (toWords 16 c.data) = false ∧ answer (.dpllCfg d) (posted live 0x83 d) = some (6, 0, 0)) ∧
    (let c : Cmd := { ring := 3, target := 25, indirect := true, a2 := 20, dataLen := 20, data := List.replicate 20 0 }
     let d := { c with target := 26 }
     let s := posted live 0x84 c
     s.commandReady 0x84 c = true ∧ (s.refr 25).cfg = none ∧ ((run (.refCfg c) s).refr 25).cfg = some (List.replicate 5 0) ∧
     answer (.refCfg c) { s with refs := [(25, { cfg := some [] })] } = some (1, 0, 0) ∧
     answer (.refCfg d) (posted live 0x84 d) = some (6, 0, 0)) := by decide +kernel

/-- With a step of 2 ns ready, the update moves both timebases by it beyond the 262,144 edges of 4 ns; a first setting below
0 is refused (R305, R308, R309). -/
theorem test_servo :
    live.time.running = true ∧ live.isF TPL_TB_CMP.A_FAILED = false ∧ live.isF TPL_TB_CMP.B_FAILED = false ∧
    live.isF TPL_TB_CFG.SERVO_MODE = false ∧ live.time.software = false ∧
    (run (.servoUpdate 0) live).time.tclk = 262144 ∧ (run (.servoUpdate 0) live).time.inc = 4 * 4294967296 ∧
    (let s : State := { live with time := { live.time with disc := some { id := 1, off := 2000, ready := true }, adj := 7 } }
     let t := run (.servoUpdate 0) s
     t.time.a = (s.edges 262144).time.a + 2 * nsU ∧ t.time.disc = none ∧ t.getF TPL_TB_STAT.DISC_CNT = 1 ∧
     t.time.adj = 0 ∧ t.readTpl TPL_TB_ADJ_REM.ADJ_REM 0 = 0) ∧
    (let s : State := { live with time := { live.time with firstStep := some (-1) } }
     (run (.servoUpdate 0) s).isF TPL_TB_HIST.STEP_REFUSED = true ∧ (run (.servoUpdate 0) s).time.a = (s.edges 262144).time.a) ∧
    (let s : State := { live with time := { live.time with firstStep := some 1000 } }
     (run (.servoUpdate 0) s).isF TPL_TB_STAT.TIME_VALID = true) ∧
    (let s : State := { live.setF TPL_TB_CFG.SERVO_MODE 1 with time := { live.time with software := true, incNext := some 0 } }
     (run (.servoUpdate 0) s).time.inc = 17171279250 ∧
     (let u := (s.setF TPL_TB_STAT.STEP_PENDING 1).setF TPL_TB_STEP_NS.STEP_NS 999999999
      (run (.servoUpdate 0) u).time.a = (u.edges 262144).time.a + 999999999 * nsU ∧
      (run (.servoUpdate 0) u).isF TPL_TB_STAT.STEP_PENDING = false)) := by decide +kernel

theorem test_softwareMode :
    (let s : State := { live with time := { live.time with software := true } }
     s.pfMay .pf = true ∧ s.pfMay (.vf 1) = false ∧ run (.incNsWrite .pf 4) live = live ∧
     (run (.incNsWrite .pf 260) s).time.incNext = some (4 * 4294967296) ∧
     (run (.tplTbAdjWrite .pf 0xFFFFFFFF) s).time.adj = -psU ∧
     (run (.stepGo .pf) (s.setF TPL_TB_STEP_NS.STEP_NS 999999999)).isF TPL_TB_STAT.STEP_PENDING = true ∧
     run (.stepGo .pf) (s.setF TPL_TB_STEP_NS.STEP_NS 1000000000) = s.setF TPL_TB_STEP_NS.STEP_NS 1000000000) ∧
    (let s : State := { live with time := { live.time with a := (7 * 1000000000 + 999999998) * nsU } }
     (run (.capture .pf) s).getF TPL_TB_CAP_NS.NS = 2 ∧ (run (.capture .pf) s).getF TPL_TB_CAP_SEC_LO.SEC = 8) ∧
    (let s : State := { live with time := { live.time with adj := psU } }
     (run .slewEnd s).time.adj = 0 ∧ (run .slewEnd s).time.a = (s.time.inc : Int) * 1000000000 * (run .slewEnd s).time.tclk + psU) := by
  decide +kernel

/-- The threshold at its reset value, and one picosecond beyond it (R306). -/
theorem test_offsets :
    live.fw.running = true ∧ live.isF TPL_TB_STAT.TIME_VALID = false ∧
    (run (.offsetMeasurement 5) live).time.firstStep = some 5 ∧
    (let s := live.setF TPL_TB_STAT.TIME_VALID 1
     let th := s.stepThresh
     (run (.offsetMeasurement th) s).time.disc = none ∧
     (run (.offsetMeasurement (th + 1)) s).time.disc = some { id := 1, off := th + 1 } ∧
     (run (.offsetMeasurement (th + 1)) s).getF TPL_TB_STAT.PEND_ID = 1 ∧
     (let u : State := { s with time := { s.time with disc := some { id := 65535, off := th + 1 }, lastId := 65535 } }
      (run (.offsetMeasurement th) u).time.disc = none ∧
      (run (.offsetMeasurement (2 * th + 1)) u).time.disc = some { id := 65535, off := 2 * th + 1, confs := 1 } ∧
      (run (.offsetMeasurement (2 * th + 2)) u).time.disc = some { id := 1, off := 2 * th + 2 })) := by decide +kernel

/-- Reference 23 monitored, in state `st`, with limits of 100 and 50 tenths of a part in 10^9. -/
def refIn (st : Nat) : State :=
  ((((live.setF TPL_REF_CFG.MON_EN 1 23).setF TPL_REF_STAT.STATE st 23).setF TPL_REF_MON1.HARD 1 23).setF
    TPL_REF_MON1.SOFT 1 23)

/-- 10 parts in 10^9 is 10,995 × 2^-40: the limit of 1 × 10^-8 lies between 10,995 and 10,996 (R366). -/
theorem test_references :
    (let s := refIn 3
     s.isF TPL_REF_CFG.MON_EN 23 = true ∧ (run (.refActivityLoss 23) s).refState 23 = 1 ∧
     (run (.refFastFrequencyFail 23) s).refState 23 = 1 ∧ (run (.refActivityLoss 23) (refIn 0)).refState 23 = 0 ∧
     offExceeds 10995 (s.getF TPL_REF_MON1.HARD 23) 1 1 = false ∧ offExceeds 10996 (s.getF TPL_REF_MON1.HARD 23) 1 1 = true ∧
     (run (.refGateEnd 23 10995) s).refState 23 = 3 ∧ (run (.refGateEnd 23 10996) s).refState 23 = 1 ∧
     (run (.refGateEnd 23 9000) (refIn 4)).refState 23 = 4 ∧ (run (.refGateEnd 23 0) (refIn 4)).refState 23 = 3 ∧
     (run (.refGateEnd 23 0) ((refIn 2).upRef 23 (fun x => { x with qualOk := true }))).refState 23 = 3 ∧
     run (.refGateEnd 22 0) s = s ∧ run (.qualMsExpiry 23) s = s ∧
     (run (.qualMsExpiry 25) (live.setF TPL_REF_STAT.STATE 2 25)).refState 25 = 3 ∧
     (run .ref25AgeOut (live.setF TPL_REF_STAT.STATE 4 25)).refState 25 = 1 ∧
     run .ref25AgeOut (live.setF TPL_REF_STAT.STATE 1 25) = live.setF TPL_REF_STAT.STATE 1 25) ∧
    (let s := (refIn 3).upRef 23 (fun x => { x with gates := (List.range 15).map (fun (i : Nat) => 100000 * (15 - (i : Int))) })
     let u := (s.setF TPL_REF_MON1.HARD 60000 23).setF TPL_REF_MON2.DRIFT_HARD 1 23
     (u.upRef 23 (fun x => { x with gates := (1600000 :: x.gates).take 16 })).driftExceeds 23 1 1 1 = true ∧
     (run (.refGateEnd 23 1600000) u).refState 23 = 1) := by decide +kernel

/-- DPLL 3 in MODE AUTO in state `st` with reference 2 in entry 0, which is in state `r`. -/
def dpllIn (st r : Nat) : State :=
  ((((live.setF TPL_DPLL_CFG.MODE 0 3).setF TPL_DPLL_STAT.STATE st 3).setF TPL_DPLL_PRIO.REF 2 24).setF
    TPL_DPLL_PRIO.PRIO 1 24).setF TPL_REF_STAT.STATE r 2

theorem test_dpllSelects :
    (let s := dpllIn 4 3
     s.dpllMode 3 = 0 ∧ s.dpllState 3 = 4 ∧ (s.dpll 3).cfg = none ∧ s.bestEntry 3 = some 0 ∧ s.prioRef 3 0 = 2 ∧
     s.time.running = true ∧ Tab.keys s.refs = []) ∧
    (dpllIn 0 1).bestEntry 3 = none ∧
    (let s := (dpllIn 2 3).upDpll 3 (fun x => { x with sel := some 5 })
     s.selEntry 3 = none ∧ s.bestEntry 3 = some 0 ∧ s.dpllState 3 = 2) ∧
    (let s := (dpllIn 2 1).upDpll 3 (fun x => { x with sel := some 2 })
     s.selEntry 3 = none ∧ s.bestEntry 3 = none ∧ s.histValid 3 = false ∧
     (run (.dpllLoopUpdate 3 { perr := 0 }) s).dpllState 3 = 4) ∧
    (let s := ((dpllIn 2 3).upDpll 3 (fun x => { x with sel := some 2 })).setF TPL_DPLL_LOCK.LOCK_WIN 10 3
     s.selEntry 3 = some 0 ∧ 4 * s.getF TPL_DPLL_LOCK.LOCK_WIN 3 = 40 ∧ 0 < (s.setF TPL_DPLL_PSL.PSL_PPB 5 3).getF TPL_DPLL_PSL.PSL_PPB 3 ∧
     (s.foff 3).natAbs < 2 ^ 30) ∧
    (let s := live.setF TPL_DPLL_CFG.MODE 2 3
     (run (.dpllLoopUpdate 3 { perr := 0 }) s).dpllState 3 = 0) ∧
    (let s : State := { (live.setF TPL_DPLL_CFG.MODE 0 0).setF TPL_DPLL_STAT.STATE 2 0 with
       time := { live.time with disc := some { id := 1, off := 5 } } }
     (run (.dpllLoopUpdate 0 { perr := 0 }) s).dpllState 0 = 3) := by decide +kernel

theorem test_dpllTimers :
    (let s := ((live.setF TPL_DPLL_STAT.STATE 1 3).setF TPL_DPLL_LOCK.LOCK_WIN 10 3).setF TPL_DPLL_PERR.PERR 10 3
     (run (.dpllLockTime 3) s).dpllState 3 = 2) ∧
    (let s := (((((dpllIn 2 3).setF TPL_DPLL_PRIO.REVERT 1 24).setF TPL_DPLL_PRIO.REF 4 25).setF TPL_DPLL_PRIO.PRIO 2 25).setF
       TPL_REF_STAT.STATE 3 4).upDpll 3 (fun x => { x with sel := some 4 })
     s.firstWait 3 = some 0 ∧ ((run (.dpllWtrExpiry 3) s).dpll 3).sel = some 2) ∧
    (dpllIn 2 3).firstWait 3 = none ∧
    (let s := (live.setF TPL_DPLL_STAT.STATE 3 3).setF TPL_DPLL_HOLD.HO_LIMIT_S 1 3
     (run (.holdoverLimitExpiry 3) s).dpllState 3 = 4) ∧
    (let s := (live.setF TPL_DPLL_STAT.STATE 3 3).setF TPL_DPLL_HOLD.HO_LIMIT_S 0 3
     run (.holdoverLimitExpiry 3) s = s) := by decide +kernel

/-! ### Temper and the pair (O39–O43) -/

theorem test_temperRun :
    (let c : Cmd := { ring := 3, a2 := 3 }
     let s := posted live 0x90 c
     s.commandReady 0x90 c = true ∧ (s.fence 9).st = 0 ∧ s.fw.temper = none ∧ s.tilesOpen = 255 ∧
     s.traceRefs = false ∧
     answer (.temperRun { c with a2 := 8 }) (posted live 0x90 { c with a2 := 8 }) = some (6, 0, 0) ∧
     answer (.temperRun { c with a2 := 4 }) (posted live 0x90 { c with a2 := 4 }) = some (6, 0, 0) ∧
     answer (.temperRun c) (s.upFence 9 (fun x => { x with st := 1 })) = some (5, 0, 0) ∧
     answer (.temperRun c) { s with fw := { s.fw with temper := some { c with ring := 4 } } } = some (1, 0, 0)) ∧
    (let c : Cmd := { ring := 3, a2 := 4 }
     let s := (((posted live 0x90 c).setF TMP_CFG.PPS_ID 2).setF TPL_REF_STAT.STATE 3 0).setF TPL_REF_STAT.STATE 4 2
     let u := (s.setF TMP_CFG.REF10_ID 0).setF TPL_REF_CFG.TYPE 1 2
     u.commandReady 0x90 c = true ∧ u.traceRefs = true ∧ u.temper.unit = none ∧ u.temper.pending = [] ∧ u.temper.trace = false) := by
  decide +kernel

/-- Two measurements of a path 10 ps apart confirm; 10.001 ps do not (R498). -/
theorem test_temperParts :
    (let s : State := { live.setF TMP_STAT.STATE 0 with temper := { live.temper with repeats := [(8, 3)] } }
     s.temperOn = true ∧ (unitLanes 8 allLanes).filter (fun l => s.lanePart l) = [256] ∧
     Tab.getD s.temper.repeats 8 0 = 3 ∧ s.temper.unit = none ∧
     (let u : State := { s with temper := { s.temper with unit := some 1 } }
      Tab.get? (run (.temperRetry 8) u).temper.pending 8 = some allLanes) ∧
     run (.temperRetry 7) s = s) ∧
    (let s := (((live.setF TMP_STAT.STATE 0).setF TMP_CFG.PATH_EN 1).setF TMP_CFG.REPEAT_PS 10).upItem (pathKey 7) (fun x => { x with meas := [5000] })
     ((run (.pathStep 7 15000) s).item (pathKey 7)).target = some 10000 ∧
     ((run (.pathStep 7 15001) s).item (pathKey 7)).target = none ∧
     ((run (.pathStep 7 15000) s).item (pathKey 7)).applied = 0 ∧
     run (.pathStep 7 0) (live.setF TMP_CFG.PATH_EN 0) = live.setF TMP_CFG.PATH_EN 0) ∧
    (let s : State := { live with temper := { live.temper with trace := true } }
     (run (.traceRunEnd false) s).isF TMP_HIST.TRACE_FAIL = true ∧ s.masked 0x1C1 = false ∧
     ((run (.traceRunEnd false) s).faultSt 0x1C1).latched = true ∧
     (let u := ((s.setF TMP_CFG.PPS_ID 2).setF TPL_REF_STAT.STATE 3 0).setF TPL_REF_STAT.STATE 4 2
      (run (.traceRunEnd true) ((u.setF TMP_CFG.REF10_ID 0).setF TPL_REF_CFG.TYPE 1 2)).isF TMP_STAT.TRACE_VALID = true)) ∧
    (let s := (live.setF TMP_STAT.STATE 0).setF TMP_STAT.DT_OK 255
     run (.temperOverdue 7) s = s ∧ (run (.temperOverdue 8) s).isF TMP_HIST.OVERDUE = true ∧
     ((run (.temperOverdue 8) s).faultSt 0x1C2).latched = true) := by decide +kernel

theorem test_pairCommands :
    (let c : Cmd := { ring := 3, indirect := true, a2 := 12, dataLen := 12, data := [0xB7, 0x0B] ++ List.replicate 10 0 }
     let s := posted live 0xA0 c
     s.commandReady 0xA0 c = true ∧ pairCfgOk (leAt c.data 0 4) = true ∧ s.pairState = pairSolo ∧ s.pair.switch = none ∧
     pairCfgOk 0x3B4 = true ∧ pairCfgOk 0x374 = false ∧ pairCfgOk 0x3B0 = false ∧
     answer (.pairCfg { c with a2 := 16, dataLen := 16, data := List.replicate 16 0 })
       (posted live 0xA0 { c with a2 := 16, dataLen := 16, data := List.replicate 16 0 }) = some (6, 0, 0) ∧
     answer (.pairCfg c) (s.setPair pairJoining) = some (1, 0, 0)) ∧
    (let c : Cmd := { ring := 3, a2 := 1 }
     let s := (((posted live 0xA1 c).setPair pairStandby).setF GLB_PAIR_STAT.PROVEN 1).setF GLB_PAIR_STAT.LANES_UP 1
     s.commandReady 0xA1 c = true ∧ s.switchBusy = false ∧ (run (.pairSwitch c) s).pair.switch = some (s.switchPoint, 5) ∧
     answer (.pairSwitch c) (s.setF GLB_PAIR_STAT.PROVEN 0) = some (1, 0, 0) ∧
     answer (.pairSwitch c) (s.setPair pairActive) = some (6, 0, 0)) := by decide +kernel

def hbOf (st : Nat) (ok : Bool) : Heartbeat :=
  { seq := 5, state := st, proven := true, primary := true, activeOk := ok, t1 := 0, t2 := 0, t2Seq := 0, fc0 := 0 }

/-- A standby of a pair, proven or not. -/
def standby (proven : Nat) : State :=
  (((live.setF GLB_PAIR_CFG.PAIR_EN 1).setPair pairStandby).setF GLB_PAIR_STAT.PROVEN proven).setF GLB_PAIR_STAT.LANES_UP 3

theorem test_takeOver :
    (standby 1).paired = true ∧ (standby 1).pairState = pairStandby ∧ ((standby 1).fence 11).st = 0 ∧
    (run (.heartbeatReceive 0 ⟨hbOf pairSolo true, true⟩ 0) (standby 1)).pairState = pairActive ∧
    (run (.heartbeatReceive 0 ⟨hbOf pairActive false, true⟩ 0) (standby 0)).pairState = pairStandby ∧
    (run (.heartbeatReceive 0 ⟨hbOf pairActive true, true⟩ 0) (standby 1)).pairState = pairStandby ∧
    (run (.heartbeatReceive 0 ⟨hbOf pairActive true, true⟩ 0) ((standby 1).setPair pairActive)).pairState = pairJoining ∧
    (run (.heartbeatReceive 0 ⟨hbOf pairActive true, true⟩ 0) (((standby 1).setPair pairActive).setF GLB_PAIR_CFG.PRIMARY 1)).pairState =
      pairActive ∧
    (run (.heartbeatLoss 3 true) (standby 1)).isF GLB_PAIR_HIST.SPLIT = true ∧
    (run (.heartbeatLoss 3 false) (standby 1)).pairState = pairActive ∧
    (run (.heartbeatLoss 3 false) (standby 0)).pairState = pairStandby ∧
    (run (.heartbeatLoss 3 false) ((standby 0).setF GLB_PAIR_CFG.TAKE_UNPROVEN 1)).pairState = pairActive ∧
    (run (.heartbeatLoss 2 true) (standby 1)).getF GLB_PAIR_STAT.LANES_UP = 1 ∧
    (run .peerActLow (standby 1)).isF GLB_PAIR_HIST.TAKEOVER = true ∧ (run .peerActLow (standby 0)).pairState = pairStandby := by
  decide +kernel

def snapOf (s : State) : Snapshot :=
  { gens := (List.range 16).map s.snapGen, epoch := 0, oldest := 0, cuts := [], dpll0 := 2, inc := 0, offset := 0,
    notCurrent := false, timeValid := true, discCnt := 0, pendId := 0, safety := 0 }

theorem test_pairLink :
    (sent (.heartbeatSend 0) (standby 1)).length = 2 ∧ run (.heartbeatSend 0) live = live ∧
    (run (.heartbeatSend 63) { standby 1 with pair := { hbSeq := 65535, rx := some (hbOf 2 true, 9) } }).pair.hbSeq = 0 ∧
    (run (.snapshotReceive ⟨snapOf live, true⟩) (standby 1)).pair.snap = some (snapOf live) ∧
    (let j := (standby 1).setPair pairJoining
     j.configDiffers (snapOf j) = false ∧ (run (.snapshotReceive ⟨snapOf j, true⟩) j).pair.snap = some (snapOf j) ∧
     j.configDiffers { snapOf j with gens := [] } = true ∧
     (run (.snapshotReceive ⟨{ snapOf j with gens := [] }, true⟩) j).isF GLB_PAIR_HIST.JOIN_REFUSED = true ∧
     (run .joinTimeout (j.setF GLB_PAIR_CFG.PRIMARY 1)).pairState = pairActive) ∧
    (let s : State := { standby 1 with cuts := [(4095, { words := cutWords })], gens := [(0, { started := true, fc := 9 })] }
     s.cutLive 4095 = true ∧ ((run (.pairControlMessage 4095 1 { frameCount := 10 }) s).cut 4095).sel = some (1, 10) ∧
     ((run (.pairControlMessage 4095 1 { frameCount := 9 }) s).cut 4095).sel = some (1, 10)) ∧
    (let s := ((standby 1).setF GLB_PAIR_CFG.PRIMARY 1).setF GLB_PAIR_CFG.RETURN_S 1
     let u : State := { s with time := { s.time with a := s.returnHold } }
     u.pair.provenAt + u.returnHold ≤ u.now ∧ u.switchBusy = false ∧
     (run .pairReturn u).pair.switch = some (u.switchPoint, 6) ∧ s.now < s.pair.provenAt + s.returnHold ∧
     run .pairReturn s = s) := by decide +kernel


/-- A message whose CRC fails, and a switch point that the partner tells (R472, R483). -/
theorem test_pairMessages :
    (run (.pairControlMessage 0 0 ⟨9, some 5, true⟩) (standby 1)).pair.switch = some (9, 5) ∧
    (run (.pairControlMessage 0 0 ⟨9, some 5, false⟩) (standby 1)).pair.crcErrs = 1 ∧
    (run (.snapshotReceive ⟨snapOf live, false⟩) (standby 1)).pair.snap = none ∧
    (run (.heartbeatReceive 0 ⟨hbOf 2 true, false⟩ 0) (standby 1)).pair.crcErrs = 1 ∧
    (let j := (standby 1).setPair pairJoining
     j.isF GLB_PAIR_CFG.PRIMARY = false ∧ (run .joinTimeout j).pair.waited = true ∧
     (run .joinTimeout j).pairState = pairJoining ∧ (run .joinTimeout (run .joinTimeout j)).pairState = pairActive) ∧
    run .joinTimeout (standby 1) = standby 1 := by decide +kernel
/-! ### Quench and fences (O44–O47) -/

theorem test_faults :
    (let s := live.setF QCH_SEV.SEV 2 0x1C1
     faultNamed 0x1C1 = true ∧ s.masked 0x1C1 = false ∧ s.confSev 0x1C1 = 2 ∧ faultTarget 0x1C1 = .domain 9 ∧ s.latched = [] ∧
     (let t := run (.faultPresent [{ id := 0x1C1 }]) s
      (t.faultSt 0x1C1).latched = true ∧ (t.faultSt 0x1C1).applied = 2 ∧
      (t.fence 9).st = 1 ∧ (t.fence 9).by_ = .quench ∧
      ((run (.faultClear 0x1C1) t).faultSt 0x1C1).present = false ∧ ((run (.faultClear 0x1C1) t).faultSt 0x1C1).latched = true) ∧
     (let m := s.upFence 9 (fun x => { x with st := 1, by_ := .pf })
      m.masked 0x1C1 = true ∧ (run (.faultPresent [{ id := 0x1C1 }]) m).quench = m.quench)) ∧
    live.demanded 0x120 = true ∧ run (.faultClear 0x120) live = live ∧ live.demanded 0 = false ∧
    ((run (.faultClear 0) State.reset).faultSt 0) = State.reset.faultSt 0 ∧
    ((run (.quenchSideCompare .differs) live).faultSt 1).latched = true ∧
    ((run (.quenchSideCompare .agrees) (run (.quenchSideCompare .differs) live)).faultSt 1).present = false ∧
    faultNamed 0x1D0 = true ∧ faultNamed 0x1D1 = false := by decide +kernel

/-- A mismatch that A's residue convicts, one that nothing decides, and a lost pulse (R414, R463, R464). -/
theorem test_mismatches :
    (let t := run (.faultPresent [{ id := 0xC0, masterId := 1 }]) live
     live.isF TPL_TB_CMP.A_FAILED = false ∧ live.isF TPL_TB_CMP.B_FAILED = false ∧ live.tbVerdict 1 < 4 ∧
     t.getF TPL_TB_CMP.MISMATCH_CNT = 1 ∧ t.now = live.now) ∧
    (run (.faultPresent [{ id := 0xA2, detail := 5 }]) live).getF GLB_XING_OVR.XING_OVR = 32 ∧
    ((run (.faultPresent [{ id := 0xA2, detail := 5 }]) live).faultSt 0xA2).latched = true ∧
    (run (.quenchSideCompare .silent) live).quench.sideDead = true ∧
    ((run (.quenchSideCompare .silent) live).faultSt 1).latched = true := by decide +kernel

/-- The bound is taken at or above TIME_BOUND_NS as a fault, and at half of it or below as its end (R453, R454). -/
theorem test_timeGuard :
    (let s : State := { (live.setF TPL_DPLL_STAT.STATE 2 0).setF QCH_CFG.TIME_BOUND_NS 1000 with window := { measured := true } }
     let f : State := { run (.qchAssure 1000) s with window := { measured := true } }
     s.timeBoundNs = 1000 ∧ live.mayAssure = false ∧ s.fwRuns = true ∧ run (.qchAssure 5) live = live ∧ f.armed = true ∧ f.boundNs = 1000 ∧ (f.faultSt 0x120).latched = true ∧
     ((run (.qchAssure 999) s).faultSt 0x120).latched = false ∧ ((run (.qchAssure 500) f).faultSt 0x120).present = false ∧
     ((run (.qchAssure 501) f).faultSt 0x120).present = true ∧ (run (.qchAssure 16777215) s).boundNs = 16777215 ∧
     (let u := run (.qchAssure 999) (s.setF QCH_CFG.HO_RATE_PPB 1000)
      (run (.timeBound 23696) u).boundNs = 999 ∧ ((run (.timeBound 23696) u).faultSt 0x120).latched = false ∧
      ((run (.timeBound 23697) u).faultSt 0x120).latched = true)) ∧
    live.armed = false ∧ run (.timeBound 5) live = live ∧
    (run (.lock .pf) live).isF QCH_LOCK.LOCK = true ∧ run (.lock (.vf 1)) live = live ∧
    live.clkActive 7 = false ∧ ((run (.clkoutMonitor 7 0 true) live).faultSt 0xD7).latched = true ∧
    ((run (.clkoutMonitor 7 500 false) live).faultSt 0xD7).latched = false ∧
    (let s := ((live.setF TPL_OUT_CFG.EN 1 7).setF TPL_PLL_STAT.LOCK 1 5).setF QCH_STATE.TG_ARMED 1
     s.clkActive 7 = true ∧ ((run (.clkoutMonitor 7 101 false) s).faultSt 0xD7).latched = true ∧
     ((run (.clkoutMonitor 7 (-100) false) s).faultSt 0xD7).latched = false) := by decide +kernel

/-- An ALLOW_SET of port 255 (R460): one entry, sequence number `q`; `on` sets its guard bit. -/
def allowCmd (q on : Nat) : Cmd :=
  { ring := 3, target := 255, indirect := true, a2 := BitVec.ofNat 32 (160 + 40 * on),
    dataLen := 160 + 40 * on,
    data := wordsLE [BitVec.ofNat 32 (255 + 512 * on), BitVec.ofNat 32 on, BitVec.ofNat 32 q] ++ List.replicate (148 + 40 * on) 0 }

theorem test_allowLists :
    (let c := allowCmd 7 1
     let k : State := { posted live 0xC0 c with fuses := { live.fuses with owner0 := true }, flash := { live.flash with key0 := true } }
     k.commandReady 0xC0 c = true ∧ allowSetOk c = true ∧ k.ownerKey = true ∧ k.guardFull 255 = false ∧
     answer (.allowSet c true) k = some (0, 0, 0) ∧
     ((run (.allowSet c true) k).allowOf 255).seq = some 7 ∧ (run (.allowSet c true) k).guarded 255 = true ∧
     ((run (.allowSet c true) k).allowOf 255).next.map (·.length) = some 1 ∧ (k.allowOf 255).next = none ∧
     answer (.allowSet c true) (k.upAllow 255 (fun x => { x with next := some [] })) = some (1, 0, 0) ∧
     answer (.allowSet c false) k = some (7, 0, 0) ∧
     answer (.allowSet c true) (k.upAllow 255 (fun x => { x with seq := some 7 })) = some (7, 0, 0) ∧
     answer (.allowSet c true) (k.upAllow 255 (fun x => { x with seq := some 6 })) = some (0, 0, 0) ∧
     answer (.allowSet c true) (k.upFence 7 (fun x => { x with st := 2 })) = some (5, 0, 0) ∧
     (let f := k.setF QCH_GUARD_PORTS.GUARDED 0xFF 7
      f.guardFull 255 = true ∧ answer (.allowSet c true) f = some (6, 0, 0))) ∧
    (let d := { allowCmd 7 0 with a2 := 200, dataLen := 200 }
     allowSetOk d = false ∧ answer (.allowSet d true) (posted live 0xC0 d) = some (6, 0, 0) ∧ allowSetOk (allowCmd 7 0) = true) := by
  decide +kernel

theorem test_guardScrub :
    let s := live.setF QCH_GUARD_PORTS.GUARDED 0x80000000 7
    s.guarded 255 = true ∧ ((run (.guardScrub [255]) s).faultSt 0x85).latched = true ∧
    ((run (.guardScrub [255]) s).allowOf 255).bad = true ∧ ((run (.guardScrub [254]) s).allowOf 254).bad = false := by
  decide +kernel

theorem test_fenceRequest :
    live.pcieUp = true ∧ (live.fence 7).st = 0 ∧ ((run (.fenceRequest .pf 9) live).fence 9).st = 1 ∧
    ((run (.fenceRequest .pf 9) live).fence 9).by_ = .pf ∧
    run (.fenceRequest .pf 7) (live.upFence 7 (fun x => { x with st := 3 })) = live.upFence 7 (fun x => { x with st := 3 }) ∧
    (run (.fenceRequest .pf 11) (standby 1)).isF GLB_FENCE_HIST.REQ_REFUSED = true ∧
    ((run (.fenceRequest .firmware 9) live).fence 9).by_ = .firmware ∧ run (.fenceRequest .firmware 8) live = live ∧
    live.fenceCause 0 = none ∧
    (let s : State := { live with quench := { live.quench with faults := [(0x1C1, { latched := true, applied := 2 })] } }
     s.fenceCause 9 = some 0x1C1 ∧ ((run (.fenceRequest .quench 9) s).fence 9).fault = some 0x1C1) := by decide +kernel

/-- `live` with fence `d` in state `st`, asked for by `w`. -/
def fencedAt (d st : Nat) (w : Requester) : State := live.upFence d (fun x => { x with st := st, by_ := w })

theorem test_fenceAndReset :
    ((run (.fenceComplete 11) (fencedAt 11 1 .pf)).fence 11).st = 2 ∧
    (run (.domainReset .pf 7) (fencedAt 7 1 .pf)).isF GLB_FENCE_HIST.RST_REFUSED = true ∧
    ((run (.domainReset .pf 7) (fencedAt 7 2 .pf)).fence 7).rst = true ∧
    ((run (.domainResetEnd 7) (run (.domainReset .pf 7) (fencedAt 7 2 .pf))).fence 7).rst = false ∧
    (run (.domainReset .pf 8) (fencedAt 8 2 .pf)).fw.running = false ∧
    bit ((run (.ucodeLoadComplete 7 true) live).getF GLB_UCODE_STAT.READY) 7 = true ∧
    bit (live.getF GLB_UCODE_STAT.READY) 7 = false ∧
    bit ((run (.ucodeLoadComplete 7 false) live).getF GLB_UCODE_STAT.UCODE_ERR) 7 = true := by decide +kernel

theorem test_fenceRelease :
    (let s := (fencedAt 7 2 .pf).setF GLB_UCODE_STAT.READY 255
     s.releaseRefused .pf 7 = false ∧ ((run (.fenceRelease .pf 7) s).fence 7).st = 3 ∧
     s.releaseRefused .firmware 7 = true ∧ (run (.fenceRelease .firmware 7) s).isF GLB_FENCE_HIST.REL_REFUSED = true ∧
     (run (.fenceRelease .pf 7) (fencedAt 7 2 .pf)).isF GLB_FENCE_HIST.REL_REFUSED = true) ∧
    (fencedAt 7 3 .pf).fabricClear 7 = true ∧ ((run (.unfenceComplete 7) (fencedAt 7 3 .pf)).fence 7).st = 0 ∧
    ((run (.unfenceComplete 11) (fencedAt 11 3 .pf)).fence 11).st = 0 ∧
    run (.unfenceComplete 7) (fencedAt 7 2 .pf) = fencedAt 7 2 .pf ∧
    run (.unfenceComplete 7) ((fencedAt 7 3 .pf).upFence 7 (fun x => { x with rst := true })) =
      (fencedAt 7 3 .pf).upFence 7 (fun x => { x with rst := true }) := by decide +kernel

/-! ### Meridian, clocks, intervals, phase (O48–O54) -/

theorem test_rateGo :
    (let s := (live.setF MER_GEN_RATE.NUM 1000001 3).setF MER_GEN_DEN.DEN 1 3
     (run (.rateGo .pf 3) s).isF MER_GEN_HIST.RATE_ERR 3 = true ∧ (run (.rateGo .pf 3) s).gens = s.gens ∧
     rateOk 3 1000000 1 = true ∧ rateOk 3 0 1 = false ∧ rateOk 0 24000 1001 = true ∧ rateOk 0 23999 1001 = false ∧
     rateOk 0 300 1 = true ∧ rateOk 0 301 1 = false) ∧
    (let s := ((live.setF MER_GEN_RATE.NUM 50 3).setF MER_GEN_DEN.DEN 1 3).setF MER_GEN_OFFSET.OFFSET 0xFFFFFFFF 3
     ((run (.rateGo .pf 3) s).gen 3).num = 50 ∧ ((run (.rateGo .pf 3) s).gen 3).off = -1 ∧
     run (.rateGo (.vf 1) 3) s = s ∧
     (let e := s.setF MER_GEN_CFG.EN 1 3
      ((run (.rateGo .pf 3) e).gen 3).pend = some (50, 1, -1) ∧ ((run (.rateGo .pf 3) e).gen 3).num = 60000 ∧
      (run (.rateGo .pf 3) e).isF MER_GEN_STAT.RATE_PENDING 3 = true ∧ run (.generatorEnable .pf 3) e = e) ∧
     s.isF MER_GEN_CFG.EN 3 = false ∧ (run (.generatorEnable .pf 3) s).isF MER_GEN_CFG.EN 3 = true ∧
     run (.generatorEnable .pf 0) s = s) := by decide +kernel

/-- Generator 3 at 50 Hz, enabled at time 0: S_min of 10 ms puts its first tick at 20 ms (R394, R395). -/
def gen3 : State :=
  run (.generatorEnable .pf 3) ((live.setF MER_GEN_RATE.NUM 50 3).setF MER_GEN_DEN.DEN 1 3 |> run (.rateGo .pf 3))

theorem test_tickEdge :
    gen3.time.running = true ∧ gen3.isF MER_GEN_CFG.EN 3 = true ∧ gen3.nextTick 3 = 20000000 * nsU ∧
    (let u := gen3.advanceTo (gen3.nextTick 3) 64
     gen3.nextTick 3 ≤ u.now ∧ u.time.tclk = 5000000) ∧
    ((run (.tickEdge 3) gen3).gen 3).started = true ∧ ((run (.tickEdge 3) gen3).gen 3).fc = 0 ∧
    ((run (.tickEdge 3) (run (.tickEdge 3) gen3)).gen 3).fc = 1 ∧
    (run (.tickEdge 3) (run (.tickEdge 3) gen3)).time.tclk = 10000000 ∧
    ((run (.tickEdge 3) ((run (.tickEdge 3) gen3).upGen 3 (fun y => { y with fc := 281474976710655 }))).gen 3).fc = 0 ∧
    (run (.tickEdge 3) gen3).window = gen3.window ∧ run (.tickEdge 4) live = live := by decide +kernel

theorem test_windowOfGenerator0 :
    (let s := live.setF MER_GEN_CFG.EN 1 0
     let u := s.advanceTo (s.nextTick 0) 64
     s.isF MER_GEN_CFG.EN 0 = true ∧ s.nextTick 0 ≤ u.now ∧ (run (.tickEdge 0) s).window.opened = true ∧
     (run (.tickEdge 0) s).window.commitDone = false ∧ s.window.budgetDone = false) := by decide +kernel

/-- A commit of tables 0 and 13 due at the window's frame count, one of table 1 for the next. -/
def committing : State :=
  { flowsIn (run (.tblWrite macCmd) (posted live 0x10 macCmd)) [flowOf 0 7] with
    gens := [(0, { started := true, fc := 9 })], window := { opened := true, commitDone := false },
    epochs := { commits := [(9, 8193), (10, 2)] } }

theorem test_commitCycle :
    committing.frameCount = 9 ∧ committing.cclk = true ∧ committing.window.commitDone = false ∧
    (committing.epochs.commits.filter (fun c => decide (c.1 ≤ committing.frameCount))).foldl (fun m c => m ||| c.2) 0 = 8193 ∧
    ((run .commitCycle committing).active 0).length = 1 ∧ committing.shadow 0 ≠ committing.active 0 ∧
    (run .commitCycle committing).tables.flowsAct = [flowOf 0 7] ∧
    (run .commitCycle committing).epochs.commits = [(10, 2)] ∧ (run .commitCycle committing).epochs.serial = 1 ∧
    (run .commitCycle (run .commitCycle committing)).epochs.serial = 1 ∧
    live.drainedEpoch = none ∧ (run .commitCycle committing).drainedEpoch = some (0, 8193) ∧
    (run .epochDrained (run .commitCycle committing)).epochs.oldest = 1 := by decide +kernel

theorem test_budget :
    (let s : State := { live with window := { opened := true, pct := 80 }, gens := [(0, { started := true, fc := 65545 })] }
     let u := s.advanceTo s.budgetEndAt 64
     s.budgetEndAt ≤ u.now ∧ (run .budgetEnd s).window.budgetDone = true ∧
     (run (.merDone 9) s).window.done = true ∧ (run (.merDone 10) s).getF MER_BUDGET_STAT.DONE_BAD = 1 ∧
     (run (.merDone 9) (s.setF MER_BUDGET_STAT.MISS_RUN 2)).getF MER_BUDGET_STAT.MISS_RUN = 0) ∧
    run .budgetEnd live = live := by decide +kernel

/-- A window of a running, judged firmware that closes without a mark: the third in a row is a fault (R35). -/
theorem test_missedWindows :
    let s : State := { ((live.setF MER_GEN_CFG.EN 1 0).setF MER_BUDGET_STAT.HB_ARMED 1).setF MER_BUDGET_STAT.MISS_RUN 1 with
      window := { opened := true, budgetDone := true, lastCurrent := true }, gens := [(0, { started := true, fc := 9 })] }
    let u := s.setF MER_BUDGET_STAT.MISS_RUN 2
    s.judged = true ∧ s.nextTick 0 ≤ (s.advanceTo (s.nextTick 0) 64).now ∧
    (run (.tickEdge 0) s).getF MER_BUDGET_STAT.MISS_RUN = 2 ∧ s.masked 0x141 = false ∧ (s.faultSt 0x141).present = false ∧
    u.judged = true ∧ u.getF MER_BUDGET_STAT.MISS_RUN = 2 ∧
    ((run (.tickEdge 0) u).faultSt 0x141).latched = true ∧ (run (.merDone 9) { s with fw := {} }) = { s with fw := {} } := by decide +kernel

theorem test_plls :
    live.isF TPL_PLL_STAT.LOCK 6 = false ∧ live.isF TPL_PLL_STAT.NO_BAND 6 = false ∧ live.stalled = [] ∧ (live.pllBand 6).2 = true ∧
    (live.pllBand 2).2 = true ∧ ((live.setF TPL_PLL_STAT.NO_BAND 1 6).pllBand 6).2 = false ∧
    (run (.pllLock 6) live).isF TPL_PLL_STAT.LOCK 6 = true ∧
    (run (.pllLock 6) (live.setF TPL_PLL_STAT.NO_BAND 1 6)).isF TPL_PLL_STAT.LOCK 6 = false ∧
    (let s := (live.setF TPL_PLL_STAT.LOCK 1 2).setF TPL_PLL_STAT.LOCK 1 6
     (run (.pllLossOfLock 6) s).isF TPL_PLL_HIST.LOCK_LOST 6 = true ∧ ((run (.pllLossOfLock 6) s).pll 6).gated = true ∧
     ((run (.pllLossOfLock 6) s).faultSt 0xCE).latched = true ∧ (run (.pllLossOfLock 2) s).time.running = false ∧
     run (.pllLock 6) s = s) ∧ run (.pllLossOfLock 6) live = live := by decide +kernel

theorem test_staged :
    (let s := ((live.setF TPL_OUT_DIV.D 0 7).setF TPL_OUT_PW.HIGH 3 7).setF TPL_PLL_STAT.PENDING 1 5
     ((run (.divGo .pf) s).outp 7).d = 1 ∧ ((run (.divGo .pf) s).outp 7).high = 3 ∧ run (.divGo (.vf 1)) s = s ∧
     (run (.divGo .pf) s).isF TPL_PLL_STAT.PENDING 5 = false) ∧
    (let s := live.setF TPL_CS_CTRL.SYNC_MODE 1
     let a := run (.syncArm .pf) s
     let b := run (.syncinEdge 0) a
     run (.syncinEdge 1000) s = s ∧ run (.syncArm (.vf 1)) s = s ∧ s.time.syncs = 0 ∧ b.time.syncs = 1 ∧
     b.isF TPL_CS_STAT.SYNC_SEEN = true ∧ b.isF TPL_CS_STAT.SYNC_EARLY = false ∧ b.isF TPL_CS_CTRL.SYNC_ARM = false ∧
     (run (.syncinEdge 999) (run (.syncArm .pf) b)).isF TPL_CS_STAT.SYNC_EARLY = true ∧
     (run (.syncinEdge 1000) (run (.syncArm .pf) b)).time.syncs = 2 ∧
     ((run (.syncinEdge 1000) ((b.setF TPL_CS_CTRL.SYNC_MODE 2).setF TPL_OUT_CFG.SYNC_EN 1 3)).outp 3).synced = 2 ∧
     ((run (.syncinEdge 0) ((a.setF TPL_CS_CTRL.LOAD_ON_SYNC 1).setF TPL_OUT_DIV.D 9 7)).outp 7).d = 9) := by decide +kernel

/-- Channel 11 of the time-interval unit in INTERVAL mode, running, one interval to take. -/
def tiuOn : State := ((live.setF TPL_TIU_CFG.MODE 0 11).setF TPL_TIU_STAT.STATE 1 11).setF TPL_TIU_WMAX.WIN_MAX 4096 11

theorem test_tiuRuns :
    tiuOn.tiuState 11 = 1 ∧ tiuOn.tiuMode 11 = 0 ∧ tiuOn.tiuMay .pf 11 = true ∧ run (.go .pf 11) tiuOn = tiuOn ∧
    (run (.abort .pf 11) tiuOn).tiuState 11 = 3 ∧ run (.abort .pf 14) tiuOn = tiuOn ∧
    live.tiuBad 11 = false ∧ (run (.go .pf 11) live).tiuState 11 = 1 ∧
    (live.setF TPL_TIU_CFG.STOP_SRC 53 11).tiuBad 11 = true ∧
    (run (.go .pf 11) (live.setF TPL_TIU_CFG.STOP_SRC 53 11)).isF TPL_TIU_STAT.CFG_ERR 11 = true ∧
    ((live.setF TPL_TIU_CFG.STOP_SRC 53 11).setF TPL_TIU_CFG.MODE 1 11).tiuBad 11 = false ∧
    run (.tiuEdge 11 true 5 { bin := 0 }) live = live := by decide +kernel

theorem test_tiu :
    (let s := run (.tiuEdge 11 false 100 { bin := 63 }) tiuOn
     (tiuOn.tiu 11).start = none ∧ (tiuOn.tiu 11).preStart = 0 ∧ (s.tiu 11).start = some (6463 * 64) ∧
     deadTime (s.tiu 11).lastStart (6463 + 319) = true ∧ deadTime (s.tiu 11).lastStart (6463 + 320) = false ∧
     (run (.tiuEdge 11 false 105 { bin := 62 }) s).getF TPL_TIU_ERR.DEAD_MISS 11 = 1 ∧
     ((run (.tiuEdge 11 false 105 { bin := 63 }) s).tiu 11).start = some (6463 * 64) ∧
     s.isF TPL_TIU_CFG.DITHER 11 = false ∧ s.dither 11 = 0 ∧ s.tiuFix 11 = 0 ∧
     s.getF TPL_TIU_CFG.START_SRC 11 = s.getF TPL_TIU_CFG.STOP_SRC 11 ∧ (s.tiu 11).lastStart ≠ some 6464 ∧
     ((run (.tiuEdge 11 true 100 { bin := 63 }) s).tiu 11).n = 0 ∧
     ((run (.tiuEdge 11 true 101 { bin := 0 }) s).tiu 11).sum = 64 ∧ (run (.tiuEdge 11 true 101 { bin := 0 }) s).getF TPL_TIU_LAST_LO.LAST 11 = 64 ∧
     ((run (.tiuEdge 11 true 101 { bin := 0 }) (s.setF TPL_TIU_WMIN.WIN_MIN 1 11)).tiu 11).n = 0 ∧
     ((run (.tiuTimeout 11) s).tiu 11).start = none ∧ (run (.tiuTimeout 11) s).getF TPL_TIU_ERR.TIMEOUTS 11 = 1 ∧
     run (.tiuTimeout 11) live = live) := by decide +kernel

theorem test_tiuPrescaled :
    (let s := (tiuOn.upTiu 11 (fun x => { x with preStart := 7, preStop := 3 })).setF TPL_TIU_CFG.PRE_STOP 2 11
     ((run (.tiuEdge 11 false 9 { bin := 0 }) s).tiu 11).preStart = 6 ∧ ((run (.tiuEdge 11 true 9 { bin := 0 }) s).tiu 11).preStop = 2 ∧
     ((run (.tiuEdge 11 true 9 { bin := 0 }) ((tiuOn.setF TPL_TIU_CFG.PRE_STOP 2 11).setF TPL_TIU_CFG.MODE 1 11)).tiu 11).preStop = 3 ∧
     (run (.tiuEdge 11 true 9 { bin := 0 }) (tiuOn.upTiu 11 (fun x => { x with lastStop := some 576 }))).getF TPL_TIU_ERR.DEAD_MISS 11 = 1) ∧
    (let p := run (.tiuEdge 11 false 100 { bin := 0 }) ((tiuOn.setF TPL_TIU_CFG.MODE 1 11).setF TPL_TIU_CFG.NLOG2 1 11)
     p.tiuMode 11 = 1 ∧ p.tiuN 11 = 2 ∧ ((run (.tiuEdge 11 false 105 { bin := 0 }) p).tiu 11).sum = 20480 ∧
     (run (.tiuEdge 11 false 105 { bin := 0 }) p).tiuState 11 = 1 ∧
     (run (.tiuEdge 11 false 110 { bin := 0 }) (run (.tiuEdge 11 false 105 { bin := 0 }) p)).tiuState 11 = 2) ∧
    (let t := tiuOn.setF TPL_TIU_CFG.MODE 2 11
     t.tiuMode 11 = 2 ∧ (run (.tiuEdge 11 false 4 { bin := 0 }) t).tiuState 11 = 2 ∧
     (run (.tiuEdge 11 false 4 { bin := 0 }) t).getF TPL_TIU_LAST_LO.LAST 11 = 16384) := by decide +kernel

/-- Port 255 with a phase window running that ends after one servo update. -/
def phaseOn (x : Phase) : State := { (portAt live 255 5).setF TPL_PH_PORT.PH_EN 1 255 with phases := [(255, x)] }

theorem test_phaseWindow :
    (let s := phaseOn { running := true, avg := 1, updates := 1, phi := [8, 24], edge := [16, 16], slipPs := 1000 }
     (run (.phaseBeat 255 { count := 0 } { count := 0 } 0) s).phase 255 ≠ s.phase 255 ∧ 0 ≤ s.beatPhi 255 0 0 ∧ s.beatPhi 255 0 0 < phT ∧
     s.lclk = true ∧ s.beatSlips 255 0 = false ∧ s.beatSlips 255 25600000 = true ∧
     s.phiOf 255 ⟨8192, []⟩ ⟨0, []⟩ = 25600000 ∧ s.phiOf 255 ⟨8192, [(1, 31), (5, 32)]⟩ ⟨0, []⟩ = 15625 ∧
     ((run (.phaseBeat 255 { count := 8192 } { count := 0 } 0) s).phase 255).slip = true ∧
     s.portState 255 = 5 ∧ s.fwRuns = true ∧
     (let t := run (.phaseWindowEnd 255 { partner := none }) s
      t.getF TPL_PH_STAT.WIN_SEQ 255 = 1 ∧ t.getF TPL_PH_STAT.SERVICE 255 = 4 ∧ (t.phase 255).phi = [] ∧ (t.phase 255).running = true ∧
      t.isF TPL_PH_STAT.VALID 255 = true ∧ t.getF TPL_PH_EDGE.EDGE 255 = 0)) ∧
    (let s := phaseOn { running := true, avg := 2, updates := 1, phi := [0], edge := [0] }
     run (.phaseWindowEnd 255 { partner := none }) s = s) ∧
    run (.phaseBeat 255 { count := 0 } { count := 0 } 0) live = live := by decide +kernel

/-- The TLV of a partner that is syntonised. -/
def partner : PartnerTlv := { phase := 0, edge := 0, valid := true, synt := true, txd := 0, rxd := 0 }

theorem test_phaseService :
    (let s := phaseOn { running := true, avg := 1, updates := 1, phi := [8, 24], edge := [16, 16], slipPs := 1000 }
     let p := s.upPort 255 (fun y => { y with ptp := { y.ptp with flags := 17 } })
     let q := phaseOn { running := true, avg := 1, updates := 1, phi := [8], edge := [16], slip := true }
     let r := q.upPort 255 (fun y => { y with ptp := { y.ptp with flags := 1 } })
     bit (p.port 255).ptp.flags 0 = true ∧ bit (p.port 255).ptp.flags 4 = true ∧ bit (r.port 255).ptp.flags 4 = false ∧
     (run (.phaseWindowEnd 255 { fresh := false }) s).getF TPL_PH_STAT.SERVICE 255 = 1 ∧
     (run (.phaseWindowEnd 255 { partner := some partner }) p).getF TPL_PH_STAT.SERVICE 255 = 2 ∧
     (run (.phaseWindowEnd 255 { partner := some { partner with synt := false } }) p).getF TPL_PH_STAT.SERVICE 255 = 4 ∧
     (run (.phaseWindowEnd 255 { partner := some partner }) s).getF TPL_PH_STAT.SERVICE 255 = 4 ∧
     (run (.phaseWindowEnd 255 { partner := some partner }) r).getF TPL_PH_STAT.SERVICE 255 = 4 ∧
     (run (.phaseWindowEnd 255 { partner := some partner }) r).isF TPL_PH_STAT.VALID 255 = false ∧
     sent (.phaseWindowEnd 255 { partner := some partner }) p =
       [.phaseTlv 255 { partner with synt := false, winSeq := 1, valid := true }] ∧
     (run (.phaseWindowEnd 255 {}) { s with fw := { s.fw with running := false } }).getF TPL_PH_STAT.SERVICE 255 = 0) := by
  decide +kernel

theorem test_phaseEnable :
    (let s := portAt live 255 5
     s.isF TPL_PH_PORT.PH_EN 255 = false ∧ s.portUnused 255 = false ∧ (run (.phEnSet .pf 255) s).isF TPL_PH_PORT.PH_EN 255 = true ∧
     hasAnchor (s.portMode 255) (s.getF TIL_PORT_CFG.FEC 255) = true ∧
     (run (.phEnSet .pf 255) s).getF TPL_PH_STAT.SERVICE 255 = 1 ∧
     (run (.phEnSet .pf 255) (s.setF TIL_PORT_CFG.MODE 1 255)).getF TPL_PH_STAT.SERVICE 255 = 5 ∧
     (run (.phEnClear .pf 255) (run (.phEnSet .pf 255) s)).getF TPL_PH_STAT.SERVICE 255 = 0 ∧
     run (.phEnClear .pf 255) s = s ∧ run (.phEnSet (.vf 1) 255) s = s ∧ run (.alignmentLoss 254) s = s ∧
     (run (.alignmentLoss 255) s).isF TPL_PH_STAT.ALIGN_LOSS 255 = true) := by decide +kernel
/-! ### Ports and MAC (O55, O56) -/

theorem test_portEnable :
    (let s := live
     s.isF TIL_PORT_CFG.ENABLE 255 = false ∧ s.portCfgOk 255 = true ∧ (run (.portEnable .pf 255) s).portState 255 = 1 ∧
     (run (.portEnable .pf 255) (s.setF TIL_PORT_CFG.MODE 2 255)).portState 255 = 6 ∧
     run (.portEnable (.vf 1) 255) s = s ∧
     (run (.portDisable .pf 255) (portAt s 255 1)).portState 255 = 0 ∧
     (run (.portDisable .pf 255) (portAt s 255 1)).getF TIL_PORT_STAT.CAUSE 255 = 8 ∧ run (.portDisable .pf 255) s = s ∧
     (portAt s 255 5).isF TIL_PORT_CFG.ENABLE 255 = true) := by decide +kernel

theorem test_linkLoss :
    (let s := portAt live 255 5
     s.causeMet 255 1 1 0 0 = true ∧ (run (.linkLoss 255 1 1 0 { mask := 0 } false false) s).portState 255 = 1 ∧
     (run (.linkLoss 255 1 1 0 { mask := 0 } false false) s).getF TIL_PORT_STAT.CAUSE 255 = 1 ∧
     (run (.linkLoss 255 1 1 0 { mask := 0 } false false) s).isF TIL_PORT_HIST.DOWN_SEEN 255 = true ∧
     s.causeMet 255 1 0 0 0 = false ∧ run (.linkLoss 255 1 0 0 { mask := 0 } false false) s = s ∧
     (run (.linkLoss 255 7 0 0 { mask := 0 } false false) (portAt live 255 4)).isF TIL_PORT_HIST.FLAP_IN_HOLDOFF 255 = true ∧
     (run (.linkLoss 255 1 1 0 { mask := 0 } false false) (portAt live 255 1)).portState 255 = 1 ∧
     run (.linkLoss 255 1 1 0 { mask := 0 } false false) (portAt live 255 6) = portAt live 255 6 ∧
     -- 16 bad headers of one lane within 64 (R123)
     (let l := s.setF TIL_LANE_STAT.LOCK 1 255
      (l.headersLost 255 [(0, List.replicate 16 false)]).1 = 1 ∧ (l.headersLost 255 [(0, List.replicate 15 false)]).1 = 0 ∧
      (run (.linkLoss 255 3 0 0 ⟨0, [(0, List.replicate 16 false)]⟩ false false) l).getF TIL_PORT_STAT.CAUSE 255 = 3 ∧
      (run (.linkLoss 255 3 0 0 ⟨0, [(0, List.replicate 15 false)]⟩ false false) l).portState 255 = 5)) := by decide +kernel

/-- `live` with a firmware that has come through its windows, so that it can train ports (R128). -/
def training : State := { live with fw := { live.fw with windowed := true } }

theorem test_linkUp :
    (let s := portAt training 255 1
     let a := run (.signalDetect 255) s
     let b := run (.cdrLock 255 { lane := 0 }) a
     s.rising 255 1 = true ∧ modeLanes (s.portMode 255) = 1 ∧ a.isF TIL_LANE_STAT.SIGNAL 255 = true ∧ b.portState 255 = 1 ∧
     b.allLanes 255 TIL_LANE_STAT.SIGNAL = true ∧ b.allLanes 255 TIL_LANE_STAT.CDR_LOCK = true ∧
     (run (.holdoffEntry 255 []) b).portState 255 = 4 ∧ (run (.holdoffEntry 255 []) b).isF TIL_LANE_STAT.LOCK 255 = true ∧
     (run (.cdrLock 255 { lane := 0 }) (a.setF TIL_PORT_CFG.TRAIN 1 255)).portState 255 = 2 ∧
     (run (.cdrLock 255 { lane := 0 }) { a.setF TIL_PORT_CFG.TRAIN 1 255 with fw := {} }).portState 255 = 3) ∧
    (portAt training 255 3).trainerUp = true ∧ (run (.trainingStart 255) (portAt training 255 3)).portState 255 = 2 ∧
    (portAt live 255 3).trainerUp = false ∧ (portAt live 255 3).rising 255 3 = true ∧
    ((run (.trainingComplete 255) (portAt live 255 2)).port 255).trained = true ∧
    run (.holdoffEntry 255 []) (portAt live 255 2) = portAt live 255 2 ∧
    run (.trainingComplete 255) (portAt live 255 4) = portAt live 255 4 ∧
    (portAt live 255 4).rising 255 4 = true ∧ (run (.holdoffExpiry 255) (portAt live 255 4)).portState 255 = 5 := by
  decide +kernel

/-- With GUARD 3 a coefficient of reference 10 stays within 7 and 13 (R130). -/
theorem test_adaptation :
    (let s := ((portAt live 255 5).setF TIL_PORT_ADAPT.GUARD 3 255).upLane 255 (fun x => { x with refs := [(2, 10)] })
     Tab.get? ((run (.adaptGuardHit 255 0 2 13) s).lane 255).coeffs 2 = some 13 ∧
     (run (.adaptGuardHit 255 0 2 13) s).isF TIL_LANE_STAT.GUARD_HIT 255 = false ∧
     Tab.get? ((run (.adaptGuardHit 255 0 2 14) s).lane 255).coeffs 2 = some 13 ∧
     (run (.adaptGuardHit 255 0 2 14) s).isF TIL_PORT_HIST.ADAPT_GUARD 255 = true ∧
     run (.adaptGuardHit 255 0 2 5) (s.setF TIL_LANE_STAT.FROZEN 1 255) = s.setF TIL_LANE_STAT.FROZEN 1 255 ∧
     s.portEnabled 255 = true ∧ (run (.adaptFreeze 255 0) s).isF TIL_LANE_STAT.FROZEN 255 = true ∧
     ((run (.adaptResume 255 0) (run (.adaptFreeze 255 0) s)).lane 255).nonRandom = false ∧
     s.portUnused 255 = false ∧ ((run (.recapture .pf 255 [(255, 2, 4)]) s).lane 255).refs =
       ((run (.recapture .pf 255 [(255, 2, 4)]) s).lane 255).coeffs ∧
     (let f := (s.setF TIL_PORT_CFG.FEC 2 255).setF TIL_PORT_FEC.DEG_THRESH 100 255
      f.canSend 255 = true ∧ (run (.fecDegradeWindow 255 { symbols := 101 }) f).isF TIL_PORT_HIST.FEC_DEGRADE 255 = true ∧
      (run (.fecDegradeWindow 255 { symbols := 100 }) f).isF TIL_PORT_HIST.FEC_DEGRADE 255 = false)) := by decide +kernel

theorem test_lowPowerIdle :
    (let s := ((portAt live 255 5).setF TIL_PORT_CFG.TX_LPI_EN 1 255).setF TIL_PORT_CFG.RX_LPI_EN 1 255
     s.canSend 255 = true ∧ s.lpiOk 255 = true ∧ s.portFrames 255 = 0 ∧ (s.port 255).fcOut = [] ∧
     (run (.txLpiEnter 255) s).isF TIL_PORT_STAT.TX_LPI 255 = true ∧ (run (.rxLpiEnter 255) s).isF TIL_LANE_STAT.FROZEN 255 = true ∧
     (run (.rxLpiExit 255) (run (.rxLpiEnter 255) s)).isF TIL_PORT_STAT.RX_LPI 255 = false ∧
     (let d : Direct := { ring := none, launch := some 0 }
      let l := s.upQueue (queueKey 255 8) (fun x => { x with onTile := [{ direct := some d }] })
      (l.launchHead 255 0).isSome = true ∧ (run (.txLpiWake 255) (run (.txLpiEnter 255) s)).isF TIL_PORT_STAT.TX_LPI 255 = true ∧
      (run (.txLpiWake 255) (l.setF TIL_PORT_STAT.TX_LPI 1 255)).isF TIL_PORT_STAT.TX_LPI 255 = false)) ∧
    ((portAt live 255 5).setF TIL_PORT_CFG.MODE 7 255).lpiOk 255 = false := by decide +kernel

/-- A frame of `n` octets without its FCS, of Ethernet type `t`. -/
def eth (t n : Nat) : Bytes :=
  [2, 0, 0, 0, 0, 9, 2, 0, 0, 0, 0, 1, BitVec.ofNat 8 (t / 256), BitVec.ofNat 8 t] ++ List.replicate (n - 14) 0

theorem test_frameReceive :
    (let s := portAt live 255 5
     let f : RxFrame := { port := 255, bytes := eth 0x9000 60 }
     let t := run (.frameReceive f) s
     s.canSend 255 = true ∧ s.cclk = true ∧ s.errFlags f = 0 ∧ t.counter (group 0 255) 0 = 1 ∧ t.counter (group 0 255) 1 = 64 ∧
     s.preRoom 7 60 false = true ∧ (t.tile 7).pre.map (·.inPort) = [255] ∧
     run (.frameReceive f) (portAt live 255 3) = portAt live 255 3 ∧
     (parse (eth 0x8808 60)).etype = 0x8808 ∧ ((run (.frameReceive { f with bytes := eth 0x8808 60 }) s).tile 7).pre = [] ∧
     (run (.frameReceive f) (portAt live 255 4)).counter (group 2 255)
       ((portAt live 255 4).trustClass 255 (parse f.bytes) * 64 + 0x0A) = 1 ∧
     (parse (eth 0x88F7 60)).isPtp = true ∧ s.preRoom 7 2000000 false = false ∧
     s.trapped 255 (parse f.bytes) f.bytes = none ∧
     run (.frameReceive { f with training := true }) s = s ∧ (portAt live 255 2).portState 255 = 2 ∧
     ((run (.frameReceive { f with bytes := eth 0x88F7 60 }) (portAt live 255 4)).tile 7).pre.length = 1) := by
  decide +kernel

/-- Octets 59 without FCS make a frame of 63, which is short; MAXLEN counts the FCS (R138–R140). -/
theorem test_erroredFrames :
    (let s := (portAt live 255 5).setF TIL_PORT_MAXLEN.MAXLEN 1518 255
     s.errFlags { port := 255, bytes := eth 0x9000 59 } = 8 ∧ s.errFlags { port := 255, bytes := eth 0x9000 60, fcsOk := false } = 1 ∧
     (run (.frameReceive { port := 255, bytes := eth 0x9000 59 }) s).counter (group 0 255) 5 = 1 ∧
     ((run (.frameReceive { port := 255, bytes := eth 0x9000 59 }) s).tile 7).pre = [] ∧
     (run (.frameReceive { port := 255, bytes := eth 0x9000 60, fcsOk := false, codeErr := true }) s).counter (group 0 255) 39 = 1 ∧
     (s.setF TIL_PORT_CFG.FEC 2 255).errFlags { port := 255, bytes := eth 0x9000 60, badWord := true } = 4 ∧
     s.errFlags { port := 255, bytes := eth 0x9000 60, badWord := true } = 0 ∧
     (run (.frameReceive { port := 255, bytes := eth 0x9000 59 }) (s.setF TIL_PORT_CFG.ERR_DELIVER 1 255)).counter (group 0 255) 38 =
       1) := by decide +kernel

theorem test_maxlen (b : Bytes) (h : b.length = 1515) :
    ((portAt live 255 5).setF TIL_PORT_MAXLEN.MAXLEN 1518 255).errFlags { port := 255, bytes := b } = 2 := by
  have e : ((portAt live 255 5).setF TIL_PORT_MAXLEN.MAXLEN 1518 255).getF TIL_PORT_MAXLEN.MAXLEN 255 = 1518 := by
    decide +kernel
  simp [State.errFlags, e, h, flag]

theorem test_flowControl :
    (let s := (portAt live 255 5).setF TIL_PORT_CFG.FC 1 255
     let t := run (.flowControlFrameReceive 255 (.pause 65535)) s
     t.stoppedCls 255 6 = true ∧ t.stoppedCls 255 7 = false ∧ t.counter (group 0 255) 8 = 1 ∧
     (run (.flowControlFrameReceive 255 (.pause 0)) t).stoppedCls 255 6 = false ∧
     (run (.pauseTimeExpiry 255 0) t).stoppedCls 255 6 = false ∧
     (run (.flowControlFrameReceive 255 (.pfc 1 [5])) s).counter (group 0 255) 25 = 1 ∧
     (let w := t.setF TIL_PORT_PAUSE.WDOG_MS 10 255
      let u := run (.pauseWatchdog 255 0) w
      u.isF TIL_PORT_HIST.PAUSE_WDOG 255 = true ∧ u.stoppedCls 255 6 = false ∧ bit (u.port 255).ignore 6 = true ∧
      (run (.flowControlFrameReceive 255 (.pause 1)) u).stoppedCls 255 6 = false ∧
      bit ((run (.pauseRecoverEnd 255 0) u).port 255).ignore 6 = false)) ∧
    (let s := ((portAt live 255 5).setF TIL_PORT_CFG.FC 2 255).setF TIL_PORT_PAUSE.PFC_CLASSES 3 255
     let t := run (.flowControlFrameReceive 255 (.pfc 7 [1, 0, 1])) s
     t.stoppedCls 255 0 = true ∧ t.stoppedCls 255 1 = false ∧ t.stoppedCls 255 2 = false ∧ t.counter (group 0 255) 12 = 1) ∧
    (let s := ((portAt live 255 5).setF TIL_PORT_CFG.FC 2 255).setF TIL_BUF_STAT.XOFF 4 255
     ((run (.pfcRefresh 255) s).port 255).fcOut = [.pfc 4 [0, 0, 65535, 0, 0, 0, 0, 0]] ∧
     ((run (.pfcRefresh 255) (s.setF TIL_PORT_CFG.FC 1 255)).port 255).fcOut = [.pause 65535] ∧
     run (.pfcRefresh 255) (s.setF TIL_BUF_STAT.XOFF 0 255) = s.setF TIL_BUF_STAT.XOFF 0 255) := by decide +kernel

/-! ### Lookup, fabric and egress (O57, O58) -/

/-- `live` with frame `b` from port `p` waiting at its tile. -/
def waiting (s : State) (p : Nat) (b : Bytes) : State :=
  s.preAdd (p / 32) { bytes := b, inPort := p, stamp := 0, ptp := (parse b).isPtp }

/-- The MAC table in force knows MAC 00:00:00:00:00:02 in VLAN 1 on port 5. -/
def known : State := { live with tables := { live.tables with act := [(0, [{ idx := 0, words := macRec }])] } }

/-- The same with the clock of the core, or of the lines, stopped. -/
def still (j : Nat) (s : State) : State := s.upPll j (fun x => { x with gated := true })

theorem test_clocks :
    live.cclk = true ∧ live.lclk = true ∧ (still 0 live).cclk = false ∧ (still 3 live).lclk = false ∧
    run (.fabricSlot {}) (still 0 live) = still 0 live ∧ run .cutSweep (still 0 live) = still 0 live := by decide +kernel

theorem test_lookup :
    (let b := eth 0x88F7 60
     let s := (waiting live 255 b).setF GLB_BUF_HP.HP_POOL 100
     (s.fence 7).st = 0 ∧ (s.tile 7).pre.length = 1 ∧ (parse b).isPtp = true ∧ s.stagingRoom 7 8 (frameCells 60) = true ∧
     s.acctSum 3 + frameCells 60 ≤ s.getF GLB_BUF_HP.HP_POOL ∧
     ((run (.lookup 7) s).tile 7).pre = [] ∧ Tab.getD (run (.lookup 7) s).epochs.count 0 0 = 1 ∧
     (s.decideFrame 7 255 b 0).2.1.destKind = 3 ∧ run (.lookup 6) s = s ∧ 
     run (.lookup 7) (s.upFence 7 (fun x => { x with st := 1 })) = s.upFence 7 (fun x => { x with st := 1 })) := by decide +kernel

theorem test_decide :
    (let b := [0, 0, 0, 0, 0, 2, 2, 0, 0, 0, 0, 1, 0x90, 0] ++ List.replicate 46 0
     let h := parse b
     let p := 255
     let s := known.setF TIL_PORT_LKP.PVID 1 255
     h.isPtp = false ∧ h.etype = 0x9000 ∧ h.bad = false ∧ h.trunc = false ∧ h.isMulticast = false ∧ h.dmac = 2 ∧
     s.lookupVlan p h = 1 ∧ s.flowHit p h = none ∧
     s.aclFind 7 (aclCommon p (s.lookupVlan p h) h (s.way p h) (s.flowHit p h).isSome) h = none ∧
     (s.l2Find 1 2).map (fun r => (l2Action r.words, l2Dest r.words)) = some (0, 5) ∧
     (s.decideFrame 7 p b 0).2.1.dest = 5) ∧
    (parse (eth 0x0800 20)).bad = true ∧
    (live.decideFrame 7 255 (eth 0x0800 20) 0).2.1.dropReason = 2 := by decide +kernel

theorem test_cells :
    (let f : Frame := { bytes := eth 0x9000 60, res := { destKind := 0, dest := 5 } }
     let s := live.upStream 7 17 (fun _ => { frags := [{ frame := f, start := 0, len := 92 }], fill := 92, seq := 65535 })
     ((run (.cellClose 7 17) s).stream 7 17).closed.map (fun c => (c.seq, c.src, c.multicast)) = [(65535, 7, true)] ∧
     ((run (.cellClose 7 17) s).stream 7 17).seq = 0 ∧ run (.cellClose 7 16) s = s) ∧
    (let c : Cell := { kind := 0, src := 2, dst := 3, seq := 9 }
     let s : State := { live with fabric := { live.fabric with flight1 := [(5, c)] } }
     ((run (.cellLand 5 true) s).bank 5).queues = [(3, [c])] ∧ (run (.cellLand 5 true) s).fabric.flight1 = [] ∧
     bit ((run (.cellLand 5 false) s).getF GLB_FAB_STAT.CELL_ERR) 2 = true ∧
     (run (.cellLand 5 true) (s.upFence 3 (fun x => { x with st := 1 }))).fabric.returns.contains (2, 5, 3) = true ∧
     run (.cellLand 4 true) s = s) := by decide +kernel

/-- In slot 3 tile 2 sends to bank 5, and bank 2 visits tile 5 (R188). -/
theorem test_fabricSlot :
    let c : Cell := { kind := 0, src := 2, dst := 3, seq := 9 }
    let s : State := { live.upStream 2 3 (fun x => { x with closed := [c] }) with fabric := { live.fabric with slot := 3 } }
    (run (.fabricSlot {}) s).fabric.slot = 4 ∧ (run (.fabricSlot {}) s).fabric.flight1 = [(5, c)] ∧
    ((run (.fabricSlot {}) s).fabric.flight2.find? (fun e => e.2.bank == 2)).map (·.1) = some 5 ∧
    ((run (.fabricSlot {}) (s.upFence 2 (fun x => { x with st := 2 }))).stream 2 3).closed = [c] := by decide +kernel

/-- SEQ 1,023 ahead is held, 1,024 ahead is not (R202). -/
theorem test_resequencing :
    let k := uniKey 2 3 false
    let c : Nat → Cell := fun n => { kind := 0, src := 2, dst := 3, seq := n }
    let v : Nat → Visit := fun n => { bank := 1, slot := 0, cells := [c n], word := [] }
    let s : Nat → State := fun n => { live with fabric := { live.fabric with flight2 := [(3, v n)], uni := [(k, { expect := 65535 })] } }
    (s 65535).fabric.flight2.find? (fun e => e.1 == 3) = some (3, v 65535) ∧
    (run (.visitReceive 3 [true]) (s 65535)).uniSeq k = { expect := 0 } ∧
    ((run (.visitReceive 3 [true]) (s 1022)).uniSeq k).held.length = 1 ∧
    ((run (.visitReceive 3 [true]) (s 1023)).uniSeq k).held = [] ∧
    (let t := run (.visitReceive 3 [true]) (s 1022)
     (t.uniSeq k).nearest = some 1023 ∧ ((run (.reseqTimeout 2 3 false) t).uniSeq k).expect = 1023 ∧
     ((run (.reseqTimeout 2 3 false) t).uniSeq k).held = []) ∧
    run (.reseqTimeout 2 3 false) (s 1) = s 1 := by decide +kernel

/-- Port 255 up with frame `f` at the head of queue slot `slot`. -/
def queued (slot : Nat) (f : Frame) : State :=
  (portAt live 255 5).upQueue (queueKey 255 slot) (fun x => { x with onTile := [f, f] })

theorem test_schedulerPick :
    (let f : Frame := { bytes := eth 0x9000 60, inPort := 3, counted := true }
     let s := queued 7 f
     s.guarded 255 = false ∧ s.launchHead 255 0 = none ∧ s.launchHead 255 1 = none ∧ s.head 255 7 = some f ∧ s.aged f 255 = false ∧
     (run (.schedulerPick 255 0 0) s).counter (group 0 255) 2 = 1 ∧
     ((run (.schedulerPick 255 0 0) s).queue (queueKey 255 7)).onTile = [f] ∧
     (s.queue (queueKey 255 7)).spilled = false ∧ f.direct = none ∧
     (let h := queued 10 f
      0 ≤ (((h.fillBuckets 255).renewRates 255).port 255).tok7 ∧ h.getF TIL_SCH_HOST7.HOST7_PCT 255 ≠ 0 ∧
      h.head 255 10 = some f ∧ ((run (.schedulerPick 255 0 0) h).queue (queueKey 255 10)).onTile = [f]) ∧
     (let w := (queued 3 f).upPort 255 (fun x => { x with turn := 3 })
      let u := (w.fillBuckets 255).renewRates 255
      w.head 255 3 = some f ∧ (w.port 255).turn = 3 ∧ (w.port 255).drrOpen = false ∧
      u.occBytes f ≤ (w.port 255).deficit.getD 3 0 + u.quantum 255 3 ∧
      ((run (.schedulerPick 255 0 0) w).queue (queueKey 255 3)).onTile = [f])) ∧
    (let f : Frame := { bytes := eth 0x9000 60, inPort := 3 }
     let s := queued 6 f
     0 ≤ (((s.fillBuckets 255).renewRates 255).port 255).tok6 ∧ s.stoppedCls 255 6 = false ∧
     ((run (.schedulerPick 255 63 0) s).queue (queueKey 255 6)).onTile = [f] ∧
     (let u := s.upPort 255 (fun x => { x with fcOut := [.pause 1] })
      Out.txFlowControl 255 (.pause 1) ∈ sent (.schedulerPick 255 0 0) u ∧ (run (.schedulerPick 255 0 0) u).queues = s.queues)) ∧
    run (.schedulerPick 254 0 0) (queued 7 {}) = queued 7 {} ∧ run (.launchDue 255 1 0 0) (queued 7 {}) = queued 7 {} := by
  decide +kernel

/-- A launch frame is late beyond LATE_TOL; under DROP it is not sent (R239). -/
theorem test_launchDue :
    let f : Frame := { bytes := eth 0x9000 60, inPort := 256, res := { cls := 7 }, direct := some { launch := some 0 } }
    let s : State := { (queued 9 f).setF TIL_SCH_LT.LATE_POL1 1 255 with time := { live.time with a := 1000 * nsU, b := 1000 * nsU } }
    let t : State := { s with time := { s.time with a := 0, b := 0 } }
    s.head 255 9 = some f ∧ s.dueLaunch 255 = some 1 ∧ s.launchHead 255 1 = some 0 ∧ s.guarded 255 = false ∧
    (s.queue (queueKey 255 9)).spilled = false ∧ 0 - s.byteTime 255 8 ≤ s.now ∧ s.stoppedCls 255 7 = false ∧
    (run (.launchDue 255 1 0 0) s).counter (group 3 255) (9 * 32 + 7) = 1 ∧
    ((run (.launchDue 255 1 0 0) s).queue (queueKey 255 9)).onTile = [f] ∧
    (run (.launchDue 255 1 0 0) s).counter (group 0 255) 2 = 0 ∧ (run (.launchDue 255 1 0 0) t).counter (group 0 255) 2 = 1 := by
  decide +kernel

theorem test_ageCheck :
    let f : Frame := { bytes := eth 0x9000 60, inPort := 3, counted := true }
    let s : State := { (queued 5 f).setF GLB_LKP_CFG.RESIDENCY_MS 1 with time := { live.time with a := 1000000 * nsU } }
    s.aged f 255 = true ∧ ((run (.ageCheck ⟨255, 5⟩) s).queue (queueKey 255 5)).onTile = [f] ∧
    (run (.ageCheck ⟨255, 5⟩) s).counter (group 3 255) (5 * 32 + 6) = 1 ∧ run (.ageCheck ⟨255, 8⟩) s = s ∧
    (let t : State := { s with time := { s.time with a := 999999 * nsU } }
     t.aged f 255 = false ∧ run (.ageCheck ⟨255, 5⟩) t = t) := by decide +kernel

theorem test_sweeps :
    (let x : Cut := { words := cutWords, state := 2, c := 0, n := 1, win := 10 }
     let s : State := { live with cuts := [(9, x)], time := { live.time with a := 10000 * nsU } }
     let t : State := { s with time := { s.time with a := 10001 * nsU } }
     (run .cutSweep s).cut 9 = x ∧ ((run .cutSweep t).cut 9).state = 3 ∧ ((run .cutSweep t).cut 9).oldSilent = 1 ∧
     (let g : State := { t with cuts := [(9, { x with state := 3, close := some 0 })] }
      ((run .cutSweep g).cut 9).state = 4 ∧ (run .cutSweep g).isF GLB_MED_HIST.CUT_FAIL_SEEN = true) ∧
     ((run .cutSweep { t with cuts := [(9, { x with n := 4 })] }).cut 9).state = 0) ∧
    (let s : State := { live.setF GLB_MED_CFG.MERGE_IDLE_MS 1 with merges := [(3, { members := [7], empty := false })] }
     ((run (.mergeIdleExpiry 3) s).merge 3).empty = true ∧
     run (.mergeIdleExpiry 3) (s.setF GLB_MED_CFG.MERGE_IDLE_MS 0) = s.setF GLB_MED_CFG.MERGE_IDLE_MS 0) ∧
    (let g : Pg := { primary := 4, backup := 255, onBackup := true, forced := none }
     let s : State := { (portAt live 4 5).setF GLB_PG_CFG.REVERT 1 with pgs := [(127, g)] }
     (Tab.get? (run (.pgWtrExpiry 127) s).pgs 127).map (·.onBackup) = some false ∧
     run (.pgWtrExpiry 127) (s.setF GLB_PG_CFG.REVERT 0) = s.setF GLB_PG_CFG.REVERT 0) := by decide +kernel

/-! ### Power manager, Hallmark, TAP (O59, O60) -/

def powered : State := { live with pwr := { live.pwr with core := 1500 } }

/-- A rail reading: the target of rail 2 and 3 percent above it are inside, one millivolt more is not (R507). -/
theorem test_railPoll :
    (let s := powered
     let t := s.railTarget 2
     let v := t + 3 * t / 100
     let l : List RailReading := (List.range 6).map (fun r => { vout := some (if r = 2 then v else s.railTarget r) })
     let w : List RailReading := (List.range 6).map (fun r => { vout := some (if r = 2 then v + 1 else s.railTarget r) })
     let u : State := { s with pwr := { s.pwr with outRun := [(2, 2)] } }
     s.railInside 2 v = true ∧ s.railInside 2 (v + 1) = false ∧ (∀ r ∈ [0, 1, 3, 4, 5], s.railInside r (s.railTarget r) = true) ∧
     (run (.railPoll l) s).isF PWR_RAIL.IN_WINDOW 2 = true ∧ (run (.railPoll w) s).isF PWR_RAIL.IN_WINDOW 2 = false ∧
     ((run (.railPoll w) s).faultSt 0x180).latched = false ∧ ((run (.railPoll w) u).faultSt 0x180).latched = true ∧
     ((run (.railPoll [{ vout := none, statusFault := true }]) s).faultSt 0x180).latched = true) ∧
    run (.railPoll []) State.reset = State.reset := by decide +kernel

theorem test_avs :
    (let s := ((powered.setF PWR_AVS_CFG.AVS_EN 1).setF PWR_AVS_CFG.LOW_PS 20).setF PWR_AVS_CFG.HIGH_PS 40
     (run (.avsPeriod [30, 19]) s).pwr.core = 1505 ∧ (run (.avsPeriod [30, 20]) s).pwr.core = 1500 ∧
     (run (.avsPeriod [41]) (s.setF TMP_STAT.STATE 0)).pwr.core = 1495 ∧ (run (.avsPeriod [41]) (s.setF TMP_STAT.STATE 1)).pwr.core = 1500 ∧
     (run (.avsPeriod [30, 19]) s).getF PWR_AVS_STAT.MARGIN_PS = 19 ∧ (run (.avsPeriod [30, 19]) s).getF PWR_AVS_STAT.VCORE_MV = 752 ∧
     (let u : State := { s with pwr := { s.pwr with core := 1636 } }
      (run (.avsPeriod [0]) u).pwr.core = 1636)) ∧
    (run (.marginEmergency 14) powered).pwr.core = 1520 ∧ run (.marginEmergency 15) powered = powered ∧
    (let s : State := { powered with pwr := { powered.pwr with core := 1640 } }
     ((run (.marginEmergency 14) s).faultSt 0x184).latched = true) := by decide +kernel

theorem test_gating :
    (run (.tileGateSet .pf 7) live).isF PWR_HIST.GATE_REFUSED = true ∧ run (.tileGateSet .pf 8) live = live ∧
    (let s := (fencedAt 7 2 .pf).setF PWR_SENSOR.VALID 1 47
     let t := run (.tileGateSet .pf 7) s
     bit (t.getF PWR_GATE_STAT.TILE_GATED) 7 = true ∧ t.isF PWR_SENSOR.VALID 47 = false ∧ t.fences = s.fences ∧
     t.stalled = [] ∧ bit ((run (.tileGateClear .pf 7) t).getF PWR_GATE.TILE_GATE) 7 = false ∧
     run (.tileGateClear .pf 7) s = s ∧ run (.tileGateSet .pf 7) t = t) ∧
    (let s := live.setF PWR_GATE.LANE_GATE_EN 1
     s.laneOwner 255 = none ∧ ((run (.laneGate 7 31) s).lane 255).gated = true ∧
     (let o := portAt s 255 5
      o.laneOwner 255 = some 255 ∧ run (.laneGate 7 31) o = o)) := by decide +kernel

/-- Sixty-four equal readings are valid; one 15.25 °C above its group is not, nor one above 150 °C (R512). -/
theorem test_sensors :
    (let l := List.replicate 64 (400 : Int)
     let m := [461] ++ List.replicate 63 (400 : Int)
     let s := (live.setF PWR_THERM_CFG.ALARM_C 100).setF PWR_THERM_CFG.LIMIT_C 110
     (List.range 64).all (fun i => s.sensorOk l i) = true ∧ s.sensorOk (List.replicate 63 400 ++ [601]) 63 = false ∧ s.sensorOk m 0 = false ∧
     hottest l (List.range 64) = some (400, 0) ∧ s.alarmAt = 400 ∧ s.limitAt = 440 ∧
     (run (.sensorRead l) s).getF PWR_SENSOR.TEMP 63 = 400 ∧ (run (.sensorRead l) s).isF PWR_THERM_STAT.ALARM = true ∧
     (run (.sensorRead l) s).isF PWR_THERM_STAT.LIMIT = false ∧ ((run (.sensorRead l) s).faultSt 0x181).latched = true ∧
     ((run (.sensorRead m) s).faultSt 0x183).latched = true ∧
     ((run (.sensorRead (List.replicate 64 440)) s).faultSt 0x182).latched = true ∧
     (run (.sensorRead (List.replicate 64 0)) (run (.sensorRead l) s)).isF PWR_THERM_STAT.ALARM = false) := by decide +kernel

theorem test_aging :
    ((run (.agingMeasure 300 806) live).faultSt 0x185).latched = true ∧ (run (.agingMeasure 300 806) live).getF PWR_AVS_STAT.AGE_MV = 255 ∧
    ((run (.agingMeasure 3 805) live).faultSt 0x185).present = false ∧
    (run .hourTick live).getF PWR_HOURS.HOURS = 1 ∧ (run .hourTick live).flash.hours = 1 ∧
    (run .hourTick (live.setF PWR_HOURS.HOURS 0xFFFFFFFF)).getF PWR_HOURS.HOURS = 0xFFFFFFFF ∧
    (let s : State := { live with pwr := { live.pwr with hourMax := some 421 } }
     (run .hourTick s).getF PWR_LIFE.LIFE_PPM = 22 ∧ (run .hourTick s).pwr.lifeFrac = 831200) ∧
    live.fwRuns = true ∧ ({ live with fw := {} } : State).fwRuns = false ∧ (run .hourTick { live with fw := {} }).flash.hours = 0 ∧
    run .hourTick State.reset = State.reset := by decide +kernel

theorem test_perfCounters :
    (let s := run (.hmkPcCfgWrite .pf 303 0xFFF80009) live
     s.getF HMK_PC_CFG.EN 303 = 1 ∧ s.getF HMK_PC_CFG.SAMPLE 303 = 0 ∧ s.getF HMK_PC_CFG.EVT 303 = 1 ∧ s.getF HMK_PC_CFG.FUNC 303 = 63 ∧
     s.getF HMK_PC_CFG.OWNER 303 = 31 ∧ run (.hmkPcCfgWrite .pf 304 1) live = live ∧ run (.hmkPcCfgWrite (.vf 1) 0 1) live = live) ∧
    (let s := run (.hmkPcCfgWrite .pf 0 (BitVec.ofNat 32 (1 + 8 * 0xFF))) live
     s.perfCfgOk 0 = false ∧ s.isF HMK_HIST.FILT_ERR = true ∧ run (.perfCounterWrap 0 0) s = s) := by decide +kernel

/-- Counter 300 on the first event of the safety pair's counters (R527, R530). -/
theorem test_perfWrap :
    (let s := ((live.setF HMK_PC_CFG.EN 1 300).setF HMK_PC_CFG.EVT 0x40 300).setF HMK_PC_CFG.CLASS 0xFF 300
     let u := (s.setF HMK_PC_CFG.FUNC 63 300).setF HMK_PC_VAL_LO.VALUE 5 300
     u.perfCfgOk 300 = true ∧ (run (.perfCounterWrap 300 0) u).perfValue 300 = 0 ∧
     (run (.perfCounterWrap 300 0) u).isF HMK_PC_VAL_HI.WRAP 300 = true ∧
     (let v := (u.setF HMK_PC_CFG.SAMPLE 1 300).setF HMK_TRACE_CFG.TRACE_EN 1
      (run (.perfCounterWrap 300 0) v).perfValue 300 = 2 ^ 48 - 1 ∧
      (run (.perfCounterWrap 300 0) v).hmk.fifo.map (fun r => (r.typ, r.src)) = [(4, 300)])) := by decide +kernel

def traceRec (n : Nat) : TraceRec := { typ := 1, src := n, seq := n, ns := 0, sec := 0, dws := [0, 0, 0, 0, 0, 0] }

theorem test_dumpAndTrace :
    (let s : State := { ringOf live 9 4 [buf 0 256 5, buf 1 256 6] with counters := { live.counters with dump := some (7, List.replicate 300 1) } }
     s.lowestRing 4 = some 9 ∧ bufOk (buf 0 256 5) = true ∧ bufOk (buf 0 192 5) = false ∧
     (run .dumpWrite s).counters.dump = some (7, List.replicate 44 1) ∧ ((run .dumpWrite s).ring 9).fetched = [buf 1 256 6] ∧
     (run .dumpWrite (run .dumpWrite s)).counters.dump = none ∧
     (let o : State := { ringOf live 9 4 [buf 0 256 5] with counters := { live.counters with dump := some (7, List.replicate 300 1) } }
      (o.ring 9).prod = (o.ring 9).fetch ∧ bufLen (buf 0 256 5) < 300 ∧
      (let w := o.upRing 9 (fun r => { r with prod := 2 })
       (w.ring 9).prod ≠ (w.ring 9).fetch ∧ run .dumpWrite w = w) ∧ (run .dumpWrite o).isF HMK_HIST.DUMP_TRUNC = true)) ∧
    (let s : State := { (ringOf live 10 5 [buf 0 256 5]).setF HMK_TRACE_CFG.TRACE_EN 1 with
       hmk := { fifo := (List.range 12).map traceRec } }
     let n := (recsThatFit 256 (s.untaken false)).length
     s.lowestRing 5 = some 10 ∧ s.traceOut = 0 ∧ s.hmkFenced = false ∧ 0 < n ∧ n < 12 ∧
     (run .traceRingWrite s).hmk.fifo = ((List.range 12).map traceRec).drop n ∧ run .traceRingWrite live = live) ∧
    (let s : State := { (live.setF HMK_TRACE_CFG.TRACE_EN 1).setF HMK_TRACE_CFG.OUT 1 with
       hmk := { fifo := (List.range 3).map traceRec, frameSeq := 4294967295 } }
     s.hmkLanes = true ∧ sent .hmkFrameSend s = [.hmkFrame 1 4294967295 ((List.range 3).map traceRec)] ∧
     (run .hmkFrameSend s).hmk.frameSeq = 0 ∧ (run .hmkFrameSend s).hmk.fifo = [] ∧ run .hmkFrameSend live = live) := by decide +kernel

/-- Bit 0 of the identification register is 1, and 0x5CB ends in 1011 (R539). -/
theorem test_tap :
    live.getF GLB_ID.REV = 0 ∧ live.testMode = false ∧ (live.setF GLB_STRAP.STRAPS 1).testMode = true ∧
    (match sent .idcode live with
     | [.tdo l] => l.take 4
     | _ => []) = [true, true, false, true] ∧
    sent (.sample [true, false]) live = [.tdo [true, false]] ∧ sent .bypass live = [.tdo [false]] ∧
    (run .extest live).jtag.ir = 0xFF ∧ (run .extest (live.setF GLB_STRAP.STRAPS 1)).jtag.drive = 1 ∧
    (run .highz (live.setF GLB_STRAP.STRAPS 1)).jtag.ir = 5 ∧
    (run (.preload [true]) (live.setF GLB_STRAP.STRAPS 1)).jtag.cells = [true] ∧ (run (.preload [true]) live).jtag.cells = [] ∧
    (run .clamp (live.setF GLB_STRAP.STRAPS 1)).jtag.drive = 2 ∧ (run .extestPulse (live.setF GLB_STRAP.STRAPS 1)).jtag.drive = 4 ∧
    (run .extestTrain (live.setF GLB_STRAP.STRAPS 1)).jtag.drive = 5 := by decide +kernel


end Sys2Proof.Tests
end

section
/-!
PROOF. What every command answers, and the register accesses (R5–R10, R48, R49, R341, R416, R554).
-/

namespace Sys2Proof.Machine

/-! ### What an access finds is the same after reports -/

theorem State.Quiet.pcieUp {s t : State} (h : s.Quiet t) : t.pcieUp = s.pcieUp := by
  simp only [State.pcieUp, State.hclk, State.pll, h.still.boot, h.still.plls,
    h.isF GLB_BOOT_STAT.HIF_READY 0 (by decide)]

theorem State.Quiet.ringFn {s t : State} (h : s.Quiet t) (n : Nat) : t.ringFn n = s.ringFn n :=
  h.getF HIF_RING_CFG.FUNC n (by decide)

theorem State.Quiet.writeMay {s t : State} (h : s.Quiet t) (p : Path) (addr : Nat) :
    t.writeMay p addr = s.writeMay p addr := by
  simp only [State.writeMay, State.pwrMay, h.pcieUp, h.still.boot, h.getF GLB_STRAP.STRAPS 0 (by decide)]

theorem State.Quiet.portUnused {s t : State} (h : s.Quiet t) (p : Nat) : t.portUnused p = s.portUnused p := by
  simp only [State.portUnused, State.laneOwner, State.portEnabled, State.portState, State.portMode,
    h.isF TIL_PORT_CFG.ENABLE _ (by decide), h.getF TIL_PORT_STAT.STATE _ (by decide),
    h.getF TIL_PORT_CFG.MODE _ (by decide)]
  rfl

theorem State.Quiet.locate {s t : State} (h : s.Quiet t) (p : Path) (addr : Nat) :
    t.locate p addr = s.locate p addr := by
  simp only [State.locate, State.vfRegister, h.ringFn, h.portUnused]
  rfl

theorem State.accessPerf_quiet (s : State) (p : Path) (addr : Nat) : s.Quiet (s.accessPerf p addr) := by
  unfold State.accessPerf
  split
  · exact .refl s
  · exact s.perf_quiet _ _

/-! ### An access is carried out or waits (R416, R583) -/

theorem State.access_runs {s : State} {x : Stalled} (hp : s.pathUp x.path = true) (hw : s.waits x = false) :
    s.access x = s.carryOut x := by
  simp [State.access, hp, hw]

theorem State.access_stalls {s : State} {x : Stalled} (hp : s.pathUp x.path = true)
    (hs : s.stoppedAt (fullAddr x.path x.addr) = true) : s.access x = { s with stalled := s.stalled ++ [x] } := by
  simp [State.access, hp, State.waits, hs]

theorem State.waits_write {s : State} {p : Path} {addr : Nat} (v : Word) (h : Option Word)
    (hs : s.stoppedAt (fullAddr p addr) = false) : s.waits { path := p, addr := addr, op := .write v h } = false := by
  simp [State.waits, hs, StalledOp.isWrite]

theorem exec_registerWrite_runs {s : State} {p : Path} {addr : Nat} (v : Word) (h : Option Word)
    (hp : s.pathUp p = true) (hs : s.stoppedAt (fullAddr p addr) = false) :
    exec (.registerWrite p addr ⟨v, h⟩) s = .next (s.writeAccess p addr v h) :=
  congrArg _ (State.access_runs hp (State.waits_write v h hs))

theorem exec_registerLowerHalfRead_runs {s : State} {p : Path} {addr : Nat} {wide : Bool} (hp : s.pathUp p = true)
    (hw : s.waits { path := p, addr := addr, op := .read wide } = false) :
    exec (.registerLowerHalfRead p ⟨addr, wide⟩) s = .next (s.readAccess p addr wide) :=
  congrArg _ (State.access_runs hp hw)

/-! ### Writes (R9, R10) -/

/-- A field in which nothing acts at once is only written. -/
theorem State.written_of_not_acts (s old : State) {f : Fld} (i : Nat) (h : f.id ∉ writeActs) :
    s.written old f i = s := by
  have sub : ∀ a ∈ xonFields, a ∈ writeActs := by decide
  have hx : f.id ∉ xonFields := fun hf => h (sub _ hf)
  simp only [writeActs, List.mem_cons, not_or] at h
  simp [State.written, hx, h]

/-- A field that is no correction entry takes what its access code says, and acts (R10). -/
theorem State.writeSlot_of_not_corr (s : State) (p : Path) (i v : Nat) {x : Slot}
    (ht : x.fld.id ≠ TPL_STC_TX.TX_CORR.id) (hr : x.fld.id ≠ TPL_STC_RX.RX_CORR.id) :
    s.writeSlot p i v x = if x.own || s.fieldFixed p x.fld i then s
      else (s.setF x.fld (accWrite x.acc (s.getF x.fld i) (bits v x.lo x.fld.width)) i).written s x.fld i := by
  simp [State.writeSlot, ht, hr]

/-- A register without EN of a generator is written field by field. -/
theorem State.writeReg_of_locate {s : State} {p : Path} {addr : Nat} {l : List Slot} {i : Nat} (v : Nat)
    (hl : s.locate p addr = some (l, i)) (he : ∀ x ∈ l, x.fld.id ≠ MER_GEN_CFG.EN.id) :
    s.writeReg p addr v = l.foldl (fun w x => w.writeSlot p i v x) s := by
  have ha : l.any (fun x => x.fld.id == MER_GEN_CFG.EN.id) = false := by simpa using he
  simp [State.writeReg, hl, ha]

/-- REGISTER_WRITE of a register that the path may write counts the access and writes the fields in their order. -/
theorem exec_registerWrite_fields {p : Path} {addr : Nat} {s : State} {l : List Slot} {i : Nat} (v : Word)
    (hp : s.pathUp p = true) (hs : s.stoppedAt (fullAddr p addr) = false) (hm : s.writeMay p addr = true)
    (hl : s.locate p addr = some (l, i)) (he : ∀ x ∈ l, x.fld.id ≠ MER_GEN_CFG.EN.id) :
    exec (.registerWrite p addr ⟨v, none⟩) s =
      .next (l.foldl (fun w x => w.writeSlot p i v.toNat x) (s.accessPerf p addr)) := by
  have hq := s.accessPerf_quiet p addr
  rw [exec_registerWrite_runs v none hp hs, ← State.writeReg_of_locate v.toNat ((hq.locate p addr).trans hl) he]
  simp [State.writeAccess, hq.writeMay, hm]

/-- REGISTER_WRITE that reaches no register it may write only counts the access (R7, R48, R49, R554). -/
theorem exec_registerWrite_nowhere {p : Path} {addr : Nat} {s : State} (v : Word) (hp : s.pathUp p = true)
    (hs : s.stoppedAt (fullAddr p addr) = false) (hn : s.writeMay p addr = false ∨ s.locate p addr = none) :
    exec (.registerWrite p addr ⟨v, none⟩) s = .next (s.accessPerf p addr) := by
  have hq := s.accessPerf_quiet p addr
  rw [exec_registerWrite_runs v none hp hs]
  rcases hn with hm | hl
  · simp [State.writeAccess, hq.writeMay, hm]
  · simp [State.writeAccess, State.writeReg, hq.locate, hl]

/-! ### Reads (R5–R8) -/

/-- A read of a lower half answers the present value and latches the upper half (R6). -/
theorem State.readAccess_lower (s : State) {p : Path} {addr : Nat} (h : isLower (fullAddr p addr) = true) :
    s.readAccess p addr false =
      ((s.setLatch p (fullAddr p addr + 4) (s.readReg p (addr + 4))).accessPerf p addr).emit
        (.readData p addr (BitVec.ofNat 32 (s.readReg p addr))) := by
  simp only [State.readAccess, Bool.false_eq_true, if_false, h, if_true]
  cases Tab.get? s.latch (latchKey p (fullAddr p addr)) <;> rfl

/-- A read elsewhere answers the present value where the path has latched nothing there. -/
theorem State.readAccess_unlatched {s : State} {p : Path} {addr : Nat} (h : isLower (fullAddr p addr) = false)
    (hn : Tab.get? s.latch (latchKey p (fullAddr p addr)) = none) :
    s.readAccess p addr false =
      (s.accessPerf p addr).emit (.readData p addr (BitVec.ofNat 32 (s.readReg p addr))) := by
  simp [State.readAccess, h, hn]

/-- A read elsewhere answers the value that the path has latched there (R6, R8). -/
theorem State.readAccess_latched {s : State} {p : Path} {addr x : Nat} (h : isLower (fullAddr p addr) = false)
    (hx : Tab.get? s.latch (latchKey p (fullAddr p addr)) = some x) :
    s.readAccess p addr false = (s.accessPerf p addr).emit (.readData p addr (BitVec.ofNat 32 x)) := by
  simp [State.readAccess, h, hx]

/-- An access counted and its answer sent change nothing but reports, and the answer stands among what is sent. -/
theorem State.answer_quiet (s : State) (p : Path) (addr : Nat) (o : Out) :
    s.Quiet ((s.accessPerf p addr).emit o) ∧ o ∈ ((s.accessPerf p addr).emit o).out.drop s.out.length := by
  have hq := s.accessPerf_quiet p addr
  refine ⟨hq.trans (State.emit_quiet _ _), ?_⟩
  obtain ⟨l, hl⟩ := hq.still.out
  simp [State.emit, hl, List.append_assoc]

theorem fullAddr_add (p : Path) (a k : Nat) : fullAddr p (a + k) = fullAddr p a + k := by
  cases p <;> simp [fullAddr, Nat.add_assoc]

/-- No upper half is the lower half of another quantity. -/
theorem isLower_upper {a : Nat} (h : isLower a = true) : isLower (a + 4) = false := by
  simp only [isLower, lowerHalves, List.any_cons, List.any_nil, Bool.or_false, Bool.or_eq_true, Bool.and_eq_true,
    decide_eq_true_eq, beq_iff_eq] at h
  have h8 : (a % 8 = 0 ∧ a ≠ 0x2008) ∨ a = 0x200C := by omega
  simp only [isLower, lowerHalves, List.any_cons, List.any_nil, Bool.or_false, Bool.or_eq_false_iff,
    Bool.and_eq_false_imp, decide_eq_true_eq, beq_iff_eq, decide_eq_false_iff_not, Bool.and_eq_true]
  omega

/-- The upper half that a lower-half read has latched is what the path reads there next (R6, R8). -/
theorem State.readAccess_upper {s u : State} {p : Path} {addr v : Nat} (h : isLower (fullAddr p addr) = true)
    (hu : u.latch = (s.setLatch p (fullAddr p addr + 4) v).latch) :
    u.readAccess p (addr + 4) false =
      (u.accessPerf p (addr + 4)).emit (.readData p (addr + 4) (BitVec.ofNat 32 v)) := by
  refine State.readAccess_latched (by rw [fullAddr_add]; exact isLower_upper h) ?_
  rw [hu, fullAddr_add]
  simp [State.setLatch, Tab.get?_set]

/-- An accepted 64-bit read answers both halves and latches nothing (R5). -/
theorem State.readWide_quiet (s : State) (p : Path) (addr : Nat) :
    s.Quiet (s.readWide p addr) ∧
      .readData p addr (BitVec.ofNat 32 (s.readReg p addr)) ∈ (s.readWide p addr).out.drop s.out.length ∧
      .readData p (addr + 4) (BitVec.ofNat 32 (s.readReg p (addr + 4))) ∈
        (s.readWide p addr).out.drop s.out.length := by
  have hq := s.accessPerf_quiet p addr
  refine ⟨(hq.trans (State.emit_quiet _ _)).trans (State.emit_quiet _ _), ?_⟩
  obtain ⟨l, hl⟩ := hq.still.out
  simp [State.readWide, State.emit, hl, List.append_assoc]

/-- A read of TPL_PH_STAT of a port that a phase detector serves (R341). -/
theorem State.phStatRead_of_served {s : State} (p : Path) {port : Nat} (h : s.portUnused port = false) :
    s.phStatRead p port =
      ((((s.setLatch p (0x3020008 + port * 32) (s.readReg p (0x3020008 + port * 32))).setLatch p
        (0x302000C + port * 32) (s.readReg p (0x302000C + port * 32))).setLatch p
        (0x3020010 + port * 32) (s.readReg p (0x3020010 + port * 32))).accessPerf p (0x3020004 + port * 32)).emit
        (.readData p (0x3020004 + port * 32) (BitVec.ofNat 32 (s.readReg p (0x3020004 + port * 32)))) := by
  simp [State.phStatRead, h, Nat.add_right_comm]

theorem exec_tplPhStatRead_runs {s : State} {p : Path} {port : Nat} (hp : s.pathUp p = true) (ho : p = .pf ∨ p = .mgmt)
    (hw : s.waits { path := p, addr := 0x3020004 + port * 32, op := .phStat port } = false) :
    exec (.tplPhStatRead p port) s = .next (s.phStatRead p port) := by
  rcases ho with rfl | rfl <;> exact congrArg _ (State.access_runs hp hw)

/-! ### A stalled access that times out (R416) -/

/-- Whether a domain's clock is stopped is read off the fences, the PLLs, the timing plane and the gated tiles. -/
theorem State.stoppedAt_congr {s t : State} (a : Nat) (hf : t.fences = s.fences) (hp : t.plls = s.plls)
    (ht : t.time.running = s.time.running)
    (hg : t.getF PWR_GATE_STAT.TILE_GATED = s.getF PWR_GATE_STAT.TILE_GATED) : t.stoppedAt a = s.stoppedAt a := by
  simp only [State.stoppedAt, State.cclk, State.allGated, State.fence, State.pll, hf, hp, ht, hg]

/-- An access to a domain whose clock is stopped changes at most the list of those that wait. -/
theorem State.access_stopped {s : State} {x : Stalled} (h : s.stoppedAt (fullAddr x.path x.addr) = true) :
    ∃ l, s.access x = { s with stalled := l } := by
  by_cases hp : s.pathUp x.path = true
  · exact ⟨_, State.access_stalls hp h⟩
  · exact ⟨s.stalled, by simp [State.access, hp]⟩

/-- Where every access that waits is to a domain whose clock is stopped, looking at them again changes only their list. -/
theorem State.resume_stopped {s : State} (h : ∀ x ∈ s.stalled, s.stoppedAt (fullAddr x.path x.addr) = true) :
    ∃ l, s.resume = { s with stalled := l } := by
  have run : ∀ xs : List Stalled, (∀ x ∈ xs, s.stoppedAt (fullAddr x.path x.addr) = true) → ∀ l,
      ∃ m, xs.foldl (fun t x => t.access x) { s with stalled := l } = { s with stalled := m } := by
    intro xs
    induction xs with
    | nil => exact fun _ l => ⟨l, rfl⟩
    | cons x xs ih =>
      intro hx l
      obtain ⟨m, hm⟩ := State.access_stopped (s := { s with stalled := l }) (x := x)
        ((State.stoppedAt_congr _ rfl rfl rfl rfl).trans (hx x (List.mem_cons_self ..)))
      rw [List.foldl_cons, hm]
      exact ih (fun y hy => hx y (List.mem_cons_of_mem _ hy)) m
  exact run s.stalled h []

/-- A fault whose target is no fence domain fences nothing (R440, R442). -/
theorem State.occur_fences (s : State) {o : FaultOcc} (same : Bool) (ht : ∀ d, faultTarget o.id ≠ .domain d) :
    (s.occur o same).fences = s.fences := by
  have hi : ∀ u : State, u.isolateFence o.id = u := by
    intro u
    unfold State.isolateFence
    split
    · exact absurd (by assumption) (ht _)
    · rfl
  have he : ∀ u : State, (u.faultEvent o.id).fences = u.fences := fun u =>
    (State.event_quiet u _ _ _ _ _ _).still.fences
  unfold State.occur
  split
  · unfold State.latchAgain
    dsimp only
    split <;> simp [hi, he]
  · unfold State.latchNew
    extract_lets conf esc applied first k r f q s1 s2 s3 s4 s5
    have h2 : s2.fences = s1.fences := by unfold s2; split <;> rfl
    have h3 : s3.fences = s2.fences := by unfold s3; split <;> rfl
    have h4 : s4.fences = s3.fences := by unfold s4; split <;> rfl
    have h5 : s5.fences = s4.fences := by unfold s5; split <;> rfl
    rw [hi, he]
    exact h5.trans (h4.trans (h3.trans h2))

theorem State.raiseCycle_fences (s : State) {o : FaultOcc} (ht : ∀ d, faultTarget o.id ≠ .domain d) :
    (s.raiseCycle [o]).fences = s.fences := by
  have hc : ∀ u : State, (u.cutPins s).fences = u.fences := fun u =>
    (State.cutPins_kept s (fun _ h => h) (State.Kept.refl _ u)).only .fences (by decide)
  unfold State.raiseCycle
  extract_lets l wasEmpty s'
  have hl : l = [o] ∨ l = [] := by
    unfold l
    rw [List.filter_singleton]
    cases faultNamed o.id && !s.masked o.id && (!(s.faultSt o.id).present || faultTarget o.id == .guarded)
    · exact .inr rfl
    · exact .inl rfl
  have hf : s'.fences = s.fences := by
    refine (hc _).trans ?_
    rcases hl with e | e <;> rw [e]
    · exact s.occur_fences false ht
    · rfl
  clear_value s'
  split
  · exact hf
  · exact hf

/-- A stalled access is no fault of a fence domain, whoever made it (R442). -/
theorem State.stallOcc_target (s : State) (k : StallKind) (p : Path) (addr d : Nat) :
    faultTarget (s.stallOcc k p addr).1.id ≠ .domain d := by
  have hid : (s.stallOcc k p addr).1.id = 0xA1 := by cases k <;> cases p <;> rfl
  simp [hid, faultTarget]

/-- The state in which the NOTICE of an access that timed out is raised: the access has ended with an error, and its
address is recorded (R416). -/
def State.stallEnded (s : State) (k : StallKind) (p : Path) (addr : Nat) : State :=
  let u := ((s.dropStalled k p addr).stallOcc k p addr).2.emit (.accessError k p addr)
  let u := if k == .bar0Read && p != .mgmt then u.emit (.aer (pathFn p) .completerAbort) else u
  (u.setF GLB_STALL_ADDR.ADDR addr).setF GLB_FENCE_HIST.STALL_TO 1

theorem exec_accessStallTimeout_runs {s : State} {k : StallKind} {p : Path} (addr : Nat)
    (h : k = .firmware ∨ s.pathUp p = true) :
    exec (.accessStallTimeout k p addr) s =
      .next ((s.stallEnded k p addr).raiseCycle [((s.dropStalled k p addr).stallOcc k p addr).1]).resume := by
  have hc : (k != .firmware && !s.pathUp p) = false := by rcases h with h | h <;> simp [h]
  refine congrArg Host.Outcome.next ?_
  rw [hc]
  rfl

theorem State.dropStalled_sub (s : State) (k : StallKind) (p : Path) (addr : Nat) :
    ∀ x ∈ (s.dropStalled k p addr).stalled, x ∈ s.stalled := by
  intro x hx
  unfold State.dropStalled at hx
  split at hx
  · exact hx
  · exact List.mem_of_mem_eraseP hx

/-- Dropping the access and naming its master change the list of those that wait and the free values drawn. -/
theorem State.stallOcc_dropStalled_kept {ps : List Part} (s : State) (k : StallKind) (p : Path) (addr : Nat)
    (hl : ∀ q ∈ [Part.stalled, .free], q ∈ ps) : s.Kept ps ((s.dropStalled k p addr).stallOcc k p addr).2 :=
  State.stallOcc_kept k p addr (Part.sub_trans hl (by decide))
    (State.dropStalled_kept k p addr (Part.sub_trans hl (by decide)) (.refl _ s))

/-- Ending the access changes the list of those that wait, a free value, what is sent, and the two registers. -/
theorem State.stallEnded_kept {ps : List Part} (s : State) (k : StallKind) (p : Path) (addr : Nat)
    (hl : ∀ q ∈ [Part.stalled, .free, .out, .regs], q ∈ ps) : s.Kept ps (s.stallEnded k p addr) := by
  unfold State.stallEnded
  extract_lets u0 u1
  have h0 : s.Kept ps u0 := State.emit_kept _ (Part.sub_trans hl (by decide))
    (s.stallOcc_dropStalled_kept k p addr (Part.sub_trans hl (by decide)))
  have h1 : s.Kept ps u1 := .ite (State.emit_kept _ (Part.sub_trans hl (by decide)) h0) h0
  exact State.setF_kept _ _ _ (Part.sub_trans hl (by decide)) (State.setF_kept _ _ _ (Part.sub_trans hl (by decide)) h1)

theorem State.stallEnded_out (s : State) (k : StallKind) (p : Path) (addr : Nat) :
    ∃ l, (s.stallEnded k p addr).out = s.out ++ .accessError k p addr :: l := by
  have ho : ((s.dropStalled k p addr).stallOcc k p addr).2.out = s.out :=
    (s.stallOcc_dropStalled_kept k p addr (fun _ h => h)).only .out (by decide)
  unfold State.stallEnded
  dsimp only
  split
  · exact ⟨[.aer (pathFn p) .completerAbort], by simp [ho]⟩
  · exact ⟨[], by simp [ho]⟩

theorem State.stallEnded_stalled (s : State) (k : StallKind) (p : Path) (addr : Nat) :
    (s.stallEnded k p addr).stalled = (s.dropStalled k p addr).stalled := by
  have hs : ((s.dropStalled k p addr).stallOcc k p addr).2.stalled = (s.dropStalled k p addr).stalled :=
    (State.stallOcc_kept k p addr (fun _ h => h) (.refl _ _)).only .stalled (by decide)
  unfold State.stallEnded
  dsimp only
  split <;> simp [hs]

theorem State.stallEnded_getF (s : State) (k : StallKind) (p : Path) (addr : Nat) {f : Fld} (i : Nat)
    (ha : f.id ≠ GLB_STALL_ADDR.ADDR.id) (hh : f.id ≠ GLB_FENCE_HIST.STALL_TO.id) :
    (s.stallEnded k p addr).getF f i = s.getF f i := by
  have hr : ((s.dropStalled k p addr).stallOcc k p addr).2.regs = s.regs :=
    (s.stallOcc_dropStalled_kept k p addr (fun _ h => h)).only .regs (by decide)
  have hg : ((s.dropStalled k p addr).stallOcc k p addr).2.getF f i = s.getF f i := by simp only [State.getF, hr]
  unfold State.stallEnded
  dsimp only
  rw [State.getF_setF_other _ _ _ _ _ _ (.inl hh), State.getF_setF_other _ _ _ _ _ _ (.inl ha)]
  split <;> simp [hg]

/-- The recorded address and STALL_TO (R416). -/
theorem State.stallEnded_recorded (s : State) (k : StallKind) (p : Path) (addr : Nat) :
    (s.stallEnded k p addr).getF GLB_STALL_ADDR.ADDR = addr % 2 ^ GLB_STALL_ADDR.ADDR.width ∧
      (s.stallEnded k p addr).getF GLB_FENCE_HIST.STALL_TO = 1 := by
  unfold State.stallEnded
  dsimp only
  rw [State.getF_setF_other _ _ _ _ _ _ (.inl (by decide)), State.getF_setF_same, State.getF_setF_same]
  exact ⟨rfl, rfl⟩

/-- Raising the NOTICE of a stalled access stops no clock and starts none. -/
theorem State.raiseCycle_stoppedAt (s : State) {o : FaultOcc} (ht : ∀ d, faultTarget o.id ≠ .domain d) (a : Nat) :
    (s.raiseCycle [o]).stoppedAt a = s.stoppedAt a := by
  have hr := State.raiseCycle_raised [o] (.refl s)
  refine State.stoppedAt_congr a (s.raiseCycle_fences ht) ?_ ?_ (hr.regs _ (by decide) 0)
  · exact (State.raiseCycle_kept [o] (fun _ h => h) (.refl _ s)).only .plls (by decide)
  · rw [hr.time.1]

/-- Where every access that waits is to a domain whose clock is stopped, they wait on after the NOTICE. -/
theorem State.raiseCycle_resume {s : State} {o : FaultOcc} (ht : ∀ d, faultTarget o.id ≠ .domain d)
    (h : ∀ x ∈ s.stalled, s.stoppedAt (fullAddr x.path x.addr) = true) :
    ∃ l, (s.raiseCycle [o]).resume = { s.raiseCycle [o] with stalled := l } := by
  have hw : (s.raiseCycle [o]).stalled = s.stalled :=
    (State.raiseCycle_kept [o] (fun _ h => h) (.refl _ s)).only .stalled (by decide)
  refine State.resume_stopped (fun x hx => ?_)
  rw [s.raiseCycle_stoppedAt ht]
  exact h x (hw ▸ hx)

theorem State.stallEnded_stoppedAt (s : State) (k : StallKind) (p : Path) (addr a : Nat) :
    (s.stallEnded k p addr).stoppedAt a = s.stoppedAt a := by
  have hk := s.stallEnded_kept k p addr (fun _ h => h)
  have ht : (s.stallEnded k p addr).time = s.time := hk.only .time (by decide)
  exact State.stoppedAt_congr a (hk.only .fences (by decide)) (hk.only .plls (by decide)) (by rw [ht])
    (s.stallEnded_getF k p addr 0 (by decide) (by decide))

end Sys2Proof.Machine

namespace Sys2Proof.Proofs

open Sys2Proof.Machine

/-- Settles O3: what every command keeps holds of the state it answers. -/
theorem everyCommandAnswersANextState : Obligations.EveryCommandAnswersANextState := by
  intro i s
  obtain ⟨t, ht, hk⟩ := exec_kept i s
  exact ⟨t, ht, hk.pending, hk.out, hk.free⟩

/-- Settles O9: REGISTER_WRITE writes the fields in their order, each by its access code. -/
theorem registerWriteTakesWhatEachAccessCodeSays : Obligations.RegisterWriteTakesWhatEachAccessCodeSays := by
  unfold Obligations.RegisterWriteTakesWhatEachAccessCodeSays
  refine ⟨fun p addr v s l i hp hs hm hl hx => ?_, fun p addr v s l i hp hs hm hl hx => ?_,
    fun p addr v s hp hs hn => ⟨_, exec_registerWrite_nowhere v hp hs hn, s.accessPerf_quiet p addr⟩,
    fun p addr v h s hp hs ha => ⟨s.accessPerf p addr, s.accessPerf_quiet p addr, ?_⟩⟩
  · have hne : ∀ x ∈ l, ∀ id ∈ writeActs, x.fld.id ≠ id := fun x hxl id hid e => hx x hxl (e ▸ hid)
    refine ⟨s.accessPerf p addr, _, s.accessPerf_quiet p addr,
      exec_registerWrite_fields v hp hs hm hl (fun x hxl => hne x hxl _ (by decide)), ?_⟩
    refine List.foldl_ext _ _ _ (fun w x hxl => ?_)
    rw [State.writeSlot_of_not_corr _ _ _ _ (hne x hxl _ (by decide)) (hne x hxl _ (by decide)),
      State.written_of_not_acts _ _ _ (hx x hxl)]
    cases x.acc <;> rfl
  · refine ⟨s.accessPerf p addr, _, s.accessPerf_quiet p addr,
      exec_registerWrite_fields v hp hs hm hl (fun x hxl => (hx x hxl).2.2), ?_⟩
    refine List.foldl_ext _ _ _ (fun w x hxl => ?_)
    obtain ⟨htx, hrx, -⟩ := hx x hxl
    exact w.writeSlot_of_not_corr p i v.toNat htx hrx
  · rw [exec_registerWrite_runs v (some h) hp hs]
    simp [State.writeAccess, ha]

/-- Settles O11: a lower-half read latches the upper half, which is not itself a lower half. -/
theorem lowerHalfReadLatchesTheUpperHalf : Obligations.LowerHalfReadLatchesTheUpperHalf := by
  unfold Obligations.LowerHalfReadLatchesTheUpperHalf
  refine ⟨fun p addr s hp hw hlow => ?_, fun p addr s hp hw hlow hn => ?_, fun p addr s hp hw ha => ?_,
    fun p port s hp ho hw hserved => ?_⟩
  · have hq := (s.setLatch p (fullAddr p addr + 4) (s.readReg p (addr + 4))).answer_quiet p addr
      (.readData p addr (BitVec.ofNat 32 (s.readReg p addr)))
    refine ⟨_, exec_registerLowerHalfRead_runs hp hw, ?_⟩
    rw [s.readAccess_lower hlow]
    refine ⟨hq.1, hq.2, fun u hpu hwu hu => ?_⟩
    refine ⟨_, exec_registerLowerHalfRead_runs hpu hwu, ?_⟩
    rw [State.readAccess_upper hlow (hu.trans hq.1.still.latch)]
    exact u.answer_quiet _ _ _
  · refine ⟨_, exec_registerLowerHalfRead_runs hp hw, ?_⟩
    rw [State.readAccess_unlatched hlow hn]
    exact s.answer_quiet _ _ _
  · refine ⟨_, exec_registerLowerHalfRead_runs hp hw, ?_⟩
    rw [show s.readAccess p addr true = s.readWide p addr by simp [State.readAccess, ha]]
    exact s.readWide_quiet p addr
  · refine ⟨_, exec_tplPhStatRead_runs hp ho hw, ?_⟩
    rw [State.phStatRead_of_served p hserved]
    exact State.answer_quiet _ _ _ _

/-- Settles O12: a time-out raises a NOTICE that fences nothing, so that what waited on a stopped clock waits on. -/
theorem unsupportedAndStalledAccessesEndWithoutEffect :
    Obligations.UnsupportedAndStalledAccessesEndWithoutEffect := by
  unfold Obligations.UnsupportedAndStalledAccessesEndWithoutEffect
  refine ⟨fun p addr n w s hp ha hm => ?_, fun addr n w s hp ha => ?_,
    fun p addr v h s hp hs => congrArg _ (State.access_stalls hp hs),
    fun p addr w s hp hs => congrArg _ (State.access_stalls hp hs), fun k p addr s hp hst => ?_⟩
  · refine congrArg Host.Outcome.next ?_
    rw [hp, ha]
    cases p with
    | mgmt => exact absurd rfl hm
    | pf => rfl
    | vf f => rfl
  · refine congrArg Host.Outcome.next ?_
    rw [hp, ha]
    rfl
  · refine ⟨_, exec_accessStallTimeout_runs addr hp, ?_⟩
    have ht := (s.dropStalled k p addr).stallOcc_target k p addr
    generalize ((s.dropStalled k p addr).stallOcc k p addr).1 = o at ht ⊢
    have hr := State.raiseCycle_raised [o] (.refl (s.stallEnded k p addr))
    have hs : s.Kept (faulting ++ [.stalled]) ((s.stallEnded k p addr).raiseCycle [o]) :=
      State.raiseCycle_kept [o] (by decide) (s.stallEnded_kept k p addr (by decide))
    obtain ⟨m, hm⟩ := State.raiseCycle_resume ht (s := s.stallEnded k p addr) (fun x hx => by
      rw [State.stallEnded_stoppedAt]
      exact hst x (s.dropStalled_sub k p addr x (s.stallEnded_stalled k p addr ▸ hx)))
    obtain ⟨ha, hh⟩ := s.stallEnded_recorded k p addr
    rw [hm]
    refine ⟨(hr.regs _ (by decide) 0).trans ha, (hr.regs _ (by decide) 0).trans hh, ?_, fun q hq hqs => ?_⟩
    · obtain ⟨l, hl⟩ := s.stallEnded_out k p addr
      obtain ⟨l', hl'⟩ := (State.raiseCycle_kept [o] (fun _ h => h) (.refl _ (s.stallEnded k p addr))).out
      simp [hl', hl, List.append_assoc]
    · have hkq : State.keeps q s ((s.stallEnded k p addr).raiseCycle [o]) := hs.only q (by simp [hq, hqs])
      cases q with
      | stalled => exact absurd rfl hqs
      | _ => exact hkq

end Sys2Proof.Proofs
end

section
/-!
PROOF. Doorbell scans, doorbell entries and failed DMA reads (R46, R57–R59, R63–R68, R77).
-/

namespace Sys2Proof.Machine

/-! ### Which rings reporting moves -/

/-- Every ring but `n` is as it was. -/
def State.RingsBut (s t : State) (n : Nat) : Prop := ∀ k, k ≠ n → t.ring k = s.ring k

theorem State.RingsBut.trans {s t u : State} {n : Nat} (h : s.RingsBut t n) (k : t.RingsBut u n) : s.RingsBut u n :=
  fun m hm => (k m hm).trans (h m hm)

theorem State.upRing_ringsBut (s : State) (n : Nat) (f : Ring → Ring) : s.RingsBut (s.upRing n f) n :=
  fun _ hk => s.ring_upRing_other f hk

/-- What leaves the rings alone leaves every ring alone. -/
theorem State.Kept.ring {l : List Part} {s t : State} (h : s.Kept l t) (hr : Part.rings ∉ l) (k : Nat) :
    t.ring k = s.ring k := by
  have e : t.rings = s.rings := h.only .rings hr
  simp only [State.ring, e]

theorem State.perf_ring (s : State) (tile : Nat) (e : PerfEvt) (k : Nat) : (s.perf tile e).ring k = s.ring k :=
  (State.perf_kept tile e (fun _ h => h) (.refl _ s)).ring (by decide) k

theorem State.msix_ring (s : State) (f v k : Nat) : (s.msix f v).ring k = s.ring k :=
  (State.msix_kept f v (fun _ h => h) (.refl _ s)).ring (by decide) k

theorem State.trace_ring (s : State) (typ src : Nat) (dws : List Word) (k : Nat) :
    (s.trace typ src dws).ring k = s.ring k :=
  (State.trace_kept typ src dws (fun _ h => h) (.refl _ s)).ring (by decide) k

theorem State.countS_ring (s : State) (g c n k : Nat) : (s.countS g c n).ring k = s.ring k :=
  (State.countS_kept g c n (fun _ h => h) (.refl _ s)).ring (by decide) k

theorem State.ringInterrupt_ringsBut (s : State) (n : Nat) : s.RingsBut (s.ringInterrupt n) n :=
  (s.upRing_ringsBut n _).trans (fun k _ => State.msix_ring _ _ _ k)

theorem State.statusBlock_ringsBut (s : State) (n : Nat) : s.RingsBut (s.statusBlock n) n :=
  (s.upRing_ringsBut n _).trans (fun k _ => State.perf_ring _ _ _ k)

theorem State.ringSignal_ringsBut (s : State) (n : Nat) : s.RingsBut (s.ringSignal n) n := by
  unfold State.ringSignal
  split
  · exact s.upRing_ringsBut n _
  · exact s.ringInterrupt_ringsBut n

theorem State.ringWrote_ringsBut (s : State) (n : Nat) : s.RingsBut (s.ringWrote n) n := by
  unfold State.ringWrote
  extract_lets s1 s2 s3 m
  have h1 : s.RingsBut s1 n := fun k _ => State.countS_ring _ _ _ _ k
  have h2 : s1.RingsBut s2 n := by
    unfold s2
    split
    · exact State.statusBlock_ringsBut _ _
    · exact State.upRing_ringsBut _ _ _
  have h3 : s.RingsBut s3 n := (h1.trans h2).trans (State.upRing_ringsBut _ _ _)
  clear_value s3
  split
  · exact h3.trans (State.ringSignal_ringsBut _ _)
  · split
    · exact h3.trans (State.upRing_ringsBut _ _ _)
    · exact h3

theorem State.pushEntry_ringsBut (s : State) (n : Nat) (e : Entry) : s.RingsBut (s.pushEntry n e) n := by
  unfold State.pushEntry
  dsimp only
  split
  · unfold State.writeEntry
    extract_lets r d3 s1 s2 s3
    have h2 : s.RingsBut s2 n := fun k _ => State.perf_ring _ _ _ k
    exact (h2.trans (State.upRing_ringsBut _ _ _)).trans (State.ringWrote_ringsBut _ _)
  · split
    · exact State.upRing_ringsBut _ _ _
    · exact fun k hk => (State.upRing_ringsBut _ _ _ k hk).trans (State.countS_ring _ _ _ _ k)

theorem State.Quiet.ringIs {s t : State} (h : s.Quiet t) (n ty : Nat) : t.ringIs n ty = s.ringIs n ty := by
  simp only [State.ringIs, State.ringState, State.ringType, h.getF HIF_RING_STAT.STATE n (by decide),
    h.getF HIF_RING_CFG.TYPE n (by decide)]

/-- An event moves running EVENT rings only (R113). -/
theorem State.event_ring (s : State) (cls code source d0 d1 : Nat) (concerns : Nat → Bool) {n : Nat}
    (hn : s.ringIs n 3 = false) : (s.event cls code source d0 d1 concerns).ring n = s.ring n := by
  unfold State.event
  extract_lets e s1
  have h1 : s1.ring n = s.ring n := by
    have run : ∀ (l : List Nat) (t : State), t.ringIs n 3 = false → (l.foldl (fun s m =>
        if s.ringIs m 3 && bit (s.getF HIF_RING_CFG.AUX m) cls && (s.ringFn m == 0 || concerns (s.ringFn m))
        then s.pushEntry m e else s) t).ring n = t.ring n := by
      intro l
      induction l with
      | nil => exact fun _ _ => rfl
      | cons m l ih =>
        intro t ht
        rw [List.foldl_cons]
        split
        · next hm =>
          have hne : n ≠ m := by rintro rfl; simp [ht] at hm
          exact (ih _ (((t.pushEntry_quiet m e).ringIs n 3).trans ht)).trans (t.pushEntry_ringsBut m e n hne)
        · exact ih t ht
    exact run _ s hn
  clear_value s1
  split
  · exact (State.trace_ring _ _ _ _ _).trans h1
  · exact h1

/-! ### A ring that stops in ERROR (R58, R77) -/

theorem State.ringErr_quiet (s : State) (n reason idx : Nat) : (s.ringFail n reason).Quiet (s.ringErr n reason idx) :=
  State.event_quiet _ _ _ _ _ _ _

theorem State.ringFail_state (s : State) (n reason : Nat) : (s.ringFail n reason).getF HIF_RING_STAT.STATE n = 3 := by
  rw [State.ringFail, State.getF_setF_other _ _ _ _ _ _ (.inl (by decide)), State.getF_setF_same]
  rfl

theorem State.ringFail_reason (s : State) (n : Nat) {reason : Nat} (hr : reason < 16) :
    (s.ringFail n reason).getF HIF_RING_STAT.REASON n = reason := by
  rw [State.ringFail, State.getF_setF_same]
  exact Nat.mod_eq_of_lt hr

/-- What reporting leaves of ring `n` after its error. -/
theorem State.Still.failed {s t : State} {n reason : Nat} (h : (s.ringFail n reason).Still t) (hr : reason < 16) :
    t.getF HIF_RING_STAT.STATE n = 3 ∧ t.getF HIF_RING_STAT.REASON n = reason :=
  ⟨(h.regs _ (by decide) n).trans (s.ringFail_state n reason), (h.regs _ (by decide) n).trans (s.ringFail_reason n hr)⟩

/-- The ring that stops gets no event of its own: it is no running EVENT ring any more. -/
theorem State.ringErr_ring (s : State) (n reason idx : Nat) : (s.ringErr n reason idx).ring n = s.ring n :=
  State.event_ring _ _ _ _ _ _ _ (by simp [State.ringIs, State.ringState, State.ringFail_state])

/-! ### Scans (R66, R67) -/

theorem eraseDups_ne_nil {l : List Nat} (h : l ≠ []) : l.eraseDups ≠ [] := by
  cases l with
  | nil => exact absurd rfl h
  | cons a l => simp [List.eraseDups_cons]

/-- A scan that reads: the function's lines are read, and the rest is reports. -/
theorem State.scan_reads {s : State} {f : Nat} (hu : s.pcieUp = true) (he : s.enabledRings f ≠ [])
    (hs : (s.fn f).scanning = false) :
    (s.upFn f (fun x => { x with scanning := true })).Quiet (s.scan f) ∧
      Out.scanRead f ((s.enabledRings f).map (· / 8)).eraseDups ∈ (s.scan f).out.drop s.out.length := by
  have hl : (((s.enabledRings f).map (· / 8)).eraseDups).isEmpty = false := by
    simpa using eraseDups_ne_nil (by simpa using he)
  unfold State.scan
  extract_lets lines s1 s2
  simp only [hu, lines, hl, hs, Bool.not_true, Bool.or_self, Bool.false_eq_true, if_false]
  have hq : s1.Quiet (lines.foldl (fun s l => s.dmaRead f (s.dbBase f + 64 * l)) s2) :=
    State.Quiet.foldl _ _ (State.perf_quiet _ _ _) (fun t _ _ ht => ht.trans (State.dmaRead_quiet _ _ _))
  refine ⟨(State.emit_quiet _ _).trans hq, ?_⟩
  obtain ⟨l, hout⟩ := hq.still.out
  rw [hout]
  simp [s1, lines]

theorem sat_eq_min (n x : Nat) : sat n x = min n x := by
  unfold sat
  split <;> omega

/-- Raising a field by one holds it at its largest value. -/
theorem State.skipScan_eq (s : State) : s.skipScan = s.setF HIF_SCAN_SKIP.COUNT
    (min (2 ^ HIF_SCAN_SKIP.COUNT.width - 1) (s.getF HIF_SCAN_SKIP.COUNT + 1)) := by
  rw [State.skipScan, State.addF, sat_eq_min]

/-- With a scan outstanding the next is skipped and counted (R67). -/
theorem State.scan_skipped {s : State} {f : Nat} (hu : s.pcieUp = true) (he : s.enabledRings f ≠ [])
    (hs : (s.fn f).scanning = true) : s.scan f = s.skipScan := by
  have hl : (((s.enabledRings f).map (· / 8)).eraseDups).isEmpty = false := by
    simpa using eraseDups_ne_nil (by simpa using he)
  simp only [State.scan, hu, hl, hs, Bool.not_true, Bool.or_self, Bool.false_eq_true, if_false, if_true]

/-! ### Doorbell entries (R57–R59, R64) -/

/-- The entry of a running ring of the scanned function. -/
theorem State.doorbell_of_running {s : State} {f n : Nat} (index gen : Nat) (hs : s.ringState n = 1) (hf : s.ringFn n = f) :
    s.doorbell f n index gen =
      if s.getF HIF_RING_GEN.GEN n ≠ gen then s.countS (group 6 n) 2
      else if s.descRing n then
        if s.ringSize n < (index + 4294967296 - (s.ring n).cons) % 4294967296 then
          s.draw.2.ringErr n 2 (s.draw.1 % 4294967296)
        else s.upRing n (fun r => { r with prod := index })
      else s.upRing n (fun r => { r with cons := index }) := by
  simp [State.doorbell, hs, hf]

section
variable {s : State} {f n index gen : Nat}

/-- A stale entry moves nothing and is counted (R59). -/
theorem State.doorbell_stale (hs : s.ringState n = 1) (hf : s.ringFn n = f) (hg : s.getF HIF_RING_GEN.GEN n ≠ gen) :
    s.doorbell f n index gen = s.countS (group 6 n) 2 := by
  rw [State.doorbell_of_running _ _ hs hf, if_pos hg]

/-- A descriptor ring's producer index follows an entry within the ring's size (R57). -/
theorem State.doorbell_within (hs : s.ringState n = 1) (hf : s.ringFn n = f) (hg : s.getF HIF_RING_GEN.GEN n = gen)
    (hd : s.descRing n = true) (hl : (index + 4294967296 - (s.ring n).cons) % 4294967296 ≤ s.ringSize n) :
    s.doorbell f n index gen = s.upRing n (fun r => { r with prod := index }) := by
  rw [State.doorbell_of_running _ _ hs hf, if_neg (not_not_intro hg), if_pos hd, if_neg (Nat.not_lt.2 hl)]

/-- An entry beyond the ring's size stops a descriptor ring with reason INDEX (R58). -/
theorem State.doorbell_beyond (hs : s.ringState n = 1) (hf : s.ringFn n = f) (hg : s.getF HIF_RING_GEN.GEN n = gen)
    (hd : s.descRing n = true) (hl : s.ringSize n < (index + 4294967296 - (s.ring n).cons) % 4294967296) :
    s.doorbell f n index gen = s.draw.2.ringErr n 2 (s.draw.1 % 4294967296) := by
  rw [State.doorbell_of_running _ _ hs hf, if_neg (not_not_intro hg), if_pos hd, if_pos hl]

/-- An entry ring's consumer index follows the entry (R64). -/
theorem State.doorbell_entryRing (hs : s.ringState n = 1) (hf : s.ringFn n = f) (hg : s.getF HIF_RING_GEN.GEN n = gen)
    (hd : s.descRing n = false) : s.doorbell f n index gen = s.upRing n (fun r => { r with cons := index }) := by
  rw [State.doorbell_of_running _ _ hs hf, if_neg (not_not_intro hg), if_neg (by simp [hd])]

end

/-- No doorbell entry begins or ends a scan. -/
theorem State.doorbell_scanning (s : State) (f n index gen k : Nat) :
    ((s.doorbell f n index gen).fn k).scanning = (s.fn k).scanning := by
  unfold State.doorbell
  split
  · rfl
  split
  · exact ((s.countS_quiet _ _ _).still.fns k).2.1
  split
  · split
    · exact ((State.ringErr_quiet _ _ _ _).still.fns k).2.1
    · rfl
  · rfl

/-- A statistics counter counts up to its largest value (R518). -/
theorem State.counter_countS (s : State) (g k : Nat) :
    (s.countS g k).counter g k = min 0xFFFFFFFFFFFFFFFF (s.counter g k + 1) := by
  unfold State.countS
  dsimp only
  rw [← sat_eq_min]
  split
  · exact State.counter_setCounter_same s g k _
  · exact State.counter_setCounter_same s g k _

/-! ### Failed reads of data (R77) -/

/-- Descriptors completed with one STATUS: only ring `n` shows it. -/
theorem State.txRefuse_ringed (n : Nat) (ds : List Desc) (status : Nat) :
    ∀ s : State, s.Ringed (s.txRefuse n ds status) n := by
  induction ds with
  | nil => exact fun s => (State.Quiet.refl s).ringed n
  | cons d ds ih => exact fun s => (s.complete_law n _ _ _ _).1.trans (ih _)

theorem State.settleTx_ringed (n k : Nat) : ∀ s : State, s.Ringed (s.settleTx n k) n := by
  induction k with
  | zero => exact fun s => (State.Quiet.refl s).ringed n
  | succ k ih =>
    intro s
    have take : ∀ (l : List Desc) (ds : List Desc) (status : Nat),
        s.Ringed (((s.upRing n (fun r => { r with fetched := l })).txRefuse n ds status).settleTx n k) n :=
      fun l ds status => ((s.upRing_ringed n (fun r => { r with fetched := l }) (fun _ => ⟨rfl, rfl, rfl⟩)).trans
        (State.txRefuse_ringed n ds status _)).trans (ih _)
    rw [State.settleTx]
    split
    · exact (State.Quiet.refl s).ringed n
    · exact take _ _ _
    · extract_lets codes
      clear_value codes
      split
      · exact (State.Quiet.refl s).ringed n
      · exact take _ _ _

/-- A failed data read stops the ring with reason READ; what follows settles its descriptors. -/
theorem State.dataReadFails_failed {s : State} {n : Nat} (h : s.dataReading n = true) :
    ∃ u : State, (u.ringFail n 3).Still (s.dataReadFails n) := by
  unfold State.dataReadFails
  extract_lets l d u fail
  have hty : u.ringType n = s.ringType n := rfl
  simp only [State.dataReading, Bool.or_eq_true, Bool.and_eq_true, beq_iff_eq] at h
  rcases h with ⟨h0, hw⟩ | ⟨h2, hne⟩
  · have hds : ∃ ds, txHead l = .whole ds := by
      cases hl : txHead l with
      | whole ds => exact ⟨ds, rfl⟩
      | _ => simp only [l] at hl; simp [hl] at hw
    obtain ⟨ds, hds⟩ := hds
    rw [if_pos (hty.trans h0), hds]
    exact ⟨_, ((State.ringErr_quiet _ n 3 _).still.trans (State.txRefuse_ringed n ds stBadArg _).still).trans
      (State.settleTx_ringed n _ _).still⟩
  · have hxs : ∃ x xs, l = x :: xs := by
      cases hl : l with
      | nil => simp only [l] at hl; simp [hl] at hne
      | cons x xs => exact ⟨x, xs, rfl⟩
    obtain ⟨x, xs, hxs⟩ := hxs
    rw [if_neg (by rw [hty, h2]; decide), if_pos (hty.trans h2), hxs]
    exact ⟨_, ((State.ringErr_quiet _ n 3 _).still.trans (State.complete_law _ n _ _ _ _).1.still).trans
      (State.settleCmds_law n _ _).1.still⟩

/-- What DMA_READ_ERROR logs stands among what is sent, whatever follows it. -/
theorem State.Kept.emitted {ps : List Part} {s t : State} {o : Out} (h : (s.emit o).Kept ps t) :
    o ∈ t.out.drop s.out.length := by
  obtain ⟨l, hl⟩ := h.out
  simp [hl, List.append_assoc]

end Sys2Proof.Machine

namespace Sys2Proof.Proofs

open Sys2Proof.Machine

/-- Settles O20: a doorbell entry acts by the kind of its ring, and a ring that stops gets no event of its own. -/
theorem doorbellScansMoveTheIndices : Obligations.DoorbellScansMoveTheIndices := by
  unfold Obligations.DoorbellScansMoveTheIndices
  refine ⟨fun f s hu he hs => ?_, fun f s hu he hs => ?_, fun f n b s hs hr hf => ?_, fun f es s hs => ?_,
    fun f why s hs => ?_, fun n why s hr hd hp => ?_, fun n why s hr hd => ?_⟩
  · obtain ⟨hq, ho⟩ := State.scan_reads hu he hs
    refine ⟨_, rfl, (hq.still.fns f).2.1.trans ?_, ho, hq⟩
    simp
  · exact congrArg Host.Outcome.next ((State.scan_skipped hu he hs).trans s.skipScan_eq)
  · refine ⟨_, congrArg Host.Outcome.next (if_pos hs), ?_⟩
    rw [List.foldl_cons, List.foldl_nil]
    dsimp only
    have hf' : (s.upFn f (fun x => { x with scanning := false })).ringFn n = f := hf
    have hr' : (s.upFn f (fun x => { x with scanning := false })).ringState n = 1 := hr
    refine ⟨by simp [State.doorbell_scanning], fun hg hd => ⟨fun hle => ?_, fun hlt => ?_⟩, fun hg hd => ?_,
      fun hg => ?_⟩
    · rw [State.doorbell_within hr' hf' hg hd hle]
      exact ⟨State.ring_upRing_same _ _ _, hr⟩
    · rw [State.doorbell_beyond hr' hf' hg hd hlt]
      obtain ⟨hst, hre⟩ := (State.ringErr_quiet _ n 2 _).still.failed (by decide)
      exact ⟨congrArg Ring.prod (State.ringErr_ring _ _ _ _), hst, hre⟩
    · rw [State.doorbell_entryRing hr' hf' hg hd]
      exact State.ring_upRing_same _ _ _
    · rw [State.doorbell_stale hr' hf' hg]
      exact ⟨State.countS_ring _ _ _ _ _, State.counter_countS _ _ _⟩
  · exact congrArg Host.Outcome.next (if_pos hs)
  · refine ⟨_, congrArg Host.Outcome.next (if_pos hs), ?_⟩
    rw [State.skipScan_eq]
    refine ⟨by simp, by simp, ?_⟩
    rw [State.getF_setF_same]
    exact Nat.mod_eq_of_lt (Nat.lt_of_le_of_lt (Nat.min_le_left _ _) (by decide))
  · have hc : (s.ringState n == 1 && s.descRing n && s.published n != 0) = true := by simp [hr, hd, hp]
    refine ⟨_, congrArg Host.Outcome.next (if_pos hc), ?_⟩
    have hq := State.ringErr_quiet (s.emit (.aer (s.ringFn n) (.dmaRead why))) n 3 (s.ring n).fetch
    obtain ⟨hst, hre⟩ := hq.still.failed (by decide)
    exact ⟨hst, hre, (State.ringErr_kept n 3 _ (fun _ h => h) (.refl _ _)).emitted⟩
  · have hc : (s.ringState n != 0 && s.dataReading n) = true := by simp [hr, hd]
    refine ⟨_, congrArg Host.Outcome.next (if_pos hc), ?_⟩
    obtain ⟨u, hu⟩ := State.dataReadFails_failed (s := s.emit (.aer (s.ringFn n) (.dmaRead why))) (n := n) hd
    obtain ⟨hst, hre⟩ := hu.failed (by decide)
    exact ⟨hst, hre, (State.dataReadFails_kept n (fun _ h => h) (.refl _ _)).emitted⟩

end Sys2Proof.Proofs
end

section
/-!
PROOF. What a servo update and a measured path leave of the corrections in force (R39, R501).
-/

namespace Sys2Proof.Machine

/-! ### Register fields that an operation leaves alone -/

/-- The register fields with an ID in `l` are the same in `s` and `t`. -/
def State.Same (l : List Nat) (s t : State) : Prop := ∀ f : Fld, f.id ∈ l → ∀ i, t.getF f i = s.getF f i

theorem State.Same.refl (l : List Nat) (s : State) : s.Same l s := fun _ _ _ => rfl

theorem State.Same.trans {l : List Nat} {s t u : State} (h : s.Same l t) (k : t.Same l u) : s.Same l u :=
  fun f hf i => (k f hf i).trans (h f hf i)

theorem State.Same.of_regs {l : List Nat} {s t : State} (h : t.regs = s.regs) : s.Same l t :=
  fun _ _ _ => by simp only [State.getF, h]

theorem State.Kept.same_fields {ps : List Part} {l : List Nat} {s t : State} (h : s.Kept ps t) (hr : Part.regs ∉ ps) :
    s.Same l t := .of_regs (h.only .regs hr)

theorem State.Raised.same_fields {l : List Nat} {s t : State} (h : s.Raised t) (hl : ∀ x ∈ l, x ∉ faultFields) :
    s.Same l t := fun f hf i => h.regs f (hl _ hf) i

theorem State.Quiet.same_fields {l : List Nat} {s t : State} (h : s.Quiet t) (hl : ∀ x ∈ l, x ∉ reportFields) :
    s.Same l t := fun f hf i => h.still.regs f (hl _ hf) i

theorem State.setF_same (s : State) {l : List Nat} (f : Fld) (v i : Nat) (hf : f.id ∉ l) : s.Same l (s.setF f v i) :=
  fun g hg j => State.getF_setF_other s f g v i j (.inl (fun e => hf (e ▸ hg)))

theorem State.Same.setF {l : List Nat} {s0 s : State} (h : s0.Same l s) (f : Fld) (v i : Nat) (hf : f.id ∉ l) :
    s0.Same l (s.setF f v i) := h.trans (s.setF_same f v i hf)

theorem State.Same.foldl {α : Type} {l : List Nat} {s0 s : State} (f : State → α → State) (xs : List α)
    (h : s0.Same l s) (hf : ∀ t a, s0.Same l t → s0.Same l (f t a)) : s0.Same l (xs.foldl f s) := by
  induction xs generalizing s with
  | nil => exact h
  | cons a xs ih => exact ih (hf s a h)

/-- A copy of a field is named by its index modulo 65,536. -/
theorem State.getF_mod (s : State) (f : Fld) (i : Nat) : s.getF f (i % 65536) = s.getF f i := by
  simp [State.getF]

/-! ### Corrections that do not move -/

/-- The fields of the correction table (R315). -/
def corrFields : List Nat := [TPL_STC_TX.TX_CORR.id, TPL_STC_RX.RX_CORR.id]

/-- No item's applied value has moved. -/
def State.AppliedSame (s t : State) : Prop := ∀ k, (t.item k).applied = (s.item k).applied

/-- No correction has moved, in the table or of an item. -/
structure State.Unmoved (s t : State) : Prop where
  corr : s.Same corrFields t
  applied : s.AppliedSame t

/-- No correction has moved, and no pair of the table has come to be held. -/
structure State.Unheld (s t : State) : Prop extends s.Unmoved t where
  pairs : s.temper.pairs = [] → t.temper.pairs = []

theorem State.Unmoved.refl (s : State) : s.Unmoved s := ⟨.refl _ _, fun _ => rfl⟩

theorem State.Unmoved.trans {s t u : State} (h : s.Unmoved t) (k : t.Unmoved u) : s.Unmoved u :=
  ⟨h.corr.trans k.corr, fun j => (k.applied j).trans (h.applied j)⟩

theorem State.Unheld.refl (s : State) : s.Unheld s := ⟨.refl s, fun h => h⟩

theorem State.Unheld.trans {s t u : State} (h : s.Unheld t) (k : t.Unheld u) : s.Unheld u :=
  ⟨h.toUnmoved.trans k.toUnmoved, fun e => k.pairs (h.pairs e)⟩

theorem State.Unheld.foldl {α : Type} {s0 s : State} (f : State → α → State) (xs : List α)
    (h : s0.Unheld s) (hf : ∀ (t : State) (a : α), t.Unheld (f t a)) : s0.Unheld (xs.foldl f s) := by
  induction xs generalizing s with
  | nil => exact h
  | cons a xs ih => exact ih (h.trans (hf s a))

/-- An operation that leaves Temper's items and pairs and the correction table alone. -/
theorem State.Unheld.of_items {s t : State} (hc : s.Same corrFields t) (hi : t.temper.items = s.temper.items)
    (hp : t.temper.pairs = s.temper.pairs) : s.Unheld t :=
  ⟨⟨hc, fun k => by simp only [State.item, hi]⟩, fun h => hp.trans h⟩

theorem State.Unheld.of_temper {s t : State} (hc : s.Same corrFields t) (ht : t.temper = s.temper) : s.Unheld t :=
  .of_items hc (by rw [ht]) (by rw [ht])

theorem State.Kept.unheld {ps : List Part} {s t : State} (h : s.Kept ps t) (hr : Part.regs ∉ ps)
    (ht : Part.temper ∉ ps) : s.Unheld t := .of_temper (h.same_fields hr) (h.only .temper ht)

theorem State.setF_unheld (s : State) (f : Fld) (v i : Nat) (hf : f.id ∉ corrFields) : s.Unheld (s.setF f v i) :=
  .of_temper (s.setF_same f v i hf) rfl

theorem State.Unheld.setF {s0 s : State} (h : s0.Unheld s) (f : Fld) (v i : Nat) (hf : f.id ∉ corrFields) :
    s0.Unheld (s.setF f v i) := h.trans (s.setF_unheld f v i hf)

theorem corrFields_not_fault : ∀ x ∈ corrFields, x ∉ faultFields := by decide

theorem corrFields_not_report : ∀ x ∈ corrFields, x ∉ reportFields := by decide

/-! ### A fault leaves corrections where they are (R25, R502) -/

theorem Tab.get?_mapVal {α β : Type} (g : α → β) (t : Tab α) (k : Nat) :
    Tab.get? (t.map (fun e => (e.1, g e.2))) k = (Tab.get? t k).map g := by
  induction t with
  | nil => rfl
  | cons e t ih =>
    simp only [List.map_cons, Tab.get?, ih]
    split <;> rfl

theorem Tab.getD_mapVal {α β : Type} (g : α → β) (t : Tab α) (k : Nat) (d : α) :
    Tab.getD (t.map (fun e => (e.1, g e.2))) k (g d) = g (Tab.getD t k d) := by
  simp only [Tab.getD, Tab.get?_mapVal]
  cases Tab.get? t k <;> rfl

/-- What a fault's reaction does to Temper: applied values hold, and holds of pairs only end. -/
def State.TemperHolds (s t : State) : Prop := s.AppliedSame t ∧ (s.temper.pairs = [] → t.temper.pairs = [])

theorem State.TemperHolds.trans {s t u : State} (h : s.TemperHolds t) (k : t.TemperHolds u) : s.TemperHolds u :=
  ⟨fun j => (k.1 j).trans (h.1 j), fun e => k.2 (h.2 e)⟩

theorem State.TemperHolds.refl (s : State) : s.TemperHolds s := ⟨fun _ => rfl, fun h => h⟩

theorem State.TemperHolds.of_temper {s t : State} (h : t.temper = s.temper) : s.TemperHolds t :=
  ⟨fun _ => by simp only [State.item, h], fun e => h ▸ e⟩

theorem State.Kept.temperHolds {ps : List Part} {s t : State} (h : s.Kept ps t) (ht : Part.temper ∉ ps) :
    s.TemperHolds t := .of_temper (h.only .temper ht)

theorem State.temperSuspend_holds (s : State) : s.TemperHolds s.temperSuspend := by
  unfold State.temperSuspend
  extract_lets s1 s2 _ s3 s4
  have h3 : s.TemperHolds s3 := by
    refine ⟨fun k => ?_, fun _ => rfl⟩
    have h := Tab.getD_mapVal (fun x : Item => { x with meas := [] }) s.temper.items k {}
    exact (congrArg Item.applied h : _)
  exact (h3.trans (.of_temper (t := s4) rfl)).trans
    ((State.endTemperRun_kept _ _ _ (fun _ h => h) (.refl _ s4)).temperHolds (by decide))

/-- What firmware owed a command when it stopped moves nothing. -/
theorem State.fwStops_owed_holds (s : State) (x : Option Cmd) (fw : Fw) :
    s.TemperHolds (match x with | some c => ({ s with fw := fw }).done c stFenced | none => s) := by
  cases x with
  | none => exact .refl s
  | some c =>
    refine State.TemperHolds.trans (t := { s with fw := fw }) (.of_temper rfl) ?_
    exact (State.done_kept _ _ _ _ _ (fun _ h => h) (.refl _ _)).temperHolds (by decide)

theorem State.fwStops_holds (s : State) : s.TemperHolds s.fwStops := by
  unfold State.fwStops
  extract_lets _ s1 s2 s3 _ s4 s5 _ s6 _ s7 s8
  have h1 : s.TemperHolds s1 := .of_temper rfl
  have h2 : s1.TemperHolds s2 :=
    ((State.endCondition_kept _ (fun _ h => h) (.refl _ _)).temperHolds (by decide) : State.TemperHolds
      ((s1.setF MER_BUDGET_STAT.HB_ARMED 0).setF MER_BUDGET_STAT.MISS_RUN 0) _)
  have h3 : s2.TemperHolds s3 := (State.abortTraining_kept (fun _ h => h) (.refl _ _)).temperHolds (by decide)
  clear_value s3
  have h4 : s3.TemperHolds s4 := .of_temper (by unfold s4; split <;> rfl)
  clear_value s4
  have h5 : s4.TemperHolds s5 := (State.endTimeAuth_kept _ (fun _ h => h) (.refl _ _)).temperHolds (by decide)
  clear_value s5
  have h6 : s5.TemperHolds s6 := s5.fwStops_owed_holds s5.fw.pairSwitch _
  clear_value s6
  have h7 : s6.TemperHolds s7 := by
    unfold s7
    split
    · next a _ =>
      split
      · exact .refl s6
      · exact s6.fwStops_owed_holds (some a.cmd) _
    · exact .refl s6
  clear_value s7
  have h8 : s7.TemperHolds s8 := s7.temperSuspend_holds
  clear_value s8
  refine (((((((h1.trans h2).trans h3).trans h4).trans h5).trans h6).trans h7).trans h8).trans ?_
  exact (State.Kept.foldl _ _ (.refl _ s8) (fun t c ht =>
    State.flushQueue_kept 257 c 0x37 false (fun _ h => h) ht)).temperHolds (by decide)

theorem State.fenceAccept_holds (s : State) (who : Requester) (d : Nat) (fault : Option Nat) :
    s.TemperHolds (s.fenceAccept who d fault) := by
  unfold State.fenceAccept
  extract_lets s1 s2 s3
  have h1 : s.TemperHolds s1 := (State.countDrops_kept (fun _ h => h) (.refl _ _)).temperHolds (by decide)
  clear_value s1
  have h3 : s.TemperHolds s3 :=
    h1.trans ((State.tileDiscard_kept d (fun _ h => h) (.refl _ s2)).temperHolds (by decide))
  clear_value s3
  split
  · exact h3.trans ((State.tileDown_kept d (fun _ h => h) (.refl _ _)).temperHolds (by decide))
  split
  · exact h1.trans s1.fwStops_holds
  split
  · exact h1.trans s1.temperSuspend_holds
  split
  · exact h1.trans ((State.hmkDiscard_kept (fun _ h => h) (.refl _ _)).temperHolds (by decide))
  · exact h1

theorem State.fenceAsk_holds (s : State) (who : Requester) (d : Nat) (fault : Option Nat) :
    s.TemperHolds (s.fenceAsk who d fault) := by
  unfold State.fenceAsk
  dsimp only
  split
  · exact .of_temper (by rfl)
  split
  · exact .of_temper (by rfl)
  split
  · exact s.fenceAccept_holds who d fault
  · exact .of_temper (by rfl)

theorem State.isolateFence_holds (s : State) (id : Nat) : s.TemperHolds (s.isolateFence id) := by
  unfold State.isolateFence
  split
  · split
    · exact s.fenceAsk_holds _ _ _
    · exact .of_temper (by rfl)
  · exact .of_temper (by rfl)

/-- A fault's event and its isolation. -/
theorem State.faultEvent_isolateFence_holds (s : State) (id : Nat) : s.TemperHolds ((s.faultEvent id).isolateFence id) :=
  ((State.faultEvent_kept id (fun _ h => h) (.refl _ s)).temperHolds (by decide)).trans (State.isolateFence_holds _ id)

theorem State.occur_holds (s : State) (o : FaultOcc) (same : Bool) : s.TemperHolds (s.occur o same) := by
  unfold State.occur
  split
  · unfold State.latchAgain
    extract_lets old conf rise f upd _ s1
    split
    · exact TemperHolds.trans (.of_temper (by rfl)) (State.faultEvent_isolateFence_holds _ _)
    · exact .of_temper (by rfl)
  · unfold State.latchNew
    extract_lets conf esc applied first k r f _ s1 s2 s3 s4 s5
    have h2 : s2.temper = s.temper := by unfold s2; split <;> rfl
    have h3 : s3.temper = s2.temper := by unfold s3; split <;> rfl
    have h4 : s4.temper = s3.temper := by unfold s4; split <;> rfl
    have h5 : s5.temper = s4.temper := by unfold s5; split <;> rfl
    exact TemperHolds.trans (.of_temper (h5.trans (h4.trans (h3.trans h2)))) (State.faultEvent_isolateFence_holds _ _)

theorem State.raiseCycle_holds (s : State) (l : List FaultOcc) : s.TemperHolds (s.raiseCycle l) := by
  unfold State.raiseCycle
  extract_lets l1 wasEmpty s1 same
  have run : ∀ (l : List FaultOcc) (a : State × Bool),
      a.1.TemperHolds (l.foldl (fun (a : State × Bool) o => (a.1.occur o a.2, true)) a).1 := by
    intro l
    induction l with
    | nil => exact fun a => .of_temper (by rfl)
    | cons o l ih => exact fun a => (a.1.occur_holds o a.2).trans (ih _)
  have h1 : s.TemperHolds s1 :=
    (run l1 (s, false)).trans ((State.cutPins_kept s (fun _ h => h) (.refl _ _)).temperHolds (by decide))
  clear_value s1
  split
  · exact h1.trans (.of_temper (by rfl))
  · exact h1

/-- A fault moves no correction. -/
theorem State.raiseCycle_unheld (s : State) (l : List FaultOcc) : s.Unheld (s.raiseCycle l) :=
  ⟨⟨(State.raiseCycle_raised l (.refl s)).same_fields corrFields_not_fault, (s.raiseCycle_holds l).1⟩,
    (s.raiseCycle_holds l).2⟩

/-! ### The servo update before Temper's part (R296–R312) -/

theorem State.clearFault_unheld {s : State} {id : Nat} (h0 : id ≠ 0) : s.Unheld (s.clearFault id) := by
  unfold State.clearFault
  rw [if_neg h0]
  split
  · exact .refl s
  · exact (State.endCondition_kept id (fun _ h => h) (.refl _ s)).unheld (by decide) (by decide)

theorem State.reloadFailed_unheld (s : State) : s.Unheld s.reloadFailed := by
  unfold State.reloadFailed
  split
  · refine Unheld.trans ?_ (State.clearFault_unheld (id := 0xC0) (by decide))
    exact .of_temper (.of_regs rfl) rfl
  · exact .refl s

theorem State.servoMode_unheld (s : State) : s.Unheld s.servoMode := by
  refine .of_temper ?_ ((State.servoMode_kept (fun _ h => h) (.refl _ s)).only .temper (by decide))
  unfold State.servoMode
  extract_lets soft _ s1 s2 f
  have h2 : s.Same corrFields s2 := Same.trans (.of_regs (t := s1) rfl) (s1.setF_same _ _ _ (by decide))
  split
  · exact .refl _ _
  split
  · exact h2
  · exact (h2.setF TPL_DPLL_FOFF.FOFF (unsign 32 f) 0 (by decide)).trans (.of_regs rfl)

theorem State.takeInc_same (s : State) (v : Int) : s.Same corrFields (s.takeInc v) := by
  unfold State.takeInc
  extract_lets c s1
  have h1 : s.Same corrFields s1 := by
    unfold s1
    split
    · exact s.setF_same _ _ _ (by decide)
    · exact .refl _ _
  exact h1.trans (.of_regs (by rfl))

theorem State.servoInc_unheld (s : State) : s.Unheld s.servoInc := by
  refine .of_temper ?_ ((State.servoInc_kept (fun _ h => h) (.refl _ s)).only .temper (by decide))
  unfold State.servoInc
  split
  · split
    · exact State.Same.trans (.of_regs (by rfl)) (State.takeInc_same _ _)
    · exact .refl _ _
  · exact ((s.takeInc_same _).trans (State.setF_same _ _ _ _ (by decide))).trans (State.setF_same _ _ _ _ (by decide))

theorem State.closeDisc_same (s : State) (status : Nat) : s.Same corrFields (s.closeDisc status) := by
  unfold State.closeDisc
  refine State.Same.trans ?_ ((State.endTimeAuth_raised status (.refl _)).same_fields corrFields_not_fault)
  exact ((State.Same.of_regs rfl).trans (State.setF_same _ _ _ _ (by decide))).trans (State.setF_same _ _ _ _ (by decide))

theorem State.Same.upGen {l : List Nat} {s0 s : State} (h : s0.Same l s) (g : Nat) (f : Gen → Gen) :
    s0.Same l (s.upGen g f) := h.trans (.of_regs rfl)

theorem State.stepGenerators_same (s : State) (old d : Int) : s.Same corrFields (s.stepGenerators old d) := by
  unfold State.stepGenerators
  extract_lets _ s1
  refine State.Same.foldl _ _ (.of_regs (t := s1) rfl) (fun t g ht => ?_)
  split
  · exact ht
  · dsimp only
    split
    · exact ((ht.setF _ _ _ (by decide)).upGen _ _).setF _ _ _ (by decide)
    split
    · exact ((ht.upGen _ _).setF _ _ _ (by decide)).setF _ _ _ (by decide)
    · exact ht

theorem State.tiuStep_same (s : State) : s.Same corrFields s.tiuStep := by
  unfold State.tiuStep
  refine State.Same.foldl _ _ (.refl _ s) (fun t c ht => ?_)
  split
  · exact (ht.trans (State.setF_same _ _ _ _ (by decide))).trans (State.setF_same _ _ _ _ (by decide))
  · exact ht

theorem State.applyStep_unheld (s : State) (d : Int) : s.Unheld (s.applyStep d) := by
  refine .of_temper ?_ ((State.applyStep_kept d (fun _ h => h) (.refl _ s)).only .temper (by decide))
  unfold State.applyStep
  extract_lets old _ s1 s2 s3 s4
  have h3 : s.Same corrFields s3 := (((State.Same.of_regs (t := s1) rfl).trans (s1.setF_same _ _ _ (by decide))).trans
    (State.setF_same _ _ _ _ (by decide))).trans (State.setF_same _ _ _ _ (by decide))
  have h4 : s3.Same corrFields s4 := by
    unfold s4
    split
    · exact s3.closeDisc_same _
    · exact .refl _ _
  exact (((h3.trans h4).trans (s4.stepGenerators_same old d)).trans (State.tiuStep_same _)).trans
    ((State.trace_quiet _ _ _ _).same_fields corrFields_not_report)

theorem State.refuseStep_unheld (s : State) : s.Unheld s.refuseStep :=
  ((s.setF_unheld _ _ _ (by decide)).trans (State.setF_unheld _ _ _ _ (by decide))).trans (State.raiseCycle_unheld _ _)

theorem State.hardStep_unheld (s : State) : s.Unheld s.hardStep.1 := by
  unfold State.hardStep
  split
  · next d _ =>
    extract_lets _ s1
    have h1 : s.Unheld s1 := .of_temper (.of_regs (by rfl)) (by rfl)
    split
    · exact h1.trans s1.refuseStep_unheld
    · dsimp only
      exact h1.trans (s1.applyStep_unheld _)
  · split
    · next r _ =>
      split
      · dsimp only
        exact s.applyStep_unheld _
      · exact .refl s
    · exact .refl s

theorem State.softStep_unheld (s : State) : s.Unheld s.softStep.1 := by
  unfold State.softStep
  split
  · exact .refl s
  · extract_lets s1 ns
    have h1 : s.Unheld s1 := s.setF_unheld _ _ _ (by decide)
    split
    · exact h1
    · dsimp only
      exact h1.trans (s1.applyStep_unheld _)

/-! ### Temper's runs (R494–R499) -/

theorem State.endTemperRun_unheld (s : State) (status r0 r1 : Nat) : s.Unheld (s.endTemperRun status r0 r1) :=
  .of_temper ((State.endTemperRun_raised status r0 r1 (.refl s)).same_fields corrFields_not_fault)
    ((State.endTemperRun_kept status r0 r1 (fun _ h => h) (.refl _ s)).only .temper (by decide))

theorem State.checkRun_unheld (s : State) : s.Unheld s.checkRun := by
  unfold State.checkRun
  split
  · exact .refl s
  split
  · split
    · exact .refl s
    · exact Unheld.trans (.of_items (.of_regs (by rfl)) (by rfl) (by rfl)) (State.setF_unheld _ _ _ _ (by decide))
  · exact s.endTemperRun_unheld _ _ _

theorem State.judgeDt_unheld (s : State) : s.Unheld s.judgeDt := s.setF_unheld _ _ _ (by decide)

theorem State.endRun_unheld (s : State) : s.Unheld s.endRun := by
  unfold State.endRun
  split
  · exact .refl s
  · extract_lets n s1 _ s2 s3 t s4 s5 _ _ s6
    have h1 : s.Unheld s1 := s.setF_unheld _ _ _ (by decide)
    have h2 : s1.Unheld s2 := .of_items (.of_regs rfl) rfl rfl
    have h3 : s.Unheld s3 := ((h1.trans h2).setF _ _ _ (by decide)).setF _ _ _ (by decide)
    have h5 : s3.Unheld s5 := (s3.setF_unheld _ _ _ (by decide)).setF _ _ _ (by decide)
    have h6 : s3.Unheld s6 := by
      unfold s6
      split
      · exact h5.trans (.of_items (.of_regs rfl) rfl rfl)
      · exact .of_items (.of_regs rfl) rfl rfl
    exact ((h3.trans h6).trans s6.judgeDt_unheld).trans (State.checkRun_unheld _)

theorem State.nextRun_unheld (n : Nat) : ∀ s : State, s.Unheld (s.nextRun n) := by
  induction n with
  | zero => exact fun s => .refl s
  | succ n ih =>
    intro s
    rw [State.nextRun]
    split
    · exact .refl s
    split
    · exact .refl s
    · extract_lets lanes d s1 s2 _ s3
      have hd : s.Unheld d.2 := .of_temper (.of_regs rfl) rfl
      have h2 : s.Unheld s2 := ((hd.setF _ _ _ (by decide)).setF _ _ _ (by decide)).setF _ _ _ (by decide)
      have h3 : s.Unheld s3 := h2.trans (.of_items (.of_regs rfl) rfl rfl)
      clear_value s3
      split
      · exact (h3.trans s3.endRun_unheld).trans (ih _)
      · exact h3

theorem State.runTemper_unheld (s : State) : s.Unheld s.runTemper := s.nextRun_unheld 10

/-! ### Measurements (R498, R499) -/

theorem State.item_upItem (s : State) (k j : Nat) (f : Item → Item) :
    (s.upItem k f).item j = if j = k then f (s.item k) else s.item j := by
  simp [State.item, State.upItem, Tab.getD_update]

/-- A measurement noted, or a target taken, moves nothing. -/
theorem State.upItem_unheld (s : State) (k : Nat) (f : Item → Item) (hf : ∀ x, (f x).applied = x.applied) :
    s.Unheld (s.upItem k f) := by
  refine ⟨⟨.of_regs rfl, fun j => ?_⟩, fun h => h⟩
  rw [State.item_upItem]
  split
  · subst_vars; exact hf _
  · rfl

theorem State.measure_unheld (s : State) (k : Nat) (m : Int) (keep : Bool) : s.Unheld (s.measure k m keep).1 := by
  unfold State.measure
  simp only
  split
  · split
    · exact s.upItem_unheld _ _ (fun _ => rfl)
    split
    · refine State.Unheld.trans ?_ (State.raiseCycle_unheld _ _)
      have hd : s.Unheld s.draw.2 := .of_temper (.of_regs rfl) rfl
      have h1 := s.draw.2.upItem_unheld k (fun x => { x with meas := [] }) (fun _ => rfl)
      exact (hd.trans h1).setF TMP_HIST.REPEAT_FAIL 1 0 (by decide)
    · exact s.upItem_unheld _ _ (fun _ => rfl)
  · exact s.upItem_unheld _ _ (fun _ => rfl)

theorem State.reportDelay_unheld (s : State) (k : Nat) : s.Unheld (s.reportDelay k) := by
  unfold State.reportDelay
  split
  · extract_lets ps
    split
    · exact s.setF_unheld _ _ _ (by decide)
    split
    · exact s.setF_unheld _ _ _ (by decide)
    · exact .refl s
  · exact .refl s

/-- No applied value has moved; and where no pair of the table was held, none is, and no entry has moved: what a hold that
ends writes is the pair that was held (R328). -/
structure State.Eased (s t : State) : Prop where
  applied : s.AppliedSame t
  corr : s.temper.pairs = [] → s.Same corrFields t ∧ t.temper.pairs = []

theorem State.Unheld.eased {s t : State} (h : s.Unheld t) : s.Eased t := ⟨h.applied, fun e => ⟨h.corr, h.pairs e⟩⟩

theorem State.Eased.refl (s : State) : s.Eased s := (Unheld.refl s).eased

theorem State.Eased.trans {s t u : State} (h : s.Eased t) (k : t.Eased u) : s.Eased u := by
  refine ⟨fun j => (k.applied j).trans (h.applied j), fun e => ?_⟩
  obtain ⟨h0, h1⟩ := h.corr e
  obtain ⟨k0, k1⟩ := k.corr h1
  exact ⟨h0.trans k0, k1⟩

theorem State.Eased.foldl {α : Type} {s0 s : State} (f : State → α → State) (xs : List α)
    (h : s0.Eased s) (hf : ∀ (t : State) (a : α), t.Eased (f t a)) : s0.Eased (xs.foldl f s) := by
  induction xs generalizing s with
  | nil => exact h
  | cons a xs ih => exact ih (h.trans (hf s a))

theorem State.releasePort_eased (s : State) (p : Nat) : s.Eased (s.releasePort p) := by
  unfold State.releasePort
  extract_lets mine s1
  have h1 : s1.temper = s.temper := by
    refine (State.Kept.foldl (l := [.regs]) _ _ (.refl _ s) (fun t e ht => ?_)).only .temper (by decide)
    split <;> exact State.setF_kept _ _ _ (fun _ h => h) ht
  refine ⟨fun k => (congrArg (fun x : Temper => (Tab.getD x.items k {}).applied) h1 : _), fun h => ⟨.of_regs ?_, ?_⟩⟩
  · simp [s1, mine, h]
  · simp [h1, h]

theorem State.endPart_eased (s : State) (l : Nat) (done : Bool) : s.Eased (s.endPart l done) := by
  unfold State.endPart
  extract_lets rest _ s1
  have h1 : s.Eased s1 := (Unheld.of_items (.of_regs (by rfl)) (by rfl) (by rfl)).eased
  clear_value s1
  split
  · exact h1
  split
  · extract_lets s2
    have h2 : s1.Eased s2 := by
      unfold s2
      split
      · exact (Unheld.of_items (.of_regs (by rfl)) (by rfl) (by rfl)).eased
      · exact .refl s1
    clear_value s2
    split
    · exact h1.trans h2
    · exact (h1.trans h2).trans (s2.releasePort_eased _)
  · exact State.Eased.foldl _ _ h1 (fun t p => t.releasePort_eased p)

theorem State.measurePart_eased (s : State) : s.Eased s.measurePart := by
  unfold State.measurePart
  split
  · exact .refl s
  split
  · exact s.endPart_eased _ _
  · extract_lets s1
    have h1 : s.Unheld s1 := by
      refine State.Unheld.foldl _ _ (.refl s) (fun t k => ?_)
      extract_lets d r s2 _ s3
      have h2 : t.Unheld s2 := Unheld.trans (.of_temper (t := d.2) (.of_regs (by rfl)) (by rfl)) (State.measure_unheld _ _ _ _)
      have h3 : t.Unheld s3 := h2.trans (.of_items (.of_regs (by rfl)) (by rfl) (by rfl))
      split
      · exact h2
      split
      · exact h3.trans (s3.reportDelay_unheld k)
      · exact h3
    clear_value s1
    split
    · exact h1.eased.trans (s1.endPart_eased _ _)
    · exact h1.eased

theorem State.holdPort_unmoved (s : State) (p : Nat) : s.Unmoved (s.holdPort p) := by
  unfold State.holdPort
  split
  · exact .refl s
  · exact ⟨.of_regs (by rfl), fun _ => by rfl⟩

/-- The next lane part holds pairs where they stand. -/
theorem State.startPart_unmoved (n : Nat) : ∀ s : State, s.Unmoved (s.startPart n) := by
  induction n with
  | zero => exact fun s => .refl s
  | succ n ih =>
    intro s
    rw [State.startPart]
    split
    · split
      · refine State.Unmoved.trans ?_ (ih _)
        exact ⟨.of_regs (by rfl), fun _ => by rfl⟩
      · extract_lets s1 s2
        have h1 : s.Unmoved s1 := ⟨.of_regs (by rfl), fun _ => by rfl⟩
        have h2 : s1.Unmoved s2 := by
          unfold s2
          split
          · split
            · exact .refl s1
            · exact s1.holdPort_unmoved _
          · exact .refl s1
        exact (h1.trans h2).trans ⟨.of_regs (by rfl), fun _ => by rfl⟩
    · exact (s.endRun_unheld.toUnmoved.trans (State.runTemper_unheld _).toUnmoved).trans (ih _)
    · exact .refl s

/-! ### Entry (R501) -/

/-- What is moved toward a goal moves by the step at most. -/
theorem natAbs_toward_sub {v goal : Int} {n : Nat} : (toward v goal n - v).natAbs ≤ n := by
  unfold toward clampI
  split
  · omega
  · split <;> omega

/-- A value of the table is one that its field can hold. -/
theorem signed_range (v : Nat) : -524288 ≤ signed 20 v ∧ signed 20 v < 524288 := by
  unfold signed
  split <;> omega

theorem signed_unsign {x : Int} (h0 : -524288 ≤ x) (h1 : x < 524288) : signed 20 (unsign 20 x % 2 ^ 20) = x := by
  unfold signed unsign
  split <;> omega

theorem toward_range {v goal : Int} (hv : -524288 ≤ v ∧ v < 524288) (hg : -524288 ≤ goal ∧ goal ≤ 524287) :
    -524288 ≤ toward v goal 1 ∧ toward v goal 1 < 524288 := by
  unfold toward clampI
  split
  · omega
  · split <;> omega

theorem State.pairTarget_range {s : State} {dir i : Nat} {t : Int} (h : s.pairTarget dir i = some t) :
    -524288 ≤ t ∧ t ≤ 524287 := by
  unfold State.pairTarget at h
  split at h
  · injection h with h
    subst h
    unfold clampI
    split
    · omega
    · split <;> omega
  · cases h

/-- One item's step of the entry of corrections. -/
def State.enterItem (s : State) (k : Nat) : State :=
  if k < 131072 then s.movePair (k / 65536) (k % 65536)
  else if s.enters k then
    match (s.item k).target with
    | some t => s.upItem k (fun x => { x with applied := toward x.applied t 1000 })
    | none => s
  else s

theorem State.movePair_cases (s : State) (dir i : Nat) :
    s.movePair dir i = s ∨ ∃ t : Int, (-524288 ≤ t ∧ t ≤ 524287) ∧
      s.movePair dir i = if dir = 0
        then s.setF TPL_STC_TX.TX_CORR (unsign 20 (toward (signed 20 (s.getF TPL_STC_TX.TX_CORR i)) t 1)) i
        else s.setF TPL_STC_RX.RX_CORR (unsign 20 (toward (signed 20 (s.getF TPL_STC_RX.RX_CORR i)) t 1)) i := by
  unfold State.movePair
  split
  · exact .inl rfl
  split
  · exact .inl rfl
  · next t ht => exact .inr ⟨t, State.pairTarget_range ht, rfl⟩

/-- A step toward a goal written to copy `i` of an entry: that copy moves by 1 ps at most, no other moves. -/
theorem State.setF_toward (s : State) {f : Fld} (hw : f.width = 20) (i j : Nat) {t : Int}
    (ht : -524288 ≤ t ∧ t ≤ 524287) :
    (i % 65536 ≠ j % 65536 →
      (s.setF f (unsign 20 (toward (signed 20 (s.getF f i)) t 1)) i).getF f j = s.getF f j) ∧
    (signed 20 ((s.setF f (unsign 20 (toward (signed 20 (s.getF f i)) t 1)) i).getF f j) -
      signed 20 (s.getF f j)).natAbs ≤ 1 := by
  have other : i % 65536 ≠ j % 65536 →
      (s.setF f (unsign 20 (toward (signed 20 (s.getF f i)) t 1)) i).getF f j = s.getF f j :=
    fun h => State.getF_setF_other _ _ _ _ _ _ (.inr (Ne.symm h))
  refine ⟨other, ?_⟩
  by_cases h : i % 65536 = j % 65536
  · obtain ⟨h0, h1⟩ := toward_range (signed_range (s.getF f i)) ht
    rw [← State.getF_mod _ f j, ← State.getF_mod s f j, ← h, State.getF_mod, State.getF_mod, State.getF_setF_same, hw,
      signed_unsign h0 h1]
    exact natAbs_toward_sub (n := 1)
  · rw [other h]
    simp

/-- The step of item `k` and the transmit entries. -/
theorem State.enterItem_tx (s : State) (k j : Nat) :
    (k ≠ j % 65536 → (s.enterItem k).getF TPL_STC_TX.TX_CORR j = s.getF TPL_STC_TX.TX_CORR j) ∧
    (signed 20 ((s.enterItem k).getF TPL_STC_TX.TX_CORR j) - signed 20 (s.getF TPL_STC_TX.TX_CORR j)).natAbs ≤ 1 := by
  have still : ∀ t : State, t.getF TPL_STC_TX.TX_CORR j = s.getF TPL_STC_TX.TX_CORR j →
      (k ≠ j % 65536 → t.getF TPL_STC_TX.TX_CORR j = s.getF TPL_STC_TX.TX_CORR j) ∧
      (signed 20 (t.getF TPL_STC_TX.TX_CORR j) - signed 20 (s.getF TPL_STC_TX.TX_CORR j)).natAbs ≤ 1 :=
    fun t h => ⟨fun _ => h, by rw [h]; simp⟩
  unfold State.enterItem
  split
  · rcases s.movePair_cases (k / 65536) (k % 65536) with e | ⟨t, ht, e⟩
    · exact still _ (by rw [e])
    · rw [e]
      split
      · obtain ⟨h0, h1⟩ := s.setF_toward (f := TPL_STC_TX.TX_CORR) rfl (k % 65536) j ht
        exact ⟨fun hk => h0 (by omega), h1⟩
      · exact still _ (State.getF_setF_other _ _ _ _ _ _ (.inl (by decide)))
  split
  · split <;> exact still _ rfl
  · exact still s rfl

/-- The step of item `k` and the receive entries. -/
theorem State.enterItem_rx (s : State) (k j : Nat) :
    (k ≠ 65536 + j % 65536 → (s.enterItem k).getF TPL_STC_RX.RX_CORR j = s.getF TPL_STC_RX.RX_CORR j) ∧
    (signed 20 ((s.enterItem k).getF TPL_STC_RX.RX_CORR j) - signed 20 (s.getF TPL_STC_RX.RX_CORR j)).natAbs ≤ 1 := by
  have still : ∀ t : State, t.getF TPL_STC_RX.RX_CORR j = s.getF TPL_STC_RX.RX_CORR j →
      (k ≠ 65536 + j % 65536 → t.getF TPL_STC_RX.RX_CORR j = s.getF TPL_STC_RX.RX_CORR j) ∧
      (signed 20 (t.getF TPL_STC_RX.RX_CORR j) - signed 20 (s.getF TPL_STC_RX.RX_CORR j)).natAbs ≤ 1 :=
    fun t h => ⟨fun _ => h, by rw [h]; simp⟩
  unfold State.enterItem
  split
  · rcases s.movePair_cases (k / 65536) (k % 65536) with e | ⟨t, ht, e⟩
    · exact still _ (by rw [e])
    · rw [e]
      split
      · exact still _ (State.getF_setF_other _ _ _ _ _ _ (.inl (by decide)))
      · obtain ⟨h0, h1⟩ := s.setF_toward (f := TPL_STC_RX.RX_CORR) rfl (k % 65536) j ht
        exact ⟨fun hk => h0 (by omega), h1⟩
  split
  · split <;> exact still _ rfl
  · exact still s rfl

theorem State.movePair_temper (s : State) (dir i : Nat) : (s.movePair dir i).temper = s.temper :=
  (State.movePair_kept dir i (fun _ h => h) (.refl _ s)).only .temper (by decide)

/-- The step of item `k` and the applied values. -/
theorem State.enterItem_applied (s : State) (k j : Nat) :
    (k ≠ j → ((s.enterItem k).item j).applied = (s.item j).applied) ∧
    (((s.enterItem k).item j).applied - (s.item j).applied).natAbs ≤ 1000 := by
  have still : ∀ t : State, t.item j = s.item j → (k ≠ j → (t.item j).applied = (s.item j).applied) ∧
      ((t.item j).applied - (s.item j).applied).natAbs ≤ 1000 := fun t h => ⟨fun _ => by rw [h], by rw [h]; simp⟩
  unfold State.enterItem
  split
  · exact still _ (by simp only [State.item, State.movePair_temper])
  split
  · split
    · next t ht =>
      rw [State.item_upItem]
      split
      · next e => exact ⟨fun hk => absurd e.symm hk, e ▸ natAbs_toward_sub (n := 1000)⟩
      · exact ⟨fun _ => rfl, by simp⟩
    · exact still s rfl
  · exact still s rfl

theorem State.enterItem_pairs (s : State) (k : Nat) : (s.enterItem k).temper.pairs = s.temper.pairs := by
  unfold State.enterItem
  split
  · rw [State.movePair_temper]
  split
  · split <;> rfl
  · rfl

/-- A value that only the step of item `key` moves, and by `b` at most, moves by `b` at most where each item has one step. -/
theorem foldl_enterItem_bound {v : State → Int} {key b : Nat}
    (other : ∀ s k, k ≠ key → v (State.enterItem s k) = v s) (own : ∀ s k, (v (State.enterItem s k) - v s).natAbs ≤ b)
    (l : List Nat) : l.Nodup → ∀ s : State,
      (key ∉ l → v (l.foldl State.enterItem s) = v s) ∧ (v (l.foldl State.enterItem s) - v s).natAbs ≤ b := by
  induction l with
  | nil => exact fun _ s => ⟨fun _ => rfl, by simp⟩
  | cons k l ih =>
    intro hl s
    obtain ⟨hk, hl⟩ := List.nodup_cons.1 hl
    obtain ⟨h0, h1⟩ := ih hl (s.enterItem k)
    rw [List.foldl_cons]
    by_cases e : k = key
    · subst e
      rw [h0 hk]
      exact ⟨fun h => absurd (List.mem_cons_self ..) h, own s k⟩
    · rw [other s k e] at h0 h1
      exact ⟨fun h => h0 (fun hm => h (List.mem_cons_of_mem _ hm)), h1⟩

theorem nodup_eraseDups (l : List Nat) : l.eraseDups.Nodup := by
  induction h : l.length using Nat.strong_induction_on generalizing l with
  | _ n ih =>
    cases l with
    | nil => exact List.nodup_nil
    | cons a l =>
      rw [List.eraseDups_cons, List.nodup_cons]
      have hlen := List.length_filter_le (fun b => !b == a) l
      refine ⟨fun hm => ?_, ih _ (by simp only [List.length_cons] at h; omega) _ rfl⟩
      rw [List.mem_eraseDups] at hm
      simp at hm

/-- Every correction has moved by 1 ps at most (R501); of the table this is said where no pair is held. -/
structure State.Stepped (s t : State) : Prop where
  applied : ∀ k, ((t.item k).applied - (s.item k).applied).natAbs ≤ 1000
  corr : s.temper.pairs = [] → ∀ i,
    (signed 20 (t.getF TPL_STC_TX.TX_CORR i) - signed 20 (s.getF TPL_STC_TX.TX_CORR i)).natAbs ≤ 1 ∧
    (signed 20 (t.getF TPL_STC_RX.RX_CORR i) - signed 20 (s.getF TPL_STC_RX.RX_CORR i)).natAbs ≤ 1

theorem State.temperEnter_stepped (s : State) : s.Stepped s.temperEnter where
  applied j := (foldl_enterItem_bound (v := fun s => (s.item j).applied)
    (fun s k => (s.enterItem_applied k j).1) (fun s k => (s.enterItem_applied k j).2) _ (nodup_eraseDups _) s).2
  corr _ j := ⟨(foldl_enterItem_bound (v := fun s => signed 20 (s.getF TPL_STC_TX.TX_CORR j))
      (fun s k h => congrArg _ ((s.enterItem_tx k j).1 h)) (fun s k => (s.enterItem_tx k j).2) _ (nodup_eraseDups _) s).2,
    (foldl_enterItem_bound (v := fun s => signed 20 (s.getF TPL_STC_RX.RX_CORR j))
      (fun s k h => congrArg _ ((s.enterItem_rx k j).1 h)) (fun s k => (s.enterItem_rx k j).2) _ (nodup_eraseDups _) s).2⟩

theorem State.temperEnter_pairs (s : State) : s.temperEnter.temper.pairs = s.temper.pairs := by
  have run : ∀ (l : List Nat) (t : State), (l.foldl State.enterItem t).temper.pairs = t.temper.pairs := by
    intro l
    induction l with
    | nil => exact fun _ => rfl
    | cons k l ih => exact fun t => (ih _).trans (t.enterItem_pairs k)
  exact run _ s

theorem State.Unheld.stepped {s t u : State} (h : s.Unheld t) (k : t.Stepped u) : s.Stepped u := by
  refine ⟨fun j => by rw [← h.applied j]; exact k.applied j, fun e i => ?_⟩
  rw [← h.corr TPL_STC_TX.TX_CORR (by decide) i, ← h.corr TPL_STC_RX.RX_CORR (by decide) i]
  exact k.corr (h.pairs e) i

/-- What moves no correction, where `s` holds no pair, after what moves each by 1 ps at most. -/
theorem State.Stepped.unmoved {s t u : State} (h : s.Stepped t) (ha : t.AppliedSame u)
    (hc : s.temper.pairs = [] → t.Same corrFields u) : s.Stepped u := by
  refine ⟨fun j => by rw [ha j]; exact h.applied j, fun e i => ?_⟩
  rw [hc e TPL_STC_TX.TX_CORR (by decide) i, hc e TPL_STC_RX.RX_CORR (by decide) i]
  exact h.corr e i

/-- Temper's part of a servo update (R501). -/
theorem State.temperServo_stepped (s : State) : s.Stepped s.temperServo := by
  unfold State.temperServo
  split
  · exact ⟨fun _ => by simp, fun _ _ => by simp⟩
  · have hr := s.runTemper_unheld
    have he := s.runTemper.temperEnter_stepped
    have hp := s.runTemper.temperEnter_pairs
    have hm := s.runTemper.temperEnter.measurePart_eased
    have hs := State.startPart_unmoved 300 s.runTemper.temperEnter.measurePart
    refine hr.stepped ((he.unmoved hm.applied (fun e => (hm.corr (hp.trans e)).1)).unmoved hs.applied (fun _ => hs.corr))

theorem State.copyCheck_unheld (s : State) (bad : Nat) : s.Unheld (s.copyCheck bad) := by
  refine State.Unheld.foldl _ _ (.refl s) (fun t k => ?_)
  split
  · exact .refl t
  split
  · exact ((State.copyWrong_kept k (fun _ h => h) (.refl _ t)).unheld (by decide) (by decide)).trans
      (State.raiseCycle_unheld _ _)
  split
  · exact t.raiseCycle_unheld _
  · exact State.clearFault_unheld (by omega)

/-- Everything that a servo update does (R296, R501). -/
theorem State.servo_stepped (s : State) (bad : Nat) : s.Stepped (s.servo bad) := by
  unfold State.servo
  extract_lets s1 _ s2 r
  have h1 : s.Unheld s1 := (s.reloadFailed_unheld.trans (State.servoMode_unheld _)).trans (State.servoInc_unheld _)
  have h2 : s1.Unheld s2 := .of_temper (.of_regs (by rfl)) (by rfl)
  have h3 : s2.Unheld r.1 := by
    unfold r
    split
    · exact s2.softStep_unheld
    · exact s2.hardStep_unheld
  have h4 : r.1.Unheld (r.1.phaseServo r.2) :=
    (State.phaseServo_kept r.2 (fun _ h => h) (.refl _ _)).unheld (by decide) (by decide)
  have hc := State.copyCheck_unheld (r.1.phaseServo r.2).temperServo bad
  exact (((h1.trans h2).trans h3).trans h4).stepped
    ((State.temperServo_stepped _).unmoved hc.applied (fun _ => hc.corr))

/-- A measured path moves no correction (R501). -/
theorem State.pathStep_applied (s : State) (k : Nat) (m : Int) :
    ∃ t, exec (.pathStep k m) s = .next t ∧ s.AppliedSame t := by
  refine ⟨_, rfl, ?_⟩
  split
  · exact fun _ => rfl
  · extract_lets _ s1 r d q _ _ s2
    have h1 : s.Unheld s1 := .of_items (.of_regs rfl) rfl rfl
    have hr : s1.Unheld r.1 := s1.measure_unheld _ _ _
    have hd : r.1.Unheld d.2 := .of_temper (.of_regs rfl) rfl
    have hq : d.2.Unheld q.1 := d.2.measure_unheld _ _ _
    clear_value r d q
    have h2 : s1.Unheld s2 := by
      unfold s2
      split
      · exact ((hr.trans hd).trans hq).trans (.of_items (.of_regs rfl) rfl rfl)
      · exact .refl s1
    exact ((h1.trans h2).trans s2.checkRun_unheld).applied

/-- A servo update moves every correction by 1 ps at most (R501). -/
theorem State.servoUpdate_stepped (s : State) (b : Nat) : ∃ t, exec (.servoUpdate b) s = .next t ∧ s.Stepped t := by
  refine ⟨_, rfl, ?_⟩
  split
  · exact ⟨fun _ => by simp, fun _ _ => by simp⟩
  · extract_lets s1
    have h1 : s.Unheld s1 := (State.edges_kept _ (fun _ h => h) (.refl _ s)).unheld (by decide) (by decide)
    refine (h1.trans ?_).stepped (State.servo_stepped _ b)
    exact .of_temper (.of_regs rfl) rfl

end Sys2Proof.Machine

namespace Sys2Proof.Proofs

open Sys2Proof.Machine

/-- Settles O40: before Temper's part and after it nothing moves a correction, and in it each item has one step. -/
theorem correctionsEnterByOnePicosecondAServoUpdate : Obligations.CorrectionsEnterByOnePicosecondAServoUpdate := by
  unfold Obligations.CorrectionsEnterByOnePicosecondAServoUpdate
  refine ⟨fun b s => ?_, fun k m s => s.pathStep_applied k m⟩
  obtain ⟨t, ht, h⟩ := s.servoUpdate_stepped b
  exact ⟨t, ht, h.applied, h.corr⟩

end Sys2Proof.Proofs
end

section
/-!
PROOF. What a commit cycle and the end of a drain do to tables, commits and epochs (R30, R107, R178, R181).
-/

namespace Sys2Proof.Machine

/-! ### Banks that swap (R107) -/

/-- `t` is `s` with the active and the shadow bank of every table of `l` in each other's place. -/
structure State.Swapped (l : List Nat) (s t : State) : Prop where
  active : ∀ k, k < 13 → t.active k = if k ∈ l then s.shadow k else s.active k
  shadow : ∀ k, k < 13 → t.shadow k = if k ∈ l then s.active k else s.shadow k
  flowsAct : t.tables.flowsAct = if 13 ∈ l then s.tables.flowsShd else s.tables.flowsAct
  flowsShd : t.tables.flowsShd = if 13 ∈ l then s.tables.flowsAct else s.tables.flowsShd

theorem State.Swapped.of_tables {l : List Nat} {s t u : State} (h : s.Swapped l t) (e : u.tables = t.tables) :
    s.Swapped l u := by
  refine ⟨fun k hk => ?_, fun k hk => ?_, ?_, ?_⟩
  · simpa only [State.active, e] using h.active k hk
  · simpa only [State.shadow, e] using h.shadow k hk
  · rw [e, h.flowsAct]
  · rw [e, h.flowsShd]

theorem State.swapped_nil (s : State) : s.Swapped [] s :=
  ⟨fun _ _ => by simp, fun _ _ => by simp, by simp, by simp⟩

theorem State.swapTable_swapped (s : State) (t : Nat) : s.Swapped [t] (s.swapTable t) := by
  unfold State.swapTable
  split
  · next h =>
    subst h
    have ne : ∀ k, k < 13 → k ∉ [13] := fun k hk => by simp; omega
    exact ⟨fun k hk => (if_neg (ne k hk)).symm, fun k hk => (if_neg (ne k hk)).symm, by simp, by simp⟩
  · next h =>
    refine ⟨fun k _ => ?_, fun k _ => ?_, ?_, ?_⟩
    · simp only [State.active, Tab.getD_set, List.mem_singleton]
      split <;> simp_all [State.shadow]
    · simp only [State.shadow, Tab.getD_set, List.mem_singleton]
      split <;> simp_all [State.active]
    · simp [Ne.symm h]
    · simp [Ne.symm h]

/-- Swapping two tables, or sets of them, in turn. -/
theorem State.Swapped.cons {a : Nat} {l : List Nat} {s t u : State} (ha : a ∉ l) (h : s.Swapped [a] t)
    (k : t.Swapped l u) : s.Swapped (a :: l) u := by
  have both : ∀ {α : Type} (j : Nat) (x y : α), (if j ∈ l then (if j ∈ [a] then x else y) else
      (if j ∈ [a] then y else x)) = if j ∈ a :: l then y else x := by
    intro α j x y
    by_cases hj : j = a
    · subst hj; simp [ha]
    · simp [hj]
  refine ⟨fun j hj => ?_, fun j hj => ?_, ?_, ?_⟩
  · rw [k.active j hj, h.active j hj, h.shadow j hj, both]
  · rw [k.shadow j hj, h.active j hj, h.shadow j hj, both]
  · rw [k.flowsAct, h.flowsAct, h.flowsShd, both]
  · rw [k.flowsShd, h.flowsAct, h.flowsShd, both]

theorem State.foldl_swapTable_swapped (l : List Nat) (hl : l.Nodup) :
    ∀ s : State, s.Swapped l (l.foldl (fun s t => s.swapTable t) s) := by
  induction l with
  | nil => exact fun s => s.swapped_nil
  | cons a l ih =>
    obtain ⟨ha, hl⟩ := List.nodup_cons.1 hl
    exact fun s => (s.swapTable_swapped a).cons ha (ih hl _)

theorem mem_maskTables (m k : Nat) : k ∈ maskTables m ↔ k < 14 ∧ bit m k = true := by
  simp [maskTables, bitsSet]

theorem nodup_maskTables (m : Nat) : (maskTables m).Nodup := List.nodup_range.filter _

theorem maskTables_zero : maskTables 0 = [] := by decide

/-! ### The commits that are due (R178) -/

/-- `t` is what the commits due by frame count `n`, of the tables in `m`, make of `s`. -/
structure State.Committed (n m : Nat) (s t : State) : Prop where
  swapped : s.Swapped (maskTables m) t
  commits : m ≠ 0 → t.epochs.commits = s.epochs.commits.filter (fun c => decide (n < c.1))
  serial : t.epochs.serial = if m = 0 then s.epochs.serial else s.epochs.serial + 1

theorem State.foldl_swapTable_kept (l : List Nat) (s : State) :
    s.Kept [.tables] (l.foldl (fun s t => s.swapTable t) s) :=
  State.Kept.foldl _ _ (.refl _ s) (fun _ t ht => State.swapTable_kept t (fun _ h => h) ht)

/-- The buckets of flows that become active, or stay so (R267). -/
theorem State.commitBuckets_kept (s : State) (b : Bool) :
    s.Kept [.flowRt] (if b then s.clipBuckets.startBuckets else s) := by
  split
  · exact State.startBuckets_kept (fun _ h => h) (State.clipBuckets_kept (fun _ h => h) (.refl _ s))
  · exact .refl _ s

theorem State.commitTables_committed (s : State) (n : Nat) :
    s.Committed n ((s.epochs.commits.filter (fun c => decide (c.1 ≤ n))).foldl (fun m c => m ||| c.2) 0)
      (s.commitTables n) := by
  unfold State.commitTables
  extract_lets due m _ s1 s2 _ s3 s4
  split
  · next h =>
    change s.Committed n m s
    rw [h]
    exact ⟨maskTables_zero ▸ s.swapped_nil, fun h => absurd rfl h, by simp⟩
  · next h =>
    change s.Committed n m _
    have h2 : s1.Swapped (maskTables m) s2 := State.foldl_swapTable_swapped _ (nodup_maskTables m) s1
    have k2 : s2.epochs = s1.epochs := (State.foldl_swapTable_kept _ s1).only .epochs (by decide)
    have k4 := State.commitBuckets_kept s3 (bit m 13)
    have k5 : s4.Kept reports (s4.event 0 0x0001 m (s4.epochs.serial % 65536) (n % 4294967296)) :=
      State.event_kept _ _ _ _ _ _ (fun _ h => h) (.refl _ s4)
    have e4 : s4.epochs = s3.epochs := k4.only .epochs (by decide)
    refine ⟨?_, fun _ => ?_, ?_⟩
    · obtain ⟨ha, hs, hfa, hfs⟩ := h2.of_tables ((k5.only .tables (by decide)).trans (k4.only .tables (by decide)))
      exact ⟨ha, hs, hfa, hfs⟩
    · rw [k5.only .epochs (by decide), e4]
      exact congrArg Epochs.commits k2
    · rw [k5.only .epochs (by decide), e4, if_neg h]
      have e1 : s2.epochs.serial = s1.epochs.serial := congrArg Epochs.serial k2
      exact congrArg (· + 1) e1

/-! ### The rest of the cycle -/

/-- Commits and the device epoch are as they were. -/
def State.EpochsHeld (s t : State) : Prop :=
  t.epochs.commits = s.epochs.commits ∧ t.epochs.serial = s.epochs.serial

theorem State.EpochsHeld.refl (s : State) : s.EpochsHeld s := ⟨rfl, rfl⟩

theorem State.EpochsHeld.trans {s t u : State} (h : s.EpochsHeld t) (k : t.EpochsHeld u) : s.EpochsHeld u :=
  ⟨k.1.trans h.1, k.2.trans h.2⟩

theorem State.EpochsHeld.of_epochs {s t : State} (h : t.epochs = s.epochs) : s.EpochsHeld t := by
  rw [State.EpochsHeld, h]
  exact ⟨rfl, rfl⟩

theorem State.Kept.epochsHeld {ps : List Part} {s t : State} (h : s.Kept ps t) (hp : Part.epochs ∉ ps) :
    s.EpochsHeld t := .of_epochs (h.only .epochs hp)

theorem State.Raised.epochsHeld {s t : State} (h : s.Raised t) : s.EpochsHeld t := by
  rw [State.EpochsHeld, h.epochs]
  exact ⟨rfl, rfl⟩

theorem State.pairNote_epochsHeld (s : State) : s.EpochsHeld s.pairNote :=
  (State.pairNote_kept (fun _ h => h) (.refl _ s)).epochsHeld (by decide)

theorem State.setProven_epochsHeld (s : State) (b : Bool) : s.EpochsHeld (s.setProven b) :=
  (State.setProven_kept b (fun _ h => h) (.refl _ s)).epochsHeld (by decide)

theorem State.proofTick_epochsHeld (s : State) (fails : Bool) : s.EpochsHeld (s.proofTick fails) := by
  unfold State.proofTick
  extract_lets n p s1 was s2
  have h1 : s.EpochsHeld s1 := .refl s
  have h2 : s1.EpochsHeld s2 := by
    refine State.EpochsHeld.trans ?_ (State.raiseOnce_raised 0x1CA 0 0 0 (.refl _)).epochsHeld
    refine State.EpochsHeld.trans ?_ (State.setProven_epochsHeld _ false)
    split <;> exact .of_epochs rfl
  clear_value s1 s2
  split
  · split
    · exact (h1.trans h2).trans s2.pairNote_epochsHeld
    · exact h1.trans h2
  split
  · exact (h1.trans (s1.setProven_epochsHeld true)).trans (State.pairNote_epochsHeld _)
  · exact h1

theorem State.proveTick_epochsHeld (s : State) : s.EpochsHeld s.proveTick := by
  unfold State.proveTick
  split
  · next x y _ _ =>
    unfold State.prove
    extract_lets _ s0 count epoch cut d s1
    have h1 : s0.EpochsHeld s1 := by
      unfold s1
      split
      · refine State.EpochsHeld.trans ?_ (State.raiseOnce_raised 0x1CB (d.1 % 4294967296) 0 0 (.refl _)).epochsHeld
        exact .of_epochs rfl
      · exact .refl s0
    have h0 : s.EpochsHeld s0 := .refl s
    clear_value s1
    split
    · exact h0.trans h1
    · exact (h0.trans h1).trans (s1.proofTick_epochsHeld _)
  · exact .refl s

theorem State.setEpoch_commits (s : State) (e : Nat) : (s.setEpoch e).epochs.commits = s.epochs.commits := by
  unfold State.setEpoch
  extract_lets d
  split <;> rfl

/-- A device that joins takes over an epoch, but no commits. -/
theorem State.joinTick_commits (s : State) : s.joinTick.epochs.commits = s.epochs.commits := by
  unfold State.joinTick
  split
  · rfl
  · next x _ =>
    split
    · exact (State.EpochsHeld.trans (t := { s with pair := { s.pair with snap := none } }) (.refl s)
        ((State.refuseJoin_kept (fun _ h => h) (.refl _ _)).epochsHeld (by decide))).1
    split
    · rfl
    · extract_lets s1 s2 s3
      have h1 : s.EpochsHeld s1 := by
        refine (State.Kept.foldl (l := [.gens]) _ _ (.refl _ s) (fun t g ht => ?_)).epochsHeld (by decide)
        split
        · exact State.upGen_kept _ _ (fun _ h => h) ht
        · exact ht
      have h2 : s2.epochs.commits = s1.epochs.commits := s1.setEpoch_commits x.epoch
      have h3 : s2.EpochsHeld s3 := s2.setProven_epochsHeld false
      exact (State.pairNote_epochsHeld _).1.trans (h3.1.trans (h2.trans h1.1))

theorem State.switchTick_latchSnapshot_epochsHeld (s : State) (n : Nat) : s.EpochsHeld (s.switchTick n).latchSnapshot :=
  ((State.switchTick_kept n (fun _ h => h) (.refl _ s)).epochsHeld (by decide)).trans
    ((State.latchSnapshot_kept (fun _ h => h) (.refl _ _)).epochsHeld (by decide))

theorem State.pairTick_commits (s : State) (n : Nat) : (s.pairTick n).epochs.commits = s.epochs.commits := by
  unfold State.pairTick
  extract_lets s1
  refine (s1.switchTick_latchSnapshot_epochsHeld n).1.trans ?_
  unfold s1
  split
  · exact s.proveTick_epochsHeld.1
  split
  · exact s.joinTick_commits
  · rfl

theorem State.pairTick_serial (s : State) (n : Nat) (h : s.pairState ≠ pairJoining) :
    (s.pairTick n).epochs.serial = s.epochs.serial := by
  unfold State.pairTick
  extract_lets s1
  refine (s1.switchTick_latchSnapshot_epochsHeld n).2.trans ?_
  unfold s1
  split
  · exact s.proveTick_epochsHeld.2
  · rfl

/-! ### The pair's state until its part of the cycle -/

/-- The pair's state is as it was. -/
def State.PairHeld (s t : State) : Prop := s.Same [GLB_PAIR_STAT.STATE.id] t

theorem State.PairHeld.eq {s t : State} (h : s.PairHeld t) : t.pairState = s.pairState :=
  h GLB_PAIR_STAT.STATE (by decide) 0

theorem State.Quiet.pairHeld {s t : State} (h : s.Quiet t) : s.PairHeld t := h.same_fields (by decide)

theorem State.Kept.pairHeld {ps : List Part} {s t : State} (h : s.Kept ps t) (hp : Part.regs ∉ ps) : s.PairHeld t :=
  h.same_fields hp

theorem State.latchDump_pairHeld (s : State) (fc : Nat) : s.PairHeld (s.latchDump fc) := by
  unfold State.latchDump
  split
  · exact .refl _ s
  split
  · exact (State.event_quiet _ _ _ _ _ _ _).pairHeld
  · exact .of_regs rfl

theorem State.commitTables_pairHeld (s : State) (n : Nat) : s.PairHeld (s.commitTables n) := by
  unfold State.commitTables
  extract_lets due m _ s1 s2 _ s3 s4
  split
  · exact .refl _ s
  · have h2 : s1.PairHeld s2 := (State.foldl_swapTable_kept _ s1).pairHeld (by decide)
    have h3 : s.PairHeld s3 := (State.Same.of_regs (s := s) (t := s1) rfl).trans (h2.trans (.of_regs rfl))
    have h4 : s3.PairHeld s4 := (State.commitBuckets_kept s3 (bit m 13)).pairHeld (by decide)
    exact (h3.trans h4).trans (State.event_quiet _ _ _ _ _ _ _).pairHeld

theorem State.cutDone_pairHeld (s : State) (g k : Nat) : s.PairHeld (s.cutDone g k) :=
  (State.event_quiet _ _ _ _ _ _ _).pairHeld

theorem State.cutFail_pairHeld (s : State) (g code : Nat) : s.PairHeld (s.cutFail g code) :=
  (s.setF_same _ _ _ (by decide)).trans (State.event_quiet _ _ _ _ _ _ _).pairHeld

theorem State.upCut_pairHeld (s : State) (g : Nat) (f : Cut → Cut) : s.PairHeld (s.upCut g f) := .of_regs rfl

theorem State.upCut_cutDone_pairHeld (s : State) (g : Nat) (f : Cut → Cut) (k : Nat) :
    s.PairHeld ((s.upCut g f).cutDone g k) := (s.upCut_pairHeld g f).trans (State.cutDone_pairHeld _ g k)

theorem State.cutArm_pairHeld (s : State) (g n : Nat) (t : Int) : s.PairHeld (s.cutArm g n t) := by
  unfold State.cutArm
  extract_lets x w s1 s2
  have h1 : s.PairHeld s1 := s.upCut_pairHeld _ _
  have h2 : s1.PairHeld s2 := by
    unfold s2
    split
    · exact s1.cutFail_pairHeld g 3
    · exact .refl _ s1
  clear_value s1 s2
  split
  · split <;> exact h1.trans (s1.upCut_cutDone_pairHeld _ _ _)
  · refine h1.trans (h2.trans ?_)
    split
    · split
      · exact s2.upCut_cutDone_pairHeld _ _ _
      · exact s2.upCut_pairHeld _ _
    split
    · exact s2.upCut_cutDone_pairHeld _ _ _
    · exact s2.upCut_pairHeld _ _

theorem State.armCuts_pairHeld (s : State) (n : Nat) : s.PairHeld (s.armCuts n) := by
  refine State.Same.foldl _ _ (.refl _ s) (fun t g ht => ?_)
  split
  · split
    · exact ht
    · exact (ht.trans (t.upCut_pairHeld _ _)).trans (State.cutArm_pairHeld _ _ _ _)
  · exact ht

/-! ### The cycle -/

/-- What a commit cycle at frame count `n` makes of tables, commits and the epoch: what the commits due make of them. -/
theorem State.commitCycle_committed (s : State) (n m : Nat)
    (hm : m = (s.epochs.commits.filter (fun c => decide (c.1 ≤ n))).foldl (fun m c => m ||| c.2) 0) :
    s.Swapped (maskTables m) (s.commitCycle n) ∧
    (m ≠ 0 → (s.commitCycle n).epochs.commits = s.epochs.commits.filter (fun c => decide (n < c.1))) ∧
    (s.pairState ≠ pairJoining →
      (s.commitCycle n).epochs.serial = if m = 0 then s.epochs.serial else s.epochs.serial + 1) := by
  unfold State.commitCycle
  extract_lets s1 s2 s3 s4
  have k2 : s.Kept reports s2 :=
    State.latchDump_kept _ (fun _ h => h) (State.trace_kept _ _ _ (by decide) (.refl _ s))
  have k4 : s3.Kept (reports ++ [.merges, .cuts]) s4 :=
    State.armCuts_kept n (by decide) (State.applyCuts_kept n (by decide) (State.applyMerges_kept n (by decide) (.refl _ s3)))
  have k5 := State.pairTick_kept n (fun _ h => h) (.refl _ s4)
  have p4 : s.PairHeld s4 :=
    (((State.trace_quiet _ _ _ _).pairHeld.trans (s1.latchDump_pairHeld _)).trans (s2.commitTables_pairHeld n)).trans
      ((((State.applyMerges_kept n (fun _ h => h) (.refl _ s3)).pairHeld (by decide)).trans
        ((State.applyCuts_kept n (fun _ h => h) (.refl _ _)).pairHeld (by decide))).trans (State.armCuts_pairHeld _ n))
  have e2 : s2.epochs = s.epochs := k2.only .epochs (by decide)
  have e4 : s4.epochs = s3.epochs := k4.only .epochs (by decide)
  have c3 : s2.Committed n m s3 := by
    rw [hm, ← e2]
    exact s2.commitTables_committed n
  have t2 : s2.tables = s.tables := k2.only .tables (by decide)
  have t5 : (s4.pairTick n).tables = s3.tables := (k5.only .tables (by decide)).trans (k4.only .tables (by decide))
  refine ⟨?_, fun h => ?_, fun h => ?_⟩
  · obtain ⟨ha, hs, hfa, hfs⟩ := c3.swapped.of_tables t5
    simp only [State.active, State.shadow, t2] at ha hs hfa hfs
    exact ⟨ha, hs, hfa, hfs⟩
  · rw [s4.pairTick_commits n, e4, c3.commits h, e2]
  · rw [s4.pairTick_serial n (by rwa [p4.eq]), e4, c3.serial, e2]

theorem State.commitCycle_ran (s : State) (m : Nat) (hd : s.window.commitDone = false) (hc : s.cclk = true)
    (hm : m = (s.epochs.commits.filter (fun c => decide (c.1 ≤ s.frameCount))).foldl (fun m c => m ||| c.2) 0) :
    ∃ t, exec .commitCycle s = .next t ∧ t.window.commitDone = true ∧ s.Swapped (maskTables m) t ∧
    (m ≠ 0 → t.epochs.commits = s.epochs.commits.filter (fun c => decide (s.frameCount < c.1))) ∧
    (s.pairState ≠ pairJoining → t.epochs.serial = if m = 0 then s.epochs.serial else s.epochs.serial + 1) := by
  refine ⟨({ s with window := { s.window with commitDone := true } } : State).commitCycle s.frameCount, ?_, ?_, ?_⟩
  · exact congrArg Host.Outcome.next (if_neg (by simp [hd, hc]))
  · exact congrArg Window.commitDone ((State.commitCycle_kept s.frameCount (fun _ h => h) (.refl _ _)).only .window (by decide))
  · obtain ⟨hs, hrest⟩ := State.commitCycle_committed
      ({ s with window := { s.window with commitDone := true } } : State) s.frameCount m hm
    obtain ⟨ha, hsh, hfa, hfs⟩ := hs
    exact ⟨⟨ha, hsh, hfa, hfs⟩, hrest⟩

/-! ### Epochs that have drained (R181) -/

/-- The banks of retired epoch `e` and of those before it are free. -/
def State.freeBanks (s : State) (e : Nat) : State :=
  { s with
    epochs := { s.epochs with retiredBy := Tab.erase s.epochs.retiredBy e, oldest := e + 1 },
    tables := { s.tables with
      repRetired := s.tables.repRetired.filter (fun r => decide (e < r.1)),
      flowsRetired := s.tables.flowsRetired.filter (fun r => decide (e < r.1)) } }

theorem State.drainEpoch_kept_freeBanks (s : State) {e m : Nat} (h : s.drainedEpoch = some (e, m)) :
    (s.freeBanks e).Kept reports s.drainEpoch := by
  rw [State.drainEpoch, h]
  exact State.event_kept _ _ _ _ _ _ (fun _ h => h) (.refl _ (s.freeBanks e))

/-- A drain's report frees the banks of the epoch and of those before it, and no bank in force. -/
theorem State.drainEpoch_freed (s : State) (e m : Nat) (h : s.drainedEpoch = some (e, m)) :
    s.drainEpoch.epochs.oldest = e + 1 ∧ Tab.get? s.drainEpoch.epochs.retiredBy e = none ∧
    (∀ r ∈ s.drainEpoch.tables.flowsRetired, e < r.1) ∧ (∀ r ∈ s.drainEpoch.tables.repRetired, e < r.1) ∧
    s.drainEpoch.tables.act = s.tables.act ∧ s.drainEpoch.tables.shd = s.tables.shd := by
  have k := s.drainEpoch_kept_freeBanks h
  have ke : s.drainEpoch.epochs = (s.freeBanks e).epochs := k.only .epochs (by decide)
  have kt : s.drainEpoch.tables = (s.freeBanks e).tables := k.only .tables (by decide)
  rw [ke, kt]
  refine ⟨rfl, ?_, fun r hr => ?_, fun r hr => ?_, rfl, rfl⟩
  · simp [State.freeBanks, Tab.get?_erase]
  · exact of_decide_eq_true (List.mem_filter.1 hr).2
  · exact of_decide_eq_true (List.mem_filter.1 hr).2

end Sys2Proof.Machine

namespace Sys2Proof.Proofs

open Sys2Proof.Machine

/-- Settles O51: each table that is due swaps once, and after that the cycle keeps tables, commits and the epoch. -/
theorem commitCycleSwapsTheTablesThatAreDue : Obligations.CommitCycleSwapsTheTablesThatAreDue := by
  unfold Obligations.CommitCycleSwapsTheTablesThatAreDue
  refine ⟨fun s h => congrArg Host.Outcome.next (if_pos ?_), fun m s hd hc hm => ?_, fun s => ⟨fun h => ?_, fun e m h => ?_⟩⟩
  · rcases h with h | h <;> simp [h]
  · obtain ⟨t, ht, hw, hs, hrest⟩ := s.commitCycle_ran m hd hc hm
    have mem : ∀ k, k < 14 → ((k ∈ maskTables m) = (bit m k = true)) := fun k hk => by simp [mem_maskTables, hk]
    refine ⟨t, ht, hw, fun k hk => ?_, ?_, ?_, hrest⟩
    · simpa only [mem k (by omega)] using And.intro (hs.active k hk) (hs.shadow k hk)
    · simpa only [mem 13 (by decide)] using hs.flowsAct
    · simpa only [mem 13 (by decide)] using hs.flowsShd
  · refine congrArg Host.Outcome.next ?_
    rw [State.drainEpoch, h]
  · exact ⟨_, rfl, s.drainEpoch_freed e m h⟩

end Sys2Proof.Proofs
end

section
/-!
PROOF. Ticks: the instants of a grid, what an emitted tick leaves, the budget and the done mark (R29, R33, R35, R391–R398).
-/

namespace Sys2Proof.Machine

/-! ### Instants (R391, R395) -/

theorem le_ceilQ_mul {a b : Int} (hb : 0 < b) : a ≤ ceilQ a b * b := by
  have h := Int.ediv_mul_le (-a) (Int.ne_of_gt hb)
  unfold ceilQ
  rw [Int.neg_mul]
  omega

theorem ceilQ_mono {a b c : Int} (hb : 0 < b) (h : a ≤ c) : ceilQ a b ≤ ceilQ c b :=
  Int.neg_le_neg (Int.ediv_le_ediv hb (Int.neg_le_neg h))

theorem ceilQ_mul {a b : Int} (hb : 0 < b) : ceilQ (a * b) b = a := by
  rw [ceilQ, ← Int.neg_mul, Int.mul_ediv_cancel _ (Int.ne_of_gt hb), Int.neg_neg]

theorem Grid.n_pos (g : Grid) : 0 < g.n := by
  unfold Grid.n
  omega

theorem Grid.step_pos (g : Grid) : 0 < g.step := by
  unfold Grid.step nsU
  omega

theorem Grid.instant_mono (g : Grid) {j k : Int} (h : j ≤ k) : g.instant j ≤ g.instant k :=
  Int.add_le_add_left (ceilQ_mono g.n_pos (Int.mul_le_mul_of_nonneg_right h (Int.le_of_lt g.step_pos))) _

theorem Grid.le_instant_from (g : Grid) (t : Int) : t ≤ g.instant (g.from_ t) := by
  have h : (t - g.off * nsU) * g.n ≤ g.from_ t * g.step := le_ceilQ_mul g.step_pos
  have k : ceilQ ((t - g.off * nsU) * g.n) g.n ≤ ceilQ (g.from_ t * g.step) g.n := ceilQ_mono g.n_pos h
  rw [ceilQ_mul g.n_pos] at k
  unfold Grid.instant
  omega

/-- The next tick keeps S_min from the last (R395). -/
theorem State.nextTick_distance (s : State) (g : Nat) {l : Int} (h : (s.gen g).last = some l) :
    l + s.sMin g (s.grid g) ≤ s.nextTick g := by
  refine Int.le_trans ((s.grid g).le_instant_from _) ((s.grid g).instant_mono ?_)
  simp only [State.nextIndex, h]
  exact Int.le_max_right _ _

theorem State.gen_k_le_nextIndex (s : State) (g : Nat) : (s.gen g).k ≤ s.nextIndex g := by
  simp only [State.nextIndex]
  split
  · exact Int.le_max_left _ _
  · exact Int.le_refl _

/-! ### Edges that pass (R29) -/

theorem State.advanceTo_kept_time (s : State) (t : Int) (k : Nat) : s.Kept [.time] (s.advanceTo t k) :=
  State.advanceTo_kept (fun _ h => h) k t (.refl _ s)

theorem State.advanceTo_reached (s : State) {t : Int} (h : t ≤ s.now) (k : Nat) : s.advanceTo t k = s := by
  cases k with
  | zero => rfl
  | succ k => rw [State.advanceTo, if_pos (by simp [h])]

theorem State.nextIndex_congr {s t : State} (hg : t.gens = s.gens) (hp : t.pinCfg = s.pinCfg) (g : Nat) :
    t.nextIndex g = s.nextIndex g := by
  have hk : t.gen g = s.gen g := by simp only [State.gen, hg]
  have hx : t.grid g = s.grid g := by simp only [State.grid, hk]
  have hq : ∀ n, t.pin n = s.pin n := fun n => by simp only [State.pin, hp]
  have hm : ∀ x, t.sMin g x = s.sMin g x := fun x => by simp only [State.sMin, hq]
  simp only [State.nextIndex, hk, hx, hm]

theorem State.nextTick_congr {s t : State} (hg : t.gens = s.gens) (hp : t.pinCfg = s.pinCfg) (g : Nat) :
    t.nextTick g = s.nextTick g := by
  simp only [State.nextTick, State.nextIndex_congr hg hp, State.grid, State.gen, hg]

/-- What the edges before a tick leave of its generators, its windows and its reports. -/
structure State.Waited (s u : State) : Prop where
  regs : u.regs = s.regs
  gens : u.gens = s.gens
  window : u.window = s.window
  quench : u.quench = s.quench
  fences : u.fences = s.fences
  tick : ∀ g, u.nextTick g = s.nextTick g
  index : ∀ g, u.nextIndex g = s.nextIndex g

theorem State.advanceTo_waited (s : State) (t : Int) (k : Nat) : s.Waited (s.advanceTo t k) := by
  have h := s.advanceTo_kept_time t k
  have hg : (s.advanceTo t k).gens = s.gens := h.only .gens (by decide)
  have hp : (s.advanceTo t k).pinCfg = s.pinCfg := h.only .pinCfg (by decide)
  exact ⟨h.only .regs (by decide), hg, h.only .window (by decide), h.only .quench (by decide),
    h.only .fences (by decide), State.nextTick_congr hg hp, State.nextIndex_congr hg hp⟩

theorem State.Waited.judged {s u : State} (h : s.Waited u) : u.judged = s.judged := by
  simp only [State.judged, State.isF, State.getF, h.window, h.regs]

theorem State.Waited.budgetEndAt {s u : State} (h : s.Waited u) : u.budgetEndAt = s.budgetEndAt := by
  simp only [State.budgetEndAt, h.window, h.tick]

/-! ### The window that closes (R35, R397, R398) -/

/-- The fields that an emitted tick leaves alone once the window that closes has been judged. -/
def tickFields : List Nat := [TPL_TB_STAT.SERVING.id, MER_BUDGET_STAT.MISS_RUN.id]

/-- The serving time is a matter of SERVING and of both timebases. -/
theorem State.now_congr {s t : State} (hs : s.Same [TPL_TB_STAT.SERVING.id] t) (ha : t.time.a = s.time.a)
    (hb : t.time.b = s.time.b) : t.now = s.now := by
  have h := hs TPL_TB_STAT.SERVING (by decide) 0
  have h' : t.isF TPL_TB_STAT.SERVING = s.isF TPL_TB_STAT.SERVING := congrArg (· != 0) h
  simp only [State.now, h', ha, hb]

theorem State.Raised.now {s t : State} (h : s.Raised t) : t.now = s.now := by
  have ht := h.time.1
  exact State.now_congr (h.same_fields (by decide)) (by rw [ht]) (by rw [ht])

/-- An addition to a field of Meridian's budget, which the serving time does not read. -/
theorem State.addF_now (s : State) (f : Fld) (n i : Nat) (hf : f.id ≠ TPL_TB_STAT.SERVING.id) :
    (s.addF f n i).now = s.now :=
  State.now_congr (s.setF_same _ _ _ (by simpa using hf)) rfl rfl

theorem State.endBudget_now (s : State) : s.endBudget.now = s.now := by
  unfold State.endBudget
  split
  · rfl
  · extract_lets j _ s1 s2
    have h1 : s1.now = s.now := rfl
    split
    · have h2 : s2.now = s1.now := State.now_congr
        ((s1.setF_same MER_BUDGET_STAT.OVERRUN 1 0 (by decide)).setF MER_BUDGET_STAT.OVERRUN_CNT _ 0 (by decide)) rfl rfl
      refine (State.Raised.now (s := s2) ?_).trans (h2.trans h1)
      exact State.raiseOnce_raised 0x110 0 0 0 (State.event_raised _ _ _ _ _ _ (.refl s2))
    · exact h1

theorem State.judgeMissed_now (s : State) : s.judgeMissed.now = s.now := by
  unfold State.judgeMissed
  split
  · extract_lets s1
    have h1 : s1.now = s.now := s.addF_now _ _ _ (by decide)
    split
    · exact (State.abortTraining_raised (State.raise_raised 0x141 0 0 0 (.refl s1))).now.trans h1
    · exact h1
  · rfl

/-- A budget that is done ends no more. -/
theorem State.endBudget_of_done (s : State) (h : s.window.budgetDone = true) : s.endBudget = s := by
  rw [State.endBudget, if_pos (by simp [h])]

theorem State.judgeMissed_of_not_judged (s : State) (h : s.judged = false) : s.judgeMissed = s := by
  rw [State.judgeMissed, if_neg (by simp [h])]

/-- A missed window that is not the third in a row is counted (R35). -/
theorem State.judgeMissed_counts (s : State) (h : s.judged = true) (hm : s.getF MER_BUDGET_STAT.MISS_RUN < 2) :
    s.judgeMissed.getF MER_BUDGET_STAT.MISS_RUN = s.getF MER_BUDGET_STAT.MISS_RUN + 1 := by
  have hw : 2 ^ MER_BUDGET_STAT.MISS_RUN.width = 4 := rfl
  have h1 : (s.addF MER_BUDGET_STAT.MISS_RUN 1).getF MER_BUDGET_STAT.MISS_RUN = s.getF MER_BUDGET_STAT.MISS_RUN + 1 := by
    rw [State.addF, State.getF_setF_same, sat_eq_min, hw]
    omega
  rw [State.judgeMissed, if_pos (by simp [h]; omega)]
  simp only [h1]
  rw [if_neg (by omega), h1]

/-- The third missed window in a row is a fault (R398). -/
theorem State.judgeMissed_latches (s : State) (h : s.judged = true) (hr : s.getF MER_BUDGET_STAT.MISS_RUN = 2)
    (hm : s.masked 0x141 = false) (hp : (s.faultSt 0x141).present = false) :
    (s.judgeMissed.faultSt 0x141).latched = true := by
  have h1 : (s.addF MER_BUDGET_STAT.MISS_RUN 1).getF MER_BUDGET_STAT.MISS_RUN = 3 := by
    rw [State.addF, State.getF_setF_same, hr]
    decide
  rw [State.judgeMissed, if_pos (by simp [h, hr])]
  simp only [h1, if_pos]
  have hl : (((s.addF MER_BUDGET_STAT.MISS_RUN 1).raise 0x141).faultSt 0x141).latched = true :=
    State.raiseCycle_latched (s.addF MER_BUDGET_STAT.MISS_RUN 1) _ (by decide) hm (.inl hp)
  exact ((State.abortTraining_raised (.refl _)).latched _ hl).1

/-! ### The tick itself (R394–R396) -/

/-- An emitted tick of generator `g`, with index `k` and instant `t`, after the window that closes has been judged. -/
def State.tickOut (s : State) (g : Nat) (k t : Int) : State :=
  let s := s.addF MER_GEN_STAT.SKIP_CNT (k - (s.gen g).k).toNat g
  let s := s.upGen g (fun y => { y with
    fc := if y.started then (y.fc + 1) % 281474976710656 else 0, started := true, k := k + 1, last := some t })
  let s := s.setF MER_GEN_STAT.SUPPRESSING 0 g
  let since := (List.range 16).map (fun i => s.pair.ticksSince.getD i 0 + flag (i == g))
  let s := if s.pair.snap.isSome then { s with pair := { s.pair with ticksSince := since } } else s
  let s := s.takePins g
  (List.range 8).foldl (fun s n => s.drivePin g n t) s

/-- What generator `g` becomes with a tick. -/
def Gen.ticked (y : Gen) (k t : Int) : Gen :=
  { y with fc := if y.started then (y.fc + 1) % 281474976710656 else 0, started := true, k := k + 1, last := some t }

/-- Generators, window, serving time and Quench are as they were, and so are the fields of `tickFields`. -/
structure State.TickHeld (s t : State) : Prop where
  fields : s.Same tickFields t
  gens : t.gens = s.gens
  window : t.window = s.window
  time : t.time = s.time
  quench : t.quench = s.quench

theorem State.TickHeld.refl (s : State) : s.TickHeld s := ⟨.refl _ s, rfl, rfl, rfl, rfl⟩

theorem State.TickHeld.trans {s t u : State} (h : s.TickHeld t) (k : t.TickHeld u) : s.TickHeld u :=
  ⟨h.fields.trans k.fields, k.gens.trans h.gens, k.window.trans h.window, k.time.trans h.time,
    k.quench.trans h.quench⟩

theorem State.TickHeld.foldl {α : Type} {s0 s : State} (f : State → α → State) (xs : List α) (h : s0.TickHeld s)
    (hf : ∀ (t : State) (a : α), t.TickHeld (f t a)) : s0.TickHeld (xs.foldl f s) := by
  induction xs generalizing s with
  | nil => exact h
  | cons a xs ih => exact ih (h.trans (hf s a))

theorem State.setF_tickHeld (s : State) (f : Fld) (v i : Nat) (hf : f.id ∉ tickFields) : s.TickHeld (s.setF f v i) :=
  ⟨s.setF_same f v i hf, rfl, rfl, rfl, rfl⟩

theorem State.takePins_tickHeld (s : State) (g : Nat) : s.TickHeld (s.takePins g) := by
  refine State.TickHeld.foldl _ _ (.refl s) (fun t n => ?_)
  dsimp only
  split
  · split
    · exact ⟨.of_regs rfl, rfl, rfl, rfl, rfl⟩
    · exact (t.setF_tickHeld MER_PIN_STAT.MSG_SUPPRESSED 0 n (by decide)).trans ⟨.of_regs rfl, rfl, rfl, rfl, rfl⟩
  · exact .refl t

theorem State.emit_tickHeld (s : State) (o : Out) : s.TickHeld (s.emit o) := ⟨.of_regs rfl, rfl, rfl, rfl, rfl⟩

theorem State.drivePin_tickHeld (s : State) (g n : Nat) (t : Int) : s.TickHeld (s.drivePin g n t) := by
  unfold State.drivePin
  extract_lets c fits s1 released m s2
  have h1 : s.TickHeld s1 := s.setF_tickHeld _ _ _ (by decide)
  have h2 : s1.TickHeld s2 := s1.emit_tickHeld _
  clear_value s1 s2
  split
  · exact .refl s
  split
  · exact h1
  split
  · split
    · exact h1.trans (s1.emit_tickHeld _)
    · exact h1
  · split
    · exact (h1.trans h2).trans ⟨.of_regs rfl, rfl, rfl, rfl, rfl⟩
    · exact h1.trans h2

theorem State.upGen_same (s : State) (l : List Nat) (g : Nat) (f : Gen → Gen) : s.Same l (s.upGen g f) := .of_regs rfl

/-- Before its rate changes a tick has moved its generator on, and nothing else of what `TickHeld` names. -/
theorem State.tickOut_tickHeld (s : State) (g : Nat) (k t : Int) :
    (s.upGen g (fun y => y.ticked k t)).TickHeld (s.tickOut g k t) := by
  unfold State.tickOut
  extract_lets s1 s2 s3 since _ s4 s5
  have h1 : s.TickHeld s1 := s.setF_tickHeld _ _ _ (by decide)
  have h2 : (s.upGen g (fun y => y.ticked k t)).TickHeld s2 :=
    ⟨h1.fields, rfl, h1.window, h1.time, h1.quench⟩
  have h4 : s3.TickHeld s4 := by
    unfold s4
    split
    · exact ⟨.of_regs rfl, rfl, rfl, rfl, rfl⟩
    · exact .refl s3
  have h5 : s2.TickHeld s5 := ((s2.setF_tickHeld _ _ _ (by decide)).trans h4).trans (s4.takePins_tickHeld g)
  exact h2.trans (State.TickHeld.foldl _ _ h5 (fun u n => u.drivePin_tickHeld g n t))

/-! ### A staged rate (R396) -/

/-- The rate in force of a generator whose staged rate has taken effect. -/
def Gen.rated (y : Gen) : Nat × Nat × Int := y.pend.getD (y.num, y.den, y.off)

/-- What a staged rate leaves of its generator: whether it has started, its count and its last tick; the rate staged is
in force, and none is staged. -/
theorem State.changeRate_own (s : State) (g : Nat) :
    ((s.changeRate g).gen g).started = (s.gen g).started ∧ ((s.changeRate g).gen g).fc = (s.gen g).fc ∧
    ((s.changeRate g).gen g).last = (s.gen g).last ∧ ((s.changeRate g).gen g).pend = none ∧
    (((s.changeRate g).gen g).num, ((s.changeRate g).gen g).den, ((s.changeRate g).gen g).off) = (s.gen g).rated := by
  unfold State.changeRate
  split
  · next h => exact ⟨rfl, rfl, rfl, h, by simp [Gen.rated, h]⟩
  · next n d o h =>
    extract_lets x s1 s2 s3
    have h1 : s1.gen g = { s.gen g with num := n, den := d, off := o, pend := none } := State.gen_upGen_same _ _ _
    have h2 : s2.gen g = { s1.gen g with k := x.from_ (s1.now + max (s1.sMin g x) x.half) } := State.gen_upGen_same _ _ _
    have h3 : s3.gen g = s2.gen g := rfl
    have h4 : (if g = 0 then s3.clipBuckets else s3).gen g = s3.gen g := by
      split
      · have e : s3.clipBuckets.gens = s3.gens := (State.clipBuckets_kept (fun _ h => h) (.refl _ s3)).only .gens (by decide)
        simp only [State.gen, e]
      · rfl
    rw [h4, h3, h2, h1]
    exact ⟨rfl, rfl, rfl, rfl, by simp [Gen.rated, h]⟩

theorem State.clipBuckets_tickHeld (s : State) : s.TickHeld s.clipBuckets := by
  have h := State.clipBuckets_kept (fun _ h => h) (.refl _ s)
  exact ⟨h.same_fields (by decide), h.only .gens (by decide), h.only .window (by decide), h.only .time (by decide),
    h.only .quench (by decide)⟩

/-- Nothing but the generator's own state, a staged rate's field and the buckets follow its change. -/
theorem State.changeRate_held (s : State) (g : Nat) :
    s.Same tickFields (s.changeRate g) ∧ ∀ k, k ≠ g → (s.changeRate g).gen k = s.gen k := by
  unfold State.changeRate
  split
  · exact ⟨.refl _ s, fun _ _ => rfl⟩
  · next n d o _ =>
    extract_lets x s1 s2 s3
    have h3 : s2.TickHeld s3 := s2.setF_tickHeld _ _ _ (by decide)
    have h4 : s2.TickHeld (if g = 0 then s3.clipBuckets else s3) := by
      split
      · exact h3.trans s3.clipBuckets_tickHeld
      · exact h3
    refine ⟨(State.Same.of_regs (t := s2) rfl).trans h4.fields, fun k hk => ?_⟩
    have e : (if g = 0 then s3.clipBuckets else s3).gen k = s2.gen k := by simp only [State.gen, h4.gens]
    rw [e]
    exact (State.gen_upGen_other _ _ hk).trans (State.gen_upGen_other _ _ hk)

/-! ### The window that opens (R33, R397) -/

theorem State.closePairWindow_same (s : State) : s.Same tickFields s.closePairWindow := by
  unfold State.closePairWindow
  split
  · exact .refl _ s
  · exact (s.setF_same GLB_PAIR_OFFSET.OFFSET (unsign 32 (roundDiv s.pair.sum (4 * s.pair.samples))) 0 (by decide)).trans
      (.of_regs rfl)

theorem State.windowRecords_same (s : State) : s.Same tickFields s.windowRecords := by
  unfold State.windowRecords
  extract_lets _ s1
  have h1 : s.Same tickFields s1 := by
    unfold s1
    split
    · exact ((((State.Same.of_regs (s := s) rfl).setF _ _ _ (by decide)).setF _ _ _ (by decide)).setF _ _ _ (by decide)).setF
        _ _ _ (by decide)
    · exact .refl _ s
  refine State.Same.foldl _ _ h1 (fun t p ht => ?_)
  split
  · exact ht.trans (.of_regs rfl)
  · exact ht

/-- A window that opens (R33): not done, its budget running, its commit cycle due. -/
theorem State.openWindow_opens (s : State) :
    s.openWindow.window.opened = true ∧ s.openWindow.window.done = false ∧ s.openWindow.window.budgetDone = false ∧
    s.openWindow.window.commitDone = false ∧ s.openWindow.window.start = s.now := by
  unfold State.openWindow
  extract_lets excused pct w _ s1
  have h : s1.closePairWindow.windowRecords.window = w :=
    ((State.windowRecords_kept (fun _ h => h) (.refl _ _)).only .window (by decide)).trans
      ((State.closePairWindow_kept (fun _ h => h) (.refl _ s1)).only .window (by decide))
  rw [h]
  exact ⟨rfl, rfl, rfl, rfl, rfl⟩

theorem State.openWindow_same (s : State) : s.Same tickFields s.openWindow := by
  unfold State.openWindow
  extract_lets excused pct w _ s1
  exact ((State.Same.of_regs (t := s1) rfl).trans s1.closePairWindow_same).trans (State.windowRecords_same _)

theorem State.openWindow_gens (s : State) : s.openWindow.gens = s.gens :=
  (State.openWindow_kept (fun _ h => h) (.refl _ s)).only .gens (by decide)

theorem State.openWindow_quench (s : State) : s.openWindow.quench = s.quench :=
  (State.openWindow_kept (fun _ h => h) (.refl _ s)).only .quench (by decide)

/-! ### An emitted tick -/

/-- The state in which the tick of generator `g` is emitted: generator 0 judges the window that closes first. -/
def State.tickJudged (s : State) (g : Nat) : State := if g = 0 then s.endBudget.judgeMissed else s

theorem State.tickJudged_gens (s : State) (g : Nat) : (s.tickJudged g).gens = s.gens := by
  unfold State.tickJudged
  split
  · exact (State.judgeMissed_kept (by decide) (State.endBudget_kept (fun _ h => h) (.refl _ s))).only .gens (by decide)
  · rfl

theorem State.tickJudged_now (s : State) (g : Nat) : (s.tickJudged g).now = s.now := by
  unfold State.tickJudged
  split
  · exact s.endBudget.judgeMissed_now.trans s.endBudget_now
  · rfl

/-- The state after the tick of generator `g` and its change of rate, before a window opens. -/
def State.tickRated (s : State) (g : Nat) : State :=
  ((s.tickJudged g).tickOut g (s.nextIndex g) (s.nextTick g)).changeRate g

theorem State.emitTick_eq (s : State) (g : Nat) :
    s.emitTick g = if g = 0 then (s.tickRated g).openWindow else s.tickRated g := rfl

theorem State.tickRated_held (s : State) (g : Nat) :
    (s.tickJudged g).Same tickFields (s.tickRated g) ∧ (s.tickRated g).window = (s.tickJudged g).window ∧
    (s.tickRated g).time = (s.tickJudged g).time ∧ (s.tickRated g).quench = (s.tickJudged g).quench := by
  have h := (s.tickJudged g).tickOut_tickHeld g (s.nextIndex g) (s.nextTick g)
  have hk := State.changeRate_kept g (fun _ h => h) (.refl _ ((s.tickJudged g).tickOut g (s.nextIndex g) (s.nextTick g)))
  exact ⟨h.fields.trans (State.changeRate_held _ g).1, (hk.only .window (by decide)).trans h.window,
    (hk.only .time (by decide)).trans h.time, (hk.only .quench (by decide)).trans h.quench⟩

theorem State.tickRated_now (s : State) (g : Nat) : (s.tickRated g).now = s.now := by
  obtain ⟨hf, _, ht, _⟩ := s.tickRated_held g
  have hs : (s.tickJudged g).Same [TPL_TB_STAT.SERVING.id] (s.tickRated g) :=
    fun f h i => hf f (by simp only [List.mem_singleton] at h; simp [tickFields, h]) i
  exact (State.now_congr hs (by rw [ht]) (by rw [ht])).trans (s.tickJudged_now g)

theorem State.tickRated_gen (s : State) (g k : Nat) :
    (k ≠ g → (s.tickRated g).gen k = s.gen k) ∧
    ((s.tickRated g).gen g).started = true ∧
    ((s.tickRated g).gen g).fc = (if (s.gen g).started then ((s.gen g).fc + 1) % 281474976710656 else 0) ∧
    ((s.tickRated g).gen g).last = some (s.nextTick g) ∧ ((s.tickRated g).gen g).pend = none ∧
    (((s.tickRated g).gen g).num, ((s.tickRated g).gen g).den, ((s.tickRated g).gen g).off) = (s.gen g).rated := by
  have hg := (s.tickJudged g).tickOut_tickHeld g (s.nextIndex g) (s.nextTick g) |>.gens
  have hj : ∀ j, (s.tickJudged g).gen j = s.gen j := fun j => by simp only [State.gen, s.tickJudged_gens g]
  have own : ((s.tickJudged g).tickOut g (s.nextIndex g) (s.nextTick g)).gen g =
      (s.gen g).ticked (s.nextIndex g) (s.nextTick g) := by
    rw [State.gen, hg, ← hj g]
    exact State.gen_upGen_same _ _ _
  obtain ⟨h0, h1, h2, h3, h4⟩ := State.changeRate_own ((s.tickJudged g).tickOut g (s.nextIndex g) (s.nextTick g)) g
  rw [own] at h0 h1 h2 h4
  refine ⟨fun hk => ?_, h0, h1, h2, h3, h4⟩
  have other : ((s.tickJudged g).tickOut g (s.nextIndex g) (s.nextTick g)).gen k = s.gen k := by
    rw [State.gen, hg, ← hj k]
    exact State.gen_upGen_other _ _ hk
  exact ((State.changeRate_held _ g).2 k hk).trans other

theorem State.emitTick_gen (s : State) (g k : Nat) : (s.emitTick g).gen k = (s.tickRated g).gen k := by
  rw [State.emitTick_eq]
  split
  · simp only [State.gen, State.openWindow_gens]
  · rfl

/-- A tick of generator 0, once the window that closed has been judged, changes no field of `tickFields` and no fault. -/
theorem State.emitTick_held (s : State) (g : Nat) :
    (s.tickJudged g).Same tickFields (s.emitTick g) ∧ (s.emitTick g).quench = (s.tickJudged g).quench := by
  obtain ⟨hf, _, _, hq⟩ := s.tickRated_held g
  rw [State.emitTick_eq]
  split
  · exact ⟨hf.trans (State.openWindow_same _), (State.openWindow_quench _).trans hq⟩
  · exact ⟨hf, hq⟩

/-! ### The tick edge (R29, R394) -/

theorem State.tickEdge_waits (s : State) (g : Nat) (hr : s.time.running = true) (he : s.isF MER_GEN_CFG.EN g = true) :
    exec (.tickEdge g) s = .next (let u := s.advanceTo (s.nextTick g) 64
      if u.now < s.nextTick g then u else u.emitTick g) := by
  refine congrArg Host.Outcome.next ?_
  rw [if_pos (by simp [hr, he])]
  simp only [(s.advanceTo_waited (s.nextTick g) 64).tick]

end Sys2Proof.Machine

namespace Sys2Proof.Proofs

open Sys2Proof.Machine

/-- Settles O50: edges change only the time, and the tick's own effects are those of `tickRated` and `openWindow`. -/
theorem tickEdgesCountFramesAndKeepTheirDistance : Obligations.TickEdgesCountFramesAndKeepTheirDistance := by
  unfold Obligations.TickEdgesCountFramesAndKeepTheirDistance
  refine ⟨fun g s h => ?_, fun g s u hr he hu => ⟨fun h => ?_, fun h => ?_⟩, fun g s h => s.advanceTo_reached h 64⟩
  · exact congrArg Host.Outcome.next (if_neg (by rcases h with h | h <;> simp [h]))
  · rw [s.tickEdge_waits g hr he, ← hu]
    exact congrArg Host.Outcome.next (if_pos h)
  · have hw : s.Waited u := hu ▸ s.advanceTo_waited (s.nextTick g) 64
    have hs : ∀ k, u.gen k = s.gen k := fun k => by simp only [State.gen, hw.gens]
    have hg := fun k => u.tickRated_gen g k
    simp only [← u.emitTick_gen g, hs, hw.tick] at hg
    obtain ⟨_, hst, hfc, hlast, hpend, hrate⟩ := hg g
    refine ⟨u.emitTick g, ?_, hst, hfc, hlast, ⟨s.nextIndex g, rfl, s.gen_k_le_nextIndex g⟩,
      fun l hl => s.nextTick_distance g hl, hpend, fun x hx => ?_, fun k hk => (hg k).1 hk, fun h0 => ?_, fun h0 => ?_⟩
    · rw [s.tickEdge_waits g hr he, ← hu]
      exact congrArg Host.Outcome.next (if_neg (by omega))
    · rw [hrate, Gen.rated, hx]
      rfl
    · rw [State.emitTick_eq, if_pos h0, ← u.tickRated_now g]
      exact State.openWindow_opens _
    · rw [State.emitTick_eq, if_neg h0, (u.tickRated_held g).2.1, State.tickJudged, if_neg h0, hw.window]

end Sys2Proof.Proofs
end

section
/-!
PROOF. The budget that ends, firmware's done mark, and windows that are missed (R35, R397, R398).
-/

namespace Sys2Proof.Machine

/-! ### The end of a budget (R397, R398) -/

/-- A budget that ends in a judged window is an overrun, and is counted. -/
theorem State.endBudget_overruns (s : State) (ho : s.window.opened = true) (hb : s.window.budgetDone = false)
    (hj : s.judged = true) :
    s.endBudget.window = { s.window with budgetDone := true } ∧ s.endBudget.isF MER_BUDGET_STAT.OVERRUN = true ∧
    s.endBudget.getF MER_BUDGET_STAT.OVERRUN_CNT = sat (2 ^ MER_BUDGET_STAT.OVERRUN_CNT.width - 1)
      (s.getF MER_BUDGET_STAT.OVERRUN_CNT + 1) := by
  unfold State.endBudget
  rw [if_neg (by simp [ho, hb])]
  extract_lets j _ s1 s2
  rw [if_pos (show j = true from hj)]
  have hr : s2.Raised ((s2.event 5 0x0050 0 (s2.frameCount % 4294967296) 0).raiseOnce 0x110) :=
    State.raiseOnce_raised _ _ _ _ (State.event_raised _ _ _ _ _ _ (.refl s2))
  have hk : s2.Kept faulting ((s2.event 5 0x0050 0 (s2.frameCount % 4294967296) 0).raiseOnce 0x110) :=
    State.raiseOnce_kept _ _ _ _ (fun _ h => h) (State.event_kept _ _ _ _ _ _ (by decide) (.refl _ s2))
  have h0 : s2.getF MER_BUDGET_STAT.OVERRUN = 1 :=
    (State.getF_setF_other _ _ _ _ _ _ (.inl (by decide))).trans (State.getF_setF_same _ _ _ _)
  have h1 : s2.getF MER_BUDGET_STAT.OVERRUN_CNT = sat (2 ^ MER_BUDGET_STAT.OVERRUN_CNT.width - 1)
      (s.getF MER_BUDGET_STAT.OVERRUN_CNT + 1) := by
    refine (State.getF_setF_same _ _ _ _).trans ?_
    rw [State.getF_setF_other _ _ _ _ _ _ (.inl (by decide)), Nat.mod_eq_of_lt]
    · rfl
    · rw [sat_eq_min]
      exact Nat.lt_of_le_of_lt (Nat.min_le_left _ _) (by decide)
  refine ⟨hk.only .window (by decide), ?_, ?_⟩
  · rw [State.isF, hr.regs _ (by decide), h0]
    rfl
  · rw [hr.regs _ (by decide), h1]

theorem State.endBudget_of_not_judged (s : State) (ho : s.window.opened = true) (hb : s.window.budgetDone = false)
    (hj : s.judged = false) : s.endBudget = { s with window := { s.window with budgetDone := true } } := by
  unfold State.endBudget
  rw [if_neg (by simp [ho, hb])]
  extract_lets j _ s1 s2
  exact if_neg (by simp [show j = false from hj])

/-! ### The done mark (R397, R398) -/

theorem State.clearFault_absent (s : State) {id : Nat} (h0 : id ≠ 0) : ((s.clearFault id).faultSt id).present = false := by
  unfold State.clearFault
  split
  · next h => simpa using h
  · rw [State.endCondition]
    split
    · next h => simpa using h
    · exact congrArg FaultSt.present (Tab.getD_set_same _ _ _ _)

/-- MISS_RUN is as it was. -/
def State.MissHeld (s t : State) : Prop := s.Same [MER_BUDGET_STAT.MISS_RUN.id] t

theorem State.clearFault_missHeld (s : State) {id : Nat} (h0 : id ≠ 0) : s.MissHeld (s.clearFault id) := by
  unfold State.clearFault
  rw [if_neg h0]
  split
  · exact .refl _ s
  · exact (State.endCondition_kept id (fun _ h => h) (.refl _ s)).same_fields (by decide)

/-- A completion changes no register field but those of reports. -/
theorem State.done_same (s : State) (c : Cmd) (status : Nat) {l : List Nat} (hl : ∀ x ∈ l, x ∉ reportFields) :
    s.Same l (s.done c status) := by
  by_cases h : c.ring < 256
  · exact fun f hf i => (s.done_answered c status 0 0 0 h).still.regs f (hl _ hf) i
  · rw [State.done, if_pos (show noRing ≤ c.ring from Nat.le_of_not_lt h)]
    exact .refl _ s

theorem State.hostReady_missHeld (s : State) : s.MissHeld s.hostReady := by
  unfold State.hostReady
  split
  · exact .refl _ s
  · extract_lets s1 d s2 _ s3
    have h1 : s.MissHeld s1 := s.setF_same _ _ _ (by decide)
    have h2 : s1.MissHeld s2 := (State.Same.of_regs (t := d.2) rfl).setF _ _ _ (by decide)
    have h3 : s1.MissHeld s3 := by
      unfold s3
      split
      · exact .refl _ s1
      · exact h2.trans (.of_regs rfl)
    split
    · exact (h1.trans h3).trans (.of_regs rfl)
    · exact h1.trans h3

theorem State.firstDone_missHeld (s : State) : s.MissHeld s.firstDone := by
  unfold State.firstDone
  split
  · extract_lets _ s1
    have h1 : s.MissHeld s1 := (State.Same.of_regs (s := s) rfl).setF _ _ _ (by decide)
    have h2 : s1.MissHeld s1.hostReady.commitSvn := s1.hostReady_missHeld.trans
      ((State.commitSvn_kept (fun _ h => h) (.refl _ _)).same_fields (by decide))
    refine (h1.trans h2).trans ?_
    unfold State.activateDone
    split
    · split
      · refine State.Same.trans ?_ (State.done_same _ _ _ (by decide))
        exact .of_regs rfl
      · exact .refl _ _
    · exact .refl _ _
  · exact .refl _ s

/-- The window is done and no miss stands (R397). -/
def State.markDone (s : State) : State :=
  ({ s with window := { s.window with done := true } } : State).setF MER_BUDGET_STAT.MISS_RUN 0

/-- A done mark in its window (R397). -/
theorem State.merDone_marks (s : State) (k : Nat) (hf : s.fwRuns = true) (ho : s.window.opened = true)
    (hk : k % 65536 = s.frameCount % 65536) :
    ∃ t, exec (.merDone k) s = .next t ∧ t.window = { s.window with done := true } ∧
      t.getF MER_BUDGET_STAT.MISS_RUN = 0 ∧ (t.faultSt 0x141).present = false := by
  have hd := State.firstDone_kept (fun _ h => h) (.refl _ (s.markDone.clearFault 0x141))
  refine ⟨(s.markDone.clearFault 0x141).firstDone, ?_, ?_, ?_, ?_⟩
  · refine congrArg Host.Outcome.next ?_
    rw [if_neg (by simp [hf]), if_pos (by simp [ho, hk])]
    rfl
  · exact (hd.only .window (by decide)).trans
      ((State.clearFault_kept 0x141 (fun _ h => h) (.refl _ s.markDone)).only .window (by decide))
  · have h := (s.markDone.clearFault_missHeld (id := 0x141) (by decide)).trans (State.firstDone_missHeld _)
    rw [h MER_BUDGET_STAT.MISS_RUN (by decide) 0]
    exact State.getF_setF_same _ _ _ _
  · have hq : (s.markDone.clearFault 0x141).firstDone.quench = (s.markDone.clearFault 0x141).quench :=
      hd.only .quench (by decide)
    rw [State.faultSt, hq]
    exact s.markDone.clearFault_absent (by decide)

/-! ### Missed windows (R35, R398) -/

/-- At generator 0's tick edge the window that closes, its budget done, is judged missed or not. -/
theorem State.emitTick_judges (s : State) (hb : s.window.budgetDone = true) :
    (s.emitTick 0).getF MER_BUDGET_STAT.MISS_RUN = s.judgeMissed.getF MER_BUDGET_STAT.MISS_RUN ∧
    (s.emitTick 0).quench = s.judgeMissed.quench := by
  have e : s.tickJudged 0 = s.judgeMissed := by rw [State.tickJudged, if_pos rfl, s.endBudget_of_done hb]
  obtain ⟨hf, hq⟩ := s.emitTick_held 0
  rw [e] at hf hq
  exact ⟨hf MER_BUDGET_STAT.MISS_RUN (by decide) 0, hq⟩

end Sys2Proof.Machine

namespace Sys2Proof.Proofs

open Sys2Proof.Machine

/-- Settles O52: edges change only the time, and what follows is what `endBudget`, the mark and `judgeMissed` do. -/
theorem budgetsEndAndDoneMarksCount : Obligations.BudgetsEndAndDoneMarksCount := by
  unfold Obligations.BudgetsEndAndDoneMarksCount
  refine ⟨fun s h => ?_, fun s u hr ho hb hu => ?_, fun k s => ⟨fun h => ?_, fun hf h => ?_, fun hf ho hk => ?_⟩,
    fun s u hr he hu hn hb => ?_⟩
  · exact congrArg Host.Outcome.next (if_neg (by rcases h with h | h | h <;> simp [h]))
  · have hw : s.Waited u := hu ▸ s.advanceTo_waited s.budgetEndAt 64
    have run : exec .budgetEnd s = .next (if u.now < s.budgetEndAt then u else u.endBudget) := by
      refine congrArg Host.Outcome.next ?_
      rw [if_pos (by simp [hr, ho, hb])]
      simp only [← hu, hw.budgetEndAt]
    have ho' : u.window.opened = true := by rw [hw.window, ho]
    have hb' : u.window.budgetDone = false := by rw [hw.window, hb]
    refine ⟨fun h => by rw [run, if_pos h], fun h => ⟨u.endBudget, by rw [run, if_neg (by omega)], ?_⟩⟩
    cases hj : u.judged with
    | true =>
      obtain ⟨h1, h2, h3⟩ := u.endBudget_overruns ho' hb' hj
      rw [hw.judged] at hj
      refine ⟨by rw [h1, hw.window], fun _ => ⟨h2, ?_⟩, fun h => by simp [hj] at h⟩
      rw [h3, State.getF, hw.regs]
      rfl
    | false =>
      rw [u.endBudget_of_not_judged ho' hb' hj]
      rw [hw.judged] at hj
      exact ⟨by rw [hw.window], fun h => by simp [hj] at h, fun _ => rfl⟩
  · exact congrArg Host.Outcome.next (if_pos (by simp [h]))
  · refine ⟨_, congrArg Host.Outcome.next ?_, rfl⟩
    rw [if_neg (by simp [hf]), if_neg (by simpa using h)]
  · exact s.merDone_marks k hf ho hk
  · have hw : s.Waited u := hu ▸ s.advanceTo_waited (s.nextTick 0) 64
    have hm : u.getF MER_BUDGET_STAT.MISS_RUN = s.getF MER_BUDGET_STAT.MISS_RUN := by rw [State.getF, hw.regs]; rfl
    obtain ⟨h0, hq⟩ := u.emitTick_judges (by rw [hw.window, hb])
    rw [← hw.judged, ← hm]
    refine ⟨u.emitTick 0, ?_, fun hj h => ?_, fun hj h hmask hp => ?_, fun hj => ?_⟩
    · rw [s.tickEdge_waits 0 hr he, ← hu]
      exact congrArg Host.Outcome.next (if_neg (by omega))
    · rw [h0, u.judgeMissed_counts hj h]
    · have hl := u.judgeMissed_latches hj h (by simpa only [State.masked, State.fence, hw.fences] using hmask)
        (by simpa only [State.faultSt, hw.quench] using hp)
      simpa only [State.faultSt, hq] using hl
    · rw [h0, u.judgeMissed_of_not_judged hj]

end Sys2Proof.Proofs
end

section
/-!
PROOF. Frames that the control complex hands over and takes (R36, R128, R242, R319), and the head of a queue that leaves it.
-/

namespace Sys2Proof.Machine

/-! ### The head of a queue leaves it (R228) -/

/-- `t` is `s` with queue `k` without its head. -/
structure State.Popped (k : Nat) (s t : State) : Prop where
  rest : t = { s with queues := t.queues }
  own : t.queue k = { s.queue k with onTile := (s.queue k).onTile.drop 1 }
  others : ∀ j, j ≠ k → t.queue j = s.queue j

theorem State.queue_erase (s : State) (k j : Nat) :
    ({ s with queues := Tab.erase s.queues k } : State).queue j = if j = k then {} else s.queue j := by
  simp only [State.queue, Tab.getD, Tab.get?_erase]
  by_cases h : j = k <;> simp [h]

theorem State.popHead_popped (s : State) (p slot : Nat) (h : (s.queue (queueKey p slot)).spilled = false) :
    s.Popped (queueKey p slot) (s.popHead p slot) := by
  unfold State.popHead
  generalize queueKey p slot = k at h ⊢
  extract_lets k' s1
  have own : s1.queue k = { s.queue k with onTile := (s.queue k).onTile.drop 1 } := State.queue_upQueue_same _ _ _
  have other : ∀ j, j ≠ k → s1.queue j = s.queue j := fun j hj => State.queue_upQueue_other _ _ hj
  have hs : ¬ (s1.queue k).spilled = true := by
    rw [own]
    exact fun e => absurd (h.symm.trans e) (by decide)
  rw [if_neg hs]
  split
  · next he =>
    refine ⟨rfl, ?_, fun j hj => ?_⟩
    · rw [← own, he]
      exact (s1.queue_erase k k).trans (if_pos rfl)
    · rw [← other j hj]
      exact (s1.queue_erase k j).trans (if_neg hj)
  · exact ⟨rfl, own, other⟩

theorem State.Popped.aged {k : Nat} {s t : State} (h : s.Popped k t) (f : Frame) (p : Nat) : t.aged f p = s.aged f p := by
  rw [h.rest]
  rfl

/-! ### What goes out (R252, R288, R319) -/

/-- The fields that what goes out is made of: the router's MAC address and the timebase that serves. -/
def outgoingFields : List Nat := [GLB_LKP_RMAC_LO.RMAC.id, GLB_LKP_RMAC_HI.RMAC.id, TPL_TB_STAT.SERVING.id]

theorem State.outgoing_congr {s t : State} (hs : s.Same outgoingFields t) (hc : t.cuts = s.cuts)
    (hm : t.merges = s.merges) (f : Frame) : t.outgoing f = s.outgoing f := by
  have hl : t.getF GLB_LKP_RMAC_LO.RMAC = s.getF GLB_LKP_RMAC_LO.RMAC := hs _ (by decide) 0
  have hh : t.getF GLB_LKP_RMAC_HI.RMAC = s.getF GLB_LKP_RMAC_HI.RMAC := hs _ (by decide) 0
  have hf : ∀ h, t.cutOf h = s.cutOf h := fun h => by simp only [State.cutOf, State.mergeOf, hc, hm]
  have hg : ∀ g, t.cut g = s.cut g := fun g => by simp only [State.cut, hc]
  simp only [State.outgoing, hl, hh, hf, hg]

theorem State.fullStamp_congr {s t : State} (h : t.now = s.now) (g : Nat) : t.fullStamp g = s.fullStamp g := by
  simp only [State.fullStamp, h]

/-- Counting and the queues do not change what goes out. -/
theorem State.Quiet.outgoing {s t : State} (h : s.Quiet t) (f : Frame) : t.outgoing f = s.outgoing f := by
  exact State.outgoing_congr (h.same_fields (by decide)) h.still.cuts h.still.merges f

theorem State.Quiet.now {s t : State} (h : s.Quiet t) : t.now = s.now := by
  have ht : t.time = s.time := h.still.time
  exact State.now_congr (h.same_fields (by decide)) (by rw [ht]) (by rw [ht])

theorem State.Popped.outgoing {k : Nat} {s t : State} (h : s.Popped k t) (f : Frame) : t.outgoing f = s.outgoing f := by
  rw [h.rest]
  rfl

theorem State.Popped.now {k : Nat} {s t : State} (h : s.Popped k t) : t.now = s.now := by
  rw [h.rest]
  rfl

/-! ### Frames handed over (R36, R79, R155, R424) -/

theorem State.countIngress_drop (s : State) (p c code : Nat) :
    s.Quiet (s.countIngress p c code) ∧
    (s.countIngress p c code).counter (group 2 p) (c * 64 + code) =
      min 0xFFFFFFFFFFFFFFFF (s.counter (group 2 p) (c * 64 + code) + 1) :=
  ⟨s.countS_quiet _ _ _, s.counter_countS _ _⟩

theorem State.sendUnicast_fenced (s : State) (t : Nat) {j : Nat} (f : Frame) (h : (s.fence j).st ≠ 0) :
    (s.sendUnicast t j f).1 = s.countIngress f.inPort f.res.cls 0x26 := by
  simp only [State.sendUnicast, if_pos h]

theorem State.ctrlSend_lookup (s : State) (k : Nat) (b : Bytes) (hf : (s.fence k).st = 0) :
    (s.preRoom k (padFrame b).length (parse (padFrame b)).isPtp = true →
      ∃ x, x.bytes = padFrame b ∧ x.inPort = 257 ∧
        ((s.ctrlSend (.lookup k b)).tile k).pre = (s.tile k).pre ++ [x]) ∧
    (s.preRoom k (padFrame b).length (parse (padFrame b)).isPtp = false →
      s.ctrlSend (.lookup k b) = s.countIngress 257 (s.trustClass 257 (parse (padFrame b))) 0x01) := by
  simp only [State.ctrlSend]
  rw [if_neg (by simp [hf])]
  refine ⟨fun h => ?_, fun h => by rw [if_neg (by simp [h])]⟩
  rw [if_pos h]
  exact ⟨_, rfl, rfl, congrArg Tile.pre (State.tile_upTile_same s.draw.2 k _)⟩

/-! ### Frames taken (R242) -/

theorem State.ctrlTake_takes (s : State) (c : Nat) (f : Frame)
    (hc : [7, 6, 5, 4, 3, 2, 1, 0].find? (fun c => (s.head 257 c).isSome) = some c) (hf : s.head 257 c = some f)
    (hs : (s.queue (queueKey 257 c)).spilled = false) (ha : s.aged f 257 = false) :
    Out.toControl (s.outgoing f) f.inPort (s.fullStamp f.stamp) ∈ s.ctrlTake.out.drop s.out.length ∧
    (s.ctrlTake.queue (queueKey 257 c)).onTile = (s.queue (queueKey 257 c)).onTile.drop 1 := by
  unfold State.ctrlTake
  rw [hc]
  simp only [hf]
  have hp := s.popHead_popped 257 c hs
  rw [if_neg (by rw [hp.aged, ha]; decide)]
  generalize s.popHead 257 c = u at hp ⊢
  have hq := (u.countS_quiet (group 3 257) (c * 32) 1).trans
    (State.countS_quiet _ (group 3 257) (c * 32 + 1) (frameOctets f.bytes.length))
  have hk : u.Kept [.regs, .counters] ((u.countS (group 3 257) (c * 32)).countS (group 3 257) (c * 32 + 1)
      (frameOctets f.bytes.length)) :=
    State.countS_kept _ _ _ (fun _ h => h) (State.countS_kept _ _ _ (fun _ h => h) (.refl _ u))
  generalize (u.countS (group 3 257) (c * 32)).countS (group 3 257) (c * 32 + 1) (frameOctets f.bytes.length) = v at hq hk ⊢
  rw [hq.outgoing, hp.outgoing, State.fullStamp_congr (hq.now.trans hp.now)]
  have hfin := State.finish_kept f (fun _ h => h)
    (.refl _ (v.emit (.toControl (s.outgoing f) f.inPort (s.fullStamp f.stamp))))
  have ho : v.out = s.out := (hk.only .out (by decide)).trans (by rw [hp.rest])
  refine ⟨ho ▸ hfin.emitted, ?_⟩
  have e : ((v.emit (.toControl (s.outgoing f) f.inPort (s.fullStamp f.stamp))).finish f).queues = u.queues :=
    (hfin.only .queues (by decide)).trans (hk.only .queues (by decide))
  simp only [State.queue, e]
  exact congrArg EQueue.onTile hp.own

end Sys2Proof.Machine

namespace Sys2Proof.Proofs

open Sys2Proof.Machine

/-- Settles O24: each frame by the branch of `ctrlSend` it takes; what is taken leaves the queue and goes out unchanged. -/
theorem theControlComplexSendsAndTakesFrames : Obligations.TheControlComplexSendsAndTakesFrames := by
  unfold Obligations.TheControlComplexSendsAndTakesFrames
  have run : ∀ (f : CtrlFrame) (s : State), s.fwRuns = true → exec (.controlFrameSend f) s = .next (s.ctrlSend f) :=
    fun f s h => congrArg Host.Outcome.next (if_pos h)
  refine ⟨fun k b s h hf => ⟨_, run _ s h, ?_⟩, fun p c sr os tag b s h hp hf => ⟨_, run _ s h, ?_⟩,
    fun p c sr os tag b s h hp hf => ?_, fun p b s h ht => ?_, fun c f s h hc hf hs ha => ?_⟩
  · obtain ⟨hroom, hfull⟩ := s.ctrlSend_lookup k b hf
    refine ⟨hroom, fun hr => ?_⟩
    rw [hfull hr]
    obtain ⟨hq, hn⟩ := s.countIngress_drop 257 (s.trustClass 257 (parse (padFrame b))) 0x01
    exact ⟨hq, hq.still.tiles, hn⟩
  · have e : s.ctrlSend (.direct p c none sr os tag b) = s.countIngress 257 c 0x26 := by
      simp only [State.ctrlSend]
      split
      · rfl
      · next h0 =>
        have hne : ¬ p = 256 := by omega
        simp only [if_neg hne]
        exact s.sendUnicast_fenced 0 _ (hf.resolve_left h0)
    rw [e]
    exact s.countIngress_drop 257 c 0x26
  · rw [run _ s h]
    refine congrArg Host.Outcome.next ?_
    have hne : ¬ p = 256 := by omega
    simp only [State.ctrlSend, if_neg hne]
    rw [if_neg (by simp [hf])]
    rfl
  · rw [run _ s h]
    refine congrArg Host.Outcome.next ?_
    simp only [State.ctrlSend]
    exact if_pos (by simp [ht])
  · exact ⟨s.ctrlTake, congrArg Host.Outcome.next (if_pos h), s.ctrlTake_takes c f hc hf hs ha⟩

end Sys2Proof.Proofs
end

section
/-!
PROOF. A protection group that returns to its primary is busy until the change's last step (R245, R246).
-/

namespace Sys2Proof.Machine

/-- A group that moves notes when its move ends, beside its new position (R245). -/
theorem State.pgMove_get? (s : State) (g : Nat) (b : Bool) {x : Pg} (h : Tab.get? s.pgs g = some x) :
    Tab.get? (s.pgMove g b).pgs g =
      some { x with onBackup := b, busyTo := s.time.tclk + s.draw.1 % 251 } := by
  unfold State.pgMove
  rw [h]
  cases b <;> exact (Tab.get?_set _ _ _ _).trans (if_pos rfl)

theorem State.pgWtrExpiry_moves (s : State) (g : Nat) {x : Pg} (h : Tab.get? s.pgs g = some x) (hb : x.onBackup = true)
    (hf : x.forced = none) (hr : s.isF GLB_PG_CFG.REVERT = true) (hp : s.portState x.primary = 5) :
    exec (.pgWtrExpiry g) s = .next (s.pgMove g false) := by
  refine congrArg Host.Outcome.next ?_
  rw [h]
  exact if_pos (by simp [hb, hf, hr, hp])

/-- A group on its backup whose primary is UP, at TCLK edge 1 in automatic mode with REVERT; no move of it is under way. -/
def revertible : State :=
  ({ pgs := [(0, { primary := 0, backup := 1, onBackup := true })], time := { tclk := 1 } } : State).setF
    GLB_PG_CFG.REVERT 1 |>.setF TIL_PORT_STAT.STATE 5

end Sys2Proof.Machine

namespace Sys2Proof.Proofs

open Sys2Proof.Machine

/-- Refutes O58: the group that PG_WTR_EXPIRY moves is not as it was but for its position, for it is busy until its move's
last step (R245), at TCLK edge 1 or later where the statement keeps edge 0. -/
theorem not_schedulersPickLaunchAgeAndSweep : ¬ Obligations.SchedulersPickLaunchAgeAndSweep := by
  unfold Obligations.SchedulersPickLaunchAgeAndSweep
  intro h
  obtain ⟨_, _, _, _, _, _, h⟩ := h
  obtain ⟨_, _, hmove, _⟩ := h 0 revertible
  obtain ⟨t, ht, hg, _⟩ := hmove { primary := 0, backup := 1, onBackup := true } rfl rfl rfl (by decide) (by decide)
  rw [revertible.pgWtrExpiry_moves 0 (x := { primary := 0, backup := 1, onBackup := true }) rfl rfl rfl (by decide)
    (by decide)] at ht
  rw [← Host.Outcome.next.inj ht, revertible.pgMove_get? 0 false (x := { primary := 0, backup := 1, onBackup := true }) rfl] at hg
  have hbusy : (1 : Nat) + revertible.draw.1 % 251 = 0 := congrArg Pg.busyTo (Option.some.inj hg)
  omega

end Sys2Proof.Proofs
end

section
/-!
PROOF. A PTP message over UDP that hits a media flow, and whose RTP header would pass byte 256, is read as a truncated
frame (R156): stage 1 does not trap it (R158).
-/

namespace Sys2Proof.Machine

/-- A PTP event message over UDP and IPv6, 258 bytes: its Hop-by-Hop header of 184 bytes puts the UDP header at byte 238,
so that the parser reads its ports, and 12 bytes more would pass byte 256. -/
def longPtp : Bytes :=
  List.replicate 12 0 ++ [0x86, 0xDD] ++                                 -- MAC addresses, IPv6
  [0x60, 0, 0, 0, 0, 204, 0, 64] ++ List.replicate 32 0 ++               -- payload of 204 bytes, Hop-by-Hop follows
  [17, 22] ++ List.replicate 182 0 ++                                    -- UDP follows; 8 · (22 + 1) bytes
  [0, 0, 0x01, 0x3F, 0, 20, 0, 0] ++ List.replicate 12 0                 -- to port 319

/-- That frame as it waits in a tile. -/
def longPtpFrame : PreFrame := { bytes := longPtp, inPort := 0, stamp := 0, ptp := true }

/-- The frame alone in tile 1, and a media flow to the same addresses and UDP port 319 that comes in on port 0. -/
def flowToPtp : State :=
  { tiles := [(1, { pre := [longPtpFrame] })],
    tables := { flowsAct := [{ handle := 0, words := [0, 0, 0, 0, 0, 0, 0, 0, 319, 512], mask := 1, owner := 0 }] } }

theorem longPtp_isPtp : (parse longPtp).isPtp = true := by decide +kernel

/-- Tile 1 once the lookup has taken the frame. -/
def flowToPtpTaken : State := flowToPtp.upTile 1 (fun y => { y with pre := y.pre.erase longPtpFrame })

/-- With the media flow hit the parser knows it as a truncated frame, and so as no PTP frame. -/
theorem flowToPtpTaken_parseFor : (flowToPtpTaken.parseFor 0 longPtp).isPtp = false := by decide +kernel

theorem flowToPtpTaken_untrapped : flowToPtpTaken.trapped 0 (flowToPtpTaken.parseFor 0 longPtp) longPtp = none := by
  have het : (flowToPtpTaken.parseFor 0 longPtp).etype ≠ 0x8809 := by decide +kernel
  rw [State.trapped, flowToPtpTaken_parseFor, Bool.and_false, if_neg Bool.false_ne_true, if_neg het]

/-- No MAC entry names its destination, so it is dropped (R174 rule 6). -/
theorem flowToPtpTaken_drops : (flowToPtpTaken.decideFrame 1 0 longPtp 0).2.1.destKind = 4 := by
  rw [State.decideFrame]
  dsimp only
  rw [flowToPtpTaken_untrapped]
  decide +kernel

end Sys2Proof.Machine

namespace Sys2Proof.Proofs

open Sys2Proof.Machine

/-- Refutes O57: a PTP frame of a front-panel port that hits a media flow may be truncated (R156), and then it goes neither
to port 257 nor into a stream, whatever room there is; the statement judges PTP by the parser without the flow. -/
theorem not_framesAreDecidedPackedAndCarried : ¬ Obligations.FramesAreDecidedPackedAndCarried := by
  unfold Obligations.FramesAreDecidedPackedAndCarried
  intro h
  obtain ⟨_, _, hlookup, _⟩ := h
  obtain ⟨hdrop, hptp⟩ := hlookup 1 longPtpFrame flowToPtp rfl rfl (List.mem_singleton_self _) (.inl rfl)
  obtain ⟨t, ht, _, _, hdrop⟩ := hdrop
  obtain ⟨_, _, _, hacct, _⟩ := hdrop (flowToPtpTaken.decideFrame 1 0 longPtp 0) rfl rfl flowToPtpTaken_drops
  obtain ⟨u, f, hu, _, _, _, _, _, _, hcharged, _⟩ := hptp (by decide) longPtp_isPtp rfl rfl (by decide +kernel)
    (by decide +kernel)
  have hsame : u.acctOf 3 longPtpFrame.inPort 7 = flowToPtp.acctOf 3 longPtpFrame.inPort 7 := by
    rw [State.acctOf, ← Host.Outcome.next.inj (ht.symm.trans hu), hacct]
    rfl
  have hcells : 0 < frameCells longPtpFrame.bytes.length := by decide +kernel
  omega

end Sys2Proof.Proofs
end

section
/-!
PROOF. What every step keeps, by cases over the queue: the command in front, or one clock edge (R57, R70, R178, R293, R295).
-/

namespace Sys2Proof.Machine

/-- The queue is no part of the invariant. -/
theorem State.Inv.with_pending {s : State} (h : s.Inv) (l : List Instr) : ({ s with pending := l } : State).Inv :=
  ⟨h.regs, h.fences, h.rings, h.recSeq, h.frameSeq, h.epochs⟩

/-- A step is one clock edge, or the command in front of the queue. -/
theorem step_cases {s t : State} (h : step s = .next t) :
    (s.pending = [] ∧ t = s.idle) ∨
      ∃ c rest, s.pending = c :: rest ∧ exec c { s with pending := rest } = .next t := by
  unfold step at h
  split at h
  · next hp => exact .inl ⟨hp, (Host.Outcome.next.inj h).symm⟩
  · next c rest hp => exact .inr ⟨c, rest, hp, h⟩

/-- What a command answers is what `exec_kept` says of it. -/
theorem State.Kept.of_exec {i : Instr} {s t : State} (h : exec i s = .next t) : s.Kept (instrParts i) t := by
  obtain ⟨u, hu, hk⟩ := exec_kept i s
  exact Host.Outcome.next.inj (hu.symm.trans h) ▸ hk

/-! ### One clock edge (R70, R293, R295) -/

/-- Where no status-block write is held back, an edge makes none. -/
theorem State.flushStatus_of_none_due {s : State} (h : ∀ n, (s.ring n).sbDue = false) : s.flushStatus = s :=
  List.foldl_fixed' (fun n => by simp [h n]) _

theorem State.flushStatus_time (s : State) : s.flushStatus.time = s.time :=
  (State.flushStatus_kept (fun _ h => h) (.refl _ s)).only .time (by decide)

theorem State.edges_kept_time (s : State) (n : Nat) : s.Kept [.time] (s.edges n) :=
  State.edges_kept n (fun _ h => h) (.refl _ s)

theorem State.edges_of_stopped {s : State} (h : s.time.running = false) (n : Nat) : s.edges n = s := by
  simp [State.edges, h]

/-- One edge of a running timing plane without slew: both timebases advance by the increment (R295). -/
theorem State.edges_one {s : State} (h : s.time.running = true) :
    (s.edges 1).time.tclk = s.time.tclk + 1 ∧
      (s.time.adj = 0 → (s.edges 1).time.a = s.time.a + (s.time.inc : Int) * 1000000000 ∧
        (s.edges 1).time.b = s.time.b + (s.time.inc : Int) * 1000000000) := by
  rw [State.edges, if_pos h]
  refine ⟨rfl, fun ha => ?_⟩
  have hs : s.slewOver 1 = 0 := by
    simp only [State.slewOver, clampI, ha]
    split
    · omega
    · split <;> omega
  simp [hs]

end Sys2Proof.Machine

namespace Sys2Proof.Proofs

open Sys2Proof.Machine

/-- Settles O5: an edge keeps the invariant, and so does every command. -/
theorem everyStepKeepsTheInvariant : Obligations.EveryStepKeepsTheInvariant := by
  intro s t hs ht
  rcases step_cases ht with ⟨-, rfl⟩ | ⟨c, rest, -, hc⟩
  · exact (State.idle_kept (fun _ h => h) (.refl _ s)).inv hs
  · exact (State.Kept.of_exec hc).inv (hs.with_pending rest)

/-- Settles O4: the frame of each command, by what `exec_kept` says of it. -/
theorem commandsChangeOnlyTheirParts : Obligations.CommandsChangeOnlyTheirParts :=
  fun _ _ _ h => (State.Kept.of_exec h).only

/-- Settles O2: the edge moves the timebases, and the status-block writes that it makes due are reports. -/
theorem emptyQueuePassesOneClockEdge : Obligations.EmptyQueuePassesOneClockEdge := by
  intro s hp
  have hstep : step s = .next s.idle := by rw [step, hp]
  have htime : s.idle.time = (s.edges 1).time := State.flushStatus_time _
  refine ⟨s.idle, hstep, fun p hp hr => ?_, fun hn p hp => ?_, fun hr => ?_, fun hr => ?_⟩
  · refine (State.idle_kept (fun _ h => h) (.refl _ s)).only p (fun h => ?_)
    simp only [reports, List.mem_cons, List.not_mem_nil, or_false, not_or] at h hr
    tauto
  · have he := s.edges_kept_time 1
    have hn' : ∀ n, ((s.edges 1).ring n).sbDue = false := fun n => by rw [he.ring (by decide)]; exact hn n
    rw [State.idle, State.flushStatus_of_none_due hn']
    exact he.only p (by simpa using hp)
  · rw [htime, State.edges_of_stopped hr]
  · rw [htime]
    exact State.edges_one hr

/-- Settles O6: the tables are empty, and the counts 0. -/
theorem resetMeetsTheInvariant : Obligations.ResetMeetsTheInvariant where
  regs := by decide +kernel
  fences := by decide
  rings := fun _ he => absurd he List.not_mem_nil
  recSeq := by decide
  frameSeq := by decide
  epochs := by decide

end Sys2Proof.Proofs
end

section
/-!
PROOF. Rings that are enabled, disabled and reported stopped (R49, R50, R55, R56, R60–R62).
-/

namespace Sys2Proof.Machine

/-! ### ENABLE from 0 to 1 (R61, R62) -/

/-- Ring `n` with ENABLE 1 and everything it held gone, before its configuration is judged (R61). -/
def State.ringAnew (s : State) (n : Nat) : State :=
  { (s.orphanCmds n).setF HIF_RING_CFG.ENABLE 1 n with
    rings := Tab.set s.rings n { era := (s.ring n).era + 1, sbAt := (s.ring n).sbAt } }

theorem State.ringAnew_ring (s : State) (n k : Nat) :
    (s.ringAnew n).ring k = if k = n then { era := (s.ring n).era + 1, sbAt := (s.ring n).sbAt } else s.ring k :=
  Tab.getD_set _ _ _ _ _

theorem State.ringAnew_getF (s : State) (n : Nat) {f : Fld} (h : f.id ≠ HIF_RING_CFG.ENABLE.id) (i : Nat) :
    (s.ringAnew n).getF f i = s.getF f i := State.getF_setF_other (s.orphanCmds n) _ _ 1 n i (.inl h)

/-- The ring runs where its configuration lets it, and is in ERROR with reason CONFIG elsewhere (R62). -/
theorem State.enableRing_eq {s : State} {n : Nat} (h : s.isF HIF_RING_CFG.ENABLE n = false) :
    s.enableRing n = ((s.ringAnew n).setF HIF_RING_STAT.STATE (if s.ringCfgOk n then 1 else 3) n).setF
      HIF_RING_STAT.REASON (if s.ringCfgOk n then 0 else 1) n := by
  have hcfg : (s.ringAnew n).ringCfgOk n = s.ringCfgOk n := by
    have hf : ∀ f ∈ [HIF_RING_CFG.TYPE, HIF_RING_CFG.SIZE_LOG2, HIF_RING_CFG.FUNC, HIF_RING_CFG.VECTOR],
        (s.ringAnew n).getF f n = s.getF f n := fun f hf =>
      s.ringAnew_getF n ((by decide : ∀ f ∈ [HIF_RING_CFG.TYPE, HIF_RING_CFG.SIZE_LOG2, HIF_RING_CFG.FUNC,
        HIF_RING_CFG.VECTOR], f.id ≠ HIF_RING_CFG.ENABLE.id) f hf) n
    simp only [List.forall_mem_cons] at hf
    obtain ⟨ht, hz, hfn, hv, -⟩ := hf
    simp only [State.ringCfgOk, State.ringType, State.ringFn, ht, hz, hfn, hv]
    rfl
  have he : s.enableRing n = if (s.ringAnew n).ringCfgOk n then
      ((s.ringAnew n).setF HIF_RING_STAT.STATE 1 n).setF HIF_RING_STAT.REASON 0 n else (s.ringAnew n).ringFail n 1 := by
    rw [State.enableRing, h]
    rfl
  rw [he, hcfg]
  cases s.ringCfgOk n <;> rfl

/-- What RING_ENABLE leaves in the ring's registers. -/
theorem State.enableRing_regs {s : State} {n : Nat} (h : s.isF HIF_RING_CFG.ENABLE n = false) :
    (s.enableRing n).getF HIF_RING_CFG.ENABLE n = 1 ∧
      (s.enableRing n).getF HIF_RING_STAT.STATE n = (if s.ringCfgOk n then 1 else 3) ∧
      (s.enableRing n).getF HIF_RING_STAT.REASON n = (if s.ringCfgOk n then 0 else 1) := by
  have hen : (s.ringAnew n).getF HIF_RING_CFG.ENABLE n = 1 := State.getF_setF_same (s.orphanCmds n) HIF_RING_CFG.ENABLE 1 n
  rw [State.enableRing_eq h]
  refine ⟨?_, ?_, ?_⟩
  · rw [State.getF_setF_other _ _ _ _ _ _ (.inl (by decide)), State.getF_setF_other _ _ _ _ _ _ (.inl (by decide)), hen]
  · rw [State.getF_setF_other _ _ _ _ _ _ (.inl (by decide)), State.getF_setF_same]
    cases s.ringCfgOk n <;> rfl
  · rw [State.getF_setF_same]
    cases s.ringCfgOk n <;> rfl

/-! ### A frame in progress that ends (R96, R98) -/

theorem State.finish_ring (s : State) (f : Frame) (k : Nat) : (s.finish f).ring k = s.ring k :=
  (State.finish_kept f (fun _ h => h) (.refl _ s)).ring (by decide) k

/-- The completion of a frame in progress, rewritten with STATUS TRUNC (R83, R96). -/
def State.truncCompletion (s : State) (n : Nat) (x : RxProg) : Out :=
  .completion n x.lastIdx (hostBytes [x.lastCookie.toNat, rxDw1 x.frame x.lastLen (x.done == x.lastLen) true,
    rxDw2 x.frame, rxDw3 x.frame stTrunc + s.phaseBit n x.lastIdx * 2147483648])

theorem State.rxTruncate_of_none {s : State} {n : Nat} (h : (s.ring n).rx = none) : s.rxTruncate n = s := by
  simp [State.rxTruncate, h]

/-- A frame in progress leaves its ring, its completion is rewritten, and what it loses is counted (R96). -/
theorem State.rxTruncate_of_some {s : State} {n : Nat} {x : RxProg} (h : (s.ring n).rx = some x) :
    s.rxTruncate n = ((((s.upRing n (fun r => { r with rx := none })).emit (s.truncCompletion n x)).countS
      (group 6 n) 0).countS (group 6 n) 1 (x.frame.bytes.length - x.done)).finish x.frame := by
  rw [State.rxTruncate, h]
  rfl

/-- Only the frame in progress leaves ring `n`. -/
theorem State.rxTruncate_ring (s : State) (n k : Nat) :
    (s.rxTruncate n).ring k = if k = n then { s.ring n with rx := none } else s.ring k := by
  cases hx : (s.ring n).rx with
  | none =>
    rw [State.rxTruncate_of_none hx, ← hx]
    split
    · next hk => rw [hk]
    · rfl
  | some x =>
    rw [State.rxTruncate_of_some hx, State.finish_ring, State.countS_ring, State.countS_ring]
    exact State.ring_upRing s n k (fun r => { r with rx := none })

theorem State.rxTruncate_raised (s : State) (n : Nat) : s.Raised (s.rxTruncate n) := by
  cases hx : (s.ring n).rx with
  | none => rw [State.rxTruncate_of_none hx]; exact (State.Quiet.refl s).raised
  | some x =>
    rw [State.rxTruncate_of_some hx]
    exact State.finish_raised _ (State.countS_raised _ _ _ (State.countS_raised _ _ _
      (State.emit_raised _ (State.upRing_raised _ _ (State.Quiet.refl s).raised))))

/-! ### What settles a ring's descriptors moves no register of a ring and no fetch index -/

/-- The registers that no fault moves, those of rings among them, and every fetch index are as they were. -/
structure State.Unfetched (s t : State) : Prop where
  regs : ∀ f : Fld, f.id ∉ faultFields → ∀ i, t.getF f i = s.getF f i
  fetch : ∀ k, (t.ring k).fetch = (s.ring k).fetch

theorem State.Unfetched.refl (s : State) : s.Unfetched s := ⟨fun _ _ _ => rfl, fun _ => rfl⟩

theorem State.Unfetched.trans {s t u : State} (h : s.Unfetched t) (k : t.Unfetched u) : s.Unfetched u :=
  ⟨fun f hf i => (k.regs f hf i).trans (h.regs f hf i), fun n => (k.fetch n).trans (h.fetch n)⟩

theorem reportFields_fault : ∀ x ∈ reportFields, x ∈ faultFields := by decide

theorem State.Still.unfetched {s t : State} (h : s.Still t) : s.Unfetched t :=
  ⟨fun f hf i => h.regs f (fun hr => hf (reportFields_fault _ hr)) i, fun n => (h.rings n).1⟩

theorem State.Ringed.unfetched {s t : State} {n : Nat} (h : s.Ringed t n) : s.Unfetched t := h.still.unfetched

theorem State.upRing_unfetched (s : State) (n : Nat) (f : Ring → Ring) (hf : ∀ r, (f r).fetch = r.fetch) :
    s.Unfetched (s.upRing n f) := by
  refine ⟨fun _ _ _ => rfl, fun k => ?_⟩
  rw [State.ring_upRing]
  split
  · next hk => rw [hk, hf]
  · rfl

theorem State.finish_unfetched (s : State) (f : Frame) : s.Unfetched (s.finish f) :=
  ⟨(State.finish_raised f (State.Quiet.refl s).raised).regs, fun k => congrArg Ring.fetch (s.finish_ring f k)⟩

theorem State.rxTruncate_unfetched (s : State) (n : Nat) : s.Unfetched (s.rxTruncate n) := by
  refine ⟨(s.rxTruncate_raised n).regs, fun k => ?_⟩
  rw [State.rxTruncate_ring]
  split
  · next hk => rw [hk]
  · rfl

/-- Completions of descriptors of ring `n` show in that ring only. -/
theorem State.foldl_complete_ringed (n : Nat) (d0 d3 : Desc → Nat) (l : List Desc) :
    ∀ s : State, s.Ringed (l.foldl (fun s d => s.complete n (d0 d) 0 0 (d3 d)) s) n := by
  induction l with
  | nil => exact fun s => (State.Quiet.refl s).ringed n
  | cons d l ih => exact fun s => (s.complete_law n _ _ _ _).1.trans (ih _)

/-! ### ENABLE from 1 to 0 (R60) -/

/-- Ring `n` with ENABLE 0 and STOPPING, before what it holds is settled (R60). -/
def State.stopping (s : State) (n : Nat) : State :=
  (s.setF HIF_RING_CFG.ENABLE 0 n).setF HIF_RING_STAT.STATE 2 n

theorem State.stopping_regs (s : State) (n : Nat) :
    (s.stopping n).getF HIF_RING_CFG.ENABLE n = 0 ∧ (s.stopping n).getF HIF_RING_STAT.STATE n = 2 := by
  rw [State.stopping, State.getF_setF_other _ _ _ _ _ _ (.inl (by decide)), State.getF_setF_same, State.getF_setF_same]
  exact ⟨rfl, rfl⟩

/-- What a stopping ring holds is settled by its type: no ring register and no fetch index moves. -/
theorem State.disableRing_unfetched {s : State} {n : Nat} (h : s.isF HIF_RING_CFG.ENABLE n = true) :
    (s.stopping n).Unfetched (s.disableRing n) := by
  unfold State.disableRing
  rw [if_neg (by simp [h])]
  extract_lets u l tail v w l'
  have hu : s.stopping n = u := rfl
  rw [hu]
  split
  · exact (u.upRing_unfetched n (fun r => { r with fetched := l.take (l.length - tail.length) }) (fun _ => rfl)).trans
      (State.txRefuse_ringed n tail stFenced v).unfetched
  · exact .refl u
  · exact .refl u
  · exact .refl u
  · exact ((u.rxTruncate_unfetched n).trans
      (State.upRing_unfetched _ n (fun r => { r with fetched := [] }) (fun _ => rfl))).trans
      (State.foldl_complete_ringed n _ _ _ _).unfetched

/-! ### The end of a stop (R60, R53) -/

/-- A stopping ring with nothing left to complete is STOPPED and holds nothing. -/
theorem State.stopRing_stops {s : State} {n : Nat} (h : s.ringState n = 2)
    (hd : s.descRing n = false ∨ (s.ring n).cons = (s.ring n).fetch) :
    (s.stopRing n).getF HIF_RING_STAT.STATE n = 0 ∧ (s.stopRing n).ring n = { s.ring n with hold := [], rx := none } := by
  have hc : (s.ringState n == 2 && (!s.descRing n || (s.ring n).cons == (s.ring n).fetch)) = true := by
    rcases hd with hd | hd <;> simp [h, hd]
  have hst : (s.setF HIF_RING_STAT.STATE 0 n).getF HIF_RING_STAT.STATE n = 0 := State.getF_setF_same _ _ _ _
  unfold State.stopRing
  dsimp only
  rw [if_pos hc]
  split <;> exact ⟨hst, State.ring_upRing_same (s.setF HIF_RING_STAT.STATE 0 n) n
    (fun r => { r with hold := [], rx := none })⟩

end Sys2Proof.Machine

namespace Sys2Proof.Proofs

open Sys2Proof.Machine

/-- Settles O19: each of the three rows by what it leaves in the ring and in its registers. -/
theorem ringsEnableStopAndReportStopped : Obligations.RingsEnableStopAndReportStopped := by
  unfold Obligations.RingsEnableStopAndReportStopped
  refine ⟨fun p n s hm he => ?_, fun p n s he => ?_, fun p n s hm he => ?_, fun p n s he => ?_, fun n s hs hd => ?_⟩
  · have hex : exec (.ringEnable p n) s = .next (s.enableRing n) := congrArg Host.Outcome.next (if_pos hm)
    obtain ⟨hen, hst, hre⟩ := State.enableRing_regs he
    have hring : ∀ k, (s.enableRing n).ring k = (s.ringAnew n).ring k := fun k => by rw [State.enableRing_eq he]; simp
    refine ⟨_, hex, hen, ?_, fun k hk => ?_, fun hc => ?_, fun hc => ?_, (State.Kept.of_exec hex).only⟩
    · rw [hring, State.ringAnew_ring, if_pos rfl]
    · rw [hring, State.ringAnew_ring, if_neg hk]
    · rw [hst, hre]; simp [hc]
    · rw [hst, hre]; simp [hc]
  · refine congrArg Host.Outcome.next ?_
    rw [State.enableRing, he, if_pos rfl, ite_self]
  · obtain ⟨hen, hst⟩ := s.stopping_regs n
    have hk := State.disableRing_unfetched he
    exact ⟨_, congrArg Host.Outcome.next (if_pos hm), (hk.regs _ (by decide) n).trans hen,
      (hk.regs _ (by decide) n).trans hst, hk.fetch n⟩
  · refine congrArg Host.Outcome.next ?_
    rw [State.disableRing, he]
    exact ite_self s
  · have hex : exec (.ringStopped n) s = .next (s.stopRing n) := rfl
    obtain ⟨hst, hring⟩ := State.stopRing_stops hs hd
    exact ⟨_, hex, hst, congrArg Ring.hold hring, congrArg Ring.rx hring, (State.Kept.of_exec hex).only⟩

end Sys2Proof.Proofs
end

section
/-!
PROOF. Function level resets and the PCI Express link: what rings hold is discarded without completions (R53, R54, R420,
R546).
-/

namespace Sys2Proof.Machine

/-! ### A ring discarded (R53, R54) -/

/-- The frame in progress of ring `n` ends, and firmware's commands of the ring complete nowhere (R53, R54, R61). -/
def State.abandonRing (s : State) (n : Nat) : State :=
  State.orphanCmds (match (s.ring n).rx with | some x => s.finish x.frame | none => s) n

theorem State.discardRing_eq (s : State) (n : Nat) : s.discardRing n = { s.abandonRing n with
    rings := Tab.set (s.abandonRing n).rings n
      { era := ((s.abandonRing n).ring n).era + 1, sbAt := ((s.abandonRing n).ring n).sbAt } } := rfl

theorem State.abandonRing_ring (s : State) (n k : Nat) : (s.abandonRing n).ring k = s.ring k := by
  unfold State.abandonRing
  split
  · exact s.finish_ring _ k
  · rfl

theorem State.abandonRing_raised (s : State) (n : Nat) : s.Raised (s.abandonRing n) := by
  have orphan : ∀ t : State, s.Raised t → s.Raised (t.orphanCmds n) := fun t h =>
    ⟨h.regs, h.first, h.latched, h.fenced, h.time, h.guard, h.epochs⟩
  refine orphan _ ?_
  split
  · exact State.finish_raised _ (State.Quiet.refl s).raised
  · exact (State.Quiet.refl s).raised

/-- What stays of a ring that is discarded: the clock of its status block, and the count of its eras. -/
theorem State.discardRing_ring (s : State) (n k : Nat) : (s.discardRing n).ring k =
    if k = n then { era := (s.ring n).era + 1, sbAt := (s.ring n).sbAt } else s.ring k := by
  rw [s.discardRing_eq]
  refine (Tab.getD_set _ _ _ _ _).trans ?_
  simp only [State.abandonRing_ring]
  split
  · rfl
  · exact s.abandonRing_ring n k

theorem State.discardRing_getF (s : State) (n : Nat) {f : Fld} (hf : f.id ∉ faultFields) (i : Nat) :
    (s.discardRing n).getF f i = s.getF f i := (s.abandonRing_raised n).regs f hf i

/-! ### Rings that stop (R53, R54, R420) -/

/-- Ring `n` discarded, with ENABLE 0 and STATE `st`. -/
def State.haltRing (st : Nat) (s : State) (n : Nat) : State :=
  ((s.discardRing n).setF HIF_RING_CFG.ENABLE 0 n).setF HIF_RING_STAT.STATE st n

theorem State.haltRing_enable (st : Nat) (s : State) (n i : Nat) :
    (s.haltRing st n).getF HIF_RING_CFG.ENABLE i = if i % 65536 = n % 65536 then 0 else s.getF HIF_RING_CFG.ENABLE i := by
  rw [State.haltRing, State.getF_setF_other _ _ _ _ _ _ (.inl (by decide))]
  split
  · next h => rw [← State.getF_mod, h, State.getF_mod, State.getF_setF_same, Nat.zero_mod]
  · next h => rw [State.getF_setF_other _ _ _ _ _ _ (.inr h), State.discardRing_getF _ _ (by decide)]

theorem State.haltRing_state (st : Nat) (s : State) (n i : Nat) : (s.haltRing st n).getF HIF_RING_STAT.STATE i =
    if i % 65536 = n % 65536 then st % 2 ^ HIF_RING_STAT.STATE.width else s.getF HIF_RING_STAT.STATE i := by
  rw [State.haltRing]
  split
  · next h => rw [← State.getF_mod, h, State.getF_mod, State.getF_setF_same]
  · next h =>
    rw [State.getF_setF_other _ _ _ _ _ _ (.inr h), State.getF_setF_other _ _ _ _ _ _ (.inl (by decide)),
      State.discardRing_getF _ _ (by decide)]

theorem State.haltRing_ring (st : Nat) (s : State) (n k : Nat) : (s.haltRing st n).ring k =
    if k = n then { era := (s.ring n).era + 1, sbAt := (s.ring n).sbAt } else s.ring k :=
  s.discardRing_ring n k

/-- The rings of a list stop, one after the other. -/
def State.haltRings (st : Nat) (s : State) (l : List Nat) : State := l.foldl (State.haltRing st) s

/-- A register that each round of a run writes in one copy holds the value in every copy written. -/
theorem State.foldl_getF {f : Fld} {v : Nat} (g : State → Nat → State)
    (hg : ∀ s n i, (g s n).getF f i = if i % 65536 = n % 65536 then v else s.getF f i) (l : List Nat) :
    ∀ (s : State) (i : Nat), (l.foldl g s).getF f i = if ∃ n ∈ l, i % 65536 = n % 65536 then v else s.getF f i := by
  induction l with
  | nil => exact fun s i => by simp
  | cons a l ih =>
    intro s i
    rw [List.foldl_cons, ih, hg]
    by_cases ha : i % 65536 = a % 65536 <;> simp [ha]

section
variable (st : Nat) (s : State) (l : List Nat)

theorem State.haltRings_enable (i : Nat) : (s.haltRings st l).getF HIF_RING_CFG.ENABLE i =
    if ∃ n ∈ l, i % 65536 = n % 65536 then 0 else s.getF HIF_RING_CFG.ENABLE i :=
  State.foldl_getF _ (State.haltRing_enable st) l s i

theorem State.haltRings_state (i : Nat) : (s.haltRings st l).getF HIF_RING_STAT.STATE i =
    if ∃ n ∈ l, i % 65536 = n % 65536 then st % 2 ^ HIF_RING_STAT.STATE.width else s.getF HIF_RING_STAT.STATE i :=
  State.foldl_getF _ (State.haltRing_state st) l s i

theorem State.haltRings_kept : s.Kept [.regs, .rings, .ports, .epochs, .acct, .fw] (s.haltRings st l) :=
  State.Kept.foldl _ l (.refl _ s) (fun t n h => State.setF_kept _ _ _ (by decide) (State.setF_kept _ _ _ (by decide)
    (State.discardRing_kept n (by decide) h)))

end

theorem State.haltRings_ring_other (st : Nat) (l : List Nat) {k : Nat} (hk : k ∉ l) :
    ∀ s : State, (s.haltRings st l).ring k = s.ring k := by
  induction l with
  | nil => exact fun s => rfl
  | cons a l ih =>
    intro s
    obtain ⟨ha, hl⟩ := not_or.1 (mt List.mem_cons.2 hk)
    exact (ih hl _).trans ((s.haltRing_ring st a k).trans (if_neg ha))

/-- A ring that has stopped so holds nothing. -/
theorem State.haltRings_ring (st : Nat) (l : List Nat) {k : Nat} (hk : k ∈ l) :
    ∀ s : State, ∃ e, (s.haltRings st l).ring k = { era := e, sbAt := (s.ring k).sbAt } := by
  induction l with
  | nil => exact absurd hk (List.not_mem_nil)
  | cons a l ih =>
    intro s
    by_cases hl : k ∈ l
    · obtain ⟨e, he⟩ := ih hl (s.haltRing st a)
      refine ⟨e, he.trans ?_⟩
      rw [State.haltRing_ring]
      split
      · next h => rw [h]
      · rfl
    · obtain rfl : k = a := (List.mem_cons.1 hk).resolve_right hl
      exact ⟨_, (State.haltRings_ring_other st l hl _).trans ((s.haltRing_ring st k k).trans (if_pos rfl))⟩

/-- ENABLE and STATE of a ring that has stopped so. -/
theorem State.haltRings_regs (st : Nat) (s : State) {l : List Nat} {k : Nat} (hk : k ∈ l) :
    (s.haltRings st l).getF HIF_RING_CFG.ENABLE k = 0 ∧
      (s.haltRings st l).getF HIF_RING_STAT.STATE k = st % 2 ^ HIF_RING_STAT.STATE.width := by
  rw [State.haltRings_enable, State.haltRings_state, if_pos ⟨k, hk, rfl⟩, if_pos ⟨k, hk, rfl⟩]
  exact ⟨rfl, rfl⟩

/-! ### A function level reset of a VF (R53) -/

/-- The rings of VF `k` that are not STOPPED. -/
def State.vfRings (s : State) (k : Nat) : List Nat :=
  (Tab.keys s.rings).filter (fun n => s.ringFn n == k && s.ringState n != 0)

theorem State.resetVf_eq (s : State) (k : Nat) : s.resetVf k =
    (s.haltRings 2 (s.vfRings k)).upFn k (fun x => { x with scanning := false, resetting := !(s.vfRings k).isEmpty }) :=
  rfl

theorem State.mem_vfRings {s : State} {k n : Nat} :
    n ∈ s.vfRings k ↔ n ∈ Tab.keys s.rings ∧ s.ringFn n = k ∧ s.ringState n ≠ 0 := by
  simp [State.vfRings]

/-- What leaves the functions alone leaves every function alone. -/
theorem State.Kept.fn {l : List Part} {s t : State} (h : s.Kept l t) (hf : Part.fns ∉ l) (k : Nat) : t.fn k = s.fn k := by
  have e : t.fns = s.fns := h.only .fns hf
  simp only [State.fn, e]

theorem State.resetVf_fn (s : State) (k : Nat) :
    ((s.resetVf k).fn k).scanning = false ∧ ((s.resetVf k).fn k).grant = (s.fn k).grant := by
  rw [State.resetVf_eq, State.fn_upFn_same, (s.haltRings_kept 2 (s.vfRings k)).fn (by decide)]
  exact ⟨rfl, rfl⟩

/-- A ring that shares no register with a ring of VF `k` is as it was. -/
theorem State.resetVf_other (s : State) {k n : Nat} (h : ∀ m ∈ s.vfRings k, n % 65536 ≠ m % 65536) :
    (s.resetVf k).ring n = s.ring n ∧ (s.resetVf k).getF HIF_RING_STAT.STATE n = s.getF HIF_RING_STAT.STATE n := by
  refine ⟨State.haltRings_ring_other 2 _ (fun hn => h n hn rfl) s, ?_⟩
  refine (s.haltRings_state 2 (s.vfRings k) n).trans (if_neg ?_)
  rintro ⟨m, hm, e⟩
  exact h m hm e

/-! ### Resets of the whole host interface (R54, R546) -/

/-- `stopRings` halts every ring with STATE 0, and ends the functions' scans. -/
theorem State.stopRings_ring (s : State) {n : Nat} (hn : n ∈ Tab.keys s.rings) :
    ∃ e, s.stopRings.ring n = { era := e, sbAt := (s.ring n).sbAt } := State.haltRings_ring 0 _ hn s

theorem State.stopRings_regs (s : State) {n : Nat} (hn : n ∈ Tab.keys s.rings) :
    s.stopRings.getF HIF_RING_CFG.ENABLE n = 0 ∧ s.stopRings.getF HIF_RING_STAT.STATE n = 0 := s.haltRings_regs 0 hn

/-- A key that the filter takes out reads as the default. -/
theorem Tab.getD_filter_out {α : Type} {p : Nat × α → Bool} {k : Nat} (h : ∀ v, p (k, v) = false) (t : Tab α) (d : α) :
    Tab.getD (t.filter p) k d = d := by
  have hn : Tab.get? (t.filter p) k = none := by
    cases hg : Tab.get? (t.filter p) k with
    | none => rfl
    | some v => exact absurd (List.mem_filter.1 (Tab.get?_mem _ _ _ hg)).2 (by simp [h v])
  rw [Tab.getD, hn]

/-- The host interface's register fields are those numbered from 1000 to 1999. -/
theorem State.resetHif_getF (s : State) {f : Fld} (h1 : 1000 ≤ f.id) (h2 : f.id < 2000) (i : Nat) :
    s.resetHif.getF f i = f.resetAt (i % 65536) := by
  refine Tab.getD_filter_out (fun v => ?_) s.regs _
  simp only [Bool.not_eq_eq_eq_not, Bool.not_false, decide_eq_true_eq]
  omega

theorem State.resetPf_getF (s : State) {f : Fld} (h1 : 1000 ≤ f.id) (h2 : f.id < 2000) (i : Nat) :
    s.resetPf.getF f i = f.resetAt (i % 65536) := s.stopRings.resetHif_getF h1 h2 i

theorem State.resetPf_boot (s : State) : s.resetPf.boot = s.boot :=
  (State.resetPf_kept (fun _ h => h) (.refl _ s)).only .boot (by decide)

end Sys2Proof.Machine

namespace Sys2Proof.Proofs

open Sys2Proof.Machine

/-- Settles O23: the rings that a reset or a lost link concerns stop one after the other, each without a completion. -/
theorem resetsAndLinkChangesStopTheRings : Obligations.ResetsAndLinkChangesStopTheRings := by
  unfold Obligations.ResetsAndLinkChangesStopTheRings
  refine ⟨fun k s hu hk => ?_, fun s hu => ?_, fun s => ?_, fun s => rfl, fun s hh hp => ?_, fun s hl => ?_⟩
  · obtain ⟨hscan, hgrant⟩ := s.resetVf_fn k
    refine ⟨_, congrArg Host.Outcome.next (if_pos (by simp [hu, hk])), hscan, hgrant, fun n hn _ hf hs => ?_,
      fun n hn hf hkeys => s.resetVf_other (fun m hm => ?_)⟩
    · have hm : n ∈ s.vfRings k := State.mem_vfRings.2 ⟨hn, hf, hs⟩
      obtain ⟨hen, hst⟩ := s.haltRings_regs 2 hm
      exact ⟨hen, hst, State.haltRings_ring 2 _ hm s⟩
    · obtain ⟨hmk, hmf, -⟩ := State.mem_vfRings.1 hm
      have hm256 := hkeys m hmk
      intro e
      obtain rfl : n = m := by omega
      exact hf hmf
  · exact ⟨s.resetPf, congrArg Host.Outcome.next (if_pos hu), rfl, fun f h1 h2 i => s.resetPf_getF h1 h2 i,
      fun n hn => s.stopRings_ring hn, s.resetPf_boot⟩
  · refine ⟨_, rfl, rfl, fun f h1 h2 i => s.resetPf_getF h1 h2 i, fun n hn => s.stopRings_ring hn, ?_⟩
    rw [← s.resetPf_boot]
  · exact congrArg Host.Outcome.next (if_pos (by simp [hh, hp]))
  · have hr : s.stopRings.Raised s.stopRings.countDrops := State.countDrops_raised (State.Quiet.refl _).raised
    have hk : s.stopRings.Kept [.regs, .free] s.stopRings.countDrops := State.countDrops_kept (fun _ h => h) (.refl _ _)
    refine ⟨_, congrArg Host.Outcome.next (if_pos hl), ?_, fun n hn _ => ?_⟩
    · have e : s.stopRings.countDrops.boot = s.boot :=
        (hk.only .boot (by decide)).trans ((s.haltRings_kept 0 (Tab.keys s.rings)).only .boot (by decide))
      exact congrArg (fun b : Boot => { b with linkUp := false }) e
    · obtain ⟨hen, hst⟩ := s.stopRings_regs hn
      obtain ⟨e, he⟩ := s.stopRings_ring hn
      exact ⟨(hr.regs _ (by decide) n).trans hen, (hr.regs _ (by decide) n).trans hst, e,
        (hk.ring (by decide) n).trans he⟩

end Sys2Proof.Proofs
end

section
/-!
PROOF. TBL_WRITE, TBL_BULK and TBL_DELETE: one shadow bank changes, or a STATUS says why not (R106, R163, R164, R184, R185,
R588, R589).
-/

namespace Sys2Proof.Machine

/-! ### A command's answer after reports (R83, R87) -/

/-- A command of the PF's that may run and whose own effect, after reports, is `u` and a completion, answers from `u`. -/
theorem State.command_answers {s u : State} {op : Nat} {vfOk : Bool} {c : Cmd} {run : State → State} {st r0 r1 : Nat}
    (h : s.Ready op c) (k : ∀ v, s.Quiet v → ∃ w, u.Quiet w ∧ run v = w.done c st r0 r1) :
    u.Answered (s.command op vfOk c run) c st r0 r1 := by
  refine State.command_elim (fun t => u.Answered t c st r0 r1) h (fun v hv => ?_)
  obtain ⟨w, hw, e⟩ := k v hv
  exact e ▸ hw.answered (w.done_answered c st r0 r1 0 h.ring)

/-- The same of a command that changes nothing but reports. -/
theorem State.command_refused {s : State} {op : Nat} {vfOk : Bool} {c : Cmd} {run : State → State} {st r0 r1 : Nat}
    (h : s.Ready op c) (k : ∀ v, s.Quiet v → run v = v.done c st r0 r1) :
    s.Answered (s.command op vfOk c run) c st r0 r1 := State.command_answers h (fun v hv => ⟨v, hv, k v hv⟩)

/-! ### What stands in a command's way, after reports -/

section
variable {s v : State} (h : s.Quiet v)
include h

theorem State.Quiet.tblFenced (t : Nat) : v.tblFenced t = s.tblFenced t := by
  simp only [State.tblFenced, State.fence, h.still.fences]

theorem State.Quiet.tblBusy (t : Nat) : v.tblBusy t = s.tblBusy t := by
  simp only [State.tblBusy, h.still.epochs, h.still.tables]

theorem State.Quiet.tblBar (t : Nat) : v.tblBar t = s.tblBar t := by
  simp only [State.tblBar, h.tblFenced, h.tblBusy]

theorem State.Quiet.shadow (t : Nat) : v.shadow t = s.shadow t := by simp only [State.shadow, h.still.tables]

theorem State.Quiet.active (t : Nat) : v.active t = s.active t := by simp only [State.active, h.still.tables]

theorem State.Quiet.tblRoom (t : Nat) (w : List Word) : v.tblRoom t w = s.tblRoom t w := by
  simp only [State.tblRoom, State.lpmUnits, h.shadow]
  rfl

theorem State.Quiet.tblIndex (t : Nat) (w : List Word) : v.tblIndex t w = s.tblIndex t w := by
  simp only [State.tblIndex, h.shadow]

/-- The same new shadow bank on both sides of reports. -/
theorem State.Quiet.setShadow (t : Nat) (l : List Rec) : (s.setShadow t l).Quiet (v.setShadow t l) := by
  rw [State.setShadow, State.setShadow, h.still.tables]
  exact h.put_tables _

end

/-! ### One shadow bank changes (R106, R164) -/

/-- `u` is `s` but for the shadow bank of table `t`. -/
structure State.ShadowOnly (t : Nat) (s u : State) : Prop where
  rest : u = { s with tables := u.tables }
  banks : u.tables = { s.tables with shd := u.tables.shd }
  others : ∀ k, k ≠ t → u.shadow k = s.shadow k

theorem State.ShadowOnly.refl (t : Nat) (s : State) : State.ShadowOnly t s s := ⟨rfl, rfl, fun _ _ => rfl⟩

theorem State.ShadowOnly.trans {t : Nat} {s u w : State} (h : State.ShadowOnly t s u) (k : State.ShadowOnly t u w) :
    State.ShadowOnly t s w := by
  refine ⟨?_, ?_, fun j hj => (k.others j hj).trans (h.others j hj)⟩
  · rw [k.rest, h.rest]
  · rw [k.banks, h.banks]

theorem State.shadow_setShadow (s : State) (t k : Nat) (l : List Rec) :
    (s.setShadow t l).shadow k = if k = t then l else s.shadow k := Tab.getD_set _ _ _ _ _

theorem State.setShadow_shadowOnly (s : State) (t : Nat) (l : List Rec) : State.ShadowOnly t s (s.setShadow t l) :=
  ⟨rfl, rfl, fun k hk => (s.shadow_setShadow t k l).trans (if_neg hk)⟩

/-! ### One entry written (R163, R173) -/

/-- The records of table `t` whose slots of an ACL TCAM the record `w` leaves alone, that with its own index among them. -/
def aclSpared (t : Nat) (w : List Word) (l : List Rec) : List Rec :=
  if 4 ≤ t ∧ t < 12 then
    l.filter (fun x => aclIndex x.words == aclIndex w || (aclSlots x.words).all (fun i => !(aclSlots w).contains i))
  else l

/-- A bank with the record `w` in the place of the one with its key. -/
def replaceRec (t : Nat) (w : List Word) (l : List Rec) : List Rec :=
  aclSpared t w (l.map (fun x => if recKey t x.words = recKey t w then { x with words := w } else x))

/-- A bank with the record `w` as a new entry of index `i`. -/
def addRec (t : Nat) (w : List Word) (i : Nat) (l : List Rec) : List Rec :=
  (if 4 ≤ t ∧ t < 12 then l.filter (fun x => (aclSlots x.words).all (fun i => !(aclSlots w).contains i)) else l) ++
    [{ words := w, idx := i }]

section
variable {s : State} {t : Nat} {w : List Word}

theorem State.tblPut_bad (h : recOk t w = false) : s.tblPut t w = (s, stBadArg, 0) := by
  simp [State.tblPut, h]

theorem State.tblPut_replace (h : recOk t w = true) {r : Rec} (hf : findKey t (recKey t w) (s.shadow t) = some r) :
    s.tblPut t w = (s.setShadow t (replaceRec t w (s.shadow t)), stOk, r.idx) := by
  rw [State.tblPut, h]
  simp only [hf]
  rfl

theorem State.tblPut_full (h : recOk t w = true) (hf : findKey t (recKey t w) (s.shadow t) = none)
    (hr : s.tblRoom t w = false) : s.tblPut t w = (s, stNoSpace, 0) := by
  simp [State.tblPut, h, hf, hr]

theorem State.tblPut_add (h : recOk t w = true) (hf : findKey t (recKey t w) (s.shadow t) = none)
    (hr : s.tblRoom t w = true) :
    s.tblPut t w = (s.setShadow t (addRec t w (s.tblIndex t w) (s.shadow t)), stOk, s.tblIndex t w) := by
  rw [State.tblPut, h]
  simp only [hf, hr]
  rfl

end

/-- Whatever an entry written answers, only its shadow bank changes. -/
theorem State.tblPut_shadowOnly (s : State) (t : Nat) (w : List Word) : State.ShadowOnly t s (s.tblPut t w).1 := by
  cases hk : recOk t w with
  | false => rw [State.tblPut_bad hk]; exact .refl t s
  | true =>
    cases hf : findKey t (recKey t w) (s.shadow t) with
    | some r => rw [State.tblPut_replace hk hf]; exact s.setShadow_shadowOnly t _
    | none =>
      cases hr : s.tblRoom t w with
      | false => rw [State.tblPut_full hk hf hr]; exact .refl t s
      | true => rw [State.tblPut_add hk hf hr]; exact s.setShadow_shadowOnly t _

/-- An entry written after reports: the same answer, and the same bank. -/
theorem State.Quiet.tblPut {s v : State} (h : s.Quiet v) (t : Nat) (w : List Word) :
    (s.tblPut t w).1.Quiet (v.tblPut t w).1 ∧ (v.tblPut t w).2 = (s.tblPut t w).2 := by
  cases hk : recOk t w with
  | false => rw [State.tblPut_bad hk, State.tblPut_bad hk]; exact ⟨h, rfl⟩
  | true =>
    cases hf : findKey t (recKey t w) (s.shadow t) with
    | some r =>
      rw [State.tblPut_replace hk hf, State.tblPut_replace hk ((congrArg _ (h.shadow t)).trans hf), h.shadow]
      exact ⟨h.setShadow t _, rfl⟩
    | none =>
      have hf' : findKey t (recKey t w) (v.shadow t) = none := (congrArg _ (h.shadow t)).trans hf
      cases hr : s.tblRoom t w with
      | false => rw [State.tblPut_full hk hf hr, State.tblPut_full hk hf' ((h.tblRoom t w).trans hr)]; exact ⟨h, rfl⟩
      | true =>
        rw [State.tblPut_add hk hf hr, State.tblPut_add hk hf' ((h.tblRoom t w).trans hr), h.shadow, h.tblIndex]
        exact ⟨h.setShadow t _, rfl⟩

/-! ### The entry written is found under its key (R163) -/

theorem findKey_aclSpared (t : Nat) (w : List Word) (l : List Rec) :
    findKey t (recKey t w) (aclSpared t w l) = findKey t (recKey t w) l := by
  unfold aclSpared
  split
  · next ht =>
    have hidx : ∀ x : Rec, (recKey t x.words == recKey t w) = true → aclIndex x.words = aclIndex w := fun x hx => by
      have h0 : t ≠ 0 ∧ t ≠ 1 ∧ t ≠ 2 ∧ t ≠ 3 := by omega
      simpa [recKey, h0, ht.2] using hx
    rw [findKey, findKey, List.find?_filter]
    congr 1
    funext x
    cases hx : recKey t x.words == recKey t w with
    | false => simp
    | true => simp [hidx x hx]
  · rfl

theorem findKey_replaceRec {t : Nat} {w : List Word} {l : List Rec} {r : Rec}
    (h : findKey t (recKey t w) l = some r) :
    findKey t (recKey t w) (replaceRec t w l) = some { words := w, idx := r.idx } := by
  have hkey : recKey t r.words = recKey t w := by simpa using List.find?_some h
  rw [replaceRec, findKey_aclSpared, findKey, List.find?_map]
  have hp : ((fun r : Rec => recKey t r.words == recKey t w) ∘
      fun x => if recKey t x.words = recKey t w then { x with words := w } else x) =
      fun r => recKey t r.words == recKey t w := by
    funext x
    by_cases hx : recKey t x.words = recKey t w <;> simp [hx]
  rw [hp]
  refine (congrArg _ h).trans ?_
  simp [hkey]

theorem findKey_addRec {t : Nat} {w : List Word} {l : List Rec} (i : Nat) (h : findKey t (recKey t w) l = none) :
    findKey t (recKey t w) (addRec t w i l) = some { words := w, idx := i } := by
  have hn : ∀ p : Rec → Bool, findKey t (recKey t w) (l.filter p) = none := fun p =>
    List.find?_eq_none.2 (fun x hx => List.find?_eq_none.1 h x (List.mem_filter.1 hx).1)
  rw [addRec, findKey, List.find?_append]
  split
  · rw [show List.find? _ (l.filter _) = none from hn _]
    simp
  · rw [show List.find? _ l = none from h]
    simp

/-- A record that its table takes, with its key there or with room, is written and found (R163). -/
theorem State.tblPut_puts {s : State} {t : Nat} {w : List Word} (h : recOk t w = true)
    (hr : findKey t (recKey t w) (s.shadow t) ≠ none ∨ s.tblRoom t w = true) :
    (s.tblPut t w).2.1 = stOk ∧ findKey t (recKey t w) ((s.tblPut t w).1.shadow t) =
      some { words := w, idx := (s.tblPut t w).2.2 } := by
  cases hf : findKey t (recKey t w) (s.shadow t) with
  | some r =>
    rw [State.tblPut_replace h hf]
    refine ⟨rfl, ?_⟩
    rw [State.shadow_setShadow, if_pos rfl]
    exact findKey_replaceRec hf
  | none =>
    rw [State.tblPut_add h hf (hr.resolve_left (fun hne => hne hf))]
    refine ⟨rfl, ?_⟩
    rw [State.shadow_setShadow, if_pos rfl]
    exact findKey_addRec _ hf

/-! ### Entries written one after the other (R589) -/

theorem State.tblPutAll_shadowOnly (t : Nat) (l : List (List Word)) :
    ∀ (s : State) (n : Nat), State.ShadowOnly t s (s.tblPutAll t l n).1 := by
  induction l with
  | nil => exact fun s n => .refl t s
  | cons w l ih =>
    intro s n
    rw [State.tblPutAll]
    split
    · exact (s.tblPut_shadowOnly t w).trans (ih _ _)
    · exact .refl t s

/-- Where all of them went in, each is counted. -/
theorem State.tblPutAll_count (t : Nat) (l : List (List Word)) : ∀ (s : State) (n : Nat),
    (s.tblPutAll t l n).2.1 = stOk → (s.tblPutAll t l n).2.2 = n + l.length := by
  induction l with
  | nil => exact fun s n _ => rfl
  | cons w l ih =>
    intro s n
    rw [State.tblPutAll]
    split
    · intro h
      rw [ih _ _ h, List.length_cons]
      omega
    · next hne => exact fun h => absurd h hne

theorem State.Quiet.tblPutAll (t : Nat) (l : List (List Word)) : ∀ {s v : State} (_ : s.Quiet v) (n : Nat),
    (s.tblPutAll t l n).1.Quiet (v.tblPutAll t l n).1 ∧ (v.tblPutAll t l n).2 = (s.tblPutAll t l n).2 := by
  induction l with
  | nil => exact fun h n => ⟨h, rfl⟩
  | cons w l ih =>
    intro s v h n
    obtain ⟨hq, e⟩ := h.tblPut t w
    rw [State.tblPutAll, State.tblPutAll]
    rw [e]
    split
    · exact ih hq (n + 1)
    · exact ⟨h, rfl⟩

/-! ### An entry removed (R588) -/

theorem findKey_filter_ne (t : Nat) (k : List Nat) (l : List Rec) :
    findKey t k (l.filter (fun x => recKey t x.words != k)) = none := by
  refine List.find?_eq_none.2 (fun x hx => ?_)
  simpa using (List.mem_filter.1 hx).2

/-- The shadow bank of table `t` without the entry of key `k`, where there was one. -/
def State.tblDrop (s : State) (t : Nat) (k : List Nat) : State :=
  match findKey t k (s.shadow t) with
  | some _ => s.setShadow t ((s.shadow t).filter (fun x => recKey t x.words != k))
  | none => s

theorem State.tblDrop_shadowOnly (s : State) (t : Nat) (k : List Nat) : State.ShadowOnly t s (s.tblDrop t k) := by
  unfold State.tblDrop
  split
  · exact s.setShadow_shadowOnly t _
  · exact .refl t s

theorem State.tblDrop_find (s : State) (t : Nat) (k : List Nat) : findKey t k ((s.tblDrop t k).shadow t) = none := by
  unfold State.tblDrop
  split
  · rw [State.shadow_setShadow, if_pos rfl]
    exact findKey_filter_ne t k _
  · next h => exact h

end Sys2Proof.Machine

namespace Sys2Proof.Proofs

open Sys2Proof.Machine

/-- Settles O26: each command by the entries that it puts into the shadow bank, or takes out. -/
theorem tableWritesGoToTheShadowBank : Obligations.TableWritesGoToTheShadowBank := by
  unfold Obligations.TableWritesGoToTheShadowBank
  refine ⟨fun c s hc ht hfit hok => ⟨fun hb => ⟨_, rfl, ?_⟩, fun hb => ⟨fun hr => ?_, fun hf hr => ⟨_, rfl, ?_⟩⟩⟩,
    fun c s hc hbad => ⟨_, rfl, ?_⟩, fun c l s hc ht hi h0 h4 hl hb hall => ?_, fun c s hc ht hfit hb => ?_⟩
  · refine State.command_refused hc (fun v hv => ?_)
    simp [hfit, hok, hv.tblBar, hb, Nat.not_lt.2 ht]
  · obtain ⟨hst, hfind⟩ := State.tblPut_puts hok hr
    have hso := s.tblPut_shadowOnly c.target (cmdRecord c)
    refine ⟨_, _, _, rfl, State.command_answers hc (fun v hv => ?_), hso.rest, hfind, hso.banks, hso.others⟩
    obtain ⟨hq, e⟩ := hv.tblPut c.target (cmdRecord c)
    refine ⟨_, hq, ?_⟩
    simp [hfit, hok, hv.tblBar, hb, Nat.not_lt.2 ht, e, hst]
  · refine State.command_refused hc (fun v hv => ?_)
    simp [hfit, hok, hv.tblBar, hb, Nat.not_lt.2 ht, State.tblPut_full hok ((congrArg _ (hv.shadow _)).trans hf)
      ((hv.tblRoom _ _).trans hr)]
  · refine State.command_refused hc (fun v hv => ?_)
    rcases hbad with hbad | hbad | hbad <;> simp [hbad]
  · have hso := State.tblPutAll_shadowOnly c.target l s 0
    refine ⟨_, _, rfl, rfl, State.command_answers hc (fun v hv => ?_), hso.rest, hso.banks, hso.others⟩
    obtain ⟨hq, e⟩ := State.Quiet.tblPutAll c.target l hv 0
    refine ⟨_, hq, ?_⟩
    simp [hi, h0, h4, hl, hv.tblBar, hb, Nat.not_lt.2 ht, e, hall, State.tblPutAll_count c.target l s 0 hall]
  · have hso := s.tblDrop_shadowOnly c.target (recKey c.target (cmdKeyRecord c))
    refine ⟨_, _, rfl, State.command_answers hc (fun v hv => ?_), hso.rest, hso.banks, s.tblDrop_find _ _, hso.others⟩
    cases hf : findKey c.target (recKey c.target (cmdKeyRecord c)) (s.shadow c.target) with
    | some r =>
      refine ⟨_, by simpa only [State.tblDrop, hf] using hv.setShadow _ _, ?_⟩
      simp [hfit, hv.tblBar, hb, Nat.not_lt.2 ht, hv.shadow, hf]
    | none =>
      refine ⟨v, by simpa only [State.tblDrop, hf] using hv, ?_⟩
      simp [hfit, hv.tblBar, hb, Nat.not_lt.2 ht, hv.shadow, hf]

end Sys2Proof.Proofs
end

section
/-!
PROOF. TBL_SYNC, TBL_COMMIT, TBL_CANCEL and TBL_READ: banks that are copied, scheduled and read (R102, R107–R110, R590).
-/

namespace Sys2Proof.Machine

/-! ### TBL_SYNC (R107) -/

/-- What the shadow banks of the tables of a list, copied from the active banks, leave as it was. -/
structure State.Synced (l : List Nat) (s u : State) : Prop where
  rest : u = { s with tables := u.tables }
  active : u.tables.act = s.tables.act ∧ u.tables.flowsAct = s.tables.flowsAct
  shadow : ∀ k, k ≠ 13 → u.shadow k = if k ∈ l then s.active k else s.shadow k
  flows : u.tables.flowsShd = if 13 ∈ l then s.tables.flowsAct else s.tables.flowsShd

theorem State.syncTable_synced (s : State) (t : Nat) : State.Synced [t] s (s.syncTable t) := by
  unfold State.syncTable
  split
  · next ht => exact ⟨rfl, ⟨rfl, rfl⟩, fun k hk => by simp [State.shadow, ht, hk], by simp [ht]⟩
  · next ht =>
    refine ⟨rfl, ⟨rfl, rfl⟩, fun k _ => ?_, by simp [State.setShadow, Ne.symm ht]⟩
    rw [State.shadow_setShadow]
    by_cases hk : k = t <;> simp [hk]

theorem State.Synced.trans {l m : List Nat} {s u w : State} (h : State.Synced l s u) (k : State.Synced m u w) :
    State.Synced (l ++ m) s w := by
  have hact : ∀ n, u.active n = s.active n := fun n => by simp only [State.active, h.active.1]
  refine ⟨?_, ⟨k.active.1.trans h.active.1, k.active.2.trans h.active.2⟩, fun n hn => ?_, ?_⟩
  · rw [k.rest, h.rest]
  · rw [k.shadow n hn, h.shadow n hn, hact]
    by_cases hm : n ∈ m <;> simp [hm]
  · rw [k.flows, h.flows, h.active.2]
    by_cases hm : 13 ∈ m <;> simp [hm]

theorem State.syncTables_synced (l : List Nat) : ∀ s : State, State.Synced l s (l.foldl (fun s t => s.syncTable t) s) := by
  induction l with
  | nil => exact fun s => ⟨rfl, ⟨rfl, rfl⟩, fun _ _ => by simp, by simp⟩
  | cons t l ih => exact fun s => (s.syncTable_synced t).trans (ih _)

theorem State.Quiet.syncTable {s v : State} (h : s.Quiet v) (t : Nat) : (s.syncTable t).Quiet (v.syncTable t) := by
  unfold State.syncTable
  split
  · rw [h.still.tables]
    exact h.put_tables _
  · rw [h.active]
    exact h.setShadow t _

theorem State.Quiet.syncTables (l : List Nat) : ∀ {s v : State} (_ : s.Quiet v),
    (l.foldl (fun s t => s.syncTable t) s).Quiet (l.foldl (fun s t => s.syncTable t) v) := by
  induction l with
  | nil => exact fun h => h
  | cons t l ih => exact fun h => ih (h.syncTable t)

/-! ### The frame count that a command names (R109, R110, R399, R400), after reports -/

section
variable {s v : State} (h : s.Quiet v)
include h

theorem State.Quiet.maskBar (m : Nat) : v.maskBar m = s.maskBar m := by
  simp only [State.maskBar, h.tblFenced, h.tblBusy]

theorem State.Quiet.liveEpochs : v.liveEpochs = s.liveEpochs := by
  simp only [State.liveEpochs, h.still.epochs]

theorem State.Quiet.predictedEpoch (n : Nat) : v.predictedEpoch n = s.predictedEpoch n := by
  simp only [State.predictedEpoch, h.still.epochs]

theorem State.Quiet.lastFc : v.lastFc = s.lastFc := by
  simp only [State.lastFc, State.gen, h.still.gens]
  rfl

theorem State.Quiet.nextTick (g : Nat) : v.nextTick g = s.nextTick g := State.nextTick_congr h.still.gens h.still.pinCfg g

theorem State.Quiet.armLead (n : Nat) : v.armLead n = s.armLead n := by
  rw [State.armLead, State.armLead, h.getF MER_ARM.ARM_LEAD 0 (by decide)]

theorem State.Quiet.secondTick : v.secondTick = s.secondTick := by
  have hg : v.gen 0 = s.gen 0 := by simp only [State.gen, h.still.gens]
  have hx : v.grid 0 = s.grid 0 := by simp only [State.grid, hg]
  have hp : ∀ n, v.pin n = s.pin n := fun n => by simp only [State.pin, h.still.pinCfg]
  have hm : ∀ x, v.sMin 0 x = s.sMin 0 x := fun x => by simp only [State.sMin, hp]
  simp only [State.secondTick, hg, hx, hm, h.nextTick, State.nextIndex_congr h.still.gens h.still.pinCfg]

theorem State.Quiet.openTick (n : Nat) : v.openTick n = s.openTick n := by
  simp only [State.openTick, State.openTickLead, h.lastFc, h.now, h.nextTick, h.secondTick, h.armLead]

theorem State.Quiet.arming (n : Nat) (late : Bool) (x : Nat) : v.arming n late x = s.arming n late x := by
  simp only [State.arming, h.lastFc, h.now, h.nextTick, h.armLead, h.openTick]

theorem State.Quiet.cutoffReached (n : Nat) : v.cutoffReached n = s.cutoffReached n := by
  simp only [State.cutoffReached, h.lastFc, h.openTick]

end

/-! ### TBL_CANCEL (R110) -/

/-- The commits that stay when the tables of mask `m` are taken out of each. -/
def commitsWithout (m : Nat) (l : List (Nat × Nat)) : List (Nat × Nat) :=
  (l.map (fun x => (x.1, x.2 - (x.2 &&& m)))).filter (fun x => x.2 != 0)

theorem mem_commitsWithout {m : Nat} {l : List (Nat × Nat)} {x : Nat × Nat} (h : x ∈ commitsWithout m l) :
    x.2 ≠ 0 ∧ ∃ y ∈ l, y.1 = x.1 ∧ x.2 = y.2 - (y.2 &&& m) := by
  obtain ⟨hx, h0⟩ := List.mem_filter.1 h
  obtain ⟨y, hy, rfl⟩ := List.mem_map.1 hx
  exact ⟨by simpa using h0, y, hy, rfl, rfl⟩

/-! ### TBL_READ (R590) -/

/-- What is sent stays among what is sent. -/
theorem State.Still.emitted {s v t : State} {o : Out} (h : s.Still v) (k : (v.emit o).Still t) :
    o ∈ t.out.drop s.out.length := by
  obtain ⟨l, hl⟩ := h.out
  obtain ⟨m, hm⟩ := k.out
  have e : t.out = s.out ++ (l ++ ([o] ++ m)) := by
    rw [hm, show (v.emit o).out = v.out ++ [o] from rfl, hl, List.append_assoc, List.append_assoc]
  rw [e, List.drop_left]
  simp

/-- A result is written by DMA, which only reports show. -/
theorem State.writeResult_eq (s : State) (c : Cmd) (data : Bytes) :
    ∃ v, s.Quiet v ∧ s.writeResult c data = v.emit (.resultWrite c.ring c.cookie data) := by
  unfold State.writeResult
  split
  · exact ⟨_, s.dmaWrite_quiet _ _, rfl⟩
  · exact ⟨s, .refl s, rfl⟩

theorem recWords_le (t : Nat) (w : List Word) : recWords t w ≤ 32 := by
  unfold recWords
  repeat' split
  all_goals omega

/-- A record that the buffer has room for is written back. -/
theorem State.tblAnswer_answered {s v : State} (h : s.Quiet v) {c : Cmd} (hc : c.ring < 256) (idx : Nat) {w : List Word}
    (hw : 4 * w.length ≤ c.dataLen) : s.Answered (v.tblAnswer c idx w) c stOk idx ∧
      Out.resultWrite c.ring c.cookie (wordsLE w) ∈ (v.tblAnswer c idx w).out.drop s.out.length := by
  obtain ⟨x, hx, e⟩ := v.writeResult_eq c (wordsLE w)
  rw [State.tblAnswer, if_neg (Nat.not_lt.2 hw), e]
  have ha := (x.emit (.resultWrite c.ring c.cookie (wordsLE w))).done_answered c stOk idx 0 0 hc
  exact ⟨((h.trans hx).trans (x.emit_quiet _)).answered ha, (h.trans hx).still.emitted ha.still⟩

/-- TBL_READ, once nothing stands in its way: the record that is there, or one of zeros. -/
def State.tblReadAnswer (s : State) (c : Cmd) (r : Option (Nat × List Word)) (zeros : Nat) : State :=
  match r with
  | some x => s.tblAnswer c x.1 x.2
  | none => s.tblAnswer c 0xFFFFFFFF (List.replicate zeros 0)

theorem State.tblReadAnswer_answered {s v : State} (h : s.Quiet v) {c : Cmd} (hc : c.ring < 256)
    {r : Option (Nat × List Word)} {zeros : Nat} (hz : 4 * zeros ≤ c.dataLen) :
    (∀ x, r = some x → 4 * x.2.length ≤ c.dataLen → s.Answered (v.tblReadAnswer c r zeros) c stOk x.1 ∧
      Out.resultWrite c.ring c.cookie (wordsLE x.2) ∈ (v.tblReadAnswer c r zeros).out.drop s.out.length) ∧
    (r = none → s.Answered (v.tblReadAnswer c r zeros) c stOk 0xFFFFFFFF ∧
      Out.resultWrite c.ring c.cookie (wordsLE (List.replicate zeros 0)) ∈
        (v.tblReadAnswer c r zeros).out.drop s.out.length) := by
  constructor
  · rintro x rfl hx
    exact State.tblAnswer_answered h hc _ hx
  · rintro rfl
    exact State.tblAnswer_answered h hc _ (by simpa using hz)

/-- The index and the words of an entry. -/
def recAnswer (r : Rec) : Nat × List Word := (r.idx, r.words)

/-- The handle and the words of a flow. -/
def flowAnswer (f : Flow) : Nat × List Word := (f.handle, f.words)

theorem exec_tblRead_key {s : State} {c : Cmd} {key : List Word} (hc : s.Ready 0x16 c) (hi : c.indirect = true)
    (ht : c.target < 13) (h5 : c.a5.toNat ≤ 1) (hkey : key = if c.target = 12 then cmdKeyRecord c else toWords 32 c.data)
    (hk : keyOk c.target key = true) (hf : s.tblFenced c.target = false) :
    ∃ v, s.Quiet v ∧ exec (.tblRead c) s = .next (v.tblReadAnswer c ((findKey c.target (recKey c.target key)
      (if c.a5.toNat = 0 then s.active c.target else s.shadow c.target)).map recAnswer) (recWords c.target key)) := by
  refine State.command_elim (fun t => ∃ v, s.Quiet v ∧ Host.Outcome.next t = .next (v.tblReadAnswer c _ _)) hc
    (fun v hv => ⟨v, hv, congrArg Host.Outcome.next ?_⟩)
  rw [← hv.active, ← hv.shadow]
  simp only [hi, ← hkey, hk, hv.tblFenced, hf, Nat.ne_of_lt ht, Nat.not_lt.2 h5, show ¬ 13 < c.target by omega]
  cases findKey c.target (recKey c.target key) (if c.a5.toNat = 0 then v.active c.target else v.shadow c.target) <;> rfl

theorem exec_tblRead_flow {s : State} {c : Cmd} (hc : s.Ready 0x16 c) (hi : c.indirect = true) (ht : c.target = 13)
    (h5 : c.a5.toNat ≤ 1) : ∃ v, s.Quiet v ∧ exec (.tblRead c) s = .next (v.tblReadAnswer c
      (((if c.a5.toNat = 0 then s.tables.flowsAct else s.tables.flowsShd).find? (fun f => f.handle == c.a0.toNat)).map
        flowAnswer) 16) := by
  refine State.command_elim (fun t => ∃ v, s.Quiet v ∧ Host.Outcome.next t = .next (v.tblReadAnswer c _ _)) hc
    (fun v hv => ⟨v, hv, congrArg Host.Outcome.next ?_⟩)
  rw [← hv.still.tables]
  simp only [hi, ht, Nat.not_lt.2 h5]
  cases (if c.a5.toNat = 0 then v.tables.flowsAct else v.tables.flowsShd).find? (fun f => f.handle == c.a0.toNat) <;> rfl

end Sys2Proof.Machine

namespace Sys2Proof.Proofs

open Sys2Proof.Machine

/-- Settles O27: each command by the banks that it copies, the commits that it schedules or drops, or the record it reads. -/
theorem banksAreSyncedCommittedCancelledAndRead : Obligations.BanksAreSyncedCommittedCancelledAndRead := by
  unfold Obligations.BanksAreSyncedCommittedCancelledAndRead
  refine ⟨fun c s hc hm hb => ?_, fun c n s hc hm hb ha hl => ?_, fun c s hc hm hb ha hl => ?_, fun c s hc hm hf hcut => ?_,
    fun c key s hc hi ht h5 hkey hk hf hlen => ?_, fun c s hc hi ht h5 hlen => ?_⟩
  · have hy := State.syncTables_synced (maskTables c.a2.toNat) s
    refine ⟨_, _, rfl, State.command_answers hc (fun v hv => ⟨_, State.Quiet.syncTables (maskTables c.a2.toNat) hv, ?_⟩),
      hy.rest, hy.active.1, hy.active.2, fun k hk => ?_, ?_⟩
    · simp [hm, hv.maskBar, hb]
    · rw [hy.shadow k (by omega)]
      simp [mem_maskTables, show k < 14 by omega]
    · rw [hy.flows]
      simp [mem_maskTables]
  · refine ⟨_, _, rfl, rfl, State.command_answers hc (fun v hv => ?_)⟩
    have hq := hv.put_epochs { s.epochs with commits := s.epochs.commits ++ [(n, c.a2.toNat)] }
    refine ⟨_, hq, ?_⟩
    rw [← hq.predictedEpoch]
    simp [hm, hv.maskBar, hb, hv.arming, ha, hv.liveEpochs, hv.still.epochs, Nat.not_lt.2 (Nat.succ_le_of_lt hl)]
  · refine ⟨_, rfl, State.command_refused hc (fun v hv => ?_)⟩
    simp [hm, hv.maskBar, hb, hv.arming, ha, hv.liveEpochs, hv.still.epochs, Nat.not_lt.2 (Nat.succ_le_of_lt hl)]
  · refine ⟨{ s with epochs := { s.epochs with commits := commitsWithout c.a2.toNat s.epochs.commits } }, _, rfl,
      State.command_answers hc (fun v hv => ⟨_, hv.put_epochs _, ?_⟩), rfl, fun x hx => mem_commitsWithout hx⟩
    have hcut' : (s.epochs.commits.filter (fun x => x.2 &&& c.a2.toNat != 0)).any (fun x => s.cutoffReached x.1) = false :=
      List.any_eq_false.2 (fun x hx => by
        obtain ⟨hx, h0⟩ := List.mem_filter.1 hx
        simp [hcut x hx (by simpa using h0)])
    simp only [hm, hv.tblFenced, hf, hv.still.epochs, hv.cutoffReached, hcut']
    rfl
  · obtain ⟨v, hv, e⟩ := exec_tblRead_key hc hi ht h5 hkey hk hf
    have hr := fun r => State.tblReadAnswer_answered hv hc.ring (r := r) (zeros := recWords c.target key)
      ((Nat.mul_le_mul_left 4 (recWords_le c.target key)).trans hlen)
    refine ⟨_, e, fun r hr' hw => (hr _).1 _ (congrArg (Option.map recAnswer) hr') ((Nat.mul_le_mul_left 4 hw).trans hlen),
      fun hn => (hr _).2 (congrArg (Option.map recAnswer) hn)⟩
  · obtain ⟨v, hv, e⟩ := exec_tblRead_flow hc hi ht h5
    have hr := fun r => State.tblReadAnswer_answered hv hc.ring (r := r) (zeros := 16) hlen
    exact ⟨_, e, fun f hf' hw => (hr _).1 _ (congrArg (Option.map flowAnswer) hf') ((Nat.mul_le_mul_left 4 hw).trans hlen),
      fun hn => (hr _).2 (congrArg (Option.map flowAnswer) hn)⟩

end Sys2Proof.Proofs
end

section
/-!
PROOF. PTP_PORT_CFG, TIME_CFG, TIME_AUTH, DPLL_CFG and REF_CFG: firmware holds the record until its instant (R104, R105, R307,
R361, R365, R370).
-/

namespace Sys2Proof.Machine

/-- A command of firmware's that firmware is there to execute, and whose own effect, after reports, is `u` and a completion,
answers from `u`. -/
theorem State.fwCommand_answers {s u : State} {op : Nat} {c : Cmd} {run : State → State} {st r0 r1 : Nat}
    (h : s.FwReady op c) (k : ∀ v, s.Quiet v → ∃ w, u.Quiet w ∧ run v = w.done c st r0 r1) :
    u.Answered (s.fwCommand op c run) c st r0 r1 := by
  refine State.fwCommand_elim (fun t => u.Answered t c st r0 r1) h (fun v hv => ?_)
  obtain ⟨w, hw, e⟩ := k v hv
  exact e ▸ hw.answered (w.done_answered c st r0 r1 0 h.ready.ring)

/-- The same of a command that changes nothing but reports. -/
theorem State.fwCommand_refused {s : State} {op : Nat} {c : Cmd} {run : State → State} {st r0 r1 : Nat}
    (h : s.FwReady op c) (k : ∀ v, s.Quiet v → run v = v.done c st r0 r1) :
    s.Answered (s.fwCommand op c run) c st r0 r1 := State.fwCommand_answers h (fun v hv => ⟨v, hv, k v hv⟩)

section
variable {s v : State} (h : s.Quiet v)
include h

/-- The same change of one port, DPLL or reference on both sides of reports. -/
theorem State.Quiet.upPort (n : Nat) (f : Port → Port) : (s.upPort n f).Quiet (v.upPort n f) := by
  rw [State.upPort, State.upPort, h.still.ports]
  exact h.put_ports _

theorem State.Quiet.upDpll (n : Nat) (f : Dpll → Dpll) : (s.upDpll n f).Quiet (v.upDpll n f) := by
  rw [State.upDpll, State.upDpll, h.still.dplls]
  exact h.put_dplls _

theorem State.Quiet.upRef (n : Nat) (f : Ref → Ref) : (s.upRef n f).Quiet (v.upRef n f) := by
  rw [State.upRef, State.upRef, h.still.refs]
  exact h.put_refs _

theorem State.Quiet.refAllowed (k i : Nat) : v.refAllowed k i = s.refAllowed k i := by
  rw [State.refAllowed, State.refAllowed, h.isF TPL_REF_CFG.TYPE i (by decide)]

theorem State.Quiet.dpllCfgOk (k : Nat) (w : List Word) : v.dpllCfgOk k w = s.dpllCfgOk k w := by
  simp only [State.dpllCfgOk, h.refAllowed]

theorem State.Quiet.dpll (n : Nat) : v.dpll n = s.dpll n := by simp only [State.dpll, h.still.dplls]

theorem State.Quiet.refr (n : Nat) : v.refr n = s.refr n := by simp only [State.refr, h.still.refs]

end

end Sys2Proof.Machine

namespace Sys2Proof.Proofs

open Sys2Proof.Machine

/-- Settles O32: each record waits in its own place, or a STATUS says why it was not taken. -/
theorem firmwareRecordsWaitForTheirInstant : Obligations.FirmwareRecordsWaitForTheirInstant := by
  unfold Obligations.FirmwareRecordsWaitForTheirInstant
  refine ⟨fun c s hc => ⟨fun hok => ?_, fun hok => ?_⟩, fun c s hc => ⟨fun hok => ?_, fun hok => ?_⟩,
    fun c s hc => ⟨fun r hr hid => ?_, fun hn => ?_⟩,
    fun c s hc => ⟨fun ht hi hl hok => ⟨fun hw => ?_, fun hw => ?_⟩, fun hbad => ?_⟩,
    fun c s hc => ⟨fun ht hi hl => ⟨fun hw => ?_, fun hw => ?_⟩, fun hbad => ?_⟩⟩
  · refine ⟨s.upPort c.target (fun x => { x with ptpNext := some (ptpRec c.data) }), _, rfl,
      State.fwCommand_answers hc (fun v hv => ⟨_, hv.upPort c.target _, ?_⟩), rfl, State.port_upPort_same _ _ _,
      fun p hp => State.port_upPort_other _ _ hp⟩
    simp [hok]
  · exact ⟨_, rfl, State.fwCommand_refused hc (fun v _ => by simp [hok])⟩
  · refine ⟨_, rfl, State.fwCommand_answers hc (fun v hv => ⟨_, hv.put_time _, ?_⟩)⟩
    simp [hok, hv.still.time]
  · exact ⟨_, rfl, State.fwCommand_refused hc (fun v _ => by simp [hok])⟩
  · refine ⟨{ s with
        time := { s.time with disc := some { r with auth := true } }
        fw := { s.fw with timeAuth := s.fw.timeAuth ++ [c] } }, _, rfl, State.fwCommand_elim _ hc (fun v hv => ?_), rfl, rfl⟩
    have hq := (hv.put_time { s.time with disc := some { r with auth := true } }).put_fw
      { s.fw with timeAuth := s.fw.timeAuth ++ [c] }
    simpa [hv.still.time, hv.still.fw, hr, hid] using hq
  · refine ⟨_, rfl, State.fwCommand_refused hc (fun v hv => ?_)⟩
    cases hr : s.time.disc with
    | none => simp [hv.still.time, hr]
    | some r => simp [hv.still.time, hr, Ne.symm (hn r hr)]
  · refine ⟨s.upDpll c.target (fun x => { x with cfg := some (toWords 16 c.data) }), _, rfl,
      State.fwCommand_answers hc (fun v hv => ⟨_, hv.upDpll c.target _, ?_⟩), rfl, State.dpll_upDpll_same _ _ _,
      fun p hp => State.dpll_upDpll_other _ _ hp⟩
    simp [Nat.not_le.2 ht, hi, hl, hv.dpllCfgOk, hok, hv.dpll, hw]
  · refine ⟨_, rfl, State.fwCommand_refused hc (fun v hv => ?_)⟩
    simp [Nat.not_le.2 ht, hi, hl, hv.dpllCfgOk, hok, hv.dpll, Option.isSome_iff_ne_none.2 hw]
  · refine ⟨_, rfl, State.fwCommand_refused hc (fun v hv => ?_)⟩
    rcases hbad with hbad | hbad | hbad | hbad <;> simp [hv.dpllCfgOk, hbad]
  · refine ⟨s.upRef c.target (fun x => { x with cfg := some (toWords 5 c.data) }), _, rfl,
      State.fwCommand_answers hc (fun v hv => ⟨_, hv.upRef c.target _, ?_⟩), rfl, State.refr_upRef_same _ _ _,
      fun p hp => State.refr_upRef_other _ _ hp⟩
    simp [Nat.not_le.2 ht, hi, hl, hv.refr, hw]
  · refine ⟨_, rfl, State.fwCommand_refused hc (fun v hv => ?_)⟩
    simp [Nat.not_le.2 ht, hi, hl, hv.refr, Option.isSome_iff_ne_none.2 hw]
  · refine ⟨_, rfl, State.fwCommand_refused hc (fun v hv => ?_)⟩
    rcases hbad with hbad | hbad | hbad <;> simp [hbad]

end Sys2Proof.Proofs
end

section
/-!
PROOF. Frames received into buffers, frames in progress that end, interrupt timers and held entries (R70, R72, R86, R94, R96).
-/

namespace Sys2Proof.Machine

/-! ### What is sent stays among what is sent -/

/-- What `t` has sent since `s` it has sent since anything before `s`. -/
theorem State.Kept.sent_before {ps : List Part} {s v t : State} {o : Out} (h : s.Kept ps v)
    (ho : o ∈ t.out.drop v.out.length) : o ∈ t.out.drop s.out.length := by
  obtain ⟨l, hl⟩ := h.out
  have e : t.out.drop v.out.length = (t.out.drop s.out.length).drop l.length := by
    rw [hl, List.length_append, List.drop_drop]
  exact List.mem_of_mem_drop (e ▸ ho)

/-- What `v` has sent since `s` is among what any state after `v` has sent. -/
theorem State.Kept.sent_after {ps : List Part} {s v t : State} {o : Out} (h : v.Kept ps t)
    (ho : o ∈ v.out.drop s.out.length) : o ∈ t.out.drop s.out.length := by
  obtain ⟨l, hl⟩ := h.out
  rw [hl, List.drop_append]
  exact List.mem_append_left _ ho

/-! ### A frame whose ring has a buffer for all of it (R94) -/

/-- Ring `n` without its first fetched buffer, which is being written. -/
def State.rxTaken (s : State) (n : Nat) (d : Desc) (rest : List Desc) : State :=
  (s.upRing n (fun r => { r with fetched := rest, rx := none })).dmaWrite (s.ringFn n) (descAddr d)

/-- The first fetched buffer of ring `n` holds the whole frame `f` and completes OK (R83, R94). -/
def State.rxWhole (s : State) (n : Nat) (f : Frame) (d : Desc) (rest : List Desc) : State :=
  ((s.rxTaken n d rest).emit (.bufferWrite n d.idx f.bytes)).complete n (dw d.words 6)
    (rxDw1 f f.bytes.length true true) (rxDw2 f) (rxDw3 f stOk)

/-- A buffer whose length R81 allows stays at the front. -/
theorem State.settleBufs_of_ok {s : State} {n : Nat} {d : Desc} {rest : List Desc} (hf : (s.ring n).fetched = d :: rest)
    (hok : bufOk d = true) (k : Nat) : s.settleBufs n k = s := by
  cases k with
  | zero => rfl
  | succ k =>
    rw [State.settleBufs, hf]
    exact if_pos hok

theorem State.rxFill_whole {s : State} {n : Nat} {f : Frame} {d : Desc} {rest : List Desc}
    (hf : (s.ring n).fetched = d :: rest) (hok : bufOk d = true) (hl : f.bytes.length ≤ bufLen d) (k : Nat) :
    s.rxFill n f 0 (k + 1) = (s.rxWhole n f d rest).finish f := by
  rw [State.rxFill, State.settleBufs_of_ok hf hok]
  simp only [hf, Nat.sub_zero, Nat.min_eq_right hl, Nat.zero_add, beq_self_eq_true, if_true]
  rw [show slice f.bytes 0 f.bytes.length = f.bytes from List.take_length]
  rfl

theorem State.complete_sent (s : State) (n d0 d1 d2 d3 : Nat) :
    Out.completion n (s.ring n).cons (hostBytes [d0, d1, d2, d3 + s.phaseBit n (s.ring n).cons * 2147483648]) ∈
      (s.complete n d0 d1 d2 d3).out.drop s.out.length := by
  obtain ⟨-, -, l, m, h⟩ := s.complete_law n d0 d1 d2 d3
  rw [h, List.append_assoc, List.append_assoc, List.drop_left]
  simp

/-- The buffer is written, and the next completion is its. -/
theorem State.rxWhole_sent (s : State) (n : Nat) (f : Frame) (d : Desc) (rest : List Desc) :
    Out.bufferWrite n d.idx f.bytes ∈ (s.rxWhole n f d rest).out.drop s.out.length ∧
      Out.completion n (s.ring n).cons (hostBytes [dw d.words 6, rxDw1 f f.bytes.length true true, rxDw2 f,
        rxDw3 f stOk + s.phaseBit n (s.ring n).cons * 2147483648]) ∈ (s.rxWhole n f d rest).out.drop s.out.length := by
  have hk : s.Kept reports (s.rxTaken n d rest) :=
    State.dmaWrite_kept _ _ (by decide) (State.upRing_kept _ _ (by decide) (.refl _ s) (fun _ h => h))
  have hw : ((s.rxTaken n d rest).emit (.bufferWrite n d.idx f.bytes)).Kept reports (s.rxWhole n f d rest) :=
    State.complete_kept _ _ _ _ _ (fun _ h => h) (.refl _ _)
  refine ⟨hk.sent_before hw.emitted, ?_⟩
  have hq : (s.upRing n (fun r => { r with fetched := rest, rx := none })).Quiet
      ((s.rxTaken n d rest).emit (.bufferWrite n d.idx f.bytes)) := (State.dmaWrite_quiet _ _ _).trans (State.emit_quiet _ _)
  have hcons := (hq.fetched n).2
  rw [State.ring_upRing_same] at hcons
  have hsent := State.complete_sent ((s.rxTaken n d rest).emit (.bufferWrite n d.idx f.bytes)) n (dw d.words 6)
    (rxDw1 f f.bytes.length true true) (rxDw2 f) (rxDw3 f stOk)
  rw [hcons, hq.still.phaseBit] at hsent
  exact (State.emit_kept _ (by decide) hk).sent_before hsent

/-- The frame of a buffer as it leaves the block (R93, R94). -/
def State.rxLeaves (s : State) (f : Frame) : Frame :=
  if f.inPort = 257 ∧ !f.counted then { f with stamp := gridOf f.enq } else { f with bytes := s.outgoing f }

theorem State.rxLeaves_bytes (s : State) (f : Frame) :
    (s.rxLeaves f).bytes = if f.inPort = 257 ∧ f.counted = false then f.bytes else s.outgoing f := by
  unfold State.rxLeaves
  by_cases h : f.inPort = 257 ∧ f.counted = false <;> simp [h]

/-- The frame that the host interface takes next goes to its ring whole, where the next buffer there holds all of it. -/
theorem State.rxServe_sent {s : State} {c i n : Nat} {f : Frame} {d : Desc} {rest : List Desc}
    (hn : s.rxNext = some (c, i, f, .write n)) (hf : (s.ring n).fetched = d :: rest) (hok : bufOk d = true)
    (hl : (s.rxLeaves f).bytes.length ≤ bufLen d) (k : Nat) :
    Out.bufferWrite n d.idx (s.rxLeaves f).bytes ∈ (s.rxServe (k + 1)).out.drop s.out.length ∧
      ∃ d1 d2 r, Out.completion n (s.ring n).cons (hostBytes [dw d.words 6, d1, d2,
        r + s.phaseBit n (s.ring n).cons * 2147483648]) ∈ (s.rxServe (k + 1)).out.drop s.out.length ∧ r < 256 := by
  have hs : s.rxServe (k + 1) = ((((s.upQueue (queueKey 256 c) (fun q => { q with onTile := q.onTile.eraseIdx i })).countS
      (group 3 256) (c * 32)).countS (group 3 256) (c * 32 + 1) (frameOctets (s.rxLeaves f).bytes.length)).rxFill n
        (s.rxLeaves f) 0 ((s.rxLeaves f).bytes.length / 256 + 1 + 1)).rxHold n := by
    rw [State.rxServe, hn]
    rfl
  rw [hs]
  generalize hu : ((s.upQueue (queueKey 256 c) (fun q => { q with onTile := q.onTile.eraseIdx i })).countS
      (group 3 256) (c * 32)).countS (group 3 256) (c * 32 + 1) (frameOctets (s.rxLeaves f).bytes.length) = u
  have hq : (s.upQueue (queueKey 256 c) (fun q => { q with onTile := q.onTile.eraseIdx i })).Quiet u :=
    hu ▸ (State.countS_quiet _ _ _ _).trans (State.countS_quiet _ _ _ _)
  have hk : s.Kept (.queues :: reports) u :=
    hu ▸ State.countS_kept _ _ _ (by decide) (State.countS_kept _ _ _ (by decide) (State.upQueue_kept _ _ (by decide)
      (.refl _ s)))
  obtain ⟨hfetched, hcons⟩ : (u.ring n).fetched = (s.ring n).fetched ∧ (u.ring n).cons = (s.ring n).cons := hq.fetched n
  have hphase : u.phaseBit n (s.ring n).cons = s.phaseBit n (s.ring n).cons := hq.still.phaseBit n _
  have hafter : (u.rxWhole n (s.rxLeaves f) d rest).Kept (reports ++ [.ports, .epochs, .acct])
      ((u.rxFill n (s.rxLeaves f) 0 ((s.rxLeaves f).bytes.length / 256 + 1 + 1)).rxHold n) := by
    rw [State.rxFill_whole (hfetched.trans hf) hok hl]
    exact State.rxHold_kept n (by decide) (State.finish_kept _ (by decide) (.refl _ _))
  obtain ⟨hbuf, hcompl⟩ := u.rxWhole_sent n (s.rxLeaves f) d rest
  rw [hcons, hphase] at hcompl
  refine ⟨hafter.sent_after (hk.sent_before hbuf), _, _, rxDw3 (s.rxLeaves f) stOk,
    hafter.sent_after (hk.sent_before hcompl), ?_⟩
  simp only [rxDw3, stOk]
  omega

/-- The completion of a frame in progress that ends is rewritten. -/
theorem State.rxTruncate_sent {s : State} {n : Nat} {x : RxProg} (h : (s.ring n).rx = some x) :
    Out.completion n x.lastIdx (hostBytes [x.lastCookie.toNat, rxDw1 x.frame x.lastLen (x.done == x.lastLen) true,
      rxDw2 x.frame, x.frame.res.hostReason % 256 + stTrunc * 16777216 + s.phaseBit n x.lastIdx * 2147483648]) ∈
        (s.rxTruncate n).out.drop s.out.length := by
  rw [State.rxTruncate_of_some h]
  exact State.Kept.emitted (ps := [.regs, .ports, .epochs, .acct, .counters])
    (s := s.upRing n (fun r => { r with rx := none })) (State.finish_kept _ (by decide)
      (State.countS_kept _ _ _ (by decide) (State.countS_kept _ _ _ (by decide) (.refl _ _))))

/-! ### Interrupts (R70, R72) -/

/-- An interrupt of ring `n` is sent, or pends while its vector is masked, and the ring counts anew. -/
theorem State.ringInterrupt_ring (s : State) (n : Nat) : (s.ringInterrupt n).ring n =
    { s.ring n with sinceInt := 0, timer := false, intDue := false } := by
  rw [State.ringInterrupt, State.msix_ring, State.ring_upRing_same]

theorem State.msix_sent {s : State} {f v : Nat} (h : s.isF HIF_MSIX_CTRL.MASK (f * 256 + v) = false) :
    Out.msix f v ∈ (s.msix f v).out.drop s.out.length := by
  rw [State.msix, if_neg (by simp [h])]
  exact (State.perf_kept _ _ (fun _ h => h) (.refl _ _)).emitted

theorem State.msix_pends {s : State} {f v : Nat} (h : s.isF HIF_MSIX_CTRL.MASK (f * 256 + v) = true) :
    ((s.msix f v).fn f).pba = (s.fn f).pba ||| 1 <<< v := by
  rw [State.msix, if_pos h, State.fn_upFn_same]

/-! ### Held entries (R86) -/

/-- No ring's producer index and no held entry moves. -/
def State.SameEntries (s t : State) : Prop :=
  ∀ k, (t.ring k).prod = (s.ring k).prod ∧ (t.ring k).hold = (s.ring k).hold

theorem State.SameEntries.trans {s t u : State} (h : s.SameEntries t) (k : t.SameEntries u) : s.SameEntries u :=
  fun n => ⟨(k n).1.trans (h n).1, (k n).2.trans (h n).2⟩

theorem State.Kept.sameEntries {l : List Part} {s t : State} (h : s.Kept l t) (hr : Part.rings ∉ l) : s.SameEntries t :=
  fun k => by rw [h.ring hr k]; exact ⟨rfl, rfl⟩

theorem State.upRing_sameEntries (s : State) (n : Nat) (f : Ring → Ring)
    (hf : ∀ r, (f r).prod = r.prod ∧ (f r).hold = r.hold) : s.SameEntries (s.upRing n f) := fun k => by
  rw [State.ring_upRing]
  split
  · next h => rw [h]; exact hf _
  · exact ⟨rfl, rfl⟩

theorem State.msix_sameEntries (s : State) (f v : Nat) : s.SameEntries (s.msix f v) :=
  fun k => by rw [State.msix_ring]; exact ⟨rfl, rfl⟩

theorem State.statusBlock_sameEntries (s : State) (n : Nat) : s.SameEntries (s.statusBlock n) :=
  (s.upRing_sameEntries n (fun r => { r with sbAt := some s.time.tclk, sbDue := false }) (fun _ => ⟨rfl, rfl⟩)).trans
    (State.Kept.sameEntries (l := [.regs, .hmk, .out]) (State.emit_kept _ (by decide)
      (State.dmaWrite_kept _ _ (by decide) (.refl _ _))) (by decide))

theorem State.ringSignal_sameEntries (s : State) (n : Nat) : s.SameEntries (s.ringSignal n) := by
  unfold State.ringSignal
  split
  · exact s.upRing_sameEntries n _ (fun _ => ⟨rfl, rfl⟩)
  · exact (s.upRing_sameEntries n (fun r => { r with sinceInt := 0, timer := false, intDue := false })
      (fun _ => ⟨rfl, rfl⟩)).trans (State.msix_sameEntries _ _ _)

/-- What follows a completion or an entry in memory moves neither producer index nor held entry. -/
theorem State.ringWrote_sameEntries (s : State) (n : Nat) : s.SameEntries (s.ringWrote n) := by
  unfold State.ringWrote
  extract_lets s1 s2 s3 m
  have h1 : s.SameEntries s1 :=
    State.Kept.sameEntries (State.countS_kept _ _ _ (fun _ h => h) (.refl _ s)) (by decide)
  have h2 : s1.SameEntries s2 := by
    unfold s2
    split
    · exact s1.statusBlock_sameEntries n
    · exact s1.upRing_sameEntries n _ (fun _ => ⟨rfl, rfl⟩)
  have h3 : s.SameEntries s3 := (h1.trans h2).trans (State.upRing_sameEntries _ _ _ (fun _ => ⟨rfl, rfl⟩))
  clear_value s3
  split
  · exact h3.trans (State.ringSignal_sameEntries _ _)
  · split
    · exact h3.trans (State.upRing_sameEntries _ _ _ (fun _ => ⟨rfl, rfl⟩))
    · exact h3

/-- An entry written moves its ring's producer index on by one (R57, R86). -/
theorem State.writeEntry_ring (s : State) (n : Nat) (e : Entry) :
    ((s.writeEntry n e).ring n).prod = ((s.ring n).prod + 1) % 4294967296 ∧
      ((s.writeEntry n e).ring n).hold = (s.ring n).hold := by
  unfold State.writeEntry
  extract_lets r d3 s1 s2 s3
  have h2 : s2.ring n = s.ring n := State.perf_ring _ _ _ n
  obtain ⟨hp, hh⟩ := s3.ringWrote_sameEntries n n
  rw [hp, hh, State.ring_upRing_same, h2]
  exact ⟨rfl, rfl⟩

/-- The first held entry of ring `n` is written, and the entries `l` stay held. -/
def State.writeHeld (s : State) (n : Nat) (e : Entry) (l : List Entry) : State :=
  (s.upRing n (fun r => { r with hold := l })).writeEntry n e

theorem State.writeHeld_law (s : State) (n : Nat) (e : Entry) (l : List Entry) : s.Quiet (s.writeHeld n e l) ∧
    ((s.writeHeld n e l).ring n).prod = ((s.ring n).prod + 1) % 4294967296 ∧ ((s.writeHeld n e l).ring n).hold = l ∧
      ((s.writeHeld n e l).ring n).cons = (s.ring n).cons := by
  have hq : s.Quiet (s.writeHeld n e l) :=
    (s.upRing_quiet n (fun r => { r with hold := l }) (fun _ => ⟨rfl, rfl, rfl, rfl, rfl⟩)).trans
      (State.writeEntry_quiet _ n e)
  obtain ⟨hprod, hhold⟩ := (s.upRing n (fun r => { r with hold := l })).writeEntry_ring n e
  rw [State.ring_upRing_same] at hprod hhold
  exact ⟨hq, hprod, hhold, (hq.fetched n).2⟩

/-- Held entries for which there is space are all written, in order. -/
theorem State.drainHold_drains (n : Nat) (l : List Entry) : ∀ (s : State) (k : Nat), (s.ring n).hold = l → l.length < k →
    (s.ring n).prod < 4294967296 → ringUsed (s.ring n) + l.length ≤ s.ringSize n →
    ((s.drainHold n k).ring n).hold = [] ∧
      ((s.drainHold n k).ring n).prod = ((s.ring n).prod + l.length) % 4294967296 ∧ s.Quiet (s.drainHold n k) := by
  induction l with
  | nil =>
    intro s k hl hk hp _
    obtain ⟨k, rfl⟩ := Nat.exists_eq_add_of_lt hk
    have e : s.drainHold n (0 + k + 1) = s := by rw [State.drainHold]; simp only [hl]
    rw [List.length_nil, e]
    exact ⟨hl, (Nat.mod_eq_of_lt hp).symm, .refl s⟩
  | cons e l ih =>
    intro s k hl hk hp hroom
    obtain ⟨j, rfl⟩ := Nat.exists_eq_add_of_lt hk
    rw [List.length_cons] at hroom
    obtain ⟨hq, hprod, hhold, hcons⟩ := s.writeHeld_law n e l
    have hsize : (s.writeHeld n e l).ringSize n = s.ringSize n :=
      congrArg (2 ^ ·) (hq.getF HIF_RING_CFG.SIZE_LOG2 n (by decide))
    have hstep : s.drainHold n ((e :: l).length + j + 1) = (s.writeHeld n e l).drainHold n (l.length + j + 1) := by
      rw [List.length_cons, Nat.add_right_comm l.length 1 j, State.drainHold]
      simp only [hl]
      exact if_pos (by omega)
    obtain ⟨hh, hp', hq'⟩ := ih (s.writeHeld n e l) (l.length + j + 1) hhold (by omega) (by omega)
      (by rw [hsize]; simp only [ringUsed, hprod, hcons] at hroom ⊢; omega)
    rw [hstep]
    refine ⟨hh, ?_, hq.trans hq'⟩
    rw [hp', hprod, List.length_cons]
    omega

end Sys2Proof.Machine

namespace Sys2Proof.Proofs

open Sys2Proof.Machine

/-- Settles O22: the frame in front by its buffer, the frame in progress by its completion, the timer by its interrupt, the
held entries one by one. -/
theorem receivedFramesReachTheirBuffers : Obligations.ReceivedFramesReachTheirBuffers := by
  unfold Obligations.ReceivedFramesReachTheirBuffers
  refine ⟨fun s c i n f b d rest hu hn hf hok hb hl _ => ?_, fun n s x hx => ?_, fun n s hx => ?_, fun n s ht hd => ?_,
    fun n s ht hd => ?_, fun n s hs ht hk _ hroom => ?_⟩
  · rw [← s.rxLeaves_bytes] at hb
    subst hb
    exact ⟨_, congrArg Host.Outcome.next (if_pos hu), State.rxServe_sent hn hf hok hl (s.portFrames 256)⟩
  · refine ⟨_, rfl, ?_, ?_⟩
    · rw [State.rxTruncate_ring, if_pos rfl]
    · exact ⟨_, _, _, State.rxTruncate_sent hx, Nat.mod_lt _ (by decide)⟩
  · exact congrArg Host.Outcome.next (State.rxTruncate_of_none hx)
  · have hi : s.ringSignal n = s.ringInterrupt n := by rw [State.ringSignal, hd]; rfl
    have hr := s.ringInterrupt_ring n
    refine ⟨s.ringInterrupt n, hi ▸ congrArg Host.Outcome.next (if_pos ht), congrArg Ring.timer hr,
      congrArg Ring.sinceInt hr, s.ringInterrupt_quiet n, fun hm => ?_, fun hm => ?_⟩
    · exact State.msix_sent (s := s.upRing n (fun r => { r with sinceInt := 0, timer := false, intDue := false })) hm
    · exact State.msix_pends (s := s.upRing n (fun r => { r with sinceInt := 0, timer := false, intDue := false })) hm
  · refine congrArg Host.Outcome.next ?_
    rw [if_pos ht, State.ringSignal, if_pos hd]
  · obtain ⟨hh, hp, hq⟩ := State.drainHold_drains n _ s _ rfl (Nat.lt_succ_self _) hk.1 hroom
    have ht' : (s.drainHold n ((s.ring n).hold.length + 1)).ringType n = 3 :=
      (hq.getF HIF_RING_CFG.TYPE n (by decide)).trans ht
    exact ⟨_, congrArg Host.Outcome.next ((if_pos (by simp [hs, State.descRing, ht])).trans (if_neg (by simp [ht']))),
      hh, hp, hq⟩

end Sys2Proof.Proofs
end

section
/-!
PROOF. Descriptors fetched and transmit frames sent (R57, R69, R78, R79, R91, R235).
-/

namespace Sys2Proof.Machine

/-! ### Descriptors that arrive (R57, R69) -/

/-- Descriptor `i` of `new` arrives for ring `n`. -/
def State.fetchOne (n : Nat) (new : List Bytes) (s : State) (i : Nat) : State :=
  let idx := ((s.ring n).fetch) % 4294967296
  let d : Desc := { idx := idx, words := toWords 8 (new.getD i []) }
  let d := if s.ringType n = 0 ∧ txSop d then s.processed d else d
  let s := (s.perf 8 { code := 0x24, fn := some (s.ringFn n) }).dmaRead (s.ringFn n)
    (s.ringBase n + 32 * (idx % s.ringSize n))
  s.upRing n (fun r => { r with fetch := (r.fetch + 1) % 4294967296, fetched := r.fetched ++ [d] })

theorem State.fetchOne_fetch (n : Nat) (new : List Bytes) (s : State) (i : Nat) :
    ((State.fetchOne n new s i).ring n).fetch = ((s.ring n).fetch + 1) % 4294967296 := by
  unfold State.fetchOne
  extract_lets idx d d' v
  have hv : v.ring n = s.ring n := (State.perf_ring _ _ _ n).trans (State.perf_ring _ _ _ n)
  rw [State.ring_upRing_same, hv]

/-- The fetch index moves on by the number that arrive. -/
theorem State.foldl_arrive_fetch (n : Nat) (new : List Bytes) (l : List Nat) : ∀ s : State, (s.ring n).fetch < 4294967296 →
    ((l.foldl (State.fetchOne n new) s).ring n).fetch = ((s.ring n).fetch + l.length) % 4294967296 := by
  induction l with
  | nil => exact fun s h => (Nat.mod_eq_of_lt h).symm
  | cons i l ih =>
    intro s _
    have hstep := State.fetchOne_fetch n new s i
    rw [List.foldl_cons, ih _ (by omega), hstep, List.length_cons]
    omega

/-! ### What arrives is settled by the ring's type -/

theorem State.settleBufs_ringed (n k : Nat) : ∀ s : State, s.Ringed (s.settleBufs n k) n := by
  induction k with
  | zero => exact fun s => (State.Quiet.refl s).ringed n
  | succ k ih =>
    intro s
    rw [State.settleBufs]
    split
    · exact (State.Quiet.refl s).ringed n
    · next d rest _ =>
      split
      · exact (State.Quiet.refl s).ringed n
      · exact ((s.upRing_ringed n (fun r => { r with fetched := rest }) (fun _ => ⟨rfl, rfl, rfl⟩)).trans
          (State.complete_law _ n _ _ _ _).1).trans (ih _)

/-- A frame that goes on into fetched buffers moves no ring register and no fetch index. -/
theorem State.rxFill_unfetched (n k : Nat) : ∀ (s : State) (f : Frame) (got : Nat), s.Unfetched (s.rxFill n f got k) := by
  induction k with
  | zero => exact fun s f got => .refl s
  | succ k ih =>
    intro s f got
    rw [State.rxFill]
    have h1 : s.Unfetched (s.settleBufs n ((s.ring n).fetched.length + 1)) := (State.settleBufs_ringed n _ s).unfetched
    generalize s.settleBufs n ((s.ring n).fetched.length + 1) = s1 at h1 ⊢
    split
    · exact h1
    · next d rest _ =>
      extract_lets len last s2 s3 s4 idx s5 x
      have h2 : s1.Unfetched s2 := s1.upRing_unfetched n (fun r => { r with fetched := rest, rx := none }) (fun _ => rfl)
      have h4 : s2.Unfetched s4 := ((State.dmaWrite_quiet _ _ _).trans (State.emit_quiet _ _)).still.unfetched
      have h5 : s4.Unfetched s5 := (State.complete_law s4 n _ _ _ _).1.unfetched
      have h15 := ((h1.trans h2).trans h4).trans h5
      clear_value s5
      split
      · exact h15.trans (s5.finish_unfetched f)
      · exact (h15.trans (s5.upRing_unfetched n (fun r => { r with rx := some x }) (fun _ => rfl))).trans (ih _ _ _)

theorem State.rxHold_unfetched (s : State) (n : Nat) : s.Unfetched (s.rxHold n) := by
  unfold State.rxHold
  split
  · exact s.rxTruncate_unfetched n
  · exact .refl s

theorem State.settleRing_unfetched (s : State) (n : Nat) : s.Unfetched (s.settleRing n) := by
  unfold State.settleRing
  extract_lets fuel
  split
  · exact (State.settleTx_ringed n fuel s).unfetched
  · have h := (State.settleBufs_ringed n fuel s).unfetched
    split
    · split
      · exact h
      · exact (h.trans (State.rxFill_unfetched n _ _ _ _)).trans (State.rxHold_unfetched _ n)
    · exact h
  · exact (State.settleCmds_law n fuel s).1.unfetched
  · exact (State.settleBufs_ringed n fuel s).unfetched

/-! ### The descriptors of a transmit ring leave it in order -/

theorem State.txRefuse_fetched (n : Nat) (ds : List Desc) (status : Nat) : ∀ s : State,
    ((s.txRefuse n ds status).ring n).fetched = (s.ring n).fetched := by
  induction ds with
  | nil => exact fun _ => rfl
  | cons d ds ih => exact fun s => (ih _).trans (s.complete_law n _ _ _ _).2.1

theorem State.settleTx_fetched (n k : Nat) : ∀ s : State,
    ((s.settleTx n k).ring n).fetched.length ≤ (s.ring n).fetched.length := by
  induction k with
  | zero => exact fun _ => Nat.le_refl _
  | succ k ih =>
    intro s
    have take : ∀ (m : Nat) (ds : List Desc) (status : Nat),
        ((((s.upRing n (fun r => { r with fetched := (s.ring n).fetched.drop m })).txRefuse n ds status).settleTx n
          k).ring n).fetched.length ≤ (s.ring n).fetched.length := by
      intro m ds status
      refine (ih _).trans ?_
      rw [State.txRefuse_fetched, State.ring_upRing_same, List.length_drop]
      exact Nat.sub_le _ _
    rw [State.settleTx]
    split
    · exact Nat.le_refl _
    · exact take _ _ _
    · extract_lets codes
      clear_value codes
      split
      · exact Nat.le_refl _
      · exact take _ _ _

/-- Each descriptor refused completes with the STATUS. -/
theorem State.txRefuse_sent (n status : Nat) (ds : List Desc) : ∀ (s : State), ∀ x ∈ ds, ∃ i p,
    Out.completion n i (hostBytes [txCookie x, 0, 0, status * 16777216 + p * 2147483648]) ∈
      (s.txRefuse n ds status).out.drop s.out.length := by
  induction ds with
  | nil => exact fun _ x hx => absurd hx List.not_mem_nil
  | cons d ds ih =>
    intro s x hx
    have hc : s.Kept reports (s.complete n (txCookie d) 0 0 (status * 16777216)) :=
      State.complete_kept _ _ _ _ _ (fun _ h => h) (.refl _ s)
    have ht : (s.complete n (txCookie d) 0 0 (status * 16777216)).Kept reports (s.txRefuse n (d :: ds) status) :=
      State.txRefuse_kept n ds status (fun _ h => h) (.refl _ _)
    rcases List.mem_cons.1 hx with rfl | hx
    · exact ⟨_, _, ht.sent_after (s.complete_sent n (txCookie x) 0 0 (status * 16777216))⟩
    · obtain ⟨i, p, h⟩ := ih _ x hx
      exact ⟨i, p, hc.sent_before h⟩

/-! ### What judges a transmit frame (R52, R78, R91), after reports -/

section
variable {s v : State} (h : s.Quiet v)
include h

theorem State.Quiet.granted (f p : Nat) : v.granted f p = s.granted f p := by
  rw [State.granted, State.granted, (h.still.fns f).1]

theorem State.Quiet.fence (d : Nat) : v.fence d = s.fence d := by simp only [State.fence, h.still.fences]

theorem State.Quiet.tile (k : Nat) : v.tile k = s.tile k := by simp only [State.tile, h.still.tiles]

theorem State.Quiet.queue (k : Nat) : v.queue k = s.queue k := by simp only [State.queue, h.still.queues]

theorem State.Quiet.portState (p : Nat) : v.portState p = s.portState p := h.getF TIL_PORT_STAT.STATE p (by decide)

theorem State.Quiet.txTileOf (n : Nat) (d : Desc) : v.txTileOf n d = s.txTileOf n d := by
  rw [State.txTileOf, State.txTileOf, h.getF HIF_RING_CFG.AUX n (by decide)]

theorem State.Quiet.txCodes (n : Nat) (d : Desc) : v.txCodes n d = s.txCodes n d := by
  simp only [State.txCodes, h.ringFn, h.txTileOf, State.tileGranted, h.granted, h.fence]
  rfl

theorem State.Quiet.preRoom (t n : Nat) (ptp : Bool) : v.preRoom t n ptp = s.preRoom t n ptp := by
  simp only [State.preRoom, State.tile, h.still.tiles]
  rfl

theorem State.Quiet.directRoom (p slot len : Nat) (launch : Bool) :
    v.directRoom p slot len launch = s.directRoom p slot len launch := by
  simp only [State.directRoom, State.regionPages, State.queue, State.sch, State.port, h.still.queues, h.still.ports]
  rfl

end

/-! ### The whole frame in front of a transmit ring (R79, R91) -/

/-- The data of the descriptors `ds` has been read. -/
def State.txRead (s : State) (n : Nat) (ds : List Desc) : State :=
  ds.foldl (fun t x => t.dmaReads (s.ringFn n) (descAddr x) (txLen x)) s

theorem State.txRead_quiet (s : State) (n : Nat) (ds : List Desc) : s.Quiet (s.txRead n ds) :=
  State.Quiet.foldl _ ds (.refl s) (fun _ _ _ ht => ht.trans (State.dmaReads_quiet _ _ _ _))

theorem State.txRead_kept (s : State) (n : Nat) (ds : List Desc) : s.Kept reports (s.txRead n ds) :=
  State.Kept.foldl _ ds (.refl _ s) (fun _ _ h => State.dmaReads_kept _ _ _ (by decide) h)

/-- `m` descriptors leave the front of ring `n`. -/
def State.txTake (s : State) (n m : Nat) : State := s.upRing n (fun r => { r with fetched := r.fetched.drop m })

/-- What is at the front of ring `n` next is settled. -/
def State.txNext (s : State) (n : Nat) : State := s.settleTx n ((s.ring n).fetched.length + 1)

/-- A frame of ring `n` that completes later, with its descriptors. -/
def State.txDirect (s : State) (n : Nat) (d : Desc) (ds : List Desc) : Direct :=
  { ring := some n, era := (s.ring n).era, fn := s.ringFn n,
    cookies := (d :: ds).map (fun x => (x.idx, BitVec.ofNat 32 (txCookie x))),
    stampReq := txStampReq d, tag := txTag d, launch := d.launch }

/-- A frame in lookup mode, as it waits for its lookup. -/
def State.txPre (s : State) (n : Nat) (d : Desc) (ds : List Desc) (stamp : Nat) (b : Bytes) : PreFrame :=
  { bytes := b, inPort := 256, stamp := stamp, ptp := (parse b).isPtp, tx := some (s.txDirect n d ds) }

/-- A frame in direct mode. -/
def State.txFrame (s : State) (n : Nat) (d : Desc) (ds : List Desc) (b : Bytes) : Frame :=
  { bytes := b, inPort := 256, res := { destKind := 0, dest := txDest d, cls := txClass d },
    direct := some (s.txDirect n d ds) }

section
variable {s : State} {n : Nat} {d : Desc} {ds : List Desc} {data : Bytes}
  (hh : txHead (s.ring n).fetched = .whole (d :: ds)) (hl : data.length = (d :: ds).foldl (fun k x => k + txLen x) 0)
  (hc : s.txCodes n d = [])
include hh hl hc

/-- What becomes of a whole frame that nothing refuses, by its mode and by the room there is. -/
theorem State.txData_unrefused : s.txData n data =
    if txMode d = 0 then
      if (s.txRead n (d :: ds)).preRoom ((s.txRead n (d :: ds)).txTileOf n d) (padFrame data).length
          (parse (padFrame data)).isPtp then
        (((s.txRead n (d :: ds)).draw.2.txTake n (d :: ds).length).preAdd ((s.txRead n (d :: ds)).txTileOf n d)
          (s.txPre n d ds (s.txRead n (d :: ds)).draw.1 (padFrame data))).txNext n
      else s.txRead n (d :: ds)
    else if (s.txRead n (d :: ds)).directRoom (txDest d) (if txLaunchEn d then 8 + txLaunchQ d else txClass d)
        (padFrame data).length (txLaunchEn d) then
      (if txLaunchEn d then ((s.txRead n (d :: ds)).txTake n (d :: ds).length).enqueueLaunch (txDest d) (txLaunchQ d)
          (s.txFrame n d ds (padFrame data))
        else ((s.txRead n (d :: ds)).txTake n (d :: ds).length).enqueue (txDest d) (txClass d)
          (s.txFrame n d ds (padFrame data))).txNext n
    else (((s.txRead n (d :: ds)).txTake n (d :: ds).length).txRefuse n (d :: ds) stNoSpace).txNext n := by
  have hcodes : ¬ (!((s.txRead n (d :: ds)).txCodes n d).isEmpty) = true := by
    rw [(s.txRead_quiet n _).txCodes, hc]
    decide
  rw [State.txData, hh]
  dsimp only
  rw [if_neg (by simp [hl])]
  exact if_neg hcodes

theorem State.txData_lookup (hm : txMode d = 0)
    (hr : s.preRoom (s.txTileOf n d) (padFrame data).length (parse (padFrame data)).isPtp = true) :
    s.txData n data = (((s.txRead n (d :: ds)).draw.2.txTake n (d :: ds).length).preAdd (s.txTileOf n d)
      (s.txPre n d ds (s.txRead n (d :: ds)).draw.1 (padFrame data))).txNext n := by
  have hq := s.txRead_quiet n (d :: ds)
  rw [State.txData_unrefused hh hl hc, if_pos hm, hq.txTileOf, if_pos ((hq.preRoom _ _ _).trans hr)]

theorem State.txData_launch (hm : txMode d = 1) (hla : txLaunchEn d = true)
    (hr : s.directRoom (txDest d) (8 + txLaunchQ d) (padFrame data).length true = true) :
    s.txData n data = (((s.txRead n (d :: ds)).txTake n (d :: ds).length).enqueueLaunch (txDest d) (txLaunchQ d)
      (s.txFrame n d ds (padFrame data))).txNext n := by
  rw [State.txData_unrefused hh hl hc, if_neg (by simp [hm]), hla, if_pos rfl, if_pos rfl,
    if_pos (((s.txRead_quiet n (d :: ds)).directRoom _ _ _ _).trans hr)]

theorem State.txData_noRoom (hm : txMode d = 1)
    (hr : s.directRoom (txDest d) (if txLaunchEn d then 8 + txLaunchQ d else txClass d) (padFrame data).length
      (txLaunchEn d) = false) :
    s.txData n data = (((s.txRead n (d :: ds)).txTake n (d :: ds).length).txRefuse n (d :: ds) stNoSpace).txNext n := by
  rw [State.txData_unrefused hh hl hc, if_neg (by simp [hm]), (s.txRead_quiet n (d :: ds)).directRoom, hr]
  rfl

end

theorem fetched_of_whole {l : List Desc} {d : Desc} {ds : List Desc} (h : txHead l = .whole (d :: ds)) : l ≠ [] := by
  rintro rfl
  exact TxHead.noConfusion h

/-- A frame of a launch-time queue whose port is UP joins it. -/
theorem State.enqueueLaunch_up {s : State} {p : Nat} (h : s.portState p = 5) (q : Nat) (f : Frame) :
    (∃ e, ((s.enqueueLaunch p q f).queue (queueKey p (8 + q))).onTile =
      (s.queue (queueKey p (8 + q))).onTile ++ [{ f with enq := e }]) ∧ ∀ k, (s.enqueueLaunch p q f).ring k = s.ring k := by
  have he : s.enqueueLaunch p q f = s.append p (8 + q) f := if_pos (by simp [h])
  rw [he]
  refine ⟨?_, fun k => (State.append_kept p (8 + q) f (fun _ h => h) (.refl _ s)).ring (by decide) k⟩
  rw [State.append, State.queue_upQueue_same]
  split <;> exact ⟨_, rfl⟩

/-- A frame that leaves its ring leaves fewer descriptors there, whatever is settled after it. -/
theorem State.txNext_fetched {s u : State} {n m : Nat} (hs : (s.ring n).fetched ≠ [])
    (hu : (u.ring n).fetched = (s.ring n).fetched.drop (m + 1)) :
    ((u.txNext n).ring n).fetched.length < (s.ring n).fetched.length := by
  have hle : ((u.txNext n).ring n).fetched.length ≤ _ := u.settleTx_fetched n _
  have hpos := List.length_pos_iff.2 hs
  rw [hu, List.length_drop] at hle
  omega

theorem State.txNext_tile (u : State) (n k : Nat) : (u.txNext n).tile k = u.tile k := by
  simp only [State.tile, (u.settleTx_ringed n _).still.tiles, State.txNext]

theorem State.txNext_queue (u : State) (n k : Nat) : (u.txNext n).queue k = u.queue k := by
  simp only [State.queue, (u.settleTx_ringed n _).still.queues, State.txNext]

theorem State.txTake_fetched (s : State) (n m : Nat) : ((s.txTake n m).ring n).fetched = (s.ring n).fetched.drop m := by
  rw [State.txTake, State.ring_upRing_same]

theorem State.exec_txData {s : State} {n : Nat} {data : Bytes} (hu : s.pcieUp = true) (hs : s.ringState n ≠ 0)
    (ht : s.ringType n = 0) : exec (.txFrameDataRead n data) s = .next (s.txData n data) :=
  congrArg Host.Outcome.next (if_pos (by simp [hu, hs, ht]))

end Sys2Proof.Machine

namespace Sys2Proof.Proofs

open Sys2Proof.Machine

/-- Settles O21: the fetch index counts what arrives, and a whole frame joins its buffer or its queue, or completes NOSPACE. -/
theorem descriptorsAreFetchedAndFramesSent : Obligations.DescriptorsAreFetchedAndFramesSent := by
  unfold Obligations.DescriptorsAreFetchedAndFramesSent
  refine ⟨fun n descs s hu hs hp hd hf => ?_, fun n d ds data s hu hs ht hh hl hc hm hr => ?_,
    fun n d ds data s hu hs ht hh hl hc hm hla hr hport => ?_, fun n d ds data s hu hs ht hh hl hc hm hr => ?_⟩
  · have hfetch : s.fetchDescs n descs = ((List.range (descs.take (s.published n)).length).foldl
        (State.fetchOne n (descs.take (s.published n))) s).settleRing n := if_pos (by simp [hu, hs, hp, hd])
    refine ⟨_, rfl, ?_⟩
    rw [hfetch, (State.settleRing_unfetched _ n).fetch, State.foldl_arrive_fetch _ _ _ _ hf, List.length_range,
      List.length_take, Nat.min_comm]
  · have hq := s.txRead_quiet n (d :: ds)
    refine ⟨_, s.txPre n d ds (s.txRead n (d :: ds)).draw.1 (padFrame data), State.exec_txData hu hs ht, rfl, rfl, ?_, ?_⟩
    · rw [State.txData_lookup hh hl hc hm hr, State.txNext_tile, State.preAdd, State.tile_upTile_same]
      exact congrArg (fun y : Tile => y.pre ++ _) (hq.tile _)
    · rw [State.txData_lookup hh hl hc hm hr]
      refine State.txNext_fetched (m := ds.length) (fetched_of_whole hh) ((State.txTake_fetched _ n _).trans ?_)
      exact congrArg (List.drop _) (hq.fetched n).1
  · have hq := s.txRead_quiet n (d :: ds)
    have hport' : ((s.txRead n (d :: ds)).txTake n (d :: ds).length).portState (txDest d) = 5 := (hq.portState _).trans hport
    obtain ⟨⟨e, he⟩, hring⟩ := State.enqueueLaunch_up hport' (txLaunchQ d) (s.txFrame n d ds (padFrame data))
    refine ⟨_, { s.txFrame n d ds (padFrame data) with enq := e }, State.exec_txData hu hs ht, rfl, rfl, ?_, ?_⟩
    · rw [State.txData_launch hh hl hc hm hla hr, State.txNext_queue, he]
      exact congrArg (fun y : EQueue => y.onTile ++ _) (hq.queue _)
    · rw [State.txData_launch hh hl hc hm hla hr]
      refine State.txNext_fetched (m := ds.length) (fetched_of_whole hh) ((congrArg Ring.fetched (hring n)).trans
        ((State.txTake_fetched _ n _).trans ?_))
      exact congrArg (List.drop _) (hq.fetched n).1
  · have hq := s.txRead_quiet n (d :: ds)
    refine ⟨_, State.exec_txData hu hs ht, ?_, ?_⟩
    · rw [State.txData_noRoom hh hl hc hm hr]
      intro x hx
      obtain ⟨i, p, h⟩ := State.txRefuse_sent n stNoSpace (d :: ds) _ x hx
      have hbefore : s.Kept reports ((s.txRead n (d :: ds)).txTake n (d :: ds).length) :=
        State.upRing_kept _ _ (by decide) (s.txRead_kept n (d :: ds)) (fun _ h => h)
      exact ⟨i, p, (State.settleTx_kept (fun _ h => h) _ n (.refl reports _)).sent_after (hbefore.sent_before h)⟩
    · rw [State.txData_noRoom hh hl hc hm hr]
      refine State.txNext_fetched (m := ds.length) (fetched_of_whole hh) ((State.txRefuse_fetched n _ _ _).trans
        ((State.txTake_fetched _ n _).trans ?_))
      exact congrArg (List.drop _) (hq.fetched n).1

end Sys2Proof.Proofs
end

section
/-!
PROOF. Register writes that act at once (R62, R72, R213, R328, R382, R384, R396).
-/

namespace Sys2Proof.Machine

/-! ### Where the addresses lie (R48, R580, R584) -/

/-- The PF reaches the register at an address, in the copy there, but for its own two base registers and those of a port that a
wider one may leave unused. -/
theorem State.locate_pf (s : State) {a i : Nat} {l : List Slot} (h : findReg a (blockRegs a) = some (l, i))
    (hb : 0x100410 ≤ a) (hp : a < 0x3020000 ∨ 0x3022000 ≤ a) : s.locate .pf a = some (l, i) := by
  have hph : ¬ (0x3020000 ≤ a ∧ a < 0x3022000) := by omega
  have hcopy : fnCopy 0 a i = i := by
    rw [fnCopy, if_neg (by omega)]
    split <;> omega
  have h' : s.locate .pf a = (findReg a (blockRegs a)).map (fun x => (x.1, fnCopy 0 a x.2)) := by
    simp [State.locate, fullAddr, pathFn, hph]
  rw [h', h, Option.map_some, hcopy]

/-- A register of the timing plane or of Meridian is written while TCLK runs. -/
theorem State.stoppedAt_timing {s : State} {a : Nat} (h : s.time.running = true) (h1 : 0x3000000 ≤ a) (h2 : a < 0x3800000) :
    s.stoppedAt a = false := by
  rw [State.stoppedAt, if_neg (by omega), if_pos ⟨h1, h2⟩, h]
  rfl

/-- The clock of the host interface's registers is not stopped. -/
theorem State.stoppedAt_host (s : State) {a : Nat} (h : a < 0x1000000) : s.stoppedAt a = false := by
  rw [State.stoppedAt, if_neg (by omega), if_neg (by omega), if_neg (by omega), if_neg (by omega)]

theorem findReg_pllVco : ∀ i ∈ [5, 6], findReg (0x3060008 + 0x20 * i) (blockRegs (0x3060008 + 0x20 * i)) =
    some ([⟨TPL_PLL_VCO.F_VCO, 0, .rw, false⟩], i) := by decide +kernel

theorem findReg_outDiv : ∀ i < 8, findReg (0x3070004 + 0x20 * i) (blockRegs (0x3070004 + 0x20 * i)) =
    some ([⟨TPL_OUT_DIV.D, 0, .rw, false⟩], i) := by decide +kernel

theorem findReg_outPw : ∀ i < 8, findReg (0x3070008 + 0x20 * i) (blockRegs (0x3070008 + 0x20 * i)) =
    some ([⟨TPL_OUT_PW.HIGH, 0, .rw, false⟩], i) := by decide +kernel

theorem findReg_msixCtrl : ∀ n < 256, findReg (0x10800C + 0x10 * n) (blockRegs (0x10800C + 0x10 * n)) =
    some ([⟨HIF_MSIX_CTRL.MASK, 0, .rw, false⟩], n) := by decide +kernel

theorem findReg_genCfg : ∀ g < 16, findReg (0x3400000 + 0x20 * g) (blockRegs (0x3400000 + 0x20 * g)) =
    some ([⟨MER_GEN_CFG.EN, 0, .rw, true⟩, ⟨MER_GEN_CFG.RATE_GO, 1, .wo, true⟩], g) := by decide +kernel

theorem findReg_ringCfg : ∀ n < 256, findReg (0x101000 + 0x20 * n + 0x10) (blockRegs (0x101000 + 0x20 * n + 0x10)) =
    some ([⟨HIF_RING_CFG.ENABLE, 0, .rw, true⟩, ⟨HIF_RING_CFG.TYPE, 1, .rw, false⟩, ⟨HIF_RING_CFG.SIZE_LOG2, 4, .rw, false⟩,
      ⟨HIF_RING_CFG.FUNC, 9, .rw, false⟩, ⟨HIF_RING_CFG.VECTOR, 14, .rw, false⟩, ⟨HIF_RING_CFG.AUX, 22, .rw, false⟩], n) := by
  decide +kernel

/-- A write by the PF to a register of one field is that field's. -/
theorem exec_registerWrite_one {s : State} {addr i : Nat} {x : Slot} (v : Word) (hp : s.pcieUp = true)
    (hs : s.stoppedAt addr = false) (hl : s.locate .pf addr = some ([x], i)) (he : x.fld.id ≠ MER_GEN_CFG.EN.id) :
    ∃ u, s.Quiet u ∧ s.Kept [.regs, .hmk] u ∧
      exec (.registerWrite .pf addr ⟨v, none⟩) s = .next (u.writeSlot .pf i v.toNat x) :=
  ⟨_, s.accessPerf_quiet .pf addr, State.accessPerf_kept _ _ (fun _ h => h) (.refl _ s),
    exec_registerWrite_fields (p := .pf) v hp hs hp hl (by simpa using he)⟩

/-! ### What each field does at once -/

theorem State.writeSlot_pllVco (s : State) {i : Nat} (v : Nat) (hi : i = 5 ∨ i = 6) :
    s.writeSlot .pf i v ⟨TPL_PLL_VCO.F_VCO, 0, .rw, false⟩ =
      (s.setF TPL_PLL_VCO.F_VCO (bits v 0 TPL_PLL_VCO.F_VCO.width) i).setF TPL_PLL_STAT.PENDING 1 i := by
  rcases hi with rfl | rfl <;> rfl

theorem State.writeSlot_outDiv (s : State) (i v : Nat) : s.writeSlot .pf i v ⟨TPL_OUT_DIV.D, 0, .rw, false⟩ =
    (s.setF TPL_OUT_DIV.D (bits v 0 TPL_OUT_DIV.D.width) i).setF TPL_OUT_STAT.PENDING 1 i := rfl

theorem State.writeSlot_outPw (s : State) (i v : Nat) : s.writeSlot .pf i v ⟨TPL_OUT_PW.HIGH, 0, .rw, false⟩ =
    (s.setF TPL_OUT_PW.HIGH (bits v 0 TPL_OUT_PW.HIGH.width) i).setF TPL_OUT_STAT.PENDING 1 i := rfl

theorem State.writeSlot_txCorr (s : State) (i v : Nat) : s.writeSlot .pf i v ⟨TPL_STC_TX.TX_CORR, 0, .rw, false⟩ =
    (s.holdCorr 0 i).setF TPL_STC_TX.TX_CORR (bits v 0 20) i := rfl

theorem State.writeSlot_rxCorr (s : State) (i v : Nat) : s.writeSlot .pf i v ⟨TPL_STC_RX.RX_CORR, 0, .rw, false⟩ =
    (s.holdCorr 1 i).setF TPL_STC_RX.RX_CORR (bits v 0 20) i := rfl

theorem State.writeSlot_xonGap (s : State) (i v : Nat) : s.writeSlot .pf i v ⟨TIL_BUF_XON.XON_GAP, 0, .rw, false⟩ =
    (s.setF TIL_BUF_XON.XON_GAP (bits v 0 8) i).xonAll := rfl

/-! ### A vector unmasked (R72) -/

theorem bit_putBit_false (v n : Nat) : bit (putBit v n false) n = false := by
  have h : putBit v n false >>> n = v >>> n - v >>> n % 2 := by
    simp only [putBit, putBits, bits, Nat.shiftLeft_eq, Nat.shiftRight_eq_div_pow]
    rw [Nat.mul_comm _ (2 ^ n)]
    simp [Nat.sub_mul_div]
  have h2 : (v >>> n - v >>> n % 2) % 2 = 0 := by omega
  rw [bit, h, h2]
  rfl

/-- Function 0's vector `n`, whose message no longer pends. -/
def State.unpend (s : State) (n : Nat) : State := s.upFn 0 (fun x => { x with pba := putBit x.pba n false })

/-- MASK of a vector with a message pending cleared: the message is sent. -/
theorem State.writeSlot_mask {s : State} {n v : Nat} (hn : n < 256) (hv : bit v 0 = false)
    (hp : bit (s.fn 0).pba n = true) : s.writeSlot .pf n v ⟨HIF_MSIX_CTRL.MASK, 0, .rw, false⟩ =
      ((s.setF HIF_MSIX_CTRL.MASK 0 n).unpend n).msix 0 n := by
  have hb : bits v 0 1 = 0 := by
    simp only [bit, bits, beq_eq_false_iff_ne] at hv ⊢
    omega
  have hmask : (s.setF HIF_MSIX_CTRL.MASK 0 n).isF HIF_MSIX_CTRL.MASK n = false := by
    rw [State.isF, State.getF_setF_same]
    rfl
  have hw : s.writeSlot .pf n v ⟨HIF_MSIX_CTRL.MASK, 0, .rw, false⟩ =
      (s.setF HIF_MSIX_CTRL.MASK (bits v 0 1) n).written s HIF_MSIX_CTRL.MASK n := rfl
  have hact : (s.setF HIF_MSIX_CTRL.MASK 0 n).written s HIF_MSIX_CTRL.MASK n =
      if !(s.setF HIF_MSIX_CTRL.MASK 0 n).isF HIF_MSIX_CTRL.MASK n && bit (s.fn (n / 256)).pba (n % 256) then
        ((s.setF HIF_MSIX_CTRL.MASK 0 n).upFn (n / 256) (fun x => { x with pba := putBit x.pba (n % 256) false })).msix
          (n / 256) (n % 256)
      else s.setF HIF_MSIX_CTRL.MASK 0 n := rfl
  rw [hw, hb, hact, Nat.div_eq_of_lt hn, Nat.mod_eq_of_lt hn, hmask, hp]
  rfl

/-- What sending the message leaves. -/
theorem State.unmasked {s : State} {n : Nat} :
    (((s.setF HIF_MSIX_CTRL.MASK 0 n).unpend n).msix 0 n).getF HIF_MSIX_CTRL.MASK n = 0 ∧
      bit ((((s.setF HIF_MSIX_CTRL.MASK 0 n).unpend n).msix 0 n).fn 0).pba n = false ∧
      Out.msix 0 n ∈ (((s.setF HIF_MSIX_CTRL.MASK 0 n).unpend n).msix 0 n).out.drop s.out.length := by
  have hget : ((s.setF HIF_MSIX_CTRL.MASK 0 n).unpend n).getF HIF_MSIX_CTRL.MASK n = 0 :=
    State.getF_setF_same s HIF_MSIX_CTRL.MASK 0 n
  have hmask : ((s.setF HIF_MSIX_CTRL.MASK 0 n).unpend n).isF HIF_MSIX_CTRL.MASK (0 * 256 + n) = false := by
    rw [Nat.zero_mul, Nat.zero_add, State.isF, hget]
    rfl
  refine ⟨((State.msix_quiet _ _ _).getF _ n (by decide)).trans hget, ?_, State.msix_sent hmask⟩
  rw [State.msix, if_neg (by rw [hmask]; exact Bool.false_ne_true),
    (State.perf_kept _ _ (fun _ h => h) (.refl _ _)).fn (by decide)]
  exact (congrArg (fun x : Fn => bit x.pba n) (State.fn_upFn_same (s.setF HIF_MSIX_CTRL.MASK 0 n) 0
    (fun x => { x with pba := putBit x.pba n false }))).trans
    (bit_putBit_false _ n)

/-! ### A generator stopped (R396) -/

theorem State.writeReg_genCfg {s : State} {addr g v : Nat} (hl : s.locate .pf addr =
    some ([⟨MER_GEN_CFG.EN, 0, .rw, true⟩, ⟨MER_GEN_CFG.RATE_GO, 1, .wo, true⟩], g)) (hv : bit v 0 = false) (hg : g ≠ 0) :
    s.writeReg .pf addr v = (s.setF MER_GEN_CFG.EN 0 g).setF MER_GEN_STAT.SUPPRESSING 0 g := by
  rw [State.writeReg, hl]
  exact if_pos (by simp [hv, hg])

/-! ### The configuration of a ring that is enabled (R60, R62) -/

theorem State.writeSlot_own (s : State) (p : Path) (i v : Nat) {x : Slot} (h : x.own = true) : s.writeSlot p i v x = s := by
  simp [State.writeSlot, h]

/-- TYPE, SIZE_LOG2 and FUNC stand while ENABLE is 1. -/
theorem State.writeSlot_ringFixed {s : State} {n : Nat} (h : s.isF HIF_RING_CFG.ENABLE n = true) (p : Path) (v : Nat)
    {x : Slot} (hx : x.fld.id ∈ ringFixed) : s.writeSlot p n v x = s := by
  simp [State.writeSlot, State.fieldFixed, h, hx]

/-- A VECTOR of 8 or more in a running ring of a VF: the ring is in ERROR with reason CONFIG. -/
theorem State.writeSlot_vector {s : State} {n v : Nat} (hs : s.ringState n = 1) (hf : s.ringFn n ≠ 0)
    (hv : 8 ≤ bits v 14 8) : s.writeSlot .pf n v ⟨HIF_RING_CFG.VECTOR, 14, .rw, false⟩ =
      (s.setF HIF_RING_CFG.VECTOR (bits v 14 8) n).ringFail n 1 := by
  have hget : (s.setF HIF_RING_CFG.VECTOR (bits v 14 8) n).getF HIF_RING_CFG.VECTOR n = bits v 14 8 := by
    rw [State.getF_setF_same]
    exact Nat.mod_mod _ _
  have hst : (s.setF HIF_RING_CFG.VECTOR (bits v 14 8) n).ringState n = 1 :=
    (State.getF_setF_other _ _ _ _ _ _ (.inl (by decide))).trans hs
  have hfn : (s.setF HIF_RING_CFG.VECTOR (bits v 14 8) n).ringFn n ≠ 0 := by
    rw [State.ringFn, State.getF_setF_other _ _ _ _ _ _ (.inl (by decide))]
    exact hf
  have hw : s.writeSlot .pf n v ⟨HIF_RING_CFG.VECTOR, 14, .rw, false⟩ =
      if (s.setF HIF_RING_CFG.VECTOR (bits v 14 8) n).ringState n == 1 &&
          (s.setF HIF_RING_CFG.VECTOR (bits v 14 8) n).ringFn n != 0 &&
          decide (8 ≤ (s.setF HIF_RING_CFG.VECTOR (bits v 14 8) n).getF HIF_RING_CFG.VECTOR n) then
        (s.setF HIF_RING_CFG.VECTOR (bits v 14 8) n).ringFail n 1
      else s.setF HIF_RING_CFG.VECTOR (bits v 14 8) n := rfl
  rw [hw, hget, hst]
  exact if_pos (by simp [hfn, hv])

theorem State.writeSlot_aux (s : State) (n v : Nat) : s.writeSlot .pf n v ⟨HIF_RING_CFG.AUX, 22, .rw, false⟩ =
    s.setF HIF_RING_CFG.AUX (bits v 22 8) n := rfl

end Sys2Proof.Machine

namespace Sys2Proof.Proofs

open Sys2Proof.Machine

/-- Settles O10: each write by its register's fields, and what the last of them does at once. -/
theorem registerWritesThatActAtOnce : Obligations.RegisterWritesThatActAtOnce := by
  unfold Obligations.RegisterWritesThatActAtOnce
  refine ⟨fun s i v hp ht hi => ?_, fun s i v hp ht hi => ?_, fun s i v hp ht hi => ?_, fun s n v hp hn hv hb => ?_,
    fun s g v hp ht h1 hg hv => ?_, fun s n v hp hn hs hf he hv => ?_, fun s addr i v hp hs hl => ?_,
    fun s addr i v hp hs hl => ?_, fun s addr i v hp hs hl => ?_⟩
  · obtain ⟨u, hu, -, he⟩ := exec_registerWrite_one v hp (State.stoppedAt_timing ht (by omega) (by omega))
      (s.locate_pf (findReg_pllVco i (by simpa using hi)) (by omega) (by omega)) (by decide)
    exact ⟨u, _, hu, he, u.writeSlot_pllVco _ hi⟩
  · obtain ⟨u, hu, -, he⟩ := exec_registerWrite_one v hp (State.stoppedAt_timing ht (by omega) (by omega))
      (s.locate_pf (findReg_outDiv i hi) (by omega) (by omega)) (by decide)
    exact ⟨u, _, hu, he, u.writeSlot_outDiv i _⟩
  · obtain ⟨u, hu, -, he⟩ := exec_registerWrite_one v hp (State.stoppedAt_timing ht (by omega) (by omega))
      (s.locate_pf (findReg_outPw i hi) (by omega) (by omega)) (by decide)
    exact ⟨u, _, hu, he, u.writeSlot_outPw i _⟩
  · obtain ⟨u, -, hk, he⟩ := exec_registerWrite_one v hp (s.stoppedAt_host (by omega))
      (s.locate_pf (findReg_msixCtrl n hn) (by omega) (by omega)) (by decide)
    rw [State.writeSlot_mask hn hv ((congrArg (fun x : Fn => bit x.pba n) (hk.fn (by decide) 0)).trans hb)] at he
    obtain ⟨hmask, hpba, hsent⟩ := u.unmasked (n := n)
    exact ⟨_, he, hmask, hpba, hk.sent_before hsent⟩
  · have hq := s.accessPerf_quiet .pf (0x3400000 + 0x20 * g)
    have hl := s.locate_pf (findReg_genCfg g hg) (by omega) (by omega)
    have hst : s.stoppedAt (0x3400000 + 0x20 * g) = false := State.stoppedAt_timing ht (by omega) (by omega)
    refine ⟨_, exec_registerWrite_runs (p := .pf) v none hp hst, ?_⟩
    rw [State.writeAccess, if_pos ((hq.writeMay .pf _).trans hp), State.writeReg_genCfg ((hq.locate .pf _).trans hl) hv (by omega)]
    exact (hq.setF _ 0 g).setF _ 0 g
  · have hq := s.accessPerf_quiet .pf (0x101000 + 0x20 * n + 0x10)
    have hl := s.locate_pf (findReg_ringCfg n hn) (by omega) (by omega)
    have hen := (hq.isF HIF_RING_CFG.ENABLE n (by decide)).trans he
    have hst : s.stoppedAt (0x101000 + 0x20 * n + 0x10) = false := s.stoppedAt_host (by omega)
    have hfields := exec_registerWrite_fields (p := .pf) v hp hst hp hl (by decide)
    simp only [List.foldl_cons, List.foldl_nil] at hfields
    rw [State.writeSlot_own _ _ _ _ (x := ⟨HIF_RING_CFG.ENABLE, 0, .rw, true⟩) rfl, State.writeSlot_ringFixed hen _ _ (by decide),
      State.writeSlot_ringFixed hen _ _ (by decide), State.writeSlot_ringFixed hen _ _ (by decide),
      State.writeSlot_vector ((hq.getF HIF_RING_STAT.STATE n (by decide)).trans hs)
        (by rw [hq.ringFn]; exact hf) hv, State.writeSlot_aux] at hfields
    refine ⟨_, hfields, ?_, ?_, ?_⟩
    · exact (State.getF_setF_other _ _ _ _ _ _ (.inl (by decide))).trans (State.ringFail_state _ n 1)
    · exact (State.getF_setF_other _ _ _ _ _ _ (.inl (by decide))).trans (State.ringFail_reason _ n (by decide))
    · rw [State.getF_setF_other _ _ _ _ _ _ (.inl (by decide)), State.ringFail,
        State.getF_setF_other _ _ _ _ _ _ (.inl (by decide)), State.getF_setF_other _ _ _ _ _ _ (.inl (by decide)),
        State.getF_setF_same]
      exact Nat.mod_mod _ _
  · obtain ⟨u, hu, -, he⟩ := exec_registerWrite_one v hp hs hl (by decide)
    exact ⟨u, hu, he.trans (congrArg _ (u.writeSlot_txCorr i _))⟩
  · obtain ⟨u, hu, -, he⟩ := exec_registerWrite_one v hp hs hl (by decide)
    exact ⟨u, hu, he.trans (congrArg _ (u.writeSlot_rxCorr i _))⟩
  · obtain ⟨u, hu, -, he⟩ := exec_registerWrite_one v hp hs hl (by decide)
    exact ⟨u, hu, he.trans (congrArg _ (u.writeSlot_xonGap i _))⟩

end Sys2Proof.Proofs
end

section
/-!
PROOF. FW_STAGE and FW_ACTIVATE: the slot that does not run is staged, booted under a fence, and given up in time (R111, R430,
R431).
-/

namespace Sys2Proof.Machine

/-! ### Slots and images after what leaves the flash alone (R558) -/

/-- The flash and the fuses say which slots boot. -/
theorem State.slotBoots_congr {s t : State} (hf : t.flash = s.flash) (hu : t.fuses = s.fuses) (k : Nat) :
    t.slotBoots k = s.slotBoots k := by
  have hi : ∀ i, t.imageOk i = s.imageOk i := fun i => by simp only [State.imageOk, hu]
  simp only [State.slotBoots, State.slotImage, hf, hi]

theorem State.Kept.slotBoots {ps : List Part} {s t : State} (h : s.Kept ps t) (hf : Part.flash ∉ ps)
    (hu : Part.fuses ∉ ps) (k : Nat) : t.slotBoots k = s.slotBoots k :=
  State.slotBoots_congr (h.only .flash hf) (h.only .fuses hu) k

theorem State.Quiet.runningSlot {s v : State} (h : s.Quiet v) : v.runningSlot = s.runningSlot :=
  h.getF GLB_BOOT_STAT.SLOT 0 (by decide)

theorem State.Quiet.slotImage {s v : State} (h : s.Quiet v) (k : Nat) : v.slotImage k = s.slotImage k := by
  simp only [State.slotImage, h.still.flash]

/-- What GLB_BOOT_STAT shows of a slot that is started (R579). -/
theorem State.startSlot_regs (s : State) (k : Nat) (fallback : Bool) :
    (s.startSlot k fallback).getF GLB_BOOT_STAT.SLOT = k % 2 ∧
      (s.startSlot k fallback).getF GLB_BOOT_STAT.FALLBACK = flag fallback ∧
      (s.startSlot k fallback).getF GLB_BOOT_STAT.STAGE = 5 := by
  refine ⟨?_, ?_, ?_⟩
  · exact (State.getF_setF_other _ _ _ _ _ _ (.inl (by decide))).trans (State.getF_setF_same _ _ _ _)
  · refine (State.getF_setF_same _ _ _ _).trans ?_
    cases fallback <;> rfl
  · exact (State.getF_setF_other _ _ _ _ _ _ (.inl (by decide))).trans
      ((State.getF_setF_other _ _ _ _ _ _ (.inl (by decide))).trans (State.getF_setF_same _ _ _ _))

/-- The image that FW_STAGE puts into the slot that does not run (R430). -/
def State.stageFlash (s : State) (img : Image) : Flash :=
  if s.runningSlot = 0 then { s.flash with slotB := some img } else { s.flash with slotA := some img }

/-! ### Firmware stops (R423) -/

/-- Firmware executes as before. -/
def State.RunSame (s t : State) : Prop := t.fw.running = s.fw.running

theorem State.RunSame.trans {s t u : State} (h : s.RunSame t) (k : t.RunSame u) : s.RunSame u := Eq.trans k h

theorem State.Kept.runSame {ps : List Part} {s t : State} (h : s.Kept ps t) (hf : Part.fw ∉ ps) : s.RunSame t :=
  congrArg Fw.running (h.only .fw hf)

theorem State.done_runSame (s : State) (c : Cmd) (status : Nat) : s.RunSame (s.done c status) :=
  (State.done_kept c status 0 0 0 (fun _ h => h) (.refl _ s)).runSame (by decide)

theorem State.foldl_done_runSame (status : Nat) (l : List Cmd) :
    ∀ s : State, s.RunSame (l.foldl (fun s c => s.done c status) s) := by
  induction l with
  | nil => exact fun _ => rfl
  | cons c l ih => exact fun s => (s.done_runSame c status).trans (ih _)

/-- A command that firmware owed completes. -/
theorem State.owed_runSame {s : State} {x : Option Cmd} {fw : Fw} (h : fw.running = s.fw.running) :
    s.RunSame (match x with | some c => ({ s with fw := fw }).done c stFenced | none => s) := by
  cases x with
  | none => exact rfl
  | some c => exact State.RunSame.trans (t := { s with fw := fw }) h (State.done_runSame _ _ _)

theorem State.temperSuspend_runSame (s : State) : s.RunSame s.temperSuspend := by
  unfold State.temperSuspend
  extract_lets s1 s2 _ s3 s4
  have h4 : s.RunSame s4 := rfl
  clear_value s4
  refine h4.trans ?_
  unfold State.endTemperRun
  split
  · exact State.RunSame.trans (t := { s4 with fw := { s4.fw with temper := none } }) rfl (State.done_runSame _ _ _)
  · rfl

theorem State.fwStops_running (s : State) : s.fwStops.fw.running = false := by
  unfold State.fwStops
  extract_lets _ s1 s2 s3 _ s4 s5 _ s6 _ s7 s8
  have h2 : s1.RunSame s2 :=
    (State.endCondition_kept 0x141 (fun _ h => h) (.refl _ ((s1.setF MER_BUDGET_STAT.HB_ARMED 0).setF
      MER_BUDGET_STAT.MISS_RUN 0))).runSame (by decide)
  have h3 : s2.RunSame s3 := (State.abortTraining_kept (fun _ h => h) (.refl _ _)).runSame (by decide)
  clear_value s3
  have h4 : s3.RunSame s4 := by
    unfold s4
    split <;> rfl
  clear_value s4
  have h5 : s4.RunSame s5 := State.RunSame.trans (t := { s4 with fw := { s4.fw with timeAuth := [] } }) rfl
    (State.foldl_done_runSame _ _ _)
  clear_value s5
  have h6 : s5.RunSame s6 := State.owed_runSame rfl
  clear_value s6
  have h7 : s6.RunSame s7 := by
    unfold s7
    split
    · next a _ =>
      split
      · rfl
      · exact State.owed_runSame (x := some a.cmd) rfl
    · rfl
  clear_value s7
  have h8 : s7.RunSame s8 := s7.temperSuspend_runSame
  clear_value s8
  have h9 : s8.RunSame _ := (State.Kept.foldl _ (List.range 8) (.refl _ s8) (fun t c ht =>
    State.flushQueue_kept 257 c 0x37 false (fun _ h => h) ht)).runSame (by decide)
  exact (((((((h2.trans h3).trans h4).trans h5).trans h6).trans h7).trans h8).trans h9)

/-! ### The control complex fenced by FW_ACTIVATE (R422, R423, R430) -/

/-- The control complex fenced: firmware has stopped, and the fence names its requester. -/
theorem State.fenceAccept_control (s : State) (who : Requester) (fault : Option Nat) :
    (s.fenceAccept who 8 fault).fw.running = false ∧ ((s.fenceAccept who 8 fault).fence 8).by_ = who := by
  have h : s.fenceAccept who 8 fault =
      ((s.upFence 8 (fun x => { x with st := 1, by_ := who, fault := fault })).countDrops).fwStops := rfl
  have hk : (s.upFence 8 (fun x => { x with st := 1, by_ := who, fault := fault })).Kept
      (reports ++ [.ports, .epochs, .fabric, .acct, .queues, .time, .phases, .fw, .quench, .temper, .free])
      (s.fenceAccept who 8 fault) := by
    rw [h]
    exact State.fwStops_kept (by decide) (State.countDrops_kept (by decide) (.refl _ _))
  have hf : (s.fenceAccept who 8 fault).fences = (s.upFence 8 (fun x => { x with st := 1, by_ := who, fault := fault })).fences :=
    hk.only .fences (by decide)
  refine ⟨h ▸ State.fwStops_running _, ?_⟩
  rw [State.fence, hf]
  exact congrArg Fence.by_ (State.fence_upFence_same s 8 (fun x => { x with st := 1, by_ := who, fault := fault }))

/-- Firmware's window done and its fence taken, before the control complex is fenced (R430 step 3). -/
def State.fenceTaken (s : State) (a : Activate) : State :=
  let s := { s with window := { s.window with done := s.window.done || s.window.opened } }
  let s := (s.setF MER_BUDGET_STAT.MISS_RUN 0).clearFault 0x141
  { s with fw := { s.fw with activate := some { a with fenced := true } } }

/-- The control complex fenced and in reset. -/
def State.controlReset (s : State) : State :=
  (s.fenceAccept .fwActivate 8 none).upFence 8 (fun x => { x with st := 2 })

theorem State.upFence_fenced (t : State) : ((t.upFence 8 (fun x => { x with st := 2 })).fence 8).st = 2 ∧
    ((t.upFence 8 (fun x => { x with st := 2 })).fence 8).by_ = (t.fence 8).by_ := by
  rw [State.fence_upFence_same]
  exact ⟨rfl, rfl⟩

theorem State.controlReset_law (s : State) : s.controlReset.fw.running = false ∧ (s.controlReset.fence 8).st = 2 ∧
    (s.controlReset.fence 8).by_ = .fwActivate := by
  obtain ⟨hrun, hby⟩ := s.fenceAccept_control .fwActivate none
  rw [State.controlReset]
  generalize s.fenceAccept .fwActivate 8 none = t at hrun hby ⊢
  obtain ⟨hst, hby'⟩ := t.upFence_fenced
  exact ⟨hrun, hst, hby'.trans hby⟩

theorem State.activateFence_control (s : State) (a : Activate) : (s.activateFence a).fw.running = false ∧
    ((s.activateFence a).fence 8).st = 2 ∧ ((s.activateFence a).fence 8).by_ = .fwActivate := by
  have h : s.activateFence a =
      { (s.fenceTaken a).controlReset with fw := { (s.fenceTaken a).controlReset.fw with phase := 0 } } := by
    simp only [State.activateFence, State.controlReset, State.fenceTaken]
  have hlaw := (s.fenceTaken a).controlReset_law
  rw [h]
  generalize (s.fenceTaken a).controlReset = t at hlaw ⊢
  exact hlaw

theorem State.activateBoot_of_boots {s : State} {a : Activate} (h : s.slotBoots a.slot = true) : s.activateBoot a =
    { s.startSlot a.slot false with
      fw := { (s.startSlot a.slot false).fw with activate := some { a with booted := true } } } := if_pos h

/-! ### FW_ACTIVATE given up (R431) -/

theorem State.Kept.put_fw {ps : List Part} {s0 s : State} (h : s0.Kept ps s) (hf : Part.fw ∈ ps) (x : Fw) :
    s0.Kept ps { s with fw := x } :=
  State.Kept.lit h (fun p hp => by
    cases p with
    | fw => exact absurd hf hp
    | _ => rfl) id id id id id id

/-- FW_ACTIVATE is held no longer. -/
def State.unheld (s : State) : State := { s with fw := { s.fw with activate := none } }

theorem State.unheld_kept (s : State) : s.Kept [.fw] s.unheld := State.Kept.put_fw (.refl _ s) (by decide) _

/-- Firmware of the new slot is stopped, under the fence. -/
def State.giveUp (s : State) : State :=
  let s := if (s.unheld.fence 8).st = 0 then s.unheld.fenceAccept .fwActivate 8 none else s.unheld
  let s := s.upFence 8 (fun x => { x with st := 2 })
  { s with fw := { s.fw with running := false, phase := 0 } }

/-- What a fence of the control complex may change. -/
def fencing : List Part := reports ++ [.ports, .epochs, .tiles, .fabric, .acct, .queues, .pgs, .time, .phases, .refs, .fences,
  .fw, .quench, .temper, .free]

theorem State.giveUp_kept (s : State) : s.Kept fencing s.giveUp := by
  have h1 : s.Kept fencing s.unheld := State.Kept.put_fw (.refl _ s) (by decide) _
  have h2 : s.Kept fencing (if (s.unheld.fence 8).st = 0 then s.unheld.fenceAccept .fwActivate 8 none else s.unheld) := by
    split
    · exact State.fenceAccept_kept _ _ _ (fun _ h => h) h1
    · exact h1
  exact State.Kept.put_fw (State.upFence_kept 8 (fun x => { x with st := 2 }) (by decide) h2 (fun _ _ => Nat.le_succ 2))
    (by decide) _

/-- The slot that ran before is booted again, and the command is answered. -/
theorem State.activateBack_law {s : State} {a : Activate} (status : Nat) (h : s.slotBoots a.prev = true)
    (hc : a.cmd.ring < 256) :
    ∃ u : State, s.activateBack a status = u.startSlot a.prev true ∧ u.fw = s.unheld.fw ∧
      ∃ n p, Out.completion a.cmd.ring n (hostBytes [a.cmd.cookie.toNat, 0, 0, status * 16777216 + p * 2147483648]) ∈
        u.out.drop s.out.length := by
  have hk : s.unheld.Kept reports (s.unheld.done a.cmd status) := State.done_kept _ _ _ _ _ (fun _ h => h) (.refl _ _)
  have hb : (s.unheld.done a.cmd status).slotBoots a.prev = true :=
    (hk.slotBoots (by decide) (by decide) _).trans ((s.unheld_kept.slotBoots (by decide) (by decide) _).trans h)
  have hsent := (State.done_answered s.unheld a.cmd status 0 0 0 hc).sent
  rw [Nat.zero_mod, Nat.add_zero] at hsent
  exact ⟨_, if_pos hb, hk.only .fw (by decide), _, _, hsent⟩

end Sys2Proof.Machine

namespace Sys2Proof.Proofs

open Sys2Proof.Machine

/-- Settles O18: the flash that FW_STAGE writes, the command that firmware holds, the fence and the boot of either slot. -/
theorem firmwareUpdateStagesAndActivates : Obligations.FirmwareUpdateStagesAndActivates := by
  unfold Obligations.FirmwareUpdateStagesAndActivates
  refine ⟨fun c img s hc hi hl ha hsig => ?_, fun c s hc h2 hslot ha hsig => ?_, fun a s ha hb hf hr hboots => ?_,
    fun a s ha hb hboots hc => ?_⟩
  · have e : (if s.runningSlot = 0 then { s.flash with slotB := some img } else { s.flash with slotA := some img }) =
        s.stageFlash img := rfl
    rw [e]
    refine ⟨_, rfl, State.fwCommand_answers hc (fun v hv => ⟨_, hv.put_flash (s.stageFlash img), ?_⟩)⟩
    have hflash : (if v.runningSlot = 0 then { v with flash := { v.flash with slotB := some img } }
        else { v with flash := { v.flash with slotA := some img } }) = { v with flash := s.stageFlash img } := by
      rw [hv.runningSlot, hv.still.flash, State.stageFlash]
      split <;> rfl
    rw [← hflash, if_neg (by simp [hi, hl]), if_neg (by simp [hv.still.fw, ha]), if_neg (by simp [hsig])]
  · refine ⟨_, rfl, State.fwCommand_elim _ hc (fun v hv => ?_)⟩
    have hq := hv.put_fw { s.fw with activate := some { cmd := c, slot := c.a2.toNat, prev := s.runningSlot } }
    simpa [Nat.not_lt.2 h2, hv.runningSlot, hslot, hv.still.fw, ha, hv.slotImage, hsig] using hq
  · obtain ⟨hrun, hst, hby⟩ := s.activateFence_control a
    have hk := State.activateFence_kept a (fun _ h => h) (.refl _ s)
    have hboots' : (s.activateFence a).slotBoots a.slot = true := (hk.slotBoots (by decide) (by decide) _).trans hboots
    obtain ⟨hslot, hfall, hstage⟩ := (s.activateFence a).startSlot_regs a.slot false
    have hex : exec .fwActivateFence s = .next ((s.activateFence a).activateBoot { a with fenced := true }) := by
      refine congrArg Host.Outcome.next ?_
      rw [ha]
      simp [hb, hf, hr]
    rw [State.activateBoot_of_boots (a := { a with fenced := true }) hboots'] at hex
    generalize s.activateFence a = w at hex hslot hfall hstage hrun hst hby
    exact ⟨_, { a with fenced := true, booted := true }, hex, hslot, hfall, hstage, hrun, rfl, hst, hby, rfl, rfl, rfl⟩
  · have hk := s.giveUp_kept
    have hboots' : s.giveUp.slotBoots a.prev = true := (hk.slotBoots (by decide) (by decide) _).trans hboots
    obtain ⟨u, hu, hfw, n, p, hsent⟩ := State.activateBack_law stFenced hboots' hc
    obtain ⟨hslot, hfall, hstage⟩ := u.startSlot_regs a.prev true
    have hex : exec .fwActivateTimeout s = .next (s.giveUp.activateBack a stFenced) := by
      refine congrArg Host.Outcome.next ?_
      rw [ha]
      exact if_neg (by simp [hb])
    refine ⟨_, hex, ?_, ?_, ?_, ?_, ?_, n, p, ?_⟩
    all_goals rw [hu]
    · exact congrArg Fw.activate hfw
    · exact congrArg Fw.running hfw
    · rfl
    · exact hslot
    · exact hfall
    · exact hk.sent_before hsent

end Sys2Proof.Proofs
end

section
/-!
PROOF. Bits of masks, and what counting leaves of the other counters (R518, R520).
-/

namespace Sys2Proof.Machine

/-! ### Bits of masks -/

theorem bit_eq_testBit (v i : Nat) : bit v i = v.testBit i := by
  rw [bit, Nat.testBit_eq_decide_div_mod_eq, Nat.shiftRight_eq_div_pow]
  rfl

/-- What is left of `x` without the bits of `y`. -/
theorem bit_sub_and (i : Nat) : ∀ x y : Nat, bit (x - (x &&& y)) i = (bit x i && !bit y i) := by
  simp only [bit_eq_testBit]
  induction i with
  | zero =>
    intro x y
    have hle : x &&& y ≤ x := Nat.and_le_left
    have hand : (x &&& y) % 2 = 1 ↔ x % 2 = 1 ∧ y % 2 = 1 := Nat.and_mod_two_eq_one
    have hsub : (x - (x &&& y)) % 2 = 1 ↔ x % 2 = 1 ∧ ¬ y % 2 = 1 := by omega
    simp only [Nat.testBit_zero, hsub, Bool.decide_and, decide_not]
  | succ i ih =>
    intro x y
    have hle : x &&& y ≤ x := Nat.and_le_left
    have hdiv : (x - (x &&& y)) / 2 = x / 2 - (x / 2 &&& y / 2) := by
      rw [← Nat.and_div_two]
      have hmod : (x &&& y) % 2 ≤ x % 2 := by
        rcases Nat.mod_two_eq_zero_or_one (x &&& y) with h | h
        · omega
        · have := (Nat.and_mod_two_eq_one.1 h).1
          omega
      omega
    simp only [Nat.testBit_add_one, hdiv, ih]

theorem bit_or (x y i : Nat) : bit (x ||| y) i = (bit x i || bit y i) := by
  simp [bit_eq_testBit]

theorem bit_shiftLeft_one (c i : Nat) : bit (1 <<< c) i = decide (c = i) := by
  rw [bit_eq_testBit, Nat.one_shiftLeft, Nat.testBit_two_pow]

theorem bit_zero (i : Nat) : bit 0 i = false := by simp [bit_eq_testBit]

theorem bit_maskOf (l : List Nat) (i : Nat) : bit (maskOf l) i = decide (i ∈ l) := by
  have run : ∀ v : Nat, bit (l.foldl (fun v i => v ||| (1 <<< i)) v) i = (bit v i || decide (i ∈ l)) := by
    induction l with
    | nil => simp
    | cons a l ih =>
      intro v
      rw [List.foldl_cons, ih, bit_or, bit_shiftLeft_one, Bool.or_assoc]
      simp [eq_comm]
  rw [maskOf, run, bit_zero, Bool.false_or]

theorem mem_bitsSet {n v i : Nat} : i ∈ bitsSet n v ↔ i < n ∧ bit v i = true := by simp [bitsSet]

/-- The classes that PAUSE stops (R143). -/
theorem bit_pauseClasses {c : Nat} (h : c < 8) : bit 0x7F c = decide (c ≠ 7) := by
  revert c
  decide

/-! ### Counters -/

theorem State.counter_countS_add (s : State) (g k n : Nat) :
    (s.countS g k n).counter g k = min 0xFFFFFFFFFFFFFFFF (s.counter g k + n) := by
  unfold State.countS
  dsimp only
  rw [← sat_eq_min]
  split
  · exact State.counter_setCounter_same s g k _
  · exact State.counter_setCounter_same s g k _

theorem State.counter_countS_other (s : State) (g k n : Nat) {g' k' : Nat} (h : g' * 512 + k' ≠ g * 512 + k) :
    (s.countS g k n).counter g' k' = s.counter g' k' := by
  unfold State.countS
  dsimp only
  split
  · exact State.counter_setCounter_other s g k _ g' k' h
  · exact State.counter_setCounter_other s g k _ g' k' h

/-- The counters of ports, lanes, classes, queues and flows are as they were: those of rings come behind them (R520). -/
def State.CountsHeld (s t : State) : Prop := ∀ g k, g * 512 + k < group 6 0 * 512 → t.counter g k = s.counter g k

theorem State.CountsHeld.refl (s : State) : s.CountsHeld s := fun _ _ _ => rfl

theorem State.CountsHeld.trans {s t u : State} (h : s.CountsHeld t) (k : t.CountsHeld u) : s.CountsHeld u :=
  fun g c hc => (k g c hc).trans (h g c hc)

theorem State.CountsHeld.of_counters {s t : State} (h : t.counters.val = s.counters.val) : s.CountsHeld t :=
  fun _ _ _ => by simp only [State.counter, h]

theorem State.Kept.countsHeld {ps : List Part} {s t : State} (h : s.Kept ps t) (hc : Part.counters ∉ ps) :
    s.CountsHeld t := .of_counters (congrArg Counters.val (h.only .counters hc :))

theorem State.countRing_countsHeld (s : State) (n k c : Nat) : s.CountsHeld (s.countS (group 6 n) k c) :=
  fun g j hj => s.counter_countS_other _ _ _ (by simp only [group] at hj ⊢; omega)

/-- An entry in memory counts on its ring alone (R520). -/
theorem State.ringWrote_countsHeld (s : State) (n : Nat) : s.CountsHeld (s.ringWrote n) := by
  unfold State.ringWrote
  extract_lets s1 s2 s3 m
  have h1 : s.CountsHeld s1 := s.countRing_countsHeld n 3 1
  have h2 : s1.CountsHeld s2 := by
    unfold s2
    split
    · exact (State.statusBlock_kept n (fun _ h => h) (.refl _ s1)).countsHeld (by decide)
    · exact .of_counters rfl
  have h3 : s.CountsHeld s3 := (h1.trans h2).trans (.of_counters rfl)
  clear_value s3
  split
  · exact h3.trans ((State.ringSignal_kept n (fun _ h => h) (.refl _ s3)).countsHeld (by decide))
  · split
    · exact h3.trans (.of_counters rfl)
    · exact h3

theorem State.pushEntry_countsHeld (s : State) (n : Nat) (e : Entry) : s.CountsHeld (s.pushEntry n e) := by
  unfold State.pushEntry
  dsimp only
  split
  · unfold State.writeEntry
    extract_lets r d3 s1 s2 s3
    have h1 : s.CountsHeld s1 := (State.dmaWrite_kept _ _ (fun _ h => h) (.refl _ s)).countsHeld (by decide)
    have h3 : s1.CountsHeld s3 := .of_counters rfl
    exact (h1.trans h3).trans (s3.ringWrote_countsHeld n)
  · split
    · exact .of_counters rfl
    · exact (s.countRing_countsHeld n 4 1).trans (.of_counters rfl)

theorem State.event_countsHeld (s : State) (cls code source d0 d1 : Nat) (concerns : Nat → Bool) :
    s.CountsHeld (s.event cls code source d0 d1 concerns) := by
  unfold State.event
  extract_lets e s1
  have h1 : s.CountsHeld s1 := by
    refine List.foldlRecOn _ _ (.refl s) (fun t ht n _ => ?_)
    split
    · exact ht.trans (t.pushEntry_countsHeld n e)
    · exact ht
  clear_value s1
  split
  · exact h1.trans ((State.trace_kept _ _ _ (fun _ h => h) (.refl _ s1)).countsHeld (by decide))
  · exact h1

/-- An error counter counts up to its largest value, and only it counts (R518). -/
theorem State.counter_countE (s : State) {g k : Nat} (n : Nat) {g' k' : Nat} (hk : g' * 512 + k' < group 6 0 * 512) :
    (s.countE g k n).counter g' k' =
      if g' * 512 + k' = g * 512 + k then min 0xFFFFFFFF (s.counter g' k' + n) else s.counter g' k' := by
  have h1 : ∀ v, (s.setCounter g k v).counter g' k' =
      if g' * 512 + k' = g * 512 + k then v else s.counter g' k' := by
    intro v
    simp [State.counter, State.setCounter, Tab.getD_setD]
  have h2 : (s.setCounter g k (sat 0xFFFFFFFF (s.counter g k + n))).counter g' k' =
      if g' * 512 + k' = g * 512 + k then min 0xFFFFFFFF (s.counter g' k' + n) else s.counter g' k' := by
    rw [h1, sat_eq_min]
    split
    · next h => simp only [State.counter, h]
    · rfl
  rw [← h2]
  unfold State.countE
  extract_lets v u1 th full u2 cs u3
  have hu : u1.CountsHeld u2 := by
    unfold u2
    split <;> exact .of_counters rfl
  have hu3 : u1.CountsHeld u3 := hu.trans (.of_counters rfl)
  split
  · exact (hu3.trans (State.event_countsHeld _ _ _ _ _ _ _)) g' k' hk
  · exact hu g' k' hk

end Sys2Proof.Machine
end

section
/-!
PROOF. The MACs: received frames (R124, R128, R138, R140, R150, R155), flow control and its watchdog (R142–R145).
-/

namespace Sys2Proof.Machine

/-! ### What judges a received frame, after reports -/

section
variable {s v : State} (h : s.Quiet v)
include h

theorem State.Quiet.trustClass (p : Nat) (x : Hdr) : v.trustClass p x = s.trustClass p x := by
  simp only [State.trustClass, State.trustOf, State.defClassOf, h.getF TIL_PORT_LKP.TRUST p (by decide),
    h.getF TIL_PORT_LKP.DEF_CLASS p (by decide), h.getF GLB_DSCP_MAP.CLASS_D _ (by decide),
    h.getF GLB_PCP_MAP.CLASS_P _ (by decide)]
  rfl

theorem State.Quiet.trapped (p : Nat) (x : Hdr) (b : Bytes) : v.trapped p x b = s.trapped p x b := by
  simp only [State.trapped, h.trustClass]

theorem State.Quiet.tileStamp (t k : Nat) : v.tileStamp t k = s.tileStamp t k := by
  simp only [State.tileStamp, State.rawStamp, State.nextAdvance, State.slewOver, State.slewPpb, h.now, h.still.time,
    h.getF TPL_TB_SLEW.SLEW_PPB 0 (by decide)]

theorem State.Quiet.rxStamp (f : RxFrame) : v.rxStamp f = s.rxStamp f := by
  simp only [State.rxStamp, h.tileStamp, State.rxCorr, State.portMode, h.still.time, h.getF TIL_PORT_CFG.MODE _ (by decide),
    h.getF TPL_STC_RX.RX_CORR _ (by decide)]

theorem State.Quiet.port (p : Nat) : v.port p = s.port p := by simp only [State.port, h.still.ports]

end

/-! ### Valid frames (R138, R150, R155) -/

/-- A valid frame counted (R138, R520). -/
def State.rxCounted (s : State) (f : RxFrame) : State :=
  (s.countS (group 0 f.port) 0).countS (group 0 f.port) 1 (frameOctets f.bytes.length)

theorem State.rxCounted_quiet (s : State) (f : RxFrame) : s.Quiet (s.rxCounted f) :=
  (s.countS_quiet _ _ _).trans (State.countS_quiet _ _ _ _)

theorem State.rxCounted_counters (s : State) (f : RxFrame) :
    (s.rxCounted f).counter (group 0 f.port) 0 = min 0xFFFFFFFFFFFFFFFF (s.counter (group 0 f.port) 0 + 1) ∧
    (s.rxCounted f).counter (group 0 f.port) 1 =
      min 0xFFFFFFFFFFFFFFFF (s.counter (group 0 f.port) 1 + (f.bytes.length + 4)) := by
  refine ⟨?_, ?_⟩
  · rw [State.rxCounted, State.counter_countS_other _ _ _ _ (by omega), State.counter_countS]
  · rw [State.rxCounted, State.counter_countS_add, State.counter_countS_other _ _ _ _ (by omega)]
    rfl

/-- Frames and octets are no drops: the counters of classes stay. -/
theorem State.rxCounted_classes (s : State) (f : RxFrame) (k : Nat) :
    (s.rxCounted f).counter (group 2 f.port) k = s.counter (group 2 f.port) k := by
  rw [State.rxCounted, State.counter_countS_other _ _ _ _ (by simp only [group]; omega),
    State.counter_countS_other _ _ _ _ (by simp only [group]; omega)]

/-- A valid frame counted and dropped under `code`. -/
theorem State.rxCounted_dropped (s : State) (f : RxFrame) (c code : Nat) :
    s.Quiet ((s.rxCounted f).countIngress f.port c code) ∧
    ((s.rxCounted f).countIngress f.port c code).counter (group 0 f.port) 0 =
      min 0xFFFFFFFFFFFFFFFF (s.counter (group 0 f.port) 0 + 1) ∧
    ((s.rxCounted f).countIngress f.port c code).counter (group 0 f.port) 1 =
      min 0xFFFFFFFFFFFFFFFF (s.counter (group 0 f.port) 1 + (f.bytes.length + 4)) ∧
    ((s.rxCounted f).countIngress f.port c code).counter (group 2 f.port) (c * 64 + code) =
      min 0xFFFFFFFFFFFFFFFF (s.counter (group 2 f.port) (c * 64 + code) + 1) := by
  obtain ⟨hd, hn⟩ := (s.rxCounted f).countIngress_drop f.port c code
  obtain ⟨h0, h1⟩ := s.rxCounted_counters f
  have hport : ∀ k, k < 2 → ((s.rxCounted f).countIngress f.port c code).counter (group 0 f.port) k =
      (s.rxCounted f).counter (group 0 f.port) k :=
    fun k hk => State.counter_countS_other _ _ _ _ (by simp only [group]; omega)
  exact ⟨(s.rxCounted_quiet f).trans hd, (hport 0 (by decide)).trans h0, (hport 1 (by decide)).trans h1,
    by rw [hn, s.rxCounted_classes f]⟩

/-- Whether a frame is trapped to the control complex: what HOLDOFF lets through (R150). -/
def toControl : Option LkpResult → Bool
  | some r => r.destKind == 3
  | none => false

theorem toControl_eq_true {o : Option LkpResult} : toControl o = true ↔ ∃ r, o = some r ∧ r.destKind = 3 := by
  cases o <;> simp [toControl]

/-- A valid frame by its type, the port's state and the room in the tile, all as they stood before it was counted. -/
theorem State.receiveValid_eq (s : State) (f : RxFrame) : s.receiveValid f =
    if (parse f.bytes).etype = 0x8808 then s.rxCounted f
    else if s.portState f.port = 4 ∧ toControl (s.trapped f.port (parse f.bytes) f.bytes) = false then
      (s.rxCounted f).countIngress f.port (s.trustClass f.port (parse f.bytes)) 0x0A
    else if s.preRoom (f.port / 32) f.bytes.length (parse f.bytes).isPtp then
      (s.rxCounted f).preAdd (f.port / 32)
        { bytes := f.bytes, inPort := f.port, stamp := s.rxStamp f, ptp := (parse f.bytes).isPtp }
    else (s.rxCounted f).countIngress f.port (s.trustClass f.port (parse f.bytes)) 0x01 := by
  have hq := s.rxCounted_quiet f
  have e : s.receiveValid f = if (parse f.bytes).etype == 0x8808 then s.rxCounted f
    else if (s.rxCounted f).portState f.port == 4 &&
        !toControl ((s.rxCounted f).trapped f.port (parse f.bytes) f.bytes) then
      (s.rxCounted f).countIngress f.port ((s.rxCounted f).trustClass f.port (parse f.bytes)) 0x0A
    else if (s.rxCounted f).preRoom (f.port / 32) f.bytes.length (parse f.bytes).isPtp then
      (s.rxCounted f).preAdd (f.port / 32)
        { bytes := f.bytes, inPort := f.port, stamp := (s.rxCounted f).rxStamp f, ptp := (parse f.bytes).isPtp }
    else (s.rxCounted f).countIngress f.port ((s.rxCounted f).trustClass f.port (parse f.bytes)) 0x01 := rfl
  rw [e, hq.portState, hq.trapped, hq.trustClass, hq.preRoom, hq.rxStamp]
  simp only [beq_iff_eq, Bool.and_eq_true, Bool.not_eq_true']

/-! ### Errored frames (R124, R138, R140) -/

theorem bit_flags (a b c d : Bool) : bit (flag a + 2 * flag b + 4 * flag c + 8 * flag d) 0 = a ∧
    bit (flag a + 2 * flag b + 4 * flag c + 8 * flag d) 1 = b ∧
    bit (flag a + 2 * flag b + 4 * flag c + 8 * flag d) 2 = c ∧
    bit (flag a + 2 * flag b + 4 * flag c + 8 * flag d) 3 = d := by
  revert a b c d
  decide

/-- An error counter of a frame's port raised where its flag applies. -/
def State.countIf (s : State) (b : Bool) (p k : Nat) : State := if b then s.countE (group 0 p) k else s

theorem State.countIf_quiet (s : State) (b : Bool) (p k : Nat) : s.Quiet (s.countIf b p k) := by
  unfold State.countIf
  split
  · exact s.countE_quiet _ _ _
  · exact .refl s

theorem State.counter_countIf (s : State) (b : Bool) {p k k' : Nat} (hp : p < 256) (hk : k' < 512) :
    (s.countIf b p k).counter (group 0 p) k' =
      if b = true ∧ k' = k then min 0xFFFFFFFF (s.counter (group 0 p) k' + 1) else s.counter (group 0 p) k' := by
  unfold State.countIf
  split
  · next hb =>
    rw [State.counter_countE s 1 (by simp only [group]; omega)]
    simp [hb]
  · next hb => simp [hb]

/-- An errored frame counted (R140): FCS, short, long, code. -/
def State.errCounted (s : State) (f : RxFrame) : State :=
  (((s.countIf (!f.fcsOk) f.port 4).countIf (decide (f.bytes.length + 4 < 64)) f.port 5).countIf
    (decide (s.getF TIL_PORT_MAXLEN.MAXLEN f.port < f.bytes.length + 4)) f.port 6).countIf
    (f.codeErr || (f.badWord && s.isF TIL_PORT_CFG.FEC f.port)) f.port 39

theorem State.errCounted_quiet (s : State) (f : RxFrame) : s.Quiet (s.errCounted f) :=
  (((s.countIf_quiet _ _ _).trans (State.countIf_quiet _ _ _ _)).trans (State.countIf_quiet _ _ _ _)).trans
    (State.countIf_quiet _ _ _ _)

theorem State.errCounted_counters (s : State) (f : RxFrame) (hp : f.port < 256) :
    (s.errCounted f).counter (group 0 f.port) 38 = s.counter (group 0 f.port) 38 ∧
    ∀ k b, (k, b) ∈ [(4, !f.fcsOk), (5, decide (f.bytes.length + 4 < 64)),
          (39, f.codeErr || (f.badWord && s.isF TIL_PORT_CFG.FEC f.port)),
          (6, decide (s.getF TIL_PORT_MAXLEN.MAXLEN f.port < f.bytes.length + 4))] →
        (s.errCounted f).counter (group 0 f.port) k =
          if b then min 0xFFFFFFFF (s.counter (group 0 f.port) k + 1) else s.counter (group 0 f.port) k := by
  unfold State.errCounted
  refine ⟨?_, fun k b hkb => ?_⟩
  · simp only [State.counter_countIf _ _ hp (show 38 < 512 by decide)]
    simp
  · simp only [List.mem_cons, Prod.mk.injEq, List.not_mem_nil, or_false] at hkb
    rcases hkb with ⟨rfl, rfl⟩ | ⟨rfl, rfl⟩ | ⟨rfl, rfl⟩ | ⟨rfl, rfl⟩ <;>
      simp [State.counter_countIf _ _ hp]

/-- What goes on of a frame with error flags `e` and ERR_DELIVER (R140). -/
def State.errFrame (s : State) (f : RxFrame) (e : Nat) : Frame :=
  { s.stamped { bytes := f.bytes, inPort := f.port, stamp := s.rxStamp f, ptp := false }
      { destKind := 2, dest := 256, cls := 0, ringEn := true, hostRing := s.getF TIL_PORT_ERR_RING.RING f.port,
        hostReason := 0x10 }
      (f.bytes.take (s.getF TIL_PORT_MAXLEN.MAXLEN f.port)) with errf := e }

theorem State.receiveErrored_eq (s : State) (f : RxFrame) : s.receiveErrored f (s.errFlags f) =
    if s.isF TIL_PORT_CFG.ERR_DELIVER f.port && decide (14 ≤ f.bytes.length + 4) then
      (((s.errCounted f).countS (group 0 f.port) 38).sendUnicast (f.port / 32) 0
        (((s.errCounted f).countS (group 0 f.port) 38).errFrame f (s.errFlags f))).1
    else s.errCounted f := by
  obtain ⟨h0, h1, h2, h3⟩ := bit_flags (!f.fcsOk) (decide (s.getF TIL_PORT_MAXLEN.MAXLEN f.port < f.bytes.length + 4))
    (f.codeErr || (f.badWord && s.isF TIL_PORT_CFG.FEC f.port)) (decide (f.bytes.length + 4 < 64))
  have he : s.errCounted f = (((s.countIf (bit (s.errFlags f) 0) f.port 4).countIf (bit (s.errFlags f) 3) f.port 5).countIf
      (bit (s.errFlags f) 1) f.port 6).countIf (bit (s.errFlags f) 2) f.port 39 := by
    simp only [State.errFlags, h0, h1, h2, h3]
    rfl
  have hd : (s.errCounted f).isF TIL_PORT_CFG.ERR_DELIVER f.port = s.isF TIL_PORT_CFG.ERR_DELIVER f.port :=
    (s.errCounted_quiet f).isF _ _ (by decide)
  rw [← hd, he]
  rfl

/-! ### FRAME_RECEIVE -/

theorem exec_frameReceive_untaken {f : RxFrame} {s : State} (ht : f.training = false)
    (h : s.canSend f.port = false ∨ s.cclk = false) : exec (.frameReceive f) s = .next s := by
  have e : exec (.frameReceive f) s = execFrameReceive f s := rfl
  rw [e, execFrameReceive, if_neg (by simp [ht]), if_pos (by rcases h with h | h <;> simp [h])]

theorem exec_frameReceive_training {f : RxFrame} {s : State} (ht : f.training = true) : exec (.frameReceive f) s =
    .next (if s.portState f.port = 2 then s.receiveTraining f else s) := by
  have e : exec (.frameReceive f) s = execFrameReceive f s := rfl
  rw [e, execFrameReceive, if_pos ht]
  simp only [beq_iff_eq]

theorem exec_frameReceive_taken {f : RxFrame} {s : State} (ht : f.training = false) (hc : s.canSend f.port = true)
    (hk : s.cclk = true) : exec (.frameReceive f) s =
      .next (if s.errFlags f = 0 then s.receiveValid f else s.receiveErrored f (s.errFlags f)) := by
  have e : exec (.frameReceive f) s = execFrameReceive f s := rfl
  rw [e, execFrameReceive, if_neg (by simp [ht]), if_neg (by simp [hc, hk])]


theorem State.tiles_eta (s : State) : s = { s with tiles := s.tiles } := rfl

theorem State.ports_eta (s : State) : s = { s with ports := s.ports } := rfl

theorem State.preAdd_eq (s : State) (t : Nat) (x : PreFrame) :
    s.preAdd t x = { s with tiles := (s.preAdd t x).tiles } := rfl

/-! ### Flow control received (R142, R143, R145) -/

/-- A class that is not ignored is stopped or released as it is named, and no other (R143). -/
theorem State.stoppedCls_applyFc (s : State) (p stop go c : Nat) : (s.applyFc p stop go).stoppedCls p c =
    if bit (s.port p).ignore c then s.stoppedCls p c else (s.stoppedCls p c || bit stop c) && !bit go c := by
  simp only [State.stoppedCls, State.applyFc, State.port_upPort_same, bit_sub_and, bit_or]
  cases bit (s.port p).ignore c <;> simp

theorem State.port_applyFc_other (s : State) (p stop go : Nat) {k : Nat} (hk : k ≠ p) :
    (s.applyFc p stop go).port k = s.port k := State.port_upPort_other _ _ hk

theorem State.applyFc_eq (s : State) (p stop go : Nat) :
    s.applyFc p stop go = { s with ports := (s.applyFc p stop go).ports } := rfl

/-- What a PAUSE frame does to a class (R143): all but class 7 and the ignored ones stand or go. -/
theorem State.stoppedCls_pause (s : State) (p q : Nat) {c : Nat} (hc : c < 8) :
    (if q = 0 then s.applyFc p 0 0x7F else s.applyFc p 0x7F 0).stoppedCls p c =
      if c = 7 ∨ bit (s.port p).ignore c = true then s.stoppedCls p c else decide (q ≠ 0) := by
  rw [apply_ite (fun w => State.stoppedCls w p c), State.stoppedCls_applyFc, State.stoppedCls_applyFc,
    bit_pauseClasses hc, bit_zero]
  by_cases hi : bit (s.port p).ignore c = true
  · simp [hi]
  by_cases h7 : c = 7
  · simp [h7]
  by_cases hq : q = 0 <;> simp [hi, h7, hq]

theorem State.Quiet.stoppedCls {s v : State} (h : s.Quiet v) (p c : Nat) : v.stoppedCls p c = s.stoppedCls p c := by
  simp only [State.stoppedCls, h.port]

/-- A PAUSE frame counted: mismatched in another mode (R142). -/
theorem exec_flowControl_pause {p : Nat} (q : Nat) {s : State} (h : s.canSend p = true) :
    exec (.flowControlFrameReceive p (.pause q)) s =
      .next (if s.getF TIL_PORT_CFG.FC p ≠ 1 then (s.countS (group 0 p) 8).countS (group 0 p) 25
        else if q = 0 then (s.countS (group 0 p) 8).applyFc p 0 0x7F else (s.countS (group 0 p) 8).applyFc p 0x7F 0) := by
  have e : exec (.flowControlFrameReceive p (.pause q)) s = execFlowControlFrameReceive p (.pause q) s := rfl
  rw [e, execFlowControlFrameReceive, if_neg (by simp [h])]
  simp only [(s.countS_quiet (group 0 p) 8 1).getF TIL_PORT_CFG.FC p (by decide), bne_iff_ne]

/-- The classes `l` of a PFC frame counted (R142, R520). -/
def State.pfcCounted (s : State) (p : Nat) (l : List Nat) : State :=
  l.foldl (fun s c => s.countS (group 0 p) (10 + c)) s

theorem State.pfcCounted_quiet (s : State) (p : Nat) (l : List Nat) : s.Quiet (s.pfcCounted p l) :=
  State.Quiet.foldl _ l (.refl s) fun _ _ _ ht => ht.trans (State.countS_quiet _ _ _ _)

theorem State.counter_pfcCounted (p c : Nat) : ∀ (l : List Nat) (s : State), l.Nodup →
    (s.pfcCounted p l).counter (group 0 p) (10 + c) =
      if c ∈ l then min 0xFFFFFFFFFFFFFFFF (s.counter (group 0 p) (10 + c) + 1) else s.counter (group 0 p) (10 + c)
  | [], _, _ => rfl
  | a :: l, s, hl => by
    obtain ⟨ha, hl⟩ := List.nodup_cons.1 hl
    have e : s.pfcCounted p (a :: l) = (s.countS (group 0 p) (10 + a)).pfcCounted p l := rfl
    rw [e, State.counter_pfcCounted p c l _ hl]
    by_cases hc : c = a
    · subst hc
      rw [if_neg ha, if_pos List.mem_cons_self, State.counter_countS]
    · rw [State.counter_countS_other _ _ _ _ (by omega)]
      simp [hc]

theorem nodup_bitsSet (n v : Nat) : (bitsSet n v).Nodup := List.nodup_range.filter _

/-- The classes that a PFC frame names and that TIL_PORT_PAUSE.PFC_CLASSES accepts. -/
def State.pfcNamed (s : State) (p en : Nat) : List Nat :=
  (bitsSet 7 en).filter (fun c => bit (s.getF TIL_PORT_PAUSE.PFC_CLASSES p) c)

theorem exec_flowControl_pfc {p : Nat} (en : Nat) (qs : List Nat) {s : State} (h : s.canSend p = true) :
    exec (.flowControlFrameReceive p (.pfc en qs)) s =
      .next (if s.getF TIL_PORT_CFG.FC p ≠ 2 then (s.pfcCounted p (bitsSet 8 en)).countS (group 0 p) 25
        else (s.pfcCounted p (bitsSet 8 en)).applyFc p (maskOf ((s.pfcNamed p en).filter (fun c => qs.getD c 0 != 0)))
          (maskOf ((s.pfcNamed p en).filter (fun c => qs.getD c 0 == 0)))) := by
  have hq := s.pfcCounted_quiet p (bitsSet 8 en)
  have e : exec (.flowControlFrameReceive p (.pfc en qs)) s = execFlowControlFrameReceive p (.pfc en qs) s := rfl
  have e' : execFlowControlFrameReceive p (.pfc en qs) s = .next (if !s.canSend p then s
      else if (s.pfcCounted p (bitsSet 8 en)).getF TIL_PORT_CFG.FC p != 2 then
        (s.pfcCounted p (bitsSet 8 en)).countS (group 0 p) 25
      else (s.pfcCounted p (bitsSet 8 en)).applyFc p
        (maskOf (((s.pfcCounted p (bitsSet 8 en)).pfcNamed p en).filter (fun c => qs.getD c 0 != 0)))
        (maskOf (((s.pfcCounted p (bitsSet 8 en)).pfcNamed p en).filter (fun c => qs.getD c 0 == 0)))) := rfl
  rw [e, e', if_neg (by simp [h])]
  simp only [State.pfcNamed, hq.getF TIL_PORT_CFG.FC p (by decide), hq.getF TIL_PORT_PAUSE.PFC_CLASSES p (by decide),
    bne_iff_ne]

theorem State.mem_pfcNamed {s : State} {p en c : Nat} (hc : c < 8) :
    c ∈ s.pfcNamed p en ↔ c ≠ 7 ∧ bit en c = true ∧ bit (s.getF TIL_PORT_PAUSE.PFC_CLASSES p) c = true := by
  have h7 : c < 7 ↔ c ≠ 7 := by omega
  simp only [State.pfcNamed, List.mem_filter, mem_bitsSet, h7, and_assoc]

/-- What a PFC frame does to a class (R143): one that it names, accepted and not ignored, stands or goes by its time. -/
theorem State.stoppedCls_pfc (s : State) {v : State} (hv : s.Quiet v) (p en : Nat) (qs : List Nat) {c : Nat} (hc : c < 8) :
    (v.applyFc p (maskOf ((s.pfcNamed p en).filter (fun c => qs.getD c 0 != 0)))
      (maskOf ((s.pfcNamed p en).filter (fun c => qs.getD c 0 == 0)))).stoppedCls p c =
    if c = 7 ∨ bit (s.port p).ignore c = true ∨ bit en c = false ∨
      bit (s.getF TIL_PORT_PAUSE.PFC_CLASSES p) c = false then s.stoppedCls p c else decide (qs.getD c 0 ≠ 0) := by
  rw [State.stoppedCls_applyFc, hv.port]
  simp only [hv.stoppedCls, bit_maskOf, List.mem_filter, s.mem_pfcNamed hc, beq_iff_eq, bne_iff_ne]
  generalize qs.getD c 0 = x
  by_cases h7 : c = 7
  · simp [h7]
  by_cases hi : bit (s.port p).ignore c = true
  · simp [hi]
  by_cases he : bit en c = true
  · by_cases hm : bit (s.getF TIL_PORT_PAUSE.PFC_CLASSES p) c = true
    · by_cases h0 : x = 0 <;> simp [h7, hi, he, hm, h0]
    · simp [hi, hm]
  · simp [hi, he]

/-! ### The pause watchdog (R145) -/

/-- The classes of `c` released and ignored. -/
def State.paused (s : State) (p c : Nat) : State :=
  s.upPort p (fun x => { x with
    stopped := x.stopped - (x.stopped &&& s.fcClasses p c), ignore := x.ignore ||| s.fcClasses p c })

/-- The watchdog's count and its mark in the port's history. -/
def State.wdogMarked (s : State) (p c : Nat) : State :=
  ((s.paused p c).countS (group 0 p) 26).setF TIL_PORT_HIST.PAUSE_WDOG 1 p

theorem exec_pauseWatchdog {p c : Nat} {s : State} (hw : s.getF TIL_PORT_PAUSE.WDOG_MS p ≠ 0)
    (hs : s.stoppedCls p c = true) : exec (.pauseWatchdog p c) s = .next ((s.wdogMarked p c).portNotice p) := by
  have e : exec (.pauseWatchdog p c) s = execPauseWatchdog p c s := rfl
  rw [e, execPauseWatchdog, if_neg (by simp [hw, hs])]
  rfl

theorem State.port_wdogMarked (s : State) (p c k : Nat) : (s.wdogMarked p c).port k = (s.paused p c).port k :=
  State.Quiet.port (State.countS_quiet _ _ _ _) k

theorem State.wdogMarked_classes (s : State) (p c k : Nat) :
    (s.wdogMarked p c).stoppedCls p k = (s.stoppedCls p k && !bit (s.fcClasses p c) k) ∧
    bit ((s.wdogMarked p c).port p).ignore k = (bit (s.port p).ignore k || bit (s.fcClasses p c) k) := by
  simp only [State.stoppedCls, s.port_wdogMarked, State.paused, State.port_upPort_same, bit_sub_and, bit_or, and_self]

theorem State.wdogMarked_counter (s : State) (p c : Nat) : (s.wdogMarked p c).counter (group 0 p) 26 =
    min 0xFFFFFFFFFFFFFFFF (s.counter (group 0 p) 26 + 1) :=
  State.counter_countS (s.paused p c) (group 0 p) 26

/-! ### Flow-control frames in line (R135, R144) -/

/-- `t` is `s` but for flow-control frames `l` at the end of port `p`'s line and for its transmitter's idle. -/
structure State.Queued (p : Nat) (l : List FcFrame) (s t : State) : Prop where
  only : t = { s with ports := t.ports, regs := t.regs }
  others : ∀ k, k ≠ p → t.port k = s.port k
  fields : ∀ g i, g.id ≠ TIL_PORT_STAT.TX_LPI.id → t.getF g i = s.getF g i
  stopped : (t.port p).stopped = (s.port p).stopped
  line : (t.port p).fcOut = (s.port p).fcOut ++ l

theorem State.Queued.refl (p : Nat) (s : State) : State.Queued p [] s s :=
  ⟨rfl, fun _ _ => rfl, fun _ _ _ => rfl, rfl, (List.append_nil _).symm⟩

theorem State.Queued.trans {p : Nat} {l m : List FcFrame} {s t u : State} (h : State.Queued p l s t)
    (k : State.Queued p m t u) : State.Queued p (l ++ m) s u where
  only := by rw [k.only, h.only]
  others n hn := (k.others n hn).trans (h.others n hn)
  fields g i hg := (k.fields g i hg).trans (h.fields g i hg)
  stopped := k.stopped.trans h.stopped
  line := by rw [k.line, h.line, List.append_assoc]

theorem State.queueFc_queued (s : State) (p : Nat) (f : FcFrame) : State.Queued p [f] s (s.queueFc p (some f)) where
  only := rfl
  others _ hk := State.port_upPort_other _ _ hk
  fields g i hg := State.getF_setF_other s TIL_PORT_STAT.TX_LPI g 0 p i (.inl hg)
  stopped := by rw [State.queueFc, State.port_upPort_same]; rfl
  line := by rw [State.queueFc, State.port_upPort_same]; rfl

/-- In PFC mode a refresh puts a frame for each class in line, in their order. -/
theorem State.refresh_queued (p : Nat) : ∀ (l : List Nat) (s : State), s.getF TIL_PORT_CFG.FC p = 2 →
    State.Queued p
      (l.map (fun c => .pfc (1 <<< c) ((List.range 8).map (fun i => if i = c then 0xFFFF else 0)))) s
      (l.foldl (fun s c => s.queueFc p (s.fcFrame p c 0xFFFF)) s)
  | [], s, _ => .refl p s
  | c :: l, s, hm => by
    have hf : s.fcFrame p c 0xFFFF = some (.pfc (1 <<< c) ((List.range 8).map (fun i => if i = c then 0xFFFF else 0))) :=
      if_pos (by simp [hm])
    have h1 := s.queueFc_queued p (.pfc (1 <<< c) ((List.range 8).map (fun i => if i = c then 0xFFFF else 0)))
    rw [List.foldl_cons, hf]
    exact h1.trans (State.refresh_queued p l _ ((h1.fields _ _ (by decide)).trans hm))


/-- What a refresh puts in line. -/
def State.refreshed (s : State) (p : Nat) : State :=
  if s.getF TIL_PORT_CFG.FC p = 1 then s.queueFc p (s.fcFrame p 0 0xFFFF)
  else (bitsSet 7 (s.getF TIL_BUF_STAT.XOFF p)).foldl (fun s c => s.queueFc p (s.fcFrame p c 0xFFFF)) s

theorem exec_pfcRefresh {p : Nat} {s : State} (h : s.canSend p = true) (hx : s.getF TIL_BUF_STAT.XOFF p ≠ 0) :
    exec (.pfcRefresh p) s = .next (s.refreshed p) := by
  have e : exec (.pfcRefresh p) s = execPfcRefresh p s := rfl
  rw [e, execPfcRefresh]
  refine congrArg _ ((if_neg (by simp [h, hx])).trans ?_)
  simp only [State.refreshed, beq_iff_eq]

theorem State.refreshed_pause {s : State} {p : Nat} (hm : s.getF TIL_PORT_CFG.FC p = 1) :
    s.refreshed p = s.queueFc p (some (.pause 0xFFFF)) := by
  rw [State.refreshed, if_pos hm, State.fcFrame, if_neg (by simp [hm]), if_pos (by simp [hm])]

/-- In no flow control mode a refresh has nothing to send. -/
theorem State.refreshed_unmoded {s : State} {p : Nat} (h1 : s.getF TIL_PORT_CFG.FC p ≠ 1)
    (h2 : s.getF TIL_PORT_CFG.FC p ≠ 2) : s.refreshed p = s := by
  rw [State.refreshed, if_neg h1]
  refine List.foldlRecOn (motive := fun t => t = s) _ _ rfl (fun t ht c _ => ?_)
  rw [ht, State.fcFrame, if_neg (by simp [h2]), if_neg (by simp [h1])]
  rfl

end Sys2Proof.Machine

namespace Sys2Proof.Proofs

open Sys2Proof.Machine

/-- Settles O56: received frames by their type, errors and the room; PAUSE, PFC and the watchdog. -/
theorem framesAndFlowControlAreReceived : Obligations.FramesAndFlowControlAreReceived := by
  unfold Obligations.FramesAndFlowControlAreReceived
  refine ⟨fun f s ht h => exec_frameReceive_untaken ht h, fun f s ht => ⟨fun h => ?_, fun h => ?_⟩, ?valid, ?errored,
    fun p q en qs s hp => ⟨fun h x => ?_, fun h => ⟨?_, ?_⟩⟩, fun p c s => ⟨?_, ?_, fun h => ?_, fun hp hw hs => ?_⟩,
    fun p s => ⟨fun h => ?_, fun h hx => ?_⟩⟩
  · rw [exec_frameReceive_training ht, if_neg h]
  · rw [exec_frameReceive_training ht, if_pos h]
    exact ⟨_, _, rfl, rfl, rfl, rfl, rfl, rfl, rfl⟩
  case valid =>
    intro f s hp ht hc hk h0
    rw [exec_frameReceive_taken ht hc hk, if_pos h0, s.receiveValid_eq f]
    obtain ⟨hf, ho⟩ := s.rxCounted_counters f
    have hq := s.rxCounted_quiet f
    by_cases he : (parse f.bytes).etype = 0x8808
    · rw [if_pos he]
      exact ⟨_, _, rfl, hq, State.tiles_eta _, hf, ho, fun _ => rfl, fun hn => absurd he hn, fun hn => absurd he hn⟩
    rw [if_neg he]
    by_cases hh : s.portState f.port = 4 ∧ toControl (s.trapped f.port (parse f.bytes) f.bytes) = false
    · rw [if_pos hh]
      obtain ⟨hq, hf, ho, hn⟩ := s.rxCounted_dropped f (s.trustClass f.port (parse f.bytes)) 0x0A
      generalize (s.rxCounted f).countIngress f.port _ 0x0A = u at hq hf ho hn ⊢
      refine ⟨_, _, rfl, hq, State.tiles_eta _, hf, ho, fun e => absurd e he, fun _ _ _ => ⟨rfl, hn⟩, fun _ hgo => ?_⟩
      rw [← toControl_eq_true, hh.1, hh.2] at hgo
      simp at hgo
    rw [if_neg hh]
    have hgoes : s.portState f.port = 4 → ¬ ∀ r, s.trapped f.port (parse f.bytes) f.bytes = some r → r.destKind ≠ 3 := by
      intro h4 hno
      obtain ⟨r, hr, h3⟩ := toControl_eq_true.1 (eq_true_of_ne_false fun e => hh ⟨h4, e⟩)
      exact hno r hr h3
    by_cases hr : s.preRoom (f.port / 32) f.bytes.length (parse f.bytes).isPtp = true
    · rw [if_pos hr]
      refine ⟨s.rxCounted f, _, rfl, hq, State.preAdd_eq _ _ _, hf, ho, fun e => absurd e he,
        fun _ h4 hno => absurd hno (hgoes h4),
        fun _ _ => ⟨fun _ => ⟨?_, fun k hk => ?_⟩, fun e => absurd (hr.symm.trans e) (by decide)⟩⟩
      · rw [State.preAdd, State.tile_upTile_same, hq.tile]
      · rw [State.preAdd, State.tile_upTile_other _ _ hk, hq.tile]
    · rw [if_neg hr]
      obtain ⟨hq, hf, ho, hn⟩ := s.rxCounted_dropped f (s.trustClass f.port (parse f.bytes)) 0x01
      generalize (s.rxCounted f).countIngress f.port _ 0x01 = u at hq hf ho hn ⊢
      exact ⟨_, _, rfl, hq, State.tiles_eta _, hf, ho, fun e => absurd e he, fun _ h4 hno => absurd hno (hgoes h4),
        fun _ _ => ⟨fun e => absurd e hr, fun _ => ⟨rfl, hn⟩⟩⟩
  case errored =>
    intro f s hp ht hc hk h0
    obtain ⟨h38, hcnt⟩ := s.errCounted_counters f hp
    have hq := s.errCounted_quiet f
    rw [exec_frameReceive_taken ht hc hk, if_neg h0, s.receiveErrored_eq f]
    by_cases hd : s.isF TIL_PORT_CFG.ERR_DELIVER f.port = true ∧ 14 ≤ f.bytes.length + 4
    · rw [if_pos (by simpa using hd)]
      have hqd : s.Quiet ((s.errCounted f).countS (group 0 f.port) 38) := hq.trans (State.countS_quiet _ _ _ _)
      have hcd : ∀ k, k ≠ 38 → ((s.errCounted f).countS (group 0 f.port) 38).counter (group 0 f.port) k =
          (s.errCounted f).counter (group 0 f.port) k :=
        fun k hk => State.counter_countS_other _ _ _ _ (by omega)
      have h39 : ((s.errCounted f).countS (group 0 f.port) 38).counter (group 0 f.port) 38 = _ :=
        (State.counter_countS _ _ _).trans (by rw [h38])
      have hl := hqd.getF TIL_PORT_MAXLEN.MAXLEN f.port (by decide)
      have hr := hqd.getF TIL_PORT_ERR_RING.RING f.port (by decide)
      generalize (s.errCounted f).countS (group 0 f.port) 38 = u at hqd hcd h39 hl hr ⊢
      refine ⟨u, _, rfl, hqd, fun k b hkb => ?_, fun hn => ?_, fun _ _ =>
        ⟨u.errFrame f (s.errFlags f), rfl, rfl, rfl, congrArg f.bytes.take hl, rfl, rfl, rfl, rfl, rfl, hr, h39⟩⟩
      · rw [hcd k, hcnt k b hkb]
        rintro rfl
        simp at hkb
      · simp [hd.1] at hn
        omega
    · rw [if_neg (by simpa using hd)]
      exact ⟨_, _, rfl, hq, hcnt, fun _ => rfl, fun h1 h2 => absurd ⟨h1, h2⟩ hd⟩
  · have e : exec (.flowControlFrameReceive p x) s = execFlowControlFrameReceive p x s := rfl
    rw [e, execFlowControlFrameReceive, if_pos (by simp [h])]
  · have hq := s.countS_quiet (group 0 p) 8 1
    have h8 := s.counter_countS (group 0 p) 8
    have h25 := s.counter_countS_other (group 0 p) 8 1 (g' := group 0 p) (k' := 25) (by omega)
    rw [exec_flowControl_pause q h]
    generalize s.countS (group 0 p) 8 = v at hq h8 h25 ⊢
    by_cases hm : s.getF TIL_PORT_CFG.FC p = 1
    · rw [if_neg (not_not.2 hm)]
      refine ⟨v, _, rfl, hq, ?_, h8, fun hn => absurd hm hn, fun _ => ⟨fun k hk => ?_, fun c hc => ?_⟩⟩
      · split <;> exact State.applyFc_eq _ _ _ _
      · rw [apply_ite (fun w => State.port w k), State.port_applyFc_other _ _ _ _ hk, State.port_applyFc_other _ _ _ _ hk,
          ite_self, hq.port]
      · rw [← hq.stoppedCls, ← hq.port]
        exact State.stoppedCls_pause v p q hc
    · rw [if_pos hm]
      have hk := State.counter_countS_other v (group 0 p) 25 1 (g' := group 0 p) (k' := 8) (by omega)
      exact ⟨_, _, rfl, hq.trans (v.countS_quiet _ _ _), State.ports_eta _, hk.trans h8,
        fun _ => ⟨rfl, (v.counter_countS _ _).trans (by rw [h25])⟩, fun h1 => absurd h1 hm⟩
  · have hq := s.pfcCounted_quiet p (bitsSet 8 en)
    have hcnt := fun c => s.counter_pfcCounted p c _ (nodup_bitsSet 8 en)
    rw [exec_flowControl_pfc en qs h]
    generalize s.pfcCounted p (bitsSet 8 en) = v at hq hcnt ⊢
    have hnamed : ∀ c, c < 8 → bit en c = true → v.counter (group 0 p) (10 + c) =
        min 0xFFFFFFFFFFFFFFFF (s.counter (group 0 p) (10 + c) + 1) :=
      fun c hc hb => (hcnt c).trans (if_pos (mem_bitsSet.2 ⟨hc, hb⟩))
    have h25 : v.counter (group 0 p) 25 = s.counter (group 0 p) 25 :=
      (hcnt 15).trans (if_neg fun hm => absurd (mem_bitsSet.1 hm).1 (by decide))
    by_cases hm : s.getF TIL_PORT_CFG.FC p = 2
    · rw [if_neg (not_not.2 hm)]
      exact ⟨v, _, rfl, hq, State.applyFc_eq _ _ _ _, hnamed, fun hn => absurd hm hn, fun _ =>
        ⟨fun k hk => (v.port_applyFc_other _ _ _ hk).trans (hq.port k), fun c hc => s.stoppedCls_pfc hq p en qs hc⟩⟩
    · rw [if_pos hm]
      have hk := fun c (hc : c < 8) =>
        State.counter_countS_other v (group 0 p) 25 1 (g' := group 0 p) (k' := 10 + c) (by omega)
      exact ⟨_, _, rfl, hq.trans (v.countS_quiet _ _ _), State.ports_eta _, fun c hc hb => (hk c hc).trans (hnamed c hc hb),
        fun _ => ⟨rfl, (v.counter_countS _ _).trans (by rw [h25])⟩, fun h1 => absurd h1 hm⟩
  · refine ⟨_, rfl, rfl, fun k hk => State.port_upPort_other _ _ hk, fun k => ?_⟩
    simp only [State.stoppedCls, State.port_upPort_same, bit_sub_and]
  · refine ⟨_, rfl, rfl, fun k hk => State.port_upPort_other _ _ hk, ?_, fun k => ?_⟩
    · rw [State.port_upPort_same]
    · simp only [State.port_upPort_same, bit_sub_and]
  · have e : exec (.pauseWatchdog p c) s = execPauseWatchdog p c s := rfl
    rw [e, execPauseWatchdog, if_pos (by rcases h with h | h <;> simp [h])]
  · have hr := State.portNotice_raised p (.refl (s.wdogMarked p c))
    have hmark : (s.wdogMarked p c).isF TIL_PORT_HIST.PAUSE_WDOG p = true := by
      rw [State.isF, State.wdogMarked, State.getF_setF_same]
      decide
    refine ⟨_, _, exec_pauseWatchdog hw hs, hr, ?_, s.wdogMarked_classes p c, fun k hk => ?_, s.wdogMarked_counter p c⟩
    · rw [State.isF, hr.regs _ (by decide)]
      exact hmark
    · rw [s.port_wdogMarked]
      exact State.port_upPort_other _ _ hk
  · have e : exec (.pfcRefresh p) s = execPfcRefresh p s := rfl
    rw [e, execPfcRefresh]
    exact congrArg _ (if_pos (by rcases h with h | h <;> simp [h]))
  · rw [exec_pfcRefresh h hx]
    by_cases h1 : s.getF TIL_PORT_CFG.FC p = 1
    · obtain ⟨ho, hothers, hfields, hstop, hline⟩ := s.queueFc_queued p (.pause 0xFFFF)
      rw [State.refreshed_pause h1]
      refine ⟨_, rfl, ho, hothers, hfields, hstop, fun hn => absurd h1 hn, fun _ => ⟨?_, hline⟩, fun h2 => ?_⟩
      · exact congrArg (· != 0) (s.getF_setF_same TIL_PORT_STAT.TX_LPI 0 p)
      · exact absurd (h1.symm.trans h2) (by decide)
    by_cases h2 : s.getF TIL_PORT_CFG.FC p = 2
    · obtain ⟨ho, hothers, hfields, hstop, hline⟩ := State.refresh_queued p (bitsSet 7 (s.getF TIL_BUF_STAT.XOFF p)) s h2
      rw [State.refreshed, if_neg h1]
      exact ⟨_, rfl, ho, hothers, hfields, hstop, fun _ hn => absurd h2 hn, fun hn => absurd hn h1, fun _ => hline⟩
    · rw [State.refreshed_unmoded h1 h2]
      exact ⟨s, rfl, rfl, fun _ _ => rfl, fun _ _ _ => rfl, rfl, fun _ _ => rfl, fun hn => absurd hn h1,
        fun hn => absurd hn h2⟩

end Sys2Proof.Proofs
end

section
/-!
PROOF. Phase service: beats, the windows that end, and PH_EN (R329–R336, R338, R343, R345, R360).
-/

namespace Sys2Proof.Machine

/-! ### Beats (R333–R335, R338) -/

/-- A phase lies below T (R330, R334). -/
theorem State.phiOf_range (s : State) (p : Nat) (rx tx : Sampled) : 0 ≤ s.phiOf p rx tx ∧ s.phiOf p rx tx < phT :=
  ⟨Int.emod_nonneg _ (by decide), Int.emod_lt_of_pos _ (by decide)⟩

theorem exec_phaseBeat_idle {p e : Nat} {rx tx : Sampled} {s : State}
    (h : (s.phase p).running = false ∨ s.lclk = false) : exec (.phaseBeat p rx tx e) s = .next s := by
  have he : exec (.phaseBeat p rx tx e) s = execPhaseBeat p rx tx e s := rfl
  rw [he, execPhaseBeat, if_pos (by rcases h with h | h <;> simp [h])]

theorem exec_phaseBeat_taken {p e : Nat} {rx tx : Sampled} {s : State} (hr : (s.phase p).running = true)
    (hl : s.lclk = true) : exec (.phaseBeat p rx tx e) s = .next (if s.beatSlips p (s.phiOf p rx tx) then
      ((s.addBeat p (s.phiOf p rx tx) e true).countE (group 0 p) 34).portNotice p
    else s.addBeat p (s.phiOf p rx tx) e false) := by
  have he : exec (.phaseBeat p rx tx e) s = execPhaseBeat p rx tx e s := rfl
  rw [he, execPhaseBeat, if_neg (by simp [hr, hl])]

/-! ### What firmware makes of a window (R151, R329, R343–R345) -/

/-- What a window shows and delivers, and the length of the next. -/
def windowFields : List Nat :=
  [TPL_PH_STAT.VALID.id, TPL_PH_STAT.SLIP.id, TPL_PH_STAT.NOT_SYNT.id, TPL_PH_STAT.STALE.id, TPL_PH_STAT.DISC.id,
   TPL_PH_STAT.ALIGN_LOSS.id, TPL_PH_STAT.WIN_SEQ.id, TPL_PH_PHASE.PHASE.id, TPL_PH_EDGE.EDGE.id, TPL_PH_DRIFT.RATE.id,
   TPL_PH_CFG.AVG_UPD.id]

/-- Neither a window's fields nor the windows of another port change. -/
structure State.Served (p : Nat) (s t : State) : Prop where
  fields : s.Same windowFields t
  others : ∀ q, q ≠ p → t.phase q = s.phase q

section
variable {p : Nat} {s t : State}

theorem State.Served.refl (p : Nat) (s : State) : State.Served p s s := ⟨.refl _ s, fun _ _ => rfl⟩

theorem State.Served.trans {u : State} (h : State.Served p s t) (k : State.Served p t u) : State.Served p s u :=
  ⟨h.fields.trans k.fields, fun q hq => (k.others q hq).trans (h.others q hq)⟩

theorem State.Served.upPhase (h : State.Served p s t) (f : Phase → Phase) : State.Served p s (t.upPhase p f) :=
  h.trans ⟨.of_regs rfl, fun _ hq => State.phase_upPhase_other t f hq⟩

theorem State.Served.setService (h : State.Served p s t) (v : Nat) : State.Served p s (t.setService p v) :=
  h.trans ⟨State.setF_same t _ v p (by decide), fun _ _ => rfl⟩

theorem State.Served.resolve (h : State.Served p s t) (mus : List Int) : State.Served p s (t.resolve p mus) :=
  (h.upPhase _).setService 2

theorem State.Served.stampsAlone (h : State.Served p s t) (why : Nat) : State.Served p s (t.stampsAlone p why) :=
  (h.upPhase _).setService why

theorem State.Served.invalidWindow (h : State.Served p s t) (align : Bool) : State.Served p s (t.invalidWindow p align) :=
  (h.upPhase _).setService 4

end

theorem State.getF_setService (s : State) (p : Nat) {v : Nat} (hv : v < 8) :
    (s.setService p v).getF TPL_PH_STAT.SERVICE p = v :=
  (s.getF_setF_same TPL_PH_STAT.SERVICE v p).trans (Nat.mod_eq_of_lt hv)

/-- A reference that changes state shows it in its own fields. -/
theorem State.setRef_same {l : List Nat} (hl : ∀ x ∈ [TPL_REF_STAT.STATE.id, TPL_REF_HIST.QUALIFIED_SEEN.id,
    TPL_REF_HIST.SOFT_SEEN.id] ++ reportFields, x ∉ l) (s : State) (i st : Nat) : s.Same l (s.setRef i st) := by
  unfold State.setRef
  extract_lets was s1 s2 s3 s4 s5 s6
  have hown : ∀ x ∈ [TPL_REF_STAT.STATE.id, TPL_REF_HIST.QUALIFIED_SEEN.id, TPL_REF_HIST.SOFT_SEEN.id], x ∉ l :=
    fun x hx => hl x (List.mem_append_left _ hx)
  have h1 : s.Same l s1 := s.setF_same _ _ _ (hown _ (by simp))
  have h2 : s.Same l s2 := by
    unfold s2
    split
    · exact h1.setF _ _ _ (hown _ (by simp))
    · exact h1
  have h3 : s.Same l s3 := by
    unfold s3
    split
    · exact h2.setF _ _ _ (hown _ (by simp))
    · exact h2
  have h4 : s3.Same l s4 := by
    unfold s4
    split <;> exact .of_regs rfl
  have h5 : s4.Same l s5 := by
    unfold s5
    split <;> exact .of_regs rfl
  have h6 : s5.Same l s6 := by
    unfold s6
    split <;> exact .of_regs rfl
  have h : s.Same l s6 := ((h3.trans h4).trans h5).trans h6
  split
  · exact .refl _ s
  · split
    · exact h.trans ((State.event_quiet _ _ _ _ _ _ _).same_fields fun x hx hr => hl x (List.mem_append_right _ hr) hx)
    · exact h

/-- An offset that firmware delivers (R364) is reference 25's alone. -/
theorem State.deliverOffset_same {l : List Nat} (hl : ∀ x ∈ [TPL_REF_STAT.STATE.id, TPL_REF_HIST.QUALIFIED_SEEN.id,
    TPL_REF_HIST.SOFT_SEEN.id] ++ reportFields, x ∉ l) (s : State) (d : Int) : s.Same l (s.deliverOffset d) := by
  unfold State.deliverOffset
  extract_lets time s1
  have h1 : s.Same l s1 := .of_regs rfl
  split
  · exact h1.trans (s1.setRef_same hl 25 2)
  · exact h1

/-- SERVICE says RESOLVE or ACTIVE (R345). -/
def State.InService (p : Nat) (t : State) : Prop :=
  t.getF TPL_PH_STAT.SERVICE p = 2 ∨ t.getF TPL_PH_STAT.SERVICE p = 3

theorem State.deliverOffset_served (p : Nat) (s : State) (d : Int) : State.Served p s (s.deliverOffset d) := by
  refine ⟨s.deliverOffset_same (by decide) d, fun q _ => ?_⟩
  have h : (s.deliverOffset d).phases = s.phases :=
    (State.deliverOffset_kept d (fun _ h => h) (.refl _ s)).only .phases (by decide)
  simp only [State.phase, h]

theorem State.deliverOffset_inService {p : Nat} {s : State} (h : s.InService p) (d : Int) :
    (s.deliverOffset d).InService p := by
  have e := s.deliverOffset_same (l := [TPL_PH_STAT.SERVICE.id]) (by decide) d TPL_PH_STAT.SERVICE (by decide) p
  rwa [State.InService, e]

theorem State.resolve_inService (s : State) (p : Nat) (mus : List Int) : (s.resolve p mus).InService p :=
  .inl (State.getF_setService _ p (by decide))

/-- A valid window leaves the port in RESOLVE or ACTIVE. -/
theorem State.validWindow_served (s : State) (p : Nat) :
    State.Served p s (s.validWindow p) ∧ (s.validWindow p).InService p := by
  unfold State.validWindow
  dsimp only
  split
  · next h => exact ⟨.refl p s, by simpa [State.InService] using h⟩
  · split
    · exact ⟨((State.Served.refl p s).upPhase _).setService 3, .inr (State.getF_setService _ p (by decide))⟩
    · exact ⟨((State.Served.refl p s).resolve []).upPhase _, s.resolve_inService p []⟩

theorem State.fineResult_served {s : State} {p : Nat} (h : s.InService p) (r : Int × Int × Int) (slave : Bool) :
    State.Served p s (s.fineResult p r slave) ∧ (s.fineResult p r slave).InService p := by
  unfold State.fineResult
  extract_lets x moved s1 s2 s3
  have h1 : State.Served p s s1 := (State.Served.refl p s).upPhase _
  have h2 : State.Served p s s2 := h1.upPhase _
  have i2 : s2.InService p := h
  have h3 : State.Served p s s3 ∧ s3.InService p := by
    unfold s3
    split
    · exact ⟨h2.setService 3, .inr (State.getF_setService _ p (by decide))⟩
    · exact ⟨h2, i2⟩
  split
  · exact ⟨h1.resolve _, s1.resolve_inService p _⟩
  · split
    · exact ⟨h3.1.trans (s3.deliverOffset_served p _), State.deliverOffset_inService h3.2 _⟩
    · exact h3

theorem State.ambigResult_served {s : State} {p : Nat} (h : s.InService p) :
    State.Served p s (s.ambigResult p) ∧ (s.ambigResult p).InService p := by
  unfold State.ambigResult
  extract_lets s1 s2
  have hq : s.Quiet s1 := s.countS_quiet _ _ _
  have h1 : State.Served p s s1 :=
    ⟨hq.same_fields (by decide), fun q _ => by simp only [State.phase, hq.still.phases]⟩
  have h2 : State.Served p s s2 := h1.upPhase _
  have i2 : s2.InService p := by
    have e : s2.getF TPL_PH_STAT.SERVICE p = s.getF TPL_PH_STAT.SERVICE p := hq.getF _ _ (by decide)
    rwa [State.InService, e]
  split
  · exact ⟨h2.resolve [], s2.resolve_inService p []⟩
  · exact ⟨h2, i2⟩

/-- The measurements that firmware has for a port when a window ends (R343, R344). -/
def State.tlvTaken (s : State) (p : Nat) (w : WindowIn) : State :=
  s.upPhase p (fun x => { x with
    fresh := x.fresh || w.fresh, tlvs := match w.partner with | some t => (t :: x.tlvs).take 4 | none => [] })

/-- A valid window of a port whose partner can be answered (R344, R345). -/
def State.fineWindow (s : State) (p : Nat) (w : WindowIn) : State :=
  match (s.validWindow p).partnerWindow p with
  | none => (s.validWindow p).upPhase p (fun x => { x with mus := [] })
  | some t =>
    match (s.validWindow p).fine p t w with
    | some r => (s.validWindow p).fineResult p r w.slave
    | none => (s.validWindow p).ambigResult p

theorem State.fineWindow_served (s : State) (p : Nat) (w : WindowIn) :
    State.Served p s (s.fineWindow p w) ∧ (s.fineWindow p w).InService p := by
  obtain ⟨hv, iv⟩ := s.validWindow_served p
  unfold State.fineWindow
  generalize s.validWindow p = v at hv iv ⊢
  split
  · exact ⟨hv.upPhase _, iv⟩
  · split
    · exact ⟨hv.trans (State.fineResult_served iv _ _).1, (State.fineResult_served iv _ _).2⟩
    · exact ⟨hv.trans (State.ambigResult_served iv).1, (State.ambigResult_served iv).2⟩

/-- Whether phase service with partner `o` is possible (R329, R343). -/
def State.partnerFits (s : State) (p : Nat) (o : PartnerTlv) : Bool :=
  bit (s.port p).ptp.flags 0 && (!bit (s.port p).ptp.flags 4 || o.synt)

/-- What firmware makes of a window of a port that is UP with a fresh delay measurement. -/
def State.fitWindow (s : State) (p : Nat) (valid align : Bool) (w : WindowIn) : State :=
  match w.partner with
  | none => (s.tlvTaken p w).stampsAlone p 4
  | some o =>
    if !s.partnerFits p o then (s.tlvTaken p w).stampsAlone p 4
    else if !valid then (s.tlvTaken p w).invalidWindow p align
    else (s.tlvTaken p w).fineWindow p w

theorem State.fwWindow_eq {s : State} (h : s.fwRuns = true) (p : Nat) (valid align : Bool) (w : WindowIn) :
    s.fwWindow p valid align w =
      if s.portState p ≠ 5 ∨ ((s.phase p).fresh = false ∧ w.fresh = false) then (s.tlvTaken p w).stampsAlone p 1
      else s.fitWindow p valid align w := by
  have hf : ((s.tlvTaken p w).phase p).fresh = ((s.phase p).fresh || w.fresh) := by
    rw [State.tlvTaken, State.phase_upPhase_same]
  have e : s.fwWindow p valid align w = if !s.fwRuns then s
      else if s.portState p != 5 || !((s.tlvTaken p w).phase p).fresh then (s.tlvTaken p w).stampsAlone p 1
      else match w.partner with
        | none => (s.tlvTaken p w).stampsAlone p 4
        | some o => if !bit (s.port p).ptp.flags 0 || (bit (s.port p).ptp.flags 4 && !o.synt) then
            (s.tlvTaken p w).stampsAlone p 4
          else if !valid then (s.tlvTaken p w).invalidWindow p align
          else (s.tlvTaken p w).fineWindow p w := rfl
  have hfit : ∀ o, (!bit (s.port p).ptp.flags 0 || (bit (s.port p).ptp.flags 4 && !o.synt)) = !s.partnerFits p o := by
    intro o
    simp only [State.partnerFits]
    cases bit (s.port p).ptp.flags 0 <;> cases bit (s.port p).ptp.flags 4 <;> simp
  rw [e, h, hf, State.fitWindow]
  simp only [hfit]
  simp

theorem State.fwWindow_stopped {s : State} (h : s.fwRuns = false) (p : Nat) (valid align : Bool) (w : WindowIn) :
    s.fwWindow p valid align w = s := if_pos (by simp [h])

theorem State.tlvTaken_served (s : State) (p : Nat) (w : WindowIn) : State.Served p s (s.tlvTaken p w) :=
  (State.Served.refl p s).upPhase _

theorem State.fitWindow_served (s : State) (p : Nat) (valid align : Bool) (w : WindowIn) :
    State.Served p s (s.fitWindow p valid align w) := by
  have h := s.tlvTaken_served p w
  unfold State.fitWindow
  split
  · exact h.stampsAlone 4
  · split
    · exact h.stampsAlone 4
    · split
      · exact h.invalidWindow align
      · exact h.trans (State.fineWindow_served _ p w).1

theorem State.fwWindow_served (s : State) (p : Nat) (valid align : Bool) (w : WindowIn) :
    State.Served p s (s.fwWindow p valid align w) := by
  cases hr : s.fwRuns
  · rw [State.fwWindow_stopped hr]
    exact .refl p s
  · rw [State.fwWindow_eq hr]
    split
    · exact (s.tlvTaken_served p w).stampsAlone 1
    · exact s.fitWindow_served p valid align w

/-- SERVICE after a window that firmware took (R151, R329, R343, R345). -/
theorem State.fwWindow_service {s : State} (hr : s.fwRuns = true) (p : Nat) (valid align : Bool) (w : WindowIn) :
    (s.portState p ≠ 5 ∨ ((s.phase p).fresh = false ∧ w.fresh = false) →
      (s.fwWindow p valid align w).getF TPL_PH_STAT.SERVICE p = 1) ∧
    (s.portState p = 5 → (s.phase p).fresh = true ∨ w.fresh = true →
      (w.partner = none → (s.fwWindow p valid align w).getF TPL_PH_STAT.SERVICE p = 4) ∧
      ∀ o, w.partner = some o →
        (s.partnerFits p o = false ∨ valid = false → (s.fwWindow p valid align w).getF TPL_PH_STAT.SERVICE p = 4) ∧
        (s.partnerFits p o = true → valid = true → (s.fwWindow p valid align w).InService p)) := by
  rw [State.fwWindow_eq hr]
  refine ⟨fun h => ?_, fun h5 hf => ?_⟩
  · rw [if_pos h]
    exact State.getF_setService _ p (by decide)
  have hup : ¬ (s.portState p ≠ 5 ∨ ((s.phase p).fresh = false ∧ w.fresh = false)) := by
    rcases hf with hf | hf <;> simp [h5, hf]
  rw [if_neg hup, State.fitWindow]
  refine ⟨fun hn => ?_, fun o ho => ⟨fun h => ?_, fun hfit hv => ?_⟩⟩
  · rw [hn]
    exact State.getF_setService _ p (by decide)
  · rw [ho]
    dsimp only
    by_cases hfit : s.partnerFits p o = true
    · rw [if_neg (by simp [hfit]), if_pos (by simpa [hfit] using h)]
      exact State.getF_setService _ p (by decide)
    · rw [if_pos (by simpa using hfit)]
      exact State.getF_setService _ p (by decide)
  · rw [ho]
    dsimp only
    rw [if_neg (by simp [hfit]), if_neg (by simp [hv])]
    exact (State.fineWindow_served _ p w).2


/-! ### A window that ends (R336, R338, R343) -/

theorem State.isF_setF_flag (s : State) {f : Fld} (hf : f.width = 1) (b : Bool) (i : Nat) :
    (s.setF f (flag b) i).isF f i = b := by
  rw [State.isF, State.getF_setF_same, hf]
  cases b <;> decide

theorem State.getF_setF_ne (s : State) (f g : Fld) (v i j : Nat) (h : g.id ≠ f.id) :
    (s.setF f v i).getF g j = s.getF g j := s.getF_setF_other f g v i j (.inl h)

theorem State.isF_setF_ne (s : State) (f g : Fld) (v i j : Nat) (h : g.id ≠ f.id) :
    (s.setF f v i).isF g j = s.isF g j := congrArg (· != 0) (s.getF_setF_ne f g v i j h)

/-- The flags of a window shown, and its number (R336, R338). -/
def State.windowFlagged (s : State) (p : Nat) (x : Phase) (notSynt valid : Bool) : State :=
  let s := (s.setF TPL_PH_STAT.VALID (flag valid) p).setF TPL_PH_STAT.STALE (flag x.stale) p
  let s := (s.setF TPL_PH_STAT.NOT_SYNT (flag notSynt) p).setF TPL_PH_STAT.SLIP (flag x.slip) p
  let s := (s.setF TPL_PH_STAT.ALIGN_LOSS (flag x.align) p).setF TPL_PH_STAT.DISC (flag x.disc) p
  s.setF TPL_PH_STAT.WIN_SEQ (s.getF TPL_PH_STAT.WIN_SEQ p + 1) p

/-- What a valid window delivers (R336). -/
def State.windowDelivered (s : State) (p : Nat) (x : Phase) : State :=
  let d := phDrift x.phi
  ((s.setF TPL_PH_PHASE.PHASE (phMean x.phi) p).setF TPL_PH_EDGE.EDGE (phMean x.edge) p).setF TPL_PH_DRIFT.RATE
    (unsign 16 (clampI (-32768) 32767 (roundDiv (d.1 * 100000000000) d.2))) p

/-- A window shown, delivered where it is valid, and counted where it is not for a reason of R338. -/
def State.windowShown (s : State) (p : Nat) (x : Phase) (notSynt valid : Bool) : State :=
  let s := s.windowFlagged p x notSynt valid
  let s := if valid then s.windowDelivered p x else s
  if notSynt || x.disc || x.stale then s.countS (group 0 p) 36 else s

theorem exec_phaseWindowEnd_waits {p : Nat} {w : WindowIn} {s : State}
    (h : (s.phase p).running = false ∨ (s.phase p).updates < (s.phase p).avg ∨ (s.phase p).phi = []) :
    exec (.phaseWindowEnd p w) s = .next s := by
  have e : exec (.phaseWindowEnd p w) s = execPhaseWindowEnd p w s := rfl
  rw [e, execPhaseWindowEnd]
  exact congrArg _ (if_pos (by rcases h with h | h | h <;> simp [h]))

theorem exec_phaseWindowEnd_ends {p : Nat} {w : WindowIn} {s : State} {notSynt valid : Bool}
    (hr : (s.phase p).running = true) (hu : (s.phase p).avg ≤ (s.phase p).updates) (hp : (s.phase p).phi ≠ [])
    (hn : notSynt = decide (((s.phase p).syntPpb : Int) * (phDrift (s.phase p).phi).2 <
      (phDrift (s.phase p).phi).1.natAbs * 1000000000))
    (hv : valid = !((s.phase p).slip || (s.phase p).align || notSynt || (s.phase p).disc || (s.phase p).stale)) :
    exec (.phaseWindowEnd p w) s = .next ((((s.windowShown p (s.phase p) notSynt valid).sendTlv p valid).fwWindow p valid
      (s.phase p).align w).startWindow p) := by
  have e : exec (.phaseWindowEnd p w) s = execPhaseWindowEnd p w s := rfl
  rw [e, execPhaseWindowEnd]
  refine congrArg _ ((if_neg (by simp [hr, hu, hp])).trans ?_)
  subst hv hn
  rfl

/-- The fields of the window's flags, one by one. -/
theorem State.windowFlagged_flags (s : State) (p : Nat) (x : Phase) (notSynt valid : Bool) :
    (s.windowFlagged p x notSynt valid).isF TPL_PH_STAT.VALID p = valid ∧
    (s.windowFlagged p x notSynt valid).isF TPL_PH_STAT.SLIP p = x.slip ∧
    (s.windowFlagged p x notSynt valid).isF TPL_PH_STAT.NOT_SYNT p = notSynt ∧
    (s.windowFlagged p x notSynt valid).isF TPL_PH_STAT.STALE p = x.stale ∧
    (s.windowFlagged p x notSynt valid).isF TPL_PH_STAT.DISC p = x.disc := by
  unfold State.windowFlagged
  simp (disch := decide) only [State.isF_setF_ne, State.isF_setF_flag, and_self]

theorem State.windowFlagged_other (s : State) (p : Nat) (x : Phase) (notSynt valid : Bool) :
    s.Same [TPL_PH_PHASE.PHASE.id, TPL_PH_EDGE.EDGE.id, TPL_PH_DRIFT.RATE.id, TPL_PH_STAT.SERVICE.id, TPL_PH_CFG.AVG_UPD.id,
      TIL_PORT_STAT.STATE.id] (s.windowFlagged p x notSynt valid) := by
  unfold State.windowFlagged
  iterate 7 refine State.Same.setF ?_ _ _ _ (by decide)
  exact .refl _ s

theorem State.windowFlagged_seq (s : State) (p : Nat) (x : Phase) (notSynt valid : Bool) :
    (s.windowFlagged p x notSynt valid).getF TPL_PH_STAT.WIN_SEQ p =
      (s.getF TPL_PH_STAT.WIN_SEQ p + 1) % 2 ^ TPL_PH_STAT.WIN_SEQ.width := by
  unfold State.windowFlagged
  simp (disch := decide) only [State.getF_setF_ne, State.getF_setF_same]

theorem State.windowDelivered_other (s : State) (p : Nat) (x : Phase) :
    s.Same [TPL_PH_STAT.VALID.id, TPL_PH_STAT.SLIP.id, TPL_PH_STAT.NOT_SYNT.id, TPL_PH_STAT.STALE.id, TPL_PH_STAT.DISC.id,
      TPL_PH_STAT.WIN_SEQ.id, TPL_PH_STAT.SERVICE.id, TPL_PH_CFG.AVG_UPD.id, TIL_PORT_STAT.STATE.id]
      (s.windowDelivered p x) := by
  unfold State.windowDelivered
  iterate 3 refine State.Same.setF ?_ _ _ _ (by decide)
  exact .refl _ s

theorem phMean_lt (l : List Int) : phMean l < 102400 := by
  have h : roundDiv ((unwrap l).foldl (· + ·) 0) (500 * max 1 (unwrap l).length) % phT16 < 102400 :=
    Int.emod_lt_of_pos _ (by decide)
  have h0 : 0 ≤ roundDiv ((unwrap l).foldl (· + ·) 0) (500 * max 1 (unwrap l).length) % phT16 :=
    Int.emod_nonneg _ (by decide)
  have e : phMean l = (roundDiv ((unwrap l).foldl (· + ·) 0) (500 * max 1 (unwrap l).length) % phT16).toNat := rfl
  omega

theorem State.windowDelivered_values (s : State) (p : Nat) (x : Phase) :
    (s.windowDelivered p x).getF TPL_PH_PHASE.PHASE p = phMean x.phi ∧
    (s.windowDelivered p x).getF TPL_PH_EDGE.EDGE p = phMean x.edge := by
  have hm : ∀ l, phMean l % 2 ^ 17 = phMean l := fun l => Nat.mod_eq_of_lt (Nat.lt_trans (phMean_lt l) (by decide))
  unfold State.windowDelivered
  simp (disch := decide) only [State.getF_setF_ne, State.getF_setF_same]
  exact ⟨hm _, hm _⟩

/-- What `t` shows of the window `x` of port `p` that ended in `s`. -/
structure State.Shows (p : Nat) (x : Phase) (notSynt valid : Bool) (s t : State) : Prop where
  validFlag : t.isF TPL_PH_STAT.VALID p = valid
  slipFlag : t.isF TPL_PH_STAT.SLIP p = x.slip
  notSyntFlag : t.isF TPL_PH_STAT.NOT_SYNT p = notSynt
  staleFlag : t.isF TPL_PH_STAT.STALE p = x.stale
  discFlag : t.isF TPL_PH_STAT.DISC p = x.disc
  seq : t.getF TPL_PH_STAT.WIN_SEQ p = (s.getF TPL_PH_STAT.WIN_SEQ p + 1) % 2 ^ TPL_PH_STAT.WIN_SEQ.width
  delivers : valid = true → t.getF TPL_PH_PHASE.PHASE p = phMean x.phi ∧ t.getF TPL_PH_EDGE.EDGE p = phMean x.edge
  keeps : valid = false → t.getF TPL_PH_PHASE.PHASE p = s.getF TPL_PH_PHASE.PHASE p ∧
    t.getF TPL_PH_EDGE.EDGE p = s.getF TPL_PH_EDGE.EDGE p ∧ t.getF TPL_PH_DRIFT.RATE p = s.getF TPL_PH_DRIFT.RATE p
  avg : t.getF TPL_PH_CFG.AVG_UPD = s.getF TPL_PH_CFG.AVG_UPD

theorem State.Shows.later {p : Nat} {x : Phase} {notSynt valid : Bool} {s t u : State}
    (h : State.Shows p x notSynt valid s t) (k : t.Same windowFields u) : State.Shows p x notSynt valid s u := by
  have hf : ∀ f : Fld, f.id ∈ windowFields → ∀ i, u.isF f i = t.isF f i := fun f hf i => congrArg (· != 0) (k f hf i)
  obtain ⟨hv, hs, hn, hst, hd, hseq, hdel, hkeep, havg⟩ := h
  constructor
  · rwa [hf _ (by decide)]
  · rwa [hf _ (by decide)]
  · rwa [hf _ (by decide)]
  · rwa [hf _ (by decide)]
  · rwa [hf _ (by decide)]
  · rwa [k _ (by decide)]
  · rwa [k _ (by decide), k _ (by decide)]
  · rwa [k _ (by decide), k _ (by decide), k _ (by decide)]
  · rwa [k _ (by decide)]

theorem State.windowShown_shows (s : State) (p : Nat) (x : Phase) (notSynt valid : Bool) :
    State.Shows p x notSynt valid s (s.windowShown p x notSynt valid) := by
  unfold State.windowShown
  extract_lets s1 s2
  obtain ⟨hv, hs, hn, hst, hd⟩ := s.windowFlagged_flags p x notSynt valid
  have ho := s.windowFlagged_other p x notSynt valid
  have h2 : State.Shows p x notSynt valid s s2 := by
    have hseq := s.windowFlagged_seq p x notSynt valid
    unfold s2
    split
    · next hval =>
      have hk := s1.windowDelivered_other p x
      have hf : ∀ f : Fld, _ → ∀ i, (s1.windowDelivered p x).isF f i = s1.isF f i :=
        fun f hf i => congrArg (· != 0) (hk f hf i)
      exact ⟨(hf _ (by decide) p).trans hv, (hf _ (by decide) p).trans hs, (hf _ (by decide) p).trans hn,
        (hf _ (by decide) p).trans hst, (hf _ (by decide) p).trans hd, (hk _ (by decide) p).trans hseq,
        fun _ => s1.windowDelivered_values p x, fun h => absurd (hval.symm.trans h) (by decide),
        (hk _ (by decide) 0).trans (ho _ (by decide) 0)⟩
    · next hval =>
      exact ⟨hv, hs, hn, hst, hd, hseq, fun h => absurd h hval,
        fun _ => ⟨ho _ (by decide) p, ho _ (by decide) p, ho _ (by decide) p⟩, ho _ (by decide) 0⟩
  clear_value s2
  split
  · exact h2.later ((s2.countS_quiet _ _ _).same_fields (by decide))
  · exact h2

/-- Beside the window's own fields nothing that firmware goes by changes. -/
theorem State.windowShown_same (s : State) (p : Nat) (x : Phase) (notSynt valid : Bool) :
    s.Same [TPL_PH_STAT.SERVICE.id, TIL_PORT_STAT.STATE.id] (s.windowShown p x notSynt valid) := by
  unfold State.windowShown
  extract_lets s1 s2
  have h1 : s.Same [TPL_PH_STAT.SERVICE.id, TIL_PORT_STAT.STATE.id] s1 :=
    fun f hf i => s.windowFlagged_other p x notSynt valid f (by revert hf; simp; tauto) i
  have h2 : s.Same [TPL_PH_STAT.SERVICE.id, TIL_PORT_STAT.STATE.id] s2 := by
    unfold s2
    split
    · exact h1.trans fun f hf i => s1.windowDelivered_other p x f (by revert hf; simp; tauto) i
    · exact h1
  clear_value s2
  split
  · exact h2.trans ((s2.countS_quiet _ _ _).same_fields (by decide))
  · exact h2

theorem State.windowShown_kept (s : State) (p : Nat) (x : Phase) (notSynt valid : Bool) :
    s.Kept [.regs, .counters] (s.windowShown p x notSynt valid) := by
  unfold State.windowShown
  extract_lets s1 s2
  have h1 : s.Kept [.regs, .counters] s1 := by
    unfold s1 State.windowFlagged
    iterate 7 refine State.setF_kept _ _ _ (by decide) ?_
    exact .refl _ s
  have h2 : s.Kept [.regs, .counters] s2 := by
    unfold s2 State.windowDelivered
    split
    · iterate 3 refine State.setF_kept _ _ _ (by decide) ?_
      exact h1
    · exact h1
  split
  · exact State.countS_kept _ _ _ (fun _ h => h) h2
  · exact h2


section
variable {ps : List Part} {s t : State} (h : s.Kept ps t)
include h

theorem State.Kept.phase (hp : Part.phases ∉ ps) (q : Nat) : t.phase q = s.phase q := by
  have e : t.phases = s.phases := h.only .phases hp
  simp only [State.phase, e]

theorem State.Kept.port (hp : Part.ports ∉ ps) (q : Nat) : t.port q = s.port q := by
  have e : t.ports = s.ports := h.only .ports hp
  simp only [State.port, e]

theorem State.Kept.fwRuns (hf : Part.fw ∉ ps) (hp : Part.plls ∉ ps) : t.fwRuns = s.fwRuns := by
  have ef : t.fw = s.fw := h.only .fw hf
  have ep : t.plls = s.plls := h.only .plls hp
  simp only [State.fwRuns, State.kclk, State.pll, ef, ep]

end

/-- A window that ends, once it is shown: the TLV, firmware's result and the next window. -/
def State.windowClosed (s : State) (p : Nat) (valid align : Bool) (w : WindowIn) : State :=
  ((s.sendTlv p valid).fwWindow p valid align w).startWindow p

theorem State.sendTlv_served (s : State) (p : Nat) (valid : Bool) : State.Served p s (s.sendTlv p valid) := by
  unfold State.sendTlv
  split
  · exact ⟨.of_regs rfl, fun _ _ => rfl⟩
  · exact .refl p s

theorem State.windowClosed_served (s : State) (p : Nat) (valid align : Bool) (w : WindowIn) :
    State.Served p s (s.windowClosed p valid align w) :=
  ((s.sendTlv_served p valid).trans (State.fwWindow_served _ p valid align w)).upPhase _

/-- The window that follows runs, empty, with AVG_UPD as it stands (R336, R360). -/
theorem State.windowClosed_next (s : State) (p : Nat) (valid align : Bool) (w : WindowIn) :
    ((s.windowClosed p valid align w).phase p).running = true ∧ ((s.windowClosed p valid align w).phase p).phi = [] ∧
    ((s.windowClosed p valid align w).phase p).updates = 0 ∧
    ((s.windowClosed p valid align w).phase p).avg = max 1 (s.getF TPL_PH_CFG.AVG_UPD) := by
  have havg : ((s.sendTlv p valid).fwWindow p valid align w).getF TPL_PH_CFG.AVG_UPD = s.getF TPL_PH_CFG.AVG_UPD :=
    ((s.sendTlv_served p valid).trans (State.fwWindow_served _ p valid align w)).fields _ (by decide) 0
  rw [State.windowClosed, State.startWindow, State.phase_upPhase_same, havg]
  exact ⟨rfl, rfl, rfl, rfl⟩

theorem State.windowClosed_stopped {s : State} (h : s.fwRuns = false) (p : Nat) (valid align : Bool) (w : WindowIn) :
    (s.windowClosed p valid align w).getF TPL_PH_STAT.SERVICE p = s.getF TPL_PH_STAT.SERVICE p := by
  have e : s.sendTlv p valid = s := if_neg (by simp [h])
  rw [State.windowClosed, e, State.fwWindow_stopped h]
  rfl

/-- The TLV of the window is among what has been sent (R343). -/
theorem State.windowClosed_sends {s : State} (h : s.fwRuns = true) {p : Nat} (hp : bit (s.port p).ptp.flags 0 = true)
    (valid align : Bool) (w : WindowIn) :
    Out.phaseTlv p (s.ownTlv p valid) ∈ (s.windowClosed p valid align w).out.drop s.out.length := by
  have e : s.sendTlv p valid = s.emit (.phaseTlv p (s.ownTlv p valid)) := if_pos (by simp [h, hp])
  rw [State.windowClosed, e]
  exact (State.startWindow_kept (ps := reports ++ [.time, .phases, .refs]) p (by decide)
    (State.fwWindow_kept p valid align w (fun _ h => h) (.refl _ _))).emitted

/-- SERVICE once the window is closed (R151, R329, R343, R345). -/
theorem State.windowClosed_service {s : State} (hr : s.fwRuns = true) (p : Nat) (valid align : Bool) (w : WindowIn) :
    (s.portState p ≠ 5 ∨ ((s.phase p).fresh = false ∧ w.fresh = false) →
      (s.windowClosed p valid align w).getF TPL_PH_STAT.SERVICE p = 1) ∧
    (s.portState p = 5 → (s.phase p).fresh = true ∨ w.fresh = true →
      (w.partner = none → (s.windowClosed p valid align w).getF TPL_PH_STAT.SERVICE p = 4) ∧
      ∀ o, w.partner = some o →
        (s.partnerFits p o = false ∨ valid = false → (s.windowClosed p valid align w).getF TPL_PH_STAT.SERVICE p = 4) ∧
        (s.partnerFits p o = true → valid = true → (s.windowClosed p valid align w).InService p)) := by
  rw [State.windowClosed, State.sendTlv]
  split
  · exact State.fwWindow_service (s := s.emit _) hr p valid align w
  · exact State.fwWindow_service hr p valid align w

/-! ### Loss of alignment, and PH_EN (R329–R331, R360) -/

theorem State.alignResolve_served (s : State) (p : Nat) : State.Served p s (s.alignResolve p) := by
  unfold State.alignResolve
  extract_lets st
  split
  · exact .refl p s
  · split
    · exact (State.Served.refl p s).resolve []
    · exact (State.Served.refl p s).upPhase _

/-- The window's flag once its alignment is lost. -/
def State.alignLost (s : State) (p : Nat) : State :=
  (s.upPhase p (fun x => { x with align := true })).setF TPL_PH_STAT.ALIGN_LOSS 1 p

theorem exec_alignmentLoss_taken {p : Nat} {s : State} (h5 : s.portState p = 5)
    (ha : hasAnchor (s.portMode p) (s.getF TIL_PORT_CFG.FEC p) = true) : exec (.alignmentLoss p) s =
      .next ((((s.alignLost p).countE (group 0 p) 35).portNotice p).alignResolve p) := by
  have e : exec (.alignmentLoss p) s = execAlignmentLoss p s := rfl
  rw [e, execAlignmentLoss]
  exact congrArg _ ((if_neg (by simp [h5, ha])).trans rfl)

theorem State.alignLost_flag (s : State) (p : Nat) :
    ((((s.alignLost p).countE (group 0 p) 35).portNotice p).alignResolve p).isF TPL_PH_STAT.ALIGN_LOSS p = true := by
  have hr : (s.alignLost p).Raised (((s.alignLost p).countE (group 0 p) 35).portNotice p) :=
    State.portNotice_raised p (State.countE_quiet _ _ _ _).raised
  rw [State.isF, (State.alignResolve_served _ p).fields _ (by decide), hr.regs _ (by decide), State.alignLost,
    State.getF_setF_same]
  decide

/-- PH_EN set, and low-power idle ended (R133, R360). -/
def State.phEnabled (s : State) (p : Nat) : State :=
  (((s.setF TPL_PH_PORT.PH_EN 1 p).awaitWindow p).setF TIL_PORT_STAT.TX_LPI 0 p).setF TIL_PORT_STAT.RX_LPI 0 p

theorem State.awaitWindow_regs (s : State) (p : Nat) : (s.awaitWindow p).regs = s.regs :=
  (State.awaitWindow_kept (ps := [.phases]) p (fun _ h => h) (.refl _ s)).only .regs (by decide)

theorem State.phEnabled_fields (s : State) (p : Nat) : (s.phEnabled p).isF TPL_PH_PORT.PH_EN p = true ∧
    (s.phEnabled p).isF TIL_PORT_STAT.TX_LPI p = false ∧ (s.phEnabled p).isF TIL_PORT_STAT.RX_LPI p = false := by
  have h : ((s.setF TPL_PH_PORT.PH_EN 1 p).awaitWindow p).getF TPL_PH_PORT.PH_EN p = 1 :=
    (State.Same.of_regs (l := [TPL_PH_PORT.PH_EN.id]) (State.awaitWindow_regs _ p) TPL_PH_PORT.PH_EN (by decide) p).trans
      (State.getF_setF_same s _ _ p)
  unfold State.phEnabled
  simp (disch := decide) only [State.isF, State.getF_setF_ne, State.getF_setF_same, h]
  decide

theorem State.phEnabled_same (s : State) (p : Nat) :
    s.Same [TIL_PORT_CFG.MODE.id, TIL_PORT_CFG.FEC.id] (s.phEnabled p) :=
  (((s.setF_same TPL_PH_PORT.PH_EN 1 p (by decide)).trans (.of_regs (State.awaitWindow_regs _ p))).setF
    TIL_PORT_STAT.TX_LPI 0 p (by decide)).setF TIL_PORT_STAT.RX_LPI 0 p (by decide)

theorem State.phEnabled_fwRuns (s : State) (p : Nat) : (s.phEnabled p).fwRuns = s.fwRuns := by
  have h : ((s.setF TPL_PH_PORT.PH_EN 1 p).awaitWindow p).fwRuns = s.fwRuns := by
    unfold State.awaitWindow
    split <;> rfl
  exact h

theorem State.showService_same (s : State) (p : Nat) :
    s.Same [TPL_PH_PORT.PH_EN.id, TIL_PORT_STAT.TX_LPI.id, TIL_PORT_STAT.RX_LPI.id] (s.showService p) := by
  unfold State.showService
  split
  · exact .refl _ s
  · exact s.setF_same _ _ p (by decide)

theorem State.getF_showService {s : State} {p : Nat} (hr : s.fwRuns = true) (he : s.isF TPL_PH_PORT.PH_EN p = true) :
    (s.showService p).getF TPL_PH_STAT.SERVICE p =
      if hasAnchor (s.portMode p) (s.getF TIL_PORT_CFG.FEC p) then 1 else 5 := by
  rw [State.showService, if_neg (by simp [hr, he])]
  exact State.getF_setService _ p (by split <;> decide)

theorem exec_phEnSet_taken {q : Path} {p : Nat} {s : State} (hq : s.pfMay q = true)
    (he : s.isF TPL_PH_PORT.PH_EN p = false) (hu : s.portUnused p = false) :
    exec (.phEnSet q p) s = .next ((s.phEnabled p).showService p) := by
  have e : exec (.phEnSet q p) s = execPhEnSet q p s := rfl
  rw [e, execPhEnSet, if_neg (by simp [hq, he, hu])]
  rfl

theorem exec_phEnClear_taken {q : Path} {p : Nat} {s : State} (hq : s.pfMay q = true)
    (he : s.isF TPL_PH_PORT.PH_EN p = true) : exec (.phEnClear q p) s =
      .next ((((s.setF TPL_PH_PORT.PH_EN 0 p).upPhase p (fun _ => {})).setF TPL_PH_STAT.VALID 0 p).setService p 0) := by
  have e : exec (.phEnClear q p) s = execPhEnClear q p s := rfl
  rw [e, execPhEnClear, if_neg (by simp [hq, he])]

end Sys2Proof.Machine

namespace Sys2Proof.Proofs

open Sys2Proof.Machine

/-- Settles O54: a beat's phase, a window judged and closed with the service that it leaves, and PH_EN. -/
theorem phaseWindowsAreTakenJudgedAndResolved : Obligations.PhaseWindowsAreTakenJudgedAndResolved := by
  unfold Obligations.PhaseWindowsAreTakenJudgedAndResolved
  refine ⟨fun p e rx tx phi s hphi => ⟨exec_phaseBeat_idle, fun hr hl => ?_⟩,
    fun p w x d notSynt valid s hp hx hd hn hv => ⟨fun h => ?_, fun hr hu hphi => ?_⟩,
    fun p s => ⟨fun h => ?_, fun h5 ha => ⟨_, exec_alignmentLoss_taken h5 ha, s.alignLost_flag p⟩⟩,
    fun q p s hp => ⟨fun h => ?_, fun hq he hu => ?_, fun h => ?_, fun hq he => ?_⟩⟩
  · obtain ⟨h0, hT⟩ := s.phiOf_range p rx tx
    rw [exec_phaseBeat_taken hr hl, ← hphi]
    rw [← hphi] at h0 hT
    refine ⟨_, rfl, h0, hT, fun hs => ?_, fun hs => ?_⟩
    · rw [if_neg (by simp [hs])]
      refine ⟨rfl, ?_⟩
      rw [State.addBeat, State.phase_upPhase_same]
      exact ⟨rfl, rfl, Bool.or_false _⟩
    · rw [if_pos hs]
      exact State.portNotice_raised p (State.countE_quiet _ _ _ _).raised
  · subst hx
    exact exec_phaseWindowEnd_waits h
  · subst hx hd
    have hshow := s.windowShown_shows p (s.phase p) notSynt valid
    have hk := s.windowShown_kept p (s.phase p) notSynt valid
    have hsame := s.windowShown_same p (s.phase p) notSynt valid
    have hex := exec_phaseWindowEnd_ends (w := w) hr hu hphi hn hv
    generalize s.windowShown p (s.phase p) notSynt valid = v at hshow hk hsame hex
    have hst : v.portState p = s.portState p := hsame _ (by decide) p
    have hph : ∀ q, v.phase q = s.phase q := hk.phase (by decide)
    have hpt : v.port p = s.port p := hk.port (by decide) p
    have hfw : v.fwRuns = s.fwRuns := hk.fwRuns (by decide) (by decide)
    have hserved := v.windowClosed_served p valid (s.phase p).align w
    have hall := hshow.later hserved.fields
    obtain ⟨hrun, hempty, hupd, havg⟩ := v.windowClosed_next p valid (s.phase p).align w
    refine ⟨_, hex, hall.validFlag, hall.slipFlag, hall.notSyntFlag, hall.staleFlag, hall.discFlag, hall.seq,
      fun hval => ?_, hall.keeps, hrun, hempty, hupd, havg.trans (by rw [hshow.avg]), fun hstop => ?_, fun hgo => ?_,
      fun q hq => (hserved.others q hq).trans (hph q)⟩
    · obtain ⟨hphase, hedge⟩ := hall.delivers hval
      exact ⟨hphase, hphase ▸ phMean_lt _, hedge⟩
    · exact (State.windowClosed_stopped (hfw.trans hstop) p valid _ w).trans (hsame _ (by decide) p)
    · obtain ⟨hwait, hserve⟩ := State.windowClosed_service (hfw.trans hgo) p valid (s.phase p).align w
      rw [hst, hph] at hwait hserve
      refine ⟨fun hb => ⟨v.ownTlv p valid, ?_, rfl, ?_⟩, hwait, fun h5 hf => ?_⟩
      · exact hk.sent_before (State.windowClosed_sends (hfw.trans hgo) (by rwa [hpt]) valid _ w)
      · exact (hserved.fields _ (by decide) p).symm
      · obtain ⟨hnone, hsome⟩ := hserve h5 hf
        refine ⟨hnone, fun o ho => ?_⟩
        obtain ⟨halone, hin⟩ := hsome o ho
        simp only [State.partnerFits, hpt] at halone hin
        refine ⟨fun h => halone ?_, fun h0 h4 hval => hin ?_ hval⟩
        · rcases h with h | ⟨h4, h⟩ | h
          · simp [h]
          · simp [h4, h]
          · exact .inr h
        · rcases h4 with h4 | h4 <;> simp [h0, h4]
  · have e : exec (.alignmentLoss p) s = execAlignmentLoss p s := rfl
    rw [e, execAlignmentLoss]
    exact congrArg _ (if_pos (by rcases h with h | h <;> simp [h]))
  · have e : exec (.phEnSet q p) s = execPhEnSet q p s := rfl
    rw [e, execPhEnSet, if_pos (by rcases h with h | h | h <;> simp [h])]
  · obtain ⟨hen, htx, hrx⟩ := s.phEnabled_fields p
    have hs := (s.phEnabled p).showService_same p
    have hc := s.phEnabled_same p
    have hf : ∀ f : Fld, _ → ∀ i, ((s.phEnabled p).showService p).isF f i = (s.phEnabled p).isF f i :=
      fun f hf i => congrArg (· != 0) (hs f hf i)
    refine ⟨_, exec_phEnSet_taken hq he hu, (hf _ (by decide) p).trans hen, (hf _ (by decide) p).trans htx,
      (hf _ (by decide) p).trans hrx, fun hr => ?_⟩
    rw [State.getF_showService ((s.phEnabled_fwRuns p).trans hr) hen, State.portMode, hc _ (by decide), hc _ (by decide)]
    rfl
  · have e : exec (.phEnClear q p) s = execPhEnClear q p s := rfl
    rw [e, execPhEnClear, if_pos (by rcases h with h | h <;> simp [h])]
  · refine ⟨_, exec_phEnClear_taken hq he, ?_,
      State.phase_upPhase_same (s.setF TPL_PH_PORT.PH_EN 0 p) p (fun _ => {}), ?_, State.getF_setService _ p (by decide)⟩
    · simp (disch := decide) only [State.setService, State.isF_setF_ne]
      exact congrArg (· != 0) (s.getF_setF_same TPL_PH_PORT.PH_EN 0 p)
    · simp (disch := decide) only [State.setService, State.isF_setF_ne]
      exact congrArg (· != 0) (State.getF_setF_same _ TPL_PH_STAT.VALID 0 p)

end Sys2Proof.Proofs
end

section
/-!
PROOF. The fields of links, and what leaves them alone: frames that go, references, Temper's runs (R141, R147, R494).
-/

namespace Sys2Proof.Machine

/-! ### What leaves the fields of links alone -/

/-- The fields that tell of a port's link and of its lanes (R118, R126, R147). -/
def linkFields : List Nat :=
  [TIL_PORT_CFG.ENABLE.id, TIL_PORT_STAT.STATE.id, TIL_PORT_STAT.CAUSE.id, TIL_PORT_HIST.DOWN_SEEN.id,
   TIL_PORT_HIST.FLAP_IN_HOLDOFF.id, TIL_LANE_STAT.SIGNAL.id, TIL_LANE_STAT.CDR_LOCK.id, TIL_LANE_STAT.LOCK.id]

theorem State.Still.linkSame {s t : State} (h : s.Still t) : s.Same linkFields t :=
  fun f hf i => h.regs f ((by decide : ∀ x ∈ linkFields, x ∉ reportFields) _ hf) i

theorem State.Quiet.linkSame {s t : State} (h : s.Quiet t) : s.Same linkFields t := h.same_fields (by decide)

theorem State.setF_linkSame (s : State) (f : Fld) (v i : Nat) (hf : f.id ∉ linkFields) : s.Same linkFields (s.setF f v i) :=
  s.setF_same f v i hf

/-- A fold keeps the fields of links where each of its steps does. -/
theorem State.foldl_linkSame {α : Type} (f : State → α → State) (xs : List α)
    (hf : ∀ t a, State.Same linkFields t (f t a)) (s : State) : s.Same linkFields (xs.foldl f s) :=
  State.Same.foldl f xs (.refl _ s) fun t a h => h.trans (hf t a)

theorem State.queueFc_linkSame (s : State) (p : Nat) (o : Option FcFrame) : s.Same linkFields (s.queueFc p o) := by
  cases o with
  | none => exact .refl _ s
  | some f => exact (s.setF_linkSame TIL_PORT_STAT.TX_LPI 0 p (by decide)).trans (.of_regs rfl)

theorem State.xonTry_linkSame (s : State) (p c : Nat) : s.Same linkFields (s.xonTry p c) := by
  unfold State.xonTry
  extract_lets gap s1
  have h1 : s.Same linkFields s1 := s.setF_linkSame _ _ p (by decide)
  split
  · split
    · exact h1
    · exact h1.trans (s1.queueFc_linkSame p _)
  · exact .refl _ s

theorem State.release_linkSame (s : State) (r p c n : Nat) : s.Same linkFields (s.release r p c n) := by
  have hall : ∀ t : State, t.Same linkFields t.xonAll := fun t =>
    State.foldl_linkSame _ _ (fun t p => State.foldl_linkSame _ _ (fun t c => t.xonTry_linkSame p c) t) t
  unfold State.release
  split
  · exact State.Same.trans (.of_regs rfl) (hall _)
  · exact .refl _ s

theorem State.finish_linkSame (s : State) (f : Frame) : s.Same linkFields (s.finish f) := by
  have h := s.release_linkSame f.region f.inPort f.res.cls f.cells
  unfold State.finish
  dsimp only
  split
  · exact h.trans (.of_regs rfl)
  · exact h

theorem State.txComplete_linkSame (s : State) (d : Direct) (codes : List Nat) (late miss : Bool) (drop : Nat) :
    s.Same linkFields (s.txComplete d codes late miss drop) := by
  unfold State.txComplete
  split
  · exact .refl _ s
  · split
    · exact State.foldl_linkSame _ _ (fun t c => (t.complete_law _ _ _ _ _).1.still.linkSame) s
    · exact .refl _ s

theorem State.dropEgress_linkSame (s : State) (p slot : Nat) (f : Frame) (code : Nat) :
    s.Same linkFields (s.dropEgress p slot f code) := by
  unfold State.dropEgress
  extract_lets s1
  have h1 : s.Same linkFields s1 := (s.countS_quiet _ _ _).linkSame.trans (State.finish_linkSame _ f)
  split
  · exact h1.trans (s1.txComplete_linkSame _ _ _ _ _)
  · exact h1

theorem State.flushQueue_linkSame (s : State) (p slot code : Nat) (flushed : Bool) :
    s.Same linkFields (s.flushQueue p slot code flushed) := by
  refine State.Same.trans (.of_regs rfl) (State.foldl_linkSame _ _ (fun t f => ?_) _)
  have h := t.dropEgress_linkSame p slot f code
  dsimp only
  split
  · exact h.trans (State.countS_quiet _ _ _ _).linkSame
  · exact h

theorem State.flushPort_linkSame (s : State) (p : Nat) : s.Same linkFields (s.flushPort p) :=
  State.foldl_linkSame _ _ (fun t slot => t.flushQueue_linkSame p slot 0x33 true) s

theorem State.pgPort_linkSame (s : State) (p : Nat) : s.Same linkFields (s.pgPort p) := by
  have hmove : ∀ g b, s.Same linkFields (s.pgMove g b) := by
    intro g b
    unfold State.pgMove
    split
    · exact .refl _ s
    · extract_lets d s1
      have h1 : s.Same linkFields s1 := .of_regs rfl
      split <;> exact h1.setF _ _ _ (by decide)
  unfold State.pgPort
  split
  · unfold State.pgEval
    split
    · exact .refl _ s
    · dsimp only
      split
      · exact .refl _ s
      split
      · exact hmove _ _
      split
      · exact hmove _ _
      · exact .refl _ s
  · exact .refl _ s

theorem State.cutShort_linkSame (s : State) (p : Nat) : s.Same linkFields (s.cutShort p) := by
  unfold State.cutShort
  extract_lets d s1 e
  have h1 : s.Same linkFields s1 := by
    have hd : s.Same linkFields d.2 := .of_regs rfl
    unfold s1
    split
    · exact hd.trans (State.countE_quiet _ _ _ _).linkSame
    · exact hd
  have he : s.Same linkFields e.2 := h1.trans (.of_regs rfl)
  split
  · exact he
  · split
    · exact he
    · refine State.Same.trans ?_ (State.countS_quiet _ _ _ _).linkSame
      refine State.Same.trans ?_ (State.dropEgress_linkSame _ p _ _ _)
      exact he.trans (.of_regs rfl)

theorem State.setRef_linkSame (s : State) (i st : Nat) : s.Same linkFields (s.setRef i st) := s.setRef_same (by decide) i st

theorem State.slotsLost_linkSame (s : State) (p : Nat) : s.Same linkFields (s.slotsLost p) := by
  refine State.foldl_linkSame _ _ (fun t i => ?_) s
  have h := t.setF_linkSame TPL_REF_HIST.ACT_LOSS 1 i (by decide)
  unfold State.failRef
  split
  · exact h
  · exact h.trans (State.setRef_linkSame _ i 1)

theorem State.slotsBack_linkSame (s : State) (p : Nat) : s.Same linkFields (s.slotsBack p) := by
  refine State.foldl_linkSame _ _ (fun t i => ?_) s
  unfold State.requalifySlot
  split
  · exact t.setRef_linkSame i 2
  · exact .refl _ t

theorem State.suspendPhase_linkSame (s : State) (p : Nat) : s.Same linkFields (s.suspendPhase p) := by
  unfold State.suspendPhase
  extract_lets s1 s2
  have h2 : s.Same linkFields s2 := State.Same.setF (.of_regs rfl) _ _ _ (by decide)
  split
  · exact h2.setF _ _ _ (by decide)
  · exact h2

theorem State.freezeLanes_linkSame (s : State) (p : Nat) : s.Same linkFields (s.freezeLanes p) := by
  refine State.foldl_linkSame _ _ (fun t l => ?_) s
  split
  · exact t.setF_linkSame _ _ _ (by decide)
  · exact .refl _ t

theorem State.linkChange_linkSame (s : State) (p : Nat) : s.Same linkFields (s.linkChange p) :=
  (s.event_quiet _ _ _ _ _ _).linkSame

/-- What follows on a port's entering DOWN leaves its state and cause, and its lanes, as step 1 of R147 set them. -/
theorem State.leaveLine_linkSame (s : State) (p st cause failed : Nat) :
    s.Same linkFields (s.leaveLine p st cause failed) := by
  unfold State.leaveLine
  extract_lets s1 s2 s3 s4 s5 s6 s7 s8 s9 s10
  have h1 : s.Same linkFields s1 := s.pgPort_linkSame p
  have h2 : s.Same linkFields s2 := by
    unfold s2
    split
    · exact h1.trans (s1.cutShort_linkSame p)
    · exact h1
  have h3 : s2.Same linkFields s3 := by
    unfold s3
    split <;> exact .of_regs rfl
  have h4 : s2.Same linkFields s4 := (h3.setF _ _ _ (by decide)).setF _ _ _ (by decide)
  have h5 : s4.Same linkFields s5 := .of_regs rfl
  have h6 : s2.Same linkFields s6 := (h4.trans h5).trans (s5.flushPort_linkSame p)
  have h7 : s2.Same linkFields s7 := by
    unfold s7
    split
    · exact h6.trans (s6.slotsLost_linkSame p)
    · exact h6
  have h9 : s2.Same linkFields s9 := (h7.trans (s7.suspendPhase_linkSame p)).trans (State.freezeLanes_linkSame _ p)
  exact ((h2.trans h9).setF _ _ _ (by decide)).trans (State.linkChange_linkSame _ p)

/-! ### A transmission cut off (R141) -/

theorem State.recallIn_linkSame (p slot n : Nat) : ∀ s : State, s.Same linkFields (s.recallIn p slot n) := by
  induction n with
  | zero => exact fun s => .refl _ s
  | succ n ih =>
    intro s
    unfold State.recallIn
    extract_lets k
    split
    · exact .of_regs rfl
    · split
      · exact .refl _ s
      · extract_lets old s1 s2
        have h2 : s.Same linkFields s2 := by
          have h1 : s.Same linkFields s1 := .of_regs rfl
          unfold s2
          split
          · exact h1.trans (s1.dropEgress_linkSame p slot _ _)
          · exact h1.trans (.of_regs rfl)
        split
        · exact .refl _ s
        · exact h2.trans (ih s2)

theorem State.popHead_linkSame (s : State) (p slot : Nat) : s.Same linkFields (s.popHead p slot) := by
  unfold State.popHead
  extract_lets k s1
  have h1 : s.Same linkFields s1 := .of_regs rfl
  split
  · exact h1.trans (State.recallIn_linkSame p slot _ s1)
  · split
    · exact h1.trans (.of_regs rfl)
    · exact h1

theorem State.abortTransmit_linkSame (s : State) (p : Nat) : s.Same linkFields (s.abortTransmit p) := by
  have hpick : s.Same linkFields (s.pick p).1 :=
    (State.pick_kept (ps := [.ports]) p (fun _ h => h) (.refl _ s)).same_fields (by decide)
  unfold State.abortTransmit
  split
  · exact .refl _ s
  generalize s.pick p = d at hpick ⊢
  obtain ⟨t, o⟩ := d
  cases o with
  | none => exact hpick
  | some slot =>
    dsimp only at hpick ⊢
    split
    · refine State.Same.trans ?_ (State.countS_quiet _ _ _ _).linkSame
      refine State.Same.trans ?_ (State.dropEgress_linkSame _ p slot _ _)
      exact (hpick.trans (t.popHead_linkSame p slot)).trans (.of_regs rfl)
    · exact hpick

/-! ### Temper's runs (R494–R499) -/

theorem State.done_linkSame (s : State) (c : Cmd) (status r0 r1 : Nat) : s.Same linkFields (s.done c status r0 r1) := by
  by_cases h : c.ring < 256
  · exact (s.done_answered c status r0 r1 0 h).still.linkSame
  · rw [State.done, if_pos (show noRing ≤ c.ring from Nat.le_of_not_lt h)]
    exact .refl _ s

theorem State.endRun_linkSame (s : State) : s.Same linkFields s.endRun := by
  have hcheck : ∀ t : State, t.Same linkFields t.checkRun := by
    intro t
    unfold State.checkRun
    split
    · exact .refl _ t
    split
    · split
      · exact .refl _ t
      · exact State.Same.setF (.of_regs rfl) _ _ _ (by decide)
    · unfold State.endTemperRun
      split
      · refine State.Same.trans ?_ (State.done_linkSame _ _ _ _ _)
        exact .of_regs rfl
      · exact .refl _ t
  unfold State.endRun
  split
  · exact .refl _ s
  · extract_lets n s1 _ s2 s3 t s4 s5 _ _ s6
    have h1 : s.Same linkFields s1 := s.setF_linkSame _ _ _ (by decide)
    have h3 : s.Same linkFields s3 := ((h1.trans (.of_regs rfl)).setF _ _ _ (by decide)).setF _ _ _ (by decide)
    have h5 : s3.Same linkFields s5 := (s3.setF_linkSame _ _ _ (by decide)).setF _ _ _ (by decide)
    have h6 : s3.Same linkFields s6 := by
      unfold s6
      split
      · exact h5.trans (.of_regs rfl)
      · exact .of_regs rfl
    exact ((h3.trans h6).setF _ _ _ (by decide)).trans (hcheck _)

theorem State.nextRun_linkSame (n : Nat) : ∀ s : State, s.Same linkFields (s.nextRun n) := by
  induction n with
  | zero => exact fun s => .refl _ s
  | succ n ih =>
    intro s
    rw [State.nextRun]
    split
    · exact .refl _ s
    split
    · exact .refl _ s
    · extract_lets lanes d s1 s2 _ s3
      have hd : s.Same linkFields d.2 := .of_regs rfl
      have h2 : s.Same linkFields s2 := ((hd.setF _ _ _ (by decide)).setF _ _ _ (by decide)).setF _ _ _ (by decide)
      have h3 : s.Same linkFields s3 := h2.trans (.of_regs rfl)
      clear_value s3
      split
      · exact (h3.trans s3.endRun_linkSame).trans (ih _)
      · exact h3

theorem State.holdoffTrigger_linkSame (s : State) (p : Nat) : s.Same linkFields (s.holdoffTrigger p) := by
  unfold State.holdoffTrigger
  dsimp only
  split
  · exact .refl _ s
  · exact State.Same.trans (.of_regs rfl) (State.nextRun_linkSame 10 _)

end Sys2Proof.Machine
end

section
/-!
PROOF. Ports: enabling, link loss, link-up, adaptation and low-power idle (R118, R123–R136, R147–R152).
-/

namespace Sys2Proof.Machine

/-! ### Enabling and disabling (R118, R152, R264) -/

/-- A fault whose target is no fence domain stops no port (R440, R442). -/
theorem State.occur_linkSame (s : State) {o : FaultOcc} (same : Bool) (ht : ∀ d, faultTarget o.id ≠ .domain d) :
    s.Same linkFields (s.occur o same) := by
  have hi : ∀ u : State, u.isolateFence o.id = u := by
    intro u
    unfold State.isolateFence
    split
    · exact absurd (by assumption) (ht _)
    · rfl
  have he : ∀ u : State, u.Same linkFields (u.faultEvent o.id) := fun u => (State.event_quiet u _ _ _ _ _ _).linkSame
  unfold State.occur
  split
  · unfold State.latchAgain
    extract_lets old conf rise f upd _ s1
    have h1 : s.Same linkFields s1 := .of_regs rfl
    split
    · rw [hi]
      exact (h1.setF QCH_HIST.ESCALATED_SEEN 1 0 (by decide)).trans (he _)
    · exact h1
  · unfold State.latchNew
    extract_lets conf esc applied first k r f q s1 s2 s3 s4 s5
    have h1 : s.Same linkFields s1 := .of_regs rfl
    have h2 : s.Same linkFields s2 := by
      unfold s2
      split
      · exact h1.setF _ _ _ (by decide)
      · exact h1
    have h3 : s.Same linkFields s3 := by
      unfold s3
      split
      · exact h2.setF _ _ _ (by decide)
      · exact h2
    have h4 : s.Same linkFields s4 := by
      unfold s4
      split
      · exact h3.setF _ _ _ (by decide)
      · exact h3
    have h5 : s.Same linkFields s5 := by
      unfold s5
      split
      · exact ((h4.setF _ _ _ (by decide)).setF _ _ _ (by decide)).setF _ _ _ (by decide)
      · exact h4
    rw [hi]
    exact h5.trans (he _)

theorem State.raiseCycle_linkSame (s : State) {o : FaultOcc} (ht : ∀ d, faultTarget o.id ≠ .domain d) :
    s.Same linkFields (s.raiseCycle [o]) := by
  have hc : ∀ u : State, u.Same linkFields (u.cutPins s) := fun u =>
    (State.cutPins_kept (ps := [.pinMsg, .out]) s (fun _ h => h) (State.Kept.refl _ u)).same_fields (by decide)
  unfold State.raiseCycle
  extract_lets l wasEmpty s'
  have hl : l = [o] ∨ l = [] := by
    unfold l
    rw [List.filter_singleton]
    cases faultNamed o.id && !s.masked o.id && (!(s.faultSt o.id).present || faultTarget o.id == .guarded)
    · exact .inr rfl
    · exact .inl rfl
  have hf : s.Same linkFields s' := by
    refine State.Same.trans ?_ (hc _)
    rcases hl with e | e <;> rw [e]
    · exact s.occur_linkSame false ht
    · exact .refl _ s
  clear_value s'
  split
  · exact hf.setF _ _ _ (by decide)
  · exact hf

theorem State.judgeOverbooked_linkSame (s old : State) (p : Nat) : s.Same linkFields (s.judgeOverbooked old p) := by
  unfold State.judgeOverbooked
  split
  · exact (s.setF_linkSame GLB_MED_HIST.OVERBOOKED_SEEN 1 0 (by decide)).trans
      (State.raiseCycle_linkSame _ fun _ h => nomatch h)
  · exact .refl _ s

theorem State.showService_linkSame (s : State) (p : Nat) : s.Same linkFields (s.showService p) := by
  unfold State.showService
  split
  · exact .refl _ s
  · exact s.setF_linkSame _ _ _ (by decide)

/-- A property that `f` gives a lane is that of every lane of a list to which `f` has been applied. -/
theorem State.lane_foldl_upLane {P : Lane → Prop} {f : Lane → Lane} (hf : ∀ x, P (f x)) (k : Nat) :
    ∀ (l : List Nat) (s : State), k ∈ l ∨ P (s.lane k) → P ((l.foldl (fun s l => s.upLane l f) s).lane k)
  | [], _, h => h.resolve_left (List.not_mem_nil)
  | a :: l, s, h => by
    refine State.lane_foldl_upLane hf k l _ ?_
    by_cases ha : k = a
    · subst ha
      rw [State.lane_upLane_same]
      exact .inr (hf _)
    · rw [State.lane_upLane_other _ _ ha]
      exact h.imp_left fun hk => (List.mem_cons.1 hk).resolve_left ha

/-- What `f` leaves of a lane a fold of it leaves. -/
theorem State.lane_foldl_upLane_keeps {α : Type} {g : Lane → α} {f : Lane → Lane} (hf : ∀ x, g (f x) = g x) (k : Nat)
    (l : List Nat) (s : State) : g ((l.foldl (fun s l => s.upLane l f) s).lane k) = g (s.lane k) := by
  refine List.foldlRecOn (motive := fun t => g (State.lane t k) = g (s.lane k)) l _ rfl (fun t ht a _ => ?_)
  rw [State.lane_upLane]
  split
  · subst_vars
    rwa [hf]
  · exact ht

theorem State.regs_foldl_upLane (f : Lane → Lane) (l : List Nat) (s : State) :
    (l.foldl (fun s l => s.upLane l f) s).regs = s.regs :=
  List.foldlRecOn (motive := fun t => State.regs t = s.regs) l _ rfl fun _ ht _ _ => ht

/-- A port's state as a write of it leaves it, and the states of the others. -/
theorem State.portState_setPortState (s : State) {p k : Nat} (v : Nat) (hp : p < 256) (hk : k < 256) :
    (s.setPortState p v).portState k = if k = p then v % 8 else s.portState k := by
  split
  · next h => rw [h]; exact State.getF_setF_same s TIL_PORT_STAT.STATE v p
  · exact State.getF_setF_other s _ _ _ _ _ (.inr (by omega))

/-- A port that PORT_ENABLE makes DOWN (R118): its lanes take power, and its line idles. -/
def State.enabledPort (s : State) (p : Nat) : State :=
  ((((s.setF TIL_PORT_CFG.ENABLE 1 p).portLanes p).foldl (fun s l => s.upLane l (fun x => { x with gated := false }))
    (s.setF TIL_PORT_CFG.ENABLE 1 p)).setPortState p 1)

/-- What PORT_ENABLE does of a port that is DOWN. -/
def State.enabledRest (s was : State) (p : Nat) : State :=
  ((((s.upPort p (fun x => { x with line := 1 })).freezeLanes p).judgeOverbooked was p).showService p).linkChange p

theorem exec_portEnable_held {q : Path} {p : Nat} {s : State} (h : s.pfMay q = false ∨ s.isF TIL_PORT_CFG.ENABLE p = true) :
    exec (.portEnable q p) s = .next s := by
  have e : exec (.portEnable q p) s = execPortEnable q p s := rfl
  rw [e, execPortEnable, if_pos (by rcases h with h | h <;> simp [h])]

theorem exec_portEnable_taken {q : Path} {p : Nat} {s : State} (hq : s.pfMay q = true)
    (he : s.isF TIL_PORT_CFG.ENABLE p = false) : exec (.portEnable q p) s = .next
      (if s.portCfgOk p then (s.enabledPort p).enabledRest s p
      else ((s.setF TIL_PORT_CFG.ENABLE 1 p).setPortState p 6).linkChange p) := by
  have e : exec (.portEnable q p) s = execPortEnable q p s := rfl
  rw [e, execPortEnable, if_neg (by simp [hq, he])]
  rfl

theorem State.enabledRest_linkSame (s was : State) (p : Nat) : s.Same linkFields (s.enabledRest was p) := by
  unfold State.enabledRest
  refine State.Same.trans ?_ (State.linkChange_linkSame _ p)
  refine State.Same.trans ?_ (State.showService_linkSame _ p)
  refine State.Same.trans ?_ (State.judgeOverbooked_linkSame _ was p)
  refine State.Same.trans ?_ (State.freezeLanes_linkSame _ p)
  exact .of_regs rfl

theorem State.enabledRest_lanes (s was : State) (p : Nat) : (s.enabledRest was p).lanes = s.lanes := by
  have h : s.Kept faulting (s.enabledRest was p) :=
    State.linkChange_kept p (by decide) (State.showService_kept p (by decide) (State.judgeOverbooked_kept was p (fun _ h => h)
      (State.freezeLanes_kept p (by decide) (State.upPort_kept p _ (by decide) (.refl _ s)))))
  exact h.only .lanes (by decide)

theorem State.enabledPort_fields (s : State) {p : Nat} (hp : p < 256) :
    (s.enabledPort p).isF TIL_PORT_CFG.ENABLE p = true ∧ (s.enabledPort p).portState p = 1 ∧
    (∀ l ∈ s.portLanes p, ((s.enabledPort p).lane l).gated = false) ∧
    ∀ k, k < 256 → k ≠ p → (s.enabledPort p).portState k = s.portState k := by
  have hr : ∀ f i, ((((s.setF TIL_PORT_CFG.ENABLE 1 p).portLanes p).foldl
      (fun s l => s.upLane l (fun x => { x with gated := false })) (s.setF TIL_PORT_CFG.ENABLE 1 p)).getF f i =
      (s.setF TIL_PORT_CFG.ENABLE 1 p).getF f i) := fun f i => by simp only [State.getF, State.regs_foldl_upLane]
  have hm : (s.setF TIL_PORT_CFG.ENABLE 1 p).portLanes p = s.portLanes p := by
    rw [State.portLanes, State.portMode, State.getF_setF_ne _ _ _ _ _ _ (by decide)]
    rfl
  unfold State.enabledPort
  refine ⟨?_, ?_, fun l hl => ?_, fun k hk hkp => ?_⟩
  · rw [State.isF, State.setPortState, State.getF_setF_ne _ _ _ _ _ _ (by decide), hr, State.getF_setF_same]
    decide
  · rw [State.portState_setPortState _ 1 hp hp, if_pos rfl]
  · exact State.lane_foldl_upLane (P := fun x => x.gated = false) (fun _ => rfl) l _ _ (.inl (hm.symm ▸ hl))
  · rw [State.portState_setPortState _ 1 hp hk, if_neg hkp, State.portState, hr]
    exact State.getF_setF_ne _ _ _ _ _ _ (by decide)

/-- PORT_ENABLE of a port whose configuration passes R118. -/
theorem State.enabled_law (s : State) {p : Nat} (hp : p < 256) :
    ((s.enabledPort p).enabledRest s p).isF TIL_PORT_CFG.ENABLE p = true ∧
    ((s.enabledPort p).enabledRest s p).portState p = 1 ∧
    (∀ l ∈ s.portLanes p, (((s.enabledPort p).enabledRest s p).lane l).gated = false) ∧
    ∀ k, k < 256 → k ≠ p → ((s.enabledPort p).enabledRest s p).portState k = s.portState k := by
  obtain ⟨hen, hst, hgate, hoth⟩ := s.enabledPort_fields hp
  have hsame := (s.enabledPort p).enabledRest_linkSame s p
  have hports : ∀ k, ((s.enabledPort p).enabledRest s p).portState k = (s.enabledPort p).portState k := hsame _ (by decide)
  refine ⟨(congrArg (· != 0) (hsame _ (by decide) p)).trans hen, (hports p).trans hst, fun l hl => ?_,
    fun k hk hkp => (hports k).trans (hoth k hk hkp)⟩
  rw [State.lane, State.enabledRest_lanes]
  exact hgate l hl

/-- PORT_ENABLE of a port whose configuration fails: CFG_ERR (R118). -/
theorem State.misconfigured_law (s : State) {p : Nat} (hp : p < 256) :
    (((s.setF TIL_PORT_CFG.ENABLE 1 p).setPortState p 6).linkChange p).isF TIL_PORT_CFG.ENABLE p = true ∧
    (((s.setF TIL_PORT_CFG.ENABLE 1 p).setPortState p 6).linkChange p).portState p = 6 ∧
    ∀ k, k < 256 → k ≠ p →
      (((s.setF TIL_PORT_CFG.ENABLE 1 p).setPortState p 6).linkChange p).portState k = s.portState k := by
  have hsame := State.linkChange_linkSame ((s.setF TIL_PORT_CFG.ENABLE 1 p).setPortState p 6) p
  refine ⟨?_, ?_, fun k hk hkp => ?_⟩
  · rw [State.isF, hsame _ (by decide), State.setPortState, State.getF_setF_ne _ _ _ _ _ _ (by decide),
      State.getF_setF_same]
    decide
  · rw [State.portState, hsame _ (by decide)]
    exact (State.portState_setPortState _ 6 hp hp).trans (if_pos rfl)
  · rw [State.portState, hsame _ (by decide)]
    exact ((State.portState_setPortState _ 6 hp hk).trans (if_neg hkp)).trans
      (State.getF_setF_ne _ _ _ _ _ _ (by decide))

/-! ### A port that goes down (R126, R147) -/

/-- What step 1 of R147 shows of port `p`, and what it leaves. -/
structure State.Downed (p cause : Nat) (s t : State) : Prop where
  state : t.portState p = if cause = 8 then 0 else 1
  cause : t.getF TIL_PORT_STAT.CAUSE p = cause
  seen : t.isF TIL_PORT_HIST.DOWN_SEEN p = true
  flap : s.portState p = 4 → t.isF TIL_PORT_HIST.FLAP_IN_HOLDOFF p = true
  lanes : s.Same [TIL_PORT_CFG.ENABLE.id, TIL_LANE_STAT.SIGNAL.id, TIL_LANE_STAT.CDR_LOCK.id] t
  others : ∀ k, k < 256 → k ≠ p → t.portState k = s.portState k

theorem State.enterDown_downed (s : State) {p cause : Nat} (hp : p < 256) (hc : cause < 16) :
    State.Downed p cause s (s.enterDown p cause) := by
  have hstate : (if cause = 8 then 0 else 1) % 8 = if cause = 8 then 0 else 1 := by split <;> rfl
  unfold State.enterDown
  extract_lets st s1 s2 s3 s4
  have h3 : ∀ f i, f.id ∉ TIL_PORT_HIST.FLAP_IN_HOLDOFF.id :: reportFields →
      (s4.countS (group 0 p) 30).getF f i = s3.getF f i := by
    intro f i hf
    obtain ⟨hflap, hr⟩ := List.ne_and_not_mem_of_not_mem_cons hf
    refine ((s4.countS_quiet _ _ _).getF f i hr).trans ?_
    unfold s4
    split
    · exact State.getF_setF_ne _ _ _ _ _ _ hflap
    · rfl
  have hkeep : s.Same [TIL_PORT_CFG.ENABLE.id, TIL_LANE_STAT.SIGNAL.id, TIL_LANE_STAT.CDR_LOCK.id] s3 :=
    ((s.setF_same _ _ _ (by decide)).setF _ _ _ (by decide)).setF _ _ _ (by decide)
  have hst : ∀ k, (s4.countS (group 0 p) 30).portState k = s1.portState k := fun k =>
    (h3 _ _ (by decide)).trans ((State.getF_setF_ne _ _ _ _ _ _ (by decide)).trans
      (State.getF_setF_ne _ _ _ _ _ _ (by decide)))
  refine ⟨?_, ?_, ?_, fun hflap => ?_, fun f hf i => ?_, fun k hk hkp => ?_⟩
  · rw [hst, s.portState_setPortState _ hp hp, if_pos rfl, hstate]
  · rw [h3 _ _ (by decide), State.getF_setF_ne _ _ _ _ _ _ (by decide), State.getF_setF_same]
    exact Nat.mod_eq_of_lt hc
  · rw [State.isF, h3 _ _ (by decide), State.getF_setF_same]
    decide
  · have h4 : s4 = s3.setF TIL_PORT_HIST.FLAP_IN_HOLDOFF 1 p := if_pos (by simpa [st] using hflap)
    rw [State.isF, (s4.countS_quiet _ _ _).getF _ _ (by decide), h4, State.getF_setF_same]
    decide
  · exact (h3 f i (by revert hf; simp; rintro (h | h | h) <;> rw [h] <;> decide)).trans (hkeep f hf i)
  · rw [hst, s.portState_setPortState _ hp hk, if_neg hkp]

theorem State.Downed.later {p cause : Nat} {s t u : State} (h : State.Downed p cause s t) (k : t.Same linkFields u) :
    State.Downed p cause s u := by
  obtain ⟨hstate, hcause, hseen, hflap, hlanes, hothers⟩ := h
  have hf : ∀ f : Fld, f.id ∈ linkFields → ∀ i, u.isF f i = t.isF f i := fun f hf i => congrArg (· != 0) (k f hf i)
  have hst : ∀ q, u.portState q = t.portState q := k _ (by decide)
  refine ⟨(hst p).trans hstate, (k _ (by decide) p).trans hcause, (hf _ (by decide) p).trans hseen,
    fun h => (hf _ (by decide) p).trans (hflap h), fun f hm i => (k f ?_ i).trans (hlanes f hm i),
    fun q hq hqp => (hst q).trans (hothers q hq hqp)⟩
  revert hm
  generalize f.id = n
  revert n
  decide

/-- Link loss with `cause` where it does something (R125, R147, R152). -/
theorem State.portDown_downed (s : State) {p cause : Nat} (failed : Nat) (hp : p < 256) (hc : cause < 16)
    (hg : s.canGoDown p cause = true) : State.Downed p cause s (s.portDown p cause failed) := by
  rw [State.portDown, if_pos hg]
  exact (s.enterDown_downed hp hc).later (State.leaveLine_linkSame _ _ _ _ _)

theorem exec_portDisable_held {q : Path} {p : Nat} {s : State} (h : s.pfMay q = false ∨ s.isF TIL_PORT_CFG.ENABLE p = false) :
    exec (.portDisable q p) s = .next s := by
  have e : exec (.portDisable q p) s = execPortDisable q p s := rfl
  rw [e, execPortDisable, if_pos (by rcases h with h | h <;> simp [h])]

theorem exec_portDisable_taken {q : Path} {p : Nat} {s : State} (hq : s.pfMay q = true)
    (he : s.isF TIL_PORT_CFG.ENABLE p = true) : exec (.portDisable q p) s = .next
      ((s.setF TIL_PORT_CFG.ENABLE 0 p).portDown p 8 (if s.portState p == 6 then 0 else s.failedLanes p)) := by
  have e : exec (.portDisable q p) s = execPortDisable q p s := rfl
  rw [e, execPortDisable, if_neg (by simp [hq, he])]


/-! ### Sync headers (R123) -/

/-- Only block lock has moved among the register fields. -/
def State.LockOnly (s t : State) : Prop := ∀ f i, f.id ≠ TIL_LANE_STAT.LOCK.id → t.getF f i = s.getF f i

theorem State.LockOnly.refl (s : State) : s.LockOnly s := fun _ _ _ => rfl

theorem State.LockOnly.trans {s t u : State} (h : s.LockOnly t) (k : t.LockOnly u) : s.LockOnly u :=
  fun f i hf => (k f i hf).trans (h f i hf)

theorem State.laneHeader_lockOnly (s : State) (l : Nat) (ok : Bool) : s.LockOnly (s.laneHeader l ok) := by
  have hset : ∀ v, (s.upLane l (fun x => x.header ok)).LockOnly
      ((s.upLane l (fun x => x.header ok)).setF TIL_LANE_STAT.LOCK v l) :=
    fun v f i hf => State.getF_setF_ne _ _ _ _ _ _ hf
  have h1 : s.LockOnly (s.upLane l (fun x => x.header ok)) := fun _ _ _ => rfl
  unfold State.laneHeader
  extract_lets s1
  split
  · split
    · exact h1.trans fun f i hf => hset 0 f i hf
    · exact h1
  · split
    · exact h1.trans fun f i hf => hset 1 f i hf
    · exact h1

theorem State.laneHeaders_lockOnly (s : State) (p l : Nat) (hs : List Bool) : s.LockOnly (s.laneHeaders p l hs) := by
  unfold State.laneHeaders
  split
  · exact .refl s
  · exact List.foldlRecOn (motive := fun t => s.LockOnly t) hs _ (.refl s) fun t ht h _ => ht.trans (t.laneHeader_lockOnly l h)

theorem State.headersLost_lockOnly (s : State) (p : Nat) (hs : List (Nat × List Bool)) : s.LockOnly (s.headersLost p hs).2 :=
  List.foldlRecOn (motive := fun t => s.LockOnly t) (hs.filter _) _ (.refl s)
    fun t ht e _ => ht.trans (t.laneHeaders_lockOnly p _ e.2)

/-! ### Link loss (R123, R125, R126, R141, R147) -/

/-- The configuration by which link loss names lanes, and the state that it finds. -/
def lossFields : List Nat :=
  [TIL_PORT_CFG.MODE.id, TIL_PORT_STAT.STATE.id, TIL_PORT_CFG.FEC.id, TIL_PORT_FEC.UNCORR_RUN.id]

theorem State.Same.laneMask {s t : State} (h : s.Same lossFields t) (p m : Nat) : t.laneMask p m = s.laneMask p m := by
  simp only [State.laneMask, State.portMode, h TIL_PORT_CFG.MODE (by decide) p]

theorem State.Same.portState {l : List Nat} {s t : State} (h : s.Same l t) (hl : TIL_PORT_STAT.STATE.id ∈ l) (p : Nat) :
    t.portState p = s.portState p := h _ hl p

/-- A field that each step of a fold writes at its own index, with one value, has it at every index of the list. -/
theorem State.getF_foldl_writes {f : Fld} {v : Nat} {g : State → Nat → State}
    (hg : ∀ t l k, (g t l).getF f k = if k % 65536 = l % 65536 then v else t.getF f k) (k : Nat) :
    ∀ (l : List Nat) (s : State), k ∈ l ∨ s.getF f k = v → (l.foldl g s).getF f k = v
  | [], _, h => h.resolve_left List.not_mem_nil
  | a :: l, s, h => by
    refine State.getF_foldl_writes hg k l _ ?_
    rw [hg]
    split
    · exact .inr rfl
    · next hne =>
      refine h.imp_left fun hk => (List.mem_cons.1 hk).resolve_left ?_
      rintro rfl
      exact hne rfl

theorem State.getF_setF (s : State) (f : Fld) (v i k : Nat) :
    (s.setF f v i).getF f k = if k % 65536 = i % 65536 then v % 2 ^ f.width else s.getF f k := by
  split
  · next h =>
    rw [← State.getF_mod, h, State.getF_mod, State.getF_setF_same]
  · next h => exact State.getF_setF_other _ _ _ _ _ _ (.inr h)

/-- Field `f` cleared, or set, on every lane of a list. -/
theorem State.getF_foldl_setF (s : State) (f : Fld) (v : Nat) {k : Nat} {l : List Nat} (hk : k ∈ l) :
    (l.foldl (fun s l => s.setF f v l) s).getF f k = v % 2 ^ f.width :=
  State.getF_foldl_writes (fun t l k => t.getF_setF f v l k) k l s (.inl hk)

theorem State.foldl_setF_same {l : List Nat} (f : Fld) (v : Nat) (hf : f.id ∉ l) (xs : List Nat) (s : State) :
    s.Same l (xs.foldl (fun s l => s.setF f v l) s) :=
  State.Same.foldl _ xs (.refl _ s) fun _ a h => h.setF f v a hf

/-- What the lanes have lost is shown, and of the port's fields nothing else moves (R126). -/
theorem State.lanesLost_shows (s : State) (p cause a b c : Nat) :
    (∀ l ∈ s.laneMask p a, (s.lanesLost p cause a b c).isF TIL_LANE_STAT.SIGNAL l = false) ∧
    (∀ l ∈ s.laneMask p b, (s.lanesLost p cause a b c).isF TIL_LANE_STAT.CDR_LOCK l = false) ∧
    s.Same lossFields (s.lanesLost p cause a b c) := by
  unfold State.lanesLost
  extract_lets s1 s2
  have h1 : s.Same lossFields s1 := State.foldl_setF_same _ 0 (by decide) _ s
  have hstep : ∀ (l : List Nat), (∀ x ∈ l, x ∉ TIL_LANE_STAT.CDR_LOCK.id :: reportFields) → s1.Same l s2 := by
    intro l hl
    refine State.Same.foldl _ _ (.refl _ s1) fun t a h => State.Same.setF ?_ _ _ _ ?_
    · split
      · exact h.trans ((t.countE_quiet _ _ _).same_fields fun x hx hr => hl x hx (List.mem_cons_of_mem _ hr))
      · exact h
    · exact fun hm => hl _ hm (List.mem_cons_self ..)
  have h2 : s1.Same lossFields s2 := hstep _ (by decide)
  have h3 : s2.Same [TIL_LANE_STAT.SIGNAL.id, TIL_LANE_STAT.CDR_LOCK.id]
      ((s2.laneMask p (if cause = 4 then 0xFF else c)).foldl (fun s l => s.setF TIL_LANE_STAT.LOCK 0 l) s2) :=
    State.foldl_setF_same _ 0 (by decide) _ s2
  have hcdr : ∀ l ∈ s1.laneMask p b, s2.getF TIL_LANE_STAT.CDR_LOCK l = 0 := fun l hl =>
    State.getF_foldl_writes (v := 0) (fun t l k => by
      rw [State.getF_setF]
      split
      · rfl
      · split
        · exact (t.countE_quiet _ _ _).getF _ _ (by decide)
        · rfl) l _ s1 (.inl hl)
  refine ⟨fun l hl => ?_, fun l hl => ?_, (h1.trans h2).trans (State.foldl_setF_same _ 0 (by decide) _ s2)⟩
  · rw [State.isF, h3 _ (by decide), hstep [TIL_LANE_STAT.SIGNAL.id] (by decide) _ (by decide),
      s.getF_foldl_setF TIL_LANE_STAT.SIGNAL 0 hl]
    rfl
  · rw [State.isF, h3 _ (by decide), hcdr l (by rwa [h1.laneMask])]
    rfl

/-- What a link loss that is met shows of the port's lanes, after the headers (R125, R126). -/
def State.lossShown (s : State) (p cause a b : Nat) (c : LockLoss) : State :=
  let v := (s.headersLost p c.headers).2
  (if cause = 5 then v.countE (group 0 p) 28 (v.getF TIL_PORT_FEC.UNCORR_RUN p) else v).lanesLost p cause a b
    (c.mask ||| (s.headersLost p c.headers).1)

/-- The lanes that had failed before (R126). -/
def State.failedBefore (s : State) (p cause : Nat) (c : LockLoss) : Nat :=
  let v := (s.headersLost p c.headers).2
  (if cause = 5 then v.countE (group 0 p) 28 (v.getF TIL_PORT_FEC.UNCORR_RUN p) else v).failedLanes p

/-- The frames under way on the port end (R141). -/
def State.lossCut (s : State) (p : Nat) (rx tx : Bool) : State :=
  let s := if rx then s.countE (group 0 p) 7 else s
  if tx then s.abortTransmit p else s

theorem exec_linkLoss_unlinked {p cause a b : Nat} {c : LockLoss} {rx tx : Bool} {s : State}
    (h : s.portState p = 0 ∨ s.portState p = 6) : exec (.linkLoss p cause a b c rx tx) s = .next s := by
  have e : exec (.linkLoss p cause a b c rx tx) s = execLinkLoss p cause a b c rx tx s := rfl
  rw [e, execLinkLoss]
  rcases h with h | h <;> simp [h]

theorem State.headersLost_causeMet (s : State) (p cause a b c : Nat) (hs : List (Nat × List Bool)) :
    (s.headersLost p hs).2.causeMet p cause a b c = s.causeMet p cause a b c := by
  have h := s.headersLost_lockOnly p hs
  simp only [State.causeMet, State.isF, h TIL_PORT_CFG.FEC p (by decide), h TIL_PORT_FEC.UNCORR_RUN p (by decide)]

theorem exec_linkLoss_linked {p cause a b : Nat} {c : LockLoss} {rx tx : Bool} {s : State} (h0 : s.portState p ≠ 0)
    (h6 : s.portState p ≠ 6) : exec (.linkLoss p cause a b c rx tx) s = .next
      (if s.causeMet p cause a b (c.mask ||| (s.headersLost p c.headers).1) = false then (s.headersLost p c.headers).2
      else if s.portState p = 1 then s.lossShown p cause a b c
      else ((s.lossShown p cause a b c).lossCut p rx tx).portDown p cause
        ((a ||| b ||| (c.mask ||| (s.headersLost p c.headers).1)) %
          2 ^ modeLanes (((s.lossShown p cause a b c).lossCut p rx tx).portMode p) ||| s.failedBefore p cause c)) := by
  have e : exec (.linkLoss p cause a b c rx tx) s = execLinkLoss p cause a b c rx tx s := rfl
  have hseen : (if s.portState p == 0 || s.portState p == 6 then (0, s) else s.headersLost p c.headers) =
      s.headersLost p c.headers := if_neg (by simp [h0, h6])
  rw [e, execLinkLoss]
  simp only [hseen, s.headersLost_causeMet]
  have hc : (s.portState p == 0 || s.portState p == 6 ||
      !s.causeMet p cause a b (c.mask ||| (s.headersLost p c.headers).1)) =
      !s.causeMet p cause a b (c.mask ||| (s.headersLost p c.headers).1) := by simp [h0, h6]
  rw [hc]
  simp only [beq_iff_eq, Bool.not_eq_true']
  rfl

theorem State.lossShown_shows (s : State) (p cause a b : Nat) (c : LockLoss) :
    (∀ l ∈ s.laneMask p a, (s.lossShown p cause a b c).isF TIL_LANE_STAT.SIGNAL l = false) ∧
    (∀ l ∈ s.laneMask p b, (s.lossShown p cause a b c).isF TIL_LANE_STAT.CDR_LOCK l = false) ∧
    s.Same lossFields (s.lossShown p cause a b c) := by
  unfold State.lossShown
  extract_lets v
  have hv : s.Same lossFields v := fun f hf i => s.headersLost_lockOnly p c.headers f i (by
    intro e
    revert hf
    rw [e]
    decide)
  have hw : s.Same lossFields (if cause = 5 then v.countE (group 0 p) 28 (v.getF TIL_PORT_FEC.UNCORR_RUN p) else v) := by
    split
    · exact hv.trans ((v.countE_quiet _ _ _).same_fields (by decide))
    · exact hv
  generalize (if cause = 5 then v.countE (group 0 p) 28 (v.getF TIL_PORT_FEC.UNCORR_RUN p) else v) = w at hw ⊢
  obtain ⟨hsig, hcdr, hf⟩ := w.lanesLost_shows p cause a b (c.mask ||| (s.headersLost p c.headers).1)
  rw [hw.laneMask] at hsig hcdr
  exact ⟨hsig, hcdr, hw.trans hf⟩

theorem State.lossShown_queues (s : State) (p cause a b : Nat) (c : LockLoss) :
    (s.lossShown p cause a b c).queues = s.queues := by
  have h : s.Kept (reports ++ [.lanes]) (s.lossShown p cause a b c) := by
    have hv : s.Kept (reports ++ [.lanes]) (s.headersLost p c.headers).2 := State.headersLost_kept p _ (by decide) (.refl _ s)
    unfold State.lossShown
    refine State.lanesLost_kept _ _ _ _ _ (by decide) ?_
    split
    · exact State.countE_kept _ _ _ (by decide) hv
    · exact hv
  exact h.only .queues (by decide)

theorem State.lossCut_linkSame (s : State) (p : Nat) (rx tx : Bool) : s.Same linkFields (s.lossCut p rx tx) := by
  unfold State.lossCut
  extract_lets s1
  have h1 : s.Same linkFields s1 := by
    unfold s1
    split
    · exact (s.countE_quiet _ _ _).linkSame
    · exact .refl _ s
  split
  · exact h1.trans (s1.abortTransmit_linkSame p)
  · exact h1

/-- The loss of a link that was coming up or UP (R126, R147): the port goes down from where it stood, and its lanes have
lost what is named. -/
theorem State.lost_law (s : State) {p cause : Nat} (a b : Nat) (c : LockLoss) (rx tx : Bool) (hp : p < 256)
    (hc : cause < 8) (h2 : 2 ≤ s.portState p) (h5 : s.portState p ≤ 5) : ∃ u : State,
    (s.lossShown p cause a b c).lossCut p rx tx = u ∧ (∀ k, u.portState k = s.portState k) ∧
    (∀ failed, State.Downed p cause u (u.portDown p cause failed)) ∧
    (∀ l ∈ s.laneMask p a, u.isF TIL_LANE_STAT.SIGNAL l = false) ∧
    ∀ l ∈ s.laneMask p b, u.isF TIL_LANE_STAT.CDR_LOCK l = false := by
  obtain ⟨hsig, hcdr, hf⟩ := s.lossShown_shows p cause a b c
  have hcut := (s.lossShown p cause a b c).lossCut_linkSame p rx tx
  generalize s.lossShown p cause a b c = v at hsig hcdr hf hcut ⊢
  have hst : ∀ k, (v.lossCut p rx tx).portState k = s.portState k := fun k =>
    (hcut.portState (by decide) k).trans (hf.portState (by decide) k)
  have hgo : (v.lossCut p rx tx).canGoDown p cause = true := by
    simp only [State.canGoDown, hst, Bool.and_eq_true, Bool.or_eq_true, bne_iff_ne]
    omega
  have hfl : ∀ f : Fld, f.id ∈ linkFields → ∀ i, (v.lossCut p rx tx).isF f i = v.isF f i :=
    fun f hf i => congrArg (· != 0) (hcut f hf i)
  exact ⟨_, rfl, hst, fun failed => State.portDown_downed _ failed hp (by omega) hgo,
    fun l hl => (hfl _ (by decide) l).trans (hsig l hl), fun l hl => (hfl _ (by decide) l).trans (hcdr l hl)⟩


/-! ### Link-up (R128, R129, R149) -/

theorem exec_signalDetect {p : Nat} {s : State} : exec (.signalDetect p) s = .next (if s.rising p 1 then
    (s.portLanes p).foldl (fun s l => s.setF TIL_LANE_STAT.SIGNAL 1 l) s else s) := rfl

/-- What a lane has once its CDR has locked, with the sync headers that came since. -/
def State.cdrLocked (s : State) (p l : Nat) (hs : List Bool) : State :=
  (s.setF TIL_LANE_STAT.CDR_LOCK 1 (p + l)).laneHeaders p (p + l) hs

theorem exec_cdrLock_idle {p l : Nat} {hs : List Bool} {s : State}
    (h : s.rising p 1 = false ∨ modeLanes (s.portMode p) ≤ l ∨ s.isF TIL_LANE_STAT.SIGNAL (p + l) = false) :
    exec (.cdrLock p ⟨l, hs⟩) s = .next s := by
  have e : exec (.cdrLock p ⟨l, hs⟩) s = execCdrLock p ⟨l, hs⟩ s := rfl
  rw [e, execCdrLock]
  exact congrArg _ (if_pos (by rcases h with h | h | h <;> simp [h]))

/-- The state that a port takes once all its lanes have locked (R128). -/
def State.cdrNext (s : State) (p : Nat) : State :=
  if s.allLanes p TIL_LANE_STAT.CDR_LOCK && s.isF TIL_PORT_CFG.TRAIN p then
    (s.setPortState p (if s.trainerUp then 2 else 3)).linkChange p
  else s

theorem exec_cdrLock_taken {p l : Nat} {hs : List Bool} {s : State} (hr : s.rising p 1 = true)
    (hl : l < modeLanes (s.portMode p)) (hsig : s.isF TIL_LANE_STAT.SIGNAL (p + l) = true) :
    exec (.cdrLock p ⟨l, hs⟩) s = .next ((s.cdrLocked p l hs).cdrNext p) := by
  have e : exec (.cdrLock p ⟨l, hs⟩) s = execCdrLock p ⟨l, hs⟩ s := rfl
  rw [e, execCdrLock]
  exact congrArg _ (if_neg (by simp [hr, hl, hsig]))

theorem modeLanes_le (m : Nat) : modeLanes m ≤ 8 := by
  unfold modeLanes
  by_cases h : m < 16
  · revert m
    decide
  · rw [List.getD_eq_default _ _ (by simpa using h)]
    decide

theorem State.mem_portLanes {s : State} {p k : Nat} :
    k ∈ s.portLanes p ↔ ∃ i, i < modeLanes (s.portMode p) ∧ p + i = k := by
  simp [State.portLanes]

/-- Lanes are named by small numbers. -/
theorem State.portLanes_lt {s : State} {p k : Nat} (hp : p < 256) (hk : k ∈ s.portLanes p) : k < 65536 := by
  obtain ⟨i, hi, rfl⟩ := State.mem_portLanes.1 hk
  have := modeLanes_le (s.portMode p)
  omega

theorem State.cdrLocked_lockOnly (s : State) (p l : Nat) (hs : List Bool) :
    (s.setF TIL_LANE_STAT.CDR_LOCK 1 (p + l)).LockOnly (s.cdrLocked p l hs) := State.laneHeaders_lockOnly _ _ _ _

theorem State.cdrLocked_cdr (s : State) {p l k : Nat} (hs : List Bool) (hp : p < 256) (hl : l < 8) (hk : k < 65536) :
    (s.cdrLocked p l hs).isF TIL_LANE_STAT.CDR_LOCK k = (decide (k = p + l) || s.isF TIL_LANE_STAT.CDR_LOCK k) := by
  rw [State.isF, s.cdrLocked_lockOnly p l hs _ _ (by decide), State.getF_setF, Nat.mod_eq_of_lt hk,
    Nat.mod_eq_of_lt (show p + l < 65536 by omega)]
  by_cases h : k = p + l
  · simp [h, TIL_LANE_STAT.CDR_LOCK]
  · simp [h, State.isF]

/-- What the lanes' headers and a lane's lock leave of the rest. -/
theorem State.cdrLocked_other (s : State) (p l : Nat) (hs : List Bool) (f : Fld) (i : Nat)
    (hf : f.id ∉ [TIL_LANE_STAT.LOCK.id, TIL_LANE_STAT.CDR_LOCK.id]) : (s.cdrLocked p l hs).getF f i = s.getF f i := by
  obtain ⟨h1, h2⟩ := List.ne_and_not_mem_of_not_mem_cons hf
  exact (s.cdrLocked_lockOnly p l hs f i h1).trans
    (State.getF_setF_ne _ _ _ _ _ _ (List.ne_of_not_mem_cons h2))

theorem State.cdrLocked_trainerUp (s : State) (p l : Nat) (hs : List Bool) : (s.cdrLocked p l hs).trainerUp = s.trainerUp := by
  have h : s.Kept [.regs, .lanes] (s.cdrLocked p l hs) :=
    State.laneHeaders_kept p _ hs (fun _ h => h) (State.setF_kept _ _ _ (by decide) (.refl _ s))
  have hfw : (s.cdrLocked p l hs).fw = s.fw := h.only .fw (by decide)
  simp only [State.trainerUp, hfw, s.cdrLocked_other p l hs MER_BUDGET_STAT.MISS_RUN 0 (by decide)]

theorem State.cdrLocked_allLanes (s : State) {p l : Nat} (hs : List Bool) (hp : p < 256) (hl : l < 8) :
    (s.cdrLocked p l hs).allLanes p TIL_LANE_STAT.CDR_LOCK = true ↔
      ∀ k ∈ s.portLanes p, k = p + l ∨ s.isF TIL_LANE_STAT.CDR_LOCK k = true := by
  have hlanes : (s.cdrLocked p l hs).portLanes p = s.portLanes p := by
    simp only [State.portLanes, State.portMode, s.cdrLocked_other p l hs TIL_PORT_CFG.MODE p (by decide)]
  rw [State.allLanes, hlanes, List.all_eq_true]
  refine forall_congr' fun k => forall_congr' fun hk => ?_
  rw [s.cdrLocked_cdr hs hp hl (State.portLanes_lt hp hk)]
  simp

/-- A port that is `rising` is in the state named. -/
theorem State.portState_of_rising {s : State} {p st : Nat} (h : s.rising p st = true) : s.portState p = st := by
  simp only [State.rising, Bool.and_eq_true, beq_iff_eq] at h
  exact h.2

theorem State.portState_enter (s : State) {p : Nat} (v : Nat) (hp : p < 256) (hv : v < 8) :
    ((s.setPortState p v).linkChange p).portState p = v := by
  have h := (s.setPortState p v).linkChange_linkSame p TIL_PORT_STAT.STATE (by decide) p
  rw [State.portState, h]
  exact (s.portState_setPortState v hp hp).trans (by rw [if_pos rfl, Nat.mod_eq_of_lt hv])

/-- The last CDR lock starts training where TRAIN is set, or the wait for firmware (R128). -/
theorem State.cdrNext_law {s : State} {p l : Nat} (hs : List Bool) (hp : p < 256) (hl : l < modeLanes (s.portMode p))
    (h1 : s.portState p = 1) :
    ((s.cdrLocked p l hs).cdrNext p).isF TIL_LANE_STAT.CDR_LOCK (p + l) = true ∧
    ((s.cdrLocked p l hs).cdrNext p).portState p =
      if (∀ k ∈ s.portLanes p, k = p + l ∨ s.isF TIL_LANE_STAT.CDR_LOCK k = true) ∧ s.isF TIL_PORT_CFG.TRAIN p = true then
        (if s.trainerUp then 2 else 3) else 1 := by
  have hl8 : l < 8 := Nat.lt_of_lt_of_le hl (modeLanes_le _)
  have hcdr : (s.cdrLocked p l hs).isF TIL_LANE_STAT.CDR_LOCK (p + l) = true := by
    rw [s.cdrLocked_cdr hs hp hl8 (by omega), decide_eq_true rfl, Bool.true_or]
  have htrain : (s.cdrLocked p l hs).isF TIL_PORT_CFG.TRAIN p = s.isF TIL_PORT_CFG.TRAIN p :=
    congrArg (· != 0) (s.cdrLocked_other p l hs _ p (by decide))
  have hst : (s.cdrLocked p l hs).portState p = 1 := (s.cdrLocked_other p l hs _ p (by decide)).trans h1
  have hcond : ((s.cdrLocked p l hs).allLanes p TIL_LANE_STAT.CDR_LOCK &&
      (s.cdrLocked p l hs).isF TIL_PORT_CFG.TRAIN p) = true ↔ (∀ k ∈ s.portLanes p, k = p + l ∨
        s.isF TIL_LANE_STAT.CDR_LOCK k = true) ∧ s.isF TIL_PORT_CFG.TRAIN p = true := by
    rw [Bool.and_eq_true, htrain, s.cdrLocked_allLanes hs hp hl8]
  rw [State.cdrNext, s.cdrLocked_trainerUp]
  by_cases hc : (∀ k ∈ s.portLanes p, k = p + l ∨ s.isF TIL_LANE_STAT.CDR_LOCK k = true) ∧ s.isF TIL_PORT_CFG.TRAIN p = true
  · rw [if_pos hc, if_pos (hcond.2 hc)]
    refine ⟨?_, State.portState_enter _ _ hp (by split <;> decide)⟩
    rw [State.isF, State.linkChange_linkSame _ p _ (by decide), State.setPortState, State.getF_setF_ne _ _ _ _ _ _ (by decide)]
    exact hcdr
  · rw [if_neg hc, if_neg (fun h => hc (hcond.1 h))]
    exact ⟨hcdr, hst⟩

theorem exec_trainingStart {p : Nat} {s : State} : exec (.trainingStart p) s = .next (if s.rising p 3 && s.trainerUp then
    ((s.upPort p (fun x => { x with trained := false })).setPortState p 2).linkChange p else s) := rfl

theorem exec_trainingComplete {p : Nat} {s : State} : exec (.trainingComplete p) s =
    .next (if s.rising p 2 then s.upPort p (fun x => { x with trained := true }) else s) := rfl

/-! ### Coefficients and references (R129–R132) -/

/-- The lanes that a port holds are those of its mode that are its own, while it is not in CFG_ERR (R118). -/
theorem State.heldLanes_eq {s : State} {p : Nat} (h : s.portState p ≠ 6) : s.heldLanes p = s.ownLanes p :=
  if_neg (by simpa using h)

/-- Which port has a lane is told by ENABLE, MODE and which ports are in CFG_ERR (R118). -/
theorem State.ownLanes_congr {s t : State} (p : Nat) (he : ∀ q, t.portEnabled q = s.portEnabled q)
    (hm : ∀ q, t.portMode q = s.portMode q) : t.ownLanes p = s.ownLanes p := by
  simp only [State.ownLanes, State.portLanes, State.laneOwner, he, hm]

theorem State.heldLanes_of_regs {s t : State} (h : t.regs = s.regs) (p : Nat) : t.heldLanes p = s.heldLanes p := by
  have hf : ∀ f i, t.getF f i = s.getF f i := fun f i => by simp only [State.getF, h]
  have hown := s.ownLanes_congr (t := t) p
    (fun q => by simp only [State.portEnabled, State.portState, State.isF, hf]) (fun q => hf _ q)
  rw [State.heldLanes, State.heldLanes, State.portState, State.portState, hf, hown]

theorem State.setCoeffs_regs (s : State) (p : Nat) (l : List (Nat × Nat × Int)) : (s.setCoeffs p l).regs = s.regs :=
  (State.setCoeffs_kept (ps := [.lanes]) p l (fun _ h => h) (.refl _ s)).only .regs (by decide)

/-- A frozen lane keeps its coefficients (R131). -/
theorem State.setCoeffs_frozen (s : State) (p : Nat) (l : List (Nat × Nat × Int)) {k : Nat}
    (hk : s.isF TIL_LANE_STAT.FROZEN k = true) : ((s.setCoeffs p l).lane k).coeffs = (s.lane k).coeffs := by
  have h := List.foldlRecOn (motive := fun t : State => t.regs = s.regs ∧ (t.lane k).coeffs = (s.lane k).coeffs) l
    (fun s e => if !(s.heldLanes p).contains (p + e.1) || s.isF TIL_LANE_STAT.FROZEN (p + e.1) then s
      else s.upLane (p + e.1) (fun x => { x with coeffs := Tab.set x.coeffs e.2.1 e.2.2 })) ⟨rfl, rfl⟩ (fun t ht e _ => ?_)
  · exact h.2
  · obtain ⟨hr, hc⟩ := ht
    split
    · exact ⟨hr, hc⟩
    · next hn =>
      refine ⟨hr, ?_⟩
      rw [State.lane_upLane_other _ _ ?_]
      · exact hc
      · rintro rfl
        have hf : t.isF TIL_LANE_STAT.FROZEN (p + e.1) = s.isF TIL_LANE_STAT.FROZEN (p + e.1) := by
          simp only [State.isF, State.getF, hr]
        exact hn (by simp [hf, hk])

theorem State.takeRefs_law (s : State) (p k : Nat) :
    (k ∈ s.heldLanes p → ((s.takeRefs p).lane k).refs = ((s.takeRefs p).lane k).coeffs) ∧
    ((s.takeRefs p).lane k).coeffs = (s.lane k).coeffs :=
  ⟨fun hk => State.lane_foldl_upLane (P := fun x => x.refs = x.coeffs) (fun _ => rfl) k _ s (.inl hk),
    State.lane_foldl_upLane_keeps (g := Lane.coeffs) (f := fun x => { x with refs := x.coeffs, beyond := [] })
      (fun _ => rfl) k (s.heldLanes p) s⟩

theorem State.takeRefs_regs (s : State) (p : Nat) : (s.takeRefs p).regs = s.regs := State.regs_foldl_upLane _ _ s

/-- The coefficients given, and their being taken as references (R129, R132). -/
theorem State.recaptured (s : State) (p : Nat) (co : List (Nat × Nat × Int)) {k : Nat} (hk : k ∈ s.heldLanes p) :
    ((((s.setCoeffs p co).takeRefs p).lane k).refs = (((s.setCoeffs p co).takeRefs p).lane k).coeffs) ∧
    (s.isF TIL_LANE_STAT.FROZEN k = true → (((s.setCoeffs p co).takeRefs p).lane k).coeffs = (s.lane k).coeffs) := by
  obtain ⟨href, hco⟩ := (s.setCoeffs p co).takeRefs_law p k
  have hheld := State.heldLanes_of_regs (s.setCoeffs_regs p co) p
  exact ⟨href (hheld ▸ hk), fun hf => hco.trans (s.setCoeffs_frozen p co hf)⟩


theorem State.Kept.lane {ps : List Part} {s t : State} (h : s.Kept ps t) (hp : Part.lanes ∉ ps) (k : Nat) :
    t.lane k = s.lane k := by
  have e : t.lanes = s.lanes := h.only .lanes hp
  simp only [State.lane, e]

/-! ### HOLDOFF (R129, R149) -/

/-- A port whose lanes have locked enters HOLDOFF. -/
def State.holdoffBegun (s : State) (p : Nat) : State :=
  (((s.portLanes p).foldl (fun s l => s.setF TIL_LANE_STAT.LOCK 1 l) s).setPortState p 4).upPort p
    (fun x => { x with line := 3 })

/-- Its coefficients are its references, and what follows on the link. -/
def State.holdoffDone (s : State) (p : Nat) (co : List (Nat × Nat × Int)) : State :=
  (((((s.holdoffBegun p).setCoeffs p co).takeRefs p).linkChange p).awaitWindow p).holdoffTrigger p

/-- Whether HOLDOFF may be entered (R149 step 4): training has completed, or none is asked for. -/
def State.holdoffReady (s : State) (p : Nat) : Bool :=
  (s.rising p 1 && !s.isF TIL_PORT_CFG.TRAIN p) || (s.rising p 2 && (s.port p).trained)

theorem exec_holdoffEntry {p : Nat} {co : List (Nat × Nat × Int)} {s : State} : exec (.holdoffEntry p co) s = .next
    (if !s.holdoffReady p || !s.allLanes p TIL_LANE_STAT.SIGNAL || !s.allLanes p TIL_LANE_STAT.CDR_LOCK then s
    else s.holdoffDone p co) := rfl

theorem State.holdoffReady_eq_true {s : State} {p : Nat} : s.holdoffReady p = true ↔
    (s.rising p 1 = true ∧ s.isF TIL_PORT_CFG.TRAIN p = false) ∨ (s.rising p 2 = true ∧ (s.port p).trained = true) := by
  simp [State.holdoffReady]

theorem State.holdoffReady_eq_false {s : State} {p : Nat} : s.holdoffReady p = false ↔
    (s.rising p 1 = false ∨ s.isF TIL_PORT_CFG.TRAIN p = true) ∧ (s.rising p 2 = false ∨ (s.port p).trained = false) := by
  simp only [State.holdoffReady, Bool.or_eq_false_iff, Bool.and_eq_false_iff, Bool.not_eq_false']

theorem State.holdoffBegun_getF (s : State) (p : Nat) (f : Fld) (i : Nat)
    (hf : f.id ∉ [TIL_LANE_STAT.LOCK.id, TIL_PORT_STAT.STATE.id]) : (s.holdoffBegun p).getF f i = s.getF f i := by
  obtain ⟨h1, h2⟩ := List.ne_and_not_mem_of_not_mem_cons hf
  refine (State.getF_setF_ne _ TIL_PORT_STAT.STATE f 4 p i (List.ne_of_not_mem_cons h2)).trans ?_
  exact State.foldl_setF_same (l := [f.id]) TIL_LANE_STAT.LOCK 1 (by simpa using Ne.symm h1) _ s f (by simp) i

theorem State.holdoffBegun_portState (s : State) (p q : Nat) :
    (s.holdoffBegun p).portState q = if q % 65536 = p % 65536 then 4 else s.portState q := by
  refine (State.getF_setF _ TIL_PORT_STAT.STATE 4 p q).trans ?_
  split
  · rfl
  · exact State.foldl_setF_same (l := [TIL_PORT_STAT.STATE.id]) TIL_LANE_STAT.LOCK 1 (by decide) _ s _ (by decide) q

theorem State.holdoffBegun_lanes (s : State) (p : Nat) : (s.holdoffBegun p).lanes = s.lanes := by
  have h : s.Kept [.regs] ((s.portLanes p).foldl (fun s l => s.setF TIL_LANE_STAT.LOCK 1 l) s) :=
    List.foldlRecOn (motive := fun t => s.Kept [.regs] t) _ _ (.refl _ s)
      fun t ht l _ => State.setF_kept _ _ _ (by decide) ht
  exact h.only .lanes (by decide)

/-- The lanes that the port holds are its own ones, as they were while it came up. -/
theorem State.holdoffBegun_heldLanes {s : State} {p : Nat} (h : s.portState p ≠ 6) :
    (s.holdoffBegun p).heldLanes p = s.ownLanes p := by
  have h4 : (s.holdoffBegun p).portState p ≠ 6 := by
    rw [s.holdoffBegun_portState, if_pos rfl]
    decide
  rw [State.heldLanes_eq h4]
  refine State.ownLanes_congr p (fun q => ?_) (fun q => s.holdoffBegun_getF p _ q (by decide))
  simp only [State.portEnabled, State.isF, s.holdoffBegun_getF p TIL_PORT_CFG.ENABLE q (by decide),
    s.holdoffBegun_portState]
  split
  · next hq =>
    have hs : s.portState q = s.portState p := by
      rw [State.portState, ← State.getF_mod, hq, State.getF_mod]
      rfl
    simp [hs, h]
  · rfl

/-- What HOLDOFF's start leaves of the link and of the lanes. -/
theorem State.holdoffDone_rest (s : State) (p : Nat) (co : List (Nat × Nat × Int)) :
    (s.holdoffBegun p).Same linkFields (s.holdoffDone p co) ∧
    ∀ k, (s.holdoffDone p co).lane k = (((s.holdoffBegun p).setCoeffs p co).takeRefs p).lane k := by
  unfold State.holdoffDone
  have hr : (s.holdoffBegun p).Same linkFields (((s.holdoffBegun p).setCoeffs p co).takeRefs p) :=
    .of_regs ((State.takeRefs_regs _ p).trans (State.setCoeffs_regs _ p co))
  generalize ((s.holdoffBegun p).setCoeffs p co).takeRefs p = v at hr ⊢
  refine ⟨?_, ?_⟩
  · exact ((hr.trans (v.linkChange_linkSame p)).trans (.of_regs (State.awaitWindow_regs _ p))).trans
      (State.holdoffTrigger_linkSame _ p)
  · exact State.Kept.lane (State.holdoffTrigger_kept (ps := reports ++ [.phases, .fw, .temper, .free]) p (by decide)
      (State.awaitWindow_kept p (by decide) (State.linkChange_kept p (by decide) (.refl _ v)))) (by decide)

theorem State.holdoffDone_law {s : State} {p : Nat} (co : List (Nat × Nat × Int)) (h : s.portState p ≠ 6) :
    (s.holdoffDone p co).portState p = 4 ∧
    (∀ k ∈ s.portLanes p, (s.holdoffDone p co).isF TIL_LANE_STAT.LOCK k = true) ∧
    ∀ k ∈ s.ownLanes p, ((s.holdoffDone p co).lane k).refs = ((s.holdoffDone p co).lane k).coeffs ∧
      (s.isF TIL_LANE_STAT.FROZEN k = true → ((s.holdoffDone p co).lane k).coeffs = (s.lane k).coeffs) := by
  obtain ⟨hsame, hlane⟩ := s.holdoffDone_rest p co
  refine ⟨?_, fun k hk => ?_, fun k hk => ?_⟩
  · rw [hsame.portState (by decide), s.holdoffBegun_portState, if_pos rfl]
  · have hb : (s.holdoffBegun p).getF TIL_LANE_STAT.LOCK k = 1 :=
      (State.getF_setF_ne _ TIL_PORT_STAT.STATE _ 4 p k (by decide)).trans (s.getF_foldl_setF TIL_LANE_STAT.LOCK 1 hk)
    rw [State.isF, hsame _ (by decide), hb]
    rfl
  · obtain ⟨href, hco⟩ := (s.holdoffBegun p).recaptured p co ((State.holdoffBegun_heldLanes h).symm ▸ hk)
    have hb : (s.holdoffBegun p).lane k = s.lane k := by simp only [State.lane, s.holdoffBegun_lanes]
    have hf : (s.holdoffBegun p).isF TIL_LANE_STAT.FROZEN k = s.isF TIL_LANE_STAT.FROZEN k :=
      congrArg (· != 0) (s.holdoffBegun_getF p _ k (by decide))
    rw [hlane, ← hb, ← hf]
    exact ⟨href, hco⟩

theorem exec_holdoffExpiry {p : Nat} {s : State} : exec (.holdoffExpiry p) s = .next
    (if s.rising p 4 then (((s.setPortState p 5).pgPort p).linkChange p).slotsBack p else s) := rfl

theorem State.holdoffExpired_linkSame (s : State) (p : Nat) :
    s.Same linkFields (((s.pgPort p).linkChange p).slotsBack p) :=
  ((s.pgPort_linkSame p).trans (State.linkChange_linkSame _ p)).trans (State.slotsBack_linkSame _ p)

/-! ### Adaptation (R127, R130–R132) -/

theorem exec_recapture_held {q : Path} {p : Nat} {co : List (Nat × Nat × Int)} {s : State}
    (h : s.pfMay q = false ∨ s.portUnused p = true) : exec (.recapture q p co) s = .next s := by
  have e : exec (.recapture q p co) s = execRecapture q p co s := rfl
  rw [e, execRecapture, if_pos (by rcases h with h | h <;> simp [h])]

/-- Coefficients captured anew (R132). -/
def State.recapture (s : State) (p : Nat) (co : List (Nat × Nat × Int)) : State :=
  (((s.setCoeffs p co).takeRefs p).heldLanes p).foldl (fun s l => s.setF TIL_LANE_STAT.GUARD_HIT 0 l)
    ((s.setCoeffs p co).takeRefs p)

theorem exec_recapture_taken {q : Path} {p : Nat} {co : List (Nat × Nat × Int)} {s : State} (hq : s.pfMay q = true)
    (hu : s.portUnused p = false) : exec (.recapture q p co) s = .next (s.recapture p co) := by
  have e : exec (.recapture q p co) s = execRecapture q p co s := rfl
  rw [e, execRecapture, if_neg (by simp [hq, hu])]
  rfl

theorem State.recapture_law (s : State) (p : Nat) (co : List (Nat × Nat × Int)) : ∀ k ∈ s.heldLanes p,
    ((s.recapture p co).lane k).refs = ((s.recapture p co).lane k).coeffs ∧
    (s.recapture p co).isF TIL_LANE_STAT.GUARD_HIT k = false ∧
    (s.isF TIL_LANE_STAT.FROZEN k = true → ((s.recapture p co).lane k).coeffs = (s.lane k).coeffs) := by
  intro k hk
  have hheld : ((s.setCoeffs p co).takeRefs p).heldLanes p = s.heldLanes p :=
    State.heldLanes_of_regs ((State.takeRefs_regs _ p).trans (s.setCoeffs_regs p co)) p
  have hlane : (s.recapture p co).lane k = ((s.setCoeffs p co).takeRefs p).lane k :=
    List.foldlRecOn (motive := fun t => State.lane t k = ((s.setCoeffs p co).takeRefs p).lane k) _ _ rfl fun _ ht _ _ => ht
  obtain ⟨href, hco⟩ := s.recaptured p co hk
  rw [hlane]
  refine ⟨href, ?_, hco⟩
  rw [State.isF, State.recapture, State.getF_foldl_setF _ _ _ (hheld.symm ▸ hk)]
  rfl

/-- What adaptation makes of a coefficient of lane `l` of port `p` that it would move to `want` (R130). -/
def State.coeffMoved (s : State) (p l c : Nat) (want v : Int) : State :=
  let first := v != want && !(s.lane l).beyond.contains c
  let s := s.upLane l (fun x => { x with
    coeffs := Tab.set x.coeffs c v,
    beyond := if v == want then x.beyond.filter (· != c) else if first then c :: x.beyond else x.beyond })
  if v == want then s
  else
    let s := (s.setF TIL_LANE_STAT.GUARD_HIT 1 l).setF TIL_PORT_HIST.ADAPT_GUARD 1 p
    if first then (s.countS (group 1 l) 1).portNotice p else s

theorem exec_adaptGuardHit_held {p l c : Nat} {want : Int} {s : State}
    (h : s.portState p ≠ 5 ∨ modeLanes (s.portMode p) ≤ l ∨ s.isF TIL_LANE_STAT.FROZEN (p + l) = true) :
    exec (.adaptGuardHit p l c want) s = .next s := by
  have e : exec (.adaptGuardHit p l c want) s = execAdaptGuardHit p l c want s := rfl
  rw [e, execAdaptGuardHit]
  exact congrArg _ (if_pos (by rcases h with h | h | h <;> simp [h]))

theorem exec_adaptGuardHit_moved {p l c : Nat} {want : Int} {s : State} (h5 : s.portState p = 5)
    (hl : l < modeLanes (s.portMode p)) (hf : s.isF TIL_LANE_STAT.FROZEN (p + l) = false) :
    exec (.adaptGuardHit p l c want) s = .next (s.coeffMoved p (p + l) c want
      (clampI (Tab.getD (s.lane (p + l)).refs c 0 - s.getF TIL_PORT_ADAPT.GUARD p)
        (Tab.getD (s.lane (p + l)).refs c 0 + s.getF TIL_PORT_ADAPT.GUARD p) want)) := by
  have e : exec (.adaptGuardHit p l c want) s = execAdaptGuardHit p l c want s := rfl
  rw [e, execAdaptGuardHit]
  exact congrArg _ ((if_neg (by simp [h5, hl, hf])).trans rfl)

/-- The coefficient is as the window allows, and an excursion shows (R130). -/
theorem State.coeffMoved_law (s : State) (p l c : Nat) (want v : Int) :
    Tab.get? ((s.coeffMoved p l c want v).lane l).coeffs c = some v ∧
    (v ≠ want → (s.coeffMoved p l c want v).isF TIL_LANE_STAT.GUARD_HIT l = true ∧
      (s.coeffMoved p l c want v).isF TIL_PORT_HIST.ADAPT_GUARD p = true) := by
  unfold State.coeffMoved
  extract_lets first s1 s2
  have hset : Tab.get? (s1.lane l).coeffs c = some v := by
    rw [State.lane_upLane_same]
    exact (Tab.get?_set _ _ _ _).trans (if_pos rfl)
  have hhit : s2.getF TIL_LANE_STAT.GUARD_HIT l = 1 :=
    (State.getF_setF_ne _ _ _ _ _ _ (by decide)).trans (State.getF_setF_same _ _ _ _)
  have hguard : s2.getF TIL_PORT_HIST.ADAPT_GUARD p = 1 := State.getF_setF_same _ _ _ _
  by_cases hv : v = want
  · rw [if_pos (by simpa using hv)]
    exact ⟨hset, fun h => absurd hv h⟩
  rw [if_neg (by simpa using hv)]
  have h2 : Tab.get? (s2.lane l).coeffs c = some v := hset
  clear_value s2
  split
  · have hr : s2.Raised ((s2.countS (group 1 l) 1).portNotice p) := State.portNotice_raised p (s2.countS_quiet _ _ _).raised
    have hlane : ((s2.countS (group 1 l) 1).portNotice p).lane l = s2.lane l :=
      State.Kept.lane (State.portNotice_kept p (fun _ h => h) (State.countS_kept _ _ _ (by decide) (.refl _ s2))) (by decide) l
    refine ⟨hlane.symm ▸ h2, fun _ => ⟨?_, ?_⟩⟩
    · rw [State.isF, hr.regs _ (by decide), hhit]
      rfl
    · rw [State.isF, hr.regs _ (by decide), hguard]
      rfl
  · exact ⟨h2, fun _ => ⟨by rw [State.isF, hhit]; rfl, by rw [State.isF, hguard]; rfl⟩⟩

/-- A lane that has seen data that are not random is frozen (R131). -/
def State.adaptFrozen (s : State) (p l : Nat) : State :=
  (s.upLane (p + l) (fun x => { x with nonRandom := true })).setF TIL_LANE_STAT.FROZEN 1 (p + l)

theorem exec_adaptFreeze {p l : Nat} {s : State} (hl : l < modeLanes (s.portMode p)) (he : s.portEnabled p = true) :
    exec (.adaptFreeze p l) s = .next (s.adaptFrozen p l) := by
  have e : exec (.adaptFreeze p l) s = execAdaptFreeze p l s := rfl
  rw [e, execAdaptFreeze, if_neg (by simp [hl, he])]
  rfl

theorem State.adaptFrozen_law (s : State) (p l : Nat) : (s.adaptFrozen p l).isF TIL_LANE_STAT.FROZEN (p + l) = true ∧
    ((s.adaptFrozen p l).lane (p + l)).nonRandom = true :=
  ⟨congrArg (· != 0) (State.getF_setF_same _ TIL_LANE_STAT.FROZEN 1 (p + l)),
    congrArg Lane.nonRandom (s.lane_upLane_same (p + l) (fun x => { x with nonRandom := true }))⟩

/-- A lane whose data are random again adapts where nothing else holds it (R131). -/
def State.adaptResumed (s : State) (p l : Nat) : State :=
  let s := s.upLane (p + l) (fun x => { x with nonRandom := false })
  if s.mustFreeze p (p + l) then s else s.setF TIL_LANE_STAT.FROZEN 0 (p + l)

theorem exec_adaptResume {p l : Nat} {s : State} (hl : l < modeLanes (s.portMode p)) (he : s.portEnabled p = true) :
    exec (.adaptResume p l) s = .next (s.adaptResumed p l) := by
  have e : exec (.adaptResume p l) s = execAdaptResume p l s := rfl
  rw [e, execAdaptResume, if_neg (by simp [hl, he])]
  rfl

theorem State.adaptResumed_law (s : State) (p l : Nat) : ((s.adaptResumed p l).lane (p + l)).nonRandom = false ∧
    ((s.adaptResumed p l).isF TIL_LANE_STAT.FROZEN (p + l) = true →
      s.isF TIL_LANE_STAT.FROZEN (p + l) = true ∧ (s.adaptResumed p l).mustFreeze p (p + l) = true) := by
  have hrand : ((s.upLane (p + l) (fun x => { x with nonRandom := false })).lane (p + l)).nonRandom = false :=
    congrArg Lane.nonRandom (s.lane_upLane_same (p + l) (fun x => { x with nonRandom := false }))
  unfold State.adaptResumed
  dsimp only
  split
  · next hm => exact ⟨hrand, fun hf => ⟨hf, hm⟩⟩
  · refine ⟨hrand, fun hf => ?_⟩
    rw [State.isF, State.getF_setF_same] at hf
    exact absurd hf (by decide)

theorem State.countSymbols_same : ∀ (l : List Nat) (s : State) (n : Nat), s.Same [TIL_PORT_HIST.FEC_DEGRADE.id,
    TIL_PORT_FEC.DEG_THRESH.id] (s.countSymbols n l)
  | [], s, _ => .refl _ s
  | [a], s, n => (s.countE_quiet (group 1 a) 0 n).same_fields (by decide)
  | a :: b :: l, s, n => by
    have h1 : s.Same [TIL_PORT_HIST.FEC_DEGRADE.id, TIL_PORT_FEC.DEG_THRESH.id] s.draw.2 := .of_regs rfl
    have h2 := h1.trans ((s.draw.2.countE_quiet (group 1 a) 0 (min s.draw.1 n)).same_fields (by decide))
    exact h2.trans (State.countSymbols_same (b :: l) _ _)

/-- What a window's codewords and symbols count (R124, R127). -/
def State.fecCounted (s : State) (p : Nat) (x : FecCounts) : State :=
  let s := if x.corrected = 0 then s else s.countS (group 0 p) 27 x.corrected
  let s := if x.uncorrectable = 0 then s else s.countE (group 0 p) 28 x.uncorrectable
  s.countSymbols x.symbols (s.portLanes p)

theorem State.fecCounted_same (s : State) (p : Nat) (x : FecCounts) :
    s.Same [TIL_PORT_HIST.FEC_DEGRADE.id, TIL_PORT_FEC.DEG_THRESH.id] (s.fecCounted p x) := by
  unfold State.fecCounted
  extract_lets s1 s2
  have h1 : s.Quiet s1 := by
    unfold s1
    split
    · exact .refl s
    · exact s.countS_quiet _ _ _
  have h2 : s.Quiet s2 := by
    unfold s2
    split
    · exact h1
    · exact h1.trans (s1.countE_quiet _ _ _)
  exact (h2.same_fields (by decide)).trans (State.countSymbols_same _ s2 _)

theorem exec_fecDegradeWindow_idle {p : Nat} {x : FecCounts} {s : State}
    (h : s.canSend p = false ∨ s.getF TIL_PORT_CFG.FEC p = 0) : exec (.fecDegradeWindow p x) s = .next s := by
  have e : exec (.fecDegradeWindow p x) s = execFecDegradeWindow p x s := rfl
  rw [e, execFecDegradeWindow, if_pos (by rcases h with h | h <;> simp [h])]

theorem exec_fecDegradeWindow_counted {p : Nat} {x : FecCounts} {s : State} (hc : s.canSend p = true)
    (hf : s.getF TIL_PORT_CFG.FEC p ≠ 0) : exec (.fecDegradeWindow p x) s = .next
      (if s.getF TIL_PORT_FEC.DEG_THRESH p < x.symbols then
        ((s.fecCounted p x).setF TIL_PORT_HIST.FEC_DEGRADE 1 p).portNotice p
      else s.fecCounted p x) := by
  have e : exec (.fecDegradeWindow p x) s = execFecDegradeWindow p x s := rfl
  have e' : execFecDegradeWindow p x s = .next (if !s.canSend p || s.getF TIL_PORT_CFG.FEC p == 0 then s
      else if decide ((s.fecCounted p x).getF TIL_PORT_FEC.DEG_THRESH p < x.symbols) then
        ((s.fecCounted p x).setF TIL_PORT_HIST.FEC_DEGRADE 1 p).portNotice p
      else s.fecCounted p x) := rfl
  rw [e, e', if_neg (by simp [hc, hf]), s.fecCounted_same p x _ (by decide)]
  simp only [decide_eq_true_eq]

/-! ### Low-power idle (R131, R133–R136) -/

/-- In receive idle every lane of the port is frozen (R131). -/
theorem State.freezeLanes_frozen {s : State} {p : Nat} (h : s.isF TIL_PORT_STAT.RX_LPI p = true) :
    (s.freezeLanes p).isF TIL_PORT_STAT.RX_LPI p = true ∧
    ∀ l ∈ s.ownLanes p, (s.freezeLanes p).isF TIL_LANE_STAT.FROZEN l = true := by
  have hall : ∀ (l : List Nat) (t : State), t.isF TIL_PORT_STAT.RX_LPI p = true →
      l.foldl (fun s l => if s.mustFreeze p l then s.setF TIL_LANE_STAT.FROZEN 1 l else s) t =
        l.foldl (fun s l => s.setF TIL_LANE_STAT.FROZEN 1 l) t := by
    intro l
    induction l with
    | nil => exact fun _ _ => rfl
    | cons a l ih =>
      intro t ht
      rw [List.foldl_cons, List.foldl_cons, if_pos (by simp [State.mustFreeze, ht])]
      exact ih _ ((State.isF_setF_ne _ _ _ _ _ _ (by decide)).trans ht)
  rw [State.freezeLanes, hall _ s h]
  refine ⟨?_, fun l hl => ?_⟩
  · rw [State.isF, State.foldl_setF_same (l := [TIL_PORT_STAT.RX_LPI.id]) _ 1 (by decide) _ s _ (by decide)]
    exact h
  · rw [State.isF, s.getF_foldl_setF _ 1 hl]
    rfl

theorem exec_txLpiEnter {p : Nat} {s : State} : exec (.txLpiEnter p) s = .next
    (if s.canSend p && s.lpiOk p && s.isF TIL_PORT_CFG.TX_LPI_EN p && s.portFrames p == 0 && (s.port p).fcOut.isEmpty then
      s.setF TIL_PORT_STAT.TX_LPI 1 p else s) := rfl

theorem exec_txLpiWake {p : Nat} {s : State} : exec (.txLpiWake p) s = .next
    (if (s.launchHead p 0).isSome || (s.launchHead p 1).isSome then s.setF TIL_PORT_STAT.TX_LPI 0 p else s) := rfl

theorem exec_rxLpiEnter {p : Nat} {s : State} : exec (.rxLpiEnter p) s = .next
    (if s.canSend p && s.lpiOk p && s.isF TIL_PORT_CFG.RX_LPI_EN p then
      (s.setF TIL_PORT_STAT.RX_LPI 1 p).freezeLanes p else s) := rfl

theorem State.rxIdle_law (s : State) (p : Nat) :
    ((s.setF TIL_PORT_STAT.RX_LPI 1 p).freezeLanes p).isF TIL_PORT_STAT.RX_LPI p = true ∧
    ∀ l ∈ s.ownLanes p, ((s.setF TIL_PORT_STAT.RX_LPI 1 p).freezeLanes p).isF TIL_LANE_STAT.FROZEN l = true := by
  have h1 : (s.setF TIL_PORT_STAT.RX_LPI 1 p).isF TIL_PORT_STAT.RX_LPI p = true := by
    rw [State.isF, State.getF_setF_same]
    decide
  have hk : ∀ f i, f.id ≠ TIL_PORT_STAT.RX_LPI.id → (s.setF TIL_PORT_STAT.RX_LPI 1 p).getF f i = s.getF f i :=
    fun f i h => State.getF_setF_ne _ _ _ _ _ _ h
  have hown : (s.setF TIL_PORT_STAT.RX_LPI 1 p).ownLanes p = s.ownLanes p :=
    State.ownLanes_congr p (fun q => by simp only [State.portEnabled, State.portState, State.isF,
      hk TIL_PORT_CFG.ENABLE q (by decide), hk TIL_PORT_STAT.STATE q (by decide)]) (fun q => hk _ q (by decide))
  exact hown ▸ State.freezeLanes_frozen h1

end Sys2Proof.Machine

namespace Sys2Proof.Proofs

open Sys2Proof.Machine

/-- Settles O55: enabling, the way up and down of a port, its coefficients and its idle. -/
theorem portsComeUpGoDownAdaptAndSleep : Obligations.PortsComeUpGoDownAdaptAndSleep := by
  unfold Obligations.PortsComeUpGoDownAdaptAndSleep
  refine ⟨fun q p s hp => ⟨exec_portEnable_held, fun hq he => ?enable, exec_portDisable_held, fun hq he => ?disable⟩,
    fun p cause a b c rx tx met s hp h1 h7 hmet => ⟨exec_linkLoss_unlinked, fun h0 h6 hm => ?unmet, fun hst hm => ?shown,
      fun h2 h5 hm => ?lost⟩,
    fun p l hs co s hp => ⟨fun hr => ?_, fun hr => ?_, fun h => exec_cdrLock_idle (.inr h), fun hr hl hsig => ?cdr,
      fun hr hf => ?_, fun h => ?_, fun hr => ?_, fun hr => ?_, fun hready hsig hcdr => ?holdoff, fun h => ?_,
      fun hr => ?up, fun hr => ?_⟩,
    fun q p l c n x y want v co s hp hv => ⟨exec_adaptGuardHit_held, fun h5 hl hf => ?guard, fun h => ?_, fun hl he => ?freeze,
      exec_recapture_held, fun hq hu => ⟨_, exec_recapture_taken hq hu, s.recapture_law p co⟩,
      exec_fecDegradeWindow_idle, fun hc hf => ?degrade⟩,
    fun p s hp => ⟨⟨_, rfl, ?_⟩, fun hc hok => ⟨fun hen h0 hfc => ?_, fun hen => ?_⟩, fun h => ?_, fun h => ?_, fun h => ?_,
      fun h => ?_, fun h0 h1 => ?_⟩⟩
  case enable =>
    rw [exec_portEnable_taken hq he]
    by_cases hok : s.portCfgOk p = true
    · obtain ⟨hen, hst, hgate, hoth⟩ := s.enabled_law hp
      rw [if_pos hok]
      exact ⟨_, rfl, hen, hst.trans (if_pos hok).symm, fun _ => hgate, hoth⟩
    · obtain ⟨hen, hst, hoth⟩ := s.misconfigured_law hp
      rw [if_neg hok]
      exact ⟨_, rfl, hen, hst.trans (if_neg hok).symm, fun h => absurd h hok, hoth⟩
  case disable =>
    have hoff : (s.setF TIL_PORT_CFG.ENABLE 0 p).getF TIL_PORT_CFG.ENABLE p = 0 := State.getF_setF_same _ _ _ _
    have hst : ∀ k, (s.setF TIL_PORT_CFG.ENABLE 0 p).portState k = s.portState k :=
      fun k => State.getF_setF_ne _ _ _ _ _ _ (by decide)
    rw [exec_portDisable_taken hq he]
    by_cases h0 : s.portState p = 0
    · have hstay : (s.setF TIL_PORT_CFG.ENABLE 0 p).canGoDown p 8 = false := by simp [State.canGoDown, hst, h0]
      rw [State.portDown, if_neg (by simp [hstay])]
      exact ⟨_, rfl, by rw [State.isF, hoff]; rfl, (hst p).trans h0, fun h => absurd h0 h, fun k _ _ => hst k⟩
    · have hgo : (s.setF TIL_PORT_CFG.ENABLE 0 p).canGoDown p 8 = true := by simp [State.canGoDown, hst, h0]
      have hd := State.portDown_downed _ (if s.portState p == 6 then 0 else s.failedLanes p) hp (by decide) hgo
      refine ⟨_, rfl, ?_, hd.state, fun _ => hd.cause, fun k hk hkp => (hd.others k hk hkp).trans (hst k)⟩
      rw [State.isF, hd.lanes _ (by decide), hoff]
      rfl
  case unmet =>
    subst hmet
    rw [exec_linkLoss_linked h0 h6, if_pos hm]
    exact ⟨rfl, s.headersLost_lockOnly p c.headers⟩
  case shown =>
    subst hmet
    obtain ⟨hsig, hcdr, hf⟩ := s.lossShown_shows p cause a b c
    rw [exec_linkLoss_linked (by omega) (by omega), if_neg (by simp [hm]), if_pos hst]
    exact ⟨_, rfl, (hf.portState (by decide) p).trans hst, s.lossShown_queues p cause a b c, hsig, hcdr⟩
  case lost =>
    subst hmet
    rw [exec_linkLoss_linked (by omega) (by omega), if_neg (by simp [hm]), if_neg (by omega)]
    obtain ⟨u, hu, hst, hdown, hsig, hcdr⟩ := s.lost_law a b c rx tx hp (show cause < 8 by omega) h2 h5
    rw [hu]
    have hd := hdown ((a ||| b ||| (c.mask ||| (s.headersLost p c.headers).1)) % 2 ^ modeLanes (u.portMode p) |||
      s.failedBefore p cause c)
    exact ⟨_, rfl, hd.state.trans (if_neg (by omega)), hd.cause, hd.seen, fun h4 => hd.flap ((hst p).trans h4),
      fun l hl => (congrArg (· != 0) (hd.lanes _ (by decide) l)).trans (hsig l hl),
      fun l hl => (congrArg (· != 0) (hd.lanes _ (by decide) l)).trans (hcdr l hl),
      fun k hk hkp => (hd.others k hk hkp).trans (hst k)⟩
  · rw [exec_signalDetect, if_neg (by simp [hr])]
    exact ⟨rfl, exec_cdrLock_idle (.inl hr)⟩
  · rw [exec_signalDetect, if_pos hr]
    refine ⟨_, rfl, fun k hk => ?_⟩
    rw [State.isF, s.getF_foldl_setF _ 1 hk]
    rfl
  case cdr =>
    obtain ⟨hlock, hst⟩ := State.cdrNext_law hs hp hl (State.portState_of_rising hr)
    exact ⟨_, exec_cdrLock_taken hr hl hsig, hlock, hst⟩
  · rw [exec_trainingStart, if_pos (by simp [hr, hf])]
    refine ⟨_, rfl, State.portState_enter _ 2 hp (by decide), ?_⟩
    rw [State.linkChange, (State.event_quiet _ _ _ _ _ _ _).port]
    exact congrArg Port.trained (s.port_upPort_same p (fun x => { x with trained := false }))
  · rw [exec_trainingStart, if_neg (by rcases h with h | h <;> simp [h])]
  · rw [exec_trainingComplete, if_pos hr]
  · rw [exec_trainingComplete, if_neg (by simp [hr])]
  case holdoff =>
    have h6 : s.portState p ≠ 6 := by
      rcases hready with ⟨hr, _⟩ | ⟨hr, _⟩ <;> rw [State.portState_of_rising hr] <;> decide
    rw [exec_holdoffEntry, if_neg (by simp [State.holdoffReady_eq_true.2 hready, hsig, hcdr])]
    exact ⟨_, rfl, State.holdoffDone_law co h6⟩
  · rw [← State.holdoffReady_eq_false] at h
    rw [exec_holdoffEntry, if_pos (by rcases h with h | h | h <;> simp [h])]
  case up =>
    have hsame := (s.setPortState p 5).holdoffExpired_linkSame p
    rw [exec_holdoffExpiry, if_pos hr]
    refine ⟨_, rfl, ?_, fun k hk hkp => ?_⟩
    · rw [hsame.portState (by decide), s.portState_setPortState 5 hp hp, if_pos rfl]
    · rw [hsame.portState (by decide), s.portState_setPortState 5 hp hk, if_neg hkp]
  · rw [exec_holdoffExpiry, if_neg (by simp [hr])]
  case guard =>
    subst hv
    exact ⟨_, exec_adaptGuardHit_moved h5 hl hf, s.coeffMoved_law p (p + l) c want _⟩
  · have hheld : (decide (modeLanes (s.portMode p) ≤ l) || !s.portEnabled p) = true := by rcases h with h | h <;> simp [h]
    exact ⟨congrArg Host.Outcome.next (if_pos hheld), congrArg Host.Outcome.next (if_pos hheld)⟩
  case freeze =>
    rw [exec_adaptFreeze hl he, exec_adaptResume hl he]
    exact ⟨⟨_, rfl, s.adaptFrozen_law p l⟩, _, rfl, s.adaptResumed_law p l⟩
  case degrade =>
    have hs := s.fecCounted_same p ⟨n, x, y⟩ TIL_PORT_HIST.FEC_DEGRADE (by decide) p
    rw [exec_fecDegradeWindow_counted hc hf]
    by_cases hn : s.getF TIL_PORT_FEC.DEG_THRESH p < n
    · have hr := State.portNotice_raised p (.refl ((s.fecCounted p ⟨n, x, y⟩).setF TIL_PORT_HIST.FEC_DEGRADE 1 p))
      rw [if_pos hn]
      refine ⟨_, rfl, fun _ => ?_, fun h => absurd hn (Nat.not_lt.2 h)⟩
      rw [State.isF, hr.regs _ (by decide), State.getF_setF_same]
      decide
    · rw [if_neg hn]
      exact ⟨_, rfl, fun h => absurd h hn, fun _ => congrArg (· != 0) hs⟩
  · exact congrArg (· != 0) (s.getF_setF_same TIL_PORT_STAT.RX_LPI 0 p)
  · rw [exec_txLpiEnter, if_pos (by simp [hc, hok, hen, h0, hfc])]
    exact ⟨_, rfl, congrArg (· != 0) (s.getF_setF_same TIL_PORT_STAT.TX_LPI 1 p)⟩
  · rw [exec_rxLpiEnter, if_pos (by simp [hc, hok, hen])]
    exact ⟨_, rfl, s.rxIdle_law p⟩
  · have hno : (s.canSend p && s.lpiOk p) = false := by rcases h with h | h <;> simp [h]
    rw [exec_txLpiEnter, exec_rxLpiEnter, hno]
    exact ⟨rfl, rfl⟩
  · rw [exec_txLpiEnter, if_neg (by rcases h with h | h | h <;> simp [h])]
  · rw [exec_rxLpiEnter, if_neg (by simp [h])]
  · rw [exec_txLpiWake, if_pos (by simpa using h)]
    exact ⟨_, rfl, congrArg (· != 0) (s.getF_setF_same TIL_PORT_STAT.TX_LPI 0 p)⟩
  · rw [exec_txLpiWake, if_neg (by simp [h0, h1])]

end Sys2Proof.Proofs
end

section
/-!
PROOF. What leaves a register alone while frames go and ports go down: a tile's contents discarded, its ports DOWN, its
streams started anew (R147, R222, R424).
-/

namespace Sys2Proof.Machine

/-- The fields in which frames that go and ports that go down show. -/
def downFields : List Nat := reportFields ++
  [TIL_BUF_STAT.XOFF.id, TIL_PORT_STAT.TX_LPI.id, TIL_PORT_STAT.RX_LPI.id, TIL_PORT_STAT.STATE.id, TIL_PORT_STAT.CAUSE.id,
   TIL_PORT_STAT.FAILED_LANES.id, TIL_PORT_HIST.DOWN_SEEN.id, TIL_PORT_HIST.FLAP_IN_HOLDOFF.id, TIL_LANE_STAT.FROZEN.id,
   GLB_PG_STAT.ON_BACKUP.id, TPL_PH_STAT.VALID.id, TPL_PH_STAT.SERVICE.id, TPL_REF_STAT.STATE.id, TPL_REF_HIST.ACT_LOSS.id,
   TPL_REF_HIST.QUALIFIED_SEEN.id, TPL_REF_HIST.SOFT_SEEN.id]

section
variable {l : List Nat} (hl : ∀ x ∈ downFields, x ∉ l)
include hl

/-! ### Frames that go (R210, R249) -/

theorem State.Quiet.same_down {s t : State} (h : s.Quiet t) : s.Same l t :=
  h.same_fields fun x hx hr => hl x (List.mem_append_left _ hr) hx

theorem State.setF_same_down (s : State) (f : Fld) (v i : Nat) (hf : f.id ∈ downFields) : s.Same l (s.setF f v i) :=
  s.setF_same f v i (hl _ hf)

omit hl in
/-- A fold leaves alone what each of its steps does. -/
theorem State.foldl_same {α : Type} (f : State → α → State) (xs : List α) (hf : ∀ t a, State.Same l t (f t a))
    (s : State) : s.Same l (xs.foldl f s) := State.Same.foldl f xs (.refl _ s) fun t a h => h.trans (hf t a)

theorem State.queueFc_same (s : State) (p : Nat) (o : Option FcFrame) : s.Same l (s.queueFc p o) := by
  cases o with
  | none => exact .refl _ s
  | some f => exact (s.setF_same_down hl TIL_PORT_STAT.TX_LPI 0 p (by decide)).trans (.of_regs rfl)

theorem State.xonTry_same (s : State) (p c : Nat) : s.Same l (s.xonTry p c) := by
  unfold State.xonTry
  extract_lets gap s1
  have h1 : s.Same l s1 := s.setF_same_down hl _ _ p (by decide)
  split
  · split
    · exact h1
    · exact h1.trans (s1.queueFc_same hl p _)
  · exact .refl _ s

theorem State.release_same (s : State) (r p c n : Nat) : s.Same l (s.release r p c n) := by
  unfold State.release
  split
  · exact State.Same.trans (.of_regs rfl)
      (State.foldl_same _ _ (fun t p => State.foldl_same _ _ (fun t c => t.xonTry_same hl p c) t) _)
  · exact .refl _ s

theorem State.finish_same (s : State) (f : Frame) : s.Same l (s.finish f) := by
  have h := s.release_same hl f.region f.inPort f.res.cls f.cells
  unfold State.finish
  dsimp only
  split
  · exact h.trans (.of_regs rfl)
  · exact h

theorem State.mcDone_same (s : State) (uid t : Nat) : s.Same l (s.mcDone uid t) := by
  unfold State.mcDone
  split
  · exact .refl _ s
  · next k _ =>
    extract_lets left _ s1 s2
    have h2 : s.Same l s2 := by
      unfold s2
      split
      · exact .of_regs rfl
      · exact State.Same.trans (.of_regs rfl) (s1.release_same hl _ _ _ _)
    split
    · split
      · exact h2.trans (.of_regs rfl)
      · exact h2
    · exact .of_regs rfl

theorem State.txComplete_same (s : State) (d : Direct) (codes : List Nat) (late miss : Bool) (drop : Nat) :
    s.Same l (s.txComplete d codes late miss drop) := by
  unfold State.txComplete
  split
  · exact .refl _ s
  · split
    · refine State.foldl_same _ _ (fun t c f hf i => ?_) s
      exact (t.complete_law _ _ _ _ _).1.still.regs f (fun hr => hl _ (List.mem_append_left _ hr) hf) i
    · exact .refl _ s

theorem State.dropIngress_same (s : State) (f : Frame) (code : Nat) : s.Same l (s.dropIngress f code) := by
  unfold State.dropIngress
  extract_lets s1
  have h1 : s.Same l s1 := ((s.countS_quiet _ _ _).same_down hl).trans (State.finish_same hl _ f)
  split
  · exact h1.trans (s1.txComplete_same hl _ _ _ _ _)
  · exact h1

theorem State.dropEgress_same (s : State) (p slot : Nat) (f : Frame) (code : Nat) :
    s.Same l (s.dropEgress p slot f code) := by
  unfold State.dropEgress
  extract_lets s1
  have h1 : s.Same l s1 := ((s.countS_quiet _ _ _).same_down hl).trans (State.finish_same hl _ f)
  split
  · exact h1.trans (s1.txComplete_same hl _ _ _ _ _)
  · exact h1

theorem State.dropMulticast_same (s : State) (f : Frame) (code : Nat) : s.Same l (s.dropMulticast f code) := by
  unfold State.dropMulticast
  split
  · exact State.Same.trans ((s.countS_quiet _ _ _).same_down hl)
      (State.foldl_same _ _ (fun t j => t.mcDone_same hl f.uid j) _)
  · exact .refl _ s

theorem State.loseCell_same (s : State) (t code : Nat) (c : Cell) : s.Same l (s.loseCell t code c) := by
  refine State.foldl_same _ _ (fun s f => ?_) s
  unfold State.loseFrag
  split
  · exact .refl _ s
  split
  · exact .of_regs rfl
  split
  · split
    · split
      · exact State.Same.trans ((s.countS_quiet _ _ _).same_down hl) (State.mcDone_same hl _ _ _)
      · exact .refl _ s
    · exact .refl _ s
  · exact s.dropIngress_same hl _ _

theorem State.flushPort_same (s : State) (p : Nat) : s.Same l (s.flushPort p) := by
  refine State.foldl_same _ _ (fun s slot => ?_) s
  refine State.Same.trans (.of_regs rfl) (State.foldl_same _ _ (fun t f => ?_) _)
  exact (t.dropEgress_same hl p slot f 0x33).trans ((State.countS_quiet _ _ _ _).same_down hl)

/-! ### A port that leaves the line (R147, R245, R339, R363) -/

theorem State.pgPort_same (s : State) (p : Nat) : s.Same l (s.pgPort p) := by
  have hmove : ∀ g b, s.Same l (s.pgMove g b) := by
    intro g b
    unfold State.pgMove
    split
    · exact .refl _ s
    · extract_lets d s1
      have h1 : s.Same l s1 := .of_regs rfl
      split <;> exact h1.setF _ _ _ (hl _ (by decide))
  unfold State.pgPort
  split
  · unfold State.pgEval
    split
    · exact .refl _ s
    · dsimp only
      split
      · exact .refl _ s
      split
      · exact hmove _ _
      split
      · exact hmove _ _
      · exact .refl _ s
  · exact .refl _ s

theorem State.cutShort_same (s : State) (p : Nat) : s.Same l (s.cutShort p) := by
  unfold State.cutShort
  extract_lets d s1 e
  have h1 : s.Same l s1 := by
    have hd : s.Same l d.2 := .of_regs rfl
    unfold s1
    split
    · exact hd.trans ((State.countE_quiet _ _ _ _).same_down hl)
    · exact hd
  have he : s.Same l e.2 := h1.trans (.of_regs rfl)
  split
  · exact he
  · split
    · exact he
    · refine State.Same.trans ?_ ((State.countS_quiet _ _ _ _).same_down hl)
      refine State.Same.trans ?_ (State.dropEgress_same hl _ p _ _ _)
      exact he.trans (.of_regs rfl)

theorem State.slotsLost_same (s : State) (p : Nat) : s.Same l (s.slotsLost p) := by
  refine State.foldl_same _ _ (fun t i => ?_) s
  have h := t.setF_same_down hl TPL_REF_HIST.ACT_LOSS 1 i (by decide)
  unfold State.failRef
  split
  · exact h
  · exact h.trans (State.setRef_same (fun x hx => hl x (by revert x; decide)) _ i 1)

theorem State.suspendPhase_same (s : State) (p : Nat) : s.Same l (s.suspendPhase p) := by
  unfold State.suspendPhase
  extract_lets s1 s2
  have h2 : s.Same l s2 := State.Same.setF (.of_regs rfl) _ _ _ (hl _ (by decide))
  split
  · exact h2.setF _ _ _ (hl _ (by decide))
  · exact h2

theorem State.freezeLanes_same (s : State) (p : Nat) : s.Same l (s.freezeLanes p) := by
  refine State.foldl_same _ _ (fun t l => ?_) s
  split
  · exact t.setF_same_down hl _ _ _ (by decide)
  · exact .refl _ t

theorem State.enterDown_same (s : State) (p cause : Nat) : s.Same l (s.enterDown p cause) := by
  unfold State.enterDown
  extract_lets st s1 s2 s3 s4
  have h3 : s.Same l s3 := ((s.setF_same_down hl _ _ _ (by decide)).setF _ _ _ (hl _ (by decide))).setF _ _ _
    (hl _ (by decide))
  have h4 : s.Same l s4 := by
    unfold s4
    split
    · exact h3.setF _ _ _ (hl _ (by decide))
    · exact h3
  exact h4.trans ((s4.countS_quiet _ _ _).same_down hl)

theorem State.leaveLine_same (s : State) (p st cause failed : Nat) : s.Same l (s.leaveLine p st cause failed) := by
  unfold State.leaveLine
  extract_lets s1 s2 s3 s4 s5 s6 s7 s8 s9 s10
  have h2 : s.Same l s2 := by
    have h1 : s.Same l s1 := s.pgPort_same hl p
    unfold s2
    split
    · exact h1.trans (s1.cutShort_same hl p)
    · exact h1
  have h4 : s2.Same l s4 := by
    have h3 : s2.Same l s3 := by
      unfold s3
      split <;> exact .of_regs rfl
    exact (h3.setF _ _ _ (hl _ (by decide))).setF _ _ _ (hl _ (by decide))
  have h6 : s2.Same l s6 := (h4.trans (t := s5) (.of_regs rfl)).trans (s5.flushPort_same hl p)
  have h7 : s2.Same l s7 := by
    unfold s7
    split
    · exact h6.trans (s6.slotsLost_same hl p)
    · exact h6
  have h9 : s2.Same l s9 := (h7.trans (s7.suspendPhase_same hl p)).trans (State.freezeLanes_same hl _ p)
  exact ((h2.trans h9).setF _ _ _ (hl _ (by decide))).trans ((State.event_quiet _ _ _ _ _ _ _).same_down hl)

theorem State.tileDown_same (s : State) (t : Nat) : s.Same l (s.tileDown t) :=
  (State.foldl_same _ _ (fun s p => s.enterDown_same hl p 9) s).trans
    (State.foldl_same _ _ (fun s (e : Nat × Nat × Nat) => s.leaveLine_same hl e.1 e.2.1 9 e.2.2) _)

/-! ### A tile's contents (R222, R424, R427) -/

theorem State.bankDiscard_same (s : State) (j m : Nat) : s.Same l (s.bankDiscard j m) := by
  have hlose : ∀ (t : State) (c : Cell), t.Same l (t.loseCell j 0x26 c) := fun t c => t.loseCell_same hl j 0x26 c
  unfold State.bankDiscard
  extract_lets uni s1 s2
  have h1 : s.Same l s1 := by
    refine State.foldl_same _ _ (fun t c => ?_) s
    exact (hlose t c).trans (.of_regs rfl)
  refine (h1.trans (t := s2) (.of_regs rfl)).trans (State.foldl_same _ _ (fun t q => ?_) s2)
  extract_lets cells t1 cells' t2
  have ht1 : t.Same l t1 := by
    refine State.foldl_same _ _ (fun t c => ?_) t
    split
    · exact hlose t c
    · exact .refl _ t
  have ht2 : t1.Same l t2 := by
    refine State.foldl_same _ _ (fun t c => ?_) t1
    exact .of_regs rfl
  exact (ht1.trans ht2).trans (.of_regs rfl)

theorem State.tileDiscard_same (s : State) (j : Nat) : s.Same l (s.tileDiscard j) := by
  have hlose : ∀ (t : State) (c : Cell), t.Same l (t.loseCell j 0x26 c) := fun t c => t.loseCell_same hl j 0x26 c
  have hdrop : ∀ (t : State) (f : Frame), t.Same l (t.dropIngress f 0x26) := fun t f => t.dropIngress_same hl f 0x26
  have hheld : ∀ (t : State) (e : Nat × Reseq), t.Same l
      (if e.1 / 2 % 8 = j then e.2.held.foldl (fun s h => s.loseCell j 0x26 h.cell) t else t) := by
    intro t e
    split
    · exact State.foldl_same _ _ (fun (t : State) (h : Held) => hlose t h.cell) t
    · exact .refl _ t
  unfold State.tileDiscard
  extract_lets s1 gone _ s2 s3 s4 s5 lost s6 _ s7 staged s8 s9 s10 spilled s11 keys s12 ks fs s13
  have h1 : s.Same l s1 := State.foldl_same _ _ (fun t m => t.bankDiscard_same hl j m) s
  clear_value s1
  have h3 : s1.Same l s3 := State.Same.trans (t := s2) (.of_regs rfl)
    (State.foldl_same _ _ (fun t v => State.foldl_same _ _ hlose t) s2)
  clear_value s3
  have h5 : s3.Same l s5 := State.Same.trans (t := s4) (State.foldl_same _ _ hheld s3) (State.foldl_same _ _ hheld s4)
  clear_value s5
  have h7 : s5.Same l s7 := State.Same.trans (t := s6) (State.foldl_same _ _ hlose s5) (.of_regs rfl)
  clear_value s7
  have h8 : s7.Same l s8 := by
    refine State.foldl_same _ _ (fun t x => ?_) s7
    split
    · split
      · exact t.dropMulticast_same hl _ _
      · exact hdrop t _
    · exact .refl _ t
  clear_value s8
  have h9 : s8.Same l s9 := by
    refine State.foldl_same _ _ (fun t f => ?_) s8
    split
    · exact t.txComplete_same hl _ _ _ _ _
    · exact .refl _ t
  clear_value s9
  have h10 : s9.Same l s10 := .of_regs rfl
  clear_value s10
  have h11 : s10.Same l s11 := State.foldl_same _ _ hdrop s10
  clear_value s11
  have h12 : s11.Same l s12 := by
    refine State.foldl_same _ _ (fun t k => ?_) s11
    exact .of_regs rfl
  have h : s.Same l s12 := ((((((h1.trans h3).trans h5).trans h7).trans h8).trans (h9.trans h10)).trans h11).trans h12
  clear_value s12
  split
  · exact h.trans (State.Same.trans (t := s13) (State.foldl_same _ _ hdrop s12) (.of_regs rfl))
  · exact h

theorem State.restartStreams_same (s : State) (t : Nat) : s.Same l (s.restartStreams t) := by
  unfold State.restartStreams
  extract_lets restart s1 s2 old s3
  have h1 : s.Same l s1 := by
    refine State.foldl_same _ _ (fun t x => ?_) s
    exact .of_regs rfl
  have h2 : s1.Same l s2 := by
    refine State.foldl_same _ _ (fun t x => ?_) s1
    exact .of_regs rfl
  have h3 : s2.Same l s3 := State.foldl_same _ _ (fun (t : State) (c : Cell) => t.loseCell_same hl c.dst 0x24 c) s2
  exact ((h1.trans h2).trans h3).trans (.of_regs rfl)

end

end Sys2Proof.Machine
end

section
/-!
PROOF. What firmware holds when it stops, and when Temper resumes: commands that it owes are answered, the rest stays
(R423, R430, R502).
-/

namespace Sys2Proof.Machine

/-! ### What firmware holds (R423, R502) -/

/-- What `g` reads of firmware is the same in `s` and `t`. -/
def State.FwSame {α : Type} (g : Fw → α) (s t : State) : Prop := g t.fw = g s.fw

section
variable {α : Type} {g : Fw → α}

theorem State.FwSame.refl (s : State) : s.FwSame g s := rfl

theorem State.FwSame.trans {s t u : State} (h : s.FwSame g t) (k : t.FwSame g u) : s.FwSame g u := Eq.trans k h

theorem State.Kept.fwSame {ps : List Part} {s t : State} (h : s.Kept ps t) (hf : Part.fw ∉ ps) : s.FwSame g t :=
  congrArg g (h.only .fw hf)

theorem State.done_fwSame (s : State) (c : Cmd) (status r0 r1 : Nat) : s.FwSame g (s.done c status r0 r1) :=
  (State.done_kept c status r0 r1 0 (fun _ h => h) (.refl _ s)).fwSame (by decide)

theorem State.endTemperRun_fwSame (hg : ∀ x : Fw, g { x with temper := none } = g x) (s : State) (status r0 r1 : Nat) :
    s.FwSame g (s.endTemperRun status r0 r1) := by
  unfold State.endTemperRun
  split
  · exact State.FwSame.trans (t := { s with fw := { s.fw with temper := none } }) (hg s.fw) (State.done_fwSame _ _ _ _ _)
  · exact .refl s

/-- A run of Temper ends, and the next begins: of what firmware holds only the TEMPER_RUN may be answered. -/
theorem State.endRun_fwSame (hg : ∀ x : Fw, g { x with temper := none } = g x) (s : State) : s.FwSame g s.endRun := by
  have hcheck : ∀ t : State, t.FwSame g t.checkRun := by
    intro t
    unfold State.checkRun
    split
    · exact .refl t
    split
    · split <;> exact .refl t
    · exact t.endTemperRun_fwSame hg _ _ _
  unfold State.endRun
  split
  · exact .refl s
  · extract_lets n s1 _ s2 s3 t s4 s5 _ _ s6
    have h6 : s.FwSame g s6 := by
      unfold s6
      split <;> exact .refl s
    exact h6.trans (hcheck s6.judgeDt)

theorem State.nextRun_fwSame (hg : ∀ x : Fw, g { x with temper := none } = g x) (n : Nat) :
    ∀ s : State, s.FwSame g (s.nextRun n) := by
  induction n with
  | zero => exact fun s => .refl s
  | succ n ih =>
    intro s
    rw [State.nextRun]
    split
    · exact .refl s
    split
    · exact .refl s
    · extract_lets lanes d s1 s2 _ s3
      have h3 : s.FwSame g s3 := .refl s
      clear_value s3
      split
      · exact (h3.trans (s3.endRun_fwSame hg)).trans (ih _)
      · exact h3

theorem State.temperResume_fwSame (hg : ∀ x : Fw, g { x with temper := none } = g x) (s : State) :
    s.FwSame g s.temperResume := by
  unfold State.temperResume
  split
  · exact .refl s
  · extract_lets s1 due s2 s3
    have h2 : s1.FwSame g s2 := (State.Kept.foldl (l := [.temper]) _ due (.refl _ s1) fun t u ht =>
      State.trigger_kept u _ (fun _ h => h) ht).fwSame (by decide)
    have h3 : s.FwSame g { s2 with temper := s3 } := State.FwSame.trans (t := s1) (.refl s) h2
    exact h3.trans (State.nextRun_fwSame hg 10 _)

end

/-- The FW_ACTIVATE whose fence has been taken survives the stop of firmware (R430). -/
theorem State.fwStops_activate {s : State} {a : Activate} (ha : s.fw.activate = some a) (hf : a.fenced = true) :
    s.fwStops.fw.activate = some a := by
  have done_same : ∀ (t : State) (c : Cmd), t.FwSame Fw.activate (t.done c stFenced) := fun t c => t.done_fwSame c _ _ _
  unfold State.fwStops
  extract_lets _ s1 s2 s3 _ s4 s5 _ s6 _ s7 s8
  have h1 : s1.fw.activate = some a := ha
  have h2 : s1.FwSame Fw.activate s2 :=
    (State.endCondition_kept 0x141 (fun _ h => h) (.refl _ ((s1.setF MER_BUDGET_STAT.HB_ARMED 0).setF
      MER_BUDGET_STAT.MISS_RUN 0))).fwSame (by decide)
  clear_value s2
  have h3 : s2.FwSame Fw.activate s3 := (State.abortTraining_kept (fun _ h => h) (.refl _ _)).fwSame (by decide)
  clear_value s3
  have h4 : s3.FwSame Fw.activate s4 := by
    unfold s4
    split <;> exact .refl s3
  clear_value s4
  have h5 : s4.FwSame Fw.activate s5 := by
    refine List.foldlRecOn (motive := fun t => s4.FwSame Fw.activate t) s4.fw.timeAuth _ ?_ fun t ht c _ => ?_
    · rfl
    · exact ht.trans (done_same t c)
  clear_value s5
  have h6 : s5.FwSame Fw.activate s6 := by
    unfold s6
    split
    · exact State.FwSame.trans (t := { s5 with fw := { s5.fw with pairSwitch := none } }) rfl (done_same _ _)
    · exact .refl s5
  clear_value s6
  have hact : s6.fw.activate = some a := Eq.trans ((((h2.trans h3).trans h4).trans h5).trans h6) h1
  have h7 : s7 = s6 := by
    unfold s7
    rw [hact]
    exact if_pos hf
  have h8 : s6.FwSame Fw.activate s8 := by
    unfold s8 State.temperSuspend
    rw [h7]
    extract_lets t1 t2 _ t3 t4
    exact State.FwSame.trans (t := t4) (.refl s6) (t4.endTemperRun_fwSame (fun _ => rfl) _ _ _)
  clear_value s8
  have h9 := (State.Kept.foldl (l := reports ++ [.ports, .epochs, .fabric, .acct, .queues]) _ (List.range 8) (.refl _ s8)
    (fun t c ht => State.flushQueue_kept 257 c 0x37 false (fun _ h => h) ht)).fwSame (g := Fw.activate) (by decide)
  exact Eq.trans (h8.trans h9) hact

end Sys2Proof.Machine
end

section
/-!
PROOF. The steps of a fence: what the request stops, what a reset clears, and what opening takes up again (R421–R428, R432).
-/

namespace Sys2Proof.Machine

/-! ### Masks in a field -/

theorem bit_mod_two_pow {w i : Nat} (h : i < w) (v : Nat) : bit (v % 2 ^ w) i = bit v i := by
  simp [bit_eq_testBit, Nat.testBit_mod_two_pow, h]

/-- The bit of one element is set in a field that is wide enough. -/
theorem State.bit_orF (s : State) (f : Fld) {d : Nat} (h : d < f.width) :
    bit ((s.orF f (1 <<< d)).getF f) d = true := by
  rw [State.orF, State.getF_setF_same, bit_mod_two_pow h, bit_or, bit_shiftLeft_one]
  simp

theorem State.bit_clrF (s : State) (f : Fld) {d : Nat} (h : d < f.width) :
    bit ((s.clrF f (1 <<< d)).getF f) d = false := by
  rw [State.clrF, State.getF_setF_same, bit_mod_two_pow h, bit_sub_and, bit_shiftLeft_one]
  simp

/-! ### Requests (R421–R423) -/

/-- A fence that has been accepted. -/
def Fence.taken (who : Requester) (fault : Option Nat) (x : Fence) : Fence := { x with st := 1, by_ := who, fault := fault }

/-- Of the fences, an accepted request changes that of its domain alone. -/
theorem State.fenceAccept_fences (s : State) (who : Requester) (d : Nat) (fault : Option Nat) :
    (s.fenceAccept who d fault).fences = (s.upFence d (Fence.taken who fault)).fences := by
  unfold State.fenceAccept
  extract_lets s1 s2 s3
  have h1 : s1.fences = (s.upFence d (Fence.taken who fault)).fences := rfl
  clear_value s1
  have h3 : s3.fences = s1.fences := (State.tileDiscard_kept d (fun _ h => h) (.refl _ s2)).only .fences (by decide)
  rw [← h1]
  split
  · exact ((State.tileDown_kept d (fun _ h => h) (.refl _ s3)).only .fences (by decide)).trans h3
  split
  · exact (State.fwStops_kept (fun _ h => h) (.refl _ s1)).only .fences (by decide)
  split
  · exact (State.temperSuspend_kept (fun _ h => h) (.refl _ s1)).only .fences (by decide)
  split
  · exact (State.hmkDiscard_kept (fun _ h => h) (.refl _ s1)).only .fences (by decide)
  · rfl

theorem State.fence_fenceAccept (s : State) (who : Requester) (d : Nat) (fault : Option Nat) (k : Nat) :
    (s.fenceAccept who d fault).fence k = if k = d then (s.fence d).taken who fault else s.fence k := by
  rw [State.fence, State.fenceAccept_fences]
  exact s.fence_upFence d k _

/-- What every accepted request leaves of the fences. -/
theorem State.fenceAccept_law (s : State) (who : Requester) (d : Nat) (fault : Option Nat) :
    ((s.fenceAccept who d fault).fence d).st = 1 ∧ ((s.fenceAccept who d fault).fence d).by_ = who ∧
    ((s.fenceAccept who d fault).fence d).fault = fault ∧ ∀ k, k ≠ d → (s.fenceAccept who d fault).fence k = s.fence k := by
  simp only [State.fence_fenceAccept, if_true]
  exact ⟨rfl, rfl, rfl, fun k hk => if_neg hk⟩

/-- The field that tells which tiles are fenced (R421). -/
def fencedFields : List Nat := [GLB_FAB_STAT.FENCED_TILES.id]

theorem downFields_not_fenced : ∀ x ∈ downFields, x ∉ fencedFields := by decide

/-- A tile whose fence is accepted shows in FENCED_TILES (R421). -/
theorem State.fenceAccept_shown (s : State) (who : Requester) {d : Nat} (fault : Option Nat) (hd : d < 8) :
    bit ((s.fenceAccept who d fault).getF GLB_FAB_STAT.FENCED_TILES) d = true := by
  unfold State.fenceAccept
  extract_lets s1 s2 s3
  rw [if_pos hd, s3.tileDown_same downFields_not_fenced d _ (by decide),
    s2.tileDiscard_same downFields_not_fenced d _ (by decide)]
  exact s1.bit_orF GLB_FAB_STAT.FENCED_TILES hd

theorem State.fenceAsk_accepted {s : State} {who : Requester} {d : Nat} (fault : Option Nat) (hd : d < 12)
    (hst : (s.fence d).st = 0 ∨ ((s.fence d).st = 3 ∧ who = .quench)) (hp : d ≠ 11 ∨ s.paired = false) :
    s.fenceAsk who d fault = s.fenceAccept who d fault := by
  unfold State.fenceAsk
  dsimp only
  rw [if_neg (by simpa using hd), if_neg (by rcases hp with h | h <;> simp [h]), if_pos hst]

theorem State.fenceAsk_refused {s : State} (who : Requester) (fault : Option Nat) (hp : s.paired = true) :
    s.fenceAsk who 11 fault = s.setF GLB_FENCE_HIST.REQ_REFUSED 1 := by
  unfold State.fenceAsk
  dsimp only
  rw [if_neg (by decide), if_pos ⟨rfl, hp⟩]

theorem State.fenceAsk_ignored {s : State} {who : Requester} {d : Nat} (fault : Option Nat) (hw : who ≠ .quench)
    (hst : (s.fence d).st ≠ 0) (hp : d ≠ 11 ∨ s.paired = false) : s.fenceAsk who d fault = s := by
  unfold State.fenceAsk
  dsimp only
  rw [if_neg (c := d = 11 ∧ _) (by rcases hp with h | h <;> simp [h]), if_neg (c := _ ∨ _) (by simp [hst, hw]), ite_self]

theorem State.controlReset_activate {s : State} {a : Activate} (ha : s.fw.activate = some a) (hf : a.fenced = true) :
    s.controlReset.fw.activate = some a := by
  have h : s.fenceAccept .fwActivate 8 none = (s.upFence 8 (Fence.taken .fwActivate none)).countDrops.fwStops := rfl
  rw [State.controlReset, State.upFence_fw, h]
  exact State.fwStops_activate (s := (s.upFence 8 (Fence.taken .fwActivate none)).countDrops) ha hf

theorem State.fenceTaken_fences (s : State) (a : Activate) : (s.fenceTaken a).fences = s.fences :=
  (State.clearFault_kept 0x141 (fun _ h => h) (.refl _ (State.setF _ MER_BUDGET_STAT.MISS_RUN 0))).only .fences (by decide)

/-- The fences and what firmware holds after FW_ACTIVATE's fence (R430). -/
theorem State.activateFence_law (s : State) (a : Activate) :
    (s.activateFence a).fw.phase = 0 ∧ (s.activateFence a).fw.activate = some { a with fenced := true } ∧
    ∀ k, k ≠ 8 → (s.activateFence a).fence k = s.fence k := by
  have h : s.activateFence a =
      { (s.fenceTaken a).controlReset with fw := { (s.fenceTaken a).controlReset.fw with phase := 0 } } := by
    simp only [State.activateFence, State.controlReset, State.fenceTaken]
  have hact : (s.fenceTaken a).controlReset.fw.activate = some { a with fenced := true } :=
    State.controlReset_activate rfl rfl
  have hfence : ∀ k, k ≠ 8 → (s.fenceTaken a).controlReset.fence k = s.fence k := by
    intro k hk
    rw [State.controlReset, State.fence_upFence_other _ _ hk, State.fence_fenceAccept, if_neg hk, State.fence,
      State.fenceTaken_fences, State.fence]
  rw [h]
  generalize (s.fenceTaken a).controlReset = t at hact hfence ⊢
  exact ⟨rfl, hact, hfence⟩

theorem exec_fenceRequest_pf (d : Nat) (s : State) :
    exec (.fenceRequest .pf d) s = .next (if s.pcieUp then s.fenceAsk .pf d none else s) := rfl

theorem exec_fenceRequest_firmware (d : Nat) (s : State) : exec (.fenceRequest .firmware d) s =
    .next (if s.fwRuns && (d == 9 || d == 10) then s.fenceAsk .firmware d none else s) := rfl

theorem exec_fenceRequest_quench {d x : Nat} {s : State} (h : s.fenceCause d = some x) :
    exec (.fenceRequest .quench d) s = .next (s.fenceAsk .quench d (some x)) := by
  have e : exec (.fenceRequest .quench d) s = execFenceRequest .quench d s := rfl
  simp only [e, execFenceRequest, h]

theorem exec_fenceRequest_quench_without {d : Nat} {s : State} (h : s.fenceCause d = none) :
    exec (.fenceRequest .quench d) s = .next s := by
  have e : exec (.fenceRequest .quench d) s = execFenceRequest .quench d s := rfl
  simp only [e, execFenceRequest, h]

theorem exec_fenceRequest_fwActivate {s : State} {a : Activate} (ha : s.fw.activate = some a) (hr : s.fwRuns = true)
    (hf : a.fenced = false) (hb : a.booted = false) :
    exec (.fenceRequest .fwActivate 8) s = .next (s.activateFence a) := by
  have e : exec (.fenceRequest .fwActivate 8) s = execFenceRequest .fwActivate 8 s := rfl
  simp [e, execFenceRequest, ha, hr, hf, hb]

theorem exec_fenceRequest_fwActivate_held {d : Nat} {s : State} (h : s.fw.activate = none ∨ d ≠ 8 ∨ s.fwRuns = false) :
    exec (.fenceRequest .fwActivate d) s = .next s := by
  have e : exec (.fenceRequest .fwActivate d) s = execFenceRequest .fwActivate d s := rfl
  rw [e, execFenceRequest]
  cases ha : s.fw.activate with
  | none => rfl
  | some a =>
    refine congrArg Host.Outcome.next (if_neg ?_)
    rcases h with h | h | h
    · simp [ha] at h
    · simp [h]
    · simp [h]

/-! ### Completion (R423, R424) -/

theorem State.port_drainStamps_other (s : State) {p q : Nat} (h : q ≠ p) : (s.drainStamps p).port q = s.port q := by
  unfold State.drainStamps
  extract_lets es s1
  refine List.foldlRecOn (motive := fun t => State.port t q = s.port q) es _ ?_ fun t ht e _ => ?_
  · exact s.port_upPort_other _ h
  · dsimp only
    split
    · split
      · exact ht
      · exact (t.port_upPort_other _ h).trans ht
    · split
      · exact ((t.pushEntry_quiet _ _).port q).trans ht
      · exact (t.port_upPort_other _ h).trans ht

/-- An error counted several times is a report. -/
theorem State.foldl_countE_quiet {α : Type} (g k : Nat) (l : List α) (s : State) :
    s.Quiet (l.foldl (fun s _ => s.countE g k) s) :=
  State.Quiet.foldl _ l (.refl s) fun t _ _ h => h.trans (t.countE_quiet g k 1)

theorem State.port_loseStamps_other (s : State) {p q : Nat} (h : q ≠ p) : (s.loseStamps p).port q = s.port q := by
  unfold State.loseStamps
  extract_lets s1 l host s2 s3 s4
  have h1 : s1.port q = s.port q := s.port_drainStamps_other h
  split
  · exact h1
  · have h4 : s2.Quiet s4 := (State.foldl_countE_quiet _ _ _ s2).trans (State.foldl_countE_quiet _ _ _ s3)
    exact ((h4.port q).trans (s1.port_upPort_other _ h)).trans h1

/-- A port whose stamps are delivered or lost has none in its FIFO (R424). -/
theorem State.fifo_loseStamps (s : State) (p : Nat) : ((s.loseStamps p).port p).fifo = [] := by
  unfold State.loseStamps
  extract_lets s1 l host s2 s3 s4
  split
  · next h => exact List.isEmpty_iff.1 h
  · have h4 : s2.Quiet s4 := (State.foldl_countE_quiet _ _ _ s2).trans (State.foldl_countE_quiet _ _ _ s3)
    exact congrArg Port.fifo ((h4.port p).trans (s1.port_upPort_same p _))

/-- The stamps in the FIFOs of a tile's ports are delivered or lost. -/
def State.tileStamps (s : State) (d : Nat) : State :=
  ((List.range 32).map (d * 32 + ·)).foldl (fun s p => s.loseStamps p) s

theorem State.tileStamps_fences (s : State) (d : Nat) : (s.tileStamps d).fences = s.fences :=
  (State.Kept.foldl (l := reports ++ [.ports]) _ _ (.refl _ s) fun _ p ht =>
    State.loseStamps_kept p (fun _ h => h) ht).only .fences (by decide)

theorem State.fifo_foldl_loseStamps (q : Nat) : ∀ (l : List Nat) (s : State), q ∈ l ∨ (s.port q).fifo = [] →
    ((l.foldl (fun s p => s.loseStamps p) s).port q).fifo = []
  | [], _, h => h.resolve_left List.not_mem_nil
  | p :: l, s, h => by
    refine State.fifo_foldl_loseStamps q l _ ?_
    by_cases hp : q = p
    · subst hp
      exact .inr (s.fifo_loseStamps q)
    · rw [s.port_loseStamps_other hp]
      exact h.imp_left fun hq => (List.mem_cons.1 hq).resolve_left hp

theorem State.tileStamps_fifo (s : State) {d q : Nat} (hq : q / 32 = d) : ((s.tileStamps d).port q).fifo = [] :=
  State.fifo_foldl_loseStamps q _ s (.inl (List.mem_map.2 ⟨q % 32, List.mem_range.2 (by omega), by omega⟩))

/-- A tile's stamps gone, as FENCE_COMPLETE leaves them before the fence closes (R424). -/
def State.fenceDrained (s : State) (d : Nat) : State := if d < 8 then s.tileStamps d else s

theorem State.fenceDrained_fences (s : State) (d : Nat) : (s.fenceDrained d).fences = s.fences := by
  unfold State.fenceDrained
  split
  · exact s.tileStamps_fences d
  · rfl

/-- A domain that is FENCED, its stamps gone. -/
def State.fenceDone (s : State) (d : Nat) : State := (s.fenceDrained d).upFence d (fun x => { x with st := 2 })

theorem exec_fenceComplete {s : State} {d : Nat} (h : (s.fence d).st = 1) :
    exec (.fenceComplete d) s = .next (s.fenceDone d) := congrArg Host.Outcome.next (if_pos h)

/-- FENCE_COMPLETE of a domain that is FENCING. -/
theorem State.fenceDone_law (s : State) (d : Nat) :
    (s.fenceDone d).fence d = { s.fence d with st := 2 } ∧ (∀ k, k ≠ d → (s.fenceDone d).fence k = s.fence k) ∧
    (8 ≤ d → s.fenceDone d = s.upFence d (fun x => { x with st := 2 })) ∧
    ∀ q, d < 8 → q / 32 = d → ((s.fenceDone d).port q).fifo = [] := by
  have hf : ∀ k, (s.fenceDrained d).fence k = s.fence k := fun k => by
    rw [State.fence, s.fenceDrained_fences, State.fence]
  unfold State.fenceDone
  refine ⟨?_, fun k hk => ?_, fun hd => ?_, fun q hd hq => ?_⟩
  · rw [State.fence_upFence_same, hf]
  · rw [State.fence_upFence_other _ _ hk, hf]
  · rw [State.fenceDrained, if_neg (Nat.not_lt.2 hd)]
  · rw [State.upFence_port, State.fenceDrained, if_pos hd]
    exact s.tileStamps_fifo hq

/-! ### Reset (R425, R432, R520) -/

/-- A reset of the domain has begun: its fence says so, and what a flush discards is counted (R418, R425). -/
def State.resetBegun (s : State) (d : Nat) : State := (s.upFence d (fun x => { x with rst := true })).countDrops

theorem State.resetDomain_fences (s : State) (d : Nat) :
    (s.resetDomain d).fences = (s.upFence d (fun x => { x with rst := true })).fences := by
  unfold State.resetDomain
  extract_lets s1
  have h1 : s1.fences = (s.upFence d (fun x => { x with rst := true })).fences := rfl
  clear_value s1
  rw [← h1]
  split
  · exact (State.tileReset_kept d (fun _ h => h) (.refl _ s1)).only .fences (by decide)
  split
  · rfl
  split
  · rfl
  split <;> rfl

/-- The ports and counters of a tile that has been reset, and its microcode (R425, R432, R520). -/
theorem State.tileReset_law (s : State) {d : Nat} (hd : d < 8) :
    bit ((s.tileReset d).getF GLB_UCODE_STAT.READY) d = false ∧
    (∀ q, q < 256 → q / 32 = d → (s.tileReset d).isF TIL_PORT_CFG.ENABLE q = false ∧ (s.tileReset d).port q = {}) ∧
    ∀ g k, tileGroup d g = true → k < 512 → (s.tileReset d).counter g k = 0 := by
  refine ⟨State.bit_clrF _ GLB_UCODE_STAT.READY hd, fun q hq hqd => ⟨?_, ?_⟩, fun g k hg hk => ?_⟩
  · have hkey : TIL_PORT_CFG.ENABLE.id * 65536 + q % 65536 = 2000 * 65536 + q := by
      rw [Nat.mod_eq_of_lt (by omega)]
      rfl
    rw [State.isF, State.tileReset, State.clrF, State.getF_setF_ne _ _ _ _ _ _ (by decide), State.getF, hkey]
    have hfield : (2000 * 65536 + q) / 65536 = 2000 := by omega
    have hcopy : (2000 * 65536 + q) % 65536 = q := by omega
    have hgone : tileOf d 2000 q = true := by simp [tileOf, TIL_EGR_SPILL.SPILL_ON, hqd]
    rw [bne_eq_false_iff_eq]
    refine Tab.getD_filter_out (fun v => ?_) _ _
    simp [hfield, hcopy, hgone]
  · exact Tab.getD_filter_out (fun v => by simp [hqd]) _ _
  · refine Tab.getD_filter_out (fun v => ?_) _ _
    have hgroup : (g * 512 + k) / 512 = g := by omega
    simp [hgroup, hg]

theorem exec_domainReset {p : Path} {d : Nat} {s : State} (hd : d < 12) (hp : s.pfMay p = true) :
    exec (.domainReset p d) s = .next
      (if (s.fence d).st = 2 then s.resetDomain d else s.setF GLB_FENCE_HIST.RST_REFUSED 1) :=
  congrArg Host.Outcome.next (if_neg (by simp [hp, hd]))

theorem State.resetDomain_law (s : State) {d : Nat} :
    (s.resetDomain d).fence d = { s.fence d with rst := true } ∧
    (∀ k, k ≠ d → (s.resetDomain d).fence k = s.fence k) ∧
    (d < 8 → bit ((s.resetDomain d).getF GLB_UCODE_STAT.READY) d = false ∧
      (∀ q, q < 256 → q / 32 = d → (s.resetDomain d).isF TIL_PORT_CFG.ENABLE q = false ∧ (s.resetDomain d).port q = {}) ∧
      ∀ g k, tileGroup d g = true → k < 512 → (s.resetDomain d).counter g k = 0) ∧
    (d = 8 → (s.resetDomain d).fw.running = false ∧ (s.resetDomain d).fw.phase = 0) ∧
    (d = 10 → (s.resetDomain d).hmk = {}) ∧ (d = 11 → (s.resetDomain d).pair = {}) := by
  have hf : ∀ k, (s.resetDomain d).fence k = (s.upFence d (fun x => { x with rst := true })).fence k := fun k => by
    rw [State.fence, s.resetDomain_fences]
    rfl
  refine ⟨?_, fun k hk => ?_, fun hd => ?_, ?_, ?_, ?_⟩
  · rw [hf, State.fence_upFence_same]
  · rw [hf, State.fence_upFence_other _ _ hk]
  · have h : s.resetDomain d = (s.resetBegun d).tileReset d := if_pos hd
    rw [h]
    exact State.tileReset_law _ hd
  · rintro rfl
    exact ⟨rfl, rfl⟩
  · rintro rfl
    rfl
  · rintro rfl
    rfl

/-- With no access waiting, none goes on. -/
theorem State.resume_of_none {s : State} (h : s.stalled = []) : s.resume = s := by
  rw [State.resume, h, List.foldl_nil, ← h]

theorem exec_domainResetEnd (d : Nat) (s : State) : exec (.domainResetEnd d) s = .next (s.resetEnd d).resume := rfl

theorem exec_ucodeLoadComplete {k : Nat} (ok : Bool) {s : State} (hr : s.fwRuns = true) (hs : (s.fence k).rst = false)
    (hg : bit (s.getF PWR_GATE_STAT.TILE_GATED) k = false) (hu : bit (s.getF GLB_UCODE_STAT.READY) k = false) :
    exec (.ucodeLoadComplete k ok) s = .next (if ok then s.orF GLB_UCODE_STAT.READY (1 <<< k)
      else s.orF GLB_UCODE_STAT.UCODE_ERR (1 <<< k)) :=
  congrArg Host.Outcome.next (if_neg (by simp [hr, hs, hg, hu]))

/-! ### Release and opening (R426, R427) -/

/-- Whether the requester can release a fence at all (R426). -/
def State.mayRelease (s : State) : Requester → Bool
  | .pf => s.pcieUp
  | .firmware => s.fwRuns
  | _ => false

theorem exec_fenceRelease (w : Requester) (d : Nat) (s : State) : exec (.fenceRelease w d) s = .next
    (if !s.mayRelease w || (s.fence d).st ≠ 2 then s
    else if s.releaseRefused w d then s.setF GLB_FENCE_HIST.REL_REFUSED 1
    else s.upFence d (fun x => { x with st := 3 })) := by
  cases w <;> rfl

theorem State.mayRelease_of {s : State} {w : Requester}
    (h : w = .pf ∧ s.pcieUp = true ∨ w = .firmware ∧ s.fwRuns = true) : s.mayRelease w = true := by
  rcases h with ⟨rfl, h⟩ | ⟨rfl, h⟩ <;> exact h

theorem exec_fenceRelease_taken {w : Requester} {d : Nat} {s : State} (hw : s.mayRelease w = true)
    (hst : (s.fence d).st = 2) : exec (.fenceRelease w d) s = .next
    (if s.releaseRefused w d then s.setF GLB_FENCE_HIST.REL_REFUSED 1 else s.upFence d (fun x => { x with st := 3 })) := by
  rw [exec_fenceRelease, if_neg (by simp [hw, hst])]

theorem State.opened_fences (s : State) (d : Nat) : (s.opened d).fences = s.fences :=
  (State.opened_kept d (fun _ h => h) (.refl _ s)).only .fences (by decide)

theorem State.releasePort_same {l : List Nat} (hl : TPL_STC_TX.TX_CORR.id ∉ l ∧ TPL_STC_RX.RX_CORR.id ∉ l) (s : State)
    (p : Nat) : s.Same l (s.releasePort p) := by
  unfold State.releasePort
  extract_lets mine s1
  have h1 : s.Same l s1 := by
    refine State.foldl_same _ _ (fun t e => ?_) s
    split
    · exact t.setF_same _ _ _ hl.1
    · exact t.setF_same _ _ _ hl.2
  exact h1.trans (.of_regs rfl)

/-- A lane part that ends writes the corrections that it held (R328, R498). -/
theorem State.endPart_same {l : List Nat} (hl : TPL_STC_TX.TX_CORR.id ∉ l ∧ TPL_STC_RX.RX_CORR.id ∉ l) (s : State)
    (x : Nat) (done : Bool) : s.Same l (s.endPart x done) := by
  unfold State.endPart
  extract_lets rest _ s1
  have h1 : s.Same l s1 := .of_regs rfl
  split
  · exact h1
  split
  · extract_lets s2
    have h2 : s1.Same l s2 := by
      unfold s2
      split <;> exact .of_regs rfl
    split
    · exact h1.trans h2
    · exact (h1.trans h2).trans (s2.releasePort_same hl _)
  · exact h1.trans (State.foldl_same _ _ (fun t p => t.releasePort_same hl p) _)

theorem State.clearFault_same {l : List Nat} (s : State) {id : Nat} (h0 : id ≠ 0) : s.Same l (s.clearFault id) := by
  unfold State.clearFault
  rw [if_neg h0]
  split
  · exact .refl _ s
  · exact (State.endCondition_kept id (fun _ h => h) (.refl _ s)).same_fields (by decide)

/-- A tile that is OPEN does not show in FENCED_TILES (R421, R427). -/
theorem State.opened_hidden (s : State) {d : Nat} (hd : d < 8) :
    bit ((s.opened d).getF GLB_FAB_STAT.FENCED_TILES) d = false := by
  have hcl := s.bit_clrF GLB_FAB_STAT.FENCED_TILES hd
  suffices h : (s.clrF GLB_FAB_STAT.FENCED_TILES (1 <<< d)).Same fencedFields (s.opened d) by
    rw [h _ (by decide)]
    exact hcl
  unfold State.opened
  rw [if_pos hd]
  extract_lets s1 s2 s3 _ s4 s5
  have h1 : (s.clrF GLB_FAB_STAT.FENCED_TILES (1 <<< d)).Same fencedFields s1 :=
    (State.restartStreams_same downFields_not_fenced _ d).trans (State.clearFault_same _ (by omega))
  clear_value s1
  have h2 : s1.Same fencedFields s2 := .of_regs rfl
  have h3 : s2.Same fencedFields s3 := by
    unfold s3
    split
    · split
      · exact s2.endPart_same (by decide) _ _
      · exact .refl _ s2
    · exact .refl _ s2
  have h4 : s3.Same fencedFields s4 := .of_regs rfl
  have h5 : s4.Same fencedFields s5 := by
    refine State.foldl_same _ _ (fun t p => ?_) s4
    exact .of_regs rfl
  have h : (s.clrF GLB_FAB_STAT.FENCED_TILES (1 <<< d)).Same fencedFields s5 :=
    (((h1.trans h2).trans h3).trans h4).trans h5
  clear_value s5
  split
  · exact h.trans (.of_regs rfl)
  · exact h

/-- Firmware runs again once the control complex is OPEN, if its image had come as far as its start-up work (R427, R545). -/
theorem State.opened_running (s : State) : (s.opened 8).fw.running = decide (2 ≤ s.fw.phase) := by
  have h : s.opened 8 = (fun t : State => (Tab.keys t.ports).foldl (fun s p => s.drainStamps p) t)
      ({ s with fw := { s.fw with running := decide (2 ≤ s.fw.phase) } } : State).temperResume := rfl
  rw [h]
  have hr := State.temperResume_fwSame (g := Fw.running) (fun _ => rfl)
    { s with fw := { s.fw with running := decide (2 ≤ s.fw.phase) } }
  generalize State.temperResume _ = t at hr ⊢
  have hd := (State.Kept.foldl (l := reports ++ [.ports]) _ (Tab.keys t.ports) (.refl _ t) fun u p hu =>
    State.drainStamps_kept p (fun _ h => h) hu).fwSame (g := Fw.running) (by decide)
  exact Eq.trans hd hr

/-- A domain whose unfencing ends. -/
def State.unfenced (s : State) (d : Nat) : State := (s.upFence d (fun x => { x with st := 0, fault := none })).opened d

theorem State.unfenced_law (s : State) (d : Nat) :
    (s.unfenced d).fence d = { s.fence d with st := 0, fault := none } ∧
    (∀ k, k ≠ d → (s.unfenced d).fence k = s.fence k) ∧
    (d < 8 → bit ((s.unfenced d).getF GLB_FAB_STAT.FENCED_TILES) d = false) ∧
    (d = 8 → (s.unfenced d).fw.running = decide (2 ≤ s.fw.phase)) := by
  have hf : ∀ k, (s.unfenced d).fence k = (s.upFence d (fun x => { x with st := 0, fault := none })).fence k := fun k => by
    rw [State.fence, State.unfenced, State.opened_fences]
    rfl
  refine ⟨?_, fun k hk => ?_, State.opened_hidden _, ?_⟩
  · rw [hf, State.fence_upFence_same]
  · rw [hf, State.fence_upFence_other _ _ hk]
  · rintro rfl
    exact State.opened_running _

theorem exec_unfenceComplete {d : Nat} {s : State} (hst : (s.fence d).st = 3) (hr : (s.fence d).rst = false)
    (hc : 8 ≤ d ∨ s.fabricClear d = true) : exec (.unfenceComplete d) s = .next (s.unfenced d) :=
  congrArg Host.Outcome.next (if_neg (by rcases hc with h | h <;> simp [hst, hr, h]))

end Sys2Proof.Machine

namespace Sys2Proof.Proofs

open Sys2Proof.Machine

/-- Settles O47: each step by the fence that it changes, and a tile by what it stops, clears and takes up again. -/
theorem fencesCloseResetAndOpenInOrder : Obligations.FencesCloseResetAndOpenInOrder := by
  unfold Obligations.FencesCloseResetAndOpenInOrder
  refine ⟨fun d s hd => ⟨fun h => ?pfIgnored, fun hup h11 hp => ?pfRefused, fun hup hst hp => ?pfAccepted,
      fun h => ?firmwareIgnored, fun hr h910 hst => ?firmwareAccepted,
      fun h => ?quenchIgnored, fun x hx hst hp => ?quenchAccepted,
      fun h => ?activateHeld, fun a ha h8 hr hf hb => ?activateFenced⟩,
    fun d s u => ⟨fun h => ?fenced, fun h => ?notFencing, fun hu => ⟨?resetEnded, fun hs => ?noneWaits⟩⟩,
    fun p d s hd => ⟨fun h => ?resetBarred, fun hp hst => ?resetRefused, fun hp hst => ?reset⟩,
    fun k ok s hk => ⟨fun h => ?loadBarred, fun hr hs hg hu => ?loaded⟩,
    fun w d s hd => ⟨fun h => ?releaseBarred, fun hw hst => ⟨fun href => ?releaseRefused, fun href => ?released⟩⟩,
    fun d s hd => ⟨fun h => ?unfencing, fun hst hrst hclear => ?opened⟩⟩
  case pfIgnored =>
    rw [exec_fenceRequest_pf]
    rcases h with h | ⟨hst, hp⟩
    · rw [if_neg (by simp [h])]
    · rw [State.fenceAsk_ignored none (by decide) hst hp, ite_self]
  case pfRefused =>
    subst h11
    rw [exec_fenceRequest_pf, if_pos hup, State.fenceAsk_refused _ _ hp]
    exact ⟨_, rfl, s.isF_setF_flag (f := GLB_FENCE_HIST.REQ_REFUSED) rfl true 0, rfl⟩
  case pfAccepted =>
    obtain ⟨hst', hby, hfault, hothers⟩ := s.fenceAccept_law .pf d none
    rw [exec_fenceRequest_pf, if_pos hup, State.fenceAsk_accepted none hd (.inl hst) hp]
    refine ⟨_, rfl, hst', hby, hfault, hothers, s.fenceAccept_shown _ _, ?_⟩
    rintro rfl
    exact (s.fenceAccept_control _ _).1
  case firmwareIgnored =>
    rw [exec_fenceRequest_firmware]
    by_cases hreq : (s.fwRuns && (d == 9 || d == 10)) = true
    · obtain ⟨hr, h910⟩ : s.fwRuns = true ∧ (d = 9 ∨ d = 10) := by simpa using hreq
      have hst : (s.fence d).st ≠ 0 := by
        rcases h with h | h | h
        · simp [hr] at h
        · omega
        · exact h
      rw [State.fenceAsk_ignored none (by decide) hst (.inl (by omega)), ite_self]
    · rw [if_neg hreq]
  case firmwareAccepted =>
    obtain ⟨hst', hby, -, hothers⟩ := s.fenceAccept_law .firmware d none
    rw [exec_fenceRequest_firmware, if_pos (by simpa [hr] using h910),
      State.fenceAsk_accepted none hd (.inl hst) (.inl (by omega))]
    exact ⟨_, rfl, hst', hby, hothers⟩
  case quenchIgnored =>
    exact exec_fenceRequest_quench_without h
  case quenchAccepted =>
    obtain ⟨hst', hby, hfault, hothers⟩ := s.fenceAccept_law .quench d (some x)
    rw [exec_fenceRequest_quench hx, State.fenceAsk_accepted _ hd (hst.imp_right fun h => ⟨h, rfl⟩) hp]
    exact ⟨_, rfl, hst', hby, hfault, hothers⟩
  case activateHeld =>
    exact exec_fenceRequest_fwActivate_held h
  case activateFenced =>
    subst h8
    obtain ⟨hrun, hst', hby⟩ := s.activateFence_control a
    obtain ⟨hphase, hact, hothers⟩ := s.activateFence_law a
    exact ⟨_, exec_fenceRequest_fwActivate ha hr hf hb, hst', hby, hrun, hphase, hact, hothers⟩
  case fenced =>
    exact ⟨_, exec_fenceComplete h, s.fenceDone_law d⟩
  case notFencing =>
    exact congrArg Host.Outcome.next (if_neg h)
  case resetEnded =>
    subst hu
    rfl
  case noneWaits =>
    subst hu
    exact State.resume_of_none (by split <;> exact hs)
  case resetBarred =>
    exact congrArg Host.Outcome.next (if_pos (by simp [h]))
  case resetRefused =>
    rw [exec_domainReset hd hp, if_neg hst]
    exact ⟨_, rfl, s.isF_setF_flag (f := GLB_FENCE_HIST.RST_REFUSED) rfl true 0, rfl⟩
  case reset =>
    rw [exec_domainReset hd hp, if_pos hst]
    exact ⟨_, rfl, s.resetDomain_law⟩
  case loadBarred =>
    exact congrArg Host.Outcome.next (if_pos (by rcases h with h | h | h | h <;> simp [h]))
  case loaded =>
    rw [exec_ucodeLoadComplete ok hr hs hg hu]
    cases ok with
    | true => exact ⟨_, rfl, s.bit_orF GLB_UCODE_STAT.READY hk, nofun⟩
    | false =>
      refine ⟨_, rfl, ?_, fun _ => s.bit_orF GLB_UCODE_STAT.UCODE_ERR hk⟩
      rw [if_neg (by decide), State.orF, State.getF_setF_ne _ _ _ _ _ _ (by decide)]
      exact hu
  case releaseBarred =>
    rw [exec_fenceRelease]
    refine congrArg Host.Outcome.next (if_pos ?_)
    rcases h with h | ⟨rfl, h⟩ | ⟨rfl, h⟩ | rfl | rfl
    · simp [h]
    · simp [State.mayRelease, h]
    · simp [State.mayRelease, h]
    · rfl
    · rfl
  case releaseRefused =>
    rw [exec_fenceRelease_taken (State.mayRelease_of hw) hst, if_pos href]
    exact ⟨_, rfl, s.isF_setF_flag (f := GLB_FENCE_HIST.REL_REFUSED) rfl true 0, rfl⟩
  case released =>
    rw [exec_fenceRelease_taken (State.mayRelease_of hw) hst, if_neg (by simp [href])]
  case unfencing =>
    refine congrArg Host.Outcome.next (if_pos ?_)
    rcases h with h | h | ⟨h8, h⟩
    · simp [h]
    · simp [h]
    · simp [h8, h]
  case opened =>
    exact ⟨_, exec_unfenceComplete hst hrst hclear, s.unfenced_law d⟩

end Sys2Proof.Proofs
end

section
/-!
PROOF. PG_SET and PG_FORCE: where a protection group stands afterwards, and that the other groups stand as they did (R243,
R245, R247).
-/

namespace Sys2Proof.Machine

/-- A row that is a command of the PF's that may run answers what the command's own effect, after reports, answers. -/
theorem exec_of_command {s : State} {i : Instr} {op : Nat} {vfOk : Bool} {c : Cmd} {run : State → State}
    (hi : exec i s = .next (s.command op vfOk c run)) (h : s.Ready op c) :
    ∃ v, s.Quiet v ∧ exec i s = .next (run v) := by
  obtain ⟨v, hv, e⟩ := State.command_runs vfOk run h
  exact ⟨v, hv, hi.trans (congrArg _ e)⟩

/-! ### What stands in a group's way, after reports -/

section
variable {s v : State} (h : s.Quiet v)
include h

theorem State.Quiet.portFenced (p : Nat) : v.portFenced p = s.portFenced p := by
  rw [State.portFenced, State.portFenced, h.fence]

theorem State.Quiet.pgFenced (g : Nat) : v.pgFenced g = s.pgFenced g := by
  simp only [State.pgFenced, h.still.pgs, h.portFenced]

theorem State.Quiet.pgBusy (g : Nat) : v.pgBusy g = s.pgBusy g := by
  simp only [State.pgBusy, h.still.pgs, h.still.time]

end

/-! ### Where a group stands (R243) -/

/-- In `u` group `g` stands as `x`, in use on its backup where `b`, until whenever its last change of position takes; the
other groups stand as in `s`. -/
structure State.PgPlaced (s u : State) (g : Nat) (x : Pg) (b : Bool) : Prop where
  group : ∃ n, Tab.get? u.pgs g = some { x with onBackup := b, busyTo := n }
  others : ∀ k, k ≠ g → Tab.get? u.pgs k = Tab.get? s.pgs k

theorem State.PgPlaced.of_set {s u : State} {g : Nat} {x : Pg} (h : u.pgs = Tab.set s.pgs g x) :
    s.PgPlaced u g x x.onBackup where
  group := ⟨x.busyTo, by rw [h, Tab.get?_set, if_pos rfl]⟩
  others k hk := by rw [h, Tab.get?_set, if_neg hk]

theorem State.pgMove_get?_other (s : State) (g : Nat) (b : Bool) {k : Nat} (hk : k ≠ g) :
    Tab.get? (s.pgMove g b).pgs k = Tab.get? s.pgs k := by
  unfold State.pgMove
  split
  · rfl
  · cases b <;> exact (Tab.get?_set _ _ _ _).trans (if_neg hk)

/-- A group that moves changes its position alone (R245). -/
theorem State.PgPlaced.pgMove {s t : State} {g : Nat} {x : Pg} {b : Bool} (h : s.PgPlaced t g x b) (b' : Bool) :
    s.PgPlaced (t.pgMove g b') g x b' where
  group := by
    obtain ⟨_, hx⟩ := h.group
    have hm := t.pgMove_get? g b' hx
    exact ⟨_, hm⟩
  others k hk := (t.pgMove_get?_other g b' hk).trans (h.others k hk)

/-- Where a group in automatic mode goes at once: to the port whose link is up, where the one in use is down (R245, R247). -/
def State.pgAutoSide (s : State) (x : Pg) : Bool :=
  if s.portState x.primary ≠ 5 ∧ s.portState x.backup = 5 then true
  else if s.portState x.primary = 5 ∧ s.portState x.backup ≠ 5 then false
  else x.onBackup

theorem State.PgPlaced.pgEval {s t : State} {g : Nat} {x : Pg} (h : s.PgPlaced t g x x.onBackup)
    (hf : x.forced = none) : s.PgPlaced (t.pgEval g) g x (t.pgAutoSide x) := by
  obtain ⟨n, hx⟩ := h.group
  have he : t.pgEval g = if !x.onBackup && !(t.portState x.primary == 5) && t.portState x.backup == 5 then t.pgMove g true
      else if x.onBackup && !(t.portState x.backup == 5) && t.portState x.primary == 5 then t.pgMove g false else t := by
    rw [State.pgEval, hx]
    exact if_neg (by simp [hf])
  rw [he]
  split
  · next hb =>
    obtain ⟨⟨_, hp⟩, hb⟩ : (x.onBackup = false ∧ t.portState x.primary ≠ 5) ∧ t.portState x.backup = 5 := by
      simpa using hb
    rw [State.pgAutoSide, if_pos ⟨hp, hb⟩]
    exact h.pgMove true
  · next hb =>
    split
    · next hp =>
      obtain ⟨⟨_, hb⟩, hp⟩ : (x.onBackup = true ∧ t.portState x.backup ≠ 5) ∧ t.portState x.primary = 5 := by
        simpa using hp
      rw [State.pgAutoSide, if_neg (fun hc => hb hc.2), if_pos ⟨hp, hb⟩]
      exact h.pgMove false
    · next hp =>
      have hs : t.pgAutoSide x = x.onBackup := by
        unfold State.pgAutoSide
        split
        · next hc => simpa [hc] using hb
        · split
          · next hc => simpa [hc] using hp
          · rfl
      exact hs.symm ▸ h

/-! ### PG_SET (R243) -/

theorem State.pgErase_get? (s : State) (g k : Nat) :
    Tab.get? (s.pgErase g).pgs k = if k = g then none else Tab.get? s.pgs k := Tab.get?_erase _ _ _

theorem State.pgErase_portState (s : State) (g p : Nat) : (s.pgErase g).portState p = s.portState p :=
  State.getF_setF_ne _ _ _ _ _ _ (by decide)

/-- A group defined anew stands with its two ports, on its backup where that alone is up. -/
theorem State.pgDefine_placed (s : State) (g a b : Nat) :
    s.PgPlaced (s.pgDefine g a b) g { primary := a, backup := b } (s.portState a != 5 && s.portState b == 5) := by
  have h : s.PgPlaced { s.pgErase g with pgs := Tab.set s.pgs g { primary := a, backup := b } } g
    { primary := a, backup := b } false := .of_set rfl
  have hp : ∀ p, ({ s.pgErase g with pgs := Tab.set s.pgs g { primary := a, backup := b } } : State).portState p =
    s.portState p := s.pgErase_portState g
  unfold State.pgDefine
  dsimp only
  rw [hp, hp]
  split
  · next hb => exact hb.symm ▸ h.pgMove true
  · next hb => exact (Bool.eq_false_iff.2 hb).symm ▸ h

/-- What PG_SET makes of group `g`, named with ports `a` and `b`. -/
def State.pgPut (s : State) (g a b : Nat) : State := if a = b then s.pgErase g else s.pgDefine g a b

theorem State.pgPut_other (s : State) {g k : Nat} (a b : Nat) (hk : k ≠ g) :
    Tab.get? (s.pgPut g a b).pgs k = Tab.get? s.pgs k := by
  unfold State.pgPut
  split
  · rw [State.pgErase_get?, if_neg hk]
  · exact (s.pgDefine_placed g a b).others k hk

/-- Whether port `a` or `b` belongs to a group other than `g`. -/
def State.pgTaken (s : State) (g a b : Nat) : Bool :=
  s.pgs.any (fun e => e.1 != g && [e.2.primary, e.2.backup].any (fun p => p == a || p == b))

/-- PG_SET, once its operands fit and no tile of its is fenced. -/
theorem exec_pgSet_open {s : State} {c : Cmd} (hc : s.Ready 0x50 c) (ht : c.target < 128) (ha : c.a0.toNat < 256)
    (hb : c.a1.toNat < 256) (hfa : s.portFenced c.a0.toNat = false) (hfb : s.portFenced c.a1.toNat = false)
    (hfg : s.pgFenced c.target = false) : ∃ v, s.Quiet v ∧ exec (.pgSet c) s = .next (
    if s.pgBusy c.target then v.done c stBusy
    else if s.pgTaken c.target c.a0.toNat c.a1.toNat then v.done c stNoSpace
    else ((v.pgPut c.target c.a0.toNat c.a1.toNat).judgeOverbooked v c.a1.toNat).done c stOk) := by
  obtain ⟨v, hv, e⟩ := exec_of_command (i := .pgSet c) rfl hc
  refine ⟨v, hv, e.trans (congrArg Host.Outcome.next ?_)⟩
  have hfit : ¬ (128 ≤ c.target ∨ 256 ≤ c.a0.toNat ∨ 256 ≤ c.a1.toNat) := by omega
  simp only [hfit, hv.portFenced, hv.pgFenced, hv.pgBusy, hv.still.pgs, hfa, hfb, hfg]
  rfl

/-! ### PG_FORCE (R247) -/

/-- The port of group `g` that is in use. -/
def State.pgInUse (s : State) (g : Nat) : Nat :=
  match Tab.get? s.pgs g with
  | some y => if y.onBackup then y.backup else y.primary
  | none => 0

theorem State.PgPlaced.pgInUse {s u : State} {g : Nat} {x : Pg} {b : Bool} (h : s.PgPlaced u g x b) :
    u.pgInUse g = if b then x.backup else x.primary := by
  obtain ⟨_, hx⟩ := h.group
  rw [State.pgInUse, hx]

/-- Group `x` held on the port that ARG2 names, or freed by 0. -/
def Pg.heldOn (x : Pg) (v : Nat) : Pg := { x with forced := if v = 0 then none else some v }

/-- What PG_FORCE makes of group `g`, which stands as `x`. -/
def State.pgForced (s : State) (g : Nat) (x : Pg) (v : Nat) : State :=
  let t := { s with pgs := Tab.set s.pgs g (x.heldOn v) }
  if v = 0 then t.pgEval g else if x.onBackup == (v == 2) then t else t.pgMove g (v == 2)

/-- Whether a group is on its backup after PG_FORCE: as ARG2 says, or by its links. -/
def State.pgForcedSide (s : State) (x : Pg) (v : Nat) : Bool :=
  if v = 2 then true else if v = 1 then false else s.pgAutoSide x

theorem State.pgForced_placed (s : State) (g : Nat) (x : Pg) {v : Nat} (hv : v ≤ 2) :
    s.PgPlaced (s.pgForced g x v) g (x.heldOn v) (s.pgForcedSide x v) := by
  have h : s.PgPlaced { s with pgs := Tab.set s.pgs g (x.heldOn v) } g (x.heldOn v) x.onBackup := .of_set rfl
  unfold State.pgForced
  dsimp only
  split
  · next h0 =>
    subst h0
    exact h.pgEval rfl
  · next h0 =>
    have hs : s.pgForcedSide x v = (v == 2) := by
      obtain rfl | rfl : v = 1 ∨ v = 2 := by omega
      · rfl
      · rfl
    rw [hs]
    split
    · next he => exact eq_of_beq he ▸ h
    · exact h.pgMove _

/-- PG_FORCE of a group with no fenced port. -/
theorem exec_pgForce_open {s : State} {c : Cmd} {x : Pg} (hc : s.Ready 0x51 c) (hx : Tab.get? s.pgs c.target = some x)
    (hf : s.pgFenced c.target = false) (h2 : c.a2.toNat ≤ 2) : ∃ v, s.Quiet v ∧ exec (.pgForce c) s =
      .next ((v.pgForced c.target x c.a2.toNat).done c stOk ((v.pgForced c.target x c.a2.toNat).pgInUse c.target)) := by
  obtain ⟨v, hv, e⟩ := exec_of_command (i := .pgForce c) rfl hc
  refine ⟨v, hv, e.trans (congrArg Host.Outcome.next ?_)⟩
  dsimp only
  rw [hv.still.pgs, hx]
  simp only [hv.pgFenced, hf, Nat.not_lt.2 h2]
  rw [State.pgForced, hv.still.pgs]
  rfl

end Sys2Proof.Machine

namespace Sys2Proof.Proofs

open Sys2Proof.Machine

/-- Settles O29: PG_SET by where the group is put, PG_FORCE by where the group is held or goes by its links. -/
theorem protectionGroupsAreSetAndForced : Obligations.ProtectionGroupsAreSetAndForced := by
  unfold Obligations.ProtectionGroupsAreSetAndForced
  refine ⟨fun c s hc ht ha hb hfa hfb hfg => ?_, fun c x s hc hx hf h2 => ?_, fun c s hc hbad => ?_⟩
  · obtain ⟨v, hv, e⟩ := exec_pgSet_open hc ht ha hb hfa hfb hfg
    have hrefused : ∀ st, s.Answered (v.done c st) c st := fun st =>
      hv.answered (v.done_answered c st 0 0 0 hc.ring)
    refine ⟨fun hbusy => ⟨_, e, ?_⟩, fun hbusy =>
      ⟨fun (htaken : s.pgTaken c.target c.a0.toNat c.a1.toNat = true) => ⟨_, e, ?_⟩,
        fun (htaken : s.pgTaken c.target c.a0.toNat c.a1.toNat = false) => ?_⟩⟩
    · rw [if_pos hbusy]
      exact hrefused stBusy
    · rw [if_neg (Bool.eq_false_iff.1 hbusy), if_pos htaken]
      exact hrefused stNoSpace
    · rw [if_neg (Bool.eq_false_iff.1 hbusy), if_neg (Bool.eq_false_iff.1 htaken)] at e
      refine ⟨v, v.pgPut c.target c.a0.toNat c.a1.toNat, _, hv, e, State.done_answered _ c stOk 0 0 0 hc.ring,
        fun heq => ?_, fun hne => ?_, fun g hg => ?_⟩
      · rw [State.pgPut, if_pos (congrArg _ heq), State.pgErase_get?, if_pos rfl]
      · rw [State.pgPut, if_neg (fun h => hne (BitVec.eq_of_toNat_eq h))]
        obtain ⟨n, hg⟩ := (v.pgDefine_placed c.target c.a0.toNat c.a1.toNat).group
        rw [hv.portState, hv.portState] at hg
        exact ⟨_, hg, rfl, rfl, rfl, rfl⟩
      · rw [v.pgPut_other _ _ hg, hv.still.pgs]
  · obtain ⟨v, hv, e⟩ := exec_pgForce_open hc hx hf h2
    have hp := v.pgForced_placed c.target x h2
    have hs : v.pgForcedSide x c.a2.toNat = s.pgForcedSide x c.a2.toNat := by
      simp only [State.pgForcedSide, State.pgAutoSide, hv.portState]
    rw [hp.pgInUse] at e
    obtain ⟨n, hg⟩ := hp.group
    refine ⟨_, _, _, e, State.done_answered _ c stOk _ 0 0 hc.ring, hg, rfl, rfl, rfl, hs, fun k hk => ?_⟩
    rw [hp.others k hk, hv.still.pgs]
  · refine ⟨_, rfl, State.command_refused hc (fun v hv => ?_)⟩
    dsimp only
    rw [hv.still.pgs]
    rcases hbad with hnone | hlarge
    · rw [hnone]
    · cases Tab.get? s.pgs c.target with
      | none => rfl
      | some x => exact if_pos hlarge

end Sys2Proof.Proofs
end

section
/-!
PROOF. FLOW_ADD, FLOW_MODIFY and FLOW_DELETE: the handle that a new flow gets, and what the shadow bank of table 13
holds afterwards (R257–R260, R263).
-/

namespace Sys2Proof.Machine

/-! ### Commands that a virtual function may issue too (R101) -/

section
variable {s : State} {i : Instr} {op : Nat} {c : Cmd} {run : State → State}
  (hi : exec i s = .next (s.command op true c run)) (h : s.Stands op c)
include hi h

/-- A row that is a command of any function's answers what the command's own effect, after reports, answers. -/
theorem exec_of_stands : ∃ v, s.Quiet v ∧ exec i s = .next (run v) := by
  obtain ⟨v, hv, e⟩ := State.command_stands true run h (.inl rfl)
  exact ⟨v, hv, hi.trans (congrArg _ e)⟩

/-- Where the command's own effect, after reports, is `u` and a completion, the row answers from `u`. -/
theorem exec_answers {u : State} {st r0 r1 re : Nat}
    (k : ∀ v, s.Quiet v → ∃ w, u.Quiet w ∧ run v = w.done c st r0 r1 re) :
    ∃ t, exec i s = .next t ∧ u.Answered t c st r0 r1 re := by
  obtain ⟨v, hv, e⟩ := exec_of_stands hi h
  obtain ⟨w, hw, hd⟩ := k v hv
  exact ⟨_, e, hd ▸ hw.answered (w.done_answered c st r0 r1 re h.ring)⟩

/-- The same of a command that changes nothing but reports. -/
theorem exec_refuses {st r0 r1 re : Nat} (k : ∀ v, s.Quiet v → run v = v.done c st r0 r1 re) :
    ∃ t, exec i s = .next t ∧ s.Answered t c st r0 r1 re :=
  exec_answers hi h (fun v hv => ⟨v, hv, k v hv⟩)

end

/-! ### The flow table and what stands in a flow's way (R257–R263), after reports -/

/-- The state with shadow bank `l` of table 13. -/
def State.setFlows (s : State) (l : List Flow) : State := { s with tables := { s.tables with flowsShd := l } }

section
variable {s v : State} (h : s.Quiet v)
include h

theorem State.Quiet.issuer (c : Cmd) : v.issuer c = s.issuer c := h.ringFn c.ring

theorem State.Quiet.allFlows : v.allFlows = s.allFlows := by
  simp only [State.allFlows, State.flowBanks, h.still.tables]

theorem State.Quiet.flowHandles : v.flowHandles = s.flowHandles := by
  simp only [State.flowHandles, h.allFlows]

theorem State.Quiet.shadowFlow (k : Nat) : v.shadowFlow k = s.shadowFlow k := by
  simp only [State.shadowFlow, h.still.tables]

theorem State.Quiet.keyTaken (f : Flow) : v.keyTaken f = s.keyTaken f := by
  simp only [State.keyTaken, h.allFlows]

theorem State.Quiet.flowHandle (f : Flow) : v.flowHandle f = s.flowHandle f := by
  simp only [State.flowHandle, h.flowHandles]

theorem State.Quiet.mayFlow (f k : Nat) : v.mayFlow f k = s.mayFlow f k := by
  simp only [State.mayFlow, h.allFlows]

theorem State.Quiet.memberOf (k : Nat) : v.memberOf k = s.memberOf k := by
  simp only [State.memberOf, h.still.merges]

theorem State.Quiet.candOf (merge : Bool) (id : Nat) : v.candOf merge id = s.candOf merge id := by
  simp only [State.candOf, h.still.cuts]

theorem State.Quiet.inGroup (k : Nat) : v.inGroup k = s.inGroup k := by
  simp only [State.inGroup, h.memberOf, h.candOf]

theorem State.Quiet.linkBad (f : Flow) (own : Option Nat) (owner : Nat) :
    v.linkBad f own owner = s.linkBad f own owner := by
  simp only [State.linkBad, h.shadowFlow, h.still.tables]

theorem State.Quiet.resWithout (own : Option Nat) (p : Nat) : v.resWithout own p = s.resWithout own p := by
  simp only [State.resWithout, State.resSum, State.charge, h.flowHandles, h.allFlows]

theorem State.Quiet.portRoom (own : Option Nat) (p r : Nat) : v.portRoom own p r = s.portRoom own p r := by
  have hg : v.pgWithout own p = s.pgWithout own p := by
    simp only [State.pgWithout, h.still.pgs, h.resWithout]
  have hb : v.budget p = s.budget p := by
    simp only [State.budget, State.portMode, h.getF TIL_PORT_CFG.MODE p (by decide),
      h.getF TIL_MED_BUDGET.CL6_PCT p (by decide)]
  rw [State.portRoom, State.portRoom, h.resWithout, hg, hb]

theorem State.Quiet.portEnabled (p : Nat) : v.portEnabled p = s.portEnabled p := by
  rw [State.portEnabled, State.portEnabled, h.isF TIL_PORT_CFG.ENABLE p (by decide), h.portState]

theorem State.Quiet.backupShort (own : Option Nat) (p r : Nat) : v.backupShort own p r = s.backupShort own p r := by
  simp only [State.backupShort, h.still.pgs, h.portRoom]

theorem State.Quiet.admitFlow (f owner : Nat) (own : Option Nat) (x : Flow) :
    v.admitFlow f owner own x = s.admitFlow f owner own x := by
  simp only [State.admitFlow, h.granted, (h.still.fns f).1, State.flowsOf, h.allFlows, h.linkBad, h.shadowFlow,
    h.portEnabled, h.portRoom, h.backupShort]
  rfl

/-- The same change of the shadow bank on both sides of reports. -/
theorem State.Quiet.mapFlows (g : List Flow → List Flow) :
    (s.setFlows (g s.tables.flowsShd)).Quiet (v.setFlows (g v.tables.flowsShd)) := by
  rw [State.setFlows, State.setFlows, h.still.tables]
  exact h.put_tables _

/-- The same new flow on both sides of reports: what it does to counters only reports show. -/
theorem State.Quiet.addFlow (f : Flow) : (s.addFlow f).Quiet (v.addFlow f) := by
  have hq := ((h.put_tables { s.tables with flowsShd := s.tables.flowsShd ++ [f] }).put_flowRt
    (Tab.erase s.flowRt f.handle)).trans (State.counters_quiet _ (v.addFlow f).counters)
  have hs := (State.counters_quiet (s.addFlow f) s.counters).trans hq
  simp only [State.addFlow, h.still.tables, h.still.flowRt] at hs ⊢
  exact hs

end

/-! ### The handle of a new flow (R257) -/

theorem freeHandle_lt (used : List Nat) : ∀ (k : Nat) {h : Nat}, h < 65535 → freeHandle used k h < 65535
  | 0, _, hh => hh
  | k + 1, h, hh => by
    rw [freeHandle]
    split
    · exact freeHandle_lt used k (Nat.mod_lt _ (by decide))
    · exact hh

/-- A search that ends at a used handle has met used handles only. -/
theorem used_of_freeHandle_used {used : List Nat} : ∀ (k : Nat) {h : Nat}, h < 65535 →
    freeHandle used k h ∈ used → ∀ i < k, (h + i) % 65535 ∈ used
  | 0, _, _, _ => fun _ hi => absurd hi (Nat.not_lt_zero _)
  | k + 1, h, hh, hu => by
    rw [freeHandle] at hu
    split at hu
    · next hc =>
      rintro (_ | i) hi
      · rw [Nat.add_zero, Nat.mod_eq_of_lt hh]
        exact List.contains_iff_mem.1 hc
      · have hmet := used_of_freeHandle_used k (Nat.mod_lt _ (by decide)) hu i (Nat.lt_of_succ_lt_succ hi)
        rwa [Nat.mod_add_mod, Nat.add_right_comm, Nat.add_assoc] at hmet
    · next hc => exact absurd (List.contains_iff_mem.2 hu) hc

/-- A search that is longer than the list of used handles ends at a free one: the handles that it meets differ. -/
theorem freeHandle_not_mem {used : List Nat} {k h : Nat} (hh : h < 65535) (hk : k ≤ 65535) (hlen : used.length < k) :
    freeHandle used k h ∉ used := by
  intro hu
  have hmet := used_of_freeHandle_used k hh hu
  have hdiff : ((List.range k).map (fun i => (h + i) % 65535)).Nodup :=
    List.Nodup.map_on (fun i hi j hj e => by
      have := List.mem_range.1 hi
      have := List.mem_range.1 hj
      omega) List.nodup_range
  have hsub : (List.range k).map (fun i => (h + i) % 65535) ⊆ used := fun x hx => by
    obtain ⟨i, hi, rfl⟩ := List.mem_map.1 hx
    exact hmet i (List.mem_range.1 hi)
  have hle := (List.subperm_of_subset hdiff hsub).length_le
  rw [List.length_map, List.length_range] at hle
  omega

theorem State.flowHandle_free {s : State} (f : Flow) (hn : s.flowHandles.length < 2047) :
    s.flowHandle f < 65535 ∧ s.flowHandle f ∉ s.flowHandles :=
  ⟨freeHandle_lt _ _ (Nat.mod_lt _ (by decide)),
    freeHandle_not_mem (Nat.mod_lt _ (by decide)) (by omega) (Nat.lt_succ_self _)⟩

/-! ### The shadow bank of table 13 (R258) -/

/-- A handle that no bank uses stands for no shadow record. -/
theorem State.shadowFlow_of_free {s : State} {h : Nat} (hf : h ∉ s.flowHandles) : s.shadowFlow h = none := by
  refine List.find?_eq_none.2 (fun f hfl he => hf ?_)
  exact List.mem_eraseDups.2 (List.mem_map.2 ⟨f, List.mem_append_left _ hfl, eq_of_beq he⟩)

theorem State.shadowFlow_addFlow (s : State) (f : Flow) (k : Nat) :
    (s.addFlow f).shadowFlow k = (s.shadowFlow k).or (if f.handle = k then some f else none) := by
  refine List.find?_append.trans (congrArg _ ?_)
  by_cases hk : f.handle = k <;> simp [hk]

/-- The record `f` in the place of the one with its handle. -/
def replaceFlow (f x : Flow) : Flow := if x.handle = f.handle then f else x

theorem replaceFlow_handle (f x : Flow) : (replaceFlow f x).handle = x.handle := by
  unfold replaceFlow
  split
  · next h => exact h.symm
  · rfl

theorem State.shadowFlow_replace (s : State) (f : Flow) (k : Nat) :
    (s.setFlows (s.tables.flowsShd.map (replaceFlow f))).shadowFlow k = (s.shadowFlow k).map (replaceFlow f) := by
  refine List.find?_map.trans (congrArg (fun p => (s.tables.flowsShd.find? p).map (replaceFlow f)) ?_)
  funext x
  exact congrArg (· == k) (replaceFlow_handle f x)

theorem State.handle_of_shadowFlow {s : State} {k : Nat} {f : Flow} (h : s.shadowFlow k = some f) : f.handle = k :=
  eq_of_beq (List.find?_some (p := fun x : Flow => x.handle == k) h)

theorem State.shadowFlow_replace_other (s : State) {f : Flow} {k : Nat} (hk : k ≠ f.handle) :
    (s.setFlows (s.tables.flowsShd.map (replaceFlow f))).shadowFlow k = s.shadowFlow k := by
  rw [State.shadowFlow_replace]
  cases h : s.shadowFlow k with
  | none => rfl
  | some x =>
    have hx := State.handle_of_shadowFlow h
    exact congrArg some (if_neg (fun e => hk (hx.symm.trans e)))

theorem State.shadowFlow_remove (s : State) (h k : Nat) :
    (s.setFlows (s.tables.flowsShd.filter (fun x => x.handle != h))).shadowFlow k =
      if k = h then none else s.shadowFlow k := by
  refine List.find?_filter.trans ?_
  split
  · next hk => exact List.find?_eq_none.2 (fun x _ => by simp [hk])
  · next hk =>
    refine congrArg (fun p => s.tables.flowsShd.find? p) (funext fun x => ?_)
    by_cases hx : x.handle = k <;> simp [hx, hk]

end Sys2Proof.Machine

namespace Sys2Proof.Proofs

open Sys2Proof.Machine

/-- Settles O30: each command by what refuses it, or by the one record of the shadow bank that it changes. -/
theorem flowsAreAddedModifiedAndDeleted : Obligations.FlowsAreAddedModifiedAndDeleted := by
  unfold Obligations.FlowsAreAddedModifiedAndDeleted
  refine ⟨fun c s hc hok hb => ?_, fun c s hc hok => ?_,
    fun c s hc hok hb hk => ⟨fun r hr => ?_, fun hr hn => ?_⟩,
    fun c old s hc hok hm hb hg ho hkey => ?_,
    fun c s hc hm hb hg hl hs => ?_, fun c s hm => ⟨fun hc hok => ?_, fun hc => ?_⟩⟩
  · exact exec_refuses rfl hc (fun v hv => by simp [hok, hv.tblBusy, hb])
  · exact exec_refuses rfl hc (fun v _ => by simp [hok])
  · exact exec_refuses rfl hc (fun v hv => by
      simp [hok, hv.tblBusy, hb, hv.issuer, hv.keyTaken, hk, hv.admitFlow, hr])
  · obtain ⟨hlt, hfree⟩ := State.flowHandle_free (cmdFlow c (s.issuer c) 0) hn
    obtain ⟨t, e, ha⟩ := exec_answers (i := .flowAdd c)
      (u := s.addFlow (cmdFlow c (s.issuer c) (s.flowHandle (cmdFlow c (s.issuer c) 0)))) rfl hc
      (st := stOk) (r0 := s.flowHandle (cmdFlow c (s.issuer c) 0)) (r1 := 0) (re := 0)
      (fun v hv => ⟨_, hv.addFlow _, by
        have hroom : ¬ 65535 ≤ s.flowHandles.length ∧ ¬ 2047 ≤ s.flowHandles.length := by omega
        simp only [hok, hv.tblBusy, hb, hv.issuer, hv.keyTaken, hk, hv.admitFlow, hr, hv.flowHandles, hroom,
          hv.flowHandle, false_and, or_self, if_false]
        rfl⟩)
    refine ⟨_, t, _, e, ha, hlt, hfree, ?_, fun k hk => ?_, rfl, fun k hk => ?_⟩
    · rw [State.shadowFlow_addFlow, State.shadowFlow_of_free hfree]
      exact if_pos rfl
    · exact (State.shadowFlow_addFlow _ _ _).trans ((congrArg _ (if_neg (Ne.symm hk))).trans Option.or_none)
    · exact (Tab.get?_erase _ _ _).trans (if_neg hk)
  · have hgroup : (!(cmdFlow c (s.issuer c) c.a0.toNat).rtp && s.inGroup c.a0.toNat) = false := by
      rcases hg with hg | hg
      · simp [show (cmdFlow c (s.issuer c) c.a0.toNat).rtp = true from hg]
      · rw [hg, Bool.and_false]
    have hkey' : (old.key != (cmdFlow c (s.issuer c) c.a0.toNat).key) = false := bne_eq_false_iff_eq.2 hkey
    refine ⟨fun r hr => exec_refuses rfl hc (fun v hv => ?_), fun hr => ?_⟩
    · simp [hok, hv.issuer, hv.mayFlow, hm, hv.tblBusy, hb, hv.inGroup, hgroup, hv.shadowFlow, ho, hkey',
        hv.admitFlow, hr]
    · obtain ⟨t, e, ha⟩ := exec_answers (i := .flowModify c)
        (u := s.setFlows (s.tables.flowsShd.map (replaceFlow (cmdFlow c old.owner c.a0.toNat)))) rfl hc
        (st := stOk) (r0 := 0) (r1 := 0) (re := 0) (fun v hv => ⟨_, hv.mapFlows (List.map _), by
          simp only [hok, hv.issuer, hv.mayFlow, hm, hv.tblBusy, hb, hv.inGroup, Bool.false_or, hgroup,
            hv.shadowFlow, ho, hkey', hv.admitFlow, hr]
          rfl⟩)
      refine ⟨_, t, e, ha, rfl, rfl, ?_, fun k hk => State.shadowFlow_replace_other s hk⟩
      rw [State.shadowFlow_replace, ho]
      exact congrArg some (if_pos (State.handle_of_shadowFlow ho))
  · have hlink : (c.a0.toNat != 0xFFFF &&
        s.allFlows.any (fun f => f.handle != c.a0.toNat && f.link == c.a0.toNat)) = false :=
      Bool.and_eq_false_imp.2 (fun _ => List.any_eq_false.2 (fun f hf => by simpa using hl f hf))
    obtain ⟨t, e, ha⟩ := exec_answers (i := .flowDelete c)
      (u := s.setFlows (s.tables.flowsShd.filter (fun x => x.handle != c.a0.toNat))) rfl hc
      (st := stOk) (r0 := 0) (r1 := 0) (re := 0) (fun v hv => ⟨_, hv.mapFlows (List.filter _), by
        simp only [hv.issuer, hv.mayFlow, hm, hv.tblBusy, hb, hv.inGroup, hg, hv.allFlows, hlink, hv.shadowFlow,
          Option.isNone_eq_false_iff.2 (Option.isSome_iff_ne_none.2 hs)]
        rfl⟩)
    exact ⟨_, t, e, ha, rfl, rfl, (State.shadowFlow_remove _ _ _).trans (if_pos rfl),
      fun k hk => (State.shadowFlow_remove _ _ _).trans (if_neg hk)⟩
  · exact exec_refuses rfl hc (fun v hv => by simp [hok, hv.issuer, hv.mayFlow, hm])
  · exact exec_refuses rfl hc (fun v hv => by simp [hv.issuer, hv.mayFlow, hm])

end Sys2Proof.Proofs
end

section
/-!
PROOF. MERGE_SET, CUT_GROUP_SET and CUT_SELECT: what waits for its tick in the one group named (R271, R272, R278, R279,
R281).
-/

namespace Sys2Proof.Machine

/-! ### Merge and cut groups (R271, R279), after reports -/

section
variable {s v : State} (h : s.Quiet v)
include h

theorem State.Quiet.merge (g : Nat) : v.merge g = s.merge g := by simp only [State.merge, h.still.merges]

theorem State.Quiet.cut (g : Nat) : v.cut g = s.cut g := by simp only [State.cut, h.still.cuts]

/-- The same change of one merge group, or of one cut group, on both sides of reports. -/
theorem State.Quiet.upMerge (g : Nat) (f : Merge → Merge) : (s.upMerge g f).Quiet (v.upMerge g f) := by
  rw [State.upMerge, State.upMerge, h.still.merges]
  exact h.put_merges _

theorem State.Quiet.upCut (g : Nat) (f : Cut → Cut) : (s.upCut g f).Quiet (v.upCut g f) := by
  rw [State.upCut, State.upCut, h.still.cuts]
  exact h.put_cuts _

theorem State.Quiet.mergeLive (g : Nat) : v.mergeLive g = s.mergeLive g := by
  simp only [State.mergeLive, h.merge]

theorem State.Quiet.mayMerge (f g : Nat) (l : List Nat) : v.mayMerge f g l = s.mayMerge f g l := by
  simp only [State.mayMerge, h.mergeLive, h.merge, h.mayFlow]

theorem State.Quiet.membersOk (f g : Nat) (l : List Nat) : v.membersOk f g l = s.membersOk f g l := by
  simp only [State.membersOk, h.shadowFlow, h.memberOf, h.candOf]

theorem State.Quiet.mergesOf (f g : Nat) : v.mergesOf f g = s.mergesOf f g := by
  simp only [State.mergesOf, h.mergeLive, h.still.merges]

theorem State.Quiet.cutLive (g : Nat) : v.cutLive g = s.cutLive g := by
  simp only [State.cutLive, h.cut]

theorem State.Quiet.candFlows (w : List Word) (k : Nat) : v.candFlows w k = s.candFlows w k := by
  simp only [State.candFlows, h.merge]

theorem State.Quiet.candOk (g : Nat) (w : List Word) (k : Nat) : v.candOk g w k = s.candOk g w k := by
  simp only [State.candOk, h.candFlows, h.memberOf, h.candOf, h.shadowFlow]

theorem State.Quiet.mayCut (f g : Nat) (w : List Word) : v.mayCut f g w = s.mayCut f g w := by
  simp only [State.mayCut, h.cutLive, h.cut, h.candFlows, h.mayFlow]

theorem State.Quiet.cutPinned (g : Nat) (w : List Word) : v.cutPinned g w = s.cutPinned g w := by
  simp only [State.cutPinned, h.cut]

theorem State.Quiet.cutsOf (f g : Nat) : v.cutsOf f g = s.cutsOf f g := by
  simp only [State.cutsOf, h.cutLive, h.still.cuts]

theorem State.Quiet.cutRecordAt (g n : Nat) : v.cutRecordAt g n = s.cutRecordAt g n := by
  simp only [State.cutRecordAt, h.cut]

theorem State.Quiet.maySelect (f g : Nat) : v.maySelect f g = s.maySelect f g := by
  simp only [State.maySelect, h.cutLive, h.cut]

theorem State.Quiet.paired : v.paired = s.paired := h.isF GLB_PAIR_CFG.PAIR_EN 0 (by decide)

end

/-! ### What is scheduled (R272, R279, R281) -/

/-- Member list `l` scheduled for merge group `g` by function `f`, which owns the group if it had no members. -/
def State.scheduleMembers (s : State) (f g : Nat) (l : List Nat) : State :=
  s.upMerge g (fun x => { x with
    owner := if s.mergeLive g then (s.merge g).owner else f
    next := some (l, s.openTick 0) })

/-- Record `w` scheduled for cut group `g` by function `f`, which owns the group if it had no candidates. -/
def State.scheduleCut (s : State) (f g : Nat) (w : List Word) : State :=
  s.upCut g (fun x => { x with
    owner := if s.cutLive g then (s.cut g).owner else f
    next := some (w, s.openTick 0) })

/-- The selection of candidate `k` scheduled for cut group `g` at frame count `n`. -/
def State.scheduleSelect (s : State) (g k n : Nat) : State := s.upCut g (fun x => { x with sel := some (k, n) })

/-- The active device of a pair forwards a selection to the other (R476). -/
def State.tellSelect (s : State) (g k n : Nat) : State :=
  if s.getF GLB_PAIR_STAT.STATE == 2 then s.emit (.pairControl g k n) else s

theorem State.merge_scheduleMembers (s : State) (f g : Nat) (l : List Nat) :
    (s.scheduleMembers f g l).merge g = { s.merge g with
      owner := if s.mergeLive g then (s.merge g).owner else f
      next := some (l, s.openTick 0) } :=
  State.merge_upMerge_same _ _ _

theorem State.cut_scheduleCut (s : State) (f g : Nat) (w : List Word) :
    (s.scheduleCut f g w).cut g = { s.cut g with
      owner := if s.cutLive g then (s.cut g).owner else f
      next := some (w, s.openTick 0) } :=
  State.cut_upCut_same _ _ _

theorem State.cut_scheduleSelect (s : State) (g k n : Nat) :
    (s.scheduleSelect g k n).cut g = { s.cut g with sel := some (k, n) } :=
  State.cut_upCut_same _ _ _

section
variable {s v : State} (h : s.Quiet v)
include h

theorem State.Quiet.scheduleMembers (f g : Nat) (l : List Nat) :
    (s.scheduleMembers f g l).Quiet (v.scheduleMembers f g l) := by
  rw [State.scheduleMembers, State.scheduleMembers, h.mergeLive, h.merge, h.openTick]
  exact h.upMerge g _

theorem State.Quiet.scheduleCut (f g : Nat) (w : List Word) : (s.scheduleCut f g w).Quiet (v.scheduleCut f g w) := by
  rw [State.scheduleCut, State.scheduleCut, h.cutLive, h.cut, h.openTick]
  exact h.upCut g _

theorem State.Quiet.scheduleSelect (g k n : Nat) : (s.scheduleSelect g k n).Quiet (v.scheduleSelect g k n) :=
  h.upCut g _

end

theorem State.tellSelect_quiet (s : State) (g k n : Nat) : s.Quiet (s.tellSelect g k n) := by
  unfold State.tellSelect
  split
  · exact s.emit_quiet _
  · exact .refl s

theorem State.tellSelect_active {s : State} (h : s.getF GLB_PAIR_STAT.STATE = 2) (g k n : Nat) :
    s.tellSelect g k n = s.emit (.pairControl g k n) := if_pos (beq_iff_eq.2 h)

/-- The PF, a change that takes all members away, a group that is live already, and a function that holds fewer groups than
its quota (R103) are not refused for want of room. -/
theorem quota_admits {f q n : Nat} {gone live : Bool} (h : f = 0 ∨ gone = true ∨ live = true ∨ n < q) :
    (f != 0 && !gone && !live && decide (q ≤ n)) = false := by
  rcases h with h | h | h | h <;> simp [h]

/-! ### The commands, once their operands fit and their issuer may give them -/

/-- MERGE_SET: BUSY, NOSPACE, or the list is scheduled. -/
theorem exec_mergeSet_fits {s : State} {c : Cmd} {l : List Nat} (hc : s.Stands 0x23 c) (hl : memberList c = some l)
    (hg : c.target < 8192) (hm : s.mayMerge (s.issuer c) c.target l = true)
    (hok : s.membersOk (s.issuer c) c.target l = true) :
    ∃ v, s.Quiet v ∧ exec (.mergeSet c) s = .next (
      if (s.merge c.target).next.isSome then v.done c stBusy
      else if s.issuer c != 0 && !l.isEmpty && !s.mergeLive c.target &&
          decide ((s.fn (s.issuer c)).grant.merges ≤ s.mergesOf (s.issuer c) c.target) then v.done c stNoSpace
      else (v.scheduleMembers (s.issuer c) c.target l).done c stOk) := by
  obtain ⟨v, hv, e⟩ := exec_of_stands (i := .mergeSet c) rfl hc
  refine ⟨v, hv, e.trans (congrArg Host.Outcome.next ?_)⟩
  simp only [hl, Nat.not_le.2 hg, hv.issuer, hv.mayMerge, hm, hv.membersOk, hok, hv.merge, hv.mergeLive,
    (hv.still.fns _).1, hv.mergesOf, State.scheduleMembers]
  rfl

/-- CUT_GROUP_SET: BUSY, NOSPACE, or the record is scheduled. -/
theorem exec_cutGroupSet_fits {s : State} {c : Cmd} (hc : s.Stands 0x24 c) (hg : c.target < 4096)
    (hi : c.indirect = true) (hlen : c.dataLen = 64) (hm : s.mayCut (s.issuer c) c.target (toWords 16 c.data) = true)
    (hok : ∀ k, k < 4 → s.candOk c.target (toWords 16 c.data) k = true) :
    ∃ v, s.Quiet v ∧ exec (.cutGroupSet c) s = .next (
      if (s.cut c.target).next.isSome || s.cutPinned c.target (toWords 16 c.data) then v.done c stBusy
      else if s.issuer c != 0 && cutHasCands (toWords 16 c.data) && !s.cutLive c.target &&
          decide ((s.fn (s.issuer c)).grant.cuts ≤ s.cutsOf (s.issuer c) c.target) then v.done c stNoSpace
      else (v.scheduleCut (s.issuer c) c.target (toWords 16 c.data)).done c stOk) := by
  obtain ⟨v, hv, e⟩ := exec_of_stands (i := .cutGroupSet c) rfl hc
  refine ⟨v, hv, e.trans (congrArg Host.Outcome.next ?_)⟩
  have hcands : (List.range 4).all (fun k => s.candOk c.target (toWords 16 c.data) k) = true :=
    List.all_eq_true.2 (fun k hk => hok k (List.mem_range.1 hk))
  simp only [Nat.not_le.2 hg, hi, hlen, hv.issuer, hv.mayCut, hm, hv.candOk, hcands, hv.cut, hv.cutPinned,
    hv.cutLive, (hv.still.fns _).1, hv.cutsOf, State.scheduleCut]
  rfl

/-- CUT_SELECT whose frame count is judged as `a`: the selection is scheduled, or it is late. -/
def State.selectJudged (s : State) (c : Cmd) (a : Arming) : State :=
  match a with
  | .at n => ((s.scheduleSelect c.target c.a2.toNat n).tellSelect c.target c.a2.toNat n).done c stOk 0 (n % 4294967296)
  | _ => s.done c stPast

/-- CUT_SELECT: BUSY, or as its frame count is judged. -/
theorem exec_cutSelect_fits {s : State} {c : Cmd} {a : Arming} (hc : s.Stands 0x25 c) (hg : c.target < 4096)
    (h4 : c.a2.toNat ≤ 4) (hw : cutHasCands (s.cutRecordAt c.target (cmdFrameCount c)) = true)
    (hk : c.a2.toNat = 4 ∨ candValid (s.cutRecordAt c.target (cmdFrameCount c)) c.a2.toNat = true)
    (hm : s.maySelect (s.issuer c) c.target = true) (hp : s.getF GLB_PAIR_STAT.STATE ≠ 3)
    (ha : s.arming (cmdFrameCount c) c.lateOk (if s.paired then 20 else 0) = a) (hbad : a ≠ .bad) :
    ∃ v, s.Quiet v ∧ exec (.cutSelect c) s = .next (
      if (s.cut c.target).sel.isSome then v.done c stBusy else v.selectJudged c a) := by
  obtain ⟨v, hv, e⟩ := exec_of_stands (i := .cutSelect c) rfl hc
  refine ⟨v, hv, e.trans (congrArg Host.Outcome.next ?_)⟩
  have hcand : (c.a2.toNat != 4 && !candValid (s.cutRecordAt c.target (cmdFrameCount c)) c.a2.toNat) = false := by
    rcases hk with hk | hk <;> simp [hk]
  have hpair : (v.getF GLB_PAIR_STAT.STATE == 3) = false := by
    rw [hv.getF GLB_PAIR_STAT.STATE 0 (by decide)]
    exact beq_eq_false_iff_ne.2 hp
  simp only [Nat.not_le.2 hg, Nat.not_lt.2 h4, hv.cutRecordAt, hw, hcand, hv.paired, hv.arming, ha, hv.issuer,
    hv.maySelect, hm, hv.cut, hpair, Bool.or_false]
  rcases a with n | _ | _
  · rfl
  · rfl
  · exact absurd rfl hbad

/-- A selection that is scheduled is answered, and forwarded where the device is the active one of a pair. -/
theorem State.selectJudged_at {s v : State} (hv : s.Quiet v) {c : Cmd} (hc : c.ring < 256) (n : Nat) :
    (s.scheduleSelect c.target c.a2.toNat n).Answered (v.selectJudged c (.at n)) c stOk 0 (n % 4294967296) ∧
    (s.getF GLB_PAIR_STAT.STATE = 2 →
      Out.pairControl c.target c.a2.toNat n ∈ (v.selectJudged c (.at n)).out.drop s.out.length) := by
  have hq := hv.scheduleSelect c.target c.a2.toNat n
  have hd := ((v.scheduleSelect c.target c.a2.toNat n).tellSelect c.target c.a2.toNat n).done_answered c stOk 0
    (n % 4294967296) 0 hc
  refine ⟨(hq.trans (State.tellSelect_quiet _ _ _ _)).answered hd, fun hact => ?_⟩
  have hactive : (v.scheduleSelect c.target c.a2.toNat n).getF GLB_PAIR_STAT.STATE = 2 :=
    (hv.getF GLB_PAIR_STAT.STATE 0 (by decide)).trans hact
  rw [State.tellSelect_active hactive] at hd
  rw [State.selectJudged, State.tellSelect_active hactive]
  exact hq.still.emitted hd.still

end Sys2Proof.Machine

namespace Sys2Proof.Proofs

open Sys2Proof.Machine

/-- Settles O31: each command by what refuses it, or by the one group in which something then waits for its tick. -/
theorem mergeAndCutRecordsAreScheduledForATick : Obligations.MergeAndCutRecordsAreScheduledForATick := by
  unfold Obligations.MergeAndCutRecordsAreScheduledForATick
  refine ⟨fun c l s hc hl hg hm hok => ?_, fun c s hc hg hi hlen hm hok => ?_,
    fun c s hc hg h4 hw hk hm hp => ⟨fun n ha => ?_, fun ha hs => ?_⟩⟩
  · obtain ⟨v, hv, e⟩ := exec_mergeSet_fits hc hl hg hm hok
    refine ⟨fun hn => ⟨_, e, ?_⟩, fun hn hq => ?_⟩
    · rw [if_pos (Option.isSome_iff_ne_none.2 hn)]
      exact hv.answered (v.done_answered c stBusy 0 0 0 hc.ring)
    · rw [hn, quota_admits (hq.imp_right (Or.imp_left List.isEmpty_iff.2))] at e
      have hx := s.merge_scheduleMembers (s.issuer c) c.target l
      exact ⟨_, _, e, (hv.scheduleMembers _ _ _).answered (State.done_answered _ c stOk 0 0 0 hc.ring), rfl,
        congrArg Merge.next hx, (congrArg Merge.members hx :), congrArg Merge.owner hx,
        fun g hne => State.merge_upMerge_other s _ hne⟩
  · obtain ⟨v, hv, e⟩ := exec_cutGroupSet_fits hc hg hi hlen hm hok
    have hbusy := hv.answered (v.done_answered c stBusy 0 0 0 hc.ring)
    refine ⟨fun hn => ⟨_, e, ?_⟩, fun hpin => ⟨_, e, ?_⟩, fun hn hpin hq => ?_⟩
    · rwa [Option.isSome_iff_ne_none.2 hn]
    · rwa [hpin, Bool.or_true]
    · have hquota := quota_admits (hq.imp_right (Or.imp_left (congrArg Bool.not)))
      rw [Bool.not_not] at hquota
      rw [hn, hpin, hquota] at e
      have hx := s.cut_scheduleCut (s.issuer c) c.target (toWords 16 c.data)
      exact ⟨_, _, e, (hv.scheduleCut _ _ _).answered (State.done_answered _ c stOk 0 0 0 hc.ring), rfl,
        congrArg Cut.next hx, (congrArg Cut.words hx :), (congrArg Cut.state hx :),
        fun g hne => State.cut_upCut_other s _ hne⟩
  · obtain ⟨v, hv, e⟩ := exec_cutSelect_fits hc hg h4 hw hk hm hp ha (by simp)
    refine ⟨fun hs => ⟨_, e, ?_⟩, fun hs => ?_⟩
    · rw [if_pos (Option.isSome_iff_ne_none.2 hs)]
      exact hv.answered (v.done_answered c stBusy 0 0 0 hc.ring)
    · rw [hs] at e
      obtain ⟨hans, hsent⟩ := State.selectJudged_at hv hc.ring n
      have hx := s.cut_scheduleSelect c.target c.a2.toNat n
      exact ⟨_, _, e, hans, rfl, congrArg Cut.sel hx, (congrArg Cut.words hx :),
        fun g hne => State.cut_upCut_other s _ hne, hsent⟩
  · obtain ⟨v, hv, e⟩ := exec_cutSelect_fits hc hg h4 hw hk hm hp ha (by simp)
    rw [hs] at e
    exact ⟨_, e, hv.answered (v.done_answered c stPast 0 0 0 hc.ring)⟩

end Sys2Proof.Proofs
end

section
/-!
PROOF. The state after reset: time stands, and BOOT_HOLD keeps every safety-related output safe (R293, R437).
-/

namespace Sys2Proof.Machine

/-- BOOT_HOLD is latched by reset, and its reaction is that of QUENCH (R437, R438). -/
theorem State.reset_quenchOn : State.reset.quenchOn = true := by decide +kernel

theorem State.tickQuenched_of_quenchOn {s : State} (h : s.quenchOn = true) (n : Nat) : s.tickQuenched n = true := by
  simp [State.tickQuenched, h]

theorem State.clkQuenched_of_quenchOn {s : State} (h : s.quenchOn = true) (n : Nat) : s.clkQuenched n = true := by
  simp [State.clkQuenched, h]

end Sys2Proof.Machine

namespace Sys2Proof.Proofs

open Sys2Proof.Machine

/-- Settles O8: the fields as reset leaves them; BOOT_HOLD's QUENCH idles every pin. -/
theorem resetHoldsTimeStillAndOutputsSafe : Obligations.ResetHoldsTimeStillAndOutputsSafe := by
  unfold Obligations.ResetHoldsTimeStillAndOutputsSafe
  refine ⟨rfl, rfl, rfl, rfl, rfl, rfl, rfl, by decide, by decide, fun n => ?_, by decide +kernel, rfl⟩
  exact ⟨State.tickQuenched_of_quenchOn State.reset_quenchOn n, State.clkQuenched_of_quenchOn State.reset_quenchOn n⟩

end Sys2Proof.Proofs
end

section
/-!
PROOF. The writes of SOFTWARE mode, CAPTURE and the end of a slew (R301–R303, R311, R327).
-/

namespace Sys2Proof.Machine

/-! ### TCLK edges and the slew (R295, R303) -/

theorem lt_ceilDiv_iff {a b j : Nat} (hb : 0 < b) : j < ceilDiv a b ↔ b * j < a := by
  rw [ceilDiv, ← Nat.succ_le_iff, Nat.le_div_iff_mul_le hb, Nat.succ_mul, Nat.mul_comm]
  omega

/-- The most that the slew engine adds on one TCLK edge (R303). -/
def State.slewStep (s : State) : Nat := 4 * 4294967296 * s.slewPpb

theorem State.slewStep_pos (s : State) : 0 < s.slewStep := by
  unfold State.slewStep State.slewPpb clampN
  split
  · omega
  · split <;> omega

theorem State.slewOver_eq (s : State) (n : Nat) :
    s.slewOver n = clampI (-(s.slewStep * n : Nat)) (s.slewStep * n : Nat) s.time.adj := by
  simp [State.slewOver, State.slewStep]

/-- The slew is over after `n` edges exactly if what remains is no more than they may add. -/
theorem State.slewOver_eq_adj_iff (s : State) (n : Nat) :
    s.slewOver n = s.time.adj ↔ s.time.adj.natAbs ≤ s.slewStep * n := by
  rw [s.slewOver_eq n, clampI]
  split
  · omega
  · split <;> omega

theorem State.edges_time {s : State} (h : s.time.running = true) (n : Nat) : (s.edges n).time = { s.time with
    tclk := s.time.tclk + n
    a := s.time.a + ((s.time.inc : Int) * 1000000000 * n + s.slewOver n)
    b := s.time.b + ((s.time.inc : Int) * 1000000000 * n + s.slewOver n)
    adj := s.time.adj - s.slewOver n } := by
  rw [State.edges, if_pos h]

theorem State.edges_zero (s : State) : s.edges 0 = s := by
  have h0 : s.slewOver 0 = 0 := by
    rw [s.slewOver_eq 0, clampI]
    split
    · omega
    · split <;> omega
  unfold State.edges
  split
  · simp [h0]
  · rfl

theorem exec_slewEnd (s : State) : exec .slewEnd s = .next (s.edges (ceilDiv s.time.adj.natAbs s.slewStep)) := by
  have he : exec .slewEnd s = .next (if s.time.adj = 0 then s else s.edges (ceilDiv s.time.adj.natAbs s.slewStep)) := rfl
  rw [he]
  split
  · next h =>
    have h0 : ceilDiv s.time.adj.natAbs s.slewStep = 0 :=
      Nat.eq_zero_of_not_pos fun hp => by
        have hlt := (lt_ceilDiv_iff s.slewStep_pos).1 hp
        simp [h] at hlt
    rw [h0, s.edges_zero]
  · rfl

/-- The edges of SLEW_END are those at which something remains, and no more (R303). -/
theorem State.slewEnd_ends {s : State} (h : s.time.running = true) (k : Nat)
    (hk : k = ceilDiv s.time.adj.natAbs s.slewStep) :
    (s.edges k).time.adj = 0 ∧ (∀ j, j < k → (s.edges j).time.adj ≠ 0) ∧
    (s.edges k).time.a = s.time.a + (s.time.inc : Int) * 1000000000 * k + s.time.adj ∧
    (s.edges k).time.b = s.time.b + (s.time.inc : Int) * 1000000000 * k + s.time.adj := by
  have hall : s.slewOver k = s.time.adj := by
    rw [s.slewOver_eq_adj_iff, ← Nat.not_lt, ← lt_ceilDiv_iff s.slewStep_pos, hk]
    exact Nat.lt_irrefl _
  have hsome : ∀ j, j < k → s.slewOver j ≠ s.time.adj := fun j hj => by
    rw [hk, lt_ceilDiv_iff s.slewStep_pos] at hj
    rw [Ne, s.slewOver_eq_adj_iff]
    omega
  refine ⟨?_, fun j hj => ?_, ?_, ?_⟩
  · rw [State.edges_time h, hall]
    exact Int.sub_self _
  · rw [State.edges_time h]
    have := hsome j hj
    simp only
    omega
  · rw [State.edges_time h, hall, Int.add_assoc]
  · rw [State.edges_time h, hall, Int.add_assoc]

/-! ### The serving time (R327) -/

theorem State.nowNsec_lt (s : State) : s.nowNsec < 1000000000 := Nat.mod_lt _ (by decide)

theorem State.nowSec_lt (s : State) : s.nowSec < 281474976710656 := by
  have h : s.nowNs < 281474976710656000000000 := by
    have h1 := Int.emod_lt_of_pos (s.now / nsU) (b := 281474976710656000000000) (by decide)
    have h2 := Int.emod_nonneg (s.now / nsU) (b := 281474976710656000000000) (by decide)
    unfold State.nowNs
    omega
  unfold State.nowSec
  omega

theorem State.nowFrac_lt (s : State) : s.nowFrac < 4294967296 := by
  have h1 : s.now % nsU < 4294967296000000000 := Int.emod_lt_of_pos _ (by decide)
  have h2 : 0 ≤ s.now % nsU := Int.emod_nonneg _ (by decide)
  unfold State.nowFrac
  omega

theorem State.nowSec_setF (s : State) {f : Fld} (h : f.id ≠ TPL_TB_STAT.SERVING.id) (v i : Nat) :
    (s.setF f v i).nowSec = s.nowSec := by
  have hs : (s.setF f v i).now = s.now := by
    rw [State.now, s.isF_setF_ne f TPL_TB_STAT.SERVING v i 0 (Ne.symm h)]
    rfl
  rw [State.nowSec, State.nowNs, hs]
  rfl

/-- The serving time stored in TPL_TB_CAP (R327). -/
def State.captured (s : State) : State :=
  (((s.setF TPL_TB_CAP_FRAC.FRAC s.nowFrac).setF TPL_TB_CAP_NS.NS s.nowNsec).setF TPL_TB_CAP_SEC_LO.SEC
    (s.nowSec % 4294967296)).setF TPL_TB_CAP_SEC_HI.SEC (s.nowSec / 4294967296)

theorem exec_capture {p : Path} {s : State} (hp : s.pfMay p = true) (hr : s.time.running = true) :
    exec (.capture p) s = .next (s.edges 1).captured := by
  have he : exec (.capture p) s = execCapture p s := rfl
  rw [he, execCapture, if_neg (by simp [hp, hr])]
  dsimp only
  rw [State.nowSec_setF _ (by decide), State.nowSec_setF _ (by decide)]
  rfl

theorem exec_capture_held {p : Path} {s : State} (h : s.pfMay p = false ∨ s.time.running = false) :
    exec (.capture p) s = .next s := by
  have he : exec (.capture p) s = execCapture p s := rfl
  rw [he, execCapture, if_pos (by rcases h with h | h <;> simp [h])]

theorem State.captured_law (s : State) :
    s.captured.getF TPL_TB_CAP_NS.NS = s.nowNsec ∧ s.captured.getF TPL_TB_CAP_FRAC.FRAC = s.nowFrac ∧
    s.captured.getF TPL_TB_CAP_SEC_LO.SEC + s.captured.getF TPL_TB_CAP_SEC_HI.SEC * 4294967296 = s.nowSec ∧
    s.captured.isF TPL_TB_STAT.SERVING = s.isF TPL_TB_STAT.SERVING := by
  have hns := s.nowNsec_lt
  have hsec := s.nowSec_lt
  have hfrac := s.nowFrac_lt
  unfold State.captured
  refine ⟨?_, ?_, ?_, ?_⟩
  · rw [State.getF_setF_ne _ _ _ _ _ _ (by decide), State.getF_setF_ne _ _ _ _ _ _ (by decide), State.getF_setF_same]
    exact Nat.mod_eq_of_lt (Nat.lt_trans hns (by decide))
  · rw [State.getF_setF_ne _ _ _ _ _ _ (by decide), State.getF_setF_ne _ _ _ _ _ _ (by decide),
      State.getF_setF_ne _ _ _ _ _ _ (by decide), State.getF_setF_same]
    exact Nat.mod_eq_of_lt hfrac
  · rw [State.getF_setF_ne _ _ _ _ _ _ (by decide), State.getF_setF_same, State.getF_setF_same]
    have hw : TPL_TB_CAP_SEC_LO.SEC.width = 32 ∧ TPL_TB_CAP_SEC_HI.SEC.width = 16 := by decide
    rw [hw.1, hw.2]
    omega
  · simp only [State.isF_setF_ne _ _ _ _ _ _ (by decide : TPL_TB_STAT.SERVING.id ≠ TPL_TB_CAP_FRAC.FRAC.id),
      State.isF_setF_ne _ _ _ _ _ _ (by decide : TPL_TB_STAT.SERVING.id ≠ TPL_TB_CAP_NS.NS.id),
      State.isF_setF_ne _ _ _ _ _ _ (by decide : TPL_TB_STAT.SERVING.id ≠ TPL_TB_CAP_SEC_LO.SEC.id),
      State.isF_setF_ne _ _ _ _ _ _ (by decide : TPL_TB_STAT.SERVING.id ≠ TPL_TB_CAP_SEC_HI.SEC.id)]

/-! ### The writes of SOFTWARE mode (R301, R302, R311) -/

theorem exec_softwareWrites_held {p : Path} (v : Word) {s : State} (h : s.pfMay p = false ∨ s.time.software = false) :
    exec (.incNsWrite p v) s = .next s ∧ exec (.tplTbAdjWrite p v) s = .next s ∧ exec (.stepGo p) s = .next s := by
  refine ⟨?_, ?_, ?_⟩ <;> exact congrArg Host.Outcome.next (if_pos (by rcases h with h | h <;> simp [h]))

/-- A write of INC_NS commits the pair with INC_FRAC (R301). -/
def State.incCommitted (s : State) (n : Nat) : State :=
  { s.setF TPL_TB_INC_NS.INC_NS n with
    time := { s.time with incNext := some (n * 4294967296 + s.getF TPL_TB_INC_FRAC.INC_FRAC) } }

theorem exec_incNsWrite {p : Path} (v : Word) {s : State} (hp : s.pfMay p = true) (hs : s.time.software = true) :
    exec (.incNsWrite p v) s = .next (s.incCommitted (v.toNat % 256)) := by
  have he : exec (.incNsWrite p v) s = execIncNsWrite p v s := rfl
  rw [he, execIncNsWrite, if_neg (by simp [hp, hs])]
  dsimp only
  rw [State.getF_setF_ne _ _ TPL_TB_INC_FRAC.INC_FRAC _ _ _ (by decide)]
  rfl

theorem exec_tplTbAdjWrite {p : Path} (v : Word) {s : State} (hp : s.pfMay p = true) (hs : s.time.software = true) :
    exec (.tplTbAdjWrite p v) s =
      .next { s with time := { s.time with adj := s.time.adj + signed 32 v.toNat * psU } } :=
  congrArg Host.Outcome.next (if_neg (by simp [hp, hs]))

theorem exec_stepGo {p : Path} {s : State} (hp : s.pfMay p = true) (hs : s.time.software = true) :
    exec (.stepGo p) s = .next (if 1000000000 ≤ s.getF TPL_TB_STEP_NS.STEP_NS then s
      else s.setF TPL_TB_STAT.STEP_PENDING 1) := by
  have he : exec (.stepGo p) s = execStepGo p s := rfl
  rw [he, execStepGo]
  simp [hp, hs, Nat.lt_iff_add_one_le]

end Sys2Proof.Machine

namespace Sys2Proof.Proofs

open Sys2Proof.Machine

/-- Settles O35: each write by the register or the part of the time that it sets; SLEW_END passes just the edges needed. -/
theorem softwareModeWritesActOnTheTimebase : Obligations.SoftwareModeWritesActOnTheTimebase := by
  unfold Obligations.SoftwareModeWritesActOnTheTimebase
  refine ⟨fun p v s h => exec_softwareWrites_held v h, fun p v s hp hs => ⟨?_, exec_tplTbAdjWrite v hp hs, fun h => ?_,
    fun h => ?_⟩, fun p s h => exec_capture_held h, fun p s hp hr => ?_, fun s hr => ?_, fun s hr => ?_⟩
  · refine ⟨_, exec_incNsWrite v hp hs, ?_, rfl, fun f i hf => ?_⟩
    · exact (State.getF_setF_same s _ _ _).trans (Nat.mod_mod _ _)
    · exact s.getF_setF_ne _ _ _ _ _ hf
  · rw [exec_stepGo hp hs, if_neg (by omega)]
    refine ⟨_, rfl, ?_, rfl, fun f i hf => s.getF_setF_ne _ _ _ _ _ hf⟩
    rw [State.isF, State.getF_setF_same]
    rfl
  · rw [exec_stepGo hp hs, if_pos h]
  · obtain ⟨hns, hfrac, hsec, hserving⟩ := (s.edges 1).captured_law
    refine ⟨_, exec_capture hp hr, rfl, hns, ?_, hfrac, hsec, ?_⟩
    · rw [hns]
      exact State.nowNsec_lt _
    · rw [hserving, State.isF, State.getF, (s.edges_kept_time 1).only .regs (by decide)]
      rfl
  · rw [exec_slewEnd, State.edges_of_stopped hr]
  · exact ⟨_, _, exec_slewEnd s, rfl, State.slewEnd_ends hr _ rfl⟩

end Sys2Proof.Proofs
end

section
/-!
PROOF. PLLs that lock and lose lock, and the staged values that load together (R293, R383–R385, R388).
-/

namespace Sys2Proof.Machine

/-! ### What a fault leaves of the time -/

/-- The time is as it was, but for what a pending discontinuity record has reached (R307). -/
def State.TimeHeld (s t : State) : Prop := t.time = { s.time with disc := t.time.disc }

theorem State.TimeHeld.refl (s : State) : s.TimeHeld s := rfl

theorem State.TimeHeld.trans {s t u : State} (h : s.TimeHeld t) (k : t.TimeHeld u) : s.TimeHeld u := by
  unfold State.TimeHeld at *
  rw [k, h]

theorem State.TimeHeld.of_time {s t : State} (h : t.time = s.time) : s.TimeHeld t := by
  unfold State.TimeHeld
  rw [h]

theorem State.Raised.timeHeld {s t : State} (h : s.Raised t) : s.TimeHeld t := h.time.1

theorem State.TimeHeld.running {s t : State} (h : s.TimeHeld t) : t.time.running = s.time.running := by rw [h]
theorem State.TimeHeld.syncs {s t : State} (h : s.TimeHeld t) : t.time.syncs = s.time.syncs := by rw [h]
theorem State.TimeHeld.a {s t : State} (h : s.TimeHeld t) : t.time.a = s.time.a := by rw [h]
theorem State.TimeHeld.b {s t : State} (h : s.TimeHeld t) : t.time.b = s.time.b := by rw [h]

theorem State.Kept.pll {ps : List Part} {s t : State} (h : s.Kept ps t) (hp : Part.plls ∉ ps) (k : Nat) :
    t.pll k = s.pll k := congrArg (fun x : Tab Pll => Tab.getD x k {}) (h.only .plls hp : t.plls = s.plls)

theorem State.raise_pll (s : State) (id detail k : Nat) : (s.raise id detail).pll k = s.pll k :=
  (State.raise_kept id detail 0 0 (fun _ h => h) (.refl _ s)).pll (by decide) k

/-! ### Lock (R293, R383, R384) -/

/-- A PLL whose table has no band for it shows NO_BAND and does not start. -/
theorem State.pllBand_refused {s : State} {j : Nat} (h : (s.pllBand j).2 = false) :
    (s.pllBand j).1.isF TPL_PLL_STAT.NO_BAND j = true := by
  revert h
  unfold State.pllBand
  split
  · intro h
    simpa using h
  · split
    · intro h
      cases h
    · split
      · intro h
        cases h
      · intro _
        have hr := State.raiseOnce_raised 0xD8 j 0 0 (.refl (s.setF TPL_PLL_STAT.NO_BAND 1 j))
        exact (congrArg (· != 0) (hr.regs TPL_PLL_STAT.NO_BAND (by decide) j)).trans
          (State.isF_setF_flag s (f := TPL_PLL_STAT.NO_BAND) rfl true j)

/-- The choice of a band changes no LOCK, no PLL and, of the time, nothing but what a fault may reach. -/
theorem State.pllBand_law (s : State) (j : Nat) : s.Same [TPL_PLL_STAT.LOCK.id] (s.pllBand j).1 ∧
    (∀ k, (s.pllBand j).1.pll k = s.pll k) ∧ s.TimeHeld (s.pllBand j).1 := by
  refine ⟨?_, fun k => (State.pllBand_kept j (fun _ h => h) (.refl _ s)).pll (by decide) k, ?_⟩ <;> unfold State.pllBand
  · split
    · exact .refl _ s
    · split
      · exact (s.setF_same _ _ _ (by decide)).setF _ _ _ (by decide)
      · split
        · exact State.Same.setF (.of_regs (t := s.draw.2) rfl) _ _ _ (by decide)
        · exact (s.setF_same _ _ _ (by decide)).trans
            ((State.raiseOnce_raised _ _ _ _ (.refl _)).same_fields (by decide))
  · split
    · exact .refl s
    · split
      · exact .refl s
      · split
        · exact .refl s
        · exact State.Raised.timeHeld (s := s.setF TPL_PLL_STAT.NO_BAND 1 j) (State.raiseOnce_raised _ _ _ _ (.refl _))

/-- The outputs of a PLL that has locked are released, and its fault's condition ends (R383). -/
def State.pllReleased (s : State) (j : Nat) : State :=
  (((s.pllBand j).1.setF TPL_PLL_STAT.LOCK 1 j).upPll j (fun x => { x with gated := false })).clearFault (0xC8 + j)

theorem State.pllLock_locks {s : State} {j : Nat} (hc : s.boot.coreUp = true) (hl : s.isF TPL_PLL_STAT.LOCK j = false)
    (hb : (s.pllBand j).2 = true) : s.pllLock j =
      if j = 2 then { s.pllReleased j with time := { (s.pllReleased j).time with running := true } }
      else s.pllReleased j := by
  rw [State.pllLock, if_neg (by simp [hc, hl]), if_neg (by simp [hb])]
  rfl

theorem State.pllReleased_law (s : State) (j : Nat) : (s.pllReleased j).isF TPL_PLL_STAT.LOCK j = true ∧
    ((s.pllReleased j).pll j).gated = false ∧ ((s.pllReleased j).faultSt (0xC8 + j)).present = false ∧
    (s.pllReleased j).time.running = s.time.running ∧ ∀ k, k ≠ j → (s.pllReleased j).pll k = s.pll k := by
  obtain ⟨-, hplls, htime⟩ := s.pllBand_law j
  have h0 : 0xC8 + j ≠ 0 := by omega
  unfold State.pllReleased
  generalize (s.pllBand j).1 = u at hplls htime ⊢
  have hk := State.clearFault_kept (0xC8 + j) (fun _ h => h) (.refl _
    ((u.setF TPL_PLL_STAT.LOCK 1 j).upPll j (fun x => { x with gated := false })))
  refine ⟨?_, ?_, State.clearFault_absent _ h0, ?_, fun k hkj => ?_⟩
  · rw [State.isF, State.clearFault_same (l := [TPL_PLL_STAT.LOCK.id]) _ h0 TPL_PLL_STAT.LOCK (by decide) j]
    exact u.isF_setF_flag (f := TPL_PLL_STAT.LOCK) rfl true j
  · rw [hk.pll (by decide), State.pll_upPll_same]
  · rw [hk.only .time (by decide)]
    exact htime.running
  · rw [hk.pll (by decide), State.pll_upPll_other _ _ hkj]
    exact hplls k

/-! ### Loss of lock (R383, R384) -/

/-- The fields in which an APLL that starts shows, its fault's among them. -/
def apllFields : List Nat := [TPL_PLL_STAT.LOCK.id, TPL_PLL_STAT.NO_BAND.id, TPL_PLL_STAT.BAND.id] ++ faultFields

/-- PLL `j` gates its outputs and has no lock, and of the other PLLs, the other fields and the time nothing changes. -/
structure State.PllStopped (j : Nat) (s t : State) : Prop where
  lock : t.isF TPL_PLL_STAT.LOCK j = false
  fields : ∀ l : List Nat, (∀ x ∈ apllFields, x ∉ l) → s.Same l t
  own : t.pll j = { s.pll j with gated := true }
  others : ∀ k, k ≠ j → t.pll k = s.pll k
  time : s.TimeHeld t
  latched : ∀ id, (s.faultSt id).latched = true → (t.faultSt id).latched = true

/-- An APLL out of lock, before its band is looked for. -/
def State.apllGated (s : State) (j : Nat) : State :=
  (s.setF TPL_PLL_STAT.LOCK 0 j).upPll j (fun x => { x with gated := true })

theorem State.apllGated_stopped (s : State) (j : Nat) : State.PllStopped j s (s.apllGated j) where
  lock := s.isF_setF_flag (f := TPL_PLL_STAT.LOCK) rfl false j
  fields l hl := State.Same.trans (t := s.setF TPL_PLL_STAT.LOCK 0 j) (s.setF_same _ _ _ (hl _ (by decide))) (.of_regs rfl)
  own := State.pll_upPll_same _ _ _
  others _ hk := State.pll_upPll_other _ _ hk
  time := .refl s
  latched _ h := h

/-- What leaves the PLLs, the time, the faults latched and the fields but those of a start's end alone. -/
theorem State.PllStopped.trans {j : Nat} {s t u : State} (h : State.PllStopped j s t)
    (hl : t.Same [TPL_PLL_STAT.LOCK.id] u) (hf : ∀ l : List Nat, (∀ x ∈ apllFields, x ∉ l) → t.Same l u)
    (hp : u.plls = t.plls) (ht : t.TimeHeld u)
    (hq : ∀ id, (t.faultSt id).latched = true → (u.faultSt id).latched = true) : State.PllStopped j s u where
  lock := by rw [State.isF, hl TPL_PLL_STAT.LOCK (by decide)]; exact h.lock
  fields l hx := (h.fields l hx).trans (hf l hx)
  own := by rw [← h.own, State.pll, hp]; rfl
  others k hk := by rw [← h.others k hk, State.pll, hp]; rfl
  time := h.time.trans ht
  latched id hi := hq id (h.latched id hi)

theorem State.apllStart_eq (s : State) (j : Nat) : s.apllStart j =
    match (s.apllGated j).bandEntry j ((s.apllGated j).pll j).vco with
    | some i => ((s.apllGated j).setF TPL_PLL_STAT.NO_BAND 0 j).setF TPL_PLL_STAT.BAND
        ((s.apllGated j).getF TPL_BAND_SEL.BAND i) j
    | none => ((s.apllGated j).setF TPL_PLL_STAT.NO_BAND 1 j).raiseOnce 0xD8 j := by
  rw [State.apllStart]
  rfl

theorem State.apllStart_stopped (s : State) (j : Nat) : State.PllStopped j s (s.apllStart j) := by
  have h := s.apllGated_stopped j
  rw [State.apllStart_eq]
  generalize s.apllGated j = t at h ⊢
  split
  · refine h.trans ?_ (fun l hl => ?_) rfl (.refl t) (fun _ hi => hi)
    · exact (t.setF_same _ _ _ (by decide)).setF _ _ _ (by decide)
    · exact (t.setF_same _ _ _ (hl _ (by decide))).setF _ _ _ (hl _ (by decide))
  · have hr := State.raiseOnce_raised 0xD8 j 0 0 (.refl (t.setF TPL_PLL_STAT.NO_BAND 1 j))
    refine h.trans ?_ (fun l hl => ?_) ?_ hr.timeHeld (fun id hi => (hr.latched id hi).1)
    · exact (t.setF_same _ _ _ (by decide)).trans (hr.same_fields (by decide))
    · exact (t.setF_same _ _ _ (hl _ (by decide))).trans
        (hr.same_fields fun x hx hf => hl x (List.mem_append_right _ hf) hx)
    · exact (State.raiseOnce_kept 0xD8 j 0 0 (fun _ h => h) (.refl _ (t.setF TPL_PLL_STAT.NO_BAND 1 j))).only .plls
        (by decide)

/-- The loss of lock as it is shown, the outputs gated. -/
def State.pllUnlocked (s : State) (j : Nat) : State :=
  ((s.setF TPL_PLL_STAT.LOCK 0 j).setF TPL_PLL_HIST.LOCK_LOST 1 j).upPll j (fun x => { x with gated := true })

/-- The loss of lock shown and raised, before the PLL relocks. -/
def State.pllLost (s : State) (j : Nat) : State := (s.pllUnlocked j).raise (0xC8 + j) j

/-- The state after the loss of TCLK's PLL, or another's: without TCLK the timing plane stands (R417). -/
def State.pllStands (s : State) (j : Nat) : State :=
  if j = 2 then { s.pllLost j with time := { (s.pllLost j).time with running := false } } else s.pllLost j

theorem exec_pllLossOfLock {s : State} {j : Nat} (h : s.isF TPL_PLL_STAT.LOCK j = true) :
    exec (.pllLossOfLock j) s = .next (if 5 ≤ j then (s.pllStands j).apllStart j else s.pllStands j) := by
  have he : exec (.pllLossOfLock j) s = execPllLossOfLock j s := rfl
  rw [he, execPllLossOfLock, if_neg (by simp [h])]
  simp only [decide_eq_true_eq]
  rfl

theorem State.masked_pll (s : State) {j : Nat} (hj : j < 7) : s.masked (0xC8 + j) = false := by
  have h : maskDomain (0xC8 + j) = none := by
    revert j
    decide
  rw [State.masked, h]

theorem faultNamed_pll {j : Nat} (hj : j < 7) : faultNamed (0xC8 + j) = true := by
  revert j
  decide

/-- A named fault that nothing masks is latched once its condition begins. -/
theorem State.raise_latched (s : State) {id : Nat} (detail : Nat) (hn : faultNamed id = true) (hm : s.masked id = false)
    (hp : (s.faultSt id).present = false) : ((s.raise id detail).faultSt id).latched = true :=
  s.raiseCycle_latched { id := id, detail := detail } hn hm (.inl hp)

theorem State.pllLost_law (s : State) {j : Nat} (hj : j < 7) : (s.pllLost j).isF TPL_PLL_STAT.LOCK j = false ∧
    (s.pllLost j).isF TPL_PLL_HIST.LOCK_LOST j = true ∧ (s.pllLost j).pll j = { s.pll j with gated := true } ∧
    ((s.faultSt (0xC8 + j)).present = false → ((s.pllLost j).faultSt (0xC8 + j)).latched = true) ∧
    s.TimeHeld (s.pllLost j) ∧ ∀ k, k ≠ j → (s.pllLost j).pll k = s.pll k := by
  have hr : (s.pllUnlocked j).Raised (s.pllLost j) := State.raise_raised _ _ _ _ (.refl (s.pllUnlocked j))
  refine ⟨?_, ?_, ?_, fun hp => ?_, ?_, fun k hk => ?_⟩
  · refine (congrArg (· != 0) (hr.regs TPL_PLL_STAT.LOCK (by decide) j)).trans ?_
    exact ((s.setF TPL_PLL_STAT.LOCK 0 j).isF_setF_ne TPL_PLL_HIST.LOCK_LOST TPL_PLL_STAT.LOCK 1 j j (by decide)).trans
      (s.isF_setF_flag (f := TPL_PLL_STAT.LOCK) rfl false j)
  · exact (congrArg (· != 0) (hr.regs TPL_PLL_HIST.LOCK_LOST (by decide) j)).trans
      ((s.setF TPL_PLL_STAT.LOCK 0 j).isF_setF_flag (f := TPL_PLL_HIST.LOCK_LOST) rfl true j)
  · rw [State.pllLost, State.raise_pll, State.pllUnlocked, State.pll_upPll_same]
    rfl
  · exact State.raise_latched (s.pllUnlocked j) j (faultNamed_pll hj) (State.masked_pll _ hj) hp
  · exact State.TimeHeld.trans (t := s.pllUnlocked j) (.of_time rfl) hr.timeHeld
  · rw [State.pllLost, State.raise_pll, State.pllUnlocked, State.pll_upPll_other _ _ hk]
    rfl

/-- A PLL that loses lock is gated and has its fault latched; TCLK's stops the timing plane. -/
theorem State.pllStands_law (s : State) {j : Nat} (hj : j < 7) : (s.pllStands j).isF TPL_PLL_STAT.LOCK j = false ∧
    (s.pllStands j).isF TPL_PLL_HIST.LOCK_LOST j = true ∧ (s.pllStands j).pll j = { s.pll j with gated := true } ∧
    ((s.faultSt (0xC8 + j)).present = false → ((s.pllStands j).faultSt (0xC8 + j)).latched = true) ∧
    (j = 2 → (s.pllStands j).time.running = false) ∧ (j ≠ 2 → (s.pllStands j).time.running = s.time.running) ∧
    (s.pllStands j).time.a = s.time.a ∧ (s.pllStands j).time.b = s.time.b ∧
    ∀ k, k ≠ j → (s.pllStands j).pll k = s.pll k := by
  obtain ⟨hlock, hlost, hown, hlatched, htime, hothers⟩ := s.pllLost_law hj
  unfold State.pllStands
  split
  · next h => exact ⟨hlock, hlost, hown, hlatched, fun _ => rfl, fun hn => absurd h hn, htime.a, htime.b, hothers⟩
  · next h => exact ⟨hlock, hlost, hown, hlatched, fun he => absurd he h, fun _ => htime.running, htime.a, htime.b, hothers⟩

/-- What PLL_LOSS_OF_LOCK leaves, whether or not the PLL is an APLL, which looks for a band again. -/
theorem State.pllLossOfLock_law (s : State) {j : Nat} (hj : j < 7) (h : s.isF TPL_PLL_STAT.LOCK j = true) :
    ∃ t, exec (.pllLossOfLock j) s = .next t ∧
      t.isF TPL_PLL_STAT.LOCK j = false ∧ t.isF TPL_PLL_HIST.LOCK_LOST j = true ∧ (t.pll j).gated = true ∧
      ((s.faultSt (0xC8 + j)).present = false → (t.faultSt (0xC8 + j)).latched = true) ∧
      (j = 2 → t.time.running = false) ∧ (j ≠ 2 → t.time.running = s.time.running) ∧ t.time.a = s.time.a ∧
      t.time.b = s.time.b ∧ ∀ k, k ≠ j → t.pll k = s.pll k := by
  obtain ⟨hlock, hlost, hown, hlatched, h2, hn2, ha, hb, hothers⟩ := s.pllStands_law hj
  refine ⟨_, exec_pllLossOfLock h, ?_⟩
  split
  · have hs := (s.pllStands j).apllStart_stopped j
    refine ⟨hs.lock, ?_, ?_, fun hp => hs.latched _ (hlatched hp), fun e => hs.time.running.trans (h2 e),
      fun e => hs.time.running.trans (hn2 e), hs.time.a.trans ha, hs.time.b.trans hb,
      fun k hk => (hs.others k hk).trans (hothers k hk)⟩
    · rw [State.isF, hs.fields [TPL_PLL_HIST.LOCK_LOST.id] (by decide) TPL_PLL_HIST.LOCK_LOST (by decide)]
      exact hlost
    · rw [hs.own]
  · exact ⟨hlock, hlost, by rw [hown], hlatched, h2, hn2, ha, hb, hothers⟩

/-! ### Staged values (R385) -/

/-- The staged frequency of APLL `j` loads: a new one makes it relock. -/
def State.loadApll (s : State) (j : Nat) : State :=
  if !s.isF TPL_PLL_STAT.PENDING j then s
  else
    let v := s.getF TPL_PLL_VCO.F_VCO j
    let s := s.setF TPL_PLL_STAT.PENDING 0 j
    if (s.pll j).vco = v then s else (s.upPll j (fun x => { x with vco := v })).apllStart j

/-- The staged divider of output `n` loads. -/
def State.loadOut (s : State) (n : Nat) : State :=
  let d := max 1 (s.getF TPL_OUT_DIV.D n)
  let h := s.getF TPL_OUT_PW.HIGH n
  (s.upOut n (fun x => { x with d := d, high := h })).setF TPL_OUT_STAT.PENDING 0 n

theorem State.loadStaged_eq (s : State) :
    s.loadStaged = (List.range 8).foldl State.loadOut ((s.loadApll 5).loadApll 6) := rfl

/-- The fields in which loading a staged frequency shows. -/
def loadFields : List Nat := TPL_PLL_STAT.PENDING.id :: apllFields

/-- APLL `j` has taken its staged frequency, if one was pending, and of the other PLLs, the other fields, the outputs and
the time nothing has changed. -/
structure State.ApllLoaded (j : Nat) (s t : State) : Prop where
  fields : ∀ l : List Nat, (∀ x ∈ loadFields, x ∉ l) → s.Same l t
  pending : t.isF TPL_PLL_STAT.PENDING j = false
  elsewhere : ∀ k, k % 65536 ≠ j % 65536 → t.isF TPL_PLL_STAT.PENDING k = s.isF TPL_PLL_STAT.PENDING k
  vco : (t.pll j).vco = if s.isF TPL_PLL_STAT.PENDING j then s.getF TPL_PLL_VCO.F_VCO j else (s.pll j).vco
  others : ∀ k, k ≠ j → t.pll k = s.pll k
  time : s.TimeHeld t
  outs : t.outs = s.outs

theorem State.loadApll_loaded (s : State) (j : Nat) : State.ApllLoaded j s (s.loadApll j) := by
  unfold State.loadApll
  split
  · next h =>
    have h : s.isF TPL_PLL_STAT.PENDING j = false := by simpa using h
    exact ⟨fun l _ => .refl l s, h, fun _ _ => rfl, by simp [h], fun _ _ => rfl, .refl s, rfl⟩
  · next h =>
    have h : s.isF TPL_PLL_STAT.PENDING j = true := by simpa using h
    have hp : (s.setF TPL_PLL_STAT.PENDING 0 j).isF TPL_PLL_STAT.PENDING j = false :=
      s.isF_setF_flag (f := TPL_PLL_STAT.PENDING) rfl false j
    have he : ∀ k, k % 65536 ≠ j % 65536 →
        (s.setF TPL_PLL_STAT.PENDING 0 j).isF TPL_PLL_STAT.PENDING k = s.isF TPL_PLL_STAT.PENDING k :=
      fun k hk => congrArg (· != 0) (s.getF_setF_other _ _ _ _ _ (.inr hk))
    dsimp only
    split
    · next hv =>
      exact ⟨fun l hl => s.setF_same _ _ _ (hl _ (by decide)), hp, he, by rw [if_pos h]; exact hv, fun _ _ => rfl,
        .refl s, rfl⟩
    · generalize hu : (s.setF TPL_PLL_STAT.PENDING 0 j).upPll j
        (fun x => { x with vco := s.getF TPL_PLL_VCO.F_VCO j }) = u
      have hregs : u.regs = (s.setF TPL_PLL_STAT.PENDING 0 j).regs := by rw [← hu]; rfl
      have hst := u.apllStart_stopped j
      have hsame : u.Same [TPL_PLL_STAT.PENDING.id] (u.apllStart j) := hst.fields _ (by decide)
      have hget : ∀ k, (u.apllStart j).isF TPL_PLL_STAT.PENDING k =
          (s.setF TPL_PLL_STAT.PENDING 0 j).isF TPL_PLL_STAT.PENDING k := fun k => by
        rw [State.isF, hsame TPL_PLL_STAT.PENDING (by decide) k, State.getF, hregs]
        rfl
      refine ⟨fun l hl => ?_, (hget j).trans hp, fun k hk => (hget k).trans (he k hk), ?_, fun k hk => ?_, ?_, ?_⟩
      · exact ((s.setF_same _ _ _ (hl _ (by decide))).trans (.of_regs hregs)).trans
          (hst.fields l fun x hx => hl x (List.mem_cons_of_mem _ hx))
      · rw [hst.own, if_pos h, ← hu, State.pll_upPll_same]
      · rw [hst.others k hk, ← hu, State.pll_upPll_other _ _ hk]
        rfl
      · exact State.TimeHeld.trans (.of_time (by rw [← hu]; rfl)) hst.time
      · rw [(State.apllStart_kept j (fun _ h => h) (.refl _ u)).only .outs (by decide), ← hu]
        rfl

/-- The divider that is staged for output `n`, as it acts. -/
def State.stagedOut (s : State) (n : Nat) (x : Pll) : Pll :=
  { x with d := max 1 (s.getF TPL_OUT_DIV.D n), high := s.getF TPL_OUT_PW.HIGH n }

theorem State.loadOut_same {l : List Nat} (hl : TPL_OUT_STAT.PENDING.id ∉ l) (s : State) (n : Nat) :
    s.Same l (s.loadOut n) := State.Same.setF (.of_regs rfl) _ _ _ hl

theorem State.loadOuts_kept (s : State) (l : List Nat) : s.Kept [.regs, .outs] (l.foldl State.loadOut s) :=
  State.Kept.foldl _ l (.refl _ s) fun _ n ht =>
    State.setF_kept _ _ _ (by decide) (State.upOut_kept n _ (by decide) ht)

theorem State.loadOuts_outp (k : Nat) : ∀ (l : List Nat) (s : State),
    (l.foldl State.loadOut s).outp k = if k ∈ l then s.stagedOut k (s.outp k) else s.outp k
  | [], s => rfl
  | n :: l, s => by
    have hs := s.loadOut_same (l := [TPL_OUT_DIV.D.id, TPL_OUT_PW.HIGH.id]) (by decide) n
    have hstaged : (s.loadOut n).stagedOut k = s.stagedOut k := by
      funext x
      rw [State.stagedOut, hs TPL_OUT_DIV.D (by decide), hs TPL_OUT_PW.HIGH (by decide)]
      rfl
    have hout : (s.loadOut n).outp k = if k = n then s.stagedOut n (s.outp n) else s.outp k :=
      s.outp_upOut n k (s.stagedOut n)
    rw [List.foldl_cons, State.loadOuts_outp k l, hstaged, hout]
    by_cases hk : k = n
    · subst hk
      simp [State.stagedOut]
    · simp [hk]

theorem State.loadOuts_pending (s : State) {k : Nat} {l : List Nat} (hk : k ∈ l) :
    (l.foldl State.loadOut s).isF TPL_OUT_STAT.PENDING k = false := by
  rw [State.isF, State.getF_foldl_writes (v := 0) (fun t n k => ?_) k l s (.inl hk)]
  · rfl
  · exact (State.getF_setF _ _ _ _ _).trans rfl

/-- Every staged value has loaded (R385). -/
structure State.Loaded (s t : State) : Prop where
  fields : ∀ l : List Nat, (∀ x ∈ TPL_OUT_STAT.PENDING.id :: loadFields, x ∉ l) → s.Same l t
  outs : ∀ n, n < 8 → t.outp n = s.stagedOut n (s.outp n)
  outPending : ∀ n, n < 8 → t.isF TPL_OUT_STAT.PENDING n = false
  vco : ∀ j, j = 5 ∨ j = 6 → t.isF TPL_PLL_STAT.PENDING j = false ∧
    (t.pll j).vco = if s.isF TPL_PLL_STAT.PENDING j then s.getF TPL_PLL_VCO.F_VCO j else (s.pll j).vco
  time : s.TimeHeld t

theorem State.loadStaged_loaded (s : State) : s.Loaded s.loadStaged := by
  have h5 := s.loadApll_loaded 5
  have h6 := (s.loadApll 5).loadApll_loaded 6
  rw [State.loadStaged_eq]
  generalize (s.loadApll 5).loadApll 6 = u at h6 ⊢
  have hk := u.loadOuts_kept (List.range 8)
  have hfields : ∀ l : List Nat, (∀ x ∈ loadFields, x ∉ l) → s.Same l u := fun l hl => (h5.fields l hl).trans (h6.fields l hl)
  have hpll : ∀ k, ((List.range 8).foldl State.loadOut u).pll k = u.pll k := hk.pll (by decide)
  have hout : ∀ l : List Nat, TPL_OUT_STAT.PENDING.id ∉ l → u.Same l ((List.range 8).foldl State.loadOut u) :=
    fun l hl => State.foldl_same _ _ (fun t n => t.loadOut_same hl n) u
  have hpending : ∀ j, ((List.range 8).foldl State.loadOut u).isF TPL_PLL_STAT.PENDING j = u.isF TPL_PLL_STAT.PENDING j :=
    fun j => congrArg (· != 0) (hout [TPL_PLL_STAT.PENDING.id] (by decide) TPL_PLL_STAT.PENDING (by decide) j)
  have hD : s.Same [TPL_OUT_DIV.D.id, TPL_OUT_PW.HIGH.id] u := hfields _ (by decide)
  refine ⟨fun l hl => ?_, fun n hn => ?_, fun n hn => u.loadOuts_pending (List.mem_range.2 hn), fun j hj => ?_, ?_⟩
  · exact (hfields l fun x hx => hl x (List.mem_cons_of_mem _ hx)).trans (hout l (hl _ (by simp)))
  · have ho : u.outp n = s.outp n := by rw [State.outp, h6.outs, h5.outs]; rfl
    rw [State.loadOuts_outp, if_pos (List.mem_range.2 hn), ho, State.stagedOut, State.stagedOut,
      hD TPL_OUT_DIV.D (by decide), hD TPL_OUT_PW.HIGH (by decide)]
  · rw [hpending, hpll]
    rcases hj with rfl | rfl
    · exact ⟨(h6.elsewhere 5 (by decide)).trans h5.pending, by rw [h6.others 5 (by decide), h5.vco]⟩
    · refine ⟨h6.pending, ?_⟩
      have hv := h5.fields [TPL_PLL_VCO.F_VCO.id] (by decide) TPL_PLL_VCO.F_VCO (by decide) 6
      rw [h6.vco, h5.elsewhere 6 (by decide), h5.others 6 (by decide), hv]
  · exact (h5.time.trans h6.time).trans (.of_time (hk.only .time (by decide)))

/-! ### SYNCIN (R388) -/

/-- Output `i` restarts with the accepted edge numbered `m`, if it has SYNC_EN. -/
def State.restartOut (m : Nat) (s : State) (i : Nat) : State :=
  if s.isF TPL_OUT_CFG.SYNC_EN i then s.upOut i (fun x => { x with synced := m }) else s

theorem State.syncOutputs_eq (s : State) : s.syncOutputs = (List.range 8).foldl (State.restartOut (s.time.syncs + 1))
    { s with time := { s.time with syncs := s.time.syncs + 1 } } := rfl

theorem State.restartOuts_kept (m : Nat) (l : List Nat) (s : State) : s.Kept [.outs] (l.foldl (State.restartOut m) s) :=
  State.Kept.foldl _ l (.refl _ s) fun t i ht => by
    unfold State.restartOut
    split
    · exact State.upOut_kept i _ (fun _ h => h) ht
    · exact ht

theorem State.restartOuts_outp (m k : Nat) : ∀ (l : List Nat) (s : State), (l.foldl (State.restartOut m) s).outp k =
    if k ∈ l ∧ s.isF TPL_OUT_CFG.SYNC_EN k = true then { s.outp k with synced := m } else s.outp k
  | [], s => by simp
  | i :: l, s => by
    have hen : (s.restartOut m i).isF TPL_OUT_CFG.SYNC_EN k = s.isF TPL_OUT_CFG.SYNC_EN k := by
      unfold State.restartOut
      split <;> rfl
    have hout : (s.restartOut m i).outp k =
        if k = i ∧ s.isF TPL_OUT_CFG.SYNC_EN i = true then { s.outp i with synced := m } else s.outp k := by
      unfold State.restartOut
      split
      · next h => simp [State.outp_upOut, h]
      · next h => simp [h]
    rw [List.foldl_cons, State.restartOuts_outp m k l, hen, hout]
    by_cases hk : k = i
    · subst hk
      by_cases he : s.isF TPL_OUT_CFG.SYNC_EN k = true <;> simp [he]
    · simp [hk]

/-- An accepted edge of SYNCIN has restarted the outputs with SYNC_EN, and no others. -/
theorem State.syncOutputs_law (s : State) : s.syncOutputs.time.syncs = s.time.syncs + 1 ∧ s.syncOutputs.regs = s.regs ∧
    s.syncOutputs.plls = s.plls ∧ ∀ k, k < 8 → s.syncOutputs.outp k =
      if s.isF TPL_OUT_CFG.SYNC_EN k then { s.outp k with synced := s.time.syncs + 1 } else s.outp k := by
  rw [State.syncOutputs_eq]
  have h := State.restartOuts_kept (s.time.syncs + 1) (List.range 8)
    { s with time := { s.time with syncs := s.time.syncs + 1 } }
  refine ⟨by rw [h.only .time (by decide)], h.only .regs (by decide), h.only .plls (by decide), fun k hk => ?_⟩
  rw [State.restartOuts_outp]
  simp only [List.mem_range.2 hk, true_and]
  rfl

/-- An edge of SYNCIN as it is taken, before it restarts the outputs. -/
def State.syncTaken (s : State) : State :=
  let t := s.setF TPL_CS_STAT.SYNC_SEEN 1
  if s.getF TPL_CS_CTRL.SYNC_MODE == 1 then t.setF TPL_CS_CTRL.SYNC_ARM 0 else t

/-- An edge of SYNCIN with which the staged values load, where LOAD_ON_SYNC is set. -/
def State.syncLoaded (s : State) : State :=
  if s.isF TPL_CS_CTRL.LOAD_ON_SYNC then s.syncTaken.loadStaged else s.syncTaken

theorem State.syncTaken_same (s : State) {l : List Nat} (h0 : TPL_CS_STAT.SYNC_SEEN.id ∉ l)
    (h1 : TPL_CS_CTRL.SYNC_ARM.id ∉ l) : s.Same l s.syncTaken := by
  have h := s.setF_same TPL_CS_STAT.SYNC_SEEN 1 0 h0
  unfold State.syncTaken
  dsimp only
  split
  · exact h.setF _ _ _ h1
  · exact h

theorem State.syncTaken_rest (s : State) : s.syncTaken = { s with regs := s.syncTaken.regs } := by
  unfold State.syncTaken
  dsimp only
  split <;> rfl

theorem exec_syncinEdge_accepted {n : Nat} {s : State} (hm : s.getF TPL_CS_CTRL.SYNC_MODE == 2 ||
      (s.getF TPL_CS_CTRL.SYNC_MODE == 1 && s.isF TPL_CS_CTRL.SYNC_ARM)) (hn : s.time.syncs = 0 ∨ 1000 ≤ n) :
    exec (.syncinEdge n) s = .next s.syncLoaded.syncOutputs := by
  have he : exec (.syncinEdge n) s = execSyncinEdge n s := rfl
  have hload : s.syncTaken.isF TPL_CS_CTRL.LOAD_ON_SYNC = s.isF TPL_CS_CTRL.LOAD_ON_SYNC :=
    congrArg (· != 0) (s.syncTaken_same (l := [TPL_CS_CTRL.LOAD_ON_SYNC.id]) (by decide) (by decide)
      TPL_CS_CTRL.LOAD_ON_SYNC (by decide) 0)
  rw [he, execSyncinEdge, State.syncLoaded, ← hload]
  dsimp only
  rw [if_pos hm, if_neg (by omega)]
  rfl

theorem State.syncTaken_shows (s : State) : s.syncTaken.isF TPL_CS_STAT.SYNC_SEEN = true ∧
    (s.getF TPL_CS_CTRL.SYNC_MODE = 1 → s.syncTaken.isF TPL_CS_CTRL.SYNC_ARM = false) := by
  have h := s.isF_setF_flag (f := TPL_CS_STAT.SYNC_SEEN) rfl true 0
  unfold State.syncTaken
  dsimp only
  split
  · exact ⟨(State.isF_setF_ne _ _ TPL_CS_STAT.SYNC_SEEN _ _ _ (by decide)).trans h,
      fun _ => State.isF_setF_flag _ (f := TPL_CS_CTRL.SYNC_ARM) rfl false 0⟩
  · next hm => exact ⟨h, fun e => absurd (by simp [e]) hm⟩

/-- What an accepted edge shows and what it loads, before it restarts the outputs. -/
theorem State.syncLoaded_law (s : State) : s.syncLoaded.isF TPL_CS_STAT.SYNC_SEEN = true ∧
    s.syncLoaded.time.syncs = s.time.syncs ∧
    (s.getF TPL_CS_CTRL.SYNC_MODE = 1 → s.syncLoaded.isF TPL_CS_CTRL.SYNC_ARM = false) ∧
    (∀ k, s.syncLoaded.isF TPL_OUT_CFG.SYNC_EN k = s.isF TPL_OUT_CFG.SYNC_EN k) ∧
    (∀ k, k < 8 → s.syncLoaded.outp k =
      if s.isF TPL_CS_CTRL.LOAD_ON_SYNC then s.stagedOut k (s.outp k) else s.outp k) ∧
    (s.isF TPL_CS_CTRL.LOAD_ON_SYNC = false → s.syncLoaded.plls = s.plls) := by
  obtain ⟨hseen, harm⟩ := s.syncTaken_shows
  have hsame := s.syncTaken_same (l := [TPL_OUT_CFG.SYNC_EN.id, TPL_OUT_DIV.D.id, TPL_OUT_PW.HIGH.id]) (by decide) (by decide)
  have hrest := s.syncTaken_rest
  have htime : s.syncTaken.time = s.time := by rw [hrest]
  have hout : ∀ k, s.syncTaken.outp k = s.outp k := fun k => by rw [hrest]; rfl
  have hen : ∀ k, s.syncTaken.isF TPL_OUT_CFG.SYNC_EN k = s.isF TPL_OUT_CFG.SYNC_EN k := fun k =>
    congrArg (· != 0) (hsame TPL_OUT_CFG.SYNC_EN (by decide) k)
  have hplls : s.syncTaken.plls = s.plls := by rw [hrest]
  unfold State.syncLoaded
  split
  · next hload =>
    have hl := s.syncTaken.loadStaged_loaded
    have hkeep := hl.fields [TPL_CS_STAT.SYNC_SEEN.id, TPL_CS_CTRL.SYNC_ARM.id, TPL_OUT_CFG.SYNC_EN.id] (by decide)
    refine ⟨?_, by rw [hl.time.syncs, htime], fun hm => ?_, fun k => ?_, fun k hk => ?_, fun h => by simp [hload] at h⟩
    · rw [State.isF, hkeep TPL_CS_STAT.SYNC_SEEN (by decide)]
      exact hseen
    · rw [State.isF, hkeep TPL_CS_CTRL.SYNC_ARM (by decide)]
      exact harm hm
    · rw [State.isF, hkeep TPL_OUT_CFG.SYNC_EN (by decide)]
      exact hen k
    · rw [hl.outs k hk, hout, State.stagedOut, hsame TPL_OUT_DIV.D (by decide), hsame TPL_OUT_PW.HIGH (by decide)]
      rfl
  · exact ⟨hseen, by rw [htime], harm, hen, fun k _ => hout k, fun _ => hplls⟩

end Sys2Proof.Machine
end

section
/-!
PROOF. The time-interval unit: its runs, its edges and its results (R349–R358).
-/

namespace Sys2Proof.Machine

theorem State.getF_of_regs {s t : State} (h : t.regs = s.regs) (f : Fld) (i : Nat) : t.getF f i = s.getF f i :=
  State.Same.of_regs (l := [f.id]) h f (by simp) i

theorem State.isF_of_regs {s t : State} (h : t.regs = s.regs) (f : Fld) (i : Nat) : t.isF f i = s.isF f i :=
  congrArg (· != 0) (State.getF_of_regs h f i)

/-- A field raised by `n` holds the sum, or its largest value. -/
theorem State.getF_addF_same (s : State) (f : Fld) (n i : Nat) :
    (s.addF f n i).getF f i = sat (2 ^ f.width - 1) (s.getF f i + n) := by
  have hw : 0 < 2 ^ f.width := Nat.pow_pos (by decide)
  rw [State.addF, State.getF_setF_same, sat_eq_min]
  exact Nat.mod_eq_of_lt (by omega)

/-! ### GO and ABORT (R353, R356) -/

theorem State.drawBelow_lt (s : State) (n : Nat) : (s.drawBelow n).1 < 2 ^ n := by
  unfold State.drawBelow
  split
  · next h => simp [h]
  · exact Nat.mod_lt _ (Nat.pow_pos (by decide))

/-- A run that starts has its prescalers at an edge below their division, and is empty but for the place in the dither. -/
theorem State.tiuStart_law (s : State) (c : Nat) : ∃ a b, a < 2 ^ s.getF TPL_TIU_CFG.PRE_START c ∧
    b < 2 ^ s.getF TPL_TIU_CFG.PRE_STOP c ∧ (s.tiuStart c).tiu c = { preStart := a, preStop := b, dith := (s.tiu c).dith } ∧
    (∀ k, k ≠ c → (s.tiuStart c).tiu k = s.tiu k) ∧ (s.tiuStart c).regs = s.regs := by
  let a := s.drawBelow (s.getF TPL_TIU_CFG.PRE_START c)
  let b := a.2.drawBelow (s.getF TPL_TIU_CFG.PRE_STOP c)
  have ha : s.Kept [.free] a.2 := State.drawBelow_kept _ (fun _ h => h) (.refl _ s)
  have hb : a.2.Kept [.free] b.2 := State.drawBelow_kept _ (fun _ h => h) (.refl _ a.2)
  have hregs : b.2.regs = s.regs := (hb.only .regs (by decide)).trans (ha.only .regs (by decide))
  have htiu : ∀ k, b.2.tiu k = s.tiu k := fun k => by
    rw [State.tiu, hb.only .tius (by decide), ha.only .tius (by decide)]
    rfl
  have he : s.tiuStart c = b.2.upTiu c (fun x => { preStart := a.1, preStop := b.1, dith := x.dith }) := rfl
  refine ⟨a.1, b.1, s.drawBelow_lt _, a.2.drawBelow_lt _, ?_, fun k hk => ?_, by rw [he]; exact hregs⟩
  · rw [he, State.tiu_upTiu_same, htiu]
  · rw [he, State.tiu_upTiu_other _ _ hk, htiu]

/-- What a run of channel `c` is set by. -/
def tiuSetFields : List Nat := [TPL_TIU_CFG.MODE.id, TPL_TIU_CFG.START_SRC.id, TPL_TIU_CFG.STOP_SRC.id,
  TPL_TIU_CFG.PRE_START.id, TPL_TIU_CFG.PRE_STOP.id]

/-- The counts of channel `c` cleared, as a GO clears them. -/
def State.tiuCleared (s : State) (c : Nat) : State :=
  (((s.setF TPL_TIU_STAT.COUNT 0 c).setF TPL_TIU_STAT.STEP_ABORT 0 c).setF TPL_TIU_ERR.TIMEOUTS 0 c).setF
    TPL_TIU_ERR.DEAD_MISS 0 c

theorem State.tiuCleared_same (s : State) (c : Nat) : s.Same tiuSetFields (s.tiuCleared c) :=
  (((s.setF_same _ _ _ (by decide)).setF _ _ _ (by decide)).setF _ _ _ (by decide)).setF _ _ _ (by decide)

theorem State.Same.tiuBad {s t : State} (h : s.Same tiuSetFields t) (c : Nat) : t.tiuBad c = s.tiuBad c := by
  simp only [State.tiuBad, State.tiuMode, h TPL_TIU_CFG.MODE (by decide), h TPL_TIU_CFG.START_SRC (by decide),
    h TPL_TIU_CFG.STOP_SRC (by decide)]

/-- The counts cleared and the configuration judged. -/
def State.tiuJudged (s : State) (c : Nat) : State := (s.tiuCleared c).setF TPL_TIU_STAT.CFG_ERR (flag (s.tiuBad c)) c

theorem State.tiuJudged_law (s : State) (c : Nat) : s.Same tiuSetFields (s.tiuJudged c) ∧
    (s.tiuJudged c).isF TPL_TIU_STAT.CFG_ERR c = s.tiuBad c ∧ (s.tiuJudged c).getF TPL_TIU_STAT.COUNT c = 0 := by
  refine ⟨(s.tiuCleared_same c).setF _ _ _ (by decide), State.isF_setF_flag _ (f := TPL_TIU_STAT.CFG_ERR) rfl _ c, ?_⟩
  have h : (s.setF TPL_TIU_STAT.COUNT 0 c).Same [TPL_TIU_STAT.COUNT.id] (s.tiuJudged c) :=
    ((((s.setF TPL_TIU_STAT.COUNT 0 c).setF_same _ _ _ (by decide)).setF _ _ _ (by decide)).setF _ _ _ (by decide)).setF
      _ _ _ (by decide)
  rw [h TPL_TIU_STAT.COUNT (by decide), State.getF_setF_same]
  rfl

theorem exec_go {p : Path} {c : Nat} {s : State} (hp : s.tiuMay p c = true) (h1 : s.tiuState c ≠ 1) :
    exec (.go p c) s = .next (if s.tiuBad c then (s.tiuJudged c).setF TPL_TIU_STAT.STATE 3 c
      else ((s.tiuJudged c).tiuStart c).setF TPL_TIU_STAT.STATE 1 c) := by
  have he : exec (.go p c) s = execGo p c s := rfl
  rw [he, execGo, if_neg (by simp [hp, h1])]
  have hbad := (s.tiuCleared_same c).tiuBad c
  unfold State.tiuCleared at hbad
  simp only [hbad]
  have hbad' := s.tiuJudged_law c |>.1.tiuBad c
  unfold State.tiuJudged State.tiuCleared at hbad'
  simp only [hbad']
  rfl

theorem State.getF_tiuState_set (s : State) (c v : Nat) (hv : v < 4) : (s.setF TPL_TIU_STAT.STATE v c).tiuState c = v :=
  (State.getF_setF_same s TPL_TIU_STAT.STATE v c).trans (Nat.mod_eq_of_lt hv)

theorem exec_go_law {p : Path} {c : Nat} {s : State} (hp : s.tiuMay p c = true) (h1 : s.tiuState c ≠ 1) :
    ∃ t, exec (.go p c) s = .next t ∧
      t.tiuState c = (if s.tiuBad c then 3 else 1) ∧ t.isF TPL_TIU_STAT.CFG_ERR c = s.tiuBad c ∧
      t.getF TPL_TIU_STAT.COUNT c = 0 ∧ (∀ k, k ≠ c → t.tiu k = s.tiu k) ∧
      (s.tiuBad c = false → (t.tiu c).preStart < 2 ^ s.getF TPL_TIU_CFG.PRE_START c ∧
        (t.tiu c).preStop < 2 ^ s.getF TPL_TIU_CFG.PRE_STOP c ∧
        t.tiu c = { preStart := (t.tiu c).preStart, preStop := (t.tiu c).preStop, dith := (s.tiu c).dith }) := by
  obtain ⟨hset, herr, hcount⟩ := s.tiuJudged_law c
  refine ⟨_, exec_go hp h1, ?_⟩
  by_cases hb : s.tiuBad c = true
  · rw [if_pos hb]
    refine ⟨?_, ?_, ?_, fun _ _ => rfl, fun h => by simp [hb] at h⟩
    · rw [if_pos hb, State.getF_tiuState_set _ _ _ (by decide)]
    · exact (State.isF_setF_ne _ _ TPL_TIU_STAT.CFG_ERR _ _ _ (by decide)).trans herr
    · exact (State.getF_setF_ne _ _ TPL_TIU_STAT.COUNT _ _ _ (by decide)).trans hcount
  · obtain ⟨a, b, ha, hb', htiu, hothers, hregs⟩ := (s.tiuJudged c).tiuStart_law c
    rw [if_neg hb]
    refine ⟨?_, ?_, ?_, hothers, fun _ => ?_⟩
    · rw [if_neg hb, State.getF_tiuState_set _ _ _ (by decide)]
    · refine (State.isF_setF_ne _ _ TPL_TIU_STAT.CFG_ERR _ _ _ (by decide)).trans ?_
      exact (State.isF_of_regs hregs _ _).trans herr
    · refine (State.getF_setF_ne _ _ TPL_TIU_STAT.COUNT _ _ _ (by decide)).trans ?_
      exact (State.getF_of_regs hregs _ _).trans hcount
    · rw [hset TPL_TIU_CFG.PRE_START (by decide)] at ha
      rw [hset TPL_TIU_CFG.PRE_STOP (by decide)] at hb'
      rw [State.setF_tiu, htiu]
      exact ⟨ha, hb', rfl⟩

/-! ### A result (R356, R357) -/

/-- A result counted and shown, before the run is judged complete. -/
def State.tiuShown (s : State) (c : Nat) (v : Int) : State :=
  let t := s.upTiu c (fun x => { x with
    n := x.n + 1, sum := x.sum + v, sumSq := x.sumSq + v * v,
    min := if x.n = 0 then v else min x.min v, max := if x.n = 0 then v else max x.max v })
  let t := (t.setF TPL_TIU_LAST_LO.LAST (unsign 48 v) c).setF TPL_TIU_LAST_HI.LAST (unsign 48 v / 2 ^ 32) c
  t.setF TPL_TIU_STAT.COUNT (t.tiu c).n c

theorem State.tiuShown_law (s : State) (c : Nat) (v : Int) : ((s.tiuShown c v).tiu c).n = (s.tiu c).n + 1 ∧
    ((s.tiuShown c v).tiu c).sum = (s.tiu c).sum + v ∧ ((s.tiuShown c v).tiu c).start = (s.tiu c).start ∧
    (s.tiuShown c v).getF TPL_TIU_LAST_LO.LAST c = unsign 48 v % 4294967296 ∧
    s.Same [TPL_TIU_STAT.STATE.id, TPL_TIU_CFG.NLOG2.id] (s.tiuShown c v) := by
  have htiu : (s.tiuShown c v).tiu c = { s.tiu c with
      n := (s.tiu c).n + 1, sum := (s.tiu c).sum + v, sumSq := (s.tiu c).sumSq + v * v
      min := if (s.tiu c).n = 0 then v else min (s.tiu c).min v
      max := if (s.tiu c).n = 0 then v else max (s.tiu c).max v } := s.tiu_upTiu_same c (fun x => { x with
      n := x.n + 1, sum := x.sum + v, sumSq := x.sumSq + v * v,
      min := if x.n = 0 then v else min x.min v, max := if x.n = 0 then v else max x.max v })
  refine ⟨by rw [htiu], by rw [htiu], by rw [htiu], ?_, ?_⟩
  · unfold State.tiuShown
    rw [State.getF_setF_ne _ _ _ _ _ _ (by decide), State.getF_setF_ne _ _ _ _ _ _ (by decide), State.getF_setF_same]
    rfl
  · exact ((State.Same.setF (.of_regs rfl) _ _ _ (by decide)).setF _ _ _ (by decide)).setF _ _ _ (by decide)

theorem State.tiuResult_eq (s : State) (c : Nat) (v : Int) : s.tiuResult c v =
    if s.tiuN c ≤ (s.tiu c).n + 1 then (s.tiuShown c v).tiuDone c else s.tiuShown c v := by
  obtain ⟨hn, -, -, -, hsame⟩ := s.tiuShown_law c v
  have hN : (s.tiuShown c v).tiuN c = s.tiuN c := by
    rw [State.tiuN, hsame TPL_TIU_CFG.NLOG2 (by decide)]
    rfl
  rw [← hN, ← hn]
  rfl

theorem State.tiuDone_law (s : State) (c : Nat) : (s.tiuDone c).tiu c = s.tiu c ∧ (s.tiuDone c).tiuState c = 2 ∧
    s.Same [TPL_TIU_LAST_LO.LAST.id] (s.tiuDone c) := by
  refine ⟨?_, ?_, ?_⟩
  · rw [State.tiu, (State.tiuDone_kept c (fun _ h => h) (.refl _ s)).only .tius (by decide)]
    rfl
  · exact State.getF_tiuState_set _ _ _ (by decide)
  · exact ((((((((s.setF_same _ _ _ (by decide)).setF _ _ _ (by decide)).setF _ _ _ (by decide)).setF _ _ _
      (by decide)).setF _ _ _ (by decide)).setF _ _ _ (by decide)).setF _ _ _ (by decide)).setF _ _ _ (by decide)).setF
      _ _ _ (by decide)

/-- Channel `c` has taken the result `v`: it is counted and shown, and the run ends with its last. -/
structure State.TiuTook (c : Nat) (v : Int) (s t : State) : Prop where
  start : (t.tiu c).start = (s.tiu c).start
  n : (t.tiu c).n = (s.tiu c).n + 1
  sum : (t.tiu c).sum = (s.tiu c).sum + v
  last : t.getF TPL_TIU_LAST_LO.LAST c = unsign 48 v % 4294967296
  state : t.tiuState c = if s.tiuN c ≤ (s.tiu c).n + 1 then 2 else s.tiuState c

theorem State.tiuResult_took (s : State) (c : Nat) (v : Int) : State.TiuTook c v s (s.tiuResult c v) := by
  obtain ⟨hn, hsum, hstart, hlast, hsame⟩ := s.tiuShown_law c v
  rw [State.tiuResult_eq]
  split
  · next h =>
    obtain ⟨htiu, hstate, hd⟩ := (s.tiuShown c v).tiuDone_law c
    refine ⟨by rw [htiu, hstart], by rw [htiu, hn], by rw [htiu, hsum], ?_, by rw [if_pos h, hstate]⟩
    rw [hd TPL_TIU_LAST_LO.LAST (by decide), hlast]
  · next h => exact ⟨hstart, hn, hsum, hlast, by rw [if_neg h]; exact hsame TPL_TIU_STAT.STATE (by decide) c⟩

/-- A result taken after a change of the channel alone. -/
theorem State.TiuTook.of_upTiu {c : Nat} {v : Int} {s t : State} {g : Tiu → Tiu}
    (h : State.TiuTook c v (s.upTiu c g) t) (hn : (g (s.tiu c)).n = (s.tiu c).n)
    (hs : (g (s.tiu c)).sum = (s.tiu c).sum) : (t.tiu c).start = (g (s.tiu c)).start ∧
      (t.tiu c).n = (s.tiu c).n + 1 ∧ (t.tiu c).sum = (s.tiu c).sum + v ∧
      t.getF TPL_TIU_LAST_LO.LAST c = unsign 48 v % 4294967296 ∧
      t.tiuState c = if s.tiuN c ≤ (s.tiu c).n + 1 then 2 else s.tiuState c := by
  have htiu : (s.upTiu c g).tiu c = g (s.tiu c) := s.tiu_upTiu_same c g
  refine ⟨by rw [h.start, htiu], by rw [h.n, htiu, hn], by rw [h.sum, htiu, hs], h.last, ?_⟩
  rw [h.state, htiu, hn]
  rfl

/-! ### Edges that the prescalers let through (R350, R352–R355) -/

/-- What a measurement rests on, apart from the channel itself and the time, is as it was. -/
structure State.TiuLike (s v : State) : Prop where
  regs : v.regs = s.regs
  temper : v.temper = s.temper

theorem State.TiuLike.dither {c : Nat} {s v : State} (h : State.TiuLike s v) (hd : (v.tiu c).dith = (s.tiu c).dith) :
    v.dither c = s.dither c := by
  rw [State.dither, State.isF_of_regs h.regs, hd]
  rfl

theorem State.TiuLike.tiuFix {c : Nat} {s v : State} (h : State.TiuLike s v) : v.tiuFix c = s.tiuFix c := by
  simp only [State.tiuFix, State.tiuDelay, State.item, State.getF_of_regs h.regs, h.temper]

theorem State.TiuLike.tiuN {c : Nat} {s v : State} (h : State.TiuLike s v) : v.tiuN c = s.tiuN c := by
  rw [State.tiuN, State.getF_of_regs h.regs]
  rfl

theorem State.tiuTime_upTiu (s : State) (c bins k n : Nat) (g : Tiu → Tiu) :
    (s.upTiu n g).tiuTime c bins k = s.tiuTime c bins k := by
  have hat : (if bins < 64 then (s.upTiu n g).rawStamp bins else ((s.upTiu n g).edges 1).rawStamp bins) =
      if bins < 64 then s.rawStamp bins else (s.edges 1).rawStamp bins := by
    unfold State.edges
    split
    · rfl
    · by_cases hr : s.time.running = true
      · rw [if_pos hr, if_pos (by exact hr)]
        rfl
      · rw [if_neg hr, if_neg (by exact hr)]
        rfl
  rw [State.tiuTime, hat]
  rfl

/-- The channel after an edge that its stop prescaler lets through. -/
def State.stopScaled (s : State) (c m : Nat) : State :=
  (s.edges m).upTiu c (fun x => { x with preStop := 2 ^ s.getF TPL_TIU_CFG.PRE_STOP c - 1 })

/-- The channel after an edge that its start prescaler lets through. -/
def State.startScaled (s : State) (c m : Nat) : State :=
  (s.edges m).upTiu c (fun x => { x with preStart := 2 ^ s.getF TPL_TIU_CFG.PRE_START c - 1 })

theorem State.edges_regs (s : State) (m : Nat) : (s.edges m).regs = s.regs := (s.edges_kept_time m).only .regs (by decide)

theorem State.edges_tiu (s : State) (m k : Nat) : (s.edges m).tiu k = s.tiu k := by
  rw [State.tiu, (s.edges_kept_time m).only .tius (by decide)]
  rfl

theorem State.edges_temper (s : State) (m : Nat) : (s.edges m).temper = s.temper :=
  (s.edges_kept_time m).only .temper (by decide)

theorem State.stopScaled_like (s : State) (c m : Nat) : State.TiuLike s (s.stopScaled c m) :=
  ⟨s.edges_regs m, s.edges_temper m⟩

theorem State.startScaled_like (s : State) (c m : Nat) : State.TiuLike s (s.startScaled c m) :=
  ⟨s.edges_regs m, s.edges_temper m⟩

theorem State.stopScaled_tiu (s : State) (c m : Nat) :
    (s.stopScaled c m).tiu c = { s.tiu c with preStop := 2 ^ s.getF TPL_TIU_CFG.PRE_STOP c - 1 } := by
  rw [State.stopScaled, State.tiu_upTiu_same, State.edges_tiu]

theorem State.startScaled_tiu (s : State) (c m : Nat) :
    (s.startScaled c m).tiu c = { s.tiu c with preStart := 2 ^ s.getF TPL_TIU_CFG.PRE_START c - 1 } := by
  rw [State.startScaled, State.tiu_upTiu_same, State.edges_tiu]

theorem exec_tiuEdge_passed {c k b sub : Nat} {s : State} (h1 : s.tiuState c = 1) :
    ((s.tiu c).preStop ≠ 0 → exec (.tiuEdge c true k ⟨b, sub⟩) s =
      .next ((s.edges (k - s.time.tclk)).upTiu c (fun x => { x with preStop := x.preStop - 1 }))) ∧
    ((s.tiu c).preStart ≠ 0 → exec (.tiuEdge c false k ⟨b, sub⟩) s =
      .next ((s.edges (k - s.time.tclk)).upTiu c (fun x => { x with preStart := x.preStart - 1 }))) := by
  constructor <;> intro h
  · have he : exec (.tiuEdge c true k ⟨b, sub⟩) s = execTiuEdge c true k ⟨b, sub⟩ s := rfl
    rw [he, execTiuEdge, if_neg (by simp [h1])]
    dsimp only
    rw [if_pos rfl, State.edges_tiu, if_pos (by simp [h])]
  · have he : exec (.tiuEdge c false k ⟨b, sub⟩) s = execTiuEdge c false k ⟨b, sub⟩ s := rfl
    rw [he, execTiuEdge, if_neg (by simp [h1])]
    dsimp only
    rw [if_neg (by decide), State.edges_tiu, if_pos (by simp [h])]

theorem exec_tiuEdge_stop {c k b sub : Nat} {s : State} (h1 : s.tiuState c = 1) (h0 : (s.tiu c).preStop = 0) :
    exec (.tiuEdge c true k ⟨b, sub⟩) s =
      .next ((s.stopScaled c (k - s.time.tclk)).tiuStopEdge c ((k : Int) * 64 + b)) := by
  have he : exec (.tiuEdge c true k ⟨b, sub⟩) s = execTiuEdge c true k ⟨b, sub⟩ s := rfl
  rw [he, execTiuEdge, if_neg (by simp [h1])]
  dsimp only
  rw [if_pos rfl, State.edges_tiu, if_neg (by simp [h0]), State.getF_of_regs (s.edges_regs _)]
  rfl

theorem exec_tiuEdge_start {c k b sub : Nat} {s : State} (h1 : s.tiuState c = 1) (h0 : (s.tiu c).preStart = 0) :
    exec (.tiuEdge c false k ⟨b, sub⟩) s =
      .next ((s.startScaled c (k - s.time.tclk)).tiuStartEdge c k b sub) := by
  have he : exec (.tiuEdge c false k ⟨b, sub⟩) s = execTiuEdge c false k ⟨b, sub⟩ s := rfl
  rw [he, execTiuEdge, if_neg (by simp [h1])]
  dsimp only
  rw [if_neg (by decide), State.edges_tiu, if_neg (by simp [h0]), State.getF_of_regs (s.edges_regs _)]
  rfl

/-! ### A stop edge (R352, R354) -/

theorem State.tiuStopEdge_idle {s : State} {c : Nat} (hm : s.tiuMode c ≠ 0) (t : Int) : s.tiuStopEdge c t = s := by
  rw [State.tiuStopEdge, if_pos (by simp [hm])]

theorem State.tiuStopEdge_dead {s : State} {c : Nat} {t : Int} (hm : s.tiuMode c = 0)
    (hd : deadTime (s.tiu c).lastStop t = true) : s.tiuStopEdge c t = s.addF TPL_TIU_ERR.DEAD_MISS 1 c := by
  rw [State.tiuStopEdge, if_neg (by simp [hm])]
  exact if_pos hd

/-- Whether a stop edge at bin `t` ends no measurement that began at `t0`: outside the window, or the start edge itself. -/
def State.stopMisses (s : State) (c : Nat) (t t0 : Int) : Bool :=
  decide (t * 64 - t0 < 1024 * s.getF TPL_TIU_WMIN.WIN_MIN c) || decide (1024 * s.tiuWinMax c < t * 64 - t0) ||
    (s.getF TPL_TIU_CFG.START_SRC c == s.getF TPL_TIU_CFG.STOP_SRC c && (s.tiu c).lastStart == some t)

theorem State.tiuStopEdge_live {s : State} {c : Nat} {t t0 : Int} (hm : s.tiuMode c = 0)
    (hd : deadTime (s.tiu c).lastStop t = false) (h0 : (s.tiu c).start = some t0) : s.tiuStopEdge c t =
      if s.stopMisses c t t0 then s
      else (s.upTiu c (fun x => { x with start := none, lastStop := some t })).tiuResult c (t * 64 - t0 + s.tiuFix c) := by
  rw [State.tiuStopEdge, if_neg (by simp [hm])]
  simp only [hd, h0]
  rfl

/-! ### A start edge (R350, R352, R355) -/

theorem State.tiuStartEdge_dead {s : State} {c k b sub : Nat}
    (hd : deadTime (s.tiu c).lastStart ((k : Int) * 64 + b) = true) :
    s.tiuStartEdge c k b sub = s.addF TPL_TIU_ERR.DEAD_MISS 1 c := if_pos hd

/-- The end of a start edge in units of 2^-10 ns, the dither `d` having delayed it and been taken out again. -/
def startMark (k b sub d : Nat) : Int := ((k : Int) * 64 + b + ((sub + d) / 64 : Nat)) * 64 - d

/-- A start edge that is taken: it is the channel's last, and the dither goes on to its next value. -/
def Tiu.startTaken (x : Tiu) (start : Option Int) (t : Int) : Tiu :=
  { x with start := start, lastStart := some t, dith := x.dith + 1 }

theorem State.tiuStartEdge_live {s : State} {c k b sub : Nat}
    (hd : deadTime (s.tiu c).lastStart ((k : Int) * 64 + b) = false) : s.tiuStartEdge c k b sub =
      let mark := startMark k b sub (s.dither c)
      let taken := fun x : Tiu => x.startTaken (some mark) ((k : Int) * 64 + b)
      if s.tiuMode c = 2 then (s.upTiu c (fun x => x.startTaken x.start ((k : Int) * 64 + b))).tiuResult c
        (s.tiuTime c (b + (sub + s.dither c) / 64) (s.dither c))
      else match (s.tiu c).start with
        | some t0 => if s.tiuMode c = 0 then s else (s.upTiu c taken).tiuResult c (mark - t0)
        | none => s.upTiu c taken := by
  rw [State.tiuStartEdge]
  simp only [hd]
  rfl

end Sys2Proof.Machine
end

section
/-!
PROOF. O53, clause by clause: PLLs, staged values, SYNCIN and the time-interval unit.
-/

namespace Sys2Proof.Machine

/-! ### PLLs and staged values -/

theorem State.pllLock_resume (s : State) (j : Nat) (h : s.stalled = []) : (s.pllLock j).resume = s.pllLock j := by
  refine State.resume_of_none ?_
  rw [(State.pllLock_kept j (fun _ h => h) (.refl _ s)).only .stalled (by decide), h]

theorem State.pllLock_idle {s : State} {j : Nat} (h : s.boot.coreUp = false ∨ s.isF TPL_PLL_STAT.LOCK j = true) :
    s.pllLock j = s := by
  rw [State.pllLock, if_pos (by rcases h with h | h <;> simp [h])]

theorem State.pllLock_bandless {s : State} {j : Nat} (hc : s.boot.coreUp = true)
    (hl : s.isF TPL_PLL_STAT.LOCK j = false) (hb : (s.pllBand j).2 = false) :
    (s.pllLock j).isF TPL_PLL_STAT.NO_BAND j = true ∧ (s.pllLock j).isF TPL_PLL_STAT.LOCK j = false ∧
      (s.pllLock j).pll j = s.pll j := by
  obtain ⟨hlock, hplls, -⟩ := s.pllBand_law j
  rw [State.pllLock, if_neg (by simp [hc, hl]), if_pos (by simp [hb])]
  refine ⟨State.pllBand_refused hb, ?_, hplls j⟩
  rw [State.isF, hlock TPL_PLL_STAT.LOCK (by decide)]
  exact hl

theorem State.pllLock_law {s : State} {j : Nat} (hc : s.boot.coreUp = true) (hl : s.isF TPL_PLL_STAT.LOCK j = false)
    (hb : (s.pllBand j).2 = true) : (s.pllLock j).isF TPL_PLL_STAT.LOCK j = true ∧
      ((s.pllLock j).pll j).gated = false ∧ ((s.pllLock j).faultSt (0xC8 + j)).present = false ∧
      ((s.pllLock j).time.running = true ↔ j = 2 ∨ s.time.running = true) ∧
      ∀ k, k ≠ j → (s.pllLock j).pll k = s.pll k := by
  obtain ⟨hlock, hgated, hfault, hrun, hothers⟩ := s.pllReleased_law j
  rw [State.pllLock_locks hc hl hb]
  split
  · next h => exact ⟨hlock, hgated, hfault, by simp [h], hothers⟩
  · next h => exact ⟨hlock, hgated, hfault, by simp [h, hrun], hothers⟩

theorem exec_divGo {p : Path} {s : State} (hp : s.pfMay p = true) : exec (.divGo p) s = .next s.loadStaged :=
  congrArg Host.Outcome.next (if_pos hp)

theorem exec_syncArm {p : Path} {s : State} (hp : s.pfMay p = true) :
    exec (.syncArm p) s = .next (s.setF TPL_CS_CTRL.SYNC_ARM 1) := congrArg Host.Outcome.next (if_pos hp)

theorem exec_staging_held {p : Path} {s : State} (hp : s.pfMay p = false) :
    exec (.divGo p) s = .next s ∧ exec (.syncArm p) s = .next s :=
  ⟨congrArg Host.Outcome.next (if_neg (by simp [hp])), congrArg Host.Outcome.next (if_neg (by simp [hp]))⟩

theorem exec_syncinEdge_ignored {n : Nat} {s : State} (hm : (s.getF TPL_CS_CTRL.SYNC_MODE == 2 ||
      (s.getF TPL_CS_CTRL.SYNC_MODE == 1 && s.isF TPL_CS_CTRL.SYNC_ARM)) = false) :
    exec (.syncinEdge n) s = .next s := by
  have he : exec (.syncinEdge n) s = execSyncinEdge n s := rfl
  rw [he, execSyncinEdge]
  dsimp only
  rw [if_neg (by simp [hm])]

theorem exec_syncinEdge_early {n : Nat} {s : State} (hm : (s.getF TPL_CS_CTRL.SYNC_MODE == 2 ||
      (s.getF TPL_CS_CTRL.SYNC_MODE == 1 && s.isF TPL_CS_CTRL.SYNC_ARM)) = true) (h0 : s.time.syncs ≠ 0)
    (hn : n < 1000) : exec (.syncinEdge n) s = .next (s.setF TPL_CS_STAT.SYNC_EARLY 1) := by
  have he : exec (.syncinEdge n) s = execSyncinEdge n s := rfl
  rw [he, execSyncinEdge]
  dsimp only
  rw [if_pos hm, if_pos ⟨h0, hn⟩]

theorem exec_syncinEdge_law {n : Nat} {s : State} (hm : (s.getF TPL_CS_CTRL.SYNC_MODE == 2 ||
      (s.getF TPL_CS_CTRL.SYNC_MODE == 1 && s.isF TPL_CS_CTRL.SYNC_ARM)) = true) (hn : s.time.syncs = 0 ∨ 1000 ≤ n) :
    ∃ t, exec (.syncinEdge n) s = .next t ∧
      t.isF TPL_CS_STAT.SYNC_SEEN = true ∧ t.time.syncs = s.time.syncs + 1 ∧
      (s.getF TPL_CS_CTRL.SYNC_MODE = 1 → t.isF TPL_CS_CTRL.SYNC_ARM = false) ∧
      (∀ k, k < 8 → (t.outp k).synced = (if s.isF TPL_OUT_CFG.SYNC_EN k then s.time.syncs + 1 else (s.outp k).synced) ∧
        (t.outp k).d = (if s.isF TPL_CS_CTRL.LOAD_ON_SYNC then max 1 (s.getF TPL_OUT_DIV.D k) else (s.outp k).d)) ∧
      (s.isF TPL_CS_CTRL.LOAD_ON_SYNC = false → t.plls = s.plls) := by
  obtain ⟨hseen, hsyncs, harm, hen, houts, hplls⟩ := s.syncLoaded_law
  obtain ⟨htime, hregs, hpll, hout⟩ := s.syncLoaded.syncOutputs_law
  refine ⟨_, exec_syncinEdge_accepted hm hn, ?_, by rw [htime, hsyncs], fun h => ?_, fun k hk => ?_, fun h => ?_⟩
  · exact (State.isF_of_regs hregs _ _).trans hseen
  · exact (State.isF_of_regs hregs _ _).trans (harm h)
  · rw [hout k hk, hen, houts k hk, hsyncs]
    constructor <;> split <;> split <;> rfl
  · rw [hpll, hplls h]

/-! ### The time-interval unit -/

theorem exec_abort_law (p : Path) (c : Nat) (s : State) :
    (s.tiuMay p c = true → s.tiuState c = 1 → ∃ t, exec (.abort p c) s = .next t ∧ t.tiuState c = 3 ∧ t.tius = s.tius) ∧
    (s.tiuMay p c = false ∨ s.tiuState c ≠ 1 → exec (.abort p c) s = .next s) :=
  ⟨fun hp h1 => ⟨s.setF TPL_TIU_STAT.STATE 3 c, congrArg Host.Outcome.next (if_pos (by simp [hp, h1])),
    State.getF_tiuState_set _ _ _ (by decide), rfl⟩,
   fun h => congrArg Host.Outcome.next (if_neg (by rcases h with h | h <;> simp [h]))⟩

theorem exec_go_held {p : Path} {c : Nat} {s : State} (h : s.tiuMay p c = false ∨ s.tiuState c = 1) :
    exec (.go p c) s = .next s := congrArg Host.Outcome.next (if_pos (by rcases h with h | h <;> simp [h]))

theorem exec_tiuEdge_held {c k b sub : Nat} {stop : Bool} {s : State} (h : s.tiuState c ≠ 1) :
    exec (.tiuEdge c stop k ⟨b, sub⟩) s = .next s := congrArg Host.Outcome.next (if_pos (by simp [h]))

theorem State.TiuLike.mode {c : Nat} {s v : State} (h : State.TiuLike s v) : v.tiuMode c = s.tiuMode c :=
  State.getF_of_regs h.regs _ _

theorem State.TiuLike.state {c : Nat} {s v : State} (h : State.TiuLike s v) : v.tiuState c = s.tiuState c :=
  State.getF_of_regs h.regs _ _

theorem State.TiuLike.deadMiss {c : Nat} {s v : State} (h : State.TiuLike s v) :
    (v.addF TPL_TIU_ERR.DEAD_MISS 1 c).getF TPL_TIU_ERR.DEAD_MISS c =
      sat (2 ^ TPL_TIU_ERR.DEAD_MISS.width - 1) (s.getF TPL_TIU_ERR.DEAD_MISS c + 1) := by
  rw [State.getF_addF_same, State.getF_of_regs h.regs]

theorem exec_tiuEdge_untaken {c k b sub : Nat} {s : State} (h1 : s.tiuState c = 1) :
    ((s.tiu c).preStop = 0 → s.tiuMode c ≠ 0 → ∃ t, exec (.tiuEdge c true k ⟨b, sub⟩) s = .next t ∧
      t.tiu c = { s.tiu c with preStop := 2 ^ s.getF TPL_TIU_CFG.PRE_STOP c - 1 } ∧ t.regs = s.regs) ∧
    ((s.tiu c).preStop = 0 → s.tiuMode c = 0 → deadTime (s.tiu c).lastStop ((k : Int) * 64 + b) = true →
      ∃ t, exec (.tiuEdge c true k ⟨b, sub⟩) s = .next t ∧
        t.tiu c = { s.tiu c with preStop := 2 ^ s.getF TPL_TIU_CFG.PRE_STOP c - 1 } ∧
        t.getF TPL_TIU_ERR.DEAD_MISS c = sat (2 ^ TPL_TIU_ERR.DEAD_MISS.width - 1) (s.getF TPL_TIU_ERR.DEAD_MISS c + 1)) ∧
    ((s.tiu c).preStart = 0 → deadTime (s.tiu c).lastStart ((k : Int) * 64 + b) = true →
      ∃ t, exec (.tiuEdge c false k ⟨b, sub⟩) s = .next t ∧
        t.tiu c = { s.tiu c with preStart := 2 ^ s.getF TPL_TIU_CFG.PRE_START c - 1 } ∧
        t.getF TPL_TIU_ERR.DEAD_MISS c = sat (2 ^ TPL_TIU_ERR.DEAD_MISS.width - 1) (s.getF TPL_TIU_ERR.DEAD_MISS c + 1)) := by
  have hlike := s.stopScaled_like c (k - s.time.tclk)
  have htiu := s.stopScaled_tiu c (k - s.time.tclk)
  have hlike' := s.startScaled_like c (k - s.time.tclk)
  have htiu' := s.startScaled_tiu c (k - s.time.tclk)
  refine ⟨fun h0 hm => ⟨_, exec_tiuEdge_stop h1 h0, ?_⟩, fun h0 hm hd => ⟨_, exec_tiuEdge_stop h1 h0, ?_⟩,
    fun h0 hd => ⟨_, exec_tiuEdge_start h1 h0, ?_⟩⟩
  · rw [State.tiuStopEdge_idle (by rw [hlike.mode]; exact hm)]
    exact ⟨htiu, hlike.regs⟩
  · rw [State.tiuStopEdge_dead (hlike.mode.trans hm) (by rw [htiu]; exact hd)]
    exact ⟨htiu, hlike.deadMiss⟩
  · rw [State.tiuStartEdge_dead (by rw [htiu']; exact hd)]
    exact ⟨htiu', hlike'.deadMiss⟩

/-- What a start edge that is taken leaves, by the channel's mode and by whether a measurement runs (R350, R355). -/
theorem exec_tiuEdge_started {c k b sub : Nat} {mark : Int} {s : State} (h1 : s.tiuState c = 1)
    (h0 : (s.tiu c).preStart = 0) (hd : deadTime (s.tiu c).lastStart ((k : Int) * 64 + b) = false)
    (hmark : mark = startMark k b sub (s.dither c)) : ∃ t, exec (.tiuEdge c false k ⟨b, sub⟩) s = .next t ∧
      ((s.tiu c).start = none → s.tiuMode c ≠ 2 → (t.tiu c).start = some mark ∧
        (t.tiu c).lastStart = some ((k : Int) * 64 + b) ∧ (t.tiu c).n = (s.tiu c).n) ∧
      (∀ t0, (s.tiu c).start = some t0 → s.tiuMode c = 0 → (t.tiu c).start = some t0 ∧ (t.tiu c).n = (s.tiu c).n) ∧
      (∀ v, (∃ t0, (s.tiu c).start = some t0 ∧ s.tiuMode c = 1 ∧ v = mark - t0) ∨
          (s.tiuMode c = 2 ∧ v = (s.edges (k - s.time.tclk)).tiuTime c (b + (sub + s.dither c) / 64) (s.dither c)) →
        (t.tiu c).n = (s.tiu c).n + 1 ∧ (t.tiu c).sum = (s.tiu c).sum + v ∧
        t.getF TPL_TIU_LAST_LO.LAST c = unsign 48 v % 4294967296 ∧
        t.tiuState c = if s.tiuN c ≤ (s.tiu c).n + 1 then 2 else 1) := by
  have hlike := s.startScaled_like c (k - s.time.tclk)
  have htiu := s.startScaled_tiu c (k - s.time.tclk)
  have htime : ∀ i d, (s.startScaled c (k - s.time.tclk)).tiuTime c i d = (s.edges (k - s.time.tclk)).tiuTime c i d :=
    fun i d => State.tiuTime_upTiu _ _ _ _ _ _
  have hdither := hlike.dither (by rw [htiu])
  have hN := hlike.tiuN (c := c)
  have hmode := hlike.mode (c := c)
  have hstate : State.tiuState _ c = 1 := hlike.state.trans h1
  refine ⟨_, exec_tiuEdge_start h1 h0, ?_⟩
  generalize s.startScaled c (k - s.time.tclk) = v at hlike htiu htime hdither hN hmode hstate ⊢
  have htook : ∀ (start : Option Int) (x : Int) (t : State),
      t = (v.upTiu c (fun y => y.startTaken start ((k : Int) * 64 + b))).tiuResult c x →
      (t.tiu c).n = (s.tiu c).n + 1 ∧ (t.tiu c).sum = (s.tiu c).sum + x ∧
        t.getF TPL_TIU_LAST_LO.LAST c = unsign 48 x % 4294967296 ∧
        t.tiuState c = if s.tiuN c ≤ (s.tiu c).n + 1 then 2 else 1 := fun start x t ht => by
    obtain ⟨-, hn, hsum, hlast, hst⟩ := State.TiuTook.of_upTiu (ht ▸ State.tiuResult_took _ c x) rfl rfl
    rw [htiu] at hn hsum hst
    rw [hN, hstate] at hst
    exact ⟨hn, hsum, hlast, hst⟩
  rw [State.tiuStartEdge_live (by rw [htiu]; exact hd), hdither, hmode, ← hmark]
  dsimp only
  by_cases h2 : s.tiuMode c = 2
  · rw [if_pos h2]
    refine ⟨fun _ h => absurd h2 h, fun _ _ h => absurd (h.symm.trans h2) (by decide), fun x hx => ?_⟩
    rcases hx with ⟨_, _, h, _⟩ | ⟨_, rfl⟩
    · exact absurd (h.symm.trans h2) (by decide)
    · rw [← htime]
      exact htook _ _ _ rfl
  · rw [if_neg h2, htiu]
    cases hs : (s.tiu c).start with
    | none =>
      refine ⟨fun _ _ => ?_, fun _ h => by simp at h, fun x hx => ?_⟩
      · dsimp only
        rw [State.tiu_upTiu_same, htiu]
        exact ⟨rfl, rfl, rfl⟩
      · rcases hx with ⟨_, h, _⟩ | ⟨h, _⟩
        · simp at h
        · exact absurd h h2
    | some t0 =>
      refine ⟨fun h => by simp at h, fun t1 ht hm => ?_, fun x hx => ?_⟩
      · dsimp only
        rw [if_pos hm, htiu]
        exact ⟨hs.trans ht, rfl⟩
      · rcases hx with ⟨t1, ht, hm, rfl⟩ | ⟨h, _⟩
        · dsimp only
          rw [if_neg (by rw [hm]; decide), Option.some.inj ht]
          exact htook _ _ _ rfl
        · exact absurd h h2

theorem State.TiuLike.stopMisses {c : Nat} {s v : State} (h : State.TiuLike s v)
    (hl : (v.tiu c).lastStart = (s.tiu c).lastStart) (t t0 : Int) : v.stopMisses c t t0 = s.stopMisses c t t0 := by
  have hmax : v.tiuWinMax c = s.tiuWinMax c := by
    rw [State.tiuWinMax, State.getF_of_regs h.regs]
    rfl
  rw [State.stopMisses, hmax, hl, State.getF_of_regs h.regs, State.getF_of_regs h.regs, State.getF_of_regs h.regs]
  rfl

/-- What a stop edge that is taken leaves of a measurement that runs (R352, R354). -/
theorem exec_tiuEdge_stopped {c k b sub : Nat} {t0 : Int} {s : State} (h1 : s.tiuState c = 1) (hm : s.tiuMode c = 0)
    (h0 : (s.tiu c).preStop = 0) (hs : (s.tiu c).start = some t0)
    (hd : deadTime (s.tiu c).lastStop ((k : Int) * 64 + b) = false) : ∃ t, exec (.tiuEdge c true k ⟨b, sub⟩) s = .next t ∧
      (s.stopMisses c ((k : Int) * 64 + b) t0 = true → (t.tiu c).start = some t0 ∧ (t.tiu c).n = (s.tiu c).n) ∧
      (s.stopMisses c ((k : Int) * 64 + b) t0 = false → ∀ d, d = ((k : Int) * 64 + b) * 64 - t0 + s.tiuFix c →
        (t.tiu c).start = none ∧ (t.tiu c).n = (s.tiu c).n + 1 ∧ (t.tiu c).sum = (s.tiu c).sum + d ∧
        t.getF TPL_TIU_LAST_LO.LAST c = unsign 48 d % 4294967296 ∧
        t.tiuState c = if s.tiuN c ≤ (s.tiu c).n + 1 then 2 else 1) := by
  have hlike := s.stopScaled_like c (k - s.time.tclk)
  have htiu := s.stopScaled_tiu c (k - s.time.tclk)
  refine ⟨_, exec_tiuEdge_stop h1 h0, ?_⟩
  generalize s.stopScaled c (k - s.time.tclk) = v at hlike htiu ⊢
  rw [State.tiuStopEdge_live (hlike.mode.trans hm) (by rw [htiu]; exact hd) (by rw [htiu]; exact hs),
    hlike.stopMisses (by rw [htiu]), hlike.tiuFix]
  refine ⟨fun h => ?_, fun h d he => ?_⟩
  · rw [if_pos h, htiu]
    exact ⟨hs, rfl⟩
  · rw [if_neg (by simp [h]), ← he]
    obtain ⟨hstart, hn, hsum, hlast, hst⟩ := State.TiuTook.of_upTiu (State.tiuResult_took
      (v.upTiu c (fun x => { x with start := none, lastStop := some ((k : Int) * 64 + b) })) c d) rfl rfl
    rw [htiu] at hn hsum hst
    rw [hlike.tiuN, hlike.state, h1] at hst
    exact ⟨hstart, hn, hsum, hlast, hst⟩

theorem exec_tiuTimeout_law (c : Nat) (s : State) :
    (s.tiuState c = 1 → s.tiuMode c = 0 → (s.tiu c).start ≠ none →
      ∃ t, exec (.tiuTimeout c) s = .next t ∧ (t.tiu c).start = none ∧
        t.getF TPL_TIU_ERR.TIMEOUTS c = sat (2 ^ TPL_TIU_ERR.TIMEOUTS.width - 1) (s.getF TPL_TIU_ERR.TIMEOUTS c + 1)) ∧
    (s.tiuState c ≠ 1 ∨ s.tiuMode c ≠ 0 ∨ (s.tiu c).start = none → exec (.tiuTimeout c) s = .next s) := by
  refine ⟨fun h1 hm hs => ⟨_, congrArg Host.Outcome.next (if_pos (by simp [h1, hm, Option.isSome_iff_ne_none, hs])), ?_, ?_⟩,
    fun h => congrArg Host.Outcome.next (if_neg ?_)⟩
  · rw [State.addF_tiu, State.tiu_upTiu_same]
  · exact State.getF_addF_same (s.upTiu c (fun x => { x with start := none })) _ _ _
  · rcases h with h | h | h <;> simp [h]

end Sys2Proof.Machine

namespace Sys2Proof.Proofs

open Sys2Proof.Machine

/-- Settles O53: each clause by the law of its event, the TIU's edges by what their prescaler lets through. -/
theorem pllsGateTheirOutputsAndStagedValuesLoadTogether :
    Obligations.PllsGateTheirOutputsAndStagedValuesLoadTogether := by
  unfold Obligations.PllsGateTheirOutputsAndStagedValuesLoadTogether
  refine ⟨fun j s _ => ?lock, fun j s hj => ?loss, fun p s => ?staged, fun n ok s hok => ?syncin, fun p c s => ?go,
    fun c k b sub stop s h => exec_tiuEdge_held h, fun c k b sub s u _ h1 hu => ?untaken,
    fun c k b sub mark s u _ h1 hu h0 hd hmark => ?started, fun c k b sub t0 d s _ h1 hm h0 hs hd hde => ?stopped,
    fun c s _ => exec_tiuTimeout_law c s⟩
  case lock =>
    exact ⟨s.pllLock j, rfl, s.pllLock_resume j, State.pllLock_idle,
      fun hc hl => ⟨State.pllLock_bandless hc hl, State.pllLock_law hc hl⟩⟩
  case loss =>
    exact ⟨fun h => congrArg Host.Outcome.next (if_pos (by simp [h])), s.pllLossOfLock_law hj⟩
  case staged =>
    refine ⟨exec_staging_held, fun hp => ⟨⟨_, exec_divGo hp, fun n hn => ?_, s.loadStaged_loaded.vco⟩, _, exec_syncArm hp,
      s.isF_setF_flag (f := TPL_CS_CTRL.SYNC_ARM) rfl true 0⟩⟩
    rw [s.loadStaged_loaded.outs n hn]
    exact ⟨rfl, rfl, s.loadStaged_loaded.outPending n hn⟩
  case syncin =>
    subst hok
    exact ⟨exec_syncinEdge_ignored, exec_syncinEdge_early, exec_syncinEdge_law⟩
  case go =>
    exact ⟨exec_go_held, exec_go_law, exec_abort_law p c s⟩
  case untaken =>
    subst hu
    obtain ⟨hstop, hstart⟩ := exec_tiuEdge_passed (k := k) (b := b) (sub := sub) h1
    exact ⟨hstop, hstart, exec_tiuEdge_untaken h1⟩
  case started =>
    subst hu
    exact exec_tiuEdge_started h1 h0 hd hmark
  case stopped =>
    subst hde
    obtain ⟨t, he, hmiss, htake⟩ := exec_tiuEdge_stopped (sub := sub) h1 hm h0 hs hd
    refine ⟨t, he, fun h => hmiss ?_, fun hlo hhi h => htake ?_ _ rfl⟩
    · simpa [State.stopMisses, or_assoc] using h
    · simp only [State.stopMisses, Bool.or_eq_false_iff, Bool.and_eq_false_iff, decide_eq_false_iff_not, beq_eq_false_iff_ne]
      exact ⟨⟨by omega, by omega⟩, h⟩

end Sys2Proof.Proofs
end

section
/-!
PROOF. Measured offsets and the discontinuity record (R305–R307, R364, R453).
-/

namespace Sys2Proof.Machine

/-! ### What the record's operations leave of the time -/

/-- The fields on which the step policy of HARDWARE mode rests. -/
def policyFields : List Nat := [TPL_TB_STAT.TIME_VALID.id, TPL_TB_POL.STEP_THRESH_NS.id, TPL_TB_POL.FWD_POL.id,
  TPL_TB_POL.BACK_POL.id]

/-- The fields in which a record shows. -/
def discFields : List Nat := [TPL_TB_STAT.DISC_PENDING.id, TPL_TB_STAT.PEND_ID.id]

theorem State.deliverOffset_time (s : State) (d : Int) :
    (s.deliverOffset d).time = { s.time with offset := d, measured := true } := by
  unfold State.deliverOffset
  extract_lets time u
  split
  · exact (State.setRef_kept 25 2 (fun _ h => h) (.refl _ u)).only .time (by decide)
  · rfl

theorem State.timePending_time (s : State) (id : Nat) (d : Int) : (s.timePending id d).time = s.time :=
  (State.timePending_kept id d (fun _ h => h) (.refl _ s)).only .time (by decide)

theorem State.timePending_same (s : State) (id : Nat) (d : Int) {l : List Nat} (hl : ∀ x ∈ l, x ∉ reportFields) :
    s.Same l (s.timePending id d) := (State.event_quiet _ _ _ _ _ _ _).same_fields hl

theorem State.endTimeAuth_time (s : State) (status : Nat) : (s.endTimeAuth status).time = s.time :=
  (State.endTimeAuth_kept status (fun _ h => h) (.refl _ s)).only .time (by decide)

theorem State.endTimeAuth_same (s : State) (status : Nat) {l : List Nat} (hl : ∀ x ∈ l, x ∉ reportFields) :
    s.Same l (s.endTimeAuth status) :=
  State.Same.foldl _ _ (.of_regs rfl) fun t c ht => ht.trans (t.done_same c status hl)

/-! ### The record (R306, R307) -/

/-- The ID that the next record takes (R306). -/
def State.nextDiscId (s : State) : Nat := if s.time.lastId = 65535 then 1 else s.time.lastId + 1

theorem State.openDisc_time (s : State) (d : Int) : (s.openDisc d).time =
    { s.time with lastId := s.nextDiscId, disc := some { id := s.nextDiscId, off := d } } := State.timePending_time _ _ _

theorem State.openDisc_shows (s : State) (d : Int) : (s.openDisc d).isF TPL_TB_STAT.DISC_PENDING = true ∧
    (s.openDisc d).getF TPL_TB_STAT.PEND_ID = s.nextDiscId % 65536 := by
  unfold State.openDisc
  extract_lets id time u
  have h := State.timePending_same ((u.setF TPL_TB_STAT.DISC_PENDING 1).setF TPL_TB_STAT.PEND_ID id) id d (l := discFields)
    (by decide)
  refine ⟨?_, ?_⟩
  · refine (congrArg (· != 0) (h TPL_TB_STAT.DISC_PENDING (by decide) 0)).trans ?_
    exact (State.isF_setF_ne _ _ TPL_TB_STAT.DISC_PENDING _ _ _ (by decide)).trans
      (u.isF_setF_flag (f := TPL_TB_STAT.DISC_PENDING) rfl true 0)
  · exact (h TPL_TB_STAT.PEND_ID (by decide) 0).trans (State.getF_setF_same _ _ _ _)

theorem State.closeDisc_time (s : State) (status : Nat) : (s.closeDisc status).time = { s.time with disc := none } :=
  State.endTimeAuth_time _ _

theorem State.closeDisc_shows (s : State) (status : Nat) :
    (s.closeDisc status).isF TPL_TB_STAT.DISC_PENDING = false := by
  unfold State.closeDisc
  extract_lets time u
  have h := State.endTimeAuth_same ((u.setF TPL_TB_STAT.DISC_PENDING 0).setF TPL_TB_STAT.PEND_ID 0) status
    (l := discFields) (by decide)
  refine (congrArg (· != 0) (h TPL_TB_STAT.DISC_PENDING (by decide) 0)).trans ?_
  exact (State.isF_setF_ne _ _ TPL_TB_STAT.DISC_PENDING _ _ _ (by decide)).trans
    (u.isF_setF_flag (f := TPL_TB_STAT.DISC_PENDING) rfl false 0)

/-! ### The policy (R305, R306) -/

/-- Without a record, an offset is the first setting before time is valid, and opens a record beyond the threshold. -/
theorem State.applyPolicy_none {s : State} {d : Int} (h : s.time.disc = none) : s.applyPolicy d =
    if s.isF TPL_TB_STAT.TIME_VALID = false then { s with time := { s.time with firstStep := some d } }
    else if (d.natAbs : Int) ≤ s.stepThresh then s else s.openDisc d := by
  simp only [State.applyPolicy, h, decide_eq_true_eq, Bool.not_eq_true']

/-- A pending record is closed, confirmed or replaced. -/
theorem State.applyPolicy_some {s : State} {d : Int} {r : Disc} (h : s.time.disc = some r) : s.applyPolicy d =
    if (d.natAbs : Int) ≤ s.stepThresh then (s.timePending r.id 0).closeDisc stPast
    else if ((d - r.off).natAbs : Int) ≤ s.stepThresh then s.confirmDisc r d
    else (s.closeDisc stPast).openDisc d := by
  simp only [State.applyPolicy, h, decide_eq_true_eq]

/-- The time is as it was, but for the records and the first setting. -/
def State.DiscOnly (s t : State) : Prop :=
  t.time = { s.time with disc := t.time.disc, lastId := t.time.lastId, firstStep := t.time.firstStep }

theorem State.applyPolicy_discOnly (s : State) (d : Int) : s.DiscOnly (s.applyPolicy d) := by
  unfold State.DiscOnly
  cases h : s.time.disc with
  | none =>
    rw [State.applyPolicy_none h]
    split
    · rfl
    · split
      · rfl
      · rw [State.openDisc_time]
  | some r =>
    rw [State.applyPolicy_some h]
    split
    · rw [State.closeDisc_time, State.timePending_time]
    · split
      · rfl
      · rw [State.openDisc_time, State.closeDisc_time]

/-- A replaced record takes the next ID. -/
theorem State.replaced_time (s : State) (d : Int) : ((s.closeDisc stPast).openDisc d).time =
    { s.time with lastId := s.nextDiscId, disc := some { id := s.nextDiscId, off := d } } := by
  have h : (s.closeDisc stPast).nextDiscId = s.nextDiscId := by
    rw [State.nextDiscId, State.closeDisc_time]
    rfl
  rw [State.openDisc_time, h, State.closeDisc_time]

/-- The state after a measured offset, the count of the window apart. -/
def State.offsetTaken (s : State) (d : Int) : State :=
  if s.time.software then s.deliverOffset d else (s.deliverOffset d).applyPolicy d

theorem exec_offsetMeasurement {d : Int} {s : State} (h : s.fwRuns = true) : exec (.offsetMeasurement d) s =
    .next { s.offsetTaken d with
      window := { (s.offsetTaken d).window with measured := (s.offsetTaken d).time.disc.isNone } } := by
  have he : exec (.offsetMeasurement d) s = execOffsetMeasurement d s := rfl
  rw [he, execOffsetMeasurement, if_neg (by simp [h]), State.offsetTaken]
  dsimp only
  rw [State.deliverOffset_time]

theorem State.offsetTaken_time (s : State) (d : Int) : (s.offsetTaken d).time.offset = d ∧
    (s.offsetTaken d).time.measured = true ∧ (s.offsetTaken d).time.a = s.time.a ∧
    (s.offsetTaken d).time.b = s.time.b ∧ (s.offsetTaken d).time.adj = s.time.adj := by
  have h : (s.deliverOffset d).DiscOnly (s.offsetTaken d) := by
    unfold State.offsetTaken
    split
    · rfl
    · exact State.applyPolicy_discOnly _ d
  unfold State.DiscOnly at h
  rw [h, State.deliverOffset_time]
  exact ⟨rfl, rfl, rfl, rfl, rfl⟩

/-! ### The measured offset of HARDWARE mode -/

/-- What the policy sees of the state is as it was before the offset was kept. -/
theorem State.deliverOffset_policy (s : State) (d : Int) : (s.deliverOffset d).time.disc = s.time.disc ∧
    (s.deliverOffset d).nextDiscId = s.nextDiscId ∧ (s.deliverOffset d).stepThresh = s.stepThresh ∧
    (s.deliverOffset d).isF TPL_TB_STAT.TIME_VALID = s.isF TPL_TB_STAT.TIME_VALID ∧
    ∀ e, (s.deliverOffset d).stepConfirm e = s.stepConfirm e := by
  have h := s.deliverOffset_same (l := policyFields) (by decide) d
  refine ⟨by rw [State.deliverOffset_time], ?_, ?_, congrArg (· != 0) (h TPL_TB_STAT.TIME_VALID (by decide) 0), fun e => ?_⟩
  · rw [State.nextDiscId, State.deliverOffset_time]
    rfl
  · rw [State.stepThresh, h TPL_TB_POL.STEP_THRESH_NS (by decide)]
    rfl
  · rw [State.stepConfirm, h TPL_TB_POL.FWD_POL (by decide), h TPL_TB_POL.BACK_POL (by decide)]
    rfl

theorem State.offsetTaken_software {s : State} (h : s.time.software = true) (d : Int) :
    s.offsetTaken d = s.deliverOffset d := if_pos h

theorem State.offsetTaken_hardware {s : State} (h : s.time.software = false) (d : Int) :
    s.offsetTaken d = (s.deliverOffset d).applyPolicy d := if_neg (by simp [h])

/-- With no record pending (R305, R306). -/
theorem State.offsetTaken_none {s : State} {d : Int} (hs : s.time.software = false) (hn : s.time.disc = none) :
    (s.isF TPL_TB_STAT.TIME_VALID = false →
      (s.offsetTaken d).time.firstStep = some d ∧ (s.offsetTaken d).time.disc = none) ∧
    (s.isF TPL_TB_STAT.TIME_VALID = true → (d.natAbs : Int) ≤ s.stepThresh → (s.offsetTaken d).time.disc = none) ∧
    (s.isF TPL_TB_STAT.TIME_VALID = true → s.stepThresh < (d.natAbs : Int) →
      (s.offsetTaken d).isF TPL_TB_STAT.DISC_PENDING = true ∧
      (s.offsetTaken d).getF TPL_TB_STAT.PEND_ID = s.nextDiscId % 65536 ∧
      (s.offsetTaken d).time.lastId = s.nextDiscId ∧
      (s.offsetTaken d).time.disc = some { id := s.nextDiscId, off := d }) := by
  obtain ⟨hdisc, hnext, hth, hvalid, -⟩ := s.deliverOffset_policy d
  rw [State.offsetTaken_hardware hs, State.applyPolicy_none (hdisc.trans hn), hvalid, hth]
  refine ⟨fun hv => ?_, fun hv hd => ?_, fun hv hd => ?_⟩
  · rw [if_pos hv]
    exact ⟨rfl, hdisc.trans hn⟩
  · rw [if_neg (by simp [hv]), if_pos hd, hdisc, hn]
  · rw [if_neg (by simp [hv]), if_neg (Int.not_le.2 hd), State.openDisc_time, ← hnext]
    exact ⟨(State.openDisc_shows _ d).1, (State.openDisc_shows _ d).2, rfl, rfl⟩

/-- With a record pending (R305–R307). -/
theorem State.offsetTaken_some {s : State} {d : Int} {r : Disc} (hs : s.time.software = false)
    (hr : s.time.disc = some r) :
    ((d.natAbs : Int) ≤ s.stepThresh →
      (s.offsetTaken d).time.disc = none ∧ (s.offsetTaken d).isF TPL_TB_STAT.DISC_PENDING = false) ∧
    (s.stepThresh < (d.natAbs : Int) → ((d - r.off).natAbs : Int) ≤ s.stepThresh →
      (s.offsetTaken d).time.disc = some { r with
        off := d, confs := r.confs + 1, ready := r.ready || r.auth || (s.stepConfirm d && decide (3 ≤ r.confs + 1)) }) ∧
    (s.stepThresh < (d.natAbs : Int) → s.stepThresh < ((d - r.off).natAbs : Int) →
      (s.offsetTaken d).time.disc = some { id := s.nextDiscId, off := d } ∧
      (s.offsetTaken d).time.lastId = s.nextDiscId) := by
  obtain ⟨hdisc, hnext, hth, -, hconfirm⟩ := s.deliverOffset_policy d
  rw [State.offsetTaken_hardware hs, State.applyPolicy_some (hdisc.trans hr), hth]
  refine ⟨fun hd => ?_, fun hd hn => ?_, fun hd hn => ?_⟩
  · rw [if_pos hd]
    exact ⟨by rw [State.closeDisc_time], State.closeDisc_shows _ _⟩
  · rw [if_neg (Int.not_le.2 hd), if_pos hn, ← hconfirm d]
    rfl
  · rw [if_neg (Int.not_le.2 hd), if_neg (Int.not_le.2 hn), State.replaced_time, hnext]
    exact ⟨rfl, rfl⟩

end Sys2Proof.Machine

namespace Sys2Proof.Proofs

open Sys2Proof.Machine

/-- Settles O36: the offset is kept first, which the policy does not see; then by the record that is pending. -/
theorem measuredOffsetsOpenConfirmAndCloseTheRecord : Obligations.MeasuredOffsetsOpenConfirmAndCloseTheRecord := by
  unfold Obligations.MeasuredOffsetsOpenConfirmAndCloseTheRecord
  refine ⟨fun d s h => congrArg Host.Outcome.next (if_pos (by simp [h])), fun d s h => ⟨_, exec_offsetMeasurement h, ?_⟩⟩
  obtain ⟨hoffset, hmeasured, ha, hb, hadj⟩ := s.offsetTaken_time d
  refine ⟨hoffset, hmeasured, ha, hb, hadj, rfl, fun hs => ?_, fun hs hn hv => ?_, fun hs hn hv => ?_, fun r hs hr => ?_⟩
  · rw [State.offsetTaken_software hs, State.deliverOffset_time]
    exact ⟨rfl, rfl⟩
  · exact (State.offsetTaken_none hs hn).1 hv
  · obtain ⟨-, hsmall, hlarge⟩ := State.offsetTaken_none (d := d) hs hn
    refine ⟨hsmall hv, fun hd => ?_⟩
    obtain ⟨hpending, hid, hlast, hdisc⟩ := hlarge hv hd
    dsimp only
    rw [hlast]
    exact ⟨hpending, hid, rfl, hdisc⟩
  · obtain ⟨hsmall, hconfirms, hreplaces⟩ := State.offsetTaken_some (d := d) hs hr
    refine ⟨hsmall, fun hd hn => ⟨_, hconfirms hd hn, rfl⟩, fun hd hn => ?_⟩
    obtain ⟨hdisc, hlast⟩ := hreplaces hd hn
    dsimp only
    rw [hlast]
    exact ⟨hdisc, rfl⟩

end Sys2Proof.Proofs
end

section
/-!
PROOF. A servo update: where DISC_CNT moves a step was applied, and nothing behind the step moves the slew (R304).
-/

namespace Sys2Proof.Machine

/-- DISC_CNT, which counts the steps applied (R309). -/
def countField : List Nat := [TPL_TB_STAT.DISC_CNT.id]

/-! ### Before the step (R296–R301, R466) -/

theorem State.reloadFailed_count (s : State) : s.Same countField s.reloadFailed := by
  unfold State.reloadFailed
  split
  · exact State.Same.trans (t := { s with time := { s.time with a := s.now, b := s.now } }) (.of_regs rfl)
      (State.clearFault_same _ (by decide))
  · exact .refl _ s

theorem State.servoMode_count (s : State) : s.Same countField s.servoMode := by
  unfold State.servoMode
  extract_lets soft _ s1 s2 f
  have h2 : s.Same countField s2 := State.Same.setF (.of_regs (t := s1) rfl) _ _ _ (by decide)
  split
  · exact .refl _ s
  split
  · exact h2
  · exact (h2.setF TPL_DPLL_FOFF.FOFF (unsign 32 f) 0 (by decide)).trans (.of_regs rfl)

theorem State.takeInc_count (s : State) (v : Int) : s.Same countField (s.takeInc v) := by
  unfold State.takeInc
  extract_lets c s1
  have h1 : s.Same countField s1 := by
    unfold s1
    split
    · exact s.setF_same _ _ _ (by decide)
    · exact .refl _ s
  exact h1.trans (.of_regs rfl)

theorem State.servoInc_count (s : State) : s.Same countField s.servoInc := by
  unfold State.servoInc
  split
  · split
    · exact State.Same.trans (t := { s with time := { s.time with incNext := none } }) (.of_regs rfl)
        (State.takeInc_count _ _)
    · exact .refl _ s
  · exact ((s.takeInc_count _).setF _ _ _ (by decide)).setF _ _ _ (by decide)

/-! ### The step (R305, R308–R311) -/

/-- Nothing remains of the slew once a step has been applied (R304). -/
theorem State.applyStep_adj (s : State) (d : Int) : (s.applyStep d).time.adj = 0 := by
  unfold State.applyStep
  extract_lets old _ s1 s2 s3 s4
  have h4 : s4.time.adj = 0 := by
    unfold s4
    split
    · rw [State.closeDisc_time]
      rfl
    · rfl
  have hgen := (State.stepGenerators_kept old d (fun _ h => h) (.refl _ s4)).only .time (by decide)
  have htiu := (State.tiuStep_kept (fun _ h => h) (.refl _ (s4.stepGenerators old d))).only .time (by decide)
  have htrace := (State.trace_kept 0 0 [] (fun _ h => h) (.refl _ (s4.stepGenerators old d).tiuStep)).only .time (by decide)
  rw [htrace, htiu, hgen, h4]

/-- DISC_CNT stands, or a step has been applied. -/
def State.CountOrDone (s t : State) : Prop := s.Same countField t ∨ t.time.adj = 0

theorem State.refuseStep_count (s : State) : s.Same countField s.refuseStep :=
  ((s.setF_same _ _ _ (by decide)).setF _ _ _ (by decide)).trans
    ((State.raiseOnce_raised _ _ _ _ (.refl _)).same_fields (by decide))

theorem State.hardStep_countOrDone (s : State) : s.CountOrDone s.hardStep.1 := by
  unfold State.hardStep
  split
  · extract_lets _ s1
    split
    · exact .inl (State.Same.trans (t := s1) (.of_regs rfl) s1.refuseStep_count)
    · dsimp only
      exact .inr (s1.applyStep_adj _)
  · split
    · split
      · dsimp only
        exact .inr (s.applyStep_adj _)
      · exact .inl (.refl _ s)
    · exact .inl (.refl _ s)

theorem State.softStep_countOrDone (s : State) : s.CountOrDone s.softStep.1 := by
  unfold State.softStep
  split
  · exact .inl (.refl _ s)
  · extract_lets s1 ns
    split
    · exact .inl (s.setF_same _ _ _ (by decide))
    · dsimp only
      exact .inr (s1.applyStep_adj _)

/-! ### Temper's part (R498–R501) -/

theorem State.checkRun_count (s : State) : s.Same countField s.checkRun := by
  unfold State.checkRun
  split
  · exact .refl _ s
  split
  · split
    · exact .refl _ s
    · exact State.Same.setF (.of_regs rfl) _ _ _ (by decide)
  · exact (State.endTemperRun_raised _ _ _ (.refl s)).same_fields (by decide)

theorem State.endRun_count (s : State) : s.Same countField s.endRun := by
  unfold State.endRun
  split
  · exact .refl _ s
  · extract_lets n s1 _ s2 s3 t s4 s5 _ _ s6
    have h2 : s.Same countField s2 := (s.setF_same _ _ _ (by decide)).trans (t := s1) (.of_regs rfl)
    have h3 : s.Same countField s3 := (h2.setF _ _ _ (by decide)).setF _ _ _ (by decide)
    have h5 : s3.Same countField s5 := (s3.setF_same _ _ _ (by decide)).setF _ _ _ (by decide)
    have h6 : s3.Same countField s6 := by
      unfold s6
      split
      · exact h5.trans (.of_regs rfl)
      · exact .of_regs rfl
    exact ((h3.trans h6).trans (s6.setF_same _ _ _ (by decide))).trans (State.checkRun_count _)

theorem State.nextRun_count (n : Nat) : ∀ s : State, s.Same countField (s.nextRun n) := by
  induction n with
  | zero => exact fun s => .refl _ s
  | succ n ih =>
    intro s
    rw [State.nextRun]
    split
    · exact .refl _ s
    split
    · exact .refl _ s
    · extract_lets lanes d s1 s2 _ s3
      have h2 : s.Same countField s2 := ((State.Same.of_regs (t := d.2) rfl).setF _ _ _ (by decide) |>.setF _ _ _
        (by decide)).setF _ _ _ (by decide)
      have h3 : s.Same countField s3 := h2.trans (.of_regs rfl)
      clear_value s3
      split
      · exact (h3.trans s3.endRun_count).trans (ih _)
      · exact h3

/-- DISC_CNT and the remaining slew stand. -/
structure State.SlewHeld (s t : State) : Prop where
  count : s.Same countField t
  adj : t.time.adj = s.time.adj

theorem State.SlewHeld.refl (s : State) : s.SlewHeld s := ⟨.refl _ s, rfl⟩

theorem State.SlewHeld.trans {s t u : State} (h : s.SlewHeld t) (k : t.SlewHeld u) : s.SlewHeld u :=
  ⟨h.count.trans k.count, k.adj.trans h.adj⟩

theorem State.SlewHeld.foldl {α : Type} {f : State → α → State} (hf : ∀ (t : State) (a : α), t.SlewHeld (f t a))
    (l : List α) : ∀ s : State, s.SlewHeld (l.foldl f s) := by
  induction l with
  | nil => exact .refl
  | cons a l ih => exact fun s => (hf s a).trans (ih _)

theorem State.Kept.slewHeld {ps : List Part} {s t : State} (h : s.Kept ps t) (ht : Part.time ∉ ps)
    (hc : s.Same countField t) : s.SlewHeld t := ⟨hc, congrArg Time.adj (h.only .time ht : t.time = s.time)⟩

theorem State.Raised.slewHeld {s t : State} (h : s.Raised t) : s.SlewHeld t :=
  ⟨h.same_fields (by decide), by rw [h.time.1]⟩

theorem State.SlewHeld.of_eq {s t : State} (hr : t.regs = s.regs) (ht : t.time = s.time) : s.SlewHeld t :=
  ⟨.of_regs hr, by rw [ht]⟩

theorem State.SlewHeld.setF {s t : State} (h : s.SlewHeld t) {f : Fld} (hf : f.id ∉ countField) (v i : Nat) :
    s.SlewHeld (t.setF f v i) := ⟨h.count.setF f v i hf, h.adj⟩

theorem State.temperEnter_count (s : State) : s.Same countField s.temperEnter := by
  refine State.foldl_same State.enterItem _ (fun t k => ?_) s
  unfold State.enterItem
  split
  · rcases t.movePair_cases (k / 65536) (k % 65536) with e | ⟨x, -, e⟩
    · rw [e]
      exact .refl _ t
    · rw [e]
      split <;> exact t.setF_same _ _ _ (by decide)
  split
  · split <;> exact .of_regs rfl
  · exact .refl _ t

theorem State.measure_slewHeld (s : State) (k : Nat) (m : Int) (keep : Bool) : s.SlewHeld (s.measure k m keep).1 := by
  unfold State.measure
  dsimp only
  split
  · split
    · exact .of_eq rfl rfl
    split
    · have h1 : s.SlewHeld (s.draw.2.upItem k (fun x => { x with meas := [] })) := .of_eq rfl rfl
      exact (h1.setF (f := TMP_HIST.REPEAT_FAIL) (by decide) 1 0).trans (State.raiseOnce_raised _ _ _ _ (.refl _)).slewHeld
    · exact .of_eq rfl rfl
  · exact .of_eq rfl rfl

theorem State.reportDelay_slewHeld (s : State) (k : Nat) : s.SlewHeld (s.reportDelay k) := by
  unfold State.reportDelay
  split
  · dsimp only
    split
    · exact (SlewHeld.refl s).setF (by decide) _ _
    split
    · exact (SlewHeld.refl s).setF (by decide) _ _
    · exact .refl s
  · exact .refl s

theorem State.endPart_slewHeld (s : State) (l : Nat) (done : Bool) : s.SlewHeld (s.endPart l done) :=
  (State.endPart_kept l done (fun _ h => h) (.refl _ s)).slewHeld (by decide) (s.endPart_same (by decide) l done)

theorem State.measurePart_slewHeld (s : State) : s.SlewHeld s.measurePart := by
  unfold State.measurePart
  split
  · exact .refl s
  split
  · exact s.endPart_slewHeld _ _
  · extract_lets s1
    have h1 : s.SlewHeld s1 := by
      refine State.SlewHeld.foldl (fun t k => ?_) _ s
      extract_lets d r s2 _ s3
      have h2 : t.SlewHeld s2 := State.SlewHeld.trans (t := d.2) (.of_eq rfl rfl) (State.measure_slewHeld _ _ _ _)
      have h3 : t.SlewHeld s3 := h2.trans (.of_eq rfl rfl)
      clear_value s2 s3
      split
      · exact h2
      split
      · exact h3.trans (s3.reportDelay_slewHeld k)
      · exact h3
    clear_value s1
    split
    · exact h1.trans (s1.endPart_slewHeld _ _)
    · exact h1

theorem State.startPart_count (n : Nat) : ∀ s : State, s.Same countField (s.startPart n) := by
  induction n with
  | zero => exact fun s => .refl _ s
  | succ n ih =>
    intro s
    rw [State.startPart]
    split
    · split
      · exact State.Same.trans (.of_regs rfl) (ih _)
      · extract_lets s1 s2
        have h2 : s1.Same countField s2 := by
          unfold s2
          split
          · split
            · exact .refl _ s1
            · exact (State.holdPort_kept _ (fun _ h => h) (.refl _ s1)).same_fields (by decide)
          · exact .refl _ s1
        exact (State.Same.of_regs (t := s1) rfl).trans (h2.trans (.of_regs rfl))
    · exact ((s.endRun_count).trans (State.nextRun_count 10 _)).trans (ih _)
    · exact .refl _ s

theorem State.temperServo_slewHeld (s : State) : s.SlewHeld s.temperServo := by
  unfold State.temperServo
  split
  · exact .refl s
  · have hrun : s.SlewHeld s.runTemper :=
      (State.runTemper_kept (fun _ h => h) (.refl _ s)).slewHeld (by decide) (s.nextRun_count 10)
    have henter : s.runTemper.SlewHeld s.runTemper.temperEnter :=
      (State.temperEnter_kept (fun _ h => h) (.refl _ _)).slewHeld (by decide) (State.temperEnter_count _)
    have hstart := (State.startPart_kept (fun _ h => h) 300 (.refl _ s.runTemper.temperEnter.measurePart)).slewHeld
      (by decide) (State.startPart_count 300 _)
    exact ((hrun.trans henter).trans (State.measurePart_slewHeld _)).trans hstart

/-! ### The whole update (R296, R304, R312) -/

theorem State.copyWrong_slewHeld (s : State) (t : Nat) : s.SlewHeld (s.copyWrong t) := by
  unfold State.copyWrong
  split
  · exact .refl s
  · exact ⟨.of_regs rfl, rfl⟩

theorem State.copyCheck_slewHeld (s : State) (bad : Nat) : s.SlewHeld (s.copyCheck bad) := by
  refine State.SlewHeld.foldl (fun t k => ?_) _ s
  have hraise : ∀ u : State, u.SlewHeld (u.raise (0x10 + 16 * k)) := fun u => (State.raise_raised _ _ _ _ (.refl u)).slewHeld
  split
  · exact .refl t
  split
  · exact (t.copyWrong_slewHeld k).trans (hraise _)
  split
  · exact hraise t
  · exact (State.clearFault_kept _ (fun _ h => h) (.refl _ t)).slewHeld (by decide) (State.clearFault_same t (by omega))

theorem State.servo_countOrDone (s : State) (bad : Nat) : s.CountOrDone (s.servo bad) := by
  unfold State.servo
  extract_lets s1 _ s2 r
  have h1 : s.Same countField s1 := (s.reloadFailed_count.trans (State.servoMode_count _)).trans (State.servoInc_count _)
  have h2 : s.Same countField s2 := h1.trans (.of_regs rfl)
  have hr : s2.CountOrDone r.1 := by
    unfold r
    split
    · exact s2.softStep_countOrDone
    · exact s2.hardStep_countOrDone
  clear_value r s2
  have hphase := State.phaseServo_kept r.2 (fun _ h => h) (.refl _ r.1)
  have hpost := ((hphase.slewHeld (by decide) (hphase.same_fields (by decide))).trans (State.temperServo_slewHeld _)).trans
    (State.copyCheck_slewHeld _ bad)
  rcases hr with hr | hr
  · exact .inl ((h2.trans hr).trans hpost.count)
  · exact .inr (hpost.adj.trans hr)

theorem exec_servoUpdate_countOrDone (k : Nat) (s : State) : ∃ t, exec (.servoUpdate k) s = .next t ∧ s.CountOrDone t := by
  refine ⟨_, rfl, ?_⟩
  split
  · exact .inl (.refl _ s)
  · extract_lets u
    have h : s.Same countField u := (s.edges_kept_time _).same_fields (by decide)
    generalize hv : { u with time := { u.time with servos := u.time.servos + 1 } } = v
    have hu : u.Same countField v := .of_regs (by rw [← hv])
    rcases v.servo_countOrDone k with hc | hc
    · exact .inl ((h.trans hu).trans hc)
    · exact .inr hc

theorem State.readTpl_adjRem {s : State} (h : s.time.adj = 0) : s.readTpl TPL_TB_ADJ_REM.ADJ_REM 0 = 0 := by
  have he : s.readTpl TPL_TB_ADJ_REM.ADJ_REM 0 =
      unsign 32 (clampI (-2147483648) 2147483647 (Int.tdiv s.time.adj psU)) := rfl
  rw [he, h]
  decide

end Sys2Proof.Machine

namespace Sys2Proof.Proofs

open Sys2Proof.Machine

/-- Settles O34: only a step moves DISC_CNT, it leaves no slew, and nothing that follows it touches either. -/
theorem aStepCancelsTheRemainingSlew : Obligations.AStepCancelsTheRemainingSlew := by
  unfold Obligations.AStepCancelsTheRemainingSlew
  intro k s
  obtain ⟨t, he, h⟩ := exec_servoUpdate_countOrDone k s
  refine ⟨t, he, fun hne => ?_⟩
  rcases h with h | h
  · exact absurd (h TPL_TB_STAT.DISC_CNT (by decide) 0) hne
  · exact ⟨h, State.readTpl_adjRem h⟩

end Sys2Proof.Proofs
end

section
/-!
PROOF. DPLL states: what entering one leaves, and the selection of entries (R368–R374).
-/

namespace Sys2Proof.Machine

/-! ### Entering a state (R365, R373, R374) -/

/-- The fields that settling a reference may change. -/
def settleFields : List Nat := TPL_REF_HIST.DNU_SEEN.id ::
  ([TPL_REF_STAT.STATE.id, TPL_REF_HIST.QUALIFIED_SEEN.id, TPL_REF_HIST.SOFT_SEEN.id] ++ reportFields)

section
variable {l : List Nat} (hl : ∀ x ∈ settleFields, x ∉ l)
include hl

theorem State.setRef_settles (s : State) (i st : Nat) : s.Same l (s.setRef i st) :=
  s.setRef_same (fun x hx => hl x (List.mem_cons_of_mem _ hx)) i st

theorem State.failRef_settles (s : State) (i : Nat) : s.Same l (s.failRef i) := by
  unfold State.failRef
  split
  · exact .refl l s
  · exact s.setRef_settles hl i 1

theorem State.requalifySlot_settles (s : State) (i : Nat) : s.Same l (s.requalifySlot i) := by
  unfold State.requalifySlot
  split
  · exact s.setRef_settles hl i 2
  · exact .refl l s

theorem State.settleRef_same (s : State) (i : Nat) (dnuWas : Bool) : s.Same l (s.settleRef i dnuWas) := by
  unfold State.settleRef
  extract_lets s1 s2 s3 st
  have h1 : s.Same l s1 := by
    unfold s1
    split
    · exact s.setF_same _ _ _ (hl _ (by decide))
    · exact .refl l s
  have h2 : s1.Same l s2 := by
    unfold s2
    split
    · exact s1.setRef_settles hl i 1
    · exact .refl l s1
  have h3 : s2.Same l s3 := by
    unfold s3
    split
    · exact s2.failRef_settles hl i
    · split
      · exact s2.requalifySlot_settles hl i
      · exact .refl l s2
  split
  · exact (h1.trans (.of_regs rfl)).trans (State.setRef_settles hl _ i 0)
  · split
    · exact ((h1.trans h2).trans h3).trans (s3.setRef_settles hl 24 _)
    · exact (h1.trans h2).trans h3

end

/-- What a DPLL does as it enters state `st` from `was`, once STATE shows it. -/
def State.dpllEntered (s : State) (k was st : Nat) : State :=
  let s := s.orF TPL_DPLL_HIST.STATE_SEEN (1 <<< st) k
  let s := if bit (s.getF TPL_CS_IRQ.DPLL_MASK) st then s.event 5 0x0051 k st (s.dpllHist k) else s
  let s := if st = 4 then s.raise (0xC1 + k) else if was = 4 then s.clearFault (0xC1 + k) else s
  if k = 1 then s.settleRef 24 (s.isF TPL_REF_CFG.DNU 24) else s

theorem State.setDpll_eq (s : State) (k st : Nat) : s.setDpll k st =
    if s.dpllState k = st then s else (s.setF TPL_DPLL_STAT.STATE st k).dpllEntered k (s.dpllState k) st := rfl

/-- The fields that the entry of a state may change, STATE apart. -/
def enteredFields : List Nat := TPL_DPLL_HIST.STATE_SEEN.id :: (settleFields ++ faultFields)

theorem State.dpllEntered_same {l : List Nat} (hl : ∀ x ∈ enteredFields, x ∉ l) (s : State) (k was st : Nat) :
    s.Same l (s.dpllEntered k was st) := by
  have hsettle : ∀ x ∈ settleFields, x ∉ l := fun x hx => hl x (List.mem_cons_of_mem _ (List.mem_append_left _ hx))
  have hfault : ∀ x ∈ l, x ∉ faultFields := fun x hx hf => hl x (List.mem_cons_of_mem _ (List.mem_append_right _ hf)) hx
  have hreport : ∀ x ∈ l, x ∉ reportFields := fun x hx hr =>
    hsettle x (List.mem_cons_of_mem _ (List.mem_append_right _ hr)) hx
  unfold State.dpllEntered
  extract_lets s1 s2 s3
  have h1 : s.Same l s1 := s.setF_same _ _ _ (hl _ (by decide))
  have h2 : s1.Same l s2 := by
    unfold s2
    split
    · exact (State.event_quiet _ _ _ _ _ _ _).same_fields hreport
    · exact .refl l s1
  have h3 : s2.Same l s3 := by
    unfold s3
    split
    · exact (State.raise_raised _ _ _ _ (.refl s2)).same_fields hfault
    · split
      · exact State.clearFault_same s2 (by omega)
      · exact .refl l s2
  split
  · exact ((h1.trans h2).trans h3).trans (s3.settleRef_same hsettle 24 _)
  · exact (h1.trans h2).trans h3

theorem State.setDpll_same {l : List Nat} (hs : TPL_DPLL_STAT.STATE.id ∉ l) (hl : ∀ x ∈ enteredFields, x ∉ l) (s : State)
    (k st : Nat) : s.Same l (s.setDpll k st) := by
  rw [State.setDpll_eq]
  split
  · exact .refl l s
  · exact (s.setF_same _ _ _ hs).trans (State.dpllEntered_same hl _ _ _ _)

theorem State.setDpll_state (s : State) (k : Nat) {st : Nat} (h : st < 8) : (s.setDpll k st).dpllState k = st := by
  rw [State.setDpll_eq]
  split
  · next he => exact he
  · have hs := (s.setF TPL_DPLL_STAT.STATE st k).dpllEntered_same (l := [TPL_DPLL_STAT.STATE.id]) (by decide) k
      (s.dpllState k) st
    rw [State.dpllState, hs TPL_DPLL_STAT.STATE (by decide), State.getF_setF_same]
    exact Nat.mod_eq_of_lt h

theorem State.setDpll_dpll (s : State) (k st j : Nat) : (s.setDpll k st).dpll j = s.dpll j :=
  congrArg (fun x : Tab Dpll => Tab.getD x j {})
    ((State.setDpll_kept k st (fun _ h => h) (.refl _ s)).only .dplls (by decide) : (s.setDpll k st).dplls = s.dplls)

/-! ### Acquisition and switches (R369, R373) -/

/-- The fields that a loop update sets up only by a configuration, and those that it shows a selection in. -/
def selectFields : List Nat := [TPL_DPLL_CFG.MODE.id, TPL_DPLL_LOCK.LOCK_WIN.id, TPL_DPLL_PRIO.REF.id, TPL_DPLL_PRIO.PRIO.id,
  TPL_DPLL_STAT.SEL.id, TPL_DPLL_HIST.SWITCH.id]

/-- DPLL `k` is in state `st` with reference `sel` selected. -/
def State.DpllIn (k st : Nat) (sel : Option Nat) (t : State) : Prop := t.dpllState k = st ∧ (t.dpll k).sel = sel

theorem State.setDpll_in {s : State} {k st : Nat} {sel : Option Nat} (h : st < 8) (hs : (s.dpll k).sel = sel) :
    (s.setDpll k st).DpllIn k st sel := ⟨s.setDpll_state k h, by rw [State.setDpll_dpll, hs]⟩

theorem State.acquire_in (s : State) (k e : Nat) : (s.acquire k e).DpllIn k 1 (some (s.prioRef k e)) := by
  refine State.setDpll_in (by decide) ?_
  rw [State.setF_dpll, State.dpll_upDpll_same]

theorem State.acquire_sel (s : State) (k : Nat) {e : Nat} (he : e < 8) :
    (s.acquire k e).getF TPL_DPLL_STAT.SEL k = e := by
  unfold State.acquire
  rw [State.setDpll_same (l := [TPL_DPLL_STAT.SEL.id]) (by decide) (by decide) _ k 1 TPL_DPLL_STAT.SEL (by decide),
    State.getF_setF_same]
  exact Nat.mod_eq_of_lt he

theorem State.acquire_same {l : List Nat} (h0 : TPL_DPLL_STAT.SEL.id ∉ l) (hs : TPL_DPLL_STAT.STATE.id ∉ l)
    (hl : ∀ x ∈ enteredFields, x ∉ l) (s : State) (k e : Nat) : s.Same l (s.acquire k e) :=
  (State.Same.setF (.of_regs rfl) _ _ _ h0).trans (State.setDpll_same hs hl _ k 1)

theorem State.switchTo_law (s : State) (k e : Nat) : (s.switchTo k e).DpllIn k 1 (some (s.prioRef k e)) ∧
    (s.switchTo k e).isF TPL_DPLL_HIST.SWITCH k = true := by
  obtain ⟨hst, hsel⟩ := (s.setF TPL_DPLL_HIST.SWITCH 1 k).acquire_in k e
  refine ⟨⟨hst, ?_⟩, ?_⟩
  · unfold State.switchTo
    rw [State.dpll_upDpll_same]
    refine hsel.trans (congrArg some ?_)
    exact s.getF_setF_ne _ _ _ _ _ (by decide)
  · have h := (s.setF TPL_DPLL_HIST.SWITCH 1 k).acquire_same (l := [TPL_DPLL_HIST.SWITCH.id]) (by decide) (by decide)
      (by decide) k e TPL_DPLL_HIST.SWITCH (by decide) k
    exact (congrArg (· != 0) h).trans (s.isF_setF_flag (f := TPL_DPLL_HIST.SWITCH) rfl true k)

theorem State.holdAt_in (s : State) (k : Nat) {st : Nat} (f : Int) (h : st < 8) : (s.holdAt k st f).DpllIn k st none := by
  refine State.setDpll_in h ?_
  rw [State.dpll_upDpll_same]
  rfl

/-! ### Selection (R368) -/

theorem State.bestOf_mem (s : State) (k : Nat) {l : List Nat} {x : Nat} (h : s.bestOf k l = some x) : x ∈ l := by
  have run : ∀ (l : List Nat) (b : Option Nat), l.foldl (fun b e => match b with
      | some x => if s.ranks k e x then some e else b
      | none => some e) b = some x → b = some x ∨ x ∈ l := by
    intro l
    induction l with
    | nil => exact fun b h => .inl h
    | cons e l ih =>
      intro b h
      rcases ih _ h with hb | hm
      · cases b with
        | none => exact .inr (by simp [Option.some.inj hb])
        | some y =>
          dsimp only at hb
          split at hb
          · exact .inr (by simp [Option.some.inj hb])
          · exact .inl hb
      · exact .inr (List.mem_cons_of_mem _ hm)
  rcases run l none h with h | h
  · cases h
  · exact h

theorem State.bestEntry_lt {s : State} {k x : Nat} (h : s.bestEntry k = some x) : x < 8 := by
  unfold State.bestEntry at h
  split at h
  · cases h
  · exact List.mem_range.1 (List.mem_of_mem_filter (s.bestOf_mem k h))

theorem State.selEntry_lt {s : State} {k x : Nat} (h : s.selEntry k = some x) : x < 8 := by
  unfold State.selEntry at h
  split at h
  · exact List.mem_range.1 (List.mem_of_mem_filter (s.bestOf_mem k h))
  · cases h

/-- The fields on which DPLL `k`'s selection, its states and its history rest. -/
def choiceFields : List Nat := [TPL_DPLL_PRIO.REF.id, TPL_DPLL_PRIO.PRIO.id, TPL_DPLL_CFG.MODE.id,
  TPL_DPLL_CFG.FORCE_ENTRY.id, TPL_REF_STAT.STATE.id, TPL_REF_CFG.TYPE.id, TPL_DPLL_STAT.STATE.id, TPL_DPLL_CFG.HO_EN.id,
  TPL_DPLL_HOLD.HIST_S.id, TPL_DPLL_HOLD.HIST_SKIP_S.id, TPL_DPLL_LOCK.LOCK_WIN.id]

/-- What DPLL `k` selects, and what it rests on, is the same. -/
structure State.ChoiceSame (k : Nat) (s t : State) : Prop where
  fields : s.Same choiceFields t
  sel : (t.dpll k).sel = (s.dpll k).sel
  log : (t.dpll k).log = (s.dpll k).log

section
variable {k : Nat} {s t : State} (h : State.ChoiceSame k s t)
include h

theorem State.ChoiceSame.isF {f : Fld} (hf : f.id ∈ choiceFields) (i : Nat) : t.isF f i = s.isF f i :=
  congrArg (· != 0) (h.fields f hf i)

theorem State.ChoiceSame.prioRef : t.prioRef = s.prioRef :=
  funext fun _ => funext fun _ => h.fields TPL_DPLL_PRIO.REF (by decide) _

theorem State.ChoiceSame.prioOf : t.prioOf = s.prioOf :=
  funext fun _ => funext fun _ => h.fields TPL_DPLL_PRIO.PRIO (by decide) _

theorem State.ChoiceSame.dpllMode : t.dpllMode = s.dpllMode := funext fun _ => h.fields TPL_DPLL_CFG.MODE (by decide) _

theorem State.ChoiceSame.dpllState : t.dpllState = s.dpllState := funext fun _ => h.fields TPL_DPLL_STAT.STATE (by decide) _

theorem State.ChoiceSame.selectable : t.selectable = s.selectable := by
  funext k e
  simp only [State.selectable, State.refAllowed, State.refState, h.prioRef, h.prioOf, h.dpllMode,
    h.isF (f := TPL_REF_CFG.TYPE) (by decide), h.fields TPL_REF_STAT.STATE (by decide),
    h.fields TPL_DPLL_CFG.FORCE_ENTRY (by decide)]

theorem State.ChoiceSame.bestOf : t.bestOf = s.bestOf := by
  funext k l
  have hr : t.ranks = s.ranks := by
    funext k a b
    simp only [State.ranks, h.prioOf]
  simp only [State.bestOf, hr]

theorem State.ChoiceSame.bestEntry : t.bestEntry k = s.bestEntry k := by
  simp only [State.bestEntry, h.bestOf, h.selectable, h.dpllMode]

theorem State.ChoiceSame.selEntry : t.selEntry k = s.selEntry k := by
  unfold State.selEntry
  rw [h.sel, h.bestOf, h.selectable, h.prioRef]

theorem State.ChoiceSame.histValid : t.histValid k = s.histValid k := by
  simp only [State.histValid, h.log, h.fields TPL_DPLL_HOLD.HIST_S (by decide),
    h.fields TPL_DPLL_HOLD.HIST_SKIP_S (by decide)]

end

end Sys2Proof.Machine
end

section
/-!
PROOF. DPLLs: the loop update (R368–R379).
-/

namespace Sys2Proof.Machine

/-! ### What the state machine leaves of the loop (R370, R376) -/

/-- The fields that only a configuration of a DPLL sets. -/
def configFields : List Nat := [TPL_DPLL_CFG.MODE.id, TPL_DPLL_LOCK.LOCK_WIN.id, TPL_DPLL_PRIO.REF.id, TPL_DPLL_PRIO.PRIO.id,
  TPL_DPLL_PSL.PSL_PPB.id]

/-- DPLL `k`'s output, the configuration that waits for it and the one in force are the same. -/
structure State.LoopHeld (k : Nat) (s t : State) : Prop where
  fields : s.Same configFields t
  fine : (t.dpll k).fine = (s.dpll k).fine
  cfg : (t.dpll k).cfg = (s.dpll k).cfg

theorem State.LoopHeld.refl (k : Nat) (s : State) : State.LoopHeld k s s := ⟨.refl _ s, rfl, rfl⟩

theorem State.LoopHeld.trans {k : Nat} {s t u : State} (h : State.LoopHeld k s t) (g : State.LoopHeld k t u) :
    State.LoopHeld k s u := ⟨h.fields.trans g.fields, g.fine.trans h.fine, g.cfg.trans h.cfg⟩

theorem State.LoopHeld.of_dpll {k : Nat} {s t : State} (h : s.Same configFields t) (hd : t.dpll k = s.dpll k) :
    State.LoopHeld k s t := ⟨h, by rw [hd], by rw [hd]⟩

theorem State.LoopHeld.of_regs {k : Nat} {s t : State} (h : t.regs = s.regs) (hf : (t.dpll k).fine = (s.dpll k).fine)
    (hc : (t.dpll k).cfg = (s.dpll k).cfg) : State.LoopHeld k s t := ⟨.of_regs h, hf, hc⟩

theorem State.setF_loopHeld (s : State) {f : Fld} (hf : f.id ∉ configFields) (v i k : Nat) :
    State.LoopHeld k s (s.setF f v i) := .of_dpll (s.setF_same f v i hf) rfl

theorem State.setDpll_loopHeld (s : State) (k st : Nat) : State.LoopHeld k s (s.setDpll k st) :=
  .of_dpll (State.setDpll_same (by decide) (by decide) s k st) (s.setDpll_dpll k st k)

theorem State.acquire_loopHeld (s : State) (k e : Nat) : State.LoopHeld k s (s.acquire k e) := by
  have hd : ((s.acquire k e).dpll k).fine = (s.dpll k).fine ∧ ((s.acquire k e).dpll k).cfg = (s.dpll k).cfg := by
    rw [State.acquire, State.setDpll_dpll, State.setF_dpll, State.dpll_upDpll_same]
    exact ⟨rfl, rfl⟩
  exact ⟨s.acquire_same (by decide) (by decide) (by decide) k e, hd.1, hd.2⟩

theorem State.switchTo_loopHeld (s : State) (k e : Nat) : State.LoopHeld k s (s.switchTo k e) := by
  have h := (s.setF_loopHeld (f := TPL_DPLL_HIST.SWITCH) (by decide) 1 k k).trans (State.acquire_loopHeld _ k e)
  refine h.trans ?_
  unfold State.switchTo
  exact .of_regs rfl (by rw [State.dpll_upDpll_same]) (by rw [State.dpll_upDpll_same])

theorem State.holdAt_loopHeld (s : State) (k st : Nat) (f : Int) (keep : Bool) :
    State.LoopHeld k s (s.holdAt k st f keep) := by
  unfold State.holdAt
  refine State.LoopHeld.trans ?_ (State.setDpll_loopHeld _ k st)
  exact .of_regs rfl (by rw [State.dpll_upDpll_same]) (by rw [State.dpll_upDpll_same])

/-- The step policy on the offset of a PPS pulse is no DPLL's (R378). -/
theorem State.applyPolicy_same {l : List Nat} (h0 : TPL_TB_STAT.DISC_PENDING.id ∉ l) (h1 : TPL_TB_STAT.PEND_ID.id ∉ l)
    (hl : ∀ x ∈ l, x ∉ reportFields) (s : State) (d : Int) : s.Same l (s.applyPolicy d) := by
  have hopen : ∀ t : State, t.Same l (t.openDisc d) := fun t => by
    unfold State.openDisc
    extract_lets id time u
    exact (((State.Same.of_regs (t := u) rfl).setF _ _ _ h0).setF _ _ _ h1).trans (State.timePending_same _ id d hl)
  have hclose : ∀ t : State, t.Same l (t.closeDisc stPast) := fun t => by
    unfold State.closeDisc
    extract_lets time u
    exact (((State.Same.of_regs (t := u) rfl).setF _ _ _ h0).setF _ _ _ h1).trans (State.endTimeAuth_same _ _ hl)
  cases h : s.time.disc with
  | none =>
    rw [State.applyPolicy_none h]
    split
    · exact .of_regs rfl
    · split
      · exact .refl l s
      · exact hopen s
  | some r =>
    rw [State.applyPolicy_some h]
    split
    · exact (s.timePending_same r.id 0 hl).trans (hclose _)
    · split
      · exact .of_regs rfl
      · exact (hclose s).trans (hopen _)

theorem State.reportPps_loopHeld (s : State) (k : Nat) (e : Option Nat) (pulse : Bool) (perr : Int) :
    State.LoopHeld k s (s.reportPps k e pulse perr) := by
  unfold State.reportPps
  split
  · refine .of_dpll (s.applyPolicy_same (by decide) (by decide) (by decide) perr) ?_
    exact congrArg (fun x : Tab Dpll => Tab.getD x k {})
      ((State.applyPolicy_kept perr (fun _ h => h) (.refl _ s)).only .dplls (by decide) : (s.applyPolicy perr).dplls = s.dplls)
  · exact .refl k s

theorem State.tryAcquire_loopHeld (s : State) (k : Nat) (perr : Int) (pulse : Bool) :
    State.LoopHeld k s (s.tryAcquire k perr pulse) := by
  unfold State.tryAcquire
  extract_lets e
  clear_value e
  cases e with
  | none => exact .refl k s
  | some x =>
    dsimp only
    have h1 := s.reportPps_loopHeld k (some x) pulse perr
    split
    · exact h1
    · exact h1.trans (State.acquire_loopHeld _ k x)

theorem State.tryHold_loopHeld (s : State) (k : Nat) (perr : Int) (pulse : Bool) (old : Option (List Nat)) :
    State.LoopHeld k s (s.tryHold k perr pulse old) := by
  unfold State.tryHold
  extract_lets pps s1
  have h1 : State.LoopHeld k s s1 := s.reportPps_loopHeld k (s.selEntry k) pulse perr
  clear_value s1
  refine h1.trans ?_
  split
  · exact s1.holdAt_loopHeld k 3 _ true
  · split
    · split
      · exact s1.switchTo_loopHeld k _
      · split
        · exact s1.holdAt_loopHeld k 3 _ false
        · exact s1.holdAt_loopHeld k 4 0 false
    · next e _ =>
      extract_lets s2
      have h2 : State.LoopHeld k s1 s2 := s1.setF_loopHeld (by decide) e k k
      clear_value s2
      refine h2.trans ?_
      split
      · exact s2.switchTo_loopHeld k _
      · split
        · exact (s2.setF_loopHeld (f := TPL_DPLL_HIST.UNLOCK) (by decide) 1 k k).trans (State.setDpll_loopHeld _ k 1)
        · exact .refl k s2

theorem State.dpllSelect_loopHeld (s : State) (k : Nat) (perr : Int) (pulse : Bool) (old : Option (List Nat)) :
    State.LoopHeld k s (s.dpllSelect k perr pulse old) := by
  unfold State.dpllSelect
  split
  · extract_lets held
    refine State.LoopHeld.trans ?_ (State.setDpll_loopHeld _ k 0)
    exact .of_regs rfl (by rw [State.dpll_upDpll_same, State.clearHistory, State.dpll_upDpll_same])
      (by rw [State.dpll_upDpll_same, State.clearHistory, State.dpll_upDpll_same])
  · split
    · exact s.tryHold_loopHeld k perr pulse old
    · extract_lets s1
      have h1 : State.LoopHeld k s s1 := by
        unfold s1
        split
        · exact .of_regs rfl (by rw [State.dpll_upDpll_same]) (by rw [State.dpll_upDpll_same])
        · exact .refl k s
      exact h1.trans (s1.tryAcquire_loopHeld k perr pulse)

/-! ### The end of a loop update (R305, R375–R377) -/

/-- What follows the state machine in a loop update: the offset that is slewed out, the zero taken and the move. -/
def State.loopEnd (s : State) (was k : Nat) (perr : Int) : State :=
  ((s.slewOffset was k perr).takeZero k perr).dpllMove k

theorem State.slewOffset_rest (s : State) (was k : Nat) (perr : Int) :
    (s.slewOffset was k perr).regs = s.regs ∧ (s.slewOffset was k perr).dplls = s.dplls := by
  unfold State.slewOffset
  split <;> exact ⟨rfl, rfl⟩

theorem State.takeZero_law {l : List Nat} (hp : TPL_DPLL_PERR.PERR.id ∉ l) (s : State) (k : Nat) (perr : Int) :
    s.Same l (s.takeZero k perr) ∧ ∃ z, (s.takeZero k perr).dpll k = { s.dpll k with zero := z } := by
  unfold State.takeZero
  split
  · exact ⟨.refl l s, _, rfl⟩
  · extract_lets align s1
    have hd : s1.dpll k = { s.dpll k with zero := if align then (s.dpll k).zero else (s.dpll k).zero + perr } :=
      State.dpll_upDpll_same _ _ _
    split
    · exact ⟨.of_regs rfl, _, hd⟩
    · exact ⟨State.Same.setF (.of_regs rfl) _ _ _ hp, _, hd⟩

theorem State.loopGoal_rest (s : State) (k : Nat) : (s.loopGoal k).1.regs = s.regs ∧ (s.loopGoal k).1.dplls = s.dplls :=
  ⟨rfl, rfl⟩

/-- The output moves within PSL_PPB, and FOFF shows it (R376). -/
theorem State.dpllMove_law {l : List Nat} (hf : TPL_DPLL_FOFF.FOFF.id ∉ l) (hp : TPL_DPLL_HIST.PSL_HIT.id ∉ l) (s : State)
    (k : Nat) : s.Same l (s.dpllMove k) ∧ ((s.dpllMove k).dpll k).sel = (s.dpll k).sel ∧
      ((s.dpllMove k).dpll k).cfg = (s.dpll k).cfg ∧
      (((s.dpllMove k).dpll k).fine - (s.dpll k).fine).natAbs ≤
        max 1 (s.getF TPL_DPLL_PSL.PSL_PPB k) * 2 ^ 40 * loopNs k ∧
      (s.dpllMove k).getF TPL_DPLL_FOFF.FOFF k = unsign 32 (roundDiv ((s.dpllMove k).dpll k).fine fineU) := by
  unfold State.dpllMove
  extract_lets prev keep g s1 goal next s2 f s3
  have h1 : s1.regs = s.regs ∧ s1.dplls = s.dplls := by
    unfold s1 g
    split
    · exact s.loopGoal_rest k
    · exact ⟨rfl, rfl⟩
  have hlim : s1.slopeLimit k = ((max 1 (s.getF TPL_DPLL_PSL.PSL_PPB k) * 2 ^ 40 * loopNs k : Nat) : Int) := by
    rw [State.slopeLimit, State.getF_of_regs h1.1]
  have h2 : s1.Same l s2 ∧ s2.dplls = s1.dplls := by
    unfold s2
    split
    · exact ⟨s1.setF_same _ _ _ hp, rfl⟩
    · exact ⟨.refl l s1, rfl⟩
  have hd : s3.dpll k = s.dpll k := by
    have : s3.dplls = s.dplls := h2.2.trans h1.2
    rw [State.dpll, this]
    rfl
  have hnext : (next - prev).natAbs ≤ max 1 (s.getF TPL_DPLL_PSL.PSL_PPB k) * 2 ^ 40 * loopNs k := by
    unfold next
    rw [hlim]
    exact natAbs_toward_sub
  rw [State.dpll_upDpll_same, hd]
  refine ⟨?_, rfl, rfl, hnext, ?_⟩
  · exact (((State.Same.of_regs h1.1).trans h2.1).setF _ _ _ hf).trans (.of_regs rfl)
  · refine (State.getF_setF_same s2 TPL_DPLL_FOFF.FOFF _ k).trans (Nat.mod_eq_of_lt ?_)
    have hlt : (f % 4294967296).toNat < 4294967296 := by omega
    exact hlt

/-- What the end of a loop update leaves of the state, the selection and the configuration. -/
theorem State.loopEnd_law (s : State) (was k : Nat) (perr : Int) :
    s.Same (TPL_DPLL_STAT.STATE.id :: selectFields) (s.loopEnd was k perr) ∧
      ((s.loopEnd was k perr).dpll k).sel = (s.dpll k).sel ∧ ((s.loopEnd was k perr).dpll k).cfg = (s.dpll k).cfg ∧
      (((s.loopEnd was k perr).dpll k).fine - (s.dpll k).fine).natAbs ≤
        max 1 (s.getF TPL_DPLL_PSL.PSL_PPB k) * 2 ^ 40 * loopNs k ∧
      (s.loopEnd was k perr).getF TPL_DPLL_FOFF.FOFF k =
        unsign 32 (roundDiv ((s.loopEnd was k perr).dpll k).fine fineU) := by
  obtain ⟨hregs, hdplls⟩ := s.slewOffset_rest was k perr
  have hd : (s.slewOffset was k perr).dpll k = s.dpll k := by
    rw [State.dpll, hdplls]
    rfl
  have hzero := (s.slewOffset was k perr).takeZero_law (l := TPL_DPLL_STAT.STATE.id :: TPL_DPLL_PSL.PSL_PPB.id :: selectFields)
    (by decide) k perr
  unfold State.loopEnd
  generalize s.slewOffset was k perr = u at hregs hd hzero ⊢
  obtain ⟨hsame, z, hz⟩ := hzero
  have hmove := (u.takeZero k perr).dpllMove_law (l := TPL_DPLL_STAT.STATE.id :: selectFields) (by decide) (by decide) k
  rw [hz, hsame TPL_DPLL_PSL.PSL_PPB (by decide), State.getF_of_regs hregs, hd] at hmove
  obtain ⟨hm, hrest⟩ := hmove
  refine ⟨((State.Same.of_regs hregs).trans fun f hf i => hsame f ?_ i).trans hm, hrest⟩
  rcases List.mem_cons.1 hf with h | h
  · exact h ▸ List.mem_cons_self ..
  · exact List.mem_cons_of_mem _ (List.mem_cons_of_mem _ h)

end Sys2Proof.Machine
end

section
/-!
PROOF. DPLLs: configurations that load, the state machine by state, and the events between updates (R368–R374).
-/

namespace Sys2Proof.Machine

/-! ### What a loop update begins with (R364, R370) -/

theorem foldl_eq_self {α β : Type} {f : α → β → α} {a : α} {l : List β} (h : ∀ b ∈ l, f a b = a) : l.foldl f a = a := by
  induction l with
  | nil => rfl
  | cons b l ih =>
    rw [List.foldl_cons, h b (List.mem_cons_self ..)]
    exact ih fun c hc => h c (List.mem_cons_of_mem _ hc)

/-- Where no reference has a configuration waiting, none loads. -/
theorem State.loadRefs_idle {s : State} (h : ∀ i ∈ Tab.keys s.refs, (s.refr i).cfg = none) : s.loadRefs = s :=
  foldl_eq_self fun i hi => by rw [h i hi]

/-- DPLL `k`'s phase error as it is shown, a delivered offset being used up by it. -/
def State.loopStart (s : State) (k : Nat) (e : Int × Bool) : State :=
  (if e.2 then { s with time := { s.time with measured := false } } else s).setF TPL_DPLL_PERR.PERR
    (unsign 32 (clampI (-2147483648) 2147483647 e.1)) k

/-- A loop update, from the state machine on. -/
def State.loopRun (s : State) (k : Nat) (e : Int × Bool) (pulse : Bool) (old : Option (List Nat)) : State :=
  ((s.loopStart k e).dpllSelect k e.1 pulse old).loopEnd (s.dpllState k) k e.1

theorem exec_dpllLoopUpdate {k : Nat} {e : Int} {b : Bool} {s : State} (hr : s.time.running = true)
    (href : ∀ i ∈ Tab.keys s.refs, (s.refr i).cfg = none) : exec (.dpllLoopUpdate k ⟨e, b⟩) s =
      .next ((s.takeDpllCfg k).1.loopRun k ((s.takeDpllCfg k).1.phaseError k e b (s.takeDpllCfg k).2) b
        (s.takeDpllCfg k).2) := by
  have he : exec (.dpllLoopUpdate k ⟨e, b⟩) s = execDpllLoopUpdate k ⟨e, b⟩ s := rfl
  rw [he, execDpllLoopUpdate, if_neg (by simp [hr])]
  dsimp only
  rw [State.loadRefs_idle href]
  rfl

theorem State.takeDpllCfg_idle {s : State} {k : Nat} (h : (s.dpll k).cfg = none) : s.takeDpllCfg k = (s, none) := by
  rw [State.takeDpllCfg, h]

theorem State.loopStart_rest (s : State) (k : Nat) (e : Int × Bool) : (s.loopStart k e).dplls = s.dplls ∧
    (s.loopStart k e).time.disc = s.time.disc := by
  unfold State.loopStart
  split <;> exact ⟨rfl, rfl⟩

theorem State.loopStart_dpll (s : State) (k j : Nat) (e : Int × Bool) : (s.loopStart k e).dpll j = s.dpll j := by
  rw [State.dpll, (s.loopStart_rest k e).1]
  rfl

theorem State.loopStart_same {l : List Nat} (hl : TPL_DPLL_PERR.PERR.id ∉ l) (s : State) (k : Nat) (e : Int × Bool) :
    s.Same l (s.loopStart k e) := by
  unfold State.loopStart
  split
  · exact State.Same.setF (.of_regs rfl) _ _ _ hl
  · exact s.setF_same _ _ _ hl

theorem State.loopStart_choice (s : State) (k : Nat) (e : Int × Bool) : State.ChoiceSame k s (s.loopStart k e) :=
  ⟨s.loopStart_same (by decide) k e, by rw [State.loopStart_dpll], by rw [State.loopStart_dpll]⟩

/-- What every loop update leaves of the configuration, and how far it moves the output (R370, R376). -/
theorem State.loopRun_law (s : State) (k : Nat) (e : Int × Bool) (b : Bool) (old : Option (List Nat)) :
    ((s.loopRun k e b old).dpll k).cfg = (s.dpll k).cfg ∧
      s.Same [TPL_DPLL_CFG.MODE.id, TPL_DPLL_LOCK.LOCK_WIN.id, TPL_DPLL_PRIO.REF.id, TPL_DPLL_PRIO.PRIO.id]
        (s.loopRun k e b old) ∧
      (((s.loopRun k e b old).dpll k).fine - (s.dpll k).fine).natAbs ≤
        max 1 (s.getF TPL_DPLL_PSL.PSL_PPB k) * 2 ^ 40 * loopNs k ∧
      (s.loopRun k e b old).getF TPL_DPLL_FOFF.FOFF k =
        unsign 32 (roundDiv ((s.loopRun k e b old).dpll k).fine fineU) := by
  have hstart : State.LoopHeld k s (s.loopStart k e) := .of_dpll (s.loopStart_same (by decide) k e) (s.loopStart_dpll k k e)
  have hheld := hstart.trans ((s.loopStart k e).dpllSelect_loopHeld k e.1 b old)
  unfold State.loopRun
  generalize (s.loopStart k e).dpllSelect k e.1 b old = v at hheld ⊢
  obtain ⟨hsame, -, hcfg, hfine, hfoff⟩ := v.loopEnd_law (s.dpllState k) k e.1
  rw [hheld.fields TPL_DPLL_PSL.PSL_PPB (by decide), hheld.fine] at hfine
  refine ⟨hcfg.trans hheld.cfg, fun f hf i => (hsame f ?_ i).trans (hheld.fields f ?_ i), hfine, hfoff⟩
  · exact (by decide : ∀ x ∈ [TPL_DPLL_CFG.MODE.id, TPL_DPLL_LOCK.LOCK_WIN.id, TPL_DPLL_PRIO.REF.id,
      TPL_DPLL_PRIO.PRIO.id], x ∈ TPL_DPLL_STAT.STATE.id :: selectFields) _ hf
  · exact (by decide : ∀ x ∈ [TPL_DPLL_CFG.MODE.id, TPL_DPLL_LOCK.LOCK_WIN.id, TPL_DPLL_PRIO.REF.id,
      TPL_DPLL_PRIO.PRIO.id], x ∈ configFields) _ hf

/-- What the state machine decides is what the loop update leaves. -/
theorem State.loopRun_shows {s v : State} {k : Nat} {e : Int × Bool} {b : Bool} {old : Option (List Nat)}
    (h : (s.loopStart k e).dpllSelect k e.1 b old = v) : (s.loopRun k e b old).dpllState k = v.dpllState k ∧
      ((s.loopRun k e b old).dpll k).sel = (v.dpll k).sel ∧
      (s.loopRun k e b old).getF TPL_DPLL_STAT.SEL k = v.getF TPL_DPLL_STAT.SEL k ∧
      (s.loopRun k e b old).isF TPL_DPLL_HIST.SWITCH k = v.isF TPL_DPLL_HIST.SWITCH k := by
  unfold State.loopRun
  rw [h]
  obtain ⟨hsame, hsel, -, -, -⟩ := v.loopEnd_law (s.dpllState k) k e.1
  exact ⟨hsame TPL_DPLL_STAT.STATE (by decide) k, hsel, hsame TPL_DPLL_STAT.SEL (by decide) k,
    congrArg (· != 0) (hsame TPL_DPLL_HIST.SWITCH (by decide) k)⟩

/-! ### A configuration loads (R370) -/

/-- A reading that the step of `j` sets to `v` and no other step of a fold moves is `v` behind the fold. -/
theorem foldl_reads {g : State → Nat → State} {r : State → Nat} {v j : Nat} (hown : ∀ t, r (g t j) = v)
    (l : List Nat) (hother : ∀ e ∈ l, e ≠ j → ∀ t, r (g t e) = r t) :
    ∀ s, j ∈ l ∨ r s = v → r (l.foldl g s) = v := by
  induction l with
  | nil => exact fun s h => h.resolve_left List.not_mem_nil
  | cons e l ih =>
    intro s h
    refine ih (fun e he => hother e (List.mem_cons_of_mem _ he)) _ ?_
    by_cases hj : e = j
    · exact .inr (hj ▸ hown s)
    · rw [hother e (List.mem_cons_self ..) hj]
      exact h.imp_left fun hm => (List.mem_cons.1 hm).resolve_left (Ne.symm hj)

/-- One entry of a DPLL_CFG image, as it loads. -/
def State.loadPrio (k : Nat) (w : List Word) (s : State) (e : Nat) : State :=
  ((s.setF TPL_DPLL_PRIO.REF (bits (dw w (8 + e)) 0 5) (k * 8 + e)).setF TPL_DPLL_PRIO.PRIO (bits (dw w (8 + e)) 5 4)
    (k * 8 + e)).setF TPL_DPLL_PRIO.REVERT (bits (dw w (8 + e)) 9 1) (k * 8 + e)

theorem State.loadPrio_same {l : List Nat} (h0 : TPL_DPLL_PRIO.REF.id ∉ l) (h1 : TPL_DPLL_PRIO.PRIO.id ∉ l)
    (h2 : TPL_DPLL_PRIO.REVERT.id ∉ l) (k : Nat) (w : List Word) (s : State) (e : Nat) : s.Same l (s.loadPrio k w e) :=
  ((s.setF_same _ _ _ h0).setF _ _ _ h1).setF _ _ _ h2

theorem State.loadPrio_own (k : Nat) (w : List Word) (s : State) (e : Nat) :
    (s.loadPrio k w e).prioRef k e = bits (dw w (8 + e)) 0 5 ∧ (s.loadPrio k w e).prioOf k e = bits (dw w (8 + e)) 5 4 := by
  unfold State.loadPrio State.prioRef State.prioOf
  constructor
  · rw [State.getF_setF_ne _ _ _ _ _ _ (by decide), State.getF_setF_ne _ _ _ _ _ _ (by decide), State.getF_setF_same]
    exact Nat.mod_mod _ _
  · rw [State.getF_setF_ne _ _ _ _ _ _ (by decide), State.getF_setF_same]
    exact Nat.mod_mod _ _

theorem State.loadPrio_other {k : Nat} (w : List Word) (s : State) {e j : Nat} (he : e < 8) (hj : j < 8)
    (h : e ≠ j) : (s.loadPrio k w e).prioRef k j = s.prioRef k j ∧ (s.loadPrio k w e).prioOf k j = s.prioOf k j := by
  have hne : (k * 8 + j) % 65536 ≠ (k * 8 + e) % 65536 := by omega
  unfold State.loadPrio State.prioRef State.prioOf
  constructor <;>
    rw [State.getF_setF_other _ _ _ _ _ _ (.inr hne), State.getF_setF_other _ _ _ _ _ _ (.inr hne),
      State.getF_setF_other _ _ _ _ _ _ (.inr hne)]

theorem State.loadPrios_entry {k j : Nat} (hj : j < 8) (w : List Word) (s : State) :
    ((List.range 8).foldl (State.loadPrio k w) s).prioRef k j = bits (dw w (8 + j)) 0 5 ∧
      ((List.range 8).foldl (State.loadPrio k w) s).prioOf k j = bits (dw w (8 + j)) 5 4 :=
  ⟨foldl_reads (r := fun t => t.prioRef k j) (fun t => (t.loadPrio_own k w j).1) _
      (fun _ he hne t => (t.loadPrio_other w (List.mem_range.1 he) hj hne).1) s (.inl (List.mem_range.2 hj)),
    foldl_reads (r := fun t => t.prioOf k j) (fun t => (t.loadPrio_own k w j).2) _
      (fun _ he hne t => (t.loadPrio_other w (List.mem_range.1 he) hj hne).2) s (.inl (List.mem_range.2 hj))⟩

theorem State.loadDpll_law (s : State) (k : Nat) (w : List Word) : (s.loadDpll k w).dplls = s.dplls ∧
    (s.loadDpll k w).dpllMode k = bits (dw w 0) 0 2 ∧
    (s.loadDpll k w).getF TPL_DPLL_LOCK.LOCK_WIN k = bits (dw w 3) 0 16 ∧
    ∀ j, j < 8 → (s.loadDpll k w).prioRef k j = bits (dw w (8 + j)) 0 5 ∧
      (s.loadDpll k w).prioOf k j = bits (dw w (8 + j)) 5 4 := by
  unfold State.loadDpll
  extract_lets s1 s2 s3 s4 s5 s6 s7 s8 s9
  have hmode : s9.getF TPL_DPLL_CFG.MODE k = bits (dw w 0) 0 2 := by
    unfold s9 s8 s7 s6 s5 s4 s3 s2 s1
    repeat rw [State.getF_setF_ne _ _ TPL_DPLL_CFG.MODE _ _ _ (by decide)]
    exact (State.getF_setF_same _ _ _ _).trans (Nat.mod_mod _ _)
  have hwin : s9.getF TPL_DPLL_LOCK.LOCK_WIN k = bits (dw w 3) 0 16 := by
    unfold s9 s8 s7 s6
    repeat rw [State.getF_setF_ne _ _ TPL_DPLL_LOCK.LOCK_WIN _ _ _ (by decide)]
    exact (State.getF_setF_same _ _ _ _).trans (Nat.mod_mod _ _)
  have hsame : s9.Same [TPL_DPLL_CFG.MODE.id, TPL_DPLL_LOCK.LOCK_WIN.id]
      ((List.range 8).foldl (State.loadPrio k w) s9) :=
    State.foldl_same _ _ (fun t e => t.loadPrio_same (by decide) (by decide) (by decide) k w e) s9
  refine ⟨?_, (hsame TPL_DPLL_CFG.MODE (by decide) k).trans hmode,
    (hsame TPL_DPLL_LOCK.LOCK_WIN (by decide) k).trans hwin, fun j hj => State.loadPrios_entry hj w s9⟩
  exact (State.Kept.foldl (l := [.regs]) (State.loadPrio k w) _ (.refl _ s9) fun t e ht =>
    State.setF_kept _ _ _ (fun _ h => h) (State.setF_kept _ _ _ (fun _ h => h)
      (State.setF_kept _ _ _ (fun _ h => h) ht))).only .dplls (by decide)

/-- A configuration that waits is in force, and waits no more, behind the loop update that takes it (R370). -/
theorem State.takeDpllCfg_law {s : State} {k : Nat} {w : List Word} (h : (s.dpll k).cfg = some w) :
    ((s.takeDpllCfg k).1.dpll k).cfg = none ∧ (s.takeDpllCfg k).1.dpllMode k = bits (dw w 0) 0 2 ∧
      (s.takeDpllCfg k).1.getF TPL_DPLL_LOCK.LOCK_WIN k = bits (dw w 3) 0 16 ∧
      ∀ j, j < 8 → (s.takeDpllCfg k).1.prioRef k j = bits (dw w (8 + j)) 0 5 ∧
        (s.takeDpllCfg k).1.prioOf k j = bits (dw w (8 + j)) 5 4 := by
  obtain ⟨hd, hrest⟩ := (s.upDpll k (fun x => { x with cfg := none })).loadDpll_law k w
  have he : (s.takeDpllCfg k).1 = (s.upDpll k (fun x => { x with cfg := none })).loadDpll k w := by
    rw [State.takeDpllCfg, h]
  rw [he]
  refine ⟨?_, hrest⟩
  have hc : ((s.upDpll k (fun x => { x with cfg := none })).dpll k).cfg = none := by rw [State.dpll_upDpll_same]
  rw [State.dpll, hd]
  exact hc

/-! ### The state machine (R368, R373, R378) -/

/-- No reference is selected where the mode takes none (R373 row 1). -/
theorem State.dpllSelect_off {s : State} {k : Nat} (h : 2 ≤ s.dpllMode k) (perr : Int) (pulse : Bool)
    (old : Option (List Nat)) : (s.dpllSelect k perr pulse old).DpllIn k 0 none := by
  rw [State.dpllSelect, if_pos (by simp [h])]
  exact State.setDpll_in (by decide) (by rw [State.dpll_upDpll_same])

theorem State.reportPps_idle {s : State} {k : Nat} {e : Option Nat} {pulse : Bool} (h : pulse = false ∨ s.onPps k e = false)
    (perr : Int) : s.reportPps k e pulse perr = s := if_neg (by rcases h with h | h <;> simp [h])

theorem State.onPps_none (s : State) (k : Nat) : s.onPps k none = false := by simp [State.onPps]

theorem State.ppsHold_of_onPps {s : State} {k : Nat} {e : Option Nat} (h : s.onPps k e = false) (perr : Int) :
    s.ppsHold k e perr = false := by
  have he : s.ppsHold k e perr = (s.onPps k e && decide (s.stepThresh < (perr.natAbs : Int))) := rfl
  rw [he, h, Bool.false_and]

/-- An entry of DPLL1–3, or of no PPS input, is none of a PPS reference of DPLL0. -/
theorem State.onPps_some {s : State} {k x : Nat} (h : k ≠ 0 ∨ 8 ≤ s.prioRef k x) : s.onPps k (some x) = false := by
  by_cases hk : k = 0
  · subst hk
    have h8 := h.resolve_left (fun hn => hn rfl)
    simp [State.onPps, Nat.not_lt.2 h8]
  · simp [State.onPps, hk]

/-- The entry that FREERUN, HOLDOVER and LOST take, HOLDOVER first the one that it has kept. -/
def State.idleEntry (s : State) (k : Nat) : Option Nat :=
  if s.dpllState k = 3 then (s.selEntry k).orElse (fun _ => s.bestEntry k) else s.bestEntry k

theorem State.idleEntry_lt {s : State} {k x : Nat} (h : s.idleEntry k = some x) : x < 8 := by
  unfold State.idleEntry at h
  split at h
  · cases hs : s.selEntry k with
    | none =>
      rw [hs] at h
      exact State.bestEntry_lt h
    | some e =>
      rw [hs] at h
      exact Option.some.inj h ▸ State.selEntry_lt hs
  · exact State.bestEntry_lt h

theorem State.ChoiceSame.idleEntry {k : Nat} {s t : State} (h : State.ChoiceSame k s t) :
    t.idleEntry k = s.idleEntry k := by simp only [State.idleEntry, h.dpllState, h.selEntry, h.bestEntry]

theorem State.tryAcquire_none {s : State} {k : Nat} (h : s.idleEntry k = none) (perr : Int) (pulse : Bool) :
    s.tryAcquire k perr pulse = s := by
  unfold State.idleEntry at h
  unfold State.tryAcquire
  cases hs : s.selEntry k with
  | none => simp_all
  | some e => split at h <;> simp_all

theorem State.tryAcquire_some {s : State} {k x : Nat} (h : s.idleEntry k = some x) (hd : k ≠ 0 ∨ s.time.disc = none)
    (hx : k ≠ 0 ∨ 8 ≤ s.prioRef k x) (perr : Int) (pulse : Bool) : s.tryAcquire k perr pulse = s.acquire k x := by
  have hpps := State.onPps_some hx
  have hentry : (match s.selEntry k with
      | some e => if s.dpllState k = 3 then some e else s.bestEntry k
      | none => s.bestEntry k) = some x := by
    unfold State.idleEntry at h
    cases hs : s.selEntry k with
    | none => simp_all
    | some e => split at h <;> simp_all
  unfold State.tryAcquire
  extract_lets e
  have he : e = some x := hentry
  rw [he]
  dsimp only
  rw [State.reportPps_idle (.inr hpps), State.ppsHold_of_onPps hpps, if_neg (by rcases hd with hd | hd <;> simp [hd])]

/-- FREERUN, LOST and HOLDOVER in a mode that takes references (R373 rows 2 and 11). -/
theorem State.dpllSelect_idle {s : State} {k : Nat} (hm : s.dpllMode k < 2)
    (hst : s.dpllState k = 0 ∨ s.dpllState k = 3 ∨ s.dpllState k = 4) (perr : Int) (pulse : Bool)
    (old : Option (List Nat)) :
    (s.idleEntry k = none → (s.dpllSelect k perr pulse old).DpllIn k (s.dpllState k) (s.dpll k).sel) ∧
    (∀ x, s.idleEntry k = some x → k ≠ 0 ∨ s.time.disc = none ∧ 8 ≤ s.prioRef k x →
      (s.dpllSelect k perr pulse old).DpllIn k 1 (some (s.prioRef k x)) ∧
        (s.dpllSelect k perr pulse old).getF TPL_DPLL_STAT.SEL k = x) := by
  have hidle : ¬ (s.dpllState k = 1 ∨ s.dpllState k = 2) := by omega
  rw [State.dpllSelect, if_neg (by simp [hm]), if_neg hidle]
  extract_lets u
  have hchoice : State.ChoiceSame k s u := by
    unfold u
    split
    · exact ⟨.of_regs rfl, by rw [State.dpll_upDpll_same], by rw [State.dpll_upDpll_same]⟩
    · exact ⟨.refl _ s, rfl, rfl⟩
  have htime : u.time = s.time := by
    unfold u
    split <;> rfl
  clear_value u
  rw [← hchoice.idleEntry, ← hchoice.dpllState, ← hchoice.sel, ← hchoice.prioRef, ← htime]
  refine ⟨fun h => ?_, fun x h hx => ?_⟩
  · rw [State.tryAcquire_none h]
    exact ⟨rfl, rfl⟩
  · rw [State.tryAcquire_some h (hx.imp_right And.left) (hx.imp_right And.right)]
    exact ⟨u.acquire_in k x, u.acquire_sel k (State.idleEntry_lt h)⟩

theorem State.dpllSelect_tracks {s : State} {k : Nat} (hm : s.dpllMode k < 2)
    (hst : s.dpllState k = 1 ∨ s.dpllState k = 2) (perr : Int) (pulse : Bool) (old : Option (List Nat)) :
    s.dpllSelect k perr pulse old = s.tryHold k perr pulse old := by
  rw [State.dpllSelect, if_neg (by simp [hm]), if_pos hst]

/-- With no discontinuity record and no PPS input, the state machine looks at the selected entry (R373 rows 4 to 8). -/
theorem State.tryHold_eq {s : State} {k : Nat} (hd : k ≠ 0 ∨ s.time.disc = none) (hp : s.onPps k (s.selEntry k) = false)
    (perr : Int) (pulse : Bool) (old : Option (List Nat)) : s.tryHold k perr pulse old =
      match s.selEntry k with
      | none =>
        match s.bestEntry k with
        | some e => s.switchTo k e
        | none => if s.isF TPL_DPLL_CFG.HO_EN k && s.histValid k then s.holdAt k 3 (s.history k) else s.holdAt k 4 0
      | some e =>
        let s := s.setF TPL_DPLL_STAT.SEL e k
        match s.newlyOutranking k old with
        | some x => s.switchTo k x
        | none =>
          if s.dpllState k == 2 && decide (4 * s.getF TPL_DPLL_LOCK.LOCK_WIN k < perr.natAbs) then
            (s.setF TPL_DPLL_HIST.UNLOCK 1 k).setDpll k 1
          else s := by
  rw [State.tryHold, State.reportPps_idle (.inr hp), State.ppsHold_of_onPps hp]
  exact if_neg (by rcases hd with hd | hd <;> simp [hd])

/-- The selected reference is selectable no longer (R373 rows 4, 6 and 7). -/
theorem State.tryHold_lost {s : State} {k : Nat} (hd : k ≠ 0 ∨ s.time.disc = none) (hs : s.selEntry k = none)
    (perr : Int) (pulse : Bool) (old : Option (List Nat)) :
    (∀ x, s.bestEntry k = some x → (s.tryHold k perr pulse old).DpllIn k 1 (some (s.prioRef k x)) ∧
      (s.tryHold k perr pulse old).isF TPL_DPLL_HIST.SWITCH k = true) ∧
    (s.bestEntry k = none → (s.tryHold k perr pulse old).DpllIn k
      (if s.isF TPL_DPLL_CFG.HO_EN k && s.histValid k then 3 else 4) none) := by
  rw [State.tryHold_eq hd (by rw [hs, State.onPps_none]), hs]
  dsimp only
  refine ⟨fun x hx => ?_, fun hn => ?_⟩
  · rw [hx]
    exact s.switchTo_law k x
  · rw [hn]
    dsimp only
    split
    · exact s.holdAt_in k _ (by decide)
    · exact s.holdAt_in k _ (by decide)

/-- DPLL1–3 keep a reference that is selectable, and unlock beyond four LOCK_WIN (R373 rows 5 and 8). -/
theorem State.tryHold_kept_state {s : State} {k x : Nat} (hk : k ≠ 0) (hs : s.selEntry k = some x) (perr : Int)
    (pulse : Bool) : (s.tryHold k perr pulse none).dpllState k =
      if s.dpllState k = 2 ∧ 4 * s.getF TPL_DPLL_LOCK.LOCK_WIN k < perr.natAbs then 1 else s.dpllState k := by
  have hst : (s.setF TPL_DPLL_STAT.SEL x k).dpllState k = s.dpllState k := s.getF_setF_ne _ _ _ _ _ (by decide)
  have hwin : (s.setF TPL_DPLL_STAT.SEL x k).getF TPL_DPLL_LOCK.LOCK_WIN k = s.getF TPL_DPLL_LOCK.LOCK_WIN k :=
    s.getF_setF_ne _ _ _ _ _ (by decide)
  rw [State.tryHold_eq (.inl hk) (by rw [hs]; exact State.onPps_some (.inl hk)), hs]
  dsimp only [State.newlyOutranking]
  rw [hst, hwin]
  by_cases h : s.dpllState k = 2 ∧ 4 * s.getF TPL_DPLL_LOCK.LOCK_WIN k < perr.natAbs
  · rw [if_pos (by simp [h]), if_pos h]
    exact State.setDpll_state _ k (by decide)
  · rw [if_neg (by simpa using h), if_neg h]
    exact hst

/-- DPLL0 goes to HOLDOVER while a discontinuity record is pending and no pulse bears on it (R305). -/
theorem State.tryHold_disc {s : State} (hd : s.time.disc ≠ none) (perr : Int) (old : Option (List Nat)) :
    (s.tryHold 0 perr false old).dpllState 0 = 3 := by
  rw [State.tryHold, State.reportPps_idle (.inl rfl)]
  dsimp only
  rw [if_pos (by simp [Option.isSome_iff_ne_none, hd])]
  exact State.setDpll_state _ 0 (by decide)

/-! ### Between updates (R369, R373) -/

theorem exec_dpllLockTime_law (k : Nat) (s : State) :
    (s.dpllState k = 1 → (signed 32 (s.getF TPL_DPLL_PERR.PERR k)).natAbs ≤ s.getF TPL_DPLL_LOCK.LOCK_WIN k →
      ∃ t, exec (.dpllLockTime k) s = .next t ∧ t.dpllState k = 2) ∧
    (s.dpllState k ≠ 1 ∨ s.getF TPL_DPLL_LOCK.LOCK_WIN k < (signed 32 (s.getF TPL_DPLL_PERR.PERR k)).natAbs →
      exec (.dpllLockTime k) s = .next s) := by
  refine ⟨fun h1 hw => ⟨s.setDpll k 2, congrArg Host.Outcome.next (if_pos (by simp [h1, hw])),
    s.setDpll_state k (by decide)⟩, fun h => congrArg Host.Outcome.next (if_neg ?_)⟩
  rcases h with h | h
  · simp [h]
  · simp [Nat.not_le.2 h]

theorem exec_dpllWtrExpiry_law (k : Nat) (s : State) :
    (∀ x, s.dpllState k = 1 ∨ s.dpllState k = 2 → s.dpllMode k = 0 → s.firstWait k = some x →
      exec (.dpllWtrExpiry k) s = .next (s.switchTo k x)) ∧
    ((s.dpllState k ≠ 1 ∧ s.dpllState k ≠ 2) ∨ s.dpllMode k ≠ 0 ∨ s.firstWait k = none →
      exec (.dpllWtrExpiry k) s = .next s) := by
  have he : exec (.dpllWtrExpiry k) s = execDpllWtrExpiry k s := rfl
  rw [he, execDpllWtrExpiry]
  refine ⟨fun x hst hm hx => ?_, fun h => ?_⟩
  · rw [if_pos (by simp [hst, hm]), hx]
  · rcases h with h | h | h
    · rw [if_neg (by simp [h])]
    · rw [if_neg (by simp [h])]
    · rw [h]
      split <;> rfl

theorem exec_holdoverLimitExpiry_law (k : Nat) (s : State) :
    (s.dpllState k = 3 → s.getF TPL_DPLL_HOLD.HO_LIMIT_S k ≠ 0 →
      ∃ t, exec (.holdoverLimitExpiry k) s = .next t ∧ t.dpllState k = 4) ∧
    (s.dpllState k ≠ 3 ∨ s.getF TPL_DPLL_HOLD.HO_LIMIT_S k = 0 → exec (.holdoverLimitExpiry k) s = .next s) := by
  refine ⟨fun h3 hl => ⟨s.setDpll k 4, congrArg Host.Outcome.next (if_pos (by simp [h3, State.isF, hl])),
    s.setDpll_state k (by decide)⟩, fun h => congrArg Host.Outcome.next (if_neg ?_)⟩
  rcases h with h | h <;> simp [State.isF, h]

end Sys2Proof.Machine

namespace Sys2Proof.Proofs

open Sys2Proof.Machine

/-- Settles O38: what the state machine decides from the state before it stands behind the move of the output, which PSL_PPB
bounds whatever the loop steers to. -/
theorem dpllsAcquireLockHoldAndSwitch : Obligations.DpllsAcquireLockHoldAndSwitch := by
  unfold Obligations.DpllsAcquireLockHoldAndSwitch
  refine ⟨fun k e b s h => congrArg Host.Outcome.next (if_pos (by simp [h])), fun k e b w s _ hr hw href => ?config,
    fun k e b s _ hr hc href => ?update, fun k s _ => ?events⟩
  case config =>
    refine ⟨_, exec_dpllLoopUpdate hr href, ?_⟩
    obtain ⟨hnone, hmode, hwin, hprio⟩ := State.takeDpllCfg_law hw
    generalize (s.takeDpllCfg k).1 = c at hnone hmode hwin hprio ⊢
    generalize c.phaseError k e b (s.takeDpllCfg k).2 = x
    obtain ⟨hcfg, hsame, -, -⟩ := c.loopRun_law k x b (s.takeDpllCfg k).2
    refine ⟨hcfg.trans hnone, (hsame TPL_DPLL_CFG.MODE (by decide) k).trans hmode,
      (hsame TPL_DPLL_LOCK.LOCK_WIN (by decide) k).trans hwin, fun j hj => ⟨?_, ?_⟩⟩
    · exact (hsame TPL_DPLL_PRIO.REF (by decide) _).trans (hprio j hj).1
    · exact (hsame TPL_DPLL_PRIO.PRIO (by decide) _).trans (hprio j hj).2
  case update =>
    refine ⟨_, exec_dpllLoopUpdate hr href, ?_⟩
    have hperr : k ≠ 0 → s.phaseError k e b none = (e - (s.dpll k).zero, false) := fun hk =>
      if_neg fun h => hk h.1
    rw [State.takeDpllCfg_idle hc]
    dsimp only
    generalize s.phaseError k e b none = x at hperr ⊢
    obtain ⟨-, -, hfine, hfoff⟩ := s.loopRun_law k x b none
    obtain ⟨hstate, hsel, hshown, hswitch⟩ := State.loopRun_shows (rfl : (s.loopStart k x).dpllSelect k x.1 b none = _)
    have hchoice := s.loopStart_choice k x
    have hdisc := (s.loopStart_rest k x).2
    rw [hstate, hsel, hshown, hswitch]
    generalize s.loopStart k x = u at hchoice hdisc hstate ⊢
    refine ⟨fun hm => ?off, fun hm hst c hcc => ?idle, fun hm hst hd => ?track, fun hm hst hk hb hd => ?disc, hfine, hfoff⟩
    case off =>
      exact State.dpllSelect_off (by rw [hchoice.dpllMode]; exact hm) _ _ _
    case idle =>
      obtain ⟨hnone, hsome⟩ := State.dpllSelect_idle (s := u) (k := k) (by rw [hchoice.dpllMode]; exact hm)
        (by rw [hchoice.dpllState]; exact hst) x.1 b none
      rw [hchoice.idleEntry, hchoice.dpllState, hchoice.sel] at hnone
      rw [hchoice.idleEntry, hchoice.prioRef, hdisc] at hsome
      refine ⟨fun h => hnone (hcc.symm.trans h), fun y h hy => ?_⟩
      obtain ⟨hin, hshows⟩ := hsome y (hcc.symm.trans h) hy
      exact ⟨hin.1, hin.2, hshows⟩
    case track =>
      rw [State.dpllSelect_tracks (by rw [hchoice.dpllMode]; exact hm) (by rw [hchoice.dpllState]; exact hst)]
      have hd' : k ≠ 0 ∨ u.time.disc = none := by rw [hdisc]; exact hd
      refine ⟨fun y hs hy => ?_, fun hs hn => ?_, fun y hs hk => ?_⟩
      · obtain ⟨hin, hshows⟩ := (State.tryHold_lost hd' (hchoice.selEntry.trans hs) x.1 b none).1 y
          (hchoice.bestEntry.trans hy)
        exact ⟨hin.1, hin.2.trans (by rw [hchoice.prioRef]), hshows⟩
      · obtain ⟨hst', hsel'⟩ := (State.tryHold_lost hd' (hchoice.selEntry.trans hs) x.1 b none).2
          (hchoice.bestEntry.trans hn)
        refine ⟨hsel', hst'.trans ?_⟩
        rw [hchoice.isF (f := TPL_DPLL_CFG.HO_EN) (by decide), hchoice.histValid]
      · rw [State.tryHold_kept_state hk (hchoice.selEntry.trans hs), hchoice.dpllState,
          hchoice.fields TPL_DPLL_LOCK.LOCK_WIN (by decide), hperr hk]
    case disc =>
      subst hk hb
      rw [hstate, State.dpllSelect_tracks (by rw [hchoice.dpllMode]; exact hm) (by rw [hchoice.dpllState]; exact hst)]
      exact State.tryHold_disc (by rw [hdisc]; exact hd) _ _
  case events =>
    obtain ⟨hlock, hunlocked⟩ := exec_dpllLockTime_law k s
    obtain ⟨hswitch, hwait⟩ := exec_dpllWtrExpiry_law k s
    obtain ⟨hlimit, hheld⟩ := exec_holdoverLimitExpiry_law k s
    refine ⟨hlock, hunlocked, fun x hst hm hx => ⟨_, hswitch x hst hm hx, ?_⟩, hwait, hlimit, hheld⟩
    obtain ⟨⟨h1, hsel⟩, hshows⟩ := s.switchTo_law k x
    exact ⟨h1, hsel, hshows⟩

end Sys2Proof.Proofs
end
